-- ==== Sys2Proof/Word.lean ====
section
/-!
DEFINITION. The machine's words: registers of 32 and 64 bits, bytes, lane masks (R6, R122, R123).
-/
namespace Sys2Proof

/-- One vector register of one lane, 32 bits (R122). -/
abbrev Word := BitVec 32

/-- One scalar register, 64 bits (R123), and a pair's value. -/
abbrev DWord := BitVec 64

/-- One byte of memory. -/
abbrev Byte := BitVec 8

/-- A set of logical lanes: bit L is lane L (R392, R409). -/
abbrev Mask := BitVec 64

end Sys2Proof
end

