-- ==== Sys2Proof/Config.lean ====
section
/-!
DEFINITION. What the part fixes (R10 to R17, R83 to R87, R100) and the free values (opaque, no body).
-/
namespace Sys2Proof.Config

/-- Group contexts and frames of a core (R84, R408). -/
def contexts : Nat := 96
/-- Register units of a core, 2 KiB each (R85). -/
def units : Nat := 256
/-- Scratchpad chunks of a core, 512 bytes each (R238). -/
def chunks : Nat := 1024
/-- Physical message ports of a core (R364). -/
def ports : Nat := 64
/-- Pattern entries of a core (R372). -/
def patterns : Nat := 32
/-- Line-request entries of a core (R282). -/
def lineRequests : Nat := 1024
/-- Walks in flight of a die (R322). -/
def walks : Nat := 64
/-- Core TLB and last-level TLB entries (R322). -/
def coreTlb : Nat := 512
def dieTlb : Nat := 16384
/-- Snoop filter entries of a die (R280). -/
def filter : Nat := 2097152
/-- Lines of 128 bytes of an L1, of a die's remote-data cache and of its L2 (R277 to R279). -/
def l1Lines : Nat := 5120
def rdcLines : Nat := 524288
def l2Lines : Nat := 1048576
/-- CALLQ descriptors (R388). -/
def callq : Nat := 128
/-- Depth of a mailbox port (R390). -/
def mboxDepth : Nat := 16
/-- Held-list entries of a core (R368). -/
def heldEntries : Nat := 4096
/-- Range entries of the dependence table (R344). -/
def depRanges : Nat := 16384
/-- Rated life of a block in micro wear units: 87,600 WU (R429). -/
def ratedLife : Nat := 87600000000
/-- Default snapshot pool: 16 GiB in 64 KiB pages (R420). -/
def snapPages : Nat := 262144
/-- 64 KiB pages of a die that the survey kernel keeps for rename pools (log 9). -/
def renamePages : Nat := 1310720
/-- Budget capacities of a period: NoC slots, HBM units; power is PWRCAP (R445). -/
def nocCap : Nat := 16384
def hbmCap : Nat := 18432
/-- Bin timer and park starvation limits in ck (R100, R86). -/
def binTimer : Nat := 4096
def parkLimit : Nat := 65536
/-- The filler word of R52. -/
def filler : BitVec 96 := 0x1800FBC00000000000000000#96

/-- Free value (log 2): whether the read-only path serves the n-th default-scheduled issue from an older write (R297). -/
opaque roStale : Nat → Bool

/-- Free value (log 2): the place of a lane's message among those of its instruction, by a count and the lane (R366). -/
opaque laneKey : Nat → Nat → Nat

/-- Free value (log 2): the phase bit of a completion entry that no ring holds (R391). -/
opaque nvmePhase : Nat → Bool
/-- Free value (log 2): a status that the call table does not state (R400, R401). -/
opaque status : Nat → BitVec 64
/-- Free value (log 2): QCREATE's result from the queue number and the page address, whose packing the call table does not state
(R400). -/
opaque qcreateWord : Nat → Nat → BitVec 64

/-- Free value (log 10): the flit injection slots of the cluster router that traffic of so many bytes takes (R445). -/
opaque nocSlots : Nat → Nat
/-- Free value (log 10): the energy in nJ that R445's fixed model counts, by class and by ck of activity. -/
opaque energy : Nat → Nat → Nat

/-- Free value (log 10): the ck that a Traverse engine or a Surveyor spends on moving so many bytes (R442). -/
opaque engineCk : Nat → Nat

/-- Free value (log 10): the ck that a Surveyor spends on a call, by its number (R442). -/
opaque callCk : Nat → Nat

/-- Free value (log 8): whether a signature verifies: algorithm, key, message, signature (R449, R452, R453). -/
opaque sigOk : Nat → Nat → List Byte → List Byte → Bool
/-- Free value (log 8): the signature of a message under a key slot's key; the counter makes ML-DSA's hedged signing fresh (R458). -/
opaque sign : Nat → Nat → List Byte → Nat → List Byte
/-- Free value (log 8): a freshly generated key (R453). -/
opaque freshKey : Nat → Nat
/-- Free value (log 8): the public key bytes of the device identity (R448, R459). -/
opaque deviceKey : Nat → List Byte
/-- Free value (log 8): the public part of an owner seal key (R448). -/
opaque sealPublic : Nat → List Byte
/-- Free value (log 8): a signature of the device identity key (R450). -/
opaque deviceSign : List Byte → Nat → List Byte
/-- Free value (log 2): the first drift measurement of a block after a reset (R496). -/
opaque bootDrift : Nat → Nat
/-- Free value (log 2): how far the seal numbering moves on over a power loss (R460). -/
opaque sealGap : Nat → Nat
/-- Free value (log 8): the fingerprint of the maker's public key, and the certificate of the device identity key (R448). -/
opaque makerFingerprint : Nat → List Byte
opaque deviceCert : Nat → List Byte
/-- Free value (log 8): the bytes of an owner's public key (R452). -/
opaque publicKey : Nat → List Byte
/-- Free value (log 8): TRUST's 32-byte nonce of an ownership transfer (R452). -/
opaque nonce : Nat → List Byte

end Sys2Proof.Config
end

