-- ==== Sys2Proof/Syntax.lean ====
section
/-!
DEFINITION. The instruction set as syntax: the operands of R35, the six formats of R31 under the common prefix
of R30, and one constructor of `Instr` for each row of the opcode table. The first 137 constructors are instruction
words (R59). The other 127 are the steps that the part's other agents and the outside world take (spec/95): they have
no encoding, and their arguments carry what the spec leaves to a choice or to an input.
-/
namespace Sys2Proof

/-- Status registers 128 to 139 (R36, R131). -/
inductive StReg
  | lanenum | gwidth | groupid | teamid | teamsize | sheetid | coreid | fflags | cycle | stage | wear | lanemap
  deriving DecidableEq, Repr

/-- What a 10-bit operand field names (R35). An unused field is the zero field, `v 0` (R34). -/
inductive Opnd
  | v (n : BitVec 8)
  | s (n : BitVec 7)
  | st (r : StReg)
  | b (n : BitVec 2)
  | p (n : BitVec 4)
  | imm (x : BitVec 8)
  deriving DecidableEq, Repr

/-- The common prefix without the opcode and MOD (R30): guards, cache or branch hint, STALL, Y, NWB, CAP. -/
structure Pfx where
  ga : BitVec 5
  gb : BitVec 5
  ch : BitVec 4
  stall : BitVec 4
  y : Bool
  nwb : Bool
  cap : BitVec 2
  deriving DecidableEq, Repr

/-- Format F5 (R31). -/
structure F5 where
  pf : Pfx
  mod : BitVec 6
  d : Opnd
  a : Opnd
  b : Opnd
  c : Opnd
  e : Opnd
  imm8 : BitVec 8
  deriving DecidableEq, Repr

/-- Format RI (R31). -/
structure FRI where
  pf : Pfx
  mod : BitVec 6
  d : Opnd
  a : Opnd
  imm : BitVec 32
  ext : BitVec 6
  deriving DecidableEq, Repr

/-- Format M (R31). -/
structure FM where
  pf : Pfx
  mod : BitVec 6
  data : Opnd
  base : Opnd
  index : Opnd
  off : BitVec 24
  size : BitVec 4
  deriving DecidableEq, Repr

/-- Format B (R31); bits [2:0] are reserved and have no place here. -/
structure FB where
  pf : Pfx
  mod : BitVec 6
  cond : Opnd
  reg : Opnd
  loff : BitVec 32
  slot : BitVec 3
  deriving DecidableEq, Repr

/-- Format X (R31); bits [7:0] are reserved. CD names c0 to c15, TA and TB name t0 to t15. -/
structure FX where
  pf : Pfx
  mod : BitVec 6
  cd : BitVec 4
  ta : BitVec 4
  tb : BitVec 4
  sa : Opnd
  sb : Opnd
  bsel : BitVec 8
  xf : BitVec 10
  deriving DecidableEq, Repr

/-- Format Y (R31); bits [11:0] are reserved. -/
structure FY where
  pf : Pfx
  mod : BitVec 6
  ya : Opnd
  yb : Opnd
  yc : Opnd
  code : BitVec 16
  deriving DecidableEq, Repr

/-- A write of a host in a submission page: the offset in the page, whether it is one transaction, the bytes (R341, R342). -/
structure HostWrite where
  off : Nat
  whole : Bool
  bytes : List Byte
  deriving DecidableEq, Repr

/-- A page that a page-fault reply or a kernel service maps: the virtual page, the page granted, the leaf's level and
permission bits, and the memory shards' free nodes it uses (R318 to R320, R327). -/
structure MapReq where
  va : Nat
  pa : Nat
  level : Nat
  perm : Nat
  nodes : List Nat
  deriving DecidableEq, Repr

/-- A physical lane of a core's pipe: the core, the checking pipe or the primary, the position (R135, R436). -/
structure LaneId where
  core : Nat
  checking : Bool
  lane : Nat
  deriving DecidableEq, Repr

/-- A block whose wear is counted: a core, a half of one of its pipes (0, 1 primary; 2, 3 checking), a Surveyor (R430). -/
inductive WearBlock
  | core (c : Nat)
  | half (c h : Nat)
  | surv (k : Nat)
  deriving DecidableEq, Repr
/-- One row of a wear report: a block, its increment in micro wear units, its drift in units of 0.1 % (R430, R431). -/
structure WearEntry where
  block : WearBlock
  wu : Nat
  di : Nat
  deriving DecidableEq, Repr

/-- Where an uncorrectable error struck (R421, R491). -/
inductive BadPlace
  | mem (pa : Nat)
  | vreg (core gid reg lane : Nat)
  | sreg (core gid reg : Nat)
  | tile (core t : Nat)
  | acc (core c : Nat)
  | scratch (core team addr : Nat)
  | l1 (core word : Nat)
  deriving DecidableEq, Repr

/-- A firmware image: the boot stage, its version, body, and signatures (R449, R450). -/
structure Image where
  version : Nat
  body : List Byte
  makerSig : List Byte
  ownerSig : List Byte
  deriving DecidableEq, Repr

/-- A queue that a host opens when it appears: number, window slot, address space, ceiling and quota (R340, R341). -/
structure QueueReq where
  num : Nat
  slot : Nat
  asn : Nat
  page : Nat
  ceiling : Nat
  quota : Nat
  deriving DecidableEq, Repr

/-- The rows of the opcode table, in its order. -/
inductive Instr
  | bra (o : FB)
  | bri (o : FB)
  | call (o : FB)
  | calli (o : FB)
  | ret (o : FB)
  | rcv (o : FB)
  | exit (o : FY)
  | waypt (o : FY)
  | tbar (o : FY)
  | spawn (o : FB)
  | binfl (o : FY)
  | yield (o : FY)
  | nap (o : FRI)
  | elect (o : F5)
  | iadd (o : F5)
  | isub (o : F5)
  | iaddc (o : F5)
  | imul (o : F5)
  | imulh (o : F5)
  | imad (o : F5)
  | imadw (o : F5)
  | idiv (o : F5)
  | irem (o : F5)
  | ishl (o : F5)
  | ishr (o : F5)
  | isra (o : F5)
  | irot (o : F5)
  | logic (o : F5)
  | bfx (o : F5)
  | bfi (o : F5)
  | popc (o : F5)
  | clz (o : F5)
  | ctz (o : F5)
  | brev (o : F5)
  | imin (o : F5)
  | imax (o : F5)
  | iabs (o : F5)
  | icmp (o : F5)
  | dot4 (o : F5)
  | dot8 (o : F5)
  | mov (o : F5)
  | movi (o : FRI)
  | movs (o : F5)
  | sel (o : F5)
  | plog (o : F5)
  | pmov (o : F5)
  | fadd (o : F5)
  | fsub (o : F5)
  | fmul (o : F5)
  | fma (o : F5)
  | fmin (o : F5)
  | fmax (o : F5)
  | fcmp (o : F5)
  | fclass (o : F5)
  | frcp (o : F5)
  | frsq (o : F5)
  | fsqrt (o : F5)
  | fdiv (o : F5)
  | fexp2 (o : F5)
  | flog2 (o : F5)
  | fsin (o : F5)
  | fcos (o : F5)
  | hadd2 (o : F5)
  | hmul2 (o : F5)
  | hfma2 (o : F5)
  | dadd (o : F5)
  | dmul (o : F5)
  | dfma (o : F5)
  | cvt (o : F5)
  | pack (o : F5)
  | unpack (o : F5)
  | shfl (o : F5)
  | lred (o : F5)
  | lscan (o : F5)
  | vote (o : F5)
  | ballot (o : F5)
  | bcast (o : F5)
  | ld (o : FM)
  | st (o : FM)
  | ldro (o : FM)
  | rosync (o : FY)
  | atom (o : FM)
  | cas (o : FM)
  | fence (o : FY)
  | pref (o : FM)
  | put (o : FM)
  | puts (o : FM)
  | winwait (o : FY)
  | winrd (o : FY)
  | xqry (o : FM)
  | sld (o : FM)
  | sst (o : FM)
  | satom (o : FM)
  | cstart (o : FY)
  | stage (o : FY)
  | cwait (o : FY)
  | ctest (o : FY)
  | cpy (o : FM)
  | send (o : F5)
  | sendx (o : F5)
  | recv (o : F5)
  | rpeek (o : F5)
  | patarm (o : FY)
  | patdis (o : FY)
  | pstat (o : F5)
  | tld (o : FM)
  | tst (o : FM)
  | tzero (o : FX)
  | czero (o : FX)
  | mma (o : FX)
  | mmake4m3 (o : FX)
  | mmake5m2 (o : FX)
  | mmake3m2 (o : FX)
  | mmake2m3 (o : FX)
  | mmake2m1 (o : FX)
  | mmacb (o : FX)
  | cbload (o : FM)
  | qnt (o : FX)
  | dqnt (o : FX)
  | crd (o : FX)
  | cwr (o : FX)
  | mopen (o : FY)
  | mclose (o : FY)
  | mwait (o : FY)
  | task (o : FY)
  | sheet (o : FY)
  | qnote (o : FY)
  | sys (o : FY)
  | sysa (o : FY)
  | sysw (o : FY)
  | trap (o : FY)
  | bkpt (o : FY)
  | fchk (o : FY)
  | wearrd (o : F5)
  | budrd (o : F5)
  | seal (o : FY)
  | sealx (o : FY)
  | pickerPassedOverLimit (core gid : Nat)
  | binTimerExpiry (core bin : Nat)
  | napExpiry (gid : Nat)
  | barrierRelease (team k : Nat)
  | groupUnpark (core : Nat)
  | parkStarvationTimeout (core : Nat)
  | groupContextFree (gid : Nat)
  | teamScratchReturn (team : Nat)
  | holdershipGrant (core : Nat)
  | batchComplete (gid : Nat)
  | engineChunkReady (gid : Nat)
  | chunkWaitResume (gid : Nat)
  | stageRoundLimitResume (gid : Nat)
  | multicastRoundStart (team rid : Nat)
  | chunkLand (team rid chunk : Nat)
  | writebackChunkDrain (team rid chunk : Nat)
  | enginePageFault (team rid job : Nat) (maps : List MapReq)
  | portMessageArrival (n : Nat)
  | heldMessageEnter (team port : Nat)
  | blockedSendEnter (team port : Nat)
  | spawnLimitResume (sheet : Nat)
  | requestEntryGrant (core : Nat)
  | memoryResponseReturn (core n : Nat)
  | markedLineEvict (line : Nat)
  | cxlBackInvalidate (line : Nat)
  | walkComplete (die n : Nat)
  | walkGrant (die : Nat)
  | pageFaultReply (gid shard gen : Nat) (maps : List MapReq)
  | generationAdvance (die : Nat)
  | xgenTicket (agent : Nat)
  | xgenInval (agent : Nat) (w : DWord)
  | xgenDone (agent : Nat) (g : DWord)
  | putArrival (n : Nat)
  | putAckReceipt (n : Nat)
  | winwaitSatisfied (gid : Nat)
  | flitReceive (port : Nat) (flit : List Byte)
  | flitRetryRequest (port ackseq : Nat)
  | fabricLaneSpare (port : Nat)
  | fabricLinkDown (port : Nat)
  | hostSubmit (queue : Nat) (data : HostWrite)
  | wake (queue : Nat) (w : DWord)
  | sheetStart (queue : Nat)
  | taskDispatch (sheet task : Nat)
  | teamPlacement (sheet task : Nat)
  | gangPlacement (sheet : Nat)
  | ageingStep (sheet team : Nat)
  | gangReservation (sheet : Nat)
  | balancerTick
  | migration (n : Nat)
  | forwardingEntryRemove (core team : Nat)
  | sheetRetire (sheet : Nat)
  | taskCompletion (sheet task : Nat)
  | queueUnmap (queue : Nat)
  | queueRemap (queue slot : Nat)
  | sealJobStart (sheet : Nat)
  | callqAppend (sv : Nat)
  | callqPop (sv : Nat)
  | replyPost (sv : Nat) (w : DWord)
  | mboxTxAux (sv : Nat) (w : DWord)
  | mboxDelivery (sv : Nat)
  | mboxRxPop (sv port : Nat)
  | callCopyIn (sv : Nat) (w : DWord)
  | callCopyOut (sv : Nat) (w : DWord)
  | callCopyDone (sv : Nat)
  | ccopyStat (sv : Nat)
  | sverr (sv : Nat) (w : DWord)
  | svTimerExpiry (sv : Nat)
  | nvmeDoorbell (sv pair : Nat) (w : DWord)
  | nvmeCompletion (pair cid status : Nat) (data : List Byte)
  | ethRx (queue : Nat) (frame : List Byte)
  | utcNtpSet (ns : Nat)
  | sysTime (slot lane : Nat)
  | sysTimeset (slot lane : Nat)
  | sysAlloc (slot lane va : Nat) (maps : List MapReq)
  | sysFree (slot lane : Nat)
  | sysOpen (slot lane inode : Nat)
  | sysClose (slot lane : Nat)
  | sysRead (slot lane buf : Nat)
  | sysWrite (slot lane buf : Nat)
  | sysFsize (slot lane : Nat)
  | sysSocksend (slot lane count buf : Nat)
  | sysSockrecv (slot lane count buf : Nat)
  | sysQcreate (slot lane qnum page : Nat)
  | sysQintr (slot lane : Nat)
  | sysQgrant (slot lane : Nat)
  | sysWinreg (slot lane entry : Nat)
  | sysWinfree (slot lane : Nat)
  | sysLoad (slot lane : Nat) (maps : List MapReq)
  | sysCkptreg (slot lane : Nat)
  | sysCaptreg (slot lane : Nat)
  | sysFhold (slot lane : Nat)
  | sysOwnerHandlerCall (slot lane : Nat) (result : DWord)
  | callPass (sv slot lane : Nat)
  | preempt (sv : Nat) (w : DWord)
  | evict (sv : Nat) (w : DWord)
  | resume (sv : Nat) (w : DWord)
  | retry (sv : Nat) (w : DWord)
  | next (sv : Nat) (w : DWord)
  | step (sv : Nat) (w : DWord)
  | kill (sv : Nat) (w : DWord)
  | halt (sv : Nat) (w : DWord)
  | gctlStat (sv : Nat)
  | sheetRollback (sheet : Nat)
  | checkpoint
  | checkpointRestore
  | captureRerun (queue sheet : Nat)
  | wearReport (entries : List WearEntry) (failed : List LaneId)
  | clusterClockStep (cluster : Nat)
  | lanemapRewrite (core : Nat)
  | coreRetire (core : Nat)
  | hbmScrub (page newPage channel : Nat)
  | budgetPeriod (cluster : Nat)
  | budgetSpillGrant (gid : Nat)
  | powerOnReset
  | quoteRequest (nonce : List Byte)
  | ownershipTransfer (alg key : Nat) (sig : List Byte)
  | sealKeyCreate (slot alg : Nat) (sig : List Byte)
  | sealKeyDestroy (slot : Nat) (sig : List Byte)
  | thermalTrip (celsius : Nat)
  | thermalResume (celsius : Nat)
  | coolantOvertemp (celsius : Nat)
  | undervoltage (on : Nat)
  | registerWrite (agent addr : Nat) (w : DWord)
  | uncorrectableError (place : BadPlace)
  | hostCxlMemAccess (port pa len write : Nat) (data : List Byte)
  | recoveryImageWrite (stage copy : Nat) (image : Image)
  | hostAppears (port : Nat) (queues : List QueueReq)
  deriving DecidableEq, Repr

end Sys2Proof
end

