-- ==== Sys2Proof/Machine/SigLane.lean ====
section
/-!
DEFINITION. What an instruction's description fixes about its fields (R33 to R41, R46, R53, R54, R59, R61): scope, unit,
hint, the operands with the kinds and widths each accepts, and the values MOD and the other fields may take. This file
gives the shared vocabulary and the entries of the control, lane-arithmetic and lane-crossing instructions.
-/
namespace Sys2Proof.Machine

/-- R41. -/
inductive Scope | l | u | k
  deriving DecidableEq, Repr

/-- R61. -/
inductive UnitKind | ctl | int | fpu | dpu | cvt | xln | mem | spd | mtx | prt | tsk | svc | sta | seal
  deriving DecidableEq, Repr

/-- The kinds of R35. -/
inductive Kind | v | s | st | b | p | i
  deriving DecidableEq, Repr

/-- Which hint CH carries (R53, R54). -/
inductive Hint | none | cache | branch
  deriving DecidableEq, Repr

/-- One operand in use: the kinds its field accepts; its value's width in 32-bit registers; the count of vector registers
from it and their alignment, where these differ from the width; the count of scalar registers; whether it is a destination, whether a latch captures it
(R46), and whether it stands in a group-uniform position (R49). -/
structure Use where
  o : Opnd
  ks : List Kind
  w : Nat := 1
  n : Nat := w
  al : Nat := w
  sn : Nat := 1
  dst : Bool := false
  cap : Bool := false
  uni : Bool := false
  deriving DecidableEq, Repr

/-- What the description of an instruction fixes. `ok` gathers the conditions on MOD, SIZE, immediates and fields that
must be zero; `nwb` says that NWB is not reserved where a latch captures; `wide` that the group must have 64 lanes
(R220). -/
structure Sig where
  scope : Scope
  unit : UnitKind
  hint : Hint := .none
  uses : List Use := []
  ok : Bool := true
  nwb : Bool := true
  wide : Bool := false
  deriving DecidableEq, Repr

def opndKind : Opnd → Kind
  | .v _ => .v
  | .s _ => .s
  | .st _ => .st
  | .b _ => .b
  | .p _ => .p
  | .imm _ => .i

/-- A register operand's kind and its alignment to its width (R38, static part). -/
def Use.ok (u : Use) : Bool :=
  u.ks.contains (opndKind u.o) &&
  match u.o with
  | .v n => n.toNat % u.al == 0
  | _ => true

/-- NWB and CAP are in use: the instruction has a vector or scalar destination that is not a quad (R46). -/
def Sig.captures (g : Sig) : Bool :=
  g.uses.any fun u => u.cap && (u.w ≤ 2) && (opndKind u.o == .v || opndKind u.o == .s)

/-- A K-scope instruction with a scalar destination has no vector source and reads no predicate (R41, R129). -/
def Sig.kOk (g : Sig) : Bool :=
  g.scope != .k || !(g.uses.any fun u => u.dst && opndKind u.o == .s) ||
    g.uses.all fun u => u.dst || (opndKind u.o != .v && opndKind u.o != .p)

/-- The prefix conditions of R56 beside guards, which may take any value (R40). -/
def Sig.pfxOk (g : Sig) (p : Pfx) : Bool :=
  (match g.hint with
   | .cache => true
   | .branch => p.ch.extractLsb' 2 2 == 0#2
   | .none => p.ch == 0#4) &&
  (g.captures || (!p.nwb && p.cap == 0#2)) && (g.nwb || !p.nwb)

def Sig.legal (g : Sig) (p : Pfx) : Bool :=
  g.ok && g.uses.all Use.ok && g.kOk && g.pfxOk p

/-- Unused operand fields are the zero field (R34). -/
def zeroFields (os : List Opnd) : Bool := os.all (· == .v 0#8)

/-- A source that any register kind, a latch or an immediate can fill. -/
def src (o : Opnd) (w : Nat := 1) : Use := { o, ks := [.v, .s, .b, .i], w }
/-- A destination in vector or scalar registers. -/
def dstVS (o : Opnd) (w : Nat := 1) : Use := { o, ks := [.v, .s], w, dst := true, cap := true }
def dstV (o : Opnd) (w : Nat := 1) : Use := { o, ks := [.v], w, dst := true, cap := true }
def dstS (o : Opnd) : Use := { o, ks := [.s], w := 2, dst := true, cap := true }
def dstP (o : Opnd) : Use := { o, ks := [.p], dst := true }
/-- A destination that is a predicate or a scalar register. -/
def dstPS (o : Opnd) : Use := { o, ks := [.p, .s], dst := true, cap := true }
def srcP (o : Opnd) : Use := { o, ks := [.p] }
/-- A scalar register or a latch that holds a scalar, or an immediate. -/
def srcUni (o : Opnd) : Use := { o, ks := [.s, .b, .i], w := 2, uni := true }
/-- A scalar register read whole in a group-uniform position. -/
def srcS (o : Opnd) : Use := { o, ks := [.s], w := 2, uni := true }

/-- Bits [hi:lo] of MOD are zero. -/
def modZero (m : BitVec 6) (lo : Nat) : Bool := m >>> lo == 0#6
def mbit (m : BitVec 6) (i : Nat) : Bool := m.getLsbD i

/-! ### Control (R103, R107 to R121) -/

/-- BRA, CALL and RCV (`reg` false), BRI and CALLI (`reg` true): R32, R103. -/
def sigXfer (o : FB) (reg : Bool) : Sig :=
  { scope := .l, unit := .ctl, hint := .branch
    uses := (if o.cond = .v 0#8 then [] else [srcP o.cond]) ++
            (if reg then [{ o := o.reg, ks := [.v, .s], w := 2 }] else [])
    ok := modZero o.mod 1 && (if reg then o.loff == 0#32 && o.slot == 0#3
                              else zeroFields [o.reg] && decide (o.slot.toNat < 5)) }

def sigRet (o : FB) : Sig :=
  { scope := .l, unit := .ctl
    ok := o.mod == 0#6 && zeroFields [o.cond, o.reg] && o.loff == 0#32 && o.slot == 0#3 }

def sigSpawn (o : FB) : Sig :=
  { scope := .l, unit := .ctl
    uses := [{ o := o.cond, ks := [.v, .s, .i], w := 2 }]
    ok := o.mod == 0#6 && zeroFields [o.reg] && decide (o.slot.toNat < 5) }

/-- EXIT, WAYPT, YIELD: every field zero (R107, R108, R119). -/
def sigPlain (sc : Scope) (o : FY) : Sig :=
  { scope := sc, unit := .ctl, ok := o.mod == 0#6 && zeroFields [o.ya, o.yb, o.yc] && o.code == 0#16 }

def sigTbar (o : FY) : Sig :=
  { scope := .u, unit := .ctl
    ok := o.mod == 0#6 && zeroFields [o.ya, o.yb, o.yc] && decide (o.code.toNat < 4) }

def sigBinfl (o : FY) : Sig :=
  { scope := .u, unit := .ctl
    uses := if mbit o.mod 0 then [] else [srcS o.ya]
    ok := modZero o.mod 1 && zeroFields [o.yb, o.yc] && o.code == 0#16 &&
          (!mbit o.mod 0 || zeroFields [o.ya]) }

def sigNap (o : FRI) : Sig :=
  { scope := .u, unit := .ctl
    uses := if mbit o.mod 0 then [srcS o.a] else []
    ok := modZero o.mod 1 && zeroFields [o.d] && o.ext == 0#6 && (mbit o.mod 0 || zeroFields [o.a]) }

def sigElect (o : F5) : Sig :=
  { scope := .u, unit := .ctl, uses := [dstPS o.d]
    ok := modZero o.mod 1 && zeroFields [o.a, o.b, o.c, o.e] && o.imm8 == 0#8 }

/-! ### Integer (R138 to R147) -/

/-- The width in registers of an N-wide operand: TY[1] (R138, R139). -/
def ivW (o : F5) : Nat := if mbit o.mod 1 then 2 else 1
def ivSigned (o : F5) : Bool := mbit o.mod 0
def ivSat (o : F5) : Bool := mbit o.mod 2
def ivOpx (o : F5) : Nat := o.mod.toNat / 8

/-- The TY values an integer instruction allows. -/
inductive TyOk | all | unsignedOnly | signedOnly | narrow
  deriving DecidableEq, Repr

def TyOk.ok (t : TyOk) (o : F5) : Bool :=
  match t with
  | .all => true
  | .unsignedOnly => !ivSigned o
  | .signedOnly => ivSigned o
  | .narrow => !mbit o.mod 1

def sigInt (o : F5) (ty : TyOk) (sat : Bool) (uses : List Use) (zero : List Opnd) (opx : Bool := false) (imm : Bool := false) : Sig :=
  { scope := .k, unit := .int, uses
    ok := ty.ok o && (sat || !ivSat o) && (opx || ivOpx o == 0) && zeroFields zero && (imm || o.imm8 == 0#8) }

/-- D, A, B: N. -/
def sigInt2 (o : F5) (sat : Bool) : Sig :=
  sigInt o .all sat [dstVS o.d (ivW o), src o.a (ivW o), src o.b (ivW o)] [o.c, o.e]
def sigIaddc (o : F5) : Sig :=
  sigInt o .unsignedOnly false
    [dstVS o.d (ivW o), src o.a (ivW o), src o.b (ivW o), srcP o.c, dstP o.e] []
def sigImad (o : F5) : Sig :=
  sigInt o .all true [dstVS o.d (ivW o), src o.a (ivW o), src o.b (ivW o), src o.c (ivW o)] [o.e]
def sigImadw (o : F5) : Sig :=
  sigInt o .narrow true [dstVS o.d 2, src o.a, src o.b, src o.c 2] [o.e]
/-- D, A: N; B: P. -/
def sigShift (o : F5) (ty : TyOk) (rot : Bool) : Sig :=
  { sigInt o ty false [dstVS o.d (ivW o), src o.a (ivW o), src o.b] [o.c, o.e] (opx := rot) with
    ok := ty.ok o && !ivSat o && decide (ivOpx o ≤ (if rot then 1 else 0)) && zeroFields [o.c, o.e] && o.imm8 == 0#8 }
def sigLogic (o : F5) : Sig :=
  sigInt o .unsignedOnly false [dstVS o.d (ivW o), src o.a (ivW o), src o.b (ivW o), src o.c (ivW o)] [o.e] (imm := true)
def sigBfx (o : F5) : Sig :=
  sigInt o .all false [dstVS o.d (ivW o), src o.a (ivW o), src o.b, src o.c] [o.e]
def sigBfi (o : F5) : Sig :=
  sigInt o .unsignedOnly false [dstVS o.d (ivW o), src o.a (ivW o), src o.b (ivW o), src o.c, src o.e] []
/-- POPC, CLZ, CTZ: D 32, A N. -/
def sigCount (o : F5) : Sig :=
  sigInt o .unsignedOnly false [dstVS o.d, src o.a (ivW o)] [o.b, o.c, o.e]
def sigBrev (o : F5) : Sig :=
  sigInt o .unsignedOnly false [dstVS o.d (ivW o), src o.a (ivW o)] [o.b, o.c, o.e]
def sigIabs (o : F5) : Sig :=
  sigInt o .signedOnly true [dstVS o.d (ivW o), src o.a (ivW o)] [o.b, o.c, o.e]
def sigIcmp (o : F5) : Sig :=
  { sigInt o .all false [dstPS o.d, src o.a (ivW o), src o.b (ivW o)] [o.c, o.e] (opx := true) with
    ok := !ivSat o && decide (ivOpx o < 6) && zeroFields [o.c, o.e] && o.imm8 == 0#8 }
def sigDot (o : F5) : Sig :=
  sigInt o .all true [dstVS o.d, src o.a, src o.b, src o.c] [o.e]

/-! ### Move and predicate (R132, R148 to R152) -/

def w64 (m : BitVec 6) (i : Nat) : Nat := if mbit m i then 2 else 1

def sigMov (o : F5) : Sig :=
  { scope := .k, unit := .int, uses := [dstVS o.d (w64 o.mod 0), src o.a (w64 o.mod 0)]
    ok := modZero o.mod 1 && zeroFields [o.b, o.c, o.e] && o.imm8 == 0#8 }
def sigMovi (o : FRI) : Sig :=
  { scope := .k, unit := .int, uses := [dstVS o.d (if o.mod == 0#6 then 1 else 2)]
    ok := modZero o.mod 2 && zeroFields [o.a] && o.ext == 0#6 }
/-- The status register is per lane (R131). -/
def perLaneSt : StReg → Bool
  | .lanenum | .fflags => true
  | _ => false
/-- R132. DESIGN CHOICE (log 33): to a status register, which is neither a predicate nor no destination, NWB and CAP are reserved. -/
def sigMovs (o : F5) : Sig :=
  match o.d with
  | .st r =>
    { scope := .k, unit := .int, uses := [{ o := o.a, ks := [.v, .s, .b, .i] }]
      ok := r == .fflags && o.mod == 0#6 && zeroFields [o.b, o.c, o.e] && o.imm8 == 0#8 }
  | d =>
    { scope := .k, unit := .int, uses := [dstVS d, { o := o.a, ks := [.st] }]
      ok := modZero o.mod 1 && zeroFields [o.b, o.c, o.e] && o.imm8 == 0#8 &&
            (!mbit o.mod 0 || (o.a == .st .fflags && opndKind d == .v)) &&
            (match o.a with | .st r => !(perLaneSt r && opndKind d == .s) | _ => false) }
def sigSel (o : F5) : Sig :=
  { scope := .k, unit := .int, uses := [dstV o.d (w64 o.mod 0), src o.a (w64 o.mod 0), src o.b (w64 o.mod 0), srcP o.c]
    ok := modZero o.mod 1 && zeroFields [o.e] && o.imm8 == 0#8 }
def sigPlog (o : F5) : Sig :=
  { scope := .l, unit := .int, uses := [dstP o.d, srcP o.a, srcP o.b, srcP o.c]
    ok := o.mod == 0#6 && zeroFields [o.e] }
def sigPmov (o : F5) : Sig :=
  { scope := .l, unit := .int
    uses := match o.mod.toNat with
      | 0 => [dstP o.d, srcP o.a]
      | 1 => [dstV o.d]
      | 2 => [{ o := o.a, ks := [.v, .s, .b] }]
      | _ => [dstP o.d, src o.a]
    ok := modZero o.mod 2 && zeroFields [o.b, o.c, o.e] && o.imm8 == 0#8 &&
          (o.mod != 1#6 || zeroFields [o.a]) && (o.mod != 2#6 || zeroFields [o.d]) }

/-! ### Floating point (R154 to R159) and conversion (R161 to R165) -/

def sigF (o : F5) (n : Nat) (u : UnitKind := .fpu) (w : Nat := 1) : Sig :=
  { scope := .k, unit := u
    uses := [dstVS o.d w] ++ ([o.a, o.b, o.c].take n).map (src · w)
    ok := modZero o.mod 2 && zeroFields ([o.a, o.b, o.c, o.e].drop n) && o.imm8 == 0#8 }
def sigFmin (o : F5) : Sig :=
  { sigF o 2 .fpu (w64 o.mod 0) with ok := modZero o.mod 1 && zeroFields [o.c, o.e] && o.imm8 == 0#8 }
def sigFcmp (o : F5) : Sig :=
  { scope := .k, unit := .fpu, uses := [dstPS o.d, src o.a (w64 o.mod 0), src o.b (w64 o.mod 0)]
    ok := !mbit o.mod 1 && !mbit o.mod 2 && zeroFields [o.c, o.e] && o.imm8 == 0#8 }
def sigFclass (o : F5) : Sig :=
  { scope := .k, unit := .fpu, uses := [dstVS o.d, src o.a (w64 o.mod 0)]
    ok := modZero o.mod 1 && zeroFields [o.b, o.c, o.e] && o.imm8 == 0#8 }
def sigH (o : F5) (n : Nat) : Sig :=
  { sigF o n with ok := modZero o.mod 3 && zeroFields ([o.a, o.b, o.c, o.e].drop n) && o.imm8 == 0#8 }

/-- The formats of R161 by code. -/
def cvtWide (code : Nat) : Bool := code == 1 || code == 12 || code == 13
def cvtFloat (code : Nat) : Bool := decide (code < 10)
/-- Fraction bits of the floating formats 0 to 9 (R174). -/
def cvtFrac (code : Nat) : Nat := [23, 52, 10, 10, 7, 3, 2, 2, 3, 1].getD code 0

def cvtDf (o : F5) : Nat := o.mod.toNat
def cvtSf (o : F5) : Nat := (o.imm8.extractLsb' 0 4).toNat
def cvtRm (o : F5) : Nat := (o.imm8.extractLsb' 4 3).toNat
def cvtSat (o : F5) : Bool := o.imm8.getLsbD 7

def sigCvt (o : F5) : Sig :=
  { scope := .k, unit := .cvt
    uses := [dstVS o.d (if cvtWide (cvtDf o) then 2 else 1), src o.a (if cvtWide (cvtSf o) then 2 else 1)]
    ok := zeroFields [o.b, o.c, o.e] && decide (cvtDf o < 14) && decide (cvtSf o < 14) && decide (cvtRm o < 5) &&
          (cvtRm o != 4 || (cvtFloat (cvtSf o) && cvtFloat (cvtDf o) && decide (cvtFrac (cvtDf o) < cvtFrac (cvtSf o)))) &&
          (cvtFloat (cvtSf o) || cvtFloat (cvtDf o) || cvtRm o == 0) &&
          (opndKind o.a != .i || !(decide (5 ≤ cvtSf o) && decide (cvtSf o ≤ 9))) }
def sigPack (o : F5) : Sig :=
  { scope := .k, unit := .cvt
    uses := [dstVS o.d] ++ ([o.a, o.b, o.c, o.e].take (if o.mod == 0#6 then 2 else 4)).map (src ·)
    ok := decide (o.mod.toNat < 3) && o.imm8 == 0#8 && (o.mod != 0#6 || zeroFields [o.c, o.e]) }
def sigUnpack (o : F5) : Sig :=
  { scope := .k, unit := .cvt, uses := [dstVS o.d, src o.a]
    ok := modZero o.mod 3 && zeroFields [o.b, o.c, o.e] &&
          decide (o.imm8.toNat < [2, 4, 4, 8].getD (o.mod.toNat % 4) 0) }

/-! ### Lane-crossing (R166 to R173) -/

def sigShfl (o : F5) : Sig :=
  { scope := .l, unit := .xln
    uses := [dstV o.d (w64 o.mod 3), { o := o.a, ks := [.v], w := w64 o.mod 3 }, src o.b] ++
            (if o.mod.toNat % 4 == 2 then [src o.c (w64 o.mod 3)] else [])
    ok := modZero o.mod 4 && zeroFields [o.e] && decide (o.imm8.toNat ≤ 6) &&
          (o.mod.toNat % 4 == 2 || zeroFields [o.c]) }
def redOp (o : F5) : Nat := o.mod.toNat % 16
def redW (o : F5) : Nat := if redOp o == 11 then 2 else 1
def redImmOk (o : F5) : Bool := if redOp o == 1 then decide (o.imm8.toNat < 4) else o.imm8 == 0#8
def sigLred (o : F5) : Sig :=
  { scope := .l, unit := .xln, uses := [dstVS o.d (redW o), src o.a (redW o)]
    ok := modZero o.mod 4 && decide (redOp o < 12) && zeroFields [o.b, o.c, o.e] && redImmOk o }
def sigLscan (o : F5) : Sig :=
  { scope := .l, unit := .xln, uses := [dstV o.d (redW o), src o.a (redW o)]
    ok := modZero o.mod 5 && decide (redOp o < 12) && zeroFields [o.b, o.c, o.e] && redImmOk o }
def voteTest (o : F5) : Nat := o.mod.toNat % 4
def sigVote (o : F5) : Sig :=
  { scope := .l, unit := .xln
    uses := [dstPS o.d, srcP o.a] ++ (if voteTest o == 3 then [srcUni o.b] else [])
    ok := modZero o.mod 4 && zeroFields [o.c, o.e] && o.imm8 == 0#8 &&
          (voteTest o == 3 || zeroFields [o.b]) &&
          (match o.b with | .imm x => !x.msb | _ => true) &&
          (!mbit o.mod 3 || (voteTest o == 0 && opndKind o.d == .s)) }
def sigBallot (o : F5) : Sig :=
  { scope := .l, unit := .xln, uses := [dstVS o.d 2, srcP o.a]
    ok := modZero o.mod 1 && zeroFields [o.b, o.c, o.e] && o.imm8 == 0#8 }
def sigBcast (o : F5) : Sig :=
  { scope := .l, unit := .xln
    uses := [dstVS o.d (w64 o.mod 0), { o := o.a, ks := [.v], w := w64 o.mod 0 }, srcUni o.b]
    ok := modZero o.mod 1 && zeroFields [o.c, o.e] && o.imm8 == 0#8 }

end Sys2Proof.Machine
end

