-- ==== Sys2Proof/Machine/SigUnits.lean ====
section
/-!
DEFINITION. The entries of the memory, scratchpad, port, matrix, task, service, status and sealing instructions
(R220 to R236, R265 to R273, R304 to R316, R333, R358, R380 to R383, R404, R417, R443, R456).
-/
namespace Sys2Proof.Machine

/-! ### Memory (R304 to R316, R333) -/

def fmScope (o : FM) : Nat := o.mod.toNat / 8
def fmOrd (o : FM) : Nat := o.mod.toNat / 2 % 4
def fyScope (o : FY) : Nat := o.mod.toNat / 8

/-- Registers that an access size names (R33): one up to 32 bits, a pair, a quad. -/
def sizeW (z : BitVec 4) : Nat := if z.toNat ≤ 2 then 1 else if z.toNat == 3 then 2 else 4
/-- Bytes of an access (R33). -/
def sizeBytes (z : BitVec 4) : Nat := 2 ^ z.toNat

/-- BASE and INDEX of a global access (R304); an immediate zero stands for a term left out. -/
def gBase (o : Opnd) : Use := { o, ks := [.v, .s, .b, .i], w := 2 }
def gIndex (o : Opnd) : Use := { o, ks := [.v, .s, .b, .i] }
/-- BASE or INDEX of a scratchpad access (R265). -/
def sTerm (o : Opnd) : Use := { o, ks := [.v, .s, .b, .i] }
/-- The data of a store (R306). -/
def stData (o : FM) : Use :=
  { o := o.data, ks := if o.size.toNat == 4 then [.v] else [.v, .s, .b, .i], w := sizeW o.size }

def sigLd (o : FM) : Sig :=
  { scope := .l, unit := .mem, hint := .cache
    uses := [dstV o.data (sizeW o.size), gBase o.base, gIndex o.index]
    ok := decide (o.size.toNat ≤ 4) && decide (fmScope o ≤ 5) && decide (fmOrd o ≤ 1) &&
          (!mbit o.mod 0 || decide (o.size.toNat ≤ 1)) &&
          (if fmScope o == 0 then fmOrd o == 0 else o.size == 2#4 || o.size == 3#4) }
def sigSt (o : FM) : Sig :=
  { scope := .l, unit := .mem, hint := .cache, uses := [stData o, gBase o.base, gIndex o.index]
    ok := decide (o.size.toNat ≤ 4) && decide (fmScope o ≤ 5) && (fmOrd o == 0 || fmOrd o == 2) && !mbit o.mod 0 &&
          (if fmScope o == 0 then fmOrd o == 0 else o.size == 2#4 || o.size == 3#4) }
def sigLdro (o : FM) : Sig :=
  { scope := .l, unit := .mem, hint := .cache
    uses := [dstV o.data (sizeW o.size), gBase o.base, gIndex o.index]
    ok := decide (o.size.toNat ≤ 4) && modZero o.mod 1 && (!mbit o.mod 0 || decide (o.size.toNat ≤ 1)) }
def yZero (o : FY) : Bool := zeroFields [o.ya, o.yb, o.yc] && o.code == 0#16
def sigRosync (o : FY) : Sig :=
  { scope := .u, unit := .mem, ok := yZero o && decide (1 ≤ fyScope o) && decide (fyScope o ≤ 5) && o.mod.toNat % 8 == 0 }
/-- INDEX of ATOM names the operation, not an operand (R309). -/
def atomOp (o : FM) : Nat :=
  match o.index with
  | .v n => n.toNat
  | _ => 16
def sigAtom (o : FM) : Sig :=
  { scope := .l, unit := .mem, hint := .cache
    uses := [dstV o.data (sizeW o.size), { o := o.data, ks := [.v], w := sizeW o.size }, gBase o.base]
    ok := (o.size == 2#4 || (o.size == 3#4 && atomOp o != 9)) && decide (1 ≤ fmScope o) && decide (fmScope o ≤ 5) &&
          !mbit o.mod 0 && decide (atomOp o < 10) }
def sigCas (o : FM) : Sig :=
  { scope := .l, unit := .mem, hint := .cache
    uses := [dstV o.data (sizeW o.size / 2), { o := o.data, ks := [.v], w := sizeW o.size }, gBase o.base]
    ok := (o.size == 3#4 || o.size == 4#4) && decide (1 ≤ fmScope o) && decide (fmScope o ≤ 5) && !mbit o.mod 0 &&
          zeroFields [o.index] }
def sigFence (o : FY) : Sig :=
  { scope := .u, unit := .mem, ok := yZero o && decide (1 ≤ fyScope o) && decide (fyScope o ≤ 5) && !mbit o.mod 0 }
def sigPref (o : FM) : Sig :=
  { scope := .l, unit := .mem, hint := .cache, uses := [gBase o.base, gIndex o.index]
    ok := modZero o.mod 1 && zeroFields [o.data] && o.size == 0#4 }
def sigPut (o : FM) : Sig :=
  { scope := .l, unit := .mem, uses := [stData o, srcS o.base, gIndex o.index]
    ok := decide (o.size.toNat ≤ 4) && o.mod == 0#6 }
def sigPuts (o : FM) : Sig :=
  { scope := .u, unit := .mem, uses := [srcS o.data, srcS o.base, srcS o.index], ok := o.mod == 0#6 && o.size == 0#4 }
def immNonneg : Opnd → Bool
  | .imm x => !x.msb
  | _ => true
def sigWinwait (o : FY) : Sig :=
  { scope := .u, unit := .mem, uses := [srcS o.ya, { o := o.yb, ks := [.s, .i], w := 2, uni := true }]
    ok := o.mod == 0#6 && zeroFields [o.yc] && decide (o.code.toNat < 2) && immNonneg o.yb }
def sigWinrd (o : FY) : Sig :=
  { scope := .u, unit := .mem, uses := [dstS o.ya, srcS o.yb]
    ok := modZero o.mod 1 && zeroFields [o.yc] && decide (o.code.toNat < 3) && (!mbit o.mod 0 || o.code != 0#16) }
def sigXqry (o : FM) : Sig :=
  { scope := .l, unit := .mem, uses := [dstV o.data 2, gBase o.base, gIndex o.index], ok := o.mod == 0#6 && o.size == 3#4 }

/-! ### Scratchpad and copies (R265 to R273) -/

def sigSld (o : FM) : Sig :=
  { scope := .l, unit := .spd, hint := .cache, uses := [dstV o.data (sizeW o.size), sTerm o.base, sTerm o.index]
    ok := decide (o.size.toNat ≤ 4) && modZero o.mod 1 && (!mbit o.mod 0 || decide (o.size.toNat ≤ 1)) }
def sigSst (o : FM) : Sig :=
  { scope := .l, unit := .spd, hint := .cache, uses := [{ stData o with ks := [.v] }, sTerm o.base, sTerm o.index]
    ok := decide (o.size.toNat ≤ 4) && o.mod == 0#6 }
def satomOp (o : FM) : Nat := o.mod.toNat % 16
def sigSatom (o : FM) : Sig :=
  let cas := satomOp o == 9
  { scope := .l, unit := .spd, hint := .cache
    uses := (if mbit o.mod 4 then [dstV o.data (if cas then sizeW o.size / 2 else sizeW o.size)] else []) ++
            [{ o := o.data, ks := [.v], w := sizeW o.size }, sTerm o.base, sTerm o.index]
    ok := decide (satomOp o < 10) && !mbit o.mod 5 &&
          (if cas then mbit o.mod 4 && (o.size == 3#4 || o.size == 4#4) else o.size == 2#4 || o.size == 3#4) }
/-- A field that names a scalar register, or is zero for "none" (R269). -/
def optS (o : Opnd) : List Use := if o = .v 0#8 then [] else [srcS o]
/-- R269. DESIGN CHOICE (log 33): R269 does not say whether CSTART, of unit SPD, takes the cache hint for its reads of the schedule; CH is
reserved. -/
def sigCstart (o : FY) : Sig :=
  { scope := .u, unit := .spd, uses := optS o.ya, ok := o.mod == 0#6 && zeroFields [o.yb, o.yc] && decide (o.code.toNat < 64) }
/-- R269. DESIGN CHOICE (log 33): nor does it say so of STAGE; CH is reserved. -/
def sigStage (o : FY) : Sig :=
  { scope := .u, unit := .spd, ok := o.mod == 0#6 && zeroFields [o.ya, o.yb, o.yc] && decide (o.code.toNat < 16) }
def sigCwait (o : FY) (test : Bool) : Sig :=
  { scope := .u, unit := .spd
    uses := (if test then [dstS o.ya] else []) ++ optS o.yb ++ (if mbit o.mod 0 then [] else [srcS o.yc])
    ok := modZero o.mod 1 && (test || zeroFields [o.ya]) &&
          (if mbit o.mod 0 then zeroFields [o.yc] else o.code == 0#16) }
def sigCpy (o : FM) : Sig :=
  { scope := .u, unit := .spd, hint := .cache, uses := [srcS o.data, srcS o.base, srcS o.index]
    ok := modZero o.mod 1 && o.size == 0#4 }

/-! ### Ports (R380 to R383) -/

/-- A number: a scalar register or an immediate. -/
def numS (o : Opnd) : Use := { o, ks := [.s, .i], w := 2, uni := true }
def sigSend (o : F5) (x : Bool) : Sig :=
  { scope := .l, unit := .prt
    uses := [if x then { o := o.a, ks := [.v, .s], w := 2 } else { o := o.a, ks := [.s, .i] }, src o.b 2, src o.c]
    ok := o.mod == 0#6 && zeroFields [o.d, o.e] && o.imm8 == 0#8 }
/-- An even scalar register and the one above it (R381). -/
def dstS2 (o : Opnd) : Use := { o, ks := [.s], w := 2, sn := 2, dst := true, cap := true }
def sEven : Opnd → Bool
  | .s n => n.toNat % 2 == 0
  | _ => false
def sigRecv (o : F5) : Sig :=
  { scope := .u, unit := .prt, nwb := false
    uses := if mbit o.mod 0 then [dstS o.d] else [dstS2 o.d, numS o.a]
    ok := modZero o.mod 1 && zeroFields [o.b, o.c, o.e] && o.imm8 == 0#8 &&
          (if mbit o.mod 0 then zeroFields [o.a] else sEven o.d) }
def sigRpeek (o : F5) : Sig :=
  { scope := .u, unit := .prt, nwb := false, uses := [dstS2 o.d, numS o.a]
    ok := o.mod == 0#6 && zeroFields [o.b, o.c, o.e] && o.imm8 == 0#8 && sEven o.d }
def sigPatarm (o : FY) : Sig :=
  { scope := .u, unit := .prt, uses := [dstS o.yb, srcS o.ya]
    ok := modZero o.mod 1 && zeroFields [o.yc] && o.code == 0#16 }
def sigPatdis (o : FY) : Sig :=
  { scope := .u, unit := .prt, ok := modZero o.mod 1 && zeroFields [o.ya, o.yb, o.yc] && decide (o.code.toNat < 64) }
def sigPstat (o : F5) : Sig :=
  { scope := .u, unit := .prt, uses := [dstS o.d, numS o.a]
    ok := modZero o.mod 1 && zeroFields [o.b, o.c, o.e] && o.imm8 == 0#8 }

/-! ### Matrix (R220 to R236) -/

/-- A tile number written in DATA[3:0] (R222). -/
def tileField : Opnd → Nat
  | .v n => n.toNat
  | _ => 16
def mView (o : FM) : Nat := o.mod.toNat % 8
def sigTld (o : FM) (load : Bool) : Sig :=
  { scope := .u, unit := .mtx, hint := .cache
    uses := [srcS o.base] ++ (if mbit o.mod 4 then [srcS o.index] else [])
    ok := decide (mView o < 7) && decide (tileField o.data < 16) && o.off.toNat % 16 == 0 && o.size == 0#4 &&
          (if mbit o.mod 4 then load && (mView o == 3 || mView o == 4) else !mbit o.mod 5 && zeroFields [o.index]) }
def sigCbload (o : FM) : Sig :=
  { scope := .u, unit := .mtx, hint := .cache, uses := [srcS o.base]
    ok := o.mod == 0#6 && zeroFields [o.data, o.index] && o.size == 0#4 }
def xZero (o : FX) : Bool := zeroFields [o.sa, o.sb] && o.bsel == 0#8
def sigTzero (o : FX) : Sig :=
  { scope := .u, unit := .mtx, ok := o.mod == 0#6 && xZero o && o.cd == 0#4 && o.tb == 0#4 && o.xf == 0#10 }
def sigCzero (o : FX) : Sig :=
  { scope := .u, unit := .mtx, ok := o.mod == 0#6 && xZero o && o.ta == 0#4 && o.tb == 0#4 && decide (o.xf.toNat < 4) }

/-- The arithmetic classes of R214. -/
inductive MClass | d | s32 | s19 | h | q8 | q4 | i8 | i4
  deriving DecidableEq, Repr
/-- The class of a pair of formats by the codes of R227. -/
def mClass (fa fb : Nat) : Option MClass :=
  if fa == 0 && fb == 0 then some .d
  else if fa == 1 && fb == 1 then some .s32
  else if fa == 2 && fb == 2 then some .s19
  else if (fa == 3 || fa == 4) && (fb == 3 || fb == 4) then some .h
  else if 5 ≤ fa && fa ≤ 8 && 5 ≤ fb && fb ≤ 8 then some .q8
  else if fa == 9 && fb == 9 then some .q4
  else if (fa == 10 || fa == 11) && (fb == 10 || fb == 11) then some .i8
  else if (fa == 12 || fa == 13) && (fb == 12 || fb == 13) then some .i4
  else none
def xfLo (o : FX) (n : Nat) : Nat := o.xf.toNat % 2 ^ n
def sigMma (o : FX) : Sig :=
  { scope := .u, unit := .mtx
    ok := modZero o.mod 2 && xZero o &&
          (match mClass (xfLo o 5) (o.xf.toNat / 32) with
           | none => false
           | some .i8 => o.mod == 0#6
           | some .i4 => o.mod == 0#6
           | some _ => true) }
/-- A scale run that reaches byte `last` (R221). -/
def scaleRun (o : Opnd) (last : Nat) (dst : Bool := false) : Use :=
  { o, ks := [.v], w := 4, n := last / 4 + 1, al := 1, dst }
def sigMmak (o : FX) (blocks : Nat) : Sig :=
  { scope := .u, unit := .mtx, wide := true
    uses := [scaleRun o.sa (o.bsel.toNat + blocks - 1), scaleRun o.sb (o.bsel.toNat + blocks - 1)]
    ok := modZero o.mod 2 && o.xf == 0#10 }
def sigMmacb (o : FX) : Sig :=
  { sigMmak o 4 with ok := modZero o.mod 2 && decide (5 ≤ o.xf.toNat) && decide (o.xf.toNat ≤ 9) }
def qFmt (o : FX) : Nat := xfLo o 4
def qRm (o : FX) : Nat := o.xf.toNat / 16 % 8
def qBlock (o : FX) : Nat := o.xf.toNat / 128
def sigQnt (o : FX) (qnt : Bool) : Sig :=
  { scope := .u, unit := .mtx, wide := true
    uses := [srcS o.sa, scaleRun o.sb o.bsel.toNat qnt]
    ok := o.mod == 0#6 && o.cd == 0#4 && o.tb == 0#4 && decide (5 ≤ qFmt o) && decide (qFmt o ≤ 9) &&
          decide (qRm o < (if qnt then 5 else 4)) && decide (qBlock o < (if qFmt o == 9 then 8 else 4)) }
def crTag (o : FX) : Nat := o.xf.toNat / 64 % 4
def crCols (o : FX) : Nat := xfLo o 6 + 1
def sigCrd (o : FX) (rd : Bool) : Sig :=
  { scope := .u, unit := .mtx, wide := true
    uses := [{ o := o.sa, ks := [.v], w := 4, n := if crTag o == 0 then 2 * crCols o else crCols o
               al := if crTag o == 0 then 2 else 1, dst := rd }]
    ok := o.mod == 0#6 && o.ta == 0#4 && o.tb == 0#4 && zeroFields [o.sb] && decide (o.xf.toNat < 256) &&
          decide (o.bsel.toNat + crCols o ≤ (if crTag o < 2 then 32 else 64)) }
def sigMopen (o : FY) : Sig := { scope := .u, unit := .mtx, ok := o.mod == 0#6 && yZero o }
def sigMwait (o : FY) : Sig :=
  { scope := .u, unit := .mtx
    ok := modZero o.mod 1 && zeroFields [o.ya, o.yb, o.yc] && decide (o.code.toNat < 4) && (!mbit o.mod 0 || o.code == 0#16) }

/-! ### Tasks, services, status, sealing (R358, R404, R417, R443, R456) -/

def sigTask (o : FY) : Sig :=
  { scope := .u, unit := .tsk, uses := [dstS o.yb, srcS o.ya], ok := o.mod == 0#6 && o.code == 0#16 && zeroFields [o.yc] }
def sigSheet (o : FY) : Sig :=
  { scope := .u, unit := .tsk, uses := [dstS o.yc, srcS o.ya, srcS o.yb], ok := o.mod == 0#6 && o.code == 0#16 }
def sigQnote (o : FY) : Sig :=
  { scope := .u, unit := .tsk, uses := [srcS o.ya, numS o.yb]
    ok := o.mod == 0#6 && o.code == 0#16 && zeroFields [o.yc] && immNonneg o.yb && o.yb != .imm 0#8 }
def narg (o : FY) : Nat := o.mod.toNat % 8
/-- The argument run of a call (R404): pairs, or scalar registers. -/
def argRun (o : FY) (vec : Bool) : List Use :=
  if narg o == 0 then []
  else match o.ya with
    | .v _ => [{ o := o.ya, ks := if vec then [.v] else [], w := 2, n := 2 * narg o, al := 2 }]
    | _ => [{ o := o.ya, ks := [.s], w := 2, sn := narg o }]
def sigSys (o : FY) : Sig :=
  { scope := .l, unit := .svc, uses := argRun o true ++ [{ o := o.yb, ks := [.v], w := 2, dst := true }]
    ok := modZero o.mod 4 && decide (narg o ≤ 4) && zeroFields [o.yc] && (narg o != 0 || zeroFields [o.ya]) }
def sigSysa (o : FY) : Sig :=
  { scope := .l, unit := .svc, uses := argRun o true ++ [{ o := o.yc, ks := [.s, .i], w := 2 }]
    ok := modZero o.mod 3 && decide (narg o ≤ 4) && zeroFields [o.yb] && (narg o != 0 || zeroFields [o.ya]) }
def sigSysw (o : FY) : Sig :=
  { scope := .u, unit := .svc, uses := argRun o false ++ [{ o := o.yb, ks := [.s], w := 2, dst := true }]
    ok := modZero o.mod 3 && decide (narg o ≤ 4) && zeroFields [o.yc] && (narg o != 0 || zeroFields [o.ya]) }
def sigTrap (o : FY) : Sig :=
  { scope := .l, unit := .svc
    uses := if o.ya = .v 0#8 then [] else [{ o := o.ya, ks := [.v, .s], w := 2 }]
    ok := o.mod == 0#6 && zeroFields [o.yb, o.yc] }
def sigBkpt (o : FY) : Sig :=
  { scope := .u, unit := .svc, ok := o.mod == 0#6 && zeroFields [o.ya, o.yb, o.yc] }
def sigFchk (o : FY) : Sig :=
  { scope := .u, unit := .svc, ok := o.mod == 0#6 && zeroFields [o.ya, o.yb, o.yc] && decide (o.code.toNat < 64) }
def sigWearrd (o : F5) : Sig :=
  { scope := .u, unit := .sta, uses := [dstS o.d]
    ok := modZero o.mod 1 && zeroFields [o.a, o.b, o.c, o.e] && o.imm8 == 0#8 }
def sigBudrd (o : F5) : Sig :=
  { scope := .u, unit := .sta, uses := [dstS o.d, numS o.a]
    ok := decide (o.mod.toNat < 3) && zeroFields [o.b, o.c, o.e] && o.imm8 == 0#8 &&
          (match o.a with | .imm x => decide (x.toNat ≤ 6) | _ => true) }
def sigSeal (o : FY) : Sig :=
  { scope := .u, unit := .seal, uses := [srcS o.ya, srcS o.yb]
    ok := o.mod == 0#6 && zeroFields [o.yc] && decide (o.code.toNat < 16) }
def sigSealx (o : FY) : Sig :=
  { scope := .u, unit := .seal, ok := o.mod == 0#6 && zeroFields [o.ya, o.yb, o.yc] && decide (o.code.toNat < 16) }

end Sys2Proof.Machine
end

