-- ==== Sys2Proof/Machine/Legal.lean ====
section
/-!
DEFINITION. The legality table whole: for every instruction word what its description fixes (`sigOf`), and from it
`legal`, the condition under which decoding does not raise E_ILLEGAL (R56). The steps that are not instruction words
have no entry.
-/
namespace Sys2Proof.Machine

/-- What the description of an instruction fixes; none for a step that is no instruction word. -/
def sigOf : Instr → Option Sig
  | .bra o => some (sigXfer o false)
  | .bri o => some (sigXfer o true)
  | .call o => some (sigXfer o false)
  | .calli o => some (sigXfer o true)
  | .ret o => some (sigRet o)
  | .rcv o => some (sigXfer o false)
  | .exit o => some (sigPlain .l o)
  | .waypt o => some (sigPlain .u o)
  | .tbar o => some (sigTbar o)
  | .spawn o => some (sigSpawn o)
  | .binfl o => some (sigBinfl o)
  | .yield o => some (sigPlain .u o)
  | .nap o => some (sigNap o)
  | .elect o => some (sigElect o)
  | .iadd o => some (sigInt2 o true)
  | .isub o => some (sigInt2 o true)
  | .iaddc o => some (sigIaddc o)
  | .imul o => some (sigInt2 o true)
  | .imulh o => some (sigInt2 o false)
  | .imad o => some (sigImad o)
  | .imadw o => some (sigImadw o)
  | .idiv o => some (sigInt2 o true)
  | .irem o => some (sigInt2 o false)
  | .ishl o => some (sigShift o .unsignedOnly false)
  | .ishr o => some (sigShift o .unsignedOnly false)
  | .isra o => some (sigShift o .signedOnly false)
  | .irot o => some (sigShift o .unsignedOnly true)
  | .logic o => some (sigLogic o)
  | .bfx o => some (sigBfx o)
  | .bfi o => some (sigBfi o)
  | .popc o => some (sigCount o)
  | .clz o => some (sigCount o)
  | .ctz o => some (sigCount o)
  | .brev o => some (sigBrev o)
  | .imin o => some (sigInt2 o false)
  | .imax o => some (sigInt2 o false)
  | .iabs o => some (sigIabs o)
  | .icmp o => some (sigIcmp o)
  | .dot4 o => some (sigDot o)
  | .dot8 o => some (sigDot o)
  | .mov o => some (sigMov o)
  | .movi o => some (sigMovi o)
  | .movs o => some (sigMovs o)
  | .sel o => some (sigSel o)
  | .plog o => some (sigPlog o)
  | .pmov o => some (sigPmov o)
  | .fadd o => some (sigF o 2)
  | .fsub o => some (sigF o 2)
  | .fmul o => some (sigF o 2)
  | .fma o => some (sigF o 3)
  | .fmin o => some (sigFmin o)
  | .fmax o => some (sigFmin o)
  | .fcmp o => some (sigFcmp o)
  | .fclass o => some (sigFclass o)
  | .frcp o => some (sigF o 1)
  | .frsq o => some (sigF o 1)
  | .fsqrt o => some (sigF o 1)
  | .fdiv o => some (sigF o 2)
  | .fexp2 o => some (sigF o 1)
  | .flog2 o => some (sigF o 1)
  | .fsin o => some (sigF o 1)
  | .fcos o => some (sigF o 1)
  | .hadd2 o => some (sigH o 2)
  | .hmul2 o => some (sigH o 2)
  | .hfma2 o => some (sigH o 3)
  | .dadd o => some (sigF o 2 .dpu 2)
  | .dmul o => some (sigF o 2 .dpu 2)
  | .dfma o => some (sigF o 3 .dpu 2)
  | .cvt o => some (sigCvt o)
  | .pack o => some (sigPack o)
  | .unpack o => some (sigUnpack o)
  | .shfl o => some (sigShfl o)
  | .lred o => some (sigLred o)
  | .lscan o => some (sigLscan o)
  | .vote o => some (sigVote o)
  | .ballot o => some (sigBallot o)
  | .bcast o => some (sigBcast o)
  | .ld o => some (sigLd o)
  | .st o => some (sigSt o)
  | .ldro o => some (sigLdro o)
  | .rosync o => some (sigRosync o)
  | .atom o => some (sigAtom o)
  | .cas o => some (sigCas o)
  | .fence o => some (sigFence o)
  | .pref o => some (sigPref o)
  | .put o => some (sigPut o)
  | .puts o => some (sigPuts o)
  | .winwait o => some (sigWinwait o)
  | .winrd o => some (sigWinrd o)
  | .xqry o => some (sigXqry o)
  | .sld o => some (sigSld o)
  | .sst o => some (sigSst o)
  | .satom o => some (sigSatom o)
  | .cstart o => some (sigCstart o)
  | .stage o => some (sigStage o)
  | .cwait o => some (sigCwait o false)
  | .ctest o => some (sigCwait o true)
  | .cpy o => some (sigCpy o)
  | .send o => some (sigSend o false)
  | .sendx o => some (sigSend o true)
  | .recv o => some (sigRecv o)
  | .rpeek o => some (sigRpeek o)
  | .patarm o => some (sigPatarm o)
  | .patdis o => some (sigPatdis o)
  | .pstat o => some (sigPstat o)
  | .tld o => some (sigTld o true)
  | .tst o => some (sigTld o false)
  | .tzero o => some (sigTzero o)
  | .czero o => some (sigCzero o)
  | .mma o => some (sigMma o)
  | .mmake4m3 o => some (sigMmak o 4)
  | .mmake5m2 o => some (sigMmak o 4)
  | .mmake3m2 o => some (sigMmak o 4)
  | .mmake2m3 o => some (sigMmak o 4)
  | .mmake2m1 o => some (sigMmak o 8)
  | .mmacb o => some (sigMmacb o)
  | .cbload o => some (sigCbload o)
  | .qnt o => some (sigQnt o true)
  | .dqnt o => some (sigQnt o false)
  | .crd o => some (sigCrd o true)
  | .cwr o => some (sigCrd o false)
  | .mopen o => some (sigMopen o)
  | .mclose o => some (sigMopen o)
  | .mwait o => some (sigMwait o)
  | .task o => some (sigTask o)
  | .sheet o => some (sigSheet o)
  | .qnote o => some (sigQnote o)
  | .sys o => some (sigSys o)
  | .sysa o => some (sigSysa o)
  | .sysw o => some (sigSysw o)
  | .trap o => some (sigTrap o)
  | .bkpt o => some (sigBkpt o)
  | .fchk o => some (sigFchk o)
  | .wearrd o => some (sigWearrd o)
  | .budrd o => some (sigBudrd o)
  | .seal o => some (sigSeal o)
  | .sealx o => some (sigSealx o)
  | .pickerPassedOverLimit _ _ => none
  | .binTimerExpiry _ _ => none
  | .napExpiry _ => none
  | .barrierRelease _ _ => none
  | .groupUnpark _ => none
  | .parkStarvationTimeout _ => none
  | .groupContextFree _ => none
  | .teamScratchReturn _ => none
  | .holdershipGrant _ => none
  | .batchComplete _ => none
  | .engineChunkReady _ => none
  | .chunkWaitResume _ => none
  | .stageRoundLimitResume _ => none
  | .multicastRoundStart _ _ => none
  | .chunkLand _ _ _ => none
  | .writebackChunkDrain _ _ _ => none
  | .enginePageFault _ _ _ _ => none
  | .portMessageArrival _ => none
  | .heldMessageEnter _ _ => none
  | .blockedSendEnter _ _ => none
  | .spawnLimitResume _ => none
  | .requestEntryGrant _ => none
  | .memoryResponseReturn _ _ => none
  | .markedLineEvict _ => none
  | .cxlBackInvalidate _ => none
  | .walkComplete _ _ => none
  | .walkGrant _ => none
  | .pageFaultReply _ _ _ _ => none
  | .generationAdvance _ => none
  | .xgenTicket _ => none
  | .xgenInval _ _ => none
  | .xgenDone _ _ => none
  | .putArrival _ => none
  | .putAckReceipt _ => none
  | .winwaitSatisfied _ => none
  | .flitReceive _ _ => none
  | .flitRetryRequest _ _ => none
  | .fabricLaneSpare _ => none
  | .fabricLinkDown _ => none
  | .hostSubmit _ _ => none
  | .wake _ _ => none
  | .sheetStart _ => none
  | .taskDispatch _ _ => none
  | .teamPlacement _ _ => none
  | .gangPlacement _ => none
  | .ageingStep _ _ => none
  | .gangReservation _ => none
  | .balancerTick => none
  | .migration _ => none
  | .forwardingEntryRemove _ _ => none
  | .sheetRetire _ => none
  | .taskCompletion _ _ => none
  | .queueUnmap _ => none
  | .queueRemap _ _ => none
  | .sealJobStart _ => none
  | .callqAppend _ => none
  | .callqPop _ => none
  | .replyPost _ _ => none
  | .mboxTxAux _ _ => none
  | .mboxDelivery _ => none
  | .mboxRxPop _ _ => none
  | .callCopyIn _ _ => none
  | .callCopyOut _ _ => none
  | .callCopyDone _ => none
  | .ccopyStat _ => none
  | .sverr _ _ => none
  | .svTimerExpiry _ => none
  | .nvmeDoorbell _ _ _ => none
  | .nvmeCompletion _ _ _ _ => none
  | .ethRx _ _ => none
  | .utcNtpSet _ => none
  | .sysTime _ _ => none
  | .sysTimeset _ _ => none
  | .sysAlloc _ _ _ _ => none
  | .sysFree _ _ => none
  | .sysOpen _ _ _ => none
  | .sysClose _ _ => none
  | .sysRead _ _ _ => none
  | .sysWrite _ _ _ => none
  | .sysFsize _ _ => none
  | .sysSocksend _ _ _ _ => none
  | .sysSockrecv _ _ _ _ => none
  | .sysQcreate _ _ _ _ => none
  | .sysQintr _ _ => none
  | .sysQgrant _ _ => none
  | .sysWinreg _ _ _ => none
  | .sysWinfree _ _ => none
  | .sysLoad _ _ _ => none
  | .sysCkptreg _ _ => none
  | .sysCaptreg _ _ => none
  | .sysFhold _ _ => none
  | .sysOwnerHandlerCall _ _ _ => none
  | .callPass _ _ _ => none
  | .preempt _ _ => none
  | .evict _ _ => none
  | .resume _ _ => none
  | .retry _ _ => none
  | .next _ _ => none
  | .step _ _ => none
  | .kill _ _ => none
  | .halt _ _ => none
  | .gctlStat _ => none
  | .sheetRollback _ => none
  | .checkpoint => none
  | .checkpointRestore => none
  | .captureRerun _ _ => none
  | .wearReport _ _ => none
  | .clusterClockStep _ => none
  | .lanemapRewrite _ => none
  | .coreRetire _ => none
  | .hbmScrub _ _ _ => none
  | .budgetPeriod _ => none
  | .budgetSpillGrant _ => none
  | .powerOnReset => none
  | .quoteRequest _ => none
  | .ownershipTransfer _ _ _ => none
  | .sealKeyCreate _ _ _ => none
  | .sealKeyDestroy _ _ => none
  | .thermalTrip _ => none
  | .thermalResume _ => none
  | .coolantOvertemp _ => none
  | .undervoltage _ => none
  | .registerWrite _ _ _ => none
  | .uncorrectableError _ => none
  | .hostCxlMemAccess _ _ _ _ _ => none
  | .recoveryImageWrite _ _ _ => none
  | .hostAppears _ _ => none

/-- The common prefix of an instruction word (R30). -/
def pfxOf : Instr → Option Pfx
  | .bra o => some o.pf
  | .bri o => some o.pf
  | .call o => some o.pf
  | .calli o => some o.pf
  | .ret o => some o.pf
  | .rcv o => some o.pf
  | .exit o => some o.pf
  | .waypt o => some o.pf
  | .tbar o => some o.pf
  | .spawn o => some o.pf
  | .binfl o => some o.pf
  | .yield o => some o.pf
  | .nap o => some o.pf
  | .elect o => some o.pf
  | .iadd o => some o.pf
  | .isub o => some o.pf
  | .iaddc o => some o.pf
  | .imul o => some o.pf
  | .imulh o => some o.pf
  | .imad o => some o.pf
  | .imadw o => some o.pf
  | .idiv o => some o.pf
  | .irem o => some o.pf
  | .ishl o => some o.pf
  | .ishr o => some o.pf
  | .isra o => some o.pf
  | .irot o => some o.pf
  | .logic o => some o.pf
  | .bfx o => some o.pf
  | .bfi o => some o.pf
  | .popc o => some o.pf
  | .clz o => some o.pf
  | .ctz o => some o.pf
  | .brev o => some o.pf
  | .imin o => some o.pf
  | .imax o => some o.pf
  | .iabs o => some o.pf
  | .icmp o => some o.pf
  | .dot4 o => some o.pf
  | .dot8 o => some o.pf
  | .mov o => some o.pf
  | .movi o => some o.pf
  | .movs o => some o.pf
  | .sel o => some o.pf
  | .plog o => some o.pf
  | .pmov o => some o.pf
  | .fadd o => some o.pf
  | .fsub o => some o.pf
  | .fmul o => some o.pf
  | .fma o => some o.pf
  | .fmin o => some o.pf
  | .fmax o => some o.pf
  | .fcmp o => some o.pf
  | .fclass o => some o.pf
  | .frcp o => some o.pf
  | .frsq o => some o.pf
  | .fsqrt o => some o.pf
  | .fdiv o => some o.pf
  | .fexp2 o => some o.pf
  | .flog2 o => some o.pf
  | .fsin o => some o.pf
  | .fcos o => some o.pf
  | .hadd2 o => some o.pf
  | .hmul2 o => some o.pf
  | .hfma2 o => some o.pf
  | .dadd o => some o.pf
  | .dmul o => some o.pf
  | .dfma o => some o.pf
  | .cvt o => some o.pf
  | .pack o => some o.pf
  | .unpack o => some o.pf
  | .shfl o => some o.pf
  | .lred o => some o.pf
  | .lscan o => some o.pf
  | .vote o => some o.pf
  | .ballot o => some o.pf
  | .bcast o => some o.pf
  | .ld o => some o.pf
  | .st o => some o.pf
  | .ldro o => some o.pf
  | .rosync o => some o.pf
  | .atom o => some o.pf
  | .cas o => some o.pf
  | .fence o => some o.pf
  | .pref o => some o.pf
  | .put o => some o.pf
  | .puts o => some o.pf
  | .winwait o => some o.pf
  | .winrd o => some o.pf
  | .xqry o => some o.pf
  | .sld o => some o.pf
  | .sst o => some o.pf
  | .satom o => some o.pf
  | .cstart o => some o.pf
  | .stage o => some o.pf
  | .cwait o => some o.pf
  | .ctest o => some o.pf
  | .cpy o => some o.pf
  | .send o => some o.pf
  | .sendx o => some o.pf
  | .recv o => some o.pf
  | .rpeek o => some o.pf
  | .patarm o => some o.pf
  | .patdis o => some o.pf
  | .pstat o => some o.pf
  | .tld o => some o.pf
  | .tst o => some o.pf
  | .tzero o => some o.pf
  | .czero o => some o.pf
  | .mma o => some o.pf
  | .mmake4m3 o => some o.pf
  | .mmake5m2 o => some o.pf
  | .mmake3m2 o => some o.pf
  | .mmake2m3 o => some o.pf
  | .mmake2m1 o => some o.pf
  | .mmacb o => some o.pf
  | .cbload o => some o.pf
  | .qnt o => some o.pf
  | .dqnt o => some o.pf
  | .crd o => some o.pf
  | .cwr o => some o.pf
  | .mopen o => some o.pf
  | .mclose o => some o.pf
  | .mwait o => some o.pf
  | .task o => some o.pf
  | .sheet o => some o.pf
  | .qnote o => some o.pf
  | .sys o => some o.pf
  | .sysa o => some o.pf
  | .sysw o => some o.pf
  | .trap o => some o.pf
  | .bkpt o => some o.pf
  | .fchk o => some o.pf
  | .wearrd o => some o.pf
  | .budrd o => some o.pf
  | .seal o => some o.pf
  | .sealx o => some o.pf
  | .pickerPassedOverLimit _ _ => none
  | .binTimerExpiry _ _ => none
  | .napExpiry _ => none
  | .barrierRelease _ _ => none
  | .groupUnpark _ => none
  | .parkStarvationTimeout _ => none
  | .groupContextFree _ => none
  | .teamScratchReturn _ => none
  | .holdershipGrant _ => none
  | .batchComplete _ => none
  | .engineChunkReady _ => none
  | .chunkWaitResume _ => none
  | .stageRoundLimitResume _ => none
  | .multicastRoundStart _ _ => none
  | .chunkLand _ _ _ => none
  | .writebackChunkDrain _ _ _ => none
  | .enginePageFault _ _ _ _ => none
  | .portMessageArrival _ => none
  | .heldMessageEnter _ _ => none
  | .blockedSendEnter _ _ => none
  | .spawnLimitResume _ => none
  | .requestEntryGrant _ => none
  | .memoryResponseReturn _ _ => none
  | .markedLineEvict _ => none
  | .cxlBackInvalidate _ => none
  | .walkComplete _ _ => none
  | .walkGrant _ => none
  | .pageFaultReply _ _ _ _ => none
  | .generationAdvance _ => none
  | .xgenTicket _ => none
  | .xgenInval _ _ => none
  | .xgenDone _ _ => none
  | .putArrival _ => none
  | .putAckReceipt _ => none
  | .winwaitSatisfied _ => none
  | .flitReceive _ _ => none
  | .flitRetryRequest _ _ => none
  | .fabricLaneSpare _ => none
  | .fabricLinkDown _ => none
  | .hostSubmit _ _ => none
  | .wake _ _ => none
  | .sheetStart _ => none
  | .taskDispatch _ _ => none
  | .teamPlacement _ _ => none
  | .gangPlacement _ => none
  | .ageingStep _ _ => none
  | .gangReservation _ => none
  | .balancerTick => none
  | .migration _ => none
  | .forwardingEntryRemove _ _ => none
  | .sheetRetire _ => none
  | .taskCompletion _ _ => none
  | .queueUnmap _ => none
  | .queueRemap _ _ => none
  | .sealJobStart _ => none
  | .callqAppend _ => none
  | .callqPop _ => none
  | .replyPost _ _ => none
  | .mboxTxAux _ _ => none
  | .mboxDelivery _ => none
  | .mboxRxPop _ _ => none
  | .callCopyIn _ _ => none
  | .callCopyOut _ _ => none
  | .callCopyDone _ => none
  | .ccopyStat _ => none
  | .sverr _ _ => none
  | .svTimerExpiry _ => none
  | .nvmeDoorbell _ _ _ => none
  | .nvmeCompletion _ _ _ _ => none
  | .ethRx _ _ => none
  | .utcNtpSet _ => none
  | .sysTime _ _ => none
  | .sysTimeset _ _ => none
  | .sysAlloc _ _ _ _ => none
  | .sysFree _ _ => none
  | .sysOpen _ _ _ => none
  | .sysClose _ _ => none
  | .sysRead _ _ _ => none
  | .sysWrite _ _ _ => none
  | .sysFsize _ _ => none
  | .sysSocksend _ _ _ _ => none
  | .sysSockrecv _ _ _ _ => none
  | .sysQcreate _ _ _ _ => none
  | .sysQintr _ _ => none
  | .sysQgrant _ _ => none
  | .sysWinreg _ _ _ => none
  | .sysWinfree _ _ => none
  | .sysLoad _ _ _ => none
  | .sysCkptreg _ _ => none
  | .sysCaptreg _ _ => none
  | .sysFhold _ _ => none
  | .sysOwnerHandlerCall _ _ _ => none
  | .callPass _ _ _ => none
  | .preempt _ _ => none
  | .evict _ _ => none
  | .resume _ _ => none
  | .retry _ _ => none
  | .next _ _ => none
  | .step _ _ => none
  | .kill _ _ => none
  | .halt _ _ => none
  | .gctlStat _ => none
  | .sheetRollback _ => none
  | .checkpoint => none
  | .checkpointRestore => none
  | .captureRerun _ _ => none
  | .wearReport _ _ => none
  | .clusterClockStep _ => none
  | .lanemapRewrite _ => none
  | .coreRetire _ => none
  | .hbmScrub _ _ _ => none
  | .budgetPeriod _ => none
  | .budgetSpillGrant _ => none
  | .powerOnReset => none
  | .quoteRequest _ => none
  | .ownershipTransfer _ _ _ => none
  | .sealKeyCreate _ _ _ => none
  | .sealKeyDestroy _ _ => none
  | .thermalTrip _ => none
  | .thermalResume _ => none
  | .coolantOvertemp _ => none
  | .undervoltage _ => none
  | .registerWrite _ _ _ => none
  | .uncorrectableError _ => none
  | .hostCxlMemAccess _ _ _ _ _ => none
  | .recoveryImageWrite _ _ _ => none
  | .hostAppears _ _ => none

/-- R56: no condition of the description is broken. A step without an encoding is always well formed. -/
def legal (i : Instr) : Bool :=
  match sigOf i, pfxOf i with
  | some g, some p => g.legal p
  | _, _ => true

/-- The instruction is a word of the opcode map (R59), not a step of another agent. -/
def isWord (i : Instr) : Bool := (sigOf i).isSome

end Sys2Proof.Machine
end

