-- ==== Sys2Proof/WellFormed.lean ====
section
/-!
DEFINITION. Well-formed instructions: those whose fields the description allows (R33 to R41, R46, R53, R54, R56). The
checks that need the kernel header's register counts or a latch's contents are made at issue (R38, R49).
-/
namespace Sys2Proof

/-- A well-formed instruction (R56). -/
def Instr.wf (i : Instr) : Bool := Machine.legal i

end Sys2Proof
end

