-- ==== Sys2Proof/Decode.lean ====
section
/-!
DEFINITION. Decoding and encoding of instruction words (R21, R30, R31, R35, R36, R59), and the fetch line's word (R23,
R24). Decoding is total: a 96-bit slot is an instruction or is rejected by name, and every rejection is the E_ILLEGAL
of R56.
-/
namespace Sys2Proof

/-- Why a slot is no instruction. -/
inductive Reject
  /-- The opcode is marked faulting in the opcode map (R59). -/
  | opcode
  /-- A 10-bit field names no operand (R35, R36). -/
  | operand
  /-- A reserved bit of the format is not zero (R34). -/
  | reserved
  /-- The description does not allow the fields (R56). -/
  | illegal
  /-- Fewer than twelve bytes. -/
  | short
  deriving DecidableEq, Repr

/-- R36: the number of a status register. -/
def StReg.num : StReg → BitVec 8
  | .lanenum => 128
  | .gwidth => 129
  | .groupid => 130
  | .teamid => 131
  | .teamsize => 132
  | .sheetid => 133
  | .coreid => 134
  | .fflags => 135
  | .cycle => 136
  | .stage => 137
  | .wear => 138
  | .lanemap => 139

def StReg.ofNum (n : BitVec 8) : Option StReg :=
  match n.toNat with
  | 128 => some .lanenum
  | 129 => some .gwidth
  | 130 => some .groupid
  | 131 => some .teamid
  | 132 => some .teamsize
  | 133 => some .sheetid
  | 134 => some .coreid
  | 135 => some .fflags
  | 136 => some .cycle
  | 137 => some .stage
  | 138 => some .wear
  | 139 => some .lanemap
  | _ => none

/-- R35: the 10 bits that name an operand. -/
def Opnd.enc : Opnd → BitVec 10
  | .v n => 0#2 ++ n
  | .s n => 1#2 ++ (0#1 ++ n)
  | .st r => 1#2 ++ r.num
  | .b n => 2#2 ++ (0#6 ++ n)
  | .p n => 2#2 ++ (8#4 ++ n)
  | .imm x => 3#2 ++ x

/-- R35: the operand that 10 bits name. -/
def Opnd.dec (w : BitVec 10) : Option Opnd :=
  let lo := w.extractLsb' 0 8
  match (w.extractLsb' 8 2).toNat with
  | 0 => some (.v lo)
  | 1 => if lo.msb then (StReg.ofNum lo).map .st else some (.s (w.extractLsb' 0 7))
  | 2 =>
    if w.extractLsb' 2 6 == 0#6 then some (.b (w.extractLsb' 0 2))
    else if w.extractLsb' 4 4 == 8#4 then some (.p (w.extractLsb' 0 4))
    else none
  | _ => some (.imm lo)

/-- Opcode, MOD and the prefix: bits [95:58] (R30). -/
def encPfx (opc : BitVec 10) (mod : BitVec 6) (p : Pfx) : BitVec 38 :=
  opc ++ mod ++ p.ga ++ p.gb ++ p.ch ++ p.stall ++ BitVec.ofBool p.y ++ BitVec.ofBool p.nwb ++ p.cap

def decPfx (w : BitVec 96) : Pfx :=
  { ga := w.extractLsb' 75 5, gb := w.extractLsb' 70 5, ch := w.extractLsb' 66 4, stall := w.extractLsb' 62 4
    y := w.getLsbD 61, nwb := w.getLsbD 60, cap := w.extractLsb' 58 2 }

def decOpc (w : BitVec 96) : BitVec 10 := w.extractLsb' 86 10
def decMod (w : BitVec 96) : BitVec 6 := w.extractLsb' 80 6

/-! ### The six formats (R31) -/

def F5.enc (opc : BitVec 10) (o : F5) : BitVec 96 :=
  encPfx opc o.mod o.pf ++ (o.d.enc ++ o.a.enc ++ o.b.enc ++ o.c.enc ++ o.e.enc ++ o.imm8)
def F5.dec (w : BitVec 96) : Option F5 := do
  let d ← Opnd.dec (w.extractLsb' 48 10)
  let a ← Opnd.dec (w.extractLsb' 38 10)
  let b ← Opnd.dec (w.extractLsb' 28 10)
  let c ← Opnd.dec (w.extractLsb' 18 10)
  let e ← Opnd.dec (w.extractLsb' 8 10)
  some { pf := decPfx w, mod := decMod w, d, a, b, c, e, imm8 := w.extractLsb' 0 8 }

def FRI.enc (opc : BitVec 10) (o : FRI) : BitVec 96 :=
  encPfx opc o.mod o.pf ++ (o.d.enc ++ o.a.enc ++ o.imm ++ o.ext)
def FRI.dec (w : BitVec 96) : Option FRI := do
  let d ← Opnd.dec (w.extractLsb' 48 10)
  let a ← Opnd.dec (w.extractLsb' 38 10)
  some { pf := decPfx w, mod := decMod w, d, a, imm := w.extractLsb' 6 32, ext := w.extractLsb' 0 6 }

def FM.enc (opc : BitVec 10) (o : FM) : BitVec 96 :=
  encPfx opc o.mod o.pf ++ (o.data.enc ++ o.base.enc ++ o.index.enc ++ o.off ++ o.size)
def FM.dec (w : BitVec 96) : Option FM := do
  let data ← Opnd.dec (w.extractLsb' 48 10)
  let base ← Opnd.dec (w.extractLsb' 38 10)
  let index ← Opnd.dec (w.extractLsb' 28 10)
  some { pf := decPfx w, mod := decMod w, data, base, index, off := w.extractLsb' 4 24, size := w.extractLsb' 0 4 }

def FB.enc (opc : BitVec 10) (o : FB) : BitVec 96 :=
  encPfx opc o.mod o.pf ++ (o.cond.enc ++ o.reg.enc ++ o.loff ++ o.slot ++ 0#3)
def FB.dec (w : BitVec 96) : Option FB := do
  let cond ← Opnd.dec (w.extractLsb' 48 10)
  let reg ← Opnd.dec (w.extractLsb' 38 10)
  some { pf := decPfx w, mod := decMod w, cond, reg, loff := w.extractLsb' 6 32, slot := w.extractLsb' 3 3 }

def FX.enc (opc : BitVec 10) (o : FX) : BitVec 96 :=
  encPfx opc o.mod o.pf ++ (o.cd ++ o.ta ++ o.tb ++ o.sa.enc ++ o.sb.enc ++ o.bsel ++ o.xf ++ 0#8)
def FX.dec (w : BitVec 96) : Option FX := do
  let sa ← Opnd.dec (w.extractLsb' 36 10)
  let sb ← Opnd.dec (w.extractLsb' 26 10)
  some { pf := decPfx w, mod := decMod w, cd := w.extractLsb' 54 4, ta := w.extractLsb' 50 4, tb := w.extractLsb' 46 4
         sa, sb, bsel := w.extractLsb' 18 8, xf := w.extractLsb' 8 10 }

def FY.enc (opc : BitVec 10) (o : FY) : BitVec 96 :=
  encPfx opc o.mod o.pf ++ (o.ya.enc ++ o.yb.enc ++ o.yc.enc ++ o.code ++ 0#12)
def FY.dec (w : BitVec 96) : Option FY := do
  let ya ← Opnd.dec (w.extractLsb' 48 10)
  let yb ← Opnd.dec (w.extractLsb' 38 10)
  let yc ← Opnd.dec (w.extractLsb' 28 10)
  some { pf := decPfx w, mod := decMod w, ya, yb, yc, code := w.extractLsb' 12 16 }

/-! ### The opcode map (R59) -/

/-- The instruction of an opcode with its fields read under its format; `opcode` for an opcode marked faulting. -/
def ofOpc (w : BitVec 96) : Except Reject (Option Instr) :=
  match (decOpc w).toNat with
  | 0x000 => .ok ((FB.dec w).map .bra)
  | 0x001 => .ok ((FB.dec w).map .bri)
  | 0x002 => .ok ((FB.dec w).map .call)
  | 0x003 => .ok ((FB.dec w).map .calli)
  | 0x004 => .ok ((FB.dec w).map .ret)
  | 0x005 => .ok ((FB.dec w).map .rcv)
  | 0x006 => .ok ((FY.dec w).map .exit)
  | 0x007 => .ok ((FY.dec w).map .waypt)
  | 0x008 => .ok ((FY.dec w).map .tbar)
  | 0x009 => .ok ((FB.dec w).map .spawn)
  | 0x00A => .ok ((FY.dec w).map .binfl)
  | 0x00B => .ok ((FY.dec w).map .yield)
  | 0x00C => .ok ((FRI.dec w).map .nap)
  | 0x00D => .ok ((F5.dec w).map .elect)
  | 0x040 => .ok ((F5.dec w).map .iadd)
  | 0x041 => .ok ((F5.dec w).map .isub)
  | 0x042 => .ok ((F5.dec w).map .iaddc)
  | 0x043 => .ok ((F5.dec w).map .imul)
  | 0x044 => .ok ((F5.dec w).map .imulh)
  | 0x045 => .ok ((F5.dec w).map .imad)
  | 0x046 => .ok ((F5.dec w).map .imadw)
  | 0x047 => .ok ((F5.dec w).map .idiv)
  | 0x048 => .ok ((F5.dec w).map .irem)
  | 0x049 => .ok ((F5.dec w).map .ishl)
  | 0x04A => .ok ((F5.dec w).map .ishr)
  | 0x04B => .ok ((F5.dec w).map .isra)
  | 0x04C => .ok ((F5.dec w).map .irot)
  | 0x04D => .ok ((F5.dec w).map .logic)
  | 0x04E => .ok ((F5.dec w).map .bfx)
  | 0x04F => .ok ((F5.dec w).map .bfi)
  | 0x050 => .ok ((F5.dec w).map .popc)
  | 0x051 => .ok ((F5.dec w).map .clz)
  | 0x052 => .ok ((F5.dec w).map .ctz)
  | 0x053 => .ok ((F5.dec w).map .brev)
  | 0x054 => .ok ((F5.dec w).map .imin)
  | 0x055 => .ok ((F5.dec w).map .imax)
  | 0x056 => .ok ((F5.dec w).map .iabs)
  | 0x057 => .ok ((F5.dec w).map .icmp)
  | 0x058 => .ok ((F5.dec w).map .dot4)
  | 0x059 => .ok ((F5.dec w).map .dot8)
  | 0x060 => .ok ((F5.dec w).map .mov)
  | 0x061 => .ok ((FRI.dec w).map .movi)
  | 0x062 => .ok ((F5.dec w).map .movs)
  | 0x063 => .ok ((F5.dec w).map .sel)
  | 0x064 => .ok ((F5.dec w).map .plog)
  | 0x065 => .ok ((F5.dec w).map .pmov)
  | 0x100 => .ok ((F5.dec w).map .fadd)
  | 0x101 => .ok ((F5.dec w).map .fsub)
  | 0x102 => .ok ((F5.dec w).map .fmul)
  | 0x103 => .ok ((F5.dec w).map .fma)
  | 0x104 => .ok ((F5.dec w).map .fmin)
  | 0x105 => .ok ((F5.dec w).map .fmax)
  | 0x106 => .ok ((F5.dec w).map .fcmp)
  | 0x107 => .ok ((F5.dec w).map .fclass)
  | 0x108 => .ok ((F5.dec w).map .frcp)
  | 0x109 => .ok ((F5.dec w).map .frsq)
  | 0x10A => .ok ((F5.dec w).map .fsqrt)
  | 0x10B => .ok ((F5.dec w).map .fdiv)
  | 0x10C => .ok ((F5.dec w).map .fexp2)
  | 0x10D => .ok ((F5.dec w).map .flog2)
  | 0x10E => .ok ((F5.dec w).map .fsin)
  | 0x10F => .ok ((F5.dec w).map .fcos)
  | 0x110 => .ok ((F5.dec w).map .hadd2)
  | 0x111 => .ok ((F5.dec w).map .hmul2)
  | 0x112 => .ok ((F5.dec w).map .hfma2)
  | 0x113 => .ok ((F5.dec w).map .dadd)
  | 0x114 => .ok ((F5.dec w).map .dmul)
  | 0x115 => .ok ((F5.dec w).map .dfma)
  | 0x180 => .ok ((F5.dec w).map .cvt)
  | 0x181 => .ok ((F5.dec w).map .pack)
  | 0x182 => .ok ((F5.dec w).map .unpack)
  | 0x1C0 => .ok ((F5.dec w).map .shfl)
  | 0x1C1 => .ok ((F5.dec w).map .lred)
  | 0x1C2 => .ok ((F5.dec w).map .lscan)
  | 0x1C3 => .ok ((F5.dec w).map .vote)
  | 0x1C4 => .ok ((F5.dec w).map .ballot)
  | 0x1C5 => .ok ((F5.dec w).map .bcast)
  | 0x200 => .ok ((FM.dec w).map .ld)
  | 0x201 => .ok ((FM.dec w).map .st)
  | 0x202 => .ok ((FM.dec w).map .ldro)
  | 0x203 => .ok ((FY.dec w).map .rosync)
  | 0x204 => .ok ((FM.dec w).map .atom)
  | 0x205 => .ok ((FM.dec w).map .cas)
  | 0x206 => .ok ((FY.dec w).map .fence)
  | 0x207 => .ok ((FM.dec w).map .pref)
  | 0x208 => .ok ((FM.dec w).map .put)
  | 0x209 => .ok ((FM.dec w).map .puts)
  | 0x20A => .ok ((FY.dec w).map .winwait)
  | 0x20B => .ok ((FY.dec w).map .winrd)
  | 0x20C => .ok ((FM.dec w).map .xqry)
  | 0x280 => .ok ((FM.dec w).map .sld)
  | 0x281 => .ok ((FM.dec w).map .sst)
  | 0x282 => .ok ((FM.dec w).map .satom)
  | 0x283 => .ok ((FY.dec w).map .cstart)
  | 0x284 => .ok ((FY.dec w).map .stage)
  | 0x285 => .ok ((FY.dec w).map .cwait)
  | 0x286 => .ok ((FY.dec w).map .ctest)
  | 0x287 => .ok ((FM.dec w).map .cpy)
  | 0x2C0 => .ok ((F5.dec w).map .send)
  | 0x2C1 => .ok ((F5.dec w).map .sendx)
  | 0x2C2 => .ok ((F5.dec w).map .recv)
  | 0x2C3 => .ok ((F5.dec w).map .rpeek)
  | 0x2C4 => .ok ((FY.dec w).map .patarm)
  | 0x2C5 => .ok ((FY.dec w).map .patdis)
  | 0x2C6 => .ok ((F5.dec w).map .pstat)
  | 0x300 => .ok ((FM.dec w).map .tld)
  | 0x301 => .ok ((FM.dec w).map .tst)
  | 0x302 => .ok ((FX.dec w).map .tzero)
  | 0x303 => .ok ((FX.dec w).map .czero)
  | 0x304 => .ok ((FX.dec w).map .mma)
  | 0x305 => .ok ((FX.dec w).map .mmake4m3)
  | 0x306 => .ok ((FX.dec w).map .mmake5m2)
  | 0x307 => .ok ((FX.dec w).map .mmake3m2)
  | 0x308 => .ok ((FX.dec w).map .mmake2m3)
  | 0x309 => .ok ((FX.dec w).map .mmake2m1)
  | 0x30A => .ok ((FX.dec w).map .mmacb)
  | 0x30B => .ok ((FM.dec w).map .cbload)
  | 0x30C => .ok ((FX.dec w).map .qnt)
  | 0x30D => .ok ((FX.dec w).map .dqnt)
  | 0x30E => .ok ((FX.dec w).map .crd)
  | 0x30F => .ok ((FX.dec w).map .cwr)
  | 0x310 => .ok ((FY.dec w).map .mopen)
  | 0x311 => .ok ((FY.dec w).map .mclose)
  | 0x312 => .ok ((FY.dec w).map .mwait)
  | 0x380 => .ok ((FY.dec w).map .task)
  | 0x381 => .ok ((FY.dec w).map .sheet)
  | 0x382 => .ok ((FY.dec w).map .qnote)
  | 0x3C0 => .ok ((FY.dec w).map .sys)
  | 0x3C1 => .ok ((FY.dec w).map .sysa)
  | 0x3C2 => .ok ((FY.dec w).map .sysw)
  | 0x3C3 => .ok ((FY.dec w).map .trap)
  | 0x3C4 => .ok ((FY.dec w).map .bkpt)
  | 0x3C5 => .ok ((FY.dec w).map .fchk)
  | 0x3C6 => .ok ((F5.dec w).map .wearrd)
  | 0x3C7 => .ok ((F5.dec w).map .budrd)
  | 0x3C8 => .ok ((FY.dec w).map .seal)
  | 0x3C9 => .ok ((FY.dec w).map .sealx)
  | _ => .error .opcode

/-- The word of an instruction; zero for a step that has none. -/
def encode : Instr → BitVec 96
  | .bra o => o.enc 0x000#10
  | .bri o => o.enc 0x001#10
  | .call o => o.enc 0x002#10
  | .calli o => o.enc 0x003#10
  | .ret o => o.enc 0x004#10
  | .rcv o => o.enc 0x005#10
  | .exit o => o.enc 0x006#10
  | .waypt o => o.enc 0x007#10
  | .tbar o => o.enc 0x008#10
  | .spawn o => o.enc 0x009#10
  | .binfl o => o.enc 0x00A#10
  | .yield o => o.enc 0x00B#10
  | .nap o => o.enc 0x00C#10
  | .elect o => o.enc 0x00D#10
  | .iadd o => o.enc 0x040#10
  | .isub o => o.enc 0x041#10
  | .iaddc o => o.enc 0x042#10
  | .imul o => o.enc 0x043#10
  | .imulh o => o.enc 0x044#10
  | .imad o => o.enc 0x045#10
  | .imadw o => o.enc 0x046#10
  | .idiv o => o.enc 0x047#10
  | .irem o => o.enc 0x048#10
  | .ishl o => o.enc 0x049#10
  | .ishr o => o.enc 0x04A#10
  | .isra o => o.enc 0x04B#10
  | .irot o => o.enc 0x04C#10
  | .logic o => o.enc 0x04D#10
  | .bfx o => o.enc 0x04E#10
  | .bfi o => o.enc 0x04F#10
  | .popc o => o.enc 0x050#10
  | .clz o => o.enc 0x051#10
  | .ctz o => o.enc 0x052#10
  | .brev o => o.enc 0x053#10
  | .imin o => o.enc 0x054#10
  | .imax o => o.enc 0x055#10
  | .iabs o => o.enc 0x056#10
  | .icmp o => o.enc 0x057#10
  | .dot4 o => o.enc 0x058#10
  | .dot8 o => o.enc 0x059#10
  | .mov o => o.enc 0x060#10
  | .movi o => o.enc 0x061#10
  | .movs o => o.enc 0x062#10
  | .sel o => o.enc 0x063#10
  | .plog o => o.enc 0x064#10
  | .pmov o => o.enc 0x065#10
  | .fadd o => o.enc 0x100#10
  | .fsub o => o.enc 0x101#10
  | .fmul o => o.enc 0x102#10
  | .fma o => o.enc 0x103#10
  | .fmin o => o.enc 0x104#10
  | .fmax o => o.enc 0x105#10
  | .fcmp o => o.enc 0x106#10
  | .fclass o => o.enc 0x107#10
  | .frcp o => o.enc 0x108#10
  | .frsq o => o.enc 0x109#10
  | .fsqrt o => o.enc 0x10A#10
  | .fdiv o => o.enc 0x10B#10
  | .fexp2 o => o.enc 0x10C#10
  | .flog2 o => o.enc 0x10D#10
  | .fsin o => o.enc 0x10E#10
  | .fcos o => o.enc 0x10F#10
  | .hadd2 o => o.enc 0x110#10
  | .hmul2 o => o.enc 0x111#10
  | .hfma2 o => o.enc 0x112#10
  | .dadd o => o.enc 0x113#10
  | .dmul o => o.enc 0x114#10
  | .dfma o => o.enc 0x115#10
  | .cvt o => o.enc 0x180#10
  | .pack o => o.enc 0x181#10
  | .unpack o => o.enc 0x182#10
  | .shfl o => o.enc 0x1C0#10
  | .lred o => o.enc 0x1C1#10
  | .lscan o => o.enc 0x1C2#10
  | .vote o => o.enc 0x1C3#10
  | .ballot o => o.enc 0x1C4#10
  | .bcast o => o.enc 0x1C5#10
  | .ld o => o.enc 0x200#10
  | .st o => o.enc 0x201#10
  | .ldro o => o.enc 0x202#10
  | .rosync o => o.enc 0x203#10
  | .atom o => o.enc 0x204#10
  | .cas o => o.enc 0x205#10
  | .fence o => o.enc 0x206#10
  | .pref o => o.enc 0x207#10
  | .put o => o.enc 0x208#10
  | .puts o => o.enc 0x209#10
  | .winwait o => o.enc 0x20A#10
  | .winrd o => o.enc 0x20B#10
  | .xqry o => o.enc 0x20C#10
  | .sld o => o.enc 0x280#10
  | .sst o => o.enc 0x281#10
  | .satom o => o.enc 0x282#10
  | .cstart o => o.enc 0x283#10
  | .stage o => o.enc 0x284#10
  | .cwait o => o.enc 0x285#10
  | .ctest o => o.enc 0x286#10
  | .cpy o => o.enc 0x287#10
  | .send o => o.enc 0x2C0#10
  | .sendx o => o.enc 0x2C1#10
  | .recv o => o.enc 0x2C2#10
  | .rpeek o => o.enc 0x2C3#10
  | .patarm o => o.enc 0x2C4#10
  | .patdis o => o.enc 0x2C5#10
  | .pstat o => o.enc 0x2C6#10
  | .tld o => o.enc 0x300#10
  | .tst o => o.enc 0x301#10
  | .tzero o => o.enc 0x302#10
  | .czero o => o.enc 0x303#10
  | .mma o => o.enc 0x304#10
  | .mmake4m3 o => o.enc 0x305#10
  | .mmake5m2 o => o.enc 0x306#10
  | .mmake3m2 o => o.enc 0x307#10
  | .mmake2m3 o => o.enc 0x308#10
  | .mmake2m1 o => o.enc 0x309#10
  | .mmacb o => o.enc 0x30A#10
  | .cbload o => o.enc 0x30B#10
  | .qnt o => o.enc 0x30C#10
  | .dqnt o => o.enc 0x30D#10
  | .crd o => o.enc 0x30E#10
  | .cwr o => o.enc 0x30F#10
  | .mopen o => o.enc 0x310#10
  | .mclose o => o.enc 0x311#10
  | .mwait o => o.enc 0x312#10
  | .task o => o.enc 0x380#10
  | .sheet o => o.enc 0x381#10
  | .qnote o => o.enc 0x382#10
  | .sys o => o.enc 0x3C0#10
  | .sysa o => o.enc 0x3C1#10
  | .sysw o => o.enc 0x3C2#10
  | .trap o => o.enc 0x3C3#10
  | .bkpt o => o.enc 0x3C4#10
  | .fchk o => o.enc 0x3C5#10
  | .wearrd o => o.enc 0x3C6#10
  | .budrd o => o.enc 0x3C7#10
  | .seal o => o.enc 0x3C8#10
  | .sealx o => o.enc 0x3C9#10
  | .pickerPassedOverLimit _ _ => 0#96
  | .binTimerExpiry _ _ => 0#96
  | .napExpiry _ => 0#96
  | .barrierRelease _ _ => 0#96
  | .groupUnpark _ => 0#96
  | .parkStarvationTimeout _ => 0#96
  | .groupContextFree _ => 0#96
  | .teamScratchReturn _ => 0#96
  | .holdershipGrant _ => 0#96
  | .batchComplete _ => 0#96
  | .engineChunkReady _ => 0#96
  | .chunkWaitResume _ => 0#96
  | .stageRoundLimitResume _ => 0#96
  | .multicastRoundStart _ _ => 0#96
  | .chunkLand _ _ _ => 0#96
  | .writebackChunkDrain _ _ _ => 0#96
  | .enginePageFault _ _ _ _ => 0#96
  | .portMessageArrival _ => 0#96
  | .heldMessageEnter _ _ => 0#96
  | .blockedSendEnter _ _ => 0#96
  | .spawnLimitResume _ => 0#96
  | .requestEntryGrant _ => 0#96
  | .memoryResponseReturn _ _ => 0#96
  | .markedLineEvict _ => 0#96
  | .cxlBackInvalidate _ => 0#96
  | .walkComplete _ _ => 0#96
  | .walkGrant _ => 0#96
  | .pageFaultReply _ _ _ _ => 0#96
  | .generationAdvance _ => 0#96
  | .xgenTicket _ => 0#96
  | .xgenInval _ _ => 0#96
  | .xgenDone _ _ => 0#96
  | .putArrival _ => 0#96
  | .putAckReceipt _ => 0#96
  | .winwaitSatisfied _ => 0#96
  | .flitReceive _ _ => 0#96
  | .flitRetryRequest _ _ => 0#96
  | .fabricLaneSpare _ => 0#96
  | .fabricLinkDown _ => 0#96
  | .hostSubmit _ _ => 0#96
  | .wake _ _ => 0#96
  | .sheetStart _ => 0#96
  | .taskDispatch _ _ => 0#96
  | .teamPlacement _ _ => 0#96
  | .gangPlacement _ => 0#96
  | .ageingStep _ _ => 0#96
  | .gangReservation _ => 0#96
  | .balancerTick => 0#96
  | .migration _ => 0#96
  | .forwardingEntryRemove _ _ => 0#96
  | .sheetRetire _ => 0#96
  | .taskCompletion _ _ => 0#96
  | .queueUnmap _ => 0#96
  | .queueRemap _ _ => 0#96
  | .sealJobStart _ => 0#96
  | .callqAppend _ => 0#96
  | .callqPop _ => 0#96
  | .replyPost _ _ => 0#96
  | .mboxTxAux _ _ => 0#96
  | .mboxDelivery _ => 0#96
  | .mboxRxPop _ _ => 0#96
  | .callCopyIn _ _ => 0#96
  | .callCopyOut _ _ => 0#96
  | .callCopyDone _ => 0#96
  | .ccopyStat _ => 0#96
  | .sverr _ _ => 0#96
  | .svTimerExpiry _ => 0#96
  | .nvmeDoorbell _ _ _ => 0#96
  | .nvmeCompletion _ _ _ _ => 0#96
  | .ethRx _ _ => 0#96
  | .utcNtpSet _ => 0#96
  | .sysTime _ _ => 0#96
  | .sysTimeset _ _ => 0#96
  | .sysAlloc _ _ _ _ => 0#96
  | .sysFree _ _ => 0#96
  | .sysOpen _ _ _ => 0#96
  | .sysClose _ _ => 0#96
  | .sysRead _ _ _ => 0#96
  | .sysWrite _ _ _ => 0#96
  | .sysFsize _ _ => 0#96
  | .sysSocksend _ _ _ _ => 0#96
  | .sysSockrecv _ _ _ _ => 0#96
  | .sysQcreate _ _ _ _ => 0#96
  | .sysQintr _ _ => 0#96
  | .sysQgrant _ _ => 0#96
  | .sysWinreg _ _ _ => 0#96
  | .sysWinfree _ _ => 0#96
  | .sysLoad _ _ _ => 0#96
  | .sysCkptreg _ _ => 0#96
  | .sysCaptreg _ _ => 0#96
  | .sysFhold _ _ => 0#96
  | .sysOwnerHandlerCall _ _ _ => 0#96
  | .callPass _ _ _ => 0#96
  | .preempt _ _ => 0#96
  | .evict _ _ => 0#96
  | .resume _ _ => 0#96
  | .retry _ _ => 0#96
  | .next _ _ => 0#96
  | .step _ _ => 0#96
  | .kill _ _ => 0#96
  | .halt _ _ => 0#96
  | .gctlStat _ => 0#96
  | .sheetRollback _ => 0#96
  | .checkpoint => 0#96
  | .checkpointRestore => 0#96
  | .captureRerun _ _ => 0#96
  | .wearReport _ _ => 0#96
  | .clusterClockStep _ => 0#96
  | .lanemapRewrite _ => 0#96
  | .coreRetire _ => 0#96
  | .hbmScrub _ _ _ => 0#96
  | .budgetPeriod _ => 0#96
  | .budgetSpillGrant _ => 0#96
  | .powerOnReset => 0#96
  | .quoteRequest _ => 0#96
  | .ownershipTransfer _ _ _ => 0#96
  | .sealKeyCreate _ _ _ => 0#96
  | .sealKeyDestroy _ _ => 0#96
  | .thermalTrip _ => 0#96
  | .thermalResume _ => 0#96
  | .coolantOvertemp _ => 0#96
  | .undervoltage _ => 0#96
  | .registerWrite _ _ _ => 0#96
  | .uncorrectableError _ => 0#96
  | .hostCxlMemAccess _ _ _ _ _ => 0#96
  | .recoveryImageWrite _ _ _ => 0#96
  | .hostAppears _ _ => 0#96

/-- The instruction of a 96-bit slot (R30 to R39, R56). -/
def decode (w : BitVec 96) : Except Reject Instr :=
  match ofOpc w with
  | .error r => .error r
  | .ok none => .error .operand
  | .ok (some i) => if encode i != w then .error .reserved else if i.wf then .ok i else .error .illegal

/-! ### Bytes and fetch lines (R21 to R24) -/

/-- A number from bytes, the first byte least significant. -/
def leNat : List Byte → Nat
  | [] => 0
  | b :: bs => b.toNat + 256 * leNat bs

/-- The n low bytes of a number, least significant first. -/
def leBytes : Nat → Nat → List Byte
  | 0, _ => []
  | n + 1, x => BitVec.ofNat 8 x :: leBytes n (x / 256)

/-- Decode the first twelve bytes (R21). -/
def decodeBytes (bs : List Byte) : Except Reject (Instr × List Byte) :=
  if bs.length < 12 then .error .short
  else match decode (BitVec.ofNat 96 (leNat (bs.take 12))) with
    | .error r => .error r
    | .ok i => .ok (i, bs.drop 12)

/-- R24: the parity of the protected bits of a line whose bits [495:0] are x. -/
def foldPar : Nat → Nat → Nat
  | 0, _ => 0
  | n + 1, x => (x % 65536) ^^^ foldPar n (x / 65536)
def linePar (x : Nat) : Nat := foldPar 31 x

/-- A fetch line, 64 bytes: five slots and a line word with TGT and PAIR and the right PAR (R21, R23, R24). -/
def mkLine (slots : List (BitVec 96)) (tgt pair : Nat) : List Byte :=
  let body := slots.take 5 ++ List.replicate (5 - slots.length) Config.filler
  let bytes := body.flatMap fun w => leBytes 12 w.toNat
  let low := leBytes 2 (pair % 16 * 32 + tgt % 32)
  bytes ++ low ++ leBytes 2 (linePar (leNat (bytes ++ low)))

/-- R25: the sixteen PAR bits match. -/
def lineParOk (bs : List Byte) : Bool :=
  linePar (leNat (bs.take 62)) == leNat (bs.drop 62)
/-- R26: the reserved bits of the line word are zero. -/
def lineReservedOk (bs : List Byte) : Bool := (leNat ((bs.drop 60).take 2)) < 512
/-- R23: the TGT bit of a slot. -/
def lineTgt (bs : List Byte) (slot : Nat) : Bool := (leNat ((bs.drop 60).take 2)).testBit slot
/-- The word of a slot (R21). -/
def lineSlot (bs : List Byte) (slot : Nat) : BitVec 96 := BitVec.ofNat 96 (leNat ((bs.drop (12 * slot)).take 12))

/-- The instruction the decoder reads from a table word: the bits above nbits are zero, and the slot's twelve bytes lie
in memory least significant first (R21). -/
def decodeTableWord (nbits w : Nat) : Option Instr :=
  match decodeBytes (leBytes 12 (w % 2 ^ nbits)) with
  | .error _ => none
  | .ok (i, _) => some i

end Sys2Proof
end

