-- ==== Sys2Proof/Machine/Num.lean ====
section
/-!
DEFINITION. Number formats and rounding (R174 to R191): floating formats bit by bit, the one rounding rule, exact
arithmetic on dyadic values, and the correctly rounded elementary functions of R154. A real value that is not a dyadic
number is carried as a dyadic truncation with an odd last digit far below every rounding boundary (log 11).
-/
namespace Sys2Proof.Machine

/-- The flags of R133: bit 5 SV, 4 NV, 3 DZ, 2 OF, 1 UF, 0 NX. -/
abbrev Flags := BitVec 6
def flNone : Flags := 0#6
def flSV : Flags := 0x20#6
def flNV : Flags := 0x10#6
def flDZ : Flags := 0x08#6
def flOF : Flags := 0x04#6
def flUF : Flags := 0x02#6
def flNX : Flags := 0x01#6

/-- Rounding modes by their CVT codes (R161, R189). -/
inductive Rm | rne | rz | ru | rd | sr
  deriving DecidableEq, Repr

def rmOf : Nat → Rm
  | 0 => .rne
  | 1 => .rz
  | 2 => .ru
  | 3 => .rd
  | _ => .sr

/-- A floating format (R175): exponent bits, fraction bits, bias, infinity, largest finite as maxM times 2^maxE,
whether its subnormals flush (R186), the canonical NaN (R177), whether a NaN may signal. -/
structure Fmt where
  e : Nat
  p : Nat
  bias : Nat
  inf : Bool
  nan : Bool
  maxM : Nat
  maxE : Int
  flush : Bool
  canon : Nat
  signals : Bool
  deriving DecidableEq, Repr

/-- A format with IEEE infinities and NaNs. -/
def Fmt.ieee (e p : Nat) (flush : Bool) : Fmt :=
  { e, p, bias := 2 ^ (e - 1) - 1, inf := true, nan := true, maxM := 2 ^ (p + 1) - 1
    maxE := (2 ^ (e - 1) - 1 : Nat) - (p : Int), flush, canon := (2 ^ e - 1) * 2 ^ p + 2 ^ (p - 1), signals := true }

def fp64 : Fmt := .ieee 11 52 false
def fp32 : Fmt := .ieee 8 23 false
def fl19 : Fmt := .ieee 8 10 false
def fp16 : Fmt := .ieee 5 10 true
def bf16 : Fmt := .ieee 8 7 true
def e4m3 : Fmt :=
  { e := 4, p := 3, bias := 7, inf := false, nan := true, maxM := 7, maxE := 6, flush := true, canon := 0x7F, signals := false }
def e5m2 : Fmt := { Fmt.ieee 5 2 true with canon := 0x7E, signals := false }
/-- A format with neither infinity nor NaN: the top code is its largest finite value. -/
def Fmt.plain (e p bias maxM : Nat) (maxE : Int) : Fmt :=
  { e, p, bias, inf := false, nan := false, maxM, maxE, flush := true, canon := 0, signals := false }
def e3m2 : Fmt := .plain 3 2 3 7 2
def e2m3 : Fmt := .plain 2 3 1 15 (-1)
def e2m1 : Fmt := .plain 2 1 1 3 1

/-- The floating formats by CVT code (R161). -/
def fmtOf : Nat → Fmt
  | 0 => fp32
  | 1 => fp64
  | 2 => fl19
  | 3 => fp16
  | 4 => bf16
  | 5 => e4m3
  | 6 => e5m2
  | 7 => e3m2
  | 8 => e2m3
  | _ => e2m1

def Fmt.emin (f : Fmt) : Int := 1 - (f.bias : Int)

/-- A value: NaN (signalling or quiet), an infinity, or plus or minus m times 2^e. -/
inductive FVal
  | nan (signalling : Bool)
  | inf (neg : Bool)
  | fin (neg : Bool) (m : Nat) (e : Int)
  deriving DecidableEq, Repr

def FVal.isNan : FVal → Bool
  | .nan _ => true
  | _ => false
def FVal.isSnan : FVal → Bool
  | .nan b => b
  | _ => false
def FVal.isZero : FVal → Bool
  | .fin _ 0 _ => true
  | _ => false
def FVal.isInf : FVal → Bool
  | .inf _ => true
  | _ => false
def FVal.neg? : FVal → Bool
  | .nan _ => false
  | .inf n => n
  | .fin n _ _ => n

/-- R175, R176, R177: the value that the low bits of a register encode. -/
def Fmt.decode (f : Fmt) (bits : Nat) : FVal :=
  let mant := bits % 2 ^ f.p
  let ex := bits / 2 ^ f.p % 2 ^ f.e
  let neg := bits / 2 ^ (f.p + f.e) % 2 == 1
  if f.nan && ex == 2 ^ f.e - 1 && (if f.inf then mant != 0 else mant == 2 ^ f.p - 1) then
    .nan (f.signals && mant < 2 ^ (f.p - 1))
  else if f.inf && ex == 2 ^ f.e - 1 then .inf neg
  else if ex == 0 then .fin neg mant (f.emin - f.p)
  else .fin neg (2 ^ f.p + mant) ((ex : Int) - f.bias - f.p)

/-- The value is subnormal in the format (R176). -/
def Fmt.isSub (f : Fmt) (bits : Nat) : Bool :=
  bits / 2 ^ f.p % 2 ^ f.e == 0 && bits % 2 ^ f.p != 0

def Fmt.signBit (f : Fmt) (neg : Bool) : Nat := if neg then 2 ^ (f.p + f.e) else 0

/-- The code of plus or minus k times 2^qe, a value of the format. -/
def Fmt.encodeFin (f : Fmt) (neg : Bool) (k : Nat) (qe : Int) : Nat :=
  if k == 0 then f.signBit neg
  else if k < 2 ^ f.p then f.signBit neg + k
  else
    let lg := k.log2
    f.signBit neg + ((lg : Int) + qe + f.bias).toNat * 2 ^ f.p + (k * 2 ^ f.p / 2 ^ lg - 2 ^ f.p)

def Fmt.infBits (f : Fmt) (neg : Bool) : Nat := f.signBit neg + (2 ^ f.e - 1) * 2 ^ f.p
def Fmt.maxBits (f : Fmt) (neg : Bool) : Nat := f.encodeFin neg (f.maxM * 2 ^ (f.p + 1 - (f.maxM.log2 + 1))) (f.maxE - ((f.p + 1 - (f.maxM.log2 + 1) : Nat) : Int))

/-- A code of a format with the flags its making raised. -/
structure Rounded where
  bits : Nat
  fl : Flags
  deriving DecidableEq, Repr

/-- R190. -/
def overflow (f : Fmt) (neg : Bool) (rm : Rm) (sat : Bool) : Rounded :=
  let big := sat || (match rm with
    | .rz => true
    | .ru => neg
    | .rd => !neg
    | _ => false)
  let bits := if big || !f.nan then f.maxBits neg else if f.inf then f.infBits neg else f.canon
  { bits, fl := flOF ||| flNX }

/-- Compare a·2^x with b·2^y: strictly greater. -/
def dyGt (a : Nat) (x : Int) (b : Nat) (y : Int) : Bool :=
  let lo := min x y
  decide (b * 2 ^ (y - lo).toNat < a * 2 ^ (x - lo).toNat)

/-- Round m·2^e to a multiple of 2^qe: the multiple, and whether it was exact (R189). -/
def roundTo (neg : Bool) (m : Nat) (e qe : Int) (rm : Rm) (u : Nat) : Nat × Bool :=
  if qe ≤ e then (m * 2 ^ (e - qe).toNat, true)
  else
    let sh := (qe - e).toNat
    let k := m / 2 ^ sh
    let r := m % 2 ^ sh
    if r == 0 then (k, true)
    else
      let up := match rm with
        | .rne => decide (2 ^ sh < 2 * r) || (2 * r == 2 ^ sh && k % 2 == 1)
        | .rz => false
        | .ru => !neg
        | .rd => neg
        | .sr => decide (u < r * 2 ^ 32 / 2 ^ sh)
      (if up then k + 1 else k, false)

/-- R189: fp_round of plus or minus m·2^e; u is the draw under stochastic rounding. -/
def fpRound (f : Fmt) (neg : Bool) (m : Nat) (e : Int) (rm : Rm) (sat : Bool := false) (u : Nat := 0) : Rounded :=
  if m == 0 then { bits := f.signBit neg, fl := flNone }
  else
    let lg : Int := (m.log2 : Int) + e
    let qe : Int := max lg f.emin - f.p
    let (k, exact) := roundTo neg m e qe rm u
    let nx := if exact then flNone else flNX
    if dyGt k qe f.maxM f.maxE then overflow f neg rm sat
    else
      let tiny := if rm = .sr then decide (lg < f.emin)
        else decide (lg < f.emin) &&
          (let (k', _) := roundTo neg m e (lg - f.p) rm u
           dyGt 1 f.emin k' (lg - f.p))
      let uf := if tiny && !exact then flUF else flNone
      if f.flush && k != 0 && dyGt 1 f.emin k qe then { bits := f.signBit neg, fl := nx ||| uf ||| flUF ||| flNX }
      else { bits := f.encodeFin neg k qe, fl := nx ||| uf }

/-- Round a value: NaN is canonical, an infinity stays (formats with both). -/
def fpRoundV (f : Fmt) (v : FVal) (rm : Rm) (sat : Bool := false) (u : Nat := 0) : Rounded :=
  match v with
  | .nan _ => { bits := f.canon, fl := flNone }
  | .inf n => { bits := f.infBits n, fl := flNone }
  | .fin n m e => fpRound f n m e rm sat u

/-- A subnormal source element of a flushing format is zero of its sign (R160, R186). -/
def Fmt.decodeFlush (f : Fmt) (bits : Nat) : FVal :=
  if f.flush && f.isSub bits then .fin (bits / 2 ^ (f.p + f.e) % 2 == 1) 0 0 else f.decode bits

/-! ### Exact arithmetic on values -/

/-- A result before rounding with the flags of special operands. -/
structure Exact where
  v : FVal
  fl : Flags := flNone
  deriving DecidableEq, Repr

def exNan (fl : Flags) : Exact := { v := .nan false, fl }
def snanFl (vs : List FVal) : Flags := if vs.any FVal.isSnan then flNV else flNone

def FVal.negate : FVal → FVal
  | .nan b => .nan b
  | .inf n => .inf (!n)
  | .fin n m e => .fin (!n) m e

/-- The signed mantissa at exponent lo. -/
def dyInt (n : Bool) (m : Nat) (e lo : Int) : Int :=
  let k : Int := (m * 2 ^ (e - lo).toNat : Nat)
  if n then -k else k

/-- Sum of finite values; an exact zero sum of unlike signs is +0, or -0 under RD. -/
def addFin (n1 : Bool) (m1 : Nat) (e1 : Int) (n2 : Bool) (m2 : Nat) (e2 : Int) (rm : Rm) : FVal :=
  let lo := min e1 e2
  let x := dyInt n1 m1 e1 lo + dyInt n2 m2 e2 lo
  if x == 0 then .fin (if n1 == n2 then n1 else rm == .rd) 0 0
  else .fin (x < 0) x.natAbs lo

def fAddV (a b : FVal) (rm : Rm) : Exact :=
  match a, b with
  | .nan _, _ => exNan (snanFl [a, b])
  | _, .nan _ => exNan (snanFl [a, b])
  | .inf x, .inf y => if x == y then { v := .inf x } else exNan flNV
  | .inf x, _ => { v := .inf x }
  | _, .inf y => { v := .inf y }
  | .fin n1 m1 e1, .fin n2 m2 e2 => { v := addFin n1 m1 e1 n2 m2 e2 rm }

def fMulV (a b : FVal) : Exact :=
  match a, b with
  | .nan _, _ => exNan (snanFl [a, b])
  | _, .nan _ => exNan (snanFl [a, b])
  | .inf x, .inf y => { v := .inf (x != y) }
  | .inf x, .fin y m _ => if m == 0 then exNan flNV else { v := .inf (x != y) }
  | .fin x m _, .inf y => if m == 0 then exNan flNV else { v := .inf (x != y) }
  | .fin n1 m1 e1, .fin n2 m2 e2 => { v := .fin (n1 != n2) (m1 * m2) (e1 + e2) }

/-- One factor infinite and the other zero (R153). -/
def infTimesZero (a b : FVal) : Bool := (a.isInf && b.isZero) || (a.isZero && b.isInf)

def fFmaV (a b c : FVal) (rm : Rm) : Exact :=
  if infTimesZero a b then exNan flNV
  else
    let p := fMulV a b
    match p.v with
    | .nan _ => exNan (snanFl [a, b, c])
    | pv => fAddV pv c rm

def fDivV (a b : FVal) : Exact :=
  match a, b with
  | .nan _, _ => exNan (snanFl [a, b])
  | _, .nan _ => exNan (snanFl [a, b])
  | .inf _, .inf _ => exNan flNV
  | .inf x, .fin y _ _ => { v := .inf (x != y) }
  | .fin x _ _, .inf y => { v := .fin (x != y) 0 0 }
  | .fin x ma ea, .fin y mb eb =>
    if mb == 0 then (if ma == 0 then exNan flNV else { v := .inf (x != y), fl := flDZ })
    else
      let k := 80 + mb.log2
      let q := ma * 2 ^ k / mb
      let r := ma * 2 ^ k % mb
      { v := .fin (x != y) (2 * q + (if r == 0 then 0 else 1)) (ea - eb - k - 1) }

/-- The integer square root, one binary digit at a time from digit i - 1 down. -/
def isqrtAux (n : Nat) : Nat → Nat → Nat
  | 0, r => r
  | i + 1, r => isqrtAux n i (if (r + 2 ^ i) * (r + 2 ^ i) ≤ n then r + 2 ^ i else r)
def isqrt (n : Nat) : Nat := isqrtAux n (n.log2 / 2 + 1) 0

/-- m·2^e with an even exponent and at least 160 bits of m. -/
def evenUp (m : Nat) (e : Int) : Nat × Int :=
  if e % 2 == 0 then (m * 2 ^ 160, e - 160) else (m * 2 ^ 161, e - 161)

def fSqrtV (a : FVal) : Exact :=
  match a with
  | .nan _ => exNan (snanFl [a])
  | .inf n => if n then exNan flNV else { v := .inf false }
  | .fin n m e =>
    if m == 0 then { v := .fin n 0 0 }
    else if n then exNan flNV
    else
      let (m', e') := evenUp m e
      let r := isqrt m'
      { v := .fin false (2 * r + (if r * r == m' then 0 else 1)) (e' / 2 - 1) }

def fRsqV (a : FVal) : Exact :=
  match a with
  | .nan _ => exNan (snanFl [a])
  | .inf n => if n then exNan flNV else { v := .fin false 0 0 }
  | .fin n m e =>
    if m == 0 then { v := .inf n, fl := flDZ }
    else if n then exNan flNV
    else
      let (m', e') := if e % 2 == 0 then (m, e) else (2 * m, e - 1)
      let k := 160 + m'.log2
      let r := isqrt (2 ^ (2 * k) / m')
      { v := .fin false (2 * r + (if r * r * m' == 2 ^ (2 * k) then 0 else 1)) (-(e' / 2) - k - 1) }

/-! ### Elementary functions, in fixed point with 512 fraction bits -/

def fxBits : Nat := 512
def fxLn2 : Int := 0xb17217f7d1cf79abc9e3b39803f2f6af40f343267298b62d8a0d175b8baafa2be7b876206debac98559552fb4afa1b10ed2eae35c138214427573b291169b825
def fxPi : Int := 0x3243f6a8885a308d313198a2e03707344a4093822299f31d0082efa98ec4e6c89452821e638d01377be5466cf34e90c6cc0ac29b7c97c50dd3f84d5b5b5470917
def fxMul (a b : Int) : Int := (a * b) / 2 ^ fxBits

/-- Sum of x^k / k! from the given term on. -/
def expTerms (x : Int) : Nat → Nat → Int → Int
  | 0, _, _ => 0
  | f + 1, k, t => t + expTerms x f (k + 1) (fxMul t x / ((k : Int) + 1))
/-- exp x for x in [0, 1). -/
def fxExp (x : Int) : Int := expTerms x 110 0 (2 ^ fxBits)

/-- Sum of z^(2k+1) / (2k+1), the inverse hyperbolic tangent. -/
def atanhTerms (z2 : Int) : Nat → Nat → Int → Int
  | 0, _, _ => 0
  | f + 1, k, t => t / (2 * (k : Int) + 1) + atanhTerms z2 f (k + 1) (fxMul t z2)
/-- ln x for x in [1, 2). -/
def fxLn (x : Int) : Int :=
  let one : Int := 2 ^ fxBits
  let z := (x - one) * one / (x + one)
  2 * atanhTerms (fxMul z z) 170 0 z

/-- Alternating sum t - t·x²/((k+1)(k+2)) + …, for sine (k = 1) and cosine (k = 0). -/
def trigTerms (x2 : Int) : Nat → Nat → Int → Int
  | 0, _, _ => 0
  | f + 1, k, t => t - trigTerms x2 f (k + 2) (fxMul t x2 / (((k : Int) + 1) * ((k : Int) + 2)))
def fxSin (x : Int) : Int := trigTerms (fxMul x x) 64 1 x
def fxCos (x : Int) : Int := trigTerms (fxMul x x) 64 0 (2 ^ fxBits)

/-- An irrational value from its fixed-point truncation: the odd last digit marks it inexact. -/
def irrational (neg : Bool) (x : Int) (e : Int := 0) : FVal :=
  .fin neg (2 * x.natAbs + 1) (e - fxBits - 1)

/-- 2^a. Beyond ±300 the value lies outside every result format of R154 and one such value stands for all. -/
def fExp2V (a : FVal) : Exact :=
  match a with
  | .nan _ => exNan (snanFl [a])
  | .inf n => if n then { v := .fin false 0 0 } else { v := .inf false }
  | .fin n m e =>
    if m == 0 then { v := .fin false 1 0 }
    else if dyGt m e 300 0 then { v := .fin false 3 (if n then -400 else 400) }
    else
      let x : Int := dyInt n m e (min e 0)
      let d : Int := 2 ^ (-(min e 0)).toNat
      let i := x / d
      let fr := x % d
      if fr == 0 then { v := .fin false 1 i }
      else { v := irrational false (fxExp (fxMul (fr * 2 ^ fxBits / d) fxLn2)) i }

def fLog2V (a : FVal) : Exact :=
  match a with
  | .nan _ => exNan (snanFl [a])
  | .inf n => if n then exNan flNV else { v := .inf false }
  | .fin n m e =>
    if m == 0 then { v := .inf true, fl := flDZ }
    else if n then exNan flNV
    else
      let lg := m.log2
      let i : Int := (lg : Int) + e
      if m == 2 ^ lg then { v := .fin (i < 0) i.natAbs 0 }
      else
        let fr := fxLn ((m : Int) * 2 ^ fxBits / 2 ^ lg) * 2 ^ fxBits / fxLn2
        let x := i * 2 ^ fxBits + fr
        { v := irrational (x < 0) x }

/-- The half-turn argument as a count of quarter turns (0 to 3, modulo 4) and a rest in (-1/4, 1/4] half-turns:
returns the quarter count and the rest in fixed point, exact or scaled by 2^k as a dyadic numerator and denominator. -/
def quarterSplit (n : Bool) (m : Nat) (e : Int) : Nat × Int × Int :=
  let x : Int := dyInt n m e (min e 0)
  let d : Int := 2 ^ (-(min e 0)).toNat
  let q := (4 * x + d) / (2 * d)
  ((q % 4).toNat, 2 * x - q * d, 2 * d)

/-- sin(π a) for a = q/2 + num/den: sine or cosine of the rest with the quadrant's sign. -/
def sinQuarter (q : Nat) (num den : Int) : FVal :=
  if num == 0 then
    if q % 2 == 0 then .fin false 0 0 else .fin (q == 3) 1 0
  else
    let x := fxMul (num * 2 ^ fxBits / den) fxPi
    let y := if q % 2 == 0 then fxSin x else fxCos x
    irrational ((y < 0) != decide (2 ≤ q)) y

def fSinV (a : FVal) : Exact :=
  match a with
  | .nan _ => exNan (snanFl [a])
  | .inf _ => exNan flNV
  | .fin n m e =>
    let (q, num, den) := quarterSplit n m e
    if num == 0 && q % 2 == 0 then { v := .fin n 0 0 } else { v := sinQuarter q num den }

def fCosV (a : FVal) : Exact :=
  match a with
  | .nan _ => exNan (snanFl [a])
  | .inf _ => exNan flNV
  | .fin n m e =>
    let (q, num, den) := quarterSplit n m e
    { v := sinQuarter ((q + 1) % 4) num den }

/-! ### Comparison (R155 to R157) -/

/-- a < b on numbers, with -0 equal to +0. -/
def fLt (a b : FVal) : Bool :=
  match a, b with
  | .nan _, _ => false
  | _, .nan _ => false
  | .inf x, .inf y => x && !y
  | .inf x, _ => x
  | _, .inf y => !y
  | .fin n1 m1 e1, .fin n2 m2 e2 =>
    let lo := min e1 e2
    decide (dyInt n1 m1 e1 lo < dyInt n2 m2 e2 lo)
def fEq (a b : FVal) : Bool := !a.isNan && !b.isNan && !fLt a b && !fLt b a

/-- R155: which operand minimumNumber returns (true: a), -0 below +0. -/
def fMinLeft (a b : FVal) : Bool :=
  if a.isNan then false else if b.isNan then true
  else fLt a b || (fEq a b && (a.neg? || !b.neg?))

/-- R156. -/
def fCmp (cond : Nat) (a b : FVal) : Bool × Flags :=
  let un := a.isNan || b.isNan
  let sn := snanFl [a, b]
  let anyN := if un then flNV else flNone
  match cond with
  | 0 => (fEq a b, sn)
  | 1 => (!fEq a b, sn)
  | 2 => (fLt a b, anyN)
  | 3 => (fLt a b || fEq a b, anyN)
  | 4 => (fLt b a, anyN)
  | 5 => (fLt b a || fEq a b, anyN)
  | 6 => (un, sn)
  | _ => (!un, sn)

/-- R157. -/
def fClass (f : Fmt) (bits : Nat) : Nat :=
  match f.decode bits with
  | .nan s => if s then 0x100 else 0x200
  | .inf n => if n then 0x1 else 0x80
  | .fin n m _ =>
    if m == 0 then (if n then 0x8 else 0x10)
    else if f.isSub bits then (if n then 0x4 else 0x20)
    else (if n then 0x2 else 0x40)

/-! ### Conversion (R162, R187, R188) -/

/-- R187: the destinations, by code, that a source format widens into or equals. -/
def widens (sf df : Nat) : Bool :=
  sf == df ||
  ((([[1], [], [1, 0], [1, 0, 2], [1, 0, 2], [1, 0, 2, 3, 4], [1, 0, 2, 3, 4], [1, 0, 2, 3, 4, 5, 6], [1, 0, 2, 3, 4, 5],
    [1, 0, 2, 3, 4, 5, 6, 7, 8]] : List (List Nat)).getD sf []).contains df)

/-- Float to float (R187, R188). -/
def cvtFF (sf df : Nat) (bits : Nat) (rm : Rm) (sat : Bool) (u : Nat) : Rounded :=
  let s := fmtOf sf
  let d := fmtOf df
  let v := if widens sf df then s.decode bits else s.decodeFlush bits
  if widens sf df then
    match v with
    | .nan sn => { bits := d.canon, fl := if sn then flNV else flNone }
    | .inf n => { bits := d.infBits n, fl := flNone }
    | .fin n m e => { bits := (fpRound { d with flush := false } n m e .rne).bits, fl := flNone }
  else
    match v with
    | .nan sn => if d.nan then { bits := d.canon, fl := if sn then flNV else flNone } else { bits := 0, fl := flNV }
    | .inf n =>
      if sat then { bits := d.maxBits n, fl := flNV }
      else if d.inf then { bits := d.infBits n, fl := flNone }
      else if d.nan then { bits := d.canon, fl := flNV }
      else { bits := d.maxBits n, fl := flNV }
    | .fin n m e => fpRound d n m e rm sat u

def intLo (n : Nat) (signed : Bool) : Int := if signed then -(2 ^ (n - 1)) else 0
def intHi (n : Nat) (signed : Bool) : Int := if signed then 2 ^ (n - 1) - 1 else 2 ^ n - 1
/-- R194. -/
def satInt (x : Int) (n : Nat) (signed : Bool) : Int := max (intLo n signed) (min (intHi n signed) x)
/-- The N-bit pattern of an integer. -/
def wrapNat (x : Int) (n : Nat) : Nat := (x % 2 ^ n).toNat

/-- Float to integer (R162). -/
def cvtFI (v : FVal) (n : Nat) (signed : Bool) (rm : Rm) : Rounded :=
  match v with
  | .nan _ => { bits := 0, fl := flNV }
  | .inf neg => { bits := wrapNat (if neg then intLo n signed else intHi n signed) n, fl := flNV }
  | .fin neg m e =>
    let (k, exact) := roundTo neg m e 0 rm 0
    let x : Int := if neg then -(k : Int) else k
    let y := satInt x n signed
    { bits := wrapNat y n, fl := if x != y then flNV else if exact then flNone else flNX }

/-- Integer to float (R162). -/
def cvtIF (x : Int) (df : Nat) (rm : Rm) (sat : Bool) : Rounded :=
  fpRound (fmtOf df) (x < 0) x.natAbs 0 rm sat

/-- An N-bit pattern read as a signed or unsigned integer. -/
def readInt (bits : Nat) (n : Nat) (signed : Bool) : Int :=
  let b := bits % 2 ^ n
  if signed && 2 ^ (n - 1) ≤ b then (b : Int) - 2 ^ n else b

/-- Integer to integer (R162): sources and destinations by width and signedness. -/
def cvtII (x : Int) (n : Nat) (signed sat : Bool) : Rounded :=
  let y := satInt x n signed
  if sat then { bits := wrapNat y n, fl := if x != y then flSV else flNone } else { bits := wrapNat x n, fl := flNone }

/-! ### The generator (R191, R192) and the block scales (R181 to R185) -/

def srDraw (g : Word) : Word :=
  let g1 := g ^^^ (g <<< 13)
  let g2 := g1 ^^^ (g1 >>> 17)
  g2 ^^^ (g2 <<< 5)

/-- n draws: the values in order, and the last state. -/
def srDraws : Nat → Word → List Nat × Word
  | 0, g => ([], g)
  | n + 1, g =>
    let g' := srDraw g
    let (us, e) := srDraws n g'
    (g'.toNat :: us, e)

/-- R192. -/
def srSeed (sheetid : DWord) (teamid groupid lane : Nat) : Word :=
  let g := sheetid.extractLsb' 0 32 ^^^ sheetid.extractLsb' 32 32 ^^^ (BitVec.ofNat 32 teamid * 0x9E3779B9#32) ^^^
    BitVec.ofNat 32 (groupid * 64) ^^^ BitVec.ofNat 32 lane
  if g == 0#32 then 0x6A09E667#32 else g

/-- A value times 2^k. -/
def FVal.scale (v : FVal) (k : Int) : FVal :=
  match v with
  | .fin n m e => .fin n m (e + k)
  | w => w

/-- R182 with R186: an element of a block; the matrix engine reads a subnormal element as zero. -/
def k48Value (f : Fmt) (code c : Nat) : FVal :=
  if c == 255 then .nan false else (f.decodeFlush code).scale ((c : Int) - 127)

/-- The largest finite exponent of an element format as R183 states it. -/
def emaxOf (df : Nat) : Int :=
  match df with
  | 5 => 8
  | 6 => 15
  | 7 => 4
  | _ => 2

/-- floor(log2) of the largest magnitude of the values, or none when all are zero. -/
def maxLog : List FVal → Option Int
  | [] => none
  | .fin _ m e :: vs =>
    if m == 0 then maxLog vs
    else
      let x : Int := (m.log2 : Int) + e
      match maxLog vs with
      | none => some x
      | some y => some (max x y)
  | _ :: vs => maxLog vs

/-- R183: the scale code, the elements with their flags, and the generator after the block's draws. -/
def k48Quantise (df : Nat) (xs : List FVal) (rm : Rm) (g : Word) : Nat × List Nat × Flags × Word :=
  let (us, g') := if rm = .sr then srDraws 48 g else (List.replicate 48 0, g)
  if xs.any (fun v => v.isNan || v.isInf) then (255, List.replicate 48 0, flNV, g')
  else
    match maxLog xs with
    | none => (0, List.replicate 48 0, flNone, g')
    | some lg =>
      let e := max (-127) (min 127 (lg - emaxOf df))
      let rs := (xs.zip us).map fun (v, u) => fpRoundV (fmtOf df) (v.scale (-e)) rm true u
      ((e + 127).toNat, rs.map (·.bits), rs.foldl (fun a r => a ||| r.fl) flNone, g')

/-- R185: the eight elements that a codebook index stands for. -/
def cb16Decode (book : List Word) (x c : Nat) : List FVal :=
  let m := (book.getD (x / 256 % 256) 0#32).toNat
  let sgn (j : Nat) : Bool :=
    if j < 7 then x.testBit (j + 1) else (List.range 7).foldl (fun a k => a != x.testBit (k + 1)) false
  (List.range 8).map fun j =>
    if c == 255 then .nan false
    else .fin (sgn j) (m / 2 ^ (4 * j) % 16 + x % 2) ((c : Int) - 128)

end Sys2Proof.Machine
end

