-- ==== Sys2Proof/Machine/State.lean ====
section
/-!
DEFINITION. The machine's state as plain data: everything that the spec gives the part, and the model's own fields
(agenda, cur, free, rr). Memories are lists of (address, byte) pairs in one canonical form; records are kept in lists
and found by their numbers. `State.reset` is the part right after a power-on reset.
-/
namespace Sys2Proof.Machine

/-- Bytes by address: addresses strictly rising, no byte zero; an unlisted address reads as zero (log 4). -/
abbrev Mem := List Host.Cell

/-- What a fault record names (R405). -/
inductive Cause
  | illegal | target | fetch | latch | align | page | access | footprint | scratch | stage | portOverflow
  | matrixState | break | trap | check | pageWait | preempt | evict | halt | step
  deriving DecidableEq, Repr

/-- Stops of the model. -/
inductive Fault
  /-- Raised by no meaning: an access to an address that the map of R321 leaves out has an effect of its own, a fault of a group or an
  access fault of a hart. Safe. -/
  | busError (addr : Nat)
  deriving DecidableEq, Repr

/-- Refusals of the model. -/
inductive Refusal
  /-- Raised by no meaning: an instruction whose arm of the dispatch has no meaning yet. Safe. -/
  | notModelled (mnemonic : String)
  /-- Raised by a meaning of an instruction word when no subset is issuing: an instruction word acts only for the
  subset that issues it (R90). Safe. -/
  | noIssuer
  deriving DecidableEq, Repr

/-! ### Groups (R80 to R121) -/

/-- Why a lane waits (R411); the last four are waits that a frame does not record, whose instruction issues again. -/
inductive Wait
  | none
  | bar (k : Nat)
  | recv (port d cap : Nat)
  | recvPat (d cap : Nat)
  | chunks (base mask : Nat) (cs : List Nat)
  | call (slot : Nat)
  | spawn
  | nap (left : Nat)
  | mopen
  | win (entry : Nat) (arr : Bool) (threshold : DWord)
  | mwait (n : Nat) (fl : Mask) (wp : Bool)
  | stage (st : Nat)
  | send (entered : Mask)
  | answer (d cap : Nat) (nwb : Bool) (r : List Byte)
  | budget (cls res : Nat)
  | request (n : Nat)
  | walk
  | slot (lo hi : Nat)
  deriving DecidableEq, Repr

/-- One lane (R104, R95, R114, R191, R193, R133, R410). `stack` has the top entry first; `commit`: it has issued a
commit instruction since its waypoint (R96); `due`: the exception that it raises
at its slot when its subset is next picked: E_FETCH after a transfer to a line that failed parity (R28), E_ACCESS at a RECV whose port
has closed or whose wake patterns have gone (R381). -/
structure Lane where
  pc : DWord := 0#64
  wp : DWord := 0#64
  stack : List DWord := []
  exited : Bool := false
  held : Bool := false
  commit : Bool := false
  due : Option Cause := none
  wait : Wait := .none
  sr : Word := 0#32
  srRec : Word := 0#32
  fflags : Flags := 0#6
  targ : DWord := 0#64
  skipped : Nat := 0
  stall : Nat := 0
  deriving DecidableEq, Repr

inductive LatchSt | never | live | lost
  deriving DecidableEq, Repr
inductive LatchKind | vec | pair | scalar
  deriving DecidableEq, Repr

/-- A bypass latch (R46): the register it belongs to, its kind, the write-back flag, one value a lane (or one). -/
structure Latch where
  st : LatchSt := .never
  reg : Nat := 0
  kind : LatchKind := .vec
  wb : Bool := false
  vals : List DWord := []
  deriving DecidableEq, Repr

/-- R113. -/
structure Join where
  j : DWord
  m : Mask
  deriving DecidableEq, Repr

/-- R88; running, ready and waiting are told apart by the lanes' waits. -/
inductive CtxState | resident | parked | saved | dropped
  deriving DecidableEq, Repr

/-- What a save records beside the registers (R409). -/
structure Save where
  cause : Cause := .halt
  fstate : Nat := 0
  fpc : DWord := 0#64
  faddr : DWord := 0#64
  flanes : Mask := 0#64
  subset : Mask := 0#64
  tcode : Nat := 0
  waitc : Nat := 0
  waitx : Nat := 0
  ctxw : Nat := 0
  cyc : DWord := 0#64
  deriving DecidableEq, Repr

/-- A matrix instruction of a batch with what it read at its issue (R207): scalar operands, the vector registers it names
with one value a lane, the generators of the lanes before its draws (R231), the physical segments of its memory rows with the bytes
that stood there and whether a word of them failed its check (R210, R421), each scratchpad chunk that it reads as it stood when the chunk
was there, `got`, while it waits for another (R210, R492), the pages, with their page bits,
through whose leaves its stores have been translated (R329). -/
structure MOp where
  i : Instr
  base : DWord := 0#64
  aux : DWord := 0#64
  regs : List (Nat × List Word) := []
  gens : List Word := []
  rows : List (List (Nat × Nat)) := []
  snap : Mem := []
  bad : Bool := false
  scr : Mem := []
  got : List Nat := []
  pages : List (Nat × Nat) := []
  deriving DecidableEq, Repr

/-- The matrix state of a core (R195): tile byte t·12,288 + k, accumulator byte c·16,384 + k, codebook byte, tags
(none is NONE); `badT` and `badA`: words of tiles and accumulators whose check fails, by byte number divided by four (R421, R491). -/
structure MState where
  tiles : Mem := []
  accs : Mem := []
  book : Mem := []
  badT : List Nat := []
  badA : List Nat := []
  tags : List (Option Nat) := List.replicate 16 none
  deriving DecidableEq, Repr

/-- What a batch has written and not committed (R207, R208): registers by number with one value a lane or none, global
and scratchpad bytes in order, the matrix state after it, the flags. A register's value comes with the mask of the bits
that are written. -/
structure Pending where
  m : Option MState := none
  vregs : List (Nat × List (Option (Word × Word))) := []
  mem : List (Nat × List Byte) := []
  scratch : List (Nat × List Byte) := []
  fl : Flags := 0#6
  deriving DecidableEq, Repr

/-- A batch (R206, R208, R218, R492): `todo` holds the instructions that wait for a chunk; `fail` is the cause that its
retirement raises. `written` lists the vector registers a CRD or QNT of it will write (R209), `pages` the pages of its instructions. -/
structure Batch where
  closed : Bool := false
  count : Nat := 0
  todo : List MOp := []
  pend : Pending := {}
  fail : Option (Cause × DWord) := none
  written : List Nat := []
  pages : List (Nat × Nat) := []
  deriving DecidableEq, Repr

/-- One page-fault record sent to a shard (R327): the shard, the lanes it names, their addresses with the lane of each, what the
accesses do (0 read, 1 write, 2 both, 3 fetch), the request generation; whether the shard has replied, and the addresses that it could
not map. -/
structure FaultRec where
  shard : Nat
  lanes : Mask
  vas : List DWord
  who : List Nat := []
  kind : Nat := 0
  gen : Nat := 0
  missing : List (Nat × DWord) := []
  done : Bool := false
  failed : Option Cause := none
  deriving DecidableEq, Repr

/-- A call in progress (R392): its slot, form (1 SYS, 2 SYSA, 3 SYSW), `.each`, calling lanes, those answered, the
destination register, the reply port, the calling slot's address, number and CSEQ; `served`: the lanes that have a RESULT;
`owed`: those answered while the group was saved (R398); `popped`: a Surveyor has read its descriptor (R387), `passed`: the
lanes whose owner has taken the message that passes the call, `sent`: the lanes for which that message has been sent (R486); pages that a shard has asked the memory shards for, and
those for which they have replied (R395); the outbound copies that have run: chunk offset, physical address, length (R395); in a re-run, the recorded call that it is paired
with (R428). -/
structure CallRec where
  slot : Nat
  form : Nat
  each : Bool := false
  active : Mask
  answered : Mask := 0#64
  served : Mask := 0#64
  owed : Mask := 0#64
  dest : Nat := 0
  port : Nat := 0
  pc : DWord
  callno : Nat
  cseq : Nat := 0
  seq : Nat := 0
  popped : Bool := false
  passed : Mask := 0#64
  sent : Mask := 0#64
  asked : List Nat := []
  replied : List Nat := []
  copied : List (Nat × Nat × Nat) := []
  recorded : Option Nat := none
  deriving DecidableEq, Repr

/-- A group (R80, R84, R88). `id` is the model's name of it. `vregs` is one list per register, one value a lane;
`preds` holds p0 to p14. `chain`: the subset and fetch line of the unbroken chain (R47). `seq` orders the moments at which
parked groups became eligible and resident groups began to wait (R86), zero when neither holds; `parkedAt` is the core's
cycle at that moment, `issueSince` the ck issued since the last unparking. `kept` holds the latches as they stood when a
subset issued an instruction that performs only after its wait (R47). `spill`: the group's next request may take what other
classes leave idle (R447). `seen`: marked lines that its atomic
loads have reached since its last acquire fence, and `relFence`: it has made a release fence at group or team scope (R286, R294).
`block`: the aligned block of lane positions that it is bound to (R83); `entryDue`: its entry was not mapped
at admission, so that its first fetch checks the TGT bit (R27); `brk`: the slot at which it took an exception ends its chain, for a NEXT that
goes past it (R47, R415); `redrop`: a checkpoint has evicted it while it was dropped (R425). -/
structure Group where
  id : Nat
  sheet : Nat := 0
  team : Nat := 0
  idx : Nat := 0
  asn : Nat := 0
  sheetid : DWord := 0#64
  teamid : Nat := 0
  tsize : Nat := 1
  width : Nat := 16
  vcount : Nat := 0
  scount : Nat := 0
  waypt : Bool := false
  matrix : Bool := false
  core : Nat := 0
  ctx : Nat := 0
  frame : Nat := 0
  st : CtxState := .resident
  frameHeld : Bool := false
  stepping : Bool := false
  resumeReq : Bool := false
  recDone : List Nat := []
  parkedAt : Nat := 0
  issueSince : Nat := 0
  vregs : List (List Word) := []
  sregs : List DWord := []
  preds : List Mask := []
  lanes : List Lane := []
  latches : List Latch := List.replicate 4 {}
  joins : List Join := []
  chain : Option (Mask × DWord) := none
  yieldTo : Option Mask := none
  cseq : Nat := 0
  calls : List CallRec := []
  batches : List Batch := []
  save : Save := {}
  faults : List FaultRec := []
  rgen : Option Nat := none
  roMem : Option Mem := none
  badV : List (Nat × Nat) := []
  badS : List Nat := []
  kept : List (Mask × List Latch) := []
  lastTime : Nat := 0
  image : Option MState := none
  spill : Bool := false
  seq : Nat := 0
  seen : List Nat := []
  relFence : Bool := false
  block : Nat := 0
  entryDue : Bool := false
  brk : Bool := false
  redrop : Bool := false
  deriving DecidableEq, Repr

/-! ### Teams, ports, copies (R237 to R264, R362 to R383) -/

/-- R245. -/
structure CopyEntry where
  gaddr : DWord
  gstep : DWord
  gstride : Int
  soff : Nat
  sstep : Nat
  rows : Nat
  rowbytes : Nat
  kind : Nat
  stage : Nat
  sring : Nat
  members : Nat
  notify : Option Nat
  deriving DecidableEq, Repr

/-- One entry's work in a round, or a CPY: rows as (global address, scratchpad offset, bytes), the chunks it clears and
those that have not landed or drained. `data` is what a multicast has read, once for all its members (R253); `waiting`: it
waits for the other members. -/
structure Job where
  out : Bool
  rows : List (DWord × Nat × Nat)
  chunks : List Nat
  left : List Nat
  mcast : Nat := 0
  notify : Option Nat := none
  waiting : Bool := false
  data : Option (List Byte) := none
  failed : Bool := false
  deriving DecidableEq, Repr

/-- A round in flight (R248), or a copy outside a schedule (stage none). -/
structure Round where
  id : Nat
  stage : Option Nat
  r : Nat := 0
  jobs : List Job
  deriving DecidableEq, Repr

/-- The active schedule (R270): index, key, entries, releases and completions per stage, FAIL. -/
structure Sched where
  idx : Nat
  key : DWord
  entries : List CopyEntry
  rel : List Nat := List.replicate 16 0
  done : List Nat := List.replicate 16 0
  fail : Bool := false
  deriving DecidableEq, Repr

/-- A message (R362) with the release scope that a taker acquires (R378). -/
structure Msg where
  data : DWord
  aux : Nat := 0
  info : Nat := 0
  port : Nat := 0
  kind : Nat
  scope : Nat := 0
  deriving DecidableEq, Repr

/-- A SEND or SENDX lane's message that waits at a full port in block mode (R367). -/
structure Blocked where
  gid : Nat
  lane : Nat
  msg : Msg
  deriving DecidableEq, Repr

/-- An open port (R364 to R368). -/
structure Port where
  num : Nat
  depth : Nat
  fault : Bool
  xteam : Bool
  core : Nat
  q : List Msg := []
  held : List Msg := []
  blocked : List Blocked := []
  deriving DecidableEq, Repr

/-- The kernel header's fields (R72). -/
structure Header where
  width : Nat
  vcount : Nat
  scount : Nat
  team : Nat
  scratch : Nat
  flags : Nat
  deriving DecidableEq, Repr

/-- An armed pattern (R371 to R375); a spawn pattern with the header of its handler's kernel (R382). -/
structure Pattern where
  num : Nat
  handler : DWord
  ports : List Nat
  prio : Nat
  spawn : Bool
  once : Bool
  sbase : Nat
  owner : Nat
  core : Nat
  hdr : Option Header := none
  ready : Bool := false
  age : Nat := 0
  matchCount : Nat := 0
  deriving DecidableEq, Repr

/-- A single-port RECV that waits, with the lanes that issued it and its place in the order presented (R374). -/
structure Recv where
  gid : Nat
  mask : Mask
  port : Nat
  seq : Nat := 0
  deriving DecidableEq, Repr

/-- A team (R80, R82). `failed` gives the recorded fault of an absent chunk that failed (R244); `named`: the failed chunks that an instruction
has named (R107). `landed`: chunks that a fetch has filled and that no group has seen since, with the bytes that stood there before in
`older` (R258). -/
structure Team where
  id : Nat
  sheet : Nat
  task : Nat
  teamid : Nat
  size : Nat
  cores : List Nat
  s : Nat
  paired : Bool := false
  matrix : Bool := false
  groups : List Nat
  scratch : Mem := []
  older : Mem := []
  landed : List Nat := []
  absent : List Nat := []
  failed : List (Nat × Cause × DWord) := []
  named : List Nat := []
  bad : List Nat := []
  sched : Option Sched := none
  lastSched : Nat := 255
  rounds : List Round := []
  ports : List Port := []
  lost : List (Nat × Nat) := []
  pats : List Pattern := []
  recvs : List Recv := []
  wear : Nat := 0
  exited : Bool := false
  frees : Bool := false
  spawned : Bool := false
  seq : Nat := 0
  deriving DecidableEq, Repr

/-! ### Cores and clusters (R84 to R102, R281, R282, R294, R322, R429 to R447) -/

/-- A spawn bin (R99 to R101): sheet, entry, the header of the kernel there, the threads' start values (v0, v1, … low word first),
the timer. -/
structure Bin where
  sheet : Nat
  task : Nat
  entry : DWord
  hdr : Header
  args : List (List Word)
  start : Nat
  order : Nat
  deriving DecidableEq, Repr

/-- A TLB entry (R322): address space, page base (virtual), page bits, leaf. -/
structure TlbEntry where
  asn : Nat
  va : Nat
  bits : Nat
  leaf : DWord
  deriving DecidableEq, Repr

/-- One half of one pipe (R436, R437): the repaired index, whether the half is lost, lanes that have failed. -/
structure Half where
  used : Option Nat := none
  lost : Bool := false
  failed : List Nat := []
  wear : Nat := 0
  deriving DecidableEq, Repr

/-- R432. -/
inductive WearState | nominal | step1 | step2 | drained | retired
  deriving DecidableEq, Repr

/-- A line in a cache (R277 to R279): its number, and the valid and the dirty bit of each of its 32 words. The words' bytes are those
of `State.mem` (log 3). -/
structure CLine where
  line : Nat
  valid : Word := 0#32
  dirty : Word := 0#32
  deriving DecidableEq, Repr

/-- A line-request entry (R282): who holds it, the line, and whether its accesses write (R281). -/
structure LineReq where
  gid : Nat
  line : Nat
  wr : Bool := false
  deriving DecidableEq, Repr

/-- A compute core. `named` are the disagreements since the last report by physical lane (R436); `checks` the E_CHECK
times of R136 and R218 (R432); `carry` the µWU remainder, `charges` the issue ck by team and sheet since the last report (R442);
`reqQ`: the subsets that wait for request entries, oldest first (R282); `l1`: the lines of the L1, the one used last at the end
(R277), and `badL1` its words whose check fails, by address divided by four (R421, R491); `nextHalves`: what the next rewrite of %lanemap puts there (R439). `lead`: the ck by which the issue of each quarter of the lane
positions is ahead of the cluster's clock in the current 10 ns (R7, R83); `cycle` counts the ck of the quarter that is furthest. -/
structure Core where
  cycle : DWord := 0#64
  lead : List Nat := [0, 0, 0, 0]
  rot : List Nat := []
  mstate : MState := {}
  mowner : Option Nat := none
  mopenQ : List Nat := []
  tlb : List TlbEntry := []
  reqs : List LineReq := []
  reqQ : List (Nat × Mask) := []
  l1 : List CLine := []
  badL1 : List Nat := []
  bins : List Bin := []
  binSeq : Nat := 0
  halves : List Half := List.replicate 4 {}
  twoPass : Bool := false
  phalf : Bool := false
  chalf : Bool := false
  nextHalves : Option (List Half) := none
  charges : List (Nat × Nat × Nat) := []
  named : List (LaneId × Nat) := []
  checks : List Nat := []
  wst : WearState := .nominal
  wearTotal : Nat := 0
  li : Nat := 0
  di : Nat := 0
  rank : Nat := 0
  carry : Nat := 0
  fwd : List (Nat × Nat) := []
  injectRuns : List (List Mask) := []
  residueRuns : Nat := 0
  lastFree : Nat := 0
  deriving DecidableEq, Repr

/-- The budget registers of a class (R446) and its use in the current period (R443, R445). -/
structure Budget where
  noc : Nat
  hbm : Nat
  pwr : Nat
  spill : Bool
  used : List Nat := [0, 0, 0]
  exh : List Nat := [0, 0, 0]
  deriving DecidableEq, Repr

/-- A cluster: clock step (R433), whether the clock is stopped, budgets in force and those written for the next
period. -/
structure Cluster where
  step : Nat := 0
  budgets : List Budget
  next : List Budget
  pwrcap : Nat := 120000
  nextCap : Nat := 120000
  period : Nat := 0
  retired : Bool := false
  deriving DecidableEq, Repr

/-! ### Surveyors (R384 to R404, R414) -/

/-- A CALLQ descriptor (R387, R388). -/
structure Desc where
  slot : Nat
  type : Nat
  deriving DecidableEq, Repr

/-- A call copy that runs (R395): the team and its round, the physical address, the first chunk's offset, the bytes, the
direction, the call slot. -/
structure CopyJob where
  team : Nat
  rid : Nat
  pa : Nat
  off : Nat
  len : Nat
  out : Bool
  slot : Nat
  deriving DecidableEq, Repr

/-- A message of a passed call that the owner of what the call names has taken (R486): its DATA, the call number, the calling shard, the
call's number in issue order. -/
structure Pass where
  word : DWord
  callno : Nat
  home : Nat
  seq : Nat
  deriving DecidableEq, Repr

/-- A Surveyor's registers, by physical cluster (R386, R387, R390, R414). `heldq`: descriptors that wait for room; `sent`:
messages on their way, with their destination shards; `gctlJob`: an action that waits for a context, and its group. -/
structure Surveyor where
  svenable : Nat := 0
  svxlat : DWord := 0#64
  svtimecmp : DWord := 0xFFFFFFFFFFFFFFFF#64
  lcl : Nat := 15
  shard : Nat := 255
  callq : List Desc := []
  heldq : List Desc := []
  replyMask : Mask := 0#64
  txDst : Nat := 0
  txData : DWord := 0#64
  sent : List (Nat × Msg) := []
  mbox : List (List Msg) := List.replicate 16 []
  mheld : List (List Msg) := List.replicate 16 []
  ccSrc : DWord := 0#64
  ccDst : DWord := 0#64
  ccStat : Nat := 0
  ccJob : Option CopyJob := none
  sverr : Nat := 0
  gctlStat : Nat := 0
  gctlJob : Option (Nat × Nat) := none
  wst : WearState := .nominal
  wearTotal : Nat := 0
  di : Nat := 0
  lastRead : DWord := 0#64
  passes : List Pass := []
  deriving DecidableEq, Repr

/-- An RV64 hart (R384): x0 to x31, the program counter, M or S mode, the CSRs that it keeps under their numbers, a reservation (the
address and the bytes found there), the instructions that it has retired, and whether it sleeps in a WFI (log 32). -/
structure Hart where
  x : List DWord := List.replicate 32 0#64
  pc : DWord := 0#64
  machine : Bool := true
  csrs : List (Nat × DWord) := []
  resv : Option (Nat × List Byte) := none
  instret : Nat := 0
  mcycle : Nat := 0
  asleep : Bool := false
  deriving DecidableEq, Repr

/-! ### Sheets, tasks, queues (R335 to R361, R418 to R428, R455) -/

/-- A declared range (R337). -/
structure Foot where
  base : Nat
  len : Nat
  acc : Nat
  deriving DecidableEq, Repr

/-- An extent (R324): a run of 64 KiB pages, its physical base, the accesses granted, its index in the table of its range. -/
structure Extent where
  va : Nat
  pa : Nat
  len : Nat
  rd : Bool
  wr : Bool
  x : Bool := false
  rn : Bool := false
  idx : Nat := 0
  deriving DecidableEq, Repr

inductive TaskSt | waiting | ready | ended
  deriving DecidableEq, Repr

/-- A task (R336, R344, R359). `leaves`: virtual base and page bits of the leaves under its extents (R325). -/
structure Task where
  num : Nat
  kernel : DWord
  hdr : Header
  foots : List Foot
  args : List DWord
  teams : Nat
  placed : Nat := 0
  matrix : Bool
  notify : Option (Nat × Nat) := none
  st : TaskSt := .waiting
  extents : List Extent := []
  leaves : List (Nat × Nat) := []
  firstTeam : Nat := 0
  renamed : List (Nat × Nat) := []
  noRename : List Nat := []
  wait : Nat := 0
  deriving DecidableEq, Repr

/-- An effect kept until retirement (R422). -/
inductive Deferred
  | qnote (queue n : Nat)
  | write (inode off : Nat) (data : List Byte)
  | sockSend (sock : Nat) (data : List Byte)
  deriving DecidableEq, Repr

/-- A frame of a seal list (R455). -/
structure SealFrame where
  num : Nat
  closed : Bool := false
  regions : List (DWord × DWord) := []
  digest : Option (List Byte) := none
  total : Nat := 0
  deriving DecidableEq, Repr

/-- A window-table entry (R299, R300, R303). For an import, `base` is the remote export entry. -/
structure Window where
  entry : Nat
  isImport : Bool
  module : Nat := 0
  base : Nat
  len : Nat
  iss : DWord := 0#64
  ack : DWord := 0#64
  arr : DWord := 0#64
  notify : Option (Nat × Nat × Nat) := none
  putNum : Nat := 0
  deriving DecidableEq, Repr

/-- An entry of a capture record (R427): a page at launch, a team's placement, a RESULT with the call that it answers, bytes
that a shard writes for a call (at a physical address, or in the scratchpad of the team). A call is named by its team, group and
the number of its issue. -/
inductive CapEntry
  | page (pa : Nat) (data : List Byte)
  | place (teamid idx core ctx : Nat)
  | result (teamid idx seq callno : Nat) (args : List (List DWord)) (slot cseq : Nat) (lanes : Mask) (vals : List DWord)
  | bytes (teamid idx seq lane pa : Nat) (data : List Byte)
  | scratch (teamid idx seq off : Nat) (data : List Byte)
  deriving DecidableEq, Repr

/-- `sealed`: its seal job has run; `done`: it has ended without retiring and waits to post its completion (R423). -/
inductive SheetSt | accepted | running | sealed | done
  deriving DecidableEq, Repr

/-- A sheet (R335, R336, R339, R347, R418, R422, R424, R427, R455). `unsnapped`: armed pages whose first write found no free snapshot
page (R420). `ageing`: the levels that the wait of the head team, of task `ageTask`, has been given (R353). -/
structure Sheet where
  id : Nat
  sheetid : DWord
  queue : Nat
  seq : Nat
  record : List Byte
  asn : Nat
  prio : Nat
  age : Nat
  spawnLim : Nat
  flags : Nat
  wakeReq : Nat
  cport : Nat
  submitter : Option Nat
  scheds : List DWord
  sealJob : Option (DWord × Nat)
  rpool : Nat
  rfree : Nat
  fresh : List Nat := []
  immio : Bool
  capt : Bool
  gang : Bool
  st : SheetSt := .accepted
  tasks : List Task
  nextTeam : Nat
  deferred : List (Nat × Nat × Deferred) := []
  seals : List SealFrame := []
  snaps : List (Nat × List Byte) := []
  armed : List Nat := []
  unsnapped : List Nat := []
  noReplay : Bool := false
  replays : Nat := 0
  windows : List Window := []
  spawnWait : List Bin := []
  spawnFreed : Bool := false
  wear : Nat := 0
  check : Bool := false
  killed : Bool := false
  result : Nat := 0
  ageing : Nat := 0
  ageTask : Nat := 0
  capture : Bool := false
  rerun : Option (List CapEntry) := none
  diverged : Bool := false
  roMem : Mem := []
  deriving DecidableEq, Repr

/-- A queue (R340, R341, R350, R403). `page`: where its process has the submission page mapped. `kept` are stores to SUBMIT made while it was unmapped: offset, one transaction or not, bytes. -/
structure Queue where
  num : Nat
  slot : Option Nat := none
  page : Option Nat := none
  asn : Nat
  proc : Nat
  ceiling : Nat
  quota : Nat
  host : Bool := false
  lastSeq : Nat := 0
  accepted : Nat := 0
  status : DWord := 0#64
  done : DWord := 0#64
  wake : Nat := 0
  answers : Nat := 0
  qintr : Option Nat := none
  grants : List Nat := []
  capArea : Option (Nat × Nat) := none
  capRec : List CapEntry := []
  capFull : Bool := false
  kept : List (Nat × Bool × List Byte) := []
  pending : Bool := false
  deriving DecidableEq, Repr

/-! ### Package (R317, R322, R328, R402, R420, R425, R448 to R463) -/

/-- A page that is being moved (R332, R440): its leaves have been cleared under a ticket. The page, its new place, the bits of its
size, the leaves as (address space, entry's address, virtual page, level, what the entry held). -/
structure PageMove where
  base : Nat
  dst : Nat
  bits : Nat
  leaves : List (Nat × Nat × Nat × Nat × Nat)
  ticket : Nat
  deriving DecidableEq, Repr

/-- A walk in flight or waiting (R322, R330): the group that asked, RGEN, and the die's CUR when it asked. -/
structure Walk where
  gid : Nat
  rgen : Nat
  at_ : Nat := 0
  granted : Bool := false
  deriving DecidableEq, Repr

/-- A compute die. `rdc`: the remote-data cache (R279); `l2`: the lines that its L2 holds (R278); both with the line used last at the
end. -/
structure Die where
  cur : Nat := 0
  tlb : List TlbEntry := []
  walks : List Walk := []
  filter : List Nat := []
  rdc : List CLine := []
  l2 : List Nat := []
  marks : List (Nat × Nat) := []
  spareUsed : Bool := false
  deriving DecidableEq, Repr

/-- A put between modules (R300, R301, R462): the origin's module, sheet and group (of this module), import entry and put number, the
target module, the target's reference, the bytes, whether they have arrived. -/
structure Put where
  origin : Nat
  sheet : Nat := 0
  gid : Nat := 0
  entry : Nat
  num : Nat
  module : Nat
  wref : DWord
  data : List Byte
  arrived : Bool := false
  deriving DecidableEq, Repr

/-- A fabric port (R462, R463): the next SEQ to send and the next to accept, flits sent and not acknowledged, the flits put on the
link until an acknowledgement covers them, resent ones again, pieces of puts
that are arriving (tag without LAST, reference, bytes), resends since the last acknowledgement, whether a retry request is to be
sent, whether the spare lane is used, whether the link is down. -/
structure FabPort where
  txSeq : Nat := 0
  rxSeq : Nat := 0
  unacked : List (Nat × List Byte) := []
  wire : List (Nat × List Byte) := []
  parts : List (Nat × DWord × List Byte) := []
  retries : Nat := 0
  spare : Bool := false
  down : Bool := false
  deriving DecidableEq, Repr

/-- An NVMe queue pair (R391, R464): its tail, and the commands that have not completed: identifier, opcode, PRP1, PRP2,
NLB; the data that Write commands have taken to the drive, in the order of completion. -/
structure NvmePair where
  tail : Nat := 0
  outstanding : List (Nat × Nat × Nat × Nat × Nat) := []
  written : List (List Byte) := []
  deriving DecidableEq, Repr

/-- A file as the kernel serves it (R494). -/
structure File where
  inode : Nat
  path : List Byte
  data : Mem := []
  len : Nat := 0
  deriving DecidableEq, Repr
/-- An open descriptor, with the sheet that opened it. -/
structure Fd where
  fd : Nat
  asn : Nat
  sheet : Nat
  inode : Nat
  write : Bool
  deriving DecidableEq, Repr
/-- A block of ALLOC, with the sheet that asked. -/
structure Alloc where
  asn : Nat
  sheet : Nat
  va : Nat
  len : Nat
  deriving DecidableEq, Repr
/-- A socket: the number of its Ethernet queue (log 9), frames received and sent. -/
structure Socket where
  num : Nat
  rx : List (List Byte) := []
  tx : List (List Byte) := []
  deriving DecidableEq, Repr

/-- A message on its way to a port (R366), in the order posted. -/
structure InMsg where
  team : Nat
  port : Nat
  msg : Msg
  seq : Nat
  deriving DecidableEq, Repr

/-- The root of trust (R448 to R453, R460). -/
structure Trust where
  epoch : Nat := 1
  ownerAlg : Nat := 1
  ownerKey : Nat := 0
  slots : List (Nat × Nat × Nat) := []
  sealNext : Nat := 1
  rollback : List Nat := [0, 0, 0, 0]
  primary : List (Option Image) := [none, none, none, none]
  backup : List (Option Image) := [none, none, none, none]
  log : List (List Byte) := [List.replicate 48 0#8]
  recovery : Bool := false
  keyCount : Nat := 0
  quote : List Byte := []
  deriving DecidableEq, Repr

/-- The owner's flash configuration (R403, R420, R461, R466; log 7). -/
structure OwnerConfig where
  adminAsns : List Nat := []
  snapPages : Nat := Config.snapPages
  rootPorts : List Nat := []
  bootQueues : List QueueReq := []
  bootSheets : List (Nat × List Byte) := []
  deriving DecidableEq, Repr

/-- What a checkpoint holds beside HBM (R425, R426): queue slots and Meridian's tables, the groups with their frames' numbers. -/
structure Ckpt where
  base : Nat
  groups : List Group
  teams : List Team
  sheets : List Sheet
  queues : List Queue
  roots : List (Nat × Nat)
  bins : List (Nat × List Bin)
  msgs : List InMsg
  reserved : List (Nat × List Nat)
  poolFree : List Nat
  poolNext : Nat
  freeing : List (Nat × Nat)
  allocs : List Alloc
  fds : List Fd
  snapUsed : Nat
  faultDescs : List (Nat × List Desc)
  deriving DecidableEq, Repr

/-- The items of the root of trust that R448 marks readable. -/
inductive TrustItem
  | makerFingerprint
  | certificate
  | epoch
  | rollback (stage : Nat)
  | ownerKey
  | sealKey (slot : Nat)
  | sealCounter
  deriving DecidableEq, Repr

/-- What the agenda holds: an issue of a core (with the choice that a read-only load may see older data, R297), an event,
the passing of time in units of 10 ns, a disagreement of the pipes or of the matrix engine (R136, R218), an instruction of an RV64
hart (R384), a call that a host process makes through CMD (R403), work charged to a budget (R445), and ck of the Traverse engines and
Surveyors that a team is charged for on a core (R442), a page that MEM moves between HBM and the pool (R332), a read
of an item of the root of trust through CMD (R448), a host's read of a submission page through BAR 0 (R341, R461), pages that the survey
kernel maps in a process and what it puts into them (R466; log 9). -/
inductive Item
  | issue (core : Nat) (stale : Bool)
  | ev (i : Instr)
  | time (d : Nat)
  | upset (core : Nat) (runs : List Mask)
  | residue (core runs : Nat)
  | hart (k : Nat)
  | hostCall (asn callno : Nat) (args : List DWord) (maps : List MapReq)
  | charge (cluster cls res units : Nat)
  | work (core team ck : Nat)
  | pageMove (page new : Nat)
  | trustRead (item : TrustItem)
  | barRead (queue off len : Nat)
  | kernelMap (asn : Nat) (maps : List MapReq) (va : Nat) (data : List Byte)
  deriving DecidableEq, Repr

/-- The subset that is issuing (R90): core, group, lanes, the slot's address, the read-only choice; `prior`: the latches that the
group held before the kept ones were put back. -/
structure Issue where
  core : Nat
  gid : Nat
  mask : Mask
  pc : DWord
  stale : Bool := false
  prior : Option (List Latch) := none
  deriving DecidableEq, Repr

structure State where
  /-- The model's own: the schedule (log 1). -/
  agenda : List Item
  /-- The model's own: the subset that issues in this step (log 1). -/
  cur : Option Issue
  /-- The model's own: counter of the free values (log 2). -/
  free : Nat
  /-- The model's own: the core that the default schedule looks at first (log 1). -/
  rr : Nat
  /-- The model's own: the next number for groups, teams, sheets, rounds (log 1). -/
  fresh : Nat
  /-- Physical memory (R321; log 4). -/
  mem : Mem
  /-- Bad words by physical address divided by four (R421, R440, R491). -/
  bad : List Nat
  /-- Groups that are admitted and have not ended: in a context or saved in a frame (R84, R88, R408). -/
  groups : List Group
  /-- Teams that hold scratchpad, ports and schedules (R80 to R82, R237). -/
  teams : List Team
  /-- Compute cores by number (R12); one that no record has changed is `Core.init`. -/
  cores : List (Nat × Core)
  /-- Clusters by logical number (R12, R433, R446). -/
  clusters : List (Nat × Cluster)
  /-- Surveyors by physical cluster, 16 d + p (R384, R386). -/
  survs : List (Nat × Surveyor)
  /-- The RV64 harts: a Surveyor's under its own number, Compass core n's under 64 + n (R15, R384). -/
  harts : List (Nat × Hart)
  /-- The results that CMD has given to calls of host processes, the process with each (R403). -/
  hostResults : List (Nat × DWord)
  /-- What the last read of the host's gave it: of HBM or a submission page through a port, of the root of trust through CMD (R341, R448,
  R461). -/
  hostRead : List Byte
  /-- First sheets of the owner's configuration that are still to be submitted: queue and record (R466). -/
  bootPending : List (Nat × List Byte)
  /-- Dies: generations, last-level TLBs, walks, snoop filters (R322, R328, R280). -/
  dies : List (Nat × Die)
  /-- Sheets in the order accepted (R335, R343). -/
  sheets : List Sheet
  /-- Queues (R340, R341). -/
  queues : List Queue
  /-- The ranges of pooled memory that MEM has programmed: base and length (R321; log 4). -/
  pool : List (Nat × Nat)
  /-- Root node of each address space (R317). -/
  roots : List (Nat × Nat)
  /-- XGEN: the next ticket (R328). -/
  ticket : Nat
  /-- Tickets completed and not yet published (R328). -/
  doneTickets : List Nat
  /-- The last ticket of each agent (R328). -/
  agentTicket : List (Nat × Nat)
  /-- Invalidations posted under a ticket (R329). -/
  invals : List (Nat × DWord)
  /-- Snapshot-pool pages in use (R420). -/
  snapUsed : Nat
  /-- Messages on their way to ports, in the order posted (R366). -/
  msgs : List InMsg
  /-- Puts between modules (R300, R301, R462). -/
  puts : List Put
  /-- Fabric ports (R462, R463). -/
  fab : List (Nat × FabPort)
  /-- NVMe queue pairs (R391, R464). -/
  nvme : List (Nat × NvmePair)
  /-- The drives' files as the kernel serves them (R494). -/
  files : List File
  /-- Open descriptors (R494). -/
  fds : List Fd
  /-- Sockets and their Ethernet queues (R389, R465). -/
  sockets : List Socket
  /-- Shards' buffers that hold the data of calls: address and length (R486). -/
  buffers : List (Nat × Nat)
  /-- Blocks of ALLOC (R400). -/
  allocs : List Alloc
  /-- The module number that FABRIC assigns (R462; log 9). -/
  moduleNo : Nat
  /-- The hub's counter at 100 MHz (R386). -/
  time : Nat
  /-- The time for which the cluster clocks have run, in 10 ns (R7, R467). -/
  ran : Nat
  /-- UTCBASE and UTCCTL.VALID (R402). -/
  utcBase : DWord
  utcValid : Bool
  /-- The root of trust (R448 to R453, R460). -/
  trust : Trust
  /-- The owner's flash configuration (R403, R461, R466; log 7). -/
  owner : OwnerConfig
  /-- Processes that hold their faults (R495). -/
  fhold : List Nat
  /-- The registered checkpoint region (R403). -/
  ckptReg : Option (Nat × Nat)
  /-- The last checkpoint (R425). -/
  ckpt : Option Ckpt
  /-- A checkpoint has stopped the groups and has not been written: no group is admitted or restored (R425). -/
  ckptStop : Bool
  /-- Regions that a gang's sheet has reserved (R355). -/
  reserved : List (Nat × List Nat)
  /-- Rename pool pages that are free again, and the number never used (R331, R346; log 9). -/
  poolFree : List Nat
  poolNext : Nat
  /-- Superseded pages, each with the ticket whose publication returns it to the pool (R325, R331). -/
  freeing : List (Nat × Nat)
  /-- Pages that are being moved (R332, R440). -/
  moves : List PageMove
  /-- When the balancer acts next, in 10 ns (R356). -/
  balanceAt : Nat
  /-- When the blocks report their wear next, in 10 ns (R430). -/
  wearAt : Nat
  /-- Migration commands not carried out (R356, R357). -/
  commands : List DWord
  /-- The thermal stop, the coolant limit and the supply below its limit (R467). -/
  thermal : Bool
  /-- Thermal events that ERR has posted (R467). -/
  thermalEvents : Nat
  coolant : Bool
  undervolt : Bool
  /-- WEAR has made its boot report, before which CMD accepts no sheet (R496). -/
  booted : Bool
  /-- Sheets start and tasks are dispatched (R425, R449, R451, R452, R467). -/
  accepting : Bool
  /-- Submission is closed: before the boot report, in recovery mode, for an ownership transfer (R449, R451, R452, R496). -/
  closing : Bool
  /-- The blocks whose retirement the one-time-programmable memory records (R430). -/
  otpRetired : List WearBlock
  /-- Corrected errors of the last 24 h by channel and time, and the channels that a spare has replaced (R440). -/
  corrected : List (Nat × Nat)
  channels : List Nat
  /-- Logical clusters that the spare serves (R435): logical to physical. -/
  lcl : List (Nat × Nat)
  deriving DecidableEq, Repr

/-- The reset shares of R446. -/
def resetBudgets : List Budget :=
  ([64, 96, 48, 16, 16, 8, 8].zip [true, true, true, true, true, false, true]).map
    fun (x, sp) => { noc := x, hbm := x, pwr := x, spill := sp }

/-- The core, cluster, Surveyor and die that no record has changed since reset. -/
def Core.init : Core := {}
def Cluster.init : Cluster := { budgets := resetBudgets, next := resetBudgets }
def Die.init : Die := {}
def FabPort.init : FabPort := {}
def NvmePair.init : NvmePair := {}
/-- Surveyor of die d and physical cluster p, at key 16 d + p: the fuses give LCL = PCL, the last cluster is the spare
(log 6). -/
def Surveyor.init (key : Nat) : Surveyor :=
  if key < 64 && key % 16 < 14 then { lcl := key % 16, shard := 14 * (key / 16) + key % 16 } else {}

/-- The part right after a power-on reset: no sheet, no group; every register the spec resets at its reset value; the
rest as logs 4, 6 and 7 say. -/
def State.reset : State :=
  { agenda := [], cur := none, free := 0, rr := 0, fresh := 1, mem := [], bad := [], groups := [], teams := []
    cores := [], clusters := [], survs := [], harts := [], hostResults := [], hostRead := [], bootPending := [], dies := [], sheets := [], queues := [], pool := [(2 ^ 48, 7 * 2 ^ 48)], roots := [], ticket := 1
    doneTickets := [], agentTicket := [], invals := [], snapUsed := 0, msgs := [], puts := [], fab := [], nvme := []
    files := [], fds := [], sockets := [], buffers := [], allocs := [], moduleNo := 0, time := 0, ran := 0, utcBase := 0#64, utcValid := false, trust := {}
    owner := {}, fhold := [], ckptReg := none, ckpt := none, ckptStop := false, reserved := [], poolFree := [], poolNext := 0, freeing := [], moves := []
    balanceAt := 0, wearAt := 1000000, commands := []
    thermal := false, thermalEvents := 0, coolant := false, undervolt := false, booted := false, accepting := false, closing := true, otpRetired := [], corrected := []
    channels := [], lcl := [] }

end Sys2Proof.Machine
end

