-- ==== Sys2Proof/Machine/Ops.lean ====
section
/-!
DEFINITION. Named operations over memory, records and registers: canonical memories, finding and replacing groups,
teams, cores and the rest, registers, predicates, lanes and masks, latches.
-/
namespace Sys2Proof.Machine

/-! ### Memory -/

/-- The byte at an address; an unlisted address reads as zero (log 4). -/
def Mem.read : Mem → Nat → Byte
  | [], _ => 0#8
  | (k, b) :: m, a => if k == a then b else Mem.read m a

/-- The nonzero bytes of a block as cells. -/
def cells : Nat → List Byte → Mem
  | _, [] => []
  | a, b :: bs => if b == 0#8 then cells (a + 1) bs else (a, b) :: cells (a + 1) bs

/-- Replace the bytes from an address on. -/
def Mem.store (m : Mem) (a : Nat) (bs : List Byte) : Mem :=
  m.filter (fun c => c.1 < a) ++ cells a bs ++ m.filter (fun c => a + bs.length ≤ c.1)

/-- The n bytes from an address on, one read each. -/
def Mem.load (m : Mem) (a n : Nat) : List Byte := (List.range n).map fun i => m.read (a + i)

/-- The n bytes from an address on, in one pass over a canonical memory that starts at or after it. -/
def fillFrom : Nat → Mem → Nat → List Byte
  | 0, _, _ => []
  | n + 1, [], a => 0#8 :: fillFrom n [] (a + 1)
  | n + 1, (k, b) :: m, a => if k == a then b :: fillFrom n m (a + 1) else 0#8 :: fillFrom n ((k, b) :: m) (a + 1)
def Mem.bulk (m : Mem) (a n : Nat) : List Byte := fillFrom n (m.filter fun c => a ≤ c.1) a

/-- Canonical form: addresses strictly rising, no zero byte. -/
def Memory.wf : Mem → Bool
  | [] => true
  | (_, b) :: [] => b != 0#8
  | (k, b) :: (k', b') :: m => b != 0#8 && decide (k < k') && Memory.wf ((k', b') :: m)

/-- The little-endian number of n bytes. -/
def Mem.loadNat (m : Mem) (a n : Nat) : Nat := leNat (m.load a n)

/-! ### Records by key and by number -/

def getK {α : Type} (m : List (Nat × α)) (d : α) (k : Nat) : α :=
  match m.find? (fun e => e.1 == k) with
  | some e => e.2
  | none => d
def setK {α : Type} (m : List (Nat × α)) (k : Nat) (x : α) : List (Nat × α) :=
  if m.any (fun e => e.1 == k) then m.map (fun e => if e.1 == k then (k, x) else e) else m ++ [(k, x)]
def delK {α : Type} (m : List (Nat × α)) (k : Nat) : List (Nat × α) := m.filter fun e => e.1 != k

def State.grp? (s : State) (id : Nat) : Option Group := s.groups.find? fun g => g.id == id
def State.setGrp (s : State) (g : Group) : State :=
  { s with groups := s.groups.map fun h => if h.id == g.id then g else h }
def State.modGrp (s : State) (id : Nat) (f : Group → Group) : State :=
  { s with groups := s.groups.map fun h => if h.id == id then f h else h }
def State.modGrps (s : State) (f : Group → Group) : State := { s with groups := s.groups.map f }
def State.team? (s : State) (id : Nat) : Option Team := s.teams.find? fun t => t.id == id
def State.modTeam (s : State) (id : Nat) (f : Team → Team) : State :=
  { s with teams := s.teams.map fun t => if t.id == id then f t else t }
def State.sheet? (s : State) (id : Nat) : Option Sheet := s.sheets.find? fun t => t.id == id
def State.modSheet (s : State) (id : Nat) (f : Sheet → Sheet) : State :=
  { s with sheets := s.sheets.map fun t => if t.id == id then f t else t }
def State.queue? (s : State) (n : Nat) : Option Queue := s.queues.find? fun q => q.num == n
/-- The process whose queue a sheet is on (R340). -/
def State.procOf (s : State) (sheet : Nat) : Option Nat := ((s.sheet? sheet).bind fun h => s.queue? h.queue).map (·.proc)
def State.modQueue (s : State) (n : Nat) (f : Queue → Queue) : State :=
  { s with queues := s.queues.map fun q => if q.num == n then f q else q }
/-- A core that no record has changed has counted the ck of its nominal clock (R7, R131). -/
def State.core (s : State) (c : Nat) : Core := getK s.cores { Core.init with cycle := BitVec.ofNat 64 (36 * s.ran) } c
def State.modCore (s : State) (c : Nat) (f : Core → Core) : State := { s with cores := setK s.cores c (f (s.core c)) }
def State.cluster (s : State) (c : Nat) : Cluster := getK s.clusters Cluster.init c
def State.modCluster (s : State) (c : Nat) (f : Cluster → Cluster) : State :=
  { s with clusters := setK s.clusters c (f (s.cluster c)) }
def State.surv (s : State) (k : Nat) : Surveyor := getK s.survs (Surveyor.init k) k
def State.modSurv (s : State) (k : Nat) (f : Surveyor → Surveyor) : State := { s with survs := setK s.survs k (f (s.surv k)) }
def State.die (s : State) (d : Nat) : Die := getK s.dies Die.init d
def State.modDie (s : State) (d : Nat) (f : Die → Die) : State := { s with dies := setK s.dies d (f (s.die d)) }
/-- Cycles of a hart in 10 ns (R15, R432): a Compass core runs at 2.0 GHz, a Surveyor at 2.4, 2.2 or 2.0. -/
def hartClock (k : Nat) (w : WearState) : Nat := if 64 ≤ k then 20 else match w with
  | .step1 => 22
  | .step2 => 20
  | _ => 24
/-- A hart that no record has changed has counted the cycles of its nominal clock. -/
def State.hart (s : State) (k : Nat) : Hart := getK s.harts { mcycle := hartClock k .nominal * s.time } k
def State.modHart (s : State) (k : Nat) (f : Hart → Hart) : State := { s with harts := setK s.harts k (f (s.hart k)) }
def State.task? (s : State) (sheet num : Nat) : Option Task :=
  (s.sheet? sheet).bind fun h => h.tasks.find? fun t => t.num == num
def State.modTask (s : State) (sheet num : Nat) (f : Task → Task) : State :=
  s.modSheet sheet fun h => { h with tasks := h.tasks.map fun t => if t.num == num then f t else t }

/-! ### Masks and lanes -/

def lanesOf (w : Nat) (m : Mask) : List Nat := (List.range w).filter fun L => m.getLsbD L
def Mask.ofLanes (ls : List Nat) : Mask := ls.foldl (fun m L => m ||| (1#64 <<< L)) 0#64
/-- The mask of the lanes below w that satisfy a test. -/
def maskOf (w : Nat) (p : Nat → Bool) : Mask := Mask.ofLanes ((List.range w).filter p)
def fullMask (w : Nat) : Mask := maskOf w fun _ => true
def subsetOf (a b : Mask) : Bool := a &&& b == a

def Group.lane (g : Group) (L : Nat) : Lane := g.lanes.getD L {}
/-- Apply to each lane of a mask. -/
def Group.modLanes (g : Group) (m : Mask) (f : Nat → Lane → Lane) : Group :=
  { g with lanes := g.lanes.mapIdx fun L l => if m.getLsbD L then f L l else l }
def Group.alive (g : Group) : Mask := maskOf g.width fun L => !(g.lane L).exited

/-! ### Registers -/

/-- One vector register of one lane (R122). -/
def Group.v (g : Group) (n L : Nat) : Word := (g.vregs.getD n []).getD L 0#32
/-- One scalar register (R123). -/
def Group.s (g : Group) (n : Nat) : DWord := g.sregs.getD n 0#64
/-- One predicate of one lane; p15 reads as 1 (R124). -/
def Group.p (g : Group) (n L : Nat) : Bool := n == 15 || (g.preds.getD n 0#64).getLsbD L

/-- Replace a vector register in the lanes of a mask; the lanes' values stand in a list, lane 0 first. -/
def Group.setV (g : Group) (n : Nat) (m : Mask) (vals : List Word) : Group :=
  { g with vregs := g.vregs.modify n fun old =>
      (List.range g.width).map fun L => if m.getLsbD L then vals.getD L 0#32 else old.getD L 0#32
           badV := g.badV.filter fun (r, L) => !(r == n && m.getLsbD L) }
def Group.setS (g : Group) (n : Nat) (x : DWord) : Group :=
  { g with sregs := g.sregs.set n x, badS := g.badS.filter (· != n) }
/-- Replace a predicate in the lanes of a mask; a write to p15 is discarded (R39). -/
def Group.setP (g : Group) (n : Nat) (m vals : Mask) : Group :=
  { g with preds := g.preds.modify n fun old => (old &&& ~~~m) ||| (vals &&& m) }

/-- A 64-bit value from an even register and the one above it (R122). -/
def Group.v64 (g : Group) (n L : Nat) : DWord := g.v (n + 1) L ++ g.v n L
def lo32 (x : DWord) : Word := x.extractLsb' 0 32
def hi32 (x : DWord) : Word := x.extractLsb' 32 32

/-! ### Latches (R46 to R50) -/

/-- The register numbers that a latch's register covers: vector numbers (kind vec, pair), or none. -/
def Latch.covers (l : Latch) (n : Nat) : Bool :=
  match l.kind with
  | .vec => l.reg == n
  | .pair => l.reg == n || l.reg + 1 == n
  | .scalar => false

/-- R48: a write of vector registers n to n + k - 1, or of scalar registers, makes live latches of them lost. -/
def Group.killV (g : Group) (n k : Nat) : Group :=
  { g with latches := g.latches.map fun l =>
      if l.st == .live && (List.range k).any (fun i => l.covers (n + i)) then { l with st := .lost } else l }
def Group.killS (g : Group) (n : Nat) : Group :=
  { g with latches := g.latches.map fun l =>
      if l.st == .live && l.kind == .scalar && l.reg == n then { l with st := .lost } else l }
/-- R48, R97: a chain break, or a drop. -/
def Group.loseLatches (g : Group) : Group :=
  { g with latches := g.latches.map fun l => if l.st == .live then { l with st := .lost } else l }
def Group.capture (g : Group) (cap : BitVec 2) (l : Latch) : Group := { g with latches := g.latches.set cap.toNat l }

/-- Write a vector result of width w (1 or 2) in the lanes of a mask, under NWB and CAP (R46, R128): a lane outside the
mask contributes its destination's unchanged value to the latch. -/
def Group.writeV (g : Group) (pf : Pfx) (n w : Nat) (m : Mask) (vals : List DWord) : Group :=
  let all := (List.range g.width).map fun L =>
    if m.getLsbD L then vals.getD L 0#64 else if w == 2 then g.v64 n L else (g.v n L).setWidth 64
  let latch : Latch := { st := .live, reg := n, kind := if w == 2 then .pair else .vec, wb := !pf.nwb, vals := all }
  let g1 := if pf.nwb then g
    else
      let h := (g.setV n m (vals.map lo32)).killV n w
      if w == 2 then h.setV (n + 1) m (vals.map hi32) else h
  g1.capture pf.cap latch

/-- Write a scalar result, under NWB and CAP (R46). -/
def Group.writeS (g : Group) (pf : Pfx) (n : Nat) (x : DWord) : Group :=
  let g1 := if pf.nwb then g else (g.setS n x).killS n
  g1.capture pf.cap { st := .live, reg := n, kind := .scalar, wb := !pf.nwb, vals := [x] }

/-- Write a quad: no capture, and every live latch of the four registers is lost (R46). -/
def Group.writeQ (g : Group) (n : Nat) (m : Mask) (vals : List (List Word)) : Group :=
  (List.range 4).foldl (fun h i => h.setV (n + i) m (vals.map fun q => q.getD i 0#32)) (g.killV n 4)

/-- What a latch supplies in a lane: its value, or, lost with write-back, the register it belongs to (R49). -/
def Group.latchVal (g : Group) (n L : Nat) : DWord :=
  let l := g.latches.getD n {}
  if l.st == .live then (if l.kind == .scalar then l.vals.getD 0 0#64 else l.vals.getD L 0#64)
  else match l.kind with
    | .vec => (g.v l.reg L).setWidth 64
    | .pair => g.v64 l.reg L
    | .scalar => g.s l.reg

/-! ### Program counters (R22) -/

def lineBase (pc : DWord) : DWord := pc &&& ~~~63#64
def slotOf (pc : DWord) : Nat := pc.toNat % 64 / 12
/-- R22: bits [5:0] are 0, 12, 24, 36 or 48, and the address has 57 bits. -/
def pcOk (pc : DWord) : Bool := decide (pc.toNat < 2 ^ 57) && pc.toNat % 64 % 12 == 0 && decide (pc.toNat % 64 < 60)
/-- The slot after a slot (R22). DESIGN CHOICE (log 33): after slot 4 of the last line of the 57-bit space comes the address 2⁵⁷, of which R22
says nothing: the address does not wrap. -/
def nextPc (pc : DWord) : DWord := if pc.toNat % 64 == 48 then lineBase pc + 64#64 else pc + 12#64

/-! ### Joins (R113 to R115) -/

/-- The most recently added entry that holds a lane at its program counter. -/
def Group.holder (g : Group) (L : Nat) : Option Join :=
  g.joins.reverse.find? fun e => e.j == (g.lane L).pc && e.m.getLsbD L
/-- One pass: entries whose lanes have all exited or are held at J leave the set. -/
def Group.dropJoins (g : Group) : Group :=
  { g with joins := g.joins.filter fun e =>
      !((List.range g.width).all fun L => !e.m.getLsbD L || (g.lane L).exited || (g.lane L).pc == e.j) }
/-- R114, R115: after lanes have moved or exited, the joins that are complete leave and the others hold. -/
def Group.settle (g : Group) : Group :=
  let h := g.dropJoins
  { h with lanes := h.lanes.mapIdx fun L l => { l with held := !l.exited && (h.holder L).isSome } }

/-- R90: the lanes that share a program counter, held state and wait condition with a lane. -/
def Group.subsetAt (g : Group) (L : Nat) : Mask :=
  let l := g.lane L
  maskOf g.width fun M =>
    let m := g.lane M
    !m.exited && m.pc == l.pc && m.held == l.held && m.wait == l.wait && m.due == l.due
/-- Lanes that may issue: not exited, not held, not waiting. -/
def Group.readyLanes (g : Group) : Mask :=
  maskOf g.width fun L => let l := g.lane L; !l.exited && !l.held && l.wait == .none
/-- The group can issue: resident and not being kept in a held frame. -/
def Group.canIssue (g : Group) : Bool := g.st == .resident

/-- Put the lanes of a mask at an address with no wait. -/
def Group.moveTo (g : Group) (m : Mask) (pc : DWord) : Group :=
  (g.modLanes m fun _ l => { l with pc, wait := .none }).settle
/-- The lanes of a mask wait at their slot. -/
def Group.waitAt (g : Group) (m : Mask) (w : Wait) : Group := g.modLanes m fun _ l => { l with wait := w }
/-- Clear a wait so that the waiting instruction issues again. -/
def Group.rearm (g : Group) (m : Mask) : Group := g.modLanes m fun _ l => { l with wait := .none }

/-- R95, R108, R193, R236: the lanes of a mask take a slot as their waypoint and record their generators; the generators of exited
lanes, which lane-crossing draws advance too, are recorded with them (log 26). -/
def Group.takeWaypoint (g : Group) (m : Mask) (pc : DWord) : Group :=
  { g with lanes := g.lanes.mapIdx fun L l =>
      if m.getLsbD L then { l with wp := pc, srRec := l.sr, commit := false } else if l.exited then { l with srRec := l.sr } else l }

/-! ### Numbers of the package (R13, R14): a core is named by its %coreid, 256 die + 16 logical cluster + core -/

/-- The logical cluster of a core, 16 die + cluster. -/
def clusterOf (core : Nat) : Nat := core / 16
def dieOf (core : Nat) : Nat := core / 256
/-- The physical cluster, 16 die + physical, that has a logical cluster's duties (R387, R435); the model numbers a physical cluster k
without duties 256 + k, so that its cores are 4096 + 16 k + core (log 6). -/
def State.physOf (s : State) (cl : Nat) : Nat := if 256 ≤ cl then cl - 256 else getK s.lcl cl cl
/-- A core by its physical cluster: 256 die + 16 physical cluster + core (R386, R430). -/
def State.physCore (s : State) (core : Nat) : Nat := 16 * s.physOf (clusterOf core) + core % 16
/-- The number of the cluster whose Surveyor is at a physical cluster. -/
def State.clusterAt (s : State) (k : Nat) : Nat := if (s.surv k).lcl == 15 then 256 + k else 16 * (k / 16) + (s.surv k).lcl
/-- R10: the part has physical clusters 0 to 14 of each die. -/
def onPart (k : Nat) : Bool := decide (k < 64) && k % 16 != 15
/-- R10, R15: a Surveyor, or from 64 on one of the eight Compass cores. -/
def isAgent (k : Nat) : Bool := onPart k || (decide (64 ≤ k) && decide (k < 72))
/-- The Surveyor that serves a core's cluster. -/
def State.survOf (s : State) (core : Nat) : Nat := s.physOf (clusterOf core)

/-! ### Clocks and blocks of lane positions (R7, R83) -/

/-- Cycles of a cluster in 10 ns: 3.6, 3.3 or 3.0 GHz (R7, R433). -/
def ckIn10ns : Nat → Nat
  | 0 => 36
  | 1 => 33
  | _ => 30
/-- R83: quarter n of the 64 lane positions, 16 n to 16 n + 15, belongs to the group's block. -/
def Group.inBlock (g : Group) (n : Nat) : Bool := decide (g.block * (g.width / 16) ≤ n) && decide (n < (g.block + 1) * (g.width / 16))
/-- R83: two groups' blocks overlap. -/
def Group.overlaps (g h : Group) : Bool := (List.range 4).any fun n => g.inBlock n && h.inBlock n
/-- The ck by which a core's issue is ahead of its cluster's clock, in its furthest quarter and in those of a group's block. -/
def Core.ahead (c : Core) : Nat := c.lead.foldl max 0
def Core.aheadOf (c : Core) (g : Group) : Nat := ((List.range 4).filter g.inBlock).foldl (fun m n => max m (c.lead.getD n 0)) 0
/-- The leads after the group has issued for ck. -/
def Core.leadAfter (c : Core) (g : Group) (ck : Nat) : List Nat := c.lead.mapIdx fun n x => if g.inBlock n then c.aheadOf g + ck else x
/-- The ck by which such an issue moves the core's furthest quarter on. -/
def Core.growth (c : Core) (g : Group) (ck : Nat) : Nat := (c.leadAfter g ck).foldl max 0 - c.ahead

/-- The next number for a record of the model. -/
def State.takeFresh (s : State) : Nat × State := (s.fresh, { s with fresh := s.fresh + 1 })

/-! ### Taking an exception and returning from one (R405 to R416) -/

/-- R405. -/
def Cause.code : Cause → Nat
  | .illegal => 0x01
  | .target => 0x02
  | .fetch => 0x03
  | .latch => 0x04
  | .align => 0x05
  | .page => 0x06
  | .access => 0x07
  | .footprint => 0x08
  | .scratch => 0x09
  | .stage => 0x0A
  | .portOverflow => 0x0B
  | .matrixState => 0x0C
  | .break => 0x0D
  | .trap => 0x0E
  | .check => 0x0F
  | .pageWait => 0x20
  | .preempt => 0x21
  | .evict => 0x22
  | .halt => 0x23
  | .step => 0x24

/-- R411: WAITC and WAITX of a wait; waits that no frame records are kind 0. -/
def Wait.code : Wait → Nat × Nat
  | .bar k => (1 + 16 * k, 0)
  | .recv p _ _ => (2 + 16 * p, 0)
  | .recvPat _ _ => (3, 0)
  | .chunks b m _ => (4 + 16 * b, m)
  | .call n => (5 + 16 * n, 0)
  | .spawn => (6, 0)
  | .nap left => (7, left)
  | .mopen => (8, 0)
  | .win e _ t => (9 + 16 * e, t.toNat)
  | .mwait n _ _ => (10 + 16 * n, 0)
  | .stage n => (11 + 16 * n, 0)
  | .send m => (12, m.toNat)
  | .answer _ _ _ _ => (13, 0)
  | .budget c _ => (14 + 16 * c, 0)
  | .none => (0, 0)
  | .request _ => (0, 0)
  | .walk => (0, 0)
  | .slot _ _ => (0, 0)

def LatchKind.code : LatchKind → Nat
  | .vec => 0
  | .pair => 1
  | .scalar => 2

/-- R409: a latch's byte of LSTATE. -/
def Latch.state (l : Latch) : Nat :=
  (if l.st == .live then 1 else 0) + (if l.wb then 2 else 0) + 4 * l.kind.code + (if l.st == .never then 0 else 16)

/-- Pad or cut to n bytes. -/
def padTo (n : Nat) (bs : List Byte) : List Byte := bs.take n ++ List.replicate (n - bs.length) 0#8

/-- The call-stack area of a lane in the group's frame (R408). -/
def Group.stackAddr (g : Group) (L : Nat) : Nat := g.frame + 0x6000 + 512 * L

/-- The frame header (R409). -/
def Group.frameHeader (g : Group) : List Byte :=
  let sv := g.save
  leBytes 2 sv.cause.code ++ leBytes 1 sv.fstate ++ leBytes 1 g.width ++ leBytes 4 sv.ctxw ++
  leBytes 8 g.sheetid.toNat ++ leBytes 8 sv.fpc.toNat ++ leBytes 8 sv.faddr.toNat ++ leBytes 8 sv.flanes.toNat ++
  leBytes 8 sv.subset.toNat ++ leBytes 8 sv.tcode ++ leBytes 8 sv.waitc ++ leBytes 8 sv.waitx ++
  leBytes 8 (maskOf g.width fun L => (g.lane L).exited).toNat ++ leBytes 8 (maskOf g.width fun L => (g.lane L).held).toNat ++
  padTo 8 (g.latches.flatMap fun l => leBytes 1 l.state) ++ padTo 4 (g.latches.flatMap fun l => leBytes 1 l.reg) ++
  List.replicate 28 0#8 ++
  padTo 256 (g.joins.flatMap fun e => leBytes 8 e.j.toNat ++ leBytes 8 e.m.toNat) ++ List.replicate 640 0#8 ++
  padTo 1024 (g.sregs.flatMap fun x => leBytes 8 x.toNat) ++
  padTo 2048 (g.latches.flatMap fun l => padTo 512 (l.vals.flatMap fun x => leBytes 8 x.toNat))

/-- R410: a lane record. -/
def Group.laneRecord (g : Group) (L : Nat) : List Byte :=
  let l := g.lane L
  leBytes 8 l.pc.toNat ++ leBytes 8 l.wp.toNat ++ leBytes 4 l.sr.toNat ++ leBytes 4 l.srRec.toNat ++ leBytes 4 l.fflags.toNat ++
  leBytes 2 (((List.range 15).filter fun n => g.p n L).foldl (fun a n => a + 2 ^ n) 0) ++ leBytes 1 l.stack.length ++
  leBytes 1 ((if l.exited then 1 else 0) + (if l.held then 2 else 0)) ++ leBytes 8 l.targ.toNat ++ List.replicate 24 0#8

/-- The vector registers of a group, 1,024 bytes a lane (R408). -/
def Group.vectorBytes (g : Group) : List Byte :=
  (List.range g.width).flatMap fun L => padTo 1024 ((List.range g.vcount).flatMap fun n => leBytes 4 (g.v n L).toNat)

/-- Lane records, call stacks and vector registers, from offset 0x5000 to the end (R408). -/
def Group.frameBody (g : Group) : List Byte :=
  padTo 0x1000 ((List.range g.width).flatMap g.laneRecord) ++
  padTo 0x8000 ((List.range g.width).flatMap fun L => padTo 512 ((g.lane L).stack.reverse.flatMap fun x => leBytes 8 x.toNat)) ++
  padTo 0x10000 g.vectorBytes ++
  List.replicate 0x2000 0#8

/-- Write a group's frame; the call slots keep what they hold: of a busy one nothing is written, and an idle one's bytes, of which no rule
says what a save writes, are written as they stand (R408, R488; log 27). -/
def Group.writeFrame (g : Group) (m : Mem) : Mem :=
  (m.store g.frame g.frameHeader).store (g.frame + 0x5000) g.frameBody

/-- R491: a write makes each word whose four bytes it covers good again. -/
def State.mend (s : State) (pa n : Nat) : State :=
  if s.bad.isEmpty then s else { s with bad := s.bad.filter fun w => !(decide (pa ≤ 4 * w) && decide (4 * w + 4 ≤ pa + n)) }

/-- The address of a call slot in a group's frame (R392, R408). -/
def Group.slotAddr (g : Group) (n : Nat) : Nat := g.frame + 0x1000 + 4096 * n
/-- R392: the call slots that no call in progress holds. -/
def Group.idleSlots (g : Group) : List Nat := [0, 1, 2, 3].filter fun n => !g.calls.any fun c => c.slot == n
/-- A group put back with its frame written (R408, R488, R491). -/
def State.putFrame (s : State) (g : Group) : State :=
  g.idleSlots.foldl (fun t n => t.mend (g.slotAddr n) 4096)
    (({ s.setGrp g with mem := g.writeFrame s.mem }.mend g.frame 0x1000).mend (g.frame + 0x5000) 0x19000)
/-- R85: the base of a core's park area, 6,208 KiB; the survey kernel places it (log 27). -/
def parkArea (core : Nat) : Nat :=
  dieOf core * 2 ^ 38 + 187 * 2 ^ 30 + (core / 16 % 16 * 4 + core % 4) * 6356992
/-- R85: a parked group's vector registers stand in the park area, 64 KiB for each context (log 27). -/
def State.parkRegs (s : State) (g : Group) : State :=
  { s with mem := s.mem.store (parkArea g.core + 65536 * g.ctx) g.vectorBytes }.mend (parkArea g.core + 65536 * g.ctx) 65536

/-- Split a byte list into little-endian numbers of n bytes, k of them. -/
def numsOf (n : Nat) : Nat → List Byte → List Nat
  | 0, _ => []
  | k + 1, bs => leNat (bs.take n) :: numsOf n k (bs.drop n)

/-! ### Answers of calls (R396, R398) -/

/-- RESULT of a lane, 0 to 63, in order (R392). -/
def Mem.results (m : Mem) (slot : Nat) : List DWord := (numsOf 8 64 (m.bulk (slot + 2176) 512)).map (BitVec.ofNat 64)
/-- The lanes that wait for the reply of a call. -/
def Group.inCall (g : Group) (n : Nat) : Mask := maskOf g.width fun L => !(g.lane L).exited && (g.lane L).wait == .call n
/-- R396: lanes answered: their results go to YB, and they go on as the form says. `c.answered` holds them. -/
def Group.answer (g : Group) (c : CallRec) (lanes : Mask) (vals : List DWord) : Group :=
  let whole := c.answered == c.active
  let waiting := g.inCall c.slot
  let h := match c.form with
    | 1 => ((g.setV c.dest lanes (vals.map lo32)).setV (c.dest + 1) lanes (vals.map hi32)).killV c.dest 2
    | 3 => (g.setS c.dest (vals.getD 0 0#64)).killS c.dest
    | _ => g
  let go := if whole then waiting else if c.each then lanes &&& waiting else 0#64
  let h := if c.form == 2 || go == 0#64 then h else h.moveTo go (nextPc c.pc)
  let calls := if whole then h.calls.filter (fun x => x.slot != c.slot) else h.calls.map fun x => if x.slot == c.slot then { c with owed := 0#64 } else x
  -- R404: a call that waits for the slot takes it
  let freed (l : Lane) : Lane := match l.wait with
    | .slot lo hi => if whole && lo ≤ c.slot && c.slot ≤ hi then { l with wait := .none } else l
    | _ => l
  { h with calls, lanes := h.lanes.map freed }
/-- R398: on restore, RESULT is copied for the lanes answered while the group was saved. -/
def Group.payOwed (g : Group) (m : Mem) : Group :=
  g.calls.foldl (fun h c => if c.owed == 0#64 then h else h.answer c c.owed (m.results (g.slotAddr c.slot))) g

/-- R388: append a descriptor to the CALLQ of a Surveyor; when it is full, the part holds it. -/
def State.callqPush (s : State) (k : Nat) (d : Desc) : State :=
  s.modSurv k fun v =>
    if v.callq.length < Config.callq && v.heldq.isEmpty then { v with callq := v.callq ++ [d] }
    else { v with heldq := v.heldq ++ [d] }

/-- The wait that a save records: that of the lanes of the subset (R411). -/
def Group.waitOf (g : Group) (sub : Mask) : Wait := (g.lane (lowestLane sub)).wait
where
  lowestLane (m : Mask) : Nat := ((List.range 64).find? fun L => m.getLsbD L).getD 0

/-- R201, R212, R413: the matrix state of a core whose last group of the owning team has been saved, and on which every issued
instruction has run to completion, goes to the frame of the holder,
or of the lowest-numbered group; the core's matrix state is then free (R196). -/
def State.imageOut (s : State) (team core : Nat) : State :=
  let gs := s.groups.filter fun g => g.team == team && g.core == core && (g.st == .saved || g.alive != 0#64)
  if (s.core core).mowner == some team && gs.all (fun g => g.st == .saved && g.batches.all fun b => b.todo.isEmpty) then
    let heir := match gs.find? fun g => !g.batches.isEmpty with
      | some h => some h
      | none => gs.foldl (fun b g => match b with
        | none => some g
        | some x => if g.idx < x.idx then some g else b) none
    match heir with
    | some h =>
      (s.setGrp { h with image := some (s.core core).mstate }).modCore core fun c => { c with mowner := none, mstate := {} }
    | none => s
  else s

/-- R411 kind 13: the frame's FPC is the slot after the instruction that awaits its answer. -/
def Wait.savedPc (w : Wait) (pc : DWord) : DWord :=
  match w with
  | .answer _ _ _ _ => nextPc pc
  | _ => pc

/-- R411: waits that no frame records are over with a save: their instruction issues again. -/
def Lane.unqueued (l : Lane) : Lane :=
  match l.wait with
  | .request _ => { l with wait := .none }
  | .walk => { l with wait := .none }
  | .slot _ _ => { l with wait := .none }
  | _ => l
def Group.unqueued (g : Group) : Group := { g with lanes := g.lanes.map Lane.unqueued }
/-- Save a group in full to its frame (R406, R408, R409): the context is free; the frame's state is waiting, eligible or
held (FSTATE 1, 2, 3). -/
def State.saveGroup (s : State) (g : Group) (cause : Cause) (fstate : Nat) (fpc : DWord) (sub flanes : Mask)
    (faddr : DWord) (tcode : Nat) : State :=
  let w := (g.waitOf sub).code
  let h := { g.unqueued with
    st := .saved, frameHeld := fstate == 3, stepping := g.stepping && fstate != 3
    save := { cause, fstate, fpc := (g.waitOf sub).savedPc fpc, faddr, flanes, subset := sub, tcode, waitc := w.1, waitx := w.2, ctxw := g.core + 1024 * g.ctx, cyc := (s.core g.core).cycle } }
  let s1 := s.modCore g.core fun c =>
    { c with lastFree := if g.st == .resident then c.cycle.toNat else c.lastFree, reqQ := c.reqQ.filter fun e => e.1 != g.id }
  (s1.putFrame h).imageOut g.team g.core

/-- R406: take an exception. The group is saved with the cause, the frame is held, and a TYPE 4 descriptor goes to the
CALLQ of the group's cluster. E_CHECK is also reported to the ERR function, which rolls the sheet back (R423). -/
def State.takeException (s : State) (g : Group) (cause : Cause) (fpc : DWord) (sub flanes : Mask) (faddr : DWord)
    (tcode : Nat) : State :=
  let s1 := (s.saveGroup g cause 3 fpc sub flanes faddr tcode).callqPush (s.survOf g.core) { slot := g.frame, type := 4 }
  if cause == .check then s1.modSheet g.sheet fun h => { h with check := true } else s1

/-- The n bytes at an offset. -/
def fieldAt (bs : List Byte) (off n : Nat) : Nat := leNat ((bs.drop off).take n)

/-- Read a lane record and call stack back (R410). -/
def readLane (l : Lane) (rec stk : List Byte) : Lane :=
  { l with
    pc := BitVec.ofNat 64 (fieldAt rec 0 8), wp := BitVec.ofNat 64 (fieldAt rec 8 8)
    sr := BitVec.ofNat 32 (fieldAt rec 16 4), srRec := BitVec.ofNat 32 (fieldAt rec 20 4)
    fflags := BitVec.ofNat 6 (fieldAt rec 24 4), targ := BitVec.ofNat 64 (fieldAt rec 32 8)
    exited := fieldAt rec 31 1 % 2 == 1, held := fieldAt rec 31 1 / 2 % 2 == 1
    stack := ((numsOf 8 (min 64 (fieldAt rec 30 1)) stk).map (BitVec.ofNat 64)).reverse }

/-- Read a latch back (R409). -/
def readLatch (width st reg : Nat) (vals : List Byte) : Latch :=
  { st := if st / 16 % 2 == 0 then .never else if st % 2 == 1 then .live else .lost
    reg, wb := st / 2 % 2 == 1
    kind := match st / 4 % 4 with
      | 0 => .vec
      | 1 => .pair
      | _ => .scalar
    vals := (numsOf 8 (if st / 4 % 4 == 2 then 1 else width) vals).map (BitVec.ofNat 64) }

/-- R411: the wait that WAITC and WAITX name, where a frame holds others than the part wrote; what a kind keeps beside them is that of the
wait that was saved. An instruction that its kind issues again on a restore waits for nothing, and so does one whose wait was of
another kind (log 12). -/
def Wait.ofCode (old : Wait) (c x : Nat) : Wait :=
  match c % 16, old with
  | 1, _ => .bar (c / 16)
  | 2, .recv _ d cap => .recv (c / 16) d cap
  | 3, .recvPat d cap => .recvPat d cap
  | 5, _ => .call (c / 16)
  | 7, _ => .nap x
  | 8, _ => .mopen
  | 9, .win _ arr _ => .win (c / 16) arr (BitVec.ofNat 64 x)
  | 10, .mwait _ fl wp => .mwait (c / 16) fl wp
  | 12, .send _ => .send (BitVec.ofNat 64 x)
  | 13, .answer d cap nwb r => .answer d cap nwb r
  | _, _ => .none
/-- Read a group's registers and scheduling state back from its frame (R408 to R412). The lanes' wait conditions, which a
frame records for one subset only, are kept by the part (log 12). -/
def Group.readFrame (g : Group) (m : Mem) : Group :=
  let hd := m.bulk g.frame 0x1000
  let body := m.bulk (g.frame + 0x5000) 0x19000
  let recs := body.take 0x1000
  let stks := (body.drop 0x1000).take 0x8000
  let vecs := (body.drop 0x9000).take 0x10000
  let rows := (List.range g.width).map fun L => numsOf 4 g.vcount (vecs.drop (1024 * L))
  let preds := (List.range g.width).map fun L => fieldAt recs (64 * L + 28) 2
  let sub := BitVec.ofNat 64 (fieldAt hd 40 8)
  let waitc := fieldAt hd 56 8
  let waitx := fieldAt hd 64 8
  let wait (L : Nat) (l : Lane) : Lane :=
    if sub.getLsbD L && !(waitc == g.save.waitc && waitx == g.save.waitx) then { l with wait := .ofCode l.wait waitc waitx } else l
  { g with
    save := { g.save with
      fpc := BitVec.ofNat 64 (fieldAt hd 16 8), faddr := BitVec.ofNat 64 (fieldAt hd 24 8), flanes := BitVec.ofNat 64 (fieldAt hd 32 8)
      subset := sub, tcode := fieldAt hd 48 8, waitc, waitx }
    lanes := (List.range g.width).map fun L => wait L (readLane (g.lane L) (recs.drop (64 * L)) (stks.drop (512 * L)))
    preds := (List.range 15).map fun n => maskOf g.width fun L => (preds.getD L 0).testBit n
    vregs := (List.range g.vcount).map fun n => rows.map fun r => BitVec.ofNat 32 (r.getD n 0)
    sregs := (numsOf 8 g.scount (hd.drop 1024)).map (BitVec.ofNat 64)
    latches := (List.range 4).map fun n =>
      readLatch g.width (fieldAt hd (88 + n) 1) (fieldAt hd (96 + n) 1) (hd.drop (2048 + 512 * n))
    joins := (List.range 16).filterMap fun e =>
      let j := fieldAt hd (128 + 16 * e) 8
      let k := fieldAt hd (136 + 16 * e) 8
      if j == 0 && k == 0 then none else some { j := BitVec.ofNat 64 j, m := BitVec.ofNat 64 k } }

/-- R412: the frame still holds the CAUSE, FSTATE, WIDTH, CTX and SHEET that the part wrote. -/
def Group.frameIntact (g : Group) (m : Mem) : Bool :=
  let hd := m.load g.frame 16
  hd == leBytes 2 g.save.cause.code ++ leBytes 1 g.save.fstate ++ leBytes 1 g.width ++ leBytes 4 g.save.ctxw ++ leBytes 8 g.sheetid.toNat

/-- R297: what the read-only path of every sheet and group holds of a range of physical memory is what stands there now: the page
has been mapped, filled or moved. -/
def Mem.patch (m src : Mem) (a n : Nat) : Mem :=
  m.filter (fun c => c.1 < a) ++ src.filter (fun c => a ≤ c.1 && c.1 < a + n) ++ m.filter (fun c => a + n ≤ c.1)
def State.refreshRo (s : State) (a n : Nat) : State :=
  { s with sheets := s.sheets.map (fun h => { h with roMem := h.roMem.patch s.mem a n })
           groups := s.groups.map fun g => { g with roMem := g.roMem.map fun m => m.patch s.mem a n } }

/-- The lowest context number that no group of a core uses (R84). -/
def State.freeCtx (s : State) (core : Nat) : Option Nat :=
  let used := (s.groups.filter fun g => g.core == core && g.st != .saved).map (·.ctx)
  (List.range Config.contexts).find? fun n => !used.contains n

/-- R411: WAITC and WAITX of a group that has changed while saved. -/
def Group.rewait (h old : Group) : Group :=
  let w := (h.waitOf h.save.subset).code
  if w == (old.waitOf h.save.subset).code then h else { h with save := { h.save with waitc := w.1, waitx := w.2 } }
/-- Put a group that is in a context back: what has changed in the registers of one that is not resident goes to its park area (R85). -/
def State.putGrp (s : State) (g h : Group) : State :=
  if h.st != .resident && g.vregs != h.vregs then (s.setGrp h).parkRegs h else s.setGrp h
/-- Change a group wherever it is: a saved group is changed in its frame, which then records it as eligible when a lane
may issue (R89, R376, R398). -/
def State.updGroup (s : State) (id : Nat) (f : Group → Group) : State :=
  match s.grp? id with
  | none => s
  | some g =>
    if g.st == .saved then
      let k := g.readFrame s.mem
      let h := (f k).rewait k
      let fs := if h.save.fstate == 1 && h.save.cause != .pageWait && h.readyLanes != 0#64 then 2 else h.save.fstate
      s.putFrame { h with save := { h.save with fstate := fs } }
    else s.putGrp g (f g)

/-- A group as it stands: a saved one is read from its frame. -/
def State.view (s : State) (g : Group) : Group := if g.st == .saved then g.readFrame s.mem else g
/-- A lane that has not exited waits with a condition. -/
def Group.waits (g : Group) (p : Wait → Bool) : Bool := g.lanes.any fun l => !l.exited && p l.wait
/-- The groups of a team that still have a record. -/
def State.teamGroups (s : State) (team : Nat) : List Group := s.groups.filter fun g => g.team == team

end Sys2Proof.Machine
end

