-- ==== Sys2Proof/Machine/Operands.lean ====
section
/-!
DEFINITION. Operands: reading them in a lane or once for the group (R37, R49, R126), guards (R40), the scope decision
(R41), the checks that need the kernel header or a latch (R38, R49), and writing a result under R127 and R128.
-/
namespace Sys2Proof.Machine

/-- Sign extension of an immediate (R37). -/
def immInt (x : BitVec 8) : DWord := x.signExtend 64

/-- An operand of width w (1: 32 bits or narrower, in the low half; 2: 64 bits) in a lane (R126). -/
def Group.rd (g : Group) (o : Opnd) (w L : Nat) : DWord :=
  match o with
  | .v n => if w == 2 then g.v64 n.toNat L else (g.v n.toNat L).setWidth 64
  | .s n => if w == 2 then g.s n.toNat else (lo32 (g.s n.toNat)).setWidth 64
  | .imm x => if w == 2 then immInt x else (lo32 (immInt x)).setWidth 64
  | .b n =>
    let x := g.latchVal n.toNat L
    if w == 2 then x else (lo32 x).setWidth 64
  | .p n => if g.p n.toNat L then 1#64 else 0#64
  | .st _ => 0#64

/-- The 64-bit value of a scalar register, an immediate or a scalar latch, read once (lane 0's view). -/
def Group.rdS (g : Group) (o : Opnd) : DWord := g.rd o 2 0

/-- A guard in a lane (R40): bit 4 negates, bits [3:0] name the predicate. -/
def Group.guard (g : Group) (ga : BitVec 5) (L : Nat) : Bool := g.p (ga.toNat % 16) L != ga.getLsbD 4

/-- The lanes of the subset that execute (R40, R90). -/
def Group.active (g : Group) (p : Pfx) (sub : Mask) : Mask :=
  maskOf g.width fun L => sub.getLsbD L && g.guard p.ga L && g.guard p.gb L

/-- The lowest lane of a mask. -/
def lowest (m : Mask) : Nat := ((List.range 64).find? fun L => m.getLsbD L).getD 0
def highest (m : Mask) : Nat := ((List.range 64).reverse.find? fun L => m.getLsbD L).getD 0

/-! ### Checks at issue (R38, R49, R56, R220) -/

/-- The state of the latch that an operand names. -/
def Group.latchOf (g : Group) : Opnd → Option Latch
  | .b n => g.latches[n.toNat]?
  | _ => none

/-- Register numbers reach neither VCOUNT nor SCOUNT (R38); a latch has the width and kind that the position needs
(R49). -/
def Use.fits (u : Use) (g : Group) : Bool :=
  match u.o with
  | .v n => decide (n.toNat + u.n ≤ g.vcount)
  | .s n => decide (n.toNat + u.sn ≤ g.scount)
  | .b n =>
    let l := g.latches.getD n.toNat {}
    l.st == .never ||
      (match l.kind with
       | .scalar => true
       | .vec => !u.uni && u.w == 1
       | .pair => !u.uni && u.w == 2)
  | _ => true

/-- A latch that no chain has kept: E_LATCH (R49). -/
def Use.latchLost (u : Use) (g : Group) : Bool :=
  match g.latchOf u.o with
  | some l => l.st == .never || (l.st == .lost && !l.wb)
  | none => false

/-- A latch operand that holds a vector result. -/
def Use.vecLatch (u : Use) (g : Group) : Bool :=
  match g.latchOf u.o with
  | some l => l.kind != .scalar && l.st != .never
  | none => false

/-- A K-scope instruction executes once for the group: no operand names a vector register or a latch that holds a
vector (R41). -/
def Sig.uniform (sg : Sig) (g : Group) : Bool :=
  sg.scope == .k && sg.uses.all fun u => opndKind u.o != .v && !u.vecLatch g

/-- The E_ILLEGAL cases that depend on the group (R38, R41, R49, R220). -/
def Sig.fits (sg : Sig) (g : Group) : Bool :=
  sg.uses.all (fun u => u.fits g) && (!sg.wide || g.width == 64) &&
    (sg.scope != .k || !(sg.uses.any fun u => u.dst && opndKind u.o == .s) || sg.uses.all fun u => !u.vecLatch g)

/-- The vector registers that an instruction reads or writes. -/
def Sig.vregs (sg : Sig) : List Nat :=
  sg.uses.flatMap fun u => match u.o with
    | .v n => (List.range u.n).map (n.toNat + ·)
    | _ => []
def Sig.srcV (sg : Sig) : List Nat :=
  (sg.uses.filter fun u => !u.dst).flatMap fun u => match u.o with
    | .v n => (List.range u.n).map (n.toNat + ·)
    | _ => []
def Sig.srcS (sg : Sig) : List Nat :=
  (sg.uses.filter fun u => !u.dst).flatMap fun u => match u.o with
    | .s n => (List.range u.sn).map (n.toNat + ·)
    | _ => []

/-! ### Results (R127, R128) -/

/-- Sign or zero extension of a 32-bit result to 64 bits (R127). -/
def ext32 (signed : Bool) (x : DWord) : DWord := if signed then (lo32 x).signExtend 64 else (lo32 x).setWidth 64

/-- Write a result of width w to a vector or scalar destination: per lane in the lanes of the mask, or once with the
value of the lowest lane (R127, R128). -/
def Group.put (g : Group) (pf : Pfx) (d : Opnd) (w : Nat) (signed : Bool) (m : Mask) (vals : List DWord) : Group :=
  match d with
  | .v n => g.writeV pf n.toNat w m vals
  | .s n =>
    let x := vals.getD (lowest m) 0#64
    g.writeS pf n.toNat (if w == 2 then x else ext32 signed x)
  | _ => g

/-- Write a truth value: a predicate in the lanes of the mask, or 1 or 0 to a scalar (R146, R156). -/
def Group.putBool (g : Group) (pf : Pfx) (d : Opnd) (m : Mask) (vals : List Bool) : Group :=
  match d with
  | .p n => g.setP n.toNat m (maskOf g.width fun L => vals.getD L false)
  | .s n => g.writeS pf n.toNat (if vals.getD (lowest m) false then 1#64 else 0#64)
  | _ => g

/-- OR flags into the lanes of a mask (R134). -/
def Group.orFlags (g : Group) (m : Mask) (fl : Nat → Flags) : Group :=
  g.modLanes m fun L l => { l with fflags := l.fflags ||| fl L }

end Sys2Proof.Machine
end

