-- ==== Sys2Proof/Machine/Flags.lean ====
section
/-!
DEFINITION. The flag computations (R133, R134, R139, R142, R153): each lane function answers a value with the flags it
raises; what a lane or the group then ORs into %fflags.
-/
namespace Sys2Proof.Machine

/-- A lane's result and the flags it raises. -/
structure LaneRes where
  v : DWord
  fl : Flags := flNone
  deriving DecidableEq, Repr

/-- The pattern of an integer of N bits, in a 64-bit value. -/
def intBits (x : Int) (n : Nat) : DWord := BitVec.ofNat 64 (wrapNat x n)

/-- R139: wrap, or saturate and set SV where the result differs from the exact one. -/
def intRes (x : Int) (n : Nat) (signed sat : Bool) : LaneRes :=
  if sat then
    let r := satInt x n signed
    { v := intBits r n, fl := if r != x then flSV else flNone }
  else { v := intBits x n }

/-- A rounded floating result (R154, R190). -/
def fltRes (r : Rounded) (pre : Flags := flNone) : LaneRes := { v := BitVec.ofNat 64 r.bits, fl := r.fl ||| pre }

/-- The flags of a group-uniform execution go to every active lane (R128). -/
def flagsFor (uniform : Bool) (m : Mask) (rs : List LaneRes) (L : Nat) : Flags :=
  (rs.getD (if uniform then lowest m else L) { v := 0#64 }).fl

end Sys2Proof.Machine
end

