-- ==== Sys2Proof/Machine/Translate.lean ====
section
/-!
DEFINITION. Translation (R317 to R334): page-table walks over memory, TLBs, extents, permissions, and the physical map.
-/
namespace Sys2Proof.Machine

/-- What an access does (R323). -/
inductive Acc | rd | wr | rw | x
  deriving DecidableEq, Repr

def Acc.reads : Acc → Bool
  | .rd => true
  | .rw => true
  | _ => false
def Acc.writes : Acc → Bool
  | .wr => true
  | .rw => true
  | _ => false

/-- R321: the physical address lies in HBM below 192 GiB of a die, or in a range of pool memory that MEM has programmed (base,
length), or in host memory. -/
def paMapped (P : List (Nat × Nat)) (pa : Nat) : Bool :=
  let r := pa / 2 ^ 48 % 16
  if r == 0 then pa % 2 ^ 48 / 2 ^ 40 == 0 && decide (pa % 2 ^ 38 < 192 * 2 ^ 30)
  else if r < 8 then P.any fun e => decide (e.1 ≤ pa) && decide (pa < e.1 + e.2)
  else r != 15
/-- R321: HBM. -/
def isHbm (pa : Nat) : Bool := decide (pa < 2 ^ 40) && decide (pa % 2 ^ 38 < 192 * 2 ^ 30)
/-- R321: host memory over PCIe. -/
def paHost (pa : Nat) : Bool := decide (8 ≤ pa / 2 ^ 48 % 16) && decide (pa / 2 ^ 48 % 16 < 15)
def paPool (pa : Nat) : Bool := decide (1 ≤ pa / 2 ^ 48 % 16) && decide (pa / 2 ^ 48 % 16 < 8)
/-- R275: the home die of HBM and pool lines. -/
def paHome (pa : Nat) : Nat :=
  if paPool pa then (pa / 2 ^ 7 % 4) ^^^ (pa / 2 ^ 15 % 4) else pa / 2 ^ 38 % 4

/-- Page bits of a leaf at a level (R318). -/
def levelBits : Nat → Nat
  | 0 => 16
  | 1 => 21
  | _ => 28

def leafRN (e : DWord) : Bool := e.getLsbD 5
def leafX (e : DWord) : Bool := e.getLsbD 4
def leafW (e : DWord) : Bool := e.getLsbD 3
def leafRD (e : DWord) : Bool := e.getLsbD 2
/-- R319: entry bits [51:8] with [7:0] clear: the next node, or the page base. -/
def entAddr (e : DWord) : Nat := e.toNat / 2 ^ 8 % 2 ^ 44 * 2 ^ 8

/-- Node sizes by level, for the alignment of ADDR (R318). -/
def nodeSize : Nat → Nat
  | 0 => 256
  | 1 => 1024
  | 2 => 4096
  | 3 => 4096
  | _ => 16384

/-- R320: a valid leaf at a level. -/
def leafOk (P : List (Nat × Nat)) (lv : Nat) (e : DWord) : Bool :=
  e.getLsbD 0 && e.getLsbD 1 && e.toNat / 2 ^ 52 == 0 && e.toNat / 2 ^ 6 % 4 == 0 && decide (lv ≤ 2) &&
  entAddr e % 2 ^ levelBits lv == 0 && !(leafX e && leafW e) && !(leafRN e && leafX e) && leafRD e &&
  paMapped P (entAddr e) && !(leafRN e && paHost (entAddr e))
/-- R320: a valid table entry at a level, whose ADDR is a node of the next level. -/
def tableOk (P : List (Nat × Nat)) (lv : Nat) (e : DWord) : Bool :=
  e.getLsbD 0 && !e.getLsbD 1 && e.toNat / 2 ^ 52 == 0 && e.toNat / 2 ^ 2 % 64 == 0 && decide (1 ≤ lv) &&
  entAddr e % nodeSize (lv - 1) == 0 && paMapped P (entAddr e)

/-- R318: the index of an address at a level. -/
def vaIndex (lv va : Nat) : Nat :=
  match lv with
  | 0 => va / 2 ^ 16 % 32
  | 1 => va / 2 ^ 21 % 128
  | 2 => va / 2 ^ 28 % 512
  | 3 => va / 2 ^ 37 % 512
  | _ => va / 2 ^ 46 % 2048

/-- R318 to R320: walk from a node of level lv down; the leaf and its level. -/
def walkFrom (P : List (Nat × Nat)) (m : Mem) (va : Nat) : Nat → Nat → Option (DWord × Nat)
  | 0, node =>
    let e := BitVec.ofNat 64 (m.loadNat (node + 8 * vaIndex 0 va) 8)
    if leafOk P 0 e then some (e, 0) else none
  | lv + 1, node =>
    let e := BitVec.ofNat 64 (m.loadNat (node + 8 * vaIndex (lv + 1) va) 8)
    if leafOk P (lv + 1) e then some (e, lv + 1)
    else if tableOk P (lv + 1) e then walkFrom P m va lv (entAddr e) else none

/-- The walk of an address space (R317). -/
def State.walk (s : State) (asn va : Nat) : Option (DWord × Nat) :=
  match s.roots.find? fun r => r.1 == asn with
  | none => none
  | some r => walkFrom s.pool s.mem va 4 r.2

def TlbEntry.hits (e : TlbEntry) (asn va : Nat) : Bool := e.asn == asn && e.va / 2 ^ e.bits == va / 2 ^ e.bits

/-- The leaf that the TLBs hold for an address on a core, with its page bits: core TLB, last-level TLB (R322). -/
def State.tlbLeaf (s : State) (core asn va : Nat) : Option (DWord × Nat) :=
  match (s.core core).tlb.find? (·.hits asn va) with
  | some e => some (e.leaf, e.bits)
  | none => ((s.die (dieOf core)).tlb.find? (·.hits asn va)).map fun e => (e.leaf, e.bits)
/-- The leaf that serves an address on a core: the TLBs, then a walk. -/
def State.leafFor (s : State) (core asn va : Nat) : Option (DWord × Nat) :=
  match s.tlbLeaf core asn va with
  | some e => some e
  | none => (s.walk asn va).map fun (e, lv) => (e, levelBits lv)

/-- Fill the TLBs with what served an address (R322); the oldest entry makes room. -/
def State.tlbFill (s : State) (core asn va : Nat) : State :=
  match s.leafFor core asn va with
  | none => s
  | some (leaf, bits) =>
    let e : TlbEntry := { asn, va := va / 2 ^ bits * 2 ^ bits, bits, leaf }
    let add (cap : Nat) (t : List TlbEntry) : List TlbEntry :=
      if t.any (·.hits asn va) then t else (if t.length < cap then t else t.drop 1) ++ [e]
    let s1 := s.modCore core fun c => { c with tlb := add Config.coreTlb c.tlb }
    s1.modDie (dieOf core) fun d => { d with tlb := add Config.dieTlb d.tlb }

/-- Where an access goes, or what it meets: a fault, a page that is not mapped, or a walk that must wait (R330). -/
inductive Route
  | pa (p : Nat)
  | fault (c : Cause)
  | miss
  | later
  deriving DecidableEq, Repr

/-- The extents of a group's task (R324). -/
def State.extents (s : State) (g : Group) : List Extent :=
  match s.team? g.team with
  | none => []
  | some t => match s.task? g.sheet t.task with
    | none => []
    | some k => k.extents
def Extent.covers (e : Extent) (va : Nat) : Bool := decide (e.va ≤ va) && decide (va < e.va + e.len)
def Extent.grants (e : Extent) (a : Acc) : Bool := (!a.reads || e.rd) && (!a.writes || e.wr)

/-- Through a leaf: permissions of R323 first, then RN leaves (R304, R326, R493). -/
def leafRoute (leaf : DWord) (bits va : Nat) (a : Acc) : Route :=
  if (a == .x && !leafX leaf) || (a.reads && !leafRD leaf) || (a.writes && !leafW leaf) then .fault .access
  else if leafRN leaf then .fault .footprint
  else .pa (entAddr leaf / 2 ^ bits * 2 ^ bits + va % 2 ^ bits)

/-- R322: the walker of a die has 64 walks in flight. -/
def State.walksBusy (s : State) (die : Nat) : Bool := decide (Config.walks ≤ ((s.die die).walks.filter (·.granted)).length)
/-- R327, R330: the request generation of the subset that issues: the one that a reply gave its instruction, else the die's CUR. -/
def State.requestGen (s : State) (g : Group) : Nat :=
  let cur := (s.die (dieOf g.core)).cur
  match g.rgen, s.cur with
  | some r, some c => if c.gid == g.id && c.pc == g.save.fpc && c.mask &&& g.save.subset != 0#64 then max r cur else cur
  | _, _ => cur
/-- The TLB route: a request that needs a walk waits while none is free (R322); a walk that ends invalid is a page fault at the
request's generation, and waits for a generation that a reply has named and that is not current yet (R327, R330). -/
def State.tlbRoute (s : State) (g : Group) (va : Nat) (a : Acc) : Route :=
  match s.tlbLeaf g.core g.asn va with
  | some (leaf, bits) => leafRoute leaf bits va a
  | none =>
    if s.walksBusy (dieOf g.core) then .later
    else match s.walk g.asn va with
      | some (leaf, lv) => leafRoute leaf (levelBits lv) va a
      | none => if (s.die (dieOf g.core)).cur < s.requestGen g then .later else .miss

/-- The route of an access of a group at a virtual address (R324, R326): inside an extent no TLB is used, and an access is
served when any extent that covers the byte grants it. -/
def State.route (s : State) (g : Group) (va : Nat) (a : Acc) : Route :=
  if a == .x then s.tlbRoute g va a
  else
    let es := (s.extents g).filter (·.covers va)
    if es.isEmpty then s.tlbRoute g va a
    else match es.find? (·.grants a) with
      | some e => .pa (e.pa + (va - e.va))
      | none =>
        if (!a.reads || es.any (·.rd)) && (!a.writes || es.any (·.wr)) then
          match es with
          | e :: _ => .pa (e.pa + (va - e.va))
          | [] => .miss
        else .fault .footprint

/-- The 64 KiB pages, as virtual page addresses, that a range of bytes touches. -/
def pagesOf (va n : Nat) : List Nat :=
  if n == 0 then [] else (List.range ((va + n - 1) / 65536 - va / 65536 + 1)).map fun i => (va / 65536 + i) * 65536

/-- The first route of a range that is no plain address, with the address of the failing byte. -/
def State.rangeFault (s : State) (g : Group) (va n : Nat) (a : Acc) : Option (Route × Nat) :=
  (pagesOf va n).findSome? fun p =>
    let x := max p va
    match s.route g x a with
    | .pa _ => none
    | r => some (r, x)

/-- R256, R326: the recorded fault of an engine's route. -/
def Route.cause : Route → Cause
  | .fault c => c
  | _ => .page
/-- The shard that owns a virtual address (R389): 14 × die + logical cluster. -/
def shardOf (va : Nat) : Nat := 14 * (va / 2 ^ 28 % 4) + va / 2 ^ 30 % 64 % 14

end Sys2Proof.Machine
end

