-- ==== Sys2Proof/Machine/Cache.lean ====
section
/-!
DEFINITION. Caches (R277 to R281), line requests (R282), the snoop filter (R280) and the marks of releases (R294). What the caches
hold is kept as lines with a valid and a dirty bit for each word; the bytes are those of the one memory (log 3). Which line leaves a
full cache is the model's choice: the one used least recently (log 29).
-/
namespace Sys2Proof.Machine

/-- A physical line (R275). -/
def lineOf (pa : Nat) : Nat := pa / 128
/-- R277, R280: a line that an L1 may hold: HBM; neither the pool nor memory reached over PCIe. -/
def lineCached (line : Nat) : Bool := !paPool (line * 128) && !paHost (line * 128)

/-! ### The L1 (R277) -/

/-- The words of a line that accesses of (address, bytes) touch, and those that one of them covers. -/
def touchedWords (as : List (Nat × Nat)) (line : Nat) : Word :=
  BitVec.ofNat 32 (((List.range 32).filter fun i => as.any fun e => decide (e.1 < line * 128 + 4 * i + 4) && decide (line * 128 + 4 * i < e.1 + e.2)).foldl
    (fun m i => m + 2 ^ i) 0)
def coveredWords (as : List (Nat × Nat)) (line : Nat) : Word :=
  BitVec.ofNat 32 (((List.range 32).filter fun i => as.any fun e => decide (e.1 ≤ line * 128 + 4 * i) && decide (line * 128 + 4 * i + 4 ≤ e.1 + e.2)).foldl
    (fun m i => m + 2 ^ i) 0)

/-- How an instruction uses its lines: a load, a store, a store written through to the home L2 (R294), an atomic in the L1, at the
place of its die, or at the home L2 (R292). -/
inductive LineUse | load | store | through | near | die | far
  deriving DecidableEq, Repr

def Core.l1At (c : Core) (line : Nat) : CLine := (c.l1.find? fun x => x.line == line).getD { line }
/-- R277, R310: a line after a use that writes the words `wrote`: a fill makes every word valid. -/
def CLine.use (x : CLine) (u : LineUse) (any whole wrote : Word) : CLine :=
  let filled (need : Word) : Word := if need &&& ~~~x.valid == 0#32 then x.valid else BitVec.allOnes 32
  match u with
  | .load => { x with valid := filled any }
  | .near => { x with valid := filled any, dirty := x.dirty ||| wrote }
  | .store => { x with valid := filled (any &&& ~~~whole) ||| any, dirty := x.dirty ||| any }
  | .through => { x with valid := filled (any &&& ~~~whole) ||| any, dirty := x.dirty &&& ~~~any }
  | .die => { x with valid := x.valid &&& ~~~any, dirty := x.dirty &&& ~~~any }
  | .far => { x with valid := x.valid &&& ~~~any, dirty := x.dirty &&& ~~~any }
/-- R282: the use takes a request entry for the line: a miss, a merging fill, an atomic beyond the L1, an uncached access. -/
def CLine.takesEntry (x : CLine) (u : LineUse) (any whole : Word) : Bool :=
  !lineCached x.line || (match u with
    | .load => any &&& ~~~x.valid != 0#32
    | .near => any &&& ~~~x.valid != 0#32
    | .store => any &&& ~~~whole &&& ~~~x.valid != 0#32
    | .through => true
    | .die => true
    | .far => true)
/-- The L1 after a use of its lines, before any line leaves it; `wr`: what is written of the accesses. -/
def Core.l1Use (c : Core) (u : LineUse) (as wr : List (Nat × Nat)) (lines : List Nat) : List CLine :=
  (lines.filter lineCached).foldl (fun (m : List CLine) l =>
    let y := (c.l1At l).use u (touchedWords as l) (coveredWords as l) (touchedWords wr l)
    m.filter (fun x => x.line != l) ++ (if y.valid == 0#32 then [] else [y])) c.l1
/-- The lines that leave a full L1. -/
def l1Leaves (m : List CLine) : List CLine := m.take (m.length - Config.l1Lines)
def linesOf (as : List (Nat × Nat)) : List Nat := (as.map fun e => lineOf e.1).eraseDups
/-- R282: the lines for which an instruction takes entries, those of the write-backs that it causes among them. -/
def Core.entriesFor (c : Core) (u : LineUse) (as : List (Nat × Nat)) : List Nat :=
  ((linesOf as).filter fun l => (c.l1At l).takesEntry u (touchedWords as l) (coveredWords as l)) ++
  ((l1Leaves (c.l1Use u as as (linesOf as))).filter fun x => x.dirty != 0#32).map (·.line)
/-- R281, R282: the lines that a release would write back. -/
def Core.dirtyLines (c : Core) : List Nat := (c.l1.filter fun x => x.dirty != 0#32).map (·.line)

/-- R491: of the words whose check fails, those that leave with a dirty word go to memory. -/
def badDirty (bad : List Nat) (xs : List CLine) : List Nat :=
  bad.filter fun w => xs.any fun x => x.line == w / 32 && x.dirty.getLsbD (w % 32)
/-- The words whose check fails that an L1 still holds. -/
def badHeld (bad : List Nat) (xs : List CLine) : List Nat :=
  bad.filter fun w => xs.any fun x => x.line == w / 32 && x.valid.getLsbD (w % 32)

/-- R294: the L2 sends a promotion to the core that a line's mark names, which performs the actions of a device-scope release, and the
mark is cleared. -/
def writeBack (xs : List CLine) : List CLine := xs.map fun x => { x with dirty := 0#32 }
/-- A line that a core's miss brings: the home L2 holds it, and the remote-data cache of another die (R278, R279). A marked line that
leaves its L2 is promoted first (R294). -/
def useLine (cap : Nat) (m : List Nat) (l : Nat) : List Nat :=
  let k := m.filter (· != l) ++ [l]
  k.drop (k.length - cap)
def useCLine (cap : Nat) (m : List CLine) (x : CLine) : List CLine :=
  let k := m.filter (fun y => y.line != x.line) ++ [x]
  k.drop (k.length - cap)

/-- R279, R281: the actions of a release that writes back an L1: its dirty words go to the home L2, or to the remote-data cache for
remote lines; at device scope and wider those go to their home L2s too. The write-backs take request entries, as many as there are
(R282; log 29). -/
def State.flushL1 (s : State) (core : Nat) (device : Bool) : State :=
  let c := s.core core
  let far := (c.l1.filter fun x => x.dirty != 0#32 && paHome (x.line * 128) != dieOf core).map fun x => { x with valid := x.dirty }
  let gid := match s.cur with
    | some i => i.gid
    | none => 0
  let s1 := { s with bad := s.bad ++ badDirty c.badL1 c.l1 }.modCore core fun c =>
    { c with l1 := writeBack c.l1, badL1 := c.badL1.filter fun w => !(badDirty c.badL1 c.l1).contains w
             reqs := c.reqs ++ (c.dirtyLines.take (Config.lineRequests - c.reqs.length)).map fun line => ({ gid := gid, line } : LineReq) }
  if c.l1.isEmpty && !device then s1
  else s1.modDie (dieOf core) fun d =>
    let r := far.foldl (fun m x =>
      let o := (m.find? fun y => y.line == x.line).getD { line := x.line }
      useCLine Config.rdcLines m { o with valid := o.valid ||| x.valid, dirty := o.dirty ||| x.dirty }) d.rdc
    { d with rdc := if device then writeBack r else r }
/-- R294: a release at device or system scope clears the marks of the core. -/
def State.clearMarks (s : State) (core : Nat) : State :=
  { s with dies := s.dies.map fun (k, d) => (k, { d with marks := d.marks.filter fun e => e.2 != core }) }
/-- R294: the promotion of a mark. -/
def State.promoteMark (s : State) (e : Nat × Nat) : State :=
  (s.flushL1 e.2 true).modDie (paHome (e.1 * 128)) fun d => { d with marks := d.marks.filter (· != e) }
/-- R294: an acquire at die scope or wider from another core promotes the marks of the lines it reaches. -/
def State.promote (s : State) (core : Nat) (lines : List Nat) : State :=
  lines.foldl (fun t l => match (t.die (paHome (l * 128))).marks.find? fun e => e.1 == l && e.2 != core with
    | some e => t.promoteMark e
    | none => t) s
/-- R294: a line leaves its L2, or its snoop-filter entry: its mark is promoted first. -/
def State.lineLeaves (s : State) (l : Nat) : State :=
  match (s.die (paHome (l * 128))).marks.find? fun e => e.1 == l with
  | some e => s.promoteMark e
  | none => s
/-- R278, R279, R292: the home L2, and the remote-data cache of a core's die, hold a line that the core's access has brought; an atomic at
the home L2 leaves the remote-data cache alone, one at die scope on a remote line is performed there and makes the words `wrote` dirty. -/
def State.fetchLineOf (s : State) (core : Nat) (u : LineUse) (wrote : Word) (l : Nat) : State :=
  if paHost (l * 128) || paPool (l * 128) then s
  else
    let h := paHome (l * 128)
    let full := !(s.die h).l2.contains l && decide (Config.l2Lines ≤ (s.die h).l2.length)
    let s1 := match full, (s.die h).l2.head? with
      | true, some old => s.lineLeaves old
      | _, _ => s
    let s2 := s1.modDie h fun d => { d with l2 := useLine Config.l2Lines d.l2 l }
    if h == dieOf core || u == .far then s2
    else s2.modDie (dieOf core) fun d =>
      let y := (d.rdc.find? fun y => y.line == l).getD { line := l }
      { d with rdc := useCLine Config.rdcLines d.rdc { y with valid := BitVec.allOnes 32, dirty := if u == .die then y.dirty ||| wrote else y.dirty } }
/-- The caches after an instruction's accesses `as`, of which it writes `wr`. -/
def State.useCaches (s : State) (core : Nat) (u : LineUse) (as wr : List (Nat × Nat)) : State :=
  let c := s.core core
  let m := c.l1Use u as wr (linesOf as)
  let out := l1Leaves m
  let kept := m.drop out.length
  let miss := (linesOf as).filter fun l => (c.l1At l).takesEntry u (touchedWords as l) (coveredWords as l)
  let written (w : Nat) : Bool := (u == .store || u == .through) && (coveredWords as (w / 32)).getLsbD (w % 32)
  let s1 := { s with bad := s.bad ++ badDirty c.badL1 out }.modCore core fun c =>
    { c with l1 := kept, badL1 := (badHeld c.badL1 kept).filter fun w => !written w }
  miss.foldl (fun t l => t.fetchLineOf core u (touchedWords wr l) l) s1
/-- R421: a load, or a store of part of a word, that the L1 serves from a word whose check fails. -/
def Core.l1Bad (c : Core) (pa n : Nat) (part : Bool) : Bool :=
  c.badL1.any fun w => decide (4 * w < pa + n) && decide (pa < 4 * w + 4) && !(part && decide (pa ≤ 4 * w) && decide (4 * w + 4 ≤ pa + n)) &&
    (c.l1At (w / 32)).valid.getLsbD (w % 32)

/-! ### Request entries (R282) -/

/-- R282: waiting instructions come first, the oldest first. -/
def Core.firstInLine (c : Core) (gid : Nat) (sub : Mask) : Bool :=
  match c.reqQ with
  | [] => true
  | h :: _ => h.1 == gid && h.2 &&& sub != 0#64
/-- R282: take request entries for distinct lines, or say that there are too few free; a subset that waits comes first. `wr`: the accesses
write, so that a release at system scope waits for those beyond the part's caches (R281). -/
def State.takeLines (s : State) (core gid : Nat) (sub : Mask) (wr : Bool) (lines : List Nat) : Option State :=
  let ls := lines.eraseDups
  if (ls.isEmpty || (s.core core).firstInLine gid sub) && (s.core core).reqs.length + ls.length ≤ Config.lineRequests then
    some (s.modCore core fun c => { c with reqs := c.reqs ++ ls.map (fun line => { gid, line, wr })
                                           reqQ := c.reqQ.filter fun e => !(e.1 == gid && e.2 &&& sub != 0#64) })
  else none

/-- R282: a subset that goes on has left the queue. -/
def State.leaveQueue (s : State) (core gid : Nat) (sub : Mask) : State :=
  s.modCore core fun c => { c with reqQ := c.reqQ.filter fun e => !(e.1 == gid && e.2 &&& sub != 0#64) }
/-- R281: the group's writes to pool and host memory that are not acknowledged. -/
def Core.owes (c : Core) (gid : Nat) : Bool := c.reqs.any fun r => r.gid == gid && r.wr && !lineCached r.line
/-- R281, R282: what a release at a scope waits for: at system scope the group's own writes beyond the caches, then entries for the lines
that it writes back, the whole table where they are more (log 29). -/
def State.releaseWait (s : State) (core gid : Nat) (sub : Mask) (sc : Nat) (paired : Bool) : Option Wait :=
  let c := s.core core
  let n := if 3 ≤ sc || (sc == 2 && paired) then min c.dirtyLines.length Config.lineRequests else 0
  if sc == 5 && c.owes gid then some (.request 0)
  else if n != 0 && !(c.firstInLine gid sub && decide (c.reqs.length + n ≤ Config.lineRequests)) then some (.request n) else none

/-! ### The snoop filter (R280) -/

/-- R280: an access to pool lines takes snoop filter entries of the home die while there are free ones; an atomic always
takes one, evicting the least recently used, whose mark is promoted first (R294). -/
def State.filterLines (s : State) (lines : List Nat) (force : Bool) : State :=
  (lines.filter fun l => paPool (l * 128)).foldl (fun t l =>
    let d := t.die (paHome (l * 128))
    if d.filter.contains l then t.modDie (paHome (l * 128)) fun d => { d with filter := d.filter.filter (· != l) ++ [l] }
    else if d.filter.length < Config.filter then t.modDie (paHome (l * 128)) fun d => { d with filter := d.filter ++ [l] }
    else if force then
      ((d.filter.head?).map t.lineLeaves |>.getD t).modDie (paHome (l * 128)) fun d => { d with filter := d.filter.drop 1 ++ [l] }
    else t) s
/-- R280: the lines of a range of physical memory. -/
def State.filterRange (s : State) (pa n : Nat) : State :=
  if paPool pa && n != 0 then s.filterLines ((List.range ((pa + n - 1) / 128 - pa / 128 + 1)).map (pa / 128 + ·)) false else s

/-! ### Walks (R322) -/

/-- The lines of the entries that a walk from a node of level lv down reads (R318). -/
def walkLines (P : List (Nat × Nat)) (m : Mem) (va : Nat) : Nat → Nat → List Nat
  | 0, node => [lineOf (node + 8 * vaIndex 0 va)]
  | lv + 1, node =>
    let a := node + 8 * vaIndex (lv + 1) va
    let e := BitVec.ofNat 64 (m.loadNat a 8)
    lineOf a :: (if tableOk P (lv + 1) e then walkLines P m va lv (entAddr e) else [])
/-- R294, R322: the walker reads the entries as acquire loads at device scope, so that marked lines among them are promoted. -/
def State.walkReads (s : State) (asn va : Nat) : State :=
  match s.roots.find? fun r => r.1 == asn with
  | none => s
  | some r => (walkLines s.pool s.mem va 4 r.2).foldl State.lineLeaves s
/-- Fill the TLBs for an address that no extent serves; where they do not hold it, a walk reads it. -/
def State.touch (s : State) (g : Group) (va : Nat) (a : Acc) : State :=
  if a != .x && (s.extents g).any (·.covers va) then s
  else (if (s.tlbLeaf g.core g.asn va).isNone then s.walkReads g.asn va else s).tlbFill g.core g.asn va

/-! ### Acquires and releases (R281, R286, R294) -/

/-- R281: the cache actions of an acquire: clean words of the L1 are invalidated, and at device scope and wider those of the die's
remote-data cache. -/
def dropClean (xs : List CLine) : List CLine := (xs.map fun x => { x with valid := x.dirty }).filter fun x => x.valid != 0#32
def State.acquireAt (s : State) (core sc : Nat) (paired : Bool) : State :=
  let s1 := if 3 ≤ sc || (sc == 2 && paired) then s.modCore core fun c => { c with l1 := dropClean c.l1, badL1 := badHeld c.badL1 (dropClean c.l1) } else s
  if 4 ≤ sc then s1.modDie (dieOf core) fun d => { d with rdc := dropClean d.rdc } else s1
/-- R281, R294: the cache actions of a release, and the core's marks. -/
def State.releaseAt (s : State) (core sc : Nat) (paired : Bool) : State :=
  let s1 := if 3 ≤ sc || (sc == 2 && paired) then s.flushL1 core (4 ≤ sc) else s
  if 4 ≤ sc then s1.clearMarks core else s1
/-- R294: a release at group or team scope marks the lines it writes with the issuing core; memory reached over PCIe is
not marked. -/
def State.markLines (s : State) (core : Nat) (lines : List Nat) : State :=
  (lines.filter fun l => !paHost (l * 128)).foldl (fun t l =>
    t.modDie (paHome (l * 128)) fun d => { d with marks := setK d.marks l core }) s

def isAcq (ord : Nat) : Bool := ord == 1 || ord == 3
def isRel (ord : Nat) : Bool := ord == 2 || ord == 3
def State.pairedOf (s : State) (g : Group) : Bool := ((s.team? g.team).map (·.paired)).getD false
/-- The acquire part of an access of scope sc that reaches lines (R281, R294); an atomic access notes the marked lines that it reaches and
does not promote, for a later acquire fence (R286). -/
def State.acquirePart (s : State) (g : Group) (sc ord : Nat) (lines : List Nat) : State :=
  if isAcq ord && 3 ≤ sc then (s.promote g.core lines).acquireAt g.core sc (s.pairedOf g)
  else
    let s1 := if isAcq ord then s.acquireAt g.core sc (s.pairedOf g) else s
    let hit := lines.filter fun l => (s.die (paHome (l * 128))).marks.any fun e => e.1 == l && e.2 != g.core
    if sc == 0 || hit.isEmpty then s1 else s1.modGrp g.id fun g => { g with seen := g.seen ++ hit }
/-- The release part of an access of scope sc that writes lines (R281, R294); an atomic store after a release fence at group or team
scope is the releasing write of that fence (R286). -/
def State.releasePart (s : State) (g : Group) (sc ord : Nat) (lines : List Nat) : State :=
  let s1 := if isRel ord then s.releaseAt g.core sc (s.pairedOf g) else s
  if (isRel ord && (sc == 1 || sc == 2)) || (1 ≤ sc && g.relFence) then s1.markLines g.core lines else s1
/-- R286, R311: a FENCE, ROSYNC or the acquire of a window counter: an acquire promotes the marked lines that the group's atomic loads
have reached. -/
def State.fenceOf (s : State) (g : Group) (sc ord : Nat) : State :=
  let s1 := if isRel ord then (s.releaseAt g.core sc (s.pairedOf g)).modGrp g.id fun g => { g with relFence := if 4 ≤ sc then false else g.relFence || sc ≤ 2 } else s
  if isAcq ord then
    ((if 3 ≤ sc then s1.promote g.core g.seen else s1).acquireAt g.core sc (s.pairedOf g)).modGrp g.id fun g => { g with seen := if 3 ≤ sc then [] else g.seen }
  else s1

/-! ### Restoring a group (R89, R201, R398) -/

/-- R201: the image that the restoring of a group brings back to its core. -/
def State.imageOf (s : State) (g : Group) : Option Group :=
  s.groups.find? fun h => h.team == g.team && h.core == g.core && h.image.isSome

/-- Restore a saved group from its frame: parked, eligible or waiting as its wait conditions say (R89, R201, R415); none
while no context of the core is free, while another team holds the core's matrix state, or on a core that WEAR has drained (R434). -/
def State.restoreGroup (s : State) (g : Group) (f : Group → Group := id) : Option State :=
  match if (s.core g.core).wst == .drained || (s.core g.core).wst == .retired then none else s.freeCtx g.core with
  | none => none
  | some c =>
    -- R393: lanes that were answered while the group was saved resume now, an acquire at system scope
    let s := if g.calls.any fun c => c.owed != 0#64 then s.acquireAt g.core 5 (s.pairedOf g) else s
    let h := f { (g.readFrame s.mem).payOwed s.mem with st := .parked, ctx := c, frameHeld := false, parkedAt := (s.core g.core).cycle.toNat, seq := 0 }
    match s.imageOf g with
    | none => some ((s.setGrp h).parkRegs h)
    | some hi =>
      if (s.core g.core).mowner.isSome then none
      else
        let s1 := ((s.setGrp h).parkRegs h).modGrp hi.id fun k => { k with image := none }
        some (s1.modCore g.core fun co => { co with mstate := hi.image.getD {}, mowner := some g.team })

end Sys2Proof.Machine
end

