-- ==== Sys2Proof/Machine/Issue.lean ====
section
/-!
DEFINITION. The issue of an instruction word by a subset: the checks shared by all (R38 to R49, R57, R58, R135, R136,
R209), what a meaning answers, and what the part does with the answer: the subset moves on, waits, or takes an exception.
Also stores on behalf of a sheet (R418, R491).
-/
namespace Sys2Proof.Machine

/-! ### Stores of a sheet (R418, R420, R491) -/

/-- R418, R420: before the first write of the sheet to an armed page, copy the page; with no free snapshot page the write goes on
without a copy, and no later write makes one. -/
def State.snapPage (s : State) (sheet page : Nat) : State :=
  match s.sheet? sheet with
  | none => s
  | some h =>
    if h.armed.contains page && !(h.snaps.any fun e => e.1 == page) && !h.unsnapped.contains page then
      if s.snapUsed < s.owner.snapPages then
        { s.modSheet sheet fun h => { h with snaps := h.snaps ++ [(page, s.mem.bulk page 65536)] } with snapUsed := s.snapUsed + 1 }
      else s.modSheet sheet fun h => { h with noReplay := true, unsnapped := h.unsnapped ++ [page] }
    else s

/-- A write of the sheet to physical memory. -/
def State.sheetStore (s : State) (sheet pa : Nat) (bs : List Byte) : State :=
  let s1 := (pagesOf pa bs.length).foldl (fun t p => t.snapPage sheet p) s
  ({ s1 with mem := s1.mem.store pa bs }.mend pa bs.length).filterRange pa bs.length

/-- R421: a read of n bytes meets a word whose check fails. -/
def State.badRead (s : State) (pa n : Nat) : Bool :=
  s.bad.any fun w => decide (4 * w < pa + n) && decide (pa < 4 * w + 4)
/-- R491: a write of part of a bad word consumes it. -/
def State.badWrite (s : State) (pa n : Nat) : Bool :=
  s.bad.any fun w => decide (4 * w < pa + n) && decide (pa < 4 * w + 4) && !(decide (pa ≤ 4 * w) && decide (4 * w + 4 ≤ pa + n))

/-! ### Answers of a meaning -/

/-- What a meaning is given: the core, the group, the subset, the lanes that execute, the slot, the prefix, the entry of
the legality table, the read-only choice, and the latches that the group held before kept ones were put back. -/
structure Q where
  core : Nat
  g : Group
  sub : Mask
  act : Mask
  pc : DWord
  pf : Pfx
  sg : Sig
  stale : Bool := false
  prior : Option (List Latch) := none
  deriving DecidableEq, Repr

/-- What a meaning answers: performed, and the subset goes on at the next slot; performed, with the lanes placed by the
meaning; an exception with the lanes that met it, FADDR and TCODE; pages that are not mapped, by lane and address, with the kind of their
access where it is not the instruction's own (R327); or nothing performed yet, and the subset waits. -/
inductive Res
  | ok (s : State)
  | moved (s : State)
  | trap (c : Cause) (lanes : Mask) (addr : DWord) (code : Nat) (s : State)
  | pages (vas : List (Nat × DWord)) (s : State) (kind : Option Nat)
  | wait (w : Wait) (s : State)

/-- R58: an exception of the whole subset before any lane executes. -/
def trapAll (q : Q) (c : Cause) (s : State) : Res := .trap c q.sub 0#64 0 s

/-- R96: the commit instructions. -/
def isCommit : UnitKind → Instr → Bool := fun u i =>
  match i with
  | .call _ => true
  | .calli _ => true
  | .ret _ => true
  | .rcv _ => true
  | .exit _ => true
  | .tbar _ => true
  | .spawn _ => true
  | .binfl _ => true
  | .atom _ => true
  | .cas _ => true
  | .put _ => true
  | .puts _ => true
  | .satom _ => true
  | .cstart _ => true
  | .stage _ => true
  | .cpy _ => true
  | .send _ => true
  | .sendx _ => true
  | .recv _ => true
  | .patarm _ => true
  | .patdis _ => true
  | .sys _ => true
  | .sysa _ => true
  | .sysw _ => true
  | .trap _ => true
  | .bkpt _ => true
  | _ => u == .tsk || u == .seal

/-- R47: an instruction after which the chain breaks whatever follows. -/
def breaksAfter (i : Instr) (sg : Sig) (p : Pfx) : Bool :=
  p.y || p.stall != 0#4 || [UnitKind.ctl, .prt, .tsk, .svc, .seal].contains sg.unit ||
  (match i with
   | .rosync _ => true
   | .fence _ => true
   | .winwait _ => true
   | .cwait _ => true
   | .mwait _ => true
   | _ => false)

/-- R137: the ck that an instruction takes to issue; one for what the table does not list. -/
def issueCk (i : Instr) (twoPass : Bool) : Nat :=
  let wide (o : F5) : Bool := mbit o.mod 1
  let n := match i with
    | .imul o => if wide o then 2 else 1
    | .imulh o => if wide o then 2 else 1
    | .imad o => if wide o then 2 else 1
    | .imadw _ => 2
    | .dadd _ => 2
    | .dmul _ => 2
    | .dfma _ => 2
    | .fmin o => w64 o.mod 0
    | .fmax o => w64 o.mod 0
    | .fcmp o => w64 o.mod 0
    | .fclass o => w64 o.mod 0
    | .cvt o => if cvtWide (cvtDf o) || cvtWide (cvtSf o) then 2 else 1
    | .shfl o => w64 o.mod 3
    | .bcast o => w64 o.mod 0
    | .frcp _ => 4
    | .frsq _ => 4
    | .fsqrt _ => 4
    | .fexp2 _ => 4
    | .flog2 _ => 4
    | .fsin _ => 4
    | .fcos _ => 4
    | .fdiv _ => 8
    | .lred _ => 7
    | .lscan _ => 8
    | .idiv o => if wide o then 32 else 16
    | .irem o => if wide o then 32 else 16
    | _ => 1
  if twoPass then 2 * n else n

/-! ### After the answer -/

/-- Waits after which the instruction performs (R47): it issues again. -/
def Wait.reissues : Wait → Bool
  | .chunks _ _ _ => true
  | .stage _ => true
  | .spawn => true
  | .mopen => true
  | .budget _ _ => true
  | .request _ => true
  | .walk => true
  | .slot _ _ => true
  | _ => false

/-- R47: an instruction that performs only after its wait reads the latches as they stood when it was issued. -/
def Group.keep (g : Group) (q : Q) (w : Wait) : Group :=
  if w.reissues then { g with kept := g.kept ++ [(q.sub, q.g.latches)] } else g
/-- R47: an instruction that performs only after its wait has met an exception or pages that are not mapped when it issued again: the group's
latches are its own again, and the instruction keeps those that it reads when it issues once more. -/
def Group.stash (g : Group) (sub : Mask) (prior : Option (List Latch)) : Group :=
  match prior with
  | none => g
  | some p => { g with kept := g.kept ++ [(sub, g.latches)], latches := p }
/-- R47, R415: the group as an exception at the slot finds it. -/
def Group.faulted (g : Group) (i : Instr) (q : Q) : Group := { g.stash q.sub q.prior with brk := breaksAfter i q.sg q.pf }
/-- After it has performed, the group's latches are its own again but for the one that it captured into. -/
def Group.unkeep (g : Group) (q : Q) : Group :=
  match q.prior with
  | none => g
  | some p =>
    let put (i : Nat) (l : Latch) : Latch :=
      let n := g.latches.getD i {}
      if i == q.pf.cap.toNat && { n with st := .live } != { q.g.latches.getD i {} with st := .live } then n else l
    { g with latches := p.mapIdx put }

/-- The condition of a lane (R103): no condition holds, a predicate where it is 1; MOD bit 0 negates. -/
def condHolds (o : FB) (g : Group) (L : Nat) : Bool :=
  (match o.cond with
   | .p n => g.p n.toNat L
   | _ => true) != mbit o.mod 0
/-- R54: the ck that a branch hinted group-uniform costs when the executing lanes disagree on its direction. -/
def hintPenalty (i : Instr) (q : Q) : Nat :=
  let cost (o : FB) : Nat :=
    let go := maskOf q.g.width fun L => q.act.getLsbD L && condHolds o q.g L
    if q.pf.ch.extractLsb' 0 2 == 3#2 && go != 0#64 && go != q.act then 14 else 0
  match i with
  | .bra o => cost o
  | .bri o => cost o
  | .call o => cost o
  | .calli o => cost o
  | .rcv o => cost o
  | _ => 0

/-- What every issue leaves in the group: the commit marks of the subset, the chain (R47, R48, R96), and the generation of a
reply, which serves the instruction that faulted (R327). -/
def Group.issued (g : Group) (i : Instr) (q : Q) (ck : Nat) (broke : Bool) : Group :=
  let g1 := if isCommit q.sg.unit i then g.modLanes q.sub fun _ l => { l with commit := true } else g
  let hold := q.pf.stall.toNat + hintPenalty i q
  let g1 := if hold == 0 then g1 else g1.modLanes q.sub fun _ l => { l with stall := ck + hold }
  let g2 := if broke then { g1.loseLatches with chain := none } else { g1 with chain := some (q.sub, lineBase q.pc) }
  { g2 with spill := false, yieldTo := if q.pf.y then some q.sub else none, entryDue := false
            rgen := if q.pc == g.save.fpc && q.sub &&& g.save.subset != 0#64 then none else g.rgen }

/-! ### Budgets (R444, R445) -/

/-- R445: the allowance of a class: a share of 0 counts as 1. -/
def allowance (cap share : Nat) : Nat := cap * max 1 share / 256
def Budget.share (b : Budget) (res : Nat) : Nat := if res == 0 then b.noc else if res == 1 then b.hbm else b.pwr
def Cluster.cap (c : Cluster) (res : Nat) : Nat := if res == 0 then Config.nocCap else if res == 1 then Config.hbmCap else c.pwrcap
/-- R443, R445: charge a class of a cluster; EXH counts the periods in which it has used its allowance. -/
def Budget.charge (b : Budget) (cap res units : Nat) : Budget :=
  let old := b.used.getD res 0
  let a := allowance cap (b.share res)
  { b with used := b.used.set res (old + units)
           exh := if old < a && a ≤ old + units then b.exh.modify res (fun n => (n + 1) % 65536) else b.exh }
def State.chargeUnits (s : State) (cluster cls res units : Nat) : State :=
  s.modCluster cluster fun c => { c with budgets := c.budgets.modify cls (·.charge (c.cap res) res units) }
/-- R444, R445: traffic of a class: router slots, and units of 64 bytes of HBM. -/
def State.chargeTraffic (s : State) (cluster cls bytes hbm : Nat) : State :=
  (s.chargeUnits cluster cls 0 (Config.nocSlots bytes)).chargeUnits cluster cls 1 (hbm / 64)
/-- The traffic of line requests: 128 bytes each, those of HBM among them (log 10). -/
def State.chargeLines (s : State) (cluster cls : Nat) (lines : List Nat) : State :=
  let ls := lines.eraseDups
  if ls.isEmpty then s else s.chargeTraffic cluster cls (128 * ls.length) (128 * (ls.filter fun l => isHbm (l * 128)).length)
/-- The traffic of physical pieces, address and length, that go past the caches (log 10). -/
def State.chargePieces (s : State) (cluster cls : Nat) (ps : List (Nat × Nat)) : State :=
  let sum (xs : List (Nat × Nat)) : Nat := (xs.map (·.2)).foldl (· + ·) 0
  if ps.isEmpty then s else s.chargeTraffic cluster cls (sum ps) (sum (ps.filter fun e => isHbm e.1) + 63)
/-- R442: ck that a core spends for a team. -/
def Core.charge (c : Core) (team sheet ck : Nat) : Core :=
  { c with charges :=
      if c.charges.any fun e => e.1 == team then c.charges.map fun e => if e.1 == team then (team, sheet, e.2.2 + ck) else e
      else c.charges ++ [(team, sheet, ck)] }
/-- The ck that moving pieces takes. -/
def moveCk (ps : List (Nat × Nat)) : Nat := Config.engineCk ((ps.map (·.2)).foldl (· + ·) 0)
/-- R444, R445: bytes that a unit of a cluster, or one that works for it, moves: traffic and energy. -/
def State.chargeMove (s : State) (cluster cls : Nat) (ps : List (Nat × Nat)) : State :=
  (s.chargePieces cluster cls ps).chargeUnits cluster cls 2 (Config.energy cls (moveCk ps))
/-- R442, R444, R445: bytes that an engine moves for a team of a core: traffic, energy and ck. -/
def State.chargeEngine (s : State) (core team sheet cls : Nat) (ps : List (Nat × Nat)) : State :=
  (s.chargeMove (clusterOf core) cls ps).modCore core (·.charge team sheet (moveCk ps))
/-- R444: the class that an instruction's energy, and the traffic of the engine's loads and stores, are charged to. -/
def Q.workClass (q : Q) : Nat := if q.sg.unit == .mtx then 1 else 0

/-- ck of a core's clock pass (R120, R131): its cycle count grows, its naps shorten. -/
def State.tick (s : State) (core ck : Nat) : State :=
  let nap (l : Lane) : Lane := match l.wait with
    | .nap n => { l with wait := .nap (n - ck), stall := l.stall - ck }
    | _ => { l with stall := l.stall - ck }
  let s1 := s.modCore core fun c => { c with cycle := c.cycle + BitVec.ofNat 64 ck }
  s1.modGrps fun g => if g.core == core && g.st != .saved then { g with lanes := g.lanes.map nap } else g

/-- The core's clock and rotation after an issue (R83, R91, R131, R137): the quarters of the group's block are ck further, and a
chain that goes on does not ask the rotation. The issue's energy is charged (R445). -/
def State.spend (s : State) (q : Q) (gid ck : Nat) : State :=
  let k := s.core q.core
  let s1 := (s.tick q.core (k.growth q.g ck)).modCore q.core fun c =>
    { c with rot := c.rot.filter (· != gid) ++ [gid], lead := k.leadAfter q.g ck }
  ((s1.modGrp gid fun g => { g with issueSince := g.issueSince + ck }).modCore q.core (·.charge q.g.team q.g.sheet ck)).chargeUnits
    (clusterOf q.core) q.workClass 2 (Config.energy q.workClass ck)

/-- R136: the ck of runs again, before an exception. -/
def State.spendRuns (s : State) (q : Q) (ck : Nat) : State := if ck == 0 then s else s.spend q q.g.id ck

/-- R415 STEP: a group being stepped is saved with cause STEP after one instruction. -/
def State.stepDone (s : State) (gid : Nat) (q : Q) : State :=
  match s.grp? gid with
  | none => s
  | some g =>
    if g.stepping && g.st != .saved && g.alive != 0#64 then
      let sub := q.sub &&& g.alive
      let pc := (g.lane (lowest (if sub == 0#64 then g.alive else sub))).pc
      (s.saveGroup g .step 3 pc sub sub 0#64 0).callqPush (s.survOf g.core) { slot := g.frame, type := 4 }
    else s

/-- R327: what the accesses of an instruction that page-faults do: 0 read, 1 write, 2 both, 3 fetch. -/
def faultKind : Instr → Nat
  | .st _ => 1
  | .tst _ => 1
  | .atom _ => 2
  | .cas _ => 2
  | .cpy o => if mbit o.mod 0 then 1 else 0
  | .bra _ => 3
  | .bri _ => 3
  | .call _ => 3
  | .calli _ => 3
  | .ret _ => 3
  | .rcv _ => 3
  | .spawn _ => 3
  | _ => 0
/-- R327: the records of a page fault, one for each shard. -/
def faultRecs (kind gen : Nat) (vas : List (Nat × DWord)) : List FaultRec :=
  ((vas.map fun e => shardOf e.2.toNat).eraseDups).map fun sh =>
    let mine := vas.filter fun e => shardOf e.2.toNat == sh
    { shard := sh, lanes := Mask.ofLanes (mine.map (·.1)), vas := mine.map (·.2), who := mine.map (·.1), kind, gen }

/-- The queue that a wait joins: for request entries (R282), or for a walk (R322, R330). A subset that waits for anything else has left the
first. -/
def State.enqueueWait (s : State) (g : Group) (sub : Mask) (w : Wait) : State :=
  match w with
  | .request n => if n == 0 then s.leaveQueue g.core g.id sub else s.modCore g.core fun c =>
    { c with reqQ := if c.reqQ.any fun e => e.1 == g.id && e.2 &&& sub != 0#64 then c.reqQ else c.reqQ ++ [(g.id, sub)] }
  | .walk => (s.leaveQueue g.core g.id sub).modDie (dieOf g.core) fun d => { d with walks := d.walks ++ [{ gid := g.id, rgen := s.requestGen g, at_ := d.cur }] }
  | _ => s.leaveQueue g.core g.id sub

/-- R327, R409: save the group with cause PAGE_WAIT, whose frame has no FADDR, and post the fault records. -/
def State.pageFault (s : State) (g : Group) (kind : Nat) (pc : DWord) (sub : Mask) (vas : List (Nat × DWord)) : State :=
  (s.saveGroup g .pageWait 1 pc sub (Mask.ofLanes (vas.map (·.1))) 0#64 0).modGrp g.id
    fun h => { h with faults := faultRecs kind (s.requestGen g) vas }

/-- The outcome of an issue from the answer of its meaning (R42, R57, R89, R327, R406). DESIGN CHOICE (log 33): the d ck of a NAP begin with
its issue, whose own ck count among them. -/
def settleRes (i : Instr) (q : Q) (extra : Nat) (r : Res) : Host.Outcome State Fault Refusal :=
  let gid := q.g.id
  let one := issueCk i (State.core (match r with | .ok s => s | .moved s => s | .trap _ _ _ _ s => s | .pages _ s _ => s | .wait _ s => s) q.core).twoPass
  let ck := one * (1 + extra)
  let broke := breaksAfter i q.sg q.pf || q.prior.isSome
  match r with
  | .ok s =>
    let s1 := s.modGrp gid fun g => ((g.moveTo q.sub (nextPc q.pc)).unkeep q).issued i q ck broke
    .next { ((s1.leaveQueue q.core gid q.sub).spend q gid ck).stepDone gid q with cur := none }
  | .moved s =>
    let s1 := s.modGrp gid fun g => (g.settle.unkeep q).issued i q ck broke
    .next { ((s1.leaveQueue q.core gid q.sub).spend q gid ck).stepDone gid q with cur := none }
  | .wait w s =>
    let s1 := s.modGrp gid fun g => { (((g.waitAt q.sub w).unkeep q).issued i q ck true).keep q w with rgen := g.rgen }
    .next { ((s1.spend q gid ck).enqueueWait q.g q.sub w).stepDone gid q with cur := none }
  | .trap c lanes addr code s =>
    let t := s.spendRuns q (one * extra)
    match t.grp? gid with
    | none => .next { t with cur := none }
    | some g => .next { t.takeException (g.faulted i q) c q.pc q.sub lanes addr code with cur := none }
  | .pages vas s kind =>
    match s.grp? gid with
    | none => .next { s with cur := none }
    | some g => .next { s.pageFault (g.stash q.sub q.prior) (kind.getD (faultKind i)) q.pc q.sub vas with cur := none }

/-! ### Before the meaning -/

/-- R209: an instruction outside unit MTX names a vector register that a CRD or QNT of an unretired batch will write. -/
def protectedHit (q : Q) : Bool :=
  q.sg.unit != .mtx && !q.g.batches.isEmpty && q.sg.vregs.any fun n => q.g.batches.any fun b => b.written.contains n

/-- R421: a source register holds an error that the read consumes; a lane-crossing instruction reads every lane. -/
def badSource (q : Q) : Bool :=
  (!q.g.badV.isEmpty && q.sg.srcV.any fun n => q.g.badV.any fun e =>
    e.1 == n && (q.sg.unit == .xln || q.sg.unit == .mtx || q.act.getLsbD e.2)) ||
  (!q.g.badS.isEmpty && q.sg.srcS.any fun n => q.g.badS.contains n)

/-- R135: the units whose lane results are compared. -/
def checkedUnit (u : UnitKind) : Bool := [UnitKind.int, .fpu, .dpu, .cvt, .xln].contains u

/-- R135, R136, R437: the physical lanes that a disagreement in logical lane L names. -/
def halfLane (h : Half) (p : Nat) : Nat := match h.used with
  | some f => if f ≤ p then p + 1 else p
  | none => p
def Core.physLane (c : Core) (checking : Bool) (pos : Nat) : Nat :=
  let base := if checking then 2 else 0
  let pick := if c.twoPass then (if checking then c.chalf else c.phalf) else decide (32 ≤ pos % 64)
  let h := if pick then 1 else 0
  33 * h + halfLane (c.halves.getD (base + h) {}) (pos % 32)
/-- R136: the disagreements of some runs, by the lanes of each run, name two physical lanes for each logical lane of the group. -/
def State.disagree (s : State) (core : Nat) (g : Group) (runs : List Mask) : State :=
  s.modCore core fun c =>
    let bump (m : List (LaneId × Nat)) (l : LaneId) : List (LaneId × Nat) :=
      if m.any (fun e => e.1 == l) then m.map fun e => if e.1 == l then (l, e.2 + 1) else e else m ++ [(l, 1)]
    let pair (L : Nat) : List LaneId :=
      let pos := g.block * g.width + L
      [{ core, checking := false, lane := c.physLane false pos }, { core, checking := true, lane := c.physLane true (pos + 1) }]
    { c with named := (runs.flatMap fun m => (lanesOf g.width m).flatMap pair).foldl bump c.named, injectRuns := c.injectRuns.drop 1 }

/-- R432: an E_CHECK under R136 or R218 at the core. -/
def State.noteCheck (s : State) (core : Nat) : State := s.modCore core fun c => { c with checks := c.checks ++ [s.time] }

/-- The issue that is under way, for an instruction word: nothing when no subset is issuing (R40, R90). -/
def State.issuing (s : State) (i : Instr) : Option Q :=
  match s.cur, sigOf i, pfxOf i with
  | some c, some sg, some pf =>
    (s.grp? c.gid).map fun g =>
      { core := c.core, g, sub := c.mask, act := g.active pf c.mask, pc := c.pc, pf, sg, stale := c.stale, prior := c.prior }
  | _, _, _ => none
/-- The exception that an issue meets before any lane executes, in the order of R58: register numbers, kinds and widths (R38, R41,
R49), then, where a lane executes, a lost latch (R49), a register that a batch will write (R209), an error in a source (R421). -/
def Q.stops (q : Q) : Option Cause :=
  if !q.sg.fits q.g then some .illegal
  else if q.act == 0#64 then none
  else if q.sg.uses.any (·.latchLost q.g) then some .latch
  else if protectedHit q then some .matrixState
  else if badSource q then some .check
  else none
/-- R135, R136: the runs of an execution that disagree, each with its lanes; none where the first run agrees. A uniform execution
runs on two scalar datapaths, and its disagreement has no lane (log 19). DESIGN CHOICE (log 33): an instruction of unit XLN that writes one
scalar is compared as every other of its unit. -/
def State.disagreement (s : State) (q : Q) : Option (List Mask) :=
  match (s.core q.core).injectRuns with
  | runs :: _ =>
    let bad := ((if q.sg.uniform q.g then runs else runs.map (· &&& q.act)).takeWhile (· != 0#64)).take 3
    if checkedUnit q.sg.unit && !bad.isEmpty then some (if q.sg.uniform q.g then bad.map fun _ => 0#64 else bad) else none
  | [] => none
/-- R106: RCV adds its join entry in a subset in which no lane executes. -/
def actsEmpty : Instr → Bool
  | .rcv _ => true
  | _ => false

/-! ### Waits for budgets and releases (R281, R282, R447) -/

/-- R447: a class of a cluster has used its allowance of a resource. -/
def State.spent (s : State) (cluster cls res : Nat) : Bool :=
  let c := s.cluster cluster
  match c.budgets[cls]? with
  | some b => decide (allowance (c.cap res) (b.share res) ≤ b.used.getD res 0)
  | none => false

/-- What a group waits for in its class's budget. -/
def Group.budgetWait (g : Group) : Option (Nat × Nat) :=
  g.lanes.findSome? fun l => match l.wait with
    | .budget c r => if l.exited then none else some (c, r)
    | _ => none
/-- R447: a class with SPILL may take what no class still within its allowance waits for. -/
def State.spillFree (s : State) (cl cls res : Nat) : Bool :=
  let spill := match (s.cluster cl).budgets[cls]? with
    | some b => b.spill
    | none => false
  let other := s.groups.any fun h => clusterOf h.core == cl && (match h.budgetWait with
    | some (c, r) => c != cls && r == res && !s.spent cl c res
    | none => false)
  -- engines with rounds in flight, and Surveyors with a copy, ask too
  let engines := cls != 2 && !s.spent cl 2 res && s.teams.any fun t => clusterOf (t.cores.headD 0) == cl && !t.rounds.isEmpty
  let copies := cls != 4 && !s.spent cl 4 res && s.survs.any fun e => s.clusterAt e.1 == cl && e.2.ccJob.isSome
  spill && !other && !engines && !copies
/-- R263, R447: the engines and Surveyors of a class do nothing more in this period. -/
def State.stalled (s : State) (cl cls : Nat) : Bool := [0, 1, 2].any fun r => s.spent cl cls r && !s.spillFree cl cls r
/-- R447: the first of some resources of which a class gives a group's request nothing. -/
def State.withheld (s : State) (q : Q) (rs : List Nat) (cls : Nat) : Option Nat :=
  rs.find? fun r => s.spent (clusterOf q.core) cls r && !(q.g.spill && s.spillFree (clusterOf q.core) cls r)
/-- R444: what an instruction asks of classes as it issues, by class and resource: its energy, for an engine's load or store its traffic,
for a put its router slots. A lane's access asks for its traffic with its request entries (R282). -/
def workAsks (i : Instr) (q : Q) : List (Nat × Nat) :=
  (q.workClass, 2) :: match i with
    | .tld _ => [(1, 0), (1, 1)]
    | .tst _ => [(1, 0), (1, 1)]
    | .cbload _ => [(1, 0), (1, 1)]
    | .put _ => [(0, 0)]
    | .puts _ => [(2, 0), (2, 2)]
    | _ => []
/-- R281: the scope of the release that an instruction makes (R111, R257, R272, R311, R360, R378, R393). -/
def relScope (i : Instr) : Option Nat :=
  let acc (o : FM) : Option Nat := if isRel (fmOrd o) then some (fmScope o) else none
  match i with
  | .st o => acc o
  | .atom o => acc o
  | .cas o => acc o
  | .fence o => if o.mod.toNat / 2 % 4 == 1 then none else some (fyScope o)
  | .tbar _ => some 2
  | .stage _ => some 2
  | .cpy _ => some 2
  | .send _ => some 2
  | .sendx _ => some 4
  | .task _ => some 4
  | .sheet _ => some 4
  | .sys _ => some 4
  | .sysa _ => some 4
  | .sysw _ => some 4
  | _ => none
/-- What an instruction waits for before it does anything: its class's allowance (R447), or what its release needs (R281, R282). -/
def State.workWait (s : State) (i : Instr) (q : Q) : Option Wait :=
  match (workAsks i q).find? fun e => (s.withheld q [e.2] e.1).isSome with
  | some e => some (.budget e.1 e.2)
  | none => (relScope i).bind fun sc => s.releaseWait q.core q.g.id q.sub sc (s.pairedOf q.g)

/-! ### Line requests of an instruction (R276, R277, R280, R282, R297) -/

/-- R282, R447: the entries that an instruction's accesses take, or the subset waits; it waits too while its class has used its
allowance of NoC slots or HBM units and is given nothing that others leave idle. The traffic is charged (R445). -/
def withLines (q : Q) (s : State) (u : LineUse) (as : List (Nat × Nat)) (k : State → Res) : Res :=
  match s.withheld q (if as.isEmpty then [] else [0, 1]) q.workClass with
  | some r => .wait (.budget q.workClass r) s
  | none =>
    let need := (s.core q.core).entriesFor u as
    match s.takeLines q.core q.g.id q.sub (u != .load) need with
    | none => .wait (.request need.eraseDups.length) s
    | some t => k (t.chargeLines (clusterOf q.core) q.workClass need)

/-- R276, R297: the aligned 8-byte granules that the group has read are brought up to date on its read-only path, so that no later
LDRO of it returns an older write, or parts of two. -/
def State.freshen (s : State) (gid : Nat) (as : List (Nat × Nat)) : State :=
  let one (m : Mem) (e : Nat × Nat) : Mem :=
    let a := e.1 / 8 * 8
    m.store a (s.mem.bulk a ((e.1 + e.2 + 7) / 8 * 8 - a))
  s.modGrp gid fun g => { g with roMem := g.roMem.map fun m => as.foldl one m }

/-- The pieces of physical segments by line. -/
def linePieces (ss : List (Nat × Nat)) : List (Nat × Nat) :=
  ss.flatMap fun e => if e.2 == 0 then [] else (List.range ((e.1 + e.2 - 1) / 128 - e.1 / 128 + 1)).map fun i =>
    let lo := max e.1 ((e.1 / 128 + i) * 128)
    (lo, min (e.1 + e.2) ((e.1 / 128 + i + 1) * 128) - lo)
/-- A load of pieces by the group: L1, snoop filter, read-only path (R277, R280, R297). -/
def State.loadPieces (s : State) (q : Q) (as : List (Nat × Nat)) : State :=
  ((s.useCaches q.core .load as []).filterLines (linesOf as) false).freshen q.g.id as
/-- R421: a piece meets a word of the L1 that fails its check. -/
def State.l1BadAny (s : State) (core : Nat) (as : List (Nat × Nat)) (part : Bool) : Bool :=
  !(s.core core).badL1.isEmpty && as.any fun e => (s.core core).l1Bad e.1 e.2 part

/-- The state with the group replaced. -/
def Res.grp (s : State) (g : Group) : Res := .ok (s.setGrp g)

end Sys2Proof.Machine
end

