-- ==== Sys2Proof/Machine/Access.lean ====
section
/-!
DEFINITION. Accesses of lanes and engines to global memory: the checks of R304 and R327 under R493, the physical segments
of a range, and reading them.
-/
namespace Sys2Proof.Machine

/-- What a lane's access meets before it performs. -/
inductive Cond
  | fault (c : Cause) (addr : DWord)
  | miss (vas : List DWord)
  | later
  deriving DecidableEq, Repr

def addrOf (a : Int) : DWord := BitVec.ofInt 64 a

/-- The checks of a range of n bytes at an unbounded address (R304): the address, its alignment, then every page. -/
def State.rangeCond (s : State) (g : Group) (a : Int) (n al : Nat) (acc : Acc) : Option Cond :=
  if a < 0 || (2 ^ 57 : Int) ≤ a then some (.fault .page (addrOf a))
  else if a % al != 0 then some (.fault .align (addrOf a))
  else if (2 ^ 57 : Int) < a + n then some (.fault .page (addrOf a))
  else
    let va := a.toNat
    match s.rangeFault g va n acc with
    | none => none
    | some (.fault c, x) => some (.fault c (BitVec.ofNat 64 x))
    | some (.later, _) => some .later
    | some _ => some (.miss ((pagesOf va n).filterMap fun p =>
        let x := max p va
        if s.route g x acc = .miss then some (BitVec.ofNat 64 x) else none))

/-- R341: what an aligned 8-byte read of a submission page gives; SUBMIT, which is WO, and the reserved bytes read zero. -/
def Queue.pageRead (q : Queue) (off : Nat) : DWord :=
  if off == 128 then q.status
  else if off == 136 then q.done
  else if off == 144 then BitVec.ofNat 64 q.wake
  else if off == 152 then BitVec.ofNat 64 q.answers
  else 0#64
/-- The bytes of the page from an offset on. -/
def Queue.pageBytes (q : Queue) (off n : Nat) : List Byte :=
  (List.range n).map fun i => BitVec.ofNat 8 ((q.pageRead ((off + i) / 8 * 8)).toNat / 2 ^ (8 * ((off + i) % 8)))
/-- R340: the queue whose submission page holds an address of an address space, with the offset in the page. -/
def State.subPage (s : State) (asn : Nat) (a : Int) : Option (Queue × Nat) :=
  s.queues.findSome? fun q => match q.page with
    | some p => if q.asn == asn && (p : Int) ≤ a && a < p + 65536 then some (q, a.toNat - p) else none
    | none => none
/-- Events that come next, the first of them first. -/
def State.soonAll (s : State) (is : List Instr) : State := { s with agenda := is.map Item.ev ++ s.agenda }
/-- An event that a register's write is comes next. -/
def State.soon (s : State) (i : Instr) : State := { s with agenda := .ev i :: s.agenda }

/-- The addresses that a condition asks a shard to serve. -/
def Cond.vas : Cond → List DWord
  | .miss vs => vs
  | _ => []
def Cond.isFault (c : Cause) : Cond → Bool
  | .fault d _ => d == c
  | _ => false

/-- R493: the lowest lane that meets any condition decides; its pages are served with every other lane's. -/
def settleConds (conds : List (Nat × Option Cond)) (s : State) (k : Unit → Res) : Res :=
  match (conds.findSome? fun e => e.2 : Option Cond) with
  | none => k ()
  | some .later => .wait .walk s
  | some (.fault c a) =>
    .trap c (Mask.ofLanes ((conds.filter fun e => match e.2 with
      | some d => d.isFault c
      | none => false).map (·.1))) a 0 s
  | some (.miss _) => .pages (conds.flatMap fun e => match e.2 with
      | some d => d.vas.map fun v => (e.1, v)
      | none => []) s none

/-- The same for an instruction that executes once: the fault is the subset's. -/
def settleU (q : Q) (cond : Option Cond) (s : State) (k : Unit → Res) : Res :=
  match cond with
  | none => k ()
  | some .later => .wait .walk s
  | some (.fault c a) => .trap c q.sub a 0 s
  | some (.miss vs) => .pages (vs.map fun v => (lowest q.act, v)) s none

/-- The physical segments, in order, of a range that passes its checks. -/
def State.segs (s : State) (g : Group) (va n : Nat) (acc : Acc) : List (Nat × Nat) :=
  (pagesOf va n).filterMap fun p =>
    let x := max p va
    match s.route g x acc with
    | .pa q => some (q, min (p + 65536) (va + n) - x)
    | _ => none

/-- The bytes of physical segments. -/
def Mem.segLoad (m : Mem) (ss : List (Nat × Nat)) : List Byte := ss.flatMap fun e => m.bulk e.1 e.2
/-- A read of the segments consumes an uncorrectable error (R421). -/
def State.segBad (s : State) (ss : List (Nat × Nat)) : Bool := !s.bad.isEmpty && ss.any fun e => s.badRead e.1 e.2
/-- Pairs of a physical address and the bytes to store there, from segments and the bytes of the range. -/
def splitSegs : List (Nat × Nat) → List Byte → List (Nat × List Byte)
  | [], _ => []
  | (pa, n) :: ss, bs => (pa, bs.take n) :: splitSegs ss (bs.drop n)

/-- Fill the TLBs for the pages of a range (R322). -/
def State.touchRange (s : State) (g : Group) (va n : Nat) (acc : Acc) : State :=
  (pagesOf va n).foldl (fun t p => t.touch g (max p va) acc) s

/-- Sign extension of a 24-bit offset (R304, R265). -/
def off24 (x : BitVec 24) : Int := x.toInt

/-- A term of a global address in a lane (R304): 64 bits, unsigned; an immediate has its signed value; a vector register
in BASE is a pair and in INDEX 32 bits. -/
def Group.term (g : Group) (o : Opnd) (pair : Bool) (L : Nat) : Int :=
  match o with
  | .imm x => x.toInt
  | .v _ => (g.rd o (if pair then 2 else 1) L).toNat
  | _ => (g.rd o 2 L).toNat

/-- A copy of R248: 64-bit wrap of a row address. -/
def wrap64 (a : Int) : Int := a % 2 ^ 64

/-! ### Scratchpad chunks (R237 to R244) -/

/-- The chunks that a range of offsets touches. -/
def chunksOf (o n : Nat) : List Nat :=
  if n == 0 then [] else (List.range ((o + n - 1) / 512 - o / 512 + 1)).map (o / 512 + ·)
/-- The recorded fault of the lowest failed chunk of a list (R244). -/
def Team.failedIn (t : Team) (cs : List Nat) : Option (Nat × Cause × DWord) :=
  if t.failed.isEmpty then none
  else (t.failed.filter fun e => cs.contains e.1).foldl (fun b e => match b with
    | none => some e
    | some x => if e.1 < x.1 then some e else some x) none
def Team.anyAbsent (t : Team) (cs : List Nat) : Bool := !t.absent.isEmpty && cs.any t.absent.contains
/-- R107, R244: an instruction names chunks of which some have failed. -/
def State.nameFailed (s : State) (team : Nat) (cs : List Nat) : State :=
  s.modTeam team fun t => { t with named := (t.named ++ cs.filter fun c => t.failed.any fun e => e.1 == c).eraseDups }
/-- R107, R256: the failed chunks that no instruction has named. -/
def Team.unnamed (t : Team) : List Nat := (t.failed.map (·.1)).filter fun c => !t.named.contains c
/-- R421: a scratchpad read that consumes an uncorrectable error. -/
def Team.badIn (t : Team) (o n : Nat) : Bool :=
  !t.bad.isEmpty && t.bad.any fun w => decide (4 * w < o + n) && decide (o < 4 * w + 4)
/-- R491: a scratchpad write of part of a bad word. -/
def Team.badPart (t : Team) (o n : Nat) : Bool :=
  !t.bad.isEmpty && t.bad.any fun w =>
    decide (4 * w < o + n) && decide (o < 4 * w + 4) && !(decide (o ≤ 4 * w) && decide (4 * w + 4 ≤ o + n))
/-- A scratchpad write, which a load of the chunk sees whatever else it sees (R258): bytes, and words made good again. -/
def Team.scratchStore (t : Team) (o : Nat) (bs : List Byte) : Team :=
  { t with scratch := t.scratch.store o bs
           older := if t.landed.isEmpty then t.older else t.older.store o bs
           bad := if t.bad.isEmpty then [] else t.bad.filter fun w => !(decide (o ≤ 4 * w) && decide (4 * w + 4 ≤ o + bs.length)) }
/-- R251, R258: a fetch fills a chunk; until a group has seen what it brought, a load that nothing orders after it may find what stood
there before. -/
def Team.landChunk (t : Team) (c : Nat) (ps : List (Nat × List Byte)) : Team :=
  { ps.foldl (fun (u : Team) e => u.scratchStore e.1 e.2) { t with landed := [] } with
    older := t.older.store (512 * c) (t.scratch.bulk (512 * c) 512), landed := t.landed.filter (· != c) ++ [c] }
/-- R258: a group has seen what fetches brought into chunks. -/
def Team.seeChunks (t : Team) (cs : List Nat) : Team := { t with landed := t.landed.filter fun c => !cs.contains c }

end Sys2Proof.Machine
end

