-- ==== Sys2Proof/Machine/Fetch.lean ====
section
/-!
DEFINITION. Fetching (R21 to R29), kernel headers (R72), checked transfers (R27, R28, R95) and the picker (R90, R91).
-/
namespace Sys2Proof.Machine

/-- The 64 bytes of the line at an address, or why they cannot be fetched. -/
inductive LineRes
  | bytes (bs : List Byte) (pa : Nat)
  | fault (c : Cause)
  | miss
  | later
  deriving DecidableEq, Repr

def State.fetchLine (s : State) (g : Group) (line : DWord) : LineRes :=
  match s.route g line.toNat .x with
  | .pa p => .bytes (s.mem.bulk p 64) p
  | .fault c => .fault c
  | .miss => .miss
  | .later => .later

/-- R72: the header fields of a line, valid or not. -/
def parseHeader (bs : List Byte) : Option Header :=
  let f (off n : Nat) : Nat := fieldAt bs off n
  let team := f 3 1
  let paired := decide (128 ≤ team)
  if f 0 2 == 9 && [16, 32, 64].contains (f 2 1) && team / 32 % 4 == 0 && decide (1 ≤ team % 32) && decide (team % 32 ≤ 16) &&
      decide (1 ≤ f 4 2) && decide (f 4 2 ≤ 256) && decide (f 6 2 ≤ 128) && decide (f 8 2 < 16) && f 10 2 == 0xFFC0 &&
      f 12 4 % 512 == 0 && decide (f 12 4 ≤ (if paired then 1048576 else 524288)) &&
      ((bs.drop 16).take 44).all (· == 0#8) && f 60 2 == 0 && lineParOk bs then
    some { width := f 2 1, vcount := f 4 2, scount := f 6 2, team := team, scratch := f 12 4, flags := f 8 2 }
  else none

def Header.groups (h : Header) : Nat := h.team % 32
def Header.paired (h : Header) : Bool := decide (128 ≤ h.team)
def Header.gang (h : Header) : Bool := h.flags.testBit 0
def Header.immio (h : Header) : Bool := h.flags.testBit 1
def Header.capt (h : Header) : Bool := h.flags.testBit 2
def Header.waypt (h : Header) : Bool := h.flags.testBit 3

/-- What a destination meets (R28). -/
inductive DestRes
  | ok
  | marked
  | fault (c : Cause)
  | miss
  | later
  deriving DecidableEq, Repr

/-- R28 step 4; R95: under WAYPT the destination slot must hold WAYPT. -/
def Group.mayEnter (g : Group) (bs : List Byte) (slot : Nat) : Bool :=
  lineTgt bs slot && (!g.waypt || (match decode (lineSlot bs slot) with
    | .ok (.waypt _) => true
    | _ => false))
/-- R28 for one destination. -/
def State.checkDest (s : State) (g : Group) (dest : DWord) : DestRes :=
  if !pcOk dest then .fault .target
  else match s.fetchLine g (lineBase dest) with
    | .miss => .miss
    | .later => .later
    | .fault c => .fault c
    | .bytes bs _ =>
      if !lineParOk bs then .marked
      else if !g.mayEnter bs (slotOf dest) then .fault .target
      else .ok

/-- R28, R493 over the destinations of lanes, with what the call stack of a lane then meets (R104): an exception, pages to
serve, a wait, or the lanes bound for lines that failed parity. -/
def State.checkDests (s : State) (q : Q) (ls : List Nat) (dest : Nat → Option DWord) (stack : Nat → Option Cause) :
    Except Res Mask :=
  let rs : List (Nat × DestRes) := ls.map fun L =>
    let r : DestRes := match dest L with
      | some d => s.checkDest q.g d
      | none => .ok
    (L, match r, stack L with
      | .ok, some c => .fault c
      | .marked, some c => .fault c
      | x, _ => x)
  let bad := rs.find? fun e => match e.2 with
    | .ok => false
    | .marked => false
    | _ => true
  match bad with
  | some (_, .fault c) =>
    .error (.trap c (Mask.ofLanes ((rs.filter fun e => e.2 == .fault c).map (·.1))) 0#64 0 s)
  | some (_, .later) => .error (.wait .walk s)
  | some (_, _) =>
    .error (.pages ((rs.filter fun e => e.2 == .miss).map fun e => (e.1, lineBase ((dest e.1).getD 0#64))) s (some 3))
  | none => .ok (Mask.ofLanes ((rs.filter fun e => e.2 == .marked).map (·.1)))

/-! ### The picker (R90, R91) -/

/-- The ready subsets of a group, by their lowest lanes; one that STALL or a wrong branch hint holds back is not among them
(R43, R54). -/
def Group.readySubs (g : Group) : List Mask :=
  (((lanesOf g.width g.readyLanes).map g.subsetAt).eraseDups).filter fun m =>
    (lanesOf g.width m).all fun L => (g.lane L).stall == 0

/-- R44, R91: the ready subset that a group issues next: one passed over 64 times, else the lowest program counter, and
not the one that yielded when there is another. -/
def Group.pickSub (g : Group) : Option Mask :=
  let subs := g.readySubs
  let pool := match g.yieldTo with
    | some m => if subs.any (fun x => x &&& m == 0#64) then subs.filter (fun x => x &&& m == 0#64) else subs
    | none => subs
  match pool.find? fun m => decide (64 ≤ (g.lane (lowest m)).skipped) with
  | some m => some m
  | none => pool.foldl (fun best m => match best with
    | none => some m
    | some b => if (g.lane (lowest m)).pc.toNat < (g.lane (lowest b)).pc.toNat then some m else some b) none

/-- R47, R91: the subset whose chain is not broken, if it is ready. -/
def Group.chainSub (g : Group) : Option Mask :=
  match g.chain with
  | some (m, line) =>
    match g.readySubs.find? fun x => x &&& m != 0#64 with
    | some x => if lineBase (g.lane (lowest x)).pc == line then some x else none
    | none => none
  | none => none

/-- R83, R91: a group may issue in this 10 ns, and no other group whose block overlaps its own is in an unbroken chain. -/
def State.mayIssue (s : State) (core : Nat) (gs : List Group) (g : Group) : Bool :=
  decide ((s.core core).aheadOf g < ckIn10ns (s.cluster (clusterOf core)).step) && !g.readySubs.isEmpty &&
  gs.all fun h => h.id == g.id || !g.overlaps h || h.chainSub.isNone
/-- R83, R91: the group and subset that a core issues next: of the groups whose blocks have issued least, the one whose chain goes
on, else the first of the rotation. DESIGN CHOICE (log 33): groups that have never issued come first in the rotation, the others by their
last issue. -/
def State.pick (s : State) (core : Nat) : Option (Nat × Mask) :=
  if (s.core core).nextHalves.isSome || s.thermal then none
  else
    let all := s.groups.filter fun g => g.core == core && g.canIssue
    let open_ := all.filter (s.mayIssue core all)
    let least := open_.foldl (fun m g => min m ((s.core core).aheadOf g)) (ckIn10ns 0)
    let gs := open_.filter fun g => (s.core core).aheadOf g == least
    match gs.findSome? fun g => g.chainSub.map fun m => (g.id, m) with
    | some r => some r
    | none =>
      let rot := (s.core core).rot
      let order := (gs.filter fun g => !rot.contains g.id) ++ rot.filterMap fun id => gs.find? fun g => g.id == id
      order.findSome? fun g => g.pickSub.map fun m => (g.id, m)

/-- The counts of R91: the subsets of the group that were ready and are passed over. -/
def Group.countSkips (g : Group) (m : Mask) : Group :=
  let ready := g.readyLanes
  { g with lanes := g.lanes.mapIdx fun L l =>
      if m.getLsbD L then { l with skipped := 0 }
      else if ready.getLsbD L then { l with skipped := l.skipped + 1 } else { l with skipped := 0 } }

/-- R47, R48: a chain break before this issue when the subset or the fetch line differs. -/
def Group.chainCheck (g : Group) (m : Mask) (pc : DWord) : Group :=
  match g.chain with
  | some (c, line) => if c &&& m != 0#64 && line == lineBase pc then g else { g.loseLatches with chain := none }
  | none => g

/-- The subset that a core issues, set as the current one, with the passed-over counts and the chain (R47, R91). -/
def State.beginIssue (s : State) (core : Nat) (stale : Bool) : Option (State × Issue) :=
  match s.pick core with
  | none => none
  | some (gid, m) =>
    match s.grp? gid with
    | none => none
    | some g =>
      let pc := (g.lane (lowest m)).pc
      let c : Issue := { core, gid, mask := m, pc, stale }
      let h := (g.countSkips m).chainCheck m pc
      match h.kept.find? fun e => e.1 &&& m != 0#64 with
      | none => some ({ s.setGrp h with cur := some c }, c)
      | some e =>
        let c1 := { c with prior := some h.latches }
        let h1 := { h with latches := e.2, kept := h.kept.filter fun x => x.1 &&& m == 0#64 }
        some ({ s.setGrp h1 with cur := some c1 }, c1)

/-- What a fetch finds at the slot of a subset (R25 to R27, R56, R58). -/
inductive FetchRes
  | instr (i : Instr)
  | fault (c : Cause)
  | miss
  | later
  deriving DecidableEq, Repr

/-- What the slot of a subset holds. `due` is an exception that its lanes raise there (R28, R381). -/
def State.fetch (s : State) (g : Group) (pc : DWord) (due : Option Cause) : FetchRes :=
  if due == some .access then .fault .access
  else match s.fetchLine g (lineBase pc) with
  | .miss => .miss
  | .later => .later
  | .fault c => .fault c
  | .bytes bs pa =>
    if s.badRead pa 64 then .fault .check
    else if due.isSome || !lineParOk bs then .fault .fetch
    else if !lineReservedOk bs then .fault .illegal
    else match decode (lineSlot bs (slotOf pc)) with
      | .ok i => if g.entryDue && !g.mayEnter bs (slotOf pc) then .fault .target else .instr i
      | .error _ => .fault .illegal

/-- The outcome of an issue whose fetch meets a fault, a page that is not mapped, or a walk that waits. -/
def State.fetchFails (s : State) (c : Issue) (r : FetchRes) : State :=
  match s.grp? c.gid with
  | none => { s with cur := none }
  | some g =>
    match r with
    | .fault f => { s.takeException ((g.stash c.mask c.prior).modLanes c.mask fun _ l => { l with due := none }) f c.pc c.mask c.mask 0#64 0 with cur := none }
    | .miss => { s.pageFault (g.stash c.mask c.prior) 3 c.pc c.mask ((lanesOf g.width c.mask).map fun L => (L, lineBase c.pc)) with cur := none }
    | .later => { (s.setGrp ((g.stash c.mask c.prior).waitAt c.mask .walk)).enqueueWait g c.mask .walk with cur := none }
    | .instr _ => { s with cur := none }

end Sys2Proof.Machine
end

