-- ==== Sys2Proof/Machine/Run.lean ====
section
/-!
DEFINITION. Running a meaning for the subset that issues, with the checks before it in the order of R58; the destinations of transfers
(R28, R103, R104), which those checks look at.
-/
namespace Sys2Proof.Machine

/-! ### Destinations (R28, R32, R103, R104) -/

/-- R32: the destination of a direct transfer. -/
def directDest (o : FB) (pc : DWord) : DWord :=
  lineBase pc + (o.loff.signExtend 64 <<< 6) + BitVec.ofNat 64 (12 * o.slot.toNat)

/-- How a transfer finds its destination. -/
inductive XferKind | direct | indirect | ret
  deriving DecidableEq, Repr

/-- The destination of a lane that goes; none for a RET with an empty call stack. -/
def xferDest (k : XferKind) (o : FB) (q : Q) (L : Nat) : Option DWord :=
  match k with
  | .direct => some (directDest o q.pc)
  | .indirect => some (q.g.rd o.reg 2 L)
  | .ret => (q.g.lane L).stack.head?

/-- What a lane's call stack meets (R104). -/
def stackCheck (k : XferKind) (push : Bool) (q : Q) (L : Nat) : Option Cause :=
  if push && 64 ≤ (q.g.lane L).stack.length then some .illegal
  else if k == .ret && (q.g.lane L).stack.isEmpty then some .target
  else none

/-- The destinations that an instruction checks under R28: the lanes, their destinations, and what a call stack meets. -/
def destsOf (i : Instr) (q : Q) : Option (List Nat × (Nat → Option DWord) × (Nat → Option Cause)) :=
  let goes (o : FB) : List Nat := lanesOf q.g.width (maskOf q.g.width fun L => q.act.getLsbD L && condHolds o q.g L)
  match i with
  | .bra o => some (goes o, xferDest .direct o q, stackCheck .direct false q)
  | .bri o => some (goes o, xferDest .indirect o q, stackCheck .indirect false q)
  | .call o => some (goes o, xferDest .direct o q, stackCheck .direct true q)
  | .calli o => some (goes o, xferDest .indirect o q, stackCheck .indirect true q)
  | .rcv o => some (goes o, xferDest .direct o q, stackCheck .direct false q)
  | .ret o => some (lanesOf q.g.width q.act, xferDest .ret o q, stackCheck .ret false q)
  | .spawn o => some (lanesOf q.g.width q.act, fun _ => some (directDest o q.pc), fun _ => none)
  | _ => none
/-- R58: E_TARGET under the steps of R28 comes before a lost latch and before what the instruction's execution meets. A destination that
stands in a lost latch has no value to check. -/
def State.targetFirst (s : State) (i : Instr) (q : Q) : Option Res :=
  match destsOf i q with
  | none => none
  | some (ls, dest, stack) =>
    if match i with
      | .bri _ => q.sg.uses.any (·.latchLost q.g)
      | .calli _ => q.sg.uses.any (·.latchLost q.g)
      | _ => false
    then none
    else match s.checkDests { q with g := { q.g with waypt := q.g.waypt && !isSpawn i } } ls dest stack with
      | .error (.trap .target lanes a code u) => some (.trap .target lanes a code u)
      | _ => none
where
  isSpawn : Instr → Bool
    | .spawn _ => true
    | _ => false

/-! ### Running a meaning -/

/-- Run a meaning for the subset that issues: the checks, an empty execution under R42, the class's allowance (R447), the comparison of the
pipes, then the meaning. -/
def runI (i : Instr) (body : Q → State → Res) (s : State) : Host.Outcome State Fault Refusal :=
  match s.issuing i with
  | none => .refused .noIssuer
  | some q =>
    match q.stops with
    | some c => settleRes i q 0 (if c == .illegal then trapAll q c s else (s.targetFirst i q).getD (trapAll q c s))
    | none =>
      if q.act == 0#64 && !actsEmpty i then settleRes i q 0 (.ok s)
      else if q.act == 0#64 then settleRes i q 0 (body q s)
      else
        match s.workWait i q, s.disagreement q with
        | some w, _ => settleRes i q 0 (.wait w s)
        | none, some runs =>
          let s1 := s.disagree q.core q.g runs
          if 3 ≤ runs.length then settleRes i q 2 (.trap .check q.act 0#64 0 (s1.noteCheck q.core)) else settleRes i q runs.length (body q s1)
        | none, none => settleRes i q 0 (body q s)

end Sys2Proof.Machine
end

