-- ==== Sys2Proof/Machine/Int.lean ====
section
/-!
DEFINITION. Integer instructions (R138 to R147): exact integers, then wrapping or saturation.
-/
namespace Sys2Proof.Machine

/-- A lane instruction: D := f in each lane of `active`, or once for the group (R128), with the flags. -/
def laneOp (d : Opnd) (w : Nat) (signed : Bool) (f : Group → Nat → LaneRes) (q : Q) (s : State) : Res :=
  let rs := (List.range q.g.width).map (f q.g)
  .grp s ((q.g.put q.pf d w signed q.act (rs.map (·.v))).orFlags q.act (flagsFor (q.sg.uniform q.g) q.act rs))

/-- An operand of width w (1 or 2) as an integer of the type (R139). -/
def rdI (g : Group) (o : Opnd) (w : Nat) (signed : Bool) (L : Nat) : Int := readInt (g.rd o w L).toNat (32 * w) signed
/-- An N-wide operand of an integer instruction. -/
def ia (o : F5) (x : Opnd) (g : Group) (L : Nat) : Int := rdI g x (ivW o) (ivSigned o) L
/-- A 32-bit position, count or length operand, unsigned (R140). -/
def rdP (g : Group) (o : Opnd) (L : Nat) : Nat := (lo32 (g.rd o 1 L)).toNat
def ivN (o : F5) : Nat := 32 * ivW o

/-- R139 for an exact integer of the operands: D is N wide. -/
def intOp (o : F5) (f : Group → Nat → Int) (q : Q) (s : State) : Res :=
  laneOp o.d (ivW o) (ivSigned o) (fun g L => intRes (f g L) (ivN o) (ivSigned o) (ivSat o)) q s

def execIadd (o : F5) (s : State) := runI (.iadd o) (intOp o fun g L => ia o o.a g L + ia o o.b g L) s
def execIsub (o : F5) (s : State) := runI (.isub o) (intOp o fun g L => ia o o.a g L - ia o o.b g L) s

/-- R141: the sum with carry in; the carry out goes to predicate E. -/
def iaddcSum (o : F5) (g : Group) (L : Nat) : Int := ia o o.a g L + ia o o.b g L + (if (g.rd o.c 1 L) == 1#64 then 1 else 0)
/-- R141. DESIGN CHOICE (log 33): NWB keeps the sum from its register (R128); the carry still goes to predicate E. -/
def execIaddc (o : F5) (s : State) :=
  runI (.iaddc o) (fun q s =>
    match intOp o (iaddcSum o) q s with
    | .ok t => .ok (t.modGrp q.g.id fun g =>
        g.putBool q.pf o.e q.act ((List.range g.width).map fun L => decide (2 ^ ivN o ≤ iaddcSum o q.g L)))
    | r => r) s

def execImul (o : F5) (s : State) := runI (.imul o) (intOp o fun g L => ia o o.a g L * ia o o.b g L) s
/-- R140: the high half of the product, floored. -/
def execImulh (o : F5) (s : State) :=
  runI (.imulh o) (intOp o fun g L => (ia o o.a g L * ia o o.b g L) / 2 ^ ivN o) s
def execImad (o : F5) (s : State) :=
  runI (.imad o) (intOp o fun g L => ia o o.a g L * ia o o.b g L + ia o o.c g L) s
/-- R140: 32-bit factors, a 64-bit addend and result. -/
def execImadw (o : F5) (s : State) :=
  runI (.imadw o) (laneOp o.d 2 (ivSigned o) fun g L =>
    intRes (rdI g o.a 1 (ivSigned o) L * rdI g o.b 1 (ivSigned o) L + rdI g o.c 2 (ivSigned o) L) 64 (ivSigned o) (ivSat o)) s

/-- R142: the quotient toward zero and its edge cases. -/
def idivRes (o : F5) (a b : Int) : LaneRes :=
  if b == 0 then { v := intBits (-1) (ivN o), fl := flDZ } else intRes (Int.tdiv a b) (ivN o) (ivSigned o) (ivSat o)
def iremRes (o : F5) (a b : Int) : LaneRes :=
  if b == 0 then { v := intBits a (ivN o), fl := flDZ } else { v := intBits (Int.tmod a b) (ivN o) }
def execIdiv (o : F5) (s : State) :=
  runI (.idiv o) (laneOp o.d (ivW o) (ivSigned o) fun g L => idivRes o (ia o o.a g L) (ia o o.b g L)) s
def execIrem (o : F5) (s : State) :=
  runI (.irem o) (laneOp o.d (ivW o) (ivSigned o) fun g L => iremRes o (ia o o.a g L) (ia o o.b g L)) s

/-- R143. -/
def shlInt (n : Nat) (a : Int) (c : Nat) : Int := if c < n then a * 2 ^ c else 0
def shrInt (n : Nat) (a : Int) (c : Nat) : Int := a / 2 ^ (min c n)
def sraInt (n : Nat) (a : Int) (c : Nat) : Int := a / 2 ^ (min c (n - 1))
def rotInt (n : Nat) (right : Bool) (a : Int) (c : Nat) : Int :=
  let r := if right then (n - c % n) % n else c % n
  let x := a.toNat
  ((x * 2 ^ r) % 2 ^ n + x / 2 ^ (n - r) : Nat)
def execIshl (o : F5) (s : State) := runI (.ishl o) (intOp o fun g L => shlInt (ivN o) (ia o o.a g L) (rdP g o.b L)) s
def execIshr (o : F5) (s : State) := runI (.ishr o) (intOp o fun g L => shrInt (ivN o) (ia o o.a g L) (rdP g o.b L)) s
def execIsra (o : F5) (s : State) := runI (.isra o) (intOp o fun g L => sraInt (ivN o) (ia o o.a g L) (rdP g o.b L)) s
def execIrot (o : F5) (s : State) :=
  runI (.irot o) (intOp o fun g L => rotInt (ivN o) (ivOpx o == 1) (ia o o.a g L) (rdP g o.b L)) s

/-- R144: bit i of the result is bit 4 aᵢ + 2 bᵢ + cᵢ of the table. -/
def truth (t : BitVec 8) (a b c : Bool) : Bool :=
  t.getLsbD ((if a then 4 else 0) + (if b then 2 else 0) + (if c then 1 else 0))
def logic64 (t : BitVec 8) (a b c : DWord) : DWord :=
  let pick (i : Nat) (x y z : DWord) : DWord := if t.getLsbD i then x &&& y &&& z else 0#64
  pick 7 a b c ||| pick 6 a b (~~~c) ||| pick 5 a (~~~b) c ||| pick 4 a (~~~b) (~~~c) |||
  pick 3 (~~~a) b c ||| pick 2 (~~~a) b (~~~c) ||| pick 1 (~~~a) (~~~b) c ||| pick 0 (~~~a) (~~~b) (~~~c)
def execLogic (o : F5) (s : State) :=
  runI (.logic o) (laneOp o.d (ivW o) false fun g L =>
    let r := logic64 o.imm8 (g.rd o.a (ivW o) L) (g.rd o.b (ivW o) L) (g.rd o.c (ivW o) L)
    { v := if ivW o == 2 then r else (lo32 r).setWidth 64 }) s

/-- R145: BFX of an N-bit value. -/
def bfxInt (n : Nat) (signed : Bool) (a p len : Nat) : Int :=
  let len := min len n
  if len == 0 then 0
  else
    let sgn := signed && a.testBit (n - 1)
    let wide : Nat := if sgn then a + (2 ^ (2 * n + 256) - 2 ^ n) else a
    readInt (wide / 2 ^ p) len signed
/-- R145: BFI. -/
def bfiNat (n a b p len : Nat) : Nat :=
  let len := min len n
  if n ≤ p || len == 0 then b
  else
    let m := (2 ^ len - 1) * 2 ^ p % 2 ^ n
    (b &&& (2 ^ n - 1 - m)) + ((a * 2 ^ p) &&& m)
def execBfx (o : F5) (s : State) :=
  runI (.bfx o) (intOp o fun g L =>
    bfxInt (ivN o) (ivSigned o) (g.rd o.a (ivW o) L).toNat (rdP g o.b L % 256) (rdP g o.c L % 256)) s
def execBfi (o : F5) (s : State) :=
  runI (.bfi o) (intOp o fun g L =>
    (bfiNat (ivN o) (g.rd o.a (ivW o) L).toNat (g.rd o.b (ivW o) L).toNat (rdP g o.c L % 256) (rdP g o.e L % 256) : Nat)) s

/-- Number of one bits among the n low bits. -/
def popc : Nat → Nat → Nat
  | 0, _ => 0
  | n + 1, x => x % 2 + popc n (x / 2)
/-- Trailing zero bits among the n low bits; n when all are zero. -/
def ctz : Nat → Nat → Nat
  | 0, _ => 0
  | n + 1, x => if x % 2 == 1 then 0 else 1 + ctz n (x / 2)
/-- The n low bits in reverse order. -/
def brev : Nat → Nat → Nat
  | 0, _ => 0
  | n + 1, x => (x % 2) * 2 ^ n + brev n (x / 2)
def clz (n x : Nat) : Nat := ctz n (brev n x)
/-- POPC, CLZ, CTZ: one 32-bit result (R140). -/
def countOp (o : F5) (f : Nat → Nat → Nat) (q : Q) (s : State) : Res :=
  laneOp o.d 1 false (fun g L => { v := BitVec.ofNat 64 (f (ivN o) (g.rd o.a (ivW o) L).toNat) }) q s
def execPopc (o : F5) (s : State) := runI (.popc o) (countOp o popc) s
def execClz (o : F5) (s : State) := runI (.clz o) (countOp o clz) s
def execCtz (o : F5) (s : State) := runI (.ctz o) (countOp o ctz) s
def execBrev (o : F5) (s : State) := runI (.brev o) (intOp o fun g L => (brev (ivN o) (g.rd o.a (ivW o) L).toNat : Nat)) s

def execImin (o : F5) (s : State) := runI (.imin o) (intOp o fun g L => min (ia o o.a g L) (ia o o.b g L)) s
def execImax (o : F5) (s : State) := runI (.imax o) (intOp o fun g L => max (ia o o.a g L) (ia o o.b g L)) s
def execIabs (o : F5) (s : State) := runI (.iabs o) (intOp o fun g L => ((ia o o.a g L).natAbs : Int)) s

/-- R146. -/
def icmpRes (cond : Nat) (a b : Int) : Bool :=
  match cond with
  | 0 => a == b
  | 1 => a != b
  | 2 => decide (a < b)
  | 3 => decide (a ≤ b)
  | 4 => decide (b < a)
  | _ => decide (b ≤ a)
/-- D, a predicate or a scalar, := a truth value of each lane (R146). -/
def testOp (d : Opnd) (f : Group → Nat → Bool) (q : Q) (s : State) : Res :=
  .grp s (q.g.putBool q.pf d q.act ((List.range q.g.width).map (f q.g)))
def execIcmp (o : F5) (s : State) :=
  runI (.icmp o) (testOp o.d fun g L => icmpRes (ivOpx o) (ia o o.a g L) (ia o o.b g L)) s

/-- R147: the exact dot product of n packed elements of w bits and an accumulator. -/
def dotSum (n w : Nat) (sa sb : Bool) (a b : Nat) : Int :=
  (List.range n).foldl (fun x k => x + readInt (a / 2 ^ (w * k)) w sa * readInt (b / 2 ^ (w * k)) w sb) 0
def dotOp (o : F5) (n w : Nat) (q : Q) (s : State) : Res :=
  let sa := mbit o.mod 0
  let sb := mbit o.mod 1
  laneOp o.d 1 (sa || sb) (fun g L =>
    intRes (rdI g o.c 1 (sa || sb) L + dotSum n w sa sb (g.rd o.a 1 L).toNat (g.rd o.b 1 L).toNat) 32 (sa || sb) (ivSat o)) q s
def execDot4 (o : F5) (s : State) := runI (.dot4 o) (dotOp o 4 8) s
def execDot8 (o : F5) (s : State) := runI (.dot8 o) (dotOp o 8 4) s

/-! ### Move and predicate (R132, R148 to R152) -/

def execMov (o : F5) (s : State) :=
  runI (.mov o) (laneOp o.d (w64 o.mod 0) false fun g L => { v := g.rd o.a (w64 o.mod 0) L }) s

/-- R149: the value of MOVI over the destination's old 64-bit value. -/
def moviVal (m : Nat) (imm : BitVec 32) (old : DWord) : DWord :=
  match m with
  | 0 => imm.setWidth 64
  | 1 => imm.signExtend 64
  | 2 => hi32 old ++ imm
  | _ => imm ++ lo32 old
def execMovi (o : FRI) (s : State) :=
  runI (.movi o) (laneOp o.d (if o.mod == 0#6 then 1 else 2) false fun g L =>
    { v := moviVal o.mod.toNat o.imm (g.rd o.d 2 L) }) s

/-- R264: the word that %stage reads. -/
def stageWord (t : Team) : DWord :=
  let sum (f : Sched → List Nat) : Nat := match t.sched with
    | some c => (f c).foldl (· + ·) 0 % 65536
    | none => 0
  let fail := match t.sched with
    | some c => c.fail
    | none => false
  BitVec.ofNat 64 (sum (·.done) + 65536 * sum (·.rel) + 2 ^ 32 * t.lastSched +
    (if t.sched.isSome then 2 ^ 40 else 0) + (if fail then 2 ^ 41 else 0))

/-- R437. -/
def halfField (h : Half) : Nat := (if h.used.isSome then 128 else 0) + (if h.lost then 64 else 0) + h.used.getD 0
def lanemapWord (c : Core) : DWord :=
  BitVec.ofNat 64 (halfField (c.halves.getD 0 {}) + 2 ^ 8 * halfField (c.halves.getD 1 {}) + 2 ^ 16 * halfField (c.halves.getD 2 {}) +
    2 ^ 24 * halfField (c.halves.getD 3 {}) + (if c.twoPass then 2 ^ 32 else 0) + (if c.phalf then 2 ^ 33 else 0) +
    (if c.chalf then 2 ^ 34 else 0))
/-- R441. -/
def wearWord (c : Core) (step : Nat) : DWord :=
  let st := match c.wst with
    | .nominal => 0
    | .step1 => 1
    | .step2 => 1
    | _ => 2
  BitVec.ofNat 64 (st + 4 * step + (if c.twoPass then 16 else 0) + 2 ^ 8 * c.rank + 2 ^ 24 * c.di + 2 ^ 32 * c.li)

/-- R131: what a status register reads in a lane. -/
def stVal (s : State) (q : Q) (r : StReg) (L : Nat) : DWord :=
  match r with
  | .lanenum => BitVec.ofNat 64 L
  | .gwidth => BitVec.ofNat 64 q.g.width
  | .groupid => BitVec.ofNat 64 q.g.idx
  | .teamid => BitVec.ofNat 64 q.g.teamid
  | .teamsize => BitVec.ofNat 64 q.g.tsize
  | .sheetid => q.g.sheetid
  | .coreid => BitVec.ofNat 64 q.core
  | .fflags => (q.g.lane L).fflags.setWidth 64
  | .cycle => (s.core q.core).cycle
  | .stage => match s.team? q.g.team with
    | some t => stageWord t
    | none => 0#64
  | .wear => wearWord (s.core q.core) (s.cluster (clusterOf q.core)).step
  | .lanemap => lanemapWord (s.core q.core)

/-- R132: reading into a vector register takes the low 32 bits; a scalar takes all 64. DESIGN CHOICE (log 33): `.clr` clears `%fflags` under
NWB too, where no register is written (R128). -/
def execMovs (o : F5) (s : State) :=
  runI (.movs o) (fun q s =>
    match o.d, o.a with
    | .st _, a => .grp s (q.g.modLanes q.act fun L l => { l with fflags := (q.g.rd a 1 L).extractLsb' 0 6 })
    | d, .st r =>
      let w := if opndKind d == .s then 2 else 1
      let g1 := q.g.put q.pf d w false q.act ((List.range q.g.width).map (stVal s q r))
      .grp s (if mbit o.mod 0 then g1.modLanes q.act fun _ l => { l with fflags := 0#6 } else g1)
    | _, _ => trapAll q .illegal s) s

def execSel (o : F5) (s : State) :=
  runI (.sel o) (laneOp o.d (w64 o.mod 0) false fun g L =>
    { v := if g.rd o.c 1 L == 1#64 then g.rd o.a (w64 o.mod 0) L else g.rd o.b (w64 o.mod 0) L }) s

def execPlog (o : F5) (s : State) :=
  runI (.plog o) (testOp o.d fun g L =>
    truth o.imm8 (g.rd o.a 1 L == 1#64) (g.rd o.b 1 L == 1#64) (g.rd o.c 1 L == 1#64)) s

/-- R152: the sixteen predicates of a lane as a word, p15 as bit 15. -/
def predWord (g : Group) (L : Nat) : DWord :=
  BitVec.ofNat 64 ((List.range 16).foldl (fun a n => a + (if g.p n L then 2 ^ n else 0)) 0)
def execPmov (o : F5) (s : State) :=
  runI (.pmov o) (fun q s =>
    match o.mod.toNat with
    | 0 => testOp o.d (fun g L => g.rd o.a 1 L == 1#64) q s
    | 1 => laneOp o.d 1 false (fun g L => { v := predWord g L }) q s
    | 2 => .grp s ((List.range 15).foldl (fun g n =>
        g.setP n q.act (maskOf g.width fun L => (q.g.rd o.a 1 L).getLsbD n)) q.g)
    | _ => testOp o.d (fun g L => lo32 (g.rd o.a 1 L) != 0#32) q s) s

end Sys2Proof.Machine
end

