-- ==== Sys2Proof/Machine/Float.lean ====
section
/-!
DEFINITION. Floating-point, conversion and packing instructions (R153 to R165).
-/
namespace Sys2Proof.Machine

/-- An immediate as a floating operand: the integer itself, converted exactly (R37). -/
def immF (x : BitVec 8) : FVal := .fin x.msb x.toInt.natAbs 0

/-- A floating operand of a format of width w registers (R37, R126). -/
def rdF (f : Fmt) (w : Nat) (g : Group) (o : Opnd) (L : Nat) : FVal :=
  match o with
  | .imm x => immF x
  | o => f.decode (g.rd o w L).toNat

/-- MOD[1:0] as a rounding mode (R154). -/
def rmF5 (o : F5) : Rm := rmOf (o.mod.toNat % 4)

/-- Round a special-cased result into a format (R153, R154). -/
def fRound (f : Fmt) (rm : Rm) (x : Exact) : LaneRes := fltRes (fpRoundV f x.v rm) x.fl

/-- A binary32 or binary64 instruction: D := round(f(operands)) (R154, R158). -/
def fOp (fm : Fmt) (w : Nat) (o : F5) (f : (Opnd → FVal) → Exact) (q : Q) (s : State) : Res :=
  laneOp o.d w false (fun g L => fRound fm (rmF5 o) (f fun x => rdF fm w g x L)) q s

def execFadd (o : F5) (s : State) := runI (.fadd o) (fOp fp32 1 o fun r => fAddV (r o.a) (r o.b) (rmF5 o)) s
def execFsub (o : F5) (s : State) := runI (.fsub o) (fOp fp32 1 o fun r => fAddV (r o.a) (r o.b).negate (rmF5 o)) s
def execFmul (o : F5) (s : State) := runI (.fmul o) (fOp fp32 1 o fun r => fMulV (r o.a) (r o.b)) s
def execFma (o : F5) (s : State) := runI (.fma o) (fOp fp32 1 o fun r => fFmaV (r o.a) (r o.b) (r o.c) (rmF5 o)) s
def execFrcp (o : F5) (s : State) := runI (.frcp o) (fOp fp32 1 o fun r => fDivV (.fin false 1 0) (r o.a)) s
def execFrsq (o : F5) (s : State) := runI (.frsq o) (fOp fp32 1 o fun r => fRsqV (r o.a)) s
def execFsqrt (o : F5) (s : State) := runI (.fsqrt o) (fOp fp32 1 o fun r => fSqrtV (r o.a)) s
def execFdiv (o : F5) (s : State) := runI (.fdiv o) (fOp fp32 1 o fun r => fDivV (r o.a) (r o.b)) s
def execFexp2 (o : F5) (s : State) := runI (.fexp2 o) (fOp fp32 1 o fun r => fExp2V (r o.a)) s
def execFlog2 (o : F5) (s : State) := runI (.flog2 o) (fOp fp32 1 o fun r => fLog2V (r o.a)) s
def execFsin (o : F5) (s : State) := runI (.fsin o) (fOp fp32 1 o fun r => fSinV (r o.a)) s
def execFcos (o : F5) (s : State) := runI (.fcos o) (fOp fp32 1 o fun r => fCosV (r o.a)) s
def execDadd (o : F5) (s : State) := runI (.dadd o) (fOp fp64 2 o fun r => fAddV (r o.a) (r o.b) (rmF5 o)) s
def execDmul (o : F5) (s : State) := runI (.dmul o) (fOp fp64 2 o fun r => fMulV (r o.a) (r o.b)) s
def execDfma (o : F5) (s : State) := runI (.dfma o) (fOp fp64 2 o fun r => fFmaV (r o.a) (r o.b) (r o.c) (rmF5 o)) s

/-- The format that MOD[0] `.f64` selects (R155 to R157). -/
def selF (o : F5) : Fmt := if mbit o.mod 0 then fp64 else fp32

/-- R155: the code of minimumNumber or maximumNumber of two values. -/
def minMaxRes (f : Fmt) (mx : Bool) (a b : FVal) : LaneRes :=
  let fl := snanFl [a, b]
  if a.isNan && b.isNan then { v := BitVec.ofNat 64 f.canon, fl }
  else
    let left := if a.isNan then false else if b.isNan then true else (fMinLeft a b != mx)
    { v := BitVec.ofNat 64 (fpRoundV f (if left then a else b) .rne).bits, fl }
def minMaxOp (o : F5) (mx : Bool) (q : Q) (s : State) : Res :=
  let w := w64 o.mod 0
  laneOp o.d w false (fun g L => minMaxRes (selF o) mx (rdF (selF o) w g o.a L) (rdF (selF o) w g o.b L)) q s
def execFmin (o : F5) (s : State) := runI (.fmin o) (minMaxOp o false) s
def execFmax (o : F5) (s : State) := runI (.fmax o) (minMaxOp o true) s

/-- R156: the truth value and the flags of each lane. -/
def fcmpAt (o : F5) (g : Group) (L : Nat) : Bool × Flags :=
  fCmp (ivOpx o) (rdF (selF o) (w64 o.mod 0) g o.a L) (rdF (selF o) (w64 o.mod 0) g o.b L)
def execFcmp (o : F5) (s : State) :=
  runI (.fcmp o) (fun q s =>
    let rs := (List.range q.g.width).map (fcmpAt o q.g)
    let fls := rs.map fun r => ({ v := 0#64, fl := r.2 } : LaneRes)
    .grp s ((q.g.putBool q.pf o.d q.act (rs.map (·.1))).orFlags q.act (flagsFor (q.sg.uniform q.g) q.act fls))) s

/-- The bits of a floating operand; an immediate is converted exactly (R37). -/
def rdFBits (f : Fmt) (w : Nat) (g : Group) (o : Opnd) (L : Nat) : Nat :=
  match o with
  | .imm x => (fpRoundV f (immF x) .rne).bits
  | o => (g.rd o w L).toNat
def execFclass (o : F5) (s : State) :=
  runI (.fclass o) (laneOp o.d 1 false fun g L =>
    { v := BitVec.ofNat 64 (fClass (selF o) (rdFBits (selF o) (w64 o.mod 0) g o.a L)) }) s

/-- An element of a packed operand, a subnormal read as zero (R159, R160). -/
def rdH (f : Fmt) (j : Nat) (g : Group) (o : Opnd) (L : Nat) : FVal :=
  match o with
  | .imm x => immF x
  | o => f.decodeFlush ((g.rd o 1 L).toNat / 2 ^ (16 * j) % 65536)
/-- R159: two 16-bit elements, each rounded once. -/
def hOp (o : F5) (f : (Opnd → FVal) → Exact) (q : Q) (s : State) : Res :=
  let fm := if mbit o.mod 2 then bf16 else fp16
  laneOp o.d 1 false (fun g L =>
    let r0 := fRound fm (rmF5 o) (f fun x => rdH fm 0 g x L)
    let r1 := fRound fm (rmF5 o) (f fun x => rdH fm 1 g x L)
    { v := r0.v ||| (r1.v <<< 16), fl := r0.fl ||| r1.fl }) q s
def execHadd2 (o : F5) (s : State) := runI (.hadd2 o) (hOp o fun r => fAddV (r o.a) (r o.b) (rmF5 o)) s
def execHmul2 (o : F5) (s : State) := runI (.hmul2 o) (hOp o fun r => fMulV (r o.a) (r o.b)) s
def execHfma2 (o : F5) (s : State) := runI (.hfma2 o) (hOp o fun r => fFmaV (r o.a) (r o.b) (r o.c) (rmF5 o)) s

/-! ### Convert and pack (R161 to R165) -/

/-- Width in bits and signedness of an integer format code (R161). -/
def cvtInt (code : Nat) : Nat × Bool := (if 12 ≤ code then 64 else 32, code % 2 == 0)

/-- R162: one conversion of a source pattern with a draw. -/
def cvtRes (sf df rm : Nat) (sat : Bool) (bits u : Nat) : LaneRes :=
  let r := if cvtFloat sf then
      if cvtFloat df then cvtFF sf df bits (rmOf rm) sat u
      else cvtFI ((fmtOf sf).decodeFlush bits) (cvtInt df).1 (cvtInt df).2 (rmOf rm)
    else
      let x := readInt bits (cvtInt sf).1 (cvtInt sf).2
      if cvtFloat df then cvtIF x df (rmOf rm) sat else cvtII x (cvtInt df).1 (cvtInt df).2 sat
  fltRes r

/-- The source pattern of CVT: an immediate is an integer value, exact in its format (R37, R161). -/
def cvtSrc (o : F5) (g : Group) (L : Nat) : Nat :=
  let w := if cvtWide (cvtSf o) then 2 else 1
  if cvtFloat (cvtSf o) then rdFBits (fmtOf (cvtSf o)) w g o.a L else (g.rd o.a w L).toNat

/-- R163: every active lane's generator advances once under SR, and a uniform conversion takes the lowest lane's draw. -/
def execCvt (o : F5) (s : State) :=
  runI (.cvt o) (fun q s =>
    let sr := cvtRm o == 4
    let draw (L : Nat) : Word := srDraw (q.g.lane L).sr
    let signed := !cvtFloat (cvtDf o) && (cvtInt (cvtDf o)).2
    let q1 := if sr then { q with g := q.g.modLanes q.act fun L l => { l with sr := draw L } } else q
    laneOp o.d (if cvtWide (cvtDf o) then 2 else 1) signed
      (fun g L => cvtRes (cvtSf o) (cvtDf o) (cvtRm o) (cvtSat o) (cvtSrc o g L) (draw L).toNat) q1 s) s

/-- R164. -/
def packVal (m : Nat) (x : Nat → Nat) : Nat :=
  match m with
  | 0 => x 0 % 65536 + 65536 * (x 1 % 65536)
  | 1 => x 0 % 256 + 2 ^ 8 * (x 1 % 256) + 2 ^ 16 * (x 2 % 256) + 2 ^ 24 * (x 3 % 256)
  | _ => x 0 % 64 + 2 ^ 6 * (x 1 % 64) + 2 ^ 12 * (x 2 % 64) + 2 ^ 18 * (x 3 % 64)
def execPack (o : F5) (s : State) :=
  runI (.pack o) (laneOp o.d 1 false fun g L =>
    { v := BitVec.ofNat 64 (packVal o.mod.toNat fun k => (g.rd ([o.a, o.b, o.c, o.e].getD k o.a) 1 L).toNat) }) s

/-- R165. -/
def unpackVal (m k x : Nat) : LaneRes :=
  let w := [16, 8, 6, 4].getD (m % 4) 16
  { v := intBits (readInt (x / 2 ^ (w * k)) w (decide (4 ≤ m))) 32 }
def execUnpack (o : F5) (s : State) :=
  runI (.unpack o) (laneOp o.d 1 (mbit o.mod 2) fun g L => unpackVal o.mod.toNat o.imm8.toNat (g.rd o.a 1 L).toNat) s

end Sys2Proof.Machine
end

