-- ==== Sys2Proof/Machine/Cross.lean ====
section
/-!
DEFINITION. Lane-crossing instructions (R166 to R173). They read the source of any lane as it stood before.
-/
namespace Sys2Proof.Machine

/-- R167: the width-relative offset. -/
def relOff (w : Nat) (off : Int) : Int :=
  let k := off.natAbs
  if k < 7 then off.sign * ((w / 2 ^ k : Nat) : Int) else 0

/-- R167: the lane that lane L takes its value from, none for the fill. -/
def shflFrom (mode seg L : Nat) (off : Int) : Option Nat :=
  let base := L - L % seg
  let j := L % seg
  match mode with
  | 0 => some (base + (off % (seg : Int)).toNat)
  | 1 => some (base + (((j : Int) + off) % (seg : Int)).toNat)
  | 2 =>
    let k := (j : Int) + off
    if 0 ≤ k ∧ k < seg then some (base + k.toNat) else none
  | _ => some (base + (j ^^^ (off % (seg : Int)).toNat))

def execShfl (o : F5) (s : State) :=
  runI (.shfl o) (fun q s =>
    let mode := o.mod.toNat % 4
    let w := w64 o.mod 3
    let W := q.g.width
    let seg := min W (2 ^ o.imm8.toNat)
    laneOp o.d w false (fun g L =>
      let raw := readInt (g.rd o.b 1 L).toNat 32 (mode == 2)
      let off := if mbit o.mod 2 then relOff W raw else raw
      { v := match shflFrom mode seg L off with
          | some M => g.rd o.a w M
          | none => g.rd o.c w L }) q s) s

/-- R169: one step of an operation, with the flags it raises; rm rounds `.add.f32`. -/
def redStep (op : Nat) (rm : Rm) (a b : DWord) : LaneRes :=
  let x := (lo32 a).toNat
  let y := (lo32 b).toNat
  let ri (n : Nat) (sg : Bool) : Int := readInt n 32 sg
  match op with
  | 0 => { v := intBits (x + y) 32 }
  | 1 => fRound fp32 rm (fAddV (fp32.decode x) (fp32.decode y) rm)
  | 2 => { v := intBits (min (ri x true) (ri y true)) 32 }
  | 3 => { v := intBits (min x y) 32 }
  | 4 => minMaxRes fp32 false (fp32.decode x) (fp32.decode y)
  | 5 => { v := intBits (max (ri x true) (ri y true)) 32 }
  | 6 => { v := intBits (max x y) 32 }
  | 7 => minMaxRes fp32 true (fp32.decode x) (fp32.decode y)
  | 8 => { v := (lo32 a &&& lo32 b).setWidth 64 }
  | 9 => { v := (lo32 a ||| lo32 b).setWidth 64 }
  | 10 => { v := (lo32 a ^^^ lo32 b).setWidth 64 }
  | _ => { v := a + b }
/-- R169: the identity of an operation. -/
def redId (op : Nat) : DWord :=
  match op with
  | 1 => 0x80000000#64
  | 2 => 0x7FFFFFFF#64
  | 3 => 0xFFFFFFFF#64
  | 4 => 0x7F800000#64
  | 5 => 0x80000000#64
  | 7 => 0xFF800000#64
  | 8 => 0xFFFFFFFF#64
  | _ => 0#64

/-- R168: the tree, halving the list until one value is left. -/
def redTree (op : Nat) (rm : Rm) : Nat → List DWord → LaneRes
  | 0, xs => { v := xs.headD 0#64 }
  | k + 1, xs =>
    let h := xs.length / 2
    if h == 0 then { v := xs.headD 0#64 }
    else
      let rs := ((xs.take h).zip (xs.drop h)).map fun (a, b) => redStep op rm a b
      let t := redTree op rm k (rs.map (·.v))
      { v := t.v, fl := rs.foldl (fun f r => f ||| r.fl) t.fl }

/-- The source of a reduction: a floating immediate is converted (R37, R168). -/
def redSrc (o : F5) (g : Group) (L : Nat) : DWord :=
  if [1, 4, 7].contains (redOp o) then BitVec.ofNat 64 (rdFBits fp32 1 g o.a L) else g.rd o.a (redW o) L
def redRm (o : F5) : Rm := rmOf (o.imm8.toNat % 4)

/-- R169: under `.min.f32` and `.max.f32` a NaN lane is ignored, and a signalling NaN still raises NV. -/
def redNan (o : F5) (x : DWord) : Option Flags :=
  if redOp o == 4 || redOp o == 7 then
    match fp32.decode (lo32 x).toNat with
    | .nan sn => some (if sn then flNV else flNone)
    | _ => none
  else none
/-- The value that a lane brings to the tree, with the flags of a NaN that is ignored. -/
def redLeaf (o : F5) (g : Group) (L : Nat) : LaneRes :=
  let x := redSrc o g L
  match redNan o x with
  | some fl => { v := redId (redOp o), fl }
  | none => { v := x }
def execLred (o : F5) (s : State) :=
  runI (.lred o) (fun q s =>
    let leaves := (List.range q.g.width).map fun L =>
      if q.act.getLsbD L then redLeaf o q.g L else { v := redId (redOp o) }
    let xs := leaves.map (·.v)
    let t := redTree (redOp o) (redRm o) 6 xs
    let r : LaneRes := { v := t.v, fl := leaves.foldl (fun f x => f ||| x.fl) t.fl }
    let signed := redOp o == 2 || redOp o == 5
    .grp s ((q.g.put q.pf o.d (redW o) signed q.act (List.replicate q.g.width r.v)).orFlags q.act fun _ => r.fl)) s

/-- R170: the serial prefix over the lanes: each lane's written value and flags; other lanes are skipped. -/
def scanFrom (op : Nat) (rm : Rm) (excl : Bool) (src : Nat → DWord) (act : Mask) : List Nat → DWord → List (Nat × LaneRes)
  | [], _ => []
  | L :: ls, acc =>
    if act.getLsbD L then
      let r := redStep op rm acc (src L)
      (L, { v := if excl then acc else r.v, fl := r.fl }) :: scanFrom op rm excl src act ls r.v
    else scanFrom op rm excl src act ls acc
def execLscan (o : F5) (s : State) :=
  runI (.lscan o) (fun q s =>
    let rs := scanFrom (redOp o) (redRm o) (mbit o.mod 4) (redSrc o q.g) q.act (List.range q.g.width) (redId (redOp o))
    laneOp o.d (redW o) false (fun _ L => getK rs { v := 0#64 } L) q s) s

/-- R171: the count and the test. -/
def voteRes (test a n t : Nat) : Bool :=
  match test with
  | 0 => decide (1 ≤ n)
  | 1 => n == a
  | 2 => n == 0 || n == a
  | _ => decide (t ≤ n)
/-- R171. DESIGN CHOICE (log 33): a threshold in a scalar register is read at 64 bits: VOTE has no type at whose width R126 could read it. -/
def execVote (o : F5) (s : State) :=
  runI (.vote o) (fun q s =>
    let ls := lanesOf q.g.width q.act
    let n := (ls.filter fun L => (q.g.rd o.a 1 L == 1#64) != mbit o.mod 2).length
    if mbit o.mod 3 then .grp s (q.g.put q.pf o.d 2 false q.act (List.replicate q.g.width (BitVec.ofNat 64 n)))
    else
      let t := if voteTest o == 3 then (q.g.rdS o.b).toNat else 0
      .grp s (q.g.putBool q.pf o.d q.act (List.replicate q.g.width (voteRes (voteTest o) ls.length n t)))) s

def execBallot (o : F5) (s : State) :=
  runI (.ballot o) (fun q s =>
    let m := maskOf q.g.width fun L => q.act.getLsbD L && (q.g.rd o.a 1 L == 1#64) != mbit o.mod 0
    .grp s (q.g.put q.pf o.d 2 false q.act (List.replicate q.g.width m))) s

def execBcast (o : F5) (s : State) :=
  runI (.bcast o) (fun q s =>
    let k := (q.g.rdS o.b).toNat % q.g.width
    .grp s (q.g.put q.pf o.d (w64 o.mod 0) false q.act (List.replicate q.g.width (q.g.rd o.a (w64 o.mod 0) k)))) s

end Sys2Proof.Machine
end

