-- ==== Sys2Proof/Machine/Memory.lean ====
section
/-!
DEFINITION. The instructions of unit MEM (R274 to R316, R333, R334): loads, stores, atomics, fences, prefetch, puts, and
XQRY. Memory is one coherent memory and each instruction is one step (log 3); what a fence or a scope adds is the
work of the caches, the marks, the snoop filters and the line requests (R277 to R282, R294).
-/
namespace Sys2Proof.Machine

/-- R304: the address of a lane. -/
def memAddr (o : FM) (g : Group) (L : Nat) : Int := g.term o.base true L + g.term o.index false L + off24 o.off
/-- R309, R310: INDEX is no address term. -/
def atomAddr (o : FM) (g : Group) (L : Nat) : Int := g.term o.base true L + off24 o.off

/-- The active lanes with their addresses. -/
def laneAddrs (q : Q) (addr : Nat → Int) : List (Nat × Int) := (lanesOf q.g.width q.act).map fun L => (L, addr L)

/-- The conditions of a lane's load or store: a submission page serves every aligned one (R340, R341; log 34). -/
def State.laneCond (s : State) (g : Group) (a : Int) (n : Nat) (acc : Acc) : Option Cond :=
  if (s.subPage g.asn a).isSome then (if a % n != 0 then some (.fault .align (addrOf a)) else none) else s.rangeCond g a n n acc
/-- The lanes whose address lies in a submission page. -/
def State.pageLanes (s : State) (q : Q) (addr : Nat → Int) : List (Nat × Queue × Nat) :=
  (laneAddrs q addr).filterMap fun e => (s.subPage q.g.asn e.2).map fun p => (e.1, p)
/-- R304 for each lane, then the continuation with the physical address of each lane that reaches memory. -/
def withAddrs (q : Q) (s : State) (addr : Nat → Int) (n : Nat) (acc : Acc) (k : List (Nat × Nat) → Res) : Res :=
  let as := laneAddrs q addr
  settleConds (as.map fun e => (e.1, s.laneCond q.g e.2 n acc)) s fun _ =>
    k ((as.filter fun e => (s.subPage q.g.asn e.2).isNone).map fun e => (e.1, ((s.segs q.g e.2.toNat n acc).headD (0, 0)).1))

/-- Fill the TLBs that the lanes use (R322). -/
def touchLanes (q : Q) (addr : Nat → Int) (acc : Acc) (s : State) : State :=
  (((laneAddrs q addr).map fun e => e.2.toNat / 65536 * 65536).eraseDups).foldl (fun t a => t.touch q.g a acc) s


/-- R421: a lane's access consumes an uncorrectable error. -/
def badLanes (s : State) (core : Nat) (pas : List (Nat × Nat)) (n : Nat) (wr : Bool) : Mask :=
  let c := s.core core
  if s.bad.isEmpty && c.badL1.isEmpty then 0#64
  else Mask.ofLanes ((pas.filter fun e => (if wr then s.badWrite e.2 n else s.badRead e.2 n) || c.l1Bad e.2 n wr).map (·.1))

/-! ### Loads (R305, R307) -/

/-- The value of n bytes as DATA receives it (R127): 8 and 16 bits extended to 32. -/
def loadVal (n : Nat) (sx : Bool) (x : Nat) : DWord :=
  if sx && n < 4 then intBits (readInt x (8 * n) true) 32 else BitVec.ofNat 64 x

/-- Write loaded numbers to DATA, by lane. -/
def Group.putLoad (g : Group) (pf : Pfx) (o : FM) (m : Mask) (xs : List (Nat × Nat)) : Group :=
  let n := sizeBytes o.size
  match o.data with
  | .v d =>
    if o.size == 4#4 then
      g.writeQ d.toNat m ((List.range g.width).map fun L =>
        let x := getK xs 0 L
        (List.range 4).map fun i => BitVec.ofNat 32 (x / 2 ^ (32 * i)))
    else g.writeV pf d.toNat (sizeW o.size) m ((List.range g.width).map fun L => loadVal n (mbit o.mod 0) (getK xs 0 L))
  | _ => g

def loadOp (o : FM) (ord : Nat) (src : Q → State → Mem) (fresh : Q → Bool) (q : Q) (s : State) : Res :=
  let n := sizeBytes o.size
  withAddrs q s (memAddr o q.g) n .rd fun pas =>
    let bad := badLanes s q.core pas n false
    let as := pas.map fun e => (e.2, n)
    if bad != 0#64 then .trap .check bad 0#64 0 s
    else withLines q s .load as fun t =>
      let m := src q s
      let xs := pas.map (fun e => (e.1, leNat (m.bulk e.2 n))) ++
        (s.pageLanes q (memAddr o q.g)).map fun e => (e.1, leNat (e.2.1.pageBytes e.2.2 n))
      let t1 := ((touchLanes q (memAddr o q.g) .rd t).useCaches q.core .load as []).acquirePart q.g (fmScope o) ord (linesOf as)
      let t2 := t1.filterLines (linesOf as) false
      let t3 := if fresh q then t2.freshen q.g.id as else t2
      .ok (t3.setGrp (((t3.grp? q.g.id).getD q.g).putLoad q.pf o q.act xs))

def execLd (o : FM) (s : State) := runI (.ld o) (loadOp o (fmOrd o) (fun _ s => s.mem) fun _ => true) s

/-- R297: a stale LDRO reads the memory as it stood at the group's last point; a fresh one brings what it read up to date, so that
no later LDRO goes back behind it. -/
def execLdro (o : FM) (s : State) :=
  runI (.ldro o) (loadOp o 0 (fun q s => if q.stale then q.g.roMem.getD s.mem else s.mem) fun q => !q.stale) s

/-! ### Stores (R306) -/

/-- The bytes that a lane stores: the low n of DATA. -/
def storeBytes (o : FM) (g : Group) (L : Nat) : List Byte :=
  let n := sizeBytes o.size
  match o.data with
  | .v d => if o.size == 4#4 then (List.range 4).flatMap fun i => leBytes 4 (g.v (d.toNat + i) L).toNat
            else leBytes n (g.rd o.data (sizeW o.size) L).toNat
  | _ => leBytes n (g.rd o.data 2 L).toNat

/-- R294: the releasing write of a release at group or team scope is written through to its home L2. -/
def storeUse (g : Group) (sc ord : Nat) : LineUse := if (isRel ord && (sc == 1 || sc == 2)) || (1 ≤ sc && g.relFence) then .through else .store
def execSt (o : FM) (s : State) :=
  runI (.st o) (fun q s =>
    let n := sizeBytes o.size
    withAddrs q s (memAddr o q.g) n .wr fun pas =>
      let bad := badLanes s q.core pas n true
      let as := pas.map fun e => (e.2, n)
      let u := storeUse q.g (fmScope o) (fmOrd o)
      if bad != 0#64 then .trap .check bad 0#64 0 s
      else withLines q s u as fun t =>
        let t1 := ((touchLanes q (memAddr o q.g) .wr t).releasePart q.g (fmScope o) (fmOrd o) (linesOf as)).useCaches q.core u as as
        let t2 := t1.filterLines (linesOf as) false
        -- R341, R342: a store to a submission page is a write of that page
        let ws := (s.pageLanes q (memAddr o q.g)).map fun e =>
          Instr.hostSubmit e.2.1.num { off := e.2.2, whole := false, bytes := storeBytes o q.g e.1 }
        .ok ((pas.foldl (fun u e => u.sheetStore q.g.sheet e.2 (storeBytes o q.g e.1)) t2).soonAll ws)) s

/-! ### Atomics (R309, R310) -/

/-- R309, R268: the new value of a read-modify-write of n bits. -/
def rmw (op n old d : Nat) : Nat :=
  let s (x : Nat) : Int := readInt x n true
  match op with
  | 0 => (old + d) % 2 ^ n
  | 1 => if s old ≤ s d then old else d
  | 2 => min old d
  | 3 => if s d ≤ s old then old else d
  | 4 => max old d
  | 5 => old &&& d
  | 6 => old ||| d
  | 7 => old ^^^ d
  | 8 => d
  | _ => (fpRoundV fp32 (fAddV (fp32.decode old) (fp32.decode d) .rne).v .rne).bits

/-- The lanes in ascending order, each seeing those before it: what each read, and the state after. -/
def atomLanes (n : Nat) (f : Nat → Nat → Option Nat) (sheet : Nat) : List (Nat × Nat) → State → List (Nat × Nat) × State
  | [], s => ([], s)
  | (L, pa) :: es, s =>
    let old := s.mem.loadNat pa n
    let s1 := match f L old with
      | some x => s.sheetStore sheet pa (leBytes n x)
      | none => s
    let (xs, t) := atomLanes n f sheet es s1
    ((L, old) :: xs, t)

/-- R292, R304: the conditions of a lane's atomic: those of its range, then that its memory is not reached over PCIe. -/
def State.atomCond (s : State) (g : Group) (a : Int) (n : Nat) : Option Cond :=
  match s.rangeCond g a n n .rw with
  | some c => some c
  | none => if paHost ((s.segs g a.toNat n .rw).headD (0, 0)).1 then some (.fault .access (addrOf a)) else none
/-- R292, R294: the place of an atomic: the L1 for a scope of one core, the home L2 or the die's remote-data cache for a pair or a die, the
home L2 beyond; the releasing write of a release at group or team scope is performed at the home L2. -/
def State.atomUse (s : State) (g : Group) (sc ord : Nat) : LineUse :=
  if g.relFence || (isRel ord && sc ≤ 2) then .far
  else if sc == 1 || (sc == 2 && !s.pairedOf g) then .near
  else if sc == 2 || sc == 3 then .die
  else .far

/-- R309, R310: `f` gives the new value of a lane from the old one; a lane that writes nothing makes no release. -/
def atomicOp (o : FM) (n : Nat) (f : Q → Nat → Nat → Option Nat) (w : Nat) (q : Q) (s : State) : Res :=
  let at_ := laneAddrs q (atomAddr o q.g)
  settleConds (at_.map fun e => (e.1, s.atomCond q.g e.2 n)) s fun _ =>
    let pas := at_.map fun e => (e.1, ((s.segs q.g e.2.toNat n .rw).headD (0, 0)).1)
    let bad := badLanes s q.core pas n false
    let as := pas.map fun e => (e.2, n)
    let u := s.atomUse q.g (fmScope o) (fmOrd o)
    if bad != 0#64 then .trap .check bad 0#64 0 s
    else withLines q s u as fun t =>
      let (xs, _) := atomLanes n (f q) q.g.sheet pas t
      let wrote := (pas.filter fun e => (f q e.1 (getK xs 0 e.1)).isSome).map fun e => (e.2, n)
      let t1 := (touchLanes q (atomAddr o q.g) .rw t).acquirePart q.g (fmScope o) (fmOrd o) (linesOf as)
      let t2 := if wrote.isEmpty then t1 else t1.releasePart q.g (fmScope o) (fmOrd o) (linesOf wrote)
      let t3 := (t2.useCaches q.core u as wrote).filterLines (linesOf as) true
      let (_, t4) := atomLanes n (f q) q.g.sheet pas t3
      let t5 := t4.freshen q.g.id as
      match o.data with
      | .v d => .ok (t5.setGrp ((t5.grp? q.g.id).getD q.g |>.writeV q.pf d.toNat w q.act
          ((List.range q.g.width).map fun L => BitVec.ofNat 64 (getK xs 0 L))))
      | _ => .ok t5

def execAtom (o : FM) (s : State) :=
  let n := sizeBytes o.size
  runI (.atom o) (atomicOp o n
    (fun q L old => some (rmw (atomOp o) (8 * n) old ((q.g.rd o.data (sizeW o.size) L).toNat % 2 ^ (8 * n)))) (sizeW o.size)) s

/-- The compare value and the new value of a lane (R310). -/
def casPair (o : FM) (g : Group) (L : Nat) : Nat × Nat :=
  match o.data with
  | .v d => if o.size == 3#4 then ((g.v d.toNat L).toNat, (g.v (d.toNat + 1) L).toNat)
            else ((g.v64 d.toNat L).toNat, (g.v64 (d.toNat + 2) L).toNat)
  | _ => (0, 0)
def execCas (o : FM) (s : State) :=
  runI (.cas o) (atomicOp o (sizeBytes o.size / 2)
    (fun q L old => let (c, x) := casPair o q.g L; if old == c then some x else none) (sizeW o.size / 2)) s

/-! ### Fences and prefetch (R308, R311, R312) -/

/-- R308: an acquire fence that sets the point of R297. -/
def execRosync (o : FY) (s : State) :=
  runI (.rosync o) (fun q s => .ok ((s.fenceOf q.g (fyScope o) 1).modGrp q.g.id fun g => { g with roMem := some s.mem })) s

/-- R311: in one coherent memory a fence orders what is ordered already; what it adds is the work of the caches and the marks (R281,
R294). `.sc` acts as `.ar`. -/
def execFence (o : FY) (s : State) :=
  runI (.fence o) (fun q s =>
    .ok (s.fenceOf q.g (fyScope o) (if o.mod.toNat / 2 % 4 == 0 then 3 else o.mod.toNat / 2 % 4))) s

/-- R312: the line of each lane that translates comes into the L1, or with `.l2` as far as the L2 or the remote-data cache, while there
are free entries; memory reached over PCIe is never cached (R275). -/
def State.prefetch (s : State) (q : Q) (l2 : Bool) (l : Nat) : State :=
  let as := [(l * 128, 128)]
  if paHost (l * 128) || ((s.core q.core).entriesFor .load as).isEmpty then s
  else match s.takeLines q.core q.g.id q.sub false ((s.core q.core).entriesFor .load as) with
    | none => s
    | some t => ((if l2 then t.fetchLineOf q.core .load 0#32 l else t.useCaches q.core .load as []).filterLines [l] false).chargeLines
        (clusterOf q.core) 0 [l]
def execPref (o : FM) (s : State) :=
  runI (.pref o) (fun q s =>
    let as := (laneAddrs q (memAddr o q.g)).filter fun e => (s.rangeCond q.g e.2 1 1 .rd).isNone
    let lines := (as.map fun e => lineOf ((s.segs q.g e.2.toNat 1 .rd).headD (0, 0)).1).eraseDups
    .ok (lines.foldl (fun t l => t.prefetch q (mbit o.mod 0) l) s)) s

/-! ### Windows (R299 to R303, R313 to R316) -/

/-- The window-table entry that a reference names. -/
def windowOf (s : State) (q : Q) (ref : DWord) : Option Window :=
  (s.sheet? q.g.sheet).bind fun h => h.windows.find? fun w => w.entry == ref.toNat / 2 ^ 48

/-- R313: the checks of a lane's put: an import entry, the range inside it, the alignment. -/
def putCond (w : Option Window) (off : Int) (n al : Nat) : Option Cond :=
  match w.filter (·.isImport) with
  | none => some (.fault .access (addrOf off))
  | some x =>
    if off < 0 || (x.len : Int) < off + n then some (.fault .access (addrOf off))
    else if off % al != 0 then some (.fault .align (addrOf off)) else none

/-- The port that carries a module's traffic: a link's wiring is the system's (log 9). -/
def portOf (module : Nat) : Nat := module % 16
/-- R463: one bit of the reflected CRC-64 of ECMA-182. -/
def crcBit (c : Nat) : Nat := if c % 2 == 1 then (c / 2) ^^^ 0xC96C5795D7870F42 else c / 2
def crcByte (c : Nat) (b : Byte) : Nat := (List.range 8).foldl (fun x _ => crcBit x) (c ^^^ b.toNat)
/-- R463. -/
def crc64 (bs : List Byte) : Nat := (bs.foldl crcByte 0xFFFFFFFFFFFFFFFF) ^^^ 0xFFFFFFFFFFFFFFFF

/-- R462: a flit without its CRC: type, channel, sequence numbers, payload, reference and tag. -/
def flitBody (type vc seq ack : Nat) (pay : List Byte) (wref tag : Nat) : List Byte :=
  leBytes 1 type ++ leBytes 1 vc ++ leBytes 2 seq ++ leBytes 2 ack ++ leBytes 2 pay.length ++ leBytes 8 wref ++ padTo 224 pay ++ leBytes 8 tag
/-- R462: TAG of a put. -/
def putTag (p : Put) (last : Bool) : Nat := p.origin + p.entry * 2 ^ 16 + p.num % 2 ^ 31 * 2 ^ 32 + (if last then 2 ^ 63 else 0)
/-- R462: the 256 bytes of a flit. -/
def flitOf (body : List Byte) : List Byte := body ++ leBytes 8 (crc64 body)
/-- Send a flit: it goes out on the link, and is kept until it is acknowledged (R463). -/
def FabPort.send (f : FabPort) (type vc : Nat) (pay : List Byte) (wref tag : Nat) : FabPort :=
  let e := (f.txSeq, flitOf (flitBody type vc f.txSeq ((f.rxSeq + 65535) % 65536) pay wref tag))
  { f with txSeq := (f.txSeq + 1) % 65536, unacked := f.unacked ++ [e], wire := f.wire ++ [e] }
/-- R463: the flits that have not been acknowledged go out again, in order. -/
def FabPort.resend (f : FabPort) : FabPort := { f with wire := f.wire ++ f.unacked, retries := f.retries + 1 }
/-- The data flits of a put, up to 224 bytes each. -/
def FabPort.sendPut (p : Put) : Nat → List Byte → Nat → FabPort → FabPort
  | 0, _, _, f => f
  | n + 1, bs, off, f =>
    if bs.length ≤ 224 then f.send 1 0 bs (p.wref.toNat + off) (putTag p true)
    else (f.send 1 0 (bs.take 224) (p.wref.toNat + off) (putTag p false)).sendPut p n (bs.drop 224) (off + 224)
def State.modFab (s : State) (port : Nat) (f : FabPort → FabPort) : State :=
  { s with fab := setK s.fab port (f (getK s.fab FabPort.init port)) }

/-- Issue puts: ISS grows (R300), and the bytes leave for the target module (R462). -/
def State.issuePuts (s : State) (sheet gid : Nat) (w : Window) (ps : List (Int × List Byte)) : State :=
  let n := (ps.map fun e => e.2.length).foldl (· + ·) 0
  let s1 := s.modSheet sheet fun h => { h with noReplay := true, windows := h.windows.map fun x =>
    if x.entry == w.entry then { x with iss := x.iss + BitVec.ofNat 64 n, putNum := (x.putNum + ps.length) % 2 ^ 31 } else x }
  let new : List Put := ps.mapIdx fun i e =>
    { origin := s.moduleNo, sheet, gid, entry := w.entry, num := (w.putNum + i) % 2 ^ 31, module := w.module
      wref := BitVec.ofNat 64 (w.base * 2 ^ 48 + e.1.toNat), data := e.2 }
  let s2 := { s1 with puts := s1.puts ++ new }
  if w.module == s.moduleNo then s2
  -- R302: a port that is down delivers nothing
  else if (getK s.fab FabPort.init (portOf w.module)).down then s1.modSheet sheet fun h => { h with check := true }
  else new.foldl (fun u p => u.modFab (portOf p.module) fun f => FabPort.sendPut p p.data.length p.data 0 f) s2

/-- R313: where lanes write a common byte, the highest lane's byte stands, so every put carries it. -/
def mergePuts (ps : List (Int × List Byte)) : List (Int × List Byte) :=
  ps.mapIdx fun i e => (e.1, e.2.mapIdx fun j b =>
    let a := e.1 + j
    (ps.drop (i + 1)).foldl (fun c f => if f.1 ≤ a && a < f.1 + f.2.length then f.2.getD (a - f.1).toNat c else c) b)

def execPut (o : FM) (s : State) :=
  runI (.put o) (fun q s =>
    let ref := q.g.rdS o.base
    let n := sizeBytes o.size
    let w := windowOf s q ref
    let off (L : Nat) : Int := (ref.toNat % 2 ^ 48 : Nat) + q.g.term o.index false L + off24 o.off
    let ls := lanesOf q.g.width q.act
    settleConds (ls.map fun L => (L, putCond w (off L) n n)) s fun _ =>
      match w with
      | none => trapAll q .access s
      | some x => .ok ((s.issuePuts q.g.sheet q.g.id x (mergePuts (ls.map fun L => (off L, storeBytes o q.g L)))).chargeTraffic
          (clusterOf q.core) 0 (n * ls.length) 0)) s

def execPuts (o : FM) (s : State) :=
  runI (.puts o) (fun q s =>
    let n := (q.g.rdS o.data).toNat
    let p := (q.g.rdS o.index).toNat
    let ref := q.g.rdS o.base
    let off : Int := (ref.toNat % 2 ^ 48 : Nat) + off24 o.off
    let w := windowOf s q ref
    match s.team? q.g.team with
    | none => trapAll q .access s
    | some t =>
      if n < 16 || 65536 < n || n % 16 != 0 then trapAll q .illegal s
      else if p % 16 != 0 || t.s < p + n then .trap .scratch q.sub (q.g.rdS o.index) 0 s
      else settleU q (putCond w off n 16) s fun _ =>
        match t.failedIn (chunksOf p n), w with
        | some (_, c, a), _ => .trap c q.sub a 0 (s.nameFailed t.id (chunksOf p n))
        | none, none => trapAll q .access s
        | none, some x =>
          if t.anyAbsent (chunksOf p n) then .wait (.chunks 0 0 (chunksOf p n)) s
          else if t.badIn p n then trapAll q .check s
          else .ok ((s.issuePuts q.g.sheet q.g.id x [(off, t.scratch.bulk p n)]).chargeTraffic (clusterOf q.core) 2 n 0)) s

/-- The counter of an entry by code: 0 ISS, 1 ACK, 2 ARR; none where the entry is not of that kind (R299). -/
def Window.counter (w : Window) (k : Nat) : Option DWord :=
  match k with
  | 0 => if w.isImport then some w.iss else none
  | 1 => if w.isImport then some w.ack else none
  | _ => if w.isImport then none else some w.arr

def execWinwait (o : FY) (s : State) :=
  runI (.winwait o) (fun q s =>
    let ref := q.g.rdS o.ya
    match (windowOf s q ref).bind fun w => w.counter (o.code.toNat + 1) with
    | none => trapAll q .access s
    | some c =>
      let t := q.g.rdS o.yb
      if t.toNat ≤ c.toNat then .ok (s.fenceOf q.g 5 1) else .wait (.win (ref.toNat / 2 ^ 48) (o.code == 1#16) t) s) s

def execWinrd (o : FY) (s : State) :=
  runI (.winrd o) (fun q s =>
    match (windowOf s q (q.g.rdS o.yb)).bind fun w => w.counter o.code.toNat, o.ya with
    | some c, .s d =>
      let t := if mbit o.mod 0 then s.fenceOf q.g 5 1 else s
      .ok (t.modGrp q.g.id fun g => g.writeS q.pf d.toNat c)
    | _, _ => trapAll q .access s) s

/-! ### XQRY (R333, R334) -/

/-- The result word of a translation. -/
def xqryWord (pa psize : Nat) (ext : Option Nat) (rn x w rd : Bool) : DWord :=
  let bit (b : Bool) (n : Nat) : Nat := if b then 2 ^ n else 0
  BitVec.ofNat 64 (1 + bit rd 1 + bit w 2 + bit x 3 + bit rn 4 + bit ext.isSome 5 + psize * 64 +
    (if paHost pa then 0 else paHome pa * 256) + bit (paPool pa) 10 + bit (paHost pa) 11 + ext.getD 0 * 65536)
def psizeOf (bits : Nat) : Nat := if bits == 16 then 0 else if bits == 21 then 1 else 2

/-- The leaves under the extents of a group's task (R325). -/
def State.leavesOf (s : State) (g : Group) : List (Nat × Nat) :=
  match (s.team? g.team).bind fun t => s.task? g.sheet t.task with
  | some k => k.leaves
  | none => []
/-- What XQRY reports for an address of a group; none for a walk that must wait (R330). -/
def State.xqry (s : State) (g : Group) (a : Int) : Option DWord :=
  if a < 0 || (2 ^ 57 : Int) ≤ a then some 0#64
  else
    let va := a.toNat
    let es := s.extents g
    match es.find? fun e => e.covers va with
    | some e =>
      let all := es.filter (·.covers va)
      -- R325: the leaf's page as dispatch found it
      let ps := match (s.leavesOf g).find? fun l => l.1 / 2 ^ l.2 == va / 2 ^ l.2 with
        | some (_, bits) => psizeOf bits
        | none => 0
      some (xqryWord (e.pa + (va - e.va)) ps (some e.idx) e.rn e.x (all.any (·.wr)) (all.any (·.rd)))
    | none =>
      match if (s.tlbLeaf g.core g.asn va).isNone && s.walksBusy (dieOf g.core) then none else some (s.leafFor g.core g.asn va) with
      | none => none
      | some (some (leaf, bits)) =>
        some (xqryWord (entAddr leaf / 2 ^ bits * 2 ^ bits + va % 2 ^ bits) (psizeOf bits) none (leafRN leaf) (leafX leaf)
          (leafW leaf) (leafRD leaf))
      | some none => if (s.die (dieOf g.core)).cur < s.requestGen g then none else some 0#64

def execXqry (o : FM) (s : State) :=
  runI (.xqry o) (fun q s =>
    let rs := (lanesOf q.g.width q.act).map fun L => (L, s.xqry q.g (memAddr o q.g L))
    match rs.find? fun e => e.2.isNone, o.data with
    | some _, _ => .wait .walk s
    | none, .v d =>
      let inside := (laneAddrs q (memAddr o q.g)).filter fun e => 0 ≤ e.2 && e.2 < (2 ^ 57 : Int)
      let t := inside.foldl (fun t e => t.touch q.g e.2.toNat .rd) s
      .ok (t.setGrp (q.g.writeV q.pf d.toNat 2 q.act ((List.range q.g.width).map fun L => (getK rs none L).getD 0#64)))
    | none, _ => trapAll q .illegal s) s

end Sys2Proof.Machine
end

