-- ==== Sys2Proof/Machine/Scratch.lean ====
section
/-!
DEFINITION. The instructions of unit SPD (R265 to R273): scratchpad accesses, copy schedules and their waits.
-/
namespace Sys2Proof.Machine

/-! ### SLD, SST, SATOM (R265 to R268) -/

/-- R265: the offset of a lane; a vector register gives 32 bits. -/
def scrAddr (o : FM) (g : Group) (L : Nat) : Int := g.term o.base false L + g.term o.index false L + off24 o.off

/-- R265: what a lane's access of n bytes meets. -/
def scrCond (t : Team) (a : Int) (n : Nat) : Option Cond :=
  if a < 0 || (t.s : Int) < a + n then some (.fault .scratch (addrOf a))
  else if a % n != 0 then some (.fault .align (addrOf a))
  else (t.failedIn (chunksOf a.toNat n)).map fun (_, c, x) => .fault c x

/-- The chunks that lanes name (R244). -/
def namedChunks (as : List (Nat × Int)) (n : Nat) : List Nat := as.flatMap fun e => if 0 ≤ e.2 then chunksOf e.2.toNat n else []

/-- R243, R265, R493: the lowest lane that meets a fault or an absent chunk decides; then the access of every lane at once. -/
def withScratch (q : Q) (s : State) (addr : Nat → Int) (n : Nat) (k : Team → List (Nat × Nat) → Res) : Res :=
  match s.team? q.g.team with
  | none => trapAll q .scratch s
  | some t =>
    let as := laneAddrs q addr
    let absent (a : Int) : Bool := (scrCond t a n).isNone && t.anyAbsent (chunksOf a.toNat n)
    if ((as.find? fun e => (scrCond t e.2 n).isSome || absent e.2).map fun e => absent e.2) == some true then
      .wait (.chunks 0 0 ((as.filter fun e => (scrCond t e.2 n).isNone).flatMap fun e => chunksOf e.2.toNat n).eraseDups) s
    else
      let s1 := if t.failed.isEmpty then s else s.nameFailed t.id (namedChunks as n)
      settleConds (as.map fun e => (e.1, scrCond t e.2 n)) s1 fun _ => k t (as.map fun e => (e.1, e.2.toNat))

def execSld (o : FM) (s : State) :=
  runI (.sld o) (fun q s =>
    let n := sizeBytes o.size
    withScratch q s (scrAddr o q.g) n fun t os =>
      let bad := Mask.ofLanes ((os.filter fun e => t.badIn e.2 n).map (·.1))
      if bad != 0#64 then .trap .check bad 0#64 0 s
      else
        -- R258: nothing orders the load after a fetch that no group has seen
        let from_ (a : Nat) : Mem := if q.stale && t.landed.contains (a / 512) then t.older else t.scratch
        let s1 := if t.landed.isEmpty || q.stale then s else s.modTeam t.id (·.seeChunks (os.map fun e => e.2 / 512))
        .grp s1 (q.g.putLoad q.pf o q.act (os.map fun e => (e.1, leNat ((from_ e.2).bulk e.2 n))))) s

def execSst (o : FM) (s : State) :=
  runI (.sst o) (fun q s =>
    let n := sizeBytes o.size
    withScratch q s (scrAddr o q.g) n fun t os =>
      let bad := Mask.ofLanes ((os.filter fun e => t.badPart e.2 n).map (·.1))
      if bad != 0#64 then .trap .check bad 0#64 0 s
      else .ok (s.modTeam t.id fun t => os.foldl (fun u e => u.scratchStore e.2 (storeBytes o q.g e.1)) t)) s

/-- The lanes in ascending order, each seeing those before it. -/
def satomLanes (n : Nat) (f : Nat → Nat → Option Nat) : List (Nat × Nat) → Team → List (Nat × Nat) × Team
  | [], t => ([], t)
  | (L, a) :: es, t =>
    let old := t.scratch.loadNat a n
    let t1 := match f L old with
      | some x => t.scratchStore a (leBytes n x)
      | none => t
    let (xs, u) := satomLanes n f es t1
    ((L, old) :: xs, u)

def execSatom (o : FM) (s : State) :=
  runI (.satom o) (fun q s =>
    let cas := satomOp o == 9
    let n := if cas then sizeBytes o.size / 2 else sizeBytes o.size
    let w := if cas then sizeW o.size / 2 else sizeW o.size
    withScratch q s (scrAddr o q.g) n fun t os =>
      let bad := Mask.ofLanes ((os.filter fun e => t.badIn e.2 n).map (·.1))
      if bad != 0#64 then .trap .check bad 0#64 0 s
      else
        let f (L old : Nat) : Option Nat :=
          if cas then (let (c, x) := casPair o q.g L; if old == c then some x else none)
          else some (rmw (satomOp o) (8 * n) old ((q.g.rd o.data w L).toNat % 2 ^ (8 * n)))
        let (xs, u) := satomLanes n f os t
        let s1 := s.modTeam t.id fun _ => u
        match mbit o.mod 4, o.data with
        | true, .v d => .ok (s1.setGrp (q.g.writeV q.pf d.toNat w q.act
            ((List.range q.g.width).map fun L => BitVec.ofNat 64 (getK xs 0 L))))
        | _, _ => .ok s1) s

/-! ### Copy schedules (R245 to R254, R270, R271) -/

/-- A copy entry from its 64 bytes (R245). -/
def parseEntry (bs : List Byte) : CopyEntry :=
  let f (off n : Nat) : Nat := fieldAt bs off n
  { gaddr := BitVec.ofNat 64 (f 0 8), gstep := BitVec.ofNat 64 (f 8 8), gstride := (BitVec.ofNat 32 (f 16 4)).toInt
    soff := f 20 4, sstep := f 24 4, rows := f 28 2, rowbytes := f 30 2, kind := f 32 1, stage := f 33 1, sring := f 34 1
    members := f 35 1, notify := if 128 ≤ f 36 1 then some (f 36 1 % 64) else none }
def entryLast (bs : List Byte) : Bool := fieldAt bs 37 1 % 2 == 1
/-- R245, R246: the entry breaks no condition. -/
def entryOk (bs : List Byte) (size : Nat) : Bool :=
  let e := parseEntry bs
  e.gaddr.toNat % 16 == 0 && e.gstride % 16 == 0 && decide (e.soff < 2 ^ 20) && e.soff % 512 == 0 && decide (e.sstep < 2 ^ 20) &&
  e.sstep % 512 == 0 && decide (1 ≤ e.rows) && decide (e.rows ≤ 4096) && decide (16 ≤ e.rowbytes) && decide (e.rowbytes ≤ 8192) &&
  e.rowbytes % 16 == 0 && decide (e.kind ≤ 2) && decide (e.stage < 16) && decide (1 ≤ e.sring) && decide (e.sring ≤ 8) &&
  (if e.kind == 1 then decide (2 ≤ e.members) && decide (e.members ≤ 4) else e.members == 0) &&
  decide (fieldAt bs 36 1 / 64 % 2 = 0) &&
  decide (fieldAt bs 37 1 < 2) && (bs.drop 38).all (· == 0#8) &&
  e.rows * e.rowbytes % 512 == 0 && decide (e.soff + (e.sring - 1) * e.sstep + e.rows * e.rowbytes ≤ size)

/-- Reading a schedule: its entries, a condition or an uncorrectable word (R421) that a read of it meets, or a breach of R246. -/
inductive SchedRes
  | entries (es : List CopyEntry)
  | cond (c : Cond)
  | check
  | bad
def readSched (s : State) (g : Group) (size : Nat) : Nat → Int → SchedRes
  | 0, _ => .bad
  | n + 1, a =>
    match s.rangeCond g a 64 1 .rd with
    | some c => .cond c
    | none =>
      let bs := s.mem.segLoad (s.segs g a.toNat 64 .rd)
      if s.segBad (s.segs g a.toNat 64 .rd) then .check
      else if !entryOk bs size then .bad
      else if entryLast bs then .entries [parseEntry bs]
      else match readSched s g size n (a + 64) with
        | .entries es => .entries (parseEntry bs :: es)
        | r => r

/-- A stage of the active schedule has a round that is started and not completed. -/
def Team.busyStage (t : Team) (st : Nat) : Nat := (t.rounds.filter fun r => r.stage == some st).length
def Team.anyBusy (t : Team) : Bool := t.rounds.any fun r => r.stage.isSome

/-- R253: the conditions on a multicast schedule's key. -/
def mcastOk (s : State) (t : Team) (es : List CopyEntry) (key : DWord) : Bool :=
  let ms := (es.filter fun e => e.kind == 1).map (·.members)
  if ms.isEmpty then true
  else if key == 0#64 then false
  else
    let cl (u : Team) : Nat := clusterOf (u.cores.headD 0)
    let others := s.teams.filter fun u => u.id != t.id && u.sheet == t.sheet && !u.exited && (match u.sched with
      | some c => c.key == key
      | none => false)
    others.all (fun u => cl u == cl t) && ms.all fun m => decide (others.length < m)

def execCstart (o : FY) (s : State) :=
  runI (.cstart o) (fun q s =>
    match s.team? q.g.team, s.sheet? q.g.sheet with
    | some t, some h =>
      let key := if o.ya = .v 0#8 then 0#64 else q.g.rdS o.ya
      let idx := o.code.toNat
      match h.scheds[idx]? with
      | none => trapAll q .stage s
      | some a =>
        if t.anyBusy then trapAll q .stage s
        else match readSched s q.g t.s 64 a.toNat with
          | .cond c => settleU q (some c) s fun _ => .ok s
          | .check => trapAll q .check s
          | .bad => trapAll q .stage s
          | .entries es =>
            if !mcastOk s t es key then trapAll q .stage s
            else
              -- R280: the lines of the schedule
              let u := ((List.range es.length).flatMap fun i => s.segs q.g (a.toNat + 64 * i) 64 .rd).foldl (fun u e => u.filterRange e.1 e.2) s
              .ok (u.modTeam t.id fun t => { t with sched := some { idx, key, entries := es }, lastSched := idx })
    | _, _ => trapAll q .stage s) s

/-- R248: the rows of an entry in a round: global addresses wrap at 64 bits. -/
def CopyEntry.rowsAt (e : CopyEntry) (r : Nat) : List (DWord × Nat × Nat) :=
  let b := e.soff + (r % e.sring) * e.sstep
  (List.range e.rows).map fun (i : Nat) =>
    (e.gaddr + BitVec.ofNat 64 r * e.gstep + BitVec.ofInt 64 ((i : Int) * e.gstride), b + i * e.rowbytes, e.rowbytes)
def CopyEntry.chunksAt (e : CopyEntry) (r : Nat) : List Nat :=
  chunksOf (e.soff + (r % e.sring) * e.sstep) (e.rows * e.rowbytes)
def CopyEntry.job (e : CopyEntry) (r : Nat) : Job :=
  { out := e.kind == 2, rows := e.rowsAt r, chunks := e.chunksAt r, left := e.chunksAt r
    mcast := if e.kind == 1 then e.members else 0, notify := e.notify, waiting := e.kind == 1 }

/-- A declared range grants an access (R337). -/
def Foot.grants (f : Foot) (wr : Bool) : Bool := f.acc == 3 || f.acc == 4 || f.acc == (if wr then 2 else 1)
/-- The bytes from lo to hi lie in granting ranges: step from range end to range end. -/
def footCovers (fs : List Foot) (wr : Bool) (hi : Nat) : Nat → Nat → Bool
  | 0, lo => decide (hi ≤ lo)
  | n + 1, lo =>
    if hi ≤ lo then true
    else
      let e := (fs.filter fun f => f.grants wr && f.base ≤ lo && lo < f.base + f.len).foldl (fun m f => max m (f.base + f.len)) lo
      if e ≤ lo then false else footCovers fs wr hi n e
def State.inFoot (s : State) (g : Group) (wr : Bool) (a : DWord) (n : Nat) : Bool :=
  let fs := match (s.team? g.team).bind fun t => s.task? g.sheet t.task with
    | some k => k.foots
    | none => []
  footCovers fs wr (a.toNat + n) (fs.length + 1) a.toNat

/-- Two lists of chunks of one round share one (R250). -/
def sharedChunk : List (List Nat) → Bool
  | [] => false
  | cs :: rest => cs.any (fun c => rest.any (·.contains c)) || sharedChunk rest

def execStage (o : FY) (s : State) :=
  runI (.stage o) (fun q s =>
    match s.team? q.g.team with
    | none => trapAll q .stage s
    | some t =>
      let st := o.code.toNat
      match t.sched with
      | none => trapAll q .stage s
      | some c =>
        let es := c.entries.filter fun e => e.stage == st
        if es.isEmpty then trapAll q .stage s
        else if 4 ≤ t.busyStage st then .wait (.stage st) s
        else
          let r := c.rel.getD st 0
          let jobs := es.map (·.job r)
          match jobs.findSome? fun j => j.rows.find? fun w => decide (2 ^ 57 ≤ w.1.toNat) with
          | some w => .trap .page q.sub w.1 0 s
          | none =>
            match jobs.findSome? fun j => (j.rows.find? fun w => !s.inFoot q.g j.out w.1 w.2.2) with
            | some w => .trap .footprint q.sub w.1 0 s
            | none =>
              let cs := jobs.flatMap (·.chunks)
              match t.failedIn cs with
              | some (_, c, a) => .trap c q.sub a 0 (s.nameFailed t.id cs)
              | none =>
                if t.anyAbsent cs || sharedChunk (jobs.map (·.chunks)) then trapAll q .stage s
                else
                  -- R257: a release at team scope
                  let (id, s1) := (s.releaseAt q.core 2 (s.pairedOf q.g)).takeFresh
                  .ok (s1.modTeam t.id fun t => { t with
                    absent := t.absent ++ cs, rounds := t.rounds ++ [{ id, stage := some st, r, jobs }]
                    sched := some { c with rel := c.rel.set st (r + 1) } })) s

/-! ### CWAIT, CTEST, CPY (R272, R273) -/

/-- The base and mask of CWAIT and CTEST (R269). -/
def cwBase (o : FY) (g : Group) : Nat := if o.yb = .v 0#8 then 0 else (g.rdS o.yb).toNat
def cwMask (o : FY) (g : Group) : Mask := if mbit o.mod 0 then o.code.setWidth 64 else g.rdS o.yc
/-- The named chunks. -/
def cwChunks (o : FY) (g : Group) : List Nat := (lanesOf 64 (cwMask o g)).map fun i => cwBase o g / 512 + i

/-- R272: the checks, then the continuation with the team. -/
def cwChecks (o : FY) (q : Q) (s : State) (k : Team → Res) : Res :=
  match s.team? q.g.team with
  | none => trapAll q .scratch s
  | some t =>
    let b := BitVec.ofNat 64 (cwBase o q.g)
    if cwBase o q.g % 512 != 0 || (cwChunks o q.g).any (fun c => decide (t.s ≤ 512 * c)) then .trap .scratch q.sub b 0 s
    else match t.failedIn (cwChunks o q.g) with
      | some (_, c, a) => .trap c q.sub a 0 (s.nameFailed t.id (cwChunks o q.g))
      | none => k t

/-- R258, R272: the acquire at team scope of the chunks that are found present; a mask of zero acquires nothing. -/
def State.acquireChunks (s : State) (q : Q) (cs : List Nat) : State :=
  if cs.isEmpty then s
  else (s.acquireAt q.core 2 (s.pairedOf q.g)).modTeam q.g.team fun t => if t.landed.isEmpty then t else t.seeChunks cs
def execCwait (o : FY) (s : State) :=
  runI (.cwait o) (fun q s => cwChecks o q s fun t =>
    if t.anyAbsent (cwChunks o q.g) then .wait (.chunks (cwBase o q.g) (cwMask o q.g).toNat (cwChunks o q.g)) s
    else .ok (s.acquireChunks q (cwChunks o q.g))) s

def execCtest (o : FY) (s : State) :=
  runI (.ctest o) (fun q s => cwChecks o q s fun t =>
    match o.ya with
    | .s d => .grp (s.acquireChunks q ((cwChunks o q.g).filter fun c => !t.absent.contains c)) (q.g.writeS q.pf d.toNat (maskOf 64 fun i =>
        (cwMask o q.g).getLsbD i && !t.absent.contains (cwBase o q.g / 512 + i)))
    | _ => trapAll q .illegal s) s

def execCpy (o : FM) (s : State) :=
  runI (.cpy o) (fun q s =>
    let out := mbit o.mod 0
    let n := (q.g.rdS o.data).toNat
    let off := (q.g.rdS o.index).toNat
    let a : Int := (q.g.rdS o.base).toNat + off24 o.off
    match s.team? q.g.team with
    | none => trapAll q .scratch s
    | some t =>
      if n == 0 || n % 512 != 0 || off % 512 != 0 || t.s < off + n then .trap .scratch q.sub (q.g.rdS o.index) 0 s
      else if a % 16 != 0 then .trap .align q.sub (addrOf a) 0 s
      else settleU q (s.rangeCond q.g a n 1 (if out then .wr else .rd)) s fun _ =>
        if !s.inFoot q.g out (addrOf a) n then .trap .footprint q.sub (addrOf a) 0 s
        else
          let cs := chunksOf off n
          match t.failedIn cs with
          | some (_, c, x) => .trap c q.sub x 0 (s.nameFailed t.id cs)
          | none =>
            if t.anyAbsent cs then trapAll q .stage s
            else
              let (id, s1) := (s.releaseAt q.core 2 (s.pairedOf q.g)).takeFresh
              .ok (s1.modTeam t.id fun t => { t with
                absent := t.absent ++ cs
                rounds := t.rounds ++ [{ id, stage := none, jobs := [{ out, rows := [(addrOf a, off, n)], chunks := cs, left := cs }] }] })) s

end Sys2Proof.Machine
end

