-- ==== Sys2Proof/Machine/Tasks.lean ====
section
/-!
DEFINITION. Sheet and task records, the checks of a submission (R335 to R347, R359), and the instructions of unit TSK
(R358 to R361).
-/
namespace Sys2Proof.Machine

/-- The bytes at a virtual address as an address space reads them through its page tables; none where a byte is not
readable (R317, R343). -/
def State.asnLoad (s : State) (asn va n : Nat) : Option (List Byte) :=
  if 2 ^ 57 < va + n then none
  else ((pagesOf va n).mapM fun p =>
    let x := max p va
    match s.walk asn x with
    | some (leaf, lv) =>
      if leafRD leaf && !leafRN leaf then
        some (s.mem.bulk (entAddr leaf / 2 ^ levelBits lv * 2 ^ levelBits lv + x % 2 ^ levelBits lv) (min (p + 65536) (va + n) - x))
      else none
    | none => none).map fun (x : List (List Byte)) => x.flatten

/-- The physical address of a byte that an address space maps with an access; none otherwise. -/
def State.asnPa (s : State) (asn va : Nat) (wr : Bool) : Option Nat :=
  if 2 ^ 57 ≤ va then none
  else match s.walk asn va with
    | some (leaf, lv) =>
      if leafRN leaf || (wr && !leafW leaf) || (!wr && !leafRD leaf) then none
      else some (entAddr leaf / 2 ^ levelBits lv * 2 ^ levelBits lv + va % 2 ^ levelBits lv)
    | none => none

/-- A footprint record (R337). -/
def parseFoot (r : List Byte) : Foot := { base := fieldAt r 0 8, len := fieldAt r 8 6, acc := fieldAt r 14 1 }
def footOk (r : List Byte) : Bool :=
  let f := parseFoot r
  decide (f.base < 2 ^ 57) && decide (1 ≤ f.len) && decide (f.base + f.len ≤ 2 ^ 57) && decide (1 ≤ f.acc) && decide (f.acc ≤ 4) &&
  fieldAt r 15 1 == 0 && (f.acc != 4 || (f.base % 65536 == 0 && f.len % 65536 == 0))
/-- R331: the pages of a rename range are level-0 leaves with RN set. -/
def State.renamable (s : State) (asn : Nat) (f : Foot) : Bool :=
  f.acc != 4 || (pagesOf f.base f.len).all fun p => match s.walk asn p with
    | some (leaf, 0) => leafRN leaf
    | _ => false

/-- A sheet or task record reduced to what R343 checks and a task needs. -/
structure Submission where
  kernel : Nat
  foot : Nat
  args : List DWord
  teams : Nat
  fpcount : Nat
  matrix : Bool
  notify : Bool
  cport : Nat
  formatOk : Bool
  scheds : Nat := 0
  schedcount : Nat := 0
  sealjob : Nat := 0
  gangOk : Bool := true
  deriving DecidableEq, Repr

def recArgs (r : List Byte) (off : Nat) : List DWord := (List.range 4).map fun i => BitVec.ofNat 64 (fieldAt r (off + 8 * i) 8)
def zeroAt (r : List Byte) (off n : Nat) : Bool := ((r.drop off).take n).all (· == 0#8)

/-- R335: a sheet record, with the field conditions of SUB_FORMAT. -/
def sheetRecord (r : List Byte) (asn : Nat) : Submission :=
  let f (off n : Nat) : Nat := fieldAt r off n
  let wait := (f 71 1).testBit 1
  { kernel := f 0 8, foot := f 8 8, scheds := f 16 8, sealjob := f 24 8, args := recArgs r 32, teams := f 66 2, fpcount := f 68 1
    schedcount := f 69 1, matrix := (f 71 1).testBit 0, notify := (f 71 1).testBit 2, cport := f 76 1
    formatOk := f 64 2 == asn && f 0 8 % 64 == 0 && f 8 8 % 16 == 0 && (f 69 1 != 0 || f 16 8 == 0) && f 24 8 % 16 == 0 &&
      decide (1 ≤ f 66 2) && decide (f 66 2 ≤ 4096) && decide (1 ≤ f 68 1) && decide (f 68 1 ≤ 64) && decide (f 69 1 ≤ 64) &&
      decide (f 70 1 < 4) && decide (f 71 1 < 8) && decide (f 74 2 ≤ 4096) && decide (f 76 1 < 64) && zeroAt r 77 3 &&
      decide (f 80 4 ≤ 1048576) && (if wait then decide (1 ≤ f 84 4) else f 84 4 == 0) && zeroAt r 92 36 }
/-- R359: a task record. -/
def taskRecord (r : List Byte) : Submission :=
  let f (off n : Nat) : Nat := fieldAt r off n
  { kernel := f 0 8, foot := f 8 8, args := recArgs r 16, teams := f 48 2, fpcount := f 50 1
    matrix := (f 51 1).testBit 0, notify := (f 51 1).testBit 2, cport := f 52 1, gangOk := false
    formatOk := f 0 8 % 64 == 0 && f 8 8 % 16 == 0 && decide (1 ≤ f 48 2) && decide (f 48 2 ≤ 4096) && decide (1 ≤ f 50 1) &&
      decide (f 50 1 ≤ 64) && (f 51 1 == 0 || f 51 1 == 1 || f 51 1 == 4 || f 51 1 == 5) && decide (f 52 1 < 64) && zeroAt r 53 11 }

/-- Declared ranges that the dependence table holds (R344). -/
def State.depRanges (s : State) : Nat :=
  (s.sheets.flatMap fun h => (h.tasks.filter fun t => t.st != .ended).map fun t => t.foots.length).foldl (· + ·) 0
/-- Cores that placement may use: nominal or derated (R351), over the 14 logical clusters of the four dies. -/
def State.liveCores (s : State) : List Nat :=
  ((List.range 4).flatMap fun d => (List.range 56).map fun i => 256 * d + 16 * (i / 4) + i % 4).filter fun c =>
    (s.core c).wst != .drained && (s.core c).wst != .retired && !(s.cluster (clusterOf c)).retired

/-- What a submission that passes every check brings. -/
structure Accepted where
  hdr : Header
  foots : List Foot
  scheds : List DWord
  sealJob : Option (DWord × Nat)

/-- A seal job descriptor (R454): OUT and KEYSLOT, none where the record names none. -/
def State.sealDesc (s : State) (asn at_ : Nat) : Except Nat (Option (Nat × Nat)) :=
  if at_ == 0 then .ok none
  else match s.asnLoad asn at_ 16 with
    | none => .error 5
    | some r =>
      let out := fieldAt r 0 8
      let slot := fieldAt r 8 1
      if out % 4096 != 0 || 16 ≤ slot || !zeroAt r 9 7 || !(s.trust.slots.any fun e => e.1 == slot) then .error 4
      else .ok (some (out, slot))
/-- R454: the record slots lie inside a write or readwrite range. -/
def sealRange (foots : List Foot) (out : Nat) : Bool :=
  foots.any fun f => (f.acc == 2 || f.acc == 3) && decide (f.base ≤ out) && decide (out + 65536 ≤ f.base + f.len)

/-- Rows SUB_FORMAT to SUB_RETRY of R343. -/
def State.checkSub (s : State) (asn : Nat) (b : Submission) (full : Bool) : Except Nat Accepted :=
  let sj := s.sealDesc asn b.sealjob
  if !b.formatOk then .error 4
  else match sj with
  | .error e =>
    -- SUB_FORMAT comes before SUB_FAULT, whatever else is unreadable
    .error e
  | .ok job =>
    match s.asnLoad asn b.foot (16 * b.fpcount), s.asnLoad asn b.scheds (8 * b.schedcount),
      (if b.kernel < 64 then none else s.asnLoad asn (b.kernel - 64) 64) with
    | some fb, some sb, some hb =>
      let recs := (List.range b.fpcount).map fun i => (fb.drop (16 * i)).take 16
      let foots := recs.map parseFoot
      match parseHeader hb with
      | none => .error 6
      | some h =>
        let units := b.teams * (if h.paired then 2 else 1)
        let inside := match job with
          | some (out, _) => sealRange foots out
          | none => true
        if h.gang && (!b.gangOk || s.liveCores.length < units) then .error 6
        else if !(recs.all footOk) || !(foots.all (s.renamable asn)) || !inside then .error 7
        else if full || Config.depRanges < s.depRanges + b.fpcount then .error 8
        else .ok { hdr := h, foots, scheds := (numsOf 8 b.schedcount sb).map (BitVec.ofNat 64)
                   sealJob := job.map fun e => (BitVec.ofNat 64 e.1, e.2) }
    | _, _, _ => .error 5

/-- The task of an accepted record. -/
def Submission.task (b : Submission) (a : Accepted) (num : Nat) (notify : Option (Nat × Nat)) : Task :=
  { num, kernel := BitVec.ofNat 64 b.kernel, hdr := a.hdr, foots := a.foots, args := b.args, teams := b.teams
    matrix := b.matrix, notify }

/-- The queue holds 64 accepted sheets that have not started; one that is replayed has (R343, R424). -/
def State.queueFull (s : State) (q : Nat) : Bool :=
  decide (64 ≤ (s.sheets.filter fun h => h.queue == q && h.st == .accepted && h.replays == 0).length)

/-- Rename pages that no sheet has reserved and that no page table or sheet uses (R346; log 9). -/
def State.poolRoom (s : State) : Nat :=
  s.poolFree.length + (4 * Config.renamePages - s.poolNext) - (s.sheets.map (·.rfree)).foldl (· + ·) 0
/-- R343 for a record on a queue: the code, and the state with the sheet accepted. STATUS is answered by the caller. -/
def State.submitRecord (s : State) (qn : Nat) (r : List Byte) (submitter : Option Nat) : Nat × State :=
  match s.queue? qn with
  | none => (3, s)
  | some q =>
    let seq := fieldAt r 88 4
    if seq != (q.lastSeq + 1) % 2 ^ 32 then (3, s)
    else
      let b := sheetRecord r q.asn
      match s.checkSub q.asn b (s.queueFull qn || s.closing) with
      | .error c => (c, s)
      | .ok a =>
        let (id, s1) := s.takeFresh
        let h : Sheet :=
          { id, sheetid := BitVec.ofNat 64 (q.slot.getD 0 * 2 ^ 52 + q.accepted + 1), queue := qn, seq, record := r, asn := q.asn
            prio := min (fieldAt r 70 1) q.ceiling, age := if fieldAt r 72 2 == 0 then 1000 else fieldAt r 72 2
            spawnLim := if fieldAt r 74 2 == 0 then 256 else fieldAt r 74 2, flags := fieldAt r 71 1, wakeReq := fieldAt r 84 4
            cport := fieldAt r 76 1, submitter, scheds := a.scheds, sealJob := a.sealJob, rpool := fieldAt r 80 4
            rfree := min (fieldAt r 80 4) s.poolRoom, immio := a.hdr.immio, capt := a.hdr.capt, gang := a.hdr.gang
            tasks := [b.task a 0 none], nextTeam := b.teams
            seals := if a.sealJob.isSome then (List.range 16).map fun n => { num := n } else [] }
        (1, { s1.modQueue qn (fun q => { q with lastSeq := seq, accepted := q.accepted + 1 }) with sheets := s1.sheets ++ [h] })

/-- R341, R343: STATUS takes the code with the record's SEQ, or for SUB_TORN the next SEQ; ANSWERS moves after it. -/
def State.answerQueue (s : State) (qn code seq : Nat) : State :=
  s.modQueue qn fun q =>
    let sq := if code == 2 then (q.lastSeq + 1) % 2 ^ 32 else seq
    { q with status := BitVec.ofNat 64 (sq * 2 ^ 32 + code), answers := (q.answers + 1) % 2 ^ 32 }

/-- R348: add to a wake count. -/
def State.addWake (s : State) (qn n : Nat) : State :=
  s.modQueue qn fun q => { q with wake := min (2 ^ 32 - 1) (q.wake + n), pending := q.pending || q.slot.isNone }

/-! ### TASK, SHEET, QNOTE (R360, R361) -/

/-- The record at an address, read as loads of the group: its bytes, and the state after the reads. -/
def withRecord (q : Q) (s : State) (a : DWord) (n : Nat) (k : List Byte → State → Res) : Res :=
  settleU q (s.rangeCond q.g a.toNat n n .rd) s fun _ =>
    let as := linePieces (s.segs q.g a.toNat n .rd)
    if s.segBad as || s.l1BadAny q.core as false then trapAll q .check s
    else withLines q s .load as fun t => k (t.mem.segLoad as) ((t.touch q.g a.toNat .rd).loadPieces q as)

/-- R58, R360: alignment is checked before the record is read, whatever the address. -/
def recordAligned (q : Q) (a : DWord) (n : Nat) (s : State) (k : Unit → Res) : Res :=
  if a.toNat % n != 0 then .trap .align q.sub a 0 s else k ()

/-- R360: the release at device scope for the subset's earlier accesses. -/
def Q.deviceRelease (q : Q) (s : State) : State := s.releaseAt q.g.core 4 (s.pairedOf q.g)

def scalarNum : Opnd → Nat
  | .s n => n.toNat
  | _ => 0

/-- R339, R360: the answer to a task record of a group, and the state in which the task exists with the numbers of its teams; none
while the dependence table has no room. -/
def State.answerTask (s : State) (g : Group) (r : List Byte) : Option (DWord × State) :=
  match s.sheet? g.sheet with
  | none => some (BitVec.ofNat 64 (2 ^ 63 + 4), s)
  | some h =>
    let b := taskRecord r
    match s.checkSub g.asn b false with
    | .error 8 => none
    | .error c => some (BitVec.ofNat 64 (2 ^ 63 + c), s)
    | .ok acc =>
      let num := h.tasks.length
      let nt := if b.notify then some (g.team, b.cport) else none
      some (BitVec.ofNat 64 num, s.modSheet h.id fun h =>
        { h with tasks := h.tasks ++ [{ b.task acc num nt with firstTeam := h.nextTeam }], nextTeam := h.nextTeam + b.teams })

def execTask (o : FY) (s : State) :=
  runI (.task o) (fun q s =>
    let a := q.g.rdS o.ya
    recordAligned q a 64 s fun _ => withRecord q s a 64 fun r t =>
      let s := q.deviceRelease t
      match s.answerTask q.g r with
      | some (x, t) => .ok (t.setGrp (((t.grp? q.g.id).getD q.g).writeS q.pf (scalarNum o.yb) x))
      | none => .wait (.answer (scalarNum o.yb) q.pf.cap.toNat q.pf.nwb r) s) s

def execSheet (o : FY) (s : State) :=
  runI (.sheet o) (fun q s =>
    let a := q.g.rdS o.ya
    let qn := (q.g.rdS o.yb).toNat
    recordAligned q a 128 s fun _ => withRecord q s a 128 fun r t =>
      match (s.queue? qn).filter (fun x => some x.proc == s.procOf q.g.sheet), o.yc with
      | some _, .s d =>
        let s := q.deviceRelease t
        let seq := fieldAt r 88 4
        let (code, s1) := s.submitRecord qn r (some q.g.team)
        let s2 := (s1.answerQueue qn code seq).modQueue qn fun x => { x with pending := x.pending || x.slot.isNone }
        let s3 := if code == 1 then s2.modSheet q.g.sheet fun h => { h with noReplay := true } else s2
        .ok (s3.setGrp (((s3.grp? q.g.id).getD q.g).writeS q.pf d.toNat (BitVec.ofNat 64 (seq * 2 ^ 32 + code))))
      | _, _ => trapAll q .access s) s

def execQnote (o : FY) (s : State) :=
  runI (.qnote o) (fun q s =>
    let qn := (q.g.rdS o.ya).toNat
    let n := (q.g.rdS o.yb).toNat
    match (s.queue? qn).filter (fun x => some x.proc == s.procOf q.g.sheet || x.grants.contains q.g.asn), s.sheet? q.g.sheet with
    | some _, some h =>
      .ok (if h.immio then s.addWake qn n
           else { s.modSheet h.id fun h => { h with deferred := h.deferred ++ [(s.fresh, 0, .qnote qn n)] } with fresh := s.fresh + 1 })
    | _, _ => trapAll q .access s) s

end Sys2Proof.Machine
end

