-- ==== Sys2Proof/Machine/Batch.lean ====
section
/-!
DEFINITION. Batches of the matrix engine (R195 to R213, R218, R492): what the engine sees, executing an instruction of a
batch, retirement, cancellation, holdership.
-/
namespace Sys2Proof.Machine

/-! ### Tiles and accumulators (R202, R205) -/

/-- A tile view: element width in bits, logical rows, elements and bytes of a row, bytes from row to row. -/
structure View where
  w : Nat
  rows : Nat
  elems : Nat
  rb : Nat
  step : Nat := 192
  deriving DecidableEq, Repr

/-- R202. -/
def viewOf : Nat → View
  | 0 => { w := 4, rows := 64, elems := 384, rb := 192 }
  | 1 => { w := 6, rows := 64, elems := 192, rb := 144 }
  | 2 => { w := 8, rows := 64, elems := 192, rb := 192 }
  | 3 => { w := 16, rows := 64, elems := 96, rb := 192 }
  | 4 => { w := 32, rows := 32, elems := 96, rb := 384, step := 384 }
  | 5 => { w := 64, rows := 32, elems := 48, rb := 384, step := 384 }
  | _ => { w := 16, rows := 64, elems := 24, rb := 48 }

/-- R180: n elements of width w of a bit stream. -/
def unpackElems (w n x : Nat) : List Nat := (List.range n).map fun k => x / 2 ^ (w * k) % 2 ^ w
def packElems (w : Nat) (es : List Nat) : Nat := es.foldr (fun e a => e % 2 ^ w + 2 ^ w * a) 0

def tileBytes : Nat := 12288
def accBytes : Nat := 16384
/-- The logical rows of a tile, each as the number its bytes make. -/
def MState.tileRows (m : MState) (t : Nat) (v : View) : List Nat :=
  let bs := m.tiles.bulk (t * tileBytes) tileBytes
  (List.range v.rows).map fun i => leNat ((bs.drop (v.step * i)).take v.rb)
/-- Replace the logical rows of a tile; bytes outside the view stay, or become zero. -/
def MState.setTileRows (m : MState) (t : Nat) (v : View) (clear : Bool) (rows : List Nat) : MState :=
  let bs := m.tiles.bulk (t * tileBytes) tileBytes
  let new := rows.zipIdx.flatMap fun (x, i) =>
    let rest := (bs.drop (v.step * i + v.rb)).take (v.step - v.rb)
    leBytes v.rb x ++ (if clear then rest.map fun _ => 0#8 else rest)
  { m with tiles := m.tiles.store (t * tileBytes) new }

/-- R205: columns and element bytes of a shape tag. -/
def tagCols (tag : Nat) : Nat := if tag < 2 then 32 else 64
def tagBytes (tag : Nat) : Nat := if tag == 0 then 8 else 4
/-- The elements of an accumulator under a tag, row by row. -/
def MState.accRows (m : MState) (c tag : Nat) : List (List Nat) :=
  let n := tagCols tag
  let bs := m.accs.bulk (c * accBytes) (n * n * tagBytes tag)
  (List.range n).map fun i => numsOf (tagBytes tag) n (bs.drop (i * n * tagBytes tag))
def MState.setAccRows (m : MState) (c tag : Nat) (rows : List (List Nat)) : MState :=
  { m with accs := m.accs.store (c * accBytes) (rows.flatMap fun r => r.flatMap (leBytes (tagBytes tag))) }
/-- R226: an accumulator of zeros with a tag. -/
def MState.clearAcc (m : MState) (c tag : Nat) : MState :=
  { m with accs := m.accs.store (c * accBytes) (List.replicate accBytes 0#8), tags := m.tags.set c (some tag) }

/-! ### What the engine sees (R207) -/

/-- The matrix state after every executed instruction of the group's batches. -/
def Group.engState (g : Group) (c : Core) : MState :=
  ((g.batches.filterMap fun b => b.pend.m).getLast?).getD c.mstate
/-- Tags after every issued instruction of the group's batches (R205, R226, R233). -/
def opTags (tags : List (Option Nat)) (op : MOp) : List (Option Nat) :=
  match op.i with
  | .czero o => tags.set o.cd.toNat (some (xfLo o 2))
  | .cwr o => tags.set o.cd.toNat (some (crTag o))
  | _ => tags
def Group.issueTags (g : Group) (c : Core) : List (Option Nat) :=
  (g.batches.flatMap (·.todo)).foldl opTags (g.engState c).tags

/-- A vector register of a lane with pending writes laid over a value. -/
def overlay (ps : List (Nat × List (Option (Word × Word)))) (r L : Nat) (x : Word) : Word :=
  ps.foldl (fun a e => if e.1 == r then
    match e.2.getD L none with
    | some (v, m) => (a &&& ~~~m) ||| (v &&& m)
    | none => a else a) x
/-- The value that an instruction of a batch reads: what it captured at its issue with the writes of earlier instructions
that are pending (R207). -/
def Group.engV (g : Group) (op : MOp) (r L : Nat) : Word :=
  overlay (g.batches.flatMap (·.pend.vregs)) r L ((getK op.regs [] r).getD L 0#32)
/-- Scratchpad and memory with the pending stores of the group. -/
def Group.engScratch (g : Group) (m : Mem) : Mem :=
  (g.batches.flatMap (·.pend.scratch)).foldl (fun m e => m.store e.1 e.2) m
def Group.engMem (g : Group) (m : Mem) : Mem :=
  (g.batches.flatMap (·.pend.mem)).foldl (fun m e => m.store e.1 e.2) m

/-! ### Arithmetic (R214 to R216) -/

/-- R227 codes 0 to 9. -/
def mFmt : Nat → Fmt
  | 0 => fp64
  | 1 => fp32
  | 2 => fl19
  | 3 => fp16
  | 4 => bf16
  | n => fmtOf n
/-- R202: the view of a format code of R227. -/
def fmtView : Nat → Nat
  | 0 => 5
  | 1 => 4
  | 2 => 4
  | 3 => 3
  | 4 => 3
  | 5 => 2
  | 6 => 2
  | 7 => 1
  | 8 => 1
  | 9 => 0
  | 10 => 2
  | 11 => 2
  | _ => 0
/-- The step and the accumulator tag of a class (R214). -/
def MClass.step : MClass → Nat
  | .d => 8
  | .s32 => 8
  | .s19 => 8
  | _ => 48
def MClass.tag : MClass → Nat
  | .d => 0
  | .s32 => 1
  | .s19 => 1
  | .i8 => 3
  | .i4 => 3
  | _ => 2

/-- The exact sum of the products of a step, with the flags of R215's first rows. -/
def stepSum (as bs : List FVal) : Exact :=
  let ps := List.zipWith fMulV as bs
  let vs := ps.map (·.v)
  let pos := vs.any fun v => v.isInf && !v.neg?
  let neg := vs.any fun v => v.isInf && v.neg?
  let fl := ps.foldl (fun f p => f ||| p.fl) (if pos && neg then flNV else flNone)
  if vs.any (·.isNan) || (pos && neg) then exNan fl
  else if pos || neg then { v := .inf neg, fl }
  else
    let ts := vs.filterMap fun v => match v with
      | .fin n m e => some (n, m, e)
      | _ => none
    let lo := ts.foldl (fun (a : Int) t => if t.2.1 == 0 then a else min a t.2.2) 4096
    let x := ts.foldl (fun (a : Int) t => if t.2.1 == 0 then a else a + dyInt t.1 t.2.1 t.2.2 lo) 0
    { v := if x == 0 then .fin (ts.all fun t => t.1 && t.2.1 == 0) 0 0 else .fin (x < 0) x.natAbs lo, fl }

/-- acc_add of R215 on a code of the accumulator's format. -/
def accAdd (f : Fmt) (rm : Rm) (acc : Nat) (s : Exact) : Rounded :=
  if s.v.isNan then { bits := f.canon, fl := s.fl }
  else
    let a := f.decode acc
    if a.isNan then { bits := f.canon, fl := s.fl }
    else
      let e := fAddV a s.v rm
      let r := fpRoundV f e.v rm
      { r with fl := r.fl ||| e.fl ||| s.fl }

/-- Cut a list into runs of n, k of them. -/
def chunkList {α : Type} (n : Nat) : Nat → List α → List (List α)
  | 0, _ => []
  | k + 1, xs => xs.take n :: chunkList n k (xs.drop n)

/-- One element of a floating accumulation: the steps in ascending K. -/
def accElem (f : Fmt) (rm : Rm) (c : Nat) (as bs : List (List FVal)) : Rounded :=
  (as.zip bs).foldl (fun acc (x, y) =>
    let r := accAdd f rm acc.bits (stepSum x y)
    { r with fl := r.fl ||| acc.fl }) { bits := c, fl := flNone }

/-- R215 over a shape: rows of A, columns of B, each cut into steps. -/
def floatAcc (tag : Nat) (rm : Rm) (a b : List (List (List FVal))) (c : List (List Nat)) : List (List Rounded) :=
  let f := if tag == 0 then fp64 else fp32
  List.zipWith (fun ra rc => List.zipWith (fun cb x => accElem f rm x ra cb) b rc) a c

/-- R216. -/
def intAcc (a b : List (List Int)) (c : List (List Nat)) : List (List Rounded) :=
  List.zipWith (fun ra rc => List.zipWith (fun cb x =>
    let t := readInt x 32 true + (List.zipWith (· * ·) ra cb).foldl (· + ·) 0
    let y := satInt t 32 true
    ({ bits := wrapNat y 32, fl := if y == t then flNone else flSV } : Rounded)) b rc) a c

/-- Write the results of an accumulation, with the flags they raise. -/
def MState.putAcc (m : MState) (c tag : Nat) (rs : List (List Rounded)) : MState × Flags :=
  (m.setAccRows c tag (rs.map fun r => r.map (·.bits)), rs.foldl (fun f r => r.foldl (fun f x => f ||| x.fl) f) flNone)

/-- The values of a tile in a plain format, by row, in steps. -/
def MState.values (m : MState) (t code step : Nat) : List (List (List FVal)) :=
  let v := viewOf (fmtView code)
  (m.tileRows t v).map fun x =>
    chunkList step (v.elems / step) ((unpackElems v.w v.elems x).map (mFmt code).decodeFlush)
/-- The values of a K48 tile by row, in blocks, with the scale of each block (R182, R228). -/
def MState.k48 (m : MState) (t code : Nat) (scale : Nat → Nat → Nat) : List (List (List FVal)) :=
  let v := viewOf (fmtView code)
  (m.tileRows t v).zipIdx.map fun (x, i) =>
    (chunkList 48 (v.elems / 48) (unpackElems v.w v.elems x)).zipIdx.map fun (es, j) =>
      es.map fun e => k48Value (fmtOf code) e (scale i j)
/-- The values of a CB16 tile by row, in blocks (R185, R229). -/
def MState.cb16 (m : MState) (t : Nat) (scale : Nat → Nat → Nat) : List (List (List FVal)) :=
  let book := (numsOf 4 256 (m.book.bulk 0 1024)).map (BitVec.ofNat 32)
  (m.tileRows t (viewOf 6)).zipIdx.map fun (x, n) =>
    (chunkList 6 4 (unpackElems 16 24 x)).zipIdx.map fun (es, j) => es.flatMap fun e => cb16Decode book e (scale n j)

/-! ### Executing one instruction of a batch -/

/-- What an instruction's execution adds to its batch. -/
structure Eff where
  m : MState
  vregs : List (Nat × List (Option (Word × Word))) := []
  mem : List (Nat × List Byte) := []
  scratch : List (Nat × List Byte) := []
  fl : Flags := flNone

/-- Scale byte b of a run from register r in a lane (R221). -/
def Group.scaleByte (g : Group) (op : MOp) (o : Opnd) (b L : Nat) : Nat :=
  match o with
  | .v r => (g.engV op (r.toNat + b / 4) L).toNat / 2 ^ (8 * (b % 4)) % 256
  | _ => 0

/-- R223: smooth one logical row. -/
def smoothRow (f : Fmt) (v : View) (ent : List FVal) (x : Nat) : Nat × Flags :=
  let rs := List.zipWith (fun e y =>
    let p := fMulV (f.decodeFlush e) y
    let r := fpRoundV f p.v .rne
    ({ r with fl := r.fl ||| p.fl } : Rounded)) (unpackElems v.w v.elems x) ent
  (packElems v.w (rs.map (·.bits)), rs.foldl (fun a r => a ||| r.fl) flNone)

/-- Binary32 values in scratchpad. -/
def words32 (m : Mem) (o n : Nat) : List FVal := (numsOf 4 n (m.bulk o (4 * n))).map fp32.decode

/-- The transpose that the column port makes (R204): columns as rows. -/
def transposeElems (v : View) (cols : List Nat) : List Nat :=
  let cs := cols.map (unpackElems v.w v.rows)
  (List.range v.rows).map fun i => packElems v.w (cs.map fun c => c.getD i 0)
def columnsOf (v : View) (rows : List Nat) : List Nat :=
  let rs := rows.map (unpackElems v.w v.elems)
  (List.range v.elems).map fun k => packElems v.w (rs.map fun r => r.getD k 0)

/-- R222, R223. -/
def effTld (o : FM) (op : MOp) (m : MState) (mem scr : Mem) : Eff :=
  let v := viewOf (mView o)
  let t := tileField o.data
  let raw := op.rows.map fun ss => leNat (mem.segLoad ss)
  let rows := if mbit o.mod 3 then transposeElems v raw else raw
  if mbit o.mod 4 then
    let f := if mView o == 3 then (if mbit o.mod 5 then bf16 else fp16) else (if mbit o.mod 5 then fl19 else fp32)
    let ent := words32 scr op.aux.toNat v.elems
    let rs := rows.map (smoothRow f v ent)
    { m := m.setTileRows t v true (rs.map (·.1)), fl := rs.foldl (fun a r => a ||| r.2) flNone }
  else { m := m.setTileRows t v true rows }

/-- R222: the stores of a TST, in memory-row order. -/
def effTst (o : FM) (op : MOp) (m : MState) : Eff :=
  let v := viewOf (mView o)
  let rows := m.tileRows (tileField o.data) v
  let (out, n) := if mbit o.mod 3 then (columnsOf v rows, v.rows * v.w / 8) else (rows, v.rb)
  { m, mem := (op.rows.zip out).flatMap fun (ss, x) => splitSegs ss (leBytes n x) }

/-- R227. -/
def effMma (o : FX) (m : MState) : Eff :=
  let fa := xfLo o 5
  let fb := o.xf.toNat / 32
  let rm := rmOf (o.mod.toNat % 4)
  let cd := o.cd.toNat
  match mClass fa fb with
  | none => { m }
  | some cl =>
    let r := if cl.tag == 3 then
        let ints (t code : Nat) : List (List Int) :=
          let v := viewOf (fmtView code)
          (m.tileRows t v).map fun x => (unpackElems v.w v.elems x).map fun e => readInt e v.w (code % 2 == 0)
        m.putAcc cd 3 (intAcc (ints o.ta.toNat fa) (ints o.tb.toNat fb) (m.accRows cd 3))
      else m.putAcc cd cl.tag
        (floatAcc cl.tag rm (m.values o.ta.toNat fa cl.step) (m.values o.tb.toNat fb cl.step) (m.accRows cd cl.tag))
    { m := r.1, fl := r.2 }

/-- R228: MMAK of an element format. -/
def effMmak (code : Nat) (o : FX) (g : Group) (op : MOp) (m : MState) : Eff :=
  let sc (r : Opnd) (i j : Nat) : Nat := g.scaleByte op r (o.bsel.toNat + j) i
  let r := m.putAcc o.cd.toNat 2 (floatAcc 2 (rmOf (o.mod.toNat % 4)) (m.k48 o.ta.toNat code (sc o.sa))
    (m.k48 o.tb.toNat code (sc o.sb)) (m.accRows o.cd.toNat 2))
  { m := r.1, fl := r.2 }
/-- R229. -/
def effMmacb (o : FX) (g : Group) (op : MOp) (m : MState) : Eff :=
  let sc (r : Opnd) (i j : Nat) : Nat := g.scaleByte op r (o.bsel.toNat + j) i
  let r := m.putAcc o.cd.toNat 2 (floatAcc 2 (rmOf (o.mod.toNat % 4)) (m.k48 o.ta.toNat (xfLo o 4) (sc o.sa))
    (m.cb16 o.tb.toNat (sc o.sb)) (m.accRows o.cd.toNat 2))
  { m := r.1, fl := r.2 }

/-- The descriptor of QNT and DQNT (R230). -/
structure QDesc where
  src : Nat
  stride : Nat
  smv : Nat
  smooth : Bool
  rsv : Nat
  deriving DecidableEq, Repr
def qDesc (x : DWord) : QDesc :=
  { src := x.toNat % 2 ^ 20, stride := x.toNat / 2 ^ 20 % 2 ^ 20, smv := x.toNat / 2 ^ 40 % 2 ^ 20
    smooth := x.getLsbD 60, rsv := x.toNat / 2 ^ 61 }
/-- The scratchpad ranges of the rows, and of the smoothing entries. -/
def QDesc.rows (d : QDesc) : List (Nat × Nat) := (List.range 64).map fun L => (d.src + L * d.stride, 192)
def QDesc.smRange (d : QDesc) : List (Nat × Nat) := if d.smooth then [(d.smv, 192)] else []

/-- R231: the x values of a row. -/
def qntRow (d : QDesc) (scr : Mem) (ent : List FVal) (L : Nat) : List FVal × Flags :=
  let xs := words32 scr (d.src + L * d.stride) 48
  if d.smooth then
    let rs := List.zipWith (fun x y =>
      let q := fDivV x y
      let r := fpRoundV fp32 q.v .rne
      ({ r with fl := r.fl ||| q.fl } : Rounded)) xs ent
    (rs.map fun r => fp32.decode r.bits, rs.foldl (fun a r => a ||| r.fl) flNone)
  else (xs, flNone)
def setBlock (w j : Nat) (row : Nat) (es : List Nat) : Nat :=
  let lo := 2 ^ (w * 48 * j)
  let hi := 2 ^ (w * 48 * (j + 1))
  row % lo + packElems w es * lo + row / hi * hi
def effQnt (o : FX) (op : MOp) (m : MState) (scr : Mem) : Eff :=
  let d := qDesc op.base
  let code := qFmt o
  let v := viewOf (fmtView code)
  let ent := words32 scr d.smv 48
  let rs := (List.range 64).map fun L =>
    let (xs, f1) := qntRow d scr ent L
    let (c, q, f2, _) := k48Quantise code xs (rmOf (qRm o)) (op.gens.getD L 0#32)
    (c, q, f1 ||| f2)
  let rows := List.zipWith (fun x r => setBlock v.w (qBlock o) x r.2.1) (m.tileRows o.ta.toNat v) rs
  let sh := 8 * (o.bsel.toNat % 4)
  { m := m.setTileRows o.ta.toNat v false rows
    vregs := match o.sb with
      | .v r => [(r.toNat + o.bsel.toNat / 4, rs.map fun x => some (BitVec.ofNat 32 (x.1 * 2 ^ sh), BitVec.ofNat 32 (255 * 2 ^ sh)))]
      | _ => []
    fl := rs.foldl (fun a r => a ||| r.2.2) flNone }

/-- R232. -/
def effDqnt (o : FX) (g : Group) (op : MOp) (m : MState) (scr : Mem) : Eff :=
  let d := qDesc op.base
  let code := qFmt o
  let v := viewOf (fmtView code)
  let ent := words32 scr d.smv 48
  let rs := (m.tileRows o.ta.toNat v).zipIdx.map fun (x, L) =>
    let es := (unpackElems v.w v.elems x).drop (48 * qBlock o) |>.take 48
    let vs := es.map fun e => k48Value (fmtOf code) e (g.scaleByte op o.sb o.bsel.toNat L)
    let ps : List Exact := if d.smooth then List.zipWith fMulV vs ent else vs.map fun v => { v }
    let qs : List Rounded := ps.map fun (p : Exact) =>
      let r := fpRoundV fp32 p.v (rmOf (qRm o))
      ({ r with fl := r.fl ||| p.fl } : Rounded)
    ((d.src + L * d.stride, qs.flatMap fun (r : Rounded) => leBytes 4 r.bits), qs.foldl (fun a (r : Rounded) => a ||| r.fl) flNone)
  { m, scratch := rs.map (·.1), fl := rs.foldl (fun a r => a ||| r.2) flNone }

/-- R233: the register that column t of a run goes to. -/
def crReg (o : FX) (t : Nat) : Nat :=
  match o.sa with
  | .v n => n.toNat + (if crTag o == 0 then 2 * t else t)
  | _ => 0
def effCrd (o : FX) (m : MState) : Eff :=
  let tag := crTag o
  let rows := m.accRows o.cd.toNat tag
  let col (t : Nat) : List Nat := rows.map fun r => r.getD (o.bsel.toNat + t) 0
  let full (xs : List Nat) : List (Option (Word × Word)) := xs.map fun x => some (BitVec.ofNat 32 x, 0xFFFFFFFF#32)
  { m, vregs := (List.range (crCols o)).flatMap fun t =>
      (crReg o t, full (col t)) :: (if tag == 0 then [(crReg o t + 1, full ((col t).map (· / 2 ^ 32)))] else []) }
def effCwr (o : FX) (g : Group) (op : MOp) (m : MState) : Eff :=
  let tag := crTag o
  let m1 := if m.tags.getD o.cd.toNat none == some tag then m else m.clearAcc o.cd.toNat tag
  let val (t i : Nat) : Nat :=
    (g.engV op (crReg o t) i).toNat + (if tag == 0 then 2 ^ 32 * (g.engV op (crReg o t + 1) i).toNat else 0)
  let rows := (m1.accRows o.cd.toNat tag).zipIdx.map fun (r, i) => r.zipIdx.map fun (x, j) =>
    if o.bsel.toNat ≤ j && j < o.bsel.toNat + crCols o then val (j - o.bsel.toNat) i else x
  { m := m1.setAccRows o.cd.toNat tag rows }

/-- The effect of an instruction of a batch on what the engine sees (R207). -/
def MOp.eff (op : MOp) (g : Group) (m : MState) (mem scr : Mem) : Eff :=
  match op.i with
  | .tld o => effTld o op m mem scr
  | .tst o => effTst o op m
  | .tzero o => { m := { m with tiles := m.tiles.store (o.ta.toNat * tileBytes) (List.replicate tileBytes 0#8) } }
  | .czero o => { m := m.clearAcc o.cd.toNat (xfLo o 2) }
  | .mma o => effMma o m
  | .mmake4m3 o => effMmak 5 o g op m
  | .mmake5m2 o => effMmak 6 o g op m
  | .mmake3m2 o => effMmak 7 o g op m
  | .mmake2m3 o => effMmak 8 o g op m
  | .mmake2m1 o => effMmak 9 o g op m
  | .mmacb o => effMmacb o g op m
  | .cbload _ => { m := { m with book := m.book.store 0 (op.rows.flatMap mem.segLoad) } }
  | .qnt o => effQnt o op m scr
  | .dqnt o => effDqnt o g op m scr
  | .crd o => effCrd o m
  | .cwr o => effCwr o g op m
  | _ => { m }

/-- The scratchpad ranges that an instruction reads, and those it will store to (R492). -/
def MOp.scrReads (op : MOp) : List (Nat × Nat) :=
  match op.i with
  | .tld o => if mbit o.mod 4 then [(op.aux.toNat, 4 * (viewOf (mView o)).elems)] else []
  | .qnt _ => (qDesc op.base).rows ++ (qDesc op.base).smRange
  | .dqnt _ => (qDesc op.base).smRange
  | _ => []
def MOp.scrWrites (op : MOp) : List (Nat × Nat) :=
  match op.i with
  | .dqnt _ => (qDesc op.base).rows
  | _ => []
def rangeChunks (rs : List (Nat × Nat)) : List Nat := (rs.flatMap fun e => chunksOf e.1 e.2).eraseDups

/-- The bytes of the logical rows of a tile. -/
def viewRange (t : Nat) (v : View) : List (Nat × Nat) := (List.range v.rows).map fun i => (t * tileBytes + v.step * i, v.rb)
/-- The bytes of block j of each row of a tile (R230). -/
def blockRange (t : Nat) (v : View) (j : Nat) : List (Nat × Nat) :=
  (List.range v.rows).map fun i => (t * tileBytes + v.step * i + 6 * v.w * j, 6 * v.w)
/-- The bytes of k columns of an accumulator from a first one. -/
def accRange (c tag first k : Nat) : List (Nat × Nat) :=
  (List.range (tagCols tag)).map fun i => (c * accBytes + (i * tagCols tag + first) * tagBytes tag, k * tagBytes tag)
/-- R421, R491: words that a read of ranges meets, and those that a write leaves. -/
def wordsHit (ws : List Nat) (rs : List (Nat × Nat)) : Bool :=
  !ws.isEmpty && ws.any fun w => rs.any fun e => decide (4 * w < e.1 + e.2) && decide (e.1 < 4 * w + 4)
def wordsLeft (ws : List Nat) (rs : List (Nat × Nat)) : List Nat :=
  if ws.isEmpty then [] else ws.filter fun w => !(rs.any fun e => decide (e.1 ≤ 4 * w) && decide (4 * w + 4 ≤ e.1 + e.2))
/-- The view of a K48 instruction's tiles. -/
def k48View (code : Nat) : View := viewOf (fmtView code)
/-- The bytes of tiles that an instruction reads (R421). -/
def MOp.tileReads (op : MOp) : List (Nat × Nat) :=
  let two (o : FX) (a b : View) : List (Nat × Nat) := viewRange o.ta.toNat a ++ viewRange o.tb.toNat b
  match op.i with
  | .tst o => viewRange (tileField o.data) (viewOf (mView o))
  | .mma o => two o (viewOf (fmtView (xfLo o 5))) (viewOf (fmtView (o.xf.toNat / 32)))
  | .mmake4m3 o => two o (k48View 5) (k48View 5)
  | .mmake5m2 o => two o (k48View 6) (k48View 6)
  | .mmake3m2 o => two o (k48View 7) (k48View 7)
  | .mmake2m3 o => two o (k48View 8) (k48View 8)
  | .mmake2m1 o => two o (k48View 9) (k48View 9)
  | .mmacb o => two o (k48View (xfLo o 4)) (viewOf 6)
  | .dqnt o => blockRange o.ta.toNat (k48View (qFmt o)) (qBlock o)
  | _ => []
/-- The accumulator of an accumulating instruction. -/
def MOp.accumulates (op : MOp) : Option Nat :=
  match op.i with
  | .mma o => some o.cd.toNat
  | .mmake4m3 o => some o.cd.toNat
  | .mmake5m2 o => some o.cd.toNat
  | .mmake3m2 o => some o.cd.toNat
  | .mmake2m3 o => some o.cd.toNat
  | .mmake2m1 o => some o.cd.toNat
  | .mmacb o => some o.cd.toNat
  | _ => none
/-- The bytes of accumulators that an instruction reads (R421). -/
def MOp.accReads (op : MOp) : List (Nat × Nat) :=
  let all (o : FX) (tag : Nat) : List (Nat × Nat) := accRange o.cd.toNat tag 0 (tagCols tag)
  match op.i with
  | .crd o => accRange o.cd.toNat (crTag o) o.bsel.toNat (crCols o)
  | .mma o => all o (match mClass (xfLo o 5) (o.xf.toNat / 32) with
    | some c => c.tag
    | none => 0)
  | _ => match op.accumulates with
    | some c => accRange c 2 0 (tagCols 2)
    | none => []
/-- The bytes of tiles and accumulators that an instruction writes, each word whole (R491); a CWR that gives its accumulator another tag
clears all of it (R233). -/
def MOp.mends (op : MOp) (m : MState) : List (Nat × Nat) × List (Nat × Nat) :=
  match op.i with
  | .tld o => ([(tileField o.data * tileBytes, tileBytes)], [])
  | .tzero o => ([(o.ta.toNat * tileBytes, tileBytes)], [])
  | .qnt o => (blockRange o.ta.toNat (k48View (qFmt o)) (qBlock o), [])
  | .czero o => ([], [(o.cd.toNat * accBytes, accBytes)])
  | .cwr o => ([], if m.tags.getD o.cd.toNat none == some (crTag o) then accRange o.cd.toNat (crTag o) o.bsel.toNat (crCols o)
      else [(o.cd.toNat * accBytes, accBytes)])
  | .crd _ => ([], [])
  | _ => ([], op.accReads)

/-- R218, R421: the batch of an instruction fails: a residue check that fails three times, or an uncorrectable error that it reads. -/
def engCheck (m : MState) (c : Core) (t : Team) (op : MOp) : Bool :=
  (op.accumulates.isSome && decide (3 ≤ c.residueRuns)) ||
  wordsHit m.badT op.tileReads || wordsHit m.badA op.accReads ||
  op.scrReads.any (fun e => t.badIn e.1 e.2) || op.bad

/-- R214, R219: the ck that an instruction occupies its path of the engine. -/
def MOp.occupancy (op : MOp) : Nat :=
  match op.i with
  | .mma o => match mClass (xfLo o 5) (o.xf.toNat / 32) with
    | some .d => 96
    | some .s32 => 96
    | some .s19 => 24
    | _ => 48
  | .tld _ => 64
  | .tst _ => 64
  | .qnt _ => 32
  | .dqnt _ => 32
  | .crd o => crCols o
  | .cwr o => crCols o
  | .cbload _ => 16
  | .tzero _ => 4
  | .czero _ => 4
  | _ => 48
/-- R210: the scratchpad as a waiting instruction has read it. -/
def MOp.seen (op : MOp) (scr : Mem) : Mem := op.got.foldl (fun m c => m.store (512 * c) (op.scr.bulk (512 * c) 512)) scr
/-- Execute an instruction whose turn it is, for batch number k of the group, charged to its team (R442); the check of the engine marks the batch
failed. -/
def State.runOp (s : State) (g : Group) (t : Team) (k : Nat) (op : MOp) : State :=
  let c := s.core g.core
  let e := op.eff g (g.engState c) (g.engMem op.snap) (g.engScratch (op.seen t.scratch))
  let bad := engCheck (g.engState c) c t op
  let made := op.mends (g.engState c)
  let m := { e.m with badT := wordsLeft e.m.badT made.1, badA := wordsLeft e.m.badA made.2 }
  let upd (b : Batch) : Batch :=
    { b with
      pend := { m := some m, vregs := b.pend.vregs ++ e.vregs, mem := b.pend.mem ++ e.mem
                scratch := b.pend.scratch ++ e.scratch, fl := b.pend.fl ||| e.fl }
      fail := if bad && b.fail.isNone then some (.check, 0#64) else b.fail }
  let s1 := s.setGrp { g with batches := g.batches.modify k upd }
  let s2 := if op.accumulates.isSome && decide (3 ≤ c.residueRuns) then s1.noteCheck g.core else s1
  let runs := if op.accumulates.isSome then min 3 (1 + c.residueRuns) else 1
  s2.modCore g.core fun c => { c.charge g.team g.sheet (runs * op.occupancy) with
    residueRuns := if op.accumulates.isSome then 0 else c.residueRuns }

/-- The engine goes through the holder's waiting instructions in issue order: it stops at one whose chunks are absent,
and marks the batch of one whose chunk has failed (R207, R492). -/
def State.engineRun (gid : Nat) : Nat → State → State
  | 0, s => s
  | n + 1, s =>
    match s.grp? gid with
    | none => s
    | some g =>
      match g.batches.zipIdx.find? fun (b, _) => !b.todo.isEmpty, s.team? g.team with
      | some (b, k), some t =>
        match b.todo with
        | [] => s
        | op :: rest =>
          match t.failedIn (rangeChunks op.scrReads) with
          | some (_, c, a) =>
            let b' := { b with todo := rest, fail := if b.fail.isNone then some (c, a) else b.fail }
            (s.setGrp { g with batches := g.batches.set k b' }).engineRun gid n
          | none =>
            if t.anyAbsent (rangeChunks op.scrReads) then s
            else
              let g1 := { g with batches := g.batches.set k { b with todo := rest } }
              ((s.setGrp g1).runOp g1 t k op).engineRun gid n
      | _, _ => s

/-- R210, R492: a waiting instruction reads each chunk that it names once the chunk is there. -/
def MOp.readScr (op : MOp) (t : Team) : MOp :=
  let cs := (rangeChunks op.scrReads).filter fun c => !op.got.contains c && !t.absent.contains c
  { op with got := op.got ++ cs, scr := cs.foldl (fun m c => m.store (512 * c) (t.scratch.bulk (512 * c) 512)) op.scr }
def Group.readScr (g : Group) (t : Team) : Group :=
  if g.batches.all fun b => b.todo.isEmpty then g
  else { g with batches := g.batches.map fun b => { b with todo := b.todo.map (·.readScr t) } }
/-- The waiting instructions of a group. -/
def Group.todoLen (g : Group) : Nat := (g.batches.map (·.todo.length)).foldl (· + ·) 0
/-- Run the engine as far as it goes. -/
def State.engine (s : State) (gid : Nat) : State :=
  match s.grp? gid with
  | none => s
  | some g => s.engineRun gid (g.todoLen)
/-- The engine's next instruction waits for a chunk (R492). -/
def State.engineBlocked (s : State) (g : Group) : Bool :=
  match g.batches.flatMap (·.todo), s.team? g.team with
  | op :: _, some t => t.anyAbsent (rangeChunks op.scrReads) && (t.failedIn (rangeChunks op.scrReads)).isNone
  | _, _ => false

/-! ### Retirement (R208, R210, R212, R218, R492) -/

/-- What retiring batches comes to: done; the oldest is not complete, or a store of it waits for a chunk; a failed
batch. -/
inductive Retire
  | done (s : State)
  | wait (s : State)
  | fail (c : Cause) (addr : DWord)

/-- R231, R491: a QNT's byte goes into a register word whose check fails. -/
def Group.badByte (g : Group) (ps : List (Nat × List (Option (Word × Word)))) : Bool :=
  !g.badV.isEmpty && (ps.foldl (fun (st : Bool × List (Nat × Nat)) e =>
    let at_ (w : Nat × Nat) : Option (Word × Word) := if w.1 == e.1 then e.2.getD w.2 none else none
    (st.1 || st.2.any (fun w => (at_ w).any fun x => x.2 != 0xFFFFFFFF#32), st.2.filter fun w => (at_ w).isNone)) (false, g.badV)).1
/-- The fault that a batch would raise: its mark, a failed chunk of its stores, or a partial store over an uncorrectable
error. -/
def Batch.failure (b : Batch) (s : State) (g : Group) (t : Team) : Option (Cause × DWord) :=
  match b.fail with
  | some f => some f
  | none =>
    match t.failedIn (b.pend.scratch.flatMap fun e => chunksOf e.1 e.2.length) with
    | some (_, c, a) => some (c, a)
    | none =>
      if (!s.bad.isEmpty && b.pend.mem.any fun e => s.badWrite e.1 e.2.length) || g.badByte b.pend.vregs ||
          s.l1BadAny g.core (linePieces (b.pend.mem.map fun e => (e.1, e.2.length))) true || b.pend.scratch.any (fun e => t.badPart e.1 e.2.length) then some (.check, 0#64) else none

/-- Write the pending vector registers of a batch. -/
def Group.commitV (g : Group) (ps : List (Nat × List (Option (Word × Word)))) : Group :=
  ps.foldl (fun h e => (h.setV e.1 (maskOf h.width fun L => (e.2.getD L none).isSome)
    ((List.range h.width).map fun L => overlay [e] e.1 L (h.v e.1 L))).killV e.1 1) g

/-- Captured values of instructions that still wait take the writes of a batch that retires, which stands before them (R207, R210). -/
def MOp.absorb (op : MOp) (p : Pending) : MOp :=
  { op with regs := op.regs.map fun e => (e.1, e.2.mapIdx fun L x => overlay p.vregs e.1 L x)
            snap := if op.snap.isEmpty && op.rows.isEmpty then op.snap else p.mem.foldl (fun m e => m.store e.1 e.2) op.snap
            scr := if op.got.isEmpty then op.scr else p.scratch.foldl (fun m e => m.store e.1 e.2) op.scr }

/-- Commit the oldest batch, in one indivisible step (R208): matrix state, registers, scratchpad, memory, and its flags to
the lanes of a mask. -/
def State.commitBatch (s : State) (g : Group) (b : Batch) (rest : List Batch) (fl : Mask) : State :=
  let ps := b.pend.vregs
  let g1 := { (g.commitV ps) with batches := rest.map fun (x : Batch) => { x with todo := x.todo.map fun (m : MOp) => m.absorb b.pend } }
  let g2 := g1.orFlags fl (fun _ => b.pend.fl)
  let s1 := (s.putGrp g g2).modCore g.core fun c => { c with mstate := b.pend.m.getD c.mstate }
  let s2 := s1.modTeam g.team fun t => b.pend.scratch.foldl (fun u e => u.scratchStore e.1 e.2) t
  let as := linePieces (b.pend.mem.map fun e => (e.1, e.2.length))
  (b.pend.mem.foldl (fun u e => u.sheetStore g.sheet e.1 e.2) s2).useCaches g.core .store as as

/-- Closed batches that have not retired. -/
def Group.closed (g : Group) : List Batch := g.batches.filter (·.closed)
def Group.openBatch (g : Group) : Option Batch := g.batches.find? fun b => !b.closed

/-- Retire closed batches until no more than n are left. -/
def State.retireTo (gid n : Nat) (fl : Mask) : Nat → State → Retire
  | 0, s => .done s
  | k + 1, s =>
    match s.grp? gid with
    | none => .done s
    | some g =>
      match s.team? g.team, g.batches with
      | some t, b :: rest =>
        if g.closed.length ≤ n then .done s
        else match (g.closed.take (g.closed.length - n)).findSome? fun x => x.failure s g t with
          | some (c, a) => .fail c a
          | none =>
            if !b.todo.isEmpty || t.anyAbsent (b.pend.scratch.flatMap fun e => chunksOf e.1 e.2.length) then .wait s
            else (s.commitBatch g b rest fl).retireTo gid n fl k
      | _, _ => .done s
def State.retire (s : State) (gid n : Nat) (fl : Mask) : Retire := s.retireTo gid n fl 5

/-- R211: cancel every batch of a group. -/
def State.cancelBatches (s : State) (gid : Nat) : State := s.modGrp gid fun g => { g with batches := [] }

/-! ### Holdership (R198, R234) -/

/-- The group of the core's matrix team that has an open or unretired batch. -/
def State.holder (s : State) (core team : Nat) : Option Nat :=
  (s.groups.find? fun g => g.core == core && g.team == team && !g.batches.isEmpty).map (·.id)

end Sys2Proof.Machine
end

