-- ==== Sys2Proof/Machine/Paging.lean ====
section
/-!
DEFINITION. Mapping pages (R317 to R320, R327): what a shard or the survey kernel writes into the page tables of an address
space. The pages and the free nodes of the tables are the kernel's choice and come with the event (log 9).
-/
namespace Sys2Proof.Machine

/-- The leaf of a mapping: bits RD, W, X and RN of PERM from bit 0 up (R319). -/
def leafOf (q : MapReq) : DWord := BitVec.ofNat 64 (3 + q.perm % 16 * 4 + q.pa)
/-- A table entry that names a node. -/
def tableTo (node : Nat) : DWord := BitVec.ofNat 64 (1 + node)

/-- Replace an entry that is invalid, or a leaf of the same page whose permissions all stay (R329). -/
def putLeaf (P : List (Nat × Nat)) (m : Mem) (at_ lv : Nat) (e : DWord) : Option Mem :=
  let old := BitVec.ofNat 64 (m.loadNat at_ 8)
  let wider := leafOk P lv old && entAddr old == entAddr e && old &&& e == old
  if (!leafOk P lv old && !tableOk P lv old) || wider then some (m.store at_ (leBytes 8 e.toNat)) else none

/-- Walk from a node of level lv to the target level, filling invalid entries with cleared free nodes, and put the leaf. -/
def mapFrom (P : List (Nat × Nat)) (va target : Nat) (e : DWord) : Nat → Nat → List Nat → Mem → Option Mem
  | 0, node, _, m => if target == 0 then putLeaf P m (node + 8 * vaIndex 0 va) 0 e else none
  | lv + 1, node, ns, m =>
    let a := node + 8 * vaIndex (lv + 1) va
    if target == lv + 1 then putLeaf P m a (lv + 1) e
    else
      let t := BitVec.ofNat 64 (m.loadNat a 8)
      if tableOk P (lv + 1) t then mapFrom P va target e lv (entAddr t) ns m
      else if leafOk P (lv + 1) t then none
      else match ns with
        | n :: rest =>
          if tableOk P (lv + 1) (tableTo n) then
            mapFrom P va target e lv n rest ((m.store n (List.replicate (nodeSize lv) 0#8)).store a (leBytes 8 (tableTo n).toNat))
          else none
        | [] => none

/-- R340: a range of an address space meets the submission page of a queue. -/
def State.meetsSub (s : State) (asn va n : Nat) : Bool :=
  s.queues.any fun q => q.asn == asn && q.page.any fun p => decide (p < va + n) && decide (va < p + 65536)
/-- R340: a 64 KiB page of the process for a queue's submissions: no memory is mapped there, and no other queue's page. -/
def State.subPageOk (s : State) (asn page : Nat) : Bool :=
  page % 65536 == 0 && decide (page < 2 ^ 57) && (s.walk asn page).isNone && !s.meetsSub asn page 65536
/-- Map one page in an address space; none where the mapping breaks R318 to R320, or meets a submission page. -/
def State.mapPage (s : State) (asn : Nat) (q : MapReq) : Option State :=
  let e := leafOf q
  if s.meetsSub asn q.va (2 ^ levelBits q.level) || 2 ^ 57 ≤ q.va || 2 < q.level || !leafOk s.pool q.level e || entAddr e != q.pa then none
  else match s.roots.find? fun r => r.1 == asn with
    | some r => (mapFrom s.pool q.va q.level e 4 r.2 q.nodes s.mem).map fun m => { s with mem := m }
    | none => match q.nodes with
      | n :: rest =>
        if n % nodeSize 4 != 0 || !paMapped s.pool n then none
        else (mapFrom s.pool q.va q.level e 4 n rest (s.mem.store n (List.replicate (nodeSize 4) 0#8))).map fun m =>
          { s with mem := m, roots := s.roots ++ [(asn, n)] }
      | [] => none

/-- Map every page of a list, or none. -/
def State.mapAll (s : State) (asn : Nat) : List MapReq → Option State
  | [] => some s
  | q :: qs => (s.mapPage asn q).bind fun t => t.mapAll asn qs

def Foot.reads (f : Foot) : Bool := f.acc == 1 || f.acc == 3
def Foot.writes (f : Foot) : Bool := f.acc == 2 || f.acc == 3
/-- The ranges of a task as the edges take them: a rename range that is not renamed counts as a write range (R346). -/
def Task.edgeFoots (t : Task) : List Foot :=
  t.foots.mapIdx fun i f => if f.acc == 4 && t.noRename.contains i then { f with acc := 3 } else f
/-- The 64 KiB pages that a range and a mapping share. -/
def sharedPages (f : Foot) (q : MapReq) : List Nat :=
  let lo := max f.base q.va
  let hi := min (f.base + f.len) (q.va + 2 ^ levelBits q.level)
  if lo < hi then pagesOf lo (hi - lo) else []
/-- R418: the pages of write ranges of tasks that run, armed as they are mapped. -/
def State.armMapped (s : State) (asn : Nat) (qs : List MapReq) : State :=
  let more (h : Sheet) : List Nat :=
    ((h.tasks.filter fun t => t.st == .ready).flatMap fun t => (t.edgeFoots.filter Foot.writes).flatMap fun f =>
      qs.flatMap fun q => sharedPages f q).filterMap fun p => (s.walk asn p).map fun (e, lv) =>
        entAddr e / 2 ^ levelBits lv * 2 ^ levelBits lv + p % 2 ^ levelBits lv
  { s with sheets := s.sheets.map fun h => if h.asn == asn then { h with armed := (h.armed ++ more h).eraseDups } else h }
/-- R389: a page of HBM that a memory shard places is on its own die. -/
def atHome (q : MapReq) : Bool := !isHbm q.pa || paHome q.pa == q.va / 2 ^ 28 % 4
/-- What a shard maps to serve a fault or a call, or none. -/
def State.mapServed (s : State) (asn : Nat) (qs : List MapReq) : Option State :=
  if !qs.all atHome then none
  else (s.mapAll asn qs).map fun t => qs.foldl (fun u q => u.refreshRo q.pa (2 ^ levelBits q.level)) (t.armMapped asn qs)

/-- The address of the leaf entry that maps an address (R318). -/
def leafAt (P : List (Nat × Nat)) (m : Mem) (va : Nat) : Nat → Nat → Option (Nat × Nat)
  | 0, node => if leafOk P 0 (BitVec.ofNat 64 (m.loadNat (node + 8 * vaIndex 0 va) 8)) then some (node + 8 * vaIndex 0 va, 0) else none
  | lv + 1, node =>
    let a := node + 8 * vaIndex (lv + 1) va
    let e := BitVec.ofNat 64 (m.loadNat a 8)
    if leafOk P (lv + 1) e then some (a, lv + 1) else if tableOk P (lv + 1) e then leafAt P m va lv (entAddr e) else none
/-- Clear the leaf that maps an address; the invalidation of R329 is the caller's. -/
def State.unmapPage (s : State) (asn va : Nat) : State :=
  match s.roots.find? fun r => r.1 == asn with
  | none => s
  | some r => match leafAt s.pool s.mem va 4 r.2 with
    | some (a, _) => { s with mem := s.mem.store a (leBytes 8 0) }
    | none => s

/-- The leaves under a node: the entry's address, its virtual page, its level. -/
def tableLeaves (P : List (Nat × Nat)) (m : Mem) : Nat → Nat → Nat → List (Nat × Nat × Nat)
  | 0, node, va => (List.range 32).filterMap fun i =>
    if leafOk P 0 (BitVec.ofNat 64 (m.loadNat (node + 8 * i) 8)) then some (node + 8 * i, va + 65536 * i, 0) else none
  | lv + 1, node, va =>
    let (n, bits) := match lv with
      | 0 => (128, 21)
      | 1 => (512, 28)
      | 2 => (512, 37)
      | _ => (2048, 46)
    (List.range n).flatMap fun i =>
      let e := BitVec.ofNat 64 (m.loadNat (node + 8 * i) 8)
      if leafOk P (lv + 1) e then [(node + 8 * i, va + 2 ^ bits * i, lv + 1)]
      else if tableOk P (lv + 1) e then tableLeaves P m lv (entAddr e) (va + 2 ^ bits * i) else []
/-- The leaves, with their address spaces, whose page holds a physical page. -/
def State.mappers (s : State) (page : Nat) : List (Nat × Nat × Nat × Nat) :=
  s.roots.flatMap fun r => (tableLeaves s.pool s.mem 4 r.2 0).filterMap fun (a, va, lv) =>
    let b := entAddr (BitVec.ofNat 64 (s.mem.loadNat a 8))
    if b ≤ page && page < b + 2 ^ levelBits lv then some (r.1, a, va, lv) else none
/-- R79: a physical page is mapped with execute permission somewhere. -/
def State.mappedX (s : State) (page : Nat) : Bool :=
  (s.mappers page).any fun e => leafX (BitVec.ofNat 64 (s.mem.loadNat e.2.1 8))

/-- R328, R329: the TLB entries of a page, or of an address space, are gone in every TLB. -/
def TlbEntry.named (e : TlbEntry) (asn : Nat) (all : Bool) (vpn : Nat) : Bool :=
  e.asn == asn && (all || e.va / 2 ^ e.bits == vpn * 65536 / 2 ^ e.bits)
def State.invalidate (s : State) (asn : Nat) (all : Bool) (vpn : Nat) : State :=
  { s with cores := s.cores.map fun (k, c) => (k, { c with tlb := c.tlb.filter fun e => !e.named asn all vpn })
           dies := s.dies.map fun (k, d) => (k, { d with tlb := d.tlb.filter fun e => !e.named asn all vpn }) }

end Sys2Proof.Machine
end

