-- ==== Sys2Proof/Machine/Admit.lean ====
section
/-!
DEFINITION. Admission of teams and groups (R82 to R88, R125, R192, R197, R238 to R241, R339, R408) and spawn bins (R99 to
R102).
-/
namespace Sys2Proof.Machine

/-- Register units of a group (R85). -/
def unitsOf (width vcount : Nat) : Nat := (vcount * width * 4 + 2047) / 2048
/-- Units held on a core by register-resident groups. -/
def State.unitsUsed (s : State) (core : Nat) : Nat :=
  ((s.groups.filter fun g => g.core == core && g.st == .resident).map fun g => unitsOf g.width g.vcount).foldl (· + ·) 0
/-- R82, R239: the chunks, or the groups, of a team that lie on a core, of n in all: those of its parity for a paired team. -/
def chunkShare (paired : Bool) (n core : Nat) : Nat := if paired then (n + 1 - core % 2) / 2 else n
/-- Chunks of a core that teams hold (R238, R239). -/
def State.chunksUsed (s : State) (core : Nat) : Nat :=
  ((s.teams.filter fun t => !t.frees && t.cores.contains core).map fun t => chunkShare t.paired (t.s / 512) core).foldl (· + ·) 0
/-- Contexts of a core in use (R84). -/
def State.ctxUsed (s : State) (core : Nat) : Nat := (s.groups.filter fun g => g.core == core && g.st != .saved).length

/-- The base of a core's frame pool of 96 frames of 128 KiB (R408); the survey kernel places it (log 9). -/
def framePool (core : Nat) : Nat :=
  dieOf core * 2 ^ 38 + 188 * 2 ^ 30 + (core / 16 % 16 * 4 + core % 4) * 12582912
/-- The lowest free frame of a core's pool. -/
def State.freeFrame (s : State) (core : Nat) : Option Nat :=
  let used := s.groups.map (·.frame)
  ((List.range Config.contexts).map fun n => framePool core + 131072 * n).find? fun a => !used.contains a

/-- What every group of a team is given at its start. -/
structure Launch where
  sheet : Sheet
  task : Nat
  teamid : Nat
  hdr : Header
  entry : DWord
  matrix : Bool := false
  sregs : List DWord := []
  threads : Option (List (List Word)) := none
  spawned : Bool := false

/-- A group at its start (R95, R125, R192, R339; R102 and R377 for a child group). -/
def Launch.group (l : Launch) (id team idx core ctx frame : Nat) : Group :=
  let w := l.hdr.width
  let seed (L : Nat) : Word := srSeed l.sheet.sheetid l.teamid idx L
  let here (L : Nat) : Bool := match l.threads with
    | some ts => decide (L < ts.length)
    | none => true
  { id, sheet := l.sheet.id, team, idx, asn := l.sheet.asn, sheetid := l.sheet.sheetid, teamid := l.teamid
    tsize := l.hdr.groups, width := w, vcount := l.hdr.vcount, scount := l.hdr.scount, waypt := l.hdr.waypt
    matrix := l.matrix, core, ctx, frame
    vregs := (List.range l.hdr.vcount).map fun n => match l.threads with
      | some ts => (List.range w).map fun L => (ts.getD L []).getD n 0#32
      | none => List.replicate w 0#32
    sregs := (List.range l.hdr.scount).map fun n => l.sregs.getD n 0#64
    preds := List.replicate 15 0#64
    lanes := (List.range w).map fun L =>
      { pc := l.entry, wp := l.entry, sr := seed L, srRec := seed L, exited := !here L }
    roMem := some l.sheet.roMem }

/-- R82, R240, R408: every core has the contexts, frames and chunks that its share of the team needs. -/
def State.roomFor (s : State) (l : Launch) (cores : List Nat) : Bool :=
  cores.all fun c =>
    let share := chunkShare l.hdr.paired l.hdr.groups c
    decide (s.ctxUsed c + share ≤ Config.contexts) && decide (s.chunksUsed c + chunkShare l.hdr.paired (l.hdr.scratch / 512) c ≤ Config.chunks) &&
    decide ((s.groups.filter fun g => framePool c ≤ g.frame && g.frame < framePool c + 12582912).length + share ≤ Config.contexts)

/-- R83: the block of a group's width that the fewest groups of the core overlap, the lowest of them (log 28). -/
def State.leastBlock (s : State) (core width : Nat) : Nat :=
  let load (b : Nat) : Nat := (s.groups.filter fun g => g.core == core && g.st != .saved &&
    g.overlaps { id := 0, width, block := b }).length
  (List.range (64 / width)).foldl (fun b n => if load n < load b then n else b) 0

/-- Admit one group of a team; the groups of a paired team alternate between its cores (log 9). -/
def State.admitGroup (s : State) (l : Launch) (team idx core : Nat) : State :=
  let (id, s1) := s.takeFresh
  let g := l.group id team idx core ((s1.freeCtx core).getD 0) ((s1.freeFrame core).getD (framePool core))
  let fits := decide (s1.unitsUsed core + unitsOf g.width g.vcount ≤ Config.units)
  let g := { g with block := s1.leastBlock core g.width }
  let g := if fits then g else { g with st := .parked, parkedAt := (s1.core core).cycle.toNat }
  let s1 := if fits then s1 else s1.parkRegs g
  { s1 with groups := s1.groups ++ [g] }.modTeam team fun t => { t with groups := t.groups ++ [id] }

/-- Admit a team on its cores, every group at once, or nothing (R82). Its scratchpad is zero and present (R241); matrix
state it is allotted reads as zero with every tag NONE (R197). -/
def State.admitTeam (s : State) (l : Launch) (cores : List Nat) : Option State :=
  if !s.roomFor l cores then none
  else
    let (id, s1) := s.takeFresh
    let t : Team :=
      { id, sheet := l.sheet.id, task := l.task, teamid := l.teamid, size := l.hdr.groups, cores, s := l.hdr.scratch
        paired := l.hdr.paired, matrix := l.matrix, groups := [], spawned := l.spawned, seq := id }
    let s2 := { s1 with teams := s1.teams ++ [t] }
    let s3 := (List.range l.hdr.groups).foldl (fun u i => u.admitGroup l id i (cores.getD (i % cores.length) 0)) s2
    some (if l.matrix then
      -- R196: of the cores on which it has groups
      (cores.filter fun c => decide (chunkShare l.hdr.paired l.hdr.groups c ≠ 0)).foldl (fun u c => u.modCore c fun k =>
        { k with mstate := {}, mowner := some id, mopenQ := [] }) s3
    else s3)

/-! ### Spawn bins (R99 to R102) -/

/-- Child groups of a sheet that have not exited, admitted or not (R102). -/
def State.children (s : State) (sheet : Nat) : Nat :=
  (s.teams.filter fun t => t.sheet == sheet && t.spawned && !t.exited).length +
  (match s.sheet? sheet with
   | some h => h.spawnWait.length
   | none => 0)
def State.atSpawnLimit (s : State) (sheet more : Nat) : Bool :=
  match s.sheet? sheet with
  | some h => decide (h.spawnLim < s.children sheet + more)
  | none => true

/-- The header of the kernel at an entry, read through a group's translation (R72, R117). -/
def State.headerAt (s : State) (g : Group) (entry : DWord) : Option Header :=
  match s.fetchLine g (lineBase entry - 64#64) with
  | .bytes bs _ => parseHeader bs
  | _ => none

/-- The launch of a bin's threads as a child group (R102, R377). -/
def Bin.launch (b : Bin) (h : Sheet) : Launch :=
  { sheet := h, task := b.task, teamid := h.nextTeam, hdr := b.hdr, entry := b.entry, threads := some b.args, spawned := true }

/-- R355: region 7 d + k of a core. -/
def regionOf (core : Nat) : Nat := 7 * dieOf core + core / 16 % 16 / 2
/-- R355: the unit lies in a region that another sheet has reserved. -/
def State.barred (s : State) (sheet : Nat) (cs : List Nat) : Bool :=
  cs.any fun c => s.reserved.any fun e => e.1 != sheet && e.2.contains (regionOf c)
/-- Add to a queue's capture record while its area has room (R427). -/
def CapEntry.size : CapEntry → Nat
  | .page _ d => d.length
  | .place _ _ _ _ => 16
  | .result _ _ _ _ a _ _ _ v => 8 * (v.length + (a.map List.length).foldl (· + ·) 0)
  | .bytes _ _ _ _ _ d => d.length
  | .scratch _ _ _ _ d => d.length
def State.capture (s : State) (sheet : Nat) (e : CapEntry) : State :=
  match s.sheet? sheet with
  | none => s
  | some h =>
    if !h.capture then s
    else s.modQueue h.queue fun q =>
      let used := (q.capRec.map CapEntry.size).foldl (· + ·) 0
      match q.capArea with
      | some (_, n) => if q.capFull || n < used + e.size then { q with capFull := true } else { q with capRec := q.capRec ++ [e] }
      | none => q
/-- R427: the placements of a team that has been admitted, in its queue's capture record. -/
def State.recordPlaces (s : State) (sheet teamid team : Nat) : State :=
  (s.groups.filter fun g => g.team == team).foldl (fun v g => v.capture sheet (.place teamid g.idx g.core g.ctx)) s
/-- The core on which a captured team was placed. -/
def CapEntry.placedOn (teamid : Nat) : CapEntry → Option Nat
  | .place tid _ c _ => if tid == teamid then some c else none
  | _ => none
/-- R428: the cores on which a re-run's record places a team. -/
def Sheet.wanted (h : Sheet) (teamid : Nat) : List Nat :=
  match h.rerun with
  | some es => es.filterMap (CapEntry.placedOn teamid)
  | none => []
/-- The cores that the teams of a process hold (R349). -/
def State.procCores (s : State) (proc : Nat) : List Nat :=
  ((s.teams.filter fun t => !t.frees && s.procOf t.sheet == some proc).flatMap (·.cores)).eraseDups
/-- R349: the process would hold no more cores than its quota. -/
def State.quotaAllows (s : State) (sheet : Nat) (cs : List Nat) : Bool :=
  match (s.sheet? sheet).bind fun h => s.queue? h.queue with
  | none => false
  | some q => decide (((s.procCores q.proc ++ cs).eraseDups).length ≤ q.quota)
/-- Admit a child group on a core, or keep it for Meridian to place (R102, R349, R355). -/
def State.launchChild (s : State) (core : Nat) (b : Bin) : State :=
  match s.sheet? b.sheet with
  | none => s
  | some h =>
    let s1 := s.modSheet b.sheet fun k => { k with nextTeam := k.nextTeam + 1 }
    let want := h.wanted h.nextTeam
    match if s.ckptStop || s.barred b.sheet [core] || !s.quotaAllows b.sheet [core] || !(want.isEmpty || want.contains core) then none else s1.admitTeam (b.launch h) [core] with
    | some t => t.recordPlaces b.sheet h.nextTeam s1.fresh
    | none => s.modSheet b.sheet fun k => { k with spawnWait := k.spawnWait ++ [b] }

/-- R100: a launch empties the bin and stops its timer. -/
def State.launchBin (s : State) (core : Nat) (b : Bin) : State :=
  (s.modCore core fun c => { c with bins := c.bins.filter fun x => x.order != b.order }).launchChild core b

/-- R99, R101, R117: one thread enters the bin of its key, which is taken, after the oldest bin has made room, when there
is none; a full bin launches. -/
def State.deposit (s : State) (core sheet task : Nat) (entry : DWord) (hdr : Header) (arg : List Word) : State :=
  let key (b : Bin) : Bool := b.sheet == sheet && b.entry == entry
  let s1 :=
    if (s.core core).bins.any key then s
    else
      let s0 := if (s.core core).bins.length < 16 then s
        else match (s.core core).bins.head? with
          | some old => s.launchBin core old
          | none => s
      s0.modCore core fun c =>
        { c with bins := c.bins ++ [{ sheet, task, entry, hdr, args := [], start := c.cycle.toNat, order := c.binSeq }]
                 binSeq := c.binSeq + 1 }
  let s2 := s1.modCore core fun c => { c with bins := c.bins.map fun b => if key b then { b with args := b.args ++ [arg] } else b }
  match (s2.core core).bins.find? key with
  | some b => if b.hdr.width ≤ b.args.length then s2.launchBin core b else s2
  | none => s2

end Sys2Proof.Machine
end

