-- ==== Sys2Proof/Machine/Ports.lean ====
section
/-!
DEFINITION. Message ports and the join unit (R362 to R379), and the instructions of unit PRT (R380 to R383).
-/
namespace Sys2Proof.Machine

/-- Bits [63:0] of a message (R362). -/
def Msg.lo (m : Msg) : DWord := BitVec.ofNat 64 (m.kind % 256 + m.port % 64 * 256 + m.info % 65536 * 65536 + m.aux % 2 ^ 32 * 2 ^ 32)
/-- The four words of a message, low word first (R377). -/
def Msg.words (m : Msg) : List Word := [lo32 m.lo, hi32 m.lo, lo32 m.data, hi32 m.data]

def Team.port? (t : Team) (n : Nat) : Option Port := t.ports.find? fun p => p.num == n
def Team.modPort (t : Team) (n : Nat) (f : Port → Port) : Team :=
  { t with ports := t.ports.map fun p => if p.num == n then f p else p }
/-- R369: a message discarded at a number counts in LOST, saturating. -/
def Team.lose (t : Team) (n k : Nat) : Team := { t with lost := setK t.lost n (min 65535 (getK t.lost 0 n + k)) }
/-- R367: a SEND finds the port full. -/
def Port.full (p : Port) : Bool := p.q.length + p.held.length == p.depth || !p.held.isEmpty

/-- R373: every named port holds a message. -/
def Team.allHold (t : Team) (ps : List Nat) : Bool :=
  ps.all fun n => match t.port? n with
    | some p => !p.q.isEmpty
    | none => false
/-- R373: ARMED and READY follow what the ports hold. -/
def Team.refresh (t : Team) : Team := { t with pats := t.pats.map fun p => { p with ready := t.allHold p.ports } }

/-- R373: enabled: a wake pattern whose owner waits at `recv.pat`, or a spawn pattern below its sheet's limit. -/
def State.patEnabled (s : State) (t : Team) (p : Pattern) : Bool :=
  p.ready && (if p.spawn then !s.atSpawnLimit t.sheet 1
    else match s.grp? p.owner with
      | some g => (List.range g.width).any fun L => !(g.lane L).exited && (match (g.lane L).wait with
          | .recvPat _ _ => true
          | _ => false)
      | none => false)
/-- R374: a waiting RECV is enabled when its port holds a message. -/
def Team.recvEnabled (t : Team) (r : Recv) : Bool := t.allHold [r.port]

/-- R374: what the join unit of a core chooses among: a pattern or a waiting RECV of a team. -/
inductive Consumer
  | pat (t : Team) (p : Pattern)
  | recv (t : Team) (r : Recv)
  deriving DecidableEq, Repr

/-- R374: a pattern's effective level. -/
def Pattern.level (p : Pattern) : Nat := if p.age == 8 then 5 else p.prio
/-- R374: the first of two consumers is chosen before the second: effective level, AGE, a RECV before a pattern, the lowest pattern
number, the RECV presented first; patterns of two teams that agree in all of these, the team that stands first (log 30). -/
def Consumer.before (a b : Consumer) : Bool :=
  match a, b with
  | .pat _ p, .pat _ r => decide (r.level < p.level) || (p.level == r.level && (decide (r.age < p.age) || (p.age == r.age && decide (p.num < r.num))))
  | .pat _ p, .recv _ _ => decide (4 < p.level)
  | .recv _ _, .pat _ p => decide (p.level ≤ 4)
  | .recv _ r, .recv _ x => decide (r.seq < x.seq)
def bestConsumer (cs : List Consumer) : Option Consumer :=
  cs.foldl (fun b c => match b with
    | none => some c
    | some x => if c.before x then some c else b) none

/-- Take the head message of a port. -/
def Team.takeHead (t : Team) (n : Nat) : Team := t.modPort n fun p => { p with q := p.q.drop 1 }
def Team.headMsg (t : Team) (n : Nat) : Msg :=
  match t.port? n with
  | some p => p.q.headD { data := 0#64, kind := 0 }
  | none => { data := 0#64, kind := 0 }
/-- R375: enabled patterns that name a port from which the chosen consumer takes a message grow older. -/
def Team.agePats (t : Team) (en : List Nat) (taken : List Nat) (chosen : Option Nat) : Team :=
  { t with pats := t.pats.map fun p =>
      if some p.num != chosen && en.contains p.num && p.ports.any taken.contains then { p with age := min 8 (p.age + 1) } else p }

/-- A port number and the scalar registers that a message is written to (R376, R381). -/
def Group.takeMsg (g : Group) (d : Nat) (m : Msg) : Group := ((g.setS d m.lo).killS d).setS (d + 1) m.data |>.killS (d + 1)

/-- R381: a RECV takes its message: D and D + 1 are written, the subset goes on. -/
def Group.recvDone (g : Group) (port : Nat) (mask : Mask) (m : Msg) : Group :=
  let isW (w : Wait) : Option (Nat × Nat) := match w with
    | .recv p d c => if p == port then some (d, c) else none
    | _ => none
  match (lanesOf g.width mask).findSome? fun L => if (g.lane L).exited then none else (isW (g.lane L).wait).map fun x => (L, x) with
  | none => g
  | some (L, d, c) =>
    let sub := g.subsetAt L &&& mask
    let pc := (g.lane L).pc
    let h := g.takeMsg d m
    (h.capture (BitVec.ofNat 2 c) { st := .lost, reg := d, kind := .scalar, wb := true, vals := [m.lo] }).moveTo sub (nextPc pc)

/-- R376: a wake pattern fires: messages to s(SBASE + 2i), s(SBASE + 2i + 1), the number to the destination of the owner's
`recv.pat`. -/
def Group.wakeDone (g : Group) (p : Pattern) (ms : List Msg) : Group :=
  let isW (w : Wait) : Option (Nat × Nat) := match w with
    | .recvPat d c => some (d, c)
    | _ => none
  match (List.range g.width).findSome? fun L => if (g.lane L).exited then none else (isW (g.lane L).wait).map fun x => (L, x) with
  | none => g
  | some (L, d, c) =>
    let sub := g.subsetAt L
    let pc := (g.lane L).pc
    let h := (ms.zipIdx).foldl (fun u (m, i) => u.takeMsg (p.sbase + 2 * i) m) g
    let h := (h.setS d (BitVec.ofNat 64 p.num)).killS d
    (h.capture (BitVec.ofNat 2 c) { st := .lost, reg := d, kind := .scalar, wb := true, vals := [BitVec.ofNat 64 p.num] }).moveTo sub (nextPc pc)

/-- R381: a RECV whose port has closed, or a `recv.pat` whose group owns no wake pattern any more: E_ACCESS at the instruction. -/
def State.refuse (s : State) (gid : Nat) (p : Wait → Bool) : State :=
  match s.grp? gid with
  | none => s
  | some g =>
    if g.waits p then s.updGroup gid fun g =>
      { g with lanes := g.lanes.map fun (l : Lane) => if !l.exited && p l.wait then { l with wait := .none, due := some .access } else l }
    else s
def Wait.atPort (n : Nat) : Wait → Bool
  | .recv q _ _ => q == n
  | _ => false
def Wait.atPat : Wait → Bool
  | .recvPat _ _ => true
  | _ => false
/-- The groups of a team that wait at `recv.pat` and own no wake pattern. -/
def State.refusePats (s : State) (team : Nat) : State :=
  match s.team? team with
  | none => s
  | some t => (s.groups.filter fun g => g.team == team && !(t.pats.any fun x => !x.spawn && x.owner == g.id)).foldl
      (fun u g => u.refuse g.id Wait.atPat) s
/-- R378, R397: messages are taken on a core: an acquire at the scope at which each was released; of the part's own, replies of calls alone
carry one. -/
def State.takesOn (s : State) (core : Nat) (paired : Bool) (ms : List Msg) : State :=
  let sc := ms.foldl (fun n m => max n m.scope) 0
  if sc == 0 then s else s.acquireAt core sc paired
def State.takes_ (s : State) (gid : Nat) (ms : List Msg) : State :=
  match s.grp? gid with
  | some g => s.takesOn g.core (s.pairedOf g) ms
  | none => s

/-- R373, R376, R377: FIRE, one indivisible step. -/
def State.fire (s : State) (t : Team) (p : Pattern) (en : List Nat) : State :=
  let ms := p.ports.map t.headMsg
  let t1 := (p.ports.foldl (fun u n => u.takeHead n) t).agePats en p.ports (some p.num)
  let pats :=
    if p.once then t1.pats.filter fun x => x.num != p.num
    else t1.pats.map fun x => if x.num == p.num then { x with age := 0, matchCount := x.matchCount + 1 } else x
  let s1 := s.modTeam t.id fun _ => ({ t1 with pats }).refresh
  match p.spawn, p.hdr with
  | true, some h => (s1.takesOn p.core t.paired ms).deposit p.core t.sheet t.task p.handler h (ms.flatMap Msg.words)
  | _, _ => ((s1.takes_ p.owner ms).updGroup p.owner fun g => g.wakeDone p ms).refusePats t.id

/-- R373, R374: the enabled consumers of a core, by team in the order of the teams. -/
def State.consumers (s : State) (core : Nat) : List Consumer :=
  (s.teams.filter fun t => t.cores.contains core).flatMap fun t0 =>
    let t := t0.refresh
    (t.pats.filter fun p => p.core == core && s.patEnabled t p).map (.pat t) ++
    (t.recvs.filter fun r => t.recvEnabled r && (match t.port? r.port with
      | some p => p.core == core
      | none => false)).map (.recv t)
/-- R375: the enabled patterns of a team, on each of its cores. -/
def State.enabledPats (s : State) (team : Nat) : List Nat :=
  match s.team? team with
  | none => []
  | some t => (t.refresh.pats.filter (s.patEnabled t.refresh)).map (·.num)
/-- R374: a core's join unit chooses at most one consumer, and repeats until none is enabled. -/
def State.joinUnit (core : Nat) : Nat → State → State
  | 0, s => s
  | k + 1, s =>
    let cs := s.consumers core
    match bestConsumer cs with
    | some (.pat t p) => (s.fire t p (s.enabledPats t.id)).joinUnit core k
    | some (.recv t r) =>
      let m := t.headMsg r.port
      let t1 := (t.takeHead r.port).agePats (s.enabledPats t.id) [r.port] none
      let s1 := s.modTeam t.id fun _ => ({ t1 with recvs := t1.recvs.erase r }).refresh
      ((s1.takes_ r.gid [m]).updGroup r.gid fun g => g.recvDone r.port r.mask m).joinUnit core k
    | none => { s with teams := s.teams.map fun t => if t.cores.contains core then t.refresh else t }
/-- As many choices as there are messages in the core's ports, and one more. -/
def State.joinCore (s : State) (core : Nat) : State :=
  s.joinUnit core (((s.teams.filter fun t => t.cores.contains core).flatMap (·.ports)).foldl (fun n p => n + p.q.length) 1)
/-- R374: the join units of the cores of a team act after an event of its ports. -/
def State.join (s : State) (team : Nat) : State :=
  match s.team? team with
  | none => s
  | some t => t.cores.foldl State.joinCore s

/-- A message enters a port (R366), and the join unit acts. -/
def State.enter (s : State) (team n : Nat) (m : Msg) : State :=
  (s.modTeam team fun t => t.modPort n fun p => { p with q := p.q ++ [{ m with port := n }] }).join team

/-- Lanes of a group whose messages still wait at a port. -/
def State.blockedLanes (s : State) (gid : Nat) : Mask :=
  Mask.ofLanes (s.teams.flatMap fun t => t.ports.flatMap fun p => (p.blocked.filter fun b => b.gid == gid).map (·.lane))

/-- R367: the message of a lane that was blocked has entered, or is discarded with its port; once every message of its subset
has, the subset goes on. -/
def State.sendEntered (s : State) (gid lane : Nat) : State :=
  let left := s.blockedLanes gid
  s.updGroup gid fun g =>
    match (g.lane lane).wait with
    | .send e =>
      let sub := g.subsetAt lane
      if left &&& sub == 0#64 then g.moveTo sub (nextPc (g.lane lane).pc) else g.waitAt sub (.send (e ||| (1#64 <<< lane)))
    | _ => g

/-- R370: a port closes: its messages are discarded, patterns that name it are disarmed, blocked senders are released
with their messages counted in LOST, and a RECV that waits on it faults (R381). -/
def State.closePort (s : State) (team n : Nat) : State :=
  match s.team? team with
  | none => s
  | some t =>
    match t.port? n with
    | none => s
    | some p =>
      let t1 := { t with ports := t.ports.filter (fun x => x.num != n), pats := t.pats.filter (fun x => !x.ports.contains n)
                         recvs := t.recvs.filter (fun r => r.port != n) }
      let s1 := s.modTeam team fun _ => t1.lose n p.blocked.length
      let s2 := p.blocked.foldl (fun u b => u.sendEntered b.gid b.lane) s1
      ((s.teamGroups team).foldl (fun u g => u.refuse g.id (Wait.atPort n)) s2).refusePats team

/-- R370, R372: the last group of a team has exited: every port closes, every pattern goes. -/
def State.closeTeamPorts (s : State) (team : Nat) : State :=
  match s.team? team with
  | none => s
  | some t => (t.ports.foldl (fun u p => u.closePort team p.num) s).modTeam team fun t => { t with pats := [], recvs := [] }

/-- R363: the part posts a message of its own to a port of a team; it arrives in a step of its own. A reply of a call was released at system
scope (R397). -/
def State.post (s : State) (team port kind : Nat) (data : DWord) (aux info : Nat) : State :=
  { s with msgs := s.msgs ++ [{ team, port, msg := { data, aux, info, kind, scope := if kind == 7 then 5 else 0 }, seq := s.fresh }], fresh := s.fresh + 1 }

/-! ### SEND and SENDX (R380) -/

/-- The team number and port that a lane's message goes to, none where a check of R380 fails. -/
def sendTarget (s : State) (x : Bool) (o : F5) (q : Q) (L : Nat) : Option (Nat × Nat) :=
  if x then
    let r := q.g.rd o.a 2 L
    if r.toNat / 2 ^ 38 != 0 then none
    else match s.teams.find? fun t => t.sheet == q.g.sheet && t.teamid == r.toNat % 2 ^ 32 && !t.exited with
      | some t => some (t.id, r.toNat / 2 ^ 32 % 64)
      | none => none
  else
    let n := (q.g.rdS o.a).toNat
    if n < 64 then some (q.g.team, n) else none

/-- The message of a lane (R363, R380). -/
def sendMsg (x : Bool) (o : F5) (q : Q) (L port : Nat) : Msg :=
  { data := q.g.rd o.b 2 L, aux := (lo32 (q.g.rd o.c 1 L)).toNat, info := q.g.idx * 64 + L, port, kind := if x then 2 else 1, scope := if x then 4 else 2 }

/-- A port takes a message of a sender: it is open, and open to other teams where the sender is of another (R369). -/
def Team.accepts (t : Team) (n from_ : Nat) : Option Port := (t.port? n).filter fun p => t.id == from_ || p.xteam

/-- R367: a fault-mode port cannot take all the messages that an instruction brings it. -/
def overflowAt (s : State) (from_ : Nat) (dests : List (Nat × Nat × Nat)) (d : Nat × Nat) : Bool :=
  match (s.team? d.1).bind fun t => t.accepts d.2 from_ with
  | some p => p.fault && decide (p.depth < p.q.length + p.held.length + (dests.filter fun e => e.2 == d).length) || (p.fault && !p.held.isEmpty)
  | none => false

/-- Deliver one lane's message (R366 to R369): it enters, waits at the port, or is discarded. -/
def deliver (gid from_ : Nat) (s : State) (e : Nat × Nat × Msg) : State :=
  let (L, team, m) := e
  match s.team? team with
  | none => s
  | some t =>
    match t.accepts m.port from_ with
    | none => s.modTeam team fun t => t.lose m.port 1
    | some p =>
      if p.full || !p.blocked.isEmpty then s.modTeam team fun t => t.modPort m.port fun p => { p with blocked := p.blocked ++ [{ gid, lane := L, msg := m }] }
      else s.enter team m.port m

/-- A stable sort: `le a b` says that a may stand before b. -/
def insertBy {α : Type} (le : α → α → Bool) (x : α) : List α → List α
  | [] => [x]
  | y :: ys => if le x y then x :: y :: ys else y :: insertBy le x ys
def sortBy {α : Type} (le : α → α → Bool) (xs : List α) : List α := xs.foldr (insertBy le) []
/-- R366: the messages of different lanes of an instruction enter in any order: a free value gives it (log 2). -/
def sendOrder (n : Nat) (ds : List (Nat × Nat × Nat)) : List (Nat × Nat × Nat) :=
  sortBy (fun a b => decide (Config.laneKey n a.1 ≤ Config.laneKey n b.1)) ds
/-- R380, R493: the lowest lane that meets a condition decides: its target fails a check, or its port cannot take every message. A
SEND is a release at team scope, a SENDX at device scope (R378). -/
def sendOp (x : Bool) (o : F5) (q : Q) (s : State) : Res :=
  let ls := lanesOf q.g.width q.act
  let ds := ls.map fun L => (L, sendTarget s x o q L)
  let dests := ds.filterMap fun e => e.2.map fun d => (e.1, d)
  let cond (e : Nat × Option (Nat × Nat)) : Option Cond := match e.2 with
    | none => some (.fault .access 0#64)
    | some d => if overflowAt s q.g.team dests d then some (.fault .portOverflow 0#64) else none
  settleConds (ds.map fun e => (e.1, cond e)) s fun _ =>
    let s0 := { s.releaseAt q.core (if x then 4 else 2) (s.pairedOf q.g) with free := s.free + 1 }
    -- no order among messages that no port takes
    let (takes, lost) := dests.partition fun e => ((s.team? e.2.1).bind fun t => t.accepts e.2.2 q.g.team).isSome
    let s1 := ((sendOrder s.free takes ++ lost).map fun e => (e.1, e.2.1, sendMsg x o q e.1 e.2.2)).foldl (deliver q.g.id q.g.team) s0
    let left := s1.blockedLanes q.g.id &&& q.act
    if left == 0#64 then .ok s1 else .wait (.send (q.act &&& ~~~left)) s1

def execSend (o : F5) (s : State) := runI (.send o) (sendOp false o) s
def execSendx (o : F5) (s : State) := runI (.sendx o) (sendOp true o) s

/-! ### RECV, RPEEK, PSTAT (R381, R383) -/

/-- R381. The RECV that finds a message takes it as a consumer that the join unit chooses. -/
def execRecv (o : F5) (s : State) :=
  runI (.recv o) (fun q s =>
    match s.team? q.g.team, o.d with
    | some t, .s d =>
      if mbit o.mod 0 then
        if t.pats.any fun p => !p.spawn && p.owner == q.g.id then
          let w := Wait.recvPat d.toNat q.pf.cap.toNat
          let s1 := (s.modGrp q.g.id fun g => g.waitAt q.sub w).join t.id
          match s1.grp? q.g.id with
          | some g => if (g.lane (lowest q.sub)).wait == w && (g.lane (lowest q.sub)).pc == q.pc then .wait w s1 else .moved s1
          | none => .moved s1
        else trapAll q .access s
      else
        let n := (q.g.rdS o.a).toNat
        if n < 64 && (t.port? n).isSome then
          let w := Wait.recv n d.toNat q.pf.cap.toNat
          let s0 := ({ s with fresh := s.fresh + 1 } : State).modTeam t.id fun t => { t with recvs := t.recvs ++ [({ gid := q.g.id, mask := q.sub, port := n, seq := s.fresh } : Recv)] }
          let s1 := (s0.modGrp q.g.id fun g => g.waitAt q.sub w).join t.id
          match s1.grp? q.g.id with
          | some g => if (g.lane (lowest q.sub)).wait == w && (g.lane (lowest q.sub)).pc == q.pc then .wait w s1 else .moved s1
          | none => .moved s1
        else trapAll q .access s
    | _, _ => trapAll q .access s) s

def execRpeek (o : F5) (s : State) :=
  runI (.rpeek o) (fun q s =>
    match s.team? q.g.team, o.d with
    | some t, .s d =>
      let n := (q.g.rdS o.a).toNat
      match if n < 64 then t.port? n else none with
      | some p =>
        let (lo, hi) := match (p.q ++ p.held).head? with
          | some m => (m.lo, m.data)
          | none => (0#64, 0#64)
        let g1 := q.g.writeS q.pf d.toNat lo
        .grp s ((g1.setS (d.toNat + 1) hi).killS (d.toNat + 1))
      | none => trapAll q .access s
    | _, _ => trapAll q .access s) s

/-- R383: the port status word. -/
def portWord (t : Team) (n : Nat) : DWord :=
  let lost := getK t.lost 0 n
  let pats := (t.pats.filter fun p => p.ports.contains n).length
  match t.port? n with
  | none => BitVec.ofNat 64 (lost * 2 ^ 48)
  | some p => BitVec.ofNat 64 (lost * 2 ^ 48 + p.held.length % 65536 * 2 ^ 32 + pats % 64 * 2 ^ 26 + (if p.xteam then 2 ^ 25 else 0) +
      (if p.fault then 2 ^ 24 else 0) + p.depth * 2 ^ 16 + p.q.length * 2 ^ 8 + 1)
/-- R383: the pattern status word. -/
def patWord (s : State) (t : Team) (n : Nat) : DWord :=
  match t.pats.find? fun p => p.num == n with
  | none => 0#64
  | some p => BitVec.ofNat 64 (p.matchCount % 65536 * 65536 + p.age * 4096 + (if s.patEnabled t p then 64 else 0) +
      (if p.ready then 32 else 16) + (if p.once then 8 else 0) + (if p.spawn then 4 else 0) + p.prio)
def execPstat (o : F5) (s : State) :=
  runI (.pstat o) (fun q s =>
    let n := (q.g.rdS o.a).toNat
    let pat := mbit o.mod 0
    match s.team? q.g.team, o.d with
    | some t, .s d =>
      if n < (if pat then 32 else 64) then .grp s (q.g.writeS q.pf d.toNat (if pat then patWord s t n else portWord t n))
      else trapAll q .access s
    | _, _ => trapAll q .access s) s

/-! ### PATARM and PATDIS (R365, R371, R372, R382) -/

/-- The conditions of a port record (R365). -/
def portRecOk (r : List Byte) : Bool :=
  decide (fieldAt r 0 1 < 64) && decide (1 ≤ fieldAt r 1 1) && decide (fieldAt r 1 1 ≤ 16) && decide (fieldAt r 2 1 < 4) &&
  (r.drop 3).all (· == 0#8)
/-- The ports that a pattern record names (R371). -/
def patPorts (r : List Byte) : List Nat := (List.range (fieldAt r 9 1)).map fun i => fieldAt r 10 3 / 2 ^ (6 * i) % 64
/-- The conditions of a pattern record (R371, R382 code 1). -/
def patRecOk (r : List Byte) (scount : Nat) : Bool :=
  let n := fieldAt r 9 1
  let fl := fieldAt r 13 1
  let spawn := fl.testBit 2
  let sb := fieldAt r 14 1
  decide (fieldAt r 8 1 < 32) && decide (1 ≤ n) && decide (n ≤ 4) && fieldAt r 10 3 / 2 ^ (6 * n) == 0 && decide (fl < 16) &&
  fieldAt r 15 1 == 0 && (patPorts r).eraseDups.length == n &&
  (if spawn then sb == 0 else fieldAt r 0 8 == 0 && sb % 2 == 0 && decide (sb + 2 * n ≤ scount))

/-- What the part finds at a child's entry. -/
inductive ChildRes
  | header (h : Header)
  | refused
  | miss (va : DWord)
  | later
  deriving DecidableEq, Repr
/-- R117, R382 code 4: the entry may be a child's: the destination passes R28, and the line before it is a valid header of one unpaired
group, no GANG, no scratchpad, with at least two vector registers. DEDUCED (log 31): a page of either that is not mapped is a page fault,
which is served (R28, R327), and no E_TARGET. -/
def State.childEntry (s : State) (g : Group) (entry : DWord) : ChildRes :=
  match s.checkDest { g with waypt := false } entry with
  | .miss => .miss (lineBase entry)
  | .later => .later
  | .fault _ => .refused
  | _ => match s.fetchLine g (lineBase entry - 64#64) with
    | .miss => .miss (lineBase entry - 64#64)
    | .later => .later
    | .fault _ => .refused
    | .bytes bs _ => match parseHeader bs with
      | none => .refused
      | some h =>
        let entryOk := !h.waypt || (match s.checkDest { g with waypt := true } entry with
          | .fault _ => false
          | _ => true)
        if h.team == 1 && !h.gang && h.scratch == 0 && decide (2 ≤ h.vcount) && entryOk then .header h else .refused

/-- Physical ports and pattern entries in use on a core (R364, R372). -/
def State.portsUsed (s : State) (core : Nat) : Nat :=
  (s.teams.flatMap fun t => t.ports.filter fun p => p.core == core).length
def State.patsUsed (s : State) (core : Nat) : Nat :=
  (s.teams.flatMap fun t => t.pats.filter fun p => p.core == core).length

/-- R382: the answer code of PATARM, with the header of a spawn pattern's handler; or what reading that header must wait for. -/
def armCode (s : State) (q : Q) (t : Team) (port : Bool) (r : List Byte) : Except ChildRes (Nat × Option Header) :=
  if port then
    if !portRecOk r then .ok (1, none)
    else if (t.port? (fieldAt r 0 1)).isSome then .ok (2, none)
    else if Config.ports ≤ s.portsUsed q.core then .ok (5, none) else .ok (0, none)
  else
    let full : Nat := if Config.patterns ≤ s.patsUsed q.core then 5 else 0
    if !patRecOk r q.g.scount then .ok (1, none)
    else if t.pats.any fun p => p.num == fieldAt r 8 1 then .ok (2, none)
    else if (patPorts r).any fun n => (t.port? n).isNone then .ok (3, none)
    else if !(fieldAt r 13 1).testBit 2 then .ok (full, none)
    else match s.childEntry q.g (BitVec.ofNat 64 (fieldAt r 0 8)) with
      | .header h => .ok (if 4 * fieldAt r 9 1 ≤ h.vcount then full else 4, some h)
      | .refused => .ok (4, none)
      | x => .error x

/-- R382: what code 0 changes. -/
def arm (s : State) (q : Q) (port : Bool) (r : List Byte) (hdr : Option Header) : State :=
  if port then
    s.modTeam q.g.team fun t => { t with ports := t.ports ++
      [{ num := fieldAt r 0 1, depth := fieldAt r 1 1, fault := (fieldAt r 2 1).testBit 0, xteam := (fieldAt r 2 1).testBit 1, core := q.core }] }
  else
    let fl := fieldAt r 13 1
    (s.modTeam q.g.team fun t => { t with pats := t.pats ++
      [{ num := fieldAt r 8 1, handler := BitVec.ofNat 64 (fieldAt r 0 8), ports := patPorts r, prio := fl % 4
         spawn := fl.testBit 2, once := fl.testBit 3, sbase := fieldAt r 14 1, owner := q.g.id, core := q.core, hdr }] }).join q.g.team

/-- PATARM reads its record as an LD of the group (R304, R382). -/
def execPatarm (o : FY) (s : State) :=
  runI (.patarm o) (fun q s =>
    let a := (q.g.rdS o.ya).toNat
    settleU q (s.rangeCond q.g a 16 16 .rd) s fun _ =>
      let ss := s.segs q.g a 16 .rd
      if s.segBad ss || s.l1BadAny q.core ss false then trapAll q .check s
      else withLines q s .load ss fun t0 =>
        match t0.team? q.g.team, o.yb with
        | some t, .s d =>
          let r := t0.mem.segLoad ss
          match armCode t0 q t (mbit o.mod 0) r with
          | .error (.miss va) => .pages [(lowest q.act, va)] s (some 3)
          | .error _ => .wait .walk s
          | .ok (code, hdr) =>
            let s0 := (t0.touch q.g a .rd).loadPieces q ss
            let s1 := s0.modGrp q.g.id fun g => g.writeS q.pf d.toNat (BitVec.ofNat 64 code)
            .ok (if code == 0 then arm s1 q (mbit o.mod 0) r hdr else s1)
        | _, _ => trapAll q .access s) s

def execPatdis (o : FY) (s : State) :=
  runI (.patdis o) (fun q s =>
    let n := o.code.toNat
    if mbit o.mod 0 then .ok (s.closePort q.g.team n)
    else .ok ((s.modTeam q.g.team fun t => { t with pats := t.pats.filter fun p => p.num != n }).refusePats q.g.team)) s

end Sys2Proof.Machine
end

