-- ==== Sys2Proof/Machine/Control.lean ====
section
/-!
DEFINITION. The instructions of unit CTL (R103 to R121): transfers, joins, EXIT, waypoints, barriers, SPAWN and BINFL,
YIELD, NAP, ELECT.
-/
namespace Sys2Proof.Machine

/-! ### Transfers (R103 to R106) -/

/-- R104: of a lane's call stack the part keeps the top four entries in the context and the rest in the frame area: the lanes that
push onto four entries or more put the fourth from the top there. -/
def State.spillStacks (s : State) (g : Group) (go : Mask) : State :=
  ((lanesOf g.width go).filter fun L => decide (4 ≤ (g.lane L).stack.length)).foldl (fun t L =>
    let k := (g.lane L).stack
    { t with mem := t.mem.store (g.stackAddr L + 8 * (k.length - 4)) (leBytes 8 (k.getD 3 0#64).toNat) }.mend (g.stackAddr L + 8 * (k.length - 4)) 8) s

/-- R104: check every destination, then move every lane; where no lane executes, a full join set is no fault (R42). -/
def xferOp (k : XferKind) (push join : Bool) (o : FB) (q : Q) (s : State) : Res :=
  let go := if k == .ret then q.act else maskOf q.g.width fun L => q.act.getLsbD L && condHolds o q.g L
  match s.checkDests q (lanesOf q.g.width go) (xferDest k o q) (stackCheck k push q) with
  | .error r => r
  | .ok marked =>
    if join && 16 ≤ q.g.joins.length && q.act != 0#64 then trapAll q .illegal s
    else
      let g1 := if join && q.g.joins.length < 16 then { q.g with joins := q.g.joins ++ [{ j := directDest o q.pc, m := q.sub }] } else q.g
      let g2 := g1.modLanes q.sub fun L l =>
        if go.getLsbD L then
          { l with pc := (xferDest k o q L).getD 0#64, wait := .none, due := if marked.getLsbD L then some .fetch else none
                   stack := if push then nextPc q.pc :: l.stack else if k == .ret then l.stack.drop 1 else l.stack }
        else { l with pc := nextPc q.pc, wait := .none }
      .moved ((if push then s.spillStacks q.g go else s).setGrp g2)

def execBra (o : FB) (s : State) := runI (.bra o) (xferOp .direct false false o) s
def execBri (o : FB) (s : State) := runI (.bri o) (xferOp .indirect false false o) s
def execCall (o : FB) (s : State) := runI (.call o) (xferOp .direct true false o) s
def execCalli (o : FB) (s : State) := runI (.calli o) (xferOp .indirect true false o) s
def execRet (o : FB) (s : State) := runI (.ret o) (xferOp .ret false false o) s
def execRcv (o : FB) (s : State) := runI (.rcv o) (xferOp .direct false true o) s

/-! ### EXIT (R107) -/

/-- Every group of a team but one has exited. -/
def State.lastOfTeam (s : State) (team gid : Nat) : Bool :=
  s.groups.all fun g => g.team != team || g.id == gid || g.alive == 0#64

/-- R107: lanes exit; their call stacks are discarded. When the group's last lane exits, its patterns that wake it are
disarmed and its message ports follow R370 with the team's last group. -/
def exitLanes (q : Q) (s : State) : State :=
  let s1 := s.modGrp q.g.id fun g =>
    let h := g.modLanes q.sub fun L l =>
      if q.act.getLsbD L then { l with exited := true, stack := [], wait := .none, held := false }
      else { l with pc := nextPc q.pc, wait := .none }
    { h with joins := h.joins.map fun e => { e with m := e.m &&& ~~~q.act } }
  if q.g.alive &&& ~~~q.act == 0#64 then
    let s2 := s1.modTeam q.g.team fun t => { t with pats := t.pats.filter fun p => p.spawn || p.owner != q.g.id }
    if s2.lastOfTeam q.g.team q.g.id then
      let s3 := (s2.closeTeamPorts q.g.team).modTeam q.g.team fun t => { t with exited := true, failed := [], named := [] }
      match s3.team? q.g.team with
      | some t => if t.spawned then s3.modSheet q.g.sheet fun h => { h with spawnFreed := true } else s3
      | none => s3
    else s2
  else s1

def execExit (o : FY) (s : State) :=
  runI (.exit o) (fun q s =>
    if q.g.alive &&& ~~~q.act != 0#64 then .moved (exitLanes q s)
    else if q.g.openBatch.isSome then trapAll q .matrixState s
    else match s.retire q.g.id 0 0#64 with
      | .fail c a => .trap c q.sub a 0 (s.cancelBatches q.g.id)
      | .wait t => .wait (.mwait 0 0#64 false) t
      | .done t =>
        let cs := match t.team? q.g.team with
          | some u => u.unnamed
          | none => []
        if !cs.isEmpty && t.lastOfTeam q.g.team q.g.id then .trap .stage q.sub 0#64 0 (t.nameFailed q.g.team cs)
        else .moved (exitLanes q t)) s

/-! ### Waypoints, barriers, YIELD, NAP, ELECT -/

/-- R108. -/
def execWaypt (o : FY) (s : State) := runI (.waypt o) (fun q s => .grp s (q.g.takeWaypoint q.sub q.pc)) s

/-- R110, R111: the subset waits at the barrier, a release at team scope for its earlier accesses; the barrier's release is a step of its
own. -/
def execTbar (o : FY) (s : State) := runI (.tbar o) (fun q s => .wait (.bar o.code.toNat) (s.releaseAt q.core 2 (s.pairedOf q.g))) s

/-- R119: the group goes to the end of the rotation, as after every chain break (R91). -/
def execYield (o : FY) (s : State) := runI (.yield o) (fun q s => .grp s q.g) s

/-- R120: the duration in ck. -/
def napLen (o : FRI) (g : Group) : Nat :=
  min (2 ^ 32 - 1) (o.imm.toNat + (if mbit o.mod 0 then (g.rdS o.a).toNat else 0))
/-- R120: a nap of 0 acts as YIELD. -/
def execNap (o : FRI) (s : State) :=
  runI (.nap o) (fun q s => if napLen o q.g == 0 then .grp s q.g else .wait (.nap (napLen o q.g)) s) s

/-- R121: the lowest or highest lane that executes; a predicate is written in every lane of the subset. -/
def execElect (o : F5) (s : State) :=
  runI (.elect o) (fun q s =>
    let e := if mbit o.mod 0 then highest q.act else lowest q.act
    match o.d with
    | .p n => .grp s (q.g.setP n.toNat q.sub (1#64 <<< e))
    | d => .grp s (q.g.put q.pf d 2 false q.act (List.replicate q.g.width (BitVec.ofNat 64 e)))) s

/-! ### SPAWN and BINFL (R117, R118) -/

/-- The argument of a lane as the two words that start a thread (R102). -/
def spawnArg (o : FB) (q : Q) (L : Nat) : List Word :=
  let x := q.g.rd o.cond 2 L
  [lo32 x, hi32 x]

/-- How many launches the threads of a SPAWN make on their way into the bin of a key: full bins, and the bin that makes
room (R100, R101). DESIGN CHOICE (log 33): R117 counts against the limit only launches of the spawning sheet's own threads; one of another
sheet's bin, which R101 forces, counts against no limit. -/
def launchesOf (s : State) (core sheet : Nat) (entry : DWord) (width n : Nat) : Nat :=
  let bins := (s.core core).bins
  let held := match bins.find? fun b => b.sheet == sheet && b.entry == entry with
    | some b => b.args.length
    | none => 0
  let evict := !(bins.any fun b => b.sheet == sheet && b.entry == entry) && decide (16 ≤ bins.length)
  (held + n) / width + (match evict, bins.head? with
    | true, some b => if b.sheet == sheet then 1 else 0
    | _, _ => 0)

/-- R117. DESIGN CHOICE (log 33): whether an entry must hold a WAYPT is the child header's WAYPT flag alone (R95), not the spawner's. -/
def execSpawn (o : FB) (s : State) :=
  runI (.spawn o) (fun q s =>
    let entry := directDest o q.pc
    match s.checkDests { q with g := { q.g with waypt := false } } (lanesOf q.g.width q.act) (fun _ => some entry) (fun _ => none) with
    | .error r => r
    | .ok _ =>
      match s.childEntry q.g entry with
      | .refused => trapAll q .target s
      | .miss va => .pages ((lanesOf q.g.width q.act).map fun L => (L, va)) s (some 3)
      | .later => .wait .walk s
      | .header h =>
        let ls := lanesOf q.g.width q.act
        let n := launchesOf s q.core q.g.sheet entry h.width ls.length
        if n != 0 && s.atSpawnLimit q.g.sheet n then .wait .spawn s
        else
          let task := ((s.team? q.g.team).map (·.task)).getD 0
          .ok (ls.foldl (fun t L => t.deposit q.core q.g.sheet task entry h (spawnArg o q L)) s)) s

def execBinfl (o : FY) (s : State) :=
  runI (.binfl o) (fun q s =>
    let mine := (s.core q.core).bins.filter fun b =>
      b.sheet == q.g.sheet && (mbit o.mod 0 || b.entry == q.g.rdS o.ya)
    .ok (mine.foldl (fun t b => t.launchBin q.core b) s)) s

end Sys2Proof.Machine
end

