-- ==== Sys2Proof/Machine/Sched.lean ====
section
/-!
DEFINITION. The steps of a core's scheduling (R82 to R121): the picker's limit, timers, naps, barriers, parking and
unparking, the ends of groups and teams, the spawn limit. A step whose condition does not hold changes nothing.
-/
namespace Sys2Proof.Machine

/-- What a step of the part answers. -/
abbrev Out := Host.Outcome State Fault Refusal

/-- The lanes that wait with a condition go on at the slot after theirs. -/
def Group.release (g : Group) (p : Wait → Bool) : Group :=
  { g with lanes := g.lanes.map fun (l : Lane) => if !l.exited && p l.wait then { l with pc := nextPc l.pc, wait := .none } else l }.settle
/-- The lanes that wait with a condition issue their instruction again. -/
def Group.again (g : Group) (p : Wait → Bool) : Group :=
  { g with lanes := g.lanes.map fun (l : Lane) => if p l.wait then { l with wait := .none } else l }
/-- A group is eligible: a lane may issue (R88). -/
def Group.eligible (g : Group) : Bool := g.readyLanes != 0#64

def State.groupsOn (s : State) (core : Nat) : List Group := s.groups.filter fun g => g.core == core

/-! ### The picker and the bins -/

/-- R91: a ready subset that its group has passed over for 64 consecutive issues is issued next: when the picker stands at
a chain break and the turn is the group's, the core issues it. -/
def execPickerPassedOverLimit (core gid : Nat) (s : State) : Out :=
  match s.pick core with
  | none => .next s
  | some (id, m) =>
    match s.grp? id with
    | none => .next s
    | some g =>
      if id == gid && decide (64 ≤ (g.lane (lowest m)).skipped) then .next { s with agenda := .issue core false :: s.agenda }
      else .next s

/-- R100: 4,096 ck after its first thread entered. -/
def State.binDue (s : State) (core : Nat) (b : Bin) : Bool := decide (b.start + Config.binTimer ≤ (s.core core).cycle.toNat)
def execBinTimerExpiry (core bin : Nat) (s : State) : Out :=
  match (s.core core).bins.find? fun b => b.order == bin with
  | none => .next s
  | some b => .next (if s.binDue core b then s.launchBin core b else s)

/-- R120. -/
def Wait.napOver : Wait → Bool
  | .nap 0 => true
  | _ => false
def execNapExpiry (gid : Nat) (s : State) : Out :=
  match s.grp? gid with
  | none => .next s
  | some g => .next (if g.waits Wait.napOver then s.updGroup gid fun g => g.release Wait.napOver else s)

/-! ### Barriers (R109 to R112) -/

def Wait.atBar (k : Nat) : Wait → Bool
  | .bar n => n == k
  | _ => false
/-- R110: every lane of the group that has not exited waits at barrier k. -/
def Group.arrived (g : Group) (k : Nat) : Bool := g.lanes.all fun l => l.exited || l.wait.atBar k
/-- Every group of the team has arrived, and one waits. -/
def State.barrierFull (s : State) (team k : Nat) : Bool :=
  let gs := (s.teamGroups team).map s.view
  gs.all (·.arrived k) && gs.any fun g => g.waits (Wait.atBar k)
def execBarrierRelease (team k : Nat) (s : State) : Out :=
  if s.barrierFull team k then
    -- R111: an acquire at team scope for every group
    .next ((s.teamGroups team).foldl (fun t g =>
      (t.acquireAt g.core 2 (t.pairedOf g)).updGroup g.id fun g => g.release (Wait.atBar k)) s)
  else .next s

/-! ### Parking (R86, R89) -/

/-- R86, R89: a group whose units are taken; the chain breaks (R47, R48). -/
def State.park (s : State) (g : Group) : State :=
  let c := (s.core g.core).cycle
  ((s.parkRegs g).setGrp { g.loseLatches with st := .parked, chain := none, parkedAt := c.toNat, seq := 0 }).modCore g.core fun k =>
    { k with lastFree := c.toNat }
/-- R86: a resident group that waits in every lane. -/
def Group.idle (g : Group) : Bool := g.st == .resident && !g.eligible
/-- R86: a parked group that may issue. -/
def Group.wants (g : Group) : Bool := g.st == .parked && g.eligible
/-- The first of a list in the order of the moments it entered its condition. -/
def firstSeq (gs : List Group) : Option Group :=
  gs.foldl (fun b g => match b with
    | none => some g
    | some x => if g.seq < x.seq then some g else b) none
/-- Enough units are free for a group. -/
def State.unitsFor (s : State) (g : Group) : Bool := decide (s.unitsUsed g.core + unitsOf g.width g.vcount ≤ Config.units)
/-- Park waiting groups, the one that has waited longest first, until a group fits. -/
def State.makeRoom (g : Group) : Nat → State → State
  | 0, s => s
  | n + 1, s =>
    if s.unitsFor g then s
    else match firstSeq ((s.groupsOn g.core).filter (·.idle)) with
      | some w => (s.park w).makeRoom g n
      | none => s
/-- The parked eligible group whose turn it is, with the state in which it fits. DESIGN CHOICE (log 33): where parking every waiting group
would not make room, none is parked. -/
def State.unparkable (s : State) (core : Nat) : Option (Group × State) :=
  match firstSeq ((s.groupsOn core).filter (·.wants)) with
  | none => none
  | some g =>
    let t := s.makeRoom g (s.groupsOn core).length
    if t.unitsFor g then some (g, t) else none
def execGroupUnpark (core : Nat) (s : State) : Out :=
  match s.unparkable core with
  | none => .next s
  | some (g, t) => .next (t.setGrp { g with st := .resident, issueSince := 0, seq := 0 })

/-- R86: the count of 65,536 ck has run for a parked eligible group. -/
def State.starved (s : State) (core : Nat) : Bool :=
  let c := s.core core
  (s.groupsOn core).any fun g => g.wants && decide (max g.parkedAt c.lastFree + Config.parkLimit ≤ c.cycle.toNat)
/-- The resident group that has issued for the longest time since it was last unparked. -/
def State.longestIssuing (s : State) (core : Nat) : Option Group :=
  ((s.groupsOn core).filter fun g => g.st == .resident).foldl (fun b g => match b with
    | none => some g
    | some x => if x.issueSince < g.issueSince then some g else b) none
def execParkStarvationTimeout (core : Nat) (s : State) : Out :=
  if s.starved core then
    match s.longestIssuing core with
    | some g => .next (s.park g)
    | none => .next s
  else .next s

/-- After each step: groups that have just become eligible while parked, or have just begun to wait, take the next number
of that order (R86). -/
def State.noteSeq (s : State) : State :=
  if s.groups.any (fun g => (g.wants || g.idle) != (g.seq != 0)) then
    s.groups.foldl (fun t g =>
      if (g.wants || g.idle) == (g.seq != 0) then t
      else if g.seq != 0 then t.setGrp { g with seq := 0 }
      else { t.setGrp { g with seq := t.fresh, parkedAt := (t.core g.core).cycle.toNat } with fresh := t.fresh + 1 }) s
  else s

/-! ### Ends of groups and teams (R87, R107) -/

/-- R107: the last lane has exited; in one memory its stores are performed, and its puts have arrived. -/
def execGroupContextFree (gid : Nat) (s : State) : Out :=
  match s.grp? gid with
  | none => .next s
  | some g =>
    if g.alive == 0#64 && g.st != .saved && !s.puts.any fun p => p.origin == s.moduleNo && p.gid == gid && !p.arrived then
      let s1 := s.modCore g.core fun c => { c with rot := c.rot.filter (· != gid), lastFree := c.cycle.toNat
                                                   reqs := c.reqs.filter fun r => r.gid != gid }
      let s2 := { s1 with groups := s1.groups.filter fun h => h.id != gid }
      -- R196: the matrix state is held until the last group there exits
      if (s2.core g.core).mowner == some g.team && !(s2.groups.any fun h => h.team == g.team && h.core == g.core) then
        .next (s2.modCore g.core fun c => { c with mowner := none, mstate := {}, mopenQ := [] })
      else .next (s2.imageOut g.team g.core)
    else .next s

/-- R87, R261: every group has exited and every job has ended: the chunks are returned. -/
def Team.returnable (t : Team) : Bool := t.exited && !t.frees && t.rounds.isEmpty
def execTeamScratchReturn (team : Nat) (s : State) : Out :=
  match s.team? team with
  | none => .next s
  | some t =>
    if t.returnable && (s.teamGroups team).isEmpty then
      .next (s.modTeam team fun t => { t with frees := true, scratch := [], older := [], landed := [], bad := [], sched := none })
    else .next s

/-! ### Waits at limits (R117, R249) -/

def Wait.atSpawn : Wait → Bool
  | .spawn => true
  | _ => false
/-- R117, R373: a SPAWN at the spawn limit goes on when a child group of the sheet has exited, and the sheet's spawn patterns
are enabled again. -/
def execSpawnLimitResume (sheet : Nat) (s : State) : Out :=
  match s.sheet? sheet with
  | none => .next s
  | some h =>
    if h.spawnFreed then
      let s1 := s.modSheet sheet fun h => { h with spawnFreed := false }
      let s2 := (s.groups.filter fun g => g.sheet == sheet && g.waits Wait.atSpawn).foldl
        (fun t g => t.updGroup g.id fun g => g.again Wait.atSpawn) s1
      .next ((s.teams.filter fun t => t.sheet == sheet && !t.exited).foldl (fun u t => u.join t.id) s2)
    else .next s

end Sys2Proof.Machine
end

