-- ==== Sys2Proof/Machine/Traverse.lean ====
section
/-!
DEFINITION. The steps of the Traverse engines and of the matrix engine: chunks that land and drain (R242 to R263), rounds
that complete, multicast, engine page faults, batches that complete, holdership (R198 to R212, R492).
-/
namespace Sys2Proof.Machine

/-! ### Jobs -/

/-- The pieces of a job's rows that fall in a chunk: global address, scratchpad offset, bytes. -/
def Job.pieces (j : Job) (c : Nat) : List (DWord × Nat × Nat) :=
  j.rows.filterMap fun (a, o, n) =>
    let lo := max o (512 * c)
    let hi := min (o + n) (512 * c + 512)
    if lo < hi then some (a + BitVec.ofNat 64 (lo - o), lo, hi - lo) else none
def Job.acc (j : Job) : Acc := if j.out then .wr else .rd
/-- An engine translates as the groups of its team do (R324). -/
def State.engineView (s : State) (t : Team) : Group :=
  { id := 0, sheet := t.sheet, team := t.id, asn := ((s.sheet? t.sheet).map (·.asn)).getD 0, core := t.cores.headD 0 }
/-- The first byte of a list of pieces that cannot be accessed, and what it meets (R256). -/
def State.pieceFault (s : State) (t : Team) (acc : Acc) (ps : List (DWord × Nat × Nat)) : Option (Route × Nat) :=
  ps.findSome? fun e => s.rangeFault (s.engineView t) e.1.toNat e.2.2 acc
def State.pieceLoad (s : State) (t : Team) (e : DWord × Nat × Nat) : List Byte :=
  s.mem.segLoad (s.segs (s.engineView t) e.1.toNat e.2.2 .rd)

/-- Change a round of a team. -/
def Team.modRound (t : Team) (rid : Nat) (f : Round → Round) : Team :=
  { t with rounds := t.rounds.map fun r => if r.id == rid then f r else r }
def Team.round? (t : Team) (rid : Nat) : Option Round := t.rounds.find? fun r => r.id == rid
def Round.modJob (r : Round) (k : Nat) (f : Job → Job) : Round := { r with jobs := r.jobs.modify k f }
/-- The job of a round that still has a chunk to do. -/
def Round.jobOf (r : Round) (out : Bool) (c : Nat) : Option (Job × Nat) :=
  r.jobs.zipIdx.find? fun e => e.1.out == out && !e.1.waiting && !e.1.rows.isEmpty && e.1.left.contains c
def Job.over (j : Job) : Bool := !j.waiting && j.left.isEmpty
def Round.over (r : Round) : Bool := r.jobs.all (·.over)

/-- R248, R254, R256: the messages of a completed round. -/
def State.notifyRound (s : State) (t : Team) (r : Round) : State :=
  match r.stage with
  | none => s
  | some st =>
    let fail := r.jobs.any (·.failed)
    let info := (if fail then 32768 else 0) + st * 256 + t.lastSched % 64
    r.jobs.foldl (fun u j => match j.notify with
      | some p => u.post t.id p 3 (BitVec.ofNat 64 r.r) 0 info
      | none => u) s
/-- The round that may complete: every entry has, and no earlier round of its stage is in flight (R248). -/
def Team.completable (t : Team) : Option Round :=
  t.rounds.find? fun r => r.over && (r.stage.isNone || t.rounds.all fun x => x.stage != r.stage || r.r ≤ x.r)
/-- R248: completions in release order. -/
def State.completeRounds (team : Nat) : Nat → State → State
  | 0, s => s
  | n + 1, s =>
    match s.team? team with
    | none => s
    | some t => match t.completable with
      | none => s
      | some r =>
        let up (c : Sched) : Sched := match r.stage with
          | some st => { c with done := c.done.modify st (· + 1) }
          | none => c
        let s1 := s.modTeam team fun t => { t with rounds := t.rounds.filter (fun x => x.id != r.id), sched := t.sched.map up }
        (s1.notifyRound t r).completeRounds team n
def State.finishRounds (s : State) (team : Nat) : State :=
  match s.team? team with
  | none => s
  | some t => s.completeRounds team t.rounds.length

/-- R421: an engine job consumes an uncorrectable error: E_CHECK in the sheet. -/
def State.jobCheck (s : State) (t : Team) : State :=
  s.modSheet t.sheet fun h => { h with check := true }

/-- R263: the Traverse class has used its share of the period. -/
def State.traverseStalled (s : State) (t : Team) : Bool := s.stalled (clusterOf (t.cores.headD 0)) 2

/-- R263, R280, R442: memory pieces that the engine reads or writes for a team: snoop filter entries, and the charge of class 2. -/
def State.engineMoves (s : State) (t : Team) (ss : List (Nat × Nat)) : State :=
  (ss.foldl (fun u e => u.filterRange e.1 e.2) s).chargeEngine (t.cores.headD 0) t.id t.sheet 2 ss
/-- R210: engine instructions of the team that waited for a chunk read it as it landed. -/
def State.readChunks (s : State) (team : Nat) : State :=
  match s.team? team with
  | none => s
  | some t => s.modGrps fun g => if g.team == team then g.readScr t else g
/-- R251: the bytes of a fetch land in a chunk, which becomes present. -/
def execChunkLand (team rid chunk : Nat) (s : State) : Out :=
  match s.team? team with
  | none => .next s
  | some t => match (t.round? rid).bind (·.jobOf false chunk) with
    | none => .next s
    | some (j, k) =>
      let ps := j.pieces chunk
      match j.data with
      | none =>
        if s.traverseStalled t || (s.pieceFault t .rd ps).isSome then .next s
        else if ps.any fun e => s.segBad (s.segs (s.engineView t) e.1.toNat e.2.2 .rd) then .next (s.jobCheck t)
        else
          let s0 := s.engineMoves t (ps.flatMap fun e => s.segs (s.engineView t) e.1.toNat e.2.2 .rd)
          let s1 := s0.modTeam team fun t =>
            let u := t.landChunk chunk (ps.map fun e => (e.2.1, s.pieceLoad t e))
            { u with absent := u.absent.filter (· != chunk) }.modRound rid fun r => r.modJob k fun j => { j with left := j.left.filter (· != chunk) }
          .next ((s1.readChunks team).finishRounds team)
      | some bs =>
        -- R253: the bytes that the multicast read; the buffer starts at the first row's offset
        let base := (j.rows.map fun e => e.2.1).foldl min (512 * chunk)
        let s1 := s.modTeam team fun t =>
          let u := t.landChunk chunk [(512 * chunk, (bs.drop (512 * chunk - base)).take 512)]
          { u with absent := u.absent.filter (· != chunk) }.modRound rid fun r => r.modJob k fun j => { j with left := j.left.filter (· != chunk) }
        .next ((s1.readChunks team).finishRounds team)

/-- R252: a write-back chunk is read, its memory writes are performed, and it becomes present. -/
def execWritebackChunkDrain (team rid chunk : Nat) (s : State) : Out :=
  match s.team? team with
  | none => .next s
  | some t => match (t.round? rid).bind (·.jobOf true chunk) with
    | none => .next s
    | some (j, k) =>
      let ps := j.pieces chunk
      if s.traverseStalled t || (s.pieceFault t .wr ps).isSome then .next s
      else if ps.any fun e => t.badIn e.2.1 e.2.2 then .next (s.jobCheck t)
      else
        let s1 := ps.foldl (fun u e =>
          (splitSegs (s.segs (s.engineView t) e.1.toNat e.2.2 .wr) (t.scratch.bulk e.2.1 e.2.2)).foldl
            (fun u w => u.sheetStore t.sheet w.1 w.2) u) (s.engineMoves t (ps.flatMap fun e => s.segs (s.engineView t) e.1.toNat e.2.2 .wr))
        let s2 := s1.modTeam team fun t =>
          { t with absent := t.absent.filter (· != chunk) }.modRound rid fun r => r.modJob k fun j => { j with left := j.left.filter (· != chunk) }
        .next ((s2.readChunks team).finishRounds team)

/-- R253: the teams that take part in the round of a multicast entry, with their rounds. -/
def State.mcastMembers (s : State) (t : Team) (r : Round) : List (Nat × Nat) :=
  match t.sched with
  | none => []
  | some c =>
    s.teams.filterMap fun u =>
      if u.sheet == t.sheet then
        match u.sched, u.rounds.find? fun x => x.stage == r.stage && x.r == r.r with
        | some d, some x => if d.key == c.key && d.idx == c.idx then some (u.id, x.id) else none
        | _, _ => none
      else none
/-- The first entry of a round that waits for its members. -/
def Round.waitingJob (r : Round) : Option (Job × Nat) := r.jobs.zipIdx.find? fun e => e.1.waiting
/-- R253: MEMBERS teams have released the round: memory is read once, for each of them. -/
def execMulticastRoundStart (team rid : Nat) (s : State) : Out :=
  match s.team? team with
  | none => .next s
  | some t => match t.round? rid with
    | none => .next s
    | some r => match r.waitingJob with
      | none => .next s
      | some (j, k) =>
        let ms := s.mcastMembers t r
        let ps : List (DWord × Nat × Nat) := j.rows
        if ms.length < j.mcast || s.traverseStalled t || (s.pieceFault t .rd ps).isSome then .next s
        else if ps.any fun e => s.segBad (s.segs (s.engineView t) e.1.toNat e.2.2 .rd) then .next (s.jobCheck t)
        else
          let bs := ps.flatMap (s.pieceLoad t)
          let s := s.engineMoves t (ps.flatMap fun e => s.segs (s.engineView t) e.1.toNat e.2.2 .rd)
          .next (ms.foldl (fun u m => u.modTeam m.1 fun v => v.modRound m.2 fun x => x.modJob k fun y =>
            { y with waiting := false, data := some bs }) s)

/-- The pieces that an entry still has to read or write. -/
def Job.remaining (j : Job) : List (DWord × Nat × Nat) := if j.waiting then j.rows else j.left.flatMap j.pieces
/-- R244, R256: an entry of a round fails: its chunks that have not landed or drained are failed and stay absent, and it counts as
completed. -/
def Team.failJob (t : Team) (rid job : Nat) (c : Cause) (a : DWord) : Team :=
  match (t.round? rid).bind fun r => r.jobs[job]?.map fun j => (r, j) with
  | none => t
  | some (r, j) =>
    let cs := if j.waiting then j.chunks else j.left
    let mark (k : Sched) : Sched := { k with fail := k.fail || r.stage.isSome }
    { t with named := t.named.filter fun c => !cs.contains c
             failed := t.failed ++ cs.map (fun k => (k, c, a)), sched := t.sched.map mark }.modRound rid fun x =>
      x.modJob job fun y => { y with waiting := false, left := [], failed := true }
/-- R256: the memory shard serves an engine access that misses translation; where a page stays out of reach the entry fails:
its chunks that have not landed or drained are failed, and the entry counts as completed. -/
def execEnginePageFault (team rid job : Nat) (maps : List MapReq) (s : State) : Out :=
  match s.team? team with
  | none => .next s
  | some t => match (t.round? rid).bind (·.jobs[job]?) with
    | none =>
      -- R457: the pages that a seal job reads or writes, once the team is over
      let sealing := match s.sheet? t.sheet with
        | some h => h.sealJob.isSome && (h.st == .running || h.st == .sealed)
        | none => false
      .next (if t.exited && sealing then (s.mapServed (s.engineView t).asn maps).getD s else s)
    | some j =>
      if j.data.isSome || (s.pieceFault t j.acc j.remaining).isNone then .next s
      else match s.mapServed (s.engineView t).asn maps with
        | none => .next s
        | some s1 => match s1.pieceFault t j.acc j.remaining with
          | none => .next s1
          | some (.later, _) => .next s1
          | some (r, a) =>
            -- R253: a multicast reads for all its members, once they have all released the round
            let ms := if j.mcast == 0 then [(team, rid)] else (t.round? rid).elim [] (s1.mcastMembers t)
            if j.waiting && ms.length < j.mcast then .next s1
            else .next (ms.foldl (fun u m => (u.modTeam m.1 (Team.failJob · m.2 job r.cause (BitVec.ofNat 64 a))).finishRounds m.1) s1)

/-! ### Groups that wait for chunks and rounds (R243, R249) -/

/-- The lanes of a wait for chunks whose chunks are all present, or one of which has failed. -/
def Wait.chunksDone (t : Team) : Wait → Bool
  | .chunks _ _ cs => !t.anyAbsent cs || (t.failedIn cs).isSome
  | _ => false
def Wait.stageFree (t : Team) : Wait → Bool
  | .stage st => decide (t.busyStage st < 4)
  | _ => false
/-- Release the waits of a group that a test of its team allows: the instruction issues again and performs. -/
def State.againIf (s : State) (gid : Nat) (p : Team → Wait → Bool) : State :=
  match s.grp? gid with
  | none => s
  | some g => match s.team? g.team with
    | none => s
    | some t => if g.waits (p t) then s.updGroup gid fun g => g.again (p t) else s
def execChunkWaitResume (gid : Nat) (s : State) : Out := .next (s.againIf gid Wait.chunksDone)
def execStageRoundLimitResume (gid : Nat) (s : State) : Out := .next (s.againIf gid Wait.stageFree)

/-! ### The matrix engine (R198, R208, R492) -/

/-- What a waiting MWAIT, EXIT or service call asks has completed (R208): it issues again and retires. -/
def Wait.mwaitDone (s : State) (gid : Nat) : Wait → Bool
  | .mwait n fl _ => match s.retire gid n fl with
    | .wait _ => false
    | _ => true
  | _ => false
def State.mwaitReady (s : State) (g : Group) : Bool := g.waits (Wait.mwaitDone s g.id)
/-- The waits of a group's subsets in which the oldest batches retire as each completes (R236): how many they leave, and the lanes that
take the flags; an MWAIT that takes a waypoint retires in one step. -/
def Group.mwaits (g : Group) : List (Nat × Mask) :=
  (g.lanes.filterMap fun l => match l.wait with
    | .mwait n fl false => if l.exited then none else some (n, fl)
    | _ => none).eraseDups
/-- R236: the instructions whose condition holds issue again; while none does, the oldest batches retire as each completes, but not for a
group that is saved, whose batches retire when it is back (R201). -/
def State.mwaitAgain (s : State) (gid : Nat) : State :=
  match s.grp? gid with
  | none => s
  | some g =>
    if s.mwaitReady g then s.updGroup gid fun g => g.again (Wait.mwaitDone s gid)
    else if g.st == .saved then s
    else g.mwaits.foldl (fun u e => match u.retire gid e.1 e.2 with
      | .wait t => t
      | _ => u) s
/-- R208: the engine has executed every instruction of a closed batch. -/
def execBatchComplete (gid : Nat) (s : State) : Out := .next (s.mwaitAgain gid)
/-- R492: the chunk that the engine waits for is present or failed. -/
def execEngineChunkReady (gid : Nat) (s : State) : Out :=
  match s.grp? gid with
  | none => .next s
  | some g => if s.engineBlocked g then .next s else .next (((s.engine gid).mwaitAgain gid).imageOut g.team g.core)

def Wait.atMopen : Wait → Bool
  | .mopen => true
  | _ => false
/-- R198: the group whose MOPEN was presented first, when no group holds. -/
def State.nextHolder (s : State) (core : Nat) : Option Nat :=
  match (s.core core).mowner, (s.core core).mopenQ with
  | some t, gid :: _ =>
    if (s.holder core t).isSome then none
    else match s.grp? gid with
      | some g => if g.waits Wait.atMopen then some gid else none
      | none => none
  | _, _ => none
def execHoldershipGrant (core : Nat) (s : State) : Out :=
  match s.nextHolder core with
  | none => .next s
  | some gid => .next (s.updGroup gid fun g => g.again Wait.atMopen)

end Sys2Proof.Machine
end

