-- ==== Sys2Proof/Machine/MemSteps.lean ====
section
/-!
DEFINITION. The steps of the memory paths: request entries (R282), marks and the snoop filter (R280, R294), walks (R322,
R330), replies to page faults (R327), generations (R328, R329), puts and windows (R299 to R303, R315).
-/
namespace Sys2Proof.Machine

/-! ### Requests and lines -/

/-- The number of entries for which the lanes of a mask wait. -/
def Group.wantsLines (g : Group) (m : Mask) : Option Nat :=
  (lanesOf g.width m).findSome? fun L => match (g.lane L).wait with
    | .request n => if (g.lane L).exited then none else some n
    | _ => none
def Wait.isRequest : Wait → Bool
  | .request _ => true
  | _ => false
/-- R282: the oldest waiting instruction, when enough entries are free. -/
def State.requestReady (s : State) (core : Nat) : Option (Nat × Mask) :=
  match (s.core core).reqQ with
  | [] => none
  | (gid, m) :: _ => match (s.grp? gid).bind (·.wantsLines m) with
    | some n => if (s.core core).reqs.length + n ≤ Config.lineRequests then some (gid, m) else none
    | none => none
def execRequestEntryGrant (core : Nat) (s : State) : Out :=
  match s.requestReady core with
  | none => .next s
  | some (gid, m) => .next (s.updGroup gid fun g =>
      { g with lanes := g.lanes.mapIdx fun L l => if m.getLsbD L && l.wait.isRequest then { l with wait := .none } else l })
/-- R282: a response returns. R281: a release at system scope goes on once the writes of its group to pool and host memory are acknowledged. -/
def execMemoryResponseReturn (core n : Nat) (s : State) : Out :=
  let t := s.modCore core fun c => { c with reqs := c.reqs.eraseIdx n }
  .next { t with groups := t.groups.map fun g => if g.core == core && !(t.core core).owes g.id then g.again (· == .request 0) else g }

/-- R294: the promotion of a mark precedes the eviction of its line from its L2. -/
def execMarkedLineEvict (line : Nat) (s : State) : Out :=
  .next ((s.lineLeaves line).modDie (paHome (line * 128)) fun d => { d with l2 := d.l2.filter (· != line), marks := delK d.marks line })
/-- R280: the line leaves its home L2 and the snoop filter; a mark is promoted first. -/
def execCxlBackInvalidate (line : Nat) (s : State) : Out :=
  if paPool (line * 128) then
    .next ((s.lineLeaves line).modDie (paHome (line * 128)) fun d =>
      { d with filter := d.filter.filter (· != line), l2 := d.l2.filter (· != line), marks := delK d.marks line })
  else .next s

/-! ### Walks and generations -/

def Wait.isWalk : Wait → Bool
  | .walk => true
  | _ => false
/-- R322: the first request that waits for a free walk starts it. -/
def State.walkGrantable (s : State) (die : Nat) : Bool :=
  let w := (s.die die).walks
  w.any (!·.granted) && decide ((w.filter (·.granted)).length < Config.walks)
def grantFirst : List Walk → List Walk
  | [] => []
  | w :: ws => if w.granted then w :: grantFirst ws else { w with granted := true } :: ws
def execWalkGrant (die : Nat) (s : State) : Out :=
  if s.walkGrantable die then .next (s.modDie die fun d => { d with walks := grantFirst d.walks }) else .next s
/-- R330: a walk whose RGEN is ahead of CUR walks again once CUR has advanced: its request is presented again, and uses the leaf,
faults at its generation, or waits once more. -/
def execWalkComplete (die n : Nat) (s : State) : Out :=
  match (s.die die).walks[n]? with
  | none => .next s
  | some w =>
    if !w.granted || ((s.die die).cur < w.rgen && (s.die die).cur ≤ w.at_) then .next s
    else
      let s1 := s.modDie die fun d => { d with walks := d.walks.eraseIdx n }
      .next (s1.updGroup w.gid fun g => g.again Wait.isWalk)

/-- R328: a read of XGEN_TICKET. -/
def execXgenTicket (agent : Nat) (s : State) : Out :=
  .next (if !isAgent agent then s else { s with ticket := s.ticket + 1, agentTicket := setK s.agentTicket agent s.ticket })
/-- R328, R329: tied to the last ticket that the writer read. -/
def execXgenInval (agent : Nat) (w : DWord) (s : State) : Out :=
  .next (if !isAgent agent then s else { s with invals := s.invals ++ [(getK s.agentTicket 0 agent, w)] })
/-- R328. -/
def State.ticketDone (s : State) (g : Nat) : State :=
  if g == 0 || s.ticket ≤ g || s.doneTickets.contains g then s else { s with doneTickets := g :: s.doneTickets }
def execXgenDone (agent : Nat) (g : DWord) (s : State) : Out := .next (if isAgent agent then s.ticketDone g.toNat else s)

/-- The fields of XGEN_INVAL. -/
def invalAsn (w : DWord) : Nat := w.toNat / 2 ^ 41 % 2 ^ 16
def invalAll (w : DWord) : Bool := w.getLsbD 57
def invalVpn (w : DWord) : Nat := w.toNat % 2 ^ 41
/-- R325: a live extent of the address space lies under a leaf that the invalidation names, whatever its size. -/
def State.extentHolds (s : State) (w : DWord) : Bool :=
  s.sheets.any fun h => h.asn == invalAsn w && h.tasks.any fun t => t.st == .ready &&
    t.leaves.any fun e => invalAll w || e.1 / 2 ^ e.2 == invalVpn w * 65536 / 2 ^ e.2
/-- The greatest g for which every ticket up to g is done. -/
def doneTo (done : List Nat) : Nat → Nat → Nat
  | 0, g => g
  | n + 1, g => if done.contains (g + 1) then doneTo done n (g + 1) else g
/-- R325, R329: the generation that the hub may publish. -/
def State.publishable (s : State) : Nat :=
  let g := doneTo s.doneTickets s.doneTickets.length 0
  (s.invals.filter fun e => s.extentHolds e.2).foldl (fun m e => min m (e.1 - 1)) g
/-- R329: stores of a batch on the die have been translated through an entry that an invalidation names, and are not performed. -/
def State.holdsBack (s : State) (die : Nat) (w : DWord) : Bool :=
  s.groups.any fun g => dieOf g.core == die && invalAsn w == g.asn && g.batches.any fun b =>
    b.pages.any fun e => invalAll w || invalVpn w * 65536 / 2 ^ e.2 == e.1 / 2 ^ e.2
/-- The generation that a die may take. -/
def State.publishableOn (s : State) (die : Nat) : Nat :=
  (s.invals.filter fun e => s.holdsBack die e.2).foldl (fun m e => min m (e.1 - 1)) s.publishable
/-- R329: CUR of a die rises, its TLB entries that a ticket names being gone. -/
def execGenerationAdvance (die : Nat) (s : State) : Out :=
  let g := s.publishableOn die
  if (s.die die).cur < g then
    let mine := s.invals.filter fun e => e.1 ≤ g
    let gone (e : TlbEntry) : Bool := mine.any fun i => e.named (invalAsn i.2) (invalAll i.2) (invalVpn i.2)
    let drop (e : Nat × Core) : Nat × Core :=
      if dieOf e.1 == die then (e.1, { e.2 with tlb := e.2.tlb.filter fun x => !gone x }) else e
    let s1 := { s with cores := s.cores.map drop }
    let s2 := s1.modDie die fun d => { d with cur := g, tlb := d.tlb.filter fun e => !gone e }
    let low := ((List.range 4).map fun d => (s2.die d).cur).foldl min g
    .next { s2 with invals := s2.invals.filter (fun e => low < e.1), freeing := s2.freeing.filter (fun e => low < e.1)
                    poolFree := s2.poolFree ++ (s2.freeing.filter fun e => e.1 ≤ low).map (·.2) }
  else .next s

/-! ### Replies to page faults (R327) -/

/-- R410, R412: change what a held or waiting frame says, keeping what software wrote in it. -/
def State.reframe (s : State) (g : Group) (f : Group → Group) : State :=
  s.putFrame (f (g.readFrame s.mem))

/-- R327, R412, R415, R416: every shard has replied: the group is restored, unless an EVICT came meanwhile and no RESUME has, or its frame no
longer says what the part wrote. -/
def State.faultServed (s : State) (gid : Nat) : State :=
  match s.grp? gid with
  | none => s
  | some g =>
    if g.st != .saved || g.faults.any (!·.done) then s
    else match g.faults.findSome? fun r => r.failed with
      | some c =>
        let bad := (g.faults.filter fun r => r.failed.isSome).flatMap (·.missing)
        let m := Mask.ofLanes (bad.map (·.1))
        let a := ((bad.find? fun e => e.1 == lowest m).map (·.2)).getD 0#64
        let s1 := s.reframe g fun h =>
          { h with faults := [], frameHeld := true, save := { h.save with cause := c, fstate := 3, flanes := m, faddr := a } }
        s1.callqPush (s.survOf g.core) { slot := g.frame, type := 4 }
      | none =>
        let ok := g.frameIntact s.mem
        let s1 := s.reframe g fun h => { h with faults := [], save := { h.save with fstate := 2 } }
        match s1.grp? gid with
        | none => s1
        | some h => if ok && !s1.ckptStop && (h.save.cause == .pageWait || h.resumeReq) then (s1.restoreGroup h fun k => { k with resumeReq := false }).getD s1 else s1

/-- R332, R440: the page of an address is being moved, and a shard maps it again after that. -/
def State.onTheMove (s : State) (asn va : Nat) : Bool :=
  s.moves.any fun m => m.leaves.any fun e => e.1 == asn && e.2.2.1 / 2 ^ m.bits == va / 2 ^ m.bits
/-- R327: a shard has mapped every page of its record, or ends with a failure; its reply names a generation. For a group that waits
for no page but has a call in progress, the shard that serves the call has asked for the pages (R395). -/
def execPageFaultReply (gid shard gen : Nat) (maps : List MapReq) (s : State) : Out :=
  match s.grp? gid with
  | none => .next s
  | some g => match g.faults.find? fun r => r.shard == shard && !r.done with
    | none =>
      let mine (c : CallRec) : List Nat := (c.asked.filter fun p => shardOf p == shard && !c.replied.contains p)
      .next (if g.calls.all fun c => (mine c).isEmpty then s
        else match s.mapServed g.asn maps with
          | none => s
          | some t => t.modGrp gid fun g => { g with calls := g.calls.map fun c => { c with replied := c.replied ++ mine c } })
    | some r =>
      if r.vas.any fun a => s.onTheMove g.asn a.toNat then .next s
      else match s.mapServed g.asn maps with
      | none => .next s
      | some s1 =>
        let lost := (r.who.zip r.vas).filter fun e => decide (2 ^ 57 ≤ e.2.toNat) || (s1.walk g.asn e.2.toNat).isNone
        let fin (x : FaultRec) : FaultRec :=
          if x.shard == shard then { x with done := true, missing := lost, failed := if lost.isEmpty then none else some .page } else x
        .next ((s1.modGrp gid fun g => { g with
          rgen := some (max gen (g.rgen.getD 0)), faults := g.faults.map fin }).faultServed gid)

/-! ### Windows (R299 to R303, R315) -/

/-- R300, R303: messages for the multiples of the registered step that a counter passes, 0 among them when it wraps. -/
def State.windowStep (s : State) (w : Window) (old new code : Nat) : State :=
  match w.notify with
  | none => s
  | some (team, port, q) =>
    if q == 0 then s
    else (List.range (if old ≤ new then new / q - old / q else (2 ^ 64 - 1) / q - old / q + 1 + new / q)).foldl (fun u _ => u.post team port 6 (BitVec.ofNat 64 new) w.entry code) s
/-- The sheet of this module that holds an export entry. -/
def State.exportOf (s : State) (entry : Nat) : Option (Sheet × Window) :=
  s.sheets.findSome? fun h => (h.windows.find? fun w => w.entry == entry && !w.isImport).map fun w => (h, w)
def State.setWindow (s : State) (sheet : Nat) (w : Window) : State :=
  s.modSheet sheet fun h => { h with windows := h.windows.map fun x => if x.entry == w.entry then w else x }

/-- The physical pieces of a range as an address space maps it for writing. -/
def State.asnSegs (s : State) (asn va n : Nat) : Option (List (Nat × Nat)) :=
  (pagesOf va n).mapM fun p =>
    let x := max p va
    (s.asnPa asn x true).map fun a => (a, min (p + 65536) (va + n) - x)

/-- R300, R302: the bytes of a put are performed at this module, ARR grows, and the origin is told. -/
def State.arrivePut (s : State) (n : Nat) (p : Put) : State :=
  -- R302: a put that cannot be delivered ends its origin sheet
  let lost := { s with puts := s.puts.eraseIdx n }.modSheet p.sheet fun h => if p.origin == s.moduleNo then { h with check := true } else h
  match s.exportOf (p.wref.toNat / 2 ^ 48) with
  | none => lost
  | some (h, w) =>
    let a := w.base + p.wref.toNat % 2 ^ 48
    if w.len < p.wref.toNat % 2 ^ 48 + p.data.length then lost
    else match s.asnSegs h.asn a p.data.length with
      | none => s
      | some ss =>
        if ss.any fun e => s.badWrite e.1 e.2 then s.modSheet p.sheet fun h => { h with check := true }
        else
          let s1 := (splitSegs ss p.data).foldl (fun u e => u.sheetStore h.id e.1 e.2) s
          let w1 := { w with arr := w.arr + BitVec.ofNat 64 p.data.length }
          let s2 := (s1.setWindow h.id w1).modSheet h.id fun h => { h with noReplay := true }
          let s3 := s2.windowStep w1 w.arr.toNat w1.arr.toNat 0
          if p.origin == s.moduleNo then { s3 with puts := s3.puts.modify n fun p => { p with arrived := true } }
          else { s3 with puts := s3.puts.eraseIdx n }.modFab (portOf p.origin) fun f => f.send 2 1 [] p.wref.toNat (putTag p true)
/-- R300: a put arrives: at this module its bytes are performed; at another, that module performs them. -/
def execPutArrival (n : Nat) (s : State) : Out :=
  match s.puts[n]? with
  | none => .next s
  | some p =>
    if p.arrived then .next s
    else if p.module == s.moduleNo then .next (s.arrivePut n p)
    else .next { s with puts := s.puts.modify n fun p => { p with arrived := true } }
/-- R300: the acknowledgement of a put that has arrived: ACK grows. -/
def execPutAckReceipt (n : Nat) (s : State) : Out :=
  match s.puts[n]? with
  | none => .next s
  | some p =>
    if !p.arrived || p.origin != s.moduleNo then .next s
    else
      let s1 := { s with puts := s.puts.eraseIdx n }
      match (s1.sheet? p.sheet).bind fun h => h.windows.find? fun w => w.entry == p.entry && w.isImport with
      | none => .next s1
      | some w =>
        let w1 := { w with ack := w.ack + BitVec.ofNat 64 p.data.length }
        .next ((s1.setWindow p.sheet w1).windowStep w1 w.ack.toNat w1.ack.toNat 1)

/-- R315: the counter that a wait names has reached its threshold. -/
def Wait.winDone (h : Sheet) : Wait → Bool
  | .win e arr t => match (h.windows.find? fun w => w.entry == e).bind fun w => w.counter (if arr then 2 else 1) with
    | .some c => decide (t.toNat ≤ c.toNat)
    | .none => false
  | _ => false
/-- R315: the subset goes on, and its WINWAIT acquires at system scope. -/
def execWinwaitSatisfied (gid : Nat) (s : State) : Out :=
  match s.grp? gid with
  | none => .next s
  | some g => match s.sheet? g.sheet with
    | none => .next s
    | some h =>
      if g.waits (Wait.winDone h) then .next ((s.fenceOf g 5 1).updGroup gid fun g => g.release (Wait.winDone h))
      else .next s

end Sys2Proof.Machine
end

