-- ==== Sys2Proof/Machine/Fabric.lean ====
section
/-!
DEFINITION. The device fabric (R302, R462, R463): flits, their CRC, retries, lane sparing, links that go down.
-/
namespace Sys2Proof.Machine

/-- R463: the flits that a receiver's ACKSEQ covers are no longer kept. -/
def FabPort.acked (f : FabPort) (ack : Nat) : FabPort :=
  match f.unacked.findIdx? fun e => e.1 == ack with
  | some k =>
    let rest := f.unacked.drop (k + 1)
    { f with unacked := rest, wire := f.wire.filter (fun e => rest.contains e), retries := 0 }
  | none => f

/-- R462: the pieces of a put that are here, without LAST. -/
def flitTagKey (tag : Nat) : Nat := tag % 2 ^ 63
/-- A put data flit: its bytes join the put; with LAST the put is whole and may arrive. -/
def State.putFlit (s : State) (port : Nat) (bs : List Byte) : State :=
  let tag := fieldAt bs 240 8
  let key := flitTagKey tag
  let pay := (bs.drop 16).take (fieldAt bs 6 2)
  let f := getK s.fab FabPort.init port
  let (wref, old) := match f.parts.find? fun e => e.1 == key with
    | some e => e.2
    | none => (BitVec.ofNat 64 (fieldAt bs 8 8), [])
  let rest := f.parts.filter fun e => e.1 != key
  if 2 ^ 63 ≤ tag then
    let p : Put := { origin := tag % 2 ^ 16, entry := tag / 2 ^ 16 % 2 ^ 16, num := tag / 2 ^ 32 % 2 ^ 31, module := s.moduleNo
                     wref, data := old ++ pay }
    { s.modFab port (fun f => { f with parts := rest }) with puts := s.puts ++ [p] }
  else s.modFab port fun f => { f with parts := rest ++ [(key, wref, old ++ pay)] }
/-- An acknowledgement flit: the put that its tag names has arrived. -/
def State.ackFlit (s : State) (bs : List Byte) : State :=
  let key := flitTagKey (fieldAt bs 240 8)
  let mark (p : Put) : Put := if p.origin == s.moduleNo && flitTagKey (putTag p false) == key then { p with arrived := true } else p
  { s with puts := s.puts.map mark }

/-- R302, R463: a link is taken down; the puts that it held end their origin sheets. -/
def State.linkDown (s : State) (port : Nat) : State :=
  let held := s.puts.filter fun p => !p.arrived && p.origin == s.moduleNo && p.module != s.moduleNo && portOf p.module == port
  let s1 := s.modFab port fun f => { f with down := true, unacked := [], wire := [], parts := [] }
  let s2 := { s1 with puts := s1.puts.filter fun p => !held.contains p }
  held.foldl (fun u p => u.modSheet p.sheet fun h => { h with check := true }) s2
/-- R463: a retry request: the sender resends from the flit after ACKSEQ; after 64 retries without an acknowledgement the link is taken
down. -/
def State.retryLink (s : State) (port : Nat) : State :=
  if 64 ≤ (getK s.fab FabPort.init port).retries then s.linkDown port else s.modFab port FabPort.resend

/-- R462, R463: a flit whose CRC fails is dropped and a retry request is sent; each SEQ is accepted once; a retry request is answered.
A flit of type 3 or 4, whose contents the rules do not give, is acknowledged; one with a reserved TYPE or VC, or more than 224 bytes of
payload, is not accepted (log 9). -/
def execFlitReceive (port : Nat) (flit : List Byte) (s : State) : Out :=
  let f := getK s.fab FabPort.init port
  if flit.length != 256 || 16 ≤ port || f.down then .next s
  else if crc64 (flit.take 248) != fieldAt flit 248 8 then .next (s.modFab port fun f => f.send 5 2 [] 0 0)
  else
    let type := fieldAt flit 0 1
    let s1 := s.modFab port fun f => f.acked (fieldAt flit 4 2)
    if fieldAt flit 2 2 != f.rxSeq || 224 < fieldAt flit 6 2 || 5 < type || 2 < fieldAt flit 1 1 then .next s1
    else
      let s2 := s1.modFab port fun f => { f with rxSeq := (f.rxSeq + 1) % 65536 }
      .next (match type with
        | 1 => s2.putFlit port flit
        | 2 => s2.ackFlit flit
        | 5 => s2.retryLink port
        | _ => s2)
/-- R463: the flits after ACKSEQ are sent again. -/
def execFlitRetryRequest (port ackseq : Nat) (s : State) : Out :=
  .next (if 16 ≤ port || (getK s.fab FabPort.init port).down then s else (s.modFab port fun f => f.acked ackseq).retryLink port)
/-- R463. -/
def execFabricLaneSpare (port : Nat) (s : State) : Out :=
  .next (s.modFab port fun f => if f.down then f else { f with spare := true })
/-- R302, R463: a link that has used its spare and loses a second lane, or that cannot deliver after 64 retries, is taken down. -/
def execFabricLinkDown (port : Nat) (s : State) : Out :=
  let f := getK s.fab FabPort.init port
  .next (if f.down || !(f.spare || 64 ≤ f.retries) then s else s.linkDown port)

end Sys2Proof.Machine
end

