-- ==== Sys2Proof/Machine/Matrix.lean ====
section
/-!
DEFINITION. The instructions of unit MTX (R220 to R236): issue checks, entry into the open batch, and MOPEN, MCLOSE,
MWAIT.
-/
namespace Sys2Proof.Machine

/-- R196, R206: the group may put one more instruction into its open batch. -/
def mayBatch (q : Q) : Bool :=
  q.g.matrix && (match q.g.openBatch with
    | some b => decide (b.count < 64)
    | none => false)

/-- The accumulator has the tag, after everything issued before (R205, R215, R233). -/
def tagIs (q : Q) (s : State) (c : BitVec 4) (tag : Nat) : Bool :=
  (q.g.issueTags (s.core q.core)).getD c.toNat none == some tag

/-- R492: a chunk that the instruction names has failed. -/
def chunkCond (q : Q) (s : State) (op : MOp) (k : Unit → Res) : Res :=
  let cs := rangeChunks (op.scrReads ++ op.scrWrites)
  match (s.team? q.g.team).bind fun t => t.failedIn cs with
  | some (_, c, a) => .trap c q.sub a 0 (s.nameFailed q.g.team cs)
  | none => k ()

/-- The registers that the instruction will write at retirement (R209). -/
def MOp.writes (op : MOp) : List Nat :=
  match op.i with
  | .crd o => (List.range (crCols o)).flatMap fun t => if crTag o == 0 then [crReg o t, crReg o t + 1] else [crReg o t]
  | .qnt o => match o.sb with
    | .v r => [r.toNat + o.bsel.toNat / 4]
    | _ => []
  | _ => []

/-- Capture the registers that an instruction reads at its issue. -/
def capture (g : Group) (rs : List Nat) : List (Nat × List Word) :=
  rs.map fun r => (r, (List.range g.width).map fun L => g.v r L)

/-- Put an instruction into the open batch, and let the engine run (R207). -/
def enqueue (q : Q) (op : MOp) (g : Group) (s : State) : Res :=
  let g1 := { g with batches := g.batches.map fun b =>
    if b.closed then b else { b with count := b.count + 1, todo := b.todo ++ [op], written := b.written ++ op.writes, pages := b.pages ++ op.pages } }
  let s1 := (s.setGrp g1).engine q.g.id
  .ok (match s.team? g.team with
    | some t => s1.modGrp q.g.id (·.readScr t)
    | none => s1)

/-- An instruction that touches neither memory nor scratchpad. -/
def batchOp (i : Instr) (tagged : Q → State → Bool) (regs : List Nat) (q : Q) (s : State) : Res :=
  if !mayBatch q || !tagged q s then trapAll q .matrixState s
  else enqueue q { i, regs := capture q.g regs } q.g s

/-- R210: what the memory rows of an instruction hold at its issue. -/
def MOp.readMem (op : MOp) (s : State) : MOp :=
  { op with snap := op.rows.flatten.foldl (fun m e => m.store e.1 (s.mem.bulk e.1 e.2)) [], bad := op.rows.any s.segBad }
/-- The row ranges of a tile access: 64-bit addresses, bytes of a row (R222). -/
def tileRanges (o : FM) (base : DWord) : List (Int × Nat) :=
  let v := viewOf (mView o)
  let (k, n) := if mbit o.mod 3 then (v.elems, v.rows * v.w / 8) else (v.rows, v.rb)
  (List.range k).map fun (r : Nat) => (wrap64 (base.toNat + (r : Nat) * off24 o.off), n)

/-- The first condition that the rows meet (R224). -/
def rowsCond (s : State) (g : Group) (rs : List (Int × Nat)) (acc : Acc) : Option Cond :=
  let cs := rs.filterMap fun e => s.rangeCond g e.1 e.2 1 acc
  match cs with
  | [] => none
  | .miss _ :: _ => some (.miss (cs.flatMap Cond.vas))
  | c :: _ => some c

/-- R329: the pages, with their page bits, through whose leaves a range of stores is translated; none inside an extent. -/
def State.storePages (s : State) (g : Group) (va n : Nat) : List (Nat × Nat) :=
  (pagesOf va n).filterMap fun p =>
    if (s.extents g).any (·.covers (max p va)) then none
    else (s.leafFor g.core g.asn p).map fun e => (p / 2 ^ e.2 * 2 ^ e.2, e.2)
/-- R210, R277, R280, R282, R297: the line requests of an engine's load, which is an ordinary load of the group at its issue, or of a tile
store, which is performed when its batch retires. -/
def tileLines (q : Q) (acc : Acc) (op : MOp) (s : State) (k : MOp → State → Res) : Res :=
  let as := linePieces op.rows.flatten
  withLines q s (if acc == .rd then .load else .store) as fun t =>
    if acc == .rd then k { op with bad := op.bad || s.l1BadAny q.core as false } (t.loadPieces q as) else k op t
def tileOp (i : Instr) (o : FM) (acc : Acc) (q : Q) (s : State) : Res :=
  let base := q.g.rdS o.base
  let rs := tileRanges o base
  if !mayBatch q then trapAll q .matrixState s
  else if base.toNat % 16 != 0 then .trap .align q.sub base 0 s
  else settleU q (rowsCond s q.g rs acc) s fun _ =>
    let off := (q.g.rdS o.index).toNat % 2 ^ 20
    let op0 : MOp := { i, base, aux := BitVec.ofNat 64 off, rows := rs.map fun e => s.segs q.g e.1.toNat e.2 acc }
    let op := if acc == .rd then op0.readMem s else { op0 with pages := (rs.flatMap fun e => s.storePages q.g e.1.toNat e.2).eraseDups }
    let size := ((s.team? q.g.team).map (·.s)).getD 0
    if mbit o.mod 4 && (off % 4 != 0 || decide (size < off + 4 * (viewOf (mView o)).elems)) then
      .trap .scratch q.sub (BitVec.ofNat 64 off) 0 s
    else chunkCond q s op fun _ => tileLines q acc op s fun op t =>
      let t := rs.foldl (fun t e => t.touchRange q.g e.1.toNat e.2 acc) t
      enqueue q op ((t.grp? q.g.id).getD q.g) t

def execTld (o : FM) (s : State) := runI (.tld o) (tileOp (.tld o) o .rd) s
def execTst (o : FM) (s : State) := runI (.tst o) (tileOp (.tst o) o .wr) s

/-- R225. -/
def execCbload (o : FM) (s : State) :=
  runI (.cbload o) (fun q s =>
    let a : Int := wrap64 ((q.g.rdS o.base).toNat + off24 o.off)
    if !mayBatch q then trapAll q .matrixState s
    else if a % 64 != 0 then .trap .align q.sub (addrOf a) 0 s
    else settleU q (rowsCond s q.g [(a, 1024)] .rd) s fun _ =>
      let op := ({ i := .cbload o, rows := [s.segs q.g a.toNat 1024 .rd] } : MOp).readMem s
      tileLines q .rd op s fun op t =>
        let t := t.touchRange q.g a.toNat 1024 .rd
        enqueue q op ((t.grp? q.g.id).getD q.g) t) s

def execTzero (o : FX) (s : State) := runI (.tzero o) (batchOp (.tzero o) (fun _ _ => true) []) s
def execCzero (o : FX) (s : State) := runI (.czero o) (batchOp (.czero o) (fun _ _ => true) []) s

/-- R227: the tag of the class. -/
def execMma (o : FX) (s : State) :=
  runI (.mma o) (batchOp (.mma o) (fun q s => match mClass (xfLo o 5) (o.xf.toNat / 32) with
    | some c => tagIs q s o.cd c.tag
    | none => false) []) s

/-- The registers of a scale run that reaches byte `last` (R221). -/
def runRegs (o : Opnd) (first last : Nat) : List Nat :=
  match o with
  | .v n => (List.range (last / 4 + 1 - first / 4)).map (n.toNat + first / 4 + ·)
  | _ => []
def scaleRegs (o : FX) (blocks : Nat) : List Nat :=
  (runRegs o.sa o.bsel.toNat (o.bsel.toNat + blocks - 1) ++ runRegs o.sb o.bsel.toNat (o.bsel.toNat + blocks - 1)).eraseDups
def mmakOp (i : Instr) (o : FX) (blocks : Nat) : Q → State → Res :=
  batchOp i (fun q s => tagIs q s o.cd 2) (scaleRegs o blocks)
def execMmake4m3 (o : FX) (s : State) := runI (.mmake4m3 o) (mmakOp (.mmake4m3 o) o 4) s
def execMmake5m2 (o : FX) (s : State) := runI (.mmake5m2 o) (mmakOp (.mmake5m2 o) o 4) s
def execMmake3m2 (o : FX) (s : State) := runI (.mmake3m2 o) (mmakOp (.mmake3m2 o) o 4) s
def execMmake2m3 (o : FX) (s : State) := runI (.mmake2m3 o) (mmakOp (.mmake2m3 o) o 4) s
def execMmake2m1 (o : FX) (s : State) := runI (.mmake2m1 o) (mmakOp (.mmake2m1 o) o 8) s
def execMmacb (o : FX) (s : State) := runI (.mmacb o) (mmakOp (.mmacb o) o 4) s

/-- R230: the descriptor's conditions. -/
def QDesc.ok (d : QDesc) (size : Nat) : Bool :=
  d.rsv == 0 && d.src % 4 == 0 && d.stride % 4 == 0 && d.smv % 4 == 0 &&
  decide (d.src + 63 * d.stride + 192 ≤ size) && (!d.smooth || decide (d.smv + 192 ≤ size))

def quantOp (i : Instr) (o : FX) (rd : Bool) (q : Q) (s : State) : Res :=
  let x := q.g.rdS o.sa
  let size := ((s.team? q.g.team).map (·.s)).getD 0
  if !mayBatch q then trapAll q .matrixState s
  else if !(qDesc x).ok size then .trap .scratch q.sub (BitVec.ofNat 64 (qDesc x).src) 0 s
  else
    let gens := (List.range 64).map fun L => (q.g.lane L).sr
    let op : MOp := { i, base := x, gens, regs := if rd then [] else capture q.g (runRegs o.sb o.bsel.toNat o.bsel.toNat) }
    chunkCond q s op fun _ =>
      let g := if rd && qRm o == 4 then
          { q.g with lanes := q.g.lanes.map fun l => { l with sr := (srDraws 48 l.sr).2 } }
        else q.g
      enqueue q op g s
/-- R231: under SR the draws are taken at issue. -/
def execQnt (o : FX) (s : State) := runI (.qnt o) (quantOp (.qnt o) o true) s
def execDqnt (o : FX) (s : State) := runI (.dqnt o) (quantOp (.dqnt o) o false) s

/-- R233. -/
def execCrd (o : FX) (s : State) := runI (.crd o) (batchOp (.crd o) (fun q s => tagIs q s o.cd (crTag o)) []) s
def execCwr (o : FX) (s : State) :=
  runI (.cwr o) (batchOp (.cwr o) (fun _ _ => true) ((List.range (crCols o)).flatMap fun t =>
    if crTag o == 0 then [crReg o t, crReg o t + 1] else [crReg o t])) s

/-- Open a batch (R206, R234). -/
def Group.open_ (g : Group) : Group := { g with batches := g.batches ++ [{}] }
/-- R234: the subset waits until its group is holder; groups become holder in the order of their first MOPEN (R198). -/
def execMopen (o : FY) (s : State) :=
  runI (.mopen o) (fun q s =>
    if !q.g.matrix || q.g.openBatch.isSome || 4 ≤ q.g.batches.length then trapAll q .matrixState s
    else
      let others := match s.holder q.core q.g.team with
        | some h => h != q.g.id
        | none => false
      let ahead := match (s.core q.core).mopenQ with
        | [] => false
        | h :: _ => h != q.g.id
      if others || (ahead && q.g.batches.isEmpty) then
        .wait .mopen (s.modCore q.core fun c =>
          { c with mopenQ := if c.mopenQ.contains q.g.id then c.mopenQ else c.mopenQ ++ [q.g.id] })
      else .ok ((s.modGrp q.g.id Group.open_).modCore q.core fun c => { c with mopenQ := c.mopenQ.filter (· != q.g.id) })) s

def closeBatch (g : Group) : Group := { g with batches := g.batches.map fun b => { b with closed := true } }
def execMclose (o : FY) (s : State) :=
  runI (.mclose o) (fun q s =>
    if !q.g.matrix || q.g.openBatch.isNone then trapAll q .matrixState s else .grp s (closeBatch q.g)) s

def execMwait (o : FY) (s : State) :=
  runI (.mwait o) (fun q s =>
    let wp := mbit o.mod 0
    if !q.g.matrix || (wp && q.g.openBatch.isSome) then trapAll q .matrixState s
    else match s.retire q.g.id o.code.toNat q.act with
      | .fail c a => .trap c q.sub a 0 (s.cancelBatches q.g.id)
      -- R236: retirement and the recording of a waypoint are one step
      | .wait t => .wait (.mwait o.code.toNat q.act wp) (if wp then s else t)
      | .done t => .ok (if wp then t.modGrp q.g.id fun g => g.takeWaypoint q.sub q.pc else t)) s

end Sys2Proof.Machine
end

