-- ==== Sys2Proof/Machine/Service.lean ====
section
/-!
DEFINITION. The instructions of units SVC, STA and SEAL: service calls (R392 to R404), TRAP, BKPT, FCHK (R417), WEARRD and
BUDRD (R442, R443), SEAL and SEALX (R455, R456).
-/
namespace Sys2Proof.Machine

/-! ### Service calls (R392, R393, R404) -/

/-- The arguments of a lane: pairs of vector registers, or scalar registers. -/
def callArgs (o : FY) (g : Group) (L : Nat) : List DWord :=
  (List.range (narg o)).map fun i => match o.ya with
    | .v n => g.v64 (n.toNat + 2 * i) L
    | .s n => g.s (n.toNat + i)
    | _ => 0#64

/-- Bytes 0 to 2,175 of a call slot (R392, R394). DESIGN CHOICE (log 33): ARGS of a lane outside ACTIVE, and past NARG, are written as
zero. -/
def slotBytes (c : CallRec) (form : Nat) (g : Group) (args : Nat → List DWord) : List Byte :=
  let on (L : Nat) : Bool := c.active.getLsbD L
  let ls := lanesOf 64 c.active
  let leader (L : Nat) : Nat := if on L then (ls.find? fun M => args M == args L).getD L else 255
  leBytes 2 c.callno ++ leBytes 1 form ++ leBytes 1 c.port ++ leBytes 4 c.cseq ++ leBytes 8 c.active.toNat ++ leBytes 8 0 ++
  leBytes 8 c.pc.toNat ++ leBytes 8 g.sheetid.toNat ++ leBytes 4 (g.core + 1024 * g.ctx) ++ List.replicate 20 0#8 ++
  ((List.range 64).flatMap fun L => leBytes 1 (leader L)) ++
  (List.range 64).flatMap fun L => padTo 32 (if on L then (args L).flatMap (fun x => leBytes 8 x.toNat) else [])

/-- Issue a call: a release at device scope, then write the slot, append the descriptor (R393). -/
def State.issueCall (s : State) (g : Group) (c : CallRec) (form : Nat) (args : Nat → List DWord) : State :=
  let c := { c with seq := s.fresh }
  let s := { s.releaseAt g.core 4 (s.pairedOf g) with fresh := s.fresh + 1 }
  let s1 := s.setGrp { g with calls := g.calls ++ [c], cseq := if c.form == 2 then c.cseq else g.cseq }
  let s2 := { s1 with mem := s1.mem.store (g.slotAddr c.slot) (slotBytes c form g args) }.mend (g.slotAddr c.slot) 2176
  s2.callqPush (s.survOf g.core) { slot := g.slotAddr c.slot, type := c.form }

/-- R212: an open batch closes, and every batch retires with its flags to the calling lanes. -/
def callRetire (q : Q) (s : State) (k : State → Group → Res) : Res :=
  let s0 := if q.g.openBatch.isSome then s.setGrp (closeB q.g) else s
  match s0.retire q.g.id 0 q.act with
  | .fail c a => .trap c q.sub a 0 (s0.cancelBatches q.g.id)
  | .wait t => .wait (.mwait 0 q.act false) t
  | .done t => match t.grp? q.g.id with
    | some g => k t g
    | none => .moved t
where
  closeB (g : Group) : Group := { g with batches := g.batches.map fun b => { b with closed := true } }

def Group.slotBusy (g : Group) (n : Nat) : Bool := g.calls.any fun c => c.slot == n

def destNum : Opnd → Nat
  | .v n => n.toNat
  | .s n => n.toNat
  | _ => 0

def execSys (o : FY) (s : State) :=
  runI (.sys o) (fun q s => callRetire q s fun t g =>
    if g.slotBusy 0 then .wait (.slot 0 0) t
    else
      let each := mbit o.mod 3
      let c : CallRec := { slot := 0, form := 1, each, active := q.act, dest := destNum o.yb, pc := q.pc, callno := o.code.toNat }
      let t1 := t.issueCall g c (narg o + (if each then 8 else 0) + 16) (callArgs o g)
      -- lanes whose guards fail keep going with the subset, which waits as a whole
      .wait (.call 0) t1) s

def execSysa (o : FY) (s : State) :=
  runI (.sysa o) (fun q s =>
    let port := (q.g.rdS o.yc).toNat
    let isOpen := match s.team? q.g.team with
      | some t => decide (port < 64) && (t.port? port).isSome
      | none => false
    if !isOpen then trapAll q .access s
    else callRetire q s fun t g =>
      match [1, 2, 3].find? fun n => !g.slotBusy n with
      | none => .wait (.slot 1 3) t
      | some n =>
        let c : CallRec := { slot := n, form := 2, active := q.act, port, pc := q.pc, callno := o.code.toNat, cseq := (g.cseq + 1) % 2 ^ 32 }
        .ok (t.issueCall g c (narg o + 32) (callArgs o g))) s

def execSysw (o : FY) (s : State) :=
  runI (.sysw o) (fun q s => callRetire q s fun t g =>
    if g.slotBusy 0 then .wait (.slot 0 0) t
    else
      let c : CallRec := { slot := 0, form := 3, active := 1#64, dest := destNum o.yb, pc := q.pc, callno := o.code.toNat }
      .wait (.call 0) (t.issueCall g c (narg o + 48) (callArgs o g))) s

/-! ### TRAP, BKPT, FCHK (R417) -/

/-- R96: TRAP and BKPT are commit instructions. -/
def Q.committed (q : Q) : Group := q.g.modLanes q.sub fun _ l => { l with commit := true }

def execTrap (o : FY) (s : State) :=
  runI (.trap o) (fun q s =>
    let targ (L : Nat) : DWord := match o.ya with
      | .v n => if n == 0#8 then 0#64 else q.g.v64 n.toNat L
      | _ => q.g.rd o.ya 2 L
    .trap .trap q.act 0#64 o.code.toNat (s.setGrp (q.committed.modLanes q.act fun L l => { l with targ := targ L }))) s

def execBkpt (o : FY) (s : State) := runI (.bkpt o) (fun q s => .trap .break q.act 0#64 o.code.toNat (s.setGrp q.committed)) s

def execFchk (o : FY) (s : State) :=
  runI (.fchk o) (fun q s =>
    let m := o.code.extractLsb' 0 6
    let hit := maskOf q.g.width fun L => q.act.getLsbD L && (q.g.lane L).fflags &&& m != 0#6
    if hit == 0#64 then .ok s else .trap .trap hit 0#64 (65536 + m.toNat) s) s

/-! ### WEARRD and BUDRD (R442, R443) -/

def execWearrd (o : F5) (s : State) :=
  runI (.wearrd o) (fun q s =>
    let n := if mbit o.mod 0 then ((s.team? q.g.team).map (·.wear)).getD 0 else ((s.sheet? q.g.sheet).map (·.wear)).getD 0
    .grp s (q.g.put q.pf o.d 2 false q.act (List.replicate q.g.width (BitVec.ofNat 64 n)))) s

/-- R443: the result word of a class and a resource; 0 for a class above 6. -/
def budgetWord (b : Option Budget) (res : Nat) : DWord :=
  match b with
  | none => 0#64
  | some b =>
    let share := match res with
      | 0 => b.noc
      | 1 => b.hbm
      | _ => b.pwr
    BitVec.ofNat 64 (b.used.getD res 0 % 2 ^ 32 + share % 256 * 2 ^ 40 + b.exh.getD res 0 % 65536 * 2 ^ 48)
def execBudrd (o : F5) (s : State) :=
  runI (.budrd o) (fun q s =>
    let w := budgetWord ((s.cluster (clusterOf q.core)).budgets[(q.g.rdS o.a).toNat]?) o.mod.toNat
    .grp s (q.g.put q.pf o.d 2 false q.act (List.replicate q.g.width w))) s

/-! ### SEAL and SEALX (R455, R456) -/

def State.taskFoots (s : State) (g : Group) : List Foot :=
  match (s.team? g.team).bind fun t => s.task? g.sheet t.task with
  | some k => k.foots
  | none => []
/-- A frame that holds a region and is not closed is open. -/
def SealFrame.isOpen (f : SealFrame) : Bool := !f.closed && !f.regions.isEmpty
def State.modSeal (s : State) (sheet n : Nat) (f : SealFrame → SealFrame) : State :=
  s.modSheet sheet fun h => { h with seals := h.seals.map fun x => if x.num == n then f x else x }

def execSeal (o : FY) (s : State) :=
  runI (.seal o) (fun q s =>
    match s.sheet? q.g.sheet with
    | none => trapAll q .access s
    | some h =>
      let a := q.g.rdS o.ya
      let n := q.g.rdS o.yb
      match h.sealJob, h.seals.find? fun x => x.num == o.code.toNat with
      | some _, some f =>
        if n.toNat == 0 || 2 ^ 40 ≤ n.toNat then .trap .access q.sub a 0 s
        else if !((s.taskFoots q.g).any fun r => r.base ≤ a.toNat && a.toNat + n.toNat ≤ r.base + r.len) then
          .trap .footprint q.sub a 0 s
        else if f.closed || 64 ≤ f.regions.length then .trap .access q.sub a 0 s
        else .ok (s.modSeal h.id f.num fun x => { x with regions := x.regions ++ [(a, n)] })
      | _, _ => trapAll q .access s) s

def execSealx (o : FY) (s : State) :=
  runI (.sealx o) (fun q s =>
    match (s.sheet? q.g.sheet).bind fun h => (h.seals.find? fun x => x.num == o.code.toNat).filter fun _ => h.sealJob.isSome with
    | some f => if f.isOpen then .ok (s.modSeal q.g.sheet f.num fun x => { x with closed := true }) else trapAll q .access s
    | none => trapAll q .access s) s

end Sys2Proof.Machine
end

