-- ==== Sys2Proof/Machine/PortSteps.lean ====
section
/-!
DEFINITION. The steps of message ports (R366 to R370): arrivals of the part's own messages, held messages, blocked senders.
-/
namespace Sys2Proof.Machine

/-- Held messages of the ports of a core (R368). -/
def State.heldOn (s : State) (core : Nat) : Nat :=
  ((s.teams.flatMap fun t => (t.ports.filter fun p => p.core == core).map fun p => p.held.length)).foldl (· + ·) 0
/-- R85, R368: the held lists of a core as they stand in its park area, 16 bytes an entry, port after port (log 27). -/
def State.writeHeld (s : State) (core : Nat) : State :=
  let ms := s.teams.flatMap fun t => (t.ports.filter fun p => p.core == core).flatMap (·.held)
  let bs := ms.flatMap fun m => leBytes 8 m.lo.toNat ++ leBytes 8 m.data.toNat
  { s with mem := s.mem.store (parkArea core + 6291456) bs }.mend (parkArea core + 6291456) bs.length
/-- R366: the messages of one Traverse stage enter a port in round order. -/
def InMsg.before (a b : InMsg) : Bool :=
  a.team == b.team && a.port == b.port && a.msg.kind == 3 && b.msg.kind == 3 && a.msg.info / 256 % 16 == b.msg.info / 256 % 16
def State.arrivable (s : State) (n : Nat) : Bool :=
  match s.msgs[n]? with
  | none => false
  | some m =>
    !((s.msgs.take n).any fun x => x.before m) &&
    (match (s.team? m.team).bind fun t => t.port? m.port with
     | some p => decide (p.q.length < p.depth) && p.held.isEmpty || decide (s.heldOn p.core < Config.heldEntries)
     | none => true)
/-- R366, R368 to R370: the message enters its port, or its held list, or is discarded and counted in LOST; where the held list
is full, the source waits. -/
def execPortMessageArrival (n : Nat) (s : State) : Out :=
  match s.msgs[n]? with
  | none => .next s
  | some m =>
    if !s.arrivable n then .next s
    else
      let s1 := { s with msgs := s.msgs.eraseIdx n }
      match s1.team? m.team with
      | none => .next s1
      | some t =>
        if t.exited then .next s1
        else match t.port? m.port with
          | none => .next (s1.modTeam m.team fun t => t.lose m.port 1)
          | some p =>
            if p.q.length < p.depth && p.held.isEmpty then .next (s1.enter m.team m.port m.msg)
            else .next ((s1.modTeam m.team fun t => t.modPort m.port fun p => { p with held := p.held ++ [{ m.msg with port := m.port }] }).writeHeld p.core)

/-- The port of a team with room for one message. -/
def State.roomAt (s : State) (team port : Nat) : Option Port :=
  ((s.team? team).bind fun t => t.port? port).filter fun p => decide (p.q.length < p.depth)
/-- R368. -/
def execHeldMessageEnter (team port : Nat) (s : State) : Out :=
  match s.roomAt team port with
  | none => .next s
  | some p => match p.held with
    | [] => .next s
    | m :: ms => .next (((s.modTeam team fun t => t.modPort port fun p => { p with held := ms }).writeHeld p.core).enter team port m)
/-- R367: held messages come first. -/
def execBlockedSendEnter (team port : Nat) (s : State) : Out :=
  match s.roomAt team port with
  | none => .next s
  | some p => match p.held, p.blocked with
    | [], b :: bs =>
      .next (((s.modTeam team fun t => t.modPort port fun p => { p with blocked := bs }).enter team port b.msg).sendEntered b.gid b.lane)
    | _, _ => .next s

end Sys2Proof.Machine
end

