-- ==== Sys2Proof/Machine/Seal.lean ====
section
/-!
DEFINITION. The Cartouche engine (R454 to R460): the seal job of a sheet and the records that it commits.
-/
namespace Sys2Proof.Machine

/-- Every team of a sheet has exited, with its rounds and copies (R344). -/
def State.teamsOver (s : State) (sheet : Nat) : Bool :=
  s.teams.all fun t => t.sheet != sheet || (t.exited && t.rounds.isEmpty)
/-- No thread of the sheet waits in a bin or to be placed (R102). -/
def State.noThreads (s : State) (h : Sheet) : Bool :=
  h.spawnWait.isEmpty && s.cores.all fun e => e.2.bins.all fun b => b.sheet != h.id
/-- Every task of the sheet has ended (R344). -/
def State.tasksOver (s : State) (h : Sheet) : Bool :=
  h.tasks.all (fun t => t.st == .ended) && s.teamsOver h.id && s.noThreads h

/-- The newest version of each page that the tasks of a sheet renamed, and the versions that it supersedes. -/
def Sheet.newest (h : Sheet) : List (Nat × Nat) :=
  let all := h.tasks.flatMap (·.renamed)
  all.zipIdx.filterMap fun (r, i) => if (all.drop (i + 1)).any fun x => x.1 == r.1 then none else some r
/-- R331, R457: the physical pieces of a region as they stand after every task has ended: of a page that the sheet renamed, the
newest version; none for a page whose leaf does not allow the access. -/
def State.segsBy (s : State) (h : Sheet) (may : DWord → Bool) (r : DWord × DWord) : Option (List (Nat × Nat)) :=
  let va := r.1.toNat
  let n := r.2.toNat
  if 2 ^ 57 < va + n then none
  else (pagesOf va n).mapM fun p =>
    let x := max p va
    let k := min (p + 65536) (va + n) - x
    match h.newest.find? fun e => e.1 == p with
    | some e => some (e.2 + (x - p), k)
    | none => match s.walk h.asn x with
      | some (leaf, lv) =>
        if may leaf then some (entAddr leaf / 2 ^ levelBits lv * 2 ^ levelBits lv + x % 2 ^ levelBits lv, k) else none
      | none => none
def State.regionSegs (s : State) (h : Sheet) (r : DWord × DWord) : Option (List (Nat × Nat)) := s.segsBy h leafRD r
def State.regionBytes (s : State) (h : Sheet) (r : DWord × DWord) : Option (List Byte) := (s.regionSegs h r).map s.mem.segLoad
/-- R421: the engine's reads for a sheet's closed frames meet an uncorrectable word. -/
def State.sealBad (s : State) (h : Sheet) : Bool :=
  (h.seals.filter (·.closed)).any fun f => f.regions.any fun r => match s.regionSegs h r with
    | some ss => s.segBad ss
    | none => false

/-- R457: what the engine computes for a closed frame: no digest for a failed one. -/
def State.hashFrame (s : State) (h : Sheet) (f : SealFrame) : SealFrame :=
  match (f.regions.mapM (s.regionBytes h) : Option (List (List Byte))) with
  | some bs => { f with digest := some (sha384 bs.flatten), total := bs.flatten.length }
  | none => { f with digest := none }

/-- R444: the cluster whose sealing class a sheet's seal job is charged to: that of its lowest core (log 10). -/
def State.sealCluster (s : State) (h : Sheet) : Nat :=
  clusterOf ((((s.teams.filter fun t => t.sheet == h.id).flatMap (·.cores)).min?).getD 0)
/-- The pieces that the engine reads for a sheet's closed frames. -/
def State.sealReads (s : State) (h : Sheet) : List (Nat × Nat) :=
  (h.seals.filter (·.closed)).flatMap fun f => f.regions.flatMap fun r => (s.regionSegs h r).getD []
/-- R457: the job runs when every task has ended; open frames are discarded. An uncorrectable word that it reads raises E_CHECK in
the sheet (R421). The shard that maps a page for it acts before (`execEnginePageFault`). It waits while its class has used its share (R447). -/
def execSealJobStart (sheet : Nat) (s : State) : Out :=
  match s.sheet? sheet with
  | none => .next s
  | some h =>
    if h.sealJob.isSome && h.st == .running && s.tasksOver h && !s.stalled (s.sealCluster h) 6 then
      .next ((s.chargeMove (s.sealCluster h) 6 (s.sealReads h)).modSheet sheet fun x =>
        if s.sealBad h then { x with check := true } else { x with st := .sealed, seals := (x.seals.filter (·.closed)).map (s.hashFrame h) })
    else .next s

/-- Length of a signature (R459). -/
def sigLen (alg : Nat) : Nat := if alg == 1 then 96 else 3309
/-- R459: bytes 0 to 127 of a record. -/
def sealHead (f : SealFrame) (alg seq : Nat) (sheetid : DWord) : List Byte :=
  leBytes 2 1 ++ leBytes 1 alg ++ leBytes 1 f.num ++ leBytes 2 f.regions.length ++ leBytes 2 0 ++ leBytes 8 seq ++
  leBytes 8 sheetid.toNat ++ leBytes 8 f.total ++ padTo 48 (f.digest.getD []) ++ sha384 (Config.deviceKey 0)
/-- R458, R459: a whole record; a failed frame has no signature. -/
def sealRecord (f : SealFrame) (alg key seq nonce : Nat) (sheetid : DWord) : List Byte :=
  let head := sealHead f alg seq sheetid
  match f.digest with
  | some _ => head ++ leBytes 4 (sigLen alg) ++ leBytes 4 0 ++ padTo 3960 (padTo (sigLen alg) (Config.sign alg key head nonce))
  | none => head ++ leBytes 4 0 ++ leBytes 4 0 ++ List.replicate 3960 0#8

/-- The pieces of a record slot, for writing: a renamable page's newest version (R331). -/
def State.outSegs (s : State) (h : Sheet) (out : DWord) (num : Nat) : Option (List (Nat × Nat)) :=
  s.segsBy h leafW (out + BitVec.ofNat 64 (4096 * num), 4096#64)

/-- R458, R460: one closed frame: it takes the next sequence number unless it failed. ECDSA signs deterministically, ML-DSA
takes a fresh value. -/
def State.commitSeal (h : Sheet) (out : DWord) (slot : Nat) (s : State) (f : SealFrame) : State :=
  let (alg, key) := match s.trust.slots.find? fun e => e.1 == slot with
    | some e => e.2
    | none => (1, 0)
  let ok := f.digest.isSome
  let r := sealRecord f alg key (if ok then s.trust.sealNext else 0) (if alg == 2 then s.free else 0) h.sheetid
  let s1 := match s.outSegs h out f.num with
    | some ss => (splitSegs ss r).foldl (fun u e => u.sheetStore h.id e.1 e.2) s
    | none => s
  if ok then { s1 with trust := { s1.trust with sealNext := s1.trust.sealNext + 1 }, free := s1.free + 1 } else s1
/-- R458: the record slots of a sheet's frames can be written. -/
def State.sealOutOk (s : State) (h : Sheet) : Bool :=
  match h.sealJob with
  | some (out, _) => h.seals.all fun f => (s.outSegs h out f.num).isSome
  | none => true
/-- R458: every closed frame, in ascending order. -/
def State.commitSeals (s : State) (h : Sheet) : State :=
  match h.sealJob with
  | some (out, slot) => h.seals.foldl (fun u f => u.commitSeal h out slot f) s
  | none => s

end Sys2Proof.Machine
end

