-- ==== Sys2Proof/Machine/Sheets.lean ====
section
/-!
DEFINITION. The steps of sheets, tasks and queues (R331, R336 to R350): submission, start, dispatch with extents, renaming and
snapshots, the ends of tasks, retirement, mapping of queues.
-/
namespace Sys2Proof.Machine

/-! ### Submission and start (R341 to R343, R348) -/

/-- R341 to R343: a write of the host to a submission page, at an offset in the page and with whether it arrived as one
transaction. A write that touches SUBMIT is checked and answered; an 8-byte write of WAKE adds to the count; the rest of the page
takes no write. -/
def State.answerStore (s : State) (qn off : Nat) (whole : Bool) (data : List Byte) : State :=
  if off < 128 && !data.isEmpty then
    if off != 0 || data.length != 128 || !whole then s.answerQueue qn 2 0
    else
      let (code, s1) := s.submitRecord qn data none
      s1.answerQueue qn code (fieldAt data 88 4)
  else if off == 144 && data.length == 8 then s.addWake qn (fieldAt data 0 4)
  else s
/-- R341, R348: a write of SUBMIT or WAKE, the fields that take one. -/
def takesWrite (off : Nat) (data : List Byte) : Bool := (decide (off < 128) && !data.isEmpty) || (off == 144 && data.length == 8)
/-- R341 to R343, R350: a write to the page of a queue that is not mapped is kept, but for WAKE, which the save area counts. A
Surveyor or a Compass core that submits through CMD's registers (R342), which have no layout in the spec, makes the same write. -/
def execHostSubmit (queue : Nat) (data : HostWrite) (s : State) : Out :=
  match s.queue? queue with
  | none => .next s
  | some q =>
    if q.slot.isSome || 128 ≤ data.off then .next (s.answerStore queue data.off data.whole data.bytes)
    else if !takesWrite data.off data.bytes then .next s
    else .next (s.modQueue queue fun q => { q with kept := q.kept ++ [(data.off, data.whole, data.bytes)], pending := true })
/-- R341. -/
def execWake (queue : Nat) (w : DWord) (s : State) : Out := .next (s.addWake queue (w.toNat % 2 ^ 32))

/-- The sheet of a queue that starts next. -/
def State.nextSheet (s : State) (queue : Nat) : Option Sheet := s.sheets.find? fun h => h.queue == queue && h.st == .accepted
def Sheet.waits (h : Sheet) : Bool := h.flags.testBit 1 && h.replays == 0
/-- R348. -/
def State.startable (s : State) (queue : Nat) : Option Sheet :=
  match s.queue? queue, s.nextSheet queue with
  | some q, some h => if s.accepting && !s.ckptStop && q.slot.isSome && (!h.waits || h.wakeReq ≤ q.wake) then some h else none
  | _, _ => none
/-- The physical 64 KiB pages that a range touches, where the address space maps them. -/
def State.physPages (s : State) (asn : Nat) (f : Foot) : List Nat :=
  (pagesOf f.base f.len).filterMap fun p => (s.walk asn p).map fun (e, lv) =>
    entAddr e / 2 ^ levelBits lv * 2 ^ levelBits lv + p % 2 ^ levelBits lv
/-- R296, R339, R348, R427: the launch of a sheet: the wake count is taken, the read-only path's point is set, `%sheetid` takes the
slot that the queue holds, a captured sheet's pages are recorded. -/
def execSheetStart (queue : Nat) (s : State) : Out :=
  match s.startable queue with
  | none => .next s
  | some h =>
    let s1 := if h.waits then s.modQueue queue fun q => { q with wake := q.wake - h.wakeReq } else s
    let cap := h.capt && h.rerun.isNone && ((s.queue? queue).bind (·.capArea)).isSome
    let slot := ((s.queue? queue).bind (·.slot)).getD 0
    let s2 := s1.modSheet h.id fun h =>
      { h with st := .running, roMem := s.mem, capture := cap
               sheetid := if h.replays == 0 then BitVec.ofNat 64 (slot * 2 ^ 52 + h.sheetid.toNat % 2 ^ 52) else h.sheetid }
    let pages := (h.tasks.flatMap fun t => (t.foots.filter Foot.reads).flatMap (s.physPages h.asn)).eraseDups
    .next (if cap then pages.foldl (fun u p => u.capture h.id (.page p (u.mem.bulk p 65536))) s2 else s2)

/-! ### Dependences (R344, R346) -/

def Foot.meets (a b : Foot) : Bool := decide (a.base < b.base + b.len) && decide (b.base < a.base + a.len)
/-- R344: an edge from a range of an earlier task to one of a later task. -/
def footEdge (a b : Foot) : Bool :=
  a.meets b && (a.writes || a.acc == 4 || (a.reads && b.writes) || (a.writes && b.writes))
/-- Earlier tasks of the queue that have not ended. -/
def State.earlierTasks (s : State) (h : Sheet) (num : Nat) : List (Sheet × Task) :=
  let before := (s.sheets.filter fun x => x.queue == h.queue).takeWhile fun x => x.id != h.id
  (before.flatMap fun x => x.tasks.map fun t => (x, t)) ++ (h.tasks.filter fun t => t.num < num).map fun t => (h, t)
/-- Every task with an edge to it has ended (R345). -/
def State.edgesMet (s : State) (h : Sheet) (t : Task) : Bool :=
  (s.earlierTasks h t.num).all fun e => e.2.st == .ended || !(e.2.edgeFoots.any fun a => t.edgeFoots.any (footEdge a))

/-- R346: the rename ranges that the sheet's pool cannot serve, given the free pages. -/
def noRenames : Nat → List (Foot × Nat) → List Nat
  | _, [] => []
  | free, (f, i) :: fs =>
    if f.acc != 4 then noRenames free fs
    else if f.len / 65536 ≤ free then noRenames (free - f.len / 65536) fs else i :: noRenames free fs

/-! ### Dispatch (R324, R331, R345, R418) -/

/-- Where fresh pages lie: 80 GiB of each die's HBM that the survey kernel keeps for rename pools (log 9). -/
def poolBase : Nat := 96 * 2 ^ 30
/-- The k-th page of the pool area. -/
def poolPage (k : Nat) : Nat := poolBase + 65536 * (k % Config.renamePages) + 2 ^ 38 * (k / Config.renamePages)
/-- Take a pool page and fill it with zero (R331). -/
def State.takePage (s : State) : Nat × State :=
  let (p, s1) := match s.poolFree with
    | p :: ps => (p, { s with poolFree := ps })
    | [] => (poolPage s.poolNext, { s with poolNext := s.poolNext + 1 })
  (p, ({ s1 with mem := s1.mem.store p (List.replicate 65536 0#8) }.mend p 65536).refreshRo p 65536)
/-- Fresh pages for the pages of a rename range. -/
def State.renamePages (s : State) : List Nat → List (Nat × Nat) × State
  | [] => ([], s)
  | va :: vs =>
    let (p, s1) := s.takePage
    let (r, s2) := s1.renamePages vs
    ((va, p) :: r, s2)
/-- The current version of a virtual page for a task: the fresh page of the last earlier writer that renamed it (R331). -/
def State.version (s : State) (h : Sheet) (num va : Nat) : Option Nat :=
  ((s.earlierTasks h num).reverse.findSome? fun e => e.2.renamed.find? fun r => r.1 == va).map (·.2)

/-- One page of a declared range as an extent: the lesser of the range's access and the leaf's (R324). -/
def State.pageExtent (s : State) (h : Sheet) (t : Task) (f : Foot) (va : Nat) : Option Extent :=
  match s.walk h.asn va with
  | none => none
  | some (leaf, lv) =>
    let base := entAddr leaf / 2 ^ levelBits lv * 2 ^ levelBits lv + va % 2 ^ levelBits lv
    let pa := match t.renamed.find? fun r => r.1 == va with
      | some r => r.2
      | none => (s.version h t.num va).getD base
    some { va, pa, len := 65536, rd := f.acc != 2 && leafRD leaf, wr := f.acc != 1 && leafW leaf, x := leafX leaf, rn := leafRN leaf }
/-- Join an extent to the run before it. -/
def joinExtent (es : List Extent) (e : Extent) : List Extent :=
  match es.getLast? with
  | some l =>
    if l.va + l.len == e.va && l.pa + l.len == e.pa && l.rd == e.rd && l.wr == e.wr && l.x == e.x && l.rn == e.rn then
      es.dropLast ++ [{ l with len := l.len + e.len }]
    else es ++ [e]
  | none => [e]
/-- R324: up to 16 extents of a range. -/
def State.rangeExtents (s : State) (h : Sheet) (t : Task) (f : Foot) : List Extent :=
  ((((pagesOf f.base f.len).filterMap (s.pageExtent h t f)).foldl joinExtent []).take 16).mapIdx fun i e => { e with idx := i }

/-- R325: the leaves under a task's extents, by virtual base and page bits. -/
def State.extentLeaves (s : State) (asn : Nat) (es : List Extent) : List (Nat × Nat) :=
  (es.flatMap fun e => (pagesOf e.va e.len).filterMap fun p => (s.walk asn p).map fun (_, lv) =>
    (p / 2 ^ levelBits lv * 2 ^ levelBits lv, levelBits lv)).eraseDups
/-- R418: the pages that dispatch arms: those of write and readwrite ranges, and of rename ranges that are not renamed. -/
def State.armPages (s : State) (h : Sheet) (t : Task) : List Nat :=
  (t.edgeFoots.filter Foot.writes).flatMap fun f => (pagesOf f.base f.len).filterMap fun va =>
    (s.pageExtent h t f va).map (·.pa)

/-- R331, R345, R346, R418: dispatch a task whose edges are met. -/
def execTaskDispatch (sheet task : Nat) (s : State) : Out :=
  match s.sheet? sheet, s.task? sheet task with
  | some h, some t0 =>
    if h.st != .running || t0.st != .waiting || !s.accepting || s.ckptStop || !s.edgesMet h t0 then .next s
    else
      let t := { t0 with noRename := (t0.noRename ++ noRenames h.rfree ((t0.foots.zipIdx).filter fun e => !t0.noRename.contains e.2)).eraseDups }
      if !s.edgesMet h t then .next (s.modTask sheet task fun _ => t)
      else
        let vas := (t.foots.zipIdx.filter fun e => e.1.acc == 4 && !t.noRename.contains e.2).flatMap fun e => pagesOf e.1.base e.1.len
        let (ren, s1) := s.renamePages vas.eraseDups
        let t1 := { t with renamed := ren }
        let arm := s1.armPages h t1
        let s2 := s1.modSheet sheet fun h =>
          { h with rfree := h.rfree - ren.length, fresh := h.fresh ++ ren.map (·.2), armed := (h.armed ++ arm).eraseDups }
        let es := t1.foots.flatMap (s1.rangeExtents h t1)
        let t2 := { t1 with st := .ready, wait := s.time, extents := es, leaves := s1.extentLeaves h.asn es }
        .next (s2.modTask sheet task fun _ => t2)
  | _, _ => .next s

/-! ### The ends of tasks (R344, R359) -/

/-- The teams of a task, child groups among them, have exited, with their rounds and copies; no thread of it waits. -/
def State.taskOver (s : State) (h : Sheet) (t : Task) : Bool :=
  t.st == .ready && t.placed == t.teams &&
  s.teams.all (fun x => x.sheet != h.id || x.task != t.num || (x.exited && x.rounds.isEmpty)) &&
  h.spawnWait.all (fun b => b.task != t.num) && s.cores.all fun e => e.2.bins.all fun b => b.sheet != h.id || b.task != t.num
def Wait.isAnswer : Wait → Bool
  | .answer _ _ _ _ => true
  | _ => false
/-- The waits of the subsets of a group that await an answer, with their lanes, the lowest lanes first. -/
def Group.answerWaits (g : Group) : List (Wait × Mask) :=
  (((List.range g.width).filter fun L => !(g.lane L).exited && (g.lane L).wait.isAnswer).map fun L =>
    ((g.lane L).wait, maskOf g.width fun M => (g.lane M).wait == (g.lane L).wait && (g.lane M).pc == (g.lane L).pc)).eraseDups
/-- R360, R411: a TASK that waits for room is checked again; its answer goes to its destination, whether the group is resident,
parked or saved, and its subset goes on at the next slot. The chain has broken, so that what it captures is lost (R47, R48). -/
def State.answerWaiting (s : State) (gid : Nat) (w : Wait × Mask) : State :=
  match s.grp? gid, w with
  | some g, (.answer d cap nwb r, m) =>
    match s.answerTask g r with
    | none => s
    | some (x, t) =>
      t.updGroup gid fun g =>
        let l : Latch := { st := .lost, reg := d, kind := .scalar, wb := !nwb, vals := [x] }
        let h := (if nwb then g else (g.setS d x).killS d)
        let h := h.capture (BitVec.ofNat 2 cap) l
        { h with lanes := h.lanes.mapIdx fun L (k : Lane) => if m.getLsbD L then { k with pc := nextPc k.pc, wait := .none } else k }.settle
  | _, _ => s
/-- R360: ranges have left the dependence table: every TASK that waits for room checks again. -/
def State.recheckTasks (s : State) : State := (s.groups.filter fun g => g.waits Wait.isAnswer).foldl (fun u g => g.answerWaits.foldl (fun v w => v.answerWaiting g.id w) u) s
/-- R344, R359: the task ends: its ranges leave the dependence table, so that a TASK that waits for room checks again (R360),
and its message is posted. -/
def execTaskCompletion (sheet task : Nat) (s : State) : Out :=
  match s.sheet? sheet, s.task? sheet task with
  | some h, some t =>
    if !s.taskOver h t then .next s
    else
      let s1 := s.modTask sheet task fun t => { t with st := .ended, extents := [], leaves := [] }
      let s2 := match t.notify with
        | some (team, port) => s1.post team port 5 (BitVec.ofNat 64 task) 0 0
        | none => s1
      .next s2.recheckTasks
  | _, _ => .next s

/-! ### Retirement (R331, R336, R347, R422) -/

/-- R494: the bytes of a file change. -/
def State.fileWrite (s : State) (inode off : Nat) (bs : List Byte) : State :=
  let w (f : File) : File := if f.inode == inode then { f with data := f.data.store off bs, len := max f.len (off + bs.length) } else f
  { s with files := s.files.map w }
/-- R465: what a socket sends, in frames of at most 9,216 bytes. -/
def framesOf : Nat → List Byte → List (List Byte)
  | 0, _ => []
  | k + 1, bs => if bs.length ≤ 9216 then [bs] else bs.take 9216 :: framesOf k (bs.drop 9216)
/-- R389, R465: data goes out at a socket, an Ethernet queue. -/
def State.sockOut (s : State) (sock : Nat) (bs : List Byte) : State :=
  let w (k : Socket) : Socket := if k.num == sock then { k with tx := k.tx ++ framesOf bs.length bs } else k
  { s with sockets := if s.sockets.any fun k => k.num == sock then s.sockets.map w else s.sockets ++ [{ num := sock, tx := framesOf bs.length bs }] }
/-- R422: the deferred effects in issue order. -/
def Sheet.inOrder (h : Sheet) : List Deferred :=
  (sortBy (fun a b => decide (a.1 < b.1) || (a.1 == b.1 && decide (a.2.1 ≤ b.2.1))) h.deferred).map (·.2.2)
/-- R422: one deferred effect. -/
def State.perform (s : State) : Deferred → State
  | .qnote q n => s.addWake q n
  | .write i off d => s.fileWrite i off d
  | .sockSend k d => s.sockOut k d

/-- R331: every renamed leaf points at its newest page, under one ticket; superseded pages return to the pool when it is published. -/
def State.remapPage (asn : Nat) (s : State) (r : Nat × Nat) : State :=
  match s.roots.find? fun x => x.1 == asn with
  | none => s
  | some x => match leafAt s.pool s.mem r.1 4 x.2 with
    | some (a, 0) =>
      let old := BitVec.ofNat 64 (s.mem.loadNat a 8)
      let new := old.toNat % 256 + r.2
      { s with mem := s.mem.store a (leBytes 8 new), freeing := s.freeing ++ [(s.ticket, entAddr old)]
               invals := s.invals ++ [(s.ticket, BitVec.ofNat 64 (asn * 2 ^ 41 + r.1 / 65536))] }
    | _ => s
def State.remapSheet (s : State) (h : Sheet) : State :=
  let new := h.newest
  if new.isEmpty then s
  else
    let s1 := new.foldl (State.remapPage h.asn) s
    let dead := h.fresh.filter fun p => !new.any fun r => r.2 == p
    ({ s1 with ticket := s1.ticket + 1, freeing := s1.freeing ++ dead.map fun p => (s1.ticket, p) }).ticketDone s1.ticket

/-- R347: DONE, the completion write of a host queue, the message to a device submitter. -/
def State.postCompletion (s : State) (h : Sheet) (code : Nat) : State :=
  let w := BitVec.ofNat 64 (h.seq * 2 ^ 32 + code)
  let s1 := s.modQueue h.queue fun q => { q with done := w }
  let s2 := match ((s.queue? h.queue).filter (·.host)).bind (·.qintr) with
    | some a => { s1 with mem := s1.mem.store a (leBytes 8 w.toNat) }
    | none => s1
  match h.submitter with
  | some t => if h.flags.testBit 2 then s2.post t h.cport 4 h.sheetid h.seq code else s2
  | none => s2
/-- What is left of a sheet goes: its teams, its snapshots (R418), its record. -/
def State.dropSheet (s : State) (h : Sheet) : State :=
  { s with teams := s.teams.filter (fun t => t.sheet != h.id), sheets := s.sheets.filter (fun x => x.id != h.id)
           snapUsed := s.snapUsed - h.snaps.length, reserved := s.reserved.filter fun e => e.1 != h.id }.recheckTasks

/-- Every earlier sheet of the queue has retired or ended (R347). -/
def State.firstOfQueue (s : State) (h : Sheet) : Bool :=
  match s.sheets.find? fun x => x.queue == h.queue with
  | some x => x.id == h.id
  | none => false
/-- R296, R336: the sheet may retire: its put arrivals come before. -/
def State.retirable (s : State) (h : Sheet) : Bool :=
  (h.st == .sealed || (h.st == .running && h.sealJob.isNone && s.tasksOver h)) &&
  !s.puts.any fun p => p.origin == s.moduleNo && p.sheet == h.id && !p.arrived
/-- R331, R336, R347, R422: the sheet retires; first its seal records are written, for which their pages have to be there (R458). -/
def execSheetRetire (sheet : Nat) (s : State) : Out :=
  match s.sheet? sheet with
  | none => .next s
  | some h =>
    if !s.firstOfQueue h || h.check then .next s
    else if h.st == .done then .next ((s.postCompletion h h.result).dropSheet h)
    else if !s.retirable h || (s.groups.any fun g => g.sheet == sheet) || (h.rerun.isNone && !s.sealOutOk h) then .next s
    else
      -- R428: a re-run performs no deferred effect
      -- R296: with the actions of a release at system scope on every core of the sheet
      let s0 := ((s.teams.filter fun t => t.sheet == sheet).flatMap (·.cores)).eraseDups.foldl (fun u c => u.releaseAt c 5 false) s
      let s1 := if h.rerun.isSome then s0 else h.inOrder.foldl State.perform (s0.commitSeals h)
      .next (((s1.remapSheet h).postCompletion h 0).dropSheet h)

/-! ### Mapping of queues (R350) -/

/-- R350: none of the queue's sheets has started and not retired. -/
def execQueueUnmap (queue : Nat) (s : State) : Out :=
  if s.sheets.any fun h => h.queue == queue && (h.st != .accepted || h.replays != 0) then .next s
  else .next (s.modQueue queue fun q => { q with slot := none })
/-- R350: a pending queue comes first at equal priority; the records kept are checked and answered in order. -/
def execQueueRemap (queue slot : Nat) (s : State) : Out :=
  match s.queue? queue with
  | none => .next s
  | some q =>
    let ahead := !q.pending && s.queues.any fun x => x.slot.isNone && x.pending && x.ceiling == q.ceiling
    if q.slot.isSome || 4096 ≤ slot || (s.queues.any fun x => x.slot == some slot) || ahead then .next s
    else
      let s1 := s.modQueue queue fun q => { q with slot := some slot, kept := [], pending := false }
      .next (q.kept.foldl (fun u d => u.answerStore queue d.1 d.2.1 d.2.2) s1)

end Sys2Proof.Machine
end

