-- ==== Sys2Proof/Machine/Place.lean ====
section
/-!
DEFINITION. Placement, gangs, ageing, balancing and migration (R262, R349 to R357, R379).
-/
namespace Sys2Proof.Machine

/-! ### Units and eligibility (R349, R351) -/

/-- The unit that begins at a core: the core, or the pair (R351). -/
def unitCores (paired : Bool) (c : Nat) : List Nat := if paired then [c, c + 1] else [c]
/-- The logical numbers of the part's units. -/
def unitsAll (paired : Bool) : List Nat :=
  ((List.range 4).flatMap fun d => (List.range 56).map fun i => 256 * d + 16 * (i / 4) + i % 4).filter fun c => !paired || c % 2 == 0
/-- R196: no team of a matrix kernel holds the core. -/
def State.matrixFree (s : State) (c : Nat) : Bool :=
  (s.core c).mowner.isNone && s.teams.all fun t => !(t.matrix && !t.exited && t.cores.contains c)
/-- R351: the cores of a unit are eligible for a team. -/
def State.eligible (s : State) (l : Launch) (cs : List Nat) : Bool :=
  cs.all (s.liveCores.contains ·) && s.roomFor l cs && (!l.matrix || cs.all s.matrixFree) && s.quotaAllows l.sheet.id cs
/-- The wear rank of a unit: that of its most worn core (log 9). -/
def State.unitRank (s : State) (cs : List Nat) : Nat := (cs.map fun c => (s.core c).rank).foldl max 0
/-- R352: lowest rank, ties to the lowest number; the list is in ascending numbers. -/
def State.bestUnit (s : State) (us : List (List Nat)) : Option (List Nat) :=
  us.foldl (fun b u => match b with
    | none => some u
    | some x => if s.unitRank u < s.unitRank x then some u else b) none

/-! ### Placing a team (R352, R353) -/

/-- The launch of a task's next team. -/
def launchOf (h : Sheet) (t : Task) : Launch :=
  { sheet := h, task := t.num, teamid := t.firstTeam + t.placed, hdr := t.hdr, entry := t.kernel, matrix := t.matrix, sregs := t.args }
/-- R95, R28: a group whose entry is no destination takes that exception there; an entry whose page is not mapped is checked when
its line is first fetched (R27). -/
def State.checkEntries (s : State) (team : Nat) : State :=
  (s.teamGroups team).foldl (fun u g =>
    let pc := (g.lane 0).pc
    match u.checkDest g pc with
    | .fault c => u.takeException g c pc g.alive g.alive 0#64 0
    | .marked => u.setGrp (g.modLanes g.alive fun _ l => { l with due := some .fetch })
    | .miss => u.setGrp { g with entryDue := true }
    | .later => u.setGrp { g with entryDue := true }
    | .ok => u) s
/-- Admit a team on a unit, and record a captured placement (R427). -/
def State.placeTeam (s : State) (l : Launch) (cs : List Nat) : Option State :=
  let id := s.fresh
  (s.admitTeam l cs).map fun t =>
    (t.checkEntries id).recordPlaces l.sheet.id l.teamid id

/-- R353: levels gained by waiting, one for each AGE µs, up to 3. -/
def State.agedBy (s : State) (h : Sheet) (t : Task) : Nat := min 3 ((s.time - t.wait) / (100 * h.age))
/-- The dispatched tasks of the sheet that have a team to place, and the first of them. -/
def Sheet.pendings (h : Sheet) : List Task := h.tasks.filter fun t => t.st == .ready && decide (t.placed < t.teams)
def Sheet.pending (h : Sheet) : Option Task := h.tasks.find? fun t => t.st == .ready && decide (t.placed < t.teams)
/-- R353: the levels that the wait of a task's head team has been given. -/
def Sheet.levels (h : Sheet) (task : Nat) : Nat := if h.ageTask == task then h.ageing else 0
/-- R353: effective priority, with the levels that the head team's wait has been given. -/
def Sheet.effective (h : Sheet) : Nat := h.prio + (match h.pending with
  | some t => h.levels t.num
  | none => 0)
/-- R354: the pending task is a gang. -/
def Sheet.gangPending (h : Sheet) : Bool := h.gang && (match h.pending with
  | some t => t.num == 0
  | none => false)
/-- R352, R355, R428: the unit that a launch takes among units: a re-run's teams go to their recorded cores where those are eligible. -/
def State.chooseUnit (s : State) (h : Sheet) (l : Launch) (us : List (List Nat)) : Option (List Nat) :=
  let ok := us.filter fun u => s.eligible l u && !s.barred h.id u
  let want := h.wanted l.teamid
  match ok.find? fun u => !want.isEmpty && u.all want.contains with
  | some u => some u
  | none => s.bestUnit ok
/-- Where the next team of a task may go. -/
def State.unitFor (s : State) (h : Sheet) (t : Task) : Option (List Nat) :=
  s.chooseUnit h (launchOf h t) ((unitsAll t.hdr.paired).map (unitCores t.hdr.paired))
/-- The eligible units of a region for a gang's teams. -/
def State.regionUnits (s : State) (h : Sheet) (t : Task) (r : Nat) : List (List Nat) :=
  let l := launchOf h t
  ((unitsAll t.hdr.paired).map (unitCores t.hdr.paired)).filter fun u =>
    regionOf (u.headD 0) == r && s.eligible l u && !s.barred h.id u
/-- R354: regions in descending order of eligible units, ties by the lowest number. -/
def State.regionOrder (s : State) (h : Sheet) (t : Task) : List (Nat × List (List Nat)) :=
  let rs := (List.range 28).map fun r => (r, s.regionUnits h t r)
  sortBy (fun a b => decide (b.2.length < a.2.length) || (a.2.length == b.2.length && decide (a.1 ≤ b.1))) rs
/-- R354: the units of the regions that reach TEAMS, none when they do not. -/
def takeRegions (n : Nat) : List (Nat × List (List Nat)) → Option (List (List Nat))
  | [] => if n == 0 then some [] else none
  | (_, us) :: rs => if n == 0 then some [] else (takeRegions (n - us.length) rs).map fun x => us ++ x
def unitLe (s : State) (a b : List Nat) : Bool :=
  decide (s.unitRank a < s.unitRank b) || (s.unitRank a == s.unitRank b && decide (a.headD 0 ≤ b.headD 0))
/-- R428: in a re-run each team of a gang takes its recorded unit where that is eligible and free of the gang's others. -/
def State.gangRecorded (s : State) (h : Sheet) (t : Task) (us : List (List Nat)) : List (List Nat) :=
  let all := (unitsAll t.hdr.paired).map (unitCores t.hdr.paired)
  let rec1 (i : Nat) : Option (List Nat) :=
    all.find? fun u => !(h.wanted (t.firstTeam + i)).isEmpty && u.all (h.wanted (t.firstTeam + i)).contains &&
      s.eligible (launchOf h t) u && !s.barred h.id u
  let fixed := ((List.range us.length).filterMap rec1)
  let spare := us.filter fun u => !fixed.contains u
  ((List.range us.length).foldl (fun (st : List (List Nat) × List (List Nat)) i => match rec1 i with
    | some u => if st.1.contains u then (st.1 ++ st.2.take 1, st.2.drop 1) else (st.1 ++ [u], st.2)
    | none => (st.1 ++ st.2.take 1, st.2.drop 1)) ([], spare)).1
/-- R354: the units that a gang takes, in ascending wear rank. -/
def State.gangUnits (s : State) (h : Sheet) (t : Task) : Option (List (List Nat)) :=
  match takeRegions t.teams (s.regionOrder h t) with
  | none => none
  | some us =>
    let sel := s.gangRecorded h t ((sortBy (unitLe s) us).take t.teams)
    if s.quotaAllows h.id sel.flatten then some sel else none
/-- R102, R355, R428: where a child group that its core could not admit may go: on a core of the sheet. -/
def State.childUnit (s : State) (h : Sheet) (b : Bin) : Option (List Nat) :=
  let mine := ((s.teams.filter fun t => t.sheet == h.id && !t.frees).flatMap (·.cores)).eraseDups
  s.chooseUnit h (b.launch h) (((unitsAll false).filter mine.contains).map fun c => [c])
/-- R353: another sheet with a team, a child group or a gang that can be placed comes first. -/
def State.outranked (s : State) (h : Sheet) : Bool :=
  let before := s.sheets.takeWhile fun x => x.id != h.id
  s.sheets.any fun x => x.id != h.id && x.st == .running && !x.check &&
    (decide (h.effective < x.effective) || (x.effective == h.effective && before.any fun y => y.id == x.id)) &&
    (if x.gangPending then (match x.pending with
       | some t => (s.gangUnits x t).isSome
       | none => false)
     else (x.pendings.any fun t => (s.unitFor x t).isSome) || x.spawnWait.any fun b => (s.childUnit x b).isSome)
/-- R102: a launched child group that its core could not admit, placed on another core of the sheet. -/
def State.placeChild (s : State) (h : Sheet) (b : Bin) (rest : List Bin) : Option State :=
  (s.childUnit h b).bind fun u =>
    (s.modSheet h.id fun h => { h with nextTeam := h.nextTeam + 1, spawnWait := rest }).placeTeam (b.launch h) u
/-- R352, R353: the next team of a dispatched task, or a child group of it that waits. -/
def execTeamPlacement (sheet task : Nat) (s : State) : Out :=
  match s.sheet? sheet with
  | none => .next s
  | some h =>
    if s.ckptStop || h.st != .running || h.check || h.gangPending || s.outranked h then .next s
    else match (h.spawnWait.head?.filter fun b => b.task == task).bind fun b => s.placeChild h b (h.spawnWait.drop 1) with
      | some t => .next t
      | none => match h.pendings.find? fun t => t.num == task with
        | none => .next s
        | some t =>
          -- a team that cannot be placed does not stop those behind it
          if (h.pendings.takeWhile fun x => x.num != task).any fun x => (s.unitFor h x).isSome then .next s
          else match s.unitFor h t with
            | none => .next s
            | some u => match s.placeTeam (launchOf h t) u with
              | none => .next s
              | some s1 =>
                -- the head task has placed its last team: the next head team's wait counts from its own dispatch
                let done := decide (t.teams ≤ t.placed + 1) && (h.pending.map (·.num)) == some task
                let s2 := s1.modTask sheet task fun t => { t with placed := t.placed + 1 }
                .next (if done then s2.modSheet sheet fun h => { h with ageing := 0 } else s2)

/-- R353. -/
def execAgeingStep (sheet task : Nat) (s : State) : Out :=
  match s.sheet? sheet with
  | none => .next s
  | some h => match h.pending with
    | none => .next s
    | some t =>
      if t.num == task && h.st == .running && h.levels task < s.agedBy h t then
        .next (s.modSheet sheet fun h => { h with ageing := h.levels task + 1, ageTask := task })
      else .next s

/-! ### Gangs (R354, R355) -/

/-- R354: the gang is at the head of the placement order. -/
def State.gangHead (s : State) (h : Sheet) : Bool :=
  h.st == .running && h.gangPending && !h.check &&
  !(s.sheets.any fun x => x.id != h.id && x.st == .running && x.pending.isSome &&
    (decide (h.effective < x.effective) || (x.effective == h.effective && (s.sheets.takeWhile fun y => y.id != h.id).any fun y => y.id == x.id)))
def State.placeAll (s : State) (sheet : Nat) : List (List Nat) → Option State
  | [] => some s
  | u :: us => match s.sheet? sheet with
    | none => none
    | some h => match h.tasks.head? with
      | none => none
      | some t => match s.placeTeam (launchOf h t) u with
        | none => none
        | some s1 => (s1.modTask sheet 0 fun t => { t with placed := t.placed + 1 }).placeAll sheet us
/-- R354: all or nothing. -/
def execGangPlacement (sheet : Nat) (s : State) : Out :=
  match s.sheet? sheet with
  | none => .next s
  | some h => match h.pending with
    | none => .next s
    | some t =>
      if s.ckptStop || h.st != .running || !h.gangPending || h.check || s.outranked h then .next s
      else match s.gangUnits h t with
        | none => .next s
        | some us => match s.placeAll sheet us with
          | none => .next s
          | some s1 => .next { s1.modSheet sheet fun h => { h with ageing := 0 } with reserved := s1.reserved.filter fun e => e.1 != sheet }

/-- R355: units of a region held only by teams of other sheets. -/
def State.heldByOthers (s : State) (h : Sheet) (t : Task) (r : Nat) : Nat :=
  (((unitsAll t.hdr.paired).map (unitCores t.hdr.paired)).filter fun u =>
    regionOf (u.headD 0) == r && u.all s.liveCores.contains && !(s.eligible (launchOf h t) u) &&
    (let on := s.teams.filter fun x => !x.frees && x.cores.any u.contains
     !on.isEmpty && on.all fun x => x.sheet != h.id)).length
/-- R355: regions are reserved until the count reaches TEAMS. -/
def reserveRegions (s : State) (h : Sheet) (t : Task) : Nat → List (Nat × List (List Nat)) → List Nat
  | _, [] => []
  | n, (r, us) :: rs => if n == 0 then [] else r :: reserveRegions s h t (n - (us.length + s.heldByOthers h t r)) rs
def execGangReservation (sheet : Nat) (s : State) : Out :=
  match s.sheet? sheet with
  | none => .next s
  | some h => match h.pending with
    | none => .next s
    | some t =>
      if s.gangHead h && 400 * h.age < s.time - t.wait && !(s.reserved.any fun e => e.1 == sheet) then
        .next { s with reserved := s.reserved ++ [(sheet, reserveRegions s h t t.teams (s.regionOrder h t))] }
      else .next s

/-! ### Balancing and migration (R356, R357) -/

/-- The cores that change when a team leaves a core for another: of a paired team, both of its pair (R239). -/
def movesOf (t : Team) (src dst : Nat) : List (Nat × Nat) := if t.paired then [(src, dst), (src ^^^ 1, dst ^^^ 1)] else [(src, dst)]
def movedTo (ms : List (Nat × Nat)) (c : Nat) : Nat := ((ms.find? fun e => e.1 == c).map (·.2)).getD c
/-- R349, R351, R355, R357, R379: a core may take a team of another core: contexts, chunks, ports and patterns are free (frames stay
with the group, R408), the quota of its process holds after the move, and no other sheet has reserved its region. -/
def State.takes (s : State) (t : Team) (src dst : Nat) : Bool :=
  let ms := movesOf t src dst
  let u := s.modTeam t.id fun t => { t with cores := t.cores.map (movedTo ms) }
  (!t.paired || src % 2 == dst % 2) && u.quotaAllows t.sheet [] &&
  ms.all fun (a, b) =>
    let n := (s.groups.filter fun g => g.team == t.id && g.core == a && g.st != .saved).length
    decide (s.ctxUsed b + n ≤ Config.contexts) && decide (s.chunksUsed b + chunkShare t.paired (t.s / 512) a ≤ Config.chunks) &&
    (!t.matrix || s.matrixFree b) && s.liveCores.contains b && !t.cores.contains b && !s.barred t.sheet [b] &&
    decide (s.portsUsed b + t.ports.length ≤ Config.ports) && decide (s.patsUsed b + t.pats.length ≤ Config.patterns)
/-- Units that a team's groups need. -/
def State.teamUnits (s : State) (t : Team) : Nat :=
  ((s.groups.filter fun g => g.team == t.id).map fun g => unitsOf g.width g.vcount).foldl (· + ·) 0
/-- R356: teams that the balancer may move, youngest first. -/
def State.movable (s : State) (src : Nat) : List Team :=
  (s.teams.filter fun t => t.cores == [src] && !t.exited && !t.paired &&
    (match s.sheet? t.sheet with
     | some h => !(h.gang && t.task == 0 && !t.spawned) && !h.capt
     | none => false)).reverse
/-- Parked eligible groups of a core. -/
def State.parkedEligible (s : State) (core : Nat) : Nat := ((s.groupsOn core).filter (·.wants)).length
/-- R356: the core of lowest rank among those of the same die that can register-hold a team of the core and take it. -/
def State.balanceDst (s : State) (src : Nat) : Option Nat :=
  let able (t : Team) (c : Nat) : Bool := s.takes t src c && decide (s.unitsUsed c + s.teamUnits t ≤ Config.units)
  (s.bestUnit (((unitsAll false).filter fun c => c != src && dieOf c == dieOf src && (s.movable src).any (able · c)).map fun c => [c])).map (·.headD 0)
/-- R356: the layout of a migration command. -/
def moveCommand (count dst src : Nat) : DWord := BitVec.ofNat 64 (src + dst * 2 ^ 20 + count * 2 ^ 32)
/-- R356: every 100 µs; COUNT is the number of parked eligible groups above 16 (log 9). -/
def execBalancerTick (s : State) : Out :=
  if s.time < s.balanceAt then .next s
  else
    let cmds := (unitsAll false).filterMap fun src =>
      let n := s.parkedEligible src
      if n ≤ 16 then none
      else match s.balanceDst src with
        | some dst => some (moveCommand (min 96 (n - 16)) dst src)
        | none => none
    .next { s with balanceAt := s.time + 10000, commands := s.commands ++ cmds }

/-- R357: move one team from a core to another. -/
def State.moveTeam (s : State) (t : Team) (src dst : Nat) : State :=
  let mine := s.groups.filter fun g => g.team == t.id && g.core == src
  let owner := (s.core src).mowner == some t.id
  let ms := (s.core src).mstate
  let (queue, others) := (s.core src).mopenQ.partition fun id => mine.any fun g => g.id == id
  let s1 := mine.foldl (fun u g =>
    if g.st == .saved then u.setGrp { g with core := dst }
    else
      let c := (u.freeCtx dst).getD 0
      let h := { g.loseLatches with core := dst, ctx := c, block := u.leastBlock dst g.width, chain := none, seq := 0 }
      -- a group that a PREEMPT has dropped waits for its RESUME (R416)
      if g.st == .dropped then (u.parkRegs h).setGrp h
      else (u.parkRegs h).setGrp { h with st := .parked, parkedAt := (u.core dst).cycle.toNat }) s
  let drop (c : Core) : Core :=
    { c with fwd := c.fwd ++ [(t.id, s.fresh)], reqs := c.reqs.filter fun r => !mine.any fun g => g.id == r.gid
             reqQ := c.reqQ.filter fun r => !mine.any fun g => g.id == r.1
             mowner := if owner then none else c.mowner, mstate := if owner then {} else c.mstate
             mopenQ := others, lastFree := c.cycle.toNat }
  let s2 := s1.modCore src drop
  let s3 := s2.modCore dst fun c => { c with mowner := if owner then some t.id else c.mowner, mstate := if owner then ms else c.mstate
                                             mopenQ := c.mopenQ ++ queue }
  let s4 := s3.modGrps fun g => if mine.any (fun x => x.id == g.id) then g.again Wait.isRequest else g
  { s4 with fresh := s4.fresh + 1 }.modTeam t.id fun t =>
    { t with cores := t.cores.map fun c => if c == src then dst else c
             ports := t.ports.map fun (p : Port) => if p.core == src then { p with core := dst } else p
             pats := t.pats.map fun (p : Pattern) => if p.core == src then { p with core := dst } else p }
/-- R262: a chunk that a write-back is reading is copied only after that read: in one step the write-back has not begun it, or
has ended. R356: whole teams, youngest first, while their groups total no more than COUNT. -/
def State.moveTeams (src dst : Nat) (all : Bool) : Nat → List Team → State → State
  | _, [], s => s
  | n, t :: ts, s =>
    let k := ((s.teamGroups t.id).filter fun g => g.core == src).length
    if (all || k ≤ n) && s.takes t src dst then State.moveTeams src dst all (n - k) ts ((movesOf t src dst).foldl (fun u e => u.moveTeam t e.1 e.2) s)
    else if all then State.moveTeams src dst all n ts s else s
/-- R357: carry out a command; a core that WEAR drains gives up every team. -/
def execMigration (n : Nat) (s : State) : Out :=
  match s.commands[n]? with
  | none => .next s
  | some w =>
    let src := w.toNat % 2 ^ 10
    let dst := w.toNat / 2 ^ 20 % 2 ^ 10
    let count := w.toNat / 2 ^ 32 % 2 ^ 10
    let s1 := { s with commands := s.commands.eraseIdx n }
    let drained := (s.core src).wst == .drained || (s.core src).wst == .retired
    let ts := if drained then (s.teams.filter fun t => t.cores.contains src && !t.exited).reverse else s.movable src
    .next (State.moveTeams src dst drained count ts s1)

/-- R357: nothing that was issued before the move is still on its way. -/
def State.arrived (s : State) (team before : Nat) : Bool :=
  s.msgs.all (fun m => m.team != team || before ≤ m.seq) &&
  s.groups.all (fun g => g.team != team || g.calls.all fun c => before ≤ c.seq) &&
  (match s.team? team with
   | some t => t.rounds.all fun r => before ≤ r.id
   | none => true)
def execForwardingEntryRemove (core team : Nat) (s : State) : Out :=
  match (s.core core).fwd.find? fun e => e.1 == team with
  | none => .next s
  | some e =>
    if s.arrived team e.2 then .next (s.modCore core fun c => { c with fwd := c.fwd.erase e }) else .next s

end Sys2Proof.Machine
end

