-- ==== Sys2Proof/Machine/Surveyor.lean ====
section
/-!
DEFINITION. The Surveyors' registers (R386 to R391): descriptors of calls and faults, replies (R393 to R398), mailboxes, call
copies (R395), the timer, NVMe and Ethernet (R464, R465), the UTC base (R402). A Surveyor is named by 16 × die + physical
cluster.
-/
namespace Sys2Proof.Machine

def lowField (w : DWord) (lo n : Nat) : Nat := w.toNat / 2 ^ lo % 2 ^ n
/-- The bits of SVERR (R387). -/
def State.svErr (s : State) (sv bit : Nat) : State := s.modSurv sv fun v => { v with sverr := v.sverr ||| 2 ^ bit }
/-- The Surveyor that runs a shard: that of its logical cluster (R389, R435); from 56 up a Compass core's mailbox (log 25). -/
def State.survOfShard (s : State) (n : Nat) : Option Nat :=
  if n < 56 then some (s.physOf (16 * (n / 14) + n % 14)) else if n < 64 then some (n + 8) else none

/-- R389: the shard of a logical cluster; R435: whether a Surveyor runs a shard, its own or a withdrawn cluster's beside it. -/
def shardOfCluster (cl : Nat) : Nat := 14 * (cl / 16) + cl % 16
def State.runs (s : State) (sv n : Nat) : Bool := s.survOfShard n == some sv
/-- R447: a class of the Surveyor's cluster has used its allowance. -/
def State.svStalled (s : State) (sv cls : Nat) : Bool := s.stalled (s.clusterAt sv) cls

/-- R444, R445: pieces of memory that a Surveyor, or a device for it, reads or writes. -/
def State.svCharge (s : State) (sv cls : Nat) (ps : List (Nat × Nat)) : State :=
  if 64 ≤ sv then s else s.chargeMove (s.clusterAt sv) cls ps

/-! ### CALLQ (R387, R388) -/

/-- R388: a descriptor that the part holds takes the room that has freed. -/
def execCallqAppend (sv : Nat) (s : State) : Out :=
  if !isAgent sv then .next s else
  let v := s.surv sv
  match v.heldq with
  | [] => .next s
  | d :: ds => if v.callq.length < Config.callq then .next (s.modSurv sv fun v => { v with callq := v.callq ++ [d], heldq := ds }) else .next s

/-- R387: what a read of CALLQ_POP returns for a descriptor. -/
def Desc.word (d : Desc) : DWord := BitVec.ofNat 64 (d.slot / 4096 * 4096 % 2 ^ 52 + d.type)
/-- R495: the survey kernel kills a sheet for a fault of a process that has not asked it to hold faults. -/
def State.kernelKills (s : State) (d : Desc) : Bool :=
  d.type == 4 && s.groups.any fun g => g.frame == d.slot && g.st == .saved && g.frameHeld &&
    decide (1 ≤ g.save.cause.code) && decide (g.save.cause.code ≤ 0xE) &&
    (match s.procOf g.sheet with
     | some p => !s.fhold.contains p
     | none => true)
/-- The call in progress whose slot is at a physical address, with its group; a group that has exited has none (R398). -/
def State.callAt (s : State) (pa : Nat) : Option (Group × CallRec) :=
  (s.groups.filter fun g => g.st == .saved || g.alive != 0#64).findSome? fun g =>
    (g.calls.find? fun c => g.slotAddr c.slot == pa).map fun c => (g, c)
/-- Change the record of a call. -/
def State.modCall (s : State) (gid slot : Nat) (f : CallRec → CallRec) : State :=
  s.modGrp gid fun g => { g with calls := g.calls.map fun c => if c.slot == slot then f c else c }
/-- The same, by the slot's address. -/
def State.modCallAt (s : State) (pa : Nat) (f : CallRec → CallRec) : State :=
  match s.callAt pa with
  | some (g, c) => s.modCall g.id c.slot f
  | none => s
/-- R387, R495: the read removes the descriptor; the kernel's KILL follows where R495 asks for it. -/
def execCallqPop (sv : Nat) (s : State) : Out :=
  if !isAgent sv then .next s else
  match (s.surv sv).callq with
  | [] => .next (s.modSurv sv fun v => { v with lastRead := 0#64 })
  | d :: ds =>
    let s1 := s.modSurv sv fun v => { v with callq := ds, lastRead := d.word }
    let s2 := if d.type == 4 then s1 else s1.modCallAt d.slot fun c => { c with popped := true }
    if s.kernelKills d then .next { s2 with agenda := .ev (.kill sv (BitVec.ofNat 64 (7 * 2 ^ 60 + d.slot))) :: s2.agenda } else .next s2

/-! ### Replies (R393 to R398) -/

/-- Argument i of a lane as the slot holds it (R392). -/
def Mem.callArg (m : Mem) (pa lane i : Nat) : DWord := BitVec.ofNat 64 (m.loadNat (pa + 128 + 32 * lane + 8 * i) 8)
def Mem.callArgs (m : Mem) (pa lane : Nat) : List DWord := (List.range 4).map fun i => m.callArg pa lane i
/-- The lane's leader (R394). -/
def Mem.leader (m : Mem) (pa lane : Nat) : Nat := m.loadNat (pa + 64 + lane) 1

/-- R427: a posted RESULT in the capture record. -/
def State.captureReply (s : State) (g : Group) (c : CallRec) (pa : Nat) (lanes : Mask) (vals : List DWord) : State :=
  let ls := lanesOf 64 lanes
  s.capture g.sheet (.result g.teamid g.idx c.seq c.callno (ls.map (s.mem.callArgs pa)) c.slot c.cseq lanes (ls.map fun L => vals.getD L 0#64))
/-- R396 to R398: lanes of a call are answered. -/
def State.answerCall (s : State) (g : Group) (c : CallRec) (lanes : Mask) : State :=
  let pa := g.slotAddr c.slot
  let vals := s.mem.results pa
  let c1 := { c with answered := c.answered ||| lanes }
  -- R442: the ck that the Surveyor has spent on the call
  let s0 := s.modCore g.core (·.charge g.team g.sheet (Config.callCk c.callno))
  let s1 := ({ s0 with mem := s.mem.store (pa + 16) (leBytes 8 c1.answered.toNat) }.mend (pa + 16) 8).captureReply g c pa lanes vals
  let put (c : CallRec) (g : Group) : Group := { g with calls := g.calls.map fun x => if x.slot == c.slot then c else x }
  if c.form == 2 then
    let s2 := s1.modGrp g.id fun g => g.answer c1 lanes vals
    (lanesOf 64 lanes).foldl (fun u L => u.post g.team c.port 7 (vals.getD L 0#64) (c.callno + c.cseq % 65536 * 65536) (g.idx * 64 + L)) s2
  else if g.st == .saved then
    let ready := c.each || c1.answered == c1.active
    (s1.modGrp g.id (put { c1 with owed := c1.owed ||| lanes })).reframe g fun h =>
      put { c1 with owed := c1.owed ||| lanes } (if ready && h.save.fstate == 1 && h.save.cause != .pageWait then { h with save := { h.save with fstate := 2 } } else h)
  else
    -- the resumption of a lane is an acquire at system scope
    let s2 := if c.each || c1.answered == c1.active then s1.acquireAt g.core 5 (s.pairedOf g) else s1
    s2.updGroup g.id fun g => g.answer c1 lanes vals
/-- R393: a write of REPLY_POST. -/
def execReplyPost (sv : Nat) (w : DWord) (s : State) : Out :=
  if !isAgent sv then .next s else
  let m := (s.surv sv).replyMask
  match s.callAt (lowField w 12 40 * 4096) with
  | none => .next (s.svErr sv 2)
  | some (g, c) =>
    let s1 := if m &&& ~~~c.active != 0#64 then s.svErr sv 0 else s
    let s2 := if m &&& c.answered != 0#64 then s1.svErr sv 1 else s1
    let new := m &&& c.active &&& ~~~c.answered
    .next (if new == 0#64 then s2 else s2.answerCall g c new)

/-! ### Results and paths (R401, R494) -/

/-- R401: a status as a result. -/
def svStatus (n : Nat) : DWord := 0#64 - BitVec.ofNat 64 n
def svPerm : DWord := svStatus 1
def svNoent : DWord := svStatus 2
def svIo : DWord := svStatus 5
def svBadf : DWord := svStatus 9
def svAgain : DWord := svStatus 11
def svNomem : DWord := svStatus 12
def svFault : DWord := svStatus 14
def svInval : DWord := svStatus 22
def svNospc : DWord := svStatus 28
def svNosys : DWord := svStatus 38
/-- The bytes of a path up to its NUL: none where a byte is unreadable; too long without one. -/
def State.pathAt (s : State) (asn va : Nat) : Except DWord (List Byte) :=
  let n1 := min 4096 (65536 - va % 65536)
  let cut (bs : List Byte) : List Byte := bs.takeWhile (· != 0#8)
  match s.asnLoad asn va n1 with
  | none => .error svFault
  | some a =>
    if a.contains 0#8 then .ok (cut a)
    else if n1 == 4096 then .error svInval
    else match s.asnLoad asn (va + n1) (4096 - n1) with
      | none => .error svFault
      | some b => if b.contains 0#8 then .ok (a ++ cut b) else .error svInval

/-! ### Mailboxes (R390) -/

/-- The earlier messages to the same port have left (R390). -/
def mboxTurn (sent : List (Nat × Msg)) (k : Nat) : Bool :=
  match sent[k]? with
  | some (d, m) => (sent.take k).all fun e => !(e.1 == d && e.2.port == m.port)
  | none => false
/-- A Surveyor's message that may enter its port: its place among those sent, its destination. -/
def State.mboxNext (s : State) (sv : Nat) : Option (Nat × Nat × Msg) :=
  let sent := (s.surv sv).sent
  sent.zipIdx.findSome? fun (e, k) =>
    match s.survOfShard e.1 with
    | some d => if mboxTurn sent k && ((s.surv d).mbox.getD e.2.port []).length < Config.mboxDepth then some (k, d, e.2) else none
    | none => none
/-- R387: TXBUSY: the last send waits for room. -/
def State.txBusy (s : State) (sv : Nat) : Bool :=
  match (s.surv sv).sent.getLast? with
  | some (n, m) => match s.survOfShard n with
    | some d => decide (Config.mboxDepth ≤ ((s.surv d).mbox.getD m.port []).length)
    | none => false
  | none => false
/-- R390: INFO holds the sender's shard number; for a Compass core 56 more than its own (log 25). -/
def State.mboxSend (s : State) (sv shard port : Nat) (data : DWord) (aux : Nat) : State :=
  s.modSurv sv fun v => { v with sent := v.sent ++ [(shard, { data, aux, info := if sv < 64 then v.shard else sv - 8, port, kind := 7 })] }
/-- R387, R390: the write sends the message; while a send waits for room it is a bad access, and a shard number above 55 names
no mailbox for a Surveyor. -/
def execMboxTxAux (sv : Nat) (w : DWord) (s : State) : Out :=
  if !isAgent sv then .next s else
  let v := s.surv sv
  let dst := v.txDst / 256 % 64
  if s.txBusy sv || (sv < 64 && 56 ≤ dst) then .next (s.svErr sv 3)
  else .next (s.mboxSend sv dst (v.txDst % 16) v.txData (lowField w 0 32))
/-- A message enters a mailbox port. -/
def State.mboxPut (s : State) (sv : Nat) (m : Msg) : State :=
  s.modSurv sv fun v => { v with mbox := v.mbox.modify m.port (· ++ [m]) }
/-- R20, R363, R368: a message of the part's own enters the port, or the port's held list while it is full. -/
def State.mboxPost (s : State) (sv : Nat) (m : Msg) : State :=
  if ((s.surv sv).mbox.getD m.port []).length < Config.mboxDepth then s.mboxPut sv m
  else s.modSurv sv fun v => { v with mheld := v.mheld.modify m.port (· ++ [m]) }
def execMboxDelivery (sv : Nat) (s : State) : Out :=
  if !isAgent sv then .next s else
  match s.mboxNext sv with
  | none => .next s
  | some (k, d, m) => .next ((s.modSurv sv fun v => { v with sent := v.sent.eraseIdx k }).mboxPut d m)
/-- R486: a Surveyor has taken a message of a passed call: at port 2 the owner of what the call names, which notes it; at port 3 the calling
shard, which discards it, with the owner's buffer, where the call is gone. -/
def State.tookPass (s : State) (sv : Nat) (m : Msg) : State :=
  let slot := m.data.toNat / 4096 * 4096
  let lane := m.data.toNat % 4096
  if m.port == 2 && m.kind == 7 then
    let seq := ((s.callAt slot).map fun e => e.2.seq).getD 0
    (s.modCallAt slot fun c => { c with passed := c.passed ||| (1#64 <<< lane) }).modSurv sv fun v =>
      { v with passes := v.passes ++ [{ word := m.data, callno := m.aux, home := m.info, seq }] }
  else if m.port == 3 && m.kind == 7 && (s.callAt slot).isNone then
    { s with buffers := s.buffers.filter fun e => e.1 != s.mem.loadNat (slot + 2688 + 8 * lane) 8 }
  else s
/-- R387, R390: the read removes the head message; a held message enters ahead of any send that waits (R368). -/
def execMboxRxPop (sv port : Nat) (s : State) : Out :=
  if !isAgent sv then .next s else
  match (s.surv sv).mbox.getD port [] with
  | [] => .next (s.modSurv sv fun v => { v with lastRead := 0#64 })
  | m :: _ =>
    let h := ((s.surv sv).mheld.getD port []).take 1
    .next ((s.modSurv sv fun v =>
      { v with lastRead := m.lo, mbox := v.mbox.modify port (fun q => q.drop 1 ++ h), mheld := v.mheld.modify port (·.drop 1) }).tookPass sv m)
/-- R389: the shard that owns what a call names; `home` is the calling cluster's, which serves an OPEN of a path that no file has (log 9). -/
def State.callOwner (s : State) (asn home callno : Nat) (a : List DWord) : Nat :=
  let x := (a.getD 0 0#64).toNat
  if callno == 0x20 then
    (match s.pathAt asn x with
     | .ok p => ((s.files.find? fun f => f.path == p).map (·.inode % 56)).getD home
     | .error _ => home)
  else if callno == 0x21 || callno == 0x22 || callno == 0x23 || callno == 0x24 then x / 2 ^ 24 % 64 % 56
  else if callno == 0x30 || callno == 0x31 then x % 56
  else if callno == 0x11 then shardOf x
  else home
/-- R394: the calls that are performed once per leader. -/
def mergeable (callno : Nat) : Bool := [0x01, 0x11, 0x20, 0x21, 0x22, 0x23, 0x24, 0x51].contains callno
/-- R394: the lanes for which a call is performed. -/
def State.performs (s : State) (c : CallRec) (slot lane : Nat) : Bool :=
  c.active.getLsbD lane && (!mergeable c.callno || s.mem.leader slot lane == lane)
/-- R486: a pass that its owner has served, or whose call is gone. -/
def State.passDone (s : State) (p : Pass) (slot lane : Nat) : Bool :=
  match s.callAt slot with
  | none => true
  | some (_, c) => c.seq != p.seq || c.served.getLsbD lane
/-- R486: a call that names another shard's object: its slot goes once to port 2 of the owner's mailbox, for each lane for which it is
performed; back, when the owner has served it, to port 3 of the calling shard's, also where the call is gone. -/
def execCallPass (sv slot lane : Nat) (s : State) : Out :=
  let word := BitVec.ofNat 64 (slot + lane)
  if !isAgent sv then .next s else
  match (s.surv sv).passes.find? (·.word == word) with
  | some p =>
    if s.passDone p slot lane then .next ((s.modSurv sv fun v => { v with passes := v.passes.erase p }).mboxSend sv p.home 3 word p.callno) else .next s
  | none => match s.callAt slot with
    | none => .next s
    | some (g, c) =>
      let home := shardOfCluster (clusterOf g.core)
      let own := s.callOwner g.asn home c.callno (s.mem.callArgs slot lane)
      if s.runs sv home && own != home && c.popped && s.performs c slot lane && !c.served.getLsbD lane && !c.sent.getLsbD lane then
        .next ((s.modCall g.id c.slot fun c => { c with sent := c.sent ||| (1#64 <<< lane) }).mboxSend sv own 2 word c.callno)
      else .next s

/-! ### Call copies (R387, R395) -/

/-- R486: the survey kernel's RESULT of a call whose copy is refused: SV_BUSY for the lanes whose scratchpad buffer it was. -/
def State.copyBusy (s : State) (slot off : Nat) : State :=
  match s.callAt slot with
  | none => s
  | some (_, c) =>
    if c.callno == 0x22 || c.callno == 0x23 || c.callno == 0x30 || c.callno == 0x31 then
      let hit := (lanesOf 64 (c.active &&& ~~~c.answered)).filter fun L => s.mem.callArg slot L 1 == BitVec.ofNat 64 (2 ^ 63 + off)
      { s with mem := hit.foldl (fun m L => m.store (slot + 2176 + 8 * L) (leBytes 8 (2 ^ 64 - 16))) s.mem }.modCallAt slot fun c =>
        { c with served := c.served ||| Mask.ofLanes hit }
    else s
/-- The write of CCOPY_LEN (R395). A write while a copy runs is a bad access; a copy that names no team, no memory or a length
outside R387 is refused. -/
def State.startCopy (s : State) (sv : Nat) (out : Bool) (w : DWord) : State :=
  let v := s.surv sv
  let pa := lowField v.ccSrc 0 52
  let slot := lowField v.ccDst 12 40 * 4096
  let off := 512 * lowField w 20 12
  let len := lowField w 0 20
  if v.ccJob.isSome then s.svErr sv 3
  else
    let refuse := (s.modSurv sv fun v => { v with ccStat := 3 }).copyBusy slot off
    match (s.callAt slot).bind fun e => s.team? e.1.team with
    | none => refuse
    | some t =>
      let cs := (List.range (len / 512)).map fun k => off / 512 + k
      if t.exited || len % 512 != 0 || 65536 < len || pa % 16 != 0 || !paMapped s.pool pa || t.s < off + len || t.anyAbsent cs ||
          cs.any (fun c => t.failed.any fun f => f.1 == c) then refuse
      else
        let rid := s.fresh
        let r : Round := { id := rid, stage := none, jobs := [{ out, rows := [], chunks := cs, left := cs }] }
        let s1 := { s with fresh := s.fresh + 1 }.modTeam t.id fun t => { t with absent := t.absent ++ cs, rounds := t.rounds ++ [r] }
        s1.modSurv sv fun v => { v with ccStat := 1, ccJob := some { team := t.id, rid, pa, off, len, out, slot } }
def execCallCopyIn (sv : Nat) (w : DWord) (s : State) : Out := if !isAgent sv then .next s else .next (s.startCopy sv false w)
def execCallCopyOut (sv : Nat) (w : DWord) (s : State) : Out := if !isAgent sv then .next s else .next (s.startCopy sv true w)
/-- A store of a shard or of a device to physical memory. -/
def State.shardStore (s : State) (pa : Nat) (bs : List Byte) : State :=
  ({ s with mem := s.mem.store pa bs }.mend pa bs.length).filterRange pa bs.length
/-- R395: the copy ends: its bytes have been read and written, and its chunks are present; not while its class stalls (R447). -/
def execCallCopyDone (sv : Nat) (s : State) : Out :=
  if !isAgent sv || s.svStalled sv 4 then .next s else
  match (s.surv sv).ccJob with
  | none => .next s
  | some j => match s.team? j.team with
    | none => .next (s.modSurv sv fun v => { v with ccStat := 3, ccJob := none })
    | some t =>
      if (if j.out then t.badIn j.off j.len else s.badRead j.pa j.len) then .next (s.jobCheck t)
      else
        let cs := (List.range (j.len / 512)).map fun k => j.off / 512 + k
        let bs := s.mem.bulk j.pa j.len
        let s1 := if j.out then s.shardStore j.pa (t.scratch.bulk j.off j.len) else s.modTeam t.id fun t => t.scratchStore j.off bs
        let s2 := s1.modTeam t.id fun t => { t with absent := t.absent.filter (fun c => !cs.contains c), rounds := t.rounds.filter fun r => r.id != j.rid }
        let s2 := (s2.filterRange j.pa j.len).modCallAt j.slot fun c =>
          if j.out then { c with copied := c.copied ++ [(j.off, j.pa, j.len)] } else c
        let s3 := match (s.callAt j.slot), j.out with
          | some (g, c), false => s2.capture g.sheet (.scratch g.teamid g.idx c.seq j.off bs)
          | _, _ => s2
        -- R210, R442, R444: what waits for a chunk reads it; the copy is charged
        let s4 := (s3.readChunks t.id).chargeEngine (t.cores.headD 0) t.id t.sheet 4 [(j.pa, j.len)]
        .next (s4.modSurv sv fun v => { v with ccStat := 2, ccJob := none })
/-- R387: a read of CCOPY_STAT. R486: a read of a state that has ended returns the buffer of the copy to its owner. -/
def execCcopyStat (sv : Nat) (s : State) : Out :=
  let v := s.surv sv
  let u := if 2 ≤ v.ccStat then { s with buffers := s.buffers.filter fun e => e.1 != lowField v.ccSrc 0 52 } else s
  if !isAgent sv then .next s else .next (u.modSurv sv fun v => { v with lastRead := BitVec.ofNat 64 v.ccStat, ccStat := if 2 ≤ v.ccStat then 0 else v.ccStat })
/-- R387: a write of SVERR clears the bits that it has set. -/
def execSverr (sv : Nat) (w : DWord) (s : State) : Out :=
  if !isAgent sv then .next s else .next (s.modSurv sv fun v => { v with sverr := v.sverr &&& (15 - lowField w 0 4) })

/-! ### Timer and interrupts (R386) -/

/-- R386: SVPEND.TIMER is 1 while `time` is at or past CMP. -/
def State.timerDue (s : State) (sv : Nat) : Bool := decide ((s.surv sv).svtimecmp.toNat ≤ s.time % 2 ^ 64)
/-- R386: SVPEND.ETH: a ring of the shard holds entries. -/
def State.ethDue (s : State) (sv : Nat) : Bool := s.sockets.any fun k => s.runs sv (k.num % 56) && !k.rx.isEmpty
/-- R386: SVPEND. -/
def State.svpend (s : State) (sv : Nat) : DWord :=
  let v := s.surv sv
  let b (k : Nat) (x : Bool) : Nat := if x then 2 ^ k else 0
  BitVec.ofNat 64 (b 0 (!v.callq.isEmpty) + b 1 (v.mbox.any fun q => !q.isEmpty) + b 2 (s.ethDue sv) + b 3 (s.timerDue sv) +
    b 4 (decide (2 ≤ v.ccStat)) + b 5 (v.sverr != 0))
/-- R386: SVID. -/
def State.svid (s : State) (sv : Nat) : DWord :=
  let v := s.surv sv
  BitVec.ofNat 64 (v.shard + sv / 16 * 2 ^ 8 + v.lcl * 2 ^ 10 + sv % 16 * 2 ^ 14)

/-- R386: `sip.SEIP`, the external interrupt of a Surveyor's S level. -/
def State.seip (s : State) (sv : Nat) : Bool := (s.svpend sv).toNat &&& (s.surv sv).svenable != 0
/-- R386: the numbers of the Surveyor's own CSRs that raise illegal-instruction. -/
def csrIllegal (csr : Nat) : Bool :=
  (decide (0x5C0 ≤ csr) && decide (csr ≤ 0x5FF) || decide (0xDC0 ≤ csr) && decide (csr ≤ 0xDFF)) &&
  !(csr == 0x5C0 || csr == 0x5C1 || csr == 0x5C2 || csr == 0xDC0 || csr == 0xDC1)
/-- R384, R386: what the CSRs that the manual describes read; none for every other number. -/
def State.csrRead (s : State) (sv csr : Nat) : Option DWord :=
  match csr with
  | 0x5C0 => some (BitVec.ofNat 64 (s.surv sv).svenable)
  | 0x5C1 => some (s.surv sv).svxlat
  | 0x5C2 => some (s.surv sv).svtimecmp
  | 0xDC0 => some (s.svpend sv)
  | 0xDC1 => some (s.svid sv)
  | 0x180 => some 0#64
  | 0xC01 => some (BitVec.ofNat 64 s.time)
  | 0xF11 => some 0#64
  | 0xF12 => some 0x4B4C0009#64
  | _ => none
/-- R387, R414: what a register of a Surveyor's block reads; WO registers and unlisted offsets read zero. What the read of a POP or
of a STAT changes is an event of its own. -/
def State.survRead (s : State) (sv off : Nat) : DWord :=
  let v := s.surv sv
  let head (p : Nat) : Option Msg := (v.mbox.getD p []).head?
  if off % 8 != 0 then 0#64
  else if 0x040 ≤ off && off < 0x140 then
    if off % 16 == 0 then (match head ((off - 0x040) / 16) with | some m => m.data | none => 0#64)
    else (match head ((off - 0x040) / 16) with | some m => m.lo | none => 0#64)
  else match off with
    | 0x000 => (match v.callq with | d :: _ => d.word | [] => 0#64)
    | 0x008 => BitVec.ofNat 64 v.callq.length
    | 0x140 => BitVec.ofNat 64 ((if s.txBusy sv then 65536 else 0) +
        ((List.range 16).map fun p => if (head p).isSome then 2 ^ p else 0).sum)
    | 0x160 => BitVec.ofNat 64 v.ccStat
    | 0x168 => BitVec.ofNat 64 v.sverr
    | 0x188 => BitVec.ofNat 64 v.gctlStat
    | _ => 0#64
/-! ### NVMe (R391, R464, R487) and Ethernet (R465) -/

/-- Where the survey kernel keeps the submission ring of a queue pair, 65,536 entries of 64 bytes (log 9). -/
def nvmeRing (pair : Nat) : Nat := 2 ^ 38 * (pair % 56 / 14) + 184 * 2 ^ 30 + 4194304 * pair
/-- Commands from one tail to the next. -/
def State.nvmeCmds (s : State) (pair old new : Nat) : List (Nat × Nat × Nat × Nat × Nat) :=
  (List.range ((new + 65536 - old) % 65536)).map fun i =>
    let a := nvmeRing pair + 64 * ((old + i) % 65536)
    (s.mem.loadNat (a + 2) 2, s.mem.loadNat a 1, s.mem.loadNat (a + 24) 8, s.mem.loadNat (a + 32) 8, s.mem.loadNat (a + 48) 2)
/-- R391: only the owner's write has effect. -/
def execNvmeDoorbell (sv pair : Nat) (w : DWord) (s : State) : Out :=
  if 1024 ≤ pair || !isAgent sv || !s.runs sv (pair % 56) then .next s
  else
    let p := getK s.nvme NvmePair.init pair
    let t := lowField w 0 16
    .next { s with nvme := setK s.nvme pair { p with tail := t, outstanding := p.outstanding ++ s.nvmeCmds pair p.tail t } }
/-- The entries of a PRP list, each a page of up to 4 KiB; the last entry of a page of the list names the list's next page where more
are needed (R464). -/
def State.prpList (s : State) : Nat → Nat → Nat → List (Nat × Nat)
  | 0, _, _ => []
  | k + 1, a, n =>
    let e := s.mem.loadNat a 8
    if n == 0 then []
    else if a % 4096 == 4088 && 4096 < n then s.prpList k e n
    else (e, min 4096 n) :: s.prpList k (a + 8) (n - 4096)
/-- The 4 KiB pages of a command's data: PRP1, then PRP2 or the list that it names (R464). -/
def State.prpSegs (s : State) (prp1 prp2 n : Nat) : List (Nat × Nat) :=
  let first := min n (4096 - prp1 % 4096)
  let rest := n - first
  let more := if rest == 0 then []
    else if rest ≤ 4096 then [(prp2, rest)]
    else s.prpList ((rest + 4095) / 4096 * 2) prp2 rest
  (prp1, first) :: more
/-- R368: the messages that a mailbox holds back. -/
def Surveyor.heldCount (v : Surveyor) : Nat := (v.mheld.map (·.length)).foldl (· + ·) 0
/-- R464: how a command may complete: Flush, Write, Read and Dataset Management are supported, any other opcode fails; a Read or a Write
that succeeds moves NLB + 1 blocks of 512 or 4,096 bytes. -/
def nvmeEnds (op nlb status len : Nat) : Bool :=
  match op with
  | 0 | 9 => true
  | 1 | 2 => status != 0 || len == (nlb + 1) * 512 || len == (nlb + 1) * 4096
  | _ => status != 0
/-- R368, R391, R464, R487: a command's data is written, then its completion goes to port 15 of the owner's mailbox, held back while that is
full; with the held lists full too, or while its class
stalls (R447), the controller waits (log 25). -/
def execNvmeCompletion (pair cid status : Nat) (data : List Byte) (s : State) : Out :=
  let p := getK s.nvme NvmePair.init pair
  match p.outstanding.find? fun c => c.1 == cid, s.survOfShard (pair % 56) with
  | some c, some d =>
    if 1024 ≤ pair || !nvmeEnds c.2.1 c.2.2.2.2 status data.length || s.svStalled d 4 || (Config.mboxDepth ≤ ((s.surv d).mbox.getD 15 []).length && Config.heldEntries ≤ (s.surv d).heldCount) then .next s
    else
      let ps := s.prpSegs c.2.2.1 c.2.2.2.1 data.length
      let p1 := { p with outstanding := p.outstanding.erase c }
      let s1 := { s with nvme := setK s.nvme pair p1 }
      let s2 := if status != 0 then s1
        else if c.2.1 == 2 then ((splitSegs ps data).foldl (fun u e => u.shardStore e.1 e.2) s1).svCharge d 4 ps
        else if c.2.1 == 1 then { s with nvme := setK s.nvme pair { p1 with written := p1.written ++ [s.mem.segLoad ps] } }.svCharge d 4 ps
        else s1
      let phase := if Config.nvmePhase s.free then 1 else 0
      .next ({ s2 with free := s2.free + 1 }.mboxPost d
        { data := 0#64, aux := cid % 65536 + phase * 65536 + status % 32768 * 131072, info := pair, port := 15, kind := 8 })
  | _, _ => .next s
/-- R391, R465: a frame of up to 9,216 bytes is steered to a queue, whose ring then holds a new entry; not while its class stalls (R447). -/
def execEthRx (queue : Nat) (frame : List Byte) (s : State) : Out :=
  if 1024 ≤ queue || 9216 < frame.length || (s.survOfShard (queue % 56)).any (s.svStalled · 4) then .next s
  else
  let s := match s.survOfShard (queue % 56) with
    | some d => if 64 ≤ d then s else s.chargeTraffic (s.clusterAt d) 4 frame.length 0
    | none => s
  if s.sockets.any fun k => k.num == queue then
    .next { s with sockets := s.sockets.map fun k => if k.num == queue then { k with rx := k.rx ++ [frame] } else k }
  else .next { s with sockets := s.sockets ++ [{ num := queue, rx := [frame] }] }
/-- R402: shard 0's NTP exchange gives the time of this moment. -/
def State.setUtc (s : State) (ns : DWord) : State := { s with utcBase := ns - BitVec.ofNat 64 (10 * s.time), utcValid := true }
def execUtcNtpSet (ns : Nat) (s : State) : Out := .next (s.setUtc (BitVec.ofNat 64 ns))

end Sys2Proof.Machine
end

