-- ==== Sys2Proof/Machine/Hart.lean ====
section
/-!
DEFINITION. The RV64 harts of the Surveyors and of the Compass cores (R384 to R386): 16 × die + physical cluster, and 64 + n for
Compass core n. Their registers and traps, their CSRs, where their accesses go. What R384 takes from the RISC-V specifications is read
from there (log 32).
-/
namespace Sys2Proof.Machine

def Hart.csr (h : Hart) (n : Nat) : DWord := getK h.csrs (if n == 0x300 then 0x1800#64 else 0#64) n
def Hart.setCsr (h : Hart) (n : Nat) (w : DWord) : Hart := { h with csrs := setK h.csrs n w }
def Hart.reg (h : Hart) (n : Nat) : DWord := if n == 0 then 0#64 else h.x.getD n 0#64
def Hart.setReg (h : Hart) (n : Nat) (w : DWord) : Hart := if n == 0 then h else { h with x := h.x.set n w }

/-! ### Traps -/

/-- A bit of `mstatus`, replaced. -/
def putBit (w : DWord) (i : Nat) (b : Bool) : DWord := if b then w ||| (1#64 <<< i) else w &&& ~~~(1#64 <<< i)
/-- Where a trap goes, of an interrupt by its number in vectored mode. -/
def trapTarget (tvec : DWord) (intr : Bool) (cause : Nat) : DWord :=
  (tvec &&& ~~~3#64) + (if intr && tvec.getLsbD 0 then BitVec.ofNat 64 (4 * cause) else 0#64)
/-- A trap into S mode, or into M mode. -/
def Hart.trap (h : Hart) (toS intr : Bool) (cause : Nat) (tval : DWord) : Hart :=
  let st := h.csr 0x300
  let c := BitVec.ofNat 64 (cause + if intr then 2 ^ 63 else 0)
  if toS then
    let st1 := putBit (putBit (putBit st 5 (st.getLsbD 1)) 1 false) 8 (!h.machine)
    { ((((h.setCsr 0x141 h.pc).setCsr 0x142 c).setCsr 0x143 tval).setCsr 0x300 st1) with
      pc := trapTarget (h.csr 0x105) intr cause, machine := false, resv := none, asleep := false }
  else
    let st1 := putBit (putBit (putBit (putBit st 7 (st.getLsbD 3)) 3 false) 11 true) 12 h.machine
    { ((((h.setCsr 0x341 h.pc).setCsr 0x342 c).setCsr 0x343 tval).setCsr 0x300 st1) with
      pc := trapTarget (h.csr 0x305) intr cause, machine := true, resv := none, asleep := false }
/-- An exception: into S mode where it is delegated. -/
def Hart.except (h : Hart) (cause : Nat) (tval : DWord) : Hart := h.trap (!h.machine && (h.csr 0x302).getLsbD cause) false cause tval

/-! ### CSRs -/

/-- R386: `mip`, whose SEIP is the Surveyor's external interrupt; a Compass core has none. -/
def State.hartIp (s : State) (k : Nat) : DWord :=
  ((s.hart k).csr 0x344 &&& 0x22#64) ||| (if k < 64 && s.seip k then 0x200#64 else 0#64)
/-- What a CSR reads; none where it raises illegal-instruction (R384, R386). -/
def State.hartCsr (s : State) (k n : Nat) : Option DWord :=
  let h := s.hart k
  if n == 0x100 then some (h.csr 0x300 &&& 0x122#64)
  else if n == 0x104 then some (h.csr 0x304 &&& 0x222#64)
  else if n == 0x144 then some (s.hartIp k &&& 0x222#64)
  else if n == 0x300 then some (h.csr 0x300 ||| (2#64 <<< 34))
  else if n == 0x301 then some (BitVec.ofNat 64 (2 ^ 63 + 2 ^ 18 + 2 ^ 12 + 2 ^ 8 + 2 ^ 2 + 1))
  else if n == 0x344 then some (s.hartIp k)
  else if [0x105, 0x140, 0x141, 0x142, 0x143, 0x302, 0x303, 0x304, 0x305, 0x340, 0x341, 0x342, 0x343].contains n then some (h.csr n)
  else if n == 0xF14 then some (BitVec.ofNat 64 k)
  else if n == 0xF13 || n == 0xF15 || n == 0x320 || (0x323 ≤ n && n < 0x340) || (0xB03 ≤ n && n < 0xB20) then some 0#64
  else if n == 0xB00 then some (BitVec.ofNat 64 h.mcycle)
  else if n == 0xB02 then some (BitVec.ofNat 64 h.instret)
  else if csrIllegal n || (64 ≤ k && 0x5C0 ≤ n && n ≤ 0x5FF) || (64 ≤ k && 0xDC0 ≤ n && n ≤ 0xDFF) then none
  else s.csrRead k n
/-- R386: the writable CSRs of a Surveyor; a CSR that the table does not list changes nothing here. -/
def State.csrWrite (s : State) (sv csr : Nat) (w : DWord) : State :=
  match csr with
  | 0x5C0 => s.modSurv sv fun v => { v with svenable := lowField w 0 6 }
  | 0x5C1 => s.modSurv sv fun v => { v with svxlat := w &&& 0x800000000000FFFF#64 }
  | 0x5C2 => s.modSurv sv fun v => { v with svtimecmp := w }
  | _ => s
/-- `mstatus` written: there is no U level, so MPP holds M or S. -/
def newStatus (old w : DWord) : DWord :=
  let m : DWord := if w.getLsbD 11 then 0x7219AA#64 else 0x7201AA#64
  (old &&& ~~~m) ||| (w &&& m)
/-- A CSR written. -/
def State.hartCsrWrite (s : State) (k n : Nat) (w : DWord) : State :=
  let h := s.hart k
  let mix (r : Nat) (m : DWord) : State := s.modHart k fun x => x.setCsr r ((h.csr r &&& ~~~m) ||| (w &&& m))
  if n == 0x100 then mix 0x300 0x122#64
  else if n == 0x104 then mix 0x304 0x222#64
  else if n == 0x144 then mix 0x344 0x2#64
  else if n == 0x300 then s.modHart k fun x => x.setCsr 0x300 (newStatus (h.csr 0x300) w)
  else if n == 0x302 then mix 0x302 0xB3FF#64
  else if n == 0x303 then mix 0x303 0x222#64
  else if n == 0x304 then mix 0x304 0xAAA#64
  else if n == 0x344 then mix 0x344 0x22#64
  else if n == 0x105 || n == 0x305 then mix n (~~~2#64)
  else if n == 0x141 || n == 0x341 then mix n (~~~1#64)
  else if [0x140, 0x142, 0x143, 0x340, 0x342, 0x343].contains n then mix n (~~~0#64)
  else if n == 0xB00 then s.modHart k fun x => { x with mcycle := w.toNat }
  else if n == 0xB02 then s.modHart k fun x => { x with instret := w.toNat }
  else if k < 64 then s.csrWrite k n w
  else s

/-! ### Interrupts -/

/-- The interrupt that a hart takes next: into S mode or not, its number. -/
def State.hartIntr (s : State) (k : Nat) : Option (Bool × Nat) :=
  let h := s.hart k
  let p := s.hartIp k &&& h.csr 0x304
  let d := h.csr 0x303
  let st := h.csr 0x300
  let first (m : DWord) : Option Nat := [11, 3, 7, 9, 1, 5].find? fun i => m.getLsbD i
  match (if !h.machine || st.getLsbD 3 then first (p &&& ~~~d) else none) with
  | some c => some (false, c)
  | none => (if !h.machine && st.getLsbD 1 then first (p &&& d) else none).map fun c => (true, c)
/-- The interrupt is taken; a hart that sleeps wakes for one that its `mie` enables. -/
def State.hartInterrupt (s : State) (k : Nat) : State :=
  match s.hartIntr k with
  | some (toS, c) => s.modHart k fun h => h.trap toS true c 0#64
  | none => if (s.hart k).asleep && s.hartIp k &&& (s.hart k).csr 0x304 != 0#64 then s.modHart k fun h => { h with asleep := false } else s
/-- R386: SVPEND.TIMER is 1 from the moment at which `time` reaches CMP; the Surveyor takes the interrupt that this makes. -/
def execSvTimerExpiry (sv : Nat) (s : State) : Out := .next (if isAgent sv && s.timerDue sv then s.hartInterrupt sv else s)

/-! ### Data accesses (R385) -/

/-- Where a Surveyor's data access goes (R385): a physical address, or a trap to S mode with its cause and `stval`. -/
inductive SurvRoute
  | pa (p : Nat)
  | trap (cause stval : Nat)
  | later
  deriving DecidableEq, Repr
/-- The TLB entry that serves an address of a Surveyor: its cluster's TLB, here those of the cluster's cores (log 32), then the die's
last-level TLB. -/
def State.survTlb (s : State) (sv asn va : Nat) : Option TlbEntry :=
  match (List.range 4).findSome? fun i => (s.core (16 * s.clusterAt sv + i)).tlb.find? (·.hits asn va) with
  | some e => some e
  | none => (s.die (sv / 16)).tlb.find? (·.hits asn va)
def State.survLeaf (s : State) (sv asn va : Nat) : Option (DWord × Nat) :=
  match s.survTlb sv asn va with
  | some e => some (e.leaf, e.bits)
  | none => if 2 ^ 57 ≤ va then none else (s.walk asn va).map fun (e, lv) => (e, levelBits lv)
/-- R385: a data access of a Surveyor, translated or not, a store or a load; `later`: its walk waits for a free one (R322). A generation that has not come yet cannot meet it: its
RGEN is CUR at issue (R330). -/
def State.survRoute (s : State) (sv va : Nat) (smode store : Bool) : SurvRoute :=
  let v := s.surv sv
  if !smode || !v.svxlat.getLsbD 63 then .pa va
  else if (s.survTlb sv (lowField v.svxlat 0 16) va).isNone && s.walksBusy (sv / 16) then .later
  else match s.survLeaf sv (lowField v.svxlat 0 16) va with
    | none => .trap (if store then 15 else 13) va
    | some (e, bits) =>
      if (if store then leafW e else leafRD e) then .pa (entAddr e / 2 ^ bits * 2 ^ bits + va % 2 ^ bits)
      else .trap (if store then 7 else 5) va
/-- R322, R385: what served the address fills the TLBs. -/
def State.survFill (s : State) (sv va : Nat) (smode : Bool) : State :=
  let v := s.surv sv
  let asn := lowField v.svxlat 0 16
  if !smode || !v.svxlat.getLsbD 63 then s
  else match s.survLeaf sv asn va with
    | none => s
    | some (leaf, bits) =>
      let e : TlbEntry := { asn, va := va / 2 ^ bits * 2 ^ bits, bits, leaf }
      let add (cap : Nat) (t : List TlbEntry) : List TlbEntry :=
        if t.any (·.hits asn va) then t else (if t.length < cap then t else t.drop 1) ++ [e]
      let s := if (s.survTlb sv asn va).isNone then s.walkReads asn va else s
      (s.modCore (16 * s.clusterAt sv) fun c => { c with tlb := add Config.coreTlb c.tlb }).modDie (sv / 16) fun d =>
        { d with tlb := add Config.dieTlb d.tlb }

/-- R385: accesses of S mode are translated; those of M mode use physical addresses, whatever `mstatus` says. -/
def Hart.asS (h : Hart) : Bool := !h.machine
/-- The physical bytes of a data access, or the trap that it meets; the cause 0 stands for an access that waits for a walk. -/
def State.hartBytes (s : State) (k va n : Nat) (store : Bool) : Except (Nat × Nat) (List Nat) :=
  (List.range n).mapM fun i =>
    let a := (va + i) % 2 ^ 64
    if 64 ≤ k then .ok a
    else match s.survRoute k a (s.hart k).asS store with
      | .pa p => .ok p
      | .trap c v => .error (c, v)
      | .later => .error (0, a)

end Sys2Proof.Machine
end

