-- ==== Sys2Proof/Machine/Loader.lean ====
section
/-!
DEFINITION. The loader (R73 to R79): objects, relocations, checks in the order of R76, the report record.
-/
namespace Sys2Proof.Machine

/-- A section header (R73). -/
structure Sect where
  idx : Nat
  name : List Byte := []
  type : Nat
  flags : Nat
  addr : Nat
  off : Nat
  size : Nat
  link : Nat
  info : Nat
  align : Nat
  deriving DecidableEq, Repr
def Sect.alloc (x : Sect) : Bool := x.flags.testBit 1
def Sect.exec (x : Sect) : Bool := x.flags.testBit 2
/-- SHT_NOBITS. -/
def Sect.nobits (x : Sect) : Bool := x.type == 8
/-- SHT_RELA. -/
def Sect.rela (x : Sect) : Bool := x.type == 4

/-- A symbol: its name's offset, type, section and value. -/
structure Sym where
  name : Nat
  type : Nat
  shndx : Nat
  value : Nat
  deriving DecidableEq, Repr

/-- A relocation: target section, offset in it, type, symbol, addend. -/
structure Rela where
  sec : Nat
  off : Nat
  type : Nat
  sym : Nat
  syms : Nat
  addend : Int
  deriving DecidableEq, Repr

/-- The report record (R77). -/
structure Report where
  code : Nat
  value : Nat := 0
  site : Nat := 0
  symname : Nat := 0xFFFFFFFF
  section_ : Nat := 0
  reltype : Nat := 0
  deriving DecidableEq, Repr
def Report.bytes (r : Report) : List Byte :=
  leBytes 2 r.code ++ leBytes 6 0 ++ leBytes 2 r.reltype ++ leBytes 2 r.section_ ++ leBytes 4 r.symname ++ leBytes 8 r.site ++ leBytes 8 r.value
/-- R76: the first code, then the lowest section, then the lowest offset. -/
def Report.before (a b : Report) : Bool :=
  decide (a.code < b.code) || (a.code == b.code && (decide (a.section_ < b.section_) ||
    (a.section_ == b.section_ && decide (a.site < b.site))))
def firstReport (rs : List Report) : Option Report :=
  rs.foldl (fun b r => match b with
    | none => some r
    | some x => if r.before x then some r else b) none

/-- A string of a table of the object, up to its NUL. -/
def strAt (bs : List Byte) (off : Nat) : List Byte := (bs.drop off).takeWhile (· != 0#8)
/-- A section header; `names` is the offset of the section name table in the object. -/
def sectAt (bs : List Byte) (names at_ idx : Nat) : Sect :=
  let r := (bs.drop at_).take 64
  { idx, name := strAt bs (names + fieldAt r 0 4), type := fieldAt r 4 4, flags := fieldAt r 8 8, addr := fieldAt r 16 8, off := fieldAt r 24 8, size := fieldAt r 32 8
    link := fieldAt r 40 4, info := fieldAt r 44 4, align := fieldAt r 48 8 }
def objSects (bs : List Byte) : List Sect :=
  let names := fieldAt bs (fieldAt bs 40 8 + 64 * fieldAt bs 62 2 + 24) 8
  (List.range (fieldAt bs 60 2)).map fun i => sectAt bs names (fieldAt bs 40 8 + 64 * i) i
/-- The sections that R73 names: the name, the type, the flags (WRITE 1, ALLOC 2, EXECINSTR 4) among the three, the alignment. Those
of data have their declared alignment and the type and flags of ELF. -/
def knownSects : List (String × Nat × Option Nat × Option Nat) :=
  [(".text", 1, some 6, some 64), (".rodata", 1, some 2, none), (".data", 1, some 3, none), (".bss", 8, some 3, none),
   (".kl.sheet", 0x70000001, none, some 128), (".kl.copy", 0x70000002, none, some 64), (".kl.footprint", 0x70000003, none, some 16),
   (".kl.pattern", 0x70000004, none, some 16), (".kl.port", 0x70000005, none, some 16)]
def nameBytes (n : String) : List Byte := n.toList.map fun c => BitVec.ofNat 8 c.toNat
/-- A power of two that an ELF section may declare, or none declared. -/
def alignDecl (a : Nat) : Bool := a == 0 || 2 ^ Nat.log2 a == a
/-- R73: a section of one of the names is as its row says; code, and the part's own types, stand in sections of those names only. -/
def Sect.named (x : Sect) : Bool :=
  match knownSects.find? fun e => nameBytes e.1 == x.name with
  | some (_, t, f, a) => x.type == t && (f.all fun f => x.flags % 8 == f) && a.all fun a => x.align == a
  | none => !x.exec && !(decide (0x70000001 ≤ x.type) && decide (x.type ≤ 0x70000005))
def Sect.ok (n len : Nat) (dyn : Bool) (x : Sect) : Bool :=
  (x.type == 0 || x.nobits || decide (x.off + x.size ≤ len)) && (x.type == 0 || x.named) && alignDecl x.align &&
  -- relocations are carried in SHT_RELA sections; 9 is SHT_REL
  x.type != 9 && (!dyn || !x.alloc || x.align ≤ 1 || x.addr % x.align == 0) &&
  (!x.rela || (decide (x.link < n) && decide (x.info < n) && x.size % 24 == 0))
/-- ET_DYN. -/
def objDyn (bs : List Byte) : Bool := fieldAt bs 16 2 == 3
/-- R73: the ELF header and the section table. -/
def formatOk (bs : List Byte) : Bool :=
  let n := fieldAt bs 60 2
  decide (64 ≤ bs.length) && fieldAt bs 0 4 == 0x464C457F && fieldAt bs 4 1 == 2 && fieldAt bs 5 1 == 1 && fieldAt bs 6 1 == 1 &&
  fieldAt bs 7 1 == 0 && (fieldAt bs 16 2 == 1 || fieldAt bs 16 2 == 3) && fieldAt bs 18 2 == 0x4C39 && fieldAt bs 48 4 / 256 == 0 &&
  (n == 0 || fieldAt bs 58 2 == 64) && decide (fieldAt bs 40 8 + 64 * n ≤ bs.length) &&
  (n == 0 || decide (fieldAt bs 62 2 < n)) && (objSects bs).all (·.ok n bs.length (objDyn bs))

def symAt (bs : List Byte) (t : Sect) (i : Nat) : Sym :=
  let r := (bs.drop (t.off + 24 * i)).take 24
  { name := fieldAt r 0 4, type := fieldAt r 4 1 % 16, shndx := fieldAt r 6 2, value := fieldAt r 8 8 }
/-- Every symbol of the symbol tables. -/
def objSyms (bs : List Byte) (ss : List Sect) : List Sym :=
  (ss.filter fun x => x.type == 2 || x.type == 11).flatMap fun t => (List.range (t.size / 24)).map (symAt bs t)
def toInt64 (n : Nat) : Int := (BitVec.ofNat 64 n).toInt
/-- The section and offset that a relocation names: an offset in its section, or an address of a linked object. -/
def siteOf (bs : List Byte) (ss : List Sect) (info off : Nat) : Nat × Nat :=
  if objDyn bs then
    match ss.find? fun x => x.alloc && x.addr ≤ off && off < x.addr + x.size with
    | some x => (x.idx, off - x.addr)
    | none => (info, off)
  else (info, off)
def objRelas (bs : List Byte) (ss : List Sect) : List Rela :=
  (ss.filter (·.rela)).flatMap fun t => (List.range (t.size / 24)).map fun i =>
    let r := (bs.drop (t.off + 24 * i)).take 24
    let (sec, off) := siteOf bs ss t.info (fieldAt r 0 8)
    { sec, off, type := fieldAt r 8 4, sym := fieldAt r 12 4, syms := t.link, addend := toInt64 (fieldAt r 16 8) }

/-! ### Relocations (R74, R75) -/

/-- The format of a major opcode (R59): 1 F5, 2 RI, 3 M, 4 B, 5 X, 6 Y, 0 faulting. -/
def opcFormat (n : Nat) : Nat :=
  let within (a b : Nat) : Bool := decide (a ≤ n) && decide (n ≤ b)
  if within 0x000 0x005 || n == 0x009 then 4
  else if within 0x006 0x008 || within 0x00A 0x00B then 6
  else if n == 0x00C || n == 0x061 then 2
  else if n == 0x00D || within 0x040 0x059 || n == 0x060 || within 0x062 0x065 || within 0x100 0x115 || within 0x180 0x182 ||
    within 0x1C0 0x1C5 || within 0x2C0 0x2C3 || n == 0x2C6 || within 0x3C6 0x3C7 then 1
  else if n == 0x203 || n == 0x206 || within 0x20A 0x20B || within 0x283 0x286 || within 0x2C4 0x2C5 || within 0x310 0x312 ||
    within 0x380 0x382 || within 0x3C0 0x3C5 || within 0x3C8 0x3C9 then 6
  else if within 0x200 0x202 || within 0x204 0x205 || within 0x207 0x209 || n == 0x20C || within 0x280 0x282 || n == 0x287 ||
    within 0x300 0x301 || n == 0x30B then 3
  else if within 0x302 0x30A || within 0x30C 0x30F then 5
  else 0

/-- What a relocation type writes: bytes of its site (12 for a slot), the format of the slot, the lowest bit and the width of the
field. -/
def relField (type : Nat) : Option (Nat × Nat × Nat × Nat) :=
  match type with
  | 0 => some (0, 0, 0, 0)
  | 1 => some (8, 0, 0, 64)
  | 2 => some (4, 0, 0, 32)
  | 3 => some (8, 0, 0, 64)
  | 4 => some (12, 4, 3, 35)
  | 5 => some (12, 2, 6, 32)
  | 6 => some (12, 2, 6, 32)
  | 7 => some (12, 2, 6, 32)
  | 8 => some (12, 3, 4, 24)
  | 9 => some (12, 6, 12, 16)
  | 10 => some (12, 1, 0, 8)
  | 11 => some (4, 0, 0, 20)
  | _ => none
def inSpan (v lo hi : Int) : Bool := decide (lo ≤ v) && decide (v < hi)
/-- R74: the value v, whether it fits, and the bits to write. For KLR_LOFF, whose row gives T, LOFF and SLOT and no single v, the
reported value is T (log 33). DESIGN CHOICE (log 33): a symbol's value is unsigned, and S + A is not wrapped. -/
def relValue (type : Nat) (s a p : Int) : Int × Bool × Int :=
  let v := s + a
  match type with
  | 2 => (v, inSpan v 0 (2 ^ 32), v)
  | 3 => (v - p, true, v - p)
  | 4 =>
    let d := (v / 64 * 64 - p / 64 * 64) / 64
    (v, v % 64 % 12 == 0 && decide (v % 64 < 60) && inSpan d (-2147483648) 2147483648, d % 2 ^ 32 * 8 + v % 64 / 12)
  | 5 => (v, inSpan v (-2147483648) (2 ^ 32), v)
  | 6 => (v, true, v % 2 ^ 32)
  | 7 => (v, true, v / 2 ^ 32 % 2 ^ 32)
  | 8 => (v, inSpan v (-8388608) 8388608, v)
  | 9 => (v, inSpan v 0 65536, v)
  | 10 => (v, inSpan v (-128) 128, v)
  | 11 => (v, inSpan v 0 (2 ^ 20), v)
  | _ => (v, true, v)

/-- A section's bytes in the object. -/
def Sect.bytes (x : Sect) (bs : List Byte) : List Byte :=
  if x.nobits then List.replicate x.size 0#8 else (bs.drop x.off).take x.size
/-- The bits at a site: those of the field, and the site's opcode. -/
def siteNat (d : List Byte) (off n : Nat) : Nat := fieldAt d off n
/-- R75, with the addresses of the sections. -/
def siteOk (bs : List Byte) (ss : List Sect) (lay : List (Nat × Nat)) (r : Rela) : Bool :=
  match ss.find? (fun x => x.idx == r.sec), relField r.type with
  | some x, some (n, fmt, lo, w) =>
    if n == 0 then true
    else
      let d := x.bytes bs
      decide (r.off + n ≤ x.size) && siteNat d r.off n / 2 ^ lo % 2 ^ w == 0 &&
      (if n == 12 then x.exec && r.off % 64 % 12 == 0 && decide (r.off % 64 < 60) && opcFormat (siteNat d r.off 12 / 2 ^ 86) == fmt
       else (getK lay 0 r.sec + r.off) % n == 0)
  | _, _ => false

/-! ### Layout -/

def roundUp (n a : Nat) : Nat := (n + a - 1) / a * a
/-- Where the sections that occupy memory go: a linked object keeps its addresses above the base, and an object of Pytil has
each section on pages of its own, in table order, at its declared alignment where that is larger (log 20). -/
def layout (dyn : Bool) : Nat → List Sect → List (Nat × Nat)
  | _, [] => []
  | at_, x :: xs =>
    if !x.alloc then layout dyn at_ xs
    else if dyn then (x.idx, at_ + x.addr) :: layout dyn at_ xs
    else
      let b := roundUp at_ (max 65536 x.align)
      (x.idx, b) :: layout dyn (b + roundUp x.size 65536) xs
/-- R73: every section stands at its declared alignment. -/
def layoutOk (lay : List (Nat × Nat)) (ss : List Sect) : Bool := ss.all fun x => !x.alloc || x.align ≤ 1 || getK lay 0 x.idx % x.align == 0
/-- The value of a symbol, none when it is undefined. DESIGN CHOICE (log 33): a symbol of a common, absent or unallocated section is defined, at
its value. -/
def symValue (dyn : Bool) (base : Nat) (lay : List (Nat × Nat)) (y : Sym) : Option Nat :=
  if y.shndx == 0 then none
  else if y.shndx == 0xFFF1 then some y.value
  else if dyn then some (base + y.value)
  else some (getK lay 0 y.shndx + y.value)

/-! ### The checks (R76) -/

/-- The line before a kernel's entry, with PAR made right (R78). -/
def headerLine (d : List Byte) (off : Nat) : List Byte :=
  let l := padTo 64 ((d.drop off).take 64)
  l.take 62 ++ leBytes 2 (linePar (leNat (l.take 62)))
/-- R72, R76: the header of every kernel, as it stands in the object: no relocation has been applied (log 33). DESIGN CHOICE (log 33): a
report of a header has no symbol, and a function outside the executable sections is no kernel. -/
def headerReports (bs : List Byte) (ss : List Sect) (dyn : Bool) : List Report :=
  ((objSyms bs ss).filter fun y => y.type == 2 && y.shndx != 0).flatMap fun y =>
    match ss.find? fun x => x.idx == y.shndx && x.exec with
    | none => []
    | some x =>
      let v := if dyn then y.value - x.addr else y.value
      let at_ : Report := { code := 3, site := v - 64, section_ := x.idx }
      if v < 64 || v % 64 != 0 || x.size < v then [at_]
      else
        let l := headerLine (x.bytes bs) (v - 64)
        if fieldAt l 0 2 != 9 then [{ at_ with code := 2 }] else if (parseHeader l).isNone then [at_] else []
/-- The symbol that a relocation names: none for index 0, and past the end of its table no symbol at all. -/
def Rela.symbol (r : Rela) (bs : List Byte) (ss : List Sect) : Option Sym :=
  if r.sym == 0 then none
  else ((ss.find? fun x => x.idx == r.syms).filter fun t => decide (24 * r.sym + 24 ≤ t.size)).map fun t => symAt bs t r.sym
/-- S of a relocation; index 0, ELF's undefined symbol of no name, stands for no symbol, and S is 0 (log 33). -/
def Rela.symVal (r : Rela) (bs : List Byte) (ss : List Sect) (dyn : Bool) (base : Nat) (lay : List (Nat × Nat)) : Option Nat :=
  if r.sym == 0 then some 0 else (r.symbol bs ss).bind (symValue dyn base lay)
/-- R74 to R76: the checks of one relocation. Index 0 is no undefined symbol (log 33). DESIGN CHOICE (log 33): SYMNAME of a symbol that has
no name is its st_name, 0. -/
def relaReports (bs : List Byte) (ss : List Sect) (dyn : Bool) (base : Nat) (lay : List (Nat × Nat)) (r : Rela) : List Report :=
  let at_ : Report := { code := 1, site := r.off, section_ := r.sec, reltype := r.type
                        symname := match r.symbol bs ss with
                          | some y => y.name
                          | none => 0xFFFFFFFF }
  match relField r.type with
  | none => [at_]
  | some _ =>
    let s := r.symVal bs ss dyn base lay
    let a := if s.isNone then [{ at_ with code := 4 }] else []
    let b := if siteOk bs ss lay r then [] else [{ at_ with code := 5 }]
    let c := match s with
      | some s =>
        let (v, fits, _) := relValue r.type s r.addend (getK lay 0 r.sec + r.off : Nat)
        if fits then [] else [{ at_ with code := 6, value := (v % 2 ^ 64).toNat }]
      | none => []
    a ++ b ++ c
/-- R76: the first check that fails before memory is looked at. -/
def objReport (bs : List Byte) (base : Nat) : Option Report :=
  if !formatOk bs then some { code := 1 }
  else
    let ss := objSects bs
    let dyn := objDyn bs
    let lay := layout dyn base ss
    let gen : List Report := if fieldAt bs 48 4 % 256 == 9 then [] else [{ code := 2 }]
    firstReport (gen ++ headerReports bs ss dyn ++ (objRelas bs ss).flatMap (relaReports bs ss dyn base lay))

/-! ### Writing (R78) -/

def putAt (d : List Byte) (off : Nat) (x : List Byte) : List Byte := d.take off ++ x ++ d.drop (off + x.length)
/-- A relocation applied to its section's bytes: its field is written, and PAR of the line that holds it is made right. -/
def relocate (bs : List Byte) (ss : List Sect) (dyn : Bool) (base : Nat) (lay : List (Nat × Nat)) (x : Sect) (d : List Byte) (r : Rela) : List Byte :=
  match relField r.type with
  | some (n, _, lo, w) =>
    if n == 0 then d
    else
      let s := (r.symVal bs ss dyn base lay).getD 0
      let (_, _, v) := relValue r.type s r.addend (getK lay 0 r.sec + r.off : Nat)
      let bits := (v % 2 ^ w).toNat
      let old := siteNat d r.off n
      let d1 := putAt d r.off (leBytes n (old - old / 2 ^ lo % 2 ^ w * 2 ^ lo + bits * 2 ^ lo))
      if x.exec then putAt d1 (r.off / 64 * 64) (headerLine d1 (r.off / 64 * 64)) else d1
  | none => d
/-- A section as it stands in memory. -/
def sectImage (bs : List Byte) (ss : List Sect) (base : Nat) (x : Sect) : List Byte :=
  let dyn := objDyn bs
  let lay := layout dyn base ss
  ((objRelas bs ss).filter fun r => r.sec == x.idx).foldl (relocate bs ss dyn base lay x) (x.bytes bs)
/-- The pages that a section needs. -/
def sectPages (lay : List (Nat × Nat)) (x : Sect) : List Nat := if x.alloc then pagesOf (getK lay 0 x.idx) x.size else []
/-- The mapping of a page of a section: execute without write for code (R78), else read, and write where the section says so. -/
def sectPerm (x : Sect) : Nat := if x.exec then 5 else if x.flags.testBit 0 then 3 else 1

/-- What the pages of an object need, each once: a page that sections share takes what any of them asks for, and no write beside
execute (R78; log 20). -/
def pageNeeds (ss : List Sect) (lay : List (Nat × Nat)) : List (Nat × Nat) :=
  let all := ss.flatMap fun x => (sectPages lay x).map fun p => (p, sectPerm x)
  ((all.map (·.1)).eraseDups).map fun p =>
    let m := (all.filter fun e => e.1 == p).foldl (fun m e => m ||| e.2) 0
    (p, if m.testBit 2 then m &&& 5 else m)

/-- LOAD of the bytes of an object into an address space with the pages and nodes that the shard has: the report, and the state
after a load that succeeds (R76 to R79). A page that is mapped with execute permission is no memory for it. The translations are
published under a ticket (R329). -/
def State.load (s : State) (asn : Nat) (bs : List Byte) (maps : List MapReq) : Report × State :=
  let base := (maps.map (·.va)).headD 0
  match objReport bs base with
  | some r => (r, s)
  | none =>
    let ss := objSects bs
    let lay := layout (objDyn bs) base ss
    let need := pageNeeds ss lay
    let reqs := need.filterMap fun e => (maps.find? fun q => q.va == e.1 && q.level == 0).map fun q => { q with perm := e.2 }
    let clear := reqs.filter fun q => (s.walk asn q.va).isNone
    if !layoutOk lay ss || reqs.length != need.length || (reqs.any fun q => s.mappedX q.pa) || (s.mapServed asn clear).isNone then ({ code := 7 }, s)
    else if clear.length != reqs.length then ({ code := 8 }, s)
    else
      let put (u : State) (x : Sect) : State :=
        let d := sectImage bs ss base x
        let at_ := getK lay 0 x.idx
        (sectPages lay x).foldl (fun (v : State) p =>
          match reqs.find? fun q => q.va == p with
          | some q =>
            let lo := max p at_
            v.shardStore (q.pa + (lo - p)) ((d.drop (lo - at_)).take (p + 65536 - lo))
          | none => v) u
      let s1 := reqs.foldl (fun (u : State) q => u.shardStore q.pa (List.replicate 65536 0#8)) s
      let s2 := ss.foldl put s1
      match s2.mapServed asn reqs with
      | some s3 => ({ code := 0 }, { s3 with ticket := s3.ticket + 1 }.ticketDone s3.ticket)
      | none => ({ code := 7 }, s)

end Sys2Proof.Machine
end

