-- ==== Sys2Proof/Machine/Calls.lean ====
section
/-!
DEFINITION. The service calls as the survey kernel serves them (R394, R395, R399 to R403, R428, R494). A call is named by its
slot's physical address and a lane: its leader where the call is mergeable.
-/
namespace Sys2Proof.Machine

/-- Free value (log 2): a status where the spec states none. -/
def State.openStatus (s : State) : DWord × State := (Config.status s.free, { s with free := s.free + 1 })

/-- A call being served: the group and the call, its slot's address, the lane, the lane's arguments. -/
structure Call where
  g : Group
  c : CallRec
  pa : Nat
  lane : Nat
  args : List DWord
def Call.arg (x : Call) (i : Nat) : DWord := x.args.getD i 0#64
def Call.num (x : Call) (i : Nat) : Nat := (x.arg i).toNat

/-! ### Serving (R394, R428) -/

/-- R394: the lanes that a result answers: those that the lane leads, or the lane. -/
def State.ledLanes (s : State) (pa lane : Nat) (merge : Bool) (c : CallRec) : Mask :=
  if merge then Mask.ofLanes ((lanesOf 64 c.active).filter fun L => s.mem.leader pa L == lane) else 1#64 <<< lane
/-- R394: the lower leaders or lanes of the slot, and the earlier calls of the group that reach the same owner, have been
performed. A READ lets the ones behind it in its slot go on: its data lands later. -/
def State.inTurn (s : State) (x : Call) : Bool :=
  let home := shardOfCluster (clusterOf x.g.core)
  let own (c : CallRec) (L : Nat) : Nat := s.callOwner x.g.asn home c.callno (s.mem.callArgs (x.g.slotAddr c.slot) L)
  let mine := own x.c x.lane
  (x.c.callno == 0x22 || (List.range x.lane).all fun L => !x.c.active.getLsbD L || x.c.served.getLsbD L || own x.c L != mine) &&
  x.g.calls.all fun d => x.c.seq ≤ d.seq || (lanesOf 64 (d.active &&& ~~~d.served)).all fun L => own d L != mine

/-- R428: the result entries of a group's calls in a capture record: the number of the call's issue, and whether a lane is among those
answered. -/
def CapEntry.issueOf (g : Group) : CapEntry → Option Nat
  | .result t i q _ _ _ _ _ _ => if t == g.teamid && i == g.idx then some q else none
  | _ => none
def CapEntry.isNext (g : Group) (q L : Nat) : CapEntry → Bool
  | .result t i q' _ _ _ _ lanes _ => t == g.teamid && i == g.idx && q' == q && lanes.getLsbD L
  | _ => false
/-- The value with which an entry answers a lane of a call; none where the call differs. -/
def CapEntry.answer (x : Call) (L : Nat) (args : List DWord) : CapEntry → Option DWord
  | .result _ _ _ n as _ _ lanes vals =>
    let k := ((lanesOf 64 lanes).idxOf? L).getD 64
    if n == x.c.callno && as[k]? == some args then vals[k]? else none
  | _ => none
/-- The bytes that a shard wrote for a lane of a call. -/
def CapEntry.dataOf (x : Call) (L off q : Nat) : CapEntry → Bool
  | .bytes t i q' l _ _ => t == x.g.teamid && i == x.g.idx && q' == q && l == L
  | .scratch t i q' o _ => t == x.g.teamid && i == x.g.idx && q' == q && o == off
  | _ => false
def CapEntry.redo (g : Group) (s : State) : CapEntry → State
  | .bytes _ _ _ _ pa d => s.sheetStore g.sheet pa d
  | .scratch _ _ _ off d => s.modTeam g.team fun t => t.scratchStore off d
  | _ => s
/-- R428: the record's next call of a group: the one issued first of those not yet paired with a call of the re-run. -/
def nextRecorded (g : Group) (es : List CapEntry) : Option Nat :=
  (es.filterMap (CapEntry.issueOf g)).foldl (fun b q => match b with
    | none => some q
    | some m => some (min m q)) none
/-- R428: a call of a re-run is paired with the record's next call of its group; every earlier call of the group has been served. -/
def pairCall (x : Call) (es : List CapEntry) : Option Nat :=
  match x.c.recorded with
  | some q => some q
  | none => nextRecorded x.g (es.filter fun e => match e.issueOf x.g with
    | some q => !x.g.recDone.contains q && !x.g.calls.any fun d => d.recorded == some q
    | none => true)
/-- R428: a lane of a call of a re-run is answered from the record: with the recorded result and the bytes recorded with it, or, where
the call differs from the record's, with SV_IO. -/
def State.replayLane (x : Call) (q : Nat) (s : State) (L : Nat) : State :=
  match (s.sheet? x.g.sheet).bind (·.rerun) with
  | none => s
  | some es =>
    let args := s.mem.callArgs x.pa L
    let off := (args.getD 1 0#64).toNat % 2 ^ 20
    let v := (es.find? (CapEntry.isNext x.g q L)).bind (CapEntry.answer x L args)
    let s1 := s.modSheet x.g.sheet fun h => { h with diverged := h.diverged || v.isNone }
    let s2 := if v.isSome then (es.filter fun e => e.dataOf x L off q).foldl (CapEntry.redo x.g) s1 else s1
    s2.shardStore (x.pa + 2176 + 8 * L) (leBytes 8 (v.getD svIo).toNat)
/-- R428: the calls of a group are answered in issue order. -/
def Call.firstOfGroup (x : Call) : Bool := x.g.calls.all fun d => x.c.seq ≤ d.seq || d.active &&& ~~~d.served == 0#64

/-- The pages of a range that the address space does not map. -/
def State.absentPages (s : State) (asn va n : Nat) : List Nat :=
  if 2 ^ 57 < va + n then [] else (pagesOf va n).filter fun p => (s.walk asn p).isNone
/-- R389, R486: the call has reached the shard that owns what it names: its descriptor has been read, or its message taken. -/
def State.reached (s : State) (x : Call) : Bool :=
  let home := shardOfCluster (clusterOf x.g.core)
  if s.callOwner x.g.asn home x.c.callno x.args == home then x.c.popped else x.c.passed.getLsbD x.lane
/-- A shard serves a lane of a call with a number: its result goes to RESULT of the lanes that it answers. Nothing happens where
no such call is in progress, where it has not reached its owner, or where it is not its turn. `need` are the ranges of the caller's
memory that the shard touches: for those of its pages that are absent it asks the memory shards first (R395); none while a copy that
the call needs has not run. -/
def State.serve (s : State) (pa lane callno : Nat) (merge : Bool) (k : Call → State → DWord × State)
    (need : Call → State → Option (List (Nat × Nat)) := fun _ _ => some []) : Out :=
  match s.callAt pa with
  | none => .next s
  | some (g, c) =>
    let x : Call := { g, c, pa, lane, args := s.mem.callArgs pa lane }
    let led := s.ledLanes pa lane merge c
    if c.callno != callno || !c.active.getLsbD lane || c.served.getLsbD lane || c.answered.getLsbD lane ||
        !led.getLsbD lane || !s.reached x || !s.inTurn x then .next s
    else
      let done (t : State) : State :=
        t.modGrp g.id fun g => { g with calls := g.calls.map fun y => if y.slot == c.slot then { y with served := y.served ||| led } else y }
      if ((s.sheet? g.sheet).bind (·.rerun)).isSome then
        if !x.firstOfGroup then .next s
        else
          let q := pairCall x (((s.sheet? g.sheet).bind (·.rerun)).getD [])
          let t := (lanesOf 64 led).foldl (State.replayLane x (q.getD 0)) s
          .next (done ((t.modCall g.id c.slot fun c => { c with recorded := q }).modGrp g.id fun g =>
            { g with recDone := (g.recDone ++ q.toList).eraseDups }))
      else match need x s with
        | none => .next s
        | some rs =>
          let away := (rs.flatMap fun e => s.absentPages g.asn e.1 e.2).filter fun p => !c.replied.contains p
          if !away.isEmpty then .next (s.modCall g.id c.slot fun c => { c with asked := (c.asked ++ away).eraseDups })
          else
            let (v, t) := k x s
            .next (done ((lanesOf 64 led).foldl (fun (u : State) L => u.shardStore (pa + 2176 + 8 * L) (leBytes 8 v.toNat)) t))

/-- The sheet's process (R340). -/
def Call.proc (x : Call) (s : State) : Option Nat := s.procOf x.g.sheet
/-- R403: the process's ASN is administrative. -/
def Call.admin (x : Call) (s : State) : Bool := s.owner.adminAsns.contains x.g.asn
/-- A queue that the process created (R340). -/
def Call.queue (x : Call) (s : State) (n : Nat) : Option Queue := (s.queue? n).filter fun q => some q.proc == x.proc s

/-- R421, R491: a store of part of a word whose check fails raises E_CHECK in the writing sheet. -/
def State.partCheck (s : State) (sheet pa n : Nat) : State :=
  if !s.bad.isEmpty && s.badWrite pa n then s.modSheet sheet fun h => { h with check := true } else s
/-- R395, R418, R427: bytes that a shard writes to the caller's memory; none where a page cannot be written. -/
def State.callStore (s : State) (x : Call) (va : Nat) (bs : List Byte) : Option State :=
  (s.asnSegs x.g.asn va bs.length).map fun ss => (splitSegs ss bs).foldl (fun u e =>
    (u.partCheck x.g.sheet e.1 e.2.length).sheetStore x.g.sheet e.1 e.2 |>.capture x.g.sheet (.bytes x.g.teamid x.g.idx x.c.seq x.lane e.1 e.2)) s
/-- R395: a buffer argument names scratchpad. -/
def inScratch (a : DWord) : Bool := a.msb
/-- R395, R401: the offset and the length of a scratchpad buffer are allowed. -/
def scratchOk (a : DWord) (n : Nat) : Bool := lowField a 0 20 % 512 == 0 && lowField a 20 43 == 0 && n % 512 == 0 && decide (n ≤ 65536)
def scratchOffOk (a : DWord) : Bool := lowField a 0 20 % 512 == 0 && lowField a 20 43 == 0
/-- R486: an owner's buffer that holds no data of another call. -/
def State.bufFree (s : State) (buf n : Nat) : Bool := s.buffers.all fun e => decide (e.1 + e.2 ≤ buf) || decide (buf + n ≤ e.1)
/-- R486: the source of the data of a scratchpad buffer, n bytes of the owner's buffer until the calling shard returns it. -/
def State.sourcePa (s : State) (x : Call) (buf n : Nat) : State :=
  { s with mem := s.mem.store (x.pa + 2688 + 8 * x.lane) (leBytes 8 buf), buffers := s.buffers ++ [(buf, n)] }
/-- R399: an effect now, or at retirement in issue order. -/
def State.effect (s : State) (x : Call) (d : Deferred) : State :=
  match s.sheet? x.g.sheet with
  | some h => if h.immio then s.perform d else s.modSheet h.id fun h => { h with deferred := h.deferred ++ [(x.c.seq, x.lane, d)] }
  | none => s

/-! ### Time (R402, R403) -/

def execSysTime (slot lane : Nat) (s : State) : Out :=
  s.serve slot lane 0x01 true fun x s =>
    if s.utcValid then
      let t := max ((s.utcBase + BitVec.ofNat 64 (10 * s.time)).toNat) x.g.lastTime
      (BitVec.ofNat 64 t, s.modGrp x.g.id fun g => { g with lastTime := t })
    else (svAgain, s)
/-- R403, of a device or a host process: whether it is administrative, then the argument. -/
def State.timeset (s : State) (admin : Bool) (ns : DWord) : DWord × State := if admin then (0#64, s.setUtc ns) else (svPerm, s)
def execSysTimeset (slot lane : Nat) (s : State) : Out :=
  s.serve slot lane 0x02 false fun x s => s.timeset (x.admin s) (x.arg 0)

/-! ### Memory (R400) -/

/-- A power of two, 64 KiB or more. -/
def alignOk (n : Nat) : Bool := decide (65536 ≤ n) && decide (n < 2 ^ 57) && 2 ^ Nat.log2 n == n
/-- R400: the memory shard's address and pages; SV_NOMEM where it has none. -/
def execSysAlloc (slot lane va : Nat) (maps : List MapReq) (s : State) : Out :=
  s.serve slot lane 0x10 false fun x s =>
    let n := x.num 0
    let free := (pagesOf va n).all fun p => (s.walk x.g.asn p).isNone
    if !alignOk (x.num 1) || n == 0 then s.openStatus
    else if va % x.num 1 != 0 || 2 ^ 57 < va + n || !free then (svNomem, s)
    else match s.mapServed x.g.asn maps with
      | none => (svNomem, s)
      | some t =>
        if (t.asnSegs x.g.asn va n).isSome then
          (BitVec.ofNat 64 va, { t with allocs := t.allocs ++ [{ asn := x.g.asn, sheet := x.g.sheet, va, len := n }] })
        else (svNomem, s)
/-- The pages of a block are unmapped under one ticket (R329). -/
def State.freeBlock (s : State) (b : Alloc) : State :=
  let ps := pagesOf b.va b.len
  let s1 := ps.foldl (fun u p => u.unmapPage b.asn p) s
  let inv := ps.map fun p => (s.ticket, BitVec.ofNat 64 (b.asn * 2 ^ 41 + p / 65536))
  ({ s1 with allocs := s1.allocs.erase b, invals := s1.invals ++ inv, ticket := s1.ticket + 1 }).ticketDone s.ticket
def execSysFree (slot lane : Nat) (s : State) : Out :=
  s.serve slot lane 0x11 true fun x s =>
    match s.allocs.find? fun b => b.asn == x.g.asn && b.va == x.num 0 with
    | some b => (0#64, s.freeBlock b)
    | none => s.openStatus

/-! ### Files (R494) -/

/-- What of a path is read: to the end of its first page, and on if that holds no NUL. -/
def State.pathNeeds (s : State) (asn va : Nat) : List (Nat × Nat) :=
  let n1 := min 4096 (65536 - va % 65536)
  (va, n1) :: match s.asnLoad asn va n1 with
    | some a => if a.contains 0#8 || n1 == 4096 then [] else [(va + n1, 4096 - n1)]
    | none => []
/-- The lowest number from a start on that a list does not hold. -/
def lowestFree (used : List Nat) (start : Nat) : Nat :=
  (((List.range (used.length + 1)).map (start + ·)).find? fun n => !used.contains n).getD start
/-- A new descriptor of a file (R389, R494). -/
def State.openFd (s : State) (x : Call) (inode : Nat) (write : Bool) : DWord × State :=
  let sh := inode % 56
  let used := (s.fds.filter fun f => f.asn == x.g.asn && f.fd / 2 ^ 24 == sh).map fun f => f.fd % 2 ^ 24
  let fd := sh * 2 ^ 24 + lowestFree used 3
  (BitVec.ofNat 64 fd, { s with fds := s.fds ++ [{ fd, asn := x.g.asn, sheet := x.g.sheet, inode, write }] })
/-- R494: `inode` is where the file system's free numbers begin (log 9). -/
def execSysOpen (slot lane inode : Nat) (s : State) : Out :=
  s.serve (need := fun x s => some (if 4 ≤ x.num 1 then [] else s.pathNeeds x.g.asn (x.num 0))) slot lane 0x20 true fun x s =>
    if 4 ≤ x.num 1 then (svInval, s)
    else match s.pathAt x.g.asn (x.num 0) with
      | .error e => (e, s)
      | .ok p => match s.files.find? fun f => f.path == p with
        | some f => s.openFd x f.inode ((x.arg 1).getLsbD 0)
        | none =>
          if (x.arg 1).getLsbD 1 then
            let n := lowestFree (s.files.map (·.inode)) inode
            let t : State := { s with files := s.files ++ [{ inode := n, path := p }] }
            t.openFd x n ((x.arg 1).getLsbD 0)
          else (svNoent, s)
/-- The open descriptor that an argument names. -/
def State.fdOf (s : State) (x : Call) : Option Fd := s.fds.find? fun f => f.asn == x.g.asn && f.fd == x.num 0
def State.fileOf (s : State) (f : Fd) : Option File := s.files.find? fun y => y.inode == f.inode
def execSysClose (slot lane : Nat) (s : State) : Out :=
  s.serve slot lane 0x21 true fun x s =>
    match s.fdOf x with
    | some f => (0#64, { s with fds := s.fds.erase f })
    | none => (svBadf, s)
/-- R494: into scratchpad, the data goes to the shard's buffer, zero past the end of the file, for the inbound copy of the whole
length. -/
def execSysRead (slot lane buf : Nat) (s : State) : Out :=
  let need (x : Call) (s : State) : Option (List (Nat × Nat)) := match (s.fdOf x).bind s.fileOf with
    | some f =>
      if !inScratch (x.arg 1) then some [(x.num 1, min (x.num 2) (f.len - x.num 3))]
      else if !scratchOk (x.arg 1) (x.num 2) || s.bufFree buf (x.num 2) then some [] else none
    | none => some []
  s.serve (need := need) slot lane 0x22 true fun x s =>
    match (s.fdOf x).bind s.fileOf with
    | none => (svBadf, s)
    | some f =>
      let n := min (x.num 2) (f.len - x.num 3)
      let bs := f.data.bulk (x.num 3) n
      if inScratch (x.arg 1) then
        if scratchOk (x.arg 1) (x.num 2) then (BitVec.ofNat 64 n, (s.shardStore buf (padTo (x.num 2) bs)).sourcePa x buf (x.num 2)) else (svInval, s)
      else match s.callStore x (x.num 1) bs with
        | some t => (BitVec.ofNat 64 n, t)
        | none => (svFault, s)
/-- The bytes that a call sends: from the caller's memory, or from the shard's buffer after the outbound copy (R395). -/
def State.sent (s : State) (x : Call) (buf n : Nat) : Option (List Byte) :=
  if inScratch (x.arg 1) then some (s.mem.bulk buf n) else s.asnLoad x.g.asn (x.num 1) n
/-- R395: the outbound copy of a scratchpad buffer to the shard's has run. -/
def Call.copyRun (x : Call) (buf n : Nat) : Bool :=
  n == 0 || x.c.copied.any fun e => e.1 == lowField (x.arg 1) 0 20 && e.2.1 == buf && decide (n ≤ e.2.2)
/-- What a call that sends n bytes needs. -/
def Call.sendNeeds (x : Call) (buf n : Nat) (ok : Bool) : Option (List (Nat × Nat)) :=
  if !ok then some []
  else if inScratch (x.arg 1) then (if x.copyRun buf n then some [] else none) else some [(x.num 1, n)]
def execSysWrite (slot lane buf : Nat) (s : State) : Out :=
  let need (x : Call) (s : State) : Option (List (Nat × Nat)) :=
    x.sendNeeds buf (x.num 2) (((s.fdOf x).any (·.write)) && (!inScratch (x.arg 1) || scratchOk (x.arg 1) (x.num 2)))
  s.serve (need := need) slot lane 0x23 true fun x s =>
    match s.fdOf x with
    | none => (svBadf, s)
    | some f =>
      if !f.write then (svBadf, s)
      else if inScratch (x.arg 1) && !scratchOk (x.arg 1) (x.num 2) then (svInval, s)
      else match s.sent x buf (x.num 2) with
        | some bs => (x.arg 2, s.effect x (.write f.inode (x.num 3) bs))
        | none => (svFault, s)
def execSysFsize (slot lane : Nat) (s : State) : Out :=
  s.serve slot lane 0x24 true fun x s =>
    match (s.fdOf x).bind s.fileOf with
    | some f => (BitVec.ofNat 64 f.len, s)
    | none => (svBadf, s)

/-! ### Sockets (R389, R399) -/

/-- R400: the count that the socket takes, at most the length. -/
def execSysSocksend (slot lane count buf : Nat) (s : State) : Out :=
  let need (x : Call) (_ : State) : Option (List (Nat × Nat)) :=
    x.sendNeeds buf (min count (x.num 2)) (decide (x.num 0 < 1024) && (!inScratch (x.arg 1) || scratchOffOk (x.arg 1)))
  s.serve (need := need) slot lane 0x30 false fun x s =>
    let n := min count (x.num 2)
    if 1024 ≤ x.num 0 then s.openStatus
    else if inScratch (x.arg 1) && !scratchOffOk (x.arg 1) then (svInval, s)
    else match s.sent x buf n with
      | some bs => (BitVec.ofNat 64 n, s.effect x (.sockSend (x.num 0) bs))
      | none => (svFault, s)
/-- What a socket has received, in order. -/
def State.sockRx (s : State) (n : Nat) : List Byte := ((s.sockets.filter fun k => k.num == n).flatMap (·.rx)).flatten
def State.sockDrop (s : State) (n k : Nat) : State :=
  let cut (x : Socket) : Socket :=
    if x.num == n then { x with rx := if x.rx.flatten.length ≤ k then [] else [x.rx.flatten.drop k] } else x
  { s with sockets := s.sockets.map cut }
/-- R400: bytes received, at most `count` of them. A socket with none gives an open status. -/
def execSysSockrecv (slot lane count buf : Nat) (s : State) : Out :=
  let need (x : Call) (s : State) : Option (List (Nat × Nat)) :=
    let n := min (s.sockRx (x.num 0)).length (min count (x.num 2))
    if !inScratch (x.arg 1) then some [(x.num 1, n)] else if s.bufFree buf n then some [] else none
  s.serve (need := need) slot lane 0x31 false fun x s =>
    let bs := (s.sockRx (x.num 0)).take (min count (x.num 2))
    if bs.isEmpty then s.openStatus
    else if inScratch (x.arg 1) then
      if scratchOffOk (x.arg 1) then
        (BitVec.ofNat 64 bs.length, ((s.shardStore buf bs).sourcePa x buf bs.length).sockDrop (x.num 0) bs.length)
      else (svInval, s)
    else match s.callStore x (x.num 1) bs with
      | some t => (BitVec.ofNat 64 bs.length, t.sockDrop (x.num 0) bs.length)
      | none => (svFault, s)

/-! ### Queues (R340, R403) -/

/-- R340: a queue number that no queue has and that is no slot number. -/
def State.queueNumOk (s : State) (n : Nat) : Bool := decide (4096 ≤ n) && decide (n < 2 ^ 32) && (s.queue? n).isNone
def execSysQcreate (slot lane qnum page : Nat) (s : State) : Out :=
  if !s.queueNumOk qnum || !(s.callAt slot).any (fun e => s.subPageOk e.1.asn page) then .next s
  else s.serve slot lane 0x40 false fun x s =>
    match x.proc s with
    | some p =>
      if 4 ≤ x.num 0 then s.openStatus
      else
        let q : Queue := { num := qnum, page := some page, asn := x.g.asn, proc := p, ceiling := x.num 0
                           quota := (((s.sheet? x.g.sheet).bind fun h => s.queue? h.queue).map (·.quota)).getD 224 }
        (Config.qcreateWord qnum page, { s with queues := s.queues ++ [q] })
    | none => (svPerm, s)
/-- R403: the registration of a completion address for a queue of the process. -/
def State.qintr (s : State) (q : Option Queue) (asn : Nat) (addr : DWord) : DWord × State :=
  match q with
  | none => (svPerm, s)
  | some q =>
    if addr.toNat == 0 then (0#64, s.modQueue q.num fun q => { q with qintr := none })
    else match s.asnPa asn addr.toNat true with
      | some a => if addr.toNat % 8 == 0 && paHost a then (0#64, s.modQueue q.num fun q => { q with qintr := some a }) else (svInval, s)
      | none => (svInval, s)
def execSysQintr (slot lane : Nat) (s : State) : Out :=
  s.serve slot lane 0x41 false fun x s => s.qintr (x.queue s (x.num 0)) x.g.asn (x.arg 1)
/-- R403: a grant of QNOTE on a queue of the process. -/
def State.qgrant (s : State) (q : Option Queue) (asn mode : Nat) : DWord × State :=
  match q with
  | none => (svPerm, s)
  | some q =>
    let rest := q.grants.filter (· != asn)
    if mode == 1 then (0#64, s.modQueue q.num fun q => { q with grants := rest ++ [asn] })
    else if mode == 0 then (0#64, s.modQueue q.num fun q => { q with grants := rest })
    else (svInval, s)
def execSysQgrant (slot lane : Nat) (s : State) : Out :=
  s.serve slot lane 0x42 false fun x s => s.qgrant (x.queue s (x.num 0)) (x.num 1) (x.num 2)

/-! ### Windows (R299, R303) -/

/-- R299, R303: kind 0 is an import, whose second argument holds the module in bits [15:0] and the export entry in bits [31:16];
kind 1 an export (log 9). The entry number is FABRIC's. -/
def execSysWinreg (slot lane entry : Nat) (s : State) : Out :=
  if 65536 ≤ entry || s.sheets.any fun h => h.windows.any fun w => w.entry == entry then .next s
  else s.serve slot lane 0x50 false fun x s =>
    let port := lowField (x.arg 3) 48 16
    let step := lowField (x.arg 3) 0 48
    let note := if step == 0 then none else some (x.g.team, port, step)
    let put (w : Window) : DWord × State :=
      (BitVec.ofNat 64 (entry * 2 ^ 48), s.modSheet x.g.sheet fun h => { h with windows := h.windows ++ [w] })
    if 2 ≤ x.num 0 || 64 ≤ port then (svInval, s)
    else if 256 ≤ (((s.sheet? x.g.sheet).map (·.windows.length)).getD 0) then (svNospc, s)
    else if x.num 0 == 0 then
      if 4096 ≤ lowField (x.arg 1) 0 16 then (svInval, s)
      else put { entry, isImport := true, module := lowField (x.arg 1) 0 16, base := lowField (x.arg 1) 16 16, len := x.num 2, notify := note }
    else if (s.asnSegs x.g.asn (x.num 1) (x.num 2)).isNone || 2 ^ 57 < x.num 1 + x.num 2 then (svFault, s)
    else put { entry, isImport := false, base := x.num 1, len := x.num 2, notify := note }
def execSysWinfree (slot lane : Nat) (s : State) : Out :=
  s.serve slot lane 0x51 true fun x s =>
    let e := x.num 0 / 2 ^ 48
    match (s.sheet? x.g.sheet).bind fun h => h.windows.find? fun w => w.entry == e with
    | some _ => (0#64, s.modSheet x.g.sheet fun h => { h with windows := h.windows.filter fun w => w.entry != e })
    | none => s.openStatus

/-! ### Loading (R76, R77) -/

/-- R76, R77: the object is read, checked and loaded, and the report record is written. A load whose record cannot be written is
undone, and the call's result is SV_FAULT (log 9). -/
def execSysLoad (slot lane : Nat) (maps : List MapReq) (s : State) : Out :=
  s.serve (need := fun x _ => some [(x.num 0, x.num 1), (x.num 2, 32)]) slot lane 0x60 false fun x s =>
    match s.asnLoad x.g.asn (x.num 0) (x.num 1) with
    | none => (svFault, s)
    | some bs =>
      let (r, t) := s.load x.g.asn bs maps
      match t.callStore x (x.num 2) r.bytes with
      | some u => (BitVec.ofNat 64 r.code, u)
      | none => (svFault, s)

/-! ### Registrations (R403, R495) -/

def State.ckptreg (s : State) (admin : Bool) (base len : Nat) : DWord × State :=
  if !admin then (svPerm, s)
  else if !paPool base || 2 ^ 52 ≤ base || base % 2 ^ 30 != 0 then (svInval, s)
  else if len < 769 * 2 ^ 30 then (svNospc, s)
  else (0#64, { s with ckptReg := some (base, len) })
def execSysCkptreg (slot lane : Nat) (s : State) : Out :=
  s.serve slot lane 0x70 false fun x s => s.ckptreg (x.admin s) (x.num 0) (x.num 1)
def State.captreg (s : State) (q : Option Queue) (base len : Nat) : DWord × State :=
  match q with
  | none => (svPerm, s)
  | some q =>
    if base % 65536 != 0 || len % 65536 != 0 then (svInval, s)
    else
      let area := if len == 0 then none else some (base, len)
      (0#64, s.modQueue q.num fun q => { q with capArea := area, capRec := [], capFull := false })
def execSysCaptreg (slot lane : Nat) (s : State) : Out :=
  s.serve slot lane 0x71 false fun x s => s.captreg (x.queue s (x.num 0)) (x.num 1) (x.num 2)
def execSysFhold (slot lane : Nat) (s : State) : Out :=
  s.serve slot lane 0x72 false fun x s =>
    match x.proc s with
    | none => (svPerm, s)
    | some p =>
      let rest := s.fhold.filter (· != p)
      if x.num 0 == 1 then (0#64, { s with fhold := rest ++ [p] })
      else if x.num 0 == 0 then (0#64, { s with fhold := rest })
      else (svInval, s)

/-- R76, R403: a call that a host process makes through CMD, a process under its ASN (R466): LOAD and the registrations. -/
def State.hostServe (s : State) (asn callno : Nat) (a : List DWord) (maps : List MapReq) : DWord × State :=
  let n (i : Nat) : Nat := (a.getD i 0#64).toNat
  let admin := s.owner.adminAsns.contains asn
  let q := (s.queue? (n 0)).filter fun q => q.proc == asn
  match callno with
  | 0x02 => s.timeset admin (a.getD 0 0#64)
  | 0x41 => s.qintr q asn (a.getD 1 0#64)
  | 0x42 => s.qgrant q (n 1) (n 2)
  | 0x60 => match s.asnLoad asn (n 0) (n 1) with
    | none => (svFault, s)
    | some bs =>
      let (r, t) := s.load asn bs maps
      match t.asnSegs asn (n 2) r.bytes.length with
      | some ss => (BitVec.ofNat 64 r.code, (splitSegs ss r.bytes).foldl (fun (u : State) e => u.shardStore e.1 e.2) t)
      | none => (svFault, s)
  | 0x70 => s.ckptreg admin (n 0) (n 1)
  | 0x71 => s.captreg q (n 1) (n 2)
  | _ => (svNosys, s)
def State.hostCall (s : State) (asn callno : Nat) (a : List DWord) (maps : List MapReq) : State :=
  let (v, t) := s.hostServe asn callno a maps
  { t with hostResults := t.hostResults ++ [(asn, v)] }

/-- The call numbers of the table of R400. -/
def tableCalls : List Nat :=
  [0x01, 0x02, 0x10, 0x11, 0x20, 0x21, 0x22, 0x23, 0x24, 0x30, 0x31, 0x40, 0x41, 0x42, 0x50, 0x51, 0x60, 0x70, 0x71, 0x72]
/-- R400: a number from 0x8000 up: the owner's handler gives the result; any other number that the table does not hold gives
SV_NOSYS. -/
def execSysOwnerHandlerCall (slot lane : Nat) (result : DWord) (s : State) : Out :=
  match s.callAt slot with
  | none => .next s
  | some (_, c) =>
    if tableCalls.contains c.callno then .next s
    else s.serve slot lane c.callno false fun _ s => (if 0x8000 ≤ c.callno then result else svNosys, s)

end Sys2Proof.Machine
end

