-- ==== Sys2Proof/Machine/Groups.lean ====
section
/-!
DEFINITION. Group control (R95 to R97, R412, R414 to R416), rollback and replay (R421 to R424), the whole-memory checkpoint
(R425, R426) and re-runs of captures (R427, R428).
-/
namespace Sys2Proof.Machine

/-! ### Drops (R96, R97, R211, R193, R261) -/

/-- R96. -/
def Group.droppable (g : Group) : Bool := g.waypt && (List.range g.width).all fun L => (g.lane L).exited || !(g.lane L).commit
/-- R97, R193: the lanes return to their waypoints and generators; exited lanes to their generators (log 26). -/
def Group.drop (g : Group) : Group :=
  let back (l : Lane) : Lane :=
    if l.exited then { l with sr := l.srRec } else { l with pc := l.wp, sr := l.srRec, held := false, commit := false, due := none, wait := .none, skipped := 0 }
  { g.loseLatches with lanes := g.lanes.map back, batches := [], kept := [], chain := none, yieldTo := none, rgen := none, st := .dropped, seq := 0 }
/-- What waits for a group elsewhere goes: its place among MOPENs, requests, walks and receivers. -/
def State.forget (s : State) (gid : Nat) : State :=
  { s with
    cores := s.cores.map fun (k, c) => (k, { c with mopenQ := c.mopenQ.filter (· != gid), reqQ := c.reqQ.filter fun e => e.1 != gid })
    dies := s.dies.map fun (k, d) => (k, { d with walks := d.walks.filter fun w => w.gid != gid })
    teams := s.teams.map fun t => { t with recvs := t.recvs.filter fun r => r.gid != gid } }
/-- R89, R97: drop a group. -/
def State.dropGroup (s : State) (g : Group) : State :=
  let s1 := ((s.forget g.id).setGrp g.drop).parkRegs g
  if g.st == .resident then s1.modCore g.core fun c => { c with lastFree := c.cycle.toNat } else s1

/-! ### Saves by group control (R409, R411, R415) -/

/-- The subset that a stop names: the one that the group would issue next, else that of its lowest lane (log 12). -/
def Group.stopSub (g : Group) : Mask :=
  match g.pickSub with
  | some m => m
  | none => match (List.range g.width).find? fun L => !(g.lane L).exited with
    | some L => g.subsetAt L
    | none => 0#64
/-- Save a group that a command stops; HALT is delivered (R406). -/
def State.stopGroup (s : State) (g : Group) (c : Cause) : State :=
  let m := g.stopSub
  let fs := if c == .halt then 3 else if g.unqueued.readyLanes != 0#64 then 2 else 1
  let s1 := s.saveGroup g c fs (g.lane (lowest m)).pc m m 0#64 0
  if c == .halt then s1.callqPush (s.survOf g.core) { slot := g.frame, type := 4 } else s1

/-! ### Actions (R414 to R416) -/

/-- R416: the group took a fault in this ck of its core. -/
def State.justFaulted (s : State) (g : Group) : Bool :=
  g.st == .saved && g.frameHeld && g.save.cause != .halt && g.save.cause != .step && g.save.cyc == (s.core g.core).cycle
/-- The group that a command names by its frame, or by core and context within the Surveyor's cluster: one whose team is placed
there. -/
def State.named (s : State) (sv : Nat) (w : DWord) : Option Group :=
  let f := lowField w 12 40 * 4096
  let core := 256 * (sv / 16) + 16 * (s.surv sv).lcl + lowField w 8 2
  let ctx := lowField w 0 7
  let g := if f != 0 then s.groups.find? fun g => g.frame == f
    else match s.groups.find? fun g => g.core == core && g.ctx == ctx && g.st != .saved with
      | some g => some g
      | none => s.groups.find? fun g => g.st == .saved && (g.save.cause == .pageWait || s.justFaulted g) && g.save.ctxw == core + 1024 * ctx
  g.filter fun g => s.survOf g.core == sv
/-- A command's outcome: refused, done, or waiting for a context. -/
inductive Gctl
  | refused
  | done (s : State)
  | later
/-- R415: how an action may name a group: by its frame, or by its context. -/
def gctlNames (act : Nat) (byFrame : Bool) (g : Group) : Bool :=
  match act with
  | 1 => !byFrame || g.st == .saved
  | 2 => !byFrame
  | 3 => byFrame == (g.st == .saved)
  | 8 => !byFrame
  | _ => byFrame
/-- R414, R415: run a command; STATE becomes 2 or 3, or stays 1 until a context is free. -/
def State.command (s : State) (sv act : Nat) (w : DWord) (k : Group → Gctl) : Out :=
  let set (t : State) (n : Nat) : State := t.modSurv sv fun v => { v with gctlStat := n }
  if !isAgent sv then .next s
  else if (s.surv sv).gctlStat == 1 then .next (s.svErr sv 3)
  else match s.named sv w with
    | none => .next (set s 3)
    | some g => match if gctlNames act (lowField w 12 40 != 0) g then k g else .refused with
      | .refused => .next (set s 3)
      | .done t => .next (set t 2)
      | .later => .next ((set s 1).modSurv sv fun v => { v with gctlJob := some (act, g.id) })

def execPreempt (sv : Nat) (w : DWord) (s : State) : Out :=
  s.command sv 1 w fun g =>
    if g.st == .saved then .done s
    else if g.st == .dropped then .refused
    else if g.droppable then .done (s.dropGroup g) else .done (s.stopGroup g .preempt)
/-- R416: an EVICT that meets a PAGE_WAIT save holds the group until a RESUME as well; one that meets a fault of the same ck
reads done. -/
def execEvict (sv : Nat) (w : DWord) (s : State) : Out :=
  s.command sv 2 w fun g =>
    if g.st != .saved then .done (s.stopGroup g .evict)
    else if g.save.cause == .pageWait then .done (s.reframe g fun h => { h with save := { h.save with cause := .evict } })
    else if s.justFaulted g then .done s
    else .refused
def execHalt (sv : Nat) (w : DWord) (s : State) : Out :=
  s.command sv 8 w fun g => if s.justFaulted g then .done s
    else if g.st == .saved then .refused else .done (s.stopGroup g .halt)

/-- R415 NEXT: the lanes of SUBSET whose PC is FPC. -/
def Group.nextTakes (g : Group) : Mask := maskOf g.width fun L => g.save.subset.getLsbD L && (g.lane L).pc == g.save.fpc
/-- R415: lanes that a NEXT has taken past the instruction at which they waited wait no more, at a port, for a message or for holdership. -/
def State.endWaits (s : State) (gid : Nat) (m : Mask) : State :=
  { s with
    cores := s.cores.map fun (k, c) => (k, { c with mopenQ := if m == 0#64 then c.mopenQ else c.mopenQ.filter (· != gid) })
    teams := s.teams.map fun t => { t with
      recvs := t.recvs.filter fun r => !(r.gid == gid && r.mask &&& m != 0#64)
      ports := t.ports.map fun p => { p with blocked := p.blocked.filter fun b => !(b.gid == gid && m.getLsbD b.lane) } } }
/-- R415 RETRY, NEXT, STEP and RESUME: what a restore does to the group. -/
def Group.onRestore (act : Nat) (g : Group) : Group :=
  match act with
  | 5 =>
    let h := if g.brk then { g.loseLatches with chain := none } else g
    { h with stepping := false, kept := h.kept.filter fun e => e.1 &&& g.save.subset == 0#64
             lanes := h.lanes.mapIdx fun L (l : Lane) => if g.nextTakes.getLsbD L then { l with pc := nextPc l.pc, wait := .none } else l }.settle
  | 6 => { g with stepping := true }
  | 4 => { g with stepping := false }
  | _ => { g with resumeReq := false, redrop := false }
/-- R412, R415: restore a frame that still says what the part wrote. -/
def State.restoreBy (s : State) (act : Nat) (g : Group) : Gctl :=
  if !g.frameIntact s.mem then .refused
  else if s.ckptStop then .later
  else match s.restoreGroup g (Group.onRestore act) with
    | some t => .done (if act == 5 then t.endWaits g.id (g.readFrame s.mem).nextTakes else t)
    | none => .later
/-- R489: an EVICT has saved the group in a call that has not been answered: its restore waits for the reply and a RESUME. -/
def Group.awaitsReply (g : Group) : Bool := g.save.cause == .evict && g.save.fstate == 1 && g.save.waitc % 16 == 5
/-- R415: a held frame whose cause is not E_CHECK. -/
def Group.inspectable (g : Group) : Bool := g.st == .saved && g.frameHeld && g.save.cause != .check
def execResume (sv : Nat) (w : DWord) (s : State) : Out :=
  s.command sv 3 w fun g =>
    if s.ckptStop then .later
    else if g.st == .dropped then .done (s.setGrp { g with st := .parked, parkedAt := (s.core g.core).cycle.toNat, seq := 0 })
    else if g.st != .saved || g.frameHeld || !(g.save.cause == .preempt || g.save.cause == .evict) then .refused
    else if g.faults.isEmpty && !g.awaitsReply then s.restoreBy 3 g
    else .done (s.setGrp { g with resumeReq := true })
def execRetry (sv : Nat) (w : DWord) (s : State) : Out :=
  s.command sv 4 w fun g => if g.inspectable then s.restoreBy 4 g else .refused
def execNext (sv : Nat) (w : DWord) (s : State) : Out :=
  s.command sv 5 w fun g => if g.inspectable then s.restoreBy 5 g else .refused
def execStep (sv : Nat) (w : DWord) (s : State) : Out :=
  s.command sv 6 w fun g => if g.inspectable then s.restoreBy 6 g else .refused
/-- R414: a read of GCTL_STAT. -/
def execGctlStat (sv : Nat) (s : State) : Out :=
  .next (if !isAgent sv then s else s.modSurv sv fun v => { v with lastRead := BitVec.ofNat 64 v.gctlStat, gctlStat := if 2 ≤ v.gctlStat then 0 else v.gctlStat })
/-- After a step: an action that waits for a context is done when one is free, and refused when its group is gone. -/
def State.finishGctl (s : State) (e : Nat × Surveyor) : State :=
  match e.2.gctlJob with
  | none => s
  | some (act, gid) =>
    let set (t : State) (n : Nat) : State := t.modSurv e.1 fun v => { v with gctlStat := n, gctlJob := none }
    match s.grp? gid with
    | none => set s 3
    | some g => match if g.st == .dropped && !s.ckptStop then .done (s.setGrp { g with st := .parked, parkedAt := (s.core g.core).cycle.toNat, seq := 0 })
        else if g.st == .dropped then .later else if act == 3 && (!g.faults.isEmpty || g.awaitsReply) then .done (s.setGrp { g with resumeReq := true }) else s.restoreBy act g with
      | .done t => set t 2
      | .refused => set s 3
      | .later => s
/-- A restore that the part makes of its own; a group that was dropped when a checkpoint evicted it is dropped again (R425). -/
def Group.comesBack (g : Group) : Group := { g with resumeReq := false, redrop := false, st := if g.redrop then .dropped else g.st }
/-- After a step: groups whose page faults have been served, and that no EVICT holds or a RESUME has named, and that wait for a context
(R327, R408, R412, R416). -/
def State.finishServed (s : State) (g : Group) : State :=
  if g.st == .saved && !g.frameHeld && ((g.save.cause == .pageWait && g.save.fstate == 2) || g.resumeReq) && g.faults.isEmpty && !g.awaitsReply && !s.ckptStop &&
      g.frameIntact s.mem then
    (s.restoreGroup g Group.comesBack).getD s
  else s
def State.finishRestores (s : State) : State := s.groups.foldl State.finishServed (s.survs.foldl State.finishGctl s)

/-! ### Rollback and replay (R421 to R424) -/

/-- Steps 1 to 3 of R423: groups, batches, rounds, copies, threads, ports and the deferred list of the sheet go. -/
def State.stopSheet (s : State) (h : Sheet) : State :=
  let gids := (s.groups.filter fun g => g.sheet == h.id).map (·.id)
  let tids := (s.teams.filter fun t => t.sheet == h.id).map (·.id)
  let core (c : Core) : Core :=
    let mine := match c.mowner with
      | some t => tids.contains t
      | none => false
    { c with rot := c.rot.filter (!gids.contains ·), mopenQ := c.mopenQ.filter (!gids.contains ·), reqQ := c.reqQ.filter (fun e => !gids.contains e.1)
             reqs := c.reqs.filter (fun r => !gids.contains r.gid), bins := c.bins.filter (fun b => b.sheet != h.id)
             fwd := c.fwd.filter (fun e => !tids.contains e.1), lastFree := if gids.isEmpty then c.lastFree else c.cycle.toNat
             mowner := if mine then none else c.mowner, mstate := if mine then {} else c.mstate }
  let surv (v : Surveyor) : Surveyor := match v.ccJob with
    | some j => if tids.contains j.team then { v with ccJob := none, ccStat := 3 } else v
    | none => v
  { s with
    groups := s.groups.filter fun g => g.sheet != h.id
    teams := s.teams.filter fun t => t.sheet != h.id
    msgs := s.msgs.filter fun m => !tids.contains m.team
    cores := s.cores.map fun (k, c) => (k, core c)
    dies := s.dies.map fun (k, d) => (k, { d with walks := d.walks.filter fun w => !gids.contains w.gid })
    survs := s.survs.map fun (k, v) => (k, surv v)
    reserved := s.reserved.filter fun e => e.1 != h.id }
/-- Step 4: snapshots are written back, fresh rename pages and the snapshots return to their pools; the release performs every
mark of the sheet's cores. -/
def State.restoreSnaps (s : State) (h : Sheet) : State :=
  let cores := ((s.teams.filter fun t => t.sheet == h.id).flatMap (·.cores)).eraseDups
  let s1 := h.snaps.foldl (fun u e => u.shardStore e.1 e.2) s
  let s2 := cores.foldl State.clearMarks s1
  { s2 with snapUsed := s2.snapUsed - h.snaps.length, poolFree := s2.poolFree ++ h.fresh }
/-- Step 5: the survey kernel frees what the sheet has allocated, opened and registered. -/
def State.closeAll (s : State) (h : Sheet) : State :=
  let s1 := (s.allocs.filter fun b => b.sheet == h.id).foldl State.freeBlock s
  { s1 with fds := s1.fds.filter fun f => f.sheet != h.id }
/-- R424. -/
def Sheet.replayable (h : Sheet) : Bool := !h.immio && !h.noReplay && decide (h.replays < 3)
/-- The sheet as it was accepted. -/
def Sheet.again (h : Sheet) : Sheet :=
  let fresh (t : Task) : Task := { t with st := .waiting, placed := 0, extents := [], leaves := [], renamed := [], noRename := [], wait := 0, firstTeam := 0 }
  { h with
    st := .accepted, replays := h.replays + 1, rfree := h.rfree + h.fresh.length, fresh := [], snaps := [], armed := [], unsnapped := [], deferred := [], windows := []
    tasks := (h.tasks.take 1).map fresh, nextTeam := ((h.tasks.head?).map (·.teams)).getD 0, check := false, ageing := 0
    spawnWait := [], spawnFreed := false, seals := if h.sealJob.isSome then (List.range 16).map fun n => { num := n } else [] }
/-- The sheet that has ended without retiring: its ranges leave the dependence table. -/
def Sheet.ended (h : Sheet) (result : Nat) : Sheet :=
  { h with
    st := .done, result, check := false, rfree := 0, fresh := [], snaps := [], armed := [], unsnapped := [], deferred := [], windows := [], seals := [], spawnWait := []
    tasks := h.tasks.map fun (t : Task) => { t with st := .ended, extents := [], leaves := [], renamed := [], placed := t.teams } }
/-- Steps 1 to 5 of R423. -/
def State.rollback (s : State) (h : Sheet) : State := ((s.restoreSnaps h).stopSheet h).closeAll h
/-- R423, R424. -/
def execSheetRollback (sheet : Nat) (s : State) : Out :=
  match s.sheet? sheet with
  | none => .next s
  | some h =>
    if !h.check || h.st == .done then .next s
    else .next ((s.rollback h).modSheet sheet fun x => if h.replayable then x.again else x.ended 1).recheckTasks
/-- R415 KILL: steps 1 to 5, and completion result 0x0002. -/
def execKill (sv : Nat) (w : DWord) (s : State) : Out :=
  s.command sv 7 w fun g =>
    if g.st != .saved || !g.frameHeld then .refused
    else match s.sheet? g.sheet with
      | some h => .done ((s.rollback h).modSheet h.id fun x => x.ended 2).recheckTasks
      | none => .refused

/-! ### Checkpoint (R425, R426) -/

/-- Step 3: rounds, copies, commands and calls have ended, and every import's ACK equals its ISS. -/
def State.quiet (s : State) : Bool :=
  s.teams.all (fun t => t.rounds.isEmpty) && s.survs.all (fun e => e.2.ccJob.isNone) && s.nvme.all (fun e => e.2.outstanding.isEmpty) &&
  s.groups.all (fun g => g.calls.all fun c => c.answered == c.active) && s.sheets.all fun h => h.windows.all fun w => !w.isImport || w.ack == w.iss
/-- HBM, 192 GiB of each die, as a linear image at a base of the pool. -/
def hbmLinear (pa : Nat) : Nat := pa / 2 ^ 38 * (192 * 2 ^ 30) + pa % 2 ^ 38
def hbmAddr (off : Nat) : Nat := off / (192 * 2 ^ 30) * 2 ^ 38 + off % (192 * 2 ^ 30)
def ckptBytes : Nat := 768 * 2 ^ 30
def Mem.toPool (m : Mem) (base : Nat) : Mem :=
  m.filter (fun c => c.1 < base) ++ ((m.filter fun c => isHbm c.1).map fun c => (base + hbmLinear c.1, c.2)) ++
    m.filter (fun c => base + ckptBytes ≤ c.1)
def Mem.fromPool (m : Mem) (base : Nat) : Mem :=
  ((m.filter fun c => base ≤ c.1 && c.1 < base + ckptBytes).map fun c => (hbmAddr (c.1 - base), c.2)) ++ m.filter fun c => 2 ^ 40 ≤ c.1
/-- Every group that is not saved, evicted (step 2). -/
def State.evictAll (s : State) : State :=
  (s.groups.filter fun g => g.st != .saved).foldl (fun u g =>
    (u.stopGroup g .evict).modGrp g.id fun h => { h with resumeReq := true, redrop := g.st == .dropped }) s
/-- Step 6: the groups that step 2 evicted come back; one whose frame does not say what the part wrote is refused (R412). -/
def State.resumeAll (s : State) : State :=
  (s.groups.filter fun g => g.st == .saved && g.save.cause == .evict && g.resumeReq && g.faults.isEmpty && g.frameIntact s.mem).foldl
    (fun u g => (u.restoreGroup g Group.comesBack).getD u) s
/-- R491: words whose check fails, copied with their data: of HBM into the image at a base, and back. -/
def badToPool (bad : List Nat) (base : Nat) : List Nat :=
  (bad.filter fun w => !(decide (base ≤ 4 * w) && decide (4 * w < base + ckptBytes))) ++
    (bad.filter fun w => isHbm (4 * w)).map fun w => (base + hbmLinear (4 * w)) / 4
def badFromPool (bad : List Nat) (base : Nat) : List Nat :=
  (bad.filter fun w => !isHbm (4 * w)) ++
    (bad.filter fun w => decide (base ≤ 4 * w) && decide (4 * w < base + ckptBytes)).map fun w => hbmAddr (4 * w - base) / 4
/-- R444, R447: the clusters that take part in a checkpoint: those of the groups, and of each die the first, for the copy of its HBM (log 10). -/
def State.ckptClusters (s : State) : List Nat := (s.groups.map (fun (g : Group) => clusterOf g.core) ++ [0, 16, 32, 48]).eraseDups
def State.ckptStalled (s : State) : Bool := s.ckptClusters.any (s.stalled · 5)
/-- The frames that step 2 writes, and the HBM that step 5 copies, charged to class 5. -/
def State.chargeFrames (s : State) : State :=
  (s.groups.filter fun g => g.st != .saved).foldl (fun u g => u.chargeMove (clusterOf g.core) 5 [(g.frame, 131072)]) s
def State.chargeCopy (s : State) : State :=
  [0, 1, 2, 3].foldl (fun u d => u.chargeMove (16 * d) 5 [(d * 2 ^ 38, 192 * 2 ^ 30)]) s
/-- R425: the first act stops starting and evicts every group; once everything in flight has ended, the next writes the caches back,
copies memory and resumes. Nothing happens without a registered region (R403) or a root port (R461), or while class 5 stalls (R447). -/
def execCheckpoint (s : State) : Out :=
  match s.ckptReg with
  | none => .next s
  | some (base, _) =>
    if s.owner.rootPorts.isEmpty || s.ckptStalled then .next s
    else if !s.ckptStop then .next { s.chargeFrames.evictAll with ckptStop := true }
    else if !s.quiet then .next s
    else
      let s := s.chargeCopy
      let t := s.cores.foldl (fun u e => u.flushL1 e.1 true) s
      let c : Ckpt :=
        { base, groups := t.groups, teams := t.teams, sheets := t.sheets, queues := t.queues, roots := t.roots
          bins := t.cores.map fun e => (e.1, e.2.bins), msgs := t.msgs, reserved := t.reserved, poolFree := t.poolFree
          poolNext := t.poolNext, freeing := t.freeing, allocs := t.allocs, fds := t.fds, snapUsed := t.snapUsed
          faultDescs := t.survs.map fun e => (e.1, (e.2.callq ++ e.2.heldq).filter fun d => d.type == 4) }
      .next ({ t with mem := t.mem.toPool base, bad := badToPool t.bad base, ckpt := some c, ckptStop := false }).resumeAll
/-- R426: memory, frames, queue slots and tables come back, with the descriptors of the faults that no shard had read; wear totals, keys,
the boot log and the seal counter stay. -/
def execCheckpointRestore (s : State) : Out :=
  match s.ckpt with
  | none => .next s
  | some c =>
    let core (k : Nat) (x : Core) : Core :=
      { x with rot := [], mstate := {}, mowner := none, mopenQ := [], tlb := [], reqs := [], reqQ := [], fwd := [], l1 := [], badL1 := []
               bins := getK c.bins [] k }
    let surv (k : Nat) (v : Surveyor) : Surveyor :=
      { v with callq := getK c.faultDescs [] k, heldq := [], ccJob := none, ccStat := 0, gctlJob := none, gctlStat := 0 }
    -- R426, R442: wear that has been charged since stays charged
    let team (t : Team) : Team := { t with wear := max t.wear (((s.team? t.id).map (·.wear)).getD 0) }
    let sheet (h : Sheet) : Sheet := { h with wear := max h.wear (((s.sheet? h.id).map (·.wear)).getD 0) }
    let s1 := c.faultDescs.foldl (fun u e => u.modSurv e.1 id) (c.bins.foldl (fun u e => u.modCore e.1 id) s)
    let t : State := { s1 with
      mem := s.mem.fromPool c.base, bad := badFromPool s.bad c.base, groups := c.groups, teams := c.teams.map team, sheets := c.sheets.map sheet
      queues := c.queues, roots := c.roots, msgs := c.msgs, reserved := c.reserved, poolFree := c.poolFree, poolNext := c.poolNext
      freeing := c.freeing, allocs := c.allocs, fds := c.fds, snapUsed := c.snapUsed
      cores := s1.cores.map fun (k, x) => (k, core k x), survs := s1.survs.map fun (k, v) => (k, surv k v)
      dies := s1.dies.map fun (k, d) => (k, { d with tlb := [], walks := [], l2 := [], rdc := [], marks := [] })
      puts := [], moves := [], commands := [], ckptStop := false, cur := none }
    .next t.resumeAll

/-! ### Re-runs (R428) -/

/-- The recorded page of a capture. -/
def CapEntry.page? : CapEntry → Option (Nat × List Byte)
  | .page pa d => some (pa, d)
  | _ => none
/-- R428: a sheet that has not started runs from the capture record of its queue: the recorded pages are restored. -/
def execCaptureRerun (queue sheet : Nat) (s : State) : Out :=
  match s.queue? queue, s.sheet? sheet with
  | some q, some h =>
    if h.queue != queue || h.st != .accepted || q.capRec.isEmpty then .next s
    else
      let s1 := (q.capRec.filterMap CapEntry.page?).foldl (fun u e => u.shardStore e.1 e.2) s
      .next (s1.modSheet sheet fun h => { h with rerun := some (q.capRec.filter fun e => e.page?.isNone) })
  | _, _ => .next s

end Sys2Proof.Machine
end

