-- ==== Sys2Proof/Machine/Wear.lean ====
section
/-!
DEFINITION. Wear, clock steps, lane repairs, retirement, scrubbing (R429 to R442, R496) and time budgets (R444 to R447).
-/
namespace Sys2Proof.Machine

/-! ### Indices and states (R431, R432, R436) -/

/-- R431. -/
def lifeIndex (total : Nat) : Nat := min 1023 (total * 1000 / Config.ratedLife)
/-- The lane halves with the losses and repairs that the next rewrite of `%lanemap` will show. -/
def Core.planned (c : Core) : List Half := c.nextHalves.getD c.halves
/-- R432, R436: both halves of a pipe are lost. -/
def Core.pairLost (c : Core) : Bool :=
  let lost (k : Nat) : Bool := (c.planned.getD k {}).lost
  (lost 0 && lost 1) || (lost 2 && lost 3)
/-- 24 h in units of 10 ns. -/
def day : Nat := 24 * 3600 * 100000000
/-- R432: the state that a report leads to; one row at most, a drain at once. -/
def nextWear (w : WearState) (li di : Nat) (drain : Bool) : WearState :=
  if w == .retired then .retired
  else if 1000 ≤ li || 70 ≤ di || drain then .drained
  else match w with
    | .nominal => if 900 ≤ li || 40 ≤ di then .step1 else .nominal
    | .step1 => if 950 ≤ li || 55 ≤ di then .step2 else if li < 900 && di ≤ 30 then .nominal else .step1
    | .step2 => if li < 950 && di ≤ 45 then .step1 else .step2
    | x => x
/-- R496: the state that a boot report sets. -/
def bootWear (retired : Bool) (li di : Nat) (drain : Bool) : WearState :=
  if retired || 1000 ≤ li || 70 ≤ di || drain then .retired
  else if 950 ≤ li || 55 ≤ di then .step2 else if 900 ≤ li || 40 ≤ di then .step1 else .nominal

/-- R436: a physical lane of a half fails: the first repairs it, a second loses it; a lane never fails twice. -/
def Half.fail (h : Half) (p : Nat) : Half :=
  if h.failed.contains p || h.used == some p then h
  else match h.used with
    | none => { h with used := some p, failed := h.failed ++ [p] }
    | some _ => { h with lost := true, failed := h.failed ++ [p] }
/-- The half of a lane (R437): PLO, PHI, CLO, CHI. -/
def laneHalf (l : LaneId) : Nat := (if l.checking then 2 else 0) + l.lane / 33 % 2
def Core.plan (c : Core) (hs : List Half) : Core := if hs == c.planned then c else { c with nextHalves := some hs }
def State.failLane (s : State) (l : LaneId) : State :=
  s.modCore l.core fun c => c.plan (c.planned.modify (laneHalf l) fun h => h.fail (l.lane % 33))

/-! ### Reports (R430 to R434, R441, R442) -/

/-- R442: the increment of a core divided among the teams by charge ck; the remainder is carried. -/
def State.divideWear (s : State) (core wu : Nat) : State :=
  let c := s.core core
  let total := wu + c.carry
  let all := (c.charges.map fun e => e.2.2).foldl (· + ·) 0
  let share (e : Nat × Nat × Nat) : Nat := if all == 0 then 0 else total * e.2.2 / all
  let given := (c.charges.map share).foldl (· + ·) 0
  let s1 := c.charges.foldl (fun u e =>
    (u.modTeam e.1 fun t => { t with wear := t.wear + share e }).modSheet e.2.1 fun h => { h with wear := h.wear + share e }) s
  s1.modCore core fun c => { c with carry := total - given, charges := [] }
/-- R442: Traverse and Surveyor ck of a team's rounds and calls. -/
def State.chargeWork (s : State) (core team ck : Nat) : State :=
  match s.team? team with
  | some t => s.modCore core (·.charge team t.sheet ck)
  | none => s
/-- One row of a report. -/
def State.wearRow (s : State) (e : WearEntry) : State :=
  match e.block with
  | .core k =>
    let s1 := s.modCore k fun c => { c with wearTotal := c.wearTotal + e.wu, li := lifeIndex (c.wearTotal + e.wu), di := min 255 e.di }
    s1.divideWear k e.wu
  | .half k h =>
    s.modCore k fun c =>
      let add (x : Half) : Half := { x with wear := x.wear + e.wu }
      let lose (x : Half) : Half := { x with wear := x.wear + e.wu, lost := x.lost || decide (1000 ≤ lifeIndex (x.wear + e.wu)) }
      let c1 := { c with halves := c.halves.modify h add, nextHalves := c.nextHalves.map fun hs => hs.modify h add }
      if 1000 ≤ lifeIndex (((c.halves.getD h {}).wear) + e.wu) && !(c.planned.getD h {}).lost then { c1 with nextHalves := some (c.planned.modify h lose) } else c1
  | .surv k => s.modSurv k fun v => { v with wearTotal := v.wearTotal + e.wu, di := min 255 e.di }
/-- The E_CHECKs of the last 24 h (R432). -/
def State.manyChecks (s : State) (c : Core) : Bool := decide (3 ≤ (c.checks.filter fun t => s.time < t + day).length)
/-- R434: migration commands for every team of a drained core; the destination is a core that can take the team. -/
def State.drainCommands (s : State) (core : Nat) : State :=
  let cmds := (s.teams.filter fun t => t.cores.contains core && !t.exited).filterMap fun t =>
    (s.bestUnit (((unitsAll false).filter fun d => d != core && s.takes t core d).map fun d => [d])).map fun u => moveCommand 96 (u.headD 0) core
  { s with commands := s.commands ++ cmds }
/-- R432, R434: a core moves after a report; a drained one has its marks promoted and its teams moved. -/
def State.moveCore (s : State) (core : Nat) : State :=
  let c := s.core core
  let w := nextWear c.wst c.li c.di (c.pairLost || s.manyChecks c)
  let s1 := s.modCore core fun c => { c with wst := w }
  -- a core that is retired may still have teams in frames, which are restored on other cores
  if w == .drained then (s1.releaseAt core 4 false).drainCommands core else if w == .retired then s1.drainCommands core else s1
/-- R441: the position of each enabled core by LI × 256 + DI. -/
def State.ranked (s : State) : State :=
  let on := (unitsAll false).filter fun c => (s.core c).wst != .retired
  let key (c : Nat) : Nat := (s.core c).li * 256 + (s.core c).di
  on.foldl (fun u c =>
    let r := (on.filter fun d => key d < key c || (key d == key c && d < c)).length
    u.modCore c fun x => { x with rank := r }) s

/-! ### Retirement (R432, R435) -/

/-- R435: the cluster's other cores are drained. -/
def clusterCores (cl : Nat) : List Nat := (List.range 4).map fun i => 16 * cl + i
def State.drainCluster (s : State) (cl : Nat) : State :=
  (clusterCores cl).foldl (fun u c =>
    if (u.core c).wst == .retired || (u.core c).wst == .drained then u
    else ((u.modCore c fun x => { x with wst := .drained }).releaseAt c 4 false).drainCommands c) s
/-- What the contour record and the fuses say of a core (R430, R437), and what it has been charged with since its last report (R442). -/
def Core.contour (c : Core) : Core :=
  { wearTotal := c.wearTotal, carry := c.carry, li := c.li, di := c.di, halves := c.planned, twoPass := c.twoPass, phalf := c.phalf
    chalf := c.chalf, wst := c.wst, cycle := c.cycle, charges := c.charges }
/-- R435: the die's spare can take duties over: it has none, and no block of it has drained or retired. -/
def State.spareFit (s : State) (d : Nat) : Bool :=
  let k := 16 * d + 14
  !(s.die d).spareUsed && (s.surv k).wst != .retired && (clusterCores (256 + k)).all fun c => (s.core c).wst != .drained && (s.core c).wst != .retired
/-- R435: a Surveyor takes over what another holds of its queues and mailbox ports, behind what it holds itself; the spare's takes the
other's numbers. -/
def Surveyor.takeOver (w v : Surveyor) (spare : Bool) : Surveyor :=
  let calls := w.callq ++ w.heldq ++ v.callq ++ v.heldq
  let port (p : Nat) : List Msg := w.mbox.getD p [] ++ w.mheld.getD p [] ++ v.mbox.getD p [] ++ v.mheld.getD p []
  { w with callq := calls.take Config.callq, heldq := calls.drop Config.callq
           mbox := (List.range 16).map fun p => (port p).take Config.mboxDepth
           mheld := (List.range 16).map fun p => (port p).drop Config.mboxDepth
           sent := w.sent ++ v.sent, passes := w.passes ++ v.passes, lcl := if spare then v.lcl else w.lcl, shard := if spare then v.shard else w.shard }
def Surveyor.quit (w : Surveyor) : Surveyor :=
  { w with lcl := 15, shard := 255, callq := [], heldq := [], mbox := List.replicate 16 [], mheld := List.replicate 16 [], sent := [], passes := [], wst := .retired }
/-- R435: the duties of a cluster whose cores have all retired pass to the die's spare, or, when it is used, its number is
withdrawn and its shard runs on the Surveyor of the die's least worn cluster. The totals of a block stay its own (R430). -/
def State.handOver (s : State) (cl : Nat) : State :=
  if 256 ≤ cl then s.modCluster cl fun x => { x with retired := true } else
  let d := cl / 16
  let old := s.physOf cl
  let v := s.surv old
  let pass (t : State) (dst : Nat) (spare : Bool) : State :=
    let named := ((List.range 14).map (16 * d + ·)).filter fun c => s.physOf c == old
    { (t.modSurv old Surveyor.quit).modSurv dst (·.takeOver v spare) with
      lcl := named.foldl (fun m c => setK m c dst) t.lcl
      otpRetired := if t.otpRetired.contains (.surv old) then t.otpRetired else t.otpRetired ++ [.surv old] }
  if s.spareFit d then
    let k := 16 * d + 14
    let swap (u : State) (i : Nat) : State :=
      -- bins and forwarding entries are the number's, not the block's
      let gone := u.core (16 * cl + i)
      (u.modCore (16 * cl + i) fun _ => { (u.core (4096 + 16 * k + i)).contour with bins := gone.bins, fwd := gone.fwd }).modCore
        (4096 + 16 * old + i) fun _ => gone.contour
    let s1 := ([0, 1, 2, 3].foldl swap (pass s k true)).modDie d fun x => { x with spareUsed := true }
    let mine := s.cluster cl
    ((s1.modCluster cl fun _ => s.cluster (256 + k)).modCluster (256 + old) fun _ => { mine with retired := true })
  else
    let others := ((List.range 14).map fun k => 16 * d + k).filter fun c => c != cl && !(s.cluster c).retired
    let best := others.foldl (fun (b : Option Nat) c => match b with
      | none => some c
      | some x => if (s.surv (s.physOf c)).wearTotal < (s.surv (s.physOf x)).wearTotal then some c else b) none
    let s1 := match best with
      | some c => pass s (s.physOf c) false
      | none => s
    let mine := s.cluster cl
    (s1.modCluster (256 + old) fun _ => { mine with retired := true }).modCluster cl fun x => { x with retired := true }
/-- R432, R435: a drained core with no context left is retired; its whole cluster follows. -/
def State.retireCore (s : State) (core : Nat) : State :=
  let cl := clusterOf core
  let s1 := { (s.releaseAt core 4 false).modCore core (fun c => { c with wst := .retired }) with otpRetired := s.otpRetired ++ [WearBlock.core (s.physCore core)] }
  let s2 := s1.drainCluster cl
  if (clusterCores cl).all fun c => (s2.core c).wst == .retired then s2.handOver cl else s2
def execCoreRetire (core : Nat) (s : State) : Out :=
  -- R434: a thread that waits in a bin of the core starts before the drain completes (log 21)
  if (s.core core).wst == .drained && !(s.groups.any fun g => g.core == core && g.st != .saved) && (s.core core).bins.isEmpty then
    .next (s.retireCore core) else .next s
/-- R432, R435: a Surveyor follows the same table; its retirement drains its cluster. -/
def State.moveSurv (s : State) (k : Nat) : State :=
  let v := s.surv k
  let w := nextWear v.wst (lifeIndex v.wearTotal) v.di false
  -- a hart that no record names has counted at the nominal clock until now (R432)
  let s1 := (s.modHart k id).modSurv k fun v => { v with wst := if w == .drained then .retired else w }
  if w == .drained then { s1.drainCluster (s.clusterAt k) with otpRetired := s1.otpRetired ++ [WearBlock.surv k] } else s1

/-- R430, R436: every 10 ms: totals, indices, the lanes that fail their tests, states, ranks, charges. -/
def execWearReport (entries : List WearEntry) (failed : List LaneId) (s : State) : Out :=
  if s.time < s.wearAt then .next s else
  let s1 := entries.foldl State.wearRow s
  let s2 := failed.foldl State.failLane s1
  let cores := (entries.filterMap fun e => match e.block with
    | .core c => some c
    | _ => none).eraseDups
  let survs := (entries.filterMap fun e => match e.block with
    | .surv k => some k
    | _ => none).eraseDups
  let s3 := { s2 with cores := s2.cores.map fun (k, c) => (k, { c with named := [] }) }
  let s4 := survs.foldl State.moveSurv (cores.foldl State.moveCore s3)
  .next { s4.ranked with wearAt := (s.time / 1000000 + 1) * 1000000 }

/-! ### Clock steps and `%lanemap` (R433, R437 to R439) -/

def WearState.step : WearState → Nat
  | .step1 => 1
  | .step2 => 2
  | _ => 0
/-- R433: the slowest step that a nominal or derated core of the cluster requires. -/
def State.wantStep (s : State) (cl : Nat) : Nat := ((clusterCores cl).map fun c => (s.core c).wst.step).foldl max 0
/-- Every subset of the cluster is at a chain break. -/
def State.atBreaks (s : State) (cl : Nat) : Bool := s.groups.all fun g => clusterOf g.core != cl || g.st != .resident || g.chainSub.isNone
def execClusterClockStep (cluster : Nat) (s : State) : Out :=
  if (s.cluster cluster).step == s.wantStep cluster || !s.atBreaks cluster then .next s else
  -- a core that no record names has counted at the nominal clock until now (R7)
  let s1 := (clusterCores cluster).foldl (fun u c => u.modCore c id) s
  .next (s1.modCluster cluster fun c => { c with step := s.wantStep cluster })
/-- R437 to R439: `%lanemap` and two-pass mode. -/
def Core.rewrite (c : Core) : Core :=
  let lost (k : Nat) : Bool := (c.planned.getD k {}).lost
  let two := lost 0 || lost 1 || lost 2 || lost 3
  { c with halves := c.planned, nextHalves := none, twoPass := two, phalf := two && lost 0, chalf := two && lost 2 }
/-- R439: every group of the core is pre-empted, the map is rewritten, the groups resume. -/
def execLanemapRewrite (core : Nat) (s : State) : Out :=
  if (s.core core).nextHalves.isNone then .next s
  else
    let gs := (s.groupsOn core).filter fun g => g.st == .resident || g.st == .parked
    let s1 := gs.foldl (fun u g => if g.droppable then u.dropGroup g else u.stopGroup g .preempt) s
    let s2 := s1.modCore core Core.rewrite
    let back (u : State) (g : Group) : State := match u.grp? g.id with
      | none => u
      | some h =>
        if h.st == .dropped then u.setGrp { h with st := .parked, parkedAt := (u.core core).cycle.toNat, seq := 0 }
        else (u.restoreGroup h).getD u
    .next (gs.foldl back s2)

/-! ### Scrubbing (R440) -/

/-- The bytes of a range copied to another place. -/
def Mem.move (m : Mem) (src dst n : Nat) : Mem := m.store dst (m.bulk src n)
/-- R329, R440: the page's leaves are cleared, under one ticket. A larger leaf is moved whole. -/
def State.movePage (s : State) (page new : Nat) : State :=
  let ms := s.mappers page
  let bits := (ms.map fun e => levelBits e.2.2.2).foldl max 16
  let base := page / 2 ^ bits * 2 ^ bits
  let clear (m : Mem) (e : Nat × Nat × Nat × Nat) : Mem := m.store e.2.1 (leBytes 8 0)
  let inv := ms.map fun e => (s.ticket, BitVec.ofNat 64 (e.1 * 2 ^ 41 + e.2.2.1 / 65536))
  let mv : PageMove := { base, dst := new, bits, ticket := s.ticket
                         leaves := ms.map fun (a, at_, va, lv) => (a, at_, va, lv, s.mem.loadNat at_ 8) }
  { s with mem := ms.foldl clear s.mem, invals := s.invals ++ inv, ticket := s.ticket + 1, moves := s.moves ++ [mv] }.ticketDone s.ticket
/-- A physical address inside the page, in the page's new place. -/
def PageMove.to_ (m : PageMove) (a : Nat) : Nat := if m.base ≤ a && a < m.base + 2 ^ m.bits then a - m.base + m.dst else a
/-- R440: the unmapping has been published: the page is copied, the words of its bad lines are marked in the copy, and its leaves name
the copy under another ticket. What a sheet has armed and kept of the page goes with it (R418). -/
def State.landMove (s : State) (m : PageMove) : State :=
  let n := 2 ^ m.bits
  let lines := ((s.bad.filter fun w => m.base ≤ 4 * w && 4 * w < m.base + n).map fun w => 4 * w / 128).eraseDups
  let poison := lines.flatMap fun l => (List.range 32).map fun i => m.to_ (l * 128) / 4 + i
  let relink (k : Mem) (e : Nat × Nat × Nat × Nat × Nat) : Mem :=
    if k.loadNat e.2.1 8 == 0 then k.store e.2.1 (leBytes 8 (e.2.2.2.2 % 256 + m.dst)) else k
  let copy (k : Mem) : Mem := k.move m.base m.dst n
  let take (h : Sheet) : Sheet := { h with
    armed := h.armed.map m.to_, snaps := h.snaps.map (fun e => (m.to_ e.1, e.2)), unsnapped := h.unsnapped.map m.to_
    fresh := h.fresh.map m.to_, roMem := copy h.roMem }
  let t : State := { s with
    mem := m.leaves.foldl relink (copy s.mem), bad := (s.bad ++ poison).eraseDups, ticket := s.ticket + 1
    moves := s.moves.filter fun x => x.ticket != m.ticket
    sheets := s.sheets.map take
    groups := s.groups.map fun g => { g with roMem := g.roMem.map copy } }
  t.ticketDone s.ticket
/-- After a step: pages whose unmapping every die has published (R329, R440). -/
def State.finishMoves (s : State) : State :=
  s.moves.foldl (fun u m => if (List.range 4).all fun d => m.ticket ≤ (u.die d).cur then u.landMove m else u) s
/-- R440: a scrub finds an uncorrectable word in a page, or a corrected error on a channel; a channel with more than 64 of them in
24 h is replaced by its stack's spare: the page is unmapped, copied and mapped again at its address, which the spare serves from then on (log
33). -/
def execHbmScrub (page newPage channel : Nat) (s : State) : Out :=
  let p := page / 65536 * 65536
  if s.badRead p 65536 then .next (s.movePage p newPage)
  else
    let es := (s.corrected.filter fun e => s.time < e.2 + day) ++ [(channel, s.time)]
    if 64 < (es.filter fun e => e.1 == channel).length then
      .next ({ s with corrected := es.filter (fun e => e.1 != channel), channels := s.channels ++ [channel] }.movePage p p)
    else .next { s with corrected := es }

/-! ### Budgets (R444 to R447) -/

/-- Lanes of a cluster that wait for a class's budget of a resource. -/
def Wait.inBudget (cls res : Nat) : Wait → Bool
  | .budget c r => c == cls && r == res
  | _ => false
def Wait.anyBudget : Wait → Bool
  | .budget _ _ => true
  | _ => false
/-- R444: the cluster's clock has begun another period of 8,192 ck. -/
def State.periodOf (s : State) (cluster : Nat) : Nat := ((clusterCores cluster).map fun c => (s.core c).cycle.toNat / 8192).foldl max 0
/-- R446, R467: PWRCAP as it was written last, halved while the coolant's inlet is above 45 °C. -/
def State.capOf (s : State) (c : Cluster) : Nat := if s.coolant then c.nextCap / 2 else c.nextCap
/-- R332: MEM moves a page between HBM and the pool; a page on its way is left alone. -/
def State.memMoves (s : State) (page new : Nat) : State :=
  let p := page / 65536 * 65536
  if ((isHbm p && paPool new) || (paPool p && isHbm new)) && paMapped s.pool new && new % 65536 == 0 && s.moves.isEmpty then s.movePage p new else s
/-- R446, R447: a period begins: written shares take effect, nothing is used, and every request that waits goes on. -/
def execBudgetPeriod (cluster : Nat) (s : State) : Out :=
  if s.periodOf cluster ≤ (s.cluster cluster).period then .next s
  else
    let turn (e : Budget × Budget) : Budget := { e.2 with used := [0, 0, 0], exh := e.1.exh }
    let s1 := s.modCluster cluster fun c =>
      { c with period := s.periodOf cluster, budgets := (c.budgets.zip c.next).map turn, pwrcap := s.capOf c }
    .next ((s.groups.filter fun g => clusterOf g.core == cluster && g.waits Wait.anyBudget).foldl
      (fun u g => u.updGroup g.id fun g => g.again Wait.anyBudget) s1)
/-- R447: a class with SPILL takes what no class within its allowance waits for. -/
def execBudgetSpillGrant (gid : Nat) (s : State) : Out :=
  match (s.grp? gid).bind fun g => g.budgetWait.map fun w => (g, w) with
  | none => .next s
  | some (g, cls, res) =>
    if s.spillFree (clusterOf g.core) cls res then .next (s.updGroup gid fun g => { g.again (Wait.inBudget cls res) with spill := true }) else .next s

end Sys2Proof.Machine
end

