-- ==== Sys2Proof/Machine/Trust.lean ====
section
/-!
DEFINITION. The root of trust (R448 to R453, R460), starting without a host (R461, R466, R496), protection (R467), writes of
mapped registers (R8, R386, R387, R402, R446), uncorrectable errors (R421, R491), the host's accesses.
-/
namespace Sys2Proof.Machine

/-! ### Images and the boot log (R449 to R451) -/

/-- R449: what both signatures cover. -/
def imageMsg (i : Image) : List Byte := leBytes 8 i.version ++ i.body
/-- R449: the stage below runs an image only so; a part without an owner needs the maker's signature alone. -/
def Trust.verifies (t : Trust) (n : Nat) (i : Image) : Bool :=
  Config.sigOk 2 0 (imageMsg i) i.makerSig && (t.epoch == 0 || Config.sigOk t.ownerAlg t.ownerKey (imageMsg i) i.ownerSig) &&
  decide (t.rollback.getD n 0 ≤ i.version)
/-- R451: the copy of a stage's image that runs. -/
def Trust.image (t : Trust) (n : Nat) : Option Image :=
  match (t.primary.getD n none).filter (t.verifies n) with
  | some i => some i
  | none => (t.backup.getD n none).filter (t.verifies n)
/-- R450: L₀. -/
def logZero : List Byte := List.replicate 48 0#8
/-- R450: the log extended by the image of stage n. -/
def logNext (l : List Byte) (i : Image) (n : Nat) : List Byte := sha384 (l ++ sha384 i.body ++ leBytes 1 n)
/-- R449 to R451: stages 1 to 3 in turn, from a stage on; recovery mode where both copies fail. -/
def Trust.bootFrom (t : Trust) : Nat → Nat → Trust
  | 0, _ => t
  | k + 1, n => match t.image n with
    | none => { t with recovery := true }
    | some i => { t with log := t.log ++ [logNext (t.log.getLastD logZero) i n] }.bootFrom k (n + 1)
/-- R448: what a read of an item that the table marks readable gives; nothing for an empty slot. -/
def Trust.readable (t : Trust) : TrustItem → List Byte
  | .makerFingerprint => Config.makerFingerprint 0
  | .certificate => Config.deviceCert 0
  | .epoch => leBytes 1 t.epoch
  | .rollback n => leBytes 8 (t.rollback.getD n 0)
  | .ownerKey => if t.epoch == 0 then [] else Config.publicKey t.ownerKey
  | .sealKey n => match t.slots.find? fun e => e.1 == n with
    | some e => Config.sealPublic e.2.2
    | none => []
  | .sealCounter => leBytes 8 t.sealNext
/-- R449, R451: the survey kernel serves the host: not in recovery mode, and of a part without an owner only the claim. -/
def State.kernelServes (s : State) : Bool := !s.trust.recovery && s.trust.epoch != 0
def Trust.boot (t : Trust) : Trust := { t with log := [logZero], recovery := false }.bootFrom 3 1

/-! ### Power-on reset (R466, R496) -/

/-- R430: a retirement is written to the one-time-programmable memory. -/
def State.otp (s : State) (b : WearBlock) (w : WearState) : State :=
  if w == .retired && !s.otpRetired.contains b then { s with otpRetired := s.otpRetired ++ [b] } else s
/-- R496: boot report of a core; the cores of a withdrawn cluster stay retired (R435). -/
def State.bootCore (s : State) (c : Nat) : State :=
  let b := WearBlock.core (s.physCore c)
  let x := s.core c
  let di := min 255 (Config.bootDrift (s.free + s.physCore c))
  let li := lifeIndex x.wearTotal
  let w := bootWear (s.otpRetired.contains b || (s.cluster (clusterOf c)).retired) li di x.pairLost
  (s.modCore c fun x => { x with li, di, wst := w }).otp b w
def State.bootSurv (s : State) (k : Nat) : State :=
  let v := s.surv k
  let di := min 255 (Config.bootDrift (s.free + 1024 + k))
  let w := bootWear (s.otpRetired.contains (.surv k)) (lifeIndex v.wearTotal) di false
  ((s.modHart k id).modSurv k fun v => { v with di, wst := w }).otp (.surv k) w
/-- R496: a block retired by its boot report retires its cluster (R435). -/
def State.bootRetire (s : State) (cl : Nat) : State :=
  let dead := ((clusterCores cl).any fun c => (s.core c).wst == .retired) || (s.surv (s.physOf cl)).wst == .retired
  if !dead || (s.cluster cl).retired then s
  else ((clusterCores cl).foldl (fun u c => (u.modCore c fun x => { x with wst := .retired }).otp (.core (u.physCore c)) .retired) s).handOver cl
/-- The numbers of the part's clusters: logical ones, and physical ones without duties. -/
def State.allClusters (s : State) : List Nat :=
  (List.range 4).flatMap fun d => (List.range 14).map (16 * d + ·) ++
    ((List.range 15).filter fun p => (s.surv (16 * d + p)).lcl == 15).map fun p => 256 + 16 * d + p
/-- A queue that the survey kernel creates (R466). -/
def State.bootQueue (s : State) (host : Bool) (q : QueueReq) : State :=
  if (s.queue? q.num).isSome || 4096 ≤ q.slot || s.queues.any (fun x => x.slot == some q.slot) || q.num < 4096 || 2 ^ 32 ≤ q.num || !s.subPageOk q.asn q.page then s
  else { s with queues := s.queues ++ [{ num := q.num, page := some q.page, slot := some q.slot, asn := q.asn, proc := q.asn, ceiling := min 3 q.ceiling, quota := q.quota, host }] }
/-- What lasts without power: the contour record and the fuses, the flash, the drives, the pool and the host's memory. -/
def State.cleared (s : State) : State :=
  let core (c : Core) : Core :=
    let hs := c.planned
    { wearTotal := c.wearTotal, carry := c.carry, li := c.li, halves := hs : Core }
  let surv (k : Nat) (v : Surveyor) : Surveyor := { (Surveyor.init k) with lcl := v.lcl, shard := v.shard, wearTotal := v.wearTotal }
  let die (d : Die) : Die := { spareUsed := d.spareUsed : Die }
  { State.reset with
    agenda := s.agenda, free := s.free, rr := s.rr, fresh := s.fresh
    mem := s.mem.filter (fun c => !isHbm c.1), files := s.files, owner := s.owner, otpRetired := s.otpRetired, lcl := s.lcl
    cores := s.cores.map fun (k, c) => (k, core c), survs := s.survs.map fun (k, v) => (k, surv k v)
    dies := s.dies.map fun (k, d) => (k, die d), clusters := (s.clusters.filter fun e => e.2.retired).map fun e => (e.1, { Cluster.init with retired := true })
    channels := s.channels, pool := s.pool, moduleNo := s.moduleNo, ckpt := s.ckpt
    trust := { s.trust with log := [logZero], quote := [], recovery := false } }
/-- R449, R450, R466, R496: stages 0 to 3, the boot report, the queues and first sheets of the owner's configuration. In recovery
mode, and without an owner, no sheet runs (R449, R451). -/
def State.boot (s : State) : State :=
  let t := s.trust.boot
  let s1 := { s with trust := t }
  if t.recovery then { s1 with booted := true, accepting := false, closing := true }
  else
    let cls := s1.allClusters
    let c := (cls.flatMap clusterCores).foldl State.bootCore s1
    let v := ((List.range 4).flatMap fun d => (List.range 15).map fun p => 16 * d + p).foldl State.bootSurv c
    -- a spare without duties first, so that a retired one takes none over
    let r := (cls.reverse.foldl State.bootRetire v).ranked
    let m := (cls.flatMap clusterCores).foldl (fun u k => u.modCore k Core.rewrite) { r with free := r.free + 2048 }
    let w := cls.foldl (fun u c => u.modCluster c fun x => { x with step := u.wantStep c }) m
    if t.epoch == 0 then { w with booted := true, accepting := false, closing := true }
    else
      let q := w.owner.bootQueues.foldl (fun u x => u.bootQueue false x) { w with booted := true, accepting := true, closing := false }
      { q with bootPending := q.owner.bootSheets }
/-- R466: the survey kernel submits the next first sheet, once what its record names is in memory: the check gives no SUB_FAULT
any more (log 9). -/
def State.bootSubmit (s : State) : State :=
  match s.bootPending with
  | [] => s
  | (qn, r) :: rest => match s.queue? qn with
    | none => { s with bootPending := rest }
    | some q => match s.accepting, s.checkSub q.asn (sheetRecord r q.asn) false with
      | false, _ => s
      | true, .error 5 => s
      | true, _ => { s with bootPending := rest }.answerStore qn 0 true r
/-- R466: the survey kernel maps pages of a process and fills them: code, footprint records and data of its sheets (log 9). -/
def State.kernelMap (s : State) (asn : Nat) (maps : List MapReq) (va : Nat) (data : List Byte) : State :=
  if !s.booted || !s.kernelServes then s
  else match s.mapServed asn maps with
    | none => s
    | some t => match t.asnSegs asn va data.length with
      | some ss => (splitSegs ss data).foldl (fun u e => u.shardStore e.1 e.2) t
      | none => t
/-- R341, R461: a host reads a submission page, which BAR 0 of an endpoint port maps. -/
def State.barRead (s : State) (queue off len : Nat) : State :=
  match s.queue? queue with
  | some q => if off + len ≤ 65536 then { s with hostRead := q.pageBytes off len } else s
  | none => s
/-- R460: after a power loss the numbering goes on above every value that may have been used. -/
def State.powerLoss (s : State) : State :=
  { s.cleared with trust := { s.cleared.trust with sealNext := s.trust.sealNext + Config.sealGap s.free }, free := s.free + 1 }
def execPowerOnReset (s : State) : Out := .next { s.powerLoss.boot with undervolt := false }

/-! ### Quotes, ownership, seal keys (R450, R452, R453) -/

/-- R450: the chain, the caller's nonce and the epoch, signed by the device identity key. -/
def execQuoteRequest (nonce : List Byte) (s : State) : Out :=
  if nonce.length != 32 || s.trust.recovery then .next s
  else
    let m := s.trust.log.flatten ++ nonce ++ leBytes 1 s.trust.epoch
    .next { s with trust := { s.trust with quote := m ++ Config.deviceSign m s.free }, free := s.free + 1 }
/-- R452: the statement that is signed: device identity fingerprint, epoch, nonce, new owner key. -/
def transferMsg (s : State) (key : Nat) : List Byte :=
  sha384 (Config.deviceKey 0) ++ leBytes 1 s.trust.epoch ++ padTo 32 (Config.nonce s.free) ++ Config.publicKey key
/-- R452: CMD stops accepting; once every sheet has ended, TRUST verifies, and either nothing changes or step 5 resets the part. -/
def execOwnershipTransfer (alg key : Nat) (sig : List Byte) (s : State) : Out :=
  if s.trust.recovery then .next s
  else if !s.sheets.isEmpty then .next { s with closing := true }
  else
    let t := s.trust
    let ok := if t.epoch == 0 then Config.sigOk alg key (transferMsg s key) sig else Config.sigOk t.ownerAlg t.ownerKey (transferMsg s key) sig
    if !ok || 64 ≤ t.epoch || !(alg == 1 || alg == 2) then .next { s with closing := t.recovery || t.epoch == 0, free := s.free + 1 }
    else
      let c := { s with free := s.free + 1 }.cleared
      .next { c with trust := { c.trust with slots := [], epoch := t.epoch + 1, ownerAlg := alg, ownerKey := key } }.boot
/-- R453: a TRUST command signed with the owner key: its operation, slot and algorithm (log 8). -/
def keyCommand (op slot alg : Nat) : List Byte := [BitVec.ofNat 8 op, BitVec.ofNat 8 slot, BitVec.ofNat 8 alg]
def Trust.ownerSigned (t : Trust) (m sig : List Byte) : Bool := t.epoch != 0 && Config.sigOk t.ownerAlg t.ownerKey m sig
/-- R453: an empty slot takes a new key pair. -/
def execSealKeyCreate (slot alg : Nat) (sig : List Byte) (s : State) : Out :=
  let t := s.trust
  if t.recovery || 16 ≤ slot || !(alg == 1 || alg == 2) || t.slots.any (fun e => e.1 == slot) || !t.ownerSigned (keyCommand 1 slot alg) sig then .next s
  else .next { s with trust := { t with slots := t.slots ++ [(slot, alg, Config.freshKey t.keyCount)], keyCount := t.keyCount + 1 } }
def execSealKeyDestroy (slot : Nat) (sig : List Byte) (s : State) : Out :=
  if s.trust.recovery || !s.trust.ownerSigned (keyCommand 2 slot 0) sig then .next s
  else .next { s with trust := { s.trust with slots := s.trust.slots.filter fun e => e.1 != slot } }

/-! ### Protection (R467) -/

/-- R467: at 115 °C the hub stops every cluster clock and ERR posts an event; below 100 °C sheets resume. -/
def execThermalTrip (celsius : Nat) (s : State) : Out :=
  .next (if 115 ≤ celsius && !s.thermal then { s with thermal := true, thermalEvents := s.thermalEvents + 1 } else s)
def execThermalResume (celsius : Nat) (s : State) : Out := .next (if celsius < 100 then { s with thermal := false } else s)
/-- R446, R467: an inlet above 45 °C halves the PWRCAP that each cluster's next period takes; when it has fallen, PWRCAP is what was
written. -/
def execCoolantOvertemp (celsius : Nat) (s : State) : Out := .next { s with coolant := decide (45 < celsius) }
/-- R467: undervoltage holds the part in reset; its end is a power-on reset. -/
def execUndervoltage (on : Nat) (s : State) : Out :=
  .next (if on != 0 then { s.powerLoss with undervolt := true, accepting := false }
    else if s.undervolt then { s.powerLoss.boot with undervolt := false } else s)

/-! ### Mapped registers (R8, R386, R387, R402, R446) -/

/-- The hub's mapped registers begin here (R321). -/
def hubBase : Nat := 15 * 2 ^ 48
/-- R387, R414: a write in a Surveyor's register block; what the table marks RO, and what it does not list, keeps its value. What stands in
reserved bits of a register is ignored, and the write is performed: the rules give no response to it (log 25). -/
def State.survWrite (s : State) (sv off : Nat) (w : DWord) : State :=
  match off with
  | 0x010 => s.modSurv sv fun v => { v with replyMask := w }
  | 0x018 => s.soon (.replyPost sv w)
  | 0x020 => s.modSurv sv fun v => { v with txDst := lowField w 0 4 + 256 * lowField w 8 6 }
  | 0x028 => s.modSurv sv fun v => { v with txData := w }
  | 0x030 => s.soon (.mboxTxAux sv w)
  | 0x148 => s.modSurv sv fun v => { v with ccSrc := w }
  | 0x150 => s.modSurv sv fun v => { v with ccDst := w }
  | 0x158 => s.soon (if w.getLsbD 32 then .callCopyOut sv w else .callCopyIn sv w)
  | 0x168 => s.soon (.sverr sv w)
  | 0x180 => s.soon (match lowField w 60 4 with
    | 1 => .preempt sv w
    | 2 => .evict sv w
    | 3 => .resume sv w
    | 4 => .retry sv w
    | 5 => .next sv w
    | 6 => .step sv w
    | 7 => .kill sv w
    | 8 => .halt sv w
    | _ => .preempt sv 0xFFFFFFFFFFFFF000#64)
  | _ => s
/-- R446: a share or PWRCAP for the cluster's next period; the block is that of a physical cluster, a spare's too. -/
def State.budgetWrite (s : State) (k reg : Nat) (w : DWord) : State :=
  if !onPart k then s
  else s.modCluster (s.clusterAt k) fun c =>
    if reg == 7 then { c with nextCap := w.toNat }
    else { c with next := c.next.modify reg fun b =>
      { b with noc := lowField w 0 8, hbm := lowField w 8 8, pwr := lowField w 16 8, spill := w.getLsbD 24 } }
/-- R446: what BUDSHARE of a class, or PWRCAP at 7, reads: the value written last, of PWRCAP the half while R467 halves it. -/
def State.budgetRead (s : State) (k reg : Nat) : DWord :=
  let c := s.cluster (s.clusterAt k)
  if !onPart k then 0#64
  else if reg == 7 then BitVec.ofNat 64 (s.capOf c)
  else match c.next[reg]? with
    | some b => BitVec.ofNat 64 (b.noc + b.hbm * 2 ^ 8 + b.pwr * 2 ^ 16 + (if b.spill then 2 ^ 24 else 0))
    | none => 0#64
/-- R321, R328, R387, R402, R446: what an aligned read at a hub offset gives; WO registers and offsets at which the chapters give no
register read zero. What the read of XGEN_TICKET, of a POP or of a STAT changes is an event of its own. -/
def State.hubRead (s : State) (off : Nat) : DWord :=
  if off == 0x2000 then BitVec.ofNat 64 s.ticket
  else if 0x2018 ≤ off && off < 0x2038 then BitVec.ofNat 64 (s.die ((off - 0x2018) / 8)).cur
  else if off == 0x2100 then s.utcBase
  else if off == 0x2108 then (if s.utcValid then 1#64 else 0#64)
  else if 0x30000 ≤ off && off < 0x31000 then s.budgetRead ((off - 0x30000) / 64) (off / 8 % 8)
  else if 0x100000 ≤ off && off < 0x500000 && onPart ((off - 0x100000) / 65536) then s.survRead ((off - 0x100000) / 65536) (off % 65536)
  else 0#64
/-- R387: the Surveyor whose register block holds a hub offset. -/
def blockAt (off : Nat) : Option Nat :=
  if 0x100000 ≤ off && off < 0x500000 && onPart ((off - 0x100000) / 65536) then some ((off - 0x100000) / 65536) else none
/-- R387: an access that is no aligned 8-byte access is ignored, and sets BADACC of the block that it meets. -/
def State.badAccess (s : State) (off : Nat) : State :=
  match blockAt off with
  | some k => s.svErr k 3
  | none => s
/-- An aligned 8-byte write of an agent at a hub offset. -/
def State.hubWrite (s : State) (agent off : Nat) (w : DWord) : State :=
  if off == 0x2008 then s.soon (.xgenInval agent w)
  else if off == 0x2010 then s.soon (.xgenDone agent w)
  else if off == 0x2100 then { s with utcBase := w }
  else if off == 0x2108 then { s with utcValid := w.getLsbD 0 }
  else if 0x30000 ≤ off && off < 0x31000 then (if 64 ≤ agent then s.budgetWrite ((off - 0x30000) / 64) (off / 8 % 8) w else s)
  else if 0x500000 ≤ off && off < 0x502000 then s.soon (.nvmeDoorbell agent ((off - 0x500000) / 8) w)
  else match blockAt off with
    | some k => s.survWrite k (off % 65536) w
    | none => s
/-- R363, R387: a Compass core's mailbox has the registers of R387 under their offsets there; the spec gives their block no hub
address (log 25). -/
def State.compassWrite (s : State) (agent off : Nat) (w : DWord) : State :=
  if off == 0x020 || off == 0x028 || off == 0x030 then s.survWrite agent off w else s
/-- A store of a hart's at physical addresses (R321, R387): registers of the hub, memory, or an access fault, none. -/
def State.busWrite (s : State) (agent pa : Nat) (bs : List Byte) : Option State :=
  if hubBase ≤ pa && pa < hubBase + 2 ^ 48 then
    let off := pa - hubBase
    some (if bs.length == 8 && off % 8 == 0 then s.hubWrite agent off (BitVec.ofNat 64 (leNat bs)) else s.badAccess off)
  else if pa + bs.length ≤ 2 ^ 52 && paMapped s.pool pa && paMapped s.pool (pa + bs.length - 1) then some (s.shardStore pa bs)
  else none
/-- An 8-byte write by an agent, at a physical address: a Surveyor, 16 × die + physical cluster, or from 64 up Compass core n - 64; at
an address below 4,096 a CSR of that Surveyor, or a register of that Compass core's mailbox. What no region of R321 holds is a store
access fault of the agent's hart (R384). -/
def execRegisterWrite (agent addr : Nat) (w : DWord) (s : State) : Out :=
  if !isAgent agent then .next s
  else if addr < 4096 then .next (if agent < 64 then s.csrWrite agent addr w else s.compassWrite agent addr w)
  else match s.busWrite agent addr (leBytes 8 w.toNat) with
    | some t => .next t
    | none => .next (s.modHart agent fun h => h.except 7 (BitVec.ofNat 64 addr))

/-! ### Errors and the host (R421, R451, R461, R466, R491) -/

/-- R421, R491: a word's check bits no longer hold. -/
def execUncorrectableError (place : BadPlace) (s : State) : Out :=
  .next (match place with
    | .mem pa => { s with bad := if s.bad.contains (pa / 4) then s.bad else s.bad ++ [pa / 4] }
    | .vreg _ gid r L => s.modGrp gid fun g => { g with badV := (g.badV.filter (· != (r, L))) ++ [(r, L)] }
    | .sreg _ gid r => s.modGrp gid fun g => { g with badS := (g.badS.filter (· != r)) ++ [r] }
    | .tile c w => s.modCore c fun k => { k with mstate := { k.mstate with badT := (k.mstate.badT.filter (· != w)) ++ [w] } }
    | .acc c w => s.modCore c fun k => { k with mstate := { k.mstate with badA := (k.mstate.badA.filter (· != w)) ++ [w] } }
    | .l1 c w => s.modCore c fun k => { k with badL1 := (k.badL1.filter (· != w)) ++ [w] }
    | .scratch _ team a => s.modTeam team fun t => { t with bad := (t.bad.filter (· != a / 4)) ++ [a / 4] })
/-- R461: a host reads or writes HBM over CXL.mem through a port in the endpoint role; in recovery mode a port has no such access (R451). -/
def execHostCxlMemAccess (port pa len write : Nat) (data : List Byte) (s : State) : Out :=
  if s.trust.recovery || 8 ≤ port || s.owner.rootPorts.contains port || !isHbm pa || !isHbm (pa + len - 1) then .next s
  else .next (if write == 0 then { s with hostRead := s.mem.bulk pa len } else s.shardStore pa (data.take len))
/-- R451: in recovery mode the one function on port 0 takes new images, and nothing else: the images of this event come through it. -/
def execRecoveryImageWrite (stage copy : Nat) (image : Image) (s : State) : Out :=
  let t := s.trust
  if !t.recovery || stage < 1 || 3 < stage then .next s
  else if copy == 0 then .next { s with trust := { t with primary := t.primary.set stage (some image) } }
  else .next { s with trust := { t with backup := t.backup.set stage (some image) } }
/-- R466: a host on an endpoint port is served by the queues that the survey kernel creates for it; a part without an owner
creates none (R449). -/
def execHostAppears (port : Nat) (queues : List QueueReq) (s : State) : Out :=
  if 8 ≤ port || s.owner.rootPorts.contains port || !s.kernelServes then .next s
  else .next (queues.foldl (fun u q => u.bootQueue true q) s)

end Sys2Proof.Machine
end

