-- ==== Sys2Proof/Machine/Dispatch.lean ====
section
/-!
DEFINITION. The dispatch: one arm for each row of the opcode table.
-/
namespace Sys2Proof.Machine

def exec (i : Instr) (s : State) : Host.Outcome State Fault Refusal :=
  match i with
  | .bra o => Sys2Proof.Machine.execBra o s
  | .bri o => Sys2Proof.Machine.execBri o s
  | .call o => Sys2Proof.Machine.execCall o s
  | .calli o => Sys2Proof.Machine.execCalli o s
  | .ret o => Sys2Proof.Machine.execRet o s
  | .rcv o => Sys2Proof.Machine.execRcv o s
  | .exit o => Sys2Proof.Machine.execExit o s
  | .waypt o => Sys2Proof.Machine.execWaypt o s
  | .tbar o => Sys2Proof.Machine.execTbar o s
  | .spawn o => Sys2Proof.Machine.execSpawn o s
  | .binfl o => Sys2Proof.Machine.execBinfl o s
  | .yield o => Sys2Proof.Machine.execYield o s
  | .nap o => Sys2Proof.Machine.execNap o s
  | .elect o => Sys2Proof.Machine.execElect o s
  | .iadd o => Sys2Proof.Machine.execIadd o s
  | .isub o => Sys2Proof.Machine.execIsub o s
  | .iaddc o => Sys2Proof.Machine.execIaddc o s
  | .imul o => Sys2Proof.Machine.execImul o s
  | .imulh o => Sys2Proof.Machine.execImulh o s
  | .imad o => Sys2Proof.Machine.execImad o s
  | .imadw o => Sys2Proof.Machine.execImadw o s
  | .idiv o => Sys2Proof.Machine.execIdiv o s
  | .irem o => Sys2Proof.Machine.execIrem o s
  | .ishl o => Sys2Proof.Machine.execIshl o s
  | .ishr o => Sys2Proof.Machine.execIshr o s
  | .isra o => Sys2Proof.Machine.execIsra o s
  | .irot o => Sys2Proof.Machine.execIrot o s
  | .logic o => Sys2Proof.Machine.execLogic o s
  | .bfx o => Sys2Proof.Machine.execBfx o s
  | .bfi o => Sys2Proof.Machine.execBfi o s
  | .popc o => Sys2Proof.Machine.execPopc o s
  | .clz o => Sys2Proof.Machine.execClz o s
  | .ctz o => Sys2Proof.Machine.execCtz o s
  | .brev o => Sys2Proof.Machine.execBrev o s
  | .imin o => Sys2Proof.Machine.execImin o s
  | .imax o => Sys2Proof.Machine.execImax o s
  | .iabs o => Sys2Proof.Machine.execIabs o s
  | .icmp o => Sys2Proof.Machine.execIcmp o s
  | .dot4 o => Sys2Proof.Machine.execDot4 o s
  | .dot8 o => Sys2Proof.Machine.execDot8 o s
  | .mov o => Sys2Proof.Machine.execMov o s
  | .movi o => Sys2Proof.Machine.execMovi o s
  | .movs o => Sys2Proof.Machine.execMovs o s
  | .sel o => Sys2Proof.Machine.execSel o s
  | .plog o => Sys2Proof.Machine.execPlog o s
  | .pmov o => Sys2Proof.Machine.execPmov o s
  | .fadd o => Sys2Proof.Machine.execFadd o s
  | .fsub o => Sys2Proof.Machine.execFsub o s
  | .fmul o => Sys2Proof.Machine.execFmul o s
  | .fma o => Sys2Proof.Machine.execFma o s
  | .fmin o => Sys2Proof.Machine.execFmin o s
  | .fmax o => Sys2Proof.Machine.execFmax o s
  | .fcmp o => Sys2Proof.Machine.execFcmp o s
  | .fclass o => Sys2Proof.Machine.execFclass o s
  | .frcp o => Sys2Proof.Machine.execFrcp o s
  | .frsq o => Sys2Proof.Machine.execFrsq o s
  | .fsqrt o => Sys2Proof.Machine.execFsqrt o s
  | .fdiv o => Sys2Proof.Machine.execFdiv o s
  | .fexp2 o => Sys2Proof.Machine.execFexp2 o s
  | .flog2 o => Sys2Proof.Machine.execFlog2 o s
  | .fsin o => Sys2Proof.Machine.execFsin o s
  | .fcos o => Sys2Proof.Machine.execFcos o s
  | .hadd2 o => Sys2Proof.Machine.execHadd2 o s
  | .hmul2 o => Sys2Proof.Machine.execHmul2 o s
  | .hfma2 o => Sys2Proof.Machine.execHfma2 o s
  | .dadd o => Sys2Proof.Machine.execDadd o s
  | .dmul o => Sys2Proof.Machine.execDmul o s
  | .dfma o => Sys2Proof.Machine.execDfma o s
  | .cvt o => Sys2Proof.Machine.execCvt o s
  | .pack o => Sys2Proof.Machine.execPack o s
  | .unpack o => Sys2Proof.Machine.execUnpack o s
  | .shfl o => Sys2Proof.Machine.execShfl o s
  | .lred o => Sys2Proof.Machine.execLred o s
  | .lscan o => Sys2Proof.Machine.execLscan o s
  | .vote o => Sys2Proof.Machine.execVote o s
  | .ballot o => Sys2Proof.Machine.execBallot o s
  | .bcast o => Sys2Proof.Machine.execBcast o s
  | .ld o => Sys2Proof.Machine.execLd o s
  | .st o => Sys2Proof.Machine.execSt o s
  | .ldro o => Sys2Proof.Machine.execLdro o s
  | .rosync o => Sys2Proof.Machine.execRosync o s
  | .atom o => Sys2Proof.Machine.execAtom o s
  | .cas o => Sys2Proof.Machine.execCas o s
  | .fence o => Sys2Proof.Machine.execFence o s
  | .pref o => Sys2Proof.Machine.execPref o s
  | .put o => Sys2Proof.Machine.execPut o s
  | .puts o => Sys2Proof.Machine.execPuts o s
  | .winwait o => Sys2Proof.Machine.execWinwait o s
  | .winrd o => Sys2Proof.Machine.execWinrd o s
  | .xqry o => Sys2Proof.Machine.execXqry o s
  | .sld o => Sys2Proof.Machine.execSld o s
  | .sst o => Sys2Proof.Machine.execSst o s
  | .satom o => Sys2Proof.Machine.execSatom o s
  | .cstart o => Sys2Proof.Machine.execCstart o s
  | .stage o => Sys2Proof.Machine.execStage o s
  | .cwait o => Sys2Proof.Machine.execCwait o s
  | .ctest o => Sys2Proof.Machine.execCtest o s
  | .cpy o => Sys2Proof.Machine.execCpy o s
  | .send o => Sys2Proof.Machine.execSend o s
  | .sendx o => Sys2Proof.Machine.execSendx o s
  | .recv o => Sys2Proof.Machine.execRecv o s
  | .rpeek o => Sys2Proof.Machine.execRpeek o s
  | .patarm o => Sys2Proof.Machine.execPatarm o s
  | .patdis o => Sys2Proof.Machine.execPatdis o s
  | .pstat o => Sys2Proof.Machine.execPstat o s
  | .tld o => Sys2Proof.Machine.execTld o s
  | .tst o => Sys2Proof.Machine.execTst o s
  | .tzero o => Sys2Proof.Machine.execTzero o s
  | .czero o => Sys2Proof.Machine.execCzero o s
  | .mma o => Sys2Proof.Machine.execMma o s
  | .mmake4m3 o => Sys2Proof.Machine.execMmake4m3 o s
  | .mmake5m2 o => Sys2Proof.Machine.execMmake5m2 o s
  | .mmake3m2 o => Sys2Proof.Machine.execMmake3m2 o s
  | .mmake2m3 o => Sys2Proof.Machine.execMmake2m3 o s
  | .mmake2m1 o => Sys2Proof.Machine.execMmake2m1 o s
  | .mmacb o => Sys2Proof.Machine.execMmacb o s
  | .cbload o => Sys2Proof.Machine.execCbload o s
  | .qnt o => Sys2Proof.Machine.execQnt o s
  | .dqnt o => Sys2Proof.Machine.execDqnt o s
  | .crd o => Sys2Proof.Machine.execCrd o s
  | .cwr o => Sys2Proof.Machine.execCwr o s
  | .mopen o => Sys2Proof.Machine.execMopen o s
  | .mclose o => Sys2Proof.Machine.execMclose o s
  | .mwait o => Sys2Proof.Machine.execMwait o s
  | .task o => Sys2Proof.Machine.execTask o s
  | .sheet o => Sys2Proof.Machine.execSheet o s
  | .qnote o => Sys2Proof.Machine.execQnote o s
  | .sys o => Sys2Proof.Machine.execSys o s
  | .sysa o => Sys2Proof.Machine.execSysa o s
  | .sysw o => Sys2Proof.Machine.execSysw o s
  | .trap o => Sys2Proof.Machine.execTrap o s
  | .bkpt o => Sys2Proof.Machine.execBkpt o s
  | .fchk o => Sys2Proof.Machine.execFchk o s
  | .wearrd o => Sys2Proof.Machine.execWearrd o s
  | .budrd o => Sys2Proof.Machine.execBudrd o s
  | .seal o => Sys2Proof.Machine.execSeal o s
  | .sealx o => Sys2Proof.Machine.execSealx o s
  | .pickerPassedOverLimit core gid => Sys2Proof.Machine.execPickerPassedOverLimit core gid s
  | .binTimerExpiry core bin => Sys2Proof.Machine.execBinTimerExpiry core bin s
  | .napExpiry gid => Sys2Proof.Machine.execNapExpiry gid s
  | .barrierRelease team k => Sys2Proof.Machine.execBarrierRelease team k s
  | .groupUnpark core => Sys2Proof.Machine.execGroupUnpark core s
  | .parkStarvationTimeout core => Sys2Proof.Machine.execParkStarvationTimeout core s
  | .groupContextFree gid => Sys2Proof.Machine.execGroupContextFree gid s
  | .teamScratchReturn team => Sys2Proof.Machine.execTeamScratchReturn team s
  | .holdershipGrant core => Sys2Proof.Machine.execHoldershipGrant core s
  | .batchComplete gid => Sys2Proof.Machine.execBatchComplete gid s
  | .engineChunkReady gid => Sys2Proof.Machine.execEngineChunkReady gid s
  | .chunkWaitResume gid => Sys2Proof.Machine.execChunkWaitResume gid s
  | .stageRoundLimitResume gid => Sys2Proof.Machine.execStageRoundLimitResume gid s
  | .multicastRoundStart team rid => Sys2Proof.Machine.execMulticastRoundStart team rid s
  | .chunkLand team rid chunk => Sys2Proof.Machine.execChunkLand team rid chunk s
  | .writebackChunkDrain team rid chunk => Sys2Proof.Machine.execWritebackChunkDrain team rid chunk s
  | .enginePageFault team rid job maps => Sys2Proof.Machine.execEnginePageFault team rid job maps s
  | .portMessageArrival n => Sys2Proof.Machine.execPortMessageArrival n s
  | .heldMessageEnter team port => Sys2Proof.Machine.execHeldMessageEnter team port s
  | .blockedSendEnter team port => Sys2Proof.Machine.execBlockedSendEnter team port s
  | .spawnLimitResume sheet => Sys2Proof.Machine.execSpawnLimitResume sheet s
  | .requestEntryGrant core => Sys2Proof.Machine.execRequestEntryGrant core s
  | .memoryResponseReturn core n => Sys2Proof.Machine.execMemoryResponseReturn core n s
  | .markedLineEvict line => Sys2Proof.Machine.execMarkedLineEvict line s
  | .cxlBackInvalidate line => Sys2Proof.Machine.execCxlBackInvalidate line s
  | .walkComplete die n => Sys2Proof.Machine.execWalkComplete die n s
  | .walkGrant die => Sys2Proof.Machine.execWalkGrant die s
  | .pageFaultReply gid shard gen maps => Sys2Proof.Machine.execPageFaultReply gid shard gen maps s
  | .generationAdvance die => Sys2Proof.Machine.execGenerationAdvance die s
  | .xgenTicket agent => Sys2Proof.Machine.execXgenTicket agent s
  | .xgenInval agent w => Sys2Proof.Machine.execXgenInval agent w s
  | .xgenDone agent g => Sys2Proof.Machine.execXgenDone agent g s
  | .putArrival n => Sys2Proof.Machine.execPutArrival n s
  | .putAckReceipt n => Sys2Proof.Machine.execPutAckReceipt n s
  | .winwaitSatisfied gid => Sys2Proof.Machine.execWinwaitSatisfied gid s
  | .flitReceive port flit => Sys2Proof.Machine.execFlitReceive port flit s
  | .flitRetryRequest port ackseq => Sys2Proof.Machine.execFlitRetryRequest port ackseq s
  | .fabricLaneSpare port => Sys2Proof.Machine.execFabricLaneSpare port s
  | .fabricLinkDown port => Sys2Proof.Machine.execFabricLinkDown port s
  | .hostSubmit queue data => Sys2Proof.Machine.execHostSubmit queue data s
  | .wake queue w => Sys2Proof.Machine.execWake queue w s
  | .sheetStart queue => Sys2Proof.Machine.execSheetStart queue s
  | .taskDispatch sheet task => Sys2Proof.Machine.execTaskDispatch sheet task s
  | .teamPlacement sheet task => Sys2Proof.Machine.execTeamPlacement sheet task s
  | .gangPlacement sheet => Sys2Proof.Machine.execGangPlacement sheet s
  | .ageingStep sheet team => Sys2Proof.Machine.execAgeingStep sheet team s
  | .gangReservation sheet => Sys2Proof.Machine.execGangReservation sheet s
  | .balancerTick => Sys2Proof.Machine.execBalancerTick s
  | .migration n => Sys2Proof.Machine.execMigration n s
  | .forwardingEntryRemove core team => Sys2Proof.Machine.execForwardingEntryRemove core team s
  | .sheetRetire sheet => Sys2Proof.Machine.execSheetRetire sheet s
  | .taskCompletion sheet task => Sys2Proof.Machine.execTaskCompletion sheet task s
  | .queueUnmap queue => Sys2Proof.Machine.execQueueUnmap queue s
  | .queueRemap queue slot => Sys2Proof.Machine.execQueueRemap queue slot s
  | .sealJobStart sheet => Sys2Proof.Machine.execSealJobStart sheet s
  | .callqAppend sv => Sys2Proof.Machine.execCallqAppend sv s
  | .callqPop sv => Sys2Proof.Machine.execCallqPop sv s
  | .replyPost sv w => Sys2Proof.Machine.execReplyPost sv w s
  | .mboxTxAux sv w => Sys2Proof.Machine.execMboxTxAux sv w s
  | .mboxDelivery sv => Sys2Proof.Machine.execMboxDelivery sv s
  | .mboxRxPop sv port => Sys2Proof.Machine.execMboxRxPop sv port s
  | .callCopyIn sv w => Sys2Proof.Machine.execCallCopyIn sv w s
  | .callCopyOut sv w => Sys2Proof.Machine.execCallCopyOut sv w s
  | .callCopyDone sv => Sys2Proof.Machine.execCallCopyDone sv s
  | .ccopyStat sv => Sys2Proof.Machine.execCcopyStat sv s
  | .sverr sv w => Sys2Proof.Machine.execSverr sv w s
  | .svTimerExpiry sv => Sys2Proof.Machine.execSvTimerExpiry sv s
  | .nvmeDoorbell sv pair w => Sys2Proof.Machine.execNvmeDoorbell sv pair w s
  | .nvmeCompletion pair cid status data => Sys2Proof.Machine.execNvmeCompletion pair cid status data s
  | .ethRx queue frame => Sys2Proof.Machine.execEthRx queue frame s
  | .utcNtpSet ns => Sys2Proof.Machine.execUtcNtpSet ns s
  | .sysTime slot lane => Sys2Proof.Machine.execSysTime slot lane s
  | .sysTimeset slot lane => Sys2Proof.Machine.execSysTimeset slot lane s
  | .sysAlloc slot lane va maps => Sys2Proof.Machine.execSysAlloc slot lane va maps s
  | .sysFree slot lane => Sys2Proof.Machine.execSysFree slot lane s
  | .sysOpen slot lane inode => Sys2Proof.Machine.execSysOpen slot lane inode s
  | .sysClose slot lane => Sys2Proof.Machine.execSysClose slot lane s
  | .sysRead slot lane buf => Sys2Proof.Machine.execSysRead slot lane buf s
  | .sysWrite slot lane buf => Sys2Proof.Machine.execSysWrite slot lane buf s
  | .sysFsize slot lane => Sys2Proof.Machine.execSysFsize slot lane s
  | .sysSocksend slot lane count buf => Sys2Proof.Machine.execSysSocksend slot lane count buf s
  | .sysSockrecv slot lane count buf => Sys2Proof.Machine.execSysSockrecv slot lane count buf s
  | .sysQcreate slot lane qnum page => Sys2Proof.Machine.execSysQcreate slot lane qnum page s
  | .sysQintr slot lane => Sys2Proof.Machine.execSysQintr slot lane s
  | .sysQgrant slot lane => Sys2Proof.Machine.execSysQgrant slot lane s
  | .sysWinreg slot lane entry => Sys2Proof.Machine.execSysWinreg slot lane entry s
  | .sysWinfree slot lane => Sys2Proof.Machine.execSysWinfree slot lane s
  | .sysLoad slot lane maps => Sys2Proof.Machine.execSysLoad slot lane maps s
  | .sysCkptreg slot lane => Sys2Proof.Machine.execSysCkptreg slot lane s
  | .sysCaptreg slot lane => Sys2Proof.Machine.execSysCaptreg slot lane s
  | .sysFhold slot lane => Sys2Proof.Machine.execSysFhold slot lane s
  | .sysOwnerHandlerCall slot lane result => Sys2Proof.Machine.execSysOwnerHandlerCall slot lane result s
  | .callPass sv slot lane => Sys2Proof.Machine.execCallPass sv slot lane s
  | .preempt sv w => Sys2Proof.Machine.execPreempt sv w s
  | .evict sv w => Sys2Proof.Machine.execEvict sv w s
  | .resume sv w => Sys2Proof.Machine.execResume sv w s
  | .retry sv w => Sys2Proof.Machine.execRetry sv w s
  | .next sv w => Sys2Proof.Machine.execNext sv w s
  | .step sv w => Sys2Proof.Machine.execStep sv w s
  | .kill sv w => Sys2Proof.Machine.execKill sv w s
  | .halt sv w => Sys2Proof.Machine.execHalt sv w s
  | .gctlStat sv => Sys2Proof.Machine.execGctlStat sv s
  | .sheetRollback sheet => Sys2Proof.Machine.execSheetRollback sheet s
  | .checkpoint => Sys2Proof.Machine.execCheckpoint s
  | .checkpointRestore => Sys2Proof.Machine.execCheckpointRestore s
  | .captureRerun queue sheet => Sys2Proof.Machine.execCaptureRerun queue sheet s
  | .wearReport entries failed => Sys2Proof.Machine.execWearReport entries failed s
  | .clusterClockStep cluster => Sys2Proof.Machine.execClusterClockStep cluster s
  | .lanemapRewrite core => Sys2Proof.Machine.execLanemapRewrite core s
  | .coreRetire core => Sys2Proof.Machine.execCoreRetire core s
  | .hbmScrub page newPage channel => Sys2Proof.Machine.execHbmScrub page newPage channel s
  | .budgetPeriod cluster => Sys2Proof.Machine.execBudgetPeriod cluster s
  | .budgetSpillGrant gid => Sys2Proof.Machine.execBudgetSpillGrant gid s
  | .powerOnReset => Sys2Proof.Machine.execPowerOnReset s
  | .quoteRequest nonce => Sys2Proof.Machine.execQuoteRequest nonce s
  | .ownershipTransfer alg key sig => Sys2Proof.Machine.execOwnershipTransfer alg key sig s
  | .sealKeyCreate slot alg sig => Sys2Proof.Machine.execSealKeyCreate slot alg sig s
  | .sealKeyDestroy slot sig => Sys2Proof.Machine.execSealKeyDestroy slot sig s
  | .thermalTrip celsius => Sys2Proof.Machine.execThermalTrip celsius s
  | .thermalResume celsius => Sys2Proof.Machine.execThermalResume celsius s
  | .coolantOvertemp celsius => Sys2Proof.Machine.execCoolantOvertemp celsius s
  | .undervoltage on => Sys2Proof.Machine.execUndervoltage on s
  | .registerWrite agent addr w => Sys2Proof.Machine.execRegisterWrite agent addr w s
  | .uncorrectableError place => Sys2Proof.Machine.execUncorrectableError place s
  | .hostCxlMemAccess port pa len write data => Sys2Proof.Machine.execHostCxlMemAccess port pa len write data s
  | .recoveryImageWrite stage copy image => Sys2Proof.Machine.execRecoveryImageWrite stage copy image s
  | .hostAppears port queues => Sys2Proof.Machine.execHostAppears port queues s

end Sys2Proof.Machine
end

