-- ==== Sys2Proof/Machine/Riscv.lean ====
section
/-!
DEFINITION. The instructions of the RV64 harts (R384): RV64I with M, A, C, Zicsr, Zifencei, Zba and Zbb, in M and S mode, as the
RISC-V specifications give them (log 32). R384 names the set and gives no encodings: the opcode table has no row for one of them, and a
hart runs by an item of the agenda (log 1).
-/
namespace Sys2Proof.Machine

/-! ### Values -/

/-- Bits [lo + n - 1 : lo] of an instruction. -/
def bitsAt (w lo n : Nat) : Nat := w / 2 ^ lo % 2 ^ n
/-- A number of n bits, sign-extended to 64. -/
def sxN (n v : Nat) : DWord := (BitVec.ofNat n v).signExtend 64
def sx32 (w : DWord) : DWord := (w.setWidth 32).signExtend 64
def zx32 (w : DWord) : DWord := (w.setWidth 32).setWidth 64
def lt64 (b : Bool) : DWord := if b then 1#64 else 0#64
/-- Leading zeros, trailing zeros, set bits of the low n bits. -/
def clzN (n : Nat) (w : DWord) : DWord := BitVec.ofNat 64 (((List.range n).find? fun i => w.getLsbD (n - 1 - i)).getD n)
def ctzN (n : Nat) (w : DWord) : DWord := BitVec.ofNat 64 (((List.range n).find? fun i => w.getLsbD i).getD n)
def cpopN (n : Nat) (w : DWord) : DWord := BitVec.ofNat 64 ((List.range n).filter fun i => w.getLsbD i).length
/-- Each byte of a word mapped. -/
def mapBytes (f : Nat → Byte) : DWord := BitVec.ofNat 64 (leNat ((List.range 8).map f))
def byteOf (w : DWord) (i : Nat) : Byte := w.extractLsb' (8 * i) 8
/-- Division, signed or not, at a width of n bits: by zero gives all ones and the remainder the dividend; the most negative number by
minus one gives itself and remainder zero. -/
def divN (n : Nat) (signed rem : Bool) (a b : DWord) : DWord :=
  let x := a.setWidth n
  let y := b.setWidth n
  let r : BitVec n :=
    if y == 0 then (if rem then x else BitVec.allOnes n)
    else if signed then (if rem then x.srem y else x.sdiv y)
    else if rem then x % y else x / y
  r.signExtend 64
/-- The upper 64 bits of a product of two integers. -/
def mulHigh (a b : Int) : DWord := BitVec.ofInt 64 (a * b / 2 ^ 64)

/-- OP: funct7, funct3. -/
def aluOp (f7 f3 : Nat) (a b : DWord) : Option DWord :=
  let sh := b.toNat % 64
  match f7, f3 with
  | 0x00, 0 => some (a + b)
  | 0x00, 1 => some (a <<< sh)
  | 0x00, 2 => some (lt64 (a.slt b))
  | 0x00, 3 => some (lt64 (a.ult b))
  | 0x00, 4 => some (a ^^^ b)
  | 0x00, 5 => some (a >>> sh)
  | 0x00, 6 => some (a ||| b)
  | 0x00, 7 => some (a &&& b)
  | 0x20, 0 => some (a - b)
  | 0x20, 4 => some (~~~(a ^^^ b))
  | 0x20, 5 => some (a.sshiftRight sh)
  | 0x20, 6 => some (a ||| ~~~b)
  | 0x20, 7 => some (a &&& ~~~b)
  | 0x01, 0 => some (a * b)
  | 0x01, 1 => some (mulHigh a.toInt b.toInt)
  | 0x01, 2 => some (mulHigh a.toInt b.toNat)
  | 0x01, 3 => some (mulHigh a.toNat b.toNat)
  | 0x01, 4 => some (divN 64 true false a b)
  | 0x01, 5 => some (divN 64 false false a b)
  | 0x01, 6 => some (divN 64 true true a b)
  | 0x01, 7 => some (divN 64 false true a b)
  | 0x10, 2 => some (b + (a <<< 1))
  | 0x10, 4 => some (b + (a <<< 2))
  | 0x10, 6 => some (b + (a <<< 3))
  | 0x05, 4 => some (if a.slt b then a else b)
  | 0x05, 5 => some (if a.ult b then a else b)
  | 0x05, 6 => some (if a.slt b then b else a)
  | 0x05, 7 => some (if a.ult b then b else a)
  | 0x30, 1 => some (a.rotateLeft sh)
  | 0x30, 5 => some (a.rotateRight sh)
  | _, _ => none
/-- OP-32: funct7, funct3, rs2's number. -/
def aluOp32 (f7 f3 rs2 : Nat) (a b : DWord) : Option DWord :=
  let sh := b.toNat % 32
  match f7, f3 with
  | 0x00, 0 => some (sx32 (a + b))
  | 0x00, 1 => some (sx32 (a <<< sh))
  | 0x00, 5 => some (sx32 (zx32 a >>> sh))
  | 0x20, 0 => some (sx32 (a - b))
  | 0x20, 5 => some ((sx32 a).sshiftRight sh)
  | 0x01, 0 => some (sx32 (a * b))
  | 0x01, 4 => some (divN 32 true false a b)
  | 0x01, 5 => some (divN 32 false false a b)
  | 0x01, 6 => some (divN 32 true true a b)
  | 0x01, 7 => some (divN 32 false true a b)
  | 0x04, 0 => some (b + zx32 a)
  | 0x04, 4 => if rs2 == 0 then some (a &&& 0xFFFF#64) else none
  | 0x10, 2 => some (b + (zx32 a <<< 1))
  | 0x10, 4 => some (b + (zx32 a <<< 2))
  | 0x10, 6 => some (b + (zx32 a <<< 3))
  | 0x30, 1 => some (((a.setWidth 32).rotateLeft sh).signExtend 64)
  | 0x30, 5 => some (((a.setWidth 32).rotateRight sh).signExtend 64)
  | _, _ => none
/-- OP-IMM: funct3, the 12 immediate bits. -/
def aluImm (f3 imm : Nat) (a : DWord) : Option DWord :=
  let i := sxN 12 imm
  let sh := imm % 64
  match f3 with
  | 0 => some (a + i)
  | 2 => some (lt64 (a.slt i))
  | 3 => some (lt64 (a.ult i))
  | 4 => some (a ^^^ i)
  | 6 => some (a ||| i)
  | 7 => some (a &&& i)
  | 1 =>
    if imm / 64 == 0 then some (a <<< sh)
    else if imm == 0x600 then some (clzN 64 a)
    else if imm == 0x601 then some (ctzN 64 a)
    else if imm == 0x602 then some (cpopN 64 a)
    else if imm == 0x604 then some (sxN 8 (a.toNat % 256))
    else if imm == 0x605 then some (sxN 16 (a.toNat % 65536))
    else none
  | _ =>
    if imm / 64 == 0 then some (a >>> sh)
    else if imm / 64 == 0x10 then some (a.sshiftRight sh)
    else if imm / 64 == 0x18 then some (a.rotateRight sh)
    else if imm == 0x287 then some (mapBytes fun i => if byteOf a i == 0#8 then 0#8 else 255#8)
    else if imm == 0x6B8 then some (mapBytes fun i => byteOf a (7 - i))
    else none
/-- OP-IMM-32. -/
def aluImm32 (f3 imm : Nat) (a : DWord) : Option DWord :=
  let sh := imm % 32
  match f3 with
  | 0 => some (sx32 (a + sxN 12 imm))
  | 1 =>
    if imm / 32 == 0 then some (sx32 (a <<< sh))
    else if imm / 64 == 2 then some (zx32 a <<< (imm % 64))
    else if imm == 0x600 then some (clzN 32 a)
    else if imm == 0x601 then some (ctzN 32 a)
    else if imm == 0x602 then some (cpopN 32 a)
    else none
  | 5 =>
    if imm / 32 == 0 then some (sx32 (zx32 a >>> sh))
    else if imm / 32 == 0x20 then some ((sx32 a).sshiftRight sh)
    else if imm / 32 == 0x30 then some (((a.setWidth 32).rotateRight sh).signExtend 64)
    else none
  | _ => none
def branchTaken (f3 : Nat) (a b : DWord) : Option Bool :=
  match f3 with
  | 0 => some (a == b)
  | 1 => some (a != b)
  | 4 => some (a.slt b)
  | 5 => some (!a.slt b)
  | 6 => some (a.ult b)
  | 7 => some (!a.ult b)
  | _ => none
/-- The new value of an atomic memory operation, of n bytes, by funct5. -/
def amoValue (f5 n : Nat) (old v : DWord) : Option DWord :=
  let a := if n == 4 then sx32 old else old
  let b := if n == 4 then sx32 v else v
  match f5 with
  | 0x01 => some b
  | 0x00 => some (a + b)
  | 0x04 => some (a ^^^ b)
  | 0x0C => some (a &&& b)
  | 0x08 => some (a ||| b)
  | 0x10 => some (if a.slt b then a else b)
  | 0x14 => some (if a.slt b then b else a)
  | 0x18 => some (if a.ult b then a else b)
  | 0x1C => some (if a.ult b then b else a)
  | _ => none

/-! ### The C extension: each 16-bit instruction as the 32-bit one that it stands for -/

def encI (op f3 rd rs1 imm : Nat) : Nat := op + rd * 2 ^ 7 + f3 * 2 ^ 12 + rs1 * 2 ^ 15 + imm % 2 ^ 12 * 2 ^ 20
def encR (op f3 f7 rd rs1 rs2 : Nat) : Nat := op + rd * 2 ^ 7 + f3 * 2 ^ 12 + rs1 * 2 ^ 15 + rs2 * 2 ^ 20 + f7 * 2 ^ 25
def encS (f3 rs1 rs2 imm : Nat) : Nat :=
  0x23 + imm % 32 * 2 ^ 7 + f3 * 2 ^ 12 + rs1 * 2 ^ 15 + rs2 * 2 ^ 20 + imm / 32 % 128 * 2 ^ 25
/-- The immediate, of 13 bits, is a byte offset. -/
def encB (f3 rs1 imm : Nat) : Nat :=
  0x63 + bitsAt imm 11 1 * 2 ^ 7 + bitsAt imm 1 4 * 2 ^ 8 + f3 * 2 ^ 12 + rs1 * 2 ^ 15 + bitsAt imm 5 6 * 2 ^ 25 + bitsAt imm 12 1 * 2 ^ 31
/-- The immediate, of 21 bits, is a byte offset. -/
def encJ (imm : Nat) : Nat := 0x6F + bitsAt imm 12 8 * 2 ^ 12 + bitsAt imm 11 1 * 2 ^ 20 + bitsAt imm 1 10 * 2 ^ 21 + bitsAt imm 20 1 * 2 ^ 31
/-- A number of n bits, sign-extended to m bits. -/
def sxTo (n m v : Nat) : Nat := ((BitVec.ofNat n v).signExtend m).toNat
/-- Quadrant 0. -/
def expand0 (c : Nat) : Option Nat :=
  let rd := 8 + bitsAt c 2 3
  let rs := 8 + bitsAt c 7 3
  let uw := bitsAt c 10 3 * 8 + bitsAt c 6 1 * 4 + bitsAt c 5 1 * 64
  let ud := bitsAt c 10 3 * 8 + bitsAt c 5 2 * 64
  match bitsAt c 13 3 with
  | 0 =>
    let i := bitsAt c 11 2 * 16 + bitsAt c 7 4 * 64 + bitsAt c 6 1 * 4 + bitsAt c 5 1 * 8
    if i == 0 then none else some (encI 0x13 0 rd 2 i)
  | 2 => some (encI 0x03 2 rd rs uw)
  | 3 => some (encI 0x03 3 rd rs ud)
  | 6 => some (encS 2 rs rd uw)
  | 7 => some (encS 3 rs rd ud)
  | _ => none
/-- Quadrant 1. -/
def expand1 (c : Nat) : Option Nat :=
  let rd := bitsAt c 7 5
  let r := 8 + bitsAt c 7 3
  let r2 := 8 + bitsAt c 2 3
  let u6 := bitsAt c 12 1 * 32 + bitsAt c 2 5
  let i6 := sxTo 6 12 u6
  let bi := sxTo 9 13 (bitsAt c 12 1 * 256 + bitsAt c 10 2 * 8 + bitsAt c 5 2 * 64 + bitsAt c 3 2 * 2 + bitsAt c 2 1 * 32)
  match bitsAt c 13 3 with
  | 0 => some (encI 0x13 0 rd rd i6)
  | 1 => if rd == 0 then none else some (encI 0x1B 0 rd rd i6)
  | 2 => some (encI 0x13 0 rd 0 i6)
  | 3 =>
    if rd == 2 then
      let i := bitsAt c 12 1 * 512 + bitsAt c 6 1 * 16 + bitsAt c 5 1 * 64 + bitsAt c 3 2 * 128 + bitsAt c 2 1 * 32
      if i == 0 then none else some (encI 0x13 0 2 2 (sxTo 10 12 i))
    else if u6 == 0 then none else some (0x37 + rd * 2 ^ 7 + sxTo 6 20 u6 * 2 ^ 12)
  | 4 =>
    match bitsAt c 10 2 with
    | 0 => some (encI 0x13 5 r r u6)
    | 1 => some (encI 0x13 5 r r (0x400 + u6))
    | 2 => some (encI 0x13 7 r r i6)
    | _ =>
      match bitsAt c 12 1, bitsAt c 5 2 with
      | 0, 0 => some (encR 0x33 0 0x20 r r r2)
      | 0, 1 => some (encR 0x33 4 0 r r r2)
      | 0, 2 => some (encR 0x33 6 0 r r r2)
      | 0, 3 => some (encR 0x33 7 0 r r r2)
      | 1, 0 => some (encR 0x3B 0 0x20 r r r2)
      | 1, 1 => some (encR 0x3B 0 0 r r r2)
      | _, _ => none
  | 5 => some (encJ (sxTo 12 21 (bitsAt c 12 1 * 2048 + bitsAt c 11 1 * 16 + bitsAt c 9 2 * 256 + bitsAt c 8 1 * 1024 + bitsAt c 7 1 * 64 +
      bitsAt c 6 1 * 128 + bitsAt c 3 3 * 2 + bitsAt c 2 1 * 32)))
  | 6 => some (encB 0 r bi)
  | _ => some (encB 1 r bi)
/-- Quadrant 2. -/
def expand2 (c : Nat) : Option Nat :=
  let rd := bitsAt c 7 5
  let r2 := bitsAt c 2 5
  match bitsAt c 13 3 with
  | 0 => some (encI 0x13 1 rd rd (bitsAt c 12 1 * 32 + r2))
  | 2 => if rd == 0 then none else some (encI 0x03 2 rd 2 (bitsAt c 12 1 * 32 + bitsAt c 4 3 * 4 + bitsAt c 2 2 * 64))
  | 3 => if rd == 0 then none else some (encI 0x03 3 rd 2 (bitsAt c 12 1 * 32 + bitsAt c 5 2 * 8 + bitsAt c 2 3 * 64))
  | 4 =>
    if bitsAt c 12 1 == 0 then
      (if r2 == 0 then (if rd == 0 then none else some (encI 0x67 0 0 rd 0)) else some (encR 0x33 0 0 rd 0 r2))
    else if r2 == 0 then some (if rd == 0 then 0x00100073 else encI 0x67 0 1 rd 0)
    else some (encR 0x33 0 0 rd rd r2)
  | 6 => some (encS 2 2 r2 (bitsAt c 9 4 * 4 + bitsAt c 7 2 * 64))
  | 7 => some (encS 3 2 r2 (bitsAt c 10 3 * 8 + bitsAt c 7 3 * 64))
  | _ => none
def expandC (c : Nat) : Option Nat :=
  match c % 4 with
  | 0 => expand0 c
  | 1 => expand1 c
  | _ => expand2 c

/-! ### Loads, stores and atomics -/

/-- R387: a read of a hart's at a hub offset: an aligned 8-byte read gives the register, with what the read of XGEN_TICKET, of a POP or
of a STAT changes; any other is ignored, gives zero and sets BADACC. -/
def Out.orElse (s : State) : Out → State
  | .next t => t
  | _ => s
def State.hubReadBy (s : State) (agent off n : Nat) : DWord × State :=
  if n != 8 || off % 8 != 0 then (0#64, s.badAccess off)
  -- R446: only Compass cores reach the budgets' registers
  else if agent < 64 && 0x30000 ≤ off && off < 0x31000 then (0#64, s)
  else
    let w := s.hubRead off
    if off == 0x2000 then (w, Out.orElse s (execXgenTicket agent s))
    else match blockAt off with
      | none => (w, s)
      | some k =>
        let r := off % 65536
        if r == 0 then (w, Out.orElse s (execCallqPop k s))
        else if r == 0x160 then (w, Out.orElse s (execCcopyStat k s))
        else if r == 0x188 then (w, Out.orElse s (execGctlStat k s))
        else if 0x040 ≤ r && r < 0x140 && r % 16 == 8 then (w, Out.orElse s (execMboxRxPop k ((r - 0x040) / 16) s))
        else (w, s)
/-- A load at physical addresses; none where no region of R321 holds them. -/
def State.busRead (s : State) (agent pa n : Nat) : Option (DWord × State) :=
  if hubBase ≤ pa && pa < hubBase + 2 ^ 48 then some (s.hubReadBy agent (pa - hubBase) n)
  else if pa + n ≤ 2 ^ 52 && paMapped s.pool pa && paMapped s.pool (pa + n - 1) then some (BitVec.ofNat 64 (s.mem.loadNat pa n), s)
  else none
/-- R385: a data trap of a translated access goes to S mode; any other is delegated as `medeleg` says. -/
def State.dataTrap (s : State) (k cause va : Nat) : State :=
  s.modHart k fun h =>
    -- R322: the access waits, and the instruction runs again
    if cause == 0 then h
    else if k < 64 && h.asS && (s.surv k).svxlat.getLsbD 63 then h.trap true false cause (BitVec.ofNat 64 va) else h.except cause (BitVec.ofNat 64 va)
/-- The instruction ends: a register written, the next address. -/
def State.hartEnd (s : State) (k rd : Nat) (v npc : DWord) : State :=
  s.modHart k fun h => { h.setReg rd v with pc := npc, instret := h.instret + 1 }
/-- A data access of n bytes at its physical address: bytes that cross into another page go where that page is. -/
def State.hartLoad (s : State) (k va n : Nat) : Except (Nat × Nat) (DWord × State) :=
  match s.hartBytes k va n false with
  | .error e => .error e
  | .ok ps =>
    let p := ps.headD 0
    let t := if k < 64 then s.survFill k va (s.hart k).asS else s
    -- R444: the Surveyor's memory traffic
    let t := t.svCharge k 3 [(p, n)]
    if ps == (List.range n).map (p + ·) then
      (match t.busRead k p n with
       | some r => .ok r
       | none => .error (5, va))
    else if ps.all (paMapped s.pool) then .ok (BitVec.ofNat 64 (leNat (ps.map fun a => BitVec.ofNat 8 (t.mem.loadNat a 1))), t)
    else .error (5, va)
def State.hartStore (s : State) (k va : Nat) (bs : List Byte) : Except (Nat × Nat) State :=
  match s.hartBytes k va bs.length true with
  | .error e => .error e
  | .ok ps =>
    let p := ps.headD 0
    let t := (if k < 64 then s.survFill k va (s.hart k).asS else s).svCharge k 3 [(p, bs.length)]
    if ps == (List.range bs.length).map (p + ·) then
      (match t.busWrite k p bs with
       | some r => .ok r
       | none => .error (7, va))
    else if ps.all (paMapped s.pool) then .ok ((ps.zip bs).foldl (fun (u : State) e => u.shardStore e.1 [e.2]) t)
    else .error (7, va)
/-- A, LR and SC: a reservation is the address and the bytes found there, and lasts while memory holds them (log 32). -/
def State.hartAmo (s : State) (k w : Nat) (npc : DWord) : Option State :=
  let h := s.hart k
  let n := if bitsAt w 12 3 == 2 then 4 else 8
  let a := h.reg (bitsAt w 15 5)
  let b := h.reg (bitsAt w 20 5)
  let f5 := bitsAt w 27 5
  let rd := bitsAt w 7 5
  let ext (x : DWord) : DWord := if n == 4 then sx32 x else x
  let lr := f5 == 2
  if !(bitsAt w 12 3 == 2 || bitsAt w 12 3 == 3) || (lr && bitsAt w 20 5 != 0) then none
  else if a.toNat % n != 0 then some (s.modHart k fun h => h.except (if lr then 4 else 6) a)
  else match s.hartBytes k a.toNat n (!lr) with
    | .error (c, v) => some (s.dataTrap k c v)
    | .ok ps =>
      let p := ps.headD 0
      let t := if k < 64 then s.survFill k a.toNat h.asS else s
      -- R387: no access of a register, but an aligned 8-byte load or store: ignored, zero, BADACC; a store conditional finds no reservation
      if hubBase ≤ p && p < hubBase + 2 ^ 48 then
        some (((t.badAccess (p - hubBase)).modHart k fun h => { h with resv := none }).hartEnd k rd (lt64 (f5 == 3)) npc)
      else if 2 ^ 52 ≤ p || !paMapped s.pool p then some (s.dataTrap k (if lr then 5 else 7) a.toNat)
      else
        let old := BitVec.ofNat 64 (t.mem.loadNat p n)
        let t := t.svCharge k 3 [(p, n)]
        if lr then some ((t.modHart k fun h => { h with resv := some (p, leBytes n old.toNat) }).hartEnd k rd (ext old) npc)
        else if f5 == 3 then
          let ok := h.resv == some (p, leBytes n old.toNat)
          let u := if ok then t.shardStore p (leBytes n (b.toNat % 2 ^ (8 * n))) else t
          some ((u.modHart k fun h => { h with resv := none }).hartEnd k rd (lt64 (!ok)) npc)
        else (amoValue f5 n old b).map fun v => (t.shardStore p (leBytes n (v.toNat % 2 ^ (8 * n)))).hartEnd k rd (ext old) npc

/-! ### SYSTEM -/

/-- Zicsr; of the read-only numbers those of R386 ignore a write (R8), the others raise illegal-instruction. -/
def State.hartCsrOp (s : State) (k w : Nat) (npc : DWord) : Option State :=
  let h := s.hart k
  let f3 := bitsAt w 12 3
  let n := bitsAt w 20 12
  let r := bitsAt w 15 5
  let src := if 4 ≤ f3 then BitVec.ofNat 64 r else h.reg r
  let writes := f3 % 4 == 1 || r != 0
  let tvm := (h.csr 0x300).getLsbD 20 && !h.machine && n == 0x180
  if f3 % 4 == 0 || (!h.machine && 2 ≤ n / 256 % 4) || (writes && n / 1024 == 3 && !(n == 0xDC0 || n == 0xDC1)) || tvm then none
  else (s.hartCsr k n).map fun old =>
    let new := match f3 % 4 with
      | 1 => src
      | 2 => old ||| src
      | _ => old &&& ~~~src
    (if writes then s.hartCsrWrite k n new else s).hartEnd k (bitsAt w 7 5) old npc
/-- MRET and SRET. -/
def Hart.ret (h : Hart) (fromM : Bool) : Hart :=
  let st := h.csr 0x300
  if fromM then
    let m := st.getLsbD 11 && st.getLsbD 12
    let st1 := putBit (putBit (putBit (putBit st 3 (st.getLsbD 7)) 7 true) 12 false) 11 true
    { h.setCsr 0x300 (if m then st1 else putBit st1 17 false) with pc := h.csr 0x341, machine := m, instret := h.instret + 1 }
  else
    { h.setCsr 0x300 (putBit (putBit (putBit (putBit st 1 (st.getLsbD 5)) 5 true) 8 false) 17 false) with
      pc := h.csr 0x141, machine := false, instret := h.instret + 1 }
def State.hartSystem (s : State) (k w : Nat) (npc : DWord) : Option State :=
  let h := s.hart k
  let st := h.csr 0x300
  if bitsAt w 12 3 != 0 then s.hartCsrOp k w npc
  else match w with
    | 0x00000073 => some (s.modHart k fun h => h.except (if h.machine then 11 else 9) 0#64)
    | 0x00100073 => some (s.modHart k fun h => h.except 3 h.pc)
    | 0x30200073 => if h.machine then some (s.modHart k fun h => h.ret true) else none
    | 0x10200073 => if h.machine || !st.getLsbD 22 then some (s.modHart k fun h => h.ret false) else none
    | 0x10500073 =>
      if h.machine || !st.getLsbD 21 then some ((s.modHart k fun h => { h with asleep := true }).hartEnd k 0 0#64 npc) else none
    | _ => -- SFENCE.VMA: `satp` is Bare, and the fence orders nothing more
      if bitsAt w 25 7 == 9 && bitsAt w 7 5 == 0 && (h.machine || !st.getLsbD 20) then some (s.hartEnd k 0 0#64 npc) else none

/-! ### One instruction -/

/-- The meaning of a 32-bit instruction at the hart's address, whose length is `len` bytes; none where it is illegal. -/
def State.hartRun (s : State) (k w len : Nat) : Option State :=
  let h := s.hart k
  let npc := h.pc + BitVec.ofNat 64 len
  let rd := bitsAt w 7 5
  let f3 := bitsAt w 12 3
  let a := h.reg (bitsAt w 15 5)
  let b := h.reg (bitsAt w 20 5)
  let imm := bitsAt w 20 12
  let res (v : Option DWord) : Option State := v.map fun v => s.hartEnd k rd v npc
  match w % 128 with
  | 0x37 => res (some (sxN 32 (w / 2 ^ 12 * 2 ^ 12)))
  | 0x17 => res (some (h.pc + sxN 32 (w / 2 ^ 12 * 2 ^ 12)))
  | 0x6F =>
    some (s.hartEnd k rd npc (h.pc + sxN 21 (bitsAt w 31 1 * 2 ^ 20 + bitsAt w 12 8 * 2 ^ 12 + bitsAt w 20 1 * 2 ^ 11 + bitsAt w 21 10 * 2)))
  | 0x67 => if f3 == 0 then some (s.hartEnd k rd npc ((a + sxN 12 imm) &&& ~~~1#64)) else none
  | 0x63 => (branchTaken f3 a b).map fun t =>
    s.hartEnd k 0 0#64 (if t then h.pc + sxN 13 (bitsAt w 31 1 * 2 ^ 12 + bitsAt w 7 1 * 2 ^ 11 + bitsAt w 25 6 * 32 + bitsAt w 8 4 * 2) else npc)
  | 0x03 =>
    let n := 2 ^ (f3 % 4)
    let va := (a + sxN 12 imm).toNat
    if f3 == 7 then none
    else match s.hartLoad k va n with
      | .error e => some (s.dataTrap k e.1 e.2)
      | .ok (v, t) => some (t.hartEnd k rd (if 4 ≤ f3 then v else sxN (8 * n) v.toNat) npc)
  | 0x23 =>
    let n := 2 ^ (f3 % 4)
    let va := (a + sxN 12 (bitsAt w 25 7 * 32 + bitsAt w 7 5)).toNat
    if 4 ≤ f3 then none
    else match s.hartStore k va (leBytes n (b.toNat % 2 ^ (8 * n))) with
      | .error e => some (s.dataTrap k e.1 e.2)
      | .ok t => some (t.hartEnd k 0 0#64 npc)
  | 0x13 => res (aluImm f3 imm a)
  | 0x1B => res (aluImm32 f3 imm a)
  | 0x33 => res (aluOp (bitsAt w 25 7) f3 a b)
  | 0x3B => res (aluOp32 (bitsAt w 25 7) f3 (bitsAt w 20 5) a b)
  | 0x0F => if f3 == 0 || f3 == 1 then some (s.hartEnd k 0 0#64 npc) else none
  | 0x2F => s.hartAmo k w npc
  | 0x73 => s.hartSystem k w npc
  | _ => none
/-- A step of a hart: an interrupt that is due, else the instruction at its address; a hart that sleeps waits, and a Surveyor stalls while
its class has used its allowance (R447). Fetches use physical addresses (R385). -/
def State.hartStep (s : State) (k : Nat) : State :=
  if !isAgent k || (k < 64 && s.svStalled k 3) then s
  else if (s.hartIntr k).isSome || (s.hart k).asleep then s.hartInterrupt k
  else
    let h := s.hart k
    let pc := h.pc.toNat
    let mapped (n : Nat) : Bool := decide (pc + n ≤ 2 ^ 52) && paMapped s.pool pc && paMapped s.pool (pc + n - 1)
    if !mapped 2 then s.modHart k fun h => h.except 1 h.pc
    else
      let c := s.mem.loadNat pc 2
      if c % 4 == 3 then
        if !mapped 4 then s.modHart k fun h => h.except 1 h.pc
        else
          let w := s.mem.loadNat pc 4
          let s := s.svCharge k 3 [(pc, 4)]
          (s.hartRun k w 4).getD (s.modHart k fun h => h.except 2 (BitVec.ofNat 64 w))
      else
        let s := s.svCharge k 3 [(pc, 2)]
        ((expandC c).bind fun w => s.hartRun k w 2).getD (s.modHart k fun h => h.except 2 (BitVec.ofNat 64 c))

end Sys2Proof.Machine
end

