-- ==== Sys2Proof/Machine/Agenda.lean ====
section
/-!
DEFINITION. What a step does beside the meanings (log 1): the items of the agenda, and the default schedule when the agenda
is empty. An order of steps that the default schedule does not take is an agenda.
-/
namespace Sys2Proof.Machine

/-! ### Time (R7, R120, R131, R432, R433) -/

/-- The clock of a core's cluster runs for d times 10 ns: what has been issued ahead of it is caught up with first. -/
def State.passCore (d : Nat) (s : State) (core : Nat) : State :=
  let n := d * ckIn10ns (s.cluster (clusterOf core)).step
  let k := s.core core
  (s.tick core (n - min n k.ahead)).modCore core fun c => { c with lead := k.lead.map (· - n) }
/-- Time passes, d times 10 ns; with the cluster clocks stopped (R467) no cycle passes. -/
def State.passTime (s : State) (d : Nat) : State :=
  -- R15, R432: the clocks of the harts (log 32)
  let s1 := { s with time := s.time + d, harts := s.harts.map fun (k, h) => (k, { h with mcycle := h.mcycle + d * hartClock k (s.surv k).wst }) }
  if s.thermal then s1
  else { ((s.cores.map (·.1) ++ s.groups.map (·.core)).eraseDups).foldl (State.passCore d) s1 with ran := s.ran + d }

/-! ### An issue (R25, R56 to R58, R90) -/

/-- An instruction word, as against an event. -/
def Instr.isWord (i : Instr) : Bool := (pfxOf i).isSome
/-- The subset that a core picks fetches its slot, and the instruction there is executed. -/
def State.issue (s : State) (core : Nat) (stale : Bool) : Out :=
  match s.beginIssue core stale with
  | none => .next s
  | some (t, c) =>
    match t.grp? c.gid with
    | none => .next s
    | some g =>
      match t.fetch g c.pc (g.lane (lowest c.mask)).due with
      | .instr i => exec i (t.touch g (lineBase c.pc).toNat .x)
      | r => .next (t.fetchFails c r)

/-! ### The agenda -/

/-- An event; an instruction word is no event. -/
def State.event (s : State) (i : Instr) : Out := if Instr.isWord i then .next s else exec i s
/-- R467: the events that reach a part that is held in reset. -/
def Item.reachesReset : Item → Bool
  | .ev (.undervoltage _) => true
  | .ev .powerOnReset => true
  | _ => false
def State.runItem (s : State) (x : Item) : Out :=
  if s.undervolt && !x.reachesReset then .next s
  else match x with
    | .issue core stale => s.issue core stale
    | .ev i => s.event i
    | .time d => .next (s.passTime d)
    | .upset core runs => .next (s.modCore core fun c => { c with injectRuns := c.injectRuns ++ [runs] })
    | .hart k => .next (s.hartStep k)
    | .hostCall asn callno args maps => .next (if s.kernelServes then s.hostCall asn callno args maps else s)
    | .residue core runs => .next (s.modCore core fun c => { c with residueRuns := runs })
    | .charge cluster cls res units => .next (s.chargeUnits cluster cls res units)
    | .work core team ck => .next (s.chargeWork core team ck)
    | .pageMove page new => .next (s.memMoves page new)
    | .trustRead item => .next { s with hostRead := s.trust.readable item }
    | .barRead queue off len => .next (s.barRead queue off len)
    | .kernelMap asn maps va data => .next (s.kernelMap asn maps va data)

/-! ### The default schedule -/

def ofGroup (g : Group) : List Instr :=
  [.groupContextFree g.id, .napExpiry g.id, .chunkWaitResume g.id, .stageRoundLimitResume g.id, .winwaitSatisfied g.id,
   .engineChunkReady g.id, .batchComplete g.id]
def ofRound (t : Team) (r : Round) : List Instr :=
  .multicastRoundStart t.id r.id ::
    r.jobs.flatMap fun j => j.left.map fun c => if j.out then .writebackChunkDrain t.id r.id c else .chunkLand t.id r.id c
def ofTeam (t : Team) : List Instr :=
  (List.range 16).map (fun k => Instr.barrierRelease t.id k) ++
  t.ports.flatMap (fun p => [.heldMessageEnter t.id p.num, .blockedSendEnter t.id p.num]) ++
  t.rounds.flatMap (ofRound t) ++ [.teamScratchReturn t.id]
def ofCore (e : Nat × Core) : List Instr :=
  e.2.bins.map (fun b => Instr.binTimerExpiry e.1 b.order) ++ e.2.fwd.map (fun f => Instr.forwardingEntryRemove e.1 f.1) ++
  [.groupUnpark e.1, .parkStarvationTimeout e.1, .holdershipGrant e.1, .requestEntryGrant e.1, .memoryResponseReturn e.1 0]
def ofDie (e : Nat × Die) : List Instr :=
  .walkGrant e.1 :: (List.range e.2.walks.length).map fun n => .walkComplete e.1 n
def ofSurv (e : Nat × Surveyor) : List Instr :=
  [.callqAppend e.1, .mboxDelivery e.1, .callCopyDone e.1, .svTimerExpiry e.1]
def ofSheet (h : Sheet) : List Instr :=
  [.sheetRollback h.id, .spawnLimitResume h.id] ++
  h.tasks.flatMap (fun t => [.taskCompletion h.id t.num, .taskDispatch h.id t.num, .ageingStep h.id t.num, .teamPlacement h.id t.num]) ++
  [.gangPlacement h.id, .gangReservation h.id, .sealJobStart h.id, .sheetRetire h.id]

/-- The events of the part itself that may be due, the records' own in the order in which they stand. -/
def State.candidates (s : State) : List Instr :=
  s.groups.flatMap ofGroup ++ s.teams.flatMap ofTeam ++ s.cores.flatMap ofCore ++
  s.dies.flatMap ofDie ++
  (List.range 4).map (fun d => Instr.generationAdvance d) ++
  (List.range s.msgs.length).map (fun n => Instr.portMessageArrival n) ++
  (List.range s.puts.length).flatMap (fun n => [.putArrival n, .putAckReceipt n]) ++
  s.survs.flatMap ofSurv ++ s.sheets.flatMap ofSheet ++ s.queues.map (fun q => .sheetStart q.num) ++
  [.migration 0, .balancerTick]
/-- The rest of them, as they end: budgets, clock steps, spills, `%lanemap`, retirement, first sheets. -/
def State.moreEvents (s : State) : List Out :=
  ((s.cores.map fun e => clusterOf e.1).eraseDups).map (fun c => execBudgetPeriod c s) ++
  ((s.cores.map fun e => clusterOf e.1).eraseDups).map (fun c => execClusterClockStep c s) ++
  s.groups.map (fun g => execBudgetSpillGrant g.id s) ++ s.cores.map (fun e => execLanemapRewrite e.1 s) ++
  s.cores.map (fun e => execCoreRetire e.1 s) ++ [.next s.bootSubmit]
/-- An event is due when it changes something. -/
def State.changed (s : State) : Out → Option State
  | .next t => if t = s then none else some t
  | .fault _ => none
  | .refused _ => none
def State.dueEvent (s : State) : Option State :=
  match s.candidates.findSome? fun i => s.changed (exec i s) with
  | some t => some t
  | none => s.moreEvents.findSome? s.changed
/-- The core that issues next: the first from `rr` on whose picker has a subset. -/
def State.nextCore (s : State) : Option Nat :=
  let cs := (s.groups.map (·.core)).eraseDups
  (cs.filter (s.rr ≤ ·) ++ cs.filter (· < s.rr)).find? fun c => (s.pick c).isSome
/-- The default schedule: an event that is due, else the next core's issue, else time passes. A part held in reset stays as it
is. Whether a read-only load sees an older write is a free value (log 2). -/
def State.idle (s : State) : Out :=
  if s.undervolt then .next s
  else if !s.booted then .next s.boot
  else match s.dueEvent with
    | some t => .next t
    | none => match s.nextCore with
      | some c => { s with rr := c + 1, free := s.free + 1 }.issue c (Config.roStale s.free)
      | none => .next (s.passTime 1)

/-! ### After every step -/

/-- The order of groups that have begun to wait, the restores that wait for a context, and pages on their way. -/
def State.finish (s : State) : State := s.finishMoves.finishRestores.noteSeq
def Out.finish : Out → Out
  | .next s => .next s.finish
  | .fault f => .fault f
  | .refused r => .refused r

/-! ### Placing an instruction where the next step fetches it (log 1) -/

/-- The physical address of the line that core 0 fetches next, and the slot in it. -/
def State.nextLine (s : State) : Option (Nat × Nat) :=
  match s.pick 0 with
  | none => none
  | some (gid, m) => match s.grp? gid with
    | none => none
    | some g =>
      let pc := (g.lane (lowest m)).pc
      match s.fetchLine g (lineBase pc) with
      | .bytes _ p => some (p, slotOf pc)
      | _ => none
/-- A slot of a line replaced, and the line's parity made right again (R24). -/
def putSlot (bs : List Byte) (slot w : Nat) : List Byte :=
  let b := bs.take (12 * slot) ++ leBytes 12 w ++ (bs.drop (12 * slot + 12)).take (62 - (12 * slot + 12))
  b ++ leBytes 2 (linePar (leNat b))
/-- A group with every register that a header may declare (R72), alone on core 0. -/
def demoGroup (id : Nat) : Group :=
  { id, width := 64, vcount := 256, scount := 128, vregs := List.replicate 256 (List.replicate 64 0#32)
    sregs := List.replicate 128 0#64, preds := List.replicate 15 0#64, lanes := (List.range 64).map fun L => { pc := 65536#64, wp := 65536#64, sr := srSeed 0#64 0 0 L, srRec := srSeed 0#64 0 0 L } }
/-- A page for its code, readable and executable (R319). -/
def demoPage : TlbEntry := { asn := 0, va := 65536, bits := 16, leaf := BitVec.ofNat 64 (65536 + 23) }
/-- What loading a program brings to a part that runs none. -/
def State.loadDemo (s : State) : State :=
  let s1 := s.modCore 0 fun c => { c with tlb := c.tlb ++ [demoPage], lead := [0, 0, 0, 0] }
  { s1 with groups := s1.groups.filter (fun g => g.core != 0) ++ [demoGroup s.fresh], fresh := s.fresh + 1 }
/-- The word in the slot that core 0 fetches next. -/
def State.putWord (s : State) (w : Nat) : State :=
  match s.nextLine with
  | some (p, k) => { s with mem := s.mem.store p (putSlot (s.mem.bulk p 64) k w) }
  | none => s

end Sys2Proof.Machine
end

