-- ==== Sys2Proof/Machine/Step.lean ====
section
/-!
DEFINITION. One step: the first item of the agenda, or, with nothing on it, the default schedule; and the placing of an
instruction where the next step fetches it.
-/
namespace Sys2Proof.Machine

def step (s : State) : Host.Outcome State Fault Refusal :=
  match s.agenda with
  | [] => s.idle.finish
  | x :: xs => ({ s with agenda := xs }.runItem x).finish

/-- The instruction whose low bits are w, where core 0 fetches next; where core 0 has nothing to issue, a group is loaded first.
The next step is core 0's issue. -/
def State.withFetchWord (s : State) (nbits w : Nat) : State :=
  let t := if s.nextLine.isSome then s else s.loadDemo
  { t.putWord (w % 2 ^ nbits) with agenda := [.issue 0 false] }

end Sys2Proof.Machine
end

