-- ==== Sys2Proof/Safety.lean ====
section
/-!
DEFINITION. The terms that claims use: the shape of a group, the form of a state that every step keeps, an issue that is performed,
and what an instruction leaves alone.
-/
namespace Sys2Proof.Machine

/-! ### Shapes and the form that steps keep -/

/-- A group has the lanes of its width (R80), the registers of its header (R38, R122, R123), fifteen stored predicates (R124) and four
latches (R46). -/
def Group.shaped (g : Group) : Bool :=
  [16, 32, 64].contains g.width && g.lanes.length == g.width && g.vregs.length == g.vcount && g.vregs.all (·.length == g.width) &&
  g.sregs.length == g.scount && g.preds.length == 15 && g.latches.length == 4

/-! ### An issue that is performed -/

/-- A subset issues a well-formed instruction word, no check stops it (R58), a lane executes (R42), its class has not used its
allowance (R447), the pipes agree (R135), and its group is not stepped (R415). `q` is what the meaning is given. -/
structure Performs (i : Instr) (s : State) (q : Q) : Prop where
  formed : i.wf = true
  issues : s.issuing i = some q
  passes : q.stops = none
  executes : q.act ≠ 0#64
  supplied : s.workWait i q = none
  agrees : s.disagreement q = none
  unstepped : q.g.stepping = false
  shaped : q.g.shaped = true

/-- Registers, predicates, and what each lane keeps: all of a group but its clocks, waits, latches and bookkeeping. -/
structure GroupView where
  vregs : List (List Word)
  sregs : List DWord
  preds : List Mask
  lanes : List (DWord × DWord × List DWord × Bool × Word × Flags × DWord)
  batches : List Batch
  calls : List CallRec
  st : CtxState
  save : Save
def Lane.view (l : Lane) : DWord × DWord × List DWord × Bool × Word × Flags × DWord := (l.pc, l.wp, l.stack, l.exited, l.sr, l.fflags, l.targ)
def Group.view (g : Group) : GroupView :=
  { vregs := g.vregs, sregs := g.sregs, preds := g.preds, lanes := g.lanes.map Lane.view, batches := g.batches, calls := g.calls
    st := g.st, save := g.save }

/-- Everything but groups, cores, clusters and the issue itself is as it was: memory, teams with their scratchpads and ports, sheets, queues,
Surveyors, dies, trust, time. -/
def SameOutside (s t : State) : Prop := { t with groups := s.groups, cores := s.cores, clusters := s.clusters, cur := s.cur } = s
/-- A cluster but for what its classes have used of a period, and how often all of it (R443, R445). -/
def Cluster.terms (c : Cluster) : Cluster := { c with budgets := c.budgets.map fun b => { b with used := [], exh := [] } }
/-- Of the clusters only the issuing core's changes: what its classes have used. -/
def SameClusters (s t : State) (q : Q) : Prop :=
  (∀ k, k ≠ clusterOf q.core → t.cluster k = s.cluster k) ∧
  (t.cluster (clusterOf q.core)).terms = (s.cluster (clusterOf q.core)).terms
/-- Every other group keeps its registers, predicates, lanes, batches and calls. -/
def SameOthers (s t : State) (q : Q) : Prop := ∀ id, id ≠ q.g.id → (t.grp? id).map Group.view = (s.grp? id).map Group.view
/-- Of the cores only the issuing one changes: its clock, its rotation, its charges, and the queue for request entries, which a subset that
goes on has left (R7, R91, R131, R282, R442). -/
def SameCores (s t : State) (q : Q) : Prop :=
  (∀ c, c ≠ q.core → t.core c = s.core c) ∧
  { t.core q.core with cycle := (s.core q.core).cycle, lead := (s.core q.core).lead, rot := (s.core q.core).rot
                       charges := (s.core q.core).charges, reqQ := (s.core q.core).reqQ } = s.core q.core
/-- The frame of an instruction that works on its group's registers alone. -/
structure OnlyGroup (s t : State) (q : Q) : Prop where
  outside : SameOutside s t
  others : SameOthers s t q
  cores : SameCores s t q
  clusters : SameClusters s t q
/-- After an instruction that goes on: the lanes of the subset stand at the next slot and wait for nothing, the others stand where they
stood; the flags and generators of the lanes are those given, and the rest of each lane is as it was. -/
def Advances (q : Q) (g : Group) (fl : Nat → Flags) (sr : Nat → Word) : Prop :=
  ∀ L, L < q.g.width →
    (g.lane L).pc = (if q.sub.getLsbD L then nextPc q.pc else (q.g.lane L).pc) ∧
    (q.sub.getLsbD L = true → (g.lane L).wait = .none) ∧
    (g.lane L).fflags = fl L ∧ (g.lane L).sr = sr L ∧ (g.lane L).srRec = (q.g.lane L).srRec ∧ (g.lane L).wp = (q.g.lane L).wp ∧
    (g.lane L).stack = (q.g.lane L).stack ∧ (g.lane L).exited = (q.g.lane L).exited ∧ (g.lane L).targ = (q.g.lane L).targ

/-! ### Results in registers (R127, R128) -/

/-- The value of a destination of width w (1 or 2) as the group holds it in a lane: a vector register or pair, or a scalar register,
which takes a 32-bit result extended. -/
def Dest (d : Opnd) (w : Nat) (signed : Bool) (q : Q) (g : Group) (val : Nat → DWord) : Prop :=
  match d with
  | .v n =>
    (∀ r L, L < q.g.width →
      g.v r L =
        if q.pf.nwb = false ∧ q.act.getLsbD L = true ∧ r = n.toNat then lo32 (val L)
        else if q.pf.nwb = false ∧ q.act.getLsbD L = true ∧ w = 2 ∧ r = n.toNat + 1 then hi32 (val L)
        else q.g.v r L) ∧ g.sregs = q.g.sregs
  | .s n =>
    g.vregs = q.g.vregs ∧
    ∀ r, g.s r = if q.pf.nwb = false ∧ r = n.toNat then (if w = 2 then val (lowest q.act) else ext32 signed (val (lowest q.act))) else q.g.s r
  | _ => g.vregs = q.g.vregs ∧ g.sregs = q.g.sregs
/-- A truth value's destination: a predicate in the lanes that execute, or 1 or 0 in a scalar register (R146, R156); p15 keeps no
write (R39). -/
def DestBool (d : Opnd) (q : Q) (g : Group) (val : Nat → Bool) : Prop :=
  g.vregs = q.g.vregs ∧
  match d with
  | .p n =>
    g.sregs = q.g.sregs ∧
    ∀ r L, L < q.g.width → g.p r L = if q.act.getLsbD L = true ∧ r = n.toNat ∧ r < 15 then val L else q.g.p r L
  | .s n =>
    g.preds = q.g.preds ∧ ∀ r, g.s r = if q.pf.nwb = false ∧ r = n.toNat then (if val (lowest q.act) then 1#64 else 0#64) else q.g.s r
  | _ => g.sregs = q.g.sregs ∧ g.preds = q.g.preds


/-! ### What an instruction gives -/

/-- What a group keeps beside registers and lanes: batches, calls, its context state and what a save left. -/
def Kept (q : Q) (g : Group) : Prop :=
  g.batches = q.g.batches ∧ g.calls = q.g.calls ∧ g.st = q.g.st ∧ g.save = q.g.save ∧ g.frame = q.g.frame
/-- The lane whose operands lane L computes with: its own, or, of an instruction that runs once for the group, the lowest that
executes (R41, R128). -/
def Q.laneOf (q : Q) (L : Nat) : Nat := if q.sg.uniform q.g then lowest q.act else L
/-- A lane instruction (R127, R128, R134) completes: its destination takes the value, the lanes that execute OR the flags into theirs,
every lane of the subset goes on at the next slot, and all else stays. -/
def GivesAt (i : Instr) (s : State) (q : Q) (d : Opnd) (w : Nat) (signed : Bool) (val : Nat → DWord) (fl : Nat → Flags) : Prop :=
  ∃ t g, exec i s = .next t ∧ t.grp? q.g.id = some g ∧ Dest d w signed q g val ∧ g.preds = q.g.preds ∧
    Advances q g (fun L => if q.act.getLsbD L then (q.g.lane L).fflags ||| fl (q.laneOf L) else (q.g.lane L).fflags)
      (fun L => (q.g.lane L).sr) ∧ Kept q g ∧ OnlyGroup s t q
/-- It completes wherever it is performed. -/
def Gives (i : Instr) (d : Opnd) (w : Nat) (signed : Bool) (val : State → Q → Nat → DWord) (fl : Q → Nat → Flags) : Prop :=
  ∀ s q, Performs i s q → GivesAt i s q d w signed (val s q) (fl q)
/-- An instruction whose result is a truth value, in the same way. -/
def GivesBoolAt (i : Instr) (s : State) (q : Q) (d : Opnd) (val : Nat → Bool) (fl : Nat → Flags) : Prop :=
  ∃ t g, exec i s = .next t ∧ t.grp? q.g.id = some g ∧ DestBool d q g val ∧
    Advances q g (fun L => if q.act.getLsbD L then (q.g.lane L).fflags ||| fl (q.laneOf L) else (q.g.lane L).fflags)
      (fun L => (q.g.lane L).sr) ∧ Kept q g ∧ OnlyGroup s t q
def GivesBool (i : Instr) (d : Opnd) (val : Q → Nat → Bool) (fl : Q → Nat → Flags) : Prop :=
  ∀ s q, Performs i s q → GivesBoolAt i s q d (val q) (fl q)
/-- An instruction that changes no register, predicate or flag of its group. -/
def GoesOn (i : Instr) : Prop :=
  ∀ s q, Performs i s q → ∃ t g, exec i s = .next t ∧ t.grp? q.g.id = some g ∧ g.vregs = q.g.vregs ∧ g.sregs = q.g.sregs ∧
    g.preds = q.g.preds ∧ Advances q g (fun L => (q.g.lane L).fflags) (fun L => (q.g.lane L).sr) ∧ Kept q g ∧ OnlyGroup s t q

/-- What a meaning leaves, `u` with the group `G`, becomes `t` with the group `g` when its subset goes on: the lanes of the subset stand at
the next slot and wait for nothing, the registers and all else of the group stay, and so does the machine but for the issuing core's
clock, rotation, charges and queue, and for what its cluster's classes have used. -/
structure Continues (q : Q) (u t : State) (G g : Group) : Prop where
  before : u.grp? q.g.id = some G
  after : t.grp? q.g.id = some g
  vregs : g.vregs = G.vregs
  sregs : g.sregs = G.sregs
  preds : g.preds = G.preds
  lanes : ∀ L, L < q.g.width → (g.lane L).view = (if q.sub.getLsbD L then { G.lane L with pc := nextPc q.pc } else G.lane L).view ∧
    (g.lane L).srRec = (G.lane L).srRec ∧ (q.sub.getLsbD L = true → (g.lane L).wait = .none)
  kept : g.batches = G.batches ∧ g.calls = G.calls ∧ g.st = G.st ∧ g.save = G.save ∧ g.frame = G.frame
  rest : OnlyGroup u t q
/-- The subset waits at its slot (R89): the registers and all else of the group stay, and so does the machine but for the issuing
core's clock, rotation and charges, for what its cluster's classes have used, and for the queue that the wait joins. -/
structure WaitsAt (q : Q) (w : Wait) (u t : State) (G g : Group) : Prop where
  before : u.grp? q.g.id = some G
  after : t.grp? q.g.id = some g
  vregs : g.vregs = G.vregs
  sregs : g.sregs = G.sregs
  preds : g.preds = G.preds
  lanes : ∀ L, L < q.g.width → (g.lane L).view = (G.lane L).view ∧ (g.lane L).srRec = (G.lane L).srRec ∧
    (q.sub.getLsbD L = true → (g.lane L).wait = w ∨ (∃ n k, w = .nap n ∧ (g.lane L).wait = .nap (n - k)))
  kept : g.batches = G.batches ∧ g.calls = G.calls ∧ g.st = G.st ∧ g.save = G.save ∧ g.frame = G.frame
  others : SameOthers u t q
  outside : { t with groups := u.groups, cores := u.cores, clusters := u.clusters, dies := u.dies, cur := u.cur } = u
  clusters : SameClusters u t q

/-! ### Values that rules name -/

/-- No flag. -/
def noFlags : Q → Nat → Flags := fun _ _ => 0#6
/-- An N-wide operand of an integer instruction, as bits and as the type reads it (R139). -/
def nBits (o : F5) (x : Opnd) (g : Group) (L : Nat) : BitVec (ivN o) := BitVec.ofNat (ivN o) (g.rd x (ivW o) L).toNat
def nInt (o : F5) (x : Opnd) (g : Group) (L : Nat) : Int := if ivSigned o then (nBits o x g L).toInt else (nBits o x g L).toNat
/-- The nearest value of the n-bit type (R139). -/
def clampTo (n : Nat) (signed : Bool) (x : Int) : Int :=
  if signed then max (-(2 ^ (n - 1) : Nat)) (min ((2 ^ (n - 1) : Nat) - 1) x) else max 0 (min ((2 ^ n : Nat) - 1) x)
/-- R139: the result of an exact integer: saturated under SAT, else modulo 2 to the N; and the flag SV, bit 5, where saturation changes
the exact result. -/
def nResult (o : F5) (n : Nat) (x : Int) : DWord :=
  (BitVec.ofInt n (if ivSat o then clampTo n (ivSigned o) x else x)).setWidth 64
def nFlags (o : F5) (n : Nat) (x : Int) : Flags := if ivSat o = true ∧ clampTo n (ivSigned o) x ≠ x then 0b100000#6 else 0#6
/-- A 32-bit operand, as bits, as a position, and as a signed or unsigned integer. -/
def bits32 (x : Opnd) (g : Group) (L : Nat) : Word := lo32 (g.rd x 1 L)
def int32 (x : Opnd) (signed : Bool) (g : Group) (L : Nat) : Int := if signed then (bits32 x g L).toInt else (bits32 x g L).toNat
/-- An operand read as a truth value (R35). -/
def predTrue (x : Opnd) (g : Group) (L : Nat) : Bool :=
  match x with
  | .p n => g.p n.toNat L
  | _ => false

/-- An integer instruction under R139, with the exact result of a lane. -/
def GivesInt (i : Instr) (o : F5) (x : Group → Nat → Int) : Prop :=
  Gives i o.d (ivW o) (ivSigned o) (fun _ q L => nResult o (ivN o) (x q.g L)) (fun q L => nFlags o (ivN o) (x q.g L))
/-- An integer instruction that gives N bits and no flag. -/
def GivesBits (i : Instr) (o : F5) (x : Group → Nat → BitVec (ivN o)) : Prop :=
  Gives i o.d (ivW o) (ivSigned o) (fun _ q L => (x q.g L).setWidth 64) noFlags
/-- A floating instruction on one value per register operand: the exact result of R153 rounded once, with its flags (R154). -/
def GivesFloat (i : Instr) (o : F5) (f : Fmt) (w : Nat) (x : (Opnd → FVal) → Exact) : Prop :=
  let r := fun (q : Q) L => fRound f (rmF5 o) (x fun a => rdF f w q.g a L)
  Gives i o.d w false (fun _ q L => (r q L).v) (fun q L => (r q L).fl)
/-- A packed instruction (R159): each half of each operand by itself. -/
def GivesHalves (i : Instr) (o : F5) (x : (Opnd → FVal) → Exact) : Prop :=
  let f := if mbit o.mod 2 then bf16 else fp16
  let r := fun (j : Nat) (q : Q) L => fRound f (rmF5 o) (x fun a => rdH f j q.g a L)
  Gives i o.d 1 false (fun _ q L => (r 1 q L).v <<< 16 ||| (r 0 q L).v) (fun q L => (r 0 q L).fl ||| (r 1 q L).fl)

/-! ### Accesses to memory -/

/-- Every lane that executes passes the checks of its access of n bytes (R304), and its address leads to `phys L`, outside the submission
pages (R340). -/
def Reaches (s : State) (q : Q) (addr : Nat → Int) (n : Nat) (acc : Acc) (phys : Nat → Nat) : Prop :=
  ∀ L, q.act.getLsbD L = true → s.subPage q.g.asn (addr L) = none ∧ s.rangeCond q.g (addr L) n n acc = none ∧
    s.route q.g (addr L).toNat acc = .pa (phys L)
/-- The accesses of the lanes that execute, as physical address and length. -/
def accessesOf (q : Q) (phys : Nat → Nat) (n : Nat) : List (Nat × Nat) := (lanesOf q.g.width q.act).map fun L => (phys L, n)
/-- The instruction's class withholds nothing of its NoC slots and HBM units (R447), and request entries are free for the lines that miss or
leave, with no other subset first (R282). -/
def RequestsFree (s : State) (q : Q) (u : LineUse) (as : List (Nat × Nat)) : Prop :=
  s.withheld q (if as.isEmpty then [] else [0, 1]) q.workClass = none ∧
  (s.takeLines q.core q.g.id q.sub (u != .load) ((s.core q.core).entriesFor u as)).isSome = true
/-- No word of memory or of the core's L1 fails its check (R421). -/
def NoBadWord (s : State) (q : Q) : Prop := s.bad = [] ∧ (s.core q.core).badL1 = []
/-- What an access may change beside its group and memory: TLBs, caches, request entries, marks, snoop filters, and what classes have used. -/
def OnlyTraffic (s u : State) : Prop :=
  { u with groups := s.groups, cores := s.cores, clusters := s.clusters, dies := s.dies, cur := s.cur, mem := s.mem,
           sheets := s.sheets, snapUsed := s.snapUsed, bad := s.bad } = s ∧
  (∀ c, { u.core c with tlb := (s.core c).tlb, reqs := (s.core c).reqs, reqQ := (s.core c).reqQ, l1 := (s.core c).l1
                        badL1 := (s.core c).badL1 } = s.core c) ∧
  ∀ c, (u.cluster c).terms = (s.cluster c).terms
/-- R281: what a release or an acquire at team scope may change: nothing for a team on one core, else caches, request entries and the words that
leave an L1 with errors. -/
def TeamTraffic (s u : State) (q : Q) : Prop :=
  (s.pairedOf q.g = false → u = s) ∧ { u with cores := s.cores, dies := s.dies, bad := s.bad } = s ∧
  ∀ c, { u.core c with l1 := (s.core c).l1, badL1 := (s.core c).badL1, reqs := (s.core c).reqs } = s.core c
/-- A number of n bytes as DATA receives it: 8 and 16 bits extended (R127, R305). -/
def memVal (sx : Bool) (n x : Nat) : DWord :=
  if sx ∧ n = 1 then (BitVec.ofNat 8 x).signExtend 64 else if sx ∧ n = 2 then (BitVec.ofNat 16 x).signExtend 64 else BitVec.ofNat 64 x
/-- DATA of a load after it: the register or pair, or the four registers of a quad, in the lanes that execute (R33, R305). -/
def Loaded (o : FM) (q : Q) (G : Group) (x : Nat → Nat) : Prop :=
  if o.size = 4#4 then
    G.sregs = q.g.sregs ∧ ∀ d, o.data = .v d → ∀ r L, L < q.g.width →
      G.v r L = if q.act.getLsbD L = true ∧ d.toNat ≤ r ∧ r < d.toNat + 4 then BitVec.ofNat 32 (x L / 2 ^ (32 * (r - d.toNat))) else q.g.v r L
  else Dest o.data (sizeW o.size) false q G (fun L => memVal (mbit o.mod 0) (sizeBytes o.size) (x L))
/-- The group but for its registers. -/
def SameLanes (q : Q) (G : Group) : Prop :=
  G.lanes = q.g.lanes ∧ G.preds = q.g.preds ∧ G.batches = q.g.batches ∧ G.calls = q.g.calls ∧ G.st = q.g.st ∧ G.save = q.g.save ∧
  G.frame = q.g.frame
/-- The byte that a store of the lanes leaves at an address: the highest lane's that covers it, else the old byte (R306). -/
def storedByte (q : Q) (phys : Nat → Nat) (n : Nat) (bytes : Nat → List Byte) (old : Mem) (a : Nat) : Byte :=
  match (lanesOf q.g.width q.act).reverse.find? fun L => decide (phys L ≤ a) && decide (a < phys L + n) with
  | some L => (bytes L).getD (a - phys L) 0#8
  | none => old.read a

/-! ### Completions by the state that a meaning leaves -/

/-- The instruction completes: its meaning leaves `u`, and its subset goes on. -/
def Goes (i : Instr) (s : State) (q : Q) (u : State) : Prop := ∃ t G g, exec i s = .next t ∧ Continues q u t G g
/-- The instruction completes by waiting: its meaning leaves `u`, and its subset waits under w. -/
def Waits (i : Instr) (s : State) (q : Q) (w : Wait) (u : State) : Prop := ∃ t G g, exec i s = .next t ∧ WaitsAt q w u t G g
/-- The instruction takes an exception from the state `u` (R58, R406). -/
def Traps (i : Instr) (s : State) (q : Q) (c : Cause) (lanes : Mask) (addr : DWord) (code : Nat) (u : State) : Prop :=
  ∃ G, u.grp? q.g.id = some G ∧ exec i s = .next { u.takeException (G.faulted i q) c q.pc q.sub lanes addr code with cur := none }
/-- Its meaning changes only its group, to `G`. -/
def GoesAs (i : Instr) (s : State) (q : Q) (G : Group) : Prop := Goes i s q (s.setGrp G) ∧ G.id = q.g.id
/-- The lanes that a transfer takes (R104). -/
def takesLane (o : FB) (q : Q) (L : Nat) : Bool :=
  q.act.getLsbD L && ((o.cond == .v 0#8 || predTrue o.cond q.g L) != mbit o.mod 0)
/-- R104: of the lanes that a call takes, those whose call stacks hold four entries or more put the fourth from the top into the group's
call-stack area; every other byte of memory stays. -/
structure Spills (s u : State) (q : Q) (takes : Nat → Bool) : Prop where
  rest : { u with mem := s.mem, bad := s.bad } = s
  good : ∀ w ∈ u.bad, w ∈ s.bad
  bytes : ∀ a, (∀ L, L < q.g.width → takes L = true → 4 ≤ (q.g.lane L).stack.length →
      let p := q.g.stackAddr L + 8 * ((q.g.lane L).stack.length - 4)
      a < p ∨ p + 8 ≤ a) → u.mem.read a = s.mem.read a
/-- A transfer that completes (R104): each lane it takes stands at its destination, the others of the subset at the next slot; CALL
pushes the next slot, RET pops; and the registers, flags and the rest are those of `u`. -/
def Transfers (i : Instr) (u : State) (s : State) (q : Q) (takes : Nat → Bool) (dest : Nat → DWord) (stack : Nat → List DWord) (t : State) (g : Group) : Prop :=
  exec i s = .next t ∧ t.grp? q.g.id = some g ∧ g.vregs = q.g.vregs ∧ g.sregs = q.g.sregs ∧ g.preds = q.g.preds ∧ Kept q g ∧
  (∀ L, L < q.g.width →
    (g.lane L).pc = (if q.sub.getLsbD L && takes L then dest L else if q.sub.getLsbD L then nextPc q.pc else (q.g.lane L).pc) ∧
    (q.sub.getLsbD L = true → (g.lane L).wait = .none) ∧
    (g.lane L).stack = (if q.sub.getLsbD L && takes L then stack L else (q.g.lane L).stack) ∧
    (g.lane L).fflags = (q.g.lane L).fflags ∧ (g.lane L).sr = (q.g.lane L).sr ∧ (g.lane L).wp = (q.g.lane L).wp ∧
    (g.lane L).exited = (q.g.lane L).exited ∧ (g.lane L).targ = (q.g.lane L).targ) ∧ OnlyGroup u t q

/-! ### Batches (R206 to R208) -/

/-- What the engine sees: the matrix state, memory and scratchpad with what the batch has written (R207). -/
def seenM (s : State) (q : Q) (b : Batch) : MState := b.pend.m.getD (s.core q.core).mstate
def seenMem (s : State) (b : Batch) : Mem := b.pend.mem.foldl (fun m e => m.store e.1 e.2) s.mem
def seenScratch (tm : Team) (b : Batch) : Mem := b.pend.scratch.foldl (fun m e => m.store e.1 e.2) tm.scratch
/-- The group has one batch, which is open and has room, and the engine has executed all of it; no error, absent chunk or failed chunk
is about. -/
structure EngineIdle (s : State) (q : Q) (b : Batch) (tm : Team) : Prop where
  mtx : q.g.matrix = true
  batches : q.g.batches = [b]
  open_ : b.closed = false
  room : b.count < 64
  done : b.todo = []
  core : q.g.core = q.core
  team : s.team? q.g.team = some tm
  chunks : tm.failed = [] ∧ tm.absent = []
  good : tm.bad = [] ∧ NoBadWord s q ∧ (seenM s q b).badT = [] ∧ (seenM s q b).badA = [] ∧ (s.core q.core).residueRuns = 0
/-- The instruction enters the batch and the engine executes it: the batch holds what it writes, and registers, memory, scratchpad and the
core's matrix state are as they were; the lanes become those given. What an engine's load does to the group's read-only path, and to TLBs,
caches, request entries, snoop filters and budgets, is left open (R210, R277, R280, R297, R322, R444). -/
def Executes (i : Instr) (s : State) (q : Q) (b : Batch) (writes : List Nat) (e : Eff) (lanes : List Lane) : Prop :=
  ∃ u t G g pages ro, exec i s = .next t ∧ Continues q u t G g ∧ SameOthers s u q ∧ (∀ p ∈ b.pages, p ∈ pages) ∧
    G = { q.g with
      lanes, roMem := ro
      batches := [{ b with
        count := b.count + 1, written := b.written ++ writes, pages
        pend := { m := some e.m, vregs := b.pend.vregs ++ e.vregs, mem := b.pend.mem ++ e.mem, scratch := b.pend.scratch ++ e.scratch
                  fl := b.pend.fl ||| e.fl } }] } ∧
    { u with groups := s.groups, cores := s.cores, clusters := s.clusters, dies := s.dies, bad := s.bad } = s ∧
    (∀ c, { u.core c with tlb := (s.core c).tlb, charges := (s.core c).charges, reqs := (s.core c).reqs, reqQ := (s.core c).reqQ
                          l1 := (s.core c).l1, badL1 := (s.core c).badL1 } = s.core c) ∧
    ∀ c, (u.cluster c).terms = (s.cluster c).terms

/-! ### Ports -/

/-- The join units of the cores have nothing to choose, and the patterns' ready bits follow what the ports hold: what each step of the
ports leaves (R373, R374). -/
def JoinsIdle (s : State) (cores : List Nat) : Prop :=
  ∀ c ∈ cores, s.consumers c = [] ∧ ∀ t ∈ s.teams, t.cores.contains c = true → t.refresh = t

/-! ### Service calls -/

/-- The bytes of a call slot (R392, R393, R404), at address A of memory m: number, form, port, CSEQ, mask, ANSWERED, PC, sheet, CTX, zero bytes,
leaders, arguments; and every other byte as in `old`. -/
def CallSlot (m old : Mem) (A : Nat) (q : Q) (o : FY) (active : Mask) (form port cseq : Nat) (arg : Nat → Nat → DWord) : Prop :=
  m.loadNat A 2 = o.code.toNat ∧ m.loadNat (A + 2) 1 = form ∧ m.loadNat (A + 3) 1 = port ∧ m.loadNat (A + 4) 4 = cseq ∧
  m.loadNat (A + 8) 8 = active.toNat ∧ m.loadNat (A + 16) 8 = 0 ∧ m.loadNat (A + 24) 8 = q.pc.toNat ∧ m.loadNat (A + 32) 8 = q.g.sheetid.toNat ∧
  m.loadNat (A + 40) 4 = (q.g.core + 1024 * q.g.ctx) % 2 ^ 32 ∧ (∀ k, k < 20 → m.read (A + 44 + k) = 0#8) ∧
  (∀ L, L < 64 → active.getLsbD L = true →
    (∃ M, m.loadNat (A + 64 + L) 1 = M ∧ active.getLsbD M = true ∧ (∀ i, i < narg o → arg i M = arg i L) ∧
      ∀ K, K < M → active.getLsbD K = true → ∃ i, i < narg o ∧ arg i K ≠ arg i L) ∧
    ∀ i, i < narg o → m.loadNat (A + 128 + 32 * L + 8 * i) 8 = (arg i L).toNat) ∧
  (∀ L, L < 64 → active.getLsbD L = false → m.loadNat (A + 64 + L) 1 = 255) ∧
  ∀ a, (a < A ∨ A + 2176 ≤ a) → m.read a = old.read a

/-! ### Waits that end, and calls that a shard serves -/

/-- The lanes that wait under p stand at the next slot and wait for nothing; the rest of the group stays, but for its joins. -/
structure Released (p : Wait → Bool) (g h : Group) : Prop where
  lanes : ∀ L, L < g.lanes.length →
    (h.lane L).view = (if !(g.lane L).exited && p (g.lane L).wait then { g.lane L with pc := nextPc (g.lane L).pc } else g.lane L).view ∧
    (h.lane L).wait = if !(g.lane L).exited && p (g.lane L).wait then .none else (g.lane L).wait
  rest : h.id = g.id ∧ h.vregs = g.vregs ∧ h.sregs = g.sregs ∧ h.preds = g.preds ∧ h.batches = g.batches ∧ h.calls = g.calls ∧ h.st = g.st
/-- The lanes that wait under p wait for nothing, so that their instruction issues again; the rest of the group stays. -/
def IssuesAgain (p : Wait → Bool) (g h : Group) : Prop :=
  (∀ L, L < g.lanes.length → h.lane L = { g.lane L with wait := if p (g.lane L).wait then .none else (g.lane L).wait }) ∧
  { h with lanes := g.lanes } = g
/-- A lane that has not exited waits under p. -/
def Group.HasWait (g : Group) (p : Wait → Bool) : Prop := ∃ l ∈ g.lanes, l.exited = false ∧ p l.wait = true

/-- The pages of ranges of the caller's memory are mapped, or their memory shards have answered for them (R395). -/
def State.HasPages (s : State) (x : Call) (rs : List (Nat × Nat)) : Prop :=
  ∀ e ∈ rs, ∀ p ∈ s.absentPages x.g.asn e.1 e.2, p ∈ x.c.replied
/-- A call may be served: it is in progress and has reached the shard that owns what it names (R389), the lane has no result and no answer,
it is its turn (R394), and its sheet is no re-run. -/
structure Serving (s : State) (slot lane callno : Nat) (x : Call) (led : Mask) (merge : Bool) : Prop where
  found : s.callAt slot = some (x.g, x.c)
  at_ : x.pa = slot ∧ x.lane = lane ∧ x.args = s.mem.callArgs slot lane
  number : x.c.callno = callno
  due : x.c.active.getLsbD lane = true ∧ x.c.served.getLsbD lane = false ∧ x.c.answered.getLsbD lane = false
  lanes : led = s.ledLanes slot lane merge x.c ∧ led.getLsbD lane = true
  reached : s.reached x = true
  turn : s.inTurn x = true
  live : ((s.sheet? x.g.sheet).bind (·.rerun)) = none
/-- The serving of a call leaves `u`, gives v as RESULT of the lanes that it answers, and marks them as served; a word written whole is good
again (R421), and a slot in the pool takes snoop filter entries (R280). -/
def Serves (i : Instr) (s : State) (x : Call) (led : Mask) (v : DWord) (u : State) : Prop :=
  ∃ t, exec i s = .next t ∧
    t.mem = (lanesOf 64 led).foldl (fun m L => m.store (x.pa + 2176 + 8 * L) (leBytes 8 v.toNat)) u.mem ∧
    { t with mem := u.mem, groups := u.groups, bad := u.bad, dies := u.dies } = u ∧ (∀ w ∈ t.bad, w ∈ u.bad) ∧
    t.groups = u.groups.map fun g => if g.id == x.g.id then
      { g with calls := g.calls.map fun y => if y.slot == x.c.slot then { y with served := y.served ||| led } else y } else g

end Sys2Proof.Machine
end

