-- ==== Sys2Proof/Certificates/Slice0/Obligations.lean ====
section
/-!
DEFINITION. The statements for the provers.
-/
open Sys2Proof Sys2Proof.Machine

/-- R139, R140, R141 (with R127, R128, R134): exact integer results, wrapped or saturated, the flag SV, the carry of IADDC, which
NWB does not hold back (log 33). -/
def Obligations.IntegerArithmetic : Prop :=
  (∀ o : F5,
     GivesInt (.iadd o) o (fun g L => nInt o o.a g L + nInt o o.b g L) ∧
     GivesInt (.isub o) o (fun g L => nInt o o.a g L - nInt o o.b g L) ∧
     GivesInt (.imul o) o (fun g L => nInt o o.a g L * nInt o o.b g L) ∧
     GivesInt (.imad o) o (fun g L => nInt o o.a g L * nInt o o.b g L + nInt o o.c g L) ∧
     GivesBits (.imulh o) o (fun g L => BitVec.ofInt (ivN o) (nInt o o.a g L * nInt o o.b g L / 2 ^ ivN o)) ∧
     (let x := fun (g : Group) (L : Nat) => int32 o.a (ivSigned o) g L * int32 o.b (ivSigned o) g L +
         (if ivSigned o then (g.rd o.c 2 L).toInt else ((g.rd o.c 2 L).toNat : Int))
      Gives (.imadw o) o.d 2 (ivSigned o) (fun _ q L => nResult o 64 (x q.g L)) (fun q L => nFlags o 64 (x q.g L)))) ∧
  (∀ o : F5, ∀ s q, Performs (.iaddc o) s q →
     let x := fun L => (nBits o o.a q.g L).toNat + (nBits o o.b q.g L).toNat + (predTrue o.c q.g L).toNat
     ∃ t g, exec (.iaddc o) s = .next t ∧ t.grp? q.g.id = some g ∧
       Dest o.d (ivW o) false q g (fun L => BitVec.ofNat 64 (x L % 2 ^ ivN o)) ∧
       (∀ r L, L < q.g.width → g.p r L =
         if q.act.getLsbD L = true ∧ o.e = .p (BitVec.ofNat 4 r) ∧ r < 15 then decide (2 ^ ivN o ≤ x L) else q.g.p r L) ∧
       Advances q g (fun L => (q.g.lane L).fflags) (fun L => (q.g.lane L).sr) ∧ Kept q g ∧ OnlyGroup s t q)

/-- R142: quotients round toward zero; a division by zero gives all ones, or a, and the flag DZ; the one quotient that does not fit wraps or is saturated. -/
def Obligations.IntegerDivision : Prop :=
  ∀ o : F5,
    Gives (.idiv o) o.d (ivW o) (ivSigned o)
      (fun _ q L => if nBits o o.b q.g L = 0#_ then (BitVec.allOnes (ivN o)).setWidth 64
        else nResult o (ivN o) ((nInt o o.a q.g L).tdiv (nInt o o.b q.g L)))
      (fun q L => if nBits o o.b q.g L = 0#_ then 0b001000#6 else nFlags o (ivN o) ((nInt o o.a q.g L).tdiv (nInt o o.b q.g L))) ∧
    Gives (.irem o) o.d (ivW o) (ivSigned o)
      (fun _ q L => if nBits o o.b q.g L = 0#_ then (nBits o o.a q.g L).setWidth 64
        else (BitVec.ofInt (ivN o) (nInt o o.a q.g L - nInt o o.b q.g L * (nInt o o.a q.g L).tdiv (nInt o o.b q.g L))).setWidth 64)
      (fun q L => if nBits o o.b q.g L = 0#_ then 0b001000#6 else 0#6)

/-- R140, R143, R147: shifts by any count, rotates, counts, extremes and exact dot products. -/
def Obligations.ShiftsCountsAndDotProducts : Prop :=
  (∀ o : F5,
     GivesBits (.ishl o) o (fun g L => nBits o o.a g L <<< (bits32 o.b g L).toNat) ∧
     GivesBits (.ishr o) o (fun g L => nBits o o.a g L >>> (bits32 o.b g L).toNat) ∧
     GivesBits (.isra o) o (fun g L => (nBits o o.a g L).sshiftRight (bits32 o.b g L).toNat) ∧
     GivesBits (.irot o) o (fun g L => if ivOpx o = 1 then (nBits o o.a g L).rotateRight (bits32 o.b g L).toNat
       else (nBits o o.a g L).rotateLeft (bits32 o.b g L).toNat)) ∧
  (∀ o : F5,
     Gives (.popc o) o.d 1 false (fun _ q L => BitVec.ofNat 64 ((List.range (ivN o)).countP fun i => (nBits o o.a q.g L).getLsbD i)) noFlags ∧
     Gives (.clz o) o.d 1 false (fun _ q L => (nBits o o.a q.g L).clz.setWidth 64) noFlags ∧
     Gives (.ctz o) o.d 1 false (fun _ q L => (nBits o o.a q.g L).ctz.setWidth 64) noFlags ∧
     GivesInt (.imin o) o (fun g L => min (nInt o o.a g L) (nInt o o.b g L)) ∧
     GivesInt (.imax o) o (fun g L => max (nInt o o.a g L) (nInt o o.b g L)) ∧
     GivesInt (.iabs o) o (fun g L => if nInt o o.a g L < 0 then -(nInt o o.a g L) else nInt o o.a g L)) ∧
  (∀ o : F5,
     let sg := mbit o.mod 0 || mbit o.mod 1
     let el := fun (w : Nat) (sign : Bool) (x : Word) (k : Nat) =>
       if sign then (x.extractLsb' (w * k) w).toInt else ((x.extractLsb' (w * k) w).toNat : Int)
     let x := fun (w n : Nat) (g : Group) L => int32 o.c sg g L + ((List.range n).map fun k =>
       el w (mbit o.mod 0) (bits32 o.a g L) k * el w (mbit o.mod 1) (bits32 o.b g L) k).sum
     let v := fun (y : Int) => (BitVec.ofInt 32 (if ivSat o then clampTo 32 sg y else y)).setWidth 64
     let f := fun (y : Int) => if ivSat o = true ∧ clampTo 32 sg y ≠ y then 0b100000#6 else 0#6
     Gives (.dot4 o) o.d 1 sg (fun _ q L => v (x 8 4 q.g L)) (fun q L => f (x 8 4 q.g L)) ∧
     Gives (.dot8 o) o.d 1 sg (fun _ q L => v (x 4 8 q.g L)) (fun q L => f (x 4 8 q.g L)))

/-- R140, R144, R145: truth tables, fields inserted and extracted bit by bit, and the bits reversed. -/
def Obligations.BitwiseInstructions : Prop :=
  ∀ o : F5,
    GivesBits (.logic o) o (fun g L => BitVec.ofFnLE fun i =>
      o.imm8.getLsbD (4 * ((nBits o o.a g L).getLsbD i).toNat + 2 * ((nBits o o.b g L).getLsbD i).toNat + ((nBits o o.c g L).getLsbD i).toNat)) ∧
    GivesBits (.bfi o) o (fun g L =>
      let p := (bits32 o.c g L).toNat % 256
      let n := (bits32 o.e g L).toNat % 256
      BitVec.ofFnLE fun i => if p ≤ i ∧ i < p + n then (nBits o o.a g L).getLsbD (i - p) else (nBits o o.b g L).getLsbD i) ∧
    GivesBits (.bfx o) o (fun g L =>
      let p := (bits32 o.b g L).toNat % 256
      let n := min (ivN o) ((bits32 o.c g L).toNat % 256)
      let bit := fun j => if p + j < ivN o then (nBits o o.a g L).getLsbD (p + j) else ivSigned o && (nBits o o.a g L).msb
      BitVec.ofFnLE fun i => if i < n then bit i else ivSigned o && decide (0 < n) && bit (n - 1)) ∧
    GivesBits (.brev o) o (fun g L => (nBits o o.a g L).reverse)

/-- R146, R150, R151: conditions, choices, truth tables over predicates. -/
def Obligations.ComparisonsAndChoices : Prop :=
  ∀ o : F5,
    GivesBool (.icmp o) o.d (fun q L =>
      let a := nInt o o.a q.g L
      let b := nInt o o.b q.g L
      match ivOpx o with
      | 0 => decide (a = b)
      | 1 => decide (a ≠ b)
      | 2 => decide (a < b)
      | 3 => decide (a ≤ b)
      | 4 => decide (a > b)
      | _ => decide (a ≥ b)) noFlags ∧
    GivesBool (.plog o) o.d (fun q L =>
      o.imm8.getLsbD (4 * (predTrue o.a q.g L).toNat + 2 * (predTrue o.b q.g L).toNat + (predTrue o.c q.g L).toNat)) noFlags ∧
    Gives (.sel o) o.d (w64 o.mod 0) false (fun _ q L =>
      if predTrue o.c q.g L then q.g.rd o.a (w64 o.mod 0) L else q.g.rd o.b (w64 o.mod 0) L) noFlags

/-- R148, R149, R131 to R134, R152: moves between registers, predicates and status registers; MOVS.clr clears the lane flags under
NWB too (log 33). -/
def Obligations.Moves : Prop :=
  ((∀ o : F5, Gives (.mov o) o.d (w64 o.mod 0) false (fun _ q L => q.g.rd o.a (w64 o.mod 0) L) noFlags) ∧
   (∀ o : FRI, Gives (.movi o) o.d (if o.mod = 0#6 then 1 else 2) false (fun _ q L =>
     if o.mod = 0#6 then o.imm.setWidth 64
     else if o.mod = 1#6 then o.imm.signExtend 64
     else if o.mod = 2#6 then hi32 (q.g.rd o.d 2 L) ++ o.imm
     else o.imm ++ lo32 (q.g.rd o.d 2 L)) noFlags) ∧
   (∀ o : F5, o.mod.toNat % 4 = 0 → GivesBool (.pmov o) o.d (fun q L => predTrue o.a q.g L) noFlags) ∧
   (∀ o : F5, o.mod.toNat % 4 = 1 → Gives (.pmov o) o.d 1 false (fun _ q L =>
     BitVec.ofFnLE fun i => decide (i.val < 16) && q.g.p i.val L) noFlags) ∧
   (∀ o : F5, o.mod.toNat % 4 = 3 → GivesBool (.pmov o) o.d (fun q L => bits32 o.a q.g L != 0#32) noFlags) ∧
   (∀ o : F5, o.mod.toNat % 4 = 2 → ∀ s q, Performs (.pmov o) s q → ∃ t g, exec (.pmov o) s = .next t ∧ t.grp? q.g.id = some g ∧
     g.vregs = q.g.vregs ∧ g.sregs = q.g.sregs ∧
     (∀ r L, L < q.g.width → g.p r L = if q.act.getLsbD L = true ∧ r < 15 then (bits32 o.a q.g L).getLsbD r else q.g.p r L) ∧
     Advances q g (fun L => (q.g.lane L).fflags) (fun L => (q.g.lane L).sr) ∧ Kept q g ∧ OnlyGroup s t q)) ∧
  (∀ (o : F5) s q, Performs (.movs o) s q → ∃ t g, exec (.movs o) s = .next t ∧ t.grp? q.g.id = some g ∧
     Dest o.d (match o.d with | .s _ => 2 | _ => 1) false q g
       (match o.a with | .st r => stVal s q r | _ => fun _ => 0#64) ∧ g.preds = q.g.preds ∧
     Advances q g (fun L =>
       if q.act.getLsbD L = true ∧ o.d = .st .fflags then (bits32 o.a q.g L).setWidth 6
       else if q.act.getLsbD L = true ∧ mbit o.mod 0 = true then 0#6
       else (q.g.lane L).fflags) (fun L => (q.g.lane L).sr) ∧ Kept q g ∧ OnlyGroup s t q)

/-- R153, R154, R158, R159: one result, rounded once (irrational results as log 11 represents them), in binary32, binary64 and each half of a packed pair. -/
def Obligations.FloatArithmetic : Prop :=
  (∀ o : F5,
     GivesFloat (.fadd o) o fp32 1 (fun r => fAddV (r o.a) (r o.b) (rmF5 o)) ∧
     GivesFloat (.fsub o) o fp32 1 (fun r => fAddV (r o.a) (r o.b).negate (rmF5 o)) ∧
     GivesFloat (.fmul o) o fp32 1 (fun r => fMulV (r o.a) (r o.b)) ∧
     GivesFloat (.fma o) o fp32 1 (fun r => fFmaV (r o.a) (r o.b) (r o.c) (rmF5 o)) ∧
     GivesFloat (.fdiv o) o fp32 1 (fun r => fDivV (r o.a) (r o.b)) ∧
     GivesFloat (.frcp o) o fp32 1 (fun r => fDivV (.fin false 1 0) (r o.a)) ∧
     GivesFloat (.fsqrt o) o fp32 1 (fun r => fSqrtV (r o.a)) ∧
     GivesFloat (.frsq o) o fp32 1 (fun r => fRsqV (r o.a)) ∧
     GivesFloat (.fexp2 o) o fp32 1 (fun r => fExp2V (r o.a)) ∧
     GivesFloat (.flog2 o) o fp32 1 (fun r => fLog2V (r o.a)) ∧
     GivesFloat (.fsin o) o fp32 1 (fun r => fSinV (r o.a)) ∧
     GivesFloat (.fcos o) o fp32 1 (fun r => fCosV (r o.a))) ∧
  (∀ o : F5,
     GivesFloat (.dadd o) o fp64 2 (fun r => fAddV (r o.a) (r o.b) (rmF5 o)) ∧
     GivesFloat (.dmul o) o fp64 2 (fun r => fMulV (r o.a) (r o.b)) ∧
     GivesFloat (.dfma o) o fp64 2 (fun r => fFmaV (r o.a) (r o.b) (r o.c) (rmF5 o)) ∧
     GivesHalves (.hadd2 o) o (fun r => fAddV (r o.a) (r o.b) (rmF5 o)) ∧
     GivesHalves (.hmul2 o) o (fun r => fMulV (r o.a) (r o.b)) ∧
     GivesHalves (.hfma2 o) o (fun r => fFmaV (r o.a) (r o.b) (r o.c) (rmF5 o)))

/-- R155, R156, R157: minima and maxima, comparisons, classes. -/
def Obligations.FloatMinMaxCompareClassify : Prop :=
  ∀ o : F5,
    let f := selF o
    let w := w64 o.mod 0
    let a := fun (q : Q) L => rdF f w q.g o.a L
    let b := fun (q : Q) L => rdF f w q.g o.b L
    -- a is the lesser: below b, or equal to it and negative where they differ in sign
    let less := fun (x y : FVal) => fLt x y || (!fLt y x && (x.neg? || !y.neg?))
    let code := fun (x y z : FVal) => BitVec.ofNat 64 (if x.isNan && y.isNan then f.canon else (fpRoundV f z .rne).bits)
    let nv := fun (x y : FVal) => if x.isSnan || y.isSnan then 0b010000#6 else 0#6
    Gives (.fmin o) o.d w false (fun _ q L => code (a q L) (b q L)
        (if (a q L).isNan then b q L else if (b q L).isNan || less (a q L) (b q L) then a q L else b q L))
      (fun q L => nv (a q L) (b q L)) ∧
    Gives (.fmax o) o.d w false (fun _ q L => code (a q L) (b q L)
        (if (a q L).isNan then b q L else if (b q L).isNan || !less (a q L) (b q L) then a q L else b q L))
      (fun q L => nv (a q L) (b q L)) ∧
    GivesBool (.fcmp o) o.d (fun q L =>
        let x := a q L
        let y := b q L
        let un := x.isNan || y.isNan
        match ivOpx o with
        | 0 => !un && !fLt x y && !fLt y x
        | 1 => un || fLt x y || fLt y x
        | 2 => fLt x y
        | 3 => !un && !fLt y x
        | 4 => fLt y x
        | 5 => !un && !fLt x y
        | 6 => un
        | _ => !un)
      (fun q L => if (2 ≤ ivOpx o ∧ ivOpx o ≤ 5 ∧ ((a q L).isNan || (b q L).isNan) = true) then 0b010000#6 else nv (a q L) (b q L)) ∧
    Gives (.fclass o) o.d 1 false (fun _ q L =>
        let x := rdFBits f w q.g o.a L
        match f.decode x with
        | .nan true => 0x100#64
        | .nan false => 0x200#64
        | .inf true => 0x1#64
        | .inf false => 0x80#64
        | .fin n m _ => match m == 0, f.isSub x, n with
          | true, _, true => 0x8#64
          | true, _, false => 0x10#64
          | false, true, true => 0x4#64
          | false, true, false => 0x20#64
          | false, false, true => 0x2#64
          | false, false, false => 0x40#64) noFlags

/-- R162, R163: the destination takes the conversion of the source under the lane's draw; under SR each lane that executes advances its
generator once. R164, R165: packing and unpacking. -/
def Obligations.ConvertAndPack : Prop :=
  (∀ (o : F5) s q, Performs (.cvt o) s q →
    let draw := fun L => srDraw (q.g.lane L).sr
    let r := fun L => cvtRes (cvtSf o) (cvtDf o) (cvtRm o) (cvtSat o) (cvtSrc o q.g L) (draw L).toNat
    ∃ t g, exec (.cvt o) s = .next t ∧ t.grp? q.g.id = some g ∧
      Dest o.d (if cvtWide (cvtDf o) then 2 else 1) (!cvtFloat (cvtDf o) && (cvtInt (cvtDf o)).2) q g (fun L => (r L).v) ∧
      g.preds = q.g.preds ∧
      Advances q g (fun L => if q.act.getLsbD L then (q.g.lane L).fflags ||| (r (q.laneOf L)).fl else (q.g.lane L).fflags)
        (fun L => if q.act.getLsbD L = true ∧ cvtRm o = 4 then draw L else (q.g.lane L).sr) ∧ Kept q g ∧ OnlyGroup s t q) ∧
  (∀ o : F5, Gives (.pack o) o.d 1 false (fun _ q L =>
    let x := fun (a : Opnd) => bits32 a q.g L
    if o.mod = 0#6 then ((x o.b).extractLsb' 0 16 ++ (x o.a).extractLsb' 0 16).setWidth 64
    else if o.mod = 1#6 then
      ((x o.e).extractLsb' 0 8 ++ (x o.c).extractLsb' 0 8 ++ (x o.b).extractLsb' 0 8 ++ (x o.a).extractLsb' 0 8).setWidth 64
    else ((x o.e).extractLsb' 0 6 ++ (x o.c).extractLsb' 0 6 ++ (x o.b).extractLsb' 0 6 ++ (x o.a).extractLsb' 0 6).setWidth 64) noFlags) ∧
  (∀ o : F5, Gives (.unpack o) o.d 1 (mbit o.mod 2) (fun _ q L =>
    let w := match o.mod.toNat % 4 with
      | 0 => 16
      | 1 => 8
      | 2 => 6
      | _ => 4
    let x := (bits32 o.a q.g L).extractLsb' (w * o.imm8.toNat) w
    if mbit o.mod 2 then (x.signExtend 32).setWidth 64 else (x.setWidth 32).setWidth 64) noFlags)

/-- R121, R166 to R173: values of other lanes as they stood before, votes and ballots, the elected lane; a reduction's tree and a scan's
prefix in lane order. VOTE.quorum compares all 64 bits of its threshold (log 33). -/
def Obligations.LaneCrossingAndReductions : Prop :=
  (∀ o : F5,
     Gives (.shfl o) o.d (w64 o.mod 3) false (fun _ q L =>
       let seg := min q.g.width (2 ^ o.imm8.toNat)
       let raw := if o.mod.toNat % 4 = 2 then (bits32 o.b q.g L).toInt else ((bits32 o.b q.g L).toNat : Int)
       let off := if mbit o.mod 2 then relOff q.g.width raw else raw
       match shflFrom (o.mod.toNat % 4) seg L off with
       | some M => q.g.rd o.a (w64 o.mod 3) M
       | none => q.g.rd o.c (w64 o.mod 3) L) noFlags ∧
     Gives (.bcast o) o.d (w64 o.mod 0) false (fun _ q _ => q.g.rd o.a (w64 o.mod 0) ((q.g.rdS o.b).toNat % q.g.width)) noFlags ∧
     Gives (.ballot o) o.d 2 false (fun _ q _ =>
       BitVec.ofFnLE fun L => q.act.getLsbD L && (predTrue o.a q.g L != mbit o.mod 0)) noFlags ∧
     (let n := fun (q : Q) => (List.range q.g.width).countP fun L => q.act.getLsbD L && (predTrue o.a q.g L != mbit o.mod 2)
      let a := fun (q : Q) => (List.range q.g.width).countP fun L => q.act.getLsbD L
      (mbit o.mod 3 = true → Gives (.vote o) o.d 2 false (fun _ q _ => BitVec.ofNat 64 (n q)) noFlags) ∧
      (mbit o.mod 3 = false → GivesBool (.vote o) o.d (fun q _ => match o.mod.toNat % 4 with
        | 0 => decide (0 < n q)
        | 1 => decide (n q = a q)
        | 2 => decide (n q = 0 ∨ n q = a q)
        | _ => decide ((q.g.rdS o.b).toNat ≤ n q)) noFlags)) ∧
     (∀ s q, Performs (.elect o) s q →
       let chosen := fun e => q.act.getLsbD e = true ∧ ∀ L, q.act.getLsbD L = true → if mbit o.mod 0 then L ≤ e else e ≤ L
       ∃ t g e, exec (.elect o) s = .next t ∧ t.grp? q.g.id = some g ∧ chosen e ∧
         (match o.d with
          | .p n => g.vregs = q.g.vregs ∧ g.sregs = q.g.sregs ∧
            ∀ r L, L < q.g.width → g.p r L = if q.sub.getLsbD L = true ∧ r = n.toNat ∧ r < 15 then decide (L = e) else q.g.p r L
          | d => Dest d 2 false q g (fun _ => BitVec.ofNat 64 e) ∧ g.preds = q.g.preds) ∧
         Advances q g (fun L => (q.g.lane L).fflags) (fun L => (q.g.lane L).sr) ∧ Kept q g ∧ OnlyGroup s t q)) ∧
  (∀ o : F5,
     (∀ s q, Performs (.lred o) s q →
       let leaf := fun L => if q.act.getLsbD L then redLeaf o q.g L else { v := redId (redOp o) }
       let tree := redTree (redOp o) (redRm o) 6 ((List.range q.g.width).map fun L => (leaf L).v)
       GivesAt (.lred o) s q o.d (redW o) (redOp o == 2 || redOp o == 5) (fun _ => tree.v)
         (fun _ => (List.range q.g.width).foldl (fun f L => f ||| (leaf L).fl) tree.fl)) ∧
     (∀ s q, Performs (.lred o) s q → redOp o = 0 →
       GivesAt (.lred o) s q o.d 1 false (fun _ => ((((lanesOf q.g.width q.act).map fun L => bits32 o.a q.g L).sum).setWidth 64)) (fun _ => 0#6)) ∧
     (∀ s q, Performs (.lred o) s q → redOp o = 10 →
       GivesAt (.lred o) s q o.d 1 false
         (fun _ => ((((lanesOf q.g.width q.act).map fun L => bits32 o.a q.g L).foldl (· ^^^ ·) 0#32).setWidth 64)) (fun _ => 0#6)) ∧
     (∀ s q, Performs (.lscan o) s q →
       let at_ := fun L => getK (scanFrom (redOp o) (redRm o) (mbit o.mod 4) (redSrc o q.g) q.act (List.range q.g.width) (redId (redOp o)))
         { v := 0#64 } L
       GivesAt (.lscan o) s q o.d (redW o) false (fun L => (at_ L).v) (fun L => (at_ L).fl)) ∧
     (∀ s q, Performs (.lscan o) s q → redOp o = 0 →
       GivesAt (.lscan o) s q o.d 1 false (fun L =>
         (((((lanesOf q.g.width q.act).filter fun M => decide (M < L) || (M == L && !mbit o.mod 4)).map fun M => bits32 o.a q.g M).sum).setWidth 64))
         (fun _ => 0#6)))

/-- R32, R103, R104, R105: transfers whose destinations pass R28 and whose call stacks have room; a call stack of 64 entries at a call, and an empty one at RET, fault before any lane moves. -/
def Obligations.TransfersOfControl : Prop :=
  (∀ (o : FB) s q,
     let near := lineBase q.pc + (o.loff.signExtend 64 <<< 6) + BitVec.ofNat 64 (12 * o.slot.toNat)
     let far := fun L => q.g.rd o.reg 2 L
     let top := fun L => (q.g.lane L).stack.headD 0#64
     let go := takesLane o q
     let same := fun L => (q.g.lane L).stack
     let pushed := fun L => nextPc q.pc :: (q.g.lane L).stack
     let lands := fun (takes : Nat → Bool) (dest : Nat → DWord) => ∀ L, L < q.g.width → takes L = true → s.checkDest q.g (dest L) = .ok
     let room := ∀ L, go L = true → (q.g.lane L).stack.length < 64
     (Performs (.bra o) s q → lands go (fun _ => near) → ∃ t g, Transfers (.bra o) s s q go (fun _ => near) same t g) ∧
     (Performs (.bri o) s q → lands go far → ∃ t g, Transfers (.bri o) s s q go far same t g) ∧
     (Performs (.call o) s q → lands go (fun _ => near) → room →
       ∃ u t g, Spills s u q go ∧ Transfers (.call o) u s q go (fun _ => near) pushed t g) ∧
     (Performs (.calli o) s q → lands go far → room →
       ∃ u t g, Spills s u q go ∧ Transfers (.calli o) u s q go far pushed t g) ∧
     (Performs (.ret o) s q → lands (fun L => q.act.getLsbD L) top → (∀ L, q.act.getLsbD L = true → same L ≠ []) →
       ∃ t g, Transfers (.ret o) s s q (fun L => q.act.getLsbD L) top (fun L => (same L).drop 1) t g)) ∧
  (∀ (o : FB) s q,
     let near := lineBase q.pc + (o.loff.signExtend 64 <<< 6) + BitVec.ofNat 64 (12 * o.slot.toNat)
     let full := fun L => takesLane o q L && decide ((q.g.lane L).stack.length = 64)
     let empty := fun L => q.act.getLsbD L && (q.g.lane L).stack.isEmpty
     (Performs (.call o) s q → (∀ L, takesLane o q L = true → s.checkDest q.g near = .ok) →
       (∀ L, L < q.g.width → (q.g.lane L).stack.length ≤ 64) → (∃ L, L < q.g.width ∧ full L = true) →
       Traps (.call o) s q .illegal (maskOf q.g.width full) 0#64 0 s) ∧
     (Performs (.ret o) s q → (∀ L, L < q.g.width → q.act.getLsbD L = true → empty L = false →
         s.checkDest q.g ((q.g.lane L).stack.headD 0#64) = .ok) →
       (∃ L, L < q.g.width ∧ empty L = true) → Traps (.ret o) s q .target (maskOf q.g.width empty) 0#64 0 s))

/-- R104, R106, R108, R110, R115, R119, R120: the join entry's mask is the whole subset, and lanes that reach it first are held; waypoints, barriers, yields and naps.
Each clause of RCV, WAYPT, TBAR, YIELD and NAP concludes that exec answers a next state. -/
def Obligations.JoinsWaypointsAndPauses : Prop :=
  (∀ (o : FB) s q,
     let near := lineBase q.pc + (o.loff.signExtend 64 <<< 6) + BitVec.ofNat 64 (12 * o.slot.toNat)
     Performs (.rcv o) s q → (∀ L, takesLane o q L = true → s.checkDest q.g near = .ok) → q.g.joins.length < 16 →
     ∃ t g, Transfers (.rcv o) s s q (takesLane o q) (fun _ => near) (fun L => (q.g.lane L).stack) t g ∧
       ((∃ L, L < q.g.width ∧ q.sub.getLsbD L = true ∧ takesLane o q L = false ∧ (q.g.lane L).exited = false) → near ≠ nextPc q.pc →
         { j := near, m := q.sub } ∈ g.joins ∧
         ∀ L, L < q.g.width → q.sub.getLsbD L = true → takesLane o q L = true → (q.g.lane L).exited = false → (g.lane L).held = true)) ∧
  ((∀ (o : FY) s q, Performs (.waypt o) s q → GoesAs (.waypt o) s q
     { q.g with lanes := q.g.lanes.mapIdx fun L l =>
         if q.sub.getLsbD L then { l with wp := q.pc, srRec := l.sr, commit := false } else if l.exited then { l with srRec := l.sr } else l }) ∧
   (∀ (o : FY) s q, Performs (.tbar o) s q → ∃ u, Waits (.tbar o) s q (.bar o.code.toNat) u ∧ TeamTraffic s u q) ∧
   (∀ (o : FY) s q, Performs (.yield o) s q → ∃ t g, exec (.yield o) s = .next t ∧ Continues q s t q.g g ∧
     (t.core q.core).rot = (s.core q.core).rot.filter (· != q.g.id) ++ [q.g.id]) ∧
   (∀ (o : FRI) s q, Performs (.nap o) s q →
     let ck := min 4294967295 (o.imm.toNat + if mbit o.mod 0 then (q.g.rdS o.a).toNat else 0)
     (ck = 0 → ∃ t g, exec (.nap o) s = .next t ∧ Continues q s t q.g g ∧
       (t.core q.core).rot = (s.core q.core).rot.filter (· != q.g.id) ++ [q.g.id]) ∧
     (0 < ck → Waits (.nap o) s q (.nap ck) s)))

/-- R99, R100, R107, R117, R118: exits of lanes, groups and teams; threads put in bins in lane order, the wait at the sheet's limit, the launch of a
bin that is full, the oldest of 16 full bins or one that BINFL names, and the child group that it starts, or the place where its threads wait.
Each clause of EXIT, SPAWN and BINFL concludes that exec answers a next state. Where a core's vector registers are parked in memory is log 27. -/
def Obligations.ExitsAndSpawnBins : Prop :=
  ((∀ (o : FY) s q, Performs (.exit o) s q → (∃ L, L < q.g.width ∧ (q.g.lane L).exited = false ∧ q.act.getLsbD L = false) →
     ∃ t g, exec (.exit o) s = .next t ∧ t.grp? q.g.id = some g ∧ g.vregs = q.g.vregs ∧ g.sregs = q.g.sregs ∧ g.preds = q.g.preds ∧
       Kept q g ∧ OnlyGroup s t q ∧
       ∀ L, L < q.g.width →
         (g.lane L).exited = ((q.g.lane L).exited || q.act.getLsbD L) ∧
         (g.lane L).stack = (if q.act.getLsbD L then [] else (q.g.lane L).stack) ∧
         (g.lane L).pc = (if q.sub.getLsbD L && !q.act.getLsbD L then nextPc q.pc else (q.g.lane L).pc) ∧
         (g.lane L).fflags = (q.g.lane L).fflags ∧ (g.lane L).sr = (q.g.lane L).sr ∧ (g.lane L).wp = (q.g.lane L).wp) ∧
   (∀ (o : FY) s q tm, Performs (.exit o) s q → (∀ L, L < q.g.width → (q.g.lane L).exited = false → q.act.getLsbD L = true) →
     q.g.batches = [] → s.team? q.g.team = some tm → tm.failed = [] → (∀ p ∈ tm.ports, p.blocked = []) →
     ∃ t g tn, exec (.exit o) s = .next t ∧ t.grp? q.g.id = some g ∧ t.team? q.g.team = some tn ∧
       g.vregs = q.g.vregs ∧ g.sregs = q.g.sregs ∧ g.preds = q.g.preds ∧ t.mem = s.mem ∧ tn.scratch = tm.scratch ∧
       (∀ L, L < q.g.width → (g.lane L).exited = true) ∧
       (∀ p ∈ tn.pats, p.spawn = true ∨ p.owner ≠ q.g.id) ∧
       (s.lastOfTeam q.g.team q.g.id = true → tn.exited = true ∧ tn.ports = [] ∧ tn.pats = []))) ∧
  ((∀ (o : FB) s q h,
     let entry := lineBase q.pc + (o.loff.signExtend 64 <<< 6) + BitVec.ofNat 64 (12 * o.slot.toNat)
     let lanes := lanesOf q.g.width q.act
     let threads := lanes.map fun L => [lo32 (q.g.rd o.cond 2 L), hi32 (q.g.rd o.cond 2 L)]
     let key := fun (b : Bin) => b.sheet == q.g.sheet && b.entry == entry
     let core := s.core q.core
     Performs (.spawn o) s q → s.childEntry q.g entry = .header h →
     ((∀ b ∈ core.bins, key b = true → b.args.length + lanes.length < h.width ∧ b.hdr = h) → lanes.length < h.width →
       (core.bins.any key = true ∨ core.bins.length < 16) →
       ∃ u, Goes (.spawn o) s q u ∧ u.grp? q.g.id = some q.g ∧ { u with cores := s.cores } = s ∧ (∀ c, c ≠ q.core → u.core c = s.core c) ∧
         (u.core q.core).bins = (if core.bins.any key then core.bins else
           core.bins ++ [{ sheet := q.g.sheet, task := ((s.team? q.g.team).map (·.task)).getD 0, entry, hdr := h, args := []
                           start := core.cycle.toNat, order := core.binSeq }]).map fun b =>
             if key b then { b with args := b.args ++ threads } else b) ∧
     (launchesOf s q.core q.g.sheet entry h.width lanes.length ≠ 0 →
       s.atSpawnLimit q.g.sheet (launchesOf s q.core q.g.sheet entry h.width lanes.length) = true → Waits (.spawn o) s q .spawn s) ∧
     (launchesOf s q.core q.g.sheet entry h.width lanes.length = 0 ∨
       s.atSpawnLimit q.g.sheet (launchesOf s q.core q.g.sheet entry h.width lanes.length) = false →
       ∃ u, Goes (.spawn o) s q u ∧ u.grp? q.g.id = some q.g ∧
         u = threads.foldl (fun t x => t.deposit q.core q.g.sheet (((s.team? q.g.team).map (·.task)).getD 0) entry h x) s)) ∧
   (∀ (s : State) core sheet task entry hdr x,
     let key := fun (b : Bin) => b.sheet == sheet && b.entry == entry
     let bins := (s.core core).bins
     -- a thread that fills its bin launches it
     (∀ b, bins.find? key = some b → b.hdr.width ≤ b.args.length + 1 →
       let full := fun (y : Bin) => if key y then { y with args := y.args ++ [x] } else y
       s.deposit core sheet task entry hdr x = (s.modCore core fun c => { c with bins := c.bins.map full }).launchBin core (full b)) ∧
     -- with 16 bins and none of its key, the oldest bin launches to make room
     (∀ old, bins.head? = some old → bins.length = 16 → bins.any key = false → 1 < hdr.width →
       let t := s.launchBin core old
       let u := s.deposit core sheet task entry hdr x
       u.groups = t.groups ∧ u.sheets = t.sheets ∧
       (u.core core).bins = (t.core core).bins ++ [{ sheet, task, entry, hdr, args := [x], start := (t.core core).cycle.toNat, order := (t.core core).binSeq }])) ∧
   (∀ (s : State) core (b : Bin) h, s.sheet? b.sheet = some h →
     let stops := s.ckptStop || s.barred b.sheet [core] || !s.quotaAllows b.sheet [core] || !s.roomFor (b.launch h) [core]
     -- the launch: the bin is gone, and a child group starts with one thread a lane
     (stops = false → h.rerun = none → b.hdr.groups = 1 → ((s.launchBin core b).core core).bins = (s.core core).bins.filter (fun x => x.order != b.order) ∧
       ∃ g, (s.launchBin core b).groups = s.groups ++ [g] ∧ g.sheet = b.sheet ∧ g.core = core ∧ g.teamid = h.nextTeam ∧ g.width = b.hdr.width ∧
         ∀ L, L < b.hdr.width → (g.lane L).pc = b.entry ∧ (g.lane L).exited = decide (b.args.length ≤ L) ∧
           ∀ n, n < b.hdr.vcount → g.v n L = (b.args.getD L []).getD n 0#32) ∧
     -- where it cannot start on the core, its threads wait for Meridian to place them
     (stops = true → (s.launchBin core b).groups = s.groups ∧
       (s.launchBin core b).sheet? b.sheet = some { h with spawnWait := h.spawnWait ++ [b] })) ∧
   (∀ (o : FY) s q, Performs (.binfl o) s q →
     let mine := fun (b : Bin) => b.sheet == q.g.sheet && (mbit o.mod 0 || b.entry == q.g.rdS o.ya)
     ∃ u, Goes (.binfl o) s q u ∧ u.grp? q.g.id = some q.g ∧
       u = ((s.core q.core).bins.filter mine).foldl (fun t b => t.launchBin q.core b) s ∧
       (u.core q.core).bins = (s.core q.core).bins.filter (fun x => !((s.core q.core).bins.any fun b => mine b && b.order == x.order)) ∧
       ((∀ b ∈ (s.core q.core).bins, b.hdr.width ≤ 64) →
         ∀ a, (a < parkArea q.core ∨ parkArea q.core + 6356992 ≤ a) → u.mem.read a = s.mem.read a)))

/-- R294, R305, R307: loads, and read-only loads that may see memory as it was at the group's last read-only point. -/
def Obligations.Loads : Prop :=
  (∀ (o : FM) s q phys, Performs (.ld o) s q → Memory.wf s.mem = true → NoBadWord s q →
     Reaches s q (memAddr o q.g) (sizeBytes o.size) .rd phys → RequestsFree s q .load (accessesOf q phys (sizeBytes o.size)) →
     ∃ u t G g, exec (.ld o) s = .next t ∧ Continues q u t G g ∧ Loaded o q G (fun L => s.mem.loadNat (phys L) (sizeBytes o.size)) ∧
       SameLanes q G ∧ u.mem = s.mem ∧ u.sheets = s.sheets ∧ SameOthers s u q ∧ OnlyTraffic s u) ∧
  (∀ (o : FM) s q phys, Performs (.ldro o) s q →
     (let m := if q.stale then q.g.roMem.getD s.mem else s.mem
      Memory.wf s.mem = true → Memory.wf m = true → NoBadWord s q →
      Reaches s q (memAddr o q.g) (sizeBytes o.size) .rd phys → RequestsFree s q .load (accessesOf q phys (sizeBytes o.size)) →
      ∃ u t G g, exec (.ldro o) s = .next t ∧ Continues q u t G g ∧ Loaded o q G (fun L => m.loadNat (phys L) (sizeBytes o.size)) ∧
        SameLanes q G ∧ u.mem = s.mem ∧ u.sheets = s.sheets ∧ SameOthers s u q ∧ OnlyTraffic s u))

/-- R306: the bytes stored are those of the highest lane that covers them, and every other byte is unchanged. -/
def Obligations.Stores : Prop :=
  ∀ (o : FM) s q phys, Performs (.st o) s q → NoBadWord s q →
    Reaches s q (memAddr o q.g) (sizeBytes o.size) .wr phys →
    RequestsFree s q (storeUse q.g (fmScope o) (fmOrd o)) (accessesOf q phys (sizeBytes o.size)) →
    ∃ u t G g, exec (.st o) s = .next t ∧ Continues q u t G g ∧
      (∀ a, u.mem.read a = storedByte q phys (sizeBytes o.size) (storeBytes o q.g) s.mem a) ∧
      G = q.g ∧ SameOthers s u q ∧ OnlyTraffic s u

/-- R292, R309, R310: lanes act one after another in lane order; each receives the old value; memory over PCIe takes no atomic. -/
def Obligations.Atomics : Prop :=
  (∀ (o : FM) s q phys,
     let lanes := fun (i : Instr) (n w : Nat) (new : Nat → Nat → Option Nat) =>
       Performs i s q → Memory.wf s.mem = true → NoBadWord s q → Reaches s q (atomAddr o q.g) n .rw phys →
       (∀ L, q.act.getLsbD L = true → paHost (phys L) = false) →
       RequestsFree s q (s.atomUse q.g (fmScope o) (fmOrd o)) (accessesOf q phys n) →
       ∃ u t G g, exec i s = .next t ∧ Continues q u t G g ∧ SameLanes q G ∧ SameOthers s u q ∧ OnlyTraffic s u ∧
         ∃ m : Nat → Mem, m 0 = s.mem ∧ m q.g.width = u.mem ∧
           (∀ L, L < q.g.width → m (L + 1) = if q.act.getLsbD L then
               match new L ((m L).loadNat (phys L) n) with
               | some x => (m L).store (phys L) (leBytes n x)
               | none => m L
             else m L) ∧
           Dest o.data w false q G (fun L => BitVec.ofNat 64 ((m L).loadNat (phys L) n))
     let n := sizeBytes o.size
     lanes (.atom o) n (sizeW o.size) (fun L old =>
       let a := BitVec.ofNat (8 * n) old
       let b := BitVec.ofNat (8 * n) (q.g.rd o.data (sizeW o.size) L).toNat
       some (match atomOp o with
         | 0 => (a + b).toNat
         | 1 => (if a.toInt ≤ b.toInt then a else b).toNat
         | 2 => (if a.toNat ≤ b.toNat then a else b).toNat
         | 3 => (if b.toInt ≤ a.toInt then a else b).toNat
         | 4 => (if b.toNat ≤ a.toNat then a else b).toNat
         | 5 => (a &&& b).toNat
         | 6 => (a ||| b).toNat
         | 7 => (a ^^^ b).toNat
         | 8 => b.toNat
         | _ => (fpRoundV fp32 (fAddV (fp32.decode old) (fp32.decode b.toNat) .rne).v .rne).bits)) ∧
     lanes (.cas o) (n / 2) (sizeW o.size / 2) (fun L old => match o.data with
       | .v d =>
         let c := if n = 8 then (q.g.v d.toNat L).toNat else (q.g.v64 d.toNat L).toNat
         let x := if n = 8 then (q.g.v (d.toNat + 1) L).toNat else (q.g.v64 (d.toNat + 2) L).toNat
         if old = c then some x else none
       | _ => none)) ∧
  (∀ (o : FM) s q phys, let host := maskOf q.g.width fun L => q.act.getLsbD L && paHost (phys L)
     (∃ L, q.act.getLsbD L = true ∧ paHost (phys L) = true) →
     (Performs (.atom o) s q → Reaches s q (atomAddr o q.g) (sizeBytes o.size) .rw phys →
       Traps (.atom o) s q .access host (addrOf (atomAddr o q.g (lowest host))) 0 s) ∧
     (Performs (.cas o) s q → Reaches s q (atomAddr o q.g) (sizeBytes o.size / 2) .rw phys →
       Traps (.cas o) s q .access host (addrOf (atomAddr o q.g (lowest host))) 0 s))

/-- R294, R308, R311, R312, R333, R334: the read-only view that ROSYNC makes, the marks that a FENCE clears, the lines that PREF asks for,
the word of XQRY. Each of the four concludes that exec answers a next state. -/
def Obligations.FencesPrefetchAndQueries : Prop :=
  ((∀ (o : FY) s q, Performs (.rosync o) s q → ∃ u seen, Goes (.rosync o) s q u ∧
     u.grp? q.g.id = some { q.g with roMem := some s.mem, seen } ∧ (3 ≤ fyScope o → seen = []) ∧ u.mem = s.mem ∧ SameOthers s u q ∧ OnlyTraffic s u) ∧
   (∀ (o : FY) s q, Performs (.fence o) s q → ∃ u seen rel, Goes (.fence o) s q u ∧ u.grp? q.g.id = some { q.g with seen, relFence := rel } ∧
     u.mem = s.mem ∧ SameOthers s u q ∧ OnlyTraffic s u ∧
     (4 ≤ o.mod.toNat / 8 → o.mod.toNat / 2 % 4 ≠ 1 → ∀ d ∈ u.dies, ∀ e ∈ d.2.marks, e.2 ≠ q.g.core)) ∧
   (∀ (o : FM) s q, Performs (.pref o) s q → ∃ u, Goes (.pref o) s q u ∧ u.grp? q.g.id = some q.g ∧ u.mem = s.mem ∧ SameOthers s u q ∧
     OnlyTraffic s u ∧ ∃ ls : List Nat, (u.core q.core).reqs = (s.core q.core).reqs ++ ls.map (fun line => { gid := q.g.id, line }) ∧
       ∀ l ∈ ls, ∃ L, q.act.getLsbD L = true ∧ s.rangeCond q.g (memAddr o q.g L) 1 1 .rd = none)) ∧
  ((∀ (o : FM) s q word, Performs (.xqry o) s q → (∀ L, q.act.getLsbD L = true → s.xqry q.g (memAddr o q.g L) = some (word L)) →
     ∃ u t G g, exec (.xqry o) s = .next t ∧ Continues q u t G g ∧ Dest o.data 2 false q G word ∧ SameLanes q G ∧ u.mem = s.mem ∧
       u.sheets = s.sheets ∧ SameOthers s u q ∧ OnlyTraffic s u) ∧
   (∀ (s : State) (g : Group) (a : Int), (a < 0 ∨ 2 ^ 57 ≤ a) → s.xqry g a = some 0#64) ∧
   (∀ (s : State) (g : Group) (va : Nat), va < 2 ^ 57 → (∀ e ∈ s.extents g, e.covers va = false) →
     s.walksBusy (dieOf g.core) = false →
     (s.leafFor g.core g.asn va = none → s.requestGen g ≤ (s.die (dieOf g.core)).cur → s.xqry g va = some 0#64) ∧
     ∀ leaf bits, s.leafFor g.core g.asn va = some (leaf, bits) →
       let pa := entAddr leaf / 2 ^ bits * 2 ^ bits + va % 2 ^ bits
       ∃ x, s.xqry g va = some x ∧ x.getLsbD 0 = true ∧ x.getLsbD 1 = leafRD leaf ∧ x.getLsbD 2 = leafW leaf ∧ x.getLsbD 3 = leafX leaf ∧
         x.getLsbD 4 = leafRN leaf ∧ x.getLsbD 5 = false ∧
         x.extractLsb' 6 2 = (if bits = 16 then 0#2 else if bits = 21 then 1#2 else 2#2) ∧
         x.extractLsb' 8 2 = (if paHost pa then 0#2 else BitVec.ofNat 2 (paHome pa)) ∧ x.getLsbD 10 = paPool pa ∧ x.getLsbD 11 = paHost pa))

/-- R299, R300, R313 to R316: one put per lane, in lane order, of the highest lane's bytes where lanes share them; bulk puts of scratchpad bytes;
at a port that is down neither is delivered (R302); the counters of windows. Which port carries a module's traffic (portOf) is log 9. -/
def Obligations.PutsAndWindows : Prop :=
  (∀ (o : FM) s q w,
     let ref := q.g.rdS o.base
     let n := sizeBytes o.size
     let lanes := lanesOf q.g.width q.act
     let off := fun L => ((ref.toNat % 2 ^ 48 : Nat) : Int) + q.g.term o.index false L + off24 o.off
     Performs (.put o) s q → windowOf s q ref = some w → w.isImport = true →
     (∀ L, q.act.getLsbD L = true → 0 ≤ off L ∧ off L + n ≤ w.len ∧ off L % n = 0) →
     (w.module ≠ s.moduleNo → (getK s.fab FabPort.init (portOf w.module)).down = true →
       ∃ u, Goes (.put o) s q u ∧ u.grp? q.g.id = some q.g ∧ { u with sheets := s.sheets, clusters := s.clusters } = s ∧ SameClusters s u q ∧
         ∀ h, s.sheet? q.g.sheet = some h → ∃ k, u.sheet? q.g.sheet = some k ∧ k.check = true ∧ k.noReplay = true) ∧
     (w.module = s.moduleNo ∨ (getK s.fab FabPort.init (portOf w.module)).down = false →
     ∃ u new, Goes (.put o) s q u ∧ u.grp? q.g.id = some q.g ∧ { u with puts := s.puts, sheets := s.sheets, fab := s.fab, clusters := s.clusters } = s ∧
       SameClusters s u q ∧ u.puts = s.puts ++ new ∧ new.length = lanes.length ∧
       (∀ i (h : i < new.length), new[i].module = w.module ∧ new[i].sheet = q.g.sheet ∧ new[i].entry = w.entry ∧ new[i].arrived = false ∧
         new[i].data.length = n ∧ new[i].wref = BitVec.ofNat 64 (w.base * 2 ^ 48 + (off (lanes.getD i 0)).toNat) ∧
         ∀ j M, j < n → M ∈ lanes → off M ≤ off (lanes.getD i 0) + j → off (lanes.getD i 0) + j < off M + n →
           (∀ K ∈ lanes, off K ≤ off (lanes.getD i 0) + j → off (lanes.getD i 0) + j < off K + n → K ≤ M) →
           new[i].data.getD j 0#8 = (storeBytes o q.g M).getD (off (lanes.getD i 0) + j - off M).toNat 0#8) ∧
       windowOf u q ref = some { w with iss := w.iss + BitVec.ofNat 64 (n * lanes.length), putNum := (w.putNum + lanes.length) % 2 ^ 31 })) ∧
  (∀ (o : FM) s q w tm,
     let ref := q.g.rdS o.base
     let n := (q.g.rdS o.data).toNat
     let p := (q.g.rdS o.index).toNat
     let off : Int := ((ref.toNat % 2 ^ 48 : Nat) : Int) + off24 o.off
     Performs (.puts o) s q → windowOf s q ref = some w → w.isImport = true → s.team? q.g.team = some tm →
     16 ≤ n → n ≤ 65536 → n % 16 = 0 → p % 16 = 0 → p + n ≤ tm.s → 0 ≤ off → off + n ≤ w.len → off % 16 = 0 →
     tm.failed = [] → tm.bad = [] →
     ((∀ c ∈ chunksOf p n, c ∉ tm.absent) → w.module = s.moduleNo ∨ (getK s.fab FabPort.init (portOf w.module)).down = false →
       ∃ u x, Goes (.puts o) s q u ∧ u.grp? q.g.id = some q.g ∧ { u with puts := s.puts, sheets := s.sheets, fab := s.fab, clusters := s.clusters } = s ∧
         SameClusters s u q ∧ u.puts = s.puts ++ [x] ∧ x.module = w.module ∧ x.data = tm.scratch.bulk p n ∧
         x.wref = BitVec.ofNat 64 (w.base * 2 ^ 48 + off.toNat) ∧
         windowOf u q ref = some { w with iss := w.iss + BitVec.ofNat 64 n, putNum := (w.putNum + 1) % 2 ^ 31 }) ∧
     ((∀ c ∈ chunksOf p n, c ∉ tm.absent) → w.module ≠ s.moduleNo → (getK s.fab FabPort.init (portOf w.module)).down = true →
       ∃ u, Goes (.puts o) s q u ∧ u.grp? q.g.id = some q.g ∧ { u with sheets := s.sheets, clusters := s.clusters } = s ∧ SameClusters s u q ∧
         ∀ h, s.sheet? q.g.sheet = some h → ∃ k, u.sheet? q.g.sheet = some k ∧ k.check = true ∧ k.noReplay = true) ∧
     ((∃ c ∈ chunksOf p n, c ∈ tm.absent) → Waits (.puts o) s q (.chunks 0 0 (chunksOf p n)) s)) ∧
  ((∀ (o : FY) s q,
     let ref := q.g.rdS o.ya
     let goal := q.g.rdS o.yb
     let count := fun w : Window => if o.code = 0#16 then (if w.isImport then some w.ack else none) else if w.isImport then none else some w.arr
     Performs (.winwait o) s q →
     (∀ w c, windowOf s q ref = some w → count w = some c →
       (goal.toNat ≤ c.toNat → ∃ u, Goes (.winwait o) s q u ∧ u.grp? q.g.id = some { q.g with seen := [] } ∧ u.mem = s.mem ∧
         SameOthers s u q ∧ OnlyTraffic s u) ∧
       (c.toNat < goal.toNat → Waits (.winwait o) s q (.win (ref.toNat / 2 ^ 48) (o.code == 1#16) goal) s)) ∧
     ((∀ w, windowOf s q ref = some w → count w = none) → Traps (.winwait o) s q .access q.sub 0#64 0 s)) ∧
   (∀ (o : FY) s q,
     let count := fun w : Window => if o.code = 2#16 then (if w.isImport then none else some w.arr)
       else if w.isImport then some (if o.code = 0#16 then w.iss else w.ack) else none
     Performs (.winrd o) s q →
     (∀ w c, windowOf s q (q.g.rdS o.yb) = some w → count w = some c →
       (mbit o.mod 0 = false → GivesAt (.winrd o) s q o.ya 2 false (fun _ => c) (fun _ => 0#6)) ∧
       (mbit o.mod 0 = true → ∃ u t G g, exec (.winrd o) s = .next t ∧ Continues q u t G g ∧ Dest o.ya 2 false q G (fun _ => c) ∧
         SameLanes q G ∧ u.mem = s.mem ∧ SameOthers s u q ∧ OnlyTraffic s u)) ∧
     ((∀ w, windowOf s q (q.g.rdS o.yb) = some w → count w = none) → Traps (.winrd o) s q .access q.sub 0#64 0 s)))

/-- R243, R265 to R268. -/
def Obligations.ScratchpadAccesses : Prop :=
  (∀ (o : FM) s q tm,
     let n := sizeBytes o.size
     let at_ := fun L => scrAddr o q.g L
     let inside := ∀ L, q.act.getLsbD L = true → 0 ≤ at_ L ∧ at_ L + n ≤ tm.s ∧ at_ L % n = 0
     let present := ∀ L, q.act.getLsbD L = true → ∀ c ∈ chunksOf (at_ L).toNat n, c ∉ tm.absent
     s.team? q.g.team = some tm → tm.failed = [] → tm.bad = [] → inside →
     (Performs (.sld o) s q → Memory.wf tm.scratch = true → Memory.wf tm.older = true → present →
       let old := fun L => q.stale && tm.landed.contains ((at_ L).toNat / 512)
       ∃ u tn G, Goes (.sld o) s q u ∧ u.grp? q.g.id = some G ∧ SameLanes q G ∧
         Loaded o q G (fun L => (if old L then tm.older else tm.scratch).loadNat (at_ L).toNat n) ∧
         { u with groups := s.groups, teams := s.teams } = s ∧ SameOthers s u q ∧ (∀ id, id ≠ q.g.team → u.team? id = s.team? id) ∧
         u.team? q.g.team = some tn ∧ { tn with landed := tm.landed } = tm ∧
         (q.stale = false → ∀ L, q.act.getLsbD L = true → (at_ L).toNat / 512 ∉ tn.landed)) ∧
     (Performs (.sst o) s q → present →
       ∃ u tn, Goes (.sst o) s q u ∧ { u with teams := s.teams } = s ∧ (∀ id, id ≠ q.g.team → u.team? id = s.team? id) ∧
         u.team? q.g.team = some tn ∧ { tn with scratch := tm.scratch, older := tm.older } = tm ∧
         ∀ a, tn.scratch.read a = storedByte q (fun L => (at_ L).toNat) n (storeBytes o q.g) tm.scratch a) ∧
     (¬ present →
       let waits := fun i => ∃ cs : List Nat, Waits i s q (.chunks 0 0 cs) s ∧
         ∀ c, c ∈ cs ↔ ∃ L, q.act.getLsbD L = true ∧ c ∈ chunksOf (at_ L).toNat n
       (Performs (.sld o) s q → waits (.sld o)) ∧ (Performs (.sst o) s q → waits (.sst o)))) ∧
  (∀ (o : FM) s q tm,
     let n := sizeBytes o.size
     let out := fun L => q.act.getLsbD L && (decide (scrAddr o q.g L < 0) || decide ((tm.s : Int) < scrAddr o q.g L + n))
     s.team? q.g.team = some tm → tm.failed = [] →
     (∃ L, L < q.g.width ∧ out L = true ∧ ∀ M, M < L → q.act.getLsbD M = true → out M = true) →
     let low := lowest (maskOf q.g.width out)
     (Performs (.sld o) s q → Traps (.sld o) s q .scratch (maskOf q.g.width out) (addrOf (scrAddr o q.g low)) 0 s) ∧
     (Performs (.sst o) s q → Traps (.sst o) s q .scratch (maskOf q.g.width out) (addrOf (scrAddr o q.g low)) 0 s)) ∧
  (∀ (o : FM) s q tm,
     let cas := satomOp o == 9
     let n := if cas then sizeBytes o.size / 2 else sizeBytes o.size
     let w := if cas then sizeW o.size / 2 else sizeW o.size
     let at_ := fun L => (scrAddr o q.g L).toNat
     let new := fun L (old : Nat) =>
       if cas then (if old = (casPair o q.g L).1 then some (casPair o q.g L).2 else none)
       else some (rmw (satomOp o) (8 * n) old ((q.g.rd o.data w L).toNat % 2 ^ (8 * n)))
     Performs (.satom o) s q → s.team? q.g.team = some tm → tm.failed = [] → tm.bad = [] → Memory.wf tm.scratch = true →
     (∀ L, q.act.getLsbD L = true → 0 ≤ scrAddr o q.g L ∧ scrAddr o q.g L + n ≤ tm.s ∧ scrAddr o q.g L % n = 0 ∧
       ∀ c ∈ chunksOf (at_ L) n, c ∉ tm.absent) →
     ∃ u tn G, Goes (.satom o) s q u ∧ u.grp? q.g.id = some G ∧ SameLanes q G ∧ { u with teams := s.teams, groups := s.groups } = s ∧
       SameOthers s u q ∧ (∀ id, id ≠ q.g.team → u.team? id = s.team? id) ∧
       u.team? q.g.team = some tn ∧ { tn with scratch := tm.scratch, older := tm.older } = tm ∧
       ∃ m : Nat → Mem, m 0 = tm.scratch ∧ m q.g.width = tn.scratch ∧
         (∀ L, L < q.g.width → m (L + 1) = if q.act.getLsbD L then
             match new L ((m L).loadNat (at_ L) n) with
             | some x => (m L).store (at_ L) (leBytes n x)
             | none => m L
           else m L) ∧
         if mbit o.mod 4 then Dest o.data w false q G (fun L => BitVec.ofNat 64 ((m L).loadNat (at_ L) n)) else G = q.g)

/-- R248, R270, R271. -/
def Obligations.ScheduleStartsAndStages : Prop :=
  (∀ (o : FY) s q tm sh,
     let key := if o.ya = .v 0#8 then 0#64 else q.g.rdS o.ya
     Performs (.cstart o) s q → s.team? q.g.team = some tm → s.sheet? q.g.sheet = some sh →
     (∀ a es, sh.scheds[o.code.toNat]? = some a → (∀ r ∈ tm.rounds, r.stage = none) → readSched s q.g tm.s 64 a.toNat = .entries es →
       mcastOk s tm es key = true →
       let sc : Sched := { idx := o.code.toNat, key, entries := es, rel := List.replicate 16 0, done := List.replicate 16 0, fail := false }
       ∃ u : State, { u with dies := s.dies } = s ∧
         Goes (.cstart o) s q (u.modTeam q.g.team fun t => { t with sched := some sc, lastSched := o.code.toNat })) ∧
     (sh.scheds[o.code.toNat]? = none → Traps (.cstart o) s q .stage q.sub 0#64 0 s) ∧
     ((∃ r ∈ tm.rounds, r.stage ≠ none) → Traps (.cstart o) s q .stage q.sub 0#64 0 s)) ∧
  (∀ (o : FY) s q tm sc,
     let st := o.code.toNat
     let es := sc.entries.filter fun e => e.stage == st
     let r := sc.rel.getD st 0
     let jobs := es.map (·.job r)
     let cs := jobs.flatMap (·.chunks)
     Performs (.stage o) s q → s.team? q.g.team = some tm → tm.sched = some sc → es ≠ [] →
     (4 ≤ (tm.rounds.filter fun x => x.stage == some st).length → Waits (.stage o) s q (.stage st) s) ∧
     ((tm.rounds.filter fun x => x.stage == some st).length < 4 →
       (∀ j ∈ jobs, ∀ w ∈ j.rows, w.1.toNat < 2 ^ 57 ∧ s.inFoot q.g j.out w.1 w.2.2 = true) → tm.failed = [] →
       (∀ c ∈ cs, c ∉ tm.absent) → sharedChunk (jobs.map (·.chunks)) = false →
       ∃ u, TeamTraffic s u q ∧ Goes (.stage o) s q (State.modTeam { u with fresh := s.fresh + 1 } q.g.team fun t => { t with
         absent := t.absent ++ cs, rounds := t.rounds ++ [{ id := s.fresh, stage := some st, r, jobs }]
         sched := some { sc with rel := sc.rel.set st (r + 1) } })))

/-- R272, R273: CWAIT goes on when no named chunk is absent, CTEST gives the named chunks that are present, CPY starts one copy. -/
def Obligations.ChunkWaitsAndCopies : Prop :=
  (∀ (o : FY) s q tm,
    let b := if o.yb = .v 0#8 then 0 else (q.g.rdS o.yb).toNat
    let m : Mask := if mbit o.mod 0 then o.code.setWidth 64 else q.g.rdS o.yc
    s.team? q.g.team = some tm → tm.failed = [] → b % 512 = 0 → (∀ i, m.getLsbD i = true → b + 512 * i < tm.s) →
    -- the chunks that an instruction finds present are seen: an acquire at team scope
    let sees := fun (u : State) => ∃ v tn, TeamTraffic s v q ∧ { u with groups := s.groups, teams := s.teams } = { v with groups := s.groups } ∧
      (∀ id, id ≠ q.g.team → u.team? id = s.team? id) ∧ u.team? q.g.team = some tn ∧ { tn with landed := tm.landed } = tm ∧
      ∀ i, m.getLsbD i = true → b / 512 + i ∉ tm.absent → b / 512 + i ∉ tn.landed
    (Performs (.cwait o) s q → (∀ i, m.getLsbD i = true → b / 512 + i ∉ tm.absent) →
      ∃ u, Goes (.cwait o) s q u ∧ u.grp? q.g.id = some q.g ∧ SameOthers s u q ∧ sees u) ∧
    (Performs (.cwait o) s q → (∃ i, m.getLsbD i = true ∧ b / 512 + i ∈ tm.absent) →
      Waits (.cwait o) s q (.chunks b m.toNat ((lanesOf 64 m).map fun i => b / 512 + i)) s) ∧
    (Performs (.ctest o) s q → ∃ u t G g, exec (.ctest o) s = .next t ∧ Continues q u t G g ∧ Dest o.ya 2 false q G
      (fun _ => BitVec.ofFnLE fun i => m.getLsbD i && decide (b / 512 + i.val ∉ tm.absent)) ∧ SameLanes q G ∧ SameOthers s u q ∧ sees u)) ∧
  (∀ (o : FM) s q tm,
    let out := mbit o.mod 0
    let n := (q.g.rdS o.data).toNat
    let off := (q.g.rdS o.index).toNat
    let a : Int := (q.g.rdS o.base).toNat + off24 o.off
    Performs (.cpy o) s q → s.team? q.g.team = some tm → tm.failed = [] → 0 < n → n % 512 = 0 → off % 512 = 0 → off + n ≤ tm.s →
    a % 16 = 0 → s.rangeCond q.g a n 1 (if out then .wr else .rd) = none → s.inFoot q.g out (addrOf a) n = true →
    (∀ c ∈ chunksOf off n, c ∉ tm.absent) →
    ∃ u, TeamTraffic s u q ∧ Goes (.cpy o) s q (State.modTeam { u with fresh := s.fresh + 1 } q.g.team fun t => { t with
      absent := t.absent ++ chunksOf off n
      rounds := t.rounds ++ [{ id := s.fresh, stage := none, jobs := [{
        out, rows := [(addrOf a, off, n)], chunks := chunksOf off n, left := chunksOf off n }] }] }))

/-- R202, R206, R207, R222, R225, R226. That the engine executes in the issuing step is the model's reading (logs 17 and 5). -/
def Obligations.TileInstructions : Prop :=
  (∀ s q b tm, EngineIdle s q b tm →
     let M := seenM s q b
     let mem := seenMem s b
     let scr := seenScratch tm b
     (∀ o : FX, Performs (.tzero o) s q → Executes (.tzero o) s q b []
       { m := { M with tiles := M.tiles.store (o.ta.toNat * 12288) (List.replicate 12288 0#8) } } q.g.lanes) ∧
     (∀ o : FM,
       let base := q.g.rdS o.base
       let off := (q.g.rdS o.index).toNat % 2 ^ 20
       let v := viewOf (mView o)
       let rows := tileRanges o base
       let op := fun i acc => ({ i, base, aux := BitVec.ofNat 64 off, rows := rows.map fun e => s.segs q.g e.1.toNat e.2 acc } : MOp)
       base.toNat % 16 = 0 →
       (Performs (.tld o) s q → Memory.wf s.mem = true → (∀ e ∈ rows, s.rangeCond q.g e.1 e.2 1 .rd = none) →
         (mbit o.mod 4 = true → off % 4 = 0 ∧ off + 4 * v.elems ≤ tm.s) → RequestsFree s q .load (linePieces (op (.tld o) .rd).rows.flatten) →
         Executes (.tld o) s q b [] (effTld o (op (.tld o) .rd) M mem scr) q.g.lanes) ∧
       (Performs (.tst o) s q → (∀ e ∈ rows, s.rangeCond q.g e.1 e.2 1 .wr = none) →
         RequestsFree s q .store (linePieces (op (.tst o) .wr).rows.flatten) →
         Executes (.tst o) s q b [] (effTst o (op (.tst o) .wr) M) q.g.lanes)) ∧
     (∀ o : FM, let a : Int := wrap64 ((q.g.rdS o.base).toNat + off24 o.off)
       Performs (.cbload o) s q → Memory.wf s.mem = true → a % 64 = 0 → s.rangeCond q.g a 1024 1 .rd = none → RequestsFree s q .load (linePieces (s.segs q.g a.toNat 1024 .rd)) →
       Executes (.cbload o) s q b [] { m := { M with book := M.book.store 0 (mem.segLoad (s.segs q.g a.toNat 1024 .rd)) } } q.g.lanes)) ∧
  (∀ (o : FM) (op : MOp) (M : MState) (mem scr : Mem) (pa : Nat → Nat),
     let v := viewOf (mView o)
     mbit o.mod 3 = false → mbit o.mod 4 = false → tileField o.data < 16 → Memory.wf mem = true → Memory.wf M.tiles = true →
     op.rows = (List.range v.rows).map (fun r => [(pa r, v.rb)]) →
     (∀ r j, r < v.rows → j < v.rb →
       (effTld o op M mem scr).m.tiles.read (tileField o.data * 12288 + v.step * r + j) = mem.read (pa r + j)) ∧
     (∀ a, (a < tileField o.data * 12288 ∨ (tileField o.data + 1) * 12288 ≤ a) → (effTld o op M mem scr).m.tiles.read a = M.tiles.read a) ∧
     (effTst o op M).mem = (List.range v.rows).map fun r =>
       (pa r, (List.range v.rb).map fun j => M.tiles.read (tileField o.data * 12288 + v.step * r + j)))

/-- R205, R226, R230 to R233: what the engine does is given by the effect functions effCwr, effCrd, effQnt and effDqnt. That it executes in the
issuing step is the model's reading (logs 17 and 5). -/
def Obligations.AccumulatorsAndQuantisation : Prop :=
  (∀ s q b tm, EngineIdle s q b tm →
     let M := seenM s q b
     ∀ o : FX,
       let regs := (List.range (crCols o)).flatMap fun t => if crTag o == 0 then [crReg o t, crReg o t + 1] else [crReg o t]
       (Performs (.czero o) s q → Executes (.czero o) s q b [] { m := M.clearAcc o.cd.toNat (xfLo o 2) } q.g.lanes) ∧
       (Performs (.cwr o) s q → Executes (.cwr o) s q b []
         (effCwr o q.g { i := .cwr o, regs := regs.map fun r => (r, (List.range q.g.width).map fun L => q.g.v r L) } M) q.g.lanes) ∧
       (Performs (.crd o) s q → M.tags.getD o.cd.toNat none = some (crTag o) → Executes (.crd o) s q b regs (effCrd o M) q.g.lanes) ∧
       (Performs (.crd o) s q → M.tags.getD o.cd.toNat none ≠ some (crTag o) → Traps (.crd o) s q .matrixState q.sub 0#64 0 s)) ∧
  (∀ s q b tm, EngineIdle s q b tm →
     let M := seenM s q b
     let scr := seenScratch tm b
     ∀ o : FX,
       let x := q.g.rdS o.sa
       let gens := (List.range 64).map fun L => (q.g.lane L).sr
       let sbReg := match o.sb with
         | .v r => [r.toNat + o.bsel.toNat / 4]
         | _ => []
       ((qDesc x).ok tm.s = true →
         (Performs (.qnt o) s q → Executes (.qnt o) s q b sbReg (effQnt o { i := .qnt o, base := x, gens } M scr)
           (if qRm o = 4 then q.g.lanes.map fun l => { l with sr := (srDraws 48 l.sr).2 } else q.g.lanes)) ∧
         (Performs (.dqnt o) s q → Executes (.dqnt o) s q b []
           (effDqnt o q.g { i := .dqnt o, base := x, gens, regs := sbReg.map fun r => (r, (List.range q.g.width).map fun L => q.g.v r L) } M scr)
           q.g.lanes)) ∧
       ((qDesc x).ok tm.s = false →
         (Performs (.qnt o) s q → Traps (.qnt o) s q .scratch q.sub (BitVec.ofNat 64 (x.toNat % 2 ^ 20)) 0 s) ∧
         (Performs (.dqnt o) s q → Traps (.dqnt o) s q .scratch q.sub (BitVec.ofNat 64 (x.toNat % 2 ^ 20)) 0 s)))

/-- R205, R216, R227, R228, R229: the multiplications, and the tag that their accumulator must have. That the engine executes in the issuing step
is the model's reading (logs 17 and 5). -/
def Obligations.MatrixMultiplications : Prop :=
  (∀ s q b tm, EngineIdle s q b tm →
     let M := seenM s q b
     ∀ o : FX,
       let tag := M.tags.getD o.cd.toNat none
       let op := fun i n => ({ i, regs := (scaleRegs o n).map fun r => (r, (List.range q.g.width).map fun L => q.g.v r L) } : MOp)
       (Performs (.mma o) s q → (∃ c, mClass (xfLo o 5) (o.xf.toNat / 32) = some c ∧ tag = some c.tag) →
         Executes (.mma o) s q b [] (effMma o M) q.g.lanes) ∧
       -- R205: another tag, or none
       (Performs (.mma o) s q → (∀ c, mClass (xfLo o 5) (o.xf.toNat / 32) = some c → tag ≠ some c.tag) →
         Traps (.mma o) s q .matrixState q.sub 0#64 0 s) ∧
       (tag ≠ some 2 → ∀ i ∈ [Instr.mmake4m3 o, .mmake5m2 o, .mmake3m2 o, .mmake2m3 o, .mmake2m1 o, .mmacb o], Performs i s q →
         Traps i s q .matrixState q.sub 0#64 0 s) ∧
       (tag = some 2 →
         (Performs (.mmake4m3 o) s q → Executes (.mmake4m3 o) s q b [] (effMmak 5 o q.g (op (.mmake4m3 o) 4) M) q.g.lanes) ∧
         (Performs (.mmake5m2 o) s q → Executes (.mmake5m2 o) s q b [] (effMmak 6 o q.g (op (.mmake5m2 o) 4) M) q.g.lanes) ∧
         (Performs (.mmake3m2 o) s q → Executes (.mmake3m2 o) s q b [] (effMmak 7 o q.g (op (.mmake3m2 o) 4) M) q.g.lanes) ∧
         (Performs (.mmake2m3 o) s q → Executes (.mmake2m3 o) s q b [] (effMmak 8 o q.g (op (.mmake2m3 o) 4) M) q.g.lanes) ∧
         (Performs (.mmake2m1 o) s q → Executes (.mmake2m1 o) s q b [] (effMmak 9 o q.g (op (.mmake2m1 o) 8) M) q.g.lanes) ∧
         (Performs (.mmacb o) s q → Executes (.mmacb o) s q b [] (effMmacb o q.g (op (.mmacb o) 4) M) q.g.lanes))) ∧
  (∀ (o : FX) (M : MState) (i j : Nat),
     let fa := xfLo o 5
     let fb := o.xf.toNat / 32
     let elem := fun (t code : Nat) (r k : Nat) =>
       let x := M.tiles.read (t * 12288 + 192 * r + k)
       if code = 10 then x.toInt else (x.toNat : Int)
     let acc := fun (m : MState) => (BitVec.ofNat 32 (m.accs.loadNat (o.cd.toNat * 16384 + 4 * (64 * i + j)) 4)).toInt
     (fa = 10 ∨ fa = 11) → (fb = 10 ∨ fb = 11) → Memory.wf M.tiles = true → Memory.wf M.accs = true → i < 64 → j < 64 →
     acc (effMma o M).m = clampTo 32 true
       (acc M + ((List.range 192).map fun k => elem o.ta.toNat fa i k * elem o.tb.toNat fb j k).sum))

/-- R198, R206, R208, R234, R235, R236. -/
def Obligations.BatchControl : Prop :=
  (∀ (o : FY) s q, q.g.matrix = true →
     (Performs (.mopen o) s q → (∀ b ∈ q.g.batches, b.closed = true) → q.g.batches.length < 4 →
       let core := s.core q.core
       ((∀ g ∈ s.groups, g.core = q.core → g.team = q.g.team → g.batches ≠ [] → g.id = q.g.id) →
         (core.mopenQ = [] ∨ core.mopenQ.head? = some q.g.id ∨ q.g.batches ≠ []) →
         ∃ u, Goes (.mopen o) s q u ∧ u.grp? q.g.id = some { q.g with batches := q.g.batches ++ [{}] } ∧ SameOthers s u q ∧
           { u with groups := s.groups, cores := s.cores } = s ∧ (∀ c, c ≠ q.core → u.core c = s.core c) ∧
           { u.core q.core with mopenQ := core.mopenQ } = core ∧ (u.core q.core).mopenQ = core.mopenQ.filter (· != q.g.id)) ∧
       ((∃ g, s.groups.find? (fun g => g.core == q.core && g.team == q.g.team && !g.batches.isEmpty) = some g ∧ g.id ≠ q.g.id) →
         ∃ u, Waits (.mopen o) s q .mopen u ∧ { u with cores := s.cores } = s ∧
           (u.core q.core).mopenQ = if core.mopenQ.contains q.g.id then core.mopenQ else core.mopenQ ++ [q.g.id])) ∧
     (Performs (.mclose o) s q → (∃ b ∈ q.g.batches, b.closed = false) →
       GoesAs (.mclose o) s q { q.g with batches := q.g.batches.map fun b => { b with closed := true } }) ∧
     (Performs (.mwait o) s q → (q.g.batches.filter (·.closed)).length ≤ o.code.toNat → (mbit o.mod 0 = true → ∀ b ∈ q.g.batches, b.closed = true) →
       ∃ u, Goes (.mwait o) s q u ∧ (mbit o.mod 0 = false → u = s) ∧
         (mbit o.mod 0 = true → u.grp? q.g.id = some (q.g.takeWaypoint q.sub q.pc)))) ∧
  (∀ (o : FY) s q b tm, Performs (.mwait o) s q → o.mod = 0#6 → o.code = 0#16 → q.g.matrix = true → q.g.batches = [b] → b.closed = true →
     s.team? q.g.team = some tm → s.bad = [] → (s.core q.g.core).badL1 = [] → q.g.badV = [] → tm.bad = [] → q.g.st = .resident →
     (b.todo = [] → b.fail = none → tm.failed = [] → tm.absent = [] → (∀ e ∈ b.pend.vregs, e.1 < q.g.vcount) →
       ∃ u t G g tn, exec (.mwait o) s = .next t ∧ Continues q u t G g ∧ G.batches = [] ∧ G.sregs = q.g.sregs ∧ G.preds = q.g.preds ∧
         (∀ r L, r < q.g.vcount → L < q.g.width → G.v r L = overlay b.pend.vregs r L (q.g.v r L)) ∧
         (∀ L, L < q.g.width → (G.lane L).fflags = if q.act.getLsbD L then (q.g.lane L).fflags ||| b.pend.fl else (q.g.lane L).fflags) ∧
         u.mem = b.pend.mem.foldl (fun m e => m.store e.1 e.2) s.mem ∧
         u.team? q.g.team = some tn ∧ tn.scratch = b.pend.scratch.foldl (fun m e => m.store e.1 e.2) tm.scratch ∧
         (u.core q.g.core).mstate = b.pend.m.getD (s.core q.g.core).mstate) ∧
     (∀ c a, b.fail = some (c, a) → Traps (.mwait o) s q c q.sub a 0 (s.modGrp q.g.id fun g => { g with batches := [] })) ∧
     (b.todo ≠ [] → b.fail = none → tm.failed = [] → Waits (.mwait o) s q (.mwait 0 q.act false) s))

/-- R343, R358, R360, R361, R422: the task, the sheet or the wakes that are added, and the answers; SHEET's and TASK's releases. A SHEET while submission is
closed has the code for retrying (log 18); a TASK waits where the dependence table lacks room (R360). Each of TASK, SHEET and QNOTE concludes that
exec answers a next state. -/
def Obligations.TasksSheetsAndNotes : Prop :=
  (∀ (o : FY) s q h,
     let a := q.g.rdS o.ya
     let r := s.mem.segLoad (s.segs q.g a.toNat 64 .rd)
     Performs (.task o) s q → s.sheet? q.g.sheet = some h → a.toNat % 64 = 0 → s.rangeCond q.g a.toNat 64 64 .rd = none → NoBadWord s q →
     RequestsFree s q .load (linePieces (s.segs q.g a.toNat 64 .rd)) →
     -- the record is read, then the release is made
     ∃ s1 ro, OnlyTraffic s s1 ∧ s1.mem = s.mem ∧ s1.sheets = s.sheets ∧ SameOthers s s1 q ∧ s1.grp? q.g.id = some { q.g with roMem := ro } ∧
     (∀ acc, s1.checkSub q.g.asn (taskRecord r) false = .ok acc →
       ∃ u G nt, Goes (.task o) s q u ∧ u.grp? q.g.id = some G ∧ SameLanes q G ∧ Dest o.yb 2 false q G (fun _ => BitVec.ofNat 64 h.tasks.length) ∧
         { u with groups := s1.groups, sheets := s1.sheets } = s1 ∧
         u.sheet? q.g.sheet = some { h with nextTeam := h.nextTeam + fieldAt r 48 2, tasks := h.tasks ++ [{
           num := h.tasks.length, kernel := BitVec.ofNat 64 (fieldAt r 0 8), hdr := acc.hdr, foots := acc.foots
           args := (List.range 4).map fun i => BitVec.ofNat 64 (fieldAt r (16 + 8 * i) 8), teams := fieldAt r 48 2
           matrix := (fieldAt r 51 1).testBit 0, notify := nt, firstTeam := h.nextTeam }] } ∧
         nt = if (fieldAt r 51 1).testBit 2 then some (q.g.team, fieldAt r 52 1) else none) ∧
     (∀ c, s1.checkSub q.g.asn (taskRecord r) false = .error c → c ≠ 8 →
       ∃ G, Goes (.task o) s q (s1.setGrp G) ∧ G.id = q.g.id ∧ SameLanes q G ∧ Dest o.yb 2 false q G (fun _ => BitVec.ofNat 64 (2 ^ 63 + c))) ∧
     (s1.checkSub q.g.asn (taskRecord r) false = .error 8 → ∃ d, Waits (.task o) s q (.answer d q.pf.cap.toNat q.pf.nwb r) s1)) ∧
  ((∀ (o : FY) s q qu,
     let a := q.g.rdS o.ya
     let qn := (q.g.rdS o.yb).toNat
     let r := s.mem.segLoad (s.segs q.g a.toNat 128 .rd)
     let seq := fieldAt r 88 4
     Performs (.sheet o) s q → a.toNat % 128 = 0 → s.rangeCond q.g a.toNat 128 128 .rd = none → NoBadWord s q → s.queue? qn = some qu →
     RequestsFree s q .load (linePieces (s.segs q.g a.toNat 128 .rd)) → s.procOf q.g.sheet = some qu.proc →
     ∃ s1 u G code, OnlyTraffic s s1 ∧ s1.mem = s.mem ∧ s1.sheets = s.sheets ∧ Goes (.sheet o) s q u ∧ u.grp? q.g.id = some G ∧ SameLanes q G ∧
       Dest o.yc 2 false q G (fun _ => BitVec.ofNat 64 (seq * 2 ^ 32 + code)) ∧ u.mem = s.mem ∧ u.teams = s.teams ∧
       (∃ qv, u.queue? qn = some qv ∧ qv.answers = (qu.answers + 1) % 2 ^ 32 ∧
         (code ≠ 2 → qv.status = BitVec.ofNat 64 (seq * 2 ^ 32 + code)) ∧
         qv.lastSeq = (if code = 1 then seq else qu.lastSeq) ∧ qv.accepted = if code = 1 then qu.accepted + 1 else qu.accepted) ∧
       (seq ≠ (qu.lastSeq + 1) % 2 ^ 32 → code = 3) ∧
       (seq = (qu.lastSeq + 1) % 2 ^ 32 →
         (∀ c, s1.checkSub qu.asn (sheetRecord r qu.asn) (s1.queueFull qn || s1.closing) = .error c → code = c) ∧
         (∀ acc, s1.checkSub qu.asn (sheetRecord r qu.asn) (s1.queueFull qn || s1.closing) = .ok acc → code = 1)) ∧
       (code ≠ 1 → u.sheets = s.sheets) ∧ (code = 1 → u.sheets.length = s.sheets.length + 1)) ∧
   (∀ (o : FY) s q qu h,
     let qn := (q.g.rdS o.ya).toNat
     let n := (q.g.rdS o.yb).toNat
     Performs (.qnote o) s q → s.queue? qn = some qu → (s.procOf q.g.sheet = some qu.proc ∨ qu.grants.contains q.g.asn = true) →
     s.sheet? q.g.sheet = some h →
     (h.immio = true → Goes (.qnote o) s q (s.modQueue qn fun x =>
       { x with wake := min (2 ^ 32 - 1) (x.wake + n), pending := x.pending || x.slot.isNone })) ∧
     (h.immio = false → Goes (.qnote o) s q (State.modSheet { s with fresh := s.fresh + 1 } q.g.sheet fun h =>
       { h with deferred := h.deferred ++ [(s.fresh, 0, .qnote qn n)] }))))

/-- R392, R393, R404: the call slot's bytes, every one of the layout (ARGS outside ACTIVE and past NARG are zero, log 33), the descriptor, the record
in the group. Each of SYS, SYSW and SYSA concludes that exec answers a next state. -/
def Obligations.ServiceCalls : Prop :=
  ∀ (o : FY) s q, q.g.batches = [] →
    let vec := fun i L => match o.ya with
      | .v n => q.g.v64 (n.toNat + 2 * i) L
      | .s n => q.g.s (n.toNat + i)
      | _ => 0#64
    let slot := fun n => q.g.frame + 4096 * (n + 1)
    let busy := fun n => ∃ c ∈ q.g.calls, c.slot = n
    let queued := fun (u : State) (n type : Nat) =>
      let v := s.surv (s.survOf q.g.core)
      let w := u.surv (s.survOf q.g.core)
      let d : Desc := { slot := slot n, type }
      if v.callq.length < Config.callq ∧ v.heldq = [] then w.callq = v.callq ++ [d] ∧ w.heldq = v.heldq
      else w.callq = v.callq ∧ w.heldq = v.heldq ++ [d]
    (Performs (.sys o) s q → ¬ busy 0 →
      ∃ u, Waits (.sys o) s q (.call 0) u ∧ SameOthers s u q ∧ u.teams = s.teams ∧ u.sheets = s.sheets ∧ queued u 0 1 ∧
        u.grp? q.g.id = some { q.g with calls := q.g.calls ++ [{
          slot := 0, form := 1, each := mbit o.mod 3, active := q.act, dest := destNum o.yb, pc := q.pc, callno := o.code.toNat, seq := s.fresh }] } ∧
        CallSlot u.mem s.mem (slot 0) q o q.act (narg o + (if mbit o.mod 3 then 8 else 0) + 16) 0 0 vec) ∧
    (Performs (.sysw o) s q → ¬ busy 0 →
      ∃ u, Waits (.sysw o) s q (.call 0) u ∧ SameOthers s u q ∧ u.teams = s.teams ∧ u.sheets = s.sheets ∧ queued u 0 3 ∧
        u.grp? q.g.id = some { q.g with calls := q.g.calls ++ [{
          slot := 0, form := 3, active := 1#64, dest := destNum o.yb, pc := q.pc, callno := o.code.toNat, seq := s.fresh }] } ∧
        CallSlot u.mem s.mem (slot 0) q o 1#64 (narg o + 48) 0 0 vec) ∧
    (busy 0 → (Performs (.sys o) s q → Waits (.sys o) s q (.slot 0 0) s) ∧ (Performs (.sysw o) s q → Waits (.sysw o) s q (.slot 0 0) s)) ∧
    (Performs (.sysa o) s q →
      let port := (q.g.rdS o.yc).toNat
      let open_ := port < 64 ∧ ∃ tm, s.team? q.g.team = some tm ∧ (tm.port? port).isSome = true
      (¬ open_ → Traps (.sysa o) s q .access q.sub 0#64 0 s) ∧
      (open_ → busy 1 → busy 2 → busy 3 → Waits (.sysa o) s q (.slot 1 3) s) ∧
      (∀ n, open_ → 1 ≤ n → n ≤ 3 → ¬ busy n → (∀ k, 1 ≤ k → k < n → busy k) →
        ∃ u, Goes (.sysa o) s q u ∧ SameOthers s u q ∧ u.teams = s.teams ∧ u.sheets = s.sheets ∧ queued u n 2 ∧
          u.grp? q.g.id = some { q.g with cseq := (q.g.cseq + 1) % 2 ^ 32, calls := q.g.calls ++ [{
            slot := n, form := 2, active := q.act, port, pc := q.pc, callno := o.code.toNat, cseq := (q.g.cseq + 1) % 2 ^ 32, seq := s.fresh }] } ∧
          CallSlot u.mem s.mem (slot n) q o q.act (narg o + 32) port ((q.g.cseq + 1) % 2 ^ 32) vec))

/-- R406, R417, R442, R443. -/
def Obligations.TrapsChecksAndCounters : Prop :=
  (∀ (o : FY) s q,
     (Performs (.trap o) s q → Traps (.trap o) s q .trap q.act 0#64 o.code.toNat (s.setGrp ((q.g.modLanes q.sub fun _ l =>
       { l with commit := true }).modLanes q.act fun L l => { l with targ := if o.ya = .v 0#8 then 0#64 else q.g.rd o.ya 2 L }))) ∧
     (Performs (.bkpt o) s q → Traps (.bkpt o) s q .break q.act 0#64 o.code.toNat (s.setGrp (q.g.modLanes q.sub fun _ l =>
       { l with commit := true }))) ∧
     (Performs (.fchk o) s q →
       let m : Flags := o.code.setWidth 6
       let hit := maskOf q.g.width fun L => q.act.getLsbD L && (q.g.lane L).fflags &&& m != 0#6
       ((∀ L, L < q.g.width → q.act.getLsbD L = true → (q.g.lane L).fflags &&& m = 0#6) → Goes (.fchk o) s q s) ∧
       ((∃ L, L < q.g.width ∧ q.act.getLsbD L = true ∧ (q.g.lane L).fflags &&& m ≠ 0#6) →
         Traps (.fchk o) s q .trap hit 0#64 (65536 + m.toNat) s))) ∧
  (∀ (o : F5) s q,
     (∀ h tm, Performs (.wearrd o) s q → s.sheet? q.g.sheet = some h → s.team? q.g.team = some tm →
       GivesAt (.wearrd o) s q o.d 2 false (fun _ => BitVec.ofNat 64 (if mbit o.mod 0 then tm.wear else h.wear)) (fun _ => 0#6)) ∧
     (Performs (.budrd o) s q →
       let n := (q.g.rdS o.a).toNat
       let res := o.mod.toNat
       let bs := (s.cluster (clusterOf q.core)).budgets
       (bs.length ≤ n → GivesAt (.budrd o) s q o.d 2 false (fun _ => 0#64) (fun _ => 0#6)) ∧
       ∀ b, bs[n]? = some b → b.used.getD res 0 < 2 ^ 32 → b.exh.getD res 0 < 2 ^ 16 → b.share res < 256 →
         GivesAt (.budrd o) s q o.d 2 false (fun _ =>
           BitVec.ofNat 16 (b.exh.getD res 0) ++ BitVec.ofNat 8 (b.share res) ++ 0#8 ++ BitVec.ofNat 32 (b.used.getD res 0)) (fun _ => 0#6)))

/-- R455, R456. -/
def Obligations.SealFrames : Prop :=
  ∀ (o : FY) s q h job f,
    let a := q.g.rdS o.ya
    let n := q.g.rdS o.yb
    s.sheet? q.g.sheet = some h → h.sealJob = some job → h.seals.find? (fun x => x.num == o.code.toNat) = some f →
    let set := fun (k : SealFrame → SealFrame) => s.modSheet q.g.sheet fun h => { h with
      seals := h.seals.map fun x => if x.num = o.code.toNat then k x else x }
    let inside := ∃ r ∈ s.taskFoots q.g, r.base ≤ a.toNat ∧ a.toNat + n.toNat ≤ r.base + r.len
    (Performs (.seal o) s q →
      (0 < n.toNat → n.toNat < 2 ^ 40 → inside → f.closed = false → f.regions.length < 64 →
        Goes (.seal o) s q (set fun x => { x with regions := x.regions ++ [(a, n)] })) ∧
      ((n.toNat = 0 ∨ 2 ^ 40 ≤ n.toNat) → Traps (.seal o) s q .access q.sub a 0 s) ∧
      (0 < n.toNat → n.toNat < 2 ^ 40 → ¬ inside → Traps (.seal o) s q .footprint q.sub a 0 s) ∧
      (0 < n.toNat → n.toNat < 2 ^ 40 → inside → (f.closed = true ∨ 64 ≤ f.regions.length) → Traps (.seal o) s q .access q.sub a 0 s)) ∧
    (Performs (.sealx o) s q →
      (f.closed = false → f.regions ≠ [] → Goes (.sealx o) s q (set fun x => { x with closed := true })) ∧
      ((f.closed = true ∨ f.regions = []) → Traps (.sealx o) s q .access q.sub 0#64 0 s))

/-- R362 to R370, R378, R380: SEND and SENDX release at team and at device scope; the messages of the lanes that execute, in some order
among the lanes (R366; log 2), at one port of a team that has no consumer: they enter it where they fit, are refused with E_PORT_OVERFLOW by a fault-mode port that cannot take
them all, wait at a full port in block mode, and are discarded and counted at a closed one. SENDX names the team and port in A.
Both conclude that exec answers a next state. -/
def Obligations.Sends : Prop :=
  ∀ (o : F5) s q tm n,
    let lanes := lanesOf q.g.width q.act
    let msg := fun kind L => ({ data := q.g.rd o.b 2 L, aux := (lo32 (q.g.rd o.c 1 L)).toNat, info := q.g.idx * 64 + L, port := n, kind
                                scope := 2 * kind } : Msg)
    let cases := fun (i : Instr) (kind : Nat) =>
      let s0 := s.releaseAt q.core (2 * kind) (s.pairedOf q.g)
      OnlyTraffic s s0 ∧ s0.groups = s.groups ∧ s0.mem = s.mem ∧ s0.sheets = s.sheets ∧
      (∀ p, tm.port? n = some p → (p.xteam = true ∨ tm.id = q.g.team) → p.blocked = [] → p.held = [] → tm.recvs = [] → tm.pats = [] →
        JoinsIdle s tm.cores →
        (p.q.length + lanes.length ≤ p.depth →
          ∃ u tn, ∃ order : List Nat, order.Perm lanes ∧ Goes i s q u ∧ u.grp? q.g.id = some q.g ∧
            { u with teams := s.teams } = { s0 with free := s.free + 1 } ∧ u.team? tm.id = some tn ∧
            (∀ id, id ≠ tm.id → u.team? id = s.team? id) ∧ { tn with ports := tm.ports } = tm ∧ (∀ m, m ≠ n → tn.port? m = tm.port? m) ∧
            tn.port? n = some { p with q := p.q ++ order.map (msg kind) }) ∧
        (p.fault = true → p.depth < p.q.length + lanes.length → Traps i s q .portOverflow q.act 0#64 0 s) ∧
        (p.fault = false → p.q.length = p.depth →
          ∃ u tn, ∃ order : List Nat, order.Perm lanes ∧ Waits i s q (.send 0#64) u ∧ u.grp? q.g.id = some q.g ∧
            { u with teams := s.teams } = { s0 with free := s.free + 1 } ∧ u.team? tm.id = some tn ∧
            tn.port? n = some { p with blocked := order.map fun L => { gid := q.g.id, lane := L, msg := msg kind L } })) ∧
      (tm.port? n = none → getK tm.lost 0 n ≤ 65535 →
        ∃ u tn, Goes i s q u ∧ u.grp? q.g.id = some q.g ∧ { u with teams := s.teams } = { s0 with free := s.free + 1 } ∧
          u.team? tm.id = some tn ∧ tn.ports = tm.ports ∧ getK tn.lost 0 n = min 65535 (getK tm.lost 0 n + lanes.length))
    s.team? tm.id = some tm → (∀ t ∈ s.teams, ∀ p ∈ t.ports, ∀ b ∈ p.blocked, b.gid ≠ q.g.id) →
    (Performs (.send o) s q → tm.id = q.g.team → (q.g.rdS o.a).toNat = n → n < 64 → cases (.send o) 1) ∧
    (Performs (.send o) s q → 64 ≤ (q.g.rdS o.a).toNat → Traps (.send o) s q .access q.act 0#64 0 s) ∧
    (Performs (.sendx o) s q →
      s.teams.find? (fun t => t.sheet == q.g.sheet && t.teamid == tm.teamid && !t.exited) = some tm → n < 64 → tm.teamid < 2 ^ 32 →
      (∀ L, q.act.getLsbD L = true → q.g.rd o.a 2 L = BitVec.ofNat 64 (tm.teamid + 2 ^ 32 * n)) → cases (.sendx o) 2)

/-- R374, R381: RECV takes the head message of an open port into its register pair when nothing else is chosen first; at an empty port its
subset waits, and at a closed one it is E_ACCESS. R383: RPEEK gives the head message and takes nothing. -/
def Obligations.Receives : Prop :=
  ∀ (o : F5) s q tm d, o.d = .s d → s.team? q.g.team = some tm →
    let n := (q.g.rdS o.a).toNat
    (Performs (.recv o) s q → mbit o.mod 0 = false →
      (∀ p m rest, n < 64 → tm.port? n = some p → p.core ∈ tm.cores → p.q = m :: rest → tm.recvs = [] → tm.pats = [] → JoinsIdle s tm.cores →
        q.g.st = .resident →
        q.sub = q.g.subsetAt (lowest q.sub) → (q.g.lane (lowest q.sub)).exited = false → (q.g.lane (lowest q.sub)).pc = q.pc →
        ∃ t g tn, exec (.recv o) s = .next t ∧ t.grp? q.g.id = some g ∧ g.vregs = q.g.vregs ∧ g.preds = q.g.preds ∧
          (∀ r, g.s r = if r = d.toNat then m.lo else if r = d.toNat + 1 then m.data else q.g.s r) ∧
          (∀ L, L < q.g.width → (g.lane L).pc = if q.sub.getLsbD L then nextPc q.pc else (q.g.lane L).pc) ∧
          (∀ L, L < q.g.width → q.sub.getLsbD L = true → (g.lane L).wait = .none) ∧
          t.mem = s.mem ∧ t.team? q.g.team = some tn ∧ tn.recvs = [] ∧ tn.port? n = some { p with q := rest }) ∧
      (∀ p, n < 64 → tm.port? n = some p → p.q = [] → tm.recvs = [] → tm.pats = [] → JoinsIdle s tm.cores →
        (q.g.lane (lowest q.sub)).pc = q.pc → q.sub ≠ 0#64 → (∀ L, q.sub.getLsbD L = true → L < q.g.width) →
        ∃ u tn, Waits (.recv o) s q (.recv n d.toNat q.pf.cap.toNat) u ∧ u.mem = s.mem ∧ u.team? q.g.team = some tn ∧
          tn.recvs = [{ gid := q.g.id, mask := q.sub, port := n, seq := s.fresh }] ∧ tn.ports = tm.ports) ∧
      ((64 ≤ n ∨ tm.port? n = none) → Traps (.recv o) s q .access q.sub 0#64 0 s)) ∧
    (Performs (.recv o) s q → mbit o.mod 0 = true → (∀ p ∈ tm.pats, p.spawn = false → p.owner ≠ q.g.id) →
      Traps (.recv o) s q .access q.sub 0#64 0 s) ∧
    (Performs (.rpeek o) s q →
      (∀ p, n < 64 → tm.port? n = some p → ∃ G, GoesAs (.rpeek o) s q G ∧ SameLanes q G ∧ G.vregs = q.g.vregs ∧
        let m := (p.q ++ p.held).head?
        ∀ r, G.s r = if r = d.toNat then (m.map Msg.lo).getD 0#64 else if r = d.toNat + 1 then (m.map Msg.data).getD 0#64 else q.g.s r) ∧
      ((64 ≤ n ∨ tm.port? n = none) → Traps (.rpeek o) s q .access q.sub 0#64 0 s))

/-- R365, R370, R371, R372, R382, R383: arming ports and patterns from their records, disarming them, and their status words. -/
def Obligations.PortsAndPatterns : Prop :=
  (∀ (o : FY) s q tm,
    let a : Nat := (q.g.rdS o.ya).toNat
    let r : List Byte := s.mem.segLoad (s.segs q.g a 16 .rd)
    let f := fun off n => fieldAt r off n
    Performs (.patarm o) s q → s.team? q.g.team = some tm → s.rangeCond q.g (a : Int) 16 16 .rd = none → NoBadWord s q →
    RequestsFree s q .load (s.segs q.g a 16 .rd) → JoinsIdle s tm.cores →
    (mbit o.mod 0 = false → (∀ p ∈ tm.ports, p.q = []) ∧ ((f 13 1).testBit 2 = true →
      s.childEntry q.g (BitVec.ofNat 64 (f 0 8)) = .refused ∨ ∃ h, s.childEntry q.g (BitVec.ofNat 64 (f 0 8)) = .header h)) →
    ∃ u G code tn, Goes (.patarm o) s q u ∧ u.grp? q.g.id = some G ∧ SameLanes q G ∧ Dest o.yb 2 false q G (fun _ => BitVec.ofNat 64 code) ∧
      u.mem = s.mem ∧ u.team? q.g.team = some tn ∧ (∀ id, id ≠ q.g.team → u.team? id = s.team? id) ∧ (code ≠ 0 → tn = tm) ∧
      (mbit o.mod 0 = true →
        let ok := f 0 1 < 64 ∧ 1 ≤ f 1 1 ∧ f 1 1 ≤ 16 ∧ f 2 1 < 4 ∧ (∀ b ∈ r.drop 3, b = 0#8)
        code = (if ¬ ok then 1 else if (tm.port? (f 0 1)).isSome then 2 else if Config.ports ≤ s.portsUsed q.core then 5 else 0) ∧
        (code = 0 → tn = { tm with ports := tm.ports ++ [{
          num := f 0 1, depth := f 1 1, fault := (f 2 1).testBit 0, xteam := (f 2 1).testBit 1, core := q.core }] })) ∧
      (mbit o.mod 0 = false → code = 0 → ∃ hdr, ((f 13 1).testBit 2 = false → hdr = none) ∧
        tn = { tm with pats := tm.pats ++ [{ num := f 8 1, handler := BitVec.ofNat 64 (f 0 8), ports := patPorts r, prio := f 13 1 % 4
                                             spawn := (f 13 1).testBit 2, once := (f 13 1).testBit 3, sbase := f 14 1, owner := q.g.id
                                             core := q.core, hdr }] } ∧
        (∀ x ∈ tm.pats, x.num ≠ f 8 1) ∧ (∀ k ∈ patPorts r, (tm.port? k).isSome = true) ∧ 1 ≤ f 9 1 ∧ f 9 1 ≤ 4 ∧ f 8 1 < 32)) ∧
  (∀ (o : FY) s q tm, Performs (.patdis o) s q → s.team? q.g.team = some tm →
    let n := o.code.toNat
    ∃ u tn, Goes (.patdis o) s q u ∧ u.team? q.g.team = some tn ∧
      (mbit o.mod 0 = true → (∀ p ∈ tn.ports, p.num ≠ n) ∧ ∀ p, tm.port? n = some p →
        tn.pats = tm.pats.filter (fun x => !x.ports.contains n) ∧ tn.recvs = tm.recvs.filter (fun x => x.port != n)) ∧
      (mbit o.mod 0 = false → tn = { tm with pats := tm.pats.filter fun x => x.num != n })) ∧
  (∀ (o : F5) s q tm d, o.d = .s d → Performs (.pstat o) s q → s.team? q.g.team = some tm →
    let n := (q.g.rdS o.a).toNat
    (mbit o.mod 0 = false → n < 64 →
      (tm.port? n = none → getK tm.lost 0 n < 65536 →
        GivesAt (.pstat o) s q o.d 2 false (fun _ => BitVec.ofNat 16 (getK tm.lost 0 n) ++ 0#48) (fun _ => 0#6)) ∧
      ∀ p, tm.port? n = some p → getK tm.lost 0 n < 65536 → p.held.length < 65536 → (tm.pats.filter (·.ports.contains n)).length < 64 →
        p.depth < 256 → p.q.length < 256 →
        GivesAt (.pstat o) s q o.d 2 false (fun _ => BitVec.ofNat 16 (getK tm.lost 0 n) ++ BitVec.ofNat 16 p.held.length ++
          BitVec.ofNat 6 (tm.pats.filter (·.ports.contains n)).length ++ BitVec.ofBool p.xteam ++ BitVec.ofBool p.fault ++
          BitVec.ofNat 8 p.depth ++ BitVec.ofNat 8 p.q.length ++ 1#8) (fun _ => 0#6)) ∧
    (mbit o.mod 0 = true → n < 32 → (∀ p ∈ tm.pats, p.num ≠ n) → GivesAt (.pstat o) s q o.d 2 false (fun _ => 0#64) (fun _ => 0#6)) ∧
    ((if mbit o.mod 0 then 32 else 64) ≤ n → Traps (.pstat o) s q .access q.sub 0#64 0 s))

/-- What ends a wait (R89): lanes at a nap, a barrier or WINWAIT go on at the slot after theirs; lanes at a limit, in line or short of a
chunk issue their instruction again. A saved group is changed in its frame. -/
def Obligations.EndsOfWaits : Prop :=
  (∀ (p : Wait → Bool) g, Released p g (g.release p) ∧ IssuesAgain p g (g.again p)) ∧
  -- R85: what changes in the registers of a group that is not resident stands in the park area too
  (∀ (s : State) (g : Group) f, s.grp? g.id = some g → g.st ≠ .saved →
    s.updGroup g.id f = if (f g).st ≠ .resident ∧ g.vregs ≠ (f g).vregs then (s.setGrp (f g)).parkRegs (f g) else s.setGrp (f g)) ∧
  -- R120
  (∀ (s : State) (g : Group), s.grp? g.id = some g → g.HasWait Wait.napOver →
    exec (.napExpiry g.id) s = .next (s.updGroup g.id fun h => h.release Wait.napOver)) ∧
  -- R110: every lane of the team's groups that has not exited waits at the barrier
  (∀ (s : State) team k, (∀ g ∈ s.teamGroups team, ∀ l ∈ (s.view g).lanes, l.exited = true ∨ l.wait = .bar k) →
    (∃ g ∈ s.teamGroups team, (s.view g).HasWait (Wait.atBar k)) →
    exec (.barrierRelease team k) s =
      -- R111: an acquire at team scope of each group, and its lanes go on
      .next ((s.teamGroups team).foldl (fun t g =>
        (t.acquireAt g.core 2 (t.pairedOf g)).updGroup g.id fun h => h.release (Wait.atBar k)) s)) ∧
  (∀ (s : State) team k, (∃ g ∈ s.teamGroups team, ∃ l ∈ (s.view g).lanes, l.exited = false ∧ l.wait ≠ .bar k) →
    exec (.barrierRelease team k) s = .next s) ∧
  -- R315
  (∀ (s : State) (g : Group) h, s.grp? g.id = some g → s.sheet? g.sheet = some h → g.HasWait (Wait.winDone h) →
    exec (.winwaitSatisfied g.id) s =
      .next ((s.fenceOf g 5 1).updGroup g.id fun x => x.release (Wait.winDone h))) ∧
  -- R117
  (∀ (s : State) (h : Sheet), s.sheet? h.id = some h → h.spawnFreed = true →
    let t := (s.groups.filter fun g => g.sheet == h.id && g.waits Wait.atSpawn).foldl
      (fun t g => t.updGroup g.id fun x => x.again Wait.atSpawn) (s.modSheet h.id fun x => { x with spawnFreed := false })
    -- R373: its spawn patterns are enabled again
    exec (.spawnLimitResume h.id) s = .next ((t.teams.filter fun x => x.sheet == h.id && !x.exited).foldl (fun u x => u.join x.id) t)) ∧
  -- R198: the first MOPEN, once no group of the team holds
  (∀ (s : State) core t (g : Group) rest, (s.core core).mowner = some t → (s.core core).mopenQ = g.id :: rest →
    (∀ x ∈ s.groups, x.core = core → x.team = t → x.batches = []) → s.grp? g.id = some g → g.HasWait Wait.atMopen →
    exec (.holdershipGrant core) s = .next (s.updGroup g.id fun x => x.again Wait.atMopen)) ∧
  -- R208
  (∀ (s : State) (g : Group), s.grp? g.id = some g → s.mwaitReady g = true →
    exec (.batchComplete g.id) s = .next (s.updGroup g.id fun x => x.again (Wait.mwaitDone s g.id))) ∧
  -- R236: while what an MWAIT asks has not completed, the oldest batches retire as each completes
  (∀ (s : State) (g : Group) n fl t, s.grp? g.id = some g → s.mwaitReady g = false → g.st ≠ .saved → g.mwaits = [(n, fl)] →
    s.retire g.id n fl = .wait t → exec (.batchComplete g.id) s = .next t) ∧
  -- R492, R201: the engine goes on; a team whose last group has been saved meanwhile takes its matrix state along
  (∀ (s : State) (g : Group), s.grp? g.id = some g → s.engineBlocked g = false →
    exec (.engineChunkReady g.id) s = .next (((s.engine g.id).mwaitAgain g.id).imageOut g.team g.core)) ∧
  -- R243, R249
  (∀ (s : State) (g : Group) t, s.grp? g.id = some g → s.team? g.team = some t → g.HasWait (Wait.chunksDone t) →
    exec (.chunkWaitResume g.id) s = .next (s.updGroup g.id fun x => x.again (Wait.chunksDone t))) ∧
  (∀ (s : State) (g : Group) t, s.grp? g.id = some g → s.team? g.team = some t → g.HasWait (Wait.stageFree t) →
    exec (.stageRoundLimitResume g.id) s = .next (s.updGroup g.id fun x => x.again (Wait.stageFree t))) ∧
  -- R282: the oldest instruction that waits, when enough of the 1,024 entries are free
  (∀ (s : State) core (g : Group) m rest n, (s.core core).reqQ = (g.id, m) :: rest → s.grp? g.id = some g → g.wantsLines m = some n →
    (s.core core).reqs.length + n ≤ 1024 →
    exec (.requestEntryGrant core) s = .next (s.updGroup g.id fun x =>
      { x with lanes := x.lanes.mapIdx fun L l => if m.getLsbD L && l.wait.isRequest then { l with wait := .none } else l })) ∧
  -- R330: a walk that CUR has come up to, or that was made before CUR last advanced
  (∀ (s : State) die n (w : Walk), (s.die die).walks[n]? = some w → w.granted = true → (w.rgen ≤ (s.die die).cur ∨ w.at_ < (s.die die).cur) →
    exec (.walkComplete die n) s =
      .next ((s.modDie die fun d => { d with walks := d.walks.eraseIdx n }).updGroup w.gid fun x => x.again Wait.isWalk)) ∧
  -- R447: a class with SPILL, when no class within its allowance waits for the resource
  (∀ (s : State) (g : Group) cls res b, s.grp? g.id = some g → g.budgetWait = some (cls, res) →
    (s.cluster (clusterOf g.core)).budgets[cls]? = some b → b.spill = true →
    (∀ h ∈ s.groups, clusterOf h.core = clusterOf g.core → ∀ c, h.budgetWait = some (c, res) → c = cls ∨ s.spent (clusterOf g.core) c res = true) →
    -- the engines' rounds and the Surveyors' copies ask too
    (cls = 2 ∨ s.spent (clusterOf g.core) 2 res = true ∨ ∀ t ∈ s.teams, clusterOf (t.cores.headD 0) = clusterOf g.core → t.rounds = []) →
    (cls = 4 ∨ s.spent (clusterOf g.core) 4 res = true ∨ ∀ e ∈ s.survs, s.clusterAt e.1 = clusterOf g.core → e.2.ccJob = none) →
    exec (.budgetSpillGrant g.id) s = .next (s.updGroup g.id fun x => { x.again (Wait.inBudget cls res) with spill := true }))

/-- The steps of a core's scheduler, of its request entries and of its die's walks (R86, R87, R91, R100, R107, R282, R322). -/
def Obligations.CoreSteps : Prop :=
  -- R91: a subset passed over 64 times is issued next
  (∀ (s : State) core id m (g : Group), s.pick core = some (id, m) → s.grp? id = some g → 64 ≤ (g.lane (lowest m)).skipped →
    exec (.pickerPassedOverLimit core id) s = .next { s with agenda := .issue core false :: s.agenda }) ∧
  -- R100: 4,096 ck after its first thread
  (∀ (s : State) core (b : Bin), ((s.core core).bins.find? fun x => x.order == b.order) = some b →
    exec (.binTimerExpiry core b.order) s = .next (if b.start + 4096 ≤ (s.core core).cycle.toNat then s.launchBin core b else s)) ∧
  -- R86: the eligible parked group that has waited longest is resident again, once waiting groups have given up their units
  (∀ (s : State) core (g : Group), let t := s.makeRoom g (s.groupsOn core).length
    firstSeq ((s.groupsOn core).filter fun x => x.st == .parked && x.eligible) = some g → t.unitsUsed g.core + unitsOf g.width g.vcount ≤ 256 →
    exec (.groupUnpark core) s = .next (t.setGrp { g with st := .resident, issueSince := 0, seq := 0 })) ∧
  -- R86: after 65,536 ck the group that has issued for longest is parked
  (∀ (s : State) core (p g : Group), p ∈ s.groups → p.core = core → p.st = .parked → p.eligible = true →
    max p.parkedAt (s.core core).lastFree + 65536 ≤ (s.core core).cycle.toNat → s.longestIssuing core = some g → s.grp? g.id = some g →
    ∃ t h, exec (.parkStarvationTimeout core) s = .next t ∧ t.grp? g.id = some h ∧ h.st = .parked ∧ h.lanes = g.lanes ∧ h.vregs = g.vregs ∧
      h.sregs = g.sregs ∧ h.preds = g.preds ∧ ∀ l ∈ h.latches, l.st ≠ .live) ∧
  -- R107, R196, R296: the last lane has exited, and every put of the group has arrived
  (∀ (s : State) (g : Group) (p : Put), s.grp? g.id = some g → p ∈ s.puts → p.origin = s.moduleNo → p.gid = g.id → p.arrived = false →
    exec (.groupContextFree g.id) s = .next s) ∧
  (∀ (s : State) (g : Group), s.grp? g.id = some g → g.st ≠ .saved → (∀ L, L < g.width → (g.lane L).exited = true) →
    (∀ p ∈ s.puts, p.origin = s.moduleNo → p.gid = g.id → p.arrived = true) →
    ∃ t, exec (.groupContextFree g.id) s = .next t ∧ t.grp? g.id = none ∧ t.mem = s.mem ∧ t.teams = s.teams ∧ t.sheets = s.sheets ∧
      g.id ∉ (t.core g.core).rot ∧ (∀ r ∈ (t.core g.core).reqs, r.gid ≠ g.id) ∧
      ((s.core g.core).mowner = some g.team → (∀ h ∈ s.groups, h.team = g.team → h.core = g.core → h.id = g.id) →
        (t.core g.core).mowner = none)) ∧
  -- R87, R261
  (∀ (s : State) (t : Team), s.team? t.id = some t → t.exited = true → t.frees = false → t.rounds = [] → (∀ g ∈ s.groups, g.team ≠ t.id) →
    exec (.teamScratchReturn t.id) s = .next (s.modTeam t.id fun x =>
      { x with frees := true, scratch := [], older := [], landed := [], bad := [], sched := none })) ∧
  -- R282: an entry is free; R281: a release at system scope goes on once its group's writes to the pool and to hosts are acknowledged
  (∀ (s : State) core n,
    let t := s.modCore core fun c => { c with reqs := c.reqs.eraseIdx n }
    let owes := fun (g : Group) => ∃ r ∈ (t.core core).reqs, r.gid = g.id ∧ r.wr = true ∧ lineCached r.line = false
    exec (.memoryResponseReturn core n) s =
      .next { t with groups := s.groups.map fun g => if g.core = core ∧ ¬ owes g then g.again (· == .request 0) else g }) ∧
  -- R322: the first walk that waits, while fewer than 64 are in flight
  (∀ (s : State) die, (∃ w ∈ (s.die die).walks, w.granted = false) → ((s.die die).walks.filter (·.granted)).length < 64 →
    exec (.walkGrant die) s = .next (s.modDie die fun d => { d with walks := grantFirst d.walks })) ∧
  (∀ (ws : List Walk) (w : Walk) rest, (∀ x ∈ ws, x.granted = true) → w.granted = false →
    grantFirst (ws ++ w :: rest) = ws ++ { w with granted := true } :: rest)

/-- Marks and the snoop filter (R280, R294), tickets and generations (R325, R328, R329), replies to page faults (R327). -/
def Obligations.MemorySteps : Prop :=
  -- R294: the mark of an evicted line is promoted, and no other
  (∀ (s : State) line, ∃ t, exec (.markedLineEvict line) s = .next t ∧ (∀ e ∈ (t.die (paHome (line * 128))).marks, e.1 ≠ line) ∧
    (∀ e, e.1 ≠ line → (e ∈ (t.die (paHome (line * 128))).marks ↔ e ∈ (s.die (paHome (line * 128))).marks)) ∧
    line ∉ (t.die (paHome (line * 128))).l2 ∧ { t with dies := s.dies, cores := s.cores, bad := s.bad } = s ∧ OnlyTraffic s t) ∧
  -- R280: of lines of the pool
  (∀ (s : State) line, ∃ t, exec (.cxlBackInvalidate line) s = .next t ∧ { t with dies := s.dies, cores := s.cores, bad := s.bad } = s ∧
    OnlyTraffic s t ∧
    (paPool (line * 128) = false → t = s) ∧
    (paPool (line * 128) = true → line ∉ (t.die (paHome (line * 128))).filter ∧ ∀ e ∈ (t.die (paHome (line * 128))).marks, e.1 ≠ line)) ∧
  -- R328: each read gives the next ticket; an invalidation belongs to its writer's last ticket; a ticket is done once
  (∀ (s : State) a, isAgent a = true → ∃ t, exec (.xgenTicket a) s = .next t ∧ t.ticket = s.ticket + 1 ∧ getK t.agentTicket 0 a = s.ticket ∧
    { t with ticket := s.ticket, agentTicket := s.agentTicket } = s) ∧
  (∀ (s : State) a w, isAgent a = true → exec (.xgenInval a w) s = .next { s with invals := s.invals ++ [(getK s.agentTicket 0 a, w)] }) ∧
  (∀ (s : State) a g, isAgent a = true → ∃ t, exec (.xgenDone a g) s = .next t ∧ { t with doneTickets := s.doneTickets } = s ∧
    ∀ x, x ∈ t.doneTickets ↔ x ∈ s.doneTickets ∨ (x = g.toNat ∧ 0 < x ∧ x < s.ticket)) ∧
  -- R329: CUR rises to the greatest generation whose tickets are done, and entries that they name leave the die's TLBs
  (∀ (s : State) die, (s.die die).cur < s.publishableOn die →
    ∃ t, exec (.generationAdvance die) s = .next t ∧ (t.die die).cur = s.publishableOn die ∧ t.mem = s.mem ∧ t.groups = s.groups ∧
      (∀ e ∈ s.invals, e.1 ≤ s.publishableOn die →
        (∀ x ∈ (t.die die).tlb, x.named (invalAsn e.2) (invalAll e.2) (invalVpn e.2) = false) ∧
        ∀ c, dieOf c = die → ∀ x ∈ (t.core c).tlb, x.named (invalAsn e.2) (invalAll e.2) (invalVpn e.2) = false)) ∧
  (∀ (s : State) die, s.publishableOn die ≤ (s.die die).cur → exec (.generationAdvance die) s = .next s) ∧
  -- R325, R329: not past a ticket that a live extent, or a translated store of the die, holds back
  (∀ (s : State) die, s.publishableOn die ≤ s.publishable ∧
    ∀ e ∈ s.invals, (s.extentHolds e.2 = true ∨ s.holdsBack die e.2 = true) → s.publishableOn die ≤ e.1 - 1) ∧
  -- R327: the one shard asked has mapped every page: the group comes back and asks at the generation that the reply names
  (∀ (s : State) (g : Group) shard gen maps r s1,
    s.grp? g.id = some g → g.st = .saved → g.faults = [r] → r.shard = shard → r.done = false → r.failed = none → g.save.cause = .pageWait →
    (∀ a ∈ r.vas, s.onTheMove g.asn a.toNat = false) → r.who.length = r.vas.length → s.mapServed g.asn maps = some s1 →
    ((∀ a ∈ r.vas, a.toNat < 2 ^ 57 ∧ (s1.walk g.asn a.toNat).isSome = true) → (s.freeCtx g.core).isSome = true → s.imageOf g = none →
      s.ckptStop = false → g.frameIntact s1.mem = true → (s.core g.core).wst ≠ .drained → (s.core g.core).wst ≠ .retired →
      ∃ t h, exec (.pageFaultReply g.id shard gen maps) s = .next t ∧ t.grp? g.id = some h ∧ h.st = .parked ∧ h.frameHeld = false ∧
        h.faults = [] ∧ h.rgen = some (max gen (g.rgen.getD 0))) ∧
    (let lost := (r.who.zip r.vas).filter fun e => decide (2 ^ 57 ≤ e.2.toNat) || (s1.walk g.asn e.2.toNat).isNone
     lost ≠ [] →
      ∃ t h, exec (.pageFaultReply g.id shard gen maps) s = .next t ∧ t.grp? g.id = some h ∧ h.st = .saved ∧ h.frameHeld = true ∧
        h.faults = [] ∧ h.save.cause = .page ∧ h.save.fstate = 3 ∧ h.save.flanes = Mask.ofLanes (lost.map (·.1)) ∧
        some h.save.faddr = (lost.find? fun e => e.1 == lowest h.save.flanes).map (·.2)))

/-- Puts, windows and flits (R300 to R303, R462, R463), and a host's accesses to HBM (R461). The port of a
module's traffic (portOf), and the channel and numbering of a retry flit, are log 9. -/
def Obligations.WindowsAndFabric : Prop :=
  -- R300: at another module the bytes are that module's
  (∀ (s : State) n (p : Put), s.puts[n]? = some p → p.arrived = false → p.module ≠ s.moduleNo →
    exec (.putArrival n) s = .next { s with puts := s.puts.modify n fun x => { x with arrived := true } }) ∧
  -- R300: at this module they are performed, and ARR of the export grows by them
  (∀ (s : State) n (p : Put) h w ss, s.puts[n]? = some p → p.arrived = false → p.module = s.moduleNo →
    s.exportOf (p.wref.toNat / 2 ^ 48) = some (h, w) → s.sheet? h.id = some h → p.wref.toNat % 2 ^ 48 + p.data.length ≤ w.len →
    s.asnSegs h.asn (w.base + p.wref.toNat % 2 ^ 48) p.data.length = some ss → s.bad = [] →
    ∃ t x, exec (.putArrival n) s = .next t ∧ t.mem = ((splitSegs ss p.data).foldl (fun u e => u.sheetStore h.id e.1 e.2) s).mem ∧
      t.sheet? h.id = some x ∧ x.noReplay = true ∧
      (x.windows.find? fun y => y.entry == w.entry && !y.isImport) = some { w with arr := w.arr + BitVec.ofNat 64 p.data.length }) ∧
  -- R300: the acknowledgement raises ACK of the import
  (∀ (s : State) n (p : Put) h w, s.puts[n]? = some p → p.arrived = true → p.origin = s.moduleNo → s.sheet? p.sheet = some h →
    (h.windows.find? fun x => x.entry == p.entry && x.isImport) = some w →
    ∃ t x, exec (.putAckReceipt n) s = .next t ∧ t.puts = s.puts.eraseIdx n ∧ t.mem = s.mem ∧ t.sheet? p.sheet = some x ∧
      (x.windows.find? fun y => y.entry == p.entry && y.isImport) = some { w with ack := w.ack + BitVec.ofNat 64 p.data.length }) ∧
  -- R463: a flit whose CRC fails is dropped and asked for again; one out of sequence only acknowledges
  (∀ (s : State) port flit, let f := getK s.fab FabPort.init port
    flit.length = 256 → port < 16 → f.down = false →
    (crc64 (flit.take 248) ≠ fieldAt flit 248 8 →
      exec (.flitReceive port flit) s = .next (s.modFab port fun f => f.send 5 2 [] 0 0)) ∧
    (crc64 (flit.take 248) = fieldAt flit 248 8 → (fieldAt flit 2 2 ≠ f.rxSeq ∨ 2 < fieldAt flit 1 1) →
      exec (.flitReceive port flit) s = .next (s.modFab port fun f => f.acked (fieldAt flit 4 2))) ∧
    (crc64 (flit.take 248) = fieldAt flit 248 8 → fieldAt flit 2 2 = f.rxSeq → fieldAt flit 6 2 ≤ 224 → fieldAt flit 0 1 ≤ 5 →
      fieldAt flit 1 1 ≤ 2 →
      ∃ t, exec (.flitReceive port flit) s = .next t ∧ (getK t.fab FabPort.init port).rxSeq = (f.rxSeq + 1) % 65536 ∧ t.mem = s.mem ∧
        (let a := f.acked (fieldAt flit 4 2)
         fieldAt flit 0 1 = 5 → a.retries < 64 → getK t.fab FabPort.init port =
          { a with rxSeq := (f.rxSeq + 1) % 65536, wire := a.wire ++ a.unacked, retries := a.retries + 1 }) ∧
        (fieldAt flit 0 1 = 1 → fieldAt flit 240 8 < 2 ^ 63 → t.puts = s.puts) ∧
        (fieldAt flit 0 1 = 1 → 2 ^ 63 ≤ fieldAt flit 240 8 → t.puts.length = s.puts.length + 1))) ∧
  -- R463: the flits after ACKSEQ go out again; after 64 retries without an acknowledgement the link is taken down
  (∀ (s : State) port ack, let a := (getK s.fab FabPort.init port).acked ack
    (getK s.fab FabPort.init port).down = false → port < 16 →
    (a.retries < 64 → ∃ t, exec (.flitRetryRequest port ack) s = .next t ∧ { t with fab := s.fab } = s ∧
      getK t.fab FabPort.init port = { a with wire := a.wire ++ a.unacked, retries := a.retries + 1 }) ∧
    (64 ≤ a.retries → ∃ t, exec (.flitRetryRequest port ack) s = .next t ∧ (getK t.fab FabPort.init port).down = true)) ∧
  (∀ (s : State) port, let f := getK s.fab FabPort.init port
    f.down = false → exec (.fabricLaneSpare port) s = .next (s.modFab port fun _ => { f with spare := true })) ∧
  -- R302, R463: a link is taken down after a second lane or 64 retries; the sheets whose puts it held end with E_CHECK
  (∀ (s : State) port, let f := getK s.fab FabPort.init port
    f.down = false → (f.spare = true ∨ 64 ≤ f.retries) →
    ∃ t, exec (.fabricLinkDown port) s = .next t ∧ (getK t.fab FabPort.init port).down = true ∧
      ∀ p ∈ s.puts, p.arrived = false → p.origin = s.moduleNo → p.module ≠ s.moduleNo → portOf p.module = port →
        p ∉ t.puts ∧ ∀ h, t.sheet? p.sheet = some h → h.check = true) ∧
  (∀ (s : State) port, let f := getK s.fab FabPort.init port
    f.spare = false → f.retries < 64 → exec (.fabricLinkDown port) s = .next s) ∧
  -- R461
  (∀ (s : State) port pa len data, s.trust.recovery = false → port < 8 → port ∉ s.owner.rootPorts → isHbm pa = true →
    isHbm (pa + len - 1) = true →
    exec (.hostCxlMemAccess port pa len 0 data) s = .next { s with hostRead := s.mem.bulk pa len } ∧
    exec (.hostCxlMemAccess port pa len 1 data) s = .next (s.shardStore pa (data.take len)))

/-- Chunks that land and drain, multicast rounds, engine faults (R251 to R253, R256), and messages that enter ports (R366 to R369). That
an engine instruction that waits reads a chunk as it lands is log 17, what a round charges log 10, and where a held list stands in memory log 27. -/
def Obligations.TraverseAndPortSteps : Prop :=
  -- R251: the chunk's bytes are in the scratchpad, and it is present
  (∀ (s : State) (t : Team) rid c j k, s.team? t.id = some t → (t.round? rid).bind (·.jobOf false c) = some (j, k) → j.data = none →
    s.traverseStalled t = false → s.pieceFault t .rd (j.pieces c) = none → s.bad = [] →
    ∃ u t', exec (.chunkLand t.id rid c) s = .next u ∧ u.team? t.id = some t' ∧ t'.absent = t.absent.filter (· != c) ∧
      t'.scratch = ((j.pieces c).foldl (fun v e => v.scratchStore e.2.1 (s.pieceLoad t e)) t).scratch ∧ u.mem = s.mem ∧
      -- R210 (log 17): an engine instruction of the team that waited for a chunk reads it as it lands
      u.groups = s.groups.map fun g => if g.team == t.id then g.readScr t' else g) ∧
  -- R253: of a multicast, from what was read once
  (∀ (s : State) (t : Team) rid c j k bs, s.team? t.id = some t → (t.round? rid).bind (·.jobOf false c) = some (j, k) → j.data = some bs →
    ∃ u t', exec (.chunkLand t.id rid c) s = .next u ∧ u.team? t.id = some t' ∧ t'.absent = t.absent.filter (· != c) ∧
      t'.scratch = (t.scratchStore (512 * c)
        ((bs.drop (512 * c - (j.rows.map fun e => e.2.1).foldl min (512 * c))).take 512)).scratch ∧ u.mem = s.mem) ∧
  -- R252
  (∀ (s : State) (t : Team) rid c j k, s.team? t.id = some t → (t.round? rid).bind (·.jobOf true c) = some (j, k) →
    s.traverseStalled t = false → s.pieceFault t .wr (j.pieces c) = none → t.bad = [] →
    ∃ u t', exec (.writebackChunkDrain t.id rid c) s = .next u ∧ u.team? t.id = some t' ∧ t'.absent = t.absent.filter (· != c) ∧
      t'.scratch = t.scratch ∧ (u.groups = s.groups.map fun g => if g.team == t.id then g.readScr t' else g) ∧
      u.mem = ((j.pieces c).foldl (fun u e =>
        (splitSegs (s.segs (s.engineView t) e.1.toNat e.2.2 .wr) (t.scratch.bulk e.2.1 e.2.2)).foldl (fun u w => u.sheetStore t.sheet w.1 w.2) u) s).mem) ∧
  -- R253: once MEMBERS teams have released the round, its data is read once for all of them, and the entry no longer waits
  (∀ (s : State) (t : Team) rid r j k, s.team? t.id = some t → t.round? rid = some r → r.waitingJob = some (j, k) →
    s.traverseStalled t = false → j.mcast ≤ (s.mcastMembers t r).length → s.pieceFault t .rd j.rows = none → s.bad = [] →
    exec (.multicastRoundStart t.id rid) s = .next ((s.mcastMembers t r).foldl (fun u m => u.modTeam m.1 fun v => v.modRound m.2 fun x =>
      x.modJob k fun y => { y with waiting := false, data := some (j.rows.flatMap (s.pieceLoad t)) })
        (s.engineMoves t (j.rows.flatMap fun e => s.segs (s.engineView t) e.1.toNat e.2.2 .rd)))) ∧
  -- R280, R442, R444: of moving bytes, only snoop filters and what cores and classes are charged with change
  (∀ (s : State) t ss, { s.engineMoves t ss with dies := s.dies, cores := s.cores, clusters := s.clusters } = s) ∧
  (∀ (s : State) (t : Team) rid r j k, s.team? t.id = some t → t.round? rid = some r → r.waitingJob = some (j, k) →
    (s.mcastMembers t r).length < j.mcast → exec (.multicastRoundStart t.id rid) s = .next s) ∧
  -- R263: the engines start nothing once their class has used its share of the period
  (∀ (s : State) (t : Team) rid c, s.team? t.id = some t → s.traverseStalled t = true →
    ((t.round? rid).bind (·.jobOf true c)).isSome = true → exec (.writebackChunkDrain t.id rid c) s = .next s) ∧
  -- R256, R244: the shard maps the page; or the entry fails, its chunks are failed and stay absent, and a stage's FAIL is set; of a
  -- multicast that MEMBERS teams have not released nothing has been read, and nothing fails
  (∀ (s : State) (t : Team) rid k j s1 maps, s.team? t.id = some t → (t.round? rid).bind (·.jobs[k]?) = some j → j.data = none →
    (s.pieceFault t j.acc j.remaining).isSome = true → s.mapServed (s.engineView t).asn maps = some s1 →
    (s1.pieceFault t j.acc j.remaining = none → exec (.enginePageFault t.id rid k maps) s = .next s1) ∧
    (∀ r a, s1.pieceFault t j.acc j.remaining = some (r, a) → r ≠ .later → j.mcast = 0 → j.waiting = false →
      ∃ u t', exec (.enginePageFault t.id rid k maps) s = .next u ∧ u.team? t.id = some t' ∧ u.mem = s1.mem ∧
        t'.absent = t.absent ∧ t'.named = t.named.filter (fun c => !j.left.contains c) ∧
        (∀ r', t.round? rid = some r' → r'.stage.isSome = true → ∀ d, t'.sched = some d → d.fail = true) ∧
        t'.failed = t.failed ++ j.left.map fun c => (c, r.cause, BitVec.ofNat 64 a)) ∧
    (∀ r a x, s1.pieceFault t j.acc j.remaining = some (r, a) → t.round? rid = some x → j.waiting = true → j.mcast ≠ 0 →
      (s1.mcastMembers t x).length < j.mcast → exec (.enginePageFault t.id rid k maps) s = .next s1)) ∧
  -- R366, R368, R369: into the port, into its held list while that has room, or lost where no port is open
  (∀ (s : State) n m (t : Team), s.msgs[n]? = some m → s.arrivable n = true → s.team? m.team = some t →
    let u := { s with msgs := s.msgs.eraseIdx n }
    (t.exited = true → exec (.portMessageArrival n) s = .next u) ∧
    (t.exited = false → t.port? m.port = none →
      exec (.portMessageArrival n) s = .next (u.modTeam m.team fun t => t.lose m.port 1)) ∧
    (∀ p, t.exited = false → t.port? m.port = some p →
      (p.q.length < p.depth → p.held = [] → exec (.portMessageArrival n) s = .next (u.enter m.team m.port m.msg)) ∧
      -- R85 (log 27): the held list stands in the park area too
      ((p.depth ≤ p.q.length ∨ p.held ≠ []) → exec (.portMessageArrival n) s =
        .next ((u.modTeam m.team fun t => t.modPort m.port fun p => { p with held := p.held ++ [{ m.msg with port := m.port }] }).writeHeld
          p.core)))) ∧
  (∀ (s : State) n, s.arrivable n = false → exec (.portMessageArrival n) s = .next s) ∧
  -- R368, R367: held messages first, then those of blocked senders
  (∀ (s : State) (t : Team) n (p : Port) m rest, s.team? t.id = some t → t.port? n = some p → p.q.length < p.depth → p.held = m :: rest →
    exec (.heldMessageEnter t.id n) s =
      .next (((s.modTeam t.id fun t => t.modPort n fun p => { p with held := rest }).writeHeld p.core).enter t.id n m) ∧
    exec (.blockedSendEnter t.id n) s = .next s) ∧
  (∀ (s : State) (t : Team) n (p : Port) b rest, s.team? t.id = some t → t.port? n = some p → p.q.length < p.depth → p.held = [] →
    p.blocked = b :: rest →
    exec (.blockedSendEnter t.id n) s =
      .next (((s.modTeam t.id fun t => t.modPort n fun p => { p with blocked := rest }).enter t.id n b.msg).sendEntered b.gid b.lane)) ∧
  -- R366: a message enters behind those of its port
  (∀ (s : State) team n m, s.enter team n m =
    (s.modTeam team fun t => t.modPort n fun p => { p with q := p.q ++ [{ m with port := n }] }).join team)

/-- Submissions, starts, dispatch, ends of tasks, seal jobs, retirement, queues (R331, R336, R341 to R350, R418, R422, R457).
What a seal job is charged, and to which cluster, is log 10; that a rename range without a page of the pool acts as readwrite is log 18. -/
def Obligations.SheetAndTaskSteps : Prop :=
  -- R341, R343: a write of SUBMIT of a mapped queue is answered once, with its SEQ and the code; R342: a torn one with code 2
  (∀ (s : State) n (q : Queue) (w : HostWrite), s.queue? n = some q → q.slot.isSome = true →
    w.off = 0 → w.bytes.length = 128 → w.whole = true →
    ∃ t x, exec (.hostSubmit n w) s = .next t ∧ t.queue? n = some x ∧ x.answers = (q.answers + 1) % 2 ^ 32 ∧ t.mem = s.mem ∧
      (fieldAt w.bytes 88 4 ≠ (q.lastSeq + 1) % 2 ^ 32 →
        x.status = BitVec.ofNat 64 (fieldAt w.bytes 88 4 * 2 ^ 32 + 3) ∧ t.sheets = s.sheets)) ∧
  (∀ (s : State) n (q : Queue) (w : HostWrite), s.queue? n = some q → q.slot.isSome = true →
    w.off < 128 → w.bytes ≠ [] → (w.off ≠ 0 ∨ w.bytes.length ≠ 128 ∨ w.whole = false) →
    exec (.hostSubmit n w) s = .next (s.modQueue n fun q =>
      { q with status := BitVec.ofNat 64 ((q.lastSeq + 1) % 2 ^ 32 * 2 ^ 32 + 2), answers := (q.answers + 1) % 2 ^ 32 })) ∧
  -- R341: WAKE adds; every other write of the page changes nothing
  (∀ (s : State) n (q : Queue) (w : HostWrite), s.queue? n = some q → 128 ≤ w.off →
    exec (.hostSubmit n w) s =
      .next (if w.off = 144 ∧ w.bytes.length = 8 then s.addWake n (fieldAt w.bytes 0 4) else s)) ∧
  -- R341, R8: what a read of the page gives
  (∀ (q : Queue), q.pageRead 128 = q.status ∧ q.pageRead 136 = q.done ∧ q.pageRead 144 = BitVec.ofNat 64 q.wake ∧
    q.pageRead 152 = BitVec.ofNat 64 q.answers ∧ (∀ off, (off < 128 ∨ 160 ≤ off) → q.pageRead off = 0#64)) ∧
  -- R350: a submission to a queue that is not mapped is kept
  (∀ (s : State) n (q : Queue) (w : HostWrite), s.queue? n = some q → q.slot = none → w.off < 128 → w.bytes ≠ [] →
    exec (.hostSubmit n w) s = .next (s.modQueue n fun q => { q with kept := q.kept ++ [(w.off, w.whole, w.bytes)], pending := true })) ∧
  -- R341, R348: a wake count saturates
  (∀ (s : State) n (w : DWord), exec (.wake n w) s = .next (s.modQueue n fun q =>
    { q with wake := min (2 ^ 32 - 1) (q.wake + w.toNat % 2 ^ 32), pending := q.pending || q.slot.isNone })) ∧
  -- R348: the next sheet of a mapped queue starts; a sheet that waits takes its wakes first
  (∀ (s : State) n (q : Queue) h slot, s.queue? n = some q → q.slot = some slot → s.accepting = true → s.ckptStop = false →
    s.nextSheet n = some h →
    (h.waits = false → ∃ t x, exec (.sheetStart n) s = .next t ∧ t.sheet? h.id = some x ∧ x.st = .running ∧ x.roMem = s.mem ∧ t.mem = s.mem ∧
      -- R339: bits [63:52] of a sheet's number name the slot of its queue, which a replay keeps
      (h.replays = 0 → x.sheetid = BitVec.ofNat 64 (slot * 2 ^ 52 + h.sheetid.toNat % 2 ^ 52)) ∧ (h.replays ≠ 0 → x.sheetid = h.sheetid) ∧
      (h.capt = false → t.queues = s.queues)) ∧
    (h.waits = true → h.wakeReq ≤ q.wake → ∃ t x y, exec (.sheetStart n) s = .next t ∧ t.queue? n = some x ∧ x.wake = q.wake - h.wakeReq ∧
      t.sheet? h.id = some y ∧ y.st = .running ∧ y.roMem = s.mem ∧ y.sheetid = BitVec.ofNat 64 (slot * 2 ^ 52 + h.sheetid.toNat % 2 ^ 52)) ∧
    (h.waits = true → q.wake < h.wakeReq → exec (.sheetStart n) s = .next s)) ∧
  -- R344, R345, R418: a task without rename ranges is dispatched once every task with an edge to it has ended
  (∀ (s : State) h t, s.sheet? h.id = some h → s.task? h.id t.num = some t → h.st = .running → t.st = .waiting → s.accepting = true →
    s.ckptStop = false → s.edgesMet h t = true → t.noRename = [] → t.renamed = [] → (∀ f ∈ t.foots, f.acc ≠ 4) →
    ∃ u x y, exec (.taskDispatch h.id t.num) s = .next u ∧ u.mem = s.mem ∧ u.sheet? h.id = some x ∧ u.task? h.id t.num = some y ∧
      y.st = .ready ∧ y.extents = t.foots.flatMap (s.rangeExtents h t) ∧ y.leaves = s.extentLeaves h.asn y.extents ∧
      y.firstTeam = t.firstTeam ∧ x.nextTeam = h.nextTeam ∧ x.armed = (h.armed ++ s.armPages h t).eraseDups) ∧
  -- R339: a task is given its team numbers when it is created
  (∀ (s : State) (g : Group) h r acc, s.sheet? g.sheet = some h → s.checkSub g.asn (taskRecord r) false = .ok acc →
    ∃ u x y, s.answerTask g r = some (BitVec.ofNat 64 h.tasks.length, u) ∧ u.sheet? h.id = some x ∧ x.tasks = h.tasks ++ [y] ∧
      y.firstTeam = h.nextTeam ∧ x.nextTeam = h.nextTeam + y.teams ∧ y.teams = (taskRecord r).teams) ∧
  (∀ (s : State) h t, s.sheet? h.id = some h → s.task? h.id t.num = some t → s.edgesMet h t = false →
    exec (.taskDispatch h.id t.num) s = .next s) ∧
  -- R344, R359: a task with every team exited ends, and its message is posted; R360: every TASK that waits checks again
  (∀ (s : State) h t, s.sheet? h.id = some h → s.task? h.id t.num = some t → s.taskOver h t = true →
    let u := s.modTask h.id t.num fun t => { t with st := .ended, extents := [], leaves := [] }
    (t.notify = none → exec (.taskCompletion h.id t.num) s = .next u.recheckTasks) ∧
    ∀ team port, t.notify = some (team, port) →
      exec (.taskCompletion h.id t.num) s = .next (u.post team port 5 (BitVec.ofNat 64 t.num) 0 0).recheckTasks) ∧
  (∀ (u : State), (∀ g ∈ u.groups, g.waits Wait.isAnswer = false) → u.recheckTasks = u) ∧
  (∀ (s : State) h t, s.sheet? h.id = some h → s.task? h.id t.num = some t → s.taskOver h t = false →
    exec (.taskCompletion h.id t.num) s = .next s) ∧
  -- R457: the seal job hashes the closed frames once every task has ended; R421: an uncorrectable word is E_CHECK; R444, R447: it is charged
  -- to its class, and waits while that has used its share
  (∀ (s : State) (h : Sheet), s.sheet? h.id = some h → h.sealJob.isSome = true → h.st = .running → s.tasksOver h = true →
    (s.stalled (s.sealCluster h) 6 = false → exec (.sealJobStart h.id) s =
      .next ((s.chargeMove (s.sealCluster h) 6 (s.sealReads h)).modSheet h.id fun x =>
        if s.sealBad h then { x with check := true }
        else { x with st := .sealed, seals := (x.seals.filter (·.closed)).map (s.hashFrame h) })) ∧
    (s.stalled (s.sealCluster h) 6 = true → exec (.sealJobStart h.id) s = .next s)) ∧
  (∀ (s : State) cl cls ps, { s.chargeMove cl cls ps with clusters := s.clusters } = s ∧
    ∀ k, ((s.chargeMove cl cls ps).cluster k).terms = (s.cluster k).terms) ∧
  -- R347: DONE takes SEQ and the code; R336: the sheets before it on the queue come first
  (∀ (s : State) (h : Sheet) q, s.sheet? h.id = some h → s.firstOfQueue h = true → h.check = false → s.retirable h = true → h.st ≠ .done →
    (∀ g ∈ s.groups, g.sheet ≠ h.id) → s.queue? h.queue = some q → h.rerun = none → s.sealOutOk h = true →
    ∃ t x, exec (.sheetRetire h.id) s = .next t ∧ t.queue? h.queue = some x ∧ x.done = BitVec.ofNat 64 (h.seq * 2 ^ 32) ∧
      t.sheet? h.id = none ∧ (∀ y ∈ t.teams, y.sheet ≠ h.id)) ∧
  (∀ (s : State) (h : Sheet), s.sheet? h.id = some h → (s.firstOfQueue h = false ∨ h.check = true) → exec (.sheetRetire h.id) s = .next s) ∧
  -- R458: every record is written first
  (∀ (s : State) (h : Sheet), s.sheet? h.id = some h → h.st = .sealed → h.rerun = none → s.sealOutOk h = false →
    exec (.sheetRetire h.id) s = .next s) ∧
  -- R350
  (∀ (s : State) n, (∀ h ∈ s.sheets, h.queue = n → h.st = .accepted ∧ h.replays = 0) →
    exec (.queueUnmap n) s = .next (s.modQueue n fun q => { q with slot := none })) ∧
  (∀ (s : State) n, (∃ h ∈ s.sheets, h.queue = n ∧ (h.st ≠ .accepted ∨ h.replays ≠ 0)) → exec (.queueUnmap n) s = .next s) ∧
  (∀ (s : State) n (q : Queue) slot, s.queue? n = some q → q.slot = none → slot < 4096 → (∀ x ∈ s.queues, x.slot ≠ some slot) →
    (q.pending = true ∨ ∀ x ∈ s.queues, x.slot = none → x.pending = true → x.ceiling ≠ q.ceiling) →
    exec (.queueRemap n slot) s =
      .next (q.kept.foldl (fun u d => u.answerStore n d.1 d.2.1 d.2.2) (s.modQueue n fun q => { q with slot := some slot, kept := [], pending := false })))

/-- Placement, ageing, gangs, balancing, migration (R351 to R357). A pair's rank and the balancer's COUNT are log 9, the park areas log 27. -/
def Obligations.PlacementSteps : Prop :=
  -- R351, R352: the next team of a task goes to the eligible unit of lowest wear rank
  (∀ (s : State) h t u v, s.sheet? h.id = some h → h.st = .running → h.check = false → h.spawnWait = [] → h.pending = some t →
    s.task? h.id t.num = some t → h.gangPending = false → s.outranked h = false → h.rerun = none → s.ckptStop = false → s.unitFor h t = some u → s.placeTeam (launchOf h t) u = some v →
    s.eligible (launchOf h t) u = true ∧ s.barred h.id u = false ∧
    (∀ x ∈ (unitsAll t.hdr.paired).map (unitCores t.hdr.paired), s.eligible (launchOf h t) x = true → s.barred h.id x = false →
      s.unitRank u ≤ s.unitRank x) ∧
    ∃ w y, exec (.teamPlacement h.id t.num) s = .next w ∧ w.mem = v.mem ∧ w.groups = v.groups ∧ w.teams = v.teams ∧
      w.task? h.id t.num = some y ∧ y.placed = t.placed + 1) ∧
  (∀ (s : State) (h : Sheet) n, s.sheet? h.id = some h → (h.check = true ∨ h.st ≠ .running) →
    exec (.teamPlacement h.id n) s = .next s ∧ exec (.gangPlacement h.id) s = .next s) ∧
  -- R353: a level for each AGE µs of waiting, up to 3
  (∀ (s : State) h t, s.sheet? h.id = some h → h.pending = some t → h.st = .running →
    exec (.ageingStep h.id t.num) s = .next
      (if h.levels t.num < min 3 ((s.time - t.wait) / (100 * h.age)) then
        s.modSheet h.id fun x => { x with ageing := h.levels t.num + 1, ageTask := t.num } else s)) ∧
  -- what one task's head team has waited does not raise another's
  (∀ (h : Sheet) t, h.pending = some t → h.effective = h.prio + if h.ageTask = t.num then h.ageing else 0) ∧
  -- R354: all the teams of a gang, or none
  (∀ (s : State) h t us v, s.sheet? h.id = some h → h.pending = some t → h.st = .running → h.gangPending = true → h.check = false →
    s.outranked h = false → s.gangUnits h t = some us → s.placeAll h.id us = some v → s.ckptStop = false →
    exec (.gangPlacement h.id) s = .next { v.modSheet h.id fun h => { h with ageing := 0 } with reserved := v.reserved.filter fun e => e.1 != h.id }) ∧
  (∀ (s : State) h t, s.sheet? h.id = some h → h.pending = some t → s.gangUnits h t = none → exec (.gangPlacement h.id) s = .next s) ∧
  -- R355: after 4 AGE µs at the head of the order the gang reserves regions
  (∀ (s : State) h t, s.sheet? h.id = some h → h.pending = some t → s.gangHead h = true → 400 * h.age < s.time - t.wait →
    (∀ e ∈ s.reserved, e.1 ≠ h.id) →
    exec (.gangReservation h.id) s = .next { s with reserved := s.reserved ++ [(h.id, reserveRegions s h t t.teams (s.regionOrder h t))] }) ∧
  -- R356: every 100 µs; a core with 16 parked eligible groups or fewer gives no command
  (∀ (s : State), s.time < s.balanceAt → exec .balancerTick s = .next s) ∧
  (∀ (s : State), s.balanceAt ≤ s.time → ∃ t cmds, exec .balancerTick s = .next t ∧
    t = { s with balanceAt := s.time + 10000, commands := s.commands ++ cmds } ∧
    ∀ w ∈ cmds, ∃ src dst, w = moveCommand (min 96 (s.parkedEligible src - 16)) dst src ∧ 16 < s.parkedEligible src ∧ dst ≠ src ∧
      dieOf dst = dieOf src) ∧
  -- R357: a command that has been carried out is gone; teams keep their registers and scratchpads, and memory changes only in the park
  -- areas (R85, log 27)
  (∀ (s : State) n w, s.commands[n]? = some w →
    ∃ t, exec (.migration n) s = .next t ∧ t.commands = s.commands.eraseIdx n ∧ t.sheets = s.sheets ∧
      ((∀ g ∈ s.groups, g.width ≤ 64) → ∀ a, (∀ c, a < parkArea c ∨ parkArea c + 6291456 ≤ a) → t.mem.read a = s.mem.read a) ∧
      t.groups.length = s.groups.length ∧
      (∀ g ∈ t.groups, ∃ h ∈ s.groups, g.id = h.id ∧ g.vregs = h.vregs ∧ g.sregs = h.sregs ∧ g.preds = h.preds ∧ g.team = h.team ∧
        (h.st = .saved → g.st = .saved) ∧ (h.st = .dropped → g.st = .dropped)) ∧
      t.teams.map (fun x => (x.id, x.scratch)) = s.teams.map (fun x => (x.id, x.scratch))) ∧
  -- R357: the forwarding entry goes when nothing issued before the move is on its way
  (∀ (s : State) core team e, ((s.core core).fwd.find? fun e => e.1 == team) = some e →
    exec (.forwardingEntryRemove core team) s = .next (if s.arrived team e.2 then s.modCore core fun c => { c with fwd := c.fwd.erase e } else s))

/-- A Surveyor's descriptors, replies and mailboxes (R387, R388, R390, R393 to R398, R486, R495). The mailboxes of Compass cores and reserved bits
of write-only registers are log 25, a send to a shard above 55 log 15, the held messages of one mailbox log 25. -/
def Obligations.SurveyorQueues : Prop :=
  -- R388
  (∀ (s : State) k d ds, isAgent k = true → (s.surv k).heldq = d :: ds →
    exec (.callqAppend k) s = .next (if (s.surv k).callq.length < 128 then s.modSurv k fun v => { v with callq := v.callq ++ [d], heldq := ds } else s)) ∧
  -- R387: the oldest descriptor, or 0; R495: a kill follows for a fault of a process that does not hold faults
  (∀ (s : State) k, isAgent k = true → (s.surv k).callq = [] → exec (.callqPop k) s = .next (s.modSurv k fun v => { v with lastRead := 0#64 })) ∧
  (∀ (s : State) k d ds, isAgent k = true → (s.surv k).callq = d :: ds →
    ∃ t, exec (.callqPop k) s = .next t ∧ t.survs = (s.modSurv k fun v => { v with callq := ds, lastRead := d.word }).survs ∧
      (d.type = 4 → t.groups = s.groups) ∧ (d.type ≠ 4 → t.groups = (s.modCallAt d.slot fun c => { c with popped := true }).groups) ∧
      t.agenda = if s.kernelKills d then .ev (.kill k (BitVec.ofNat 64 (7 * 2 ^ 60 + d.slot))) :: s.agenda else s.agenda) ∧
  -- R393: lanes outside the call, and lanes answered before, raise bits 0 and 1 of SVERR and are not answered; bit 2 where no call is there
  (∀ (s : State) k w, isAgent k = true → s.callAt (lowField w 12 40 * 4096) = none → exec (.replyPost k w) s = .next (s.svErr k 2)) ∧
  (∀ (s : State) k w g c, isAgent k = true → s.callAt (lowField w 12 40 * 4096) = some (g, c) →
    let m := (s.surv k).replyMask
    let s1 := if m &&& ~~~c.active = 0#64 then s else s.svErr k 0
    let s2 := if m &&& c.answered = 0#64 then s1 else s1.svErr k 1
    exec (.replyPost k w) s = .next
      (if m &&& c.active &&& ~~~c.answered = 0#64 then s2 else s2.answerCall g c (m &&& c.active &&& ~~~c.answered))) ∧
  -- R396: the whole of a SYS call answered at once: every lane's RESULT is in the pair YB, and the lanes go on
  (∀ (s : State) k w (g : Group) c, isAgent k = true → s.callAt (lowField w 12 40 * 4096) = some (g, c) → s.grp? g.id = some g → c.form = 1 → g.st ≠ .saved →
    (s.surv k).replyMask = c.active → c.active ≠ 0#64 → c.answered = 0#64 → (s.sheet? g.sheet).map (·.capture) = some false →
    (∀ L, g.width ≤ L → c.active.getLsbD L = false) →
    (∀ L, L < g.width → c.active.getLsbD L = true → (g.lane L).wait = .call c.slot ∧ (g.lane L).exited = false) → g.shaped = true →
    ∃ t h, exec (.replyPost k w) s = .next t ∧ t.grp? g.id = some h ∧
      (∀ L, L < g.width → c.active.getLsbD L = true →
        h.v c.dest L = (if c.dest < g.vcount then lo32 ((s.mem.results (g.slotAddr c.slot)).getD L 0#64) else g.v c.dest L) ∧
        h.v (c.dest + 1) L = (if c.dest + 1 < g.vcount then hi32 ((s.mem.results (g.slotAddr c.slot)).getD L 0#64) else g.v (c.dest + 1) L) ∧
        (h.lane L).pc = nextPc c.pc ∧ (h.lane L).wait = .none) ∧
      ∀ x ∈ h.calls, x.slot ≠ c.slot) ∧
  -- R387, R390: a send leaves, unless one still waits for room or the shard does not exist: a bad access
  (∀ (s : State) k (w : DWord), isAgent k = true → s.txBusy k = false → k < 64 → (s.surv k).txDst / 256 % 64 < 56 →
    exec (.mboxTxAux k w) s = .next (s.modSurv k fun v => { v with sent := v.sent ++ [((s.surv k).txDst / 256 % 64,
      { data := (s.surv k).txData, aux := lowField w 0 32, info := v.shard, port := (s.surv k).txDst % 16, kind := 7 })] })) ∧
  -- a Compass core's mailbox is numbered 56 and up (log 25)
  (∀ (s : State) k (w : DWord), isAgent k = true → s.txBusy k = false → 64 ≤ k →
    exec (.mboxTxAux k w) s = .next (s.modSurv k fun v => { v with sent := v.sent ++ [((s.surv k).txDst / 256 % 64,
      { data := (s.surv k).txData, aux := lowField w 0 32, info := k - 8, port := (s.surv k).txDst % 16, kind := 7 })] })) ∧
  (∀ (s : State) k w, isAgent k = true → (s.txBusy k = true ∨ (k < 64 ∧ 56 ≤ (s.surv k).txDst / 256 % 64)) → exec (.mboxTxAux k w) s = .next (s.svErr k 3)) ∧
  (∀ (s : State) k j d m, isAgent k = true → s.mboxNext k = some (j, d, m) →
    (((s.modSurv k fun v => { v with sent := v.sent.eraseIdx j }).surv d).mbox.getD m.port []).length < 16 ∧
    exec (.mboxDelivery k) s = .next ((s.modSurv k fun v => { v with sent := v.sent.eraseIdx j }).modSurv d fun v =>
      { v with mbox := v.mbox.modify m.port (· ++ [m]) })) ∧
  (∀ (s : State) k p, isAgent k = true → (s.surv k).mbox.getD p [] = [] → exec (.mboxRxPop k p) s = .next (s.modSurv k fun v => { v with lastRead := 0#64 })) ∧
  (∀ (s : State) k p m ms, isAgent k = true → (s.surv k).mbox.getD p [] = m :: ms →
    -- R368: a message held back for the port enters as room frees, ahead of the sends that wait
    exec (.mboxRxPop k p) s = .next ((s.modSurv k fun v =>
      { v with lastRead := m.lo, mbox := v.mbox.modify p (fun x => x.drop 1 ++ ((s.surv k).mheld.getD p []).take 1)
               mheld := v.mheld.modify p (·.drop 1) }).tookPass k m)) ∧
  -- R486: a message at port 2 of a call that was passed on has reached the call's owner, which notes it; at port 3 the calling shard discards
  -- it, with the owner's buffer, where the call is gone; every other message changes nothing else
  (∀ (s : State) k (m : Msg),
    let slot := m.data.toNat / 4096 * 4096
    let lane := m.data.toNat % 4096
    (¬ (m.kind = 7 ∧ (m.port = 2 ∨ m.port = 3 ∧ s.callAt slot = none)) → s.tookPass k m = s) ∧
    (m.kind = 7 → m.port = 2 →
      let seq := match s.callAt slot with
        | some e => e.2.seq
        | none => 0
      s.tookPass k m = (s.modCallAt slot fun c => { c with passed := c.passed ||| (1#64 <<< lane) }).modSurv k fun v =>
        { v with passes := v.passes ++ [{ word := m.data, callno := m.aux, home := m.info, seq }] }) ∧
    (m.kind = 7 → m.port = 3 → s.callAt slot = none →
      s.tookPass k m = { s with buffers := s.buffers.filter fun e => e.1 ≠ s.mem.loadNat (slot + 2688 + 8 * lane) 8 })) ∧
  -- R389: a file's calls are those of the shard of its inode, a socket's those of its number's
  (∀ (s : State) asn home (a : List DWord),
    (∀ p f, s.pathAt asn (a.getD 0 0#64).toNat = .ok p → (s.files.find? fun f => f.path == p) = some f →
      s.callOwner asn home 0x20 a = f.inode % 56) ∧
    s.callOwner asn home 0x22 a = (a.getD 0 0#64).toNat / 2 ^ 24 % 64 % 56 ∧ s.callOwner asn home 0x30 a = (a.getD 0 0#64).toNat % 56) ∧
  -- R486: a call on another shard's object goes once to port 2 of that shard's mailbox, and, served, back to port 3 of the calling shard's
  (∀ (s : State) k slot lane, isAgent k = true →
    let word := BitVec.ofNat 64 (slot + lane)
    (∀ g c, s.callAt slot = some (g, c) → (∀ p ∈ (s.surv k).passes, p.word ≠ word) →
      let home := shardOfCluster (clusterOf g.core)
      let own := s.callOwner g.asn home c.callno (s.mem.callArgs slot lane)
      s.survOfShard home = some k → own ≠ home → c.popped = true → s.performs c slot lane = true → c.served.getLsbD lane = false →
      (c.sent.getLsbD lane = false → exec (.callPass k slot lane) s =
        .next ((s.modCall g.id c.slot fun c => { c with sent := c.sent ||| (1#64 <<< lane) }).mboxSend k own 2 word c.callno)) ∧
      (c.sent.getLsbD lane = true → exec (.callPass k slot lane) s = .next s)) ∧
    (∀ p, ((s.surv k).passes.find? fun p => p.word == word) = some p →
      ((s.callAt slot = none ∨ ∃ g c, s.callAt slot = some (g, c) ∧ (c.seq ≠ p.seq ∨ c.served.getLsbD lane = true)) →
        exec (.callPass k slot lane) s =
          .next ((s.modSurv k fun v => { v with passes := v.passes.erase p }).mboxSend k p.home 3 word p.callno)) ∧
      (∀ g c, s.callAt slot = some (g, c) → c.seq = p.seq → c.served.getLsbD lane = false → exec (.callPass k slot lane) s = .next s)))

/-- A Surveyor's copies, timer, errors and devices (R386, R387, R391, R395, R402, R464, R465, R487). Which copy and
which doorbell is refused is log 15, the socket that a frame reaches and the bytes of a Write log 9, what is charged and waits log 10, the held
completions log 25. -/
def Obligations.SurveyorUnits : Prop :=
  -- R395: a copy of whole chunks that are present starts, and its chunks are absent until it ends; otherwise STATE is 3
  (∀ (s : State) k out (w : DWord) (g : Group) c (t : Team),
    let v := s.surv k
    let pa := lowField v.ccSrc 0 52
    let off := 512 * lowField w 20 12
    let len := lowField w 0 20
    let cs := (List.range (len / 512)).map fun i => off / 512 + i
    let i : Instr := if out then .callCopyOut k w else .callCopyIn k w
    isAgent k = true → v.ccJob = none → s.callAt (lowField v.ccDst 12 40 * 4096) = some (g, c) → s.team? g.team = some t →
    (t.exited = false → len % 512 = 0 → len ≤ 65536 → pa % 16 = 0 → paMapped s.pool pa = true → off + len ≤ t.s → t.anyAbsent cs = false → t.failed = [] →
      ∃ u t', exec i s = .next u ∧ u.team? g.team = some t' ∧ t'.absent = t.absent ++ cs ∧ t'.scratch = t.scratch ∧ u.mem = s.mem ∧
        (u.surv k).ccStat = 1 ∧ (u.surv k).ccJob = some { team := t.id, rid := s.fresh, pa, off, len, out, slot := lowField v.ccDst 12 40 * 4096 }) ∧
    ((len % 512 ≠ 0 ∨ 65536 < len ∨ t.s < off + len) →
      ∃ u, exec i s = .next u ∧ (u.surv k).ccStat = 3 ∧ (u.surv k).ccJob = none ∧ u.teams = s.teams)) ∧
  -- R387: a write while a copy runs is a bad access
  (∀ (s : State) k w j, isAgent k = true → (s.surv k).ccJob = some j →
    exec (.callCopyIn k w) s = .next (s.svErr k 3) ∧ exec (.callCopyOut k w) s = .next (s.svErr k 3)) ∧
  -- R395: the bytes move, the chunks are present, and STATE is 2
  (∀ (s : State) k j (t : Team), isAgent k = true → (s.surv k).ccJob = some j → s.team? j.team = some t → t.bad = [] → s.bad = [] →
    s.stalled (s.clusterAt k) 4 = false → ∃ u t', exec (.callCopyDone k) s = .next u ∧ u.team? j.team = some t' ∧ (u.surv k).ccStat = 2 ∧ (u.surv k).ccJob = none ∧
      t'.absent = t.absent.filter (fun c => !((List.range (j.len / 512)).map fun i => j.off / 512 + i).contains c) ∧
      (j.out = true → u.mem = s.mem.store j.pa (t.scratch.bulk j.off j.len) ∧ t'.scratch = t.scratch) ∧
      (j.out = false → u.mem = s.mem ∧ t'.scratch = (t.scratchStore j.off (s.mem.bulk j.pa j.len)).scratch)) ∧
  -- R387: a read of CCOPY_STAT clears a state that has ended; a write of SVERR clears the bits that it has set
  -- R486: with it the owner's buffer is returned
  (∀ (s : State) k, isAgent k = true →
    let back := s.buffers.filter fun e => e.1 ≠ lowField (s.surv k).ccSrc 0 52
    exec (.ccopyStat k) s = .next ({ s with buffers := if 2 ≤ (s.surv k).ccStat then back else s.buffers }.modSurv k fun v =>
      { v with lastRead := BitVec.ofNat 64 v.ccStat, ccStat := if 2 ≤ v.ccStat then 0 else v.ccStat })) ∧
  (∀ (s : State) k w, isAgent k = true → exec (.sverr k w) s = .next (s.modSurv k fun v => { v with sverr := v.sverr &&& (15 - lowField w 0 4) })) ∧
  -- R386: SVPEND.TIMER is 1 while `time` is at or past CMP, and from then on the Surveyor takes the interrupt that its bits enable
  (∀ (s : State) k, (s.svpend k).getLsbD 3 = decide ((s.surv k).svtimecmp.toNat ≤ s.time % 2 ^ 64)) ∧
  (∀ (s : State) k, isAgent k = true → exec (.svTimerExpiry k) s =
    .next (if (s.surv k).svtimecmp.toNat ≤ s.time % 2 ^ 64 then s.hartInterrupt k else s)) ∧
  (∀ (s : State) k, s.hartInterrupt k = s ∨ ∃ h, s.hartInterrupt k = s.modHart k fun _ => h) ∧
  -- R391: the owner's doorbell takes the commands from the old tail to the new one; another's has no effect
  (∀ (s : State) k pair w, let p := getK s.nvme NvmePair.init pair
    pair < 1024 → isAgent k = true → exec (.nvmeDoorbell k pair w) s = .next (if s.survOfShard (pair % 56) = some k then
      { s with nvme := setK s.nvme pair { p with tail := lowField w 0 16, outstanding := p.outstanding ++ s.nvmeCmds pair p.tail (lowField w 0 16) } } else s)) ∧
  -- R391, R487: a completion goes to port 15 of the owner's mailbox, and its read data to memory
  (∀ (s : State) pair cid status data c d, let p := getK s.nvme NvmePair.init pair
    pair < 1024 → (p.outstanding.find? fun c => c.1 == cid) = some c → s.survOfShard (pair % 56) = some d → s.stalled (s.clusterAt d) 4 = false →
    -- R464: the four commands that the subset has, with as many bytes as the command names
    nvmeEnds c.2.1 c.2.2.2.2 status data.length = true →
    (((s.surv d).mbox.getD 15 []).length < 16 →
      ∃ t m, exec (.nvmeCompletion pair cid status data) s = .next t ∧ (t.surv d).mbox = (s.surv d).mbox.modify 15 (· ++ [m]) ∧
        m.kind = 8 ∧ m.info = pair ∧ (getK t.nvme NvmePair.init pair).outstanding = p.outstanding.erase c ∧
        (c.2.1 ≠ 2 ∨ status ≠ 0 → t.mem = s.mem) ∧
        (c.2.1 = 2 → status = 0 →
          t.mem = (splitSegs (s.prpSegs c.2.2.1 c.2.2.2.1 data.length) data).foldl (fun m e => m.store e.1 e.2) s.mem) ∧
        (c.2.1 = 1 → status = 0 → (getK t.nvme NvmePair.init pair).written =
          p.written ++ [s.mem.segLoad (s.prpSegs c.2.2.1 c.2.2.2.1 data.length)])) ∧
    -- R368: held back while the port is full; with the held lists full too the controller waits
    (16 ≤ ((s.surv d).mbox.getD 15 []).length → (s.surv d).heldCount < Config.heldEntries →
      ∃ t m, exec (.nvmeCompletion pair cid status data) s = .next t ∧ (t.surv d).mbox = (s.surv d).mbox ∧
        (t.surv d).mheld = (s.surv d).mheld.modify 15 (· ++ [m]) ∧ m.kind = 8 ∧ m.info = pair ∧
        (getK t.nvme NvmePair.init pair).outstanding = p.outstanding.erase c) ∧
    (16 ≤ ((s.surv d).mbox.getD 15 []).length → Config.heldEntries ≤ (s.surv d).heldCount →
      exec (.nvmeCompletion pair cid status data) s = .next s)) ∧
  -- R391, R465: a frame waits at its queue; R386: SVPEND.ETH is 1 while a queue of the shard holds a frame
  (∀ (s : State) n frame, n < 1024 → frame.length ≤ 9216 → (∀ d, s.survOfShard (n % 56) = some d → s.stalled (s.clusterAt d) 4 = false) →
    ∃ t, exec (.ethRx n frame) s = .next t ∧ (∃ x ∈ t.sockets, x.num = n ∧
        ((∃ y ∈ s.sockets, y.num = n ∧ x.rx = y.rx ++ [frame]) ∨ ((∀ y ∈ s.sockets, y.num ≠ n) ∧ x.rx = [frame]))) ∧
      ∀ d, s.survOfShard (n % 56) = some d → (t.svpend d).getLsbD 2 = true) ∧
  -- R447: no work of the devices and copies of a cluster while its class stalls
  (∀ (s : State) k, s.stalled (s.clusterAt k) 4 = true → exec (.callCopyDone k) s = .next s ∧
    (∀ pair cid st data, s.survOfShard (pair % 56) = some k → exec (.nvmeCompletion pair cid st data) s = .next s) ∧
    ∀ n frame, s.survOfShard (n % 56) = some k → exec (.ethRx n frame) s = .next s) ∧
  (∀ (s : State) k, (s.svpend k).getLsbD 2 = s.sockets.any fun x => s.survOfShard (x.num % 56) == some k && !x.rx.isEmpty) ∧
  -- R402
  (∀ (s : State) ns, exec (.utcNtpSet ns) s = .next { s with utcBase := BitVec.ofNat 64 ns - BitVec.ofNat 64 (10 * s.time), utcValid := true })

/-- The calls of R400 that tell the time, hand out memory, and work on files and sockets, as R402, R389, R401 and R494 answer them.
The order of checks, their statuses and what happens for an absent page are log 14, statuses that no rule names log 2, addresses and identifiers
that the kernel chooses log 9. -/
def Obligations.KernelCallsOnData : Prop :=
  -- R402: UTC in ns, never less than the group was told before; SV_AGAIN before the exchange
  (∀ s slot lane x led, Serving s slot lane 0x01 x led true →
    (s.utcValid = false → Serves (.sysTime slot lane) s x led (svStatus 11) s) ∧
    (s.utcValid = true →
      let t := max (s.utcBase + BitVec.ofNat 64 (10 * s.time)).toNat x.g.lastTime
      Serves (.sysTime slot lane) s x led (BitVec.ofNat 64 t) (s.modGrp x.g.id fun g => { g with lastTime := t }))) ∧
  -- R403: only an administrative address space sets it
  (∀ s slot lane x led, Serving s slot lane 0x02 x led false →
    (x.admin s = false → Serves (.sysTimeset slot lane) s x led (svStatus 1) s) ∧
    (x.admin s = true → Serves (.sysTimeset slot lane) s x led 0#64
      { s with utcBase := x.arg 0 - BitVec.ofNat 64 (10 * s.time), utcValid := true })) ∧
  -- R400: ALLOC maps free pages, aligned as asked; SV_NOMEM where the shard has none
  (∀ s slot lane va maps x led, Serving s slot lane 0x10 x led false → alignOk (x.num 1) = true → x.num 0 ≠ 0 →
    (∀ u, va % x.num 1 = 0 → va + x.num 0 ≤ 2 ^ 57 → (∀ p ∈ pagesOf va (x.num 0), s.walk x.g.asn p = none) →
      s.mapServed x.g.asn maps = some u → (u.asnSegs x.g.asn va (x.num 0)).isSome = true →
      Serves (.sysAlloc slot lane va maps) s x led (BitVec.ofNat 64 va)
        { u with allocs := u.allocs ++ [{ asn := x.g.asn, sheet := x.g.sheet, va, len := x.num 0 }] }) ∧
    (s.mapServed x.g.asn maps = none → Serves (.sysAlloc slot lane va maps) s x led (svStatus 12) s)) ∧
  -- R400: FREE unmaps the block
  (∀ s slot lane x led b, Serving s slot lane 0x11 x led true → (s.allocs.find? fun b => b.asn == x.g.asn && b.va == x.num 0) = some b →
    Serves (.sysFree slot lane) s x led 0#64 (s.freeBlock b)) ∧
  -- R494: OPEN finds the file or, with CREATE, makes it
  (∀ s slot lane inode x led p, Serving s slot lane 0x20 x led true → x.num 1 < 4 → s.HasPages x (s.pathNeeds x.g.asn (x.num 0)) → s.pathAt x.g.asn (x.num 0) = .ok p →
    (∀ f, (s.files.find? fun f => f.path == p) = some f →
      Serves (.sysOpen slot lane inode) s x led (s.openFd x f.inode ((x.arg 1).getLsbD 0)).1 (s.openFd x f.inode ((x.arg 1).getLsbD 0)).2) ∧
    ((s.files.find? fun f => f.path == p) = none → (x.arg 1).getLsbD 1 = false → Serves (.sysOpen slot lane inode) s x led (svStatus 2) s) ∧
    ((s.files.find? fun f => f.path == p) = none → (x.arg 1).getLsbD 1 = true →
      let n := lowestFree (s.files.map (·.inode)) inode
      let t := { s with files := s.files ++ [{ inode := n, path := p }] }
      Serves (.sysOpen slot lane inode) s x led (State.openFd t x n ((x.arg 1).getLsbD 0)).1 (State.openFd t x n ((x.arg 1).getLsbD 0)).2)) ∧
  (∀ s slot lane inode x led, Serving s slot lane 0x20 x led true → 4 ≤ x.num 1 → Serves (.sysOpen slot lane inode) s x led (svStatus 22) s) ∧
  -- R494: the calls on a descriptor; SV_BADF where it is not open
  (∀ s slot lane x led, Serving s slot lane 0x21 x led true →
    (∀ f, s.fdOf x = some f → Serves (.sysClose slot lane) s x led 0#64 { s with fds := s.fds.erase f }) ∧
    (s.fdOf x = none → Serves (.sysClose slot lane) s x led (svStatus 9) s)) ∧
  (∀ s slot lane buf x led f fl u, Serving s slot lane 0x22 x led true → s.fdOf x = some f → s.fileOf f = some fl → (x.arg 1).msb = false →
    let n := min (x.num 2) (fl.len - x.num 3)
    s.HasPages x [(x.num 1, n)] → s.callStore x (x.num 1) (fl.data.bulk (x.num 3) n) = some u → Serves (.sysRead slot lane buf) s x led (BitVec.ofNat 64 n) u) ∧
  (∀ s slot lane buf x led f fl, Serving s slot lane 0x22 x led true → s.fdOf x = some f → s.fileOf f = some fl → (x.arg 1).msb = true →
    let n := min (x.num 2) (fl.len - x.num 3)
    -- R486: into a buffer of the owner's that holds no other call's data
    (scratchOk (x.arg 1) (x.num 2) = true → s.bufFree buf (x.num 2) = true → Serves (.sysRead slot lane buf) s x led (BitVec.ofNat 64 n)
      ((s.shardStore buf (padTo (x.num 2) (fl.data.bulk (x.num 3) n))).sourcePa x buf (x.num 2))) ∧
    (scratchOk (x.arg 1) (x.num 2) = true → s.bufFree buf (x.num 2) = false → exec (.sysRead slot lane buf) s = .next s) ∧
    (scratchOk (x.arg 1) (x.num 2) = false → Serves (.sysRead slot lane buf) s x led (svStatus 22) s)) ∧
  (∀ s slot lane buf x led, Serving s slot lane 0x22 x led true → s.fdOf x = none → Serves (.sysRead slot lane buf) s x led (svStatus 9) s) ∧
  (∀ s slot lane buf x led f h bs, Serving s slot lane 0x23 x led true → s.fdOf x = some f → (x.arg 1).msb = false → s.sheet? x.g.sheet = some h →
    (f.write = false → Serves (.sysWrite slot lane buf) s x led (svStatus 9) s) ∧
    (f.write = true → s.HasPages x [(x.num 1, x.num 2)] → s.asnLoad x.g.asn (x.num 1) (x.num 2) = some bs →
      (h.immio = true → Serves (.sysWrite slot lane buf) s x led (x.arg 2) (s.fileWrite f.inode (x.num 3) bs)) ∧
      (h.immio = false → Serves (.sysWrite slot lane buf) s x led (x.arg 2)
        (s.modSheet h.id fun h => { h with deferred := h.deferred ++ [(x.c.seq, x.lane, .write f.inode (x.num 3) bs)] })))) ∧
  -- R395: a scratchpad buffer's bytes are used once the outbound copy to the shard's buffer has run
  (∀ s slot lane buf x led f h, Serving s slot lane 0x23 x led true → s.fdOf x = some f → f.write = true → (x.arg 1).msb = true →
    scratchOk (x.arg 1) (x.num 2) = true → s.sheet? x.g.sheet = some h →
    (x.copyRun buf (x.num 2) = false → exec (.sysWrite slot lane buf) s = .next s) ∧
    (x.copyRun buf (x.num 2) = true → h.immio = true →
      Serves (.sysWrite slot lane buf) s x led (x.arg 2) (s.fileWrite f.inode (x.num 3) (s.mem.bulk buf (x.num 2))))) ∧
  (∀ s slot lane x led f fl, Serving s slot lane 0x24 x led true → s.fdOf x = some f → s.fileOf f = some fl →
    Serves (.sysFsize slot lane) s x led (BitVec.ofNat 64 fl.len) s) ∧
  -- R389, R399: sockets
  (∀ s slot lane count buf x led h bs, Serving s slot lane 0x30 x led false → x.num 0 < 1024 → (x.arg 1).msb = false → s.sheet? x.g.sheet = some h →
    h.immio = true → s.HasPages x [(x.num 1, min count (x.num 2))] → s.asnLoad x.g.asn (x.num 1) (min count (x.num 2)) = some bs →
    Serves (.sysSocksend slot lane count buf) s x led (BitVec.ofNat 64 (min count (x.num 2))) (s.sockOut (x.num 0) bs)) ∧
  (∀ s slot lane count buf x led u, Serving s slot lane 0x31 x led false → (x.arg 1).msb = false →
    let bs := (s.sockRx (x.num 0)).take (min count (x.num 2))
    bs ≠ [] → s.HasPages x [(x.num 1, min (s.sockRx (x.num 0)).length (min count (x.num 2)))] → s.callStore x (x.num 1) bs = some u →
    Serves (.sysSockrecv slot lane count buf) s x led (BitVec.ofNat 64 bs.length) (u.sockDrop (x.num 0) bs.length))

/-- The calls of R400 on queues, windows, objects and registrations (R76, R299, R303, R340, R403, R495), and those of the
owner. The order of checks, their statuses and what happens for an absent page are log 14, the packed result of QCREATE log 2, WINREG's
arguments and what the kernel chooses log 9. -/
def Obligations.KernelCallsOnSystem : Prop :=
  -- R340, R403: the queue's page is a 64 KiB page of the process that holds no memory and is no other queue's
  (∀ s slot lane n page x led p, Serving s slot lane 0x40 x led false → s.queueNumOk n = true → s.subPageOk x.g.asn page = true → x.proc s = some p → x.num 0 < 4 →
    Serves (.sysQcreate slot lane n page) s x led (Config.qcreateWord n page)
      { s with queues := s.queues ++ [{ num := n, page := some page, asn := x.g.asn, proc := p, ceiling := x.num 0
                                        quota := (((s.sheet? x.g.sheet).bind fun h => s.queue? h.queue).map (·.quota)).getD 224 }] }) ∧
  (∀ s slot lane x led q, Serving s slot lane 0x41 x led false → x.queue s (x.num 0) = some q → x.num 1 = 0 →
    Serves (.sysQintr slot lane) s x led 0#64 (s.modQueue q.num fun q => { q with qintr := none })) ∧
  (∀ s slot lane x led q a, Serving s slot lane 0x41 x led false → x.queue s (x.num 0) = some q → x.num 1 ≠ 0 → x.num 1 % 8 = 0 →
    s.asnPa x.g.asn (x.num 1) true = some a → paHost a = true →
    Serves (.sysQintr slot lane) s x led 0#64 (s.modQueue q.num fun q => { q with qintr := some a })) ∧
  (∀ s slot lane x led q, Serving s slot lane 0x42 x led false → x.queue s (x.num 0) = some q →
    let rest := q.grants.filter (· != x.num 1)
    (x.num 2 = 1 → Serves (.sysQgrant slot lane) s x led 0#64 (s.modQueue q.num fun q => { q with grants := rest ++ [x.num 1] })) ∧
    (x.num 2 = 0 → Serves (.sysQgrant slot lane) s x led 0#64 (s.modQueue q.num fun q => { q with grants := rest })) ∧
    (2 ≤ x.num 2 → Serves (.sysQgrant slot lane) s x led (svStatus 22) s)) ∧
  -- R403: another process's queue
  (∀ s slot lane x led, x.queue s (x.num 0) = none →
    (Serving s slot lane 0x41 x led false → Serves (.sysQintr slot lane) s x led (svStatus 1) s) ∧
    (Serving s slot lane 0x42 x led false → Serves (.sysQgrant slot lane) s x led (svStatus 1) s) ∧
    (Serving s slot lane 0x71 x led false → Serves (.sysCaptreg slot lane) s x led (svStatus 1) s)) ∧
  -- R299, R303: an export of mapped memory
  (∀ s slot lane e x led h, Serving s slot lane 0x50 x led false → e < 65536 → (∀ h ∈ s.sheets, ∀ w ∈ h.windows, w.entry ≠ e) →
    s.sheet? x.g.sheet = some h → h.windows.length < 256 → x.num 0 = 1 → lowField (x.arg 3) 0 48 = 0 → lowField (x.arg 3) 48 16 < 64 →
    (s.asnSegs x.g.asn (x.num 1) (x.num 2)).isSome = true → x.num 1 + x.num 2 ≤ 2 ^ 57 →
    Serves (.sysWinreg slot lane e) s x led (BitVec.ofNat 64 (e * 2 ^ 48)) (s.modSheet x.g.sheet fun h =>
      { h with windows := h.windows ++ [{ entry := e, isImport := false, base := x.num 1, len := x.num 2, notify := none }] })) ∧
  (∀ s slot lane x led h w, Serving s slot lane 0x51 x led true → s.sheet? x.g.sheet = some h →
    (h.windows.find? fun w => w.entry == x.num 0 / 2 ^ 48) = some w →
    Serves (.sysWinfree slot lane) s x led 0#64 (s.modSheet x.g.sheet fun h =>
      { h with windows := h.windows.filter fun w => w.entry != x.num 0 / 2 ^ 48 })) ∧
  -- R76, R77: the object is loaded, and its report record is written
  (∀ s slot lane maps x led bs u, Serving s slot lane 0x60 x led false → s.HasPages x [(x.num 0, x.num 1), (x.num 2, 32)] →
    s.asnLoad x.g.asn (x.num 0) (x.num 1) = some bs →
    (s.load x.g.asn bs maps).2.callStore x (x.num 2) (s.load x.g.asn bs maps).1.bytes = some u →
    Serves (.sysLoad slot lane maps) s x led (BitVec.ofNat 64 (s.load x.g.asn bs maps).1.code) u) ∧
  -- R395: for a page of the caller's that is absent the shard asks first
  (∀ s slot lane maps x led, Serving s slot lane 0x60 x led false →
    let away := (s.absentPages x.g.asn (x.num 0) (x.num 1) ++ s.absentPages x.g.asn (x.num 2) 32).filter fun p => !x.c.replied.contains p
    away ≠ [] → exec (.sysLoad slot lane maps) s =
      .next (s.modCall x.g.id x.c.slot fun c => { c with asked := (c.asked ++ away).eraseDups })) ∧
  -- R403: registrations
  (∀ s slot lane x led, Serving s slot lane 0x70 x led false →
    (x.admin s = false → Serves (.sysCkptreg slot lane) s x led (svStatus 1) s) ∧
    (x.admin s = true → paPool (x.num 0) = true → x.num 0 < 2 ^ 52 → x.num 0 % 2 ^ 30 = 0 → 769 * 2 ^ 30 ≤ x.num 1 →
      Serves (.sysCkptreg slot lane) s x led 0#64 { s with ckptReg := some (x.num 0, x.num 1) })) ∧
  (∀ s slot lane x led q, Serving s slot lane 0x71 x led false → x.queue s (x.num 0) = some q → x.num 1 % 65536 = 0 → x.num 2 % 65536 = 0 →
    Serves (.sysCaptreg slot lane) s x led 0#64 (s.modQueue q.num fun q =>
      { q with capArea := if x.num 2 = 0 then none else some (x.num 1, x.num 2), capRec := [], capFull := false })) ∧
  -- R495
  (∀ s slot lane x led p, Serving s slot lane 0x72 x led false → x.proc s = some p →
    (x.num 0 = 1 → Serves (.sysFhold slot lane) s x led 0#64 { s with fhold := s.fhold.filter (· != p) ++ [p] }) ∧
    (x.num 0 = 0 → Serves (.sysFhold slot lane) s x led 0#64 { s with fhold := s.fhold.filter (· != p) })) ∧
  -- R400: the owner's handler from 0x8000 up; SV_NOSYS for every other number that the table does not hold
  (∀ s slot lane n r x led, Serving s slot lane n x led false → n ∉ tableCalls →
    Serves (.sysOwnerHandlerCall slot lane r) s x led (if 0x8000 ≤ n then r else svStatus 38) s) ∧
  -- R76, R403: a host process makes the same calls through CMD, as an administrative one or as the owner of the queue
  (∀ (s : State) asn a maps, asn ∉ s.owner.adminAsns → s.hostServe asn 0x02 a maps = (svStatus 1, s) ∧
    s.hostServe asn 0x70 a maps = (svStatus 1, s)) ∧
  (∀ (s : State) asn a maps, (∀ q ∈ s.queues, q.num = (a.getD 0 0#64).toNat → q.proc ≠ asn) →
    ∀ n ∈ [0x41, 0x42, 0x71], s.hostServe asn n a maps = (svStatus 1, s)) ∧
  -- R394: a call is served in its turn
  (∀ s slot lane g c, s.callAt slot = some (g, c) → s.inTurn { g, c, pa := slot, lane, args := s.mem.callArgs slot lane } = false →
    exec (.sysTime slot lane) s = .next s ∧ exec (.sysClose slot lane) s = .next s ∧ ∀ n b, exec (.sysSocksend slot lane n b) s = .next s)

/-- Group control (R95 to R97, R412, R414 to R416): commands on a group that a Surveyor names while none is pending. -/
def Obligations.GroupControl : Prop :=
  (∀ (s : State) k w, isAgent k = true → (s.surv k).gctlStat ≠ 1 →
    let done := fun (t : State) (n : Nat) => t.modSurv k fun v => { v with gctlStat := n }
    -- R415: the command names its group by its frame, or by core and context
    let byFrame := lowField w 12 40 != 0
    -- no group of that name: refused
    (s.named k w = none → ∀ i ∈ [Instr.preempt k w, .evict k w, .resume k w, .retry k w, .next k w, .step k w, .kill k w, .halt k w],
      exec i s = .next (done s 3)) ∧
    ∀ g, s.named k w = some g →
      -- R415: an action that may not name its group so is refused
      (∀ act i, (act, i) ∈ [(1, Instr.preempt k w), (2, .evict k w), (3, .resume k w), (4, .retry k w), (5, .next k w), (6, .step k w),
        (7, .kill k w), (8, .halt k w)] → gctlNames act byFrame g = false → exec i s = .next (done s 3)) ∧
      -- R96, R97: PREEMPT drops a group that allows it, and saves another
      (g.st ≠ .saved → g.st ≠ .dropped → byFrame = false →
        exec (.preempt k w) s = .next (done (if g.droppable then s.dropGroup g else s.stopGroup g .preempt) 2)) ∧
      (g.st = .saved → exec (.preempt k w) s = .next (done s 2)) ∧
      (g.st = .dropped → exec (.preempt k w) s = .next (done s 3)) ∧
      -- EVICT and HALT save it in full
      (g.st ≠ .saved → byFrame = false → exec (.evict k w) s = .next (done (s.stopGroup g .evict) 2) ∧ exec (.halt k w) s = .next (done (s.stopGroup g .halt) 2)) ∧
      (g.st = .saved → s.justFaulted g = false → exec (.halt k w) s = .next (done s 3)) ∧
      -- RESUME of a dropped group
      (g.st = .dropped → byFrame = false → s.ckptStop = false → exec (.resume k w) s =
        .next (done (s.setGrp { g with st := .parked, parkedAt := (s.core g.core).cycle.toNat, seq := 0 }) 2)) ∧
      -- R412, R415: a frame comes back while a context is free and CAUSE, FSTATE, WIDTH, CTX and SHEET are as the part wrote them
      (∀ act i t, (act, i) ∈ [(4, Instr.retry k w), (5, .next k w), (6, .step k w)] → g.inspectable = true → g.frameIntact s.mem = true →
        byFrame = true → s.ckptStop = false → s.restoreGroup g (Group.onRestore act) = some t →
        -- lanes that a NEXT takes past the instruction at which they waited wait no more
        exec i s = .next (done (if act = 5 then t.endWaits g.id (g.readFrame s.mem).nextTakes else t) 2)) ∧
      (∀ act i, (act, i) ∈ [(4, Instr.retry k w), (5, .next k w), (6, .step k w)] → g.inspectable = true → g.frameIntact s.mem = true →
        byFrame = true → (s.ckptStop = true ∨ s.restoreGroup g (Group.onRestore act) = none) →
        exec i s = .next ((done s 1).modSurv k fun v => { v with gctlJob := some (act, g.id) })) ∧
      (∀ i ∈ [Instr.retry k w, .next k w, .step k w], g.inspectable = false ∨ g.frameIntact s.mem = false → exec i s = .next (done s 3)) ∧
      (∀ t, g.st = .saved → g.frameHeld = false → (g.save.cause = .preempt ∨ g.save.cause = .evict) → g.faults = [] → g.awaitsReply = false →
        g.frameIntact s.mem = true →
        byFrame = true → s.ckptStop = false → s.restoreGroup g (Group.onRestore 3) = some t → exec (.resume k w) s = .next (done t 2)) ∧
      -- R416, R489: one that pages or a reply hold stays saved until they have come as well
      (g.st = .saved → g.frameHeld = false → (g.save.cause = .preempt ∨ g.save.cause = .evict) → (g.faults ≠ [] ∨ g.awaitsReply = true) →
        byFrame = true → s.ckptStop = false → exec (.resume k w) s = .next (done (s.setGrp { g with resumeReq := true }) 2)) ∧
      -- KILL ends the sheet with result 2
      (∀ h, g.st = .saved → g.frameHeld = true → byFrame = true → s.sheet? g.sheet = some h →
        exec (.kill k w) s = .next (done ((s.rollback h).modSheet h.id fun x => x.ended 2).recheckTasks 2)) ∧
      (g.st ≠ .saved ∨ g.frameHeld = false → exec (.kill k w) s = .next (done s 3))) ∧
  -- R414: a command while one is pending is a bad access
  (∀ (s : State) k w, isAgent k = true → (s.surv k).gctlStat = 1 →
    ∀ i ∈ [Instr.preempt k w, .evict k w, .resume k w, .retry k w, .next k w, .step k w, .kill k w, .halt k w], exec i s = .next (s.svErr k 3)) ∧
  (∀ (s : State) k, isAgent k = true → exec (.gctlStat k) s = .next (s.modSurv k fun v =>
    { v with lastRead := BitVec.ofNat 64 v.gctlStat, gctlStat := if 2 ≤ v.gctlStat then 0 else v.gctlStat })) ∧
  -- R97, R193: a dropped lane stands at its waypoint with its recorded generator, a lane that has exited keeps the recorded generator too
  -- (log 26); registers, predicates and flags stay
  (∀ (g : Group) L, L < g.lanes.length → (g.lane L).exited = true → g.drop.lane L = { g.lane L with sr := (g.lane L).srRec }) ∧
  (∀ (g : Group) L, L < g.lanes.length → (g.lane L).exited = false →
    (g.drop.lane L).pc = (g.lane L).wp ∧ (g.drop.lane L).sr = (g.lane L).srRec ∧ (g.drop.lane L).wait = .none ∧
    (g.drop.lane L).fflags = (g.lane L).fflags ∧ (g.drop.lane L).stack = (g.lane L).stack ∧
    g.drop.vregs = g.vregs ∧ g.drop.sregs = g.sregs ∧ g.drop.preds = g.preds ∧ g.drop.st = .dropped ∧ g.drop.batches = [])

/-- Rollback and replay (R421 to R424), checkpoints (R425, R426) and re-runs (R428). -/
def Obligations.RollbackAndCheckpoint : Prop :=
  -- R423, R424: memory is as the snapshots say; the sheet starts again, or ends with result 1
  (∀ (s : State) (h : Sheet), s.sheet? h.id = some h → h.check = true → h.st ≠ .done → (∀ b ∈ s.allocs, b.sheet ≠ h.id) →
    ∃ (t : State) (x : Sheet), exec (.sheetRollback h.id) s = .next t.recheckTasks ∧ t.mem = h.snaps.foldl (fun m e => m.store e.1 e.2) s.mem ∧ t.sheet? h.id = some x ∧
      (∀ g ∈ t.groups, g.sheet ≠ h.id) ∧ (∀ u ∈ t.teams, u.sheet ≠ h.id) ∧ (∀ f ∈ t.fds, f.sheet ≠ h.id) ∧ x.check = false ∧
      x.deferred = [] ∧ x.snaps = [] ∧
      ((h.immio = false ∧ h.noReplay = false ∧ h.replays < 3) → x.st = .accepted ∧ x.replays = h.replays + 1 ∧ x.record = h.record) ∧
      ((h.immio = true ∨ h.noReplay = true ∨ 3 ≤ h.replays) → x.st = .done ∧ x.result = 1)) ∧
  (∀ (s : State) (h : Sheet), s.sheet? h.id = some h → (h.check = false ∨ h.st = .done) → exec (.sheetRollback h.id) s = .next s) ∧
  -- R425: first every group is evicted and nothing new starts; then, with nothing in flight, HBM is copied
  (∀ (s : State), s.ckptReg = none ∨ s.owner.rootPorts = [] ∨ s.ckptStalled = true → exec .checkpoint s = .next s) ∧
  (∀ (s : State) b n, s.ckptReg = some (b, n) → s.owner.rootPorts ≠ [] → s.ckptStalled = false → s.ckptStop = false →
    exec .checkpoint s = .next { s.chargeFrames.evictAll with ckptStop := true }) ∧
  (∀ (s : State) b n, s.ckptReg = some (b, n) → s.ckptStop = true → s.quiet = false → exec .checkpoint s = .next s) ∧
  (∀ (s : State) b n, s.ckptReg = some (b, n) → s.owner.rootPorts ≠ [] → s.ckptStalled = false → s.ckptStop = true → s.quiet = true →
    s.groups = [] →
    ∃ t c, exec .checkpoint s = .next t ∧ t.mem = s.mem.toPool b ∧ t.ckpt = some c ∧ c.base = b ∧ c.sheets = s.sheets ∧ c.queues = s.queues ∧
      c.roots = s.roots ∧ c.snapUsed = s.snapUsed ∧ c.allocs = s.allocs ∧ c.fds = s.fds ∧ t.ckptStop = false) ∧
  -- between the two no sheet starts, no task is dispatched and no team is placed
  (∀ (s : State) a b, s.ckptStop = true → exec (.sheetStart a) s = .next s ∧ exec (.taskDispatch a b) s = .next s ∧
    exec (.teamPlacement a b) s = .next s ∧ exec (.gangPlacement a) s = .next s) ∧
  -- R426: and comes back; wear, keys, the boot log and the seal counter stay
  (∀ (s : State), s.ckpt = none → exec .checkpointRestore s = .next s) ∧
  (∀ (s : State) c, s.ckpt = some c → c.groups = [] →
    ∃ t, exec .checkpointRestore s = .next t ∧ t.mem = s.mem.fromPool c.base ∧ t.queues = c.queues ∧
      -- R442: with the wear that teams and sheets have been charged with since
      t.teams = (c.teams.map fun x => { x with wear := max x.wear (((s.team? x.id).map (·.wear)).getD 0) }) ∧
      t.sheets = (c.sheets.map fun x => { x with wear := max x.wear (((s.sheet? x.id).map (·.wear)).getD 0) }) ∧
      t.roots = c.roots ∧ t.groups = [] ∧ t.snapUsed = c.snapUsed ∧ t.bad = badFromPool s.bad c.base ∧ t.allocs = c.allocs ∧ t.fds = c.fds ∧ t.trust = s.trust ∧ t.otpRetired = s.otpRetired ∧
      ∀ k, (t.core k).wearTotal = (s.core k).wearTotal ∧ (t.core k).tlb = []) ∧
  -- R428: the pages of a capture come back, and the sheet is to be answered from its record
  (∀ (s : State) (q : Queue) (h : Sheet), s.queue? q.num = some q → s.sheet? h.id = some h → h.queue = q.num → h.st = .accepted → q.capRec ≠ [] →
    ∃ t x, exec (.captureRerun q.num h.id) s = .next t ∧ t.mem = (q.capRec.filterMap CapEntry.page?).foldl (fun m e => m.store e.1 e.2) s.mem ∧
      t.sheet? h.id = some x ∧ x.rerun = some (q.capRec.filter fun e => e.page?.isNone))

/-- Wear, clock steps, lane repair, retirement, scrubbing, and budget periods (R430 to R447). What HBM_SCRUB moves,
the replaced channel's pages and that a core with threads in its bins does not retire are log 21, the halved PWRCAP log 22. -/
def Obligations.WearAndBudgets : Prop :=
  -- R431, R432: one core in a report: its total, its indices, at most one row of the table
  (∀ (s : State) es fs, s.time < s.wearAt → exec (.wearReport es fs) s = .next s) ∧
  (∀ (s : State) k wu di c, s.wearAt ≤ s.time → c = s.core k → (s.core k).charges = [] → (s.core k).checks = [] →
    ∃ t, exec (.wearReport [{ block := .core k, wu, di }] []) s = .next t ∧
      (t.core k).wearTotal = c.wearTotal + wu ∧ (t.core k).li = min 1023 ((c.wearTotal + wu) * 1000 / Config.ratedLife) ∧
      (t.core k).di = min 255 di ∧ (t.core k).carry = c.carry + wu ∧ (t.core k).named = [] ∧
      (t.core k).wst = nextWear c.wst (lifeIndex (c.wearTotal + wu)) (min 255 di) c.pairLost ∧ t.mem = s.mem) ∧
  (∀ w li di drain, w ≠ .retired → (1000 ≤ li ∨ 70 ≤ di ∨ drain = true) → nextWear w li di drain = .drained) ∧
  (∀ li di, li < 1000 → di < 70 → nextWear .nominal li di false = (if 900 ≤ li ∨ 40 ≤ di then .step1 else .nominal)) ∧
  -- R433: the slowest step of the cluster's cores
  (∀ (s : State) cl, s.atBreaks cl = false → exec (.clusterClockStep cl) s = .next s) ∧
  (∀ (s : State) cl, s.atBreaks cl = true → ∃ t, exec (.clusterClockStep cl) s = .next t ∧ { t with clusters := s.clusters, cores := s.cores } = s ∧
    (∀ c, t.core c = s.core c) ∧
    (∀ c, c / 4 = 0 → (s.core (16 * cl + c)).wst.step ≤ (t.cluster cl).step) ∧
    ((t.cluster cl).step = 0 ∨ ∃ c, c / 4 = 0 ∧ (t.cluster cl).step = (s.core (16 * cl + c)).wst.step)) ∧
  -- R437 to R439: the map is as planned; two passes while a half is lost
  (∀ (s : State) k, (s.core k).nextHalves = none → exec (.lanemapRewrite k) s = .next s) ∧
  (∀ (s : State) k hs, (s.core k).nextHalves = some hs → (∀ g ∈ s.groups, g.core ≠ k) →
    ∃ t, exec (.lanemapRewrite k) s = .next t ∧ (t.core k).halves = hs ∧ (t.core k).nextHalves = none ∧
      (t.core k).twoPass = ((hs.getD 0 {}).lost || (hs.getD 1 {}).lost || (hs.getD 2 {}).lost || (hs.getD 3 {}).lost) ∧ t.groups = s.groups) ∧
  -- R432: a drained core retires once no context of it is in use
  (∀ (s : State) k, (s.core k).wst = .drained → (∀ g ∈ s.groups, g.core = k → g.st = .saved) → (s.core k).bins = [] →
    exec (.coreRetire k) s = .next (s.retireCore k)) ∧
  (∀ (s : State) k, ((s.core k).wst ≠ .drained ∨ (∃ g ∈ s.groups, g.core = k ∧ g.st ≠ .saved) ∨ (s.core k).bins ≠ []) → exec (.coreRetire k) s = .next s) ∧
  -- R440: a page with an uncorrectable word moves; more than 64 corrected errors of a channel in a day replace it
  (∀ (s : State) page new ch, s.badRead (page / 65536 * 65536) 65536 = true →
    exec (.hbmScrub page new ch) s = .next (s.movePage (page / 65536 * 65536) new)) ∧
  -- R329, R440: its leaves are cleared under one ticket, and it is copied when that is published
  (∀ (s : State) page new, (s.movePage page new).mem = (s.mappers page).foldl (fun m e => m.store e.2.1 (leBytes 8 0)) s.mem ∧
    (s.movePage page new).ticket = s.ticket + 1 ∧
    (s.mappers page = [] → (s.movePage page new).moves =
      s.moves ++ [{ base := page / 65536 * 65536, dst := new, bits := 16, ticket := s.ticket, leaves := [] }])) ∧
  (∀ (s : State) (m : PageMove), m.leaves = [] → (s.landMove m).mem = s.mem.move m.base m.dst (2 ^ m.bits)) ∧
  (∀ (s : State) page new ch, s.bad = [] → s.corrected = [] →
    exec (.hbmScrub page new ch) s = .next { s with corrected := [(ch, s.time)] }) ∧
  (∀ (s : State) page new ch, s.bad = [] → (∀ e ∈ s.corrected, e.1 = ch ∧ s.time < e.2 + day) → s.corrected.length = 64 →
    exec (.hbmScrub page new ch) s =
      .next ({ s with corrected := [], channels := s.channels ++ [ch] }.movePage (page / 65536 * 65536) (page / 65536 * 65536))) ∧
  -- R446, R447: with a period's first ck the written shares hold, nothing is used, and every request goes on
  (∀ (s : State) cl, (s.cluster cl).period < s.periodOf cl → exec (.budgetPeriod cl) s = .next
    ((s.groups.filter fun g => clusterOf g.core == cl && g.waits Wait.anyBudget).foldl (fun u g => u.updGroup g.id fun x => x.again Wait.anyBudget)
      (s.modCluster cl fun c => { c with
        period := s.periodOf cl, pwrcap := if s.coolant then c.nextCap / 2 else c.nextCap
        budgets := (c.budgets.zip c.next).map fun e => { e.2 with used := [0, 0, 0], exh := e.1.exh } }))) ∧
  (∀ (s : State) cl, s.periodOf cl ≤ (s.cluster cl).period → exec (.budgetPeriod cl) s = .next s)

/-- Trust, protection, writes of registers, errors, the host (R421, R446, R449 to R453, R460, R461, R466, R467,
R491). Signatures and keys are log 8, the bytes of cleared memory log 4, writes by agents and what they meet log 15, the refusal of
SEAL_KEY_CREATE for a slot in use log 21, what stands still below the supply's limit log 22, a store access fault of a hart log 32. -/
def Obligations.TrustAndProtection : Prop :=
  -- R460, R449: a power-on reset clears what does not last; the seal counter goes on above what was used
  (∀ (s : State), exec .powerOnReset s = .next { s.powerLoss.boot with undervolt := false }) ∧
  (∀ (s : State), s.powerLoss.groups = [] ∧ s.powerLoss.teams = [] ∧ s.powerLoss.sheets = [] ∧ s.powerLoss.queues = [] ∧
    s.powerLoss.files = s.files ∧ s.powerLoss.trust.sealNext = s.trust.sealNext + Config.sealGap s.free ∧
    s.powerLoss.trust.slots = s.trust.slots ∧ s.powerLoss.trust.epoch = s.trust.epoch ∧ (∀ a, isHbm a = true → s.powerLoss.mem.read a = 0#8)) ∧
  -- R450: the log, the nonce and the epoch, signed by the device identity key
  (∀ (s : State) nonce, s.trust.recovery = false → nonce.length = 32 → let m := s.trust.log.flatten ++ nonce ++ leBytes 1 s.trust.epoch
    exec (.quoteRequest nonce) s = .next { s with trust := { s.trust with quote := m ++ Config.deviceSign m s.free }, free := s.free + 1 }) ∧
  (∀ (s : State) nonce, nonce.length ≠ 32 → exec (.quoteRequest nonce) s = .next s) ∧
  -- R452: accepting ends first; a signature of the present owner, or of the new one where there is none, moves the epoch and empties the slots
  (∀ (s : State) alg key sig, s.trust.recovery = false → s.sheets ≠ [] → exec (.ownershipTransfer alg key sig) s = .next { s with closing := true }) ∧
  (∀ (s : State) alg key sig, s.trust.recovery = false → s.sheets = [] → 0 < s.trust.epoch → s.trust.epoch < 64 → (alg = 1 ∨ alg = 2) →
    (Config.sigOk s.trust.ownerAlg s.trust.ownerKey (transferMsg s key) sig = true →
      ∃ t, exec (.ownershipTransfer alg key sig) s = .next t ∧ t.trust.epoch = s.trust.epoch + 1 ∧ t.trust.ownerAlg = alg ∧
        t.trust.ownerKey = key ∧ t.trust.slots = []) ∧
    (Config.sigOk s.trust.ownerAlg s.trust.ownerKey (transferMsg s key) sig = false →
      ∃ t, exec (.ownershipTransfer alg key sig) s = .next t ∧ t.trust = s.trust ∧ t.mem = s.mem)) ∧
  -- R453: the owner's signature creates a key in an empty slot, and destroys one
  (∀ (s : State) n alg sig, s.trust.recovery = false → n < 16 → (alg = 1 ∨ alg = 2) → (∀ e ∈ s.trust.slots, e.1 ≠ n) → s.trust.ownerSigned (keyCommand 1 n alg) sig = true →
    exec (.sealKeyCreate n alg sig) s = .next { s with trust := { s.trust with
      slots := s.trust.slots ++ [(n, alg, Config.freshKey s.trust.keyCount)], keyCount := s.trust.keyCount + 1 } }) ∧
  (∀ (s : State) n alg sig, (16 ≤ n ∨ s.trust.ownerSigned (keyCommand 1 n alg) sig = false) → exec (.sealKeyCreate n alg sig) s = .next s) ∧
  -- R451: in recovery mode TRUST does none of it
  (∀ (s : State), s.trust.recovery = true → (∀ nonce, exec (.quoteRequest nonce) s = .next s) ∧
    (∀ alg key sig, exec (.ownershipTransfer alg key sig) s = .next s) ∧ (∀ n alg sig, exec (.sealKeyCreate n alg sig) s = .next s) ∧
    ∀ n sig, exec (.sealKeyDestroy n sig) s = .next s) ∧
  (∀ (s : State) n sig, s.trust.recovery = false → exec (.sealKeyDestroy n sig) s = .next (if s.trust.ownerSigned (keyCommand 2 n 0) sig = true then
    { s with trust := { s.trust with slots := s.trust.slots.filter fun e => e.1 != n } } else s)) ∧
  -- R467
  (∀ (s : State) c, exec (.thermalTrip c) s = .next
      (if 115 ≤ c ∧ s.thermal = false then { s with thermal := true, thermalEvents := s.thermalEvents + 1 } else s) ∧
    exec (.thermalResume c) s = .next (if c < 100 then { s with thermal := false } else s)) ∧
  (∀ (s : State) c, exec (.coolantOvertemp c) s = .next { s with coolant := decide (45 < c) }) ∧
  (∀ (s : State) (x : Cluster), s.capOf x = if s.coolant then x.nextCap / 2 else x.nextCap) ∧
  (∀ (s : State) n, (n ≠ 0 → exec (.undervoltage n) s = .next { s.powerLoss with undervolt := true, accepting := false }) ∧
    (n = 0 → s.undervolt = true → exec (.undervoltage n) s = .next { s.powerLoss.boot with undervolt := false }) ∧
    (n = 0 → s.undervolt = false → exec (.undervoltage n) s = .next s)) ∧
  -- R386, R387: registers of a Surveyor, by its CSRs and by its block; a misaligned write is a bad access; R402, R446
  (∀ (s : State) k w, isAgent k = true → k < 64 → exec (.registerWrite k 0x5C0 w) s = .next (s.modSurv k fun v => { v with svenable := lowField w 0 6 }) ∧
    exec (.registerWrite k 0x5C2 w) s = .next (s.modSurv k fun v => { v with svtimecmp := w })) ∧
  -- R10: an agent that the part does not have writes nothing
  (∀ (s : State) a addr w, isAgent a = false → exec (.registerWrite a addr w) s = .next s) ∧
  (∀ (s : State) a k w, isAgent a = true → k < 64 → k % 16 ≠ 15 →
    exec (.registerWrite a (15 * 2 ^ 48 + 0x100010 + 65536 * k) w) s = .next (s.modSurv k fun v => { v with replyMask := w }) ∧
    exec (.registerWrite a (15 * 2 ^ 48 + 0x100028 + 65536 * k) w) s = .next (s.modSurv k fun v => { v with txData := w }) ∧
    exec (.registerWrite a (15 * 2 ^ 48 + 0x100018 + 65536 * k) w) s = .next { s with agenda := .ev (.replyPost k w) :: s.agenda } ∧
    exec (.registerWrite a (15 * 2 ^ 48 + 0x100168 + 65536 * k) w) s = .next { s with agenda := .ev (.sverr k w) :: s.agenda }) ∧
  -- R387: a misaligned write is a bad access of the block that it meets; R10: the part has no block of a cluster 15
  (∀ (s : State) a addr w, isAgent a = true → 15 * 2 ^ 48 ≤ addr → addr < 16 * 2 ^ 48 → addr % 8 ≠ 0 →
    exec (.registerWrite a addr w) s = .next (match blockAt (addr - 15 * 2 ^ 48) with
      | some k => s.svErr k 3
      | none => s)) ∧
  (∀ off, blockAt off = if 0x100000 ≤ off ∧ off < 0x500000 ∧ (off - 0x100000) / 65536 % 16 ≠ 15 then some ((off - 0x100000) / 65536) else none) ∧
  (∀ (s : State) a k r w, k < 64 → k % 16 = 15 → r < 65536 → r % 8 = 0 →
    exec (.registerWrite a (15 * 2 ^ 48 + 0x100000 + 65536 * k + r) w) s = .next s) ∧
  (∀ (s : State) a w, isAgent a = true → exec (.registerWrite a (15 * 2 ^ 48 + 0x2100) w) s = .next { s with utcBase := w }) ∧
  -- R321: memory takes the write; where the address space holds nothing the agent's hart takes a store access fault (log 32)
  (∀ (s : State) a addr w, isAgent a = true → 4096 ≤ addr → (addr < 15 * 2 ^ 48 ∨ 16 * 2 ^ 48 ≤ addr) →
    (addr + 8 ≤ 2 ^ 52 → paMapped s.pool addr = true → paMapped s.pool (addr + 7) = true →
      exec (.registerWrite a addr w) s = .next (s.shardStore addr (leBytes 8 w.toNat))) ∧
    (paMapped s.pool addr = false →
      exec (.registerWrite a addr w) s = .next (s.modHart a fun h => h.except 7 (BitVec.ofNat 64 addr)))) ∧
  -- R421, R491: a word whose check bits no longer hold
  (∀ (s : State) pa, ∃ t, exec (.uncorrectableError (.mem pa)) s = .next t ∧ { t with bad := s.bad } = s ∧ pa / 4 ∈ t.bad ∧ ∀ w ∈ s.bad, w ∈ t.bad) ∧
  (∀ (s : State) c x, ∃ t, exec (.uncorrectableError (.tile c x)) s = .next t ∧ x ∈ (t.core c).mstate.badT ∧ t.mem = s.mem ∧ t.groups = s.groups) ∧
  -- R451: images are written in recovery mode alone
  (∀ (s : State) n c i, (s.trust.recovery = false ∨ n < 1 ∨ 3 < n) → exec (.recoveryImageWrite n c i) s = .next s) ∧
  (∀ (s : State) n i, s.trust.recovery = true → 1 ≤ n → n ≤ 3 →
    exec (.recoveryImageWrite n 0 i) s = .next { s with trust := { s.trust with primary := s.trust.primary.set n (some i) } } ∧
    exec (.recoveryImageWrite n 1 i) s = .next { s with trust := { s.trust with backup := s.trust.backup.set n (some i) } }) ∧
  -- R466: the queues of a host
  (∀ (s : State) port qs, port < 8 → port ∉ s.owner.rootPorts → s.trust.recovery = false → s.trust.epoch ≠ 0 →
    exec (.hostAppears port qs) s = .next (qs.foldl (fun u q => u.bootQueue true q) s)) ∧
  (∀ (s : State) port qs, (8 ≤ port ∨ port ∈ s.owner.rootPorts ∨ s.trust.recovery = true ∨ s.trust.epoch = 0) → exec (.hostAppears port qs) s = .next s)

/-- What the spec states for reset: no group, team or sheet, the tickets and generations (R328), each Surveyor's registers (R386, R387,
R414), UTC (R402), the budgets (R446), no wait of PWRCAP. Of the values that the model chose (memory log 4, trust log 7, fuses log 6) it has
one: that the cycle counters start at 0 is PRESUMED (log 6). -/
def Obligations.ResetState : Prop :=
  let s := State.reset
  s.groups = [] ∧ s.teams = [] ∧ s.sheets = [] ∧ s.ticket = 1 ∧ (∀ d, (s.die d).cur = 0 ∧ (s.die d).tlb = []) ∧
  (∀ k, (s.surv k).svenable = 0 ∧ (s.surv k).svxlat = 0#64 ∧ (s.surv k).svtimecmp = 0xFFFFFFFFFFFFFFFF#64 ∧ (s.surv k).callq = [] ∧
    (s.surv k).replyMask = 0#64 ∧ (s.surv k).txDst = 0 ∧ (s.surv k).txData = 0#64 ∧ (s.surv k).ccSrc = 0#64 ∧ (s.surv k).ccDst = 0#64 ∧
    (s.surv k).ccStat = 0 ∧ (s.surv k).sverr = 0 ∧ (s.surv k).gctlStat = 0) ∧
  s.utcBase = 0#64 ∧ s.utcValid = false ∧ (∀ c, (s.core c).cycle = 0#64) ∧
  ∀ cl, (s.cluster cl).pwrcap = 120000 ∧
    (s.cluster cl).budgets.map (fun b => (b.noc, b.spill)) =
      [(64, true), (96, true), (48, true), (16, true), (16, true), (8, false), (8, true)] ∧
    ∀ b ∈ (s.cluster cl).budgets, b.hbm = b.noc ∧ b.pwr = b.noc ∧ b.used = [0, 0, 0]

/-- The worked encodings of the spec's chapters, one of nearly every unit, decode to the instructions they are worked for. -/
def Obligations.WorkedEncodings : Prop :=
  let p : Pfx := { ga := 15#5, gb := 15#5, ch := 0#4, stall := 0#4, y := false, nwb := false, cap := 0#2 }
  let z : Opnd := .v 0#8
  decode 0x40001D40E804016010000000#96 = .ok (.fadd { pf := { p with ga := 3#5, gb := 21#5, stall := 3#4, y := true, cap := 2#2 }, mod := 0#6, d := .v 4#8, a := .v 5#8, b := .b 1#2, c := z, e := z, imm8 := 0#8 }) ∧
  decode 0x01407BC40281000000000098#96 = .ok (.rcv { pf := { p with ch := 1#4 }, mod := 0#6, cond := .p 1#4, reg := z, loff := 2#32, slot := 3#3 }) ∧
  decode 0x13407BC004070040200C0096#96 = .ok (.logic { pf := { p with cap := 1#2 }, mod := 0#6, d := .v 7#8, a := .v 1#8, b := .v 2#8, c := .v 3#8, e := z, imm8 := 0x96#8 }) ∧
  decode 0xA1007BC00000000000003000#96 = .ok (.stage { pf := p, mod := 0#6, ya := z, yb := z, yc := z, code := 3#16 }) ∧
  decode 0x80227BC0000440B000000402#96 = .ok (.ld { pf := p, mod := 0b100010#6, data := .v 4#8, base := .s 2#7, index := .imm 0#8, off := 0x40#24, size := 2#4 }) ∧
  decode 0x83007BC00004023000000403#96 = .ok (.xqry { pf := p, mod := 0#6, data := .v 4#8, base := .v 8#8, index := .imm 0#8, off := 0x40#24, size := 3#4 }) ∧
  decode 0xC1407BC00091420090040000#96 = .ok (.mmake4m3 { pf := p, mod := 0#6, cd := 2#4, ta := 4#4, tb := 5#4, sa := .v 32#8, sb := .v 36#8, bsel := 1#8, xf := 0#10 }) ∧
  decode 0xE0407BC00104415060000000#96 = .ok (.sheet { pf := p, mod := 0#6, ya := .s 4#7, yb := .s 5#7, yc := .s 6#7, code := 0#16 }) ∧
  decode 0xB0007BC00000C140800C0000#96 = .ok (.send { pf := p, mod := 0#6, d := z, a := .imm 5#8, b := .v 8#8, c := .v 3#8, e := z, imm8 := 0#8 }) ∧
  decode 0xF0047BC00008010000022000#96 = .ok (.sys { pf := p, mod := 4#6, ya := .v 8#8, yb := .v 4#8, yc := z, code := 0x22#16 }) ∧
  decode 0xF0C07BC00000000000012000#96 = .ok (.trap { pf := p, mod := 0#6, ya := z, yb := z, yc := z, code := 0x12#16 }) ∧
  decode 0xF1C17BC00104C04000000000#96 = .ok (.budrd { pf := p, mod := 1#6, d := .s 4#7, a := .imm 1#8, b := z, c := z, e := z, imm8 := 0#8 }) ∧
  decode 0xF2007BC00104414000002000#96 = .ok (.seal { pf := p, mod := 0#6, ya := .s 4#7, yb := .s 5#7, yc := z, code := 2#16 })

/-- R30 to R35: the word of every well-formed instruction decodes to it, with every operand at every value; and a word that decodes is the
word of what it decodes to, so that no two words stand for one instruction. -/
def Obligations.WordsAndInstructionsAgree : Prop :=
  (∀ i : Instr, i.wf = true → Instr.isWord i = true → decode (encode i) = .ok i) ∧
  (∀ w i, decode w = .ok i → encode i = w ∧ i.wf = true ∧ Instr.isWord i = true)

/-- R24: each of the sixteen PAR bits is the exclusive OR of the protected bits whose numbers are congruent to its own. -/
def Obligations.LineParity : Prop :=
  ∀ bs : List Byte, bs.length = 64 →
    (lineParOk bs = true ↔ ∀ j, j < 16 →
      (leNat bs).testBit (496 + j) = ((List.range 31).map fun k => (leNat bs).testBit (16 * k + j)).foldl (· ^^ ·) false)

/-- R26: a line that passes the parity check and holds a reserved bit faults E_ILLEGAL at the first slot of it that issues. -/
def Obligations.ReservedBitsOfTheLineWord : Prop :=
  ∀ (s u : State) c (g : Group) bs pa core stale rest, s.undervolt = false → s.agenda = .issue core stale :: rest →
    State.beginIssue { s with agenda := rest } core stale = some (u, c) → u.grp? c.gid = some g →
    u.fetchLine g (lineBase c.pc) = .bytes bs pa → bs.length = 64 → u.badRead pa 64 = false → (g.lane (lowest c.mask)).due = none →
    lineParOk bs = true → (∃ j, 9 ≤ j ∧ j < 16 ∧ (leNat bs).testBit (480 + j) = true) →
    step s = .next (State.finish { u.takeException ((g.stash c.mask c.prior).modLanes c.mask fun _ l => { l with due := none }) .illegal c.pc c.mask c.mask 0#64 0 with
      cur := none })

/-- A step runs the decoded instruction: the subset that the core picks fetches the line of its program counter, and exec runs what its slot
decodes to, in the state that the pick and the fetch leave; an event of the agenda is run as it stands. Around it the step takes the item
from the agenda and, last, does what follows every step: pages on their way, groups that wait for a context, the order of waits. A part that
has not booted boots first (R449). -/
def Obligations.StepRunsTheDecodedInstruction : Prop :=
  (∀ (s u : State) c (g : Group) bs pa core stale rest i, s.undervolt = false → s.agenda = .issue core stale :: rest →
    State.beginIssue { s with agenda := rest } core stale = some (u, c) → u.grp? c.gid = some g →
    u.fetchLine g (lineBase c.pc) = .bytes bs pa → u.badRead pa 64 = false → (g.lane (lowest c.mask)).due = none →
    (g.entryDue = true → g.mayEnter bs (slotOf c.pc) = true) →
    lineParOk bs = true → lineReservedOk bs = true → decode (lineSlot bs (slotOf c.pc)) = .ok i →
    step s = Out.finish (exec i (u.touch g (lineBase c.pc).toNat .x))) ∧
  (∀ (s u : State) c (g : Group) bs pa core i, s.undervolt = false → s.booted = true → s.agenda = [] → s.dueEvent = none → s.nextCore = some core →
    State.beginIssue { s with rr := core + 1, free := s.free + 1 } core (Config.roStale s.free) = some (u, c) → u.grp? c.gid = some g →
    u.fetchLine g (lineBase c.pc) = .bytes bs pa → u.badRead pa 64 = false → (g.lane (lowest c.mask)).due = none →
    (g.entryDue = true → g.mayEnter bs (slotOf c.pc) = true) →
    lineParOk bs = true → lineReservedOk bs = true → decode (lineSlot bs (slotOf c.pc)) = .ok i →
    step s = Out.finish (exec i (u.touch g (lineBase c.pc).toNat .x))) ∧
  (∀ (s : State), s.undervolt = false → s.booted = false → s.agenda = [] → step s = .next s.boot.finish) ∧
  (∀ (s : State) i rest, s.undervolt = false → s.agenda = .ev i :: rest → Instr.isWord i = false →
    step s = Out.finish (exec i { s with agenda := rest })) ∧
  (∀ (s : State) core stale u c, State.beginIssue s core stale = some (u, c) →
    u.cur = some c ∧ c.core = core ∧ c.stale = stale ∧ s.pick core = some (c.gid, c.mask) ∧
    ∀ g, s.grp? c.gid = some g → c.pc = (g.lane (lowest c.mask)).pc)

/-- The checks before an instruction acts (R40, R42, R49, R58, R136, R209, R421, R447): with no subset issuing it does not act; the first check
that fails raises its exception at the slot, before any lane, E_TARGET of a destination before a lost latch and what comes after it; a third run of the pipes that disagrees raises E_CHECK, once the ck of the runs
have passed. R447: an instruction whose class has used its allowance of energy, or of the traffic of the engine's loads and stores, waits
for its budget. The refusal without an issuing subset is log 1, what an instruction asks of its budget log 10, which third run raises E_CHECK log 19. -/
def Obligations.ChecksBeforeAnInstruction : Prop :=
  (∀ i (s : State), Instr.isWord i = true → s.cur = none → exec i s = .refused .noIssuer) ∧
  (∀ i s q c, i.wf = true → Instr.isWord i = true → s.issuing i = some q → q.stops = some c →
    ((c = .illegal ∨ s.targetFirst i q = none) → Traps i s q c q.sub 0#64 0 s) ∧
    ∀ lanes a code, c ≠ .illegal → s.targetFirst i q = some (.trap .target lanes a code s) → Traps i s q .target lanes a code s) ∧
  (∀ q : Q, (q.sg.fits q.g = false → q.stops = some .illegal) ∧
    (q.sg.fits q.g = true → q.act ≠ 0#64 →
      (q.sg.uses.any (·.latchLost q.g) = true → q.stops = some .latch) ∧
      (q.sg.uses.any (·.latchLost q.g) = false → protectedHit q = true → q.stops = some .matrixState) ∧
      (q.sg.uses.any (·.latchLost q.g) = false → protectedHit q = false → badSource q = true → q.stops = some .check))) ∧
  (∀ i s q runs, i.wf = true → Instr.isWord i = true → s.issuing i = some q → q.stops = none → q.act ≠ 0#64 → s.workWait i q = none →
    s.disagreement q = some runs → 3 ≤ runs.length →
    Traps i s q .check q.act 0#64 0
      (((s.disagree q.core q.g runs).noteCheck q.core).spendRuns q (issueCk i (s.core q.core).twoPass * 2))) ∧
  (∀ i s q w, i.wf = true → Instr.isWord i = true → s.issuing i = some q → q.stops = none → q.act ≠ 0#64 → q.g.shaped = true →
    q.g.stepping = false → s.workWait i q = some w → Waits i s q w s)

/-- R42: an instruction that executes in no lane changes no register, latch, predicate, memory, port or flag, checks no destination, and its
STALL and Y fields apply; its subset goes on. R104, R106: an RCV adds its join entry all the same, where the join set has room. -/
def Obligations.EmptyExecution : Prop :=
  (∀ (o : FB) s q, (Instr.rcv o).wf = true → s.issuing (.rcv o) = some q → q.sg.fits q.g = true → q.act = 0#64 → q.g.shaped = true → q.g.stepping = false →
    let near := lineBase q.pc + (o.loff.signExtend 64 <<< 6) + BitVec.ofNat 64 (12 * o.slot.toNat)
    ∃ t g, exec (.rcv o) s = .next t ∧ t.grp? q.g.id = some g ∧ g.vregs = q.g.vregs ∧ g.sregs = q.g.sregs ∧ g.preds = q.g.preds ∧
      Advances q g (fun L => (q.g.lane L).fflags) (fun L => (q.g.lane L).sr) ∧ Kept q g ∧ OnlyGroup s t q ∧
      (q.g.joins.length < 16 → near ≠ nextPc q.pc → (∃ L, L < q.g.width ∧ q.sub.getLsbD L = true ∧ (q.g.lane L).exited = false) →
        { j := near, m := q.sub } ∈ g.joins)) ∧
  ∀ i s q, i.wf = true → Instr.isWord i = true → actsEmpty i = false → s.issuing i = some q → q.sg.fits q.g = true → q.act = 0#64 → q.g.shaped = true → q.g.stepping = false →
    ∃ t g, exec i s = .next t ∧ t.grp? q.g.id = some g ∧ g.vregs = q.g.vregs ∧ g.sregs = q.g.sregs ∧ g.preds = q.g.preds ∧
      (q.prior = none → breaksAfter i q.sg q.pf = false → g.latches = q.g.latches) ∧
      Advances q g (fun L => (q.g.lane L).fflags) (fun L => (q.g.lane L).sr) ∧ Kept q g ∧ OnlyGroup s t q ∧
      g.yieldTo = (if q.pf.y then some q.sub else none) ∧
      (0 < q.pf.stall.toNat → ∀ L, L < q.g.width → q.sub.getLsbD L = true → q.pf.stall.toNat ≤ (g.lane L).stall ∧
        (g.lane L).stall ≤ issueCk i (s.core q.core).twoPass + q.pf.stall.toNat)

/-- R52: the filler word is a MOV whose guard holds in no lane; its bytes; it executes in no lane and has no effect. -/
def Obligations.FillerWord : Prop :=
  let z : Opnd := .v 0#8
  let i : Instr := .mov { pf := { ga := 31#5, gb := 15#5, ch := 0#4, stall := 0#4, y := false, nwb := false, cap := 0#2 }, mod := 0#6, d := z, a := z
                          b := z, c := z, e := z, imm8 := 0#8 }
  decode 0x1800FBC00000000000000000#96 = .ok i ∧ decOpc 0x1800FBC00000000000000000#96 = 0x060#10 ∧
  leBytes 12 0x1800FBC00000000000000000 = [0, 0, 0, 0, 0, 0, 0, 0, 0xC0#8, 0xFB#8, 0, 0x18#8] ∧
  ∀ s q, s.issuing i = some q → q.act = 0#64 ∧ (q.sg.fits q.g = true → q.g.shaped = true → q.g.stepping = false →
    ∃ t g, exec i s = .next t ∧ t.grp? q.g.id = some g ∧ g.vregs = q.g.vregs ∧ g.sregs = q.g.sregs ∧ g.preds = q.g.preds ∧
      Advances q g (fun L => (q.g.lane L).fflags) (fun L => (q.g.lane L).sr) ∧ Kept q g ∧ OnlyGroup s t q)

/-- R406 to R409, R327: an exception saves the group in its frame, held, with what the frame records of it, and its frame is appended to the
CALLQ of the group's cluster; E_CHECK also reaches ERR. A page fault saves it to wait, and posts a record to each shard that owns one
of the addresses. -/
def Obligations.SavesOnFaults : Prop :=
  (∀ (s : State) (g : Group) c pc sub lanes addr code, s.grp? g.id = some g →
    (s.core g.core).mowner ≠ some g.team →
    let t := s.takeException g c pc sub lanes addr code
    let m := t.mem
    (∃ h, t.grp? g.id = some h ∧ h.st = .saved ∧ h.frameHeld = true ∧ h.save.cause = c ∧ h.vregs = g.vregs ∧ h.sregs = g.sregs ∧ h.preds = g.preds) ∧
    m.loadNat g.frame 2 = c.code ∧ m.loadNat (g.frame + 2) 1 = 3 ∧ m.loadNat (g.frame + 3) 1 = g.width % 256 ∧
    m.loadNat (g.frame + 8) 8 = g.sheetid.toNat ∧ m.loadNat (g.frame + 24) 8 = addr.toNat ∧ m.loadNat (g.frame + 32) 8 = lanes.toNat ∧
    m.loadNat (g.frame + 40) 8 = sub.toNat ∧ m.loadNat (g.frame + 48) 8 = code % 2 ^ 64 ∧
    ((∀ d cap nwb r, g.waitOf sub ≠ .answer d cap nwb r) → m.loadNat (g.frame + 16) 8 = pc.toNat) ∧
    (∀ a, (a < g.frame ∨ g.frame + 131072 ≤ a ∨ (g.frame + 4096 ≤ a ∧ a < g.frame + 20480)) → m.read a = s.mem.read a) ∧
    ((s.surv (s.survOf g.core)).callq.length < 128 → (s.surv (s.survOf g.core)).heldq = [] →
      (t.surv (s.survOf g.core)).callq = (s.surv (s.survOf g.core)).callq ++ [{ slot := g.frame, type := 4 }]) ∧
    (c = .check → ∀ h, t.sheet? g.sheet = some h → h.check = true) ∧ (c ≠ .check → t.sheets = s.sheets) ∧ t.teams = s.teams) ∧
  (∀ (s : State) (g : Group) kind pc sub vas, s.grp? g.id = some g →
    let t := s.pageFault g kind pc sub vas
    ∃ h, t.grp? g.id = some h ∧ h.st = .saved ∧ h.frameHeld = false ∧ h.save.cause = .pageWait ∧ h.save.fstate = 1 ∧ h.vregs = g.vregs ∧
      h.sregs = g.sregs ∧ t.survs = s.survs ∧
      (∀ e ∈ vas, ∃ r ∈ h.faults, r.shard = shardOf e.2.toNat ∧ e.2 ∈ r.vas ∧ r.done = false) ∧
      -- what the accesses do, and the request's generation (R330); a PAGE_WAIT frame has no FADDR (R409)
      h.save.faddr = 0#64 ∧ ∀ r ∈ h.faults, r.kind = kind ∧ r.gen = s.requestGen g ∧ ∀ a ∈ r.vas, shardOf a.toNat = r.shard)

/-- The memory form at reset. -/
def Obligations.MemoryFormAtReset : Prop :=
 Memory.wf State.reset.mem = true

/-- Every step, whatever the agenda holds, keeps memory's canonical form: addresses rise strictly, and no listed byte is what an unlisted
one reads as. -/
def Obligations.EveryStepKeepsTheMemoryForm : Prop :=
  ∀ s t : State, Memory.wf s.mem = true → step s = .next t → Memory.wf t.mem = true

/-- R460, R452, R430: no step lowers the next seal sequence number or the ownership epoch, and what the one-time-programmable memory has
recorded stays. -/
def Obligations.WhatNeverGoesBack : Prop :=
  ∀ s t : State, step s = .next t →
    s.trust.sealNext ≤ t.trust.sealNext ∧ s.trust.epoch ≤ t.trust.epoch ∧ ∀ b ∈ s.otpRetired, b ∈ t.otpRetired
end

