-- ==== Sys2Proof/Laws/Memory.lean ====
section
/-!
SUPPORT. Canonical memories: what a store leaves at every address, that it keeps the canonical form, and that reading a block at
once is reading its bytes one by one.
-/
namespace Sys2Proof.Laws
open Sys2Proof.Machine

/-- The canonical form as two facts: addresses rise, no byte is zero. -/
theorem wf_iff (m : Mem) : Memory.wf m = true ↔ m.Pairwise (fun a b => a.1 < b.1) ∧ ∀ c ∈ m, c.2 ≠ 0#8 := by
  induction m with
  | nil => simp [Memory.wf]
  | cons c m ih =>
    cases m with
    | nil => simp [Memory.wf]
    | cons d m =>
      obtain ⟨k, b⟩ := c
      obtain ⟨k', b'⟩ := d
      simp only [Memory.wf, Bool.and_eq_true, bne_iff_ne, ne_eq, decide_eq_true_eq, ih, List.pairwise_cons, List.forall_mem_cons]
      have below : k < k' → (∀ x ∈ m, k' < x.1) → ∀ x ∈ m, k < x.1 := fun first rest x at_ => lt_trans first (rest x at_)
      tauto

theorem wf_nil : Memory.wf [] = true := rfl
/-- Taking cells away keeps the form. -/
theorem wf_filter (m : Mem) (p : Host.Cell → Bool) (h : Memory.wf m = true) : Memory.wf (m.filter p) = true := by
  rw [wf_iff] at h ⊢
  exact ⟨h.1.filter p, fun c hc => h.2 c (List.mem_filter.mp hc).1⟩
/-- Two canonical memories, the second wholly above the first. -/
theorem wf_append (m n : Mem) (hm : Memory.wf m = true) (hn : Memory.wf n = true) (h : ∀ a ∈ m, ∀ b ∈ n, a.1 < b.1) :
    Memory.wf (m ++ n) = true := by
  rw [wf_iff] at hm hn ⊢
  refine ⟨List.pairwise_append.mpr ⟨hm.1, hn.1, h⟩, ?_⟩
  intro c hc
  rcases List.mem_append.mp hc with hc | hc
  · exact hm.2 c hc
  · exact hn.2 c hc
/-- A map that keeps the order of addresses and the bytes. -/
theorem wf_map (m : Mem) (f : Nat → Nat) (h : Memory.wf m = true) (hf : ∀ a ∈ m, ∀ b ∈ m, a.1 < b.1 → f a.1 < f b.1) :
    Memory.wf (m.map fun c => (f c.1, c.2)) = true := by
  rw [wf_iff] at h ⊢
  refine ⟨?_, ?_⟩
  · rw [List.pairwise_map]
    exact h.1.imp_of_mem (fun ha hb hab => hf _ ha _ hb hab)
  · intro c hc
    obtain ⟨x, hx, rfl⟩ := List.mem_map.mp hc
    exact h.2 x hx

theorem cells_bound (a : Nat) (bs : List Byte) : ∀ c ∈ cells a bs, a ≤ c.1 ∧ c.1 < a + bs.length ∧ c.2 ≠ 0#8 := by
  induction bs generalizing a with
  | nil => simp [cells]
  | cons b bs ih =>
    intro c hc
    simp only [cells] at hc
    split at hc
    · obtain ⟨h1, h2, h3⟩ := ih (a + 1) c hc
      exact ⟨by omega, by simp only [List.length_cons]; omega, h3⟩
    · rename_i hb
      rcases List.mem_cons.mp hc with rfl | hc
      · exact ⟨le_refl _, by simp, by simpa using hb⟩
      · obtain ⟨h1, h2, h3⟩ := ih (a + 1) c hc
        exact ⟨by omega, by simp only [List.length_cons]; omega, h3⟩
theorem wf_cells (a : Nat) (bs : List Byte) : Memory.wf (cells a bs) = true := by
  rw [wf_iff]
  refine ⟨?_, fun c hc => (cells_bound a bs c hc).2.2⟩
  induction bs generalizing a with
  | nil => simp [cells]
  | cons b bs ih =>
    simp only [cells]
    split
    · exact ih _
    · exact List.pairwise_cons.mpr ⟨fun c hc => Nat.lt_of_succ_le (cells_bound (a + 1) bs c hc).1, ih _⟩
/-- A store keeps the canonical form. -/
theorem store_wf (m : Mem) (a : Nat) (bs : List Byte) (h : Memory.wf m = true) : Memory.wf (m.store a bs) = true := by
  unfold Mem.store
  refine wf_append _ _ (wf_append _ _ (wf_filter _ _ h) (wf_cells _ _) ?_) (wf_filter _ _ h) ?_
  · intro x hx y hy
    have h1 : x.1 < a := by simpa using (List.mem_filter.mp hx).2
    have h2 := (cells_bound a bs y hy).1
    omega
  · intro x hx y hy
    have h2 : a + bs.length ≤ y.1 := by simpa using (List.mem_filter.mp hy).2
    rcases List.mem_append.mp hx with hx | hx
    · have h1 : x.1 < a := by simpa using (List.mem_filter.mp hx).2
      omega
    · have h1 := (cells_bound a bs x hx).2.1
      omega

/-! ### Reading -/

theorem read_cons (c : Host.Cell) (m : Mem) (x : Nat) : Mem.read (c :: m) x = if c.1 = x then c.2 else Mem.read m x := by
  obtain ⟨k, b⟩ := c
  simp only [Mem.read, beq_iff_eq]
/-- A memory that lists an address nowhere reads zero there. -/
theorem read_absent (m : Mem) (x : Nat) (h : ∀ c ∈ m, c.1 ≠ x) : m.read x = 0#8 := by
  induction m with
  | nil => rfl
  | cons c m ih =>
    rw [read_cons, if_neg (h c (List.mem_cons_self ..))]
    exact ih fun d hd => h d (List.mem_cons_of_mem _ hd)
theorem read_append_left (m n : Mem) (x : Nat) (h : ∀ c ∈ m, c.1 ≠ x) : (m ++ n).read x = n.read x := by
  induction m with
  | nil => rfl
  | cons c m ih =>
    rw [List.cons_append, read_cons, if_neg (h c (List.mem_cons_self ..))]
    exact ih fun d hd => h d (List.mem_cons_of_mem _ hd)
theorem read_append_right (m n : Mem) (x : Nat) (h : ∀ c ∈ n, c.1 ≠ x) : (m ++ n).read x = m.read x := by
  induction m with
  | nil => exact read_absent n x h
  | cons c m ih => rw [List.cons_append, read_cons, read_cons, ih]
/-- Cells whose addresses pass a test keep what they read. -/
theorem read_filter (m : Mem) (p : Nat → Bool) (x : Nat) (h : p x = true) : Mem.read (m.filter fun c => p c.1) x = m.read x := by
  induction m with
  | nil => rfl
  | cons c m ih =>
    by_cases hc : p c.1 = true
    · rw [List.filter_cons_of_pos (by simpa using hc), read_cons, read_cons, ih]
    · rw [List.filter_cons_of_neg (by simpa using hc), read_cons, ih, if_neg]
      intro e; exact hc (e ▸ h)
theorem read_cells (a : Nat) (bs : List Byte) (i : Nat) (h : i < bs.length) : Mem.read (cells a bs) (a + i) = bs[i] := by
  induction bs generalizing a i with
  | nil => simp at h
  | cons b bs ih =>
    cases i with
    | zero =>
      simp only [cells]
      split
      · rename_i hb
        rw [read_absent]
        · simpa using (by simpa using hb : b = 0#8).symm
        · intro c hc; have := (cells_bound (a + 1) bs c hc).1; omega
      · simp [read_cons]
    | succ i =>
      have hi : i < bs.length := by simpa using h
      have := ih (a + 1) i hi
      rw [show a + (i + 1) = a + 1 + i by omega]
      simp only [cells]
      split
      · simpa using this
      · rw [read_cons, if_neg (by omega)]; simpa using this

/-- What a store leaves at an address inside it. -/
theorem read_store_inside (m : Mem) (a : Nat) (bs : List Byte) (i : Nat) (h : i < bs.length) : (m.store a bs).read (a + i) = bs[i] := by
  unfold Mem.store
  rw [read_append_right, read_append_left, read_cells a bs i h]
  · intro c hc
    have : c.1 < a := by simpa using (List.mem_filter.mp hc).2
    omega
  · intro c hc
    have : a + bs.length ≤ c.1 := by simpa using (List.mem_filter.mp hc).2
    omega
/-- What a store leaves at every other address. -/
theorem read_store_outside (m : Mem) (a : Nat) (bs : List Byte) (x : Nat) (h : x < a ∨ a + bs.length ≤ x) :
    (m.store a bs).read x = m.read x := by
  unfold Mem.store
  rcases h with h | h
  · rw [List.append_assoc, read_append_right]
    · exact read_filter m (fun k => decide (k < a)) x (by simpa using h)
    · intro c hc
      rcases List.mem_append.mp hc with hc | hc
      · have := (cells_bound a bs c hc).1; omega
      · have : a + bs.length ≤ c.1 := by simpa using (List.mem_filter.mp hc).2
        omega
  · rw [read_append_left]
    · exact read_filter m (fun k => decide (a + bs.length ≤ k)) x (by simpa using h)
    · intro c hc
      rcases List.mem_append.mp hc with hc | hc
      · have : c.1 < a := by simpa using (List.mem_filter.mp hc).2
        omega
      · have := (cells_bound a bs c hc).2.1; omega

/-- Reading a block at once. -/
theorem fillFrom_eq (n : Nat) (m : Mem) (a : Nat) (hm : m.Pairwise (fun x y => x.1 < y.1)) (ha : ∀ c ∈ m, a ≤ c.1) :
    fillFrom n m a = (List.range n).map fun i => m.read (a + i) := by
  induction n generalizing m a with
  | zero => cases m <;> rfl
  | succ n ih =>
    rw [List.range_succ_eq_map, List.map_cons, List.map_map]
    cases m with
    | nil =>
      simp only [fillFrom, Mem.read]
      rw [ih [] (a + 1) (by simp) (by simp)]
      congr 1
    | cons c m =>
      obtain ⟨k, b⟩ := c
      obtain ⟨h1, h2⟩ := List.pairwise_cons.mp hm
      simp only [fillFrom, Nat.add_zero]
      by_cases hk : k = a
      · subst hk
        simp only [beq_self_eq_true, if_true, read_cons]
        rw [ih m (k + 1) h2 (fun d hd => Nat.succ_le_of_lt (h1 d hd))]
        congr 1
        apply List.map_congr_left
        intro i _
        simp only [Function.comp, Nat.succ_eq_add_one]
        rw [if_neg (by omega)]
        congr 1; omega
      · have hb : (k == a) = false := by simpa using hk
        have hlt : a < k := lt_of_le_of_ne (ha (k, b) (List.mem_cons_self ..)) (fun e => hk e.symm)
        simp only [hb, Bool.false_eq_true, if_false, read_cons, if_neg hk]
        have hz : Mem.read m a = 0#8 := read_absent m a (fun c hc => by
          have := h1 c hc; simp only at this; omega)
        rw [ih ((k, b) :: m) (a + 1) hm (fun d hd => by
          rcases List.mem_cons.mp hd with rfl | hd
          · exact hlt
          · have := h1 d hd; simp only at this; omega), hz]
        congr 1
        apply List.map_congr_left
        intro i _
        simp only [Function.comp, Nat.succ_eq_add_one]
        rw [show a + 1 + i = a + (i + 1) by omega, read_cons]
/-- In a canonical memory a block read is its bytes. -/
theorem bulk_eq_load (m : Mem) (a n : Nat) (h : Memory.wf m = true) : m.bulk a n = m.load a n := by
  unfold Mem.bulk Mem.load
  rw [wf_iff] at h
  rw [fillFrom_eq n _ a (h.1.filter _) (fun c hc => by simpa using (List.mem_filter.mp hc).2)]
  apply List.map_congr_left
  intro i _
  exact read_filter m (fun k => decide (a ≤ k)) (a + i) (by simp)
/-- A block read after its store. -/
theorem load_store (m : Mem) (a : Nat) (bs : List Byte) : (m.store a bs).load a bs.length = bs := by
  unfold Mem.load
  apply List.ext_getElem
  · simp
  · intro i h1 h2
    simp only [List.getElem_map, List.getElem_range]
    exact read_store_inside m a bs i h2

end Sys2Proof.Laws
end

