-- ==== Sys2Proof/Laws/State.lean ====
section
/-!
SUPPORT. What the named updates of State and Group leave alone: one lemma per field and update, true by unfolding, and finding a
record after an update.
-/
namespace Sys2Proof.Laws
open Sys2Proof.Machine

/-! ### setGrp -/

@[simp] theorem setGrp_agenda (s : State) (g : Group) : (s.setGrp g).agenda = s.agenda := rfl
@[simp] theorem setGrp_cur (s : State) (g : Group) : (s.setGrp g).cur = s.cur := rfl
@[simp] theorem setGrp_free (s : State) (g : Group) : (s.setGrp g).free = s.free := rfl
@[simp] theorem setGrp_rr (s : State) (g : Group) : (s.setGrp g).rr = s.rr := rfl
@[simp] theorem setGrp_fresh (s : State) (g : Group) : (s.setGrp g).fresh = s.fresh := rfl
@[simp] theorem setGrp_mem (s : State) (g : Group) : (s.setGrp g).mem = s.mem := rfl
@[simp] theorem setGrp_bad (s : State) (g : Group) : (s.setGrp g).bad = s.bad := rfl
@[simp] theorem setGrp_teams (s : State) (g : Group) : (s.setGrp g).teams = s.teams := rfl
@[simp] theorem setGrp_cores (s : State) (g : Group) : (s.setGrp g).cores = s.cores := rfl
@[simp] theorem setGrp_clusters (s : State) (g : Group) : (s.setGrp g).clusters = s.clusters := rfl
@[simp] theorem setGrp_survs (s : State) (g : Group) : (s.setGrp g).survs = s.survs := rfl
@[simp] theorem setGrp_harts (s : State) (g : Group) : (s.setGrp g).harts = s.harts := rfl
@[simp] theorem setGrp_hostResults (s : State) (g : Group) : (s.setGrp g).hostResults = s.hostResults := rfl
@[simp] theorem setGrp_hostRead (s : State) (g : Group) : (s.setGrp g).hostRead = s.hostRead := rfl
@[simp] theorem setGrp_bootPending (s : State) (g : Group) : (s.setGrp g).bootPending = s.bootPending := rfl
@[simp] theorem setGrp_dies (s : State) (g : Group) : (s.setGrp g).dies = s.dies := rfl
@[simp] theorem setGrp_sheets (s : State) (g : Group) : (s.setGrp g).sheets = s.sheets := rfl
@[simp] theorem setGrp_queues (s : State) (g : Group) : (s.setGrp g).queues = s.queues := rfl
@[simp] theorem setGrp_pool (s : State) (g : Group) : (s.setGrp g).pool = s.pool := rfl
@[simp] theorem setGrp_roots (s : State) (g : Group) : (s.setGrp g).roots = s.roots := rfl
@[simp] theorem setGrp_ticket (s : State) (g : Group) : (s.setGrp g).ticket = s.ticket := rfl
@[simp] theorem setGrp_doneTickets (s : State) (g : Group) : (s.setGrp g).doneTickets = s.doneTickets := rfl
@[simp] theorem setGrp_agentTicket (s : State) (g : Group) : (s.setGrp g).agentTicket = s.agentTicket := rfl
@[simp] theorem setGrp_invals (s : State) (g : Group) : (s.setGrp g).invals = s.invals := rfl
@[simp] theorem setGrp_snapUsed (s : State) (g : Group) : (s.setGrp g).snapUsed = s.snapUsed := rfl
@[simp] theorem setGrp_msgs (s : State) (g : Group) : (s.setGrp g).msgs = s.msgs := rfl
@[simp] theorem setGrp_puts (s : State) (g : Group) : (s.setGrp g).puts = s.puts := rfl
@[simp] theorem setGrp_fab (s : State) (g : Group) : (s.setGrp g).fab = s.fab := rfl
@[simp] theorem setGrp_nvme (s : State) (g : Group) : (s.setGrp g).nvme = s.nvme := rfl
@[simp] theorem setGrp_files (s : State) (g : Group) : (s.setGrp g).files = s.files := rfl
@[simp] theorem setGrp_fds (s : State) (g : Group) : (s.setGrp g).fds = s.fds := rfl
@[simp] theorem setGrp_sockets (s : State) (g : Group) : (s.setGrp g).sockets = s.sockets := rfl
@[simp] theorem setGrp_buffers (s : State) (g : Group) : (s.setGrp g).buffers = s.buffers := rfl
@[simp] theorem setGrp_allocs (s : State) (g : Group) : (s.setGrp g).allocs = s.allocs := rfl
@[simp] theorem setGrp_moduleNo (s : State) (g : Group) : (s.setGrp g).moduleNo = s.moduleNo := rfl
@[simp] theorem setGrp_time (s : State) (g : Group) : (s.setGrp g).time = s.time := rfl
@[simp] theorem setGrp_ran (s : State) (g : Group) : (s.setGrp g).ran = s.ran := rfl
@[simp] theorem setGrp_utcBase (s : State) (g : Group) : (s.setGrp g).utcBase = s.utcBase := rfl
@[simp] theorem setGrp_utcValid (s : State) (g : Group) : (s.setGrp g).utcValid = s.utcValid := rfl
@[simp] theorem setGrp_trust (s : State) (g : Group) : (s.setGrp g).trust = s.trust := rfl
@[simp] theorem setGrp_owner (s : State) (g : Group) : (s.setGrp g).owner = s.owner := rfl
@[simp] theorem setGrp_fhold (s : State) (g : Group) : (s.setGrp g).fhold = s.fhold := rfl
@[simp] theorem setGrp_ckptReg (s : State) (g : Group) : (s.setGrp g).ckptReg = s.ckptReg := rfl
@[simp] theorem setGrp_ckpt (s : State) (g : Group) : (s.setGrp g).ckpt = s.ckpt := rfl
@[simp] theorem setGrp_ckptStop (s : State) (g : Group) : (s.setGrp g).ckptStop = s.ckptStop := rfl
@[simp] theorem setGrp_reserved (s : State) (g : Group) : (s.setGrp g).reserved = s.reserved := rfl
@[simp] theorem setGrp_poolFree (s : State) (g : Group) : (s.setGrp g).poolFree = s.poolFree := rfl
@[simp] theorem setGrp_poolNext (s : State) (g : Group) : (s.setGrp g).poolNext = s.poolNext := rfl
@[simp] theorem setGrp_freeing (s : State) (g : Group) : (s.setGrp g).freeing = s.freeing := rfl
@[simp] theorem setGrp_moves (s : State) (g : Group) : (s.setGrp g).moves = s.moves := rfl
@[simp] theorem setGrp_balanceAt (s : State) (g : Group) : (s.setGrp g).balanceAt = s.balanceAt := rfl
@[simp] theorem setGrp_wearAt (s : State) (g : Group) : (s.setGrp g).wearAt = s.wearAt := rfl
@[simp] theorem setGrp_commands (s : State) (g : Group) : (s.setGrp g).commands = s.commands := rfl
@[simp] theorem setGrp_thermal (s : State) (g : Group) : (s.setGrp g).thermal = s.thermal := rfl
@[simp] theorem setGrp_thermalEvents (s : State) (g : Group) : (s.setGrp g).thermalEvents = s.thermalEvents := rfl
@[simp] theorem setGrp_coolant (s : State) (g : Group) : (s.setGrp g).coolant = s.coolant := rfl
@[simp] theorem setGrp_undervolt (s : State) (g : Group) : (s.setGrp g).undervolt = s.undervolt := rfl
@[simp] theorem setGrp_booted (s : State) (g : Group) : (s.setGrp g).booted = s.booted := rfl
@[simp] theorem setGrp_accepting (s : State) (g : Group) : (s.setGrp g).accepting = s.accepting := rfl
@[simp] theorem setGrp_closing (s : State) (g : Group) : (s.setGrp g).closing = s.closing := rfl
@[simp] theorem setGrp_otpRetired (s : State) (g : Group) : (s.setGrp g).otpRetired = s.otpRetired := rfl
@[simp] theorem setGrp_corrected (s : State) (g : Group) : (s.setGrp g).corrected = s.corrected := rfl
@[simp] theorem setGrp_channels (s : State) (g : Group) : (s.setGrp g).channels = s.channels := rfl
@[simp] theorem setGrp_lcl (s : State) (g : Group) : (s.setGrp g).lcl = s.lcl := rfl

/-! ### modGrp -/

@[simp] theorem modGrp_agenda (s : State) (k : Nat) (f : Group → Group) : (s.modGrp k f).agenda = s.agenda := rfl
@[simp] theorem modGrp_cur (s : State) (k : Nat) (f : Group → Group) : (s.modGrp k f).cur = s.cur := rfl
@[simp] theorem modGrp_free (s : State) (k : Nat) (f : Group → Group) : (s.modGrp k f).free = s.free := rfl
@[simp] theorem modGrp_rr (s : State) (k : Nat) (f : Group → Group) : (s.modGrp k f).rr = s.rr := rfl
@[simp] theorem modGrp_fresh (s : State) (k : Nat) (f : Group → Group) : (s.modGrp k f).fresh = s.fresh := rfl
@[simp] theorem modGrp_mem (s : State) (k : Nat) (f : Group → Group) : (s.modGrp k f).mem = s.mem := rfl
@[simp] theorem modGrp_bad (s : State) (k : Nat) (f : Group → Group) : (s.modGrp k f).bad = s.bad := rfl
@[simp] theorem modGrp_teams (s : State) (k : Nat) (f : Group → Group) : (s.modGrp k f).teams = s.teams := rfl
@[simp] theorem modGrp_cores (s : State) (k : Nat) (f : Group → Group) : (s.modGrp k f).cores = s.cores := rfl
@[simp] theorem modGrp_clusters (s : State) (k : Nat) (f : Group → Group) : (s.modGrp k f).clusters = s.clusters := rfl
@[simp] theorem modGrp_survs (s : State) (k : Nat) (f : Group → Group) : (s.modGrp k f).survs = s.survs := rfl
@[simp] theorem modGrp_harts (s : State) (k : Nat) (f : Group → Group) : (s.modGrp k f).harts = s.harts := rfl
@[simp] theorem modGrp_hostResults (s : State) (k : Nat) (f : Group → Group) : (s.modGrp k f).hostResults = s.hostResults := rfl
@[simp] theorem modGrp_hostRead (s : State) (k : Nat) (f : Group → Group) : (s.modGrp k f).hostRead = s.hostRead := rfl
@[simp] theorem modGrp_bootPending (s : State) (k : Nat) (f : Group → Group) : (s.modGrp k f).bootPending = s.bootPending := rfl
@[simp] theorem modGrp_dies (s : State) (k : Nat) (f : Group → Group) : (s.modGrp k f).dies = s.dies := rfl
@[simp] theorem modGrp_sheets (s : State) (k : Nat) (f : Group → Group) : (s.modGrp k f).sheets = s.sheets := rfl
@[simp] theorem modGrp_queues (s : State) (k : Nat) (f : Group → Group) : (s.modGrp k f).queues = s.queues := rfl
@[simp] theorem modGrp_pool (s : State) (k : Nat) (f : Group → Group) : (s.modGrp k f).pool = s.pool := rfl
@[simp] theorem modGrp_roots (s : State) (k : Nat) (f : Group → Group) : (s.modGrp k f).roots = s.roots := rfl
@[simp] theorem modGrp_ticket (s : State) (k : Nat) (f : Group → Group) : (s.modGrp k f).ticket = s.ticket := rfl
@[simp] theorem modGrp_doneTickets (s : State) (k : Nat) (f : Group → Group) : (s.modGrp k f).doneTickets = s.doneTickets := rfl
@[simp] theorem modGrp_agentTicket (s : State) (k : Nat) (f : Group → Group) : (s.modGrp k f).agentTicket = s.agentTicket := rfl
@[simp] theorem modGrp_invals (s : State) (k : Nat) (f : Group → Group) : (s.modGrp k f).invals = s.invals := rfl
@[simp] theorem modGrp_snapUsed (s : State) (k : Nat) (f : Group → Group) : (s.modGrp k f).snapUsed = s.snapUsed := rfl
@[simp] theorem modGrp_msgs (s : State) (k : Nat) (f : Group → Group) : (s.modGrp k f).msgs = s.msgs := rfl
@[simp] theorem modGrp_puts (s : State) (k : Nat) (f : Group → Group) : (s.modGrp k f).puts = s.puts := rfl
@[simp] theorem modGrp_fab (s : State) (k : Nat) (f : Group → Group) : (s.modGrp k f).fab = s.fab := rfl
@[simp] theorem modGrp_nvme (s : State) (k : Nat) (f : Group → Group) : (s.modGrp k f).nvme = s.nvme := rfl
@[simp] theorem modGrp_files (s : State) (k : Nat) (f : Group → Group) : (s.modGrp k f).files = s.files := rfl
@[simp] theorem modGrp_fds (s : State) (k : Nat) (f : Group → Group) : (s.modGrp k f).fds = s.fds := rfl
@[simp] theorem modGrp_sockets (s : State) (k : Nat) (f : Group → Group) : (s.modGrp k f).sockets = s.sockets := rfl
@[simp] theorem modGrp_buffers (s : State) (k : Nat) (f : Group → Group) : (s.modGrp k f).buffers = s.buffers := rfl
@[simp] theorem modGrp_allocs (s : State) (k : Nat) (f : Group → Group) : (s.modGrp k f).allocs = s.allocs := rfl
@[simp] theorem modGrp_moduleNo (s : State) (k : Nat) (f : Group → Group) : (s.modGrp k f).moduleNo = s.moduleNo := rfl
@[simp] theorem modGrp_time (s : State) (k : Nat) (f : Group → Group) : (s.modGrp k f).time = s.time := rfl
@[simp] theorem modGrp_ran (s : State) (k : Nat) (f : Group → Group) : (s.modGrp k f).ran = s.ran := rfl
@[simp] theorem modGrp_utcBase (s : State) (k : Nat) (f : Group → Group) : (s.modGrp k f).utcBase = s.utcBase := rfl
@[simp] theorem modGrp_utcValid (s : State) (k : Nat) (f : Group → Group) : (s.modGrp k f).utcValid = s.utcValid := rfl
@[simp] theorem modGrp_trust (s : State) (k : Nat) (f : Group → Group) : (s.modGrp k f).trust = s.trust := rfl
@[simp] theorem modGrp_owner (s : State) (k : Nat) (f : Group → Group) : (s.modGrp k f).owner = s.owner := rfl
@[simp] theorem modGrp_fhold (s : State) (k : Nat) (f : Group → Group) : (s.modGrp k f).fhold = s.fhold := rfl
@[simp] theorem modGrp_ckptReg (s : State) (k : Nat) (f : Group → Group) : (s.modGrp k f).ckptReg = s.ckptReg := rfl
@[simp] theorem modGrp_ckpt (s : State) (k : Nat) (f : Group → Group) : (s.modGrp k f).ckpt = s.ckpt := rfl
@[simp] theorem modGrp_ckptStop (s : State) (k : Nat) (f : Group → Group) : (s.modGrp k f).ckptStop = s.ckptStop := rfl
@[simp] theorem modGrp_reserved (s : State) (k : Nat) (f : Group → Group) : (s.modGrp k f).reserved = s.reserved := rfl
@[simp] theorem modGrp_poolFree (s : State) (k : Nat) (f : Group → Group) : (s.modGrp k f).poolFree = s.poolFree := rfl
@[simp] theorem modGrp_poolNext (s : State) (k : Nat) (f : Group → Group) : (s.modGrp k f).poolNext = s.poolNext := rfl
@[simp] theorem modGrp_freeing (s : State) (k : Nat) (f : Group → Group) : (s.modGrp k f).freeing = s.freeing := rfl
@[simp] theorem modGrp_moves (s : State) (k : Nat) (f : Group → Group) : (s.modGrp k f).moves = s.moves := rfl
@[simp] theorem modGrp_balanceAt (s : State) (k : Nat) (f : Group → Group) : (s.modGrp k f).balanceAt = s.balanceAt := rfl
@[simp] theorem modGrp_wearAt (s : State) (k : Nat) (f : Group → Group) : (s.modGrp k f).wearAt = s.wearAt := rfl
@[simp] theorem modGrp_commands (s : State) (k : Nat) (f : Group → Group) : (s.modGrp k f).commands = s.commands := rfl
@[simp] theorem modGrp_thermal (s : State) (k : Nat) (f : Group → Group) : (s.modGrp k f).thermal = s.thermal := rfl
@[simp] theorem modGrp_thermalEvents (s : State) (k : Nat) (f : Group → Group) : (s.modGrp k f).thermalEvents = s.thermalEvents := rfl
@[simp] theorem modGrp_coolant (s : State) (k : Nat) (f : Group → Group) : (s.modGrp k f).coolant = s.coolant := rfl
@[simp] theorem modGrp_undervolt (s : State) (k : Nat) (f : Group → Group) : (s.modGrp k f).undervolt = s.undervolt := rfl
@[simp] theorem modGrp_booted (s : State) (k : Nat) (f : Group → Group) : (s.modGrp k f).booted = s.booted := rfl
@[simp] theorem modGrp_accepting (s : State) (k : Nat) (f : Group → Group) : (s.modGrp k f).accepting = s.accepting := rfl
@[simp] theorem modGrp_closing (s : State) (k : Nat) (f : Group → Group) : (s.modGrp k f).closing = s.closing := rfl
@[simp] theorem modGrp_otpRetired (s : State) (k : Nat) (f : Group → Group) : (s.modGrp k f).otpRetired = s.otpRetired := rfl
@[simp] theorem modGrp_corrected (s : State) (k : Nat) (f : Group → Group) : (s.modGrp k f).corrected = s.corrected := rfl
@[simp] theorem modGrp_channels (s : State) (k : Nat) (f : Group → Group) : (s.modGrp k f).channels = s.channels := rfl
@[simp] theorem modGrp_lcl (s : State) (k : Nat) (f : Group → Group) : (s.modGrp k f).lcl = s.lcl := rfl

/-! ### modGrps -/

@[simp] theorem modGrps_agenda (s : State) (f : Group → Group) : (s.modGrps f).agenda = s.agenda := rfl
@[simp] theorem modGrps_cur (s : State) (f : Group → Group) : (s.modGrps f).cur = s.cur := rfl
@[simp] theorem modGrps_free (s : State) (f : Group → Group) : (s.modGrps f).free = s.free := rfl
@[simp] theorem modGrps_rr (s : State) (f : Group → Group) : (s.modGrps f).rr = s.rr := rfl
@[simp] theorem modGrps_fresh (s : State) (f : Group → Group) : (s.modGrps f).fresh = s.fresh := rfl
@[simp] theorem modGrps_mem (s : State) (f : Group → Group) : (s.modGrps f).mem = s.mem := rfl
@[simp] theorem modGrps_bad (s : State) (f : Group → Group) : (s.modGrps f).bad = s.bad := rfl
@[simp] theorem modGrps_teams (s : State) (f : Group → Group) : (s.modGrps f).teams = s.teams := rfl
@[simp] theorem modGrps_cores (s : State) (f : Group → Group) : (s.modGrps f).cores = s.cores := rfl
@[simp] theorem modGrps_clusters (s : State) (f : Group → Group) : (s.modGrps f).clusters = s.clusters := rfl
@[simp] theorem modGrps_survs (s : State) (f : Group → Group) : (s.modGrps f).survs = s.survs := rfl
@[simp] theorem modGrps_harts (s : State) (f : Group → Group) : (s.modGrps f).harts = s.harts := rfl
@[simp] theorem modGrps_hostResults (s : State) (f : Group → Group) : (s.modGrps f).hostResults = s.hostResults := rfl
@[simp] theorem modGrps_hostRead (s : State) (f : Group → Group) : (s.modGrps f).hostRead = s.hostRead := rfl
@[simp] theorem modGrps_bootPending (s : State) (f : Group → Group) : (s.modGrps f).bootPending = s.bootPending := rfl
@[simp] theorem modGrps_dies (s : State) (f : Group → Group) : (s.modGrps f).dies = s.dies := rfl
@[simp] theorem modGrps_sheets (s : State) (f : Group → Group) : (s.modGrps f).sheets = s.sheets := rfl
@[simp] theorem modGrps_queues (s : State) (f : Group → Group) : (s.modGrps f).queues = s.queues := rfl
@[simp] theorem modGrps_pool (s : State) (f : Group → Group) : (s.modGrps f).pool = s.pool := rfl
@[simp] theorem modGrps_roots (s : State) (f : Group → Group) : (s.modGrps f).roots = s.roots := rfl
@[simp] theorem modGrps_ticket (s : State) (f : Group → Group) : (s.modGrps f).ticket = s.ticket := rfl
@[simp] theorem modGrps_doneTickets (s : State) (f : Group → Group) : (s.modGrps f).doneTickets = s.doneTickets := rfl
@[simp] theorem modGrps_agentTicket (s : State) (f : Group → Group) : (s.modGrps f).agentTicket = s.agentTicket := rfl
@[simp] theorem modGrps_invals (s : State) (f : Group → Group) : (s.modGrps f).invals = s.invals := rfl
@[simp] theorem modGrps_snapUsed (s : State) (f : Group → Group) : (s.modGrps f).snapUsed = s.snapUsed := rfl
@[simp] theorem modGrps_msgs (s : State) (f : Group → Group) : (s.modGrps f).msgs = s.msgs := rfl
@[simp] theorem modGrps_puts (s : State) (f : Group → Group) : (s.modGrps f).puts = s.puts := rfl
@[simp] theorem modGrps_fab (s : State) (f : Group → Group) : (s.modGrps f).fab = s.fab := rfl
@[simp] theorem modGrps_nvme (s : State) (f : Group → Group) : (s.modGrps f).nvme = s.nvme := rfl
@[simp] theorem modGrps_files (s : State) (f : Group → Group) : (s.modGrps f).files = s.files := rfl
@[simp] theorem modGrps_fds (s : State) (f : Group → Group) : (s.modGrps f).fds = s.fds := rfl
@[simp] theorem modGrps_sockets (s : State) (f : Group → Group) : (s.modGrps f).sockets = s.sockets := rfl
@[simp] theorem modGrps_buffers (s : State) (f : Group → Group) : (s.modGrps f).buffers = s.buffers := rfl
@[simp] theorem modGrps_allocs (s : State) (f : Group → Group) : (s.modGrps f).allocs = s.allocs := rfl
@[simp] theorem modGrps_moduleNo (s : State) (f : Group → Group) : (s.modGrps f).moduleNo = s.moduleNo := rfl
@[simp] theorem modGrps_time (s : State) (f : Group → Group) : (s.modGrps f).time = s.time := rfl
@[simp] theorem modGrps_ran (s : State) (f : Group → Group) : (s.modGrps f).ran = s.ran := rfl
@[simp] theorem modGrps_utcBase (s : State) (f : Group → Group) : (s.modGrps f).utcBase = s.utcBase := rfl
@[simp] theorem modGrps_utcValid (s : State) (f : Group → Group) : (s.modGrps f).utcValid = s.utcValid := rfl
@[simp] theorem modGrps_trust (s : State) (f : Group → Group) : (s.modGrps f).trust = s.trust := rfl
@[simp] theorem modGrps_owner (s : State) (f : Group → Group) : (s.modGrps f).owner = s.owner := rfl
@[simp] theorem modGrps_fhold (s : State) (f : Group → Group) : (s.modGrps f).fhold = s.fhold := rfl
@[simp] theorem modGrps_ckptReg (s : State) (f : Group → Group) : (s.modGrps f).ckptReg = s.ckptReg := rfl
@[simp] theorem modGrps_ckpt (s : State) (f : Group → Group) : (s.modGrps f).ckpt = s.ckpt := rfl
@[simp] theorem modGrps_ckptStop (s : State) (f : Group → Group) : (s.modGrps f).ckptStop = s.ckptStop := rfl
@[simp] theorem modGrps_reserved (s : State) (f : Group → Group) : (s.modGrps f).reserved = s.reserved := rfl
@[simp] theorem modGrps_poolFree (s : State) (f : Group → Group) : (s.modGrps f).poolFree = s.poolFree := rfl
@[simp] theorem modGrps_poolNext (s : State) (f : Group → Group) : (s.modGrps f).poolNext = s.poolNext := rfl
@[simp] theorem modGrps_freeing (s : State) (f : Group → Group) : (s.modGrps f).freeing = s.freeing := rfl
@[simp] theorem modGrps_moves (s : State) (f : Group → Group) : (s.modGrps f).moves = s.moves := rfl
@[simp] theorem modGrps_balanceAt (s : State) (f : Group → Group) : (s.modGrps f).balanceAt = s.balanceAt := rfl
@[simp] theorem modGrps_wearAt (s : State) (f : Group → Group) : (s.modGrps f).wearAt = s.wearAt := rfl
@[simp] theorem modGrps_commands (s : State) (f : Group → Group) : (s.modGrps f).commands = s.commands := rfl
@[simp] theorem modGrps_thermal (s : State) (f : Group → Group) : (s.modGrps f).thermal = s.thermal := rfl
@[simp] theorem modGrps_thermalEvents (s : State) (f : Group → Group) : (s.modGrps f).thermalEvents = s.thermalEvents := rfl
@[simp] theorem modGrps_coolant (s : State) (f : Group → Group) : (s.modGrps f).coolant = s.coolant := rfl
@[simp] theorem modGrps_undervolt (s : State) (f : Group → Group) : (s.modGrps f).undervolt = s.undervolt := rfl
@[simp] theorem modGrps_booted (s : State) (f : Group → Group) : (s.modGrps f).booted = s.booted := rfl
@[simp] theorem modGrps_accepting (s : State) (f : Group → Group) : (s.modGrps f).accepting = s.accepting := rfl
@[simp] theorem modGrps_closing (s : State) (f : Group → Group) : (s.modGrps f).closing = s.closing := rfl
@[simp] theorem modGrps_otpRetired (s : State) (f : Group → Group) : (s.modGrps f).otpRetired = s.otpRetired := rfl
@[simp] theorem modGrps_corrected (s : State) (f : Group → Group) : (s.modGrps f).corrected = s.corrected := rfl
@[simp] theorem modGrps_channels (s : State) (f : Group → Group) : (s.modGrps f).channels = s.channels := rfl
@[simp] theorem modGrps_lcl (s : State) (f : Group → Group) : (s.modGrps f).lcl = s.lcl := rfl

/-! ### modTeam -/

@[simp] theorem modTeam_agenda (s : State) (k : Nat) (f : Team → Team) : (s.modTeam k f).agenda = s.agenda := rfl
@[simp] theorem modTeam_cur (s : State) (k : Nat) (f : Team → Team) : (s.modTeam k f).cur = s.cur := rfl
@[simp] theorem modTeam_free (s : State) (k : Nat) (f : Team → Team) : (s.modTeam k f).free = s.free := rfl
@[simp] theorem modTeam_rr (s : State) (k : Nat) (f : Team → Team) : (s.modTeam k f).rr = s.rr := rfl
@[simp] theorem modTeam_fresh (s : State) (k : Nat) (f : Team → Team) : (s.modTeam k f).fresh = s.fresh := rfl
@[simp] theorem modTeam_mem (s : State) (k : Nat) (f : Team → Team) : (s.modTeam k f).mem = s.mem := rfl
@[simp] theorem modTeam_bad (s : State) (k : Nat) (f : Team → Team) : (s.modTeam k f).bad = s.bad := rfl
@[simp] theorem modTeam_groups (s : State) (k : Nat) (f : Team → Team) : (s.modTeam k f).groups = s.groups := rfl
@[simp] theorem modTeam_cores (s : State) (k : Nat) (f : Team → Team) : (s.modTeam k f).cores = s.cores := rfl
@[simp] theorem modTeam_clusters (s : State) (k : Nat) (f : Team → Team) : (s.modTeam k f).clusters = s.clusters := rfl
@[simp] theorem modTeam_survs (s : State) (k : Nat) (f : Team → Team) : (s.modTeam k f).survs = s.survs := rfl
@[simp] theorem modTeam_harts (s : State) (k : Nat) (f : Team → Team) : (s.modTeam k f).harts = s.harts := rfl
@[simp] theorem modTeam_hostResults (s : State) (k : Nat) (f : Team → Team) : (s.modTeam k f).hostResults = s.hostResults := rfl
@[simp] theorem modTeam_hostRead (s : State) (k : Nat) (f : Team → Team) : (s.modTeam k f).hostRead = s.hostRead := rfl
@[simp] theorem modTeam_bootPending (s : State) (k : Nat) (f : Team → Team) : (s.modTeam k f).bootPending = s.bootPending := rfl
@[simp] theorem modTeam_dies (s : State) (k : Nat) (f : Team → Team) : (s.modTeam k f).dies = s.dies := rfl
@[simp] theorem modTeam_sheets (s : State) (k : Nat) (f : Team → Team) : (s.modTeam k f).sheets = s.sheets := rfl
@[simp] theorem modTeam_queues (s : State) (k : Nat) (f : Team → Team) : (s.modTeam k f).queues = s.queues := rfl
@[simp] theorem modTeam_pool (s : State) (k : Nat) (f : Team → Team) : (s.modTeam k f).pool = s.pool := rfl
@[simp] theorem modTeam_roots (s : State) (k : Nat) (f : Team → Team) : (s.modTeam k f).roots = s.roots := rfl
@[simp] theorem modTeam_ticket (s : State) (k : Nat) (f : Team → Team) : (s.modTeam k f).ticket = s.ticket := rfl
@[simp] theorem modTeam_doneTickets (s : State) (k : Nat) (f : Team → Team) : (s.modTeam k f).doneTickets = s.doneTickets := rfl
@[simp] theorem modTeam_agentTicket (s : State) (k : Nat) (f : Team → Team) : (s.modTeam k f).agentTicket = s.agentTicket := rfl
@[simp] theorem modTeam_invals (s : State) (k : Nat) (f : Team → Team) : (s.modTeam k f).invals = s.invals := rfl
@[simp] theorem modTeam_snapUsed (s : State) (k : Nat) (f : Team → Team) : (s.modTeam k f).snapUsed = s.snapUsed := rfl
@[simp] theorem modTeam_msgs (s : State) (k : Nat) (f : Team → Team) : (s.modTeam k f).msgs = s.msgs := rfl
@[simp] theorem modTeam_puts (s : State) (k : Nat) (f : Team → Team) : (s.modTeam k f).puts = s.puts := rfl
@[simp] theorem modTeam_fab (s : State) (k : Nat) (f : Team → Team) : (s.modTeam k f).fab = s.fab := rfl
@[simp] theorem modTeam_nvme (s : State) (k : Nat) (f : Team → Team) : (s.modTeam k f).nvme = s.nvme := rfl
@[simp] theorem modTeam_files (s : State) (k : Nat) (f : Team → Team) : (s.modTeam k f).files = s.files := rfl
@[simp] theorem modTeam_fds (s : State) (k : Nat) (f : Team → Team) : (s.modTeam k f).fds = s.fds := rfl
@[simp] theorem modTeam_sockets (s : State) (k : Nat) (f : Team → Team) : (s.modTeam k f).sockets = s.sockets := rfl
@[simp] theorem modTeam_buffers (s : State) (k : Nat) (f : Team → Team) : (s.modTeam k f).buffers = s.buffers := rfl
@[simp] theorem modTeam_allocs (s : State) (k : Nat) (f : Team → Team) : (s.modTeam k f).allocs = s.allocs := rfl
@[simp] theorem modTeam_moduleNo (s : State) (k : Nat) (f : Team → Team) : (s.modTeam k f).moduleNo = s.moduleNo := rfl
@[simp] theorem modTeam_time (s : State) (k : Nat) (f : Team → Team) : (s.modTeam k f).time = s.time := rfl
@[simp] theorem modTeam_ran (s : State) (k : Nat) (f : Team → Team) : (s.modTeam k f).ran = s.ran := rfl
@[simp] theorem modTeam_utcBase (s : State) (k : Nat) (f : Team → Team) : (s.modTeam k f).utcBase = s.utcBase := rfl
@[simp] theorem modTeam_utcValid (s : State) (k : Nat) (f : Team → Team) : (s.modTeam k f).utcValid = s.utcValid := rfl
@[simp] theorem modTeam_trust (s : State) (k : Nat) (f : Team → Team) : (s.modTeam k f).trust = s.trust := rfl
@[simp] theorem modTeam_owner (s : State) (k : Nat) (f : Team → Team) : (s.modTeam k f).owner = s.owner := rfl
@[simp] theorem modTeam_fhold (s : State) (k : Nat) (f : Team → Team) : (s.modTeam k f).fhold = s.fhold := rfl
@[simp] theorem modTeam_ckptReg (s : State) (k : Nat) (f : Team → Team) : (s.modTeam k f).ckptReg = s.ckptReg := rfl
@[simp] theorem modTeam_ckpt (s : State) (k : Nat) (f : Team → Team) : (s.modTeam k f).ckpt = s.ckpt := rfl
@[simp] theorem modTeam_ckptStop (s : State) (k : Nat) (f : Team → Team) : (s.modTeam k f).ckptStop = s.ckptStop := rfl
@[simp] theorem modTeam_reserved (s : State) (k : Nat) (f : Team → Team) : (s.modTeam k f).reserved = s.reserved := rfl
@[simp] theorem modTeam_poolFree (s : State) (k : Nat) (f : Team → Team) : (s.modTeam k f).poolFree = s.poolFree := rfl
@[simp] theorem modTeam_poolNext (s : State) (k : Nat) (f : Team → Team) : (s.modTeam k f).poolNext = s.poolNext := rfl
@[simp] theorem modTeam_freeing (s : State) (k : Nat) (f : Team → Team) : (s.modTeam k f).freeing = s.freeing := rfl
@[simp] theorem modTeam_moves (s : State) (k : Nat) (f : Team → Team) : (s.modTeam k f).moves = s.moves := rfl
@[simp] theorem modTeam_balanceAt (s : State) (k : Nat) (f : Team → Team) : (s.modTeam k f).balanceAt = s.balanceAt := rfl
@[simp] theorem modTeam_wearAt (s : State) (k : Nat) (f : Team → Team) : (s.modTeam k f).wearAt = s.wearAt := rfl
@[simp] theorem modTeam_commands (s : State) (k : Nat) (f : Team → Team) : (s.modTeam k f).commands = s.commands := rfl
@[simp] theorem modTeam_thermal (s : State) (k : Nat) (f : Team → Team) : (s.modTeam k f).thermal = s.thermal := rfl
@[simp] theorem modTeam_thermalEvents (s : State) (k : Nat) (f : Team → Team) : (s.modTeam k f).thermalEvents = s.thermalEvents := rfl
@[simp] theorem modTeam_coolant (s : State) (k : Nat) (f : Team → Team) : (s.modTeam k f).coolant = s.coolant := rfl
@[simp] theorem modTeam_undervolt (s : State) (k : Nat) (f : Team → Team) : (s.modTeam k f).undervolt = s.undervolt := rfl
@[simp] theorem modTeam_booted (s : State) (k : Nat) (f : Team → Team) : (s.modTeam k f).booted = s.booted := rfl
@[simp] theorem modTeam_accepting (s : State) (k : Nat) (f : Team → Team) : (s.modTeam k f).accepting = s.accepting := rfl
@[simp] theorem modTeam_closing (s : State) (k : Nat) (f : Team → Team) : (s.modTeam k f).closing = s.closing := rfl
@[simp] theorem modTeam_otpRetired (s : State) (k : Nat) (f : Team → Team) : (s.modTeam k f).otpRetired = s.otpRetired := rfl
@[simp] theorem modTeam_corrected (s : State) (k : Nat) (f : Team → Team) : (s.modTeam k f).corrected = s.corrected := rfl
@[simp] theorem modTeam_channels (s : State) (k : Nat) (f : Team → Team) : (s.modTeam k f).channels = s.channels := rfl
@[simp] theorem modTeam_lcl (s : State) (k : Nat) (f : Team → Team) : (s.modTeam k f).lcl = s.lcl := rfl

/-! ### modSheet -/

@[simp] theorem modSheet_agenda (s : State) (k : Nat) (f : Sheet → Sheet) : (s.modSheet k f).agenda = s.agenda := rfl
@[simp] theorem modSheet_cur (s : State) (k : Nat) (f : Sheet → Sheet) : (s.modSheet k f).cur = s.cur := rfl
@[simp] theorem modSheet_free (s : State) (k : Nat) (f : Sheet → Sheet) : (s.modSheet k f).free = s.free := rfl
@[simp] theorem modSheet_rr (s : State) (k : Nat) (f : Sheet → Sheet) : (s.modSheet k f).rr = s.rr := rfl
@[simp] theorem modSheet_fresh (s : State) (k : Nat) (f : Sheet → Sheet) : (s.modSheet k f).fresh = s.fresh := rfl
@[simp] theorem modSheet_mem (s : State) (k : Nat) (f : Sheet → Sheet) : (s.modSheet k f).mem = s.mem := rfl
@[simp] theorem modSheet_bad (s : State) (k : Nat) (f : Sheet → Sheet) : (s.modSheet k f).bad = s.bad := rfl
@[simp] theorem modSheet_groups (s : State) (k : Nat) (f : Sheet → Sheet) : (s.modSheet k f).groups = s.groups := rfl
@[simp] theorem modSheet_teams (s : State) (k : Nat) (f : Sheet → Sheet) : (s.modSheet k f).teams = s.teams := rfl
@[simp] theorem modSheet_cores (s : State) (k : Nat) (f : Sheet → Sheet) : (s.modSheet k f).cores = s.cores := rfl
@[simp] theorem modSheet_clusters (s : State) (k : Nat) (f : Sheet → Sheet) : (s.modSheet k f).clusters = s.clusters := rfl
@[simp] theorem modSheet_survs (s : State) (k : Nat) (f : Sheet → Sheet) : (s.modSheet k f).survs = s.survs := rfl
@[simp] theorem modSheet_harts (s : State) (k : Nat) (f : Sheet → Sheet) : (s.modSheet k f).harts = s.harts := rfl
@[simp] theorem modSheet_hostResults (s : State) (k : Nat) (f : Sheet → Sheet) : (s.modSheet k f).hostResults = s.hostResults := rfl
@[simp] theorem modSheet_hostRead (s : State) (k : Nat) (f : Sheet → Sheet) : (s.modSheet k f).hostRead = s.hostRead := rfl
@[simp] theorem modSheet_bootPending (s : State) (k : Nat) (f : Sheet → Sheet) : (s.modSheet k f).bootPending = s.bootPending := rfl
@[simp] theorem modSheet_dies (s : State) (k : Nat) (f : Sheet → Sheet) : (s.modSheet k f).dies = s.dies := rfl
@[simp] theorem modSheet_queues (s : State) (k : Nat) (f : Sheet → Sheet) : (s.modSheet k f).queues = s.queues := rfl
@[simp] theorem modSheet_pool (s : State) (k : Nat) (f : Sheet → Sheet) : (s.modSheet k f).pool = s.pool := rfl
@[simp] theorem modSheet_roots (s : State) (k : Nat) (f : Sheet → Sheet) : (s.modSheet k f).roots = s.roots := rfl
@[simp] theorem modSheet_ticket (s : State) (k : Nat) (f : Sheet → Sheet) : (s.modSheet k f).ticket = s.ticket := rfl
@[simp] theorem modSheet_doneTickets (s : State) (k : Nat) (f : Sheet → Sheet) : (s.modSheet k f).doneTickets = s.doneTickets := rfl
@[simp] theorem modSheet_agentTicket (s : State) (k : Nat) (f : Sheet → Sheet) : (s.modSheet k f).agentTicket = s.agentTicket := rfl
@[simp] theorem modSheet_invals (s : State) (k : Nat) (f : Sheet → Sheet) : (s.modSheet k f).invals = s.invals := rfl
@[simp] theorem modSheet_snapUsed (s : State) (k : Nat) (f : Sheet → Sheet) : (s.modSheet k f).snapUsed = s.snapUsed := rfl
@[simp] theorem modSheet_msgs (s : State) (k : Nat) (f : Sheet → Sheet) : (s.modSheet k f).msgs = s.msgs := rfl
@[simp] theorem modSheet_puts (s : State) (k : Nat) (f : Sheet → Sheet) : (s.modSheet k f).puts = s.puts := rfl
@[simp] theorem modSheet_fab (s : State) (k : Nat) (f : Sheet → Sheet) : (s.modSheet k f).fab = s.fab := rfl
@[simp] theorem modSheet_nvme (s : State) (k : Nat) (f : Sheet → Sheet) : (s.modSheet k f).nvme = s.nvme := rfl
@[simp] theorem modSheet_files (s : State) (k : Nat) (f : Sheet → Sheet) : (s.modSheet k f).files = s.files := rfl
@[simp] theorem modSheet_fds (s : State) (k : Nat) (f : Sheet → Sheet) : (s.modSheet k f).fds = s.fds := rfl
@[simp] theorem modSheet_sockets (s : State) (k : Nat) (f : Sheet → Sheet) : (s.modSheet k f).sockets = s.sockets := rfl
@[simp] theorem modSheet_buffers (s : State) (k : Nat) (f : Sheet → Sheet) : (s.modSheet k f).buffers = s.buffers := rfl
@[simp] theorem modSheet_allocs (s : State) (k : Nat) (f : Sheet → Sheet) : (s.modSheet k f).allocs = s.allocs := rfl
@[simp] theorem modSheet_moduleNo (s : State) (k : Nat) (f : Sheet → Sheet) : (s.modSheet k f).moduleNo = s.moduleNo := rfl
@[simp] theorem modSheet_time (s : State) (k : Nat) (f : Sheet → Sheet) : (s.modSheet k f).time = s.time := rfl
@[simp] theorem modSheet_ran (s : State) (k : Nat) (f : Sheet → Sheet) : (s.modSheet k f).ran = s.ran := rfl
@[simp] theorem modSheet_utcBase (s : State) (k : Nat) (f : Sheet → Sheet) : (s.modSheet k f).utcBase = s.utcBase := rfl
@[simp] theorem modSheet_utcValid (s : State) (k : Nat) (f : Sheet → Sheet) : (s.modSheet k f).utcValid = s.utcValid := rfl
@[simp] theorem modSheet_trust (s : State) (k : Nat) (f : Sheet → Sheet) : (s.modSheet k f).trust = s.trust := rfl
@[simp] theorem modSheet_owner (s : State) (k : Nat) (f : Sheet → Sheet) : (s.modSheet k f).owner = s.owner := rfl
@[simp] theorem modSheet_fhold (s : State) (k : Nat) (f : Sheet → Sheet) : (s.modSheet k f).fhold = s.fhold := rfl
@[simp] theorem modSheet_ckptReg (s : State) (k : Nat) (f : Sheet → Sheet) : (s.modSheet k f).ckptReg = s.ckptReg := rfl
@[simp] theorem modSheet_ckpt (s : State) (k : Nat) (f : Sheet → Sheet) : (s.modSheet k f).ckpt = s.ckpt := rfl
@[simp] theorem modSheet_ckptStop (s : State) (k : Nat) (f : Sheet → Sheet) : (s.modSheet k f).ckptStop = s.ckptStop := rfl
@[simp] theorem modSheet_reserved (s : State) (k : Nat) (f : Sheet → Sheet) : (s.modSheet k f).reserved = s.reserved := rfl
@[simp] theorem modSheet_poolFree (s : State) (k : Nat) (f : Sheet → Sheet) : (s.modSheet k f).poolFree = s.poolFree := rfl
@[simp] theorem modSheet_poolNext (s : State) (k : Nat) (f : Sheet → Sheet) : (s.modSheet k f).poolNext = s.poolNext := rfl
@[simp] theorem modSheet_freeing (s : State) (k : Nat) (f : Sheet → Sheet) : (s.modSheet k f).freeing = s.freeing := rfl
@[simp] theorem modSheet_moves (s : State) (k : Nat) (f : Sheet → Sheet) : (s.modSheet k f).moves = s.moves := rfl
@[simp] theorem modSheet_balanceAt (s : State) (k : Nat) (f : Sheet → Sheet) : (s.modSheet k f).balanceAt = s.balanceAt := rfl
@[simp] theorem modSheet_wearAt (s : State) (k : Nat) (f : Sheet → Sheet) : (s.modSheet k f).wearAt = s.wearAt := rfl
@[simp] theorem modSheet_commands (s : State) (k : Nat) (f : Sheet → Sheet) : (s.modSheet k f).commands = s.commands := rfl
@[simp] theorem modSheet_thermal (s : State) (k : Nat) (f : Sheet → Sheet) : (s.modSheet k f).thermal = s.thermal := rfl
@[simp] theorem modSheet_thermalEvents (s : State) (k : Nat) (f : Sheet → Sheet) : (s.modSheet k f).thermalEvents = s.thermalEvents := rfl
@[simp] theorem modSheet_coolant (s : State) (k : Nat) (f : Sheet → Sheet) : (s.modSheet k f).coolant = s.coolant := rfl
@[simp] theorem modSheet_undervolt (s : State) (k : Nat) (f : Sheet → Sheet) : (s.modSheet k f).undervolt = s.undervolt := rfl
@[simp] theorem modSheet_booted (s : State) (k : Nat) (f : Sheet → Sheet) : (s.modSheet k f).booted = s.booted := rfl
@[simp] theorem modSheet_accepting (s : State) (k : Nat) (f : Sheet → Sheet) : (s.modSheet k f).accepting = s.accepting := rfl
@[simp] theorem modSheet_closing (s : State) (k : Nat) (f : Sheet → Sheet) : (s.modSheet k f).closing = s.closing := rfl
@[simp] theorem modSheet_otpRetired (s : State) (k : Nat) (f : Sheet → Sheet) : (s.modSheet k f).otpRetired = s.otpRetired := rfl
@[simp] theorem modSheet_corrected (s : State) (k : Nat) (f : Sheet → Sheet) : (s.modSheet k f).corrected = s.corrected := rfl
@[simp] theorem modSheet_channels (s : State) (k : Nat) (f : Sheet → Sheet) : (s.modSheet k f).channels = s.channels := rfl
@[simp] theorem modSheet_lcl (s : State) (k : Nat) (f : Sheet → Sheet) : (s.modSheet k f).lcl = s.lcl := rfl

/-! ### modQueue -/

@[simp] theorem modQueue_agenda (s : State) (k : Nat) (f : Queue → Queue) : (s.modQueue k f).agenda = s.agenda := rfl
@[simp] theorem modQueue_cur (s : State) (k : Nat) (f : Queue → Queue) : (s.modQueue k f).cur = s.cur := rfl
@[simp] theorem modQueue_free (s : State) (k : Nat) (f : Queue → Queue) : (s.modQueue k f).free = s.free := rfl
@[simp] theorem modQueue_rr (s : State) (k : Nat) (f : Queue → Queue) : (s.modQueue k f).rr = s.rr := rfl
@[simp] theorem modQueue_fresh (s : State) (k : Nat) (f : Queue → Queue) : (s.modQueue k f).fresh = s.fresh := rfl
@[simp] theorem modQueue_mem (s : State) (k : Nat) (f : Queue → Queue) : (s.modQueue k f).mem = s.mem := rfl
@[simp] theorem modQueue_bad (s : State) (k : Nat) (f : Queue → Queue) : (s.modQueue k f).bad = s.bad := rfl
@[simp] theorem modQueue_groups (s : State) (k : Nat) (f : Queue → Queue) : (s.modQueue k f).groups = s.groups := rfl
@[simp] theorem modQueue_teams (s : State) (k : Nat) (f : Queue → Queue) : (s.modQueue k f).teams = s.teams := rfl
@[simp] theorem modQueue_cores (s : State) (k : Nat) (f : Queue → Queue) : (s.modQueue k f).cores = s.cores := rfl
@[simp] theorem modQueue_clusters (s : State) (k : Nat) (f : Queue → Queue) : (s.modQueue k f).clusters = s.clusters := rfl
@[simp] theorem modQueue_survs (s : State) (k : Nat) (f : Queue → Queue) : (s.modQueue k f).survs = s.survs := rfl
@[simp] theorem modQueue_harts (s : State) (k : Nat) (f : Queue → Queue) : (s.modQueue k f).harts = s.harts := rfl
@[simp] theorem modQueue_hostResults (s : State) (k : Nat) (f : Queue → Queue) : (s.modQueue k f).hostResults = s.hostResults := rfl
@[simp] theorem modQueue_hostRead (s : State) (k : Nat) (f : Queue → Queue) : (s.modQueue k f).hostRead = s.hostRead := rfl
@[simp] theorem modQueue_bootPending (s : State) (k : Nat) (f : Queue → Queue) : (s.modQueue k f).bootPending = s.bootPending := rfl
@[simp] theorem modQueue_dies (s : State) (k : Nat) (f : Queue → Queue) : (s.modQueue k f).dies = s.dies := rfl
@[simp] theorem modQueue_sheets (s : State) (k : Nat) (f : Queue → Queue) : (s.modQueue k f).sheets = s.sheets := rfl
@[simp] theorem modQueue_pool (s : State) (k : Nat) (f : Queue → Queue) : (s.modQueue k f).pool = s.pool := rfl
@[simp] theorem modQueue_roots (s : State) (k : Nat) (f : Queue → Queue) : (s.modQueue k f).roots = s.roots := rfl
@[simp] theorem modQueue_ticket (s : State) (k : Nat) (f : Queue → Queue) : (s.modQueue k f).ticket = s.ticket := rfl
@[simp] theorem modQueue_doneTickets (s : State) (k : Nat) (f : Queue → Queue) : (s.modQueue k f).doneTickets = s.doneTickets := rfl
@[simp] theorem modQueue_agentTicket (s : State) (k : Nat) (f : Queue → Queue) : (s.modQueue k f).agentTicket = s.agentTicket := rfl
@[simp] theorem modQueue_invals (s : State) (k : Nat) (f : Queue → Queue) : (s.modQueue k f).invals = s.invals := rfl
@[simp] theorem modQueue_snapUsed (s : State) (k : Nat) (f : Queue → Queue) : (s.modQueue k f).snapUsed = s.snapUsed := rfl
@[simp] theorem modQueue_msgs (s : State) (k : Nat) (f : Queue → Queue) : (s.modQueue k f).msgs = s.msgs := rfl
@[simp] theorem modQueue_puts (s : State) (k : Nat) (f : Queue → Queue) : (s.modQueue k f).puts = s.puts := rfl
@[simp] theorem modQueue_fab (s : State) (k : Nat) (f : Queue → Queue) : (s.modQueue k f).fab = s.fab := rfl
@[simp] theorem modQueue_nvme (s : State) (k : Nat) (f : Queue → Queue) : (s.modQueue k f).nvme = s.nvme := rfl
@[simp] theorem modQueue_files (s : State) (k : Nat) (f : Queue → Queue) : (s.modQueue k f).files = s.files := rfl
@[simp] theorem modQueue_fds (s : State) (k : Nat) (f : Queue → Queue) : (s.modQueue k f).fds = s.fds := rfl
@[simp] theorem modQueue_sockets (s : State) (k : Nat) (f : Queue → Queue) : (s.modQueue k f).sockets = s.sockets := rfl
@[simp] theorem modQueue_buffers (s : State) (k : Nat) (f : Queue → Queue) : (s.modQueue k f).buffers = s.buffers := rfl
@[simp] theorem modQueue_allocs (s : State) (k : Nat) (f : Queue → Queue) : (s.modQueue k f).allocs = s.allocs := rfl
@[simp] theorem modQueue_moduleNo (s : State) (k : Nat) (f : Queue → Queue) : (s.modQueue k f).moduleNo = s.moduleNo := rfl
@[simp] theorem modQueue_time (s : State) (k : Nat) (f : Queue → Queue) : (s.modQueue k f).time = s.time := rfl
@[simp] theorem modQueue_ran (s : State) (k : Nat) (f : Queue → Queue) : (s.modQueue k f).ran = s.ran := rfl
@[simp] theorem modQueue_utcBase (s : State) (k : Nat) (f : Queue → Queue) : (s.modQueue k f).utcBase = s.utcBase := rfl
@[simp] theorem modQueue_utcValid (s : State) (k : Nat) (f : Queue → Queue) : (s.modQueue k f).utcValid = s.utcValid := rfl
@[simp] theorem modQueue_trust (s : State) (k : Nat) (f : Queue → Queue) : (s.modQueue k f).trust = s.trust := rfl
@[simp] theorem modQueue_owner (s : State) (k : Nat) (f : Queue → Queue) : (s.modQueue k f).owner = s.owner := rfl
@[simp] theorem modQueue_fhold (s : State) (k : Nat) (f : Queue → Queue) : (s.modQueue k f).fhold = s.fhold := rfl
@[simp] theorem modQueue_ckptReg (s : State) (k : Nat) (f : Queue → Queue) : (s.modQueue k f).ckptReg = s.ckptReg := rfl
@[simp] theorem modQueue_ckpt (s : State) (k : Nat) (f : Queue → Queue) : (s.modQueue k f).ckpt = s.ckpt := rfl
@[simp] theorem modQueue_ckptStop (s : State) (k : Nat) (f : Queue → Queue) : (s.modQueue k f).ckptStop = s.ckptStop := rfl
@[simp] theorem modQueue_reserved (s : State) (k : Nat) (f : Queue → Queue) : (s.modQueue k f).reserved = s.reserved := rfl
@[simp] theorem modQueue_poolFree (s : State) (k : Nat) (f : Queue → Queue) : (s.modQueue k f).poolFree = s.poolFree := rfl
@[simp] theorem modQueue_poolNext (s : State) (k : Nat) (f : Queue → Queue) : (s.modQueue k f).poolNext = s.poolNext := rfl
@[simp] theorem modQueue_freeing (s : State) (k : Nat) (f : Queue → Queue) : (s.modQueue k f).freeing = s.freeing := rfl
@[simp] theorem modQueue_moves (s : State) (k : Nat) (f : Queue → Queue) : (s.modQueue k f).moves = s.moves := rfl
@[simp] theorem modQueue_balanceAt (s : State) (k : Nat) (f : Queue → Queue) : (s.modQueue k f).balanceAt = s.balanceAt := rfl
@[simp] theorem modQueue_wearAt (s : State) (k : Nat) (f : Queue → Queue) : (s.modQueue k f).wearAt = s.wearAt := rfl
@[simp] theorem modQueue_commands (s : State) (k : Nat) (f : Queue → Queue) : (s.modQueue k f).commands = s.commands := rfl
@[simp] theorem modQueue_thermal (s : State) (k : Nat) (f : Queue → Queue) : (s.modQueue k f).thermal = s.thermal := rfl
@[simp] theorem modQueue_thermalEvents (s : State) (k : Nat) (f : Queue → Queue) : (s.modQueue k f).thermalEvents = s.thermalEvents := rfl
@[simp] theorem modQueue_coolant (s : State) (k : Nat) (f : Queue → Queue) : (s.modQueue k f).coolant = s.coolant := rfl
@[simp] theorem modQueue_undervolt (s : State) (k : Nat) (f : Queue → Queue) : (s.modQueue k f).undervolt = s.undervolt := rfl
@[simp] theorem modQueue_booted (s : State) (k : Nat) (f : Queue → Queue) : (s.modQueue k f).booted = s.booted := rfl
@[simp] theorem modQueue_accepting (s : State) (k : Nat) (f : Queue → Queue) : (s.modQueue k f).accepting = s.accepting := rfl
@[simp] theorem modQueue_closing (s : State) (k : Nat) (f : Queue → Queue) : (s.modQueue k f).closing = s.closing := rfl
@[simp] theorem modQueue_otpRetired (s : State) (k : Nat) (f : Queue → Queue) : (s.modQueue k f).otpRetired = s.otpRetired := rfl
@[simp] theorem modQueue_corrected (s : State) (k : Nat) (f : Queue → Queue) : (s.modQueue k f).corrected = s.corrected := rfl
@[simp] theorem modQueue_channels (s : State) (k : Nat) (f : Queue → Queue) : (s.modQueue k f).channels = s.channels := rfl
@[simp] theorem modQueue_lcl (s : State) (k : Nat) (f : Queue → Queue) : (s.modQueue k f).lcl = s.lcl := rfl

/-! ### modCore -/

@[simp] theorem modCore_agenda (s : State) (k : Nat) (f : Core → Core) : (s.modCore k f).agenda = s.agenda := rfl
@[simp] theorem modCore_cur (s : State) (k : Nat) (f : Core → Core) : (s.modCore k f).cur = s.cur := rfl
@[simp] theorem modCore_free (s : State) (k : Nat) (f : Core → Core) : (s.modCore k f).free = s.free := rfl
@[simp] theorem modCore_rr (s : State) (k : Nat) (f : Core → Core) : (s.modCore k f).rr = s.rr := rfl
@[simp] theorem modCore_fresh (s : State) (k : Nat) (f : Core → Core) : (s.modCore k f).fresh = s.fresh := rfl
@[simp] theorem modCore_mem (s : State) (k : Nat) (f : Core → Core) : (s.modCore k f).mem = s.mem := rfl
@[simp] theorem modCore_bad (s : State) (k : Nat) (f : Core → Core) : (s.modCore k f).bad = s.bad := rfl
@[simp] theorem modCore_groups (s : State) (k : Nat) (f : Core → Core) : (s.modCore k f).groups = s.groups := rfl
@[simp] theorem modCore_teams (s : State) (k : Nat) (f : Core → Core) : (s.modCore k f).teams = s.teams := rfl
@[simp] theorem modCore_clusters (s : State) (k : Nat) (f : Core → Core) : (s.modCore k f).clusters = s.clusters := rfl
@[simp] theorem modCore_survs (s : State) (k : Nat) (f : Core → Core) : (s.modCore k f).survs = s.survs := rfl
@[simp] theorem modCore_harts (s : State) (k : Nat) (f : Core → Core) : (s.modCore k f).harts = s.harts := rfl
@[simp] theorem modCore_hostResults (s : State) (k : Nat) (f : Core → Core) : (s.modCore k f).hostResults = s.hostResults := rfl
@[simp] theorem modCore_hostRead (s : State) (k : Nat) (f : Core → Core) : (s.modCore k f).hostRead = s.hostRead := rfl
@[simp] theorem modCore_bootPending (s : State) (k : Nat) (f : Core → Core) : (s.modCore k f).bootPending = s.bootPending := rfl
@[simp] theorem modCore_dies (s : State) (k : Nat) (f : Core → Core) : (s.modCore k f).dies = s.dies := rfl
@[simp] theorem modCore_sheets (s : State) (k : Nat) (f : Core → Core) : (s.modCore k f).sheets = s.sheets := rfl
@[simp] theorem modCore_queues (s : State) (k : Nat) (f : Core → Core) : (s.modCore k f).queues = s.queues := rfl
@[simp] theorem modCore_pool (s : State) (k : Nat) (f : Core → Core) : (s.modCore k f).pool = s.pool := rfl
@[simp] theorem modCore_roots (s : State) (k : Nat) (f : Core → Core) : (s.modCore k f).roots = s.roots := rfl
@[simp] theorem modCore_ticket (s : State) (k : Nat) (f : Core → Core) : (s.modCore k f).ticket = s.ticket := rfl
@[simp] theorem modCore_doneTickets (s : State) (k : Nat) (f : Core → Core) : (s.modCore k f).doneTickets = s.doneTickets := rfl
@[simp] theorem modCore_agentTicket (s : State) (k : Nat) (f : Core → Core) : (s.modCore k f).agentTicket = s.agentTicket := rfl
@[simp] theorem modCore_invals (s : State) (k : Nat) (f : Core → Core) : (s.modCore k f).invals = s.invals := rfl
@[simp] theorem modCore_snapUsed (s : State) (k : Nat) (f : Core → Core) : (s.modCore k f).snapUsed = s.snapUsed := rfl
@[simp] theorem modCore_msgs (s : State) (k : Nat) (f : Core → Core) : (s.modCore k f).msgs = s.msgs := rfl
@[simp] theorem modCore_puts (s : State) (k : Nat) (f : Core → Core) : (s.modCore k f).puts = s.puts := rfl
@[simp] theorem modCore_fab (s : State) (k : Nat) (f : Core → Core) : (s.modCore k f).fab = s.fab := rfl
@[simp] theorem modCore_nvme (s : State) (k : Nat) (f : Core → Core) : (s.modCore k f).nvme = s.nvme := rfl
@[simp] theorem modCore_files (s : State) (k : Nat) (f : Core → Core) : (s.modCore k f).files = s.files := rfl
@[simp] theorem modCore_fds (s : State) (k : Nat) (f : Core → Core) : (s.modCore k f).fds = s.fds := rfl
@[simp] theorem modCore_sockets (s : State) (k : Nat) (f : Core → Core) : (s.modCore k f).sockets = s.sockets := rfl
@[simp] theorem modCore_buffers (s : State) (k : Nat) (f : Core → Core) : (s.modCore k f).buffers = s.buffers := rfl
@[simp] theorem modCore_allocs (s : State) (k : Nat) (f : Core → Core) : (s.modCore k f).allocs = s.allocs := rfl
@[simp] theorem modCore_moduleNo (s : State) (k : Nat) (f : Core → Core) : (s.modCore k f).moduleNo = s.moduleNo := rfl
@[simp] theorem modCore_time (s : State) (k : Nat) (f : Core → Core) : (s.modCore k f).time = s.time := rfl
@[simp] theorem modCore_ran (s : State) (k : Nat) (f : Core → Core) : (s.modCore k f).ran = s.ran := rfl
@[simp] theorem modCore_utcBase (s : State) (k : Nat) (f : Core → Core) : (s.modCore k f).utcBase = s.utcBase := rfl
@[simp] theorem modCore_utcValid (s : State) (k : Nat) (f : Core → Core) : (s.modCore k f).utcValid = s.utcValid := rfl
@[simp] theorem modCore_trust (s : State) (k : Nat) (f : Core → Core) : (s.modCore k f).trust = s.trust := rfl
@[simp] theorem modCore_owner (s : State) (k : Nat) (f : Core → Core) : (s.modCore k f).owner = s.owner := rfl
@[simp] theorem modCore_fhold (s : State) (k : Nat) (f : Core → Core) : (s.modCore k f).fhold = s.fhold := rfl
@[simp] theorem modCore_ckptReg (s : State) (k : Nat) (f : Core → Core) : (s.modCore k f).ckptReg = s.ckptReg := rfl
@[simp] theorem modCore_ckpt (s : State) (k : Nat) (f : Core → Core) : (s.modCore k f).ckpt = s.ckpt := rfl
@[simp] theorem modCore_ckptStop (s : State) (k : Nat) (f : Core → Core) : (s.modCore k f).ckptStop = s.ckptStop := rfl
@[simp] theorem modCore_reserved (s : State) (k : Nat) (f : Core → Core) : (s.modCore k f).reserved = s.reserved := rfl
@[simp] theorem modCore_poolFree (s : State) (k : Nat) (f : Core → Core) : (s.modCore k f).poolFree = s.poolFree := rfl
@[simp] theorem modCore_poolNext (s : State) (k : Nat) (f : Core → Core) : (s.modCore k f).poolNext = s.poolNext := rfl
@[simp] theorem modCore_freeing (s : State) (k : Nat) (f : Core → Core) : (s.modCore k f).freeing = s.freeing := rfl
@[simp] theorem modCore_moves (s : State) (k : Nat) (f : Core → Core) : (s.modCore k f).moves = s.moves := rfl
@[simp] theorem modCore_balanceAt (s : State) (k : Nat) (f : Core → Core) : (s.modCore k f).balanceAt = s.balanceAt := rfl
@[simp] theorem modCore_wearAt (s : State) (k : Nat) (f : Core → Core) : (s.modCore k f).wearAt = s.wearAt := rfl
@[simp] theorem modCore_commands (s : State) (k : Nat) (f : Core → Core) : (s.modCore k f).commands = s.commands := rfl
@[simp] theorem modCore_thermal (s : State) (k : Nat) (f : Core → Core) : (s.modCore k f).thermal = s.thermal := rfl
@[simp] theorem modCore_thermalEvents (s : State) (k : Nat) (f : Core → Core) : (s.modCore k f).thermalEvents = s.thermalEvents := rfl
@[simp] theorem modCore_coolant (s : State) (k : Nat) (f : Core → Core) : (s.modCore k f).coolant = s.coolant := rfl
@[simp] theorem modCore_undervolt (s : State) (k : Nat) (f : Core → Core) : (s.modCore k f).undervolt = s.undervolt := rfl
@[simp] theorem modCore_booted (s : State) (k : Nat) (f : Core → Core) : (s.modCore k f).booted = s.booted := rfl
@[simp] theorem modCore_accepting (s : State) (k : Nat) (f : Core → Core) : (s.modCore k f).accepting = s.accepting := rfl
@[simp] theorem modCore_closing (s : State) (k : Nat) (f : Core → Core) : (s.modCore k f).closing = s.closing := rfl
@[simp] theorem modCore_otpRetired (s : State) (k : Nat) (f : Core → Core) : (s.modCore k f).otpRetired = s.otpRetired := rfl
@[simp] theorem modCore_corrected (s : State) (k : Nat) (f : Core → Core) : (s.modCore k f).corrected = s.corrected := rfl
@[simp] theorem modCore_channels (s : State) (k : Nat) (f : Core → Core) : (s.modCore k f).channels = s.channels := rfl
@[simp] theorem modCore_lcl (s : State) (k : Nat) (f : Core → Core) : (s.modCore k f).lcl = s.lcl := rfl

/-! ### modCluster -/

@[simp] theorem modCluster_agenda (s : State) (k : Nat) (f : Cluster → Cluster) : (s.modCluster k f).agenda = s.agenda := rfl
@[simp] theorem modCluster_cur (s : State) (k : Nat) (f : Cluster → Cluster) : (s.modCluster k f).cur = s.cur := rfl
@[simp] theorem modCluster_free (s : State) (k : Nat) (f : Cluster → Cluster) : (s.modCluster k f).free = s.free := rfl
@[simp] theorem modCluster_rr (s : State) (k : Nat) (f : Cluster → Cluster) : (s.modCluster k f).rr = s.rr := rfl
@[simp] theorem modCluster_fresh (s : State) (k : Nat) (f : Cluster → Cluster) : (s.modCluster k f).fresh = s.fresh := rfl
@[simp] theorem modCluster_mem (s : State) (k : Nat) (f : Cluster → Cluster) : (s.modCluster k f).mem = s.mem := rfl
@[simp] theorem modCluster_bad (s : State) (k : Nat) (f : Cluster → Cluster) : (s.modCluster k f).bad = s.bad := rfl
@[simp] theorem modCluster_groups (s : State) (k : Nat) (f : Cluster → Cluster) : (s.modCluster k f).groups = s.groups := rfl
@[simp] theorem modCluster_teams (s : State) (k : Nat) (f : Cluster → Cluster) : (s.modCluster k f).teams = s.teams := rfl
@[simp] theorem modCluster_cores (s : State) (k : Nat) (f : Cluster → Cluster) : (s.modCluster k f).cores = s.cores := rfl
@[simp] theorem modCluster_survs (s : State) (k : Nat) (f : Cluster → Cluster) : (s.modCluster k f).survs = s.survs := rfl
@[simp] theorem modCluster_harts (s : State) (k : Nat) (f : Cluster → Cluster) : (s.modCluster k f).harts = s.harts := rfl
@[simp] theorem modCluster_hostResults (s : State) (k : Nat) (f : Cluster → Cluster) : (s.modCluster k f).hostResults = s.hostResults := rfl
@[simp] theorem modCluster_hostRead (s : State) (k : Nat) (f : Cluster → Cluster) : (s.modCluster k f).hostRead = s.hostRead := rfl
@[simp] theorem modCluster_bootPending (s : State) (k : Nat) (f : Cluster → Cluster) : (s.modCluster k f).bootPending = s.bootPending := rfl
@[simp] theorem modCluster_dies (s : State) (k : Nat) (f : Cluster → Cluster) : (s.modCluster k f).dies = s.dies := rfl
@[simp] theorem modCluster_sheets (s : State) (k : Nat) (f : Cluster → Cluster) : (s.modCluster k f).sheets = s.sheets := rfl
@[simp] theorem modCluster_queues (s : State) (k : Nat) (f : Cluster → Cluster) : (s.modCluster k f).queues = s.queues := rfl
@[simp] theorem modCluster_pool (s : State) (k : Nat) (f : Cluster → Cluster) : (s.modCluster k f).pool = s.pool := rfl
@[simp] theorem modCluster_roots (s : State) (k : Nat) (f : Cluster → Cluster) : (s.modCluster k f).roots = s.roots := rfl
@[simp] theorem modCluster_ticket (s : State) (k : Nat) (f : Cluster → Cluster) : (s.modCluster k f).ticket = s.ticket := rfl
@[simp] theorem modCluster_doneTickets (s : State) (k : Nat) (f : Cluster → Cluster) : (s.modCluster k f).doneTickets = s.doneTickets := rfl
@[simp] theorem modCluster_agentTicket (s : State) (k : Nat) (f : Cluster → Cluster) : (s.modCluster k f).agentTicket = s.agentTicket := rfl
@[simp] theorem modCluster_invals (s : State) (k : Nat) (f : Cluster → Cluster) : (s.modCluster k f).invals = s.invals := rfl
@[simp] theorem modCluster_snapUsed (s : State) (k : Nat) (f : Cluster → Cluster) : (s.modCluster k f).snapUsed = s.snapUsed := rfl
@[simp] theorem modCluster_msgs (s : State) (k : Nat) (f : Cluster → Cluster) : (s.modCluster k f).msgs = s.msgs := rfl
@[simp] theorem modCluster_puts (s : State) (k : Nat) (f : Cluster → Cluster) : (s.modCluster k f).puts = s.puts := rfl
@[simp] theorem modCluster_fab (s : State) (k : Nat) (f : Cluster → Cluster) : (s.modCluster k f).fab = s.fab := rfl
@[simp] theorem modCluster_nvme (s : State) (k : Nat) (f : Cluster → Cluster) : (s.modCluster k f).nvme = s.nvme := rfl
@[simp] theorem modCluster_files (s : State) (k : Nat) (f : Cluster → Cluster) : (s.modCluster k f).files = s.files := rfl
@[simp] theorem modCluster_fds (s : State) (k : Nat) (f : Cluster → Cluster) : (s.modCluster k f).fds = s.fds := rfl
@[simp] theorem modCluster_sockets (s : State) (k : Nat) (f : Cluster → Cluster) : (s.modCluster k f).sockets = s.sockets := rfl
@[simp] theorem modCluster_buffers (s : State) (k : Nat) (f : Cluster → Cluster) : (s.modCluster k f).buffers = s.buffers := rfl
@[simp] theorem modCluster_allocs (s : State) (k : Nat) (f : Cluster → Cluster) : (s.modCluster k f).allocs = s.allocs := rfl
@[simp] theorem modCluster_moduleNo (s : State) (k : Nat) (f : Cluster → Cluster) : (s.modCluster k f).moduleNo = s.moduleNo := rfl
@[simp] theorem modCluster_time (s : State) (k : Nat) (f : Cluster → Cluster) : (s.modCluster k f).time = s.time := rfl
@[simp] theorem modCluster_ran (s : State) (k : Nat) (f : Cluster → Cluster) : (s.modCluster k f).ran = s.ran := rfl
@[simp] theorem modCluster_utcBase (s : State) (k : Nat) (f : Cluster → Cluster) : (s.modCluster k f).utcBase = s.utcBase := rfl
@[simp] theorem modCluster_utcValid (s : State) (k : Nat) (f : Cluster → Cluster) : (s.modCluster k f).utcValid = s.utcValid := rfl
@[simp] theorem modCluster_trust (s : State) (k : Nat) (f : Cluster → Cluster) : (s.modCluster k f).trust = s.trust := rfl
@[simp] theorem modCluster_owner (s : State) (k : Nat) (f : Cluster → Cluster) : (s.modCluster k f).owner = s.owner := rfl
@[simp] theorem modCluster_fhold (s : State) (k : Nat) (f : Cluster → Cluster) : (s.modCluster k f).fhold = s.fhold := rfl
@[simp] theorem modCluster_ckptReg (s : State) (k : Nat) (f : Cluster → Cluster) : (s.modCluster k f).ckptReg = s.ckptReg := rfl
@[simp] theorem modCluster_ckpt (s : State) (k : Nat) (f : Cluster → Cluster) : (s.modCluster k f).ckpt = s.ckpt := rfl
@[simp] theorem modCluster_ckptStop (s : State) (k : Nat) (f : Cluster → Cluster) : (s.modCluster k f).ckptStop = s.ckptStop := rfl
@[simp] theorem modCluster_reserved (s : State) (k : Nat) (f : Cluster → Cluster) : (s.modCluster k f).reserved = s.reserved := rfl
@[simp] theorem modCluster_poolFree (s : State) (k : Nat) (f : Cluster → Cluster) : (s.modCluster k f).poolFree = s.poolFree := rfl
@[simp] theorem modCluster_poolNext (s : State) (k : Nat) (f : Cluster → Cluster) : (s.modCluster k f).poolNext = s.poolNext := rfl
@[simp] theorem modCluster_freeing (s : State) (k : Nat) (f : Cluster → Cluster) : (s.modCluster k f).freeing = s.freeing := rfl
@[simp] theorem modCluster_moves (s : State) (k : Nat) (f : Cluster → Cluster) : (s.modCluster k f).moves = s.moves := rfl
@[simp] theorem modCluster_balanceAt (s : State) (k : Nat) (f : Cluster → Cluster) : (s.modCluster k f).balanceAt = s.balanceAt := rfl
@[simp] theorem modCluster_wearAt (s : State) (k : Nat) (f : Cluster → Cluster) : (s.modCluster k f).wearAt = s.wearAt := rfl
@[simp] theorem modCluster_commands (s : State) (k : Nat) (f : Cluster → Cluster) : (s.modCluster k f).commands = s.commands := rfl
@[simp] theorem modCluster_thermal (s : State) (k : Nat) (f : Cluster → Cluster) : (s.modCluster k f).thermal = s.thermal := rfl
@[simp] theorem modCluster_thermalEvents (s : State) (k : Nat) (f : Cluster → Cluster) : (s.modCluster k f).thermalEvents = s.thermalEvents := rfl
@[simp] theorem modCluster_coolant (s : State) (k : Nat) (f : Cluster → Cluster) : (s.modCluster k f).coolant = s.coolant := rfl
@[simp] theorem modCluster_undervolt (s : State) (k : Nat) (f : Cluster → Cluster) : (s.modCluster k f).undervolt = s.undervolt := rfl
@[simp] theorem modCluster_booted (s : State) (k : Nat) (f : Cluster → Cluster) : (s.modCluster k f).booted = s.booted := rfl
@[simp] theorem modCluster_accepting (s : State) (k : Nat) (f : Cluster → Cluster) : (s.modCluster k f).accepting = s.accepting := rfl
@[simp] theorem modCluster_closing (s : State) (k : Nat) (f : Cluster → Cluster) : (s.modCluster k f).closing = s.closing := rfl
@[simp] theorem modCluster_otpRetired (s : State) (k : Nat) (f : Cluster → Cluster) : (s.modCluster k f).otpRetired = s.otpRetired := rfl
@[simp] theorem modCluster_corrected (s : State) (k : Nat) (f : Cluster → Cluster) : (s.modCluster k f).corrected = s.corrected := rfl
@[simp] theorem modCluster_channels (s : State) (k : Nat) (f : Cluster → Cluster) : (s.modCluster k f).channels = s.channels := rfl
@[simp] theorem modCluster_lcl (s : State) (k : Nat) (f : Cluster → Cluster) : (s.modCluster k f).lcl = s.lcl := rfl

/-! ### modSurv -/

@[simp] theorem modSurv_agenda (s : State) (k : Nat) (f : Surveyor → Surveyor) : (s.modSurv k f).agenda = s.agenda := rfl
@[simp] theorem modSurv_cur (s : State) (k : Nat) (f : Surveyor → Surveyor) : (s.modSurv k f).cur = s.cur := rfl
@[simp] theorem modSurv_free (s : State) (k : Nat) (f : Surveyor → Surveyor) : (s.modSurv k f).free = s.free := rfl
@[simp] theorem modSurv_rr (s : State) (k : Nat) (f : Surveyor → Surveyor) : (s.modSurv k f).rr = s.rr := rfl
@[simp] theorem modSurv_fresh (s : State) (k : Nat) (f : Surveyor → Surveyor) : (s.modSurv k f).fresh = s.fresh := rfl
@[simp] theorem modSurv_mem (s : State) (k : Nat) (f : Surveyor → Surveyor) : (s.modSurv k f).mem = s.mem := rfl
@[simp] theorem modSurv_bad (s : State) (k : Nat) (f : Surveyor → Surveyor) : (s.modSurv k f).bad = s.bad := rfl
@[simp] theorem modSurv_groups (s : State) (k : Nat) (f : Surveyor → Surveyor) : (s.modSurv k f).groups = s.groups := rfl
@[simp] theorem modSurv_teams (s : State) (k : Nat) (f : Surveyor → Surveyor) : (s.modSurv k f).teams = s.teams := rfl
@[simp] theorem modSurv_cores (s : State) (k : Nat) (f : Surveyor → Surveyor) : (s.modSurv k f).cores = s.cores := rfl
@[simp] theorem modSurv_clusters (s : State) (k : Nat) (f : Surveyor → Surveyor) : (s.modSurv k f).clusters = s.clusters := rfl
@[simp] theorem modSurv_harts (s : State) (k : Nat) (f : Surveyor → Surveyor) : (s.modSurv k f).harts = s.harts := rfl
@[simp] theorem modSurv_hostResults (s : State) (k : Nat) (f : Surveyor → Surveyor) : (s.modSurv k f).hostResults = s.hostResults := rfl
@[simp] theorem modSurv_hostRead (s : State) (k : Nat) (f : Surveyor → Surveyor) : (s.modSurv k f).hostRead = s.hostRead := rfl
@[simp] theorem modSurv_bootPending (s : State) (k : Nat) (f : Surveyor → Surveyor) : (s.modSurv k f).bootPending = s.bootPending := rfl
@[simp] theorem modSurv_dies (s : State) (k : Nat) (f : Surveyor → Surveyor) : (s.modSurv k f).dies = s.dies := rfl
@[simp] theorem modSurv_sheets (s : State) (k : Nat) (f : Surveyor → Surveyor) : (s.modSurv k f).sheets = s.sheets := rfl
@[simp] theorem modSurv_queues (s : State) (k : Nat) (f : Surveyor → Surveyor) : (s.modSurv k f).queues = s.queues := rfl
@[simp] theorem modSurv_pool (s : State) (k : Nat) (f : Surveyor → Surveyor) : (s.modSurv k f).pool = s.pool := rfl
@[simp] theorem modSurv_roots (s : State) (k : Nat) (f : Surveyor → Surveyor) : (s.modSurv k f).roots = s.roots := rfl
@[simp] theorem modSurv_ticket (s : State) (k : Nat) (f : Surveyor → Surveyor) : (s.modSurv k f).ticket = s.ticket := rfl
@[simp] theorem modSurv_doneTickets (s : State) (k : Nat) (f : Surveyor → Surveyor) : (s.modSurv k f).doneTickets = s.doneTickets := rfl
@[simp] theorem modSurv_agentTicket (s : State) (k : Nat) (f : Surveyor → Surveyor) : (s.modSurv k f).agentTicket = s.agentTicket := rfl
@[simp] theorem modSurv_invals (s : State) (k : Nat) (f : Surveyor → Surveyor) : (s.modSurv k f).invals = s.invals := rfl
@[simp] theorem modSurv_snapUsed (s : State) (k : Nat) (f : Surveyor → Surveyor) : (s.modSurv k f).snapUsed = s.snapUsed := rfl
@[simp] theorem modSurv_msgs (s : State) (k : Nat) (f : Surveyor → Surveyor) : (s.modSurv k f).msgs = s.msgs := rfl
@[simp] theorem modSurv_puts (s : State) (k : Nat) (f : Surveyor → Surveyor) : (s.modSurv k f).puts = s.puts := rfl
@[simp] theorem modSurv_fab (s : State) (k : Nat) (f : Surveyor → Surveyor) : (s.modSurv k f).fab = s.fab := rfl
@[simp] theorem modSurv_nvme (s : State) (k : Nat) (f : Surveyor → Surveyor) : (s.modSurv k f).nvme = s.nvme := rfl
@[simp] theorem modSurv_files (s : State) (k : Nat) (f : Surveyor → Surveyor) : (s.modSurv k f).files = s.files := rfl
@[simp] theorem modSurv_fds (s : State) (k : Nat) (f : Surveyor → Surveyor) : (s.modSurv k f).fds = s.fds := rfl
@[simp] theorem modSurv_sockets (s : State) (k : Nat) (f : Surveyor → Surveyor) : (s.modSurv k f).sockets = s.sockets := rfl
@[simp] theorem modSurv_buffers (s : State) (k : Nat) (f : Surveyor → Surveyor) : (s.modSurv k f).buffers = s.buffers := rfl
@[simp] theorem modSurv_allocs (s : State) (k : Nat) (f : Surveyor → Surveyor) : (s.modSurv k f).allocs = s.allocs := rfl
@[simp] theorem modSurv_moduleNo (s : State) (k : Nat) (f : Surveyor → Surveyor) : (s.modSurv k f).moduleNo = s.moduleNo := rfl
@[simp] theorem modSurv_time (s : State) (k : Nat) (f : Surveyor → Surveyor) : (s.modSurv k f).time = s.time := rfl
@[simp] theorem modSurv_ran (s : State) (k : Nat) (f : Surveyor → Surveyor) : (s.modSurv k f).ran = s.ran := rfl
@[simp] theorem modSurv_utcBase (s : State) (k : Nat) (f : Surveyor → Surveyor) : (s.modSurv k f).utcBase = s.utcBase := rfl
@[simp] theorem modSurv_utcValid (s : State) (k : Nat) (f : Surveyor → Surveyor) : (s.modSurv k f).utcValid = s.utcValid := rfl
@[simp] theorem modSurv_trust (s : State) (k : Nat) (f : Surveyor → Surveyor) : (s.modSurv k f).trust = s.trust := rfl
@[simp] theorem modSurv_owner (s : State) (k : Nat) (f : Surveyor → Surveyor) : (s.modSurv k f).owner = s.owner := rfl
@[simp] theorem modSurv_fhold (s : State) (k : Nat) (f : Surveyor → Surveyor) : (s.modSurv k f).fhold = s.fhold := rfl
@[simp] theorem modSurv_ckptReg (s : State) (k : Nat) (f : Surveyor → Surveyor) : (s.modSurv k f).ckptReg = s.ckptReg := rfl
@[simp] theorem modSurv_ckpt (s : State) (k : Nat) (f : Surveyor → Surveyor) : (s.modSurv k f).ckpt = s.ckpt := rfl
@[simp] theorem modSurv_ckptStop (s : State) (k : Nat) (f : Surveyor → Surveyor) : (s.modSurv k f).ckptStop = s.ckptStop := rfl
@[simp] theorem modSurv_reserved (s : State) (k : Nat) (f : Surveyor → Surveyor) : (s.modSurv k f).reserved = s.reserved := rfl
@[simp] theorem modSurv_poolFree (s : State) (k : Nat) (f : Surveyor → Surveyor) : (s.modSurv k f).poolFree = s.poolFree := rfl
@[simp] theorem modSurv_poolNext (s : State) (k : Nat) (f : Surveyor → Surveyor) : (s.modSurv k f).poolNext = s.poolNext := rfl
@[simp] theorem modSurv_freeing (s : State) (k : Nat) (f : Surveyor → Surveyor) : (s.modSurv k f).freeing = s.freeing := rfl
@[simp] theorem modSurv_moves (s : State) (k : Nat) (f : Surveyor → Surveyor) : (s.modSurv k f).moves = s.moves := rfl
@[simp] theorem modSurv_balanceAt (s : State) (k : Nat) (f : Surveyor → Surveyor) : (s.modSurv k f).balanceAt = s.balanceAt := rfl
@[simp] theorem modSurv_wearAt (s : State) (k : Nat) (f : Surveyor → Surveyor) : (s.modSurv k f).wearAt = s.wearAt := rfl
@[simp] theorem modSurv_commands (s : State) (k : Nat) (f : Surveyor → Surveyor) : (s.modSurv k f).commands = s.commands := rfl
@[simp] theorem modSurv_thermal (s : State) (k : Nat) (f : Surveyor → Surveyor) : (s.modSurv k f).thermal = s.thermal := rfl
@[simp] theorem modSurv_thermalEvents (s : State) (k : Nat) (f : Surveyor → Surveyor) : (s.modSurv k f).thermalEvents = s.thermalEvents := rfl
@[simp] theorem modSurv_coolant (s : State) (k : Nat) (f : Surveyor → Surveyor) : (s.modSurv k f).coolant = s.coolant := rfl
@[simp] theorem modSurv_undervolt (s : State) (k : Nat) (f : Surveyor → Surveyor) : (s.modSurv k f).undervolt = s.undervolt := rfl
@[simp] theorem modSurv_booted (s : State) (k : Nat) (f : Surveyor → Surveyor) : (s.modSurv k f).booted = s.booted := rfl
@[simp] theorem modSurv_accepting (s : State) (k : Nat) (f : Surveyor → Surveyor) : (s.modSurv k f).accepting = s.accepting := rfl
@[simp] theorem modSurv_closing (s : State) (k : Nat) (f : Surveyor → Surveyor) : (s.modSurv k f).closing = s.closing := rfl
@[simp] theorem modSurv_otpRetired (s : State) (k : Nat) (f : Surveyor → Surveyor) : (s.modSurv k f).otpRetired = s.otpRetired := rfl
@[simp] theorem modSurv_corrected (s : State) (k : Nat) (f : Surveyor → Surveyor) : (s.modSurv k f).corrected = s.corrected := rfl
@[simp] theorem modSurv_channels (s : State) (k : Nat) (f : Surveyor → Surveyor) : (s.modSurv k f).channels = s.channels := rfl
@[simp] theorem modSurv_lcl (s : State) (k : Nat) (f : Surveyor → Surveyor) : (s.modSurv k f).lcl = s.lcl := rfl

/-! ### modDie -/

@[simp] theorem modDie_agenda (s : State) (k : Nat) (f : Die → Die) : (s.modDie k f).agenda = s.agenda := rfl
@[simp] theorem modDie_cur (s : State) (k : Nat) (f : Die → Die) : (s.modDie k f).cur = s.cur := rfl
@[simp] theorem modDie_free (s : State) (k : Nat) (f : Die → Die) : (s.modDie k f).free = s.free := rfl
@[simp] theorem modDie_rr (s : State) (k : Nat) (f : Die → Die) : (s.modDie k f).rr = s.rr := rfl
@[simp] theorem modDie_fresh (s : State) (k : Nat) (f : Die → Die) : (s.modDie k f).fresh = s.fresh := rfl
@[simp] theorem modDie_mem (s : State) (k : Nat) (f : Die → Die) : (s.modDie k f).mem = s.mem := rfl
@[simp] theorem modDie_bad (s : State) (k : Nat) (f : Die → Die) : (s.modDie k f).bad = s.bad := rfl
@[simp] theorem modDie_groups (s : State) (k : Nat) (f : Die → Die) : (s.modDie k f).groups = s.groups := rfl
@[simp] theorem modDie_teams (s : State) (k : Nat) (f : Die → Die) : (s.modDie k f).teams = s.teams := rfl
@[simp] theorem modDie_cores (s : State) (k : Nat) (f : Die → Die) : (s.modDie k f).cores = s.cores := rfl
@[simp] theorem modDie_clusters (s : State) (k : Nat) (f : Die → Die) : (s.modDie k f).clusters = s.clusters := rfl
@[simp] theorem modDie_survs (s : State) (k : Nat) (f : Die → Die) : (s.modDie k f).survs = s.survs := rfl
@[simp] theorem modDie_harts (s : State) (k : Nat) (f : Die → Die) : (s.modDie k f).harts = s.harts := rfl
@[simp] theorem modDie_hostResults (s : State) (k : Nat) (f : Die → Die) : (s.modDie k f).hostResults = s.hostResults := rfl
@[simp] theorem modDie_hostRead (s : State) (k : Nat) (f : Die → Die) : (s.modDie k f).hostRead = s.hostRead := rfl
@[simp] theorem modDie_bootPending (s : State) (k : Nat) (f : Die → Die) : (s.modDie k f).bootPending = s.bootPending := rfl
@[simp] theorem modDie_sheets (s : State) (k : Nat) (f : Die → Die) : (s.modDie k f).sheets = s.sheets := rfl
@[simp] theorem modDie_queues (s : State) (k : Nat) (f : Die → Die) : (s.modDie k f).queues = s.queues := rfl
@[simp] theorem modDie_pool (s : State) (k : Nat) (f : Die → Die) : (s.modDie k f).pool = s.pool := rfl
@[simp] theorem modDie_roots (s : State) (k : Nat) (f : Die → Die) : (s.modDie k f).roots = s.roots := rfl
@[simp] theorem modDie_ticket (s : State) (k : Nat) (f : Die → Die) : (s.modDie k f).ticket = s.ticket := rfl
@[simp] theorem modDie_doneTickets (s : State) (k : Nat) (f : Die → Die) : (s.modDie k f).doneTickets = s.doneTickets := rfl
@[simp] theorem modDie_agentTicket (s : State) (k : Nat) (f : Die → Die) : (s.modDie k f).agentTicket = s.agentTicket := rfl
@[simp] theorem modDie_invals (s : State) (k : Nat) (f : Die → Die) : (s.modDie k f).invals = s.invals := rfl
@[simp] theorem modDie_snapUsed (s : State) (k : Nat) (f : Die → Die) : (s.modDie k f).snapUsed = s.snapUsed := rfl
@[simp] theorem modDie_msgs (s : State) (k : Nat) (f : Die → Die) : (s.modDie k f).msgs = s.msgs := rfl
@[simp] theorem modDie_puts (s : State) (k : Nat) (f : Die → Die) : (s.modDie k f).puts = s.puts := rfl
@[simp] theorem modDie_fab (s : State) (k : Nat) (f : Die → Die) : (s.modDie k f).fab = s.fab := rfl
@[simp] theorem modDie_nvme (s : State) (k : Nat) (f : Die → Die) : (s.modDie k f).nvme = s.nvme := rfl
@[simp] theorem modDie_files (s : State) (k : Nat) (f : Die → Die) : (s.modDie k f).files = s.files := rfl
@[simp] theorem modDie_fds (s : State) (k : Nat) (f : Die → Die) : (s.modDie k f).fds = s.fds := rfl
@[simp] theorem modDie_sockets (s : State) (k : Nat) (f : Die → Die) : (s.modDie k f).sockets = s.sockets := rfl
@[simp] theorem modDie_buffers (s : State) (k : Nat) (f : Die → Die) : (s.modDie k f).buffers = s.buffers := rfl
@[simp] theorem modDie_allocs (s : State) (k : Nat) (f : Die → Die) : (s.modDie k f).allocs = s.allocs := rfl
@[simp] theorem modDie_moduleNo (s : State) (k : Nat) (f : Die → Die) : (s.modDie k f).moduleNo = s.moduleNo := rfl
@[simp] theorem modDie_time (s : State) (k : Nat) (f : Die → Die) : (s.modDie k f).time = s.time := rfl
@[simp] theorem modDie_ran (s : State) (k : Nat) (f : Die → Die) : (s.modDie k f).ran = s.ran := rfl
@[simp] theorem modDie_utcBase (s : State) (k : Nat) (f : Die → Die) : (s.modDie k f).utcBase = s.utcBase := rfl
@[simp] theorem modDie_utcValid (s : State) (k : Nat) (f : Die → Die) : (s.modDie k f).utcValid = s.utcValid := rfl
@[simp] theorem modDie_trust (s : State) (k : Nat) (f : Die → Die) : (s.modDie k f).trust = s.trust := rfl
@[simp] theorem modDie_owner (s : State) (k : Nat) (f : Die → Die) : (s.modDie k f).owner = s.owner := rfl
@[simp] theorem modDie_fhold (s : State) (k : Nat) (f : Die → Die) : (s.modDie k f).fhold = s.fhold := rfl
@[simp] theorem modDie_ckptReg (s : State) (k : Nat) (f : Die → Die) : (s.modDie k f).ckptReg = s.ckptReg := rfl
@[simp] theorem modDie_ckpt (s : State) (k : Nat) (f : Die → Die) : (s.modDie k f).ckpt = s.ckpt := rfl
@[simp] theorem modDie_ckptStop (s : State) (k : Nat) (f : Die → Die) : (s.modDie k f).ckptStop = s.ckptStop := rfl
@[simp] theorem modDie_reserved (s : State) (k : Nat) (f : Die → Die) : (s.modDie k f).reserved = s.reserved := rfl
@[simp] theorem modDie_poolFree (s : State) (k : Nat) (f : Die → Die) : (s.modDie k f).poolFree = s.poolFree := rfl
@[simp] theorem modDie_poolNext (s : State) (k : Nat) (f : Die → Die) : (s.modDie k f).poolNext = s.poolNext := rfl
@[simp] theorem modDie_freeing (s : State) (k : Nat) (f : Die → Die) : (s.modDie k f).freeing = s.freeing := rfl
@[simp] theorem modDie_moves (s : State) (k : Nat) (f : Die → Die) : (s.modDie k f).moves = s.moves := rfl
@[simp] theorem modDie_balanceAt (s : State) (k : Nat) (f : Die → Die) : (s.modDie k f).balanceAt = s.balanceAt := rfl
@[simp] theorem modDie_wearAt (s : State) (k : Nat) (f : Die → Die) : (s.modDie k f).wearAt = s.wearAt := rfl
@[simp] theorem modDie_commands (s : State) (k : Nat) (f : Die → Die) : (s.modDie k f).commands = s.commands := rfl
@[simp] theorem modDie_thermal (s : State) (k : Nat) (f : Die → Die) : (s.modDie k f).thermal = s.thermal := rfl
@[simp] theorem modDie_thermalEvents (s : State) (k : Nat) (f : Die → Die) : (s.modDie k f).thermalEvents = s.thermalEvents := rfl
@[simp] theorem modDie_coolant (s : State) (k : Nat) (f : Die → Die) : (s.modDie k f).coolant = s.coolant := rfl
@[simp] theorem modDie_undervolt (s : State) (k : Nat) (f : Die → Die) : (s.modDie k f).undervolt = s.undervolt := rfl
@[simp] theorem modDie_booted (s : State) (k : Nat) (f : Die → Die) : (s.modDie k f).booted = s.booted := rfl
@[simp] theorem modDie_accepting (s : State) (k : Nat) (f : Die → Die) : (s.modDie k f).accepting = s.accepting := rfl
@[simp] theorem modDie_closing (s : State) (k : Nat) (f : Die → Die) : (s.modDie k f).closing = s.closing := rfl
@[simp] theorem modDie_otpRetired (s : State) (k : Nat) (f : Die → Die) : (s.modDie k f).otpRetired = s.otpRetired := rfl
@[simp] theorem modDie_corrected (s : State) (k : Nat) (f : Die → Die) : (s.modDie k f).corrected = s.corrected := rfl
@[simp] theorem modDie_channels (s : State) (k : Nat) (f : Die → Die) : (s.modDie k f).channels = s.channels := rfl
@[simp] theorem modDie_lcl (s : State) (k : Nat) (f : Die → Die) : (s.modDie k f).lcl = s.lcl := rfl

/-! ### modHart -/

@[simp] theorem modHart_agenda (s : State) (k : Nat) (f : Hart → Hart) : (s.modHart k f).agenda = s.agenda := rfl
@[simp] theorem modHart_cur (s : State) (k : Nat) (f : Hart → Hart) : (s.modHart k f).cur = s.cur := rfl
@[simp] theorem modHart_free (s : State) (k : Nat) (f : Hart → Hart) : (s.modHart k f).free = s.free := rfl
@[simp] theorem modHart_rr (s : State) (k : Nat) (f : Hart → Hart) : (s.modHart k f).rr = s.rr := rfl
@[simp] theorem modHart_fresh (s : State) (k : Nat) (f : Hart → Hart) : (s.modHart k f).fresh = s.fresh := rfl
@[simp] theorem modHart_mem (s : State) (k : Nat) (f : Hart → Hart) : (s.modHart k f).mem = s.mem := rfl
@[simp] theorem modHart_bad (s : State) (k : Nat) (f : Hart → Hart) : (s.modHart k f).bad = s.bad := rfl
@[simp] theorem modHart_groups (s : State) (k : Nat) (f : Hart → Hart) : (s.modHart k f).groups = s.groups := rfl
@[simp] theorem modHart_teams (s : State) (k : Nat) (f : Hart → Hart) : (s.modHart k f).teams = s.teams := rfl
@[simp] theorem modHart_cores (s : State) (k : Nat) (f : Hart → Hart) : (s.modHart k f).cores = s.cores := rfl
@[simp] theorem modHart_clusters (s : State) (k : Nat) (f : Hart → Hart) : (s.modHart k f).clusters = s.clusters := rfl
@[simp] theorem modHart_survs (s : State) (k : Nat) (f : Hart → Hart) : (s.modHart k f).survs = s.survs := rfl
@[simp] theorem modHart_hostResults (s : State) (k : Nat) (f : Hart → Hart) : (s.modHart k f).hostResults = s.hostResults := rfl
@[simp] theorem modHart_hostRead (s : State) (k : Nat) (f : Hart → Hart) : (s.modHart k f).hostRead = s.hostRead := rfl
@[simp] theorem modHart_bootPending (s : State) (k : Nat) (f : Hart → Hart) : (s.modHart k f).bootPending = s.bootPending := rfl
@[simp] theorem modHart_dies (s : State) (k : Nat) (f : Hart → Hart) : (s.modHart k f).dies = s.dies := rfl
@[simp] theorem modHart_sheets (s : State) (k : Nat) (f : Hart → Hart) : (s.modHart k f).sheets = s.sheets := rfl
@[simp] theorem modHart_queues (s : State) (k : Nat) (f : Hart → Hart) : (s.modHart k f).queues = s.queues := rfl
@[simp] theorem modHart_pool (s : State) (k : Nat) (f : Hart → Hart) : (s.modHart k f).pool = s.pool := rfl
@[simp] theorem modHart_roots (s : State) (k : Nat) (f : Hart → Hart) : (s.modHart k f).roots = s.roots := rfl
@[simp] theorem modHart_ticket (s : State) (k : Nat) (f : Hart → Hart) : (s.modHart k f).ticket = s.ticket := rfl
@[simp] theorem modHart_doneTickets (s : State) (k : Nat) (f : Hart → Hart) : (s.modHart k f).doneTickets = s.doneTickets := rfl
@[simp] theorem modHart_agentTicket (s : State) (k : Nat) (f : Hart → Hart) : (s.modHart k f).agentTicket = s.agentTicket := rfl
@[simp] theorem modHart_invals (s : State) (k : Nat) (f : Hart → Hart) : (s.modHart k f).invals = s.invals := rfl
@[simp] theorem modHart_snapUsed (s : State) (k : Nat) (f : Hart → Hart) : (s.modHart k f).snapUsed = s.snapUsed := rfl
@[simp] theorem modHart_msgs (s : State) (k : Nat) (f : Hart → Hart) : (s.modHart k f).msgs = s.msgs := rfl
@[simp] theorem modHart_puts (s : State) (k : Nat) (f : Hart → Hart) : (s.modHart k f).puts = s.puts := rfl
@[simp] theorem modHart_fab (s : State) (k : Nat) (f : Hart → Hart) : (s.modHart k f).fab = s.fab := rfl
@[simp] theorem modHart_nvme (s : State) (k : Nat) (f : Hart → Hart) : (s.modHart k f).nvme = s.nvme := rfl
@[simp] theorem modHart_files (s : State) (k : Nat) (f : Hart → Hart) : (s.modHart k f).files = s.files := rfl
@[simp] theorem modHart_fds (s : State) (k : Nat) (f : Hart → Hart) : (s.modHart k f).fds = s.fds := rfl
@[simp] theorem modHart_sockets (s : State) (k : Nat) (f : Hart → Hart) : (s.modHart k f).sockets = s.sockets := rfl
@[simp] theorem modHart_buffers (s : State) (k : Nat) (f : Hart → Hart) : (s.modHart k f).buffers = s.buffers := rfl
@[simp] theorem modHart_allocs (s : State) (k : Nat) (f : Hart → Hart) : (s.modHart k f).allocs = s.allocs := rfl
@[simp] theorem modHart_moduleNo (s : State) (k : Nat) (f : Hart → Hart) : (s.modHart k f).moduleNo = s.moduleNo := rfl
@[simp] theorem modHart_time (s : State) (k : Nat) (f : Hart → Hart) : (s.modHart k f).time = s.time := rfl
@[simp] theorem modHart_ran (s : State) (k : Nat) (f : Hart → Hart) : (s.modHart k f).ran = s.ran := rfl
@[simp] theorem modHart_utcBase (s : State) (k : Nat) (f : Hart → Hart) : (s.modHart k f).utcBase = s.utcBase := rfl
@[simp] theorem modHart_utcValid (s : State) (k : Nat) (f : Hart → Hart) : (s.modHart k f).utcValid = s.utcValid := rfl
@[simp] theorem modHart_trust (s : State) (k : Nat) (f : Hart → Hart) : (s.modHart k f).trust = s.trust := rfl
@[simp] theorem modHart_owner (s : State) (k : Nat) (f : Hart → Hart) : (s.modHart k f).owner = s.owner := rfl
@[simp] theorem modHart_fhold (s : State) (k : Nat) (f : Hart → Hart) : (s.modHart k f).fhold = s.fhold := rfl
@[simp] theorem modHart_ckptReg (s : State) (k : Nat) (f : Hart → Hart) : (s.modHart k f).ckptReg = s.ckptReg := rfl
@[simp] theorem modHart_ckpt (s : State) (k : Nat) (f : Hart → Hart) : (s.modHart k f).ckpt = s.ckpt := rfl
@[simp] theorem modHart_ckptStop (s : State) (k : Nat) (f : Hart → Hart) : (s.modHart k f).ckptStop = s.ckptStop := rfl
@[simp] theorem modHart_reserved (s : State) (k : Nat) (f : Hart → Hart) : (s.modHart k f).reserved = s.reserved := rfl
@[simp] theorem modHart_poolFree (s : State) (k : Nat) (f : Hart → Hart) : (s.modHart k f).poolFree = s.poolFree := rfl
@[simp] theorem modHart_poolNext (s : State) (k : Nat) (f : Hart → Hart) : (s.modHart k f).poolNext = s.poolNext := rfl
@[simp] theorem modHart_freeing (s : State) (k : Nat) (f : Hart → Hart) : (s.modHart k f).freeing = s.freeing := rfl
@[simp] theorem modHart_moves (s : State) (k : Nat) (f : Hart → Hart) : (s.modHart k f).moves = s.moves := rfl
@[simp] theorem modHart_balanceAt (s : State) (k : Nat) (f : Hart → Hart) : (s.modHart k f).balanceAt = s.balanceAt := rfl
@[simp] theorem modHart_wearAt (s : State) (k : Nat) (f : Hart → Hart) : (s.modHart k f).wearAt = s.wearAt := rfl
@[simp] theorem modHart_commands (s : State) (k : Nat) (f : Hart → Hart) : (s.modHart k f).commands = s.commands := rfl
@[simp] theorem modHart_thermal (s : State) (k : Nat) (f : Hart → Hart) : (s.modHart k f).thermal = s.thermal := rfl
@[simp] theorem modHart_thermalEvents (s : State) (k : Nat) (f : Hart → Hart) : (s.modHart k f).thermalEvents = s.thermalEvents := rfl
@[simp] theorem modHart_coolant (s : State) (k : Nat) (f : Hart → Hart) : (s.modHart k f).coolant = s.coolant := rfl
@[simp] theorem modHart_undervolt (s : State) (k : Nat) (f : Hart → Hart) : (s.modHart k f).undervolt = s.undervolt := rfl
@[simp] theorem modHart_booted (s : State) (k : Nat) (f : Hart → Hart) : (s.modHart k f).booted = s.booted := rfl
@[simp] theorem modHart_accepting (s : State) (k : Nat) (f : Hart → Hart) : (s.modHart k f).accepting = s.accepting := rfl
@[simp] theorem modHart_closing (s : State) (k : Nat) (f : Hart → Hart) : (s.modHart k f).closing = s.closing := rfl
@[simp] theorem modHart_otpRetired (s : State) (k : Nat) (f : Hart → Hart) : (s.modHart k f).otpRetired = s.otpRetired := rfl
@[simp] theorem modHart_corrected (s : State) (k : Nat) (f : Hart → Hart) : (s.modHart k f).corrected = s.corrected := rfl
@[simp] theorem modHart_channels (s : State) (k : Nat) (f : Hart → Hart) : (s.modHart k f).channels = s.channels := rfl
@[simp] theorem modHart_lcl (s : State) (k : Nat) (f : Hart → Hart) : (s.modHart k f).lcl = s.lcl := rfl

/-! ### Group.setV -/

@[simp] theorem setV_id (g : Group) (n : Nat) (m : Mask) (vs : List Word) : (g.setV n m vs).id = g.id := rfl
@[simp] theorem setV_sheet (g : Group) (n : Nat) (m : Mask) (vs : List Word) : (g.setV n m vs).sheet = g.sheet := rfl
@[simp] theorem setV_team (g : Group) (n : Nat) (m : Mask) (vs : List Word) : (g.setV n m vs).team = g.team := rfl
@[simp] theorem setV_idx (g : Group) (n : Nat) (m : Mask) (vs : List Word) : (g.setV n m vs).idx = g.idx := rfl
@[simp] theorem setV_asn (g : Group) (n : Nat) (m : Mask) (vs : List Word) : (g.setV n m vs).asn = g.asn := rfl
@[simp] theorem setV_sheetid (g : Group) (n : Nat) (m : Mask) (vs : List Word) : (g.setV n m vs).sheetid = g.sheetid := rfl
@[simp] theorem setV_teamid (g : Group) (n : Nat) (m : Mask) (vs : List Word) : (g.setV n m vs).teamid = g.teamid := rfl
@[simp] theorem setV_tsize (g : Group) (n : Nat) (m : Mask) (vs : List Word) : (g.setV n m vs).tsize = g.tsize := rfl
@[simp] theorem setV_width (g : Group) (n : Nat) (m : Mask) (vs : List Word) : (g.setV n m vs).width = g.width := rfl
@[simp] theorem setV_vcount (g : Group) (n : Nat) (m : Mask) (vs : List Word) : (g.setV n m vs).vcount = g.vcount := rfl
@[simp] theorem setV_scount (g : Group) (n : Nat) (m : Mask) (vs : List Word) : (g.setV n m vs).scount = g.scount := rfl
@[simp] theorem setV_waypt (g : Group) (n : Nat) (m : Mask) (vs : List Word) : (g.setV n m vs).waypt = g.waypt := rfl
@[simp] theorem setV_matrix (g : Group) (n : Nat) (m : Mask) (vs : List Word) : (g.setV n m vs).matrix = g.matrix := rfl
@[simp] theorem setV_core (g : Group) (n : Nat) (m : Mask) (vs : List Word) : (g.setV n m vs).core = g.core := rfl
@[simp] theorem setV_ctx (g : Group) (n : Nat) (m : Mask) (vs : List Word) : (g.setV n m vs).ctx = g.ctx := rfl
@[simp] theorem setV_frame (g : Group) (n : Nat) (m : Mask) (vs : List Word) : (g.setV n m vs).frame = g.frame := rfl
@[simp] theorem setV_st (g : Group) (n : Nat) (m : Mask) (vs : List Word) : (g.setV n m vs).st = g.st := rfl
@[simp] theorem setV_frameHeld (g : Group) (n : Nat) (m : Mask) (vs : List Word) : (g.setV n m vs).frameHeld = g.frameHeld := rfl
@[simp] theorem setV_stepping (g : Group) (n : Nat) (m : Mask) (vs : List Word) : (g.setV n m vs).stepping = g.stepping := rfl
@[simp] theorem setV_resumeReq (g : Group) (n : Nat) (m : Mask) (vs : List Word) : (g.setV n m vs).resumeReq = g.resumeReq := rfl
@[simp] theorem setV_recDone (g : Group) (n : Nat) (m : Mask) (vs : List Word) : (g.setV n m vs).recDone = g.recDone := rfl
@[simp] theorem setV_parkedAt (g : Group) (n : Nat) (m : Mask) (vs : List Word) : (g.setV n m vs).parkedAt = g.parkedAt := rfl
@[simp] theorem setV_issueSince (g : Group) (n : Nat) (m : Mask) (vs : List Word) : (g.setV n m vs).issueSince = g.issueSince := rfl
@[simp] theorem setV_sregs (g : Group) (n : Nat) (m : Mask) (vs : List Word) : (g.setV n m vs).sregs = g.sregs := rfl
@[simp] theorem setV_preds (g : Group) (n : Nat) (m : Mask) (vs : List Word) : (g.setV n m vs).preds = g.preds := rfl
@[simp] theorem setV_lanes (g : Group) (n : Nat) (m : Mask) (vs : List Word) : (g.setV n m vs).lanes = g.lanes := rfl
@[simp] theorem setV_latches (g : Group) (n : Nat) (m : Mask) (vs : List Word) : (g.setV n m vs).latches = g.latches := rfl
@[simp] theorem setV_joins (g : Group) (n : Nat) (m : Mask) (vs : List Word) : (g.setV n m vs).joins = g.joins := rfl
@[simp] theorem setV_chain (g : Group) (n : Nat) (m : Mask) (vs : List Word) : (g.setV n m vs).chain = g.chain := rfl
@[simp] theorem setV_yieldTo (g : Group) (n : Nat) (m : Mask) (vs : List Word) : (g.setV n m vs).yieldTo = g.yieldTo := rfl
@[simp] theorem setV_cseq (g : Group) (n : Nat) (m : Mask) (vs : List Word) : (g.setV n m vs).cseq = g.cseq := rfl
@[simp] theorem setV_calls (g : Group) (n : Nat) (m : Mask) (vs : List Word) : (g.setV n m vs).calls = g.calls := rfl
@[simp] theorem setV_batches (g : Group) (n : Nat) (m : Mask) (vs : List Word) : (g.setV n m vs).batches = g.batches := rfl
@[simp] theorem setV_save (g : Group) (n : Nat) (m : Mask) (vs : List Word) : (g.setV n m vs).save = g.save := rfl
@[simp] theorem setV_faults (g : Group) (n : Nat) (m : Mask) (vs : List Word) : (g.setV n m vs).faults = g.faults := rfl
@[simp] theorem setV_rgen (g : Group) (n : Nat) (m : Mask) (vs : List Word) : (g.setV n m vs).rgen = g.rgen := rfl
@[simp] theorem setV_roMem (g : Group) (n : Nat) (m : Mask) (vs : List Word) : (g.setV n m vs).roMem = g.roMem := rfl
@[simp] theorem setV_badS (g : Group) (n : Nat) (m : Mask) (vs : List Word) : (g.setV n m vs).badS = g.badS := rfl
@[simp] theorem setV_kept (g : Group) (n : Nat) (m : Mask) (vs : List Word) : (g.setV n m vs).kept = g.kept := rfl
@[simp] theorem setV_lastTime (g : Group) (n : Nat) (m : Mask) (vs : List Word) : (g.setV n m vs).lastTime = g.lastTime := rfl
@[simp] theorem setV_image (g : Group) (n : Nat) (m : Mask) (vs : List Word) : (g.setV n m vs).image = g.image := rfl
@[simp] theorem setV_spill (g : Group) (n : Nat) (m : Mask) (vs : List Word) : (g.setV n m vs).spill = g.spill := rfl
@[simp] theorem setV_seq (g : Group) (n : Nat) (m : Mask) (vs : List Word) : (g.setV n m vs).seq = g.seq := rfl
@[simp] theorem setV_seen (g : Group) (n : Nat) (m : Mask) (vs : List Word) : (g.setV n m vs).seen = g.seen := rfl
@[simp] theorem setV_relFence (g : Group) (n : Nat) (m : Mask) (vs : List Word) : (g.setV n m vs).relFence = g.relFence := rfl
@[simp] theorem setV_block (g : Group) (n : Nat) (m : Mask) (vs : List Word) : (g.setV n m vs).block = g.block := rfl
@[simp] theorem setV_entryDue (g : Group) (n : Nat) (m : Mask) (vs : List Word) : (g.setV n m vs).entryDue = g.entryDue := rfl
@[simp] theorem setV_brk (g : Group) (n : Nat) (m : Mask) (vs : List Word) : (g.setV n m vs).brk = g.brk := rfl
@[simp] theorem setV_redrop (g : Group) (n : Nat) (m : Mask) (vs : List Word) : (g.setV n m vs).redrop = g.redrop := rfl

/-! ### Group.setS -/

@[simp] theorem setS_id (g : Group) (n : Nat) (x : DWord) : (g.setS n x).id = g.id := rfl
@[simp] theorem setS_sheet (g : Group) (n : Nat) (x : DWord) : (g.setS n x).sheet = g.sheet := rfl
@[simp] theorem setS_team (g : Group) (n : Nat) (x : DWord) : (g.setS n x).team = g.team := rfl
@[simp] theorem setS_idx (g : Group) (n : Nat) (x : DWord) : (g.setS n x).idx = g.idx := rfl
@[simp] theorem setS_asn (g : Group) (n : Nat) (x : DWord) : (g.setS n x).asn = g.asn := rfl
@[simp] theorem setS_sheetid (g : Group) (n : Nat) (x : DWord) : (g.setS n x).sheetid = g.sheetid := rfl
@[simp] theorem setS_teamid (g : Group) (n : Nat) (x : DWord) : (g.setS n x).teamid = g.teamid := rfl
@[simp] theorem setS_tsize (g : Group) (n : Nat) (x : DWord) : (g.setS n x).tsize = g.tsize := rfl
@[simp] theorem setS_width (g : Group) (n : Nat) (x : DWord) : (g.setS n x).width = g.width := rfl
@[simp] theorem setS_vcount (g : Group) (n : Nat) (x : DWord) : (g.setS n x).vcount = g.vcount := rfl
@[simp] theorem setS_scount (g : Group) (n : Nat) (x : DWord) : (g.setS n x).scount = g.scount := rfl
@[simp] theorem setS_waypt (g : Group) (n : Nat) (x : DWord) : (g.setS n x).waypt = g.waypt := rfl
@[simp] theorem setS_matrix (g : Group) (n : Nat) (x : DWord) : (g.setS n x).matrix = g.matrix := rfl
@[simp] theorem setS_core (g : Group) (n : Nat) (x : DWord) : (g.setS n x).core = g.core := rfl
@[simp] theorem setS_ctx (g : Group) (n : Nat) (x : DWord) : (g.setS n x).ctx = g.ctx := rfl
@[simp] theorem setS_frame (g : Group) (n : Nat) (x : DWord) : (g.setS n x).frame = g.frame := rfl
@[simp] theorem setS_st (g : Group) (n : Nat) (x : DWord) : (g.setS n x).st = g.st := rfl
@[simp] theorem setS_frameHeld (g : Group) (n : Nat) (x : DWord) : (g.setS n x).frameHeld = g.frameHeld := rfl
@[simp] theorem setS_stepping (g : Group) (n : Nat) (x : DWord) : (g.setS n x).stepping = g.stepping := rfl
@[simp] theorem setS_resumeReq (g : Group) (n : Nat) (x : DWord) : (g.setS n x).resumeReq = g.resumeReq := rfl
@[simp] theorem setS_recDone (g : Group) (n : Nat) (x : DWord) : (g.setS n x).recDone = g.recDone := rfl
@[simp] theorem setS_parkedAt (g : Group) (n : Nat) (x : DWord) : (g.setS n x).parkedAt = g.parkedAt := rfl
@[simp] theorem setS_issueSince (g : Group) (n : Nat) (x : DWord) : (g.setS n x).issueSince = g.issueSince := rfl
@[simp] theorem setS_vregs (g : Group) (n : Nat) (x : DWord) : (g.setS n x).vregs = g.vregs := rfl
@[simp] theorem setS_preds (g : Group) (n : Nat) (x : DWord) : (g.setS n x).preds = g.preds := rfl
@[simp] theorem setS_lanes (g : Group) (n : Nat) (x : DWord) : (g.setS n x).lanes = g.lanes := rfl
@[simp] theorem setS_latches (g : Group) (n : Nat) (x : DWord) : (g.setS n x).latches = g.latches := rfl
@[simp] theorem setS_joins (g : Group) (n : Nat) (x : DWord) : (g.setS n x).joins = g.joins := rfl
@[simp] theorem setS_chain (g : Group) (n : Nat) (x : DWord) : (g.setS n x).chain = g.chain := rfl
@[simp] theorem setS_yieldTo (g : Group) (n : Nat) (x : DWord) : (g.setS n x).yieldTo = g.yieldTo := rfl
@[simp] theorem setS_cseq (g : Group) (n : Nat) (x : DWord) : (g.setS n x).cseq = g.cseq := rfl
@[simp] theorem setS_calls (g : Group) (n : Nat) (x : DWord) : (g.setS n x).calls = g.calls := rfl
@[simp] theorem setS_batches (g : Group) (n : Nat) (x : DWord) : (g.setS n x).batches = g.batches := rfl
@[simp] theorem setS_save (g : Group) (n : Nat) (x : DWord) : (g.setS n x).save = g.save := rfl
@[simp] theorem setS_faults (g : Group) (n : Nat) (x : DWord) : (g.setS n x).faults = g.faults := rfl
@[simp] theorem setS_rgen (g : Group) (n : Nat) (x : DWord) : (g.setS n x).rgen = g.rgen := rfl
@[simp] theorem setS_roMem (g : Group) (n : Nat) (x : DWord) : (g.setS n x).roMem = g.roMem := rfl
@[simp] theorem setS_badV (g : Group) (n : Nat) (x : DWord) : (g.setS n x).badV = g.badV := rfl
@[simp] theorem setS_kept (g : Group) (n : Nat) (x : DWord) : (g.setS n x).kept = g.kept := rfl
@[simp] theorem setS_lastTime (g : Group) (n : Nat) (x : DWord) : (g.setS n x).lastTime = g.lastTime := rfl
@[simp] theorem setS_image (g : Group) (n : Nat) (x : DWord) : (g.setS n x).image = g.image := rfl
@[simp] theorem setS_spill (g : Group) (n : Nat) (x : DWord) : (g.setS n x).spill = g.spill := rfl
@[simp] theorem setS_seq (g : Group) (n : Nat) (x : DWord) : (g.setS n x).seq = g.seq := rfl
@[simp] theorem setS_seen (g : Group) (n : Nat) (x : DWord) : (g.setS n x).seen = g.seen := rfl
@[simp] theorem setS_relFence (g : Group) (n : Nat) (x : DWord) : (g.setS n x).relFence = g.relFence := rfl
@[simp] theorem setS_block (g : Group) (n : Nat) (x : DWord) : (g.setS n x).block = g.block := rfl
@[simp] theorem setS_entryDue (g : Group) (n : Nat) (x : DWord) : (g.setS n x).entryDue = g.entryDue := rfl
@[simp] theorem setS_brk (g : Group) (n : Nat) (x : DWord) : (g.setS n x).brk = g.brk := rfl
@[simp] theorem setS_redrop (g : Group) (n : Nat) (x : DWord) : (g.setS n x).redrop = g.redrop := rfl

/-! ### Group.setP -/

@[simp] theorem setP_id (g : Group) (n : Nat) (m vs : Mask) : (g.setP n m vs).id = g.id := rfl
@[simp] theorem setP_sheet (g : Group) (n : Nat) (m vs : Mask) : (g.setP n m vs).sheet = g.sheet := rfl
@[simp] theorem setP_team (g : Group) (n : Nat) (m vs : Mask) : (g.setP n m vs).team = g.team := rfl
@[simp] theorem setP_idx (g : Group) (n : Nat) (m vs : Mask) : (g.setP n m vs).idx = g.idx := rfl
@[simp] theorem setP_asn (g : Group) (n : Nat) (m vs : Mask) : (g.setP n m vs).asn = g.asn := rfl
@[simp] theorem setP_sheetid (g : Group) (n : Nat) (m vs : Mask) : (g.setP n m vs).sheetid = g.sheetid := rfl
@[simp] theorem setP_teamid (g : Group) (n : Nat) (m vs : Mask) : (g.setP n m vs).teamid = g.teamid := rfl
@[simp] theorem setP_tsize (g : Group) (n : Nat) (m vs : Mask) : (g.setP n m vs).tsize = g.tsize := rfl
@[simp] theorem setP_width (g : Group) (n : Nat) (m vs : Mask) : (g.setP n m vs).width = g.width := rfl
@[simp] theorem setP_vcount (g : Group) (n : Nat) (m vs : Mask) : (g.setP n m vs).vcount = g.vcount := rfl
@[simp] theorem setP_scount (g : Group) (n : Nat) (m vs : Mask) : (g.setP n m vs).scount = g.scount := rfl
@[simp] theorem setP_waypt (g : Group) (n : Nat) (m vs : Mask) : (g.setP n m vs).waypt = g.waypt := rfl
@[simp] theorem setP_matrix (g : Group) (n : Nat) (m vs : Mask) : (g.setP n m vs).matrix = g.matrix := rfl
@[simp] theorem setP_core (g : Group) (n : Nat) (m vs : Mask) : (g.setP n m vs).core = g.core := rfl
@[simp] theorem setP_ctx (g : Group) (n : Nat) (m vs : Mask) : (g.setP n m vs).ctx = g.ctx := rfl
@[simp] theorem setP_frame (g : Group) (n : Nat) (m vs : Mask) : (g.setP n m vs).frame = g.frame := rfl
@[simp] theorem setP_st (g : Group) (n : Nat) (m vs : Mask) : (g.setP n m vs).st = g.st := rfl
@[simp] theorem setP_frameHeld (g : Group) (n : Nat) (m vs : Mask) : (g.setP n m vs).frameHeld = g.frameHeld := rfl
@[simp] theorem setP_stepping (g : Group) (n : Nat) (m vs : Mask) : (g.setP n m vs).stepping = g.stepping := rfl
@[simp] theorem setP_resumeReq (g : Group) (n : Nat) (m vs : Mask) : (g.setP n m vs).resumeReq = g.resumeReq := rfl
@[simp] theorem setP_recDone (g : Group) (n : Nat) (m vs : Mask) : (g.setP n m vs).recDone = g.recDone := rfl
@[simp] theorem setP_parkedAt (g : Group) (n : Nat) (m vs : Mask) : (g.setP n m vs).parkedAt = g.parkedAt := rfl
@[simp] theorem setP_issueSince (g : Group) (n : Nat) (m vs : Mask) : (g.setP n m vs).issueSince = g.issueSince := rfl
@[simp] theorem setP_vregs (g : Group) (n : Nat) (m vs : Mask) : (g.setP n m vs).vregs = g.vregs := rfl
@[simp] theorem setP_sregs (g : Group) (n : Nat) (m vs : Mask) : (g.setP n m vs).sregs = g.sregs := rfl
@[simp] theorem setP_lanes (g : Group) (n : Nat) (m vs : Mask) : (g.setP n m vs).lanes = g.lanes := rfl
@[simp] theorem setP_latches (g : Group) (n : Nat) (m vs : Mask) : (g.setP n m vs).latches = g.latches := rfl
@[simp] theorem setP_joins (g : Group) (n : Nat) (m vs : Mask) : (g.setP n m vs).joins = g.joins := rfl
@[simp] theorem setP_chain (g : Group) (n : Nat) (m vs : Mask) : (g.setP n m vs).chain = g.chain := rfl
@[simp] theorem setP_yieldTo (g : Group) (n : Nat) (m vs : Mask) : (g.setP n m vs).yieldTo = g.yieldTo := rfl
@[simp] theorem setP_cseq (g : Group) (n : Nat) (m vs : Mask) : (g.setP n m vs).cseq = g.cseq := rfl
@[simp] theorem setP_calls (g : Group) (n : Nat) (m vs : Mask) : (g.setP n m vs).calls = g.calls := rfl
@[simp] theorem setP_batches (g : Group) (n : Nat) (m vs : Mask) : (g.setP n m vs).batches = g.batches := rfl
@[simp] theorem setP_save (g : Group) (n : Nat) (m vs : Mask) : (g.setP n m vs).save = g.save := rfl
@[simp] theorem setP_faults (g : Group) (n : Nat) (m vs : Mask) : (g.setP n m vs).faults = g.faults := rfl
@[simp] theorem setP_rgen (g : Group) (n : Nat) (m vs : Mask) : (g.setP n m vs).rgen = g.rgen := rfl
@[simp] theorem setP_roMem (g : Group) (n : Nat) (m vs : Mask) : (g.setP n m vs).roMem = g.roMem := rfl
@[simp] theorem setP_badV (g : Group) (n : Nat) (m vs : Mask) : (g.setP n m vs).badV = g.badV := rfl
@[simp] theorem setP_badS (g : Group) (n : Nat) (m vs : Mask) : (g.setP n m vs).badS = g.badS := rfl
@[simp] theorem setP_kept (g : Group) (n : Nat) (m vs : Mask) : (g.setP n m vs).kept = g.kept := rfl
@[simp] theorem setP_lastTime (g : Group) (n : Nat) (m vs : Mask) : (g.setP n m vs).lastTime = g.lastTime := rfl
@[simp] theorem setP_image (g : Group) (n : Nat) (m vs : Mask) : (g.setP n m vs).image = g.image := rfl
@[simp] theorem setP_spill (g : Group) (n : Nat) (m vs : Mask) : (g.setP n m vs).spill = g.spill := rfl
@[simp] theorem setP_seq (g : Group) (n : Nat) (m vs : Mask) : (g.setP n m vs).seq = g.seq := rfl
@[simp] theorem setP_seen (g : Group) (n : Nat) (m vs : Mask) : (g.setP n m vs).seen = g.seen := rfl
@[simp] theorem setP_relFence (g : Group) (n : Nat) (m vs : Mask) : (g.setP n m vs).relFence = g.relFence := rfl
@[simp] theorem setP_block (g : Group) (n : Nat) (m vs : Mask) : (g.setP n m vs).block = g.block := rfl
@[simp] theorem setP_entryDue (g : Group) (n : Nat) (m vs : Mask) : (g.setP n m vs).entryDue = g.entryDue := rfl
@[simp] theorem setP_brk (g : Group) (n : Nat) (m vs : Mask) : (g.setP n m vs).brk = g.brk := rfl
@[simp] theorem setP_redrop (g : Group) (n : Nat) (m vs : Mask) : (g.setP n m vs).redrop = g.redrop := rfl

/-! ### Group.killV -/

@[simp] theorem killV_id (g : Group) (n k : Nat) : (g.killV n k).id = g.id := rfl
@[simp] theorem killV_sheet (g : Group) (n k : Nat) : (g.killV n k).sheet = g.sheet := rfl
@[simp] theorem killV_team (g : Group) (n k : Nat) : (g.killV n k).team = g.team := rfl
@[simp] theorem killV_idx (g : Group) (n k : Nat) : (g.killV n k).idx = g.idx := rfl
@[simp] theorem killV_asn (g : Group) (n k : Nat) : (g.killV n k).asn = g.asn := rfl
@[simp] theorem killV_sheetid (g : Group) (n k : Nat) : (g.killV n k).sheetid = g.sheetid := rfl
@[simp] theorem killV_teamid (g : Group) (n k : Nat) : (g.killV n k).teamid = g.teamid := rfl
@[simp] theorem killV_tsize (g : Group) (n k : Nat) : (g.killV n k).tsize = g.tsize := rfl
@[simp] theorem killV_width (g : Group) (n k : Nat) : (g.killV n k).width = g.width := rfl
@[simp] theorem killV_vcount (g : Group) (n k : Nat) : (g.killV n k).vcount = g.vcount := rfl
@[simp] theorem killV_scount (g : Group) (n k : Nat) : (g.killV n k).scount = g.scount := rfl
@[simp] theorem killV_waypt (g : Group) (n k : Nat) : (g.killV n k).waypt = g.waypt := rfl
@[simp] theorem killV_matrix (g : Group) (n k : Nat) : (g.killV n k).matrix = g.matrix := rfl
@[simp] theorem killV_core (g : Group) (n k : Nat) : (g.killV n k).core = g.core := rfl
@[simp] theorem killV_ctx (g : Group) (n k : Nat) : (g.killV n k).ctx = g.ctx := rfl
@[simp] theorem killV_frame (g : Group) (n k : Nat) : (g.killV n k).frame = g.frame := rfl
@[simp] theorem killV_st (g : Group) (n k : Nat) : (g.killV n k).st = g.st := rfl
@[simp] theorem killV_frameHeld (g : Group) (n k : Nat) : (g.killV n k).frameHeld = g.frameHeld := rfl
@[simp] theorem killV_stepping (g : Group) (n k : Nat) : (g.killV n k).stepping = g.stepping := rfl
@[simp] theorem killV_resumeReq (g : Group) (n k : Nat) : (g.killV n k).resumeReq = g.resumeReq := rfl
@[simp] theorem killV_recDone (g : Group) (n k : Nat) : (g.killV n k).recDone = g.recDone := rfl
@[simp] theorem killV_parkedAt (g : Group) (n k : Nat) : (g.killV n k).parkedAt = g.parkedAt := rfl
@[simp] theorem killV_issueSince (g : Group) (n k : Nat) : (g.killV n k).issueSince = g.issueSince := rfl
@[simp] theorem killV_vregs (g : Group) (n k : Nat) : (g.killV n k).vregs = g.vregs := rfl
@[simp] theorem killV_sregs (g : Group) (n k : Nat) : (g.killV n k).sregs = g.sregs := rfl
@[simp] theorem killV_preds (g : Group) (n k : Nat) : (g.killV n k).preds = g.preds := rfl
@[simp] theorem killV_lanes (g : Group) (n k : Nat) : (g.killV n k).lanes = g.lanes := rfl
@[simp] theorem killV_joins (g : Group) (n k : Nat) : (g.killV n k).joins = g.joins := rfl
@[simp] theorem killV_chain (g : Group) (n k : Nat) : (g.killV n k).chain = g.chain := rfl
@[simp] theorem killV_yieldTo (g : Group) (n k : Nat) : (g.killV n k).yieldTo = g.yieldTo := rfl
@[simp] theorem killV_cseq (g : Group) (n k : Nat) : (g.killV n k).cseq = g.cseq := rfl
@[simp] theorem killV_calls (g : Group) (n k : Nat) : (g.killV n k).calls = g.calls := rfl
@[simp] theorem killV_batches (g : Group) (n k : Nat) : (g.killV n k).batches = g.batches := rfl
@[simp] theorem killV_save (g : Group) (n k : Nat) : (g.killV n k).save = g.save := rfl
@[simp] theorem killV_faults (g : Group) (n k : Nat) : (g.killV n k).faults = g.faults := rfl
@[simp] theorem killV_rgen (g : Group) (n k : Nat) : (g.killV n k).rgen = g.rgen := rfl
@[simp] theorem killV_roMem (g : Group) (n k : Nat) : (g.killV n k).roMem = g.roMem := rfl
@[simp] theorem killV_badV (g : Group) (n k : Nat) : (g.killV n k).badV = g.badV := rfl
@[simp] theorem killV_badS (g : Group) (n k : Nat) : (g.killV n k).badS = g.badS := rfl
@[simp] theorem killV_kept (g : Group) (n k : Nat) : (g.killV n k).kept = g.kept := rfl
@[simp] theorem killV_lastTime (g : Group) (n k : Nat) : (g.killV n k).lastTime = g.lastTime := rfl
@[simp] theorem killV_image (g : Group) (n k : Nat) : (g.killV n k).image = g.image := rfl
@[simp] theorem killV_spill (g : Group) (n k : Nat) : (g.killV n k).spill = g.spill := rfl
@[simp] theorem killV_seq (g : Group) (n k : Nat) : (g.killV n k).seq = g.seq := rfl
@[simp] theorem killV_seen (g : Group) (n k : Nat) : (g.killV n k).seen = g.seen := rfl
@[simp] theorem killV_relFence (g : Group) (n k : Nat) : (g.killV n k).relFence = g.relFence := rfl
@[simp] theorem killV_block (g : Group) (n k : Nat) : (g.killV n k).block = g.block := rfl
@[simp] theorem killV_entryDue (g : Group) (n k : Nat) : (g.killV n k).entryDue = g.entryDue := rfl
@[simp] theorem killV_brk (g : Group) (n k : Nat) : (g.killV n k).brk = g.brk := rfl
@[simp] theorem killV_redrop (g : Group) (n k : Nat) : (g.killV n k).redrop = g.redrop := rfl

/-! ### Group.killS -/

@[simp] theorem killS_id (g : Group) (n : Nat) : (g.killS n).id = g.id := rfl
@[simp] theorem killS_sheet (g : Group) (n : Nat) : (g.killS n).sheet = g.sheet := rfl
@[simp] theorem killS_team (g : Group) (n : Nat) : (g.killS n).team = g.team := rfl
@[simp] theorem killS_idx (g : Group) (n : Nat) : (g.killS n).idx = g.idx := rfl
@[simp] theorem killS_asn (g : Group) (n : Nat) : (g.killS n).asn = g.asn := rfl
@[simp] theorem killS_sheetid (g : Group) (n : Nat) : (g.killS n).sheetid = g.sheetid := rfl
@[simp] theorem killS_teamid (g : Group) (n : Nat) : (g.killS n).teamid = g.teamid := rfl
@[simp] theorem killS_tsize (g : Group) (n : Nat) : (g.killS n).tsize = g.tsize := rfl
@[simp] theorem killS_width (g : Group) (n : Nat) : (g.killS n).width = g.width := rfl
@[simp] theorem killS_vcount (g : Group) (n : Nat) : (g.killS n).vcount = g.vcount := rfl
@[simp] theorem killS_scount (g : Group) (n : Nat) : (g.killS n).scount = g.scount := rfl
@[simp] theorem killS_waypt (g : Group) (n : Nat) : (g.killS n).waypt = g.waypt := rfl
@[simp] theorem killS_matrix (g : Group) (n : Nat) : (g.killS n).matrix = g.matrix := rfl
@[simp] theorem killS_core (g : Group) (n : Nat) : (g.killS n).core = g.core := rfl
@[simp] theorem killS_ctx (g : Group) (n : Nat) : (g.killS n).ctx = g.ctx := rfl
@[simp] theorem killS_frame (g : Group) (n : Nat) : (g.killS n).frame = g.frame := rfl
@[simp] theorem killS_st (g : Group) (n : Nat) : (g.killS n).st = g.st := rfl
@[simp] theorem killS_frameHeld (g : Group) (n : Nat) : (g.killS n).frameHeld = g.frameHeld := rfl
@[simp] theorem killS_stepping (g : Group) (n : Nat) : (g.killS n).stepping = g.stepping := rfl
@[simp] theorem killS_resumeReq (g : Group) (n : Nat) : (g.killS n).resumeReq = g.resumeReq := rfl
@[simp] theorem killS_recDone (g : Group) (n : Nat) : (g.killS n).recDone = g.recDone := rfl
@[simp] theorem killS_parkedAt (g : Group) (n : Nat) : (g.killS n).parkedAt = g.parkedAt := rfl
@[simp] theorem killS_issueSince (g : Group) (n : Nat) : (g.killS n).issueSince = g.issueSince := rfl
@[simp] theorem killS_vregs (g : Group) (n : Nat) : (g.killS n).vregs = g.vregs := rfl
@[simp] theorem killS_sregs (g : Group) (n : Nat) : (g.killS n).sregs = g.sregs := rfl
@[simp] theorem killS_preds (g : Group) (n : Nat) : (g.killS n).preds = g.preds := rfl
@[simp] theorem killS_lanes (g : Group) (n : Nat) : (g.killS n).lanes = g.lanes := rfl
@[simp] theorem killS_joins (g : Group) (n : Nat) : (g.killS n).joins = g.joins := rfl
@[simp] theorem killS_chain (g : Group) (n : Nat) : (g.killS n).chain = g.chain := rfl
@[simp] theorem killS_yieldTo (g : Group) (n : Nat) : (g.killS n).yieldTo = g.yieldTo := rfl
@[simp] theorem killS_cseq (g : Group) (n : Nat) : (g.killS n).cseq = g.cseq := rfl
@[simp] theorem killS_calls (g : Group) (n : Nat) : (g.killS n).calls = g.calls := rfl
@[simp] theorem killS_batches (g : Group) (n : Nat) : (g.killS n).batches = g.batches := rfl
@[simp] theorem killS_save (g : Group) (n : Nat) : (g.killS n).save = g.save := rfl
@[simp] theorem killS_faults (g : Group) (n : Nat) : (g.killS n).faults = g.faults := rfl
@[simp] theorem killS_rgen (g : Group) (n : Nat) : (g.killS n).rgen = g.rgen := rfl
@[simp] theorem killS_roMem (g : Group) (n : Nat) : (g.killS n).roMem = g.roMem := rfl
@[simp] theorem killS_badV (g : Group) (n : Nat) : (g.killS n).badV = g.badV := rfl
@[simp] theorem killS_badS (g : Group) (n : Nat) : (g.killS n).badS = g.badS := rfl
@[simp] theorem killS_kept (g : Group) (n : Nat) : (g.killS n).kept = g.kept := rfl
@[simp] theorem killS_lastTime (g : Group) (n : Nat) : (g.killS n).lastTime = g.lastTime := rfl
@[simp] theorem killS_image (g : Group) (n : Nat) : (g.killS n).image = g.image := rfl
@[simp] theorem killS_spill (g : Group) (n : Nat) : (g.killS n).spill = g.spill := rfl
@[simp] theorem killS_seq (g : Group) (n : Nat) : (g.killS n).seq = g.seq := rfl
@[simp] theorem killS_seen (g : Group) (n : Nat) : (g.killS n).seen = g.seen := rfl
@[simp] theorem killS_relFence (g : Group) (n : Nat) : (g.killS n).relFence = g.relFence := rfl
@[simp] theorem killS_block (g : Group) (n : Nat) : (g.killS n).block = g.block := rfl
@[simp] theorem killS_entryDue (g : Group) (n : Nat) : (g.killS n).entryDue = g.entryDue := rfl
@[simp] theorem killS_brk (g : Group) (n : Nat) : (g.killS n).brk = g.brk := rfl
@[simp] theorem killS_redrop (g : Group) (n : Nat) : (g.killS n).redrop = g.redrop := rfl

/-! ### Group.loseLatches -/

@[simp] theorem loseLatches_id (g : Group) : (g.loseLatches).id = g.id := rfl
@[simp] theorem loseLatches_sheet (g : Group) : (g.loseLatches).sheet = g.sheet := rfl
@[simp] theorem loseLatches_team (g : Group) : (g.loseLatches).team = g.team := rfl
@[simp] theorem loseLatches_idx (g : Group) : (g.loseLatches).idx = g.idx := rfl
@[simp] theorem loseLatches_asn (g : Group) : (g.loseLatches).asn = g.asn := rfl
@[simp] theorem loseLatches_sheetid (g : Group) : (g.loseLatches).sheetid = g.sheetid := rfl
@[simp] theorem loseLatches_teamid (g : Group) : (g.loseLatches).teamid = g.teamid := rfl
@[simp] theorem loseLatches_tsize (g : Group) : (g.loseLatches).tsize = g.tsize := rfl
@[simp] theorem loseLatches_width (g : Group) : (g.loseLatches).width = g.width := rfl
@[simp] theorem loseLatches_vcount (g : Group) : (g.loseLatches).vcount = g.vcount := rfl
@[simp] theorem loseLatches_scount (g : Group) : (g.loseLatches).scount = g.scount := rfl
@[simp] theorem loseLatches_waypt (g : Group) : (g.loseLatches).waypt = g.waypt := rfl
@[simp] theorem loseLatches_matrix (g : Group) : (g.loseLatches).matrix = g.matrix := rfl
@[simp] theorem loseLatches_core (g : Group) : (g.loseLatches).core = g.core := rfl
@[simp] theorem loseLatches_ctx (g : Group) : (g.loseLatches).ctx = g.ctx := rfl
@[simp] theorem loseLatches_frame (g : Group) : (g.loseLatches).frame = g.frame := rfl
@[simp] theorem loseLatches_st (g : Group) : (g.loseLatches).st = g.st := rfl
@[simp] theorem loseLatches_frameHeld (g : Group) : (g.loseLatches).frameHeld = g.frameHeld := rfl
@[simp] theorem loseLatches_stepping (g : Group) : (g.loseLatches).stepping = g.stepping := rfl
@[simp] theorem loseLatches_resumeReq (g : Group) : (g.loseLatches).resumeReq = g.resumeReq := rfl
@[simp] theorem loseLatches_recDone (g : Group) : (g.loseLatches).recDone = g.recDone := rfl
@[simp] theorem loseLatches_parkedAt (g : Group) : (g.loseLatches).parkedAt = g.parkedAt := rfl
@[simp] theorem loseLatches_issueSince (g : Group) : (g.loseLatches).issueSince = g.issueSince := rfl
@[simp] theorem loseLatches_vregs (g : Group) : (g.loseLatches).vregs = g.vregs := rfl
@[simp] theorem loseLatches_sregs (g : Group) : (g.loseLatches).sregs = g.sregs := rfl
@[simp] theorem loseLatches_preds (g : Group) : (g.loseLatches).preds = g.preds := rfl
@[simp] theorem loseLatches_lanes (g : Group) : (g.loseLatches).lanes = g.lanes := rfl
@[simp] theorem loseLatches_joins (g : Group) : (g.loseLatches).joins = g.joins := rfl
@[simp] theorem loseLatches_chain (g : Group) : (g.loseLatches).chain = g.chain := rfl
@[simp] theorem loseLatches_yieldTo (g : Group) : (g.loseLatches).yieldTo = g.yieldTo := rfl
@[simp] theorem loseLatches_cseq (g : Group) : (g.loseLatches).cseq = g.cseq := rfl
@[simp] theorem loseLatches_calls (g : Group) : (g.loseLatches).calls = g.calls := rfl
@[simp] theorem loseLatches_batches (g : Group) : (g.loseLatches).batches = g.batches := rfl
@[simp] theorem loseLatches_save (g : Group) : (g.loseLatches).save = g.save := rfl
@[simp] theorem loseLatches_faults (g : Group) : (g.loseLatches).faults = g.faults := rfl
@[simp] theorem loseLatches_rgen (g : Group) : (g.loseLatches).rgen = g.rgen := rfl
@[simp] theorem loseLatches_roMem (g : Group) : (g.loseLatches).roMem = g.roMem := rfl
@[simp] theorem loseLatches_badV (g : Group) : (g.loseLatches).badV = g.badV := rfl
@[simp] theorem loseLatches_badS (g : Group) : (g.loseLatches).badS = g.badS := rfl
@[simp] theorem loseLatches_kept (g : Group) : (g.loseLatches).kept = g.kept := rfl
@[simp] theorem loseLatches_lastTime (g : Group) : (g.loseLatches).lastTime = g.lastTime := rfl
@[simp] theorem loseLatches_image (g : Group) : (g.loseLatches).image = g.image := rfl
@[simp] theorem loseLatches_spill (g : Group) : (g.loseLatches).spill = g.spill := rfl
@[simp] theorem loseLatches_seq (g : Group) : (g.loseLatches).seq = g.seq := rfl
@[simp] theorem loseLatches_seen (g : Group) : (g.loseLatches).seen = g.seen := rfl
@[simp] theorem loseLatches_relFence (g : Group) : (g.loseLatches).relFence = g.relFence := rfl
@[simp] theorem loseLatches_block (g : Group) : (g.loseLatches).block = g.block := rfl
@[simp] theorem loseLatches_entryDue (g : Group) : (g.loseLatches).entryDue = g.entryDue := rfl
@[simp] theorem loseLatches_brk (g : Group) : (g.loseLatches).brk = g.brk := rfl
@[simp] theorem loseLatches_redrop (g : Group) : (g.loseLatches).redrop = g.redrop := rfl

/-! ### Group.capture -/

@[simp] theorem capture_id (g : Group) (c : BitVec 2) (l : Latch) : (g.capture c l).id = g.id := rfl
@[simp] theorem capture_sheet (g : Group) (c : BitVec 2) (l : Latch) : (g.capture c l).sheet = g.sheet := rfl
@[simp] theorem capture_team (g : Group) (c : BitVec 2) (l : Latch) : (g.capture c l).team = g.team := rfl
@[simp] theorem capture_idx (g : Group) (c : BitVec 2) (l : Latch) : (g.capture c l).idx = g.idx := rfl
@[simp] theorem capture_asn (g : Group) (c : BitVec 2) (l : Latch) : (g.capture c l).asn = g.asn := rfl
@[simp] theorem capture_sheetid (g : Group) (c : BitVec 2) (l : Latch) : (g.capture c l).sheetid = g.sheetid := rfl
@[simp] theorem capture_teamid (g : Group) (c : BitVec 2) (l : Latch) : (g.capture c l).teamid = g.teamid := rfl
@[simp] theorem capture_tsize (g : Group) (c : BitVec 2) (l : Latch) : (g.capture c l).tsize = g.tsize := rfl
@[simp] theorem capture_width (g : Group) (c : BitVec 2) (l : Latch) : (g.capture c l).width = g.width := rfl
@[simp] theorem capture_vcount (g : Group) (c : BitVec 2) (l : Latch) : (g.capture c l).vcount = g.vcount := rfl
@[simp] theorem capture_scount (g : Group) (c : BitVec 2) (l : Latch) : (g.capture c l).scount = g.scount := rfl
@[simp] theorem capture_waypt (g : Group) (c : BitVec 2) (l : Latch) : (g.capture c l).waypt = g.waypt := rfl
@[simp] theorem capture_matrix (g : Group) (c : BitVec 2) (l : Latch) : (g.capture c l).matrix = g.matrix := rfl
@[simp] theorem capture_core (g : Group) (c : BitVec 2) (l : Latch) : (g.capture c l).core = g.core := rfl
@[simp] theorem capture_ctx (g : Group) (c : BitVec 2) (l : Latch) : (g.capture c l).ctx = g.ctx := rfl
@[simp] theorem capture_frame (g : Group) (c : BitVec 2) (l : Latch) : (g.capture c l).frame = g.frame := rfl
@[simp] theorem capture_st (g : Group) (c : BitVec 2) (l : Latch) : (g.capture c l).st = g.st := rfl
@[simp] theorem capture_frameHeld (g : Group) (c : BitVec 2) (l : Latch) : (g.capture c l).frameHeld = g.frameHeld := rfl
@[simp] theorem capture_stepping (g : Group) (c : BitVec 2) (l : Latch) : (g.capture c l).stepping = g.stepping := rfl
@[simp] theorem capture_resumeReq (g : Group) (c : BitVec 2) (l : Latch) : (g.capture c l).resumeReq = g.resumeReq := rfl
@[simp] theorem capture_recDone (g : Group) (c : BitVec 2) (l : Latch) : (g.capture c l).recDone = g.recDone := rfl
@[simp] theorem capture_parkedAt (g : Group) (c : BitVec 2) (l : Latch) : (g.capture c l).parkedAt = g.parkedAt := rfl
@[simp] theorem capture_issueSince (g : Group) (c : BitVec 2) (l : Latch) : (g.capture c l).issueSince = g.issueSince := rfl
@[simp] theorem capture_vregs (g : Group) (c : BitVec 2) (l : Latch) : (g.capture c l).vregs = g.vregs := rfl
@[simp] theorem capture_sregs (g : Group) (c : BitVec 2) (l : Latch) : (g.capture c l).sregs = g.sregs := rfl
@[simp] theorem capture_preds (g : Group) (c : BitVec 2) (l : Latch) : (g.capture c l).preds = g.preds := rfl
@[simp] theorem capture_lanes (g : Group) (c : BitVec 2) (l : Latch) : (g.capture c l).lanes = g.lanes := rfl
@[simp] theorem capture_joins (g : Group) (c : BitVec 2) (l : Latch) : (g.capture c l).joins = g.joins := rfl
@[simp] theorem capture_chain (g : Group) (c : BitVec 2) (l : Latch) : (g.capture c l).chain = g.chain := rfl
@[simp] theorem capture_yieldTo (g : Group) (c : BitVec 2) (l : Latch) : (g.capture c l).yieldTo = g.yieldTo := rfl
@[simp] theorem capture_cseq (g : Group) (c : BitVec 2) (l : Latch) : (g.capture c l).cseq = g.cseq := rfl
@[simp] theorem capture_calls (g : Group) (c : BitVec 2) (l : Latch) : (g.capture c l).calls = g.calls := rfl
@[simp] theorem capture_batches (g : Group) (c : BitVec 2) (l : Latch) : (g.capture c l).batches = g.batches := rfl
@[simp] theorem capture_save (g : Group) (c : BitVec 2) (l : Latch) : (g.capture c l).save = g.save := rfl
@[simp] theorem capture_faults (g : Group) (c : BitVec 2) (l : Latch) : (g.capture c l).faults = g.faults := rfl
@[simp] theorem capture_rgen (g : Group) (c : BitVec 2) (l : Latch) : (g.capture c l).rgen = g.rgen := rfl
@[simp] theorem capture_roMem (g : Group) (c : BitVec 2) (l : Latch) : (g.capture c l).roMem = g.roMem := rfl
@[simp] theorem capture_badV (g : Group) (c : BitVec 2) (l : Latch) : (g.capture c l).badV = g.badV := rfl
@[simp] theorem capture_badS (g : Group) (c : BitVec 2) (l : Latch) : (g.capture c l).badS = g.badS := rfl
@[simp] theorem capture_kept (g : Group) (c : BitVec 2) (l : Latch) : (g.capture c l).kept = g.kept := rfl
@[simp] theorem capture_lastTime (g : Group) (c : BitVec 2) (l : Latch) : (g.capture c l).lastTime = g.lastTime := rfl
@[simp] theorem capture_image (g : Group) (c : BitVec 2) (l : Latch) : (g.capture c l).image = g.image := rfl
@[simp] theorem capture_spill (g : Group) (c : BitVec 2) (l : Latch) : (g.capture c l).spill = g.spill := rfl
@[simp] theorem capture_seq (g : Group) (c : BitVec 2) (l : Latch) : (g.capture c l).seq = g.seq := rfl
@[simp] theorem capture_seen (g : Group) (c : BitVec 2) (l : Latch) : (g.capture c l).seen = g.seen := rfl
@[simp] theorem capture_relFence (g : Group) (c : BitVec 2) (l : Latch) : (g.capture c l).relFence = g.relFence := rfl
@[simp] theorem capture_block (g : Group) (c : BitVec 2) (l : Latch) : (g.capture c l).block = g.block := rfl
@[simp] theorem capture_entryDue (g : Group) (c : BitVec 2) (l : Latch) : (g.capture c l).entryDue = g.entryDue := rfl
@[simp] theorem capture_brk (g : Group) (c : BitVec 2) (l : Latch) : (g.capture c l).brk = g.brk := rfl
@[simp] theorem capture_redrop (g : Group) (c : BitVec 2) (l : Latch) : (g.capture c l).redrop = g.redrop := rfl

/-! ### Group.modLanes -/

@[simp] theorem modLanes_id (g : Group) (m : Mask) (f : Nat → Lane → Lane) : (g.modLanes m f).id = g.id := rfl
@[simp] theorem modLanes_sheet (g : Group) (m : Mask) (f : Nat → Lane → Lane) : (g.modLanes m f).sheet = g.sheet := rfl
@[simp] theorem modLanes_team (g : Group) (m : Mask) (f : Nat → Lane → Lane) : (g.modLanes m f).team = g.team := rfl
@[simp] theorem modLanes_idx (g : Group) (m : Mask) (f : Nat → Lane → Lane) : (g.modLanes m f).idx = g.idx := rfl
@[simp] theorem modLanes_asn (g : Group) (m : Mask) (f : Nat → Lane → Lane) : (g.modLanes m f).asn = g.asn := rfl
@[simp] theorem modLanes_sheetid (g : Group) (m : Mask) (f : Nat → Lane → Lane) : (g.modLanes m f).sheetid = g.sheetid := rfl
@[simp] theorem modLanes_teamid (g : Group) (m : Mask) (f : Nat → Lane → Lane) : (g.modLanes m f).teamid = g.teamid := rfl
@[simp] theorem modLanes_tsize (g : Group) (m : Mask) (f : Nat → Lane → Lane) : (g.modLanes m f).tsize = g.tsize := rfl
@[simp] theorem modLanes_width (g : Group) (m : Mask) (f : Nat → Lane → Lane) : (g.modLanes m f).width = g.width := rfl
@[simp] theorem modLanes_vcount (g : Group) (m : Mask) (f : Nat → Lane → Lane) : (g.modLanes m f).vcount = g.vcount := rfl
@[simp] theorem modLanes_scount (g : Group) (m : Mask) (f : Nat → Lane → Lane) : (g.modLanes m f).scount = g.scount := rfl
@[simp] theorem modLanes_waypt (g : Group) (m : Mask) (f : Nat → Lane → Lane) : (g.modLanes m f).waypt = g.waypt := rfl
@[simp] theorem modLanes_matrix (g : Group) (m : Mask) (f : Nat → Lane → Lane) : (g.modLanes m f).matrix = g.matrix := rfl
@[simp] theorem modLanes_core (g : Group) (m : Mask) (f : Nat → Lane → Lane) : (g.modLanes m f).core = g.core := rfl
@[simp] theorem modLanes_ctx (g : Group) (m : Mask) (f : Nat → Lane → Lane) : (g.modLanes m f).ctx = g.ctx := rfl
@[simp] theorem modLanes_frame (g : Group) (m : Mask) (f : Nat → Lane → Lane) : (g.modLanes m f).frame = g.frame := rfl
@[simp] theorem modLanes_st (g : Group) (m : Mask) (f : Nat → Lane → Lane) : (g.modLanes m f).st = g.st := rfl
@[simp] theorem modLanes_frameHeld (g : Group) (m : Mask) (f : Nat → Lane → Lane) : (g.modLanes m f).frameHeld = g.frameHeld := rfl
@[simp] theorem modLanes_stepping (g : Group) (m : Mask) (f : Nat → Lane → Lane) : (g.modLanes m f).stepping = g.stepping := rfl
@[simp] theorem modLanes_resumeReq (g : Group) (m : Mask) (f : Nat → Lane → Lane) : (g.modLanes m f).resumeReq = g.resumeReq := rfl
@[simp] theorem modLanes_recDone (g : Group) (m : Mask) (f : Nat → Lane → Lane) : (g.modLanes m f).recDone = g.recDone := rfl
@[simp] theorem modLanes_parkedAt (g : Group) (m : Mask) (f : Nat → Lane → Lane) : (g.modLanes m f).parkedAt = g.parkedAt := rfl
@[simp] theorem modLanes_issueSince (g : Group) (m : Mask) (f : Nat → Lane → Lane) : (g.modLanes m f).issueSince = g.issueSince := rfl
@[simp] theorem modLanes_vregs (g : Group) (m : Mask) (f : Nat → Lane → Lane) : (g.modLanes m f).vregs = g.vregs := rfl
@[simp] theorem modLanes_sregs (g : Group) (m : Mask) (f : Nat → Lane → Lane) : (g.modLanes m f).sregs = g.sregs := rfl
@[simp] theorem modLanes_preds (g : Group) (m : Mask) (f : Nat → Lane → Lane) : (g.modLanes m f).preds = g.preds := rfl
@[simp] theorem modLanes_latches (g : Group) (m : Mask) (f : Nat → Lane → Lane) : (g.modLanes m f).latches = g.latches := rfl
@[simp] theorem modLanes_joins (g : Group) (m : Mask) (f : Nat → Lane → Lane) : (g.modLanes m f).joins = g.joins := rfl
@[simp] theorem modLanes_chain (g : Group) (m : Mask) (f : Nat → Lane → Lane) : (g.modLanes m f).chain = g.chain := rfl
@[simp] theorem modLanes_yieldTo (g : Group) (m : Mask) (f : Nat → Lane → Lane) : (g.modLanes m f).yieldTo = g.yieldTo := rfl
@[simp] theorem modLanes_cseq (g : Group) (m : Mask) (f : Nat → Lane → Lane) : (g.modLanes m f).cseq = g.cseq := rfl
@[simp] theorem modLanes_calls (g : Group) (m : Mask) (f : Nat → Lane → Lane) : (g.modLanes m f).calls = g.calls := rfl
@[simp] theorem modLanes_batches (g : Group) (m : Mask) (f : Nat → Lane → Lane) : (g.modLanes m f).batches = g.batches := rfl
@[simp] theorem modLanes_save (g : Group) (m : Mask) (f : Nat → Lane → Lane) : (g.modLanes m f).save = g.save := rfl
@[simp] theorem modLanes_faults (g : Group) (m : Mask) (f : Nat → Lane → Lane) : (g.modLanes m f).faults = g.faults := rfl
@[simp] theorem modLanes_rgen (g : Group) (m : Mask) (f : Nat → Lane → Lane) : (g.modLanes m f).rgen = g.rgen := rfl
@[simp] theorem modLanes_roMem (g : Group) (m : Mask) (f : Nat → Lane → Lane) : (g.modLanes m f).roMem = g.roMem := rfl
@[simp] theorem modLanes_badV (g : Group) (m : Mask) (f : Nat → Lane → Lane) : (g.modLanes m f).badV = g.badV := rfl
@[simp] theorem modLanes_badS (g : Group) (m : Mask) (f : Nat → Lane → Lane) : (g.modLanes m f).badS = g.badS := rfl
@[simp] theorem modLanes_kept (g : Group) (m : Mask) (f : Nat → Lane → Lane) : (g.modLanes m f).kept = g.kept := rfl
@[simp] theorem modLanes_lastTime (g : Group) (m : Mask) (f : Nat → Lane → Lane) : (g.modLanes m f).lastTime = g.lastTime := rfl
@[simp] theorem modLanes_image (g : Group) (m : Mask) (f : Nat → Lane → Lane) : (g.modLanes m f).image = g.image := rfl
@[simp] theorem modLanes_spill (g : Group) (m : Mask) (f : Nat → Lane → Lane) : (g.modLanes m f).spill = g.spill := rfl
@[simp] theorem modLanes_seq (g : Group) (m : Mask) (f : Nat → Lane → Lane) : (g.modLanes m f).seq = g.seq := rfl
@[simp] theorem modLanes_seen (g : Group) (m : Mask) (f : Nat → Lane → Lane) : (g.modLanes m f).seen = g.seen := rfl
@[simp] theorem modLanes_relFence (g : Group) (m : Mask) (f : Nat → Lane → Lane) : (g.modLanes m f).relFence = g.relFence := rfl
@[simp] theorem modLanes_block (g : Group) (m : Mask) (f : Nat → Lane → Lane) : (g.modLanes m f).block = g.block := rfl
@[simp] theorem modLanes_entryDue (g : Group) (m : Mask) (f : Nat → Lane → Lane) : (g.modLanes m f).entryDue = g.entryDue := rfl
@[simp] theorem modLanes_brk (g : Group) (m : Mask) (f : Nat → Lane → Lane) : (g.modLanes m f).brk = g.brk := rfl
@[simp] theorem modLanes_redrop (g : Group) (m : Mask) (f : Nat → Lane → Lane) : (g.modLanes m f).redrop = g.redrop := rfl

/-! ### Group.dropJoins -/

@[simp] theorem dropJoins_id (g : Group) : (g.dropJoins).id = g.id := rfl
@[simp] theorem dropJoins_sheet (g : Group) : (g.dropJoins).sheet = g.sheet := rfl
@[simp] theorem dropJoins_team (g : Group) : (g.dropJoins).team = g.team := rfl
@[simp] theorem dropJoins_idx (g : Group) : (g.dropJoins).idx = g.idx := rfl
@[simp] theorem dropJoins_asn (g : Group) : (g.dropJoins).asn = g.asn := rfl
@[simp] theorem dropJoins_sheetid (g : Group) : (g.dropJoins).sheetid = g.sheetid := rfl
@[simp] theorem dropJoins_teamid (g : Group) : (g.dropJoins).teamid = g.teamid := rfl
@[simp] theorem dropJoins_tsize (g : Group) : (g.dropJoins).tsize = g.tsize := rfl
@[simp] theorem dropJoins_width (g : Group) : (g.dropJoins).width = g.width := rfl
@[simp] theorem dropJoins_vcount (g : Group) : (g.dropJoins).vcount = g.vcount := rfl
@[simp] theorem dropJoins_scount (g : Group) : (g.dropJoins).scount = g.scount := rfl
@[simp] theorem dropJoins_waypt (g : Group) : (g.dropJoins).waypt = g.waypt := rfl
@[simp] theorem dropJoins_matrix (g : Group) : (g.dropJoins).matrix = g.matrix := rfl
@[simp] theorem dropJoins_core (g : Group) : (g.dropJoins).core = g.core := rfl
@[simp] theorem dropJoins_ctx (g : Group) : (g.dropJoins).ctx = g.ctx := rfl
@[simp] theorem dropJoins_frame (g : Group) : (g.dropJoins).frame = g.frame := rfl
@[simp] theorem dropJoins_st (g : Group) : (g.dropJoins).st = g.st := rfl
@[simp] theorem dropJoins_frameHeld (g : Group) : (g.dropJoins).frameHeld = g.frameHeld := rfl
@[simp] theorem dropJoins_stepping (g : Group) : (g.dropJoins).stepping = g.stepping := rfl
@[simp] theorem dropJoins_resumeReq (g : Group) : (g.dropJoins).resumeReq = g.resumeReq := rfl
@[simp] theorem dropJoins_recDone (g : Group) : (g.dropJoins).recDone = g.recDone := rfl
@[simp] theorem dropJoins_parkedAt (g : Group) : (g.dropJoins).parkedAt = g.parkedAt := rfl
@[simp] theorem dropJoins_issueSince (g : Group) : (g.dropJoins).issueSince = g.issueSince := rfl
@[simp] theorem dropJoins_vregs (g : Group) : (g.dropJoins).vregs = g.vregs := rfl
@[simp] theorem dropJoins_sregs (g : Group) : (g.dropJoins).sregs = g.sregs := rfl
@[simp] theorem dropJoins_preds (g : Group) : (g.dropJoins).preds = g.preds := rfl
@[simp] theorem dropJoins_lanes (g : Group) : (g.dropJoins).lanes = g.lanes := rfl
@[simp] theorem dropJoins_latches (g : Group) : (g.dropJoins).latches = g.latches := rfl
@[simp] theorem dropJoins_chain (g : Group) : (g.dropJoins).chain = g.chain := rfl
@[simp] theorem dropJoins_yieldTo (g : Group) : (g.dropJoins).yieldTo = g.yieldTo := rfl
@[simp] theorem dropJoins_cseq (g : Group) : (g.dropJoins).cseq = g.cseq := rfl
@[simp] theorem dropJoins_calls (g : Group) : (g.dropJoins).calls = g.calls := rfl
@[simp] theorem dropJoins_batches (g : Group) : (g.dropJoins).batches = g.batches := rfl
@[simp] theorem dropJoins_save (g : Group) : (g.dropJoins).save = g.save := rfl
@[simp] theorem dropJoins_faults (g : Group) : (g.dropJoins).faults = g.faults := rfl
@[simp] theorem dropJoins_rgen (g : Group) : (g.dropJoins).rgen = g.rgen := rfl
@[simp] theorem dropJoins_roMem (g : Group) : (g.dropJoins).roMem = g.roMem := rfl
@[simp] theorem dropJoins_badV (g : Group) : (g.dropJoins).badV = g.badV := rfl
@[simp] theorem dropJoins_badS (g : Group) : (g.dropJoins).badS = g.badS := rfl
@[simp] theorem dropJoins_kept (g : Group) : (g.dropJoins).kept = g.kept := rfl
@[simp] theorem dropJoins_lastTime (g : Group) : (g.dropJoins).lastTime = g.lastTime := rfl
@[simp] theorem dropJoins_image (g : Group) : (g.dropJoins).image = g.image := rfl
@[simp] theorem dropJoins_spill (g : Group) : (g.dropJoins).spill = g.spill := rfl
@[simp] theorem dropJoins_seq (g : Group) : (g.dropJoins).seq = g.seq := rfl
@[simp] theorem dropJoins_seen (g : Group) : (g.dropJoins).seen = g.seen := rfl
@[simp] theorem dropJoins_relFence (g : Group) : (g.dropJoins).relFence = g.relFence := rfl
@[simp] theorem dropJoins_block (g : Group) : (g.dropJoins).block = g.block := rfl
@[simp] theorem dropJoins_entryDue (g : Group) : (g.dropJoins).entryDue = g.entryDue := rfl
@[simp] theorem dropJoins_brk (g : Group) : (g.dropJoins).brk = g.brk := rfl
@[simp] theorem dropJoins_redrop (g : Group) : (g.dropJoins).redrop = g.redrop := rfl

/-! ### Group.settle -/

@[simp] theorem settle_id (g : Group) : (g.settle).id = g.id := rfl
@[simp] theorem settle_sheet (g : Group) : (g.settle).sheet = g.sheet := rfl
@[simp] theorem settle_team (g : Group) : (g.settle).team = g.team := rfl
@[simp] theorem settle_idx (g : Group) : (g.settle).idx = g.idx := rfl
@[simp] theorem settle_asn (g : Group) : (g.settle).asn = g.asn := rfl
@[simp] theorem settle_sheetid (g : Group) : (g.settle).sheetid = g.sheetid := rfl
@[simp] theorem settle_teamid (g : Group) : (g.settle).teamid = g.teamid := rfl
@[simp] theorem settle_tsize (g : Group) : (g.settle).tsize = g.tsize := rfl
@[simp] theorem settle_width (g : Group) : (g.settle).width = g.width := rfl
@[simp] theorem settle_vcount (g : Group) : (g.settle).vcount = g.vcount := rfl
@[simp] theorem settle_scount (g : Group) : (g.settle).scount = g.scount := rfl
@[simp] theorem settle_waypt (g : Group) : (g.settle).waypt = g.waypt := rfl
@[simp] theorem settle_matrix (g : Group) : (g.settle).matrix = g.matrix := rfl
@[simp] theorem settle_core (g : Group) : (g.settle).core = g.core := rfl
@[simp] theorem settle_ctx (g : Group) : (g.settle).ctx = g.ctx := rfl
@[simp] theorem settle_frame (g : Group) : (g.settle).frame = g.frame := rfl
@[simp] theorem settle_st (g : Group) : (g.settle).st = g.st := rfl
@[simp] theorem settle_frameHeld (g : Group) : (g.settle).frameHeld = g.frameHeld := rfl
@[simp] theorem settle_stepping (g : Group) : (g.settle).stepping = g.stepping := rfl
@[simp] theorem settle_resumeReq (g : Group) : (g.settle).resumeReq = g.resumeReq := rfl
@[simp] theorem settle_recDone (g : Group) : (g.settle).recDone = g.recDone := rfl
@[simp] theorem settle_parkedAt (g : Group) : (g.settle).parkedAt = g.parkedAt := rfl
@[simp] theorem settle_issueSince (g : Group) : (g.settle).issueSince = g.issueSince := rfl
@[simp] theorem settle_vregs (g : Group) : (g.settle).vregs = g.vregs := rfl
@[simp] theorem settle_sregs (g : Group) : (g.settle).sregs = g.sregs := rfl
@[simp] theorem settle_preds (g : Group) : (g.settle).preds = g.preds := rfl
@[simp] theorem settle_latches (g : Group) : (g.settle).latches = g.latches := rfl
@[simp] theorem settle_chain (g : Group) : (g.settle).chain = g.chain := rfl
@[simp] theorem settle_yieldTo (g : Group) : (g.settle).yieldTo = g.yieldTo := rfl
@[simp] theorem settle_cseq (g : Group) : (g.settle).cseq = g.cseq := rfl
@[simp] theorem settle_calls (g : Group) : (g.settle).calls = g.calls := rfl
@[simp] theorem settle_batches (g : Group) : (g.settle).batches = g.batches := rfl
@[simp] theorem settle_save (g : Group) : (g.settle).save = g.save := rfl
@[simp] theorem settle_faults (g : Group) : (g.settle).faults = g.faults := rfl
@[simp] theorem settle_rgen (g : Group) : (g.settle).rgen = g.rgen := rfl
@[simp] theorem settle_roMem (g : Group) : (g.settle).roMem = g.roMem := rfl
@[simp] theorem settle_badV (g : Group) : (g.settle).badV = g.badV := rfl
@[simp] theorem settle_badS (g : Group) : (g.settle).badS = g.badS := rfl
@[simp] theorem settle_kept (g : Group) : (g.settle).kept = g.kept := rfl
@[simp] theorem settle_lastTime (g : Group) : (g.settle).lastTime = g.lastTime := rfl
@[simp] theorem settle_image (g : Group) : (g.settle).image = g.image := rfl
@[simp] theorem settle_spill (g : Group) : (g.settle).spill = g.spill := rfl
@[simp] theorem settle_seq (g : Group) : (g.settle).seq = g.seq := rfl
@[simp] theorem settle_seen (g : Group) : (g.settle).seen = g.seen := rfl
@[simp] theorem settle_relFence (g : Group) : (g.settle).relFence = g.relFence := rfl
@[simp] theorem settle_block (g : Group) : (g.settle).block = g.block := rfl
@[simp] theorem settle_entryDue (g : Group) : (g.settle).entryDue = g.entryDue := rfl
@[simp] theorem settle_brk (g : Group) : (g.settle).brk = g.brk := rfl
@[simp] theorem settle_redrop (g : Group) : (g.settle).redrop = g.redrop := rfl

/-! ### Group.moveTo -/

@[simp] theorem moveTo_id (g : Group) (m : Mask) (pc : DWord) : (g.moveTo m pc).id = g.id := rfl
@[simp] theorem moveTo_sheet (g : Group) (m : Mask) (pc : DWord) : (g.moveTo m pc).sheet = g.sheet := rfl
@[simp] theorem moveTo_team (g : Group) (m : Mask) (pc : DWord) : (g.moveTo m pc).team = g.team := rfl
@[simp] theorem moveTo_idx (g : Group) (m : Mask) (pc : DWord) : (g.moveTo m pc).idx = g.idx := rfl
@[simp] theorem moveTo_asn (g : Group) (m : Mask) (pc : DWord) : (g.moveTo m pc).asn = g.asn := rfl
@[simp] theorem moveTo_sheetid (g : Group) (m : Mask) (pc : DWord) : (g.moveTo m pc).sheetid = g.sheetid := rfl
@[simp] theorem moveTo_teamid (g : Group) (m : Mask) (pc : DWord) : (g.moveTo m pc).teamid = g.teamid := rfl
@[simp] theorem moveTo_tsize (g : Group) (m : Mask) (pc : DWord) : (g.moveTo m pc).tsize = g.tsize := rfl
@[simp] theorem moveTo_width (g : Group) (m : Mask) (pc : DWord) : (g.moveTo m pc).width = g.width := rfl
@[simp] theorem moveTo_vcount (g : Group) (m : Mask) (pc : DWord) : (g.moveTo m pc).vcount = g.vcount := rfl
@[simp] theorem moveTo_scount (g : Group) (m : Mask) (pc : DWord) : (g.moveTo m pc).scount = g.scount := rfl
@[simp] theorem moveTo_waypt (g : Group) (m : Mask) (pc : DWord) : (g.moveTo m pc).waypt = g.waypt := rfl
@[simp] theorem moveTo_matrix (g : Group) (m : Mask) (pc : DWord) : (g.moveTo m pc).matrix = g.matrix := rfl
@[simp] theorem moveTo_core (g : Group) (m : Mask) (pc : DWord) : (g.moveTo m pc).core = g.core := rfl
@[simp] theorem moveTo_ctx (g : Group) (m : Mask) (pc : DWord) : (g.moveTo m pc).ctx = g.ctx := rfl
@[simp] theorem moveTo_frame (g : Group) (m : Mask) (pc : DWord) : (g.moveTo m pc).frame = g.frame := rfl
@[simp] theorem moveTo_st (g : Group) (m : Mask) (pc : DWord) : (g.moveTo m pc).st = g.st := rfl
@[simp] theorem moveTo_frameHeld (g : Group) (m : Mask) (pc : DWord) : (g.moveTo m pc).frameHeld = g.frameHeld := rfl
@[simp] theorem moveTo_stepping (g : Group) (m : Mask) (pc : DWord) : (g.moveTo m pc).stepping = g.stepping := rfl
@[simp] theorem moveTo_resumeReq (g : Group) (m : Mask) (pc : DWord) : (g.moveTo m pc).resumeReq = g.resumeReq := rfl
@[simp] theorem moveTo_recDone (g : Group) (m : Mask) (pc : DWord) : (g.moveTo m pc).recDone = g.recDone := rfl
@[simp] theorem moveTo_parkedAt (g : Group) (m : Mask) (pc : DWord) : (g.moveTo m pc).parkedAt = g.parkedAt := rfl
@[simp] theorem moveTo_issueSince (g : Group) (m : Mask) (pc : DWord) : (g.moveTo m pc).issueSince = g.issueSince := rfl
@[simp] theorem moveTo_vregs (g : Group) (m : Mask) (pc : DWord) : (g.moveTo m pc).vregs = g.vregs := rfl
@[simp] theorem moveTo_sregs (g : Group) (m : Mask) (pc : DWord) : (g.moveTo m pc).sregs = g.sregs := rfl
@[simp] theorem moveTo_preds (g : Group) (m : Mask) (pc : DWord) : (g.moveTo m pc).preds = g.preds := rfl
@[simp] theorem moveTo_latches (g : Group) (m : Mask) (pc : DWord) : (g.moveTo m pc).latches = g.latches := rfl
@[simp] theorem moveTo_chain (g : Group) (m : Mask) (pc : DWord) : (g.moveTo m pc).chain = g.chain := rfl
@[simp] theorem moveTo_yieldTo (g : Group) (m : Mask) (pc : DWord) : (g.moveTo m pc).yieldTo = g.yieldTo := rfl
@[simp] theorem moveTo_cseq (g : Group) (m : Mask) (pc : DWord) : (g.moveTo m pc).cseq = g.cseq := rfl
@[simp] theorem moveTo_calls (g : Group) (m : Mask) (pc : DWord) : (g.moveTo m pc).calls = g.calls := rfl
@[simp] theorem moveTo_batches (g : Group) (m : Mask) (pc : DWord) : (g.moveTo m pc).batches = g.batches := rfl
@[simp] theorem moveTo_save (g : Group) (m : Mask) (pc : DWord) : (g.moveTo m pc).save = g.save := rfl
@[simp] theorem moveTo_faults (g : Group) (m : Mask) (pc : DWord) : (g.moveTo m pc).faults = g.faults := rfl
@[simp] theorem moveTo_rgen (g : Group) (m : Mask) (pc : DWord) : (g.moveTo m pc).rgen = g.rgen := rfl
@[simp] theorem moveTo_roMem (g : Group) (m : Mask) (pc : DWord) : (g.moveTo m pc).roMem = g.roMem := rfl
@[simp] theorem moveTo_badV (g : Group) (m : Mask) (pc : DWord) : (g.moveTo m pc).badV = g.badV := rfl
@[simp] theorem moveTo_badS (g : Group) (m : Mask) (pc : DWord) : (g.moveTo m pc).badS = g.badS := rfl
@[simp] theorem moveTo_kept (g : Group) (m : Mask) (pc : DWord) : (g.moveTo m pc).kept = g.kept := rfl
@[simp] theorem moveTo_lastTime (g : Group) (m : Mask) (pc : DWord) : (g.moveTo m pc).lastTime = g.lastTime := rfl
@[simp] theorem moveTo_image (g : Group) (m : Mask) (pc : DWord) : (g.moveTo m pc).image = g.image := rfl
@[simp] theorem moveTo_spill (g : Group) (m : Mask) (pc : DWord) : (g.moveTo m pc).spill = g.spill := rfl
@[simp] theorem moveTo_seq (g : Group) (m : Mask) (pc : DWord) : (g.moveTo m pc).seq = g.seq := rfl
@[simp] theorem moveTo_seen (g : Group) (m : Mask) (pc : DWord) : (g.moveTo m pc).seen = g.seen := rfl
@[simp] theorem moveTo_relFence (g : Group) (m : Mask) (pc : DWord) : (g.moveTo m pc).relFence = g.relFence := rfl
@[simp] theorem moveTo_block (g : Group) (m : Mask) (pc : DWord) : (g.moveTo m pc).block = g.block := rfl
@[simp] theorem moveTo_entryDue (g : Group) (m : Mask) (pc : DWord) : (g.moveTo m pc).entryDue = g.entryDue := rfl
@[simp] theorem moveTo_brk (g : Group) (m : Mask) (pc : DWord) : (g.moveTo m pc).brk = g.brk := rfl
@[simp] theorem moveTo_redrop (g : Group) (m : Mask) (pc : DWord) : (g.moveTo m pc).redrop = g.redrop := rfl

/-! ### Group.waitAt -/

@[simp] theorem waitAt_id (g : Group) (m : Mask) (w : Wait) : (g.waitAt m w).id = g.id := rfl
@[simp] theorem waitAt_sheet (g : Group) (m : Mask) (w : Wait) : (g.waitAt m w).sheet = g.sheet := rfl
@[simp] theorem waitAt_team (g : Group) (m : Mask) (w : Wait) : (g.waitAt m w).team = g.team := rfl
@[simp] theorem waitAt_idx (g : Group) (m : Mask) (w : Wait) : (g.waitAt m w).idx = g.idx := rfl
@[simp] theorem waitAt_asn (g : Group) (m : Mask) (w : Wait) : (g.waitAt m w).asn = g.asn := rfl
@[simp] theorem waitAt_sheetid (g : Group) (m : Mask) (w : Wait) : (g.waitAt m w).sheetid = g.sheetid := rfl
@[simp] theorem waitAt_teamid (g : Group) (m : Mask) (w : Wait) : (g.waitAt m w).teamid = g.teamid := rfl
@[simp] theorem waitAt_tsize (g : Group) (m : Mask) (w : Wait) : (g.waitAt m w).tsize = g.tsize := rfl
@[simp] theorem waitAt_width (g : Group) (m : Mask) (w : Wait) : (g.waitAt m w).width = g.width := rfl
@[simp] theorem waitAt_vcount (g : Group) (m : Mask) (w : Wait) : (g.waitAt m w).vcount = g.vcount := rfl
@[simp] theorem waitAt_scount (g : Group) (m : Mask) (w : Wait) : (g.waitAt m w).scount = g.scount := rfl
@[simp] theorem waitAt_waypt (g : Group) (m : Mask) (w : Wait) : (g.waitAt m w).waypt = g.waypt := rfl
@[simp] theorem waitAt_matrix (g : Group) (m : Mask) (w : Wait) : (g.waitAt m w).matrix = g.matrix := rfl
@[simp] theorem waitAt_core (g : Group) (m : Mask) (w : Wait) : (g.waitAt m w).core = g.core := rfl
@[simp] theorem waitAt_ctx (g : Group) (m : Mask) (w : Wait) : (g.waitAt m w).ctx = g.ctx := rfl
@[simp] theorem waitAt_frame (g : Group) (m : Mask) (w : Wait) : (g.waitAt m w).frame = g.frame := rfl
@[simp] theorem waitAt_st (g : Group) (m : Mask) (w : Wait) : (g.waitAt m w).st = g.st := rfl
@[simp] theorem waitAt_frameHeld (g : Group) (m : Mask) (w : Wait) : (g.waitAt m w).frameHeld = g.frameHeld := rfl
@[simp] theorem waitAt_stepping (g : Group) (m : Mask) (w : Wait) : (g.waitAt m w).stepping = g.stepping := rfl
@[simp] theorem waitAt_resumeReq (g : Group) (m : Mask) (w : Wait) : (g.waitAt m w).resumeReq = g.resumeReq := rfl
@[simp] theorem waitAt_recDone (g : Group) (m : Mask) (w : Wait) : (g.waitAt m w).recDone = g.recDone := rfl
@[simp] theorem waitAt_parkedAt (g : Group) (m : Mask) (w : Wait) : (g.waitAt m w).parkedAt = g.parkedAt := rfl
@[simp] theorem waitAt_issueSince (g : Group) (m : Mask) (w : Wait) : (g.waitAt m w).issueSince = g.issueSince := rfl
@[simp] theorem waitAt_vregs (g : Group) (m : Mask) (w : Wait) : (g.waitAt m w).vregs = g.vregs := rfl
@[simp] theorem waitAt_sregs (g : Group) (m : Mask) (w : Wait) : (g.waitAt m w).sregs = g.sregs := rfl
@[simp] theorem waitAt_preds (g : Group) (m : Mask) (w : Wait) : (g.waitAt m w).preds = g.preds := rfl
@[simp] theorem waitAt_latches (g : Group) (m : Mask) (w : Wait) : (g.waitAt m w).latches = g.latches := rfl
@[simp] theorem waitAt_joins (g : Group) (m : Mask) (w : Wait) : (g.waitAt m w).joins = g.joins := rfl
@[simp] theorem waitAt_chain (g : Group) (m : Mask) (w : Wait) : (g.waitAt m w).chain = g.chain := rfl
@[simp] theorem waitAt_yieldTo (g : Group) (m : Mask) (w : Wait) : (g.waitAt m w).yieldTo = g.yieldTo := rfl
@[simp] theorem waitAt_cseq (g : Group) (m : Mask) (w : Wait) : (g.waitAt m w).cseq = g.cseq := rfl
@[simp] theorem waitAt_calls (g : Group) (m : Mask) (w : Wait) : (g.waitAt m w).calls = g.calls := rfl
@[simp] theorem waitAt_batches (g : Group) (m : Mask) (w : Wait) : (g.waitAt m w).batches = g.batches := rfl
@[simp] theorem waitAt_save (g : Group) (m : Mask) (w : Wait) : (g.waitAt m w).save = g.save := rfl
@[simp] theorem waitAt_faults (g : Group) (m : Mask) (w : Wait) : (g.waitAt m w).faults = g.faults := rfl
@[simp] theorem waitAt_rgen (g : Group) (m : Mask) (w : Wait) : (g.waitAt m w).rgen = g.rgen := rfl
@[simp] theorem waitAt_roMem (g : Group) (m : Mask) (w : Wait) : (g.waitAt m w).roMem = g.roMem := rfl
@[simp] theorem waitAt_badV (g : Group) (m : Mask) (w : Wait) : (g.waitAt m w).badV = g.badV := rfl
@[simp] theorem waitAt_badS (g : Group) (m : Mask) (w : Wait) : (g.waitAt m w).badS = g.badS := rfl
@[simp] theorem waitAt_kept (g : Group) (m : Mask) (w : Wait) : (g.waitAt m w).kept = g.kept := rfl
@[simp] theorem waitAt_lastTime (g : Group) (m : Mask) (w : Wait) : (g.waitAt m w).lastTime = g.lastTime := rfl
@[simp] theorem waitAt_image (g : Group) (m : Mask) (w : Wait) : (g.waitAt m w).image = g.image := rfl
@[simp] theorem waitAt_spill (g : Group) (m : Mask) (w : Wait) : (g.waitAt m w).spill = g.spill := rfl
@[simp] theorem waitAt_seq (g : Group) (m : Mask) (w : Wait) : (g.waitAt m w).seq = g.seq := rfl
@[simp] theorem waitAt_seen (g : Group) (m : Mask) (w : Wait) : (g.waitAt m w).seen = g.seen := rfl
@[simp] theorem waitAt_relFence (g : Group) (m : Mask) (w : Wait) : (g.waitAt m w).relFence = g.relFence := rfl
@[simp] theorem waitAt_block (g : Group) (m : Mask) (w : Wait) : (g.waitAt m w).block = g.block := rfl
@[simp] theorem waitAt_entryDue (g : Group) (m : Mask) (w : Wait) : (g.waitAt m w).entryDue = g.entryDue := rfl
@[simp] theorem waitAt_brk (g : Group) (m : Mask) (w : Wait) : (g.waitAt m w).brk = g.brk := rfl
@[simp] theorem waitAt_redrop (g : Group) (m : Mask) (w : Wait) : (g.waitAt m w).redrop = g.redrop := rfl

/-! ### Group.rearm -/

@[simp] theorem rearm_id (g : Group) (m : Mask) : (g.rearm m).id = g.id := rfl
@[simp] theorem rearm_sheet (g : Group) (m : Mask) : (g.rearm m).sheet = g.sheet := rfl
@[simp] theorem rearm_team (g : Group) (m : Mask) : (g.rearm m).team = g.team := rfl
@[simp] theorem rearm_idx (g : Group) (m : Mask) : (g.rearm m).idx = g.idx := rfl
@[simp] theorem rearm_asn (g : Group) (m : Mask) : (g.rearm m).asn = g.asn := rfl
@[simp] theorem rearm_sheetid (g : Group) (m : Mask) : (g.rearm m).sheetid = g.sheetid := rfl
@[simp] theorem rearm_teamid (g : Group) (m : Mask) : (g.rearm m).teamid = g.teamid := rfl
@[simp] theorem rearm_tsize (g : Group) (m : Mask) : (g.rearm m).tsize = g.tsize := rfl
@[simp] theorem rearm_width (g : Group) (m : Mask) : (g.rearm m).width = g.width := rfl
@[simp] theorem rearm_vcount (g : Group) (m : Mask) : (g.rearm m).vcount = g.vcount := rfl
@[simp] theorem rearm_scount (g : Group) (m : Mask) : (g.rearm m).scount = g.scount := rfl
@[simp] theorem rearm_waypt (g : Group) (m : Mask) : (g.rearm m).waypt = g.waypt := rfl
@[simp] theorem rearm_matrix (g : Group) (m : Mask) : (g.rearm m).matrix = g.matrix := rfl
@[simp] theorem rearm_core (g : Group) (m : Mask) : (g.rearm m).core = g.core := rfl
@[simp] theorem rearm_ctx (g : Group) (m : Mask) : (g.rearm m).ctx = g.ctx := rfl
@[simp] theorem rearm_frame (g : Group) (m : Mask) : (g.rearm m).frame = g.frame := rfl
@[simp] theorem rearm_st (g : Group) (m : Mask) : (g.rearm m).st = g.st := rfl
@[simp] theorem rearm_frameHeld (g : Group) (m : Mask) : (g.rearm m).frameHeld = g.frameHeld := rfl
@[simp] theorem rearm_stepping (g : Group) (m : Mask) : (g.rearm m).stepping = g.stepping := rfl
@[simp] theorem rearm_resumeReq (g : Group) (m : Mask) : (g.rearm m).resumeReq = g.resumeReq := rfl
@[simp] theorem rearm_recDone (g : Group) (m : Mask) : (g.rearm m).recDone = g.recDone := rfl
@[simp] theorem rearm_parkedAt (g : Group) (m : Mask) : (g.rearm m).parkedAt = g.parkedAt := rfl
@[simp] theorem rearm_issueSince (g : Group) (m : Mask) : (g.rearm m).issueSince = g.issueSince := rfl
@[simp] theorem rearm_vregs (g : Group) (m : Mask) : (g.rearm m).vregs = g.vregs := rfl
@[simp] theorem rearm_sregs (g : Group) (m : Mask) : (g.rearm m).sregs = g.sregs := rfl
@[simp] theorem rearm_preds (g : Group) (m : Mask) : (g.rearm m).preds = g.preds := rfl
@[simp] theorem rearm_latches (g : Group) (m : Mask) : (g.rearm m).latches = g.latches := rfl
@[simp] theorem rearm_joins (g : Group) (m : Mask) : (g.rearm m).joins = g.joins := rfl
@[simp] theorem rearm_chain (g : Group) (m : Mask) : (g.rearm m).chain = g.chain := rfl
@[simp] theorem rearm_yieldTo (g : Group) (m : Mask) : (g.rearm m).yieldTo = g.yieldTo := rfl
@[simp] theorem rearm_cseq (g : Group) (m : Mask) : (g.rearm m).cseq = g.cseq := rfl
@[simp] theorem rearm_calls (g : Group) (m : Mask) : (g.rearm m).calls = g.calls := rfl
@[simp] theorem rearm_batches (g : Group) (m : Mask) : (g.rearm m).batches = g.batches := rfl
@[simp] theorem rearm_save (g : Group) (m : Mask) : (g.rearm m).save = g.save := rfl
@[simp] theorem rearm_faults (g : Group) (m : Mask) : (g.rearm m).faults = g.faults := rfl
@[simp] theorem rearm_rgen (g : Group) (m : Mask) : (g.rearm m).rgen = g.rgen := rfl
@[simp] theorem rearm_roMem (g : Group) (m : Mask) : (g.rearm m).roMem = g.roMem := rfl
@[simp] theorem rearm_badV (g : Group) (m : Mask) : (g.rearm m).badV = g.badV := rfl
@[simp] theorem rearm_badS (g : Group) (m : Mask) : (g.rearm m).badS = g.badS := rfl
@[simp] theorem rearm_kept (g : Group) (m : Mask) : (g.rearm m).kept = g.kept := rfl
@[simp] theorem rearm_lastTime (g : Group) (m : Mask) : (g.rearm m).lastTime = g.lastTime := rfl
@[simp] theorem rearm_image (g : Group) (m : Mask) : (g.rearm m).image = g.image := rfl
@[simp] theorem rearm_spill (g : Group) (m : Mask) : (g.rearm m).spill = g.spill := rfl
@[simp] theorem rearm_seq (g : Group) (m : Mask) : (g.rearm m).seq = g.seq := rfl
@[simp] theorem rearm_seen (g : Group) (m : Mask) : (g.rearm m).seen = g.seen := rfl
@[simp] theorem rearm_relFence (g : Group) (m : Mask) : (g.rearm m).relFence = g.relFence := rfl
@[simp] theorem rearm_block (g : Group) (m : Mask) : (g.rearm m).block = g.block := rfl
@[simp] theorem rearm_entryDue (g : Group) (m : Mask) : (g.rearm m).entryDue = g.entryDue := rfl
@[simp] theorem rearm_brk (g : Group) (m : Mask) : (g.rearm m).brk = g.brk := rfl
@[simp] theorem rearm_redrop (g : Group) (m : Mask) : (g.rearm m).redrop = g.redrop := rfl

/-! ### Finding a record after an update -/

/-- A list of records whose keys stay the same is searched alike. -/
theorem find_map_key {α : Type} (key : α → Nat) (f : α → α) (hk : ∀ x, key (f x) = key x) (k : Nat) (l : List α) :
    (l.map f).find? (fun x => key x == k) = (l.find? fun x => key x == k).map f := by
  induction l with
  | nil => rfl
  | cons x xs ih =>
    by_cases h : key x = k
    · simp [hk, h]
    · have h1 : (key x == k) = false := by simpa using h
      simp only [List.map_cons, List.find?_cons, hk, h1, ih]
/-- What `find?` answers has the key that was asked for. -/
theorem find_key {α : Type} (key : α → Nat) (k : Nat) (l : List α) (x : α) (h : l.find? (fun x => key x == k) = some x) :
    key x = k := by
  simpa using List.find?_some h

theorem grp_id (s : State) (k : Nat) (g : Group) (h : s.grp? k = some g) : g.id = k := find_key Group.id k s.groups g h

/-- A group after an update of one group that keeps its name. -/
theorem grp_modGrp (s : State) (k id : Nat) (f : Group → Group) (hf : ∀ g, (f g).id = g.id) :
    (s.modGrp k f).grp? id = if id = k then (s.grp? id).map f else s.grp? id := by
  have h1 := find_map_key (α := Group) (·.id) (fun h => if h.id == k then f h else h)
    (fun x => by by_cases h : x.id = k <;> simp [h, hf]) id s.groups
  have h2 : (s.modGrp k f).grp? id = (s.grp? id).map fun h => if h.id == k then f h else h := h1
  rw [h2]
  cases hg : s.grp? id with
  | none => simp
  | some g =>
    have hid := grp_id s id g hg
    by_cases hk : id = k
    · simp [hk, hid]
    · simp [hk, hid]
/-- The group that is replaced, and any other. -/
theorem grp_setGrp (s : State) (g : Group) (id : Nat) :
    (s.setGrp g).grp? id = if id = g.id then (s.grp? id).map (fun _ => g) else s.grp? id := by
  have h1 := find_map_key (α := Group) (·.id) (fun h => if h.id == g.id then g else h)
    (fun x => by by_cases h : x.id = g.id <;> simp [h]) id s.groups
  have h2 : (s.setGrp g).grp? id = (s.grp? id).map fun h => if h.id == g.id then g else h := h1
  rw [h2]
  cases hg : s.grp? id with
  | none => simp
  | some h =>
    have hid := grp_id s id h hg
    by_cases hk : id = g.id
    · simp [hk, hid]
    · simp [hk, hid]
/-- A group after an update of every group. -/
theorem grp_modGrps (s : State) (id : Nat) (f : Group → Group) (hf : ∀ g, (f g).id = g.id) :
    (s.modGrps f).grp? id = (s.grp? id).map f := find_map_key Group.id f hf id s.groups
@[simp] theorem grp_modTeam (s : State) (k id : Nat) (f : Team → Team) : (s.modTeam k f).grp? id = s.grp? id := rfl
@[simp] theorem grp_modSheet (s : State) (k id : Nat) (f : Sheet → Sheet) : (s.modSheet k f).grp? id = s.grp? id := rfl
@[simp] theorem grp_modQueue (s : State) (k id : Nat) (f : Queue → Queue) : (s.modQueue k f).grp? id = s.grp? id := rfl
@[simp] theorem grp_modCore (s : State) (k id : Nat) (f : Core → Core) : (s.modCore k f).grp? id = s.grp? id := rfl
@[simp] theorem grp_modSurv (s : State) (k id : Nat) (f : Surveyor → Surveyor) : (s.modSurv k f).grp? id = s.grp? id := rfl
@[simp] theorem grp_modDie (s : State) (k id : Nat) (f : Die → Die) : (s.modDie k f).grp? id = s.grp? id := rfl
@[simp] theorem team_setGrp (s : State) (g : Group) (id : Nat) : (s.setGrp g).team? id = s.team? id := rfl
@[simp] theorem team_modGrp (s : State) (k id : Nat) (f : Group → Group) : (s.modGrp k f).team? id = s.team? id := rfl
@[simp] theorem team_modCore (s : State) (k id : Nat) (f : Core → Core) : (s.modCore k f).team? id = s.team? id := rfl
theorem team_modTeam (s : State) (k id : Nat) (f : Team → Team) (hf : ∀ t, (f t).id = t.id) :
    (s.modTeam k f).team? id = if id = k then (s.team? id).map f else s.team? id := by
  have h1 := find_map_key (α := Team) (·.id) (fun h => if h.id == k then f h else h)
    (fun x => by by_cases h : x.id = k <;> simp [h, hf]) id s.teams
  have h2 : (s.modTeam k f).team? id = (s.team? id).map fun h => if h.id == k then f h else h := h1
  rw [h2]
  cases hg : s.team? id with
  | none => simp
  | some t =>
    have hid : t.id = id := find_key Team.id id s.teams t hg
    by_cases hk : id = k
    · simp [hk, hid]
    · simp [hk, hid]

/-! ### Records by key -/

/-- Keys are kept by a map that only changes values of key k. -/
theorem find_setK_map {α : Type} (m : List (Nat × α)) (x : α) (k j : Nat) :
    (m.map fun e => if e.1 == k then (k, x) else e).find? (fun e => e.1 == j) =
      (m.find? fun e => e.1 == j).map fun e => if e.1 == k then (k, x) else e := by
  refine find_map_key (α := Nat × α) Prod.fst _ ?_ j m
  intro e
  by_cases h : e.1 = k <;> simp [h]
theorem getK_setK_same {α : Type} (m : List (Nat × α)) (d x : α) (k : Nat) : getK (setK m k x) d k = x := by
  unfold setK getK
  by_cases h : m.any (fun e => e.1 == k) = true
  · rw [if_pos h, find_setK_map]
    cases hf : m.find? (fun e => e.1 == k) with
    | none => simp [List.find?_eq_none] at hf; simp [List.any_eq_true] at h; obtain ⟨y, hy⟩ := h; exact absurd rfl (hf k y hy)
    | some e => simp [find_key Prod.fst k m e hf]
  · rw [if_neg h]
    have hn : m.find? (fun e => e.1 == k) = none := by
      rw [List.find?_eq_none]; intro e he hk; exact h (List.any_eq_true.mpr ⟨e, he, hk⟩)
    simp [List.find?_append, hn]
theorem getK_setK_other {α : Type} (m : List (Nat × α)) (d x : α) (k j : Nat) (h : j ≠ k) : getK (setK m k x) d j = getK m d j := by
  unfold setK getK
  by_cases hm : m.any (fun e => e.1 == k) = true
  · rw [if_pos hm, find_setK_map]
    cases hf : m.find? (fun e => e.1 == j) with
    | none => rfl
    | some e => simp [find_key Prod.fst j m e hf, h]
  · rw [if_neg hm]
    have h1 : ¬ k = j := fun q => h q.symm
    simp [List.find?_append, h1]
theorem core_modCore (s : State) (k j : Nat) (f : Core → Core) :
    (s.modCore k f).core j = if j = k then f (s.core k) else s.core j := by
  unfold State.modCore State.core
  by_cases h : j = k
  · simp [h, getK_setK_same]
  · simp [h, getK_setK_other _ _ _ _ _ h]
theorem surv_modSurv (s : State) (k j : Nat) (f : Surveyor → Surveyor) :
    (s.modSurv k f).surv j = if j = k then f (s.surv k) else s.surv j := by
  unfold State.modSurv State.surv
  by_cases h : j = k
  · simp [h, getK_setK_same]
  · simp [h, getK_setK_other _ _ _ _ _ h]
theorem die_modDie (s : State) (k j : Nat) (f : Die → Die) :
    (s.modDie k f).die j = if j = k then f (s.die k) else s.die j := by
  unfold State.modDie State.die
  by_cases h : j = k
  · simp [h, getK_setK_same]
  · simp [h, getK_setK_other _ _ _ _ _ h]
theorem cluster_modCluster (s : State) (k j : Nat) (f : Cluster → Cluster) :
    (s.modCluster k f).cluster j = if j = k then f (s.cluster k) else s.cluster j := by
  unfold State.modCluster State.cluster
  by_cases h : j = k
  · simp [h, getK_setK_same]
  · simp [h, getK_setK_other _ _ _ _ _ h]
theorem hart_modHart (s : State) (k j : Nat) (f : Hart → Hart) :
    (s.modHart k f).hart j = if j = k then f (s.hart k) else s.hart j := by
  unfold State.modHart State.hart
  by_cases h : j = k
  · simp [h, getK_setK_same]
  · simp [h, getK_setK_other _ _ _ _ _ h]

end Sys2Proof.Laws
end

