-- ==== Sys2Proof/Laws/Issue.lean ====
section
/-!
SUPPORT. What an issue does around a meaning: the checks, and what the machine does with the meaning's answer.
-/
namespace Sys2Proof.Laws
open Sys2Proof.Machine

/-! ### Lanes -/

theorem lane_modLanes (g : Group) (m : Mask) (f : Nat → Lane → Lane) (L : Nat) (h : L < g.lanes.length) :
    (g.modLanes m f).lane L = if m.getLsbD L then f L (g.lane L) else g.lane L := by
  simp [Group.lane, Group.modLanes, List.getD_eq_getElem?_getD, h]
theorem lane_map (g : Group) (f : Lane → Lane) (L : Nat) (h : L < g.lanes.length) :
    ({ g with lanes := g.lanes.map f } : Group).lane L = f (g.lane L) := by
  simp [Group.lane, List.getD_eq_getElem?_getD, h]
theorem lane_settle (g : Group) (L : Nat) (h : L < g.lanes.length) :
    ∃ b, g.settle.lane L = { g.lane L with held := b } := by
  unfold Group.settle Group.lane
  simp [List.getD_eq_getElem?_getD, h, Group.dropJoins]
@[simp] theorem modLanes_length (g : Group) (m : Mask) (f : Nat → Lane → Lane) : (g.modLanes m f).lanes.length = g.lanes.length := by
  simp [Group.modLanes]
@[simp] theorem settle_length (g : Group) : g.settle.lanes.length = g.lanes.length := by
  simp [Group.settle, Group.dropJoins]
@[simp] theorem moveTo_length (g : Group) (m : Mask) (pc : DWord) : (g.moveTo m pc).lanes.length = g.lanes.length := by
  simp [Group.moveTo]
theorem lane_moveTo (g : Group) (m : Mask) (pc : DWord) (L : Nat) (h : L < g.lanes.length) :
    ∃ b, (g.moveTo m pc).lane L = { (if m.getLsbD L then { g.lane L with pc, wait := .none } else g.lane L) with held := b } := by
  obtain ⟨b, hb⟩ := lane_settle (g.modLanes m fun _ l => { l with pc, wait := .none }) L (by simpa using h)
  refine ⟨b, ?_⟩
  unfold Group.moveTo
  rw [hb, lane_modLanes _ _ _ _ h]

/-! ### The checks (R58) -/

/-- An issue that is performed is its meaning's answer, settled. -/
theorem runI_performs (i : Instr) (body : Q → State → Res) (s : State) (q : Q) (h : Performs i s q) :
    runI i body s = settleRes i q 0 (body q s) := by
  unfold runI
  have ha : (q.act == 0#64) = false := by simpa using h.executes
  simp [h.issues, h.passes, h.agrees, h.supplied, ha]
/-- An issue that no lane executes goes on (R42). -/
theorem runI_empty (i : Instr) (body : Q → State → Res) (s : State) (q : Q) (h : s.issuing i = some q) (hs : q.stops = none)
    (ha : q.act = 0#64) (hn : actsEmpty i = false) : runI i body s = settleRes i q 0 (.ok s) := by
  unfold runI
  simp [h, hs, ha, hn]
/-- An issue that a check stops takes its exception, but for one of a later check that E_TARGET comes before (R58). -/
theorem runI_stops (i : Instr) (body : Q → State → Res) (s : State) (q : Q) (c : Cause) (h : s.issuing i = some q)
    (hs : q.stops = some c) (ht : c = .illegal ∨ s.targetFirst i q = none) : runI i body s = settleRes i q 0 (trapAll q c s) := by
  unfold runI
  rcases ht with ht | ht <;> simp [h, hs, ht]
theorem runI_target (i : Instr) (body : Q → State → Res) (s : State) (q : Q) (c : Cause) (r : Res) (h : s.issuing i = some q)
    (hs : q.stops = some c) (hc : c ≠ .illegal) (ht : s.targetFirst i q = some r) : runI i body s = settleRes i q 0 r := by
  unfold runI
  simp [h, hs, hc, ht]
/-- All that an issue in progress says: whose it is, its signature, its prefix, and the lanes that execute. -/
theorem issuing_eq {i : Instr} {s : State} {q : Q} (h : s.issuing i = some q) :
    ∃ c, s.cur = some c ∧ s.grp? c.gid = some q.g ∧ (sigOf i = some q.sg ∧ pfxOf i = some q.pf) ∧ q.act = q.g.active q.pf q.sub := by
  unfold State.issuing at h
  split at h
  · rename_i c _ _ hc hs hp
    obtain ⟨g, hg, rfl⟩ := Option.map_eq_some_iff.mp h
    exact ⟨c, hc, hg, ⟨hs, hp⟩, rfl⟩
  · cases h
/-- The issue names a group of the state. -/
theorem issuing_grp (i : Instr) (s : State) (q : Q) (h : s.issuing i = some q) : s.grp? q.g.id = some q.g := by
  obtain ⟨c, _, hg, _⟩ := issuing_eq h
  rw [grp_id s c.gid q.g hg, hg]
theorem issuing_act (i : Instr) (s : State) (q : Q) (h : s.issuing i = some q) : q.act = q.g.active q.pf q.sub :=
  let ⟨_, _, _, _, act⟩ := issuing_eq h
  act
theorem issuing_sig (i : Instr) (s : State) (q : Q) (h : s.issuing i = some q) : sigOf i = some q.sg ∧ pfxOf i = some q.pf :=
  let ⟨_, _, _, sig, _⟩ := issuing_eq h
  sig
/-- A performed issue's operands pass the header and latch checks. -/
theorem stops_fits (q : Q) (h : q.stops = none) : q.sg.fits q.g = true := by
  unfold Q.stops at h
  by_contra hf
  have hf : q.sg.fits q.g = false := by simpa using hf
  simp [hf] at h

/-! ### After the answer -/

/-- A core's clock pass leaves every group its view. -/
def tickLane (ck : Nat) (l : Lane) : Lane := match l.wait with
  | .nap n => { l with wait := .nap (n - ck), stall := l.stall - ck }
  | _ => { l with stall := l.stall - ck }
theorem tickLane_pc (ck : Nat) (l : Lane) : (tickLane ck l).pc = l.pc := by unfold tickLane; split <;> rfl
theorem tickLane_view (ck : Nat) (l : Lane) : (tickLane ck l).view = l.view := by unfold tickLane; split <;> rfl
theorem tickLane_wait (ck : Nat) (l : Lane) (h : l.wait = .none) : (tickLane ck l).wait = .none := by
  unfold tickLane; simp [h]
theorem tick_eq (s : State) (core ck : Nat) : s.tick core ck = (s.modCore core fun c => { c with cycle := c.cycle + BitVec.ofNat 64 ck }).modGrps
    fun g => if g.core == core && g.st != .saved then { g with lanes := g.lanes.map (tickLane ck) } else g := rfl


/-- What a core's clock pass does to a group. -/
def tickGroup (core ck : Nat) (g : Group) : Group :=
  if g.core == core && g.st != .saved then { g with lanes := g.lanes.map (tickLane ck) } else g
@[simp] theorem tickGroup_id (core ck : Nat) (g : Group) : (tickGroup core ck g).id = g.id := by unfold tickGroup; split <;> rfl
theorem tickGroup_view (core ck : Nat) (g : Group) : (tickGroup core ck g).view = g.view := by
  unfold tickGroup
  split
  · simp [Group.view, tickLane_view]
  · rfl
theorem grp_tick (s : State) (core ck id : Nat) : (s.tick core ck).grp? id = (s.grp? id).map (tickGroup core ck) := by
  rw [tick_eq]
  exact grp_modGrps _ id (tickGroup core ck) (tickGroup_id core ck)

/-- What a group keeps through an issue beside its lanes: registers, batches, calls, its context state, and what a save left. -/
def keptOf (G : Group) := (G.vregs, G.sregs, G.preds, G.batches, G.calls, G.st, G.save, G.frame)
/-- The marks that an issue that performs leaves in its group (R46, R47, R54). -/
def issuedBy (i : Instr) (q : Q) (ck : Nat) (G : Group) : Group := (G.unkeep q).issued i q ck (breaksAfter i q.sg q.pf || q.prior.isSome)
/-- The group after an issue that left it as G, took ck, and of which the core's clock moves on by n. -/
def wentGroup (q : Q) (ck n : Nat) (G : Group) : Group :=
  let b := tickGroup q.core n G
  { b with issueSince := b.issueSince + ck }
/-- The state after an issue of ck whose group goes on as f leaves it. -/
def wentState (q : Q) (ck : Nat) (f : Group → Group) (s : State) : State :=
  { ((s.modGrp q.g.id f).leaveQueue q.core q.g.id q.sub).spend q q.g.id ck with cur := none }
/-- An instruction that is performed moves its subset to the next slot. -/
def performedGrp (i : Instr) (q : Q) (ck : Nat) (G : Group) : Group := issuedBy i q ck (G.moveTo q.sub (nextPc q.pc))
/-- One that has placed its lanes itself leaves them there. -/
def placedGrp (i : Instr) (q : Q) (ck : Nat) (G : Group) : Group := issuedBy i q ck G.settle

theorem kept_tick (core n : Nat) (G : Group) : keptOf (tickGroup core n G) = keptOf G := by unfold tickGroup; split <;> rfl
theorem kept_unkeep (G : Group) (q : Q) : keptOf (G.unkeep q) = keptOf G := by unfold Group.unkeep; split <;> rfl
theorem kept_issued (G : Group) (i : Instr) (q : Q) (ck : Nat) (b : Bool) : keptOf (G.issued i q ck b) = keptOf G := by
  unfold Group.issued; dsimp only; split <;> (split <;> (split <;> rfl))
theorem kept_went (q : Q) (ck n : Nat) (G : Group) : keptOf (wentGroup q ck n G) = keptOf G := kept_tick q.core n G
theorem kept_issuedBy (i : Instr) (q : Q) (ck : Nat) (G : Group) : keptOf (issuedBy i q ck G) = keptOf G :=
  (kept_issued _ i q ck _).trans (kept_unkeep G q)
/-- What is kept, field by field. -/
theorem kept_fields {G H : Group} (h : keptOf H = keptOf G) : H.vregs = G.vregs ∧ H.sregs = G.sregs ∧ H.preds = G.preds ∧
    (H.batches = G.batches ∧ H.calls = G.calls ∧ H.st = G.st ∧ H.save = G.save ∧ H.frame = G.frame) := by
  simpa only [keptOf, Prod.mk.injEq] using h

@[simp] theorem unkeep_id (G : Group) (q : Q) : (G.unkeep q).id = G.id := by unfold Group.unkeep; split <;> rfl
@[simp] theorem unkeep_stepping (G : Group) (q : Q) : (G.unkeep q).stepping = G.stepping := by unfold Group.unkeep; split <;> rfl
@[simp] theorem unkeep_lanes (G : Group) (q : Q) : (G.unkeep q).lanes = G.lanes := by unfold Group.unkeep; split <;> rfl
@[simp] theorem issued_id (G : Group) (i : Instr) (q : Q) (ck : Nat) (b : Bool) : (G.issued i q ck b).id = G.id := by
  unfold Group.issued; dsimp only; split <;> (split <;> (split <;> rfl))
@[simp] theorem issued_stepping (G : Group) (i : Instr) (q : Q) (ck : Nat) (b : Bool) : (G.issued i q ck b).stepping = G.stepping := by
  unfold Group.issued; dsimp only; split <;> (split <;> (split <;> rfl))
@[simp] theorem issued_length (G : Group) (i : Instr) (q : Q) (ck : Nat) (b : Bool) :
    (G.issued i q ck b).lanes.length = G.lanes.length := by
  unfold Group.issued; dsimp only; split <;> (split <;> (split <;> simp [Group.loseLatches, Group.modLanes]))

/-- A lane after an issue: what the meaning left, with its commit mark and its stall. -/
theorem lane_issued (G : Group) (i : Instr) (q : Q) (ck : Nat) (b : Bool) (L : Nat) (h : L < G.lanes.length) :
    ∃ c st, (G.issued i q ck b).lane L = { G.lane L with commit := c, stall := st } := by
  have key : ∃ c st, (let g1 := if isCommit q.sg.unit i then G.modLanes q.sub fun _ l => { l with commit := true } else G
      let hold := q.pf.stall.toNat + hintPenalty i q
      if hold == 0 then g1 else g1.modLanes q.sub fun _ l => { l with stall := ck + hold }).lane L = { G.lane L with commit := c, stall := st } := by
    have step1 : ∃ c, (if isCommit q.sg.unit i then G.modLanes q.sub fun _ l => { l with commit := true } else G).lane L =
        { G.lane L with commit := c } ∧
        (if isCommit q.sg.unit i then G.modLanes q.sub fun _ l => { l with commit := true } else G).lanes.length = G.lanes.length := by
      by_cases hc : isCommit q.sg.unit i = true
      · simp only [hc, if_true]
        rw [lane_modLanes _ _ _ _ h]
        by_cases hq : q.sub.getLsbD L = true
        · exact ⟨true, by simp [hq], by simp⟩
        · exact ⟨(G.lane L).commit, by simp [hq], by simp⟩
      · simp only [hc]
        exact ⟨(G.lane L).commit, rfl, rfl⟩
    obtain ⟨c, hc, hlen⟩ := step1
    dsimp only
    by_cases hh : (q.pf.stall.toNat + hintPenalty i q == 0) = true
    · rw [if_pos hh]
      exact ⟨c, (G.lane L).stall, hc⟩
    · rw [if_neg hh, lane_modLanes _ _ _ _ (by rw [hlen]; exact h), hc]
      by_cases hq : q.sub.getLsbD L = true
      · exact ⟨c, ck + (q.pf.stall.toNat + hintPenalty i q), by simp [hq]⟩
      · exact ⟨c, (G.lane L).stall, by simp [hq]⟩
  obtain ⟨c, st, hk⟩ := key
  refine ⟨c, st, ?_⟩
  rw [← hk]
  unfold Group.issued
  dsimp only
  split
  · rfl
  · rfl

@[simp] theorem issuedBy_id (i : Instr) (q : Q) (ck : Nat) (G : Group) : (issuedBy i q ck G).id = G.id := by simp [issuedBy]
@[simp] theorem issuedBy_stepping (i : Instr) (q : Q) (ck : Nat) (G : Group) : (issuedBy i q ck G).stepping = G.stepping := by simp [issuedBy]
@[simp] theorem issuedBy_length (i : Instr) (q : Q) (ck : Nat) (G : Group) : (issuedBy i q ck G).lanes.length = G.lanes.length := by
  simp [issuedBy]
theorem lane_issuedBy (i : Instr) (q : Q) (ck : Nat) (G : Group) (L : Nat) (h : L < G.lanes.length) :
    ∃ c st, (issuedBy i q ck G).lane L = { G.lane L with commit := c, stall := st } := by
  have hl : (G.unkeep q).lane L = G.lane L := by unfold Group.lane; rw [unkeep_lanes]
  rw [← hl]
  exact lane_issued (G.unkeep q) i q ck _ L (by simpa using h)
/-- A lane after the core's clock has moved on. -/
theorem lane_went (q : Q) (ck n : Nat) (G : Group) (L : Nat) (h : L < G.lanes.length) :
    ∃ k : Bool, (wentGroup q ck n G).lane L = (if k then tickLane n else id) (G.lane L) := by
  unfold wentGroup tickGroup
  dsimp only
  split
  · exact ⟨true, lane_map _ _ L (by simpa using h)⟩
  · exact ⟨false, rfl⟩
theorem went_lane (q : Q) (ck n : Nat) (G : Group) (L : Nat) (h : L < G.lanes.length) :
    ((wentGroup q ck n G).lane L).view = (G.lane L).view ∧ ((wentGroup q ck n G).lane L).srRec = (G.lane L).srRec ∧
    ((G.lane L).wait = .none → ((wentGroup q ck n G).lane L).wait = .none) := by
  obtain ⟨k, hk⟩ := lane_went q ck n G L h
  rw [hk]
  cases k
  · exact ⟨rfl, rfl, fun h => h⟩
  · refine ⟨tickLane_view n _, ?_, tickLane_wait n _⟩
    rw [if_pos rfl]
    unfold tickLane
    split <;> rfl
/-- A lane after an issue that performs: what its meaning left, but for marks. -/
theorem lane_done (i : Instr) (q : Q) (ck n : Nat) (G : Group) (L : Nat) (h : L < G.lanes.length) :
    ((wentGroup q ck n (issuedBy i q ck G)).lane L).view = (G.lane L).view ∧
    ((wentGroup q ck n (issuedBy i q ck G)).lane L).srRec = (G.lane L).srRec ∧
    ((G.lane L).wait = .none → ((wentGroup q ck n (issuedBy i q ck G)).lane L).wait = .none) := by
  have hw := went_lane q ck n (issuedBy i q ck G) L (by simpa using h)
  obtain ⟨c, st, hi⟩ := lane_issuedBy i q ck G L h
  rw [hi] at hw
  exact hw
/-- A lane after an instruction that is performed. -/
theorem lane_performed (i : Instr) (q : Q) (ck n : Nat) (G : Group) (L : Nat) (h : L < G.lanes.length) :
    ((wentGroup q ck n (performedGrp i q ck G)).lane L).view = (if q.sub.getLsbD L then { G.lane L with pc := nextPc q.pc } else G.lane L).view ∧
    ((wentGroup q ck n (performedGrp i q ck G)).lane L).srRec = (G.lane L).srRec ∧
    (q.sub.getLsbD L = true → ((wentGroup q ck n (performedGrp i q ck G)).lane L).wait = .none) := by
  obtain ⟨b, hb⟩ := lane_moveTo G q.sub (nextPc q.pc) L h
  have hd := lane_done i q ck n (G.moveTo q.sub (nextPc q.pc)) L (by simpa [Group.moveTo] using h)
  rw [hb] at hd
  refine ⟨hd.1.trans ?_, hd.2.1.trans ?_, fun hq => hd.2.2 ?_⟩
  · split <;> rfl
  · split <;> rfl
  · rw [if_pos hq]

/-! ### Charges and the queue for request entries -/

@[simp] theorem grp_chargeUnits (s : State) (cl cls res n id : Nat) : (s.chargeUnits cl cls res n).grp? id = s.grp? id := rfl
@[simp] theorem core_chargeUnits (s : State) (cl cls res n c : Nat) : (s.chargeUnits cl cls res n).core c = s.core c := rfl
@[simp] theorem grp_leaveQueue (s : State) (core gid : Nat) (m : Mask) (id : Nat) : (s.leaveQueue core gid m).grp? id = s.grp? id := rfl
/-- A core whose subset has left the queue for request entries. -/
def leftCore (k : Core) (gid : Nat) (m : Mask) : Core := { k with reqQ := k.reqQ.filter fun e => !(e.1 == gid && e.2 &&& m != 0#64) }
theorem core_leaveQueue (s : State) (core gid : Nat) (m : Mask) (c : Nat) :
    (s.leaveQueue core gid m).core c = if c = core then leftCore (s.core core) gid m else s.core c :=
  core_modCore s core c _
/-- A charge changes only what a class has used, and how often all of it. -/
theorem terms_chargeUnits (s : State) (cl cls res n c : Nat) :
    ((s.chargeUnits cl cls res n).cluster c).terms = (s.cluster c).terms ∧ (c ≠ cl → (s.chargeUnits cl cls res n).cluster c = s.cluster c) := by
  unfold State.chargeUnits
  rw [cluster_modCluster]
  by_cases h : c = cl
  · subst h
    refine ⟨?_, fun h => absurd rfl h⟩
    rw [if_pos rfl]
    unfold Cluster.terms
    simp only
    congr 1
    refine List.ext_getElem? fun k => ?_
    simp only [List.getElem?_map, List.getElem?_modify]
    cases (s.cluster c).budgets[k]? with
    | none => rfl
    | some b =>
      by_cases hk : cls = k
      · simp [hk, Budget.charge]
      · simp [hk]
  · rw [if_neg h]
    exact ⟨rfl, fun _ => rfl⟩

theorem grp_spend (s : State) (q : Q) (gid ck id : Nat) : (s.spend q gid ck).grp? id =
    if id = gid then ((s.grp? id).map (tickGroup q.core ((s.core q.core).growth q.g ck))).map fun g => { g with issueSince := g.issueSince + ck }
    else (s.grp? id).map (tickGroup q.core ((s.core q.core).growth q.g ck)) := by
  unfold State.spend
  dsimp only
  rw [grp_chargeUnits, grp_modCore, grp_modGrp _ gid id (fun g => { g with issueSince := g.issueSince + ck }) (fun _ => rfl), grp_modCore, grp_tick]
theorem core_tick (s : State) (core ck c : Nat) : (s.tick core ck).core c =
    if c = core then { s.core c with cycle := (s.core c).cycle + BitVec.ofNat 64 ck } else s.core c := by
  rw [tick_eq]
  refine (core_modCore s core c (fun x => { x with cycle := x.cycle + BitVec.ofNat 64 ck })).trans ?_
  by_cases hc : c = core
  · simp [hc]
  · simp [hc]
/-- The issuing core after an issue of ck. -/
def spentCore (k : Core) (q : Q) (gid ck : Nat) : Core :=
  ({ k with cycle := k.cycle + BitVec.ofNat 64 (k.growth q.g ck), rot := k.rot.filter (· != gid) ++ [gid], lead := k.leadAfter q.g ck } : Core).charge
    q.g.team q.g.sheet ck
theorem core_spend (s : State) (q : Q) (gid ck c : Nat) : (s.spend q gid ck).core c =
    if c = q.core then spentCore (s.core c) q gid ck else s.core c := by
  unfold State.spend
  dsimp only
  rw [core_chargeUnits]
  refine (core_modCore _ q.core c (fun x => x.charge q.g.team q.g.sheet ck)).trans ?_
  by_cases hc : c = q.core
  · subst hc
    rw [if_pos rfl, if_pos rfl]
    unfold spentCore
    congr 1
    refine (core_modCore _ q.core q.core (fun x => { x with rot := x.rot.filter (· != gid) ++ [gid], lead := (s.core q.core).leadAfter q.g ck })).trans ?_
    rw [if_pos rfl, core_tick, if_pos rfl]
  · rw [if_neg hc, if_neg hc]
    refine (core_modCore _ q.core c (fun x => { x with rot := x.rot.filter (· != gid) ++ [gid], lead := (s.core q.core).leadAfter q.g ck })).trans ?_
    rw [if_neg hc, core_tick, if_neg hc]

/-- The groups after an issue whose group goes on. -/
theorem wentState_grp (q : Q) (ck : Nat) (f : Group → Group) (s : State) (hf : ∀ G, (f G).id = G.id) (id : Nat) :
    (wentState q ck f s).grp? id =
      if id = q.g.id then (s.grp? id).map fun G => wentGroup q ck ((s.core q.core).growth q.g ck) (f G)
      else (s.grp? id).map (tickGroup q.core ((s.core q.core).growth q.g ck)) := by
  have h : (wentState q ck f s).grp? id = (((s.modGrp q.g.id f).leaveQueue q.core q.g.id q.sub).spend q q.g.id ck).grp? id := rfl
  have hk : (((s.modGrp q.g.id f).leaveQueue q.core q.g.id q.sub).core q.core).growth q.g ck = (s.core q.core).growth q.g ck := by
    rw [core_leaveQueue, if_pos rfl]; rfl
  rw [h, grp_spend, hk, grp_leaveQueue, grp_modGrp s q.g.id id f hf]
  by_cases h : id = q.g.id
  · simp only [h, if_true, Option.map_map]
    rfl
  · simp only [h, if_false]
/-- R415: a group that is not stepped goes on. -/
theorem stepDone_of (s : State) (q : Q) (G : Group) (hg : s.grp? q.g.id = some G) (hs : G.stepping = false) : s.stepDone q.g.id q = s := by
  unfold State.stepDone
  rw [hg]
  simp [hs]
theorem stepping_went (q : Q) (ck n : Nat) (G : Group) : (wentGroup q ck n G).stepping = G.stepping := by
  unfold wentGroup tickGroup; dsimp only; split <;> rfl
/-- An issue whose group goes on, and that is not stepped, ends so. -/
theorem step_went (q : Q) (ck : Nat) (f : Group → Group) (s : State) (hf : ∀ G, (f G).id = G.id) (G : Group) (hg : s.grp? q.g.id = some G)
    (hs : (f G).stepping = false) :
    { (((s.modGrp q.g.id f).leaveQueue q.core q.g.id q.sub).spend q q.g.id ck).stepDone q.g.id q with cur := none } = wentState q ck f s := by
  have h := wentState_grp q ck f s hf q.g.id
  rw [if_pos rfl, hg] at h
  have h2 : (((s.modGrp q.g.id f).leaveQueue q.core q.g.id q.sub).spend q q.g.id ck).grp? q.g.id =
      some (wentGroup q ck ((s.core q.core).growth q.g ck) (f G)) := h
  have h3 := stepDone_of _ q _ h2 (by rw [stepping_went, hs])
  unfold wentState
  rw [h3]
theorem performedGrp_id (i : Instr) (q : Q) (ck : Nat) (G : Group) : (performedGrp i q ck G).id = G.id := by
  simp [performedGrp, Group.moveTo, Group.settle, Group.dropJoins, Group.modLanes]
theorem placedGrp_id (i : Instr) (q : Q) (ck : Nat) (G : Group) : (placedGrp i q ck G).id = G.id := by
  simp [placedGrp, Group.settle, Group.dropJoins]
/-- An instruction that is performed by a group that is not stepped. -/
theorem settle_ok (i : Instr) (q : Q) (e : Nat) (s : State) (G : Group) (hg : s.grp? q.g.id = some G) (hs : G.stepping = false) :
    ∃ ck, settleRes i q e (.ok s) = .next (wentState q ck (performedGrp i q ck) s) :=
  ⟨issueCk i (s.core q.core).twoPass * (1 + e), congrArg Host.Outcome.next (step_went q _ _ s (performedGrp_id i q _) G hg (by
    simp [Group.moveTo, Group.settle, Group.dropJoins, Group.modLanes, hs]))⟩
/-- An instruction that has placed its lanes, in a group that is not stepped. -/
theorem settle_moved (i : Instr) (q : Q) (e : Nat) (s : State) (G : Group) (hg : s.grp? q.g.id = some G) (hs : G.stepping = false) :
    ∃ ck, settleRes i q e (.moved s) = .next (wentState q ck (placedGrp i q ck) s) :=
  ⟨issueCk i (s.core q.core).twoPass * (1 + e), congrArg Host.Outcome.next (step_went q _ _ s (placedGrp_id i q _) G hg (by
    simp [Group.settle, Group.dropJoins, hs]))⟩

/-- Outside groups and cores an instruction that is performed leaves what its meaning left. -/
theorem outside_trans {s t u : State} (h1 : SameOutside s t) (h2 : SameOutside t u) : SameOutside s u := by
  unfold SameOutside at *
  rw [← h2] at h1
  exact h1
theorem outside_modCore (s : State) (k : Nat) (f : Core → Core) : SameOutside s (s.modCore k f) := rfl
theorem outside_modGrp (s : State) (k : Nat) (f : Group → Group) : SameOutside s (s.modGrp k f) := rfl
theorem outside_modGrps (s : State) (f : Group → Group) : SameOutside s (s.modGrps f) := rfl
theorem outside_cur (s : State) (c : Option Issue) : SameOutside s { s with cur := c } := rfl
theorem outside_chargeUnits (s : State) (cl cls res n : Nat) : SameOutside s (s.chargeUnits cl cls res n) := rfl
theorem outside_spend (s : State) (q : Q) (gid ck : Nat) : SameOutside s (s.spend q gid ck) := by
  unfold State.spend
  dsimp only
  refine outside_trans ?_ (outside_chargeUnits _ _ _ _ _)
  refine outside_trans ?_ (outside_modCore _ _ _)
  refine outside_trans ?_ (outside_modGrp _ _ _)
  refine outside_trans ?_ (outside_modCore _ _ _)
  rw [tick_eq]
  exact outside_trans (outside_modCore _ _ _) (outside_modGrps _ _)
theorem wentState_outside (q : Q) (ck : Nat) (f : Group → Group) (s : State) : SameOutside s (wentState q ck f s) := by
  unfold wentState
  exact outside_trans (outside_trans (outside_trans (outside_modGrp _ _ _) (outside_modCore _ _ _)) (outside_spend _ _ _ _)) (outside_cur _ _)
theorem wentState_others (q : Q) (ck : Nat) (f : Group → Group) (s t : State) (hf : ∀ G, (f G).id = G.id)
    (h : ∀ id, id ≠ q.g.id → t.grp? id = s.grp? id) : SameOthers s (wentState q ck f t) q := by
  intro id hid
  rw [wentState_grp q ck f t hf, if_neg hid, h id hid]
  cases s.grp? id with
  | none => rfl
  | some g => simp [tickGroup_view]
/-- Of the clusters an issue's end charges only its own. -/
theorem clusters_spend (s : State) (q : Q) (gid ck : Nat) : SameClusters s (s.spend q gid ck) q :=
  ⟨fun k hk => (terms_chargeUnits _ _ _ _ _ k).2 hk, (terms_chargeUnits _ _ _ _ _ _).1⟩
theorem wentState_clusters (q : Q) (ck : Nat) (f : Group → Group) (s : State) : SameClusters s (wentState q ck f s) q := by
  unfold wentState
  generalize h : ((s.modGrp q.g.id f).leaveQueue q.core q.g.id q.sub) = u
  have hu : u.clusters = s.clusters := h ▸ rfl
  have hs := clusters_spend u q q.g.id ck
  unfold SameClusters State.cluster at hs ⊢
  rw [hu] at hs
  exact hs
/-- Of the cores an issue's end changes only its own; there the subset may have left the queue for request entries. -/
theorem spent_cores (s t : State) (q : Q) (gid ck : Nat) (r : List (Nat × Mask))
    (h : ∀ c, t.core c = if c = q.core then spentCore { s.core c with reqQ := r } q gid ck else s.core c) : SameCores s t q := by
  refine ⟨fun c hc => by rw [h c, if_neg hc], ?_⟩
  rw [h q.core, if_pos rfl]
  rfl
/-- The cores after a subset has gone on. -/
theorem wentState_cores (q : Q) (ck : Nat) (f : Group → Group) (s : State) : SameCores s (wentState q ck f s) q := by
  refine spent_cores s _ q q.g.id ck ((s.core q.core).reqQ.filter fun e => !(e.1 == q.g.id && e.2 &&& q.sub != 0#64)) fun c => ?_
  have h : (wentState q ck f s).core c = (((s.modGrp q.g.id f).leaveQueue q.core q.g.id q.sub).spend q q.g.id ck).core c := rfl
  have hs : (s.modGrp q.g.id f).core q.core = s.core q.core ∧ (s.modGrp q.g.id f).core c = s.core c := ⟨rfl, rfl⟩
  rw [h, core_spend, core_leaveQueue, hs.1, hs.2]
  by_cases hc : c = q.core
  · rw [if_pos hc, if_pos hc, if_pos hc, hc]; rfl
  · rw [if_neg hc, if_neg hc, if_neg hc]
/-- An issue that goes on, from a state that its meaning left as it was outside its group. -/
theorem wentState_frame (q : Q) (ck : Nat) (f : Group → Group) (s : State) (hf : ∀ G, (f G).id = G.id) : OnlyGroup s (wentState q ck f s) q :=
  ⟨wentState_outside q ck f s, wentState_others q ck f s s hf fun _ _ => rfl, wentState_cores q ck f s, wentState_clusters q ck f s⟩

end Sys2Proof.Laws
end

