-- ==== Sys2Proof/Laws/Lane.lean ====
section
/-!
SUPPORT. Masks, and what writing a result does: one lemma for each of `Group.put`, `Group.putBool`, `laneOp` and `testOp`.
-/
namespace Sys2Proof.Laws
open Sys2Proof.Machine

/-! ### Masks -/

theorem getLsbD_foldMask (ls : List Nat) (m : Mask) (L : Nat) (hL : L < 64) (h : ∀ x ∈ ls, x < 64) :
    (ls.foldl (fun m L => m ||| (1#64 <<< L)) m).getLsbD L = (m.getLsbD L || decide (L ∈ ls)) := by
  induction ls generalizing m with
  | nil => simp
  | cons x xs ih =>
    simp only [List.foldl_cons]
    rw [ih _ (fun y hy => h y (by simp [hy]))]
    have hx := h x (by simp)
    simp only [BitVec.getLsbD_or, BitVec.getLsbD_shiftLeft, hL, decide_true, Bool.true_and, List.mem_cons, BitVec.getLsbD_one]
    by_cases hxl : L = x
    · subst hxl; simp
    · have : ((!decide (L < x) && decide (L - x = 0)) : Bool) = false := by
        by_cases h1 : L < x
        · simp [h1]
        · simp; omega
      simp [hxl, this]
theorem getLsbD_maskOf (w : Nat) (hw : w ≤ 64) (p : Nat → Bool) (L : Nat) :
    (maskOf w p).getLsbD L = (decide (L < w) && p L) := by
  by_cases hL : L < 64
  · unfold maskOf Mask.ofLanes
    rw [getLsbD_foldMask _ _ _ hL (by intro x hx; simp at hx; omega)]
    simp
  · rw [BitVec.getLsbD_of_ge _ _ (by omega)]
    have : ¬ L < w := by omega
    simp [this]
theorem lowest_mem (m : Mask) (h : m ≠ 0#64) : m.getLsbD (lowest m) = true := by
  unfold lowest
  cases hf : (List.range 64).find? fun L => m.getLsbD L with
  | some L => simpa using List.find?_some hf
  | none =>
    exfalso; apply h
    apply BitVec.eq_of_getLsbD_eq
    intro i hi
    have := List.find?_eq_none.mp hf i (by simp; omega)
    simpa using this
theorem highest_mem (m : Mask) (h : m ≠ 0#64) : m.getLsbD (highest m) = true := by
  unfold highest
  cases hf : (List.range 64).reverse.find? fun L => m.getLsbD L with
  | some L => simpa using List.find?_some hf
  | none =>
    exfalso; apply h
    apply BitVec.eq_of_getLsbD_eq
    intro i hi
    have := List.find?_eq_none.mp hf i (by simp; omega)
    simpa using this

/-! ### Shapes -/

theorem shaped_width (g : Group) (h : g.shaped = true) : g.width ≤ 64 := by
  unfold Group.shaped at h; simp at h; omega
theorem shaped_lanes (g : Group) (h : g.shaped = true) : g.lanes.length = g.width := by
  unfold Group.shaped at h; simp at h; tauto
theorem shaped_vregs (g : Group) (h : g.shaped = true) : g.vregs.length = g.vcount ∧ ∀ r ∈ g.vregs, r.length = g.width := by
  unfold Group.shaped at h; simp at h; tauto
theorem shaped_sregs (g : Group) (h : g.shaped = true) : g.sregs.length = g.scount := by
  unfold Group.shaped at h; simp at h; tauto
theorem shaped_preds (g : Group) (h : g.shaped = true) : g.preds.length = 15 := by
  unfold Group.shaped at h; simp at h; tauto
theorem act_width (i : Instr) (s : State) (q : Q) (h : Performs i s q) (L : Nat) (hL : q.act.getLsbD L = true) : L < q.g.width := by
  rw [issuing_act i s q h.issues] at hL
  unfold Group.active at hL
  rw [getLsbD_maskOf _ (shaped_width _ h.shaped)] at hL
  simp at hL
  exact hL.1
theorem act_sub (i : Instr) (s : State) (q : Q) (h : Performs i s q) (L : Nat) (hL : q.act.getLsbD L = true) : q.sub.getLsbD L = true := by
  rw [issuing_act i s q h.issues] at hL
  unfold Group.active at hL
  rw [getLsbD_maskOf _ (shaped_width _ h.shaped)] at hL
  simp at hL
  exact hL.2.1.1
theorem lowest_width (i : Instr) (s : State) (q : Q) (h : Performs i s q) : lowest q.act < q.g.width :=
  act_width i s q h _ (lowest_mem _ h.executes)

/-! ### Registers written -/

theorem v_setV (g : Group) (n : Nat) (m : Mask) (vals : List Word) (r L : Nat) (hn : n < g.vregs.length) (hL : L < g.width) :
    (g.setV n m vals).v r L = if r = n ∧ m.getLsbD L = true then vals.getD L 0#32 else g.v r L := by
  unfold Group.v Group.setV
  simp only [List.getD_eq_getElem?_getD, List.getElem?_modify]
  by_cases hr : n = r
  · subst hr
    simp [hn, hL]
  · have : ¬ r = n := fun h => hr h.symm
    simp [hr, this]
@[simp] theorem killV_v (g : Group) (n k r L : Nat) : (g.killV n k).v r L = g.v r L := rfl
@[simp] theorem setV_length (g : Group) (n : Nat) (m : Mask) (vals : List Word) : (g.setV n m vals).vregs.length = g.vregs.length := by
  simp [Group.setV]
theorem getD_map0 {α : Type} (f : DWord → α) (vals : List DWord) (L : Nat) (d : α) (hL : L < vals.length) :
    (vals.map f).getD L d = f (vals.getD L 0#64) := by
  simp [List.getD_eq_getElem?_getD, hL]

/-- A vector result, written in the lanes of the mask unless NWB is set (R46, R128). -/
theorem v_writeV (g : Group) (pf : Pfx) (n w : Nat) (m : Mask) (vals : List DWord) (r L : Nat) (hw : w = 1 ∨ w = 2)
    (hn : n + w ≤ g.vregs.length) (hL : L < g.width) (hv : vals.length = g.width) :
    (g.writeV pf n w m vals).v r L =
      if pf.nwb = false ∧ m.getLsbD L = true ∧ r = n then lo32 (vals.getD L 0#64)
      else if pf.nwb = false ∧ m.getLsbD L = true ∧ w = 2 ∧ r = n + 1 then hi32 (vals.getD L 0#64)
      else g.v r L := by
  have hc : (g.writeV pf n w m vals).v r L = (if pf.nwb then g
    else if w == 2 then ((g.setV n m (vals.map lo32)).killV n w).setV (n + 1) m (vals.map hi32) else (g.setV n m (vals.map lo32)).killV n w).v r L := rfl
  rw [hc]
  cases hb : pf.nwb
  · simp only [Bool.false_eq_true, if_false]
    rcases hw with hw | hw
    · subst hw
      simp only [Nat.reduceBEq, Bool.false_eq_true, if_false, killV_v]
      rw [v_setV _ _ _ _ _ _ (by omega) hL, getD_map0 _ _ _ _ (by omega)]
      by_cases h1 : r = n <;> by_cases h2 : m.getLsbD L = true <;> simp [h1, h2]
    · subst hw
      simp only [beq_self_eq_true, if_true]
      rw [v_setV _ _ _ _ _ _ (by simp; omega) (by simpa using hL), getD_map0 _ _ _ _ (by omega)]
      simp only [killV_v]
      rw [v_setV _ _ _ _ _ _ (by omega) hL, getD_map0 _ _ _ _ (by omega)]
      by_cases h1 : r = n
      · subst h1; by_cases h2 : m.getLsbD L = true <;> simp [h2]
      · by_cases h2 : m.getLsbD L = true <;> simp [h1, h2]
  · simp
@[simp] theorem writeV_sregs (g : Group) (pf : Pfx) (n w : Nat) (m : Mask) (vals : List DWord) : (g.writeV pf n w m vals).sregs = g.sregs := by
  unfold Group.writeV; dsimp only; split <;> (try split) <;> rfl
@[simp] theorem writeV_preds (g : Group) (pf : Pfx) (n w : Nat) (m : Mask) (vals : List DWord) : (g.writeV pf n w m vals).preds = g.preds := by
  unfold Group.writeV; dsimp only; split <;> (try split) <;> rfl
@[simp] theorem writeV_lanes (g : Group) (pf : Pfx) (n w : Nat) (m : Mask) (vals : List DWord) : (g.writeV pf n w m vals).lanes = g.lanes := by
  unfold Group.writeV; dsimp only; split <;> (try split) <;> rfl
theorem s_writeS (g : Group) (pf : Pfx) (n : Nat) (x : DWord) (r : Nat) (hn : n < g.sregs.length) :
    (g.writeS pf n x).s r = if pf.nwb = false ∧ r = n then x else g.s r := by
  have hc : (g.writeS pf n x).s r = (if pf.nwb then g else g.setS n x).s r := by unfold Group.writeS; split <;> rfl
  rw [hc]
  cases hb : pf.nwb
  · simp only [Bool.false_eq_true, if_false, Group.s, Group.setS, List.getD_eq_getElem?_getD, List.getElem?_set]
    by_cases hr : n = r
    · subst hr; simp [hn]
    · have : ¬ r = n := fun h => hr h.symm
      simp [hr, this]
  · simp
@[simp] theorem writeS_vregs (g : Group) (pf : Pfx) (n : Nat) (x : DWord) : (g.writeS pf n x).vregs = g.vregs := by
  unfold Group.writeS; split <;> rfl
@[simp] theorem writeS_preds (g : Group) (pf : Pfx) (n : Nat) (x : DWord) : (g.writeS pf n x).preds = g.preds := by
  unfold Group.writeS; split <;> rfl
@[simp] theorem writeS_lanes (g : Group) (pf : Pfx) (n : Nat) (x : DWord) : (g.writeS pf n x).lanes = g.lanes := by
  unfold Group.writeS; split <;> rfl
theorem p_setP (g : Group) (n : Nat) (m vals : Mask) (r L : Nat) (hp : g.preds.length = 15) (hL : L < 64) :
    (g.setP n m vals).p r L = if m.getLsbD L = true ∧ r = n ∧ r < 15 then vals.getLsbD L else g.p r L := by
  unfold Group.p Group.setP
  simp only [List.getD_eq_getElem?_getD, List.getElem?_modify]
  by_cases hr : n = r
  · subst hr
    by_cases h15 : n < 15
    · have h1 : n < g.preds.length := by omega
      have h2 : (n == 15) = false := by simp; omega
      cases hm : m.getLsbD L <;> simp [h1, h2, h15, hL] at * <;> simp [hm]
    · by_cases h2 : n = 15
      · simp [h2]
      · have : ¬ n < g.preds.length := by omega
        simp [h15, this]
  · have : ¬ r = n := fun h => hr h.symm
    simp [hr, this]

/-! ### An instruction that answers with its group -/

theorem others_setGrp (s : State) (g1 : Group) (id : Nat) (h : id ≠ g1.id) : (s.setGrp g1).grp? id = s.grp? id := by
  rw [grp_setGrp]; simp [h]
/-- What an instruction answers whose meaning goes on from the state `u`. -/
theorem performs_ok (i : Instr) (body : Q → State → Res) (s u : State) (q : Q) (G : Group) (h : Performs i s q)
    (hb : body q s = .ok u) (hg : u.grp? q.g.id = some G) (hst : G.stepping = false) (hlen : G.lanes.length = q.g.width) :
    ∃ t g, runI i body s = .next t ∧ Continues q u t G g := by
  rw [runI_performs i body s q h, hb]
  obtain ⟨ck, hck⟩ := settle_ok i q 0 u G hg hst
  obtain ⟨hv, hs, hp, hk⟩ := kept_fields ((kept_went q ck ((u.core q.core).growth q.g ck) _).trans (kept_issuedBy i q ck (G.moveTo q.sub (nextPc q.pc))))
  have hf := wentState_frame q ck (performedGrp i q ck) u (performedGrp_id i q ck)
  refine ⟨_, _, hck, hg, ?_, hv, hs, hp, ?_, hk, hf.outside, hf.others, hf.cores, hf.clusters⟩
  · rw [wentState_grp q ck _ u (performedGrp_id i q ck), if_pos rfl, hg]; rfl
  · intro L hL
    exact lane_performed i q ck _ G L (by omega)

theorem trap_of (i : Instr) (body : Q → State → Res) (s u : State) (q : Q) (G : Group) (c : Cause) (lanes : Mask) (addr : DWord) (code : Nat)
    (h : Performs i s q) (he : exec i s = runI i body s) (hb : body q s = .trap c lanes addr code u) (hg : u.grp? q.g.id = some G) :
    Traps i s q c lanes addr code u := by
  refine ⟨G, hg, ?_⟩
  rw [he, runI_performs i body s q h, hb]
  unfold settleRes State.spendRuns
  simp [hg]
theorem goes_of (i : Instr) (body : Q → State → Res) (s u : State) (q : Q) (G : Group) (h : Performs i s q)
    (he : exec i s = runI i body s) (hb : body q s = .ok u) (hg : u.grp? q.g.id = some G) (hst : G.stepping = false)
    (hlen : G.lanes.length = q.g.width) : Goes i s q u := by
  obtain ⟨t, g, ht, hc⟩ := performs_ok i body s u q G h hb hg hst hlen
  exact ⟨t, G, g, by rw [he, ht], hc⟩
/-- A meaning that leaves its group as it is. -/
theorem goes_same (i : Instr) (body : Q → State → Res) (s u : State) (q : Q) (h : Performs i s q) (he : exec i s = runI i body s)
    (hb : body q s = .ok u) (hg : u.grp? q.g.id = s.grp? q.g.id) : Goes i s q u :=
  goes_of i body s u q q.g h he hb (hg.trans (issuing_grp i s q h.issues)) h.unstepped (shaped_lanes _ h.shaped)
/-- A meaning that changes its group to G. -/
theorem goesAs_of (i : Instr) (body : Q → State → Res) (s : State) (q : Q) (G : Group) (h : Performs i s q) (he : exec i s = runI i body s)
    (hb : body q s = .grp s G) (hid : G.id = q.g.id) (hst : G.stepping = q.g.stepping) (hlen : G.lanes.length = q.g.lanes.length) :
    GoesAs i s q G :=
  ⟨goes_of i body s (s.setGrp G) q G h he hb (by rw [grp_setGrp, ← hid, if_pos rfl, hid, issuing_grp i s q h.issues]; rfl)
    (hst.trans h.unstepped) (hlen.trans (shaped_lanes _ h.shaped)), hid⟩

/-- What an instruction answers that only changes its group, to `g1`. -/
theorem performs_grp (i : Instr) (body : Q → State → Res) (s : State) (q : Q) (g1 : Group) (h : Performs i s q)
    (hb : body q s = .grp s g1) (hid : g1.id = q.g.id) (hst : g1.stepping = false) (hlen : g1.lanes.length = q.g.width) :
    ∃ t g, runI i body s = .next t ∧ t.grp? q.g.id = some g ∧ g.vregs = g1.vregs ∧ g.sregs = g1.sregs ∧ g.preds = g1.preds ∧
      (∀ L, L < q.g.width → (g.lane L).view = (if q.sub.getLsbD L then { g1.lane L with pc := nextPc q.pc } else g1.lane L).view ∧
        (g.lane L).srRec = (g1.lane L).srRec ∧ (q.sub.getLsbD L = true → (g.lane L).wait = .none)) ∧
      (g.batches = g1.batches ∧ g.calls = g1.calls ∧ g.st = g1.st ∧ g.save = g1.save ∧ g.frame = g1.frame) ∧ OnlyGroup s t q := by
  rw [runI_performs i body s q h, hb]
  have hg : (s.setGrp g1).grp? q.g.id = some g1 := by
    rw [grp_setGrp, ← hid, hid, if_pos rfl, issuing_grp i s q h.issues]; rfl
  unfold Res.grp
  obtain ⟨ck, hck⟩ := settle_ok i q 0 (s.setGrp g1) g1 hg hst
  obtain ⟨hv, hs, hp, hk⟩ := kept_fields ((kept_went q ck (((s.setGrp g1).core q.core).growth q.g ck) _).trans
    (kept_issuedBy i q ck (g1.moveTo q.sub (nextPc q.pc))))
  have hf := wentState_frame q ck (performedGrp i q ck) (s.setGrp g1) (performedGrp_id i q ck)
  refine ⟨_, _, hck, ?_, hv, hs, hp, ?_, hk, outside_trans (t := s.setGrp g1) rfl hf.outside, ?_, hf.cores, hf.clusters⟩
  · rw [wentState_grp q ck _ _ (performedGrp_id i q ck), if_pos rfl, hg]; rfl
  · intro L hL
    exact lane_performed i q ck _ g1 L (by omega)
  · exact wentState_others q ck _ s _ (performedGrp_id i q ck) fun id hne => others_setGrp s g1 id (by rw [hid]; exact hne)

/-- The lanes after such an instruction, where it changes flags and generators only. -/
theorem advances_of (q : Q) (g g1 : Group) (fl : Nat → Flags) (sr : Nat → Word)
    (hv : ∀ L, L < q.g.width → (g.lane L).view = (if q.sub.getLsbD L then { g1.lane L with pc := nextPc q.pc } else g1.lane L).view ∧
        (g.lane L).srRec = (g1.lane L).srRec ∧ (q.sub.getLsbD L = true → (g.lane L).wait = .none))
    (h1 : ∀ L, L < q.g.width → g1.lane L = { q.g.lane L with fflags := fl L, sr := sr L }) : Advances q g fl sr := by
  intro L hL
  obtain ⟨hview, hrec, hw⟩ := hv L hL
  rw [h1 L hL] at hview hrec
  have hp : (g.lane L).pc = (if q.sub.getLsbD L then nextPc q.pc else (q.g.lane L).pc) := by
    have := congrArg (fun x => x.1) hview
    simp only [Lane.view] at this
    rw [this]; split <;> rfl
  have hv2 : (g.lane L).view.2 = ({ q.g.lane L with fflags := fl L, sr := sr L } : Lane).view.2 := by
    rw [hview]; split <;> rfl
  simp only [Lane.view, Prod.mk.injEq] at hv2
  obtain ⟨a, b, c, d, e, f⟩ := hv2
  exact ⟨hp, hw, e, d, hrec, a, b, c, f⟩

/-! ### Results -/

/-- The destination lies among the group's registers. -/
def DestFits (d : Opnd) (w : Nat) (g : Group) : Prop :=
  match d with
  | .v n => n.toNat + w ≤ g.vcount
  | .s n => n.toNat + 1 ≤ g.scount
  | _ => True
theorem use_fits (i : Instr) (s : State) (q : Q) (h : Performs i s q) (sg : Sig) (hs : sigOf i = some sg) (u : Use) (hu : u ∈ sg.uses) :
    u.fits q.g = true := by
  have h1 := stops_fits q h.passes
  have h2 := (issuing_sig i s q h.issues).1
  rw [hs] at h2
  have h3 : sg = q.sg := by simpa using h2
  rw [← h3] at h1
  unfold Sig.fits at h1
  simp only [Bool.and_eq_true, List.all_eq_true] at h1
  exact h1.1.1 u hu
theorem dest_fits (i : Instr) (s : State) (q : Q) (h : Performs i s q) (sg : Sig) (hs : sigOf i = some sg) (u : Use) (hu : u ∈ sg.uses)
    (hn : u.sn = 1) : DestFits u.o u.n q.g := by
  have h1 := use_fits i s q h sg hs u hu
  unfold Use.fits at h1
  unfold DestFits
  split at h1 <;> simp_all
theorem dest_put (g : Group) (q : Q) (d : Opnd) (w : Nat) (signed : Bool) (vals : List DWord) (hsh : q.g.shaped = true)
    (hg : g = q.g.put q.pf d w signed q.act vals) (hw : w = 1 ∨ w = 2) (hd : DestFits d w q.g) (hv : vals.length = q.g.width) :
    Dest d w signed q g (fun L => vals.getD L 0#64) := by
  subst hg
  unfold Dest Group.put
  cases d with
  | v n =>
    refine ⟨fun r L hL => ?_, by simp⟩
    rw [v_writeV _ _ _ _ _ _ _ _ hw (by rw [(shaped_vregs _ hsh).1]; exact hd) hL hv]
  | s n =>
    refine ⟨by simp, fun r => ?_⟩
    simp only
    rw [s_writeS _ _ _ _ _ (by rw [shaped_sregs _ hsh]; exact hd)]
    by_cases h2 : w = 2
    · subst h2; simp
    · have : w = 1 := by omega
      subst this; simp
  | st r => exact ⟨rfl, rfl⟩
  | b n => exact ⟨rfl, rfl⟩
  | p n => exact ⟨rfl, rfl⟩
  | imm x => exact ⟨rfl, rfl⟩
theorem writeV_id (g : Group) (pf : Pfx) (n w : Nat) (m : Mask) (vals : List DWord) : (g.writeV pf n w m vals).id = g.id := by
  unfold Group.writeV; dsimp only; split <;> (try split) <;> rfl
theorem writeS_id (g : Group) (pf : Pfx) (n : Nat) (x : DWord) : (g.writeS pf n x).id = g.id := by
  unfold Group.writeS; split <;> rfl
theorem put_id (g : Group) (pf : Pfx) (d : Opnd) (w : Nat) (signed : Bool) (m : Mask) (vals : List DWord) :
    (g.put pf d w signed m vals).id = g.id := by
  unfold Group.put; split
  · exact writeV_id _ _ _ _ _ _
  · exact writeS_id _ _ _ _
  · rfl
theorem putBool_id (g : Group) (pf : Pfx) (d : Opnd) (m : Mask) (vals : List Bool) : (g.putBool pf d m vals).id = g.id := by
  unfold Group.putBool; split
  · rfl
  · exact writeS_id _ _ _ _
  · rfl
theorem writeV_stepping (g : Group) (pf : Pfx) (n w : Nat) (m : Mask) (vals : List DWord) : (g.writeV pf n w m vals).stepping = g.stepping := by
  unfold Group.writeV; dsimp only; split <;> (try split) <;> rfl
theorem writeS_stepping (g : Group) (pf : Pfx) (n : Nat) (x : DWord) : (g.writeS pf n x).stepping = g.stepping := by
  unfold Group.writeS; split <;> rfl
theorem put_stepping (g : Group) (pf : Pfx) (d : Opnd) (w : Nat) (signed : Bool) (m : Mask) (vals : List DWord) :
    (g.put pf d w signed m vals).stepping = g.stepping := by
  unfold Group.put; split
  · exact writeV_stepping _ _ _ _ _ _
  · exact writeS_stepping _ _ _ _
  · rfl
theorem putBool_stepping (g : Group) (pf : Pfx) (d : Opnd) (m : Mask) (vals : List Bool) : (g.putBool pf d m vals).stepping = g.stepping := by
  unfold Group.putBool; split
  · rfl
  · exact writeS_stepping _ _ _ _
  · rfl
theorem writeV_width (g : Group) (pf : Pfx) (n w : Nat) (m : Mask) (vals : List DWord) : (g.writeV pf n w m vals).width = g.width := by
  unfold Group.writeV; dsimp only; split <;> (try split) <;> rfl
theorem writeS_width (g : Group) (pf : Pfx) (n : Nat) (x : DWord) : (g.writeS pf n x).width = g.width := by
  unfold Group.writeS; split <;> rfl
theorem put_width (g : Group) (pf : Pfx) (d : Opnd) (w : Nat) (signed : Bool) (m : Mask) (vals : List DWord) :
    (g.put pf d w signed m vals).width = g.width := by
  unfold Group.put; split
  · exact writeV_width _ _ _ _ _ _
  · exact writeS_width _ _ _ _
  · rfl
theorem putBool_width (g : Group) (pf : Pfx) (d : Opnd) (m : Mask) (vals : List Bool) : (g.putBool pf d m vals).width = g.width := by
  unfold Group.putBool; split
  · rfl
  · exact writeS_width _ _ _ _
  · rfl
theorem writeV_batches (g : Group) (pf : Pfx) (n w : Nat) (m : Mask) (vals : List DWord) : (g.writeV pf n w m vals).batches = g.batches := by
  unfold Group.writeV; dsimp only; split <;> (try split) <;> rfl
theorem writeS_batches (g : Group) (pf : Pfx) (n : Nat) (x : DWord) : (g.writeS pf n x).batches = g.batches := by
  unfold Group.writeS; split <;> rfl
theorem put_batches (g : Group) (pf : Pfx) (d : Opnd) (w : Nat) (signed : Bool) (m : Mask) (vals : List DWord) :
    (g.put pf d w signed m vals).batches = g.batches := by
  unfold Group.put; split
  · exact writeV_batches _ _ _ _ _ _
  · exact writeS_batches _ _ _ _
  · rfl
theorem putBool_batches (g : Group) (pf : Pfx) (d : Opnd) (m : Mask) (vals : List Bool) : (g.putBool pf d m vals).batches = g.batches := by
  unfold Group.putBool; split
  · rfl
  · exact writeS_batches _ _ _ _
  · rfl
theorem writeV_calls (g : Group) (pf : Pfx) (n w : Nat) (m : Mask) (vals : List DWord) : (g.writeV pf n w m vals).calls = g.calls := by
  unfold Group.writeV; dsimp only; split <;> (try split) <;> rfl
theorem writeS_calls (g : Group) (pf : Pfx) (n : Nat) (x : DWord) : (g.writeS pf n x).calls = g.calls := by
  unfold Group.writeS; split <;> rfl
theorem put_calls (g : Group) (pf : Pfx) (d : Opnd) (w : Nat) (signed : Bool) (m : Mask) (vals : List DWord) :
    (g.put pf d w signed m vals).calls = g.calls := by
  unfold Group.put; split
  · exact writeV_calls _ _ _ _ _ _
  · exact writeS_calls _ _ _ _
  · rfl
theorem putBool_calls (g : Group) (pf : Pfx) (d : Opnd) (m : Mask) (vals : List Bool) : (g.putBool pf d m vals).calls = g.calls := by
  unfold Group.putBool; split
  · rfl
  · exact writeS_calls _ _ _ _
  · rfl
theorem writeV_st (g : Group) (pf : Pfx) (n w : Nat) (m : Mask) (vals : List DWord) : (g.writeV pf n w m vals).st = g.st := by
  unfold Group.writeV; dsimp only; split <;> (try split) <;> rfl
theorem writeS_st (g : Group) (pf : Pfx) (n : Nat) (x : DWord) : (g.writeS pf n x).st = g.st := by
  unfold Group.writeS; split <;> rfl
theorem put_st (g : Group) (pf : Pfx) (d : Opnd) (w : Nat) (signed : Bool) (m : Mask) (vals : List DWord) :
    (g.put pf d w signed m vals).st = g.st := by
  unfold Group.put; split
  · exact writeV_st _ _ _ _ _ _
  · exact writeS_st _ _ _ _
  · rfl
theorem putBool_st (g : Group) (pf : Pfx) (d : Opnd) (m : Mask) (vals : List Bool) : (g.putBool pf d m vals).st = g.st := by
  unfold Group.putBool; split
  · rfl
  · exact writeS_st _ _ _ _
  · rfl
theorem writeV_save (g : Group) (pf : Pfx) (n w : Nat) (m : Mask) (vals : List DWord) : (g.writeV pf n w m vals).save = g.save := by
  unfold Group.writeV; dsimp only; split <;> (try split) <;> rfl
theorem writeS_save (g : Group) (pf : Pfx) (n : Nat) (x : DWord) : (g.writeS pf n x).save = g.save := by
  unfold Group.writeS; split <;> rfl
theorem put_save (g : Group) (pf : Pfx) (d : Opnd) (w : Nat) (signed : Bool) (m : Mask) (vals : List DWord) :
    (g.put pf d w signed m vals).save = g.save := by
  unfold Group.put; split
  · exact writeV_save _ _ _ _ _ _
  · exact writeS_save _ _ _ _
  · rfl
theorem putBool_save (g : Group) (pf : Pfx) (d : Opnd) (m : Mask) (vals : List Bool) : (g.putBool pf d m vals).save = g.save := by
  unfold Group.putBool; split
  · rfl
  · exact writeS_save _ _ _ _
  · rfl
theorem writeV_frame (g : Group) (pf : Pfx) (n w : Nat) (m : Mask) (vals : List DWord) : (g.writeV pf n w m vals).frame = g.frame := by
  unfold Group.writeV; dsimp only; split <;> (try split) <;> rfl
theorem writeS_frame (g : Group) (pf : Pfx) (n : Nat) (x : DWord) : (g.writeS pf n x).frame = g.frame := by
  unfold Group.writeS; split <;> rfl
theorem put_frame (g : Group) (pf : Pfx) (d : Opnd) (w : Nat) (signed : Bool) (m : Mask) (vals : List DWord) :
    (g.put pf d w signed m vals).frame = g.frame := by
  unfold Group.put; split
  · exact writeV_frame _ _ _ _ _ _
  · exact writeS_frame _ _ _ _
  · rfl
theorem putBool_frame (g : Group) (pf : Pfx) (d : Opnd) (m : Mask) (vals : List Bool) : (g.putBool pf d m vals).frame = g.frame := by
  unfold Group.putBool; split
  · rfl
  · exact writeS_frame _ _ _ _
  · rfl
theorem put_lanes (g : Group) (pf : Pfx) (d : Opnd) (w : Nat) (signed : Bool) (m : Mask) (vals : List DWord) :
    (g.put pf d w signed m vals).lanes = g.lanes := by
  unfold Group.put; split
  · exact writeV_lanes _ _ _ _ _ _
  · exact writeS_lanes _ _ _ _
  · rfl
theorem put_preds (g : Group) (pf : Pfx) (d : Opnd) (w : Nat) (signed : Bool) (m : Mask) (vals : List DWord) :
    (g.put pf d w signed m vals).preds = g.preds := by
  unfold Group.put; split
  · exact writeV_preds _ _ _ _ _ _
  · exact writeS_preds _ _ _ _
  · rfl
theorem putBool_lanes (g : Group) (pf : Pfx) (d : Opnd) (m : Mask) (vals : List Bool) : (g.putBool pf d m vals).lanes = g.lanes := by
  unfold Group.putBool; split
  · rfl
  · exact writeS_lanes _ _ _ _
  · rfl
theorem putBool_vregs (g : Group) (pf : Pfx) (d : Opnd) (m : Mask) (vals : List Bool) : (g.putBool pf d m vals).vregs = g.vregs := by
  unfold Group.putBool; split
  · rfl
  · exact writeS_vregs _ _ _ _
  · rfl
theorem put_kept (g : Group) (pf : Pfx) (d : Opnd) (w : Nat) (signed : Bool) (m : Mask) (vals : List DWord) :
    let h := g.put pf d w signed m vals
    h.id = g.id ∧ h.stepping = g.stepping ∧ h.lanes = g.lanes ∧ h.preds = g.preds ∧ h.width = g.width ∧ h.batches = g.batches ∧
    h.calls = g.calls ∧ h.st = g.st ∧ h.save = g.save ∧ h.frame = g.frame :=
  ⟨put_id .., put_stepping .., put_lanes .., put_preds .., put_width .., put_batches .., put_calls .., put_st .., put_save .., put_frame ..⟩
theorem putBool_kept (g : Group) (pf : Pfx) (d : Opnd) (m : Mask) (vals : List Bool) :
    let h := g.putBool pf d m vals
    h.id = g.id ∧ h.stepping = g.stepping ∧ h.lanes = g.lanes ∧ h.vregs = g.vregs ∧ h.width = g.width ∧ h.batches = g.batches ∧
    h.calls = g.calls ∧ h.st = g.st ∧ h.save = g.save ∧ h.frame = g.frame :=
  ⟨putBool_id .., putBool_stepping .., putBool_lanes .., putBool_vregs .., putBool_width .., putBool_batches .., putBool_calls ..,
   putBool_st .., putBool_save .., putBool_frame ..⟩
theorem lane_orFlags (g : Group) (m : Mask) (fl : Nat → Flags) (L : Nat) (hL : L < g.lanes.length) :
    (g.orFlags m fl).lane L = { g.lane L with fflags := if m.getLsbD L then (g.lane L).fflags ||| fl L else (g.lane L).fflags } := by
  unfold Group.orFlags
  rw [lane_modLanes _ _ _ _ hL]
  split <;> rfl
theorem range_getD {α : Type} (w : Nat) (f : Nat → α) (L : Nat) (d : α) (h : L < w) : ((List.range w).map f).getD L d = f L := by
  simp [List.getD_eq_getElem?_getD, h]

/-- What a group keeps of another, that one keeps of the issue's. -/
theorem kept_trans {q : Q} {g h : Group} (x : Kept { q with g := h } g) (y : Kept q h) : Kept q g := by
  unfold Kept at *; simp_all
/-- A result put in the destination, with flags: the shape of every lane instruction. -/
theorem put_gives (i : Instr) (body : Q → State → Res) (s : State) (q : Q) (h : Performs i s q) (d : Opnd) (w : Nat) (signed : Bool)
    (vals : List DWord) (fl : Nat → Flags) (hb : body q s = .grp s ((q.g.put q.pf d w signed q.act vals).orFlags q.act fl))
    (hw : w = 1 ∨ w = 2) (hd : DestFits d w q.g) (hv : vals.length = q.g.width) :
    ∃ t g, runI i body s = .next t ∧ t.grp? q.g.id = some g ∧ Dest d w signed q g (fun L => vals.getD L 0#64) ∧ g.preds = q.g.preds ∧
      Advances q g (fun L => if q.act.getLsbD L then (q.g.lane L).fflags ||| fl L else (q.g.lane L).fflags) (fun L => (q.g.lane L).sr) ∧
      Kept q g ∧ OnlyGroup s t q := by
  obtain ⟨k1, k2, k3, k4, k5, k6⟩ := put_kept q.g q.pf d w signed q.act vals
  have hdest := dest_put _ q d w signed vals h.shaped rfl hw hd hv
  have hlen : (q.g.put q.pf d w signed q.act vals).lanes.length = q.g.width := by rw [k3]; exact shaped_lanes _ h.shaped
  obtain ⟨t, g, ht, hg, hvr, hsr, hpr, hl, hk, ho⟩ := performs_grp i body s q _ h hb k1 (by exact k2.trans h.unstepped)
    (by simpa [Group.orFlags] using hlen)
  refine ⟨t, g, ht, hg, ?_, hpr.trans k4, ?_, ?_, ho⟩
  · unfold Dest at hdest ⊢
    have hvv : ∀ r L, g.v r L = (q.g.put q.pf d w signed q.act vals).v r L := fun r L => by unfold Group.v; rw [hvr]; rfl
    have hss : ∀ r, g.s r = (q.g.put q.pf d w signed q.act vals).s r := fun r => by unfold Group.s; rw [hsr]; rfl
    have hvr' : g.vregs = (q.g.put q.pf d w signed q.act vals).vregs := hvr
    have hsr' : g.sregs = (q.g.put q.pf d w signed q.act vals).sregs := hsr
    cases d <;> simp only [hvv, hss, hvr', hsr'] at * <;> exact hdest
  · apply advances_of q g _ _ _ hl
    intro L hL
    rw [lane_orFlags _ _ _ _ (by omega)]
    have : (q.g.put q.pf d w signed q.act vals).lane L = q.g.lane L := by unfold Group.lane; rw [k3]
    rw [this]
  · exact kept_trans hk k6
/-- A truth value put in its destination, with flags. -/
theorem putBool_gives (i : Instr) (body : Q → State → Res) (s : State) (q : Q) (h : Performs i s q) (d : Opnd)
    (vals : List Bool) (fl : Nat → Flags) (hb : body q s = .grp s ((q.g.putBool q.pf d q.act vals).orFlags q.act fl))
    (hd : DestFits d 1 q.g) (hv : vals.length = q.g.width) :
    ∃ t g, runI i body s = .next t ∧ t.grp? q.g.id = some g ∧ DestBool d q g (fun L => vals.getD L false) ∧
      Advances q g (fun L => if q.act.getLsbD L then (q.g.lane L).fflags ||| fl L else (q.g.lane L).fflags) (fun L => (q.g.lane L).sr) ∧
      Kept q g ∧ OnlyGroup s t q := by
  obtain ⟨k1, k2, k3, k4, k5, k6⟩ := putBool_kept q.g q.pf d q.act vals
  have hlen : (q.g.putBool q.pf d q.act vals).lanes.length = q.g.width := by rw [k3]; exact shaped_lanes _ h.shaped
  obtain ⟨t, g, ht, hg, hvr, hsr, hpr, hl, hk, ho⟩ := performs_grp i body s q _ h hb k1 (by exact k2.trans h.unstepped)
    (by simpa [Group.orFlags] using hlen)
  refine ⟨t, g, ht, hg, ?_, ?_, ?_, ho⟩
  · have hss : ∀ r, g.s r = (q.g.putBool q.pf d q.act vals).s r := fun r => by unfold Group.s; rw [hsr]; rfl
    have hpp : ∀ r L, g.p r L = (q.g.putBool q.pf d q.act vals).p r L := fun r L => by unfold Group.p; rw [hpr]; rfl
    refine ⟨hvr.trans k4, ?_⟩
    cases d with
    | p n =>
      refine ⟨hsr, fun r L hL => ?_⟩
      rw [hpp]
      unfold Group.putBool
      simp only
      have h64 := shaped_width _ h.shaped
      rw [p_setP _ _ _ _ _ _ (shaped_preds _ h.shaped) (by omega), getLsbD_maskOf _ h64]
      simp [hL]
    | s n =>
      refine ⟨?_, fun r => ?_⟩
      · rw [hpr]; unfold Group.putBool; exact writeS_preds _ _ _ _
      · rw [hss]
        unfold Group.putBool
        simp only
        rw [s_writeS _ _ _ _ _ (by rw [shaped_sregs _ h.shaped]; exact hd)]
    | v n => exact ⟨hsr, hpr⟩
    | st r => exact ⟨hsr, hpr⟩
    | b n => exact ⟨hsr, hpr⟩
    | imm x => exact ⟨hsr, hpr⟩
  · apply advances_of q g _ _ _ hl
    intro L hL
    rw [lane_orFlags _ _ _ _ (by omega)]
    have : (q.g.putBool q.pf d q.act vals).lane L = q.g.lane L := by unfold Group.lane; rw [k3]
    rw [this]
  · exact kept_trans hk k6

theorem Dest_congr (d : Opnd) (w : Nat) (signed : Bool) (q : Q) (g : Group) (f f' : Nat → DWord)
    (h : ∀ L, L < q.g.width → lo32 (f L) = lo32 (f' L) ∧ (w = 2 → f L = f' L)) (hl : lowest q.act < q.g.width)
    (hd : Dest d w signed q g f) : Dest d w signed q g f' := by
  unfold Dest at *
  cases d with
  | v n =>
    refine ⟨fun r L hL => ?_, hd.2⟩
    rw [hd.1 r L hL, (h L hL).1]
    by_cases h2 : w = 2
    · rw [(h L hL).2 h2]
    · simp [h2]
  | s n =>
    refine ⟨hd.1, fun r => ?_⟩
    rw [hd.2 r]
    by_cases h2 : w = 2
    · rw [(h _ hl).2 h2]
    · have := (h _ hl).1
      simp [h2, ext32, this]
  | st r => exact hd
  | b n => exact hd
  | p n => exact hd
  | imm x => exact hd

theorem DestBool_congr (d : Opnd) (q : Q) (g : Group) (f f' : Nat → Bool) (h : ∀ L, L < q.g.width → f L = f' L)
    (hl : lowest q.act < q.g.width) (hd : DestBool d q g f) : DestBool d q g f' := by
  unfold DestBool at *
  refine ⟨hd.1, ?_⟩
  cases d with
  | p n =>
    refine ⟨hd.2.1, fun r L hL => ?_⟩
    rw [hd.2.2 r L hL, h L hL]
  | s n =>
    refine ⟨hd.2.1, fun r => ?_⟩
    rw [hd.2.2 r, h _ hl]
  | v n => exact hd.2
  | st r => exact hd.2
  | b n => exact hd.2
  | imm x => exact hd.2

/-- `laneOp`: the destination takes the lane function's value, the lanes OR its flags (R128, R134). -/
theorem laneOp_gives (i : Instr) (d : Opnd) (w : Nat) (signed : Bool) (f : Group → Nat → LaneRes) (val : State → Q → Nat → DWord)
    (fl : Q → Nat → Flags) (he : ∀ s, exec i s = runI i (laneOp d w signed f) s) (hw : w = 1 ∨ w = 2)
    (hd : ∀ s q, Performs i s q → DestFits d w q.g)
    (hv : ∀ s q, Performs i s q → ∀ L, L < q.g.width → lo32 (f q.g L).v = lo32 (val s q L) ∧ (w = 2 → (f q.g L).v = val s q L))
    (hf : ∀ s q, Performs i s q → ∀ L, L < q.g.width → (f q.g L).fl = fl q L) :
    Gives i d w signed val fl := by
  intro s q h
  unfold GivesAt
  rw [he]
  obtain ⟨t, g, ht, hg, hdd, hp, ha, hk, ho⟩ := put_gives i (laneOp d w signed f) s q h d w signed
    (((List.range q.g.width).map (f q.g)).map (·.v)) (flagsFor (q.sg.uniform q.g) q.act ((List.range q.g.width).map (f q.g)))
    (by unfold laneOp; rfl) hw (hd s q h) (by simp)
  have hl := lowest_width i s q h
  refine ⟨t, g, ht, hg, ?_, hp, ?_, hk, ho⟩
  · refine Dest_congr _ _ _ _ _ _ _ (fun L hL => ?_) hl hdd
    have : (((List.range q.g.width).map (f q.g)).map (·.v)).getD L 0#64 = (f q.g L).v := by
      rw [List.map_map, range_getD _ _ _ _ hL]; rfl
    rw [this]
    exact hv s q h L hL
  · intro L hL
    have hflag : flagsFor (q.sg.uniform q.g) q.act ((List.range q.g.width).map (f q.g)) L = fl q (q.laneOf L) := by
      unfold flagsFor Q.laneOf
      split
      · rw [range_getD _ _ _ _ hl]; exact hf s q h _ hl
      · rw [range_getD _ _ _ _ hL]; exact hf s q h _ hL
    have := ha L hL
    dsimp only at this
    rw [hflag] at this
    exact this
/-- `testOp`: the destination takes the truth value (R146, R156). -/
theorem testOp_gives (i : Instr) (d : Opnd) (f : Group → Nat → Bool) (val : Q → Nat → Bool)
    (he : ∀ s, exec i s = runI i (testOp d f) s) (hd : ∀ s q, Performs i s q → DestFits d 1 q.g)
    (hv : ∀ s q, Performs i s q → ∀ L, L < q.g.width → f q.g L = val q L) : GivesBool i d val (fun _ _ => 0#6) := by
  intro s q h
  unfold GivesBoolAt
  rw [he]
  have hb : testOp d f q s = .grp s ((q.g.putBool q.pf d q.act ((List.range q.g.width).map (f q.g))).orFlags q.act fun _ => 0#6) := by
    unfold testOp Group.orFlags Group.modLanes
    congr 1
    have : (q.g.putBool q.pf d q.act ((List.range q.g.width).map (f q.g))).lanes.mapIdx
        (fun L l => if q.act.getLsbD L then { l with fflags := l.fflags ||| 0#6 } else l) =
        (q.g.putBool q.pf d q.act ((List.range q.g.width).map (f q.g))).lanes := by
      apply List.ext_getElem
      · simp
      · intro n h1 h2; simp
    rw [this]
  obtain ⟨t, g, ht, hg, hdd, ha, hk, ho⟩ := putBool_gives i (testOp d f) s q h d _ _ hb (hd s q h) (by simp)
  have hl := lowest_width i s q h
  refine ⟨t, g, ht, hg, ?_, ha, hk, ho⟩
  refine DestBool_congr _ _ _ _ _ (fun L hL => ?_) hl hdd
  rw [range_getD _ _ _ _ hL]
  exact hv s q h L hL

end Sys2Proof.Laws
end

