-- ==== Sys2Proof/Laws/Values.lean ====
section
/-!
SUPPORT. The integers that rules speak of: reading, wrapping and saturating (R139), and the shape of an integer instruction.
-/
namespace Sys2Proof.Laws
open Sys2Proof.Machine

theorem ivN_cases (o : F5) : ivN o = 32 ∨ ivN o = 64 := by unfold ivN ivW; split <;> omega
theorem ivW_cases (o : F5) : ivW o = 1 ∨ ivW o = 2 := by unfold ivW; split <;> omega
theorem rd1_lt (g : Group) (o : Opnd) (L : Nat) : (g.rd o 1 L).toNat < 2 ^ 32 := by
  cases o <;> simp [Group.rd] <;> (try split) <;> (try simp) <;> omega
theorem rd_lt (g : Group) (o : F5) (x : Opnd) (L : Nat) : (g.rd x (ivW o) L).toNat < 2 ^ ivN o := by
  unfold ivN
  rcases ivW_cases o with h | h
  · rw [h]; exact rd1_lt g x L
  · rw [h]; exact BitVec.isLt _
theorem readInt_bits (n b : Nat) (s : Bool) (hn : 0 < n) :
    readInt b n s = if s then (BitVec.ofNat n b).toInt else ((BitVec.ofNat n b).toNat : Int) := by
  unfold readInt
  cases s
  · simp
  · have h2 : 2 ^ n = 2 * 2 ^ (n - 1) := by
      rw [← Nat.pow_succ', Nat.succ_eq_add_one]; congr 1; omega
    simp [BitVec.toInt_eq_toNat_cond]
    have : b % 2 ^ n < 2 ^ n := Nat.mod_lt _ (by positivity)
    split <;> split <;> omega
theorem nInt_eq (o : F5) (x : Opnd) (g : Group) (L : Nat) : ia o x g L = nInt o x g L := by
  unfold ia rdI nInt nBits
  rw [readInt_bits _ _ _ (by unfold ivW; split <;> omega)]
  rfl
theorem int32_eq (x : Opnd) (s : Bool) (g : Group) (L : Nat) : rdI g x 1 s L = int32 x s g L := by
  unfold rdI int32 bits32 lo32
  rw [readInt_bits _ _ _ (by omega)]
  have h : BitVec.extractLsb' 0 32 (g.rd x 1 L) = BitVec.ofNat (32 * 1) (g.rd x 1 L).toNat := by
    apply BitVec.eq_of_toNat_eq; simp
  rw [h]
theorem intBits_eq (x : Int) (n : Nat) (hn : n = 32 ∨ n = 64) : intBits x n = (BitVec.ofInt n x).setWidth 64 := by
  apply BitVec.eq_of_toNat_eq
  unfold intBits wrapNat
  rcases hn with rfl | rfl
  · simp
  · simp; omega
theorem satInt_eq (x : Int) (n : Nat) (s : Bool) : satInt x n s = clampTo n s x := by
  unfold satInt clampTo intLo intHi
  cases s <;> simp
/-- R139: the value and the flag of an exact result. -/
theorem intRes_eq (o : F5) (x : Int) (n : Nat) (hn : n = 32 ∨ n = 64) :
    (intRes x n (ivSigned o) (ivSat o)).v = nResult o n x ∧ (intRes x n (ivSigned o) (ivSat o)).fl = nFlags o n x := by
  unfold intRes nResult nFlags
  cases hh : ivSat o
  · simp [intBits_eq x n hn, flNone]
  · simp [intBits_eq _ n hn, satInt_eq, flSV, flNone]
/-- The static checks that a performed word has passed (R33 to R39, R46). -/
theorem formed_sig (i : Instr) (s : State) (q : Q) (h : Performs i s q) (sg : Sig) (hs : sigOf i = some sg) :
    sg.ok = true ∧ (∀ u ∈ sg.uses, u.ok = true) ∧ sg.kOk = true := by
  have h1 := h.formed
  have hp := (issuing_sig i s q h.issues).2
  unfold Instr.wf legal at h1
  rw [hs, hp] at h1
  simp only [Sig.legal, Bool.and_eq_true, List.all_eq_true] at h1
  exact ⟨h1.1.1.1, h1.1.1.2, h1.1.2⟩

/-- An integer instruction gives the exact result of R139. -/
theorem intOp_gives (i : Instr) (o : F5) (f x : Group → Nat → Int) (sg : Sig) (hs : sigOf i = some sg) (hu : dstVS o.d (ivW o) ∈ sg.uses)
    (he : ∀ s, exec i s = runI i (intOp o f) s)
    (hx : ∀ s q, Performs i s q → ∀ L, L < q.g.width → f q.g L = x q.g L) : GivesInt i o x := by
  refine laneOp_gives i o.d (ivW o) (ivSigned o) (fun g L => intRes (f g L) (ivN o) (ivSigned o) (ivSat o)) _ _ he (ivW_cases o)
    (fun s q h => dest_fits i s q h sg hs (dstVS o.d (ivW o)) hu rfl) (fun s q h L hL => ?_) (fun s q h L hL => ?_)
  · rw [hx s q h L hL, (intRes_eq o _ _ (ivN_cases o)).1]; simp
  · rw [hx s q h L hL, (intRes_eq o _ _ (ivN_cases o)).2]
/-- One without saturation gives the bits of its exact result. -/
theorem intOp_bits (i : Instr) (o : F5) (f : Group → Nat → Int) (x : Group → Nat → BitVec (ivN o)) (sg : Sig) (hs : sigOf i = some sg)
    (hu : dstVS o.d (ivW o) ∈ sg.uses) (he : ∀ s, exec i s = runI i (intOp o f) s)
    (hsat : ∀ s q, Performs i s q → ivSat o = false)
    (hx : ∀ s q, Performs i s q → ∀ L, L < q.g.width → BitVec.ofInt (ivN o) (f q.g L) = x q.g L) : GivesBits i o x := by
  refine laneOp_gives i o.d (ivW o) (ivSigned o) (fun g L => intRes (f g L) (ivN o) (ivSigned o) (ivSat o)) _ _ he (ivW_cases o)
    (fun s q h => dest_fits i s q h sg hs (dstVS o.d (ivW o)) hu rfl) (fun s q h L hL => ?_) (fun s q h L hL => ?_)
  · rw [(intRes_eq o _ _ (ivN_cases o)).1]
    simp [nResult, hsat s q h, hx s q h L hL]
  · rw [(intRes_eq o _ _ (ivN_cases o)).2]
    simp [nFlags, hsat s q h, noFlags]

end Sys2Proof.Laws
end

