-- ==== Sys2Proof/Laws/Access.lean ====
section
/-!
SUPPORT. Accesses to memory: what the checks let through, and what the traffic of an access leaves alone.
-/
namespace Sys2Proof.Laws
open Sys2Proof.Machine

theorem settleConds_none (conds : List (Nat × Option Cond)) (s : State) (k : Unit → Res) (h : ∀ e ∈ conds, e.2 = none) :
    settleConds conds s k = k () := by
  unfold settleConds
  have : (conds.findSome? fun e => e.2 : Option Cond) = none := by
    rw [List.findSome?_eq_none_iff]; exact h
  rw [this]
theorem mem_lanesOf (w : Nat) (m : Mask) (L : Nat) : L ∈ lanesOf w m ↔ L < w ∧ m.getLsbD L = true := by
  unfold lanesOf; simp
theorem segs_head (s : State) (g : Group) (va n : Nat) (acc : Acc) (p : Nat) (hn : 0 < n) (h : s.route g va acc = .pa p) :
    ((s.segs g va n acc).headD (0, 0)).1 = p := by
  unfold State.segs pagesOf
  have h0 : (n == 0) = false := by simp; omega
  simp only [h0, Bool.false_eq_true, if_false]
  rw [List.range_succ_eq_map, List.map_cons, List.filterMap_cons]
  have hm : max ((va / 65536 + 0) * 65536) va = va := by omega
  simp only [hm, h, List.headD_cons]
/-- R304: lanes that pass their checks go on with their physical addresses. -/
theorem withAddrs_ok (q : Q) (s : State) (addr : Nat → Int) (n : Nat) (acc : Acc) (k : List (Nat × Nat) → Res) (phys : Nat → Nat)
    (hn : 0 < n) (h : Reaches s q addr n acc phys) :
    withAddrs q s addr n acc k = k ((lanesOf q.g.width q.act).map fun L => (L, phys L)) := by
  unfold withAddrs
  dsimp only
  have hm : ∀ L ∈ lanesOf q.g.width q.act, q.act.getLsbD L = true := fun L hL => ((mem_lanesOf _ _ _).mp hL).2
  rw [settleConds_none]
  · unfold laneAddrs
    have hf : (((lanesOf q.g.width q.act).map fun L => (L, addr L)).filter fun e => (s.subPage q.g.asn e.2).isNone) =
        (lanesOf q.g.width q.act).map fun L => (L, addr L) := by
      rw [List.filter_eq_self]
      intro e he
      obtain ⟨L, hL, rfl⟩ := List.mem_map.mp he
      simp only [(h L (hm L hL)).1, Option.isNone_none]
    rw [hf, List.map_map]
    congr 1
    apply List.map_congr_left
    intro L hL
    simp only [Function.comp]
    rw [segs_head s q.g _ n acc _ hn (h L (hm L hL)).2.2]
  · intro e he
    unfold laneAddrs at he
    simp only [List.map_map, List.mem_map, Function.comp] at he
    obtain ⟨L, hL, rfl⟩ := he
    have hh := h L (hm L hL)
    simp only [State.laneCond, hh.1, Option.isSome_none, Bool.false_eq_true, if_false, hh.2.1]
/-- R282, R445, R447: request entries are taken and the lines charged, and the access goes on. -/
theorem withLines_ok (q : Q) (s : State) (u : LineUse) (as : List (Nat × Nat)) (k : State → Res) (h : RequestsFree s q u as) :
    ∃ t, s.takeLines q.core q.g.id q.sub (u != .load) ((s.core q.core).entriesFor u as) = some t ∧
      withLines q s u as k = k (t.chargeLines (clusterOf q.core) q.workClass ((s.core q.core).entriesFor u as)) := by
  obtain ⟨hb, ht⟩ := h
  obtain ⟨t, ht⟩ := Option.isSome_iff_exists.mp ht
  refine ⟨t, ht, ?_⟩
  unfold withLines
  rw [hb]
  simp only [ht]

/-! ### Request entries -/

/-- Leaving out repeats makes no list longer. -/
theorem eraseDups_length (l : List Nat) : l.eraseDups.length ≤ l.length := by
  induction hn : l.length using Nat.strong_induction_on generalizing l with
  | _ n ih =>
    cases l with
    | nil => simp [List.eraseDups]
    | cons a l =>
      rw [List.eraseDups_cons]
      have h := List.length_filter_le (fun b => !b == a) l
      have := ih (l.filter fun b => !b == a).length (by simp at hn; omega) _ rfl
      simp at hn ⊢; omega
/-- An L1 grows by at most a line for each line used (R277). -/
theorem l1Use_length (c : Core) (u : LineUse) (as wr : List (Nat × Nat)) (ls : List Nat) :
    (c.l1Use u as wr ls).length ≤ c.l1.length + ls.length := by
  unfold Core.l1Use
  have key : ∀ (ls : List Nat) (m : List CLine), (ls.foldl (fun (m : List CLine) l =>
      let y := (c.l1At l).use u (touchedWords as l) (coveredWords as l) (touchedWords wr l)
      m.filter (fun x => x.line != l) ++ (if y.valid == 0#32 then [] else [y])) m).length ≤ m.length + ls.length := by
    intro ls
    induction ls with
    | nil => simp
    | cons l ls ih =>
      intro m
      rw [List.foldl_cons]
      refine (ih _).trans ?_
      have h := List.length_filter_le (fun x : CLine => x.line != l) m
      dsimp only
      split <;> simp <;> omega
  refine (key _ _).trans ?_
  have := List.length_filter_le lineCached ls
  omega
/-- R282: accesses of few pieces by a core whose L1 and request entries are empty. -/
theorem requestsFree_of {s : State} {q : Q} {u : LineUse} {as : List (Nat × Nat)}
    (h : s.withheld q [0, 1] q.workClass = none ∧ as.isEmpty = false ∧ (s.core q.core).reqQ = [] ∧ (s.core q.core).reqs = [] ∧ (s.core q.core).l1 = [] ∧
      as.length ≤ 512) : RequestsFree s q u as := by
  obtain ⟨hw, he, hq, hr, hl, hn⟩ := h
  refine ⟨by simpa [he] using hw, ?_⟩
  have h1 := eraseDups_length ((s.core q.core).entriesFor u as)
  have h2 : ((s.core q.core).entriesFor u as).length ≤ 1024 := by
    unfold Core.entriesFor
    have h3 := (List.length_filter_le (fun l => ((s.core q.core).l1At l).takesEntry u (touchedWords as l) (coveredWords as l)) (linesOf as))
    have h4 : (linesOf as).length ≤ as.length := (eraseDups_length _).trans (by simp)
    have h5 := l1Use_length (s.core q.core) u as as (linesOf as)
    have h6 := List.length_filter_le (fun x : CLine => x.dirty != 0#32) (l1Leaves ((s.core q.core).l1Use u as as (linesOf as)))
    have h7 : (l1Leaves ((s.core q.core).l1Use u as as (linesOf as))).length ≤ ((s.core q.core).l1Use u as as (linesOf as)).length := by
      unfold l1Leaves; simp
    rw [hl] at h5
    simp only [List.length_append, List.length_map, List.length_nil] at *
    omega
  unfold State.takeLines Core.firstInLine
  simp only [hq, hr, Bool.or_true, Bool.true_and, List.length_nil]
  rw [if_pos]
  · rfl
  · have : Config.lineRequests = 1024 := rfl
    simp; omega

/-! ### Traffic -/

/-- What traffic leaves alone, memory and groups too. -/
def Quiet (s u : State) : Prop :=
  { u with cores := s.cores, clusters := s.clusters, dies := s.dies, bad := s.bad } = s ∧
  (∀ c, { u.core c with tlb := (s.core c).tlb, reqs := (s.core c).reqs, reqQ := (s.core c).reqQ, l1 := (s.core c).l1
                        badL1 := (s.core c).badL1 } = s.core c) ∧
  ∀ c, (u.cluster c).terms = (s.cluster c).terms
theorem quiet_refl (s : State) : Quiet s s := ⟨rfl, fun _ => rfl, fun _ => rfl⟩
theorem quiet_trans {s t u : State} (h1 : Quiet s t) (h2 : Quiet t u) : Quiet s u := by
  refine ⟨?_, fun c => ?_, fun c => (h2.2.2 c).trans (h1.2.2 c)⟩
  · have a := h1.1; rw [← h2.1] at a; exact a
  · have a := h1.2.1 c; rw [← h2.2.1 c] at a; exact a
theorem quiet_modDie (s : State) (d : Nat) (f : Die → Die) : Quiet s (s.modDie d f) := ⟨rfl, fun _ => rfl, fun _ => rfl⟩
theorem quiet_dies (s : State) (ds : List (Nat × Die)) : Quiet s { s with dies := ds } := ⟨rfl, fun _ => rfl, fun _ => rfl⟩
theorem quiet_bads (s : State) (ws : List Nat) : Quiet s { s with bad := ws } := ⟨rfl, fun _ => rfl, fun _ => rfl⟩
theorem quiet_modCore (s : State) (k : Nat) (f : Core → Core)
    (hf : ∀ c, { f c with tlb := c.tlb, reqs := c.reqs, reqQ := c.reqQ, l1 := c.l1, badL1 := c.badL1 } = c) : Quiet s (s.modCore k f) := by
  refine ⟨rfl, fun c => ?_, fun _ => rfl⟩
  rw [core_modCore]
  split
  · rename_i h; subst h; exact hf _
  · rfl
theorem quiet_foldl {α : Type} (f : State → α → State) (hf : ∀ s a, Quiet s (f s a)) (l : List α) (s : State) : Quiet s (l.foldl f s) := by
  induction l generalizing s with
  | nil => exact quiet_refl s
  | cons a l ih => exact quiet_trans (hf s a) (ih _)
theorem quiet_takeLines (s t : State) (core gid : Nat) (sub : Mask) (wr : Bool) (lines : List Nat) (h : s.takeLines core gid sub wr lines = some t) :
    Quiet s t := by
  unfold State.takeLines at h
  dsimp only at h
  split at h
  · have := Option.some.inj h; subst this; exact quiet_modCore _ _ _ (fun _ => rfl)
  · exact absurd h (by simp)
/-- Charges are traffic (R445). -/
theorem quiet_chargeUnits (s : State) (cl cls res n : Nat) : Quiet s (s.chargeUnits cl cls res n) :=
  ⟨rfl, fun _ => rfl, fun c => (terms_chargeUnits s cl cls res n c).1⟩
theorem quiet_chargeLines (s : State) (cl cls : Nat) (lines : List Nat) : Quiet s (s.chargeLines cl cls lines) := by
  unfold State.chargeLines
  dsimp only
  split
  · exact quiet_refl s
  · exact quiet_trans (quiet_chargeUnits _ _ _ _ _) (quiet_chargeUnits _ _ _ _ _)
theorem quiet_tlbFill (s : State) (core asn va : Nat) : Quiet s (s.tlbFill core asn va) := by
  unfold State.tlbFill
  split
  · exact quiet_refl s
  · refine quiet_trans ?_ (quiet_modDie _ _ _)
    exact quiet_modCore _ _ _ (fun _ => rfl)
/-! #### Caches (R278 to R281) and marks (R294) -/
theorem quiet_flushL1 (s : State) (core : Nat) (device : Bool) : Quiet s (s.flushL1 core device) := by
  unfold State.flushL1
  dsimp only
  have h : ∀ ws (f : Core → Core), (∀ c, { f c with tlb := c.tlb, reqs := c.reqs, reqQ := c.reqQ, l1 := c.l1, badL1 := c.badL1 } = c) →
      Quiet s ({ s with bad := ws }.modCore core f) := fun ws f hf => quiet_trans (quiet_bads s ws) (quiet_modCore _ _ f hf)
  split
  · exact h _ _ fun _ => rfl
  · refine quiet_trans ?_ (quiet_modDie _ _ _)
    exact h _ _ fun _ => rfl
theorem quiet_clearMarks (s : State) (core : Nat) : Quiet s (s.clearMarks core) := quiet_dies s _
theorem quiet_promoteMark (s : State) (e : Nat × Nat) : Quiet s (s.promoteMark e) := quiet_trans (quiet_flushL1 s _ _) (quiet_modDie _ _ _)
theorem quiet_promote (s : State) (core : Nat) (lines : List Nat) : Quiet s (s.promote core lines) := by
  unfold State.promote
  refine quiet_foldl _ (fun s a => ?_) _ _
  split
  · exact quiet_promoteMark _ _
  · exact quiet_refl _
theorem quiet_lineLeaves (s : State) (l : Nat) : Quiet s (s.lineLeaves l) := by
  unfold State.lineLeaves
  split
  · exact quiet_promoteMark _ _
  · exact quiet_refl _
/-- A walk's reads promote marks, and the TLBs take the leaf (R294, R322). -/
theorem quiet_walkReads (s : State) (asn va : Nat) : Quiet s (s.walkReads asn va) := by
  unfold State.walkReads
  split
  · exact quiet_refl s
  · exact quiet_foldl _ quiet_lineLeaves _ _
theorem quiet_touch (s : State) (g : Group) (va : Nat) (a : Acc) : Quiet s (s.touch g va a) := by
  unfold State.touch
  split
  · exact quiet_refl s
  · refine quiet_trans ?_ (quiet_tlbFill _ _ _ _)
    split
    · exact quiet_walkReads _ _ _
    · exact quiet_refl s
theorem quiet_touchLanes (q : Q) (addr : Nat → Int) (acc : Acc) (s : State) : Quiet s (touchLanes q addr acc s) := by
  unfold touchLanes
  exact quiet_foldl _ (fun s a => quiet_touch s q.g a acc) _ _
theorem quiet_fetchLineOf (s : State) (core : Nat) (u : LineUse) (wrote : Word) (l : Nat) : Quiet s (s.fetchLineOf core u wrote l) := by
  unfold State.fetchLineOf
  split
  · exact quiet_refl s
  · dsimp only
    split <;> (split <;> first
      | exact quiet_trans (quiet_lineLeaves _ _) (quiet_modDie _ _ _)
      | exact quiet_modDie _ _ _
      | exact quiet_trans (quiet_trans (quiet_lineLeaves _ _) (quiet_modDie _ _ _)) (quiet_modDie _ _ _)
      | exact quiet_trans (quiet_modDie _ _ _) (quiet_modDie _ _ _))
theorem quiet_useCaches (s : State) (core : Nat) (u : LineUse) (as wr : List (Nat × Nat)) : Quiet s (s.useCaches core u as wr) := by
  unfold State.useCaches
  dsimp only
  refine quiet_trans ?_ (quiet_foldl _ (fun t l => quiet_fetchLineOf t core u _ l) _ _)
  exact quiet_trans (quiet_bads s _) (quiet_modCore _ _ _ (fun _ => rfl))
theorem quiet_filterLines (s : State) (lines : List Nat) (force : Bool) : Quiet s (s.filterLines lines force) := by
  unfold State.filterLines
  refine quiet_foldl _ (fun t l => ?_) _ _
  dsimp only
  split
  · exact quiet_modDie _ _ _
  · split
    · exact quiet_modDie _ _ _
    · split
      · refine quiet_trans ?_ (quiet_modDie _ _ _)
        cases (t.die (paHome (l * 128))).filter.head? with
        | none => exact quiet_refl t
        | some x => exact quiet_lineLeaves t x
      · exact quiet_refl t
theorem quiet_filterRange (s : State) (pa n : Nat) : Quiet s (s.filterRange pa n) := by
  unfold State.filterRange
  split
  · exact quiet_filterLines _ _ _
  · exact quiet_refl s
theorem quiet_acquireAt (s : State) (core sc : Nat) (paired : Bool) : Quiet s (s.acquireAt core sc paired) := by
  unfold State.acquireAt
  dsimp only
  have h : Quiet s (if 3 ≤ sc || (sc == 2 && paired) then
      s.modCore core fun c => { c with l1 := dropClean c.l1, badL1 := badHeld c.badL1 (dropClean c.l1) } else s) := by
    split
    · exact quiet_modCore _ _ _ (fun _ => rfl)
    · exact quiet_refl s
  split
  · exact quiet_trans h (quiet_modDie _ _ _)
  · exact h
theorem quiet_releaseAt (s : State) (core sc : Nat) (paired : Bool) : Quiet s (s.releaseAt core sc paired) := by
  unfold State.releaseAt
  dsimp only
  have h : Quiet s (if 3 ≤ sc || (sc == 2 && paired) then s.flushL1 core (4 ≤ sc) else s) := by
    split
    · exact quiet_flushL1 _ _ _
    · exact quiet_refl s
  split
  · exact quiet_trans h (quiet_clearMarks _ _)
  · exact h
theorem quiet_markLines (s : State) (core : Nat) (lines : List Nat) : Quiet s (s.markLines core lines) := by
  unfold State.markLines; exact quiet_foldl _ (fun s a => quiet_modDie _ _ _) _ _
theorem quiet_releasePart (s : State) (g : Group) (sc ord : Nat) (lines : List Nat) : Quiet s (s.releasePart g sc ord lines) := by
  unfold State.releasePart
  dsimp only
  have h : Quiet s (if isRel ord then s.releaseAt g.core sc (s.pairedOf g) else s) := by
    split
    · exact quiet_releaseAt _ _ _ _
    · exact quiet_refl s
  split
  · exact quiet_trans h (quiet_markLines _ _ _)
  · exact h
/-- An acquire part is traffic, but that an atomic access which does not promote notes marked lines in its group. -/
theorem acquirePart_cases (s : State) (g : Group) (sc ord : Nat) (lines : List Nat) :
    ∃ u, Quiet s u ∧ (s.acquirePart g sc ord lines = u ∨
      ∃ ls, s.acquirePart g sc ord lines = u.modGrp g.id fun g => { g with seen := g.seen ++ ls }) := by
  unfold State.acquirePart
  split
  · exact ⟨_, quiet_trans (quiet_promote _ _ _) (quiet_acquireAt _ _ _ _), .inl rfl⟩
  · have h : Quiet s (if isAcq ord then s.acquireAt g.core sc (s.pairedOf g) else s) := by
      split
      · exact quiet_acquireAt _ _ _ _
      · exact quiet_refl s
    refine ⟨_, h, ?_⟩
    dsimp only
    split
    · exact .inl rfl
    · exact .inr ⟨_, rfl⟩
theorem quiet_grp {s u : State} (h : Quiet s u) (id : Nat) : u.grp? id = s.grp? id := by
  have h2 : u.groups = s.groups := by have := h.1; rw [← this]
  unfold State.grp?
  rw [h2]
theorem quiet_mem {s u : State} (h : Quiet s u) : u.mem = s.mem := by rw [← h.1]

end Sys2Proof.Laws
end

