-- ==== Sys2Proof/Laws/Encode.lean ====
section
/-!
SUPPORT. Fields of an encoded word read back: the operand of R35, the prefix of R30 and the fields of each format of R31.
-/
namespace Sys2Proof.Laws

/-- A field inside the low part of an append. -/
theorem field_low {a b : Nat} (upper : BitVec a) (lower : BitVec b) (at_ n : Nat) (inside : at_ + n ≤ b) :
    BitVec.extractLsb' at_ n (upper ++ lower) = BitVec.extractLsb' at_ n lower :=
  BitVec.extractLsb'_append_eq_of_add_le inside
/-- A field inside the high part of an append. -/
theorem field_high {a b : Nat} (upper : BitVec a) (lower : BitVec b) (at_ n : Nat) (above : b ≤ at_) :
    BitVec.extractLsb' at_ n (upper ++ lower) = BitVec.extractLsb' (at_ - b) n upper :=
  BitVec.extractLsb'_append_eq_of_le above
theorem field_all {n : Nat} (x : BitVec n) : x.extractLsb' 0 n = x :=
  BitVec.extractLsb'_eq_self
/-- A bit is a field of width one. -/
theorem bit_of_field {w : Nat} (x : BitVec w) (k : Nat) (c : Bool) (h : x.extractLsb' k 1 = BitVec.ofBool c) : x.getLsbD k = c := by
  have := congrArg (fun y => y.getLsbD 0) h
  simpa using this

theorem opnd_v_dec : ∀ n : BitVec 8, Opnd.dec (Opnd.enc (.v n)) = some (.v n) := by decide
theorem opnd_s_dec : ∀ n : BitVec 7, Opnd.dec (Opnd.enc (.s n)) = some (.s n) := by decide
theorem opnd_imm_dec : ∀ n : BitVec 8, Opnd.dec (Opnd.enc (.imm n)) = some (.imm n) := by decide
/-- R35: an operand is read back from its ten bits. -/
theorem opnd_dec_enc (o : Opnd) : Opnd.dec o.enc = some o := by
  cases o with
  | v n => exact opnd_v_dec n
  | s n => exact opnd_s_dec n
  | st r => cases r <;> decide
  | b n => revert n; decide
  | p n => revert n; decide
  | imm x => exact opnd_imm_dec x

/-! ### The prefix over any body -/

theorem pfx_opc (opc : BitVec 10) (mod : BitVec 6) (p : Pfx) (x : BitVec 58) :
    (encPfx opc mod p ++ x : BitVec 96).extractLsb' 86 10 = opc := by
  refine (field_high (a := 38) (b := 58) _ _ _ _ (by decide)).trans ?_
  unfold encPfx
  refine (field_high (a := 36) (b := 2) _ _ _ _ (by decide)).trans ?_
  refine (field_high (a := 35) (b := 1) _ _ _ _ (by decide)).trans ?_
  refine (field_high (a := 34) (b := 1) _ _ _ _ (by decide)).trans ?_
  refine (field_high (a := 30) (b := 4) _ _ _ _ (by decide)).trans ?_
  refine (field_high (a := 26) (b := 4) _ _ _ _ (by decide)).trans ?_
  refine (field_high (a := 21) (b := 5) _ _ _ _ (by decide)).trans ?_
  refine (field_high (a := 16) (b := 5) _ _ _ _ (by decide)).trans ?_
  refine (field_high (a := 10) (b := 6) _ _ _ _ (by decide)).trans ?_
  exact field_all _

theorem pfx_mod (opc : BitVec 10) (mod : BitVec 6) (p : Pfx) (x : BitVec 58) :
    (encPfx opc mod p ++ x : BitVec 96).extractLsb' 80 6 = mod := by
  refine (field_high (a := 38) (b := 58) _ _ _ _ (by decide)).trans ?_
  unfold encPfx
  refine (field_high (a := 36) (b := 2) _ _ _ _ (by decide)).trans ?_
  refine (field_high (a := 35) (b := 1) _ _ _ _ (by decide)).trans ?_
  refine (field_high (a := 34) (b := 1) _ _ _ _ (by decide)).trans ?_
  refine (field_high (a := 30) (b := 4) _ _ _ _ (by decide)).trans ?_
  refine (field_high (a := 26) (b := 4) _ _ _ _ (by decide)).trans ?_
  refine (field_high (a := 21) (b := 5) _ _ _ _ (by decide)).trans ?_
  refine (field_high (a := 16) (b := 5) _ _ _ _ (by decide)).trans ?_
  refine (field_low (a := 10) (b := 6) _ _ _ _ (by decide)).trans ?_
  exact field_all _

theorem pfx_ga (opc : BitVec 10) (mod : BitVec 6) (p : Pfx) (x : BitVec 58) :
    (encPfx opc mod p ++ x : BitVec 96).extractLsb' 75 5 = p.ga := by
  refine (field_high (a := 38) (b := 58) _ _ _ _ (by decide)).trans ?_
  unfold encPfx
  refine (field_high (a := 36) (b := 2) _ _ _ _ (by decide)).trans ?_
  refine (field_high (a := 35) (b := 1) _ _ _ _ (by decide)).trans ?_
  refine (field_high (a := 34) (b := 1) _ _ _ _ (by decide)).trans ?_
  refine (field_high (a := 30) (b := 4) _ _ _ _ (by decide)).trans ?_
  refine (field_high (a := 26) (b := 4) _ _ _ _ (by decide)).trans ?_
  refine (field_high (a := 21) (b := 5) _ _ _ _ (by decide)).trans ?_
  refine (field_low (a := 16) (b := 5) _ _ _ _ (by decide)).trans ?_
  exact field_all _

theorem pfx_gb (opc : BitVec 10) (mod : BitVec 6) (p : Pfx) (x : BitVec 58) :
    (encPfx opc mod p ++ x : BitVec 96).extractLsb' 70 5 = p.gb := by
  refine (field_high (a := 38) (b := 58) _ _ _ _ (by decide)).trans ?_
  unfold encPfx
  refine (field_high (a := 36) (b := 2) _ _ _ _ (by decide)).trans ?_
  refine (field_high (a := 35) (b := 1) _ _ _ _ (by decide)).trans ?_
  refine (field_high (a := 34) (b := 1) _ _ _ _ (by decide)).trans ?_
  refine (field_high (a := 30) (b := 4) _ _ _ _ (by decide)).trans ?_
  refine (field_high (a := 26) (b := 4) _ _ _ _ (by decide)).trans ?_
  refine (field_low (a := 21) (b := 5) _ _ _ _ (by decide)).trans ?_
  exact field_all _

theorem pfx_ch (opc : BitVec 10) (mod : BitVec 6) (p : Pfx) (x : BitVec 58) :
    (encPfx opc mod p ++ x : BitVec 96).extractLsb' 66 4 = p.ch := by
  refine (field_high (a := 38) (b := 58) _ _ _ _ (by decide)).trans ?_
  unfold encPfx
  refine (field_high (a := 36) (b := 2) _ _ _ _ (by decide)).trans ?_
  refine (field_high (a := 35) (b := 1) _ _ _ _ (by decide)).trans ?_
  refine (field_high (a := 34) (b := 1) _ _ _ _ (by decide)).trans ?_
  refine (field_high (a := 30) (b := 4) _ _ _ _ (by decide)).trans ?_
  refine (field_low (a := 26) (b := 4) _ _ _ _ (by decide)).trans ?_
  exact field_all _

theorem pfx_stall (opc : BitVec 10) (mod : BitVec 6) (p : Pfx) (x : BitVec 58) :
    (encPfx opc mod p ++ x : BitVec 96).extractLsb' 62 4 = p.stall := by
  refine (field_high (a := 38) (b := 58) _ _ _ _ (by decide)).trans ?_
  unfold encPfx
  refine (field_high (a := 36) (b := 2) _ _ _ _ (by decide)).trans ?_
  refine (field_high (a := 35) (b := 1) _ _ _ _ (by decide)).trans ?_
  refine (field_high (a := 34) (b := 1) _ _ _ _ (by decide)).trans ?_
  refine (field_low (a := 30) (b := 4) _ _ _ _ (by decide)).trans ?_
  exact field_all _

theorem pfx_y (opc : BitVec 10) (mod : BitVec 6) (p : Pfx) (x : BitVec 58) :
    (encPfx opc mod p ++ x : BitVec 96).extractLsb' 61 1 = BitVec.ofBool p.y := by
  refine (field_high (a := 38) (b := 58) _ _ _ _ (by decide)).trans ?_
  unfold encPfx
  refine (field_high (a := 36) (b := 2) _ _ _ _ (by decide)).trans ?_
  refine (field_high (a := 35) (b := 1) _ _ _ _ (by decide)).trans ?_
  refine (field_low (a := 34) (b := 1) _ _ _ _ (by decide)).trans ?_
  exact field_all _

theorem pfx_nwb (opc : BitVec 10) (mod : BitVec 6) (p : Pfx) (x : BitVec 58) :
    (encPfx opc mod p ++ x : BitVec 96).extractLsb' 60 1 = BitVec.ofBool p.nwb := by
  refine (field_high (a := 38) (b := 58) _ _ _ _ (by decide)).trans ?_
  unfold encPfx
  refine (field_high (a := 36) (b := 2) _ _ _ _ (by decide)).trans ?_
  refine (field_low (a := 35) (b := 1) _ _ _ _ (by decide)).trans ?_
  exact field_all _

theorem pfx_cap (opc : BitVec 10) (mod : BitVec 6) (p : Pfx) (x : BitVec 58) :
    (encPfx opc mod p ++ x : BitVec 96).extractLsb' 58 2 = p.cap := by
  refine (field_high (a := 38) (b := 58) _ _ _ _ (by decide)).trans ?_
  unfold encPfx
  refine (field_low (a := 36) (b := 2) _ _ _ _ (by decide)).trans ?_
  exact field_all _

theorem dec_pfx (opc : BitVec 10) (mod : BitVec 6) (p : Pfx) (x : BitVec 58) : decPfx (encPfx opc mod p ++ x : BitVec 96) = p := by
  have hy := bit_of_field _ _ _ (pfx_y opc mod p x)
  have hn := bit_of_field _ _ _ (pfx_nwb opc mod p x)
  simp only [decPfx, pfx_ga, pfx_gb, pfx_ch, pfx_stall, pfx_cap, hy, hn]
theorem dec_mod (opc : BitVec 10) (mod : BitVec 6) (p : Pfx) (x : BitVec 58) : decMod (encPfx opc mod p ++ x : BitVec 96) = mod :=
  pfx_mod opc mod p x
theorem dec_opc (opc : BitVec 10) (mod : BitVec 6) (p : Pfx) (x : BitVec 58) : decOpc (encPfx opc mod p ++ x : BitVec 96) = opc :=
  pfx_opc opc mod p x

/-! ### The bodies of the six formats -/

theorem f5_d (opc : BitVec 10) (o : F5) : (o.enc opc).extractLsb' 48 10 = o.d.enc := by
  unfold F5.enc
  refine (field_low (a := 38) (b := 58) _ _ _ _ (by decide)).trans ?_
  refine (field_high (a := 50) (b := 8) _ _ _ _ (by decide)).trans ?_
  refine (field_high (a := 40) (b := 10) _ _ _ _ (by decide)).trans ?_
  refine (field_high (a := 30) (b := 10) _ _ _ _ (by decide)).trans ?_
  refine (field_high (a := 20) (b := 10) _ _ _ _ (by decide)).trans ?_
  refine (field_high (a := 10) (b := 10) _ _ _ _ (by decide)).trans ?_
  exact field_all _

theorem f5_a (opc : BitVec 10) (o : F5) : (o.enc opc).extractLsb' 38 10 = o.a.enc := by
  unfold F5.enc
  refine (field_low (a := 38) (b := 58) _ _ _ _ (by decide)).trans ?_
  refine (field_high (a := 50) (b := 8) _ _ _ _ (by decide)).trans ?_
  refine (field_high (a := 40) (b := 10) _ _ _ _ (by decide)).trans ?_
  refine (field_high (a := 30) (b := 10) _ _ _ _ (by decide)).trans ?_
  refine (field_high (a := 20) (b := 10) _ _ _ _ (by decide)).trans ?_
  refine (field_low (a := 10) (b := 10) _ _ _ _ (by decide)).trans ?_
  exact field_all _

theorem f5_b (opc : BitVec 10) (o : F5) : (o.enc opc).extractLsb' 28 10 = o.b.enc := by
  unfold F5.enc
  refine (field_low (a := 38) (b := 58) _ _ _ _ (by decide)).trans ?_
  refine (field_high (a := 50) (b := 8) _ _ _ _ (by decide)).trans ?_
  refine (field_high (a := 40) (b := 10) _ _ _ _ (by decide)).trans ?_
  refine (field_high (a := 30) (b := 10) _ _ _ _ (by decide)).trans ?_
  refine (field_low (a := 20) (b := 10) _ _ _ _ (by decide)).trans ?_
  exact field_all _

theorem f5_c (opc : BitVec 10) (o : F5) : (o.enc opc).extractLsb' 18 10 = o.c.enc := by
  unfold F5.enc
  refine (field_low (a := 38) (b := 58) _ _ _ _ (by decide)).trans ?_
  refine (field_high (a := 50) (b := 8) _ _ _ _ (by decide)).trans ?_
  refine (field_high (a := 40) (b := 10) _ _ _ _ (by decide)).trans ?_
  refine (field_low (a := 30) (b := 10) _ _ _ _ (by decide)).trans ?_
  exact field_all _

theorem f5_e (opc : BitVec 10) (o : F5) : (o.enc opc).extractLsb' 8 10 = o.e.enc := by
  unfold F5.enc
  refine (field_low (a := 38) (b := 58) _ _ _ _ (by decide)).trans ?_
  refine (field_high (a := 50) (b := 8) _ _ _ _ (by decide)).trans ?_
  refine (field_low (a := 40) (b := 10) _ _ _ _ (by decide)).trans ?_
  exact field_all _

theorem f5_imm8 (opc : BitVec 10) (o : F5) : (o.enc opc).extractLsb' 0 8 = o.imm8 := by
  unfold F5.enc
  refine (field_low (a := 38) (b := 58) _ _ _ _ (by decide)).trans ?_
  refine (field_low (a := 50) (b := 8) _ _ _ _ (by decide)).trans ?_
  exact field_all _

/-- R31: format F5, every field at every value. -/
theorem f5_dec_enc (opc : BitVec 10) (o : F5) : F5.dec (o.enc opc) = some o := by
  have hp : decPfx (o.enc opc) = o.pf := dec_pfx _ _ _ _
  have hm : decMod (o.enc opc) = o.mod := dec_mod _ _ _ _
  simp only [F5.dec, f5_d, f5_a, f5_b, f5_c, f5_e, f5_imm8, opnd_dec_enc, hp, hm]
  rfl
theorem f5_opc (opc : BitVec 10) (o : F5) : decOpc (o.enc opc) = opc := dec_opc _ _ _ _

theorem fri_d (opc : BitVec 10) (o : FRI) : (o.enc opc).extractLsb' 48 10 = o.d.enc := by
  unfold FRI.enc
  refine (field_low (a := 38) (b := 58) _ _ _ _ (by decide)).trans ?_
  refine (field_high (a := 52) (b := 6) _ _ _ _ (by decide)).trans ?_
  refine (field_high (a := 20) (b := 32) _ _ _ _ (by decide)).trans ?_
  refine (field_high (a := 10) (b := 10) _ _ _ _ (by decide)).trans ?_
  exact field_all _

theorem fri_a (opc : BitVec 10) (o : FRI) : (o.enc opc).extractLsb' 38 10 = o.a.enc := by
  unfold FRI.enc
  refine (field_low (a := 38) (b := 58) _ _ _ _ (by decide)).trans ?_
  refine (field_high (a := 52) (b := 6) _ _ _ _ (by decide)).trans ?_
  refine (field_high (a := 20) (b := 32) _ _ _ _ (by decide)).trans ?_
  refine (field_low (a := 10) (b := 10) _ _ _ _ (by decide)).trans ?_
  exact field_all _

theorem fri_imm (opc : BitVec 10) (o : FRI) : (o.enc opc).extractLsb' 6 32 = o.imm := by
  unfold FRI.enc
  refine (field_low (a := 38) (b := 58) _ _ _ _ (by decide)).trans ?_
  refine (field_high (a := 52) (b := 6) _ _ _ _ (by decide)).trans ?_
  refine (field_low (a := 20) (b := 32) _ _ _ _ (by decide)).trans ?_
  exact field_all _

theorem fri_ext (opc : BitVec 10) (o : FRI) : (o.enc opc).extractLsb' 0 6 = o.ext := by
  unfold FRI.enc
  refine (field_low (a := 38) (b := 58) _ _ _ _ (by decide)).trans ?_
  refine (field_low (a := 52) (b := 6) _ _ _ _ (by decide)).trans ?_
  exact field_all _

/-- R31: format FRI, every field at every value. -/
theorem fri_dec_enc (opc : BitVec 10) (o : FRI) : FRI.dec (o.enc opc) = some o := by
  have hp : decPfx (o.enc opc) = o.pf := dec_pfx _ _ _ _
  have hm : decMod (o.enc opc) = o.mod := dec_mod _ _ _ _
  simp only [FRI.dec, fri_d, fri_a, fri_imm, fri_ext, opnd_dec_enc, hp, hm]
  rfl
theorem fri_opc (opc : BitVec 10) (o : FRI) : decOpc (o.enc opc) = opc := dec_opc _ _ _ _

theorem fm_data (opc : BitVec 10) (o : FM) : (o.enc opc).extractLsb' 48 10 = o.data.enc := by
  unfold FM.enc
  refine (field_low (a := 38) (b := 58) _ _ _ _ (by decide)).trans ?_
  refine (field_high (a := 54) (b := 4) _ _ _ _ (by decide)).trans ?_
  refine (field_high (a := 30) (b := 24) _ _ _ _ (by decide)).trans ?_
  refine (field_high (a := 20) (b := 10) _ _ _ _ (by decide)).trans ?_
  refine (field_high (a := 10) (b := 10) _ _ _ _ (by decide)).trans ?_
  exact field_all _

theorem fm_base (opc : BitVec 10) (o : FM) : (o.enc opc).extractLsb' 38 10 = o.base.enc := by
  unfold FM.enc
  refine (field_low (a := 38) (b := 58) _ _ _ _ (by decide)).trans ?_
  refine (field_high (a := 54) (b := 4) _ _ _ _ (by decide)).trans ?_
  refine (field_high (a := 30) (b := 24) _ _ _ _ (by decide)).trans ?_
  refine (field_high (a := 20) (b := 10) _ _ _ _ (by decide)).trans ?_
  refine (field_low (a := 10) (b := 10) _ _ _ _ (by decide)).trans ?_
  exact field_all _

theorem fm_index (opc : BitVec 10) (o : FM) : (o.enc opc).extractLsb' 28 10 = o.index.enc := by
  unfold FM.enc
  refine (field_low (a := 38) (b := 58) _ _ _ _ (by decide)).trans ?_
  refine (field_high (a := 54) (b := 4) _ _ _ _ (by decide)).trans ?_
  refine (field_high (a := 30) (b := 24) _ _ _ _ (by decide)).trans ?_
  refine (field_low (a := 20) (b := 10) _ _ _ _ (by decide)).trans ?_
  exact field_all _

theorem fm_off (opc : BitVec 10) (o : FM) : (o.enc opc).extractLsb' 4 24 = o.off := by
  unfold FM.enc
  refine (field_low (a := 38) (b := 58) _ _ _ _ (by decide)).trans ?_
  refine (field_high (a := 54) (b := 4) _ _ _ _ (by decide)).trans ?_
  refine (field_low (a := 30) (b := 24) _ _ _ _ (by decide)).trans ?_
  exact field_all _

theorem fm_size (opc : BitVec 10) (o : FM) : (o.enc opc).extractLsb' 0 4 = o.size := by
  unfold FM.enc
  refine (field_low (a := 38) (b := 58) _ _ _ _ (by decide)).trans ?_
  refine (field_low (a := 54) (b := 4) _ _ _ _ (by decide)).trans ?_
  exact field_all _

/-- R31: format FM, every field at every value. -/
theorem fm_dec_enc (opc : BitVec 10) (o : FM) : FM.dec (o.enc opc) = some o := by
  have hp : decPfx (o.enc opc) = o.pf := dec_pfx _ _ _ _
  have hm : decMod (o.enc opc) = o.mod := dec_mod _ _ _ _
  simp only [FM.dec, fm_data, fm_base, fm_index, fm_off, fm_size, opnd_dec_enc, hp, hm]
  rfl
theorem fm_opc (opc : BitVec 10) (o : FM) : decOpc (o.enc opc) = opc := dec_opc _ _ _ _

theorem fb_cond (opc : BitVec 10) (o : FB) : (o.enc opc).extractLsb' 48 10 = o.cond.enc := by
  unfold FB.enc
  refine (field_low (a := 38) (b := 58) _ _ _ _ (by decide)).trans ?_
  refine (field_high (a := 55) (b := 3) _ _ _ _ (by decide)).trans ?_
  refine (field_high (a := 52) (b := 3) _ _ _ _ (by decide)).trans ?_
  refine (field_high (a := 20) (b := 32) _ _ _ _ (by decide)).trans ?_
  refine (field_high (a := 10) (b := 10) _ _ _ _ (by decide)).trans ?_
  exact field_all _

theorem fb_reg (opc : BitVec 10) (o : FB) : (o.enc opc).extractLsb' 38 10 = o.reg.enc := by
  unfold FB.enc
  refine (field_low (a := 38) (b := 58) _ _ _ _ (by decide)).trans ?_
  refine (field_high (a := 55) (b := 3) _ _ _ _ (by decide)).trans ?_
  refine (field_high (a := 52) (b := 3) _ _ _ _ (by decide)).trans ?_
  refine (field_high (a := 20) (b := 32) _ _ _ _ (by decide)).trans ?_
  refine (field_low (a := 10) (b := 10) _ _ _ _ (by decide)).trans ?_
  exact field_all _

theorem fb_loff (opc : BitVec 10) (o : FB) : (o.enc opc).extractLsb' 6 32 = o.loff := by
  unfold FB.enc
  refine (field_low (a := 38) (b := 58) _ _ _ _ (by decide)).trans ?_
  refine (field_high (a := 55) (b := 3) _ _ _ _ (by decide)).trans ?_
  refine (field_high (a := 52) (b := 3) _ _ _ _ (by decide)).trans ?_
  refine (field_low (a := 20) (b := 32) _ _ _ _ (by decide)).trans ?_
  exact field_all _

theorem fb_slot (opc : BitVec 10) (o : FB) : (o.enc opc).extractLsb' 3 3 = o.slot := by
  unfold FB.enc
  refine (field_low (a := 38) (b := 58) _ _ _ _ (by decide)).trans ?_
  refine (field_high (a := 55) (b := 3) _ _ _ _ (by decide)).trans ?_
  refine (field_low (a := 52) (b := 3) _ _ _ _ (by decide)).trans ?_
  exact field_all _

/-- R31: format FB, every field at every value. -/
theorem fb_dec_enc (opc : BitVec 10) (o : FB) : FB.dec (o.enc opc) = some o := by
  have hp : decPfx (o.enc opc) = o.pf := dec_pfx _ _ _ _
  have hm : decMod (o.enc opc) = o.mod := dec_mod _ _ _ _
  simp only [FB.dec, fb_cond, fb_reg, fb_loff, fb_slot, opnd_dec_enc, hp, hm]
  rfl
theorem fb_opc (opc : BitVec 10) (o : FB) : decOpc (o.enc opc) = opc := dec_opc _ _ _ _

theorem fx_cd (opc : BitVec 10) (o : FX) : (o.enc opc).extractLsb' 54 4 = o.cd := by
  unfold FX.enc
  refine (field_low (a := 38) (b := 58) _ _ _ _ (by decide)).trans ?_
  refine (field_high (a := 50) (b := 8) _ _ _ _ (by decide)).trans ?_
  refine (field_high (a := 40) (b := 10) _ _ _ _ (by decide)).trans ?_
  refine (field_high (a := 32) (b := 8) _ _ _ _ (by decide)).trans ?_
  refine (field_high (a := 22) (b := 10) _ _ _ _ (by decide)).trans ?_
  refine (field_high (a := 12) (b := 10) _ _ _ _ (by decide)).trans ?_
  refine (field_high (a := 8) (b := 4) _ _ _ _ (by decide)).trans ?_
  refine (field_high (a := 4) (b := 4) _ _ _ _ (by decide)).trans ?_
  exact field_all _

theorem fx_ta (opc : BitVec 10) (o : FX) : (o.enc opc).extractLsb' 50 4 = o.ta := by
  unfold FX.enc
  refine (field_low (a := 38) (b := 58) _ _ _ _ (by decide)).trans ?_
  refine (field_high (a := 50) (b := 8) _ _ _ _ (by decide)).trans ?_
  refine (field_high (a := 40) (b := 10) _ _ _ _ (by decide)).trans ?_
  refine (field_high (a := 32) (b := 8) _ _ _ _ (by decide)).trans ?_
  refine (field_high (a := 22) (b := 10) _ _ _ _ (by decide)).trans ?_
  refine (field_high (a := 12) (b := 10) _ _ _ _ (by decide)).trans ?_
  refine (field_high (a := 8) (b := 4) _ _ _ _ (by decide)).trans ?_
  refine (field_low (a := 4) (b := 4) _ _ _ _ (by decide)).trans ?_
  exact field_all _

theorem fx_tb (opc : BitVec 10) (o : FX) : (o.enc opc).extractLsb' 46 4 = o.tb := by
  unfold FX.enc
  refine (field_low (a := 38) (b := 58) _ _ _ _ (by decide)).trans ?_
  refine (field_high (a := 50) (b := 8) _ _ _ _ (by decide)).trans ?_
  refine (field_high (a := 40) (b := 10) _ _ _ _ (by decide)).trans ?_
  refine (field_high (a := 32) (b := 8) _ _ _ _ (by decide)).trans ?_
  refine (field_high (a := 22) (b := 10) _ _ _ _ (by decide)).trans ?_
  refine (field_high (a := 12) (b := 10) _ _ _ _ (by decide)).trans ?_
  refine (field_low (a := 8) (b := 4) _ _ _ _ (by decide)).trans ?_
  exact field_all _

theorem fx_sa (opc : BitVec 10) (o : FX) : (o.enc opc).extractLsb' 36 10 = o.sa.enc := by
  unfold FX.enc
  refine (field_low (a := 38) (b := 58) _ _ _ _ (by decide)).trans ?_
  refine (field_high (a := 50) (b := 8) _ _ _ _ (by decide)).trans ?_
  refine (field_high (a := 40) (b := 10) _ _ _ _ (by decide)).trans ?_
  refine (field_high (a := 32) (b := 8) _ _ _ _ (by decide)).trans ?_
  refine (field_high (a := 22) (b := 10) _ _ _ _ (by decide)).trans ?_
  refine (field_low (a := 12) (b := 10) _ _ _ _ (by decide)).trans ?_
  exact field_all _

theorem fx_sb (opc : BitVec 10) (o : FX) : (o.enc opc).extractLsb' 26 10 = o.sb.enc := by
  unfold FX.enc
  refine (field_low (a := 38) (b := 58) _ _ _ _ (by decide)).trans ?_
  refine (field_high (a := 50) (b := 8) _ _ _ _ (by decide)).trans ?_
  refine (field_high (a := 40) (b := 10) _ _ _ _ (by decide)).trans ?_
  refine (field_high (a := 32) (b := 8) _ _ _ _ (by decide)).trans ?_
  refine (field_low (a := 22) (b := 10) _ _ _ _ (by decide)).trans ?_
  exact field_all _

theorem fx_bsel (opc : BitVec 10) (o : FX) : (o.enc opc).extractLsb' 18 8 = o.bsel := by
  unfold FX.enc
  refine (field_low (a := 38) (b := 58) _ _ _ _ (by decide)).trans ?_
  refine (field_high (a := 50) (b := 8) _ _ _ _ (by decide)).trans ?_
  refine (field_high (a := 40) (b := 10) _ _ _ _ (by decide)).trans ?_
  refine (field_low (a := 32) (b := 8) _ _ _ _ (by decide)).trans ?_
  exact field_all _

theorem fx_xf (opc : BitVec 10) (o : FX) : (o.enc opc).extractLsb' 8 10 = o.xf := by
  unfold FX.enc
  refine (field_low (a := 38) (b := 58) _ _ _ _ (by decide)).trans ?_
  refine (field_high (a := 50) (b := 8) _ _ _ _ (by decide)).trans ?_
  refine (field_low (a := 40) (b := 10) _ _ _ _ (by decide)).trans ?_
  exact field_all _

/-- R31: format FX, every field at every value. -/
theorem fx_dec_enc (opc : BitVec 10) (o : FX) : FX.dec (o.enc opc) = some o := by
  have hp : decPfx (o.enc opc) = o.pf := dec_pfx _ _ _ _
  have hm : decMod (o.enc opc) = o.mod := dec_mod _ _ _ _
  simp only [FX.dec, fx_cd, fx_ta, fx_tb, fx_sa, fx_sb, fx_bsel, fx_xf, opnd_dec_enc, hp, hm]
  rfl
theorem fx_opc (opc : BitVec 10) (o : FX) : decOpc (o.enc opc) = opc := dec_opc _ _ _ _

theorem fy_ya (opc : BitVec 10) (o : FY) : (o.enc opc).extractLsb' 48 10 = o.ya.enc := by
  unfold FY.enc
  refine (field_low (a := 38) (b := 58) _ _ _ _ (by decide)).trans ?_
  refine (field_high (a := 46) (b := 12) _ _ _ _ (by decide)).trans ?_
  refine (field_high (a := 30) (b := 16) _ _ _ _ (by decide)).trans ?_
  refine (field_high (a := 20) (b := 10) _ _ _ _ (by decide)).trans ?_
  refine (field_high (a := 10) (b := 10) _ _ _ _ (by decide)).trans ?_
  exact field_all _

theorem fy_yb (opc : BitVec 10) (o : FY) : (o.enc opc).extractLsb' 38 10 = o.yb.enc := by
  unfold FY.enc
  refine (field_low (a := 38) (b := 58) _ _ _ _ (by decide)).trans ?_
  refine (field_high (a := 46) (b := 12) _ _ _ _ (by decide)).trans ?_
  refine (field_high (a := 30) (b := 16) _ _ _ _ (by decide)).trans ?_
  refine (field_high (a := 20) (b := 10) _ _ _ _ (by decide)).trans ?_
  refine (field_low (a := 10) (b := 10) _ _ _ _ (by decide)).trans ?_
  exact field_all _

theorem fy_yc (opc : BitVec 10) (o : FY) : (o.enc opc).extractLsb' 28 10 = o.yc.enc := by
  unfold FY.enc
  refine (field_low (a := 38) (b := 58) _ _ _ _ (by decide)).trans ?_
  refine (field_high (a := 46) (b := 12) _ _ _ _ (by decide)).trans ?_
  refine (field_high (a := 30) (b := 16) _ _ _ _ (by decide)).trans ?_
  refine (field_low (a := 20) (b := 10) _ _ _ _ (by decide)).trans ?_
  exact field_all _

theorem fy_code (opc : BitVec 10) (o : FY) : (o.enc opc).extractLsb' 12 16 = o.code := by
  unfold FY.enc
  refine (field_low (a := 38) (b := 58) _ _ _ _ (by decide)).trans ?_
  refine (field_high (a := 46) (b := 12) _ _ _ _ (by decide)).trans ?_
  refine (field_low (a := 30) (b := 16) _ _ _ _ (by decide)).trans ?_
  exact field_all _

/-- R31: format FY, every field at every value. -/
theorem fy_dec_enc (opc : BitVec 10) (o : FY) : FY.dec (o.enc opc) = some o := by
  have hp : decPfx (o.enc opc) = o.pf := dec_pfx _ _ _ _
  have hm : decMod (o.enc opc) = o.mod := dec_mod _ _ _ _
  simp only [FY.dec, fy_ya, fy_yb, fy_yc, fy_code, opnd_dec_enc, hp, hm]
  rfl
theorem fy_opc (opc : BitVec 10) (o : FY) : decOpc (o.enc opc) = opc := dec_opc _ _ _ _

end Sys2Proof.Laws
end

