-- ==== Sys2Proof/Laws/Moved.lean ====
section
/-!
SUPPORT. What the machine does with a meaning that has placed its lanes, and with one that waits.
-/
namespace Sys2Proof.Laws
open Sys2Proof.Machine

/-- The group after a meaning that waits and left G. -/
def waitGrp (i : Instr) (q : Q) (ck : Nat) (w : Wait) (G : Group) : Group :=
  { (((G.waitAt q.sub w).unkeep q).issued i q ck true).keep q w with rgen := G.rgen }
def waitState (i : Instr) (q : Q) (ck : Nat) (w : Wait) (s : State) : State :=
  { ((s.modGrp q.g.id (waitGrp i q ck w)).spend q q.g.id ck).enqueueWait q.g q.sub w with cur := none }

@[simp] theorem keep_id (G : Group) (q : Q) (w : Wait) : (G.keep q w).id = G.id := by unfold Group.keep; split <;> rfl
@[simp] theorem keep_stepping (G : Group) (q : Q) (w : Wait) : (G.keep q w).stepping = G.stepping := by unfold Group.keep; split <;> rfl
@[simp] theorem keep_lanes (G : Group) (q : Q) (w : Wait) : (G.keep q w).lanes = G.lanes := by unfold Group.keep; split <;> rfl
theorem kept_keep (G : Group) (q : Q) (w : Wait) : keptOf (G.keep q w) = keptOf G := by unfold Group.keep; split <;> rfl

/-- What an instruction answers whose meaning has placed its lanes and left the state `u`. -/
theorem performs_moved (i : Instr) (body : Q → State → Res) (s u : State) (q : Q) (G : Group) (h : Performs i s q)
    (hb : body q s = .moved u) (hg : u.grp? q.g.id = some G) (hst : G.stepping = false) (hlen : G.lanes.length = q.g.width) :
    ∃ t g, runI i body s = .next t ∧ t.grp? q.g.id = some g ∧ g.vregs = G.vregs ∧ g.sregs = G.sregs ∧ g.preds = G.preds ∧
      (∀ L, L < q.g.width → (g.lane L).view = (G.lane L).view ∧ (g.lane L).srRec = (G.lane L).srRec ∧
        ((G.lane L).wait = .none → (g.lane L).wait = .none)) ∧
      (g.batches = G.batches ∧ g.calls = G.calls ∧ g.st = G.st ∧ g.save = G.save ∧ g.frame = G.frame) ∧ OnlyGroup u t q := by
  rw [runI_performs i body s q h, hb]
  obtain ⟨ck, hck⟩ := settle_moved i q 0 u G hg hst
  obtain ⟨hv, hs, hp, hk⟩ := kept_fields ((kept_went q ck ((u.core q.core).growth q.g ck) _).trans (kept_issuedBy i q ck G.settle))
  refine ⟨_, _, hck, ?_, hv, hs, hp, ?_, hk, wentState_frame q ck (placedGrp i q ck) u (placedGrp_id i q ck)⟩
  · rw [wentState_grp q ck _ u (placedGrp_id i q ck), if_pos rfl, hg]; rfl
  · intro L hL
    obtain ⟨b, hb⟩ := lane_settle G L (by omega)
    have hd := lane_done i q ck ((u.core q.core).growth q.g ck) G.settle L (by simpa using by omega)
    rw [hb] at hd
    exact hd

/-! ### Waits -/

/-- The queues that a wait joins stand in cores and dies. -/
theorem enqueue_parts (s : State) (g : Group) (m : Mask) (w : Wait) : ∃ cs ds, s.enqueueWait g m w = { s with cores := cs, dies := ds } := by
  unfold State.enqueueWait
  split
  · split <;> exact ⟨_, _, rfl⟩
  all_goals exact ⟨_, _, rfl⟩
theorem enqueue_grp (s : State) (g : Group) (m : Mask) (w : Wait) (id : Nat) : (s.enqueueWait g m w).grp? id = s.grp? id := by
  obtain ⟨cs, ds, h⟩ := enqueue_parts s g m w
  rw [h]
  rfl
theorem waitGrp_id (i : Instr) (q : Q) (ck : Nat) (w : Wait) (G : Group) : (waitGrp i q ck w G).id = G.id := by
  simp [waitGrp, Group.waitAt, Group.modLanes]
theorem waitState_grp (i : Instr) (q : Q) (ck : Nat) (w : Wait) (s : State) (id : Nat) :
    (waitState i q ck w s).grp? id =
      if id = q.g.id then (s.grp? id).map fun G => wentGroup q ck ((s.core q.core).growth q.g ck) (waitGrp i q ck w G)
      else (s.grp? id).map (tickGroup q.core ((s.core q.core).growth q.g ck)) := by
  have h : (waitState i q ck w s).grp? id = (((s.modGrp q.g.id (waitGrp i q ck w)).spend q q.g.id ck).enqueueWait q.g q.sub w).grp? id := rfl
  rw [h, enqueue_grp, grp_spend, grp_modGrp s q.g.id id (waitGrp i q ck w) (waitGrp_id i q ck w)]
  by_cases h : id = q.g.id
  · simp only [h, if_true, Option.map_map]
    rfl
  · simp only [h, if_false]
    rfl
theorem settle_wait (i : Instr) (q : Q) (e : Nat) (w : Wait) (s : State) (G : Group) (hg : s.grp? q.g.id = some G) (hs : G.stepping = false) :
    ∃ ck, settleRes i q e (.wait w s) = .next (waitState i q ck w s) := by
  refine ⟨issueCk i (s.core q.core).twoPass * (1 + e), congrArg Host.Outcome.next ?_⟩
  have h := waitState_grp i q (issueCk i (s.core q.core).twoPass * (1 + e)) w s q.g.id
  rw [if_pos rfl, hg] at h
  have h2 : (((s.modGrp q.g.id (waitGrp i q (issueCk i (s.core q.core).twoPass * (1 + e)) w)).spend q q.g.id
      (issueCk i (s.core q.core).twoPass * (1 + e))).enqueueWait q.g q.sub w).grp? q.g.id = _ := h
  have h3 := stepDone_of _ q _ h2 (by rw [stepping_went]; simp [waitGrp, Group.waitAt, Group.modLanes, hs])
  unfold waitState
  rw [← h3]
  rfl
@[simp] theorem waitAt_length (g : Group) (m : Mask) (w : Wait) : (g.waitAt m w).lanes.length = g.lanes.length := by simp [Group.waitAt]
/-- A lane after an issue that waits. -/
theorem lane_waitGrp (i : Instr) (q : Q) (ck n : Nat) (w : Wait) (G : Group) (L : Nat) (h : L < G.lanes.length) :
    ((wentGroup q ck n (waitGrp i q ck w G)).lane L).view = (G.lane L).view ∧
    ((wentGroup q ck n (waitGrp i q ck w G)).lane L).srRec = (G.lane L).srRec ∧
    (q.sub.getLsbD L = true → ((wentGroup q ck n (waitGrp i q ck w G)).lane L).wait = w ∨
      (∃ m k, w = .nap m ∧ ((wentGroup q ck n (waitGrp i q ck w G)).lane L).wait = .nap (m - k))) := by
  have hk : ∀ K, (waitGrp i q ck w G).lane K = (((G.waitAt q.sub w).unkeep q).issued i q ck true).lane K := by
    intro K
    unfold Group.lane waitGrp
    simp only [keep_lanes]
  have hl : ((G.waitAt q.sub w).unkeep q).lane L = (G.waitAt q.sub w).lane L := by unfold Group.lane; rw [unkeep_lanes]
  have hw : (G.waitAt q.sub w).lane L = if q.sub.getLsbD L then { G.lane L with wait := w } else G.lane L := lane_modLanes _ _ _ _ h
  obtain ⟨c, st, hi⟩ := lane_issued ((G.waitAt q.sub w).unkeep q) i q ck true L (by simpa using h)
  obtain ⟨k, hn⟩ := lane_went q ck n (waitGrp i q ck w G) L (by simpa [waitGrp] using h)
  rw [hk, hi, hl, hw] at hn
  rw [hn]
  cases k
  · simp only [Bool.false_eq_true, if_false, id]
    refine ⟨?_, ?_, fun hsub => by simp [hsub]⟩
    · split <;> rfl
    · split <;> rfl
  · simp only [if_true, tickLane_view]
    refine ⟨?_, ?_, ?_⟩
    · split <;> rfl
    · unfold tickLane; split <;> (split <;> rfl)
    · intro hsub
      simp only [hsub, if_true]
      unfold tickLane
      cases w <;> simp
theorem kept_waitGrp (i : Instr) (q : Q) (ck n : Nat) (w : Wait) (G : Group) :
    keptOf (wentGroup q ck n (waitGrp i q ck w G)) = keptOf G :=
  (kept_went q ck n _).trans ((kept_keep _ q w).trans ((kept_issued _ i q ck true).trans (kept_unkeep (G.waitAt q.sub w) q)))

/-- What an instruction answers whose meaning waits from the state `u`. -/
theorem waits_of (i : Instr) (body : Q → State → Res) (s u : State) (q : Q) (w : Wait) (G : Group) (h : Performs i s q)
    (he : exec i s = runI i body s) (hb : body q s = .wait w u) (hg : u.grp? q.g.id = some G) (hst : G.stepping = false)
    (hlen : G.lanes.length = q.g.width) : Waits i s q w u := by
  obtain ⟨ck, hck⟩ := settle_wait i q 0 w u G hg hst
  obtain ⟨hv, hs, hp, hk⟩ := kept_fields (kept_waitGrp i q ck ((u.core q.core).growth q.g ck) w G)
  refine ⟨waitState i q ck w u, G, _, ?_, hg, ?_, hv, hs, hp, ?_, hk, ?_, ?_, ?_⟩
  · rw [he, runI_performs i body s q h, hb, hck]
  · rw [waitState_grp, if_pos rfl, hg]; rfl
  · intro L hL
    exact lane_waitGrp i q ck _ w G L (by omega)
  · intro id hid
    rw [waitState_grp, if_neg hid]
    cases u.grp? id with
    | none => rfl
    | some g => simp [tickGroup_view]
  · have h1 := outside_trans (outside_modGrp u q.g.id (waitGrp i q ck w)) (outside_spend _ q q.g.id ck)
    unfold waitState
    generalize ((u.modGrp q.g.id (waitGrp i q ck w)).spend q q.g.id ck) = x at h1 ⊢
    unfold SameOutside at h1
    have hA : { x.enqueueWait q.g q.sub w with cores := x.cores, dies := x.dies } = x := by
      obtain ⟨cs, ds, h⟩ := enqueue_parts x q.g q.sub w
      rw [h]
    have hd : x.dies = u.dies := by rw [← h1]
    have h2 : ({ x with groups := u.groups, cores := u.cores, clusters := u.clusters, dies := u.dies, cur := u.cur } : State) = u := by
      rw [← hd]; exact h1
    have h3 : ({ ({ x.enqueueWait q.g q.sub w with cores := x.cores, dies := x.dies } : State) with
      groups := u.groups, cores := u.cores, clusters := u.clusters, dies := u.dies, cur := u.cur } : State) = u := by rw [hA]; exact h2
    exact h3
  · have hc := clusters_spend (u.modGrp q.g.id (waitGrp i q ck w)) q q.g.id ck
    have he : (waitState i q ck w u).clusters = ((u.modGrp q.g.id (waitGrp i q ck w)).spend q q.g.id ck).clusters := by
      obtain ⟨cs, ds, h⟩ := enqueue_parts ((u.modGrp q.g.id (waitGrp i q ck w)).spend q q.g.id ck) q.g q.sub w
      unfold waitState
      rw [h]
    unfold SameClusters State.cluster at hc ⊢
    rw [he]
    exact hc

end Sys2Proof.Laws
end

