-- ==== Sys2Proof/Tests/Slice0.lean ====
section
/-!
SUPPORT. The tests: words written out from the spec's encodings, ill-formed terms, and, for each statement with premises, states and
operands that meet them (`test_premises_…`).
-/
namespace Sys2Proof.Tests
set_option Elab.async false
open Sys2Proof.Machine

/-! ### A small machine: one resident group of 16 lanes, its team, and a page for its code and data -/

def pfx : Pfx := { ga := 15#5, gb := 15#5, ch := 0#4, stall := 0#4, y := false, nwb := false, cap := 0#2 }
def z : Opnd := .v 0#8
/-- The vector registers hold 64·r + L but for v0, which holds 0; scalar register n holds what `sr` gives. -/
def grp (sr : List Nat) : Group :=
  { id := 1, sheet := 1, team := 1, width := 16, vcount := 24, scount := 16, matrix := true
    vregs := (List.range 24).map fun r => (List.range 16).map fun L => if r = 0 then 0#32 else BitVec.ofNat 32 (64 * r + L)
    sregs := (List.range 16).map fun n => BitVec.ofNat 64 (sr.getD n 0)
    preds := List.replicate 15 0xFF#64
    lanes := List.replicate 16 { pc := 65536#64, wp := 65536#64 }
    frame := 0x10000000 }
def team : Team := { id := 1, sheet := 1, task := 0, teamid := 0, size := 1, cores := [0], s := 8192, groups := [1] }
/-- 64 KiB from 65,536 on, readable, writable and executable, at the same physical address. -/
def page : TlbEntry := { asn := 0, va := 65536, bits := 16, leaf := BitVec.ofNat 64 (65536 + 31) }
def sheet : Sheet :=
  { id := 1, sheetid := 1#64, queue := 1, seq := 0, record := [], asn := 0, prio := 0, age := 1, spawnLim := 16, flags := 0, wakeReq := 0, cport := 0
    submitter := none, scheds := [], sealJob := none, rpool := 0, rfree := 0, immio := false, capt := false, gang := false, st := .running
    tasks := [], nextTeam := 1 }
def queue : Queue := { num := 1, slot := some 0, asn := 0, proc := 1, ceiling := 0, quota := 224 }
def machine (g : Group) (t : Team) : State :=
  { State.reset with
    booted := true, accepting := true, closing := false, groups := [g], teams := [t], sheets := [sheet], queues := [queue], fresh := 10, cores := [(0, { tlb := [page] })]
    cur := some { core := 0, gid := 1, mask := 0xFFFF#64, pc := 65536#64 } }
def s0 : State := machine (grp []) team

/-! ### An issue that is performed, as a check -/

def okIssue (i : Instr) (s : State) : Bool :=
  match s.issuing i with
  | some q => i.wf && q.stops.isNone && q.act != 0#64 && s.workWait i q == none && (s.disagreement q).isNone && !q.g.stepping && q.g.shaped
  | none => false
theorem okIssue_isSome {i : Instr} {s : State} (h : okIssue i s = true) : (s.issuing i).isSome = true := by
  unfold okIssue at h; split at h <;> simp_all
def qOf (i : Instr) (s : State) (h : okIssue i s = true) : Q := (s.issuing i).get (okIssue_isSome h)
theorem performs {i : Instr} {s : State} (h : okIssue i s = true) : Performs i s (qOf i s h) := by
  obtain ⟨q, hq⟩ := Option.isSome_iff_exists.mp (okIssue_isSome h)
  have e : qOf i s h = q := by simp [qOf, hq]
  rw [e]
  simp only [okIssue, hq, Bool.and_eq_true, bne_iff_ne, ne_eq, Option.isNone_iff_eq_none, Bool.not_eq_true', beq_iff_eq] at h
  obtain ⟨⟨⟨⟨⟨⟨formed, passes⟩, executes⟩, supplied⟩, agrees⟩, unstepped⟩, shaped⟩ := h
  exact { formed, issues := hq, passes, executes, supplied, agrees, unstepped, shaped }
theorem performs_all {is : List Instr} {s : State} (h : is.all (okIssue · s) = true) : ∀ i ∈ is, ∃ q, Performs i s q :=
  fun i hi => ⟨_, performs (List.all_eq_true.mp h i hi)⟩
/-- What holds in the 64 lanes of a mask holds in its lanes. -/
theorem lanes_of {x : Mask} {P : Nat → Prop} (h : ∀ L, L < 64 → x.getLsbD L = true → P L) : ∀ L, x.getLsbD L = true → P L :=
  fun L hL => h L (BitVec.lt_of_getLsbD hL) hL

/-- Facts checked at once, beside one that is not decided. -/
theorem and3 {a b c z : Prop} (p : a ∧ b ∧ c) (q : z) : a ∧ b ∧ c ∧ z := by tauto
theorem and4 {a b c d z : Prop} (p : a ∧ b ∧ c ∧ d) (q : z) : a ∧ b ∧ c ∧ d ∧ z := by tauto
theorem and5 {a b c d e z : Prop} (p : a ∧ b ∧ c ∧ d ∧ e) (q : z) : a ∧ b ∧ c ∧ d ∧ e ∧ z := by tauto
theorem and6 {a b c d e f z : Prop} (p : a ∧ b ∧ c ∧ d ∧ e ∧ f) (q : z) : a ∧ b ∧ c ∧ d ∧ e ∧ f ∧ z := by tauto
theorem and7 {a b c d e f g z : Prop} (p : a ∧ b ∧ c ∧ d ∧ e ∧ f ∧ g) (q : z) : a ∧ b ∧ c ∧ d ∧ e ∧ f ∧ g ∧ z := by tauto
theorem and10 {a b c d e f g h i j z : Prop} (p : a ∧ b ∧ c ∧ d ∧ e ∧ f ∧ g ∧ h ∧ i ∧ j) (q : z) : a ∧ b ∧ c ∧ d ∧ e ∧ f ∧ g ∧ h ∧ i ∧ j ∧ z := by tauto

/-! ### Instructions in short -/

def f5 (d a b c e : Opnd) (mod : BitVec 6 := 0#6) (imm8 : BitVec 8 := 0#8) : F5 := { pf := pfx, mod, d, a, b, c, e, imm8 }
def fm (data base index : Opnd) (off : BitVec 24) (size : BitVec 4) (mod : BitVec 6 := 0#6) : FM := { pf := pfx, mod, data, base, index, off, size }
def fb (cond reg : Opnd) (loff : BitVec 32 := 0#32) (slot : BitVec 3 := 0#3) (mod : BitVec 6 := 0#6) : FB := { pf := pfx, mod, cond, reg, loff, slot }
def fy (ya yb yc : Opnd) (code : BitVec 16 := 0#16) (mod : BitVec 6 := 0#6) : FY := { pf := pfx, mod, ya, yb, yc, code }
def fri (d a : Opnd) (imm : BitVec 32) (mod : BitVec 6 := 0#6) : FRI := { pf := pfx, mod, d, a, imm, ext := 0#6 }
def fx (cd ta tb : BitVec 4) (sa sb : Opnd) (bsel : BitVec 8) (xf : BitVec 10) (mod : BitVec 6 := 0#6) : FX :=
  { pf := pfx, mod, cd, ta, tb, sa, sb, bsel, xf }
def v1 : Opnd := .v 1#8
def v2 : Opnd := .v 2#8
def v3 : Opnd := .v 3#8
def p1 : Opnd := .p 1#4
def p2 : Opnd := .p 2#4
def p3 : Opnd := .p 3#4
def s2 : Opnd := .s 2#7
def s4 : Opnd := .s 4#7
def s6 : Opnd := .s 6#7

/-! ### Registers alone -/

theorem test_premises_IntegerArithmetic : ∀ i ∈ ([.iadd (f5 v1 v2 v3 z z), .isub (f5 v1 v2 v3 z z 0b100#6), .imul (f5 v1 v2 v3 z z 0b101#6),
    .imad (f5 v2 v2 (.v 4#8) (.v 6#8) z 0b011#6), .imulh (f5 s2 s4 s6 z z 0b010#6), .imadw (f5 v2 v1 v1 v2 z 1#6),
    .iaddc (f5 v2 v2 (.v 4#8) p1 (.p 15#4) 0b010#6), .iaddc (f5 v2 v2 v3 p1 (.p 14#4))] : List Instr), ∃ q, Performs i s0 q :=
  performs_all (by decide +kernel)
theorem test_premises_IntegerDivision : ∀ i ∈ ([.idiv (f5 v1 v2 z z z), .idiv (f5 v1 v2 v3 z z 0b101#6), .irem (f5 v1 v2 z z z 1#6), .irem (f5 v1 v2 v3 z z)] :
    List Instr), ∃ q, Performs i s0 q :=
  performs_all (by decide +kernel)
theorem test_premises_ShiftsCountsAndDotProducts : ∀ i ∈ ([.ishl (f5 v1 v2 (.imm 31#8) z z), .ishl (f5 v1 v2 (.imm 32#8) z z), .ishr (f5 v1 v2 (.imm 32#8) z z),
    .isra (f5 v1 v2 (.imm 32#8) z z 1#6), .irot (f5 v1 v2 (.imm 33#8) z z 8#6), .popc (f5 v1 v2 z z z), .clz (f5 v1 z z z z), .ctz (f5 v1 z z z z),
    .imin (f5 v1 v2 v3 z z 1#6), .imax (f5 v1 v2 v3 z z), .iabs (f5 v1 v2 z z z 0b101#6), .dot4 (f5 v1 v2 v3 v3 z 0b101#6), .dot8 (f5 v1 v2 v3 v3 z)] :
    List Instr), ∃ q, Performs i s0 q :=
  performs_all (by decide +kernel)
theorem test_premises_BitwiseInstructions : ∀ i ∈ ([.logic (f5 v1 v2 v3 v1 z 0#6 0x96#8), .bfi (f5 v1 v2 v3 (.imm 31#8) (.imm 1#8)),
    .bfx (f5 v1 v2 (.imm 32#8) (.imm 0#8) z 1#6), .bfx (f5 v1 v2 (.imm 0#8) (.imm 32#8) z), .brev (f5 v1 v2 z z z)] : List Instr), ∃ q, Performs i s0 q :=
  performs_all (by decide +kernel)
theorem test_premises_ComparisonsAndChoices : ∀ i ∈ ([.icmp (f5 p1 v1 v2 z z), .icmp (f5 p1 v1 v2 z z 0b001001#6), .icmp (f5 p1 v1 v2 z z 0b010000#6),
    .icmp (f5 p1 v1 v2 z z 0b011000#6), .icmp (f5 p1 v1 v2 z z 0b100000#6), .icmp (f5 s2 s4 s6 z z 0b101010#6), .plog (f5 (.p 15#4) p1 p2 p3 z 0#6 0xE8#8),
    .sel (f5 v1 v2 v3 p1 z)] : List Instr), ∃ q, Performs i s0 q :=
  performs_all (by decide +kernel)
theorem test_premises_Moves : ∀ i ∈ ([.mov (f5 v2 (.v 4#8) z z z 1#6), .movi (fri v1 z 5#32), .movi (fri v2 z 5#32 1#6), .movi (fri v2 z 5#32 2#6),
    .movi (fri s2 z 5#32 3#6), .pmov (f5 p1 p2 z z z), .pmov (f5 v1 z z z z 1#6), .pmov (f5 z v1 z z z 2#6), .pmov (f5 p1 v1 z z z 3#6),
    .movs (f5 v1 (.st .lanenum) z z z), .movs (f5 s2 (.st .cycle) z z z), .movs (f5 v1 (.st .fflags) z z z 1#6), .movs (f5 (.st .fflags) v1 z z z)] :
    List Instr), ∃ q, Performs i s0 q :=
  performs_all (by decide +kernel)

theorem test_premises_FloatArithmetic : ∀ i ∈ ([.fadd (f5 v1 v2 v3 z z), .fsub (f5 v1 v2 v3 z z 3#6), .fmul (f5 v1 v2 v3 z z), .fma (f5 v1 v2 v3 v1 z),
    .fdiv (f5 v1 v2 z z z), .frcp (f5 v1 z z z z), .fsqrt (f5 v1 v2 z z z), .frsq (f5 v1 v2 z z z), .fexp2 (f5 v1 v2 z z z), .flog2 (f5 v1 z z z z),
    .fsin (f5 v1 v2 z z z), .fcos (f5 v1 v2 z z z), .dadd (f5 v2 (.v 4#8) (.v 6#8) z z), .dmul (f5 v2 (.v 4#8) (.v 6#8) z z),
    .dfma (f5 v2 (.v 4#8) (.v 6#8) v2 z), .hadd2 (f5 v1 v2 v3 z z), .hmul2 (f5 v1 v2 v3 z z 0b100#6), .hfma2 (f5 v1 v2 v3 v1 z)] : List Instr),
    ∃ q, Performs i s0 q :=
  performs_all (by decide +kernel)
theorem test_premises_FloatMinMaxCompareClassify : ∀ i ∈ ([.fmin (f5 v1 v2 v3 z z), .fmax (f5 v2 v2 (.v 4#8) z z 1#6), .fclass (f5 v1 v2 z z z)] ++
    (List.range 8).map (fun n => .fcmp (f5 p1 v2 v3 z z (BitVec.ofNat 6 (8 * n)))) : List Instr), ∃ q, Performs i s0 q :=
  performs_all (by decide +kernel)
theorem test_premises_ConvertAndPack : ∀ i ∈ ([.cvt (f5 v1 v2 z z z 2#6 0b01000000#8), .cvt (f5 v2 v1 z z z 13#6 0#8), .pack (f5 v1 v2 v3 z z),
    .pack (f5 v1 v2 v3 v1 v2 2#6), .unpack (f5 v1 v2 z z z 0#6 1#8), .unpack (f5 v1 v2 z z z 7#6 7#8)] : List Instr), ∃ q, Performs i s0 q :=
  performs_all (by decide +kernel)
theorem test_premises_LaneCrossingAndReductions : ∀ i ∈ ([.shfl (f5 v1 v2 v3 z z 0#6 6#8), .shfl (f5 v1 v2 (.imm 255#8) v3 z 2#6 4#8), .shfl (f5 v1 v2 (.imm 1#8) z z 7#6 0#8),
    .bcast (f5 v1 v2 (.imm 16#8) z z), .ballot (f5 v2 p1 z z z), .vote (f5 p1 p2 z z z), .vote (f5 p1 p2 z z z 1#6), .vote (f5 p1 p2 z z z 2#6),
    .vote (f5 p1 p2 (.imm 8#8) z z 3#6), .vote (f5 s2 p2 z z z 8#6), .elect (f5 p1 z z z z), .elect (f5 s2 z z z z 1#6)] : List Instr), ∃ q, Performs i s0 q :=
  performs_all (by decide +kernel)
theorem test_premises_LaneCrossingAndReductions_trees : ∀ n : Nat, n < 12 →
    ∃ o p q r, o.mod.toNat % 16 = n ∧ p.mod.toNat % 16 = n ∧ Performs (.lred o) s0 q ∧ Performs (.lscan p) s0 r := by
  have h : ∀ n : Nat, n < 12 → okIssue (.lred (f5 v2 v2 z z z (BitVec.ofNat 6 n))) s0 = true ∧
    okIssue (.lscan (f5 v2 v2 z z z (BitVec.ofNat 6 n))) s0 = true := by decide +kernel
  intro n hn
  refine ⟨_, _, _, _, ?_, ?_, performs (h n hn).1, performs (h n hn).2⟩ <;> simp only [f5, BitVec.toNat_ofNat] <;> omega

/-! ### Control -/

/-- The code: lines of filler words with every TGT bit at 65,536, and a kernel of 64 lanes, 4 vector and 2 scalar registers whose entry is
192 bytes on. -/
def header : List Byte :=
  let b := [9#8, 0#8, 64#8, 1#8, 4#8, 0#8, 2#8, 0#8, 0#8, 0#8, 0xC0#8, 0xFF#8] ++ List.replicate 50 0#8
  b ++ leBytes 2 (linePar (leNat b))
def code : Mem := Mem.store (Mem.store (Mem.store [] 65536 (mkLine [] 31 0)) 65664 header) 65728 (mkLine [] 31 0)
def sc : State := { s0 with mem := code }
/-- Every lane's call stack holds n slots. -/
def stacked (n : Nat) : State :=
  { sc with groups := [{ grp [] with lanes := List.replicate 16 { pc := 65536#64, wp := 65536#64, stack := List.replicate n 65572#64 } }] }
/-- v2:3 holds 65,572, the last slot but one of the line. -/
def pointing : State :=
  { sc with groups := [{ grp [] with vregs := (List.range 24).map fun r => List.replicate 16 (if r = 2 then 65572#32 else 0#32) }] }

theorem test_premises_TransfersOfControl_bra : ∃ (o : FB) (q : Q), Performs (.bra o) sc q ∧
    let near := lineBase q.pc + (o.loff.signExtend 64 <<< 6) + BitVec.ofNat 64 (12 * o.slot.toNat)
    ∀ L, L < q.g.width → takesLane o q L = true → sc.checkDest q.g near = .ok :=
  ⟨fb p1 z 0#32 4#3 1#6, _, performs (by decide +kernel), by decide +kernel⟩
theorem test_premises_TransfersOfControl_bri : ∃ (o : FB) (q : Q), Performs (.bri o) pointing q ∧
    ∀ L, L < q.g.width → takesLane o q L = true → pointing.checkDest q.g (q.g.rd o.reg 2 L) = .ok :=
  ⟨fb z v2, _, performs (by decide +kernel), by decide +kernel⟩
theorem test_premises_TransfersOfControl_call : ∃ (o : FB) (q : Q), Performs (.call o) (stacked 63) q ∧
    let near := lineBase q.pc + (o.loff.signExtend 64 <<< 6) + BitVec.ofNat 64 (12 * o.slot.toNat)
    (∀ L, L < q.g.width → takesLane o q L = true → (stacked 63).checkDest q.g near = .ok) ∧
    ∀ L, L < 64 → takesLane o q L = true → (q.g.lane L).stack.length < 64 :=
  ⟨fb z z 3#32 0#3, _, performs (by decide +kernel), by decide +kernel⟩
theorem test_premises_TransfersOfControl_calli : ∃ (o : FB) (q : Q), Performs (.calli o) pointing q ∧
    (∀ L, L < q.g.width → takesLane o q L = true → pointing.checkDest q.g (q.g.rd o.reg 2 L) = .ok) ∧
    ∀ L, L < 64 → takesLane o q L = true → (q.g.lane L).stack.length < 64 :=
  ⟨fb z v2, _, performs (by decide +kernel), by decide +kernel⟩
theorem test_premises_TransfersOfControl_ret : ∃ (o : FB) (q : Q), Performs (.ret o) (stacked 1) q ∧
    (∀ L, L < q.g.width → q.act.getLsbD L = true → (stacked 1).checkDest q.g ((q.g.lane L).stack.headD 0#64) = .ok) ∧
    ∀ L, q.act.getLsbD L = true → (q.g.lane L).stack ≠ [] :=
  ⟨fb z z, _, performs (by decide +kernel), by decide +kernel, lanes_of (by decide +kernel)⟩
theorem test_premises_TransfersOfControl_full : ∃ (o : FB) (q : Q), Performs (.call o) (stacked 64) q ∧
    let near := lineBase q.pc + (o.loff.signExtend 64 <<< 6) + BitVec.ofNat 64 (12 * o.slot.toNat)
    (∀ L, L < 64 → takesLane o q L = true → (stacked 64).checkDest q.g near = .ok) ∧
    (∀ L, L < q.g.width → (q.g.lane L).stack.length ≤ 64) ∧
    ∃ L, L < q.g.width ∧ (takesLane o q L && decide ((q.g.lane L).stack.length = 64)) = true :=
  ⟨fb z z 3#32 0#3, _, performs (by decide +kernel), by decide +kernel, by decide +kernel, 0, by decide +kernel⟩
theorem test_premises_TransfersOfControl_empty : ∃ (o : FB) (q : Q), Performs (.ret o) sc q ∧
    (∀ L, L < q.g.width → q.act.getLsbD L = true → (q.act.getLsbD L && (q.g.lane L).stack.isEmpty) = false →
      sc.checkDest q.g ((q.g.lane L).stack.headD 0#64) = .ok) ∧
    ∃ L, L < q.g.width ∧ (q.act.getLsbD L && (q.g.lane L).stack.isEmpty) = true :=
  ⟨fb z z, _, performs (by decide +kernel), by decide +kernel, 0, by decide +kernel⟩
theorem test_premises_JoinsWaypointsAndPauses_rcv : ∃ (o : FB) (q : Q), Performs (.rcv o) sc q ∧
    let near := lineBase q.pc + (o.loff.signExtend 64 <<< 6) + BitVec.ofNat 64 (12 * o.slot.toNat)
    (∀ L, L < 64 → takesLane o q L = true → sc.checkDest q.g near = .ok) ∧ q.g.joins.length < 16 ∧ near ≠ nextPc q.pc ∧
    ∃ L, L < q.g.width ∧ q.sub.getLsbD L = true ∧ takesLane o q L = false ∧ (q.g.lane L).exited = false :=
  ⟨fb p1 z 3#32 0#3, _, performs (by decide +kernel), and3 (by decide +kernel) ⟨8, by decide +kernel⟩⟩
theorem test_premises_JoinsWaypointsAndPauses_rest : ∀ i ∈ ([.waypt (fy z z z), .tbar (fy z z z 3#16), .yield (fy z z z), .nap (fri z z 0#32), .nap (fri z z 1#32),
    .nap (fri z s2 0xFFFFFFFF#32 1#6)] : List Instr), ∃ q, Performs i s0 q :=
  performs_all (by decide +kernel)
def only1 : Pfx := { pfx with ga := 1#5 }
theorem test_premises_ExitsAndSpawnBins_some : ∃ (o : FY) (q : Q), Performs (.exit o) s0 q ∧
    ∃ L, L < q.g.width ∧ (q.g.lane L).exited = false ∧ q.act.getLsbD L = false :=
  ⟨{ fy z z z with pf := only1 }, _, performs (by decide +kernel), 15, by decide +kernel⟩
theorem test_premises_ExitsAndSpawnBins_all : ∃ (o : FY) (q : Q), Performs (.exit o) s0 q ∧
    (∀ L, L < q.g.width → (q.g.lane L).exited = false → q.act.getLsbD L = true) ∧ q.g.batches = [] ∧ s0.team? q.g.team = some team ∧
    team.failed = [] ∧ (∀ p ∈ team.ports, p.blocked = []) ∧ s0.lastOfTeam q.g.team q.g.id = true :=
  ⟨fy z z z, _, performs (by decide +kernel), by decide +kernel⟩
def spawnTo : FB := fb s2 z 3#32 0#3
def childHdr : Header := { width := 64, vcount := 4, scount := 2, team := 1, scratch := 0, flags := 0 }
/-- A bin of the entry that holds n threads. -/
def binOf (n : Nat) : Bin := { sheet := 1, task := 0, entry := 65728#64, hdr := childHdr, args := List.replicate n [0#32, 0#32], start := 0, order := 0 }
def binned (n : Nat) : State := { sc with cores := [(0, { tlb := [page], binSeq := 1, bins := [binOf n] })] }
theorem test_premises_ExitsAndSpawnBins_spawn : ∃ (q : Q) (h : Header), Performs (.spawn spawnTo) (binned 47) q ∧
    let entry := lineBase q.pc + (spawnTo.loff.signExtend 64 <<< 6) + BitVec.ofNat 64 (12 * spawnTo.slot.toNat)
    (binned 47).childEntry q.g entry = .header h ∧
    (∀ b ∈ ((binned 47).core q.core).bins, (b.sheet == q.g.sheet && b.entry == entry) = true →
      b.args.length + (lanesOf q.g.width q.act).length < h.width ∧ b.hdr = h) ∧
    (lanesOf q.g.width q.act).length < h.width ∧ ((binned 47).core q.core).bins.any (fun b => b.sheet == q.g.sheet && b.entry == entry) = true :=
  ⟨_, childHdr, performs (by decide +kernel), by decide +kernel⟩
def limited : State := { binned 48 with sheets := [{ sheet with spawnLim := 0 }] }
theorem test_premises_ExitsAndSpawnBins_limit : ∃ (q : Q) (h : Header), Performs (.spawn spawnTo) limited q ∧
    let entry := lineBase q.pc + (spawnTo.loff.signExtend 64 <<< 6) + BitVec.ofNat 64 (12 * spawnTo.slot.toNat)
    let n := launchesOf limited q.core q.g.sheet entry h.width (lanesOf q.g.width q.act).length
    limited.childEntry q.g entry = .header h ∧ n ≠ 0 ∧ limited.atSpawnLimit q.g.sheet n = true :=
  ⟨_, childHdr, performs (by decide +kernel), by decide +kernel⟩
/-- A thread that fills its bin, or finds sixteen of other keys. -/
theorem test_premises_ExitsAndSpawnBins_launches : ∃ (q : Q), Performs (.spawn spawnTo) (binned 48) q ∧
    let entry := lineBase q.pc + (spawnTo.loff.signExtend 64 <<< 6) + BitVec.ofNat 64 (12 * spawnTo.slot.toNat)
    (binned 48).childEntry q.g entry = .header childHdr ∧
    (binned 48).atSpawnLimit q.g.sheet (launchesOf (binned 48) q.core q.g.sheet entry 64 (lanesOf q.g.width q.act).length) = false :=
  ⟨_, performs (by decide +kernel), by decide +kernel⟩
theorem test_premises_ExitsAndSpawnBins_deposit : let key := fun (b : Bin) => b.sheet == 1 && b.entry == 65728#64
    (((binned 63).core 0).bins.find? key = some (binOf 63) ∧ childHdr.width ≤ (binOf 63).args.length + 1) ∧
    let bs := (List.range 16).map fun n => { binOf n with entry := 0#64, order := n }
    bs.head? = some { binOf 0 with entry := 0#64 } ∧ bs.length = 16 ∧ bs.any key = false ∧ 1 < childHdr.width := by decide +kernel
def stopsAt (s : State) (b : Bin) : Bool :=
  s.ckptStop || s.barred b.sheet [0] || !s.quotaAllows b.sheet [0] || !s.roomFor (b.launch sheet) [0]
theorem test_premises_ExitsAndSpawnBins_start : (binned 64).sheet? (binOf 64).sheet = some sheet ∧ stopsAt (binned 64) (binOf 64) = false ∧
    sheet.rerun = none ∧ childHdr.groups = 1 ∧ stopsAt { binned 64 with ckptStop := true } (binOf 64) = true := by decide +kernel
theorem test_premises_ExitsAndSpawnBins_binfl : ∃ (o : FY) (q : Q), Performs (.binfl o) (binned 1) q ∧
    ∀ b ∈ ((binned 1).core q.core).bins, b.hdr.width ≤ 64 :=
  ⟨fy z z z 0#16 1#6, _, performs (by decide +kernel), by decide +kernel⟩

/-! ### Memory -/

/-- s2 holds 65,536, s3 holds `x`, s4 holds `y`. -/
def mg (x y : Nat) : Group := grp [0, 0, 65536, x, y]
def data : Mem := Mem.store [] 65600 ((List.range 64).map fun i => BitVec.ofNat 8 (i + 1))
def sm : State := { machine (mg 0 0) team with mem := data }
/-- One of the 1,024 request entries is free. -/
def busyCore : State := { sm with cores := [(0, { tlb := [page], reqs := (List.range 1023).map fun n => { gid := 2, line := n } })] }

theorem test_premises_Loads : ∃ (o : FM) (q : Q) (phys : Nat → Nat), Performs (.ld o) busyCore q ∧ Memory.wf busyCore.mem = true ∧ NoBadWord busyCore q ∧
    Reaches busyCore q (memAddr o q.g) (sizeBytes o.size) .rd phys ∧ RequestsFree busyCore q .load (accessesOf q phys (sizeBytes o.size)) :=
  ⟨fm v1 s2 v1 0#24 0#4 1#6, _, fun L => 65600 + L, performs (by decide +kernel), by decide +kernel, ⟨rfl, by decide +kernel⟩, lanes_of (by decide +kernel),
   by unfold RequestsFree; decide +kernel⟩
theorem test_premises_Loads_quad : ∃ (o : FM) (q : Q) (phys : Nat → Nat), Performs (.ld o) sm q ∧ Memory.wf sm.mem = true ∧ NoBadWord sm q ∧
    Reaches sm q (memAddr o q.g) (sizeBytes o.size) .rd phys ∧ RequestsFree sm q .load (accessesOf q phys (sizeBytes o.size)) :=
  ⟨fm (.v 4#8) s2 (.imm 0#8) 0x40#24 4#4, _, fun _ => 65600, performs (by decide +kernel), by decide +kernel, ⟨rfl, by decide +kernel⟩,
   lanes_of (by decide +kernel), by unfold RequestsFree; decide +kernel⟩
/-- A stale issue, with an older view of memory. -/
def olden : State :=
  let g : Group := { mg 0 0 with roMem := some [] }
  { machine g team with mem := data, cur := some { core := 0, gid := 1, mask := 0xFFFF#64, pc := 65536#64, stale := true } }
theorem test_premises_Loads_readOnly : ∃ (o : FM) (q : Q) (phys : Nat → Nat), Performs (.ldro o) olden q ∧
    let m := if q.stale then q.g.roMem.getD olden.mem else olden.mem
    m ≠ olden.mem ∧ Memory.wf olden.mem = true ∧ Memory.wf m = true ∧ NoBadWord olden q ∧
    Reaches olden q (memAddr o q.g) (sizeBytes o.size) .rd phys ∧ RequestsFree olden q .load (accessesOf q phys (sizeBytes o.size)) :=
  ⟨fm v2 s2 (.imm 0#8) 0x40#24 3#4, _, fun _ => 65600, performs (by decide +kernel), and3 (by decide +kernel) ⟨⟨rfl, by decide +kernel⟩, lanes_of (by decide +kernel), by unfold RequestsFree; decide +kernel⟩⟩
theorem test_premises_Stores : ∃ (o : FM) (q : Q) (phys : Nat → Nat), Performs (.st o) sm q ∧ NoBadWord sm q ∧
    Reaches sm q (memAddr o q.g) (sizeBytes o.size) .wr phys ∧ RequestsFree sm q (storeUse q.g (fmScope o) (fmOrd o)) (accessesOf q phys (sizeBytes o.size)) :=
  ⟨fm v1 s2 v1 0#24 0#4, _, fun L => 65600 + L, performs (by decide +kernel), ⟨rfl, by decide +kernel⟩, lanes_of (by decide +kernel), by unfold RequestsFree; decide +kernel⟩
theorem test_premises_Stores_lastBytes : ∃ (o : FM) (q : Q) (phys : Nat → Nat), Performs (.st o) sm q ∧ NoBadWord sm q ∧
    Reaches sm q (memAddr o q.g) (sizeBytes o.size) .wr phys ∧ RequestsFree sm q (storeUse q.g (fmScope o) (fmOrd o)) (accessesOf q phys (sizeBytes o.size)) :=
  ⟨fm (.v 4#8) s2 (.imm 0#8) 0xFFF0#24 4#4, _, fun _ => 131056, performs (by decide +kernel), ⟨rfl, by decide +kernel⟩, lanes_of (by decide +kernel),
   by unfold RequestsFree; decide +kernel⟩
theorem notHost : paHost 65600 = false := by decide +kernel
theorem test_premises_Atomics : ∀ n : Nat, n < 10 → ∃ (o : FM) (q : Q) (phys : Nat → Nat), o.index = .v (BitVec.ofNat 8 n) ∧ Performs (.atom o) sm q ∧
    Memory.wf sm.mem = true ∧ NoBadWord sm q ∧ Reaches sm q (atomAddr o q.g) (sizeBytes o.size) .rw phys ∧
    (∀ L, q.act.getLsbD L = true → paHost (phys L) = false) ∧ RequestsFree sm q (sm.atomUse q.g (fmScope o) (fmOrd o)) (accessesOf q phys (sizeBytes o.size)) := by
  have h : ∀ n : Nat, n < 10 → ∃ h : okIssue (.atom (fm v1 s2 (.v (BitVec.ofNat 8 n)) 0x40#24 2#4 0b001000#6)) sm = true,
      let o := fm v1 s2 (.v (BitVec.ofNat 8 n)) 0x40#24 2#4 0b001000#6
      let q := qOf (.atom o) sm h
      (∀ L, L < 64 → q.act.getLsbD L = true → sm.subPage q.g.asn (atomAddr o q.g L) = none ∧ sm.rangeCond q.g (atomAddr o q.g L) 4 4 .rw = none ∧
        sm.route q.g (atomAddr o q.g L).toNat .rw = .pa 65600) ∧ RequestsFree sm q (sm.atomUse q.g (fmScope o) (fmOrd o)) (accessesOf q (fun _ => 65600) 4) := by unfold RequestsFree; decide +kernel
  intro n hn
  obtain ⟨h1, h2, h3⟩ := h n hn
  exact ⟨_, _, fun _ => 65600, rfl, performs h1, by decide +kernel, ⟨rfl, rfl⟩, lanes_of h2, fun _ _ => notHost, h3⟩
theorem test_premises_Atomics_cas : ∃ (o : FM) (q : Q) (phys : Nat → Nat), Performs (.cas o) sm q ∧ Memory.wf sm.mem = true ∧ NoBadWord sm q ∧
    Reaches sm q (atomAddr o q.g) (sizeBytes o.size / 2) .rw phys ∧ (∀ L, q.act.getLsbD L = true → paHost (phys L) = false) ∧
    RequestsFree sm q (sm.atomUse q.g (fmScope o) (fmOrd o)) (accessesOf q phys (sizeBytes o.size / 2)) :=
  ⟨fm (.v 4#8) s2 z 0x40#24 4#4 0b101000#6, _, fun _ => 65600, performs (by decide +kernel), by decide +kernel, ⟨rfl, by decide +kernel⟩,
   lanes_of (by decide +kernel), lanes_of (by decide +kernel), by unfold RequestsFree; decide +kernel⟩
/-- The page at 65,536 lies in memory reached over PCIe. -/
def hosted : State := { sm with cores := [(0, { tlb := [{ page with leaf := BitVec.ofNat 64 (8 * 2 ^ 48 + 31) }] })] }
theorem test_premises_Atomics_host : ∃ (o p : FM) (q r : Q) (phys : Nat → Nat), Performs (.atom o) hosted q ∧ Performs (.cas p) hosted r ∧
    Reaches hosted q (atomAddr o q.g) (sizeBytes o.size) .rw phys ∧ Reaches hosted r (atomAddr p r.g) (sizeBytes p.size / 2) .rw phys ∧
    (∃ L, q.act.getLsbD L = true ∧ paHost (phys L) = true) ∧ ∃ L, r.act.getLsbD L = true ∧ paHost (phys L) = true :=
  ⟨fm v1 s2 (.v 0#8) 0x40#24 2#4 0b001000#6, fm v2 s2 z 0x40#24 3#4 0b101000#6, _, _, fun _ => 8 * 2 ^ 48 + 64, performs (by decide +kernel),
   performs (by decide +kernel), lanes_of (by decide +kernel), lanes_of (by decide +kernel), ⟨0, by decide +kernel⟩,
   0, by decide +kernel⟩
theorem test_premises_FencesPrefetchAndQueries : ∀ i ∈ ([.rosync (fy z z z 0#16 0b001000#6), .fence (fy z z z 0#16 0b101100#6), .fence (fy z z z 0#16 0b100000#6),
    .fence (fy z z z 0#16 0b011110#6), .pref (fm z s2 v1 0#24 0#4)] : List Instr), ∃ q, Performs i sm q :=
  performs_all (by decide +kernel)
theorem test_premises_FencesPrefetchAndQueries_xqry : ∃ (o : FM) (q : Q) (word : Nat → DWord), Performs (.xqry o) sm q ∧
    (∀ L, q.act.getLsbD L = true → sm.xqry q.g (memAddr o q.g L) = some (word L)) ∧
    sm.walksBusy (dieOf q.g.core) = false ∧ sm.requestGen q.g ≤ (sm.die (dieOf q.g.core)).cur ∧
    (∀ e ∈ sm.extents q.g, e.covers 65600 = false) ∧ sm.leafFor q.g.core q.g.asn 65600 = some (page.leaf, 16) ∧
    sm.leafFor q.g.core q.g.asn 131072 = none :=
  ⟨fm v2 s2 (.imm 0#8) 0x40#24 3#4, _, fun _ => (sm.xqry (mg 0 0) 65600).getD 0#64, performs (by decide +kernel), lanes_of (by decide +kernel), by decide +kernel⟩

/-- Entry 3 is an import of 4,096 bytes of module 5, entry 4 an export; s3 names the import at `x`, s4 the export. -/
def importW : Window := { entry := 3, isImport := true, module := 5, base := 9, len := 4096, ack := 7#64 }
def exportW : Window := { entry := 4, isImport := false, base := 65536, len := 4096, arr := 7#64 }
def sw (x : Nat) : State :=
  { machine (grp [0, 0, 16, 3 * 2 ^ 48 + x, 4 * 2 ^ 48, 7, 8, 512, 65536]) team with sheets := [{ sheet with windows := [importW, exportW] }] }
theorem test_premises_PutsAndWindows_put : ∃ (o : FM) (q : Q) (w : Window), Performs (.put o) (sw 4088) q ∧ windowOf (sw 4088) q (q.g.rdS o.base) = some w ∧
    w.isImport = true ∧ (getK (sw 4088).fab FabPort.init (portOf w.module)).down = false ∧
    let off := fun L => (((q.g.rdS o.base).toNat % 2 ^ 48 : Nat) : Int) + q.g.term o.index false L + off24 o.off
    ∀ L, q.act.getLsbD L = true → 0 ≤ off L ∧ off L + sizeBytes o.size ≤ w.len ∧ off L % sizeBytes o.size = 0 :=
  ⟨fm v1 (.s 3#7) (.imm 0#8) 4#24 2#4, _, importW, performs (by decide +kernel), and3 (by decide +kernel) (lanes_of (by decide +kernel))⟩
/-- The link to the import's module is down. -/
def swDown : State := { sw 4088 with fab := [(portOf 5, { down := true })] }
theorem test_premises_PutsAndWindows_linkDown : ∃ (o : FM) (q : Q) (w : Window), Performs (.put o) swDown q ∧ windowOf swDown q (q.g.rdS o.base) = some w ∧
    w.isImport = true ∧ w.module ≠ swDown.moduleNo ∧ (getK swDown.fab FabPort.init (portOf w.module)).down = true ∧ (swDown.sheet? q.g.sheet).isSome = true ∧
    let off := fun L => (((q.g.rdS o.base).toNat % 2 ^ 48 : Nat) : Int) + q.g.term o.index false L + off24 o.off
    ∀ L, q.act.getLsbD L = true → 0 ≤ off L ∧ off L + sizeBytes o.size ≤ w.len ∧ off L % sizeBytes o.size = 0 :=
  ⟨fm v1 (.s 3#7) (.imm 0#8) 4#24 2#4, _, importW, performs (by decide +kernel), and5 (by decide +kernel) (lanes_of (by decide +kernel))⟩
theorem test_premises_PutsAndWindows_bulk : ∃ (o : FM) (q : Q) (w : Window) (tm : Team), Performs (.puts o) (sw 0) q ∧
    windowOf (sw 0) q (q.g.rdS o.base) = some w ∧ w.isImport = true ∧ (sw 0).team? q.g.team = some tm ∧
    let n := (q.g.rdS o.data).toNat
    let p := (q.g.rdS o.index).toNat
    let off : Int := (((q.g.rdS o.base).toNat % 2 ^ 48 : Nat) : Int) + off24 o.off
    16 ≤ n ∧ n ≤ 65536 ∧ n % 16 = 0 ∧ p % 16 = 0 ∧ p + n ≤ tm.s ∧ 0 ≤ off ∧ off + n ≤ w.len ∧ off % 16 = 0 ∧ tm.failed = [] ∧ tm.bad = [] ∧
    (∀ c ∈ chunksOf p n, c ∉ tm.absent) ∧ (getK (sw 0).fab FabPort.init (portOf w.module)).down = false :=
  ⟨fm s2 (.s 3#7) (.s 7#7) 4080#24 0#4, _, importW, team, performs (by decide +kernel), by decide +kernel⟩
def swBulkDown : State := { sw 0 with fab := [(portOf 5, { down := true })] }
theorem test_premises_PutsAndWindows_bulkDown : ∃ (o : FM) (q : Q) (w : Window) (tm : Team), Performs (.puts o) swBulkDown q ∧
    windowOf swBulkDown q (q.g.rdS o.base) = some w ∧ w.isImport = true ∧ swBulkDown.team? q.g.team = some tm ∧
    let n := (q.g.rdS o.data).toNat
    let p := (q.g.rdS o.index).toNat
    let off : Int := (((q.g.rdS o.base).toNat % 2 ^ 48 : Nat) : Int) + off24 o.off
    16 ≤ n ∧ n ≤ 65536 ∧ n % 16 = 0 ∧ p % 16 = 0 ∧ p + n ≤ tm.s ∧ 0 ≤ off ∧ off + n ≤ w.len ∧ off % 16 = 0 ∧ tm.failed = [] ∧ tm.bad = [] ∧
    (∀ c ∈ chunksOf p n, c ∉ tm.absent) ∧ w.module ≠ swBulkDown.moduleNo ∧ (getK swBulkDown.fab FabPort.init (portOf w.module)).down = true ∧
    (swBulkDown.sheet? q.g.sheet).isSome = true :=
  ⟨fm s2 (.s 3#7) (.s 7#7) 4080#24 0#4, _, importW, team, performs (by decide +kernel), by decide +kernel⟩
def swAbsent : State := { sw 0 with teams := [{ team with absent := [1] }] }
theorem test_premises_PutsAndWindows_bulkWaits : ∃ (o : FM) (q : Q) (w : Window) (tm : Team), Performs (.puts o) swAbsent q ∧
    windowOf swAbsent q (q.g.rdS o.base) = some w ∧ w.isImport = true ∧ swAbsent.team? q.g.team = some tm ∧
    let n := (q.g.rdS o.data).toNat
    let p := (q.g.rdS o.index).toNat
    let off : Int := (((q.g.rdS o.base).toNat % 2 ^ 48 : Nat) : Int) + off24 o.off
    16 ≤ n ∧ n ≤ 65536 ∧ n % 16 = 0 ∧ p % 16 = 0 ∧ p + n ≤ tm.s ∧ 0 ≤ off ∧ off + n ≤ w.len ∧ off % 16 = 0 ∧ tm.failed = [] ∧ tm.bad = [] ∧
    ∃ c ∈ chunksOf p n, c ∈ tm.absent :=
  ⟨fm s2 (.s 3#7) (.s 7#7) 0#24 0#4, _, importW, { team with absent := [1] }, performs (by decide +kernel), by decide +kernel⟩
theorem test_premises_PutsAndWindows_counters : ∃ (o p u : FY) (q r t : Q), Performs (.winwait o) (sw 0) q ∧ Performs (.winwait p) (sw 0) r ∧
    Performs (.winwait u) (sw 0) t ∧ windowOf (sw 0) q (q.g.rdS o.ya) = some importW ∧ (q.g.rdS o.yb).toNat ≤ importW.ack.toNat ∧
    windowOf (sw 0) r (r.g.rdS p.ya) = some exportW ∧ exportW.arr.toNat < (r.g.rdS p.yb).toNat ∧
    windowOf (sw 0) t (t.g.rdS u.ya) = some exportW ∧ u.code = 0#16 :=
  ⟨fy (.s 3#7) (.s 5#7) z, fy (.s 4#7) (.s 6#7) z 1#16, fy (.s 4#7) (.s 5#7) z, _, _, _, performs (by decide +kernel), performs (by decide +kernel),
   performs (by decide +kernel), by decide +kernel⟩
theorem test_premises_PutsAndWindows_reads : ∃ (o p u : FY) (q r t : Q), Performs (.winrd o) (sw 0) q ∧ Performs (.winrd p) (sw 0) r ∧
    Performs (.winrd u) (sw 0) t ∧ windowOf (sw 0) q (q.g.rdS o.yb) = some importW ∧ o.code = 0#16 ∧
    windowOf (sw 0) r (r.g.rdS p.yb) = some exportW ∧ p.code = 2#16 ∧ windowOf (sw 0) t (t.g.rdS u.yb) = some exportW ∧ u.code = 1#16 :=
  ⟨fy s2 (.s 3#7) z, fy s2 (.s 4#7) z 2#16, fy s2 (.s 4#7) z 1#16, _, _, _, performs (by decide +kernel), performs (by decide +kernel),
   performs (by decide +kernel), by decide +kernel⟩

/-! ### Scratchpad and copies -/

/-- s2 holds `x`; v1 holds 64 + L. -/
def ss (x : Nat) (t : Team) : State := machine (grp [0, 0, x, 8192 - 512, 1, 65536, 512]) t
def absentT : Team := { team with absent := [15] }
theorem test_premises_ScratchpadAccesses : ∃ (o p : FM) (q r : Q) (tm : Team), Performs (.sld o) (ss 8112 team) q ∧ Performs (.sst p) (ss 8112 team) r ∧
    (ss 8112 team).team? q.g.team = some tm ∧ tm.failed = [] ∧ tm.bad = [] ∧ (Memory.wf tm.scratch = true ∧ Memory.wf tm.older = true) ∧
    (∀ L, q.act.getLsbD L = true → 0 ≤ scrAddr o q.g L ∧ scrAddr o q.g L + sizeBytes o.size ≤ tm.s ∧ scrAddr o q.g L % sizeBytes o.size = 0) ∧
    (∀ L, r.act.getLsbD L = true → 0 ≤ scrAddr p r.g L ∧ scrAddr p r.g L + sizeBytes p.size ≤ tm.s ∧ scrAddr p r.g L % sizeBytes p.size = 0) ∧
    ∀ L, q.act.getLsbD L = true → ∀ c ∈ chunksOf (scrAddr o q.g L).toNat (sizeBytes o.size), c ∉ tm.absent :=
  ⟨fm v1 s2 v1 0#24 0#4, fm v1 s2 v1 0#24 0#4, _, _, team, performs (by decide +kernel), performs (by decide +kernel), and4 (by decide +kernel) ⟨lanes_of (by decide +kernel), lanes_of (by decide +kernel), lanes_of (by decide +kernel)⟩⟩
/-- Chunk 0 has landed, and a stale issue may still find what stood there. -/
def landedT : Team := { team with scratch := data, landed := [0] }
theorem test_premises_ScratchpadAccesses_older : ∃ (o : FM) (q : Q), let s : State :=
      { ss 0 landedT with cur := some { core := 0, gid := 1, mask := 0xFFFF#64, pc := 65536#64, stale := true } }
    Performs (.sld o) s q ∧ s.team? q.g.team = some landedT ∧ q.stale = true ∧ landedT.landed.contains ((scrAddr o q.g 0).toNat / 512) = true ∧
    Memory.wf landedT.older = true ∧ Memory.wf landedT.scratch = true ∧
    ∀ L, q.act.getLsbD L = true → 0 ≤ scrAddr o q.g L ∧ scrAddr o q.g L + 1 ≤ landedT.s ∧ scrAddr o q.g L % 1 = 0 :=
  ⟨fm v1 s2 v1 0#24 0#4, _, performs (by decide +kernel), and5 (by decide +kernel) (lanes_of (by decide +kernel))⟩
theorem test_premises_ScratchpadAccesses_absent : ∃ (o p : FM) (q r : Q) (tm : Team), Performs (.sld o) (ss 0 absentT) q ∧ Performs (.sst p) (ss 0 absentT) r ∧
    (ss 0 absentT).team? q.g.team = some tm ∧ tm.failed = [] ∧ tm.bad = [] ∧
    (∀ L, q.act.getLsbD L = true → 0 ≤ scrAddr o q.g L ∧ scrAddr o q.g L + sizeBytes o.size ≤ tm.s ∧ scrAddr o q.g L % sizeBytes o.size = 0) ∧
    ¬ ∀ L, q.act.getLsbD L = true → ∀ c ∈ chunksOf (scrAddr o q.g L).toNat (sizeBytes o.size), c ∉ tm.absent :=
  ⟨fm v1 (.s 3#7) (.imm 0#8) 0#24 2#4, fm v1 (.s 3#7) (.imm 0#8) 0#24 2#4, _, _, absentT, performs (by decide +kernel), performs (by decide +kernel), and3 (by decide +kernel) ⟨lanes_of (by decide +kernel),
   fun h => absurd (h 0 (by decide +kernel) 15 (by decide +kernel)) (by decide +kernel)⟩⟩
theorem test_premises_ScratchpadAccesses_outside : ∃ (o p : FM) (q r : Q) (tm : Team), Performs (.sld o) (ss 8120 team) q ∧ Performs (.sst p) (ss 8120 team) r ∧
    (ss 8120 team).team? q.g.team = some tm ∧ tm.failed = [] ∧
    let out := fun L => q.act.getLsbD L && (decide (scrAddr o q.g L < 0) || decide ((tm.s : Int) < scrAddr o q.g L + sizeBytes o.size))
    ∃ L, L < q.g.width ∧ out L = true ∧ ∀ M, M < L → q.act.getLsbD M = true → out M = true :=
  ⟨{ fm v1 s2 v1 0#24 0#4 with pf := { pfx with ga := 17#5 } }, fm v1 s2 v1 0#24 0#4, _, _, team, performs (by decide +kernel), performs (by decide +kernel), by decide +kernel, by decide +kernel, 8, by decide +kernel⟩

/-- 16 lanes at the last 64 bytes of the scratchpad, each its own word; then the pair of a compare and swap. -/
theorem test_premises_ScratchpadAccesses_atomic : ∀ n : Nat, n < 9 → ∃ (o : FM) (q : Q), o.mod.toNat % 16 = n ∧ Performs (.satom o) (ss 0 team) q ∧
    (ss 0 team).team? q.g.team = some team ∧ team.failed = [] ∧ team.bad = [] ∧ Memory.wf team.scratch = true ∧
    ∀ L, q.act.getLsbD L = true → 0 ≤ scrAddr o q.g L ∧ scrAddr o q.g L + 4 ≤ team.s ∧ scrAddr o q.g L % 4 = 0 ∧
      ∀ c ∈ chunksOf (scrAddr o q.g L).toNat 4, c ∉ team.absent := by
  have h : ∀ n : Nat, n < 9 → ∃ h : okIssue (.satom (fm v1 (.s 3#7) (.imm 0#8) 0x1FC#24 2#4 (BitVec.ofNat 6 (16 + n)))) (ss 0 team) = true,
      let o := fm v1 (.s 3#7) (.imm 0#8) 0x1FC#24 2#4 (BitVec.ofNat 6 (16 + n))
      let q := qOf (.satom o) (ss 0 team) h
      o.mod.toNat % 16 = n ∧ (ss 0 team).team? q.g.team = some team ∧
      ∀ L, L < 64 → q.act.getLsbD L = true → 0 ≤ scrAddr o q.g L ∧ scrAddr o q.g L + 4 ≤ team.s ∧ scrAddr o q.g L % 4 = 0 := by dsimp only; decide +kernel
  intro n hn
  obtain ⟨h1, h2, h3, h4⟩ := h n hn
  exact ⟨_, _, h2, performs h1, h3, rfl, rfl, rfl,
    fun L hL => have h := lanes_of h4 L hL; ⟨h.1, h.2.1, h.2.2, fun _ _ => List.not_mem_nil⟩⟩
theorem test_premises_ScratchpadAccesses_cas : ∃ (o : FM) (q : Q), satomOp o = 9 ∧ Performs (.satom o) (ss 0 team) q ∧
    (ss 0 team).team? q.g.team = some team ∧ ∀ L, q.act.getLsbD L = true → 0 ≤ scrAddr o q.g L ∧ scrAddr o q.g L + (sizeBytes o.size / 2 : Nat) ≤ team.s ∧
      scrAddr o q.g L % (sizeBytes o.size / 2 : Nat) = 0 ∧ ∀ c ∈ chunksOf (scrAddr o q.g L).toNat (sizeBytes o.size / 2), c ∉ team.absent :=
  ⟨fm (.v 4#8) (.s 3#7) (.imm 0#8) 0#24 4#4 0b011001#6, _, by decide +kernel, performs (by decide +kernel), by decide +kernel, lanes_of (by decide +kernel)⟩

/-- A schedule of one entry: 512 bytes from 65,536 to chunk 0, stage 3. -/
def entryBytes : List Byte :=
  leBytes 8 65536 ++ leBytes 8 0 ++ leBytes 4 512 ++ leBytes 4 0 ++ leBytes 4 0 ++ leBytes 2 1 ++ leBytes 2 512 ++ [0#8, 3#8, 1#8, 0#8, 0#8, 1#8] ++
  List.replicate 26 0#8
def foot : Foot := { base := 65536, len := 65536, acc := 3 }
def task0 : Task :=
  { num := 0, kernel := 0#64, hdr := { width := 16, vcount := 24, scount := 16, team := 1, scratch := 8192, flags := 0 }, foots := [foot], args := []
    teams := 1, matrix := true, st := .ready }
def sheetT : Sheet := { sheet with scheds := [65536#64], tasks := [task0] }
def sch (t : Team) : State := { ss 0 t with sheets := [sheetT], mem := Mem.store [] 65536 entryBytes }
def schedOk (r : SchedRes) (P : List CopyEntry → Bool) : Bool :=
  match r with
  | .entries es => P es
  | _ => false
theorem schedOk_iff {r : SchedRes} {P : List CopyEntry → Bool} (h : schedOk r P = true) : ∃ es, r = .entries es ∧ P es = true := by
  cases r with
  | entries es => exact ⟨es, rfl, h⟩
  | cond c => simp [schedOk] at h
  | check => simp [schedOk] at h
  | bad => simp [schedOk] at h
theorem test_premises_ScheduleStartsAndStages_cstart : ∃ (o : FY) (q : Q), Performs (.cstart o) (sch team) q ∧ (sch team).team? q.g.team = some team ∧
    (sch team).sheet? q.g.sheet = some sheetT ∧ sheetT.scheds[o.code.toNat]? = some 65536#64 ∧ (∀ r ∈ team.rounds, r.stage = none) ∧ o.ya = .v 0#8 ∧
    ∃ es, readSched (sch team) q.g team.s 64 ((65536#64 : DWord).toNat : Int) = .entries es ∧ mcastOk (sch team) team es 0#64 = true :=
  ⟨fy z z z, _, performs (by decide +kernel), and5 (by decide +kernel) (schedOk_iff (by decide +kernel))⟩
def underWay (n : Nat) : Team :=
  { team with
    sched := some { idx := 0, key := 0#64, entries := [parseEntry entryBytes] }
    rounds := (List.range n).map fun i => { id := i, stage := some 3, r := i, jobs := [] } }
theorem test_premises_ScheduleStartsAndStages_refused : ∃ (o p : FY) (q r : Q), Performs (.cstart o) (sch (underWay 1)) q ∧ Performs (.cstart p) (sch team) r ∧
    (∃ x ∈ (underWay 1).rounds, x.stage ≠ none) ∧ (sch team).sheet? r.g.sheet = some sheetT ∧ sheetT.scheds[p.code.toNat]? = none :=
  ⟨fy z z z, fy z z z 1#16, _, _, performs (by decide +kernel), performs (by decide +kernel), by decide +kernel⟩
theorem test_premises_ScheduleStartsAndStages_stage : ∃ (o : FY) (q : Q) (sc : Sched), Performs (.stage o) (sch (underWay 3)) q ∧
    (sch (underWay 3)).team? q.g.team = some (underWay 3) ∧ (underWay 3).sched = some sc ∧
    let st := o.code.toNat
    let es := sc.entries.filter fun e => e.stage == st
    let jobs := es.map (·.job (sc.rel.getD st 0))
    es ≠ [] ∧ ((underWay 3).rounds.filter fun x => x.stage == some st).length < 4 ∧
    (∀ j ∈ jobs, ∀ w ∈ j.rows, w.1.toNat < 2 ^ 57 ∧ (sch (underWay 3)).inFoot q.g j.out w.1 w.2.2 = true) ∧ (underWay 3).failed = [] ∧
    (∀ c ∈ jobs.flatMap (·.chunks), c ∉ (underWay 3).absent) ∧ sharedChunk (jobs.map (·.chunks)) = false :=
  ⟨fy z z z 3#16, _, { idx := 0, key := 0#64, entries := [parseEntry entryBytes] }, performs (by decide +kernel), by decide +kernel⟩
theorem test_premises_ScheduleStartsAndStages_fourRounds : ∃ (o : FY) (q : Q) (sc : Sched), Performs (.stage o) (sch (underWay 4)) q ∧
    (sch (underWay 4)).team? q.g.team = some (underWay 4) ∧ (underWay 4).sched = some sc ∧ (sc.entries.filter fun e => e.stage == o.code.toNat) ≠ [] ∧
    4 ≤ ((underWay 4).rounds.filter fun x => x.stage == some o.code.toNat).length :=
  ⟨fy z z z 3#16, _, { idx := 0, key := 0#64, entries := [parseEntry entryBytes] }, performs (by decide +kernel), by decide +kernel⟩
/-- s3 holds 7,680, the offset of chunk 15, the last one; s4 holds 1, a mask. -/
theorem test_premises_ChunkWaitsAndCopies_present : ∃ (o p : FY) (q r : Q), Performs (.cwait o) (ss 0 team) q ∧ Performs (.ctest p) (ss 0 team) r ∧
    (ss 0 team).team? q.g.team = some team ∧ team.failed = [] ∧ (q.g.rdS o.yb).toNat % 512 = 0 ∧
    let m : Mask := if mbit o.mod 0 then o.code.setWidth 64 else q.g.rdS o.yc
    (∀ i, m.getLsbD i = true → (q.g.rdS o.yb).toNat + 512 * i < team.s) ∧
    (∀ i, m.getLsbD i = true → (q.g.rdS o.yb).toNat / 512 + i ∉ team.absent) :=
  ⟨fy z (.s 3#7) s4, fy s2 (.s 3#7) s4, _, _, performs (by decide +kernel), performs (by decide +kernel), and3 (by decide +kernel) ⟨lanes_of (by decide +kernel), lanes_of (by decide +kernel)⟩⟩
theorem test_premises_ChunkWaitsAndCopies_absent : ∃ (o : FY) (q : Q), Performs (.cwait o) (ss 0 absentT) q ∧ (ss 0 absentT).team? q.g.team = some absentT ∧
    let m : Mask := if mbit o.mod 0 then o.code.setWidth 64 else q.g.rdS o.yc
    absentT.failed = [] ∧ o.yb = .v 0#8 ∧ (∀ i, m.getLsbD i = true → 0 + 512 * i < absentT.s) ∧ ∃ i, m.getLsbD i = true ∧ 0 / 512 + i ∈ absentT.absent :=
  ⟨fy z z z 0xFFFF#16 1#6, _, performs (by decide +kernel), and3 (by decide +kernel) ⟨lanes_of (by decide +kernel),
   15, by decide +kernel⟩⟩
/-- CPY of 512 bytes from 65,536 to chunk 15. -/
theorem test_premises_ChunkWaitsAndCopies_cpy : ∃ (o : FM) (q : Q), Performs (.cpy o) (sch team) q ∧ (sch team).team? q.g.team = some team ∧
    let out := mbit o.mod 0
    let n := (q.g.rdS o.data).toNat
    let off := (q.g.rdS o.index).toNat
    let a : Int := (q.g.rdS o.base).toNat + off24 o.off
    team.failed = [] ∧ 0 < n ∧ n % 512 = 0 ∧ off % 512 = 0 ∧ off + n ≤ team.s ∧ a % 16 = 0 ∧
    (sch team).rangeCond q.g a n 1 (if out then .wr else .rd) = none ∧ (sch team).inFoot q.g out (addrOf a) n = true ∧
    ∀ c ∈ chunksOf off n, c ∉ team.absent :=
  ⟨fm s6 (.s 5#7) (.s 3#7) 0#24 0#4, _, performs (by decide +kernel), by decide +kernel⟩

/-! ### The matrix engine -/

def openB : Batch := {}
/-- 64 lanes, an open batch, every accumulator with tag `k`; s2 holds `x`, s3 an offset. -/
def mm (k : Option Nat) (x : Nat) (bs : List Batch) (t : Team) : State :=
  let g : Group := { grp [0, 0, x, 0] with
    width := 64, vregs := List.replicate 24 (List.replicate 64 0#32), batches := bs, lanes := List.replicate 64 { pc := 65536#64, wp := 65536#64 } }
  { machine g t with
    cores := [(0, { tlb := [page], mowner := some 1, mstate := { tags := List.replicate 16 k } })]
    cur := some { core := 0, gid := 1, mask := 0xFFFFFFFFFFFFFFFF#64, pc := 65536#64 } }
theorem engine_idle {s : State} {q : Q} {b : Batch} {tm : Team}
    (h : (q.g.matrix = true ∧ q.g.batches = [b] ∧ b.closed = false ∧ b.count < 64 ∧ b.todo = [] ∧ q.g.core = q.core) ∧ s.team? q.g.team = some tm ∧
      (tm.failed = [] ∧ tm.absent = []) ∧ tm.bad = [] ∧ (s.bad = [] ∧ (s.core q.core).badL1 = []) ∧ (seenM s q b).badT = [] ∧
      (seenM s q b).badA = [] ∧ (s.core q.core).residueRuns = 0) : EngineIdle s q b tm := by
  obtain ⟨⟨mtx, batches, open_, room, done, core⟩, team, chunks, good⟩ := h
  exact { mtx, batches, open_, room, done, core, team, chunks, good }
def lastB : Batch := { count := 63 }
theorem test_premises_TileInstructions_tzero : ∃ (o : FX) (q : Q), Performs (.tzero o) (mm none 0 [lastB] team) q ∧ EngineIdle (mm none 0 [lastB] team) q lastB team :=
  ⟨fx 0#4 15#4 0#4 z z 0#8 0#10, _, performs (by decide +kernel), engine_idle (by decide +kernel)⟩
theorem test_premises_TileInstructions_tld : ∃ (o : FM) (q : Q), Performs (.tld o) (mm none 65536 [openB] team) q ∧ EngineIdle (mm none 65536 [openB] team) q openB team ∧
    (q.g.rdS o.base).toNat % 16 = 0 ∧ Memory.wf (mm none 65536 [openB] team).mem = true ∧ (∀ e ∈ tileRanges o (q.g.rdS o.base), (mm none 65536 [openB] team).rangeCond q.g e.1 e.2 1 .rd = none) ∧
    (mbit o.mod 4 = true → (q.g.rdS o.index).toNat % 2 ^ 20 % 4 = 0 ∧ (q.g.rdS o.index).toNat % 2 ^ 20 + 4 * (viewOf (mView o)).elems ≤ team.s) ∧
    RequestsFree (mm none 65536 [openB] team) q .load
      (linePieces ((tileRanges o (q.g.rdS o.base)).flatMap fun e => (mm none 65536 [openB] team).segs q.g e.1.toNat e.2 .rd)) :=
  ⟨fm z s2 (.s 3#7) 192#24 0#4 0b010011#6, _, performs (by decide +kernel), engine_idle (by decide +kernel), by decide +kernel, rfl, by decide +kernel,
   by decide +kernel, Laws.requestsFree_of (by decide +kernel)⟩
theorem test_premises_TileInstructions_tst : ∃ (o : FM) (q : Q), Performs (.tst o) (mm none 65536 [openB] team) q ∧ EngineIdle (mm none 65536 [openB] team) q openB team ∧
    (q.g.rdS o.base).toNat % 16 = 0 ∧ (∀ e ∈ tileRanges o (q.g.rdS o.base), (mm none 65536 [openB] team).rangeCond q.g e.1 e.2 1 .wr = none) ∧
    RequestsFree (mm none 65536 [openB] team) q .store
      (linePieces ((tileRanges o (q.g.rdS o.base)).flatMap fun e => (mm none 65536 [openB] team).segs q.g e.1.toNat e.2 .wr)) :=
  ⟨fm z s2 z 192#24 0#4 2#6, _, performs (by decide +kernel), engine_idle (by decide +kernel), by decide +kernel, by decide +kernel,
   Laws.requestsFree_of (by decide +kernel)⟩
theorem test_premises_TileInstructions_cbload : ∃ (o : FM) (q : Q), Performs (.cbload o) (mm none 65536 [openB] team) q ∧
    EngineIdle (mm none 65536 [openB] team) q openB team ∧
    let a : Int := wrap64 ((q.g.rdS o.base).toNat + off24 o.off)
    (a % 64 = 0 ∧ Memory.wf (mm none 65536 [openB] team).mem = true ∧ (mm none 65536 [openB] team).rangeCond q.g a 1024 1 .rd = none) ∧
    RequestsFree (mm none 65536 [openB] team) q .load (linePieces ((mm none 65536 [openB] team).segs q.g a.toNat 1024 .rd)) :=
  ⟨fm z s2 z 0xFC00#24 0#4, _, performs (by decide +kernel), engine_idle (by decide +kernel), by decide +kernel, Laws.requestsFree_of (by decide +kernel)⟩
theorem test_premises_TileInstructions_rows : ∃ (o : FM) (op : MOp) (mem : Mem) (pa : Nat → Nat), mbit o.mod 3 = false ∧ mbit o.mod 4 = false ∧
    tileField o.data < 16 ∧ Memory.wf mem = true ∧ Memory.wf ({} : MState).tiles = true ∧ op.rows = (List.range (viewOf (mView o)).rows).map fun r => [(pa r, (viewOf (mView o)).rb)] :=
  ⟨fm (.v 15#8) s2 z 0#24 0#4 4#6, { i := .tld (fm z s2 z 0#24 0#4), rows := (List.range 32).map fun r => [(65536 + 384 * r, 384)] }, [],
   fun r => 65536 + 384 * r, by decide +kernel⟩
theorem test_premises_AccumulatorsAndQuantisation : ∀ i ∈ ([.czero (fx 15#4 0#4 0#4 z z 0#8 3#10), .cwr (fx 1#4 0#4 0#4 (.v 4#8) z 62#8 129#10),
    .crd (fx 1#4 0#4 0#4 (.v 4#8) z 0#8 129#10)] : List Instr), ∃ q, Performs i (mm (some 2) 0 [openB] team) q :=
  performs_all (by decide +kernel)
theorem test_premises_AccumulatorsAndQuantisation_tags : ∃ (o : FX) (q r : Q), Performs (.crd o) (mm (some 2) 0 [openB] team) q ∧
    EngineIdle (mm (some 2) 0 [openB] team) q openB team ∧ (seenM (mm (some 2) 0 [openB] team) q openB).tags.getD o.cd.toNat none = some (crTag o) ∧
    Performs (.crd o) (mm none 0 [openB] team) r ∧ EngineIdle (mm none 0 [openB] team) r openB team ∧
    (seenM (mm none 0 [openB] team) r openB).tags.getD o.cd.toNat none ≠ some (crTag o) :=
  ⟨fx 1#4 0#4 0#4 (.v 4#8) z 0#8 129#10, _, _, performs (by decide +kernel), engine_idle (by decide +kernel), by decide +kernel, performs (by decide +kernel),
   engine_idle (by decide +kernel), by decide +kernel⟩
/-- A descriptor whose 64 rows end with the scratchpad, and one whose rows pass its end. -/
theorem test_premises_AccumulatorsAndQuantisation_descriptors : ∃ (o p : FX) (q r : Q),
    let s := mm none (8000 + 0 * 2 ^ 20) [openB] team
    Performs (.qnt o) s q ∧ Performs (.dqnt p) s r ∧ EngineIdle s q openB team ∧ EngineIdle s r openB team ∧ qRm o = 4 ∧
    (qDesc (q.g.rdS o.sa)).ok team.s = true ∧ (qDesc (r.g.rdS p.sa)).ok team.s = true :=
  ⟨fx 0#4 1#4 0#4 s2 (.v 4#8) 3#8 (5 + 64#10), fx 0#4 1#4 0#4 s2 (.v 4#8) 3#8 5#10, _, _, performs (by decide +kernel), performs (by decide +kernel),
   engine_idle (by decide +kernel), engine_idle (by decide +kernel), by decide +kernel⟩
theorem test_premises_AccumulatorsAndQuantisation_badDescriptor : ∃ (o p : FX) (q r : Q),
    let s := mm none 8004 [openB] team
    Performs (.qnt o) s q ∧ Performs (.dqnt p) s r ∧ EngineIdle s q openB team ∧ EngineIdle s r openB team ∧
    (qDesc (q.g.rdS o.sa)).ok team.s = false ∧ (qDesc (r.g.rdS p.sa)).ok team.s = false :=
  ⟨fx 0#4 1#4 0#4 s2 (.v 4#8) 3#8 5#10, fx 0#4 1#4 0#4 s2 (.v 4#8) 3#8 5#10, _, _, performs (by decide +kernel), performs (by decide +kernel),
   engine_idle (by decide +kernel), engine_idle (by decide +kernel), by decide +kernel⟩
theorem test_premises_MatrixMultiplications : ∀ i ∈ ([.mma (fx 1#4 2#4 3#4 z z 0#8 165#10), .mmake4m3 (fx 1#4 2#4 3#4 (.v 4#8) (.v 8#8) 1#8 0#10),
    .mmake5m2 (fx 1#4 2#4 3#4 (.v 4#8) (.v 8#8) 0#8 0#10), .mmake3m2 (fx 1#4 2#4 3#4 (.v 4#8) (.v 8#8) 0#8 0#10),
    .mmake2m3 (fx 1#4 2#4 3#4 (.v 4#8) (.v 8#8) 0#8 0#10), .mmake2m1 (fx 1#4 2#4 3#4 (.v 4#8) (.v 8#8) 0#8 0#10),
    .mmacb (fx 1#4 2#4 3#4 (.v 4#8) (.v 8#8) 0#8 9#10)] : List Instr), ∃ q, Performs i (mm (some 2) 0 [openB] team) q :=
  performs_all (by decide +kernel)
theorem test_premises_MatrixMultiplications_class : ∃ (o : FX) (q : Q) (c : MClass), Performs (.mma o) (mm (some 3) 0 [openB] team) q ∧
    EngineIdle (mm (some 3) 0 [openB] team) q openB team ∧ mClass (xfLo o 5) (o.xf.toNat / 32) = some c ∧
    (seenM (mm (some 3) 0 [openB] team) q openB).tags.getD o.cd.toNat none = some c.tag :=
  ⟨fx 1#4 2#4 3#4 z z 0#8 330#10, _, .i8, performs (by decide +kernel), engine_idle (by decide +kernel), by decide +kernel⟩
theorem test_premises_MatrixMultiplications_tag : (∀ i ∈ ([.mma (fx 1#4 2#4 3#4 z z 0#8 330#10), .mmake4m3 (fx 1#4 2#4 3#4 (.v 4#8) (.v 8#8) 1#8 0#10),
    .mmacb (fx 1#4 2#4 3#4 (.v 4#8) (.v 8#8) 0#8 9#10)] : List Instr), ∃ q, Performs i (mm none 0 [openB] team) q) ∧
    ∃ (o : FX) (q : Q), Performs (.mma o) (mm none 0 [openB] team) q ∧ EngineIdle (mm none 0 [openB] team) q openB team ∧
    (seenM (mm none 0 [openB] team) q openB).tags.getD o.cd.toNat none = none :=
  ⟨performs_all (by decide +kernel), fx 1#4 2#4 3#4 z z 0#8 330#10, _, performs (by decide +kernel), engine_idle (by decide +kernel), by decide +kernel⟩
theorem test_premises_MatrixMultiplications_integer : ∃ (o : FX) (M : MState), (xfLo o 5 = 10 ∨ xfLo o 5 = 11) ∧ (o.xf.toNat / 32 = 10 ∨ o.xf.toNat / 32 = 11) ∧
    Memory.wf M.tiles = true ∧ Memory.wf M.accs = true :=
  ⟨fx 1#4 2#4 3#4 z z 0#8 362#10, {}, by decide +kernel⟩
def closedB : Batch := { closed := true }
theorem test_premises_BatchControl_mopen : ∃ (o : FY) (q : Q), let s := mm none 0 [closedB, closedB, closedB] team
    Performs (.mopen o) s q ∧ q.g.matrix = true ∧ (∀ b ∈ q.g.batches, b.closed = true) ∧ q.g.batches.length < 4 ∧
    (∀ g ∈ s.groups, g.core = q.core → g.team = q.g.team → g.batches ≠ [] → g.id = q.g.id) ∧
    ((s.core q.core).mopenQ = [] ∨ (s.core q.core).mopenQ.head? = some q.g.id ∨ q.g.batches ≠ []) :=
  ⟨fy z z z, _, performs (by decide +kernel), by decide +kernel⟩
/-- Another group of the team holds a batch. -/
def held : State :=
  let s := mm none 0 [] team
  { s with groups := s.groups ++ [{ grp [] with id := 2, batches := [openB] }] }
theorem test_premises_BatchControl_waits : ∃ (o : FY) (q : Q) (g : Group), Performs (.mopen o) held q ∧ q.g.matrix = true ∧
    (∀ b ∈ q.g.batches, b.closed = true) ∧ q.g.batches.length < 4 ∧
    held.groups.find? (fun g => g.core == q.core && g.team == q.g.team && !g.batches.isEmpty) = some g ∧ g.id ≠ q.g.id :=
  ⟨fy z z z, _, { grp [] with id := 2, batches := [openB] }, performs (by decide +kernel), by decide +kernel⟩
theorem test_premises_BatchControl_rest : ∃ (o p r : FY) (q₁ q₂ q₃ : Q), Performs (.mclose o) (mm none 0 [openB] team) q₁ ∧ q₁.g.matrix = true ∧
    (∃ b ∈ q₁.g.batches, b.closed = false) ∧ Performs (.mwait p) (mm none 0 [closedB, closedB, closedB] team) q₂ ∧
    (q₂.g.batches.filter (·.closed)).length ≤ p.code.toNat ∧ mbit p.mod 0 = false ∧ Performs (.mwait r) (mm none 0 [] team) q₃ ∧ mbit r.mod 0 = true ∧
    (q₃.g.batches.filter (·.closed)).length ≤ r.code.toNat :=
  ⟨fy z z z, fy z z z 3#16, fy z z z 0#16 1#6, _, _, _, performs (by decide +kernel), by decide +kernel, by decide +kernel, performs (by decide +kernel), by decide +kernel, by decide +kernel, performs (by decide +kernel), by decide +kernel⟩
def waitAll : FY := fy z z z
theorem test_premises_BatchControl_retires : ∃ (q : Q) (b : Batch), let s := mm none 0 [b] team
    Performs (.mwait waitAll) s q ∧ q.g.batches = [b] ∧ b.closed = true ∧ q.g.st = .resident ∧ s.team? q.g.team = some team ∧ s.bad = [] ∧ (s.core q.g.core).badL1 = [] ∧ q.g.badV = [] ∧ team.bad = [] ∧
    b.todo = [] ∧ b.fail = none ∧ team.failed = [] ∧ team.absent = [] ∧ b.pend.vregs ≠ [] ∧ ∀ e ∈ b.pend.vregs, e.1 < q.g.vcount :=
  ⟨_, { closed := true, pend := { vregs := [(23, [some (1#32, 1#32)])], fl := 1#6 } }, performs (by decide +kernel), by decide +kernel⟩
theorem test_premises_BatchControl_fails : ∃ (q : Q) (b : Batch), let s := mm none 0 [b] team
    Performs (.mwait waitAll) s q ∧ q.g.batches = [b] ∧ b.closed = true ∧ q.g.st = .resident ∧ s.team? q.g.team = some team ∧ s.bad = [] ∧ (s.core q.g.core).badL1 = [] ∧ q.g.badV = [] ∧ team.bad = [] ∧ b.fail = some (.check, 0#64) :=
  ⟨_, { closed := true, fail := some (.check, 0#64) }, performs (by decide +kernel), by decide +kernel⟩
theorem test_premises_BatchControl_working : ∃ (q : Q) (b : Batch), let s := mm none 0 [b] team
    Performs (.mwait waitAll) s q ∧ q.g.batches = [b] ∧ b.closed = true ∧ q.g.st = .resident ∧ s.team? q.g.team = some team ∧ s.bad = [] ∧ (s.core q.g.core).badL1 = [] ∧ q.g.badV = [] ∧ team.bad = [] ∧ team.failed = [] ∧ b.todo ≠ [] ∧ b.fail = none :=
  ⟨_, { closed := true, todo := [{ i := .tzero (fx 0#4 0#4 0#4 z z 0#8 0#10) }] }, performs (by decide +kernel), by decide +kernel⟩

/-! ### Tasks, sheets, calls, traps, seals -/

/-- Page tables of address space 0: the first 256 MiB, readable and writable, where they are. -/
def tables (m : Mem) : Mem :=
  Mem.store (Mem.store (Mem.store m 0x20000 (leBytes 8 0x30001)) 0x30000 (leBytes 8 0x31001)) 0x31000 (leBytes 8 15)
def footBytes : List Byte := leBytes 8 65536 ++ leBytes 6 65536 ++ [3#8, 0#8]
/-- A task record: the kernel at 65,728, one declared range, one team, NOTIFY at port 63. -/
def taskRec : List Byte :=
  leBytes 8 65728 ++ leBytes 8 66560 ++ List.replicate 32 0#8 ++ [1#8, 0#8, 1#8, 4#8, 63#8] ++ List.replicate 11 0#8
def sheetRec (seq : Nat) : List Byte :=
  leBytes 8 65728 ++ leBytes 8 66560 ++ List.replicate 48 0#8 ++ [0#8, 0#8, 1#8, 0#8, 1#8] ++ List.replicate 19 0#8 ++ leBytes 4 seq ++ List.replicate 36 0#8
/-- s2 holds 66,048, where `r` stands, s3 and s4 hold 1. -/
def st (r : List Byte) (h : Sheet) : State :=
  { machine (grp [0, 0, 66048, 1, 1, 5]) team with
    sheets := [h], roots := [(0, 0x20000)], mem := tables (Mem.store (Mem.store code 66048 r) 66560 footBytes) }
def isCode (c : Nat) (r : Except Nat Accepted) : Bool :=
  match r with
  | .error d => d == c
  | .ok _ => false
theorem isCode_iff {c : Nat} {r : Except Nat Accepted} (h : isCode c r = true) : r = .error c := by
  cases r with
  | error d => simp only [isCode, beq_iff_eq] at h; rw [h]
  | ok a => simp [isCode] at h
theorem isOk_iff {r : Except Nat Accepted} (h : r.isOk = true) : ∃ a, r = .ok a := by
  cases r with
  | error d => simp [Except.isOk, Except.toBool] at h
  | ok a => exact ⟨a, rfl⟩
/-- The premises that TASK's three answers share. -/
def taskPremises (o : FY) (s : State) (q : Q) (h : Sheet) : Prop :=
  Performs (.task o) s q ∧ s.sheet? q.g.sheet = some h ∧ (q.g.rdS o.ya).toNat % 64 = 0 ∧ s.rangeCond q.g (q.g.rdS o.ya).toNat 64 64 .rd = none ∧ NoBadWord s q ∧
  RequestsFree s q .load (linePieces (s.segs q.g (q.g.rdS o.ya).toNat 64 .rd))
def theRecord (o : FY) (s : State) (q : Q) (n : Nat) : List Byte := s.mem.segLoad (s.segs q.g (q.g.rdS o.ya).toNat n .rd)
def taskI : FY := fy s2 s6 z
theorem taskPremises_of {o : FY} {s : State} {q : Q} {h : Sheet} (p : Performs (.task o) s q)
    (c : (s.sheet? q.g.sheet = some h ∧ (q.g.rdS o.ya).toNat % 64 = 0 ∧ s.rangeCond q.g (q.g.rdS o.ya).toNat 64 64 .rd = none) ∧
      (s.bad = [] ∧ (s.core q.core).badL1 = []) ∧
      let as := linePieces (s.segs q.g (q.g.rdS o.ya).toNat 64 .rd)
      s.withheld q [0, 1] q.workClass = none ∧ as.isEmpty = false ∧ (s.core q.core).reqQ = [] ∧ (s.core q.core).reqs = [] ∧
      (s.core q.core).l1 = [] ∧ as.length ≤ 512) : taskPremises o s q h := by
  obtain ⟨⟨x, y, w⟩, b, f⟩ := c
  exact ⟨p, x, y, w, b, Laws.requestsFree_of f⟩
theorem test_premises_TasksSheetsAndNotes_task : ∃ q acc, taskPremises taskI (st taskRec sheet) q sheet ∧
    (q.deviceRelease (st taskRec sheet)).checkSub q.g.asn (taskRecord (theRecord taskI (st taskRec sheet) q 64)) false = .ok acc := by
  have p := performs (i := .task taskI) (s := st taskRec sheet) (by decide +kernel)
  obtain ⟨a, h⟩ := isOk_iff (r := ((qOf (.task taskI) (st taskRec sheet) (by decide +kernel)).deviceRelease (st taskRec sheet)).checkSub (qOf (.task taskI) (st taskRec sheet) (by decide +kernel)).g.asn
    (taskRecord (theRecord taskI (st taskRec sheet) (qOf (.task taskI) (st taskRec sheet) (by decide +kernel)) 64)) false) (by decide +kernel)
  exact ⟨_, a, taskPremises_of p (by decide +kernel), h⟩
theorem test_premises_TasksSheetsAndNotes_badTask : ∃ q, taskPremises taskI (st [1#8] sheet) q sheet ∧
    (q.deviceRelease (st [1#8] sheet)).checkSub q.g.asn (taskRecord (theRecord taskI (st [1#8] sheet) q 64)) false = .error 4 :=
  ⟨_, taskPremises_of (performs (by decide +kernel)) (by decide +kernel), isCode_iff (by decide +kernel)⟩
/-- Another sheet's tasks have the 16,384 ranges of the dependency table. -/
def crowded : State :=
  let s := st taskRec sheet
  { s with sheets := s.sheets ++ [{ sheet with id := 2, tasks := List.replicate 128 { task0 with foots := List.replicate 128 foot } }] }
theorem test_premises_TasksSheetsAndNotes_waits : ∃ q, taskPremises taskI crowded q sheet ∧
    (q.deviceRelease crowded).checkSub q.g.asn (taskRecord (theRecord taskI crowded q 64)) false = .error 8 :=
  ⟨_, taskPremises_of (performs (by decide +kernel)) (by decide +kernel), isCode_iff (by decide +kernel)⟩
def sheetI : FY := fy s2 (.s 3#7) s6
def sheetPremises (s : State) (q : Q) (qu : Queue) : Prop :=
  Performs (.sheet sheetI) s q ∧ (q.g.rdS sheetI.ya).toNat % 128 = 0 ∧ s.rangeCond q.g (q.g.rdS sheetI.ya).toNat 128 128 .rd = none ∧ NoBadWord s q ∧
  s.queue? (q.g.rdS sheetI.yb).toNat = some qu ∧ s.procOf q.g.sheet = some qu.proc ∧
  RequestsFree s q .load (linePieces (s.segs q.g (q.g.rdS sheetI.ya).toNat 128 .rd))
theorem test_premises_TasksSheetsAndNotes_sheet : ∃ q acc, sheetPremises (st (sheetRec 1) sheet) q queue ∧
    let r := theRecord sheetI (st (sheetRec 1) sheet) q 128
    fieldAt r 88 4 = (queue.lastSeq + 1) % 2 ^ 32 ∧
    let s1 := q.deviceRelease (st (sheetRec 1) sheet)
    s1.checkSub queue.asn (sheetRecord r queue.asn) (s1.queueFull 1 || s1.closing) = .ok acc := by
  have p := performs (i := .sheet sheetI) (s := st (sheetRec 1) sheet) (by decide +kernel)
  obtain ⟨a, h⟩ := isOk_iff (r := ((qOf (.sheet sheetI) (st (sheetRec 1) sheet) (by decide +kernel)).deviceRelease (st (sheetRec 1) sheet)).checkSub queue.asn (sheetRecord (theRecord sheetI (st (sheetRec 1) sheet)
    (qOf (.sheet sheetI) (st (sheetRec 1) sheet) (by decide +kernel)) 128) queue.asn) (((qOf (.sheet sheetI) (st (sheetRec 1) sheet) (by decide +kernel)).deviceRelease (st (sheetRec 1) sheet)).queueFull 1 || ((qOf (.sheet sheetI) (st (sheetRec 1) sheet) (by decide +kernel)).deviceRelease (st (sheetRec 1) sheet)).closing)) (by decide +kernel)
  exact ⟨_, a, ⟨p, by decide +kernel, by decide +kernel, ⟨rfl, by decide +kernel⟩, by decide +kernel, by decide +kernel,
    Laws.requestsFree_of (by decide +kernel)⟩, by decide +kernel, h⟩
theorem test_premises_TasksSheetsAndNotes_outOfTurn : ∃ q, sheetPremises (st (sheetRec 2) sheet) q queue ∧
    fieldAt (theRecord sheetI (st (sheetRec 2) sheet) q 128) 88 4 ≠ (queue.lastSeq + 1) % 2 ^ 32 :=
  ⟨_, ⟨performs (by decide +kernel), by decide +kernel, by decide +kernel, ⟨rfl, by decide +kernel⟩, by decide +kernel, by decide +kernel,
    Laws.requestsFree_of (by decide +kernel)⟩, by decide +kernel⟩
def immio : Sheet := { sheet with immio := true }
theorem test_premises_TasksSheetsAndNotes_qnote : ∃ (o : FY) (q r : Q), Performs (.qnote o) (st [] sheet) q ∧ Performs (.qnote o) (st [] immio) r ∧
    (st [] sheet).queue? (q.g.rdS o.ya).toNat = some queue ∧ (st [] sheet).procOf q.g.sheet = some queue.proc ∧ (st [] sheet).sheet? q.g.sheet = some sheet ∧
    sheet.immio = false ∧ (st [] immio).queue? (r.g.rdS o.ya).toNat = some queue ∧ (st [] immio).sheet? r.g.sheet = some immio ∧ immio.immio = true :=
  ⟨fy (.s 3#7) (.imm 1#8) z, _, _, performs (by decide +kernel), performs (by decide +kernel), by decide +kernel⟩

def call (slot : Nat) : CallRec := { slot, form := 1, active := 1#64, pc := 65536#64, callno := 1 }
/-- Slots `ns` are in use; the CALLQ of the cluster holds `k` descriptors; port 63 is open. -/
def sv (ns : List Nat) (k : Nat) : State :=
  { machine { grp [] with calls := ns.map call } { team with ports := [{ num := 63, depth := 16, fault := false, xteam := false, core := 0 }] } with
    survs := [(0, { Surveyor.init 0 with callq := List.replicate k { slot := 0, type := 1 } })] }
theorem test_premises_ServiceCalls : ∃ (o p : FY) (q r : Q), Performs (.sys o) (sv [1, 2, 3] 127) q ∧ Performs (.sysw p) (sv [] 128) r ∧ q.g.batches = [] ∧
    r.g.batches = [] ∧ (¬ ∃ c ∈ q.g.calls, c.slot = 0) ∧ ¬ ∃ c ∈ r.g.calls, c.slot = 0 :=
  ⟨fy (.v 8#8) (.v 4#8) z 0x22#16 4#6, fy s2 s6 z 1#16 4#6, _, _, performs (by decide +kernel), performs (by decide +kernel), by decide +kernel⟩
theorem test_premises_ServiceCalls_busy : ∃ (o p : FY) (q r : Q), Performs (.sys o) (sv [0] 0) q ∧ Performs (.sysw p) (sv [0] 0) r ∧ q.g.batches = [] ∧
    r.g.batches = [] ∧ ∃ c ∈ q.g.calls, c.slot = 0 :=
  ⟨fy z (.v 4#8) z 1#16, fy z s6 z 1#16, _, _, performs (by decide +kernel), performs (by decide +kernel), by decide +kernel⟩
theorem test_premises_ServiceCalls_sysa : ∃ (o p : FY) (q r t : Q) (tm : Team), Performs (.sysa o) (sv [1, 2] 0) q ∧ Performs (.sysa o) (sv [1, 2, 3] 0) r ∧
    Performs (.sysa p) (sv [] 0) t ∧ q.g.batches = [] ∧ (q.g.rdS o.yc).toNat < 64 ∧ (sv [1, 2] 0).team? q.g.team = some tm ∧
    (tm.port? (q.g.rdS o.yc).toNat).isSome = true ∧ (¬ ∃ c ∈ q.g.calls, c.slot = 3) ∧ (∀ k ∈ [1, 2], ∃ c ∈ q.g.calls, c.slot = k) ∧
    (∀ k ∈ [1, 2, 3], ∃ c ∈ r.g.calls, c.slot = k) ∧ (t.g.rdS p.yc).toNat = 64 :=
  ⟨fy s2 z (.imm 63#8) 1#16 4#6, fy s2 z (.imm 64#8) 1#16 1#6, _, _, _, { team with ports := [{ num := 63, depth := 16, fault := false, xteam := false, core := 0 }] },
   performs (by decide +kernel), performs (by decide +kernel), performs (by decide +kernel), by decide +kernel⟩
/-- Lane 15 has the flag of bit 5. -/
def flagged : State :=
  let l : Lane := { pc := 65536#64, wp := 65536#64 }
  machine { grp [] with lanes := List.replicate 15 l ++ [{ l with fflags := 0b100000#6 }] } team
theorem test_premises_TrapsChecksAndCounters : ∀ i ∈ ([.trap (fy z z z 0x12#16), .trap (fy s2 z z), .bkpt (fy z z z 0xFFFF#16), .wearrd (f5 s2 z z z z),
    .wearrd (f5 s2 z z z z 1#6)] : List Instr), ∃ q, Performs i s0 q :=
  performs_all (by decide +kernel)
theorem test_premises_TrapsChecksAndCounters_fchk : ∃ (o p : FY) (q r : Q), Performs (.fchk o) flagged q ∧ Performs (.fchk p) flagged r ∧
    (∀ L, L < q.g.width → q.act.getLsbD L = true → (q.g.lane L).fflags &&& (o.code.setWidth 6 : Flags) = 0#6) ∧
    ∃ L, L < r.g.width ∧ r.act.getLsbD L = true ∧ (r.g.lane L).fflags &&& (p.code.setWidth 6 : Flags) ≠ 0#6 :=
  ⟨fy z z z 0b011111#16, fy z z z 0b100000#16, _, _, performs (by decide +kernel), performs (by decide +kernel), by decide +kernel, 15, by decide +kernel⟩
theorem test_premises_TrapsChecksAndCounters_budrd : ∃ (o p : F5) (q r : Q) (b : Budget), Performs (.budrd o) s0 q ∧ Performs (.budrd p) (machine (grp [0, 0, 7]) team) r ∧
    (s0.cluster (clusterOf q.core)).budgets[(q.g.rdS o.a).toNat]? = some b ∧ b.used.getD o.mod.toNat 0 < 2 ^ 32 ∧ b.exh.getD o.mod.toNat 0 < 2 ^ 16 ∧
    b.share o.mod.toNat < 256 ∧ (s0.cluster (clusterOf r.core)).budgets.length ≤ (r.g.rdS p.a).toNat :=
  ⟨f5 s4 (.imm 6#8) z z z 2#6, f5 s4 s2 z z z, _, _, { noc := 8, hbm := 8, pwr := 8, spill := true }, performs (by decide +kernel), performs (by decide +kernel), by decide +kernel⟩
/-- A frame 15 that holds n regions; the task may use 65,536 to 131,071. s2, s3: an address and a length. -/
def sl (a len n : Nat) (shut : Bool) : State :=
  let f : SealFrame := { num := 15, closed := shut, regions := List.replicate n (65536#64, 1#64) }
  { machine (grp [0, 0, a, len]) team with sheets := [{ sheetT with sealJob := some (0#64, 0), seals := [f] }] }
def sealPremises (s : State) (q : Q) (a len n : Nat) (shut : Bool) : Prop :=
  ((s.sheet? q.g.sheet).any fun h => h.sealJob.isSome && (h.seals.find? fun x => x.num == 15).any fun f => f.regions.length == n && f.closed == shut) = true ∧
    (q.g.rdS s2).toNat = a ∧ (q.g.rdS (.s 3#7)).toNat = len ∧ s.taskFoots q.g = [foot]
def sealI : FY := fy s2 (.s 3#7) z 15#16
theorem test_premises_SealFrames : ∃ q, Performs (.seal sealI) (sl 131071 1 63 false) q ∧ sealPremises (sl 131071 1 63 false) q 131071 1 63 false :=
  ⟨_, performs (by decide +kernel), by unfold sealPremises; decide +kernel⟩
theorem test_premises_SealFrames_lengths : (∃ q, Performs (.seal sealI) (sl 65536 0 0 false) q) ∧ ∃ q, Performs (.seal sealI) (sl 65536 (2 ^ 40) 0 false) q :=
  ⟨⟨_, performs (by decide +kernel)⟩, _, performs (by decide +kernel)⟩
theorem test_premises_SealFrames_outside : ∃ q, Performs (.seal sealI) (sl 131071 2 63 false) q ∧
    ¬ ∃ r ∈ (sl 131071 2 63 false).taskFoots q.g, r.base ≤ (q.g.rdS sealI.ya).toNat ∧ (q.g.rdS sealI.ya).toNat + (q.g.rdS sealI.yb).toNat ≤ r.base + r.len :=
  ⟨_, performs (by decide +kernel), by decide +kernel⟩
theorem test_premises_SealFrames_full : (∃ q, Performs (.seal sealI) (sl 65536 1 64 false) q ∧ sealPremises (sl 65536 1 64 false) q 65536 1 64 false) ∧
    ∃ q, Performs (.seal sealI) (sl 65536 1 1 true) q ∧ sealPremises (sl 65536 1 1 true) q 65536 1 1 true :=
  ⟨⟨_, performs (by decide +kernel), by unfold sealPremises; decide +kernel⟩, _, performs (by decide +kernel), by unfold sealPremises; decide +kernel⟩
theorem test_premises_SealFrames_sealx : ∃ (q r t : Q), Performs (.sealx (fy z z z 15#16)) (sl 0 0 1 false) q ∧ Performs (.sealx (fy z z z 15#16)) (sl 0 0 0 false) r ∧
    Performs (.sealx (fy z z z 15#16)) (sl 0 0 1 true) t ∧ sealPremises (sl 0 0 1 false) q 0 0 1 false ∧ sealPremises (sl 0 0 0 false) r 0 0 0 false ∧
    sealPremises (sl 0 0 1 true) t 0 0 1 true :=
  ⟨_, _, _, performs (by decide +kernel), performs (by decide +kernel), performs (by decide +kernel),
   by unfold sealPremises; decide +kernel⟩

/-! ### Ports -/

def msg1 : Msg := { data := 7#64, kind := 1 }
/-- Port 63 with n messages. -/
def port (depth n : Nat) (fault : Bool) : Port := { num := 63, depth, fault, xteam := true, core := 0, q := List.replicate n msg1 }
def pt (t : Team) : State := machine (grp [0, 0, 63 * 2 ^ 32, 63]) t
def sendI : F5 := f5 z (.imm 63#8) v2 v1 z
def sendxI : F5 := f5 z s2 v2 v1 z
/-- The premises that every case of SEND and SENDX to port 63 of the team shares. -/
def sendPremises (t : Team) (q r : Q) : Prop :=
  Performs (.send sendI) (pt t) q ∧ Performs (.sendx sendxI) (pt t) r ∧ (pt t).team? t.id = some t ∧
  (∀ u ∈ (pt t).teams, ∀ p ∈ u.ports, ∀ b ∈ p.blocked, b.gid ≠ q.g.id) ∧ t.id = q.g.team ∧ (q.g.rdS sendI.a).toNat = 63 ∧
  (pt t).teams.find? (fun u => u.sheet == r.g.sheet && u.teamid == t.teamid && !u.exited) = some t ∧ t.teamid < 2 ^ 32 ∧
  JoinsIdle (pt t) t.cores ∧ ∀ L, r.act.getLsbD L = true → r.g.rd sendxI.a 2 L = BitVec.ofNat 64 (t.teamid + 2 ^ 32 * 63)
def withPort (p : Port) : Team := { team with ports := [p] }
theorem test_premises_Sends_fits : ∃ q r, sendPremises (withPort (port 16 0 true)) q r ∧ (withPort (port 16 0 true)).port? 63 = some (port 16 0 true) ∧
    (port 16 0 true).q.length + (lanesOf q.g.width q.act).length ≤ 16 ∧ (withPort (port 16 0 true)).recvs = [] ∧ (withPort (port 16 0 true)).pats = [] :=
  ⟨_, _, ⟨performs (by decide +kernel), performs (by decide +kernel), and6 (by decide +kernel) ⟨by unfold JoinsIdle; decide +kernel, lanes_of (by decide +kernel)⟩⟩, by decide +kernel⟩
theorem test_premises_Sends_overflow : ∃ q r, sendPremises (withPort (port 16 1 true)) q r ∧ (withPort (port 16 1 true)).port? 63 = some (port 16 1 true) ∧
    16 < (port 16 1 true).q.length + (lanesOf q.g.width q.act).length :=
  ⟨_, _, ⟨performs (by decide +kernel), performs (by decide +kernel), and6 (by decide +kernel) ⟨by unfold JoinsIdle; decide +kernel, lanes_of (by decide +kernel)⟩⟩, by decide +kernel⟩
theorem test_premises_Sends_full : ∃ q r, sendPremises (withPort (port 16 16 false)) q r ∧ (withPort (port 16 16 false)).port? 63 = some (port 16 16 false) ∧
    (port 16 16 false).q.length = (port 16 16 false).depth :=
  ⟨_, _, ⟨performs (by decide +kernel), performs (by decide +kernel), and6 (by decide +kernel) ⟨by unfold JoinsIdle; decide +kernel, lanes_of (by decide +kernel)⟩⟩, by decide +kernel⟩
def lossy : Team := { team with lost := [(63, 65535)] }
theorem test_premises_Sends_closed : ∃ q r, sendPremises lossy q r ∧ lossy.port? 63 = none ∧ getK lossy.lost 0 63 ≤ 65535 :=
  ⟨_, _, ⟨performs (by decide +kernel), performs (by decide +kernel), and6 (by decide +kernel) ⟨by unfold JoinsIdle; decide +kernel, lanes_of (by decide +kernel)⟩⟩, by decide +kernel⟩
theorem test_premises_Sends_number : ∃ (o : F5) (q : Q), Performs (.send o) (pt team) q ∧ (q.g.rdS o.a).toNat = 64 :=
  ⟨f5 z (.imm 64#8) v2 v1 z, _, performs (by decide +kernel), by decide +kernel⟩
def recvI : F5 := f5 s4 (.imm 63#8) z z z
theorem test_premises_Receives_head : ∃ (q : Q), let t := withPort (port 16 1 false)
    JoinsIdle (pt t) t.cores ∧ Performs (.recv recvI) (pt t) q ∧ recvI.d = .s 4#7 ∧ (port 16 1 false).core ∈ t.cores ∧ (pt t).team? q.g.team = some t ∧ mbit recvI.mod 0 = false ∧ (q.g.rdS recvI.a).toNat < 64 ∧
    t.port? 63 = some (port 16 1 false) ∧ (port 16 1 false).q = [msg1] ∧ t.recvs = [] ∧ t.pats = [] ∧ q.g.st = .resident ∧
    q.sub = q.g.subsetAt (lowest q.sub) ∧ (q.g.lane (lowest q.sub)).exited = false ∧ (q.g.lane (lowest q.sub)).pc = q.pc :=
  ⟨_, by unfold JoinsIdle; decide +kernel, performs (by decide +kernel), by decide +kernel⟩
theorem test_premises_Receives_empty : ∃ (q : Q), let t := withPort (port 16 0 false)
    JoinsIdle (pt t) t.cores ∧ Performs (.recv recvI) (pt t) q ∧ (pt t).team? q.g.team = some t ∧ t.recvs = [] ∧ t.pats = [] ∧ t.port? 63 = some (port 16 0 false) ∧ (port 16 0 false).q = [] ∧
    (q.g.lane (lowest q.sub)).pc = q.pc ∧ q.sub ≠ 0#64 ∧ ∀ L, q.sub.getLsbD L = true → L < q.g.width :=
  ⟨_, by unfold JoinsIdle; decide +kernel, performs (by decide +kernel), and7 (by decide +kernel) (lanes_of (by decide +kernel))⟩
theorem test_premises_Receives_stops : ∃ (o p : F5) (q r t : Q), Performs (.recv recvI) (pt team) q ∧ team.port? (q.g.rdS recvI.a).toNat = none ∧
    Performs (.recv o) (pt team) r ∧ (r.g.rdS o.a).toNat = 64 ∧ Performs (.recv p) (pt team) t ∧ mbit p.mod 0 = true ∧
    ∀ x ∈ team.pats, x.spawn = false → x.owner ≠ t.g.id :=
  ⟨f5 s4 (.imm 64#8) z z z, f5 s4 z z z z 1#6, _, _, _, performs (by decide +kernel), by decide +kernel, performs (by decide +kernel), by decide +kernel,
   performs (by decide +kernel), by decide +kernel⟩
theorem test_premises_Receives_peek : ∃ (o : F5) (q r t : Q), Performs (.rpeek recvI) (pt (withPort (port 16 1 false))) q ∧ Performs (.rpeek recvI) (pt team) r ∧
    Performs (.rpeek o) (pt team) t ∧ (withPort (port 16 1 false)).port? (q.g.rdS recvI.a).toNat = some (port 16 1 false) ∧
    team.port? (r.g.rdS recvI.a).toNat = none ∧ (t.g.rdS o.a).toNat = 64 :=
  ⟨f5 s4 (.imm 64#8) z z z, _, _, _, performs (by decide +kernel), performs (by decide +kernel), performs (by decide +kernel), by decide +kernel⟩
/-- s2 holds 65,600, where the record `r` stands. -/
def pa (r : List Byte) (t : Team) : State := { machine (grp [0, 0, 65600]) t with mem := Mem.store [] 65600 r }
/-- The same where the kernel's lines stand too. -/
def pb (r : List Byte) (t : Team) : State := { pa r t with mem := Mem.store code 65600 r }
def patPremises (o : FY) (s : State) (t : Team) (q : Q) : Prop :=
  JoinsIdle s t.cores ∧ Performs (.patarm o) s q ∧ s.team? q.g.team = some t ∧ s.rangeCond q.g ((q.g.rdS o.ya).toNat : Int) 16 16 .rd = none ∧ NoBadWord s q ∧
  RequestsFree s q .load (s.segs q.g (q.g.rdS o.ya).toNat 16 .rd) ∧
  (mbit o.mod 0 = false → (∀ p ∈ t.ports, p.q = []) ∧
    ((fieldAt (s.mem.segLoad (s.segs q.g (q.g.rdS o.ya).toNat 16 .rd)) 13 1).testBit 2 = true →
      s.childEntry q.g (BitVec.ofNat 64 (fieldAt (s.mem.segLoad (s.segs q.g (q.g.rdS o.ya).toNat 16 .rd)) 0 8)) = .refused ∨
      ∃ h, s.childEntry q.g (BitVec.ofNat 64 (fieldAt (s.mem.segLoad (s.segs q.g (q.g.rdS o.ya).toNat 16 .rd)) 0 8)) = .header h))
/-- A port record of port 63 and depth 16, a wake pattern 31 of port 63, and a spawn pattern whose handler is the kernel's entry, or none. -/
theorem test_premises_PortsAndPatterns_arm :
    (∃ q, patPremises (fy s2 s4 z 0#16 1#6) (pa [63#8, 16#8, 3#8] team) team q) ∧
    (∃ q, patPremises (fy s2 s4 z) (pa (leBytes 8 0 ++ [31#8, 1#8, 63#8]) (withPort (port 16 0 false))) (withPort (port 16 0 false)) q) ∧
    (∃ q, patPremises (fy s2 s4 z) (pa (leBytes 8 65664 ++ [31#8, 1#8, 63#8, 0#8, 0#8, 4#8]) (withPort (port 16 0 false))) (withPort (port 16 0 false)) q) ∧
    ∃ q, patPremises (fy s2 s4 z) (pb (leBytes 8 65728 ++ [31#8, 1#8, 63#8, 0#8, 0#8, 4#8]) (withPort (port 16 0 false))) (withPort (port 16 0 false)) q :=
  ⟨⟨_, by unfold JoinsIdle; decide +kernel, performs (by decide +kernel), by decide +kernel, by decide +kernel, ⟨rfl, by decide +kernel⟩,
     by unfold RequestsFree; decide +kernel, fun h => absurd h (by decide +kernel)⟩,
   ⟨_, by unfold JoinsIdle; decide +kernel, performs (by decide +kernel), by decide +kernel, by decide +kernel, ⟨rfl, by decide +kernel⟩,
     by unfold RequestsFree; decide +kernel, fun _ => ⟨by decide +kernel, fun h => absurd h (by decide +kernel)⟩⟩,
   ⟨_, by unfold JoinsIdle; decide +kernel, performs (by decide +kernel), by decide +kernel, by decide +kernel, ⟨rfl, by decide +kernel⟩,
     by unfold RequestsFree; decide +kernel, fun _ => ⟨by decide +kernel, fun _ => .inl (by decide +kernel)⟩⟩,
   _, by unfold JoinsIdle; decide +kernel, performs (by decide +kernel), by decide +kernel, by decide +kernel, ⟨rfl, by decide +kernel⟩,
   by unfold RequestsFree; decide +kernel, fun _ => ⟨by decide +kernel, fun _ => .inr ⟨childHdr, by decide +kernel⟩⟩⟩
theorem test_premises_PortsAndPatterns_disarm : ∃ (o p : FY) (q r : Q), let t := withPort (port 16 1 false)
    Performs (.patdis o) (pt t) q ∧ Performs (.patdis p) (pt t) r ∧ (pt t).team? q.g.team = some t ∧ mbit o.mod 0 = true ∧ t.port? o.code.toNat = some (port 16 1 false) ∧
    mbit p.mod 0 = false :=
  ⟨fy z z z 63#16 1#6, fy z z z 31#16, _, _, performs (by decide +kernel), performs (by decide +kernel), by decide +kernel⟩
theorem test_premises_PortsAndPatterns_status : ∃ (o p u w : F5) (q r t v y : Q), let x := withPort (port 16 16 false)
    Performs (.pstat o) (pt x) q ∧ Performs (.pstat o) (pt lossy) r ∧ Performs (.pstat p) (pt x) t ∧ Performs (.pstat u) (pt x) v ∧ Performs (.pstat w) (pt x) y ∧
    (q.g.rdS o.a).toNat = 63 ∧ x.port? 63 = some (port 16 16 false) ∧ lossy.port? 63 = none ∧ getK lossy.lost 0 63 < 65536 ∧
    mbit p.mod 0 = true ∧ (t.g.rdS p.a).toNat = 31 ∧ (∀ y ∈ x.pats, y.num ≠ 31) ∧ (v.g.rdS u.a).toNat = 64 ∧ (y.g.rdS w.a).toNat = 32 ∧ mbit w.mod 0 = true :=
  ⟨f5 s4 (.imm 63#8) z z z, f5 s4 (.imm 31#8) z z z 1#6, f5 s4 (.imm 64#8) z z z, f5 s4 (.imm 32#8) z z z 1#6, _, _, _, _, _, performs (by decide +kernel),
   performs (by decide +kernel), performs (by decide +kernel), performs (by decide +kernel), performs (by decide +kernel), by decide +kernel⟩

/-! ### Waits, cores, walks -/

/-- Every lane of the group waits under w. -/
def wg (w : Wait) : Group := { grp [] with lanes := List.replicate 16 { pc := 65536#64, wp := 65536#64, wait := w } }
def ws (w : Wait) : State := machine (wg w) team
theorem test_premises_EndsOfWaits_plain : s0.grp? (grp []).id = some (grp []) ∧ (grp []).st ≠ .saved := by decide +kernel
theorem test_premises_EndsOfWaits_nap : (ws (.nap 0)).grp? (wg (.nap 0)).id = some (wg (.nap 0)) ∧ (wg (.nap 0)).HasWait Wait.napOver := by
  unfold Group.HasWait; decide +kernel
theorem test_premises_EndsOfWaits_barrier : (∀ g ∈ (ws (.bar 3)).teamGroups 1, ∀ l ∈ ((ws (.bar 3)).view g).lanes, l.exited = true ∨ l.wait = .bar 3) ∧
    ∃ g ∈ (ws (.bar 3)).teamGroups 1, ((ws (.bar 3)).view g).HasWait (Wait.atBar 3) := by
  unfold Group.HasWait; decide +kernel
theorem test_premises_EndsOfWaits_early : ∃ g ∈ (ws (.bar 2)).teamGroups 1, ∃ l ∈ ((ws (.bar 2)).view g).lanes, l.exited = false ∧ l.wait ≠ .bar 3 := by
  decide +kernel
def winS : State := { ws (.win 3 false 7#64) with sheets := [{ sheet with windows := [importW] }] }
theorem test_premises_EndsOfWaits_window : winS.grp? 1 = some (wg (.win 3 false 7#64)) ∧ winS.sheet? 1 = some { sheet with windows := [importW] } ∧
    (wg (.win 3 false 7#64)).HasWait (Wait.winDone { sheet with windows := [importW] }) := by
  unfold Group.HasWait; decide +kernel
theorem test_premises_EndsOfWaits_spawn :
    ({ ws .spawn with sheets := [{ sheet with spawnFreed := true }] } : State).sheet? 1 = some { sheet with spawnFreed := true } := by decide +kernel
def mopenS : State := { ws .mopen with cores := [(0, { mowner := some 1, mopenQ := [1] })] }
theorem test_premises_EndsOfWaits_mopen : (mopenS.core 0).mowner = some 1 ∧ (mopenS.core 0).mopenQ = [1] ∧
    (∀ x ∈ mopenS.groups, x.core = 0 → x.team = 1 → x.batches = []) ∧ mopenS.grp? 1 = some (wg .mopen) ∧ (wg .mopen).HasWait Wait.atMopen := by
  unfold Group.HasWait; decide +kernel
def mwaitG : Group := { wg (.mwait 0 0xFFFF#64 false) with batches := [closedB] }
theorem test_premises_EndsOfWaits_mwait : (machine mwaitG team).grp? 1 = some mwaitG ∧ (machine mwaitG team).mwaitReady mwaitG = true ∧
    (machine mwaitG team).engineBlocked mwaitG = false := by decide +kernel
/-- Two closed batches; the second still works. -/
def mwaitB : Group := { mwaitG with batches := [closedB, { closed := true, todo := [{ i := .tzero (fx 0#4 0#4 0#4 z z 0#8 0#10) }] }] }
theorem test_premises_EndsOfWaits_retire : (machine mwaitB team).grp? 1 = some mwaitB ∧ (machine mwaitB team).mwaitReady mwaitB = false ∧
    mwaitB.st ≠ .saved ∧ mwaitB.mwaits = [(0, 0xFFFF#64)] ∧ (match (machine mwaitB team).retire 1 0 0xFFFF#64 with
      | .wait t => (t.grp? 1).any fun g => g.batches.length == 1
      | _ => false) = true := by decide +kernel
theorem test_premises_EndsOfWaits_chunks : (ws (.chunks 0 1 [0])).grp? 1 = some (wg (.chunks 0 1 [0])) ∧ (ws (.chunks 0 1 [0])).team? 1 = some team ∧
    (wg (.chunks 0 1 [0])).HasWait (Wait.chunksDone team) := by
  unfold Group.HasWait; decide +kernel
theorem test_premises_EndsOfWaits_stage : (machine (wg (.stage 3)) (underWay 3)).grp? 1 = some (wg (.stage 3)) ∧
    (machine (wg (.stage 3)) (underWay 3)).team? 1 = some (underWay 3) ∧ (wg (.stage 3)).HasWait (Wait.stageFree (underWay 3)) := by
  unfold Group.HasWait; decide +kernel
def requestS : State := { ws (.request 2) with cores := [(0, { reqQ := [(1, 0xFFFF#64)], reqs := List.replicate 1022 { gid := 2, line := 0 } })] }
theorem test_premises_EndsOfWaits_request : (requestS.core 0).reqQ = [(1, 0xFFFF#64)] ∧ requestS.grp? 1 = some (wg (.request 2)) ∧ (wg (.request 2)).wantsLines 0xFFFF#64 = some 2 ∧
    (requestS.core 0).reqs.length + 2 ≤ 1024 := by decide +kernel
def walkS (n : Nat) : State := { ws .walk with dies := [(0, { cur := n, walks := [{ gid := 1, rgen := 5, granted := true }] })] }
theorem test_premises_EndsOfWaits_walk : ((walkS 5).die 0).walks[0]? = some { gid := 1, rgen := 5, granted := true } ∧ 5 ≤ ((walkS 5).die 0).cur ∧
    ((walkS 4).die 0).walks[0]? = some { gid := 1, rgen := 5, granted := true } ∧ 0 < ((walkS 4).die 0).cur := by decide +kernel
theorem test_premises_EndsOfWaits_budget : (ws (.budget 0 1)).grp? 1 = some (wg (.budget 0 1)) ∧ (wg (.budget 0 1)).budgetWait = some (0, 1) ∧
    (((ws (.budget 0 1)).cluster 0).budgets[0]?).map (·.spill) = some true ∧
    (∀ h ∈ (ws (.budget 0 1)).groups, clusterOf h.core = 0 → ∀ c ∈ h.budgetWait, c.2 = 1 → c.1 = 0) ∧
    (∀ t ∈ (ws (.budget 0 1)).teams, t.rounds = []) ∧ (ws (.budget 0 1)).survs = [] := by decide +kernel
def passed : Group := { grp [] with lanes := List.replicate 16 { pc := 65536#64, wp := 65536#64, skipped := 64 } }
theorem test_premises_CoreSteps_picker : ∃ m, (machine passed team).pick 0 = some (1, m) ∧ (machine passed team).grp? 1 = some passed ∧
    64 ≤ (passed.lane (lowest m)).skipped := ⟨0xFFFF#64, by decide +kernel⟩
theorem test_premises_CoreSteps_bin : ∃ b, (((binned 1).core 0).bins.find? fun x => x.order == 0) = some b :=
  Option.isSome_iff_exists.mp (by decide +kernel)
def parked (n : Nat) : Group := { grp [] with id := n, st := .parked, seq := n }
def parkS : State := { machine (grp []) team with groups := [grp [], parked 2, parked 3], cores := [(0, { cycle := 65536#64 })] }
theorem test_premises_CoreSteps_unpark : let g := parked 2
    let t := parkS.makeRoom g (parkS.groupsOn 0).length
    firstSeq ((parkS.groupsOn 0).filter fun x => x.st == .parked && x.eligible) = some g ∧ t.unitsUsed g.core + unitsOf g.width g.vcount ≤ 256 := by decide +kernel
theorem test_premises_CoreSteps_starved : parked 2 ∈ parkS.groups ∧ (parked 2).core = 0 ∧ (parked 2).st = .parked ∧ (parked 2).eligible = true ∧
    max (parked 2).parkedAt (parkS.core 0).lastFree + 65536 ≤ (parkS.core 0).cycle.toNat ∧ parkS.longestIssuing 0 = some (grp []) ∧
    parkS.grp? 1 = some (grp []) := by decide +kernel
def gone : Group := { grp [] with lanes := List.replicate 16 { exited := true } }
def goneS : State := { machine gone team with cores := [(0, { mowner := some 1 })] }
theorem test_premises_CoreSteps_putsPending : let p : Put := { origin := 0, sheet := 1, gid := 1, entry := 3, num := 0, module := 5, wref := 0#64, data := [], arrived := false }
    let s : State := { goneS with puts := [p] }
    s.grp? 1 = some gone ∧ p ∈ s.puts ∧ p.origin = s.moduleNo ∧ p.gid = gone.id ∧ p.arrived = false := by decide +kernel
theorem test_premises_CoreSteps_free : goneS.grp? 1 = some gone ∧ gone.st ≠ .saved ∧ (∀ L, L < gone.width → (gone.lane L).exited = true) ∧
    (∀ p ∈ goneS.puts, p.origin = goneS.moduleNo → p.gid = gone.id → p.arrived = true) ∧ (goneS.core 0).mowner = some 1 ∧ ∀ h ∈ goneS.groups, h.team = 1 → h.core = 0 → h.id = 1 := by decide +kernel
def overT : Team := { team with exited := true }
def overS : State := { s0 with groups := [], teams := [overT] }
theorem test_premises_CoreSteps_scratch : overS.team? overT.id = some overT ∧ overT.exited = true ∧ overT.frees = false ∧ overT.rounds = [] ∧
    ∀ g ∈ overS.groups, g.team ≠ overT.id := by decide +kernel
def walking : State :=
  { s0 with dies := [(0, { walks := List.replicate 63 { gid := 1, rgen := 0, granted := true } ++ [{ gid := 1, rgen := 0 }] })] }
theorem test_premises_CoreSteps_walk : (∃ w ∈ (walking.die 0).walks, w.granted = false) ∧ ((walking.die 0).walks.filter (·.granted)).length < 64 := by
  decide +kernel
theorem test_premises_MemorySteps_generation : let s : State := { s0 with ticket := 3, doneTickets := [1, 2], invals := [(1, 0#64)] }
    (s.die 0).cur < s.publishableOn 0 ∧ (∃ e ∈ s.invals, e.1 ≤ s.publishableOn 0) ∧ s0.publishableOn 0 ≤ (s0.die 0).cur := by decide +kernel
theorem test_premises_MemorySteps_lines : paPool (2 ^ 41 * 128) = true ∧ paPool (3 * 128) = false := by decide +kernel
/-- The record of one shard; `a` is an address that the tables map or not. -/
def theFault (a : Nat) : FaultRec := { shard := 5, lanes := 1#64, vas := [BitVec.ofNat 64 a], who := [0], kind := 0, gen := 0 }
def waiting (a : Nat) : Group :=
  { grp [] with st := .saved, faults := [theFault a], save := { cause := .pageWait, fstate := 1, flanes := 1#64 } }
/-- Memory with the head of a saved group's frame. -/
def headed (g : Group) (m : Mem := []) : Mem := m.store 0x10000000 (leBytes 2 g.save.cause.code ++ leBytes 1 g.save.fstate ++ leBytes 1 16)
def faultS (a : Nat) : State := { machine (waiting a) team with roots := [(0, 0x20000)], mem := tables (headed (waiting a)), cur := none }
theorem test_premises_MemorySteps_reply : (faultS 0).grp? 1 = some (waiting 0) ∧ (waiting 0).st = .saved ∧ (waiting 0).save.cause = .pageWait ∧
    (faultS 0).mapServed 0 [] = some (faultS 0) ∧ ((faultS 0).walk 0 0).isSome = true ∧ ((faultS 0).freeCtx 0).isSome = true ∧
    (faultS 0).imageOf (waiting 0) = none ∧ (faultS 0).ckptStop = false ∧ (waiting 0).faults = [theFault 0] ∧ (theFault 0).done = false ∧
    (theFault 0).failed = none ∧ ((theFault 0).vas.any fun a => (faultS 0).onTheMove 0 a.toNat) = false ∧ (theFault 0).who.length = (theFault 0).vas.length ∧
    (waiting 0).frameIntact (faultS 0).mem = true ∧ ((faultS 0).core 0).wst ≠ .drained ∧ ((faultS 0).core 0).wst ≠ .retired ∧ isAgent 0 = true := by
  decide +kernel
theorem test_premises_MemorySteps_noPage : (faultS (2 ^ 28)).grp? 1 = some (waiting (2 ^ 28)) ∧ (faultS (2 ^ 28)).mapServed 0 [] = some (faultS (2 ^ 28)) ∧
    ((theFault (2 ^ 28)).who.zip (theFault (2 ^ 28)).vas).filter (fun e => decide (2 ^ 57 ≤ e.2.toNat) || ((faultS (2 ^ 28)).walk 0 e.2.toNat).isNone) ≠ [] ∧
    ((theFault (2 ^ 28)).vas.any fun a => (faultS (2 ^ 28)).onTheMove 0 a.toNat) = false := by decide +kernel
def put (m : Nat) (arrived : Bool) : Put := { origin := 0, sheet := 1, entry := 3, num := 0, module := m, wref := BitVec.ofNat 64 (4 * 2 ^ 48 + 4092), data := [1#8, 2#8, 3#8, 4#8], arrived }
def putS (m : Nat) (arrived : Bool) : State := { sw 0 with puts := [put m arrived], roots := [(0, 0x20000)], mem := tables [] }
theorem test_premises_WindowsAndFabric_puts : (putS 5 false).puts[0]? = some (put 5 false) ∧ (put 5 false).module ≠ (putS 5 false).moduleNo ∧
    (putS 0 false).puts[0]? = some (put 0 false) ∧ (put 0 false).module = (putS 0 false).moduleNo ∧
    (∃ h, (putS 0 false).exportOf ((put 0 false).wref.toNat / 2 ^ 48) = some (h, exportW) ∧ (putS 0 false).sheet? h.id = some h) ∧
    (put 0 false).wref.toNat % 2 ^ 48 + (put 0 false).data.length ≤ exportW.len ∧
    (∃ x, (putS 0 false).asnSegs 0 (exportW.base + (put 0 false).wref.toNat % 2 ^ 48) 4 = some x) ∧
    (put 5 true).arrived = true ∧ (put 5 true).origin = (putS 5 true).moduleNo ∧
    ({ sheet with windows := [importW, exportW] } : Sheet).windows.find? (fun x => x.entry == (put 5 true).entry && x.isImport) = some importW := by
  refine and4 (by decide +kernel) ⟨⟨_, rfl, by decide +kernel⟩, by decide +kernel,
    Option.isSome_iff_exists.mp (by decide +kernel), by decide +kernel⟩
/-- The CRC once more, each byte's value worked out before the next. -/
def withValue {α : Type} (c : Nat) (k : Nat → α) : α :=
  match c with
  | 0 => k 0
  | n + 1 => k (n + 1)
def crcFrom : List Byte → Nat → Nat
  | [], c => c
  | b :: bs, c => withValue (crcByte c b) (crcFrom bs)
theorem crcFrom_eq (bs : List Byte) : ∀ c, crcFrom bs c = bs.foldl crcByte c := by
  induction bs with
  | nil => intro c; rfl
  | cons b bs ih => intro c; rw [List.foldl_cons, ← ih, crcFrom]; cases crcByte c b <;> rfl
/-- The first 248 bytes of a flit of kind k, sequence number q, tag t and channel vc. -/
def flitBody (k q t : Nat) (vc : Byte := 0#8) : List Byte :=
  leBytes 1 k ++ [vc] ++ leBytes 2 q ++ [0#8, 0#8] ++ leBytes 2 224 ++ List.replicate 232 0#8 ++ leBytes 8 t
def crcOf (bs : List Byte) : Nat := crcFrom bs 0xFFFFFFFFFFFFFFFF ^^^ 0xFFFFFFFFFFFFFFFF
theorem crcOf_eq (bs : List Byte) : crcOf bs = crc64 bs := by rw [crcOf, crcFrom_eq, crc64]
/-- R463 gives this value over the nine bytes. -/
theorem test_crc : crc64 [0x31#8, 0x32#8, 0x33#8, 0x34#8, 0x35#8, 0x36#8, 0x37#8, 0x38#8, 0x39#8] = 0x995DC9BBDF1939FA := by decide +kernel
def flit (k q t : Nat) : List Byte := flitBody k q t ++ leBytes 8 (crcOf (flitBody k q t))
theorem test_premises_WindowsAndFabric_flits : ∀ f ∈ [flit 1 0 0, flit 1 0 (2 ^ 63), flit 5 0 0], f.length = 256 ∧ crc64 (f.take 248) = fieldAt f 248 8 ∧
    fieldAt f 2 2 = (getK s0.fab FabPort.init 15).rxSeq ∧ fieldAt f 6 2 ≤ 224 ∧ fieldAt f 0 1 ≤ 5 ∧ fieldAt f 1 1 ≤ 2 ∧
    (getK s0.fab FabPort.init 15).down = false ∧ ((getK s0.fab FabPort.init 15).acked (fieldAt f 4 2)).retries < 64 := by
  simp only [← crcOf_eq]; decide +kernel
theorem test_premises_WindowsAndFabric_dropped : (flitBody 1 0 0 ++ leBytes 8 0).length = 256 ∧
    crc64 ((flitBody 1 0 0 ++ leBytes 8 0).take 248) ≠ fieldAt (flitBody 1 0 0 ++ leBytes 8 0) 248 8 ∧
    crc64 ((flit 0 1 0).take 248) = fieldAt (flit 0 1 0) 248 8 ∧ fieldAt (flit 0 1 0) 2 2 ≠ (getK s0.fab FabPort.init 0).rxSeq ∧
    2 < fieldAt (flitBody 1 0 0 3#8) 1 1 := by
  simp only [← crcOf_eq]; decide +kernel
theorem test_premises_WindowsAndFabric_links : let s : State := { s0 with fab := [(0, { retries := 64 }), (1, { spare := true }), (2, { retries := 63 })] }
    64 ≤ ((getK s.fab FabPort.init 0).acked 0).retries ∧ (getK s.fab FabPort.init 1).spare = true ∧ ((getK s.fab FabPort.init 2).acked 0).retries < 64 ∧
    ∀ n ∈ [0, 1, 2], (getK s.fab FabPort.init n).down = false := by decide +kernel
theorem test_premises_WindowsAndFabric_host : s0.trust.recovery = false ∧ (7 : Nat) ∉ s0.owner.rootPorts ∧ isHbm 0 = true ∧ isHbm (0 + 64 - 1) = true := by decide +kernel
/-- A round of the team that fetches 512 bytes from 65,536 to chunk 0, or stores them, or waits for other members. -/
def job (out waiting : Bool) (data : Option (List Byte)) : Job :=
  { out, rows := [(65536#64, 0, 512)], chunks := [0], left := [0], mcast := if waiting then 2 else 0, waiting, data }
def roundT (j : Job) : Team :=
  { team with absent := [0], rounds := [{ id := 7, stage := some 3, r := 0, jobs := [j] }], sched := some { idx := 0, key := 1#64, entries := [] } }
def rs (j : Job) : State := { machine (grp []) (roundT j) with sheets := [sheetT] }
theorem test_premises_TraverseAndPortSteps_chunks : ∀ e ∈ [(job false false none, false), (job false false (some [1#8]), false), (job true false none, true)],
    (rs e.1).traverseStalled (roundT e.1) = false ∧ (rs e.1).team? 1 = some (roundT e.1) ∧ ((roundT e.1).round? 7).bind (·.jobOf e.2 0) = some (e.1, 0) ∧
    (rs e.1).pieceFault (roundT e.1) .rd (e.1.pieces 0) = none ∧ (rs e.1).pieceFault (roundT e.1) .wr (e.1.pieces 0) = none ∧ (rs e.1).bad = [] ∧
    (roundT e.1).bad = [] := by decide +kernel
/-- A cluster whose Traverse class, without SPILL, has used its 3,072 NoC slots of the period. -/
def spentC : Cluster := { Cluster.init with budgets := (resetBudgets.modify 2 fun b => { b with used := [3072, 0, 0], spill := false }) }
theorem test_premises_TraverseAndPortSteps_stalled : let j := job true false none
    ({ rs j with clusters := [(0, spentC)] }).traverseStalled (roundT j) = true ∧ (((roundT j).round? 7).bind (·.jobOf true 0)).isSome = true := by
  decide +kernel
def mcastS (n : Nat) : State :=
  { rs (job false true none) with teams := (List.range n).map fun i => { roundT (job false true none) with id := i + 1, teamid := i } }
theorem test_premises_TraverseAndPortSteps_multicast : let r : Round := { id := 7, stage := some 3, r := 0, jobs := [job false true none] }
    (mcastS 2).team? 1 = some (roundT (job false true none)) ∧ r.waitingJob = some (job false true none, 0) ∧
    ((mcastS 2).mcastMembers (roundT (job false true none)) r).length = 2 ∧ ((mcastS 1).mcastMembers (roundT (job false true none)) r).length = 1 ∧
    (mcastS 2).traverseStalled (roundT (job false true none)) = false ∧ (mcastS 2).pieceFault (roundT (job false true none)) .rd (job false true none).rows = none := by decide +kernel
/-- The same copy where nothing maps its page, or the tables do. -/
def missing (m : Mem) : State := { rs (job false false none) with cores := [], roots := [(0, 0x20000)], mem := m }
theorem test_premises_TraverseAndPortSteps_pages : let t := roundT (job false false none)
    ((missing []).pieceFault t (job false false none).acc (job false false none).remaining).isSome = true ∧
    (missing []).mapServed 0 [] = some (missing []) ∧
    (∃ u, (missing (tables [])).mapServed 0 [] = some u ∧ u.pieceFault t (job false false none).acc (job false false none).remaining = none) ∧
    (job false false none).waiting = false ∧ (job false false none).mcast = 0 ∧
    ((missing []).pieceFault t (job false false none).acc (job false false none).remaining).any (fun e => decide (e.1 ≠ .later)) = true := by
  refine ⟨by decide +kernel, by decide +kernel, ⟨_, rfl, by decide +kernel⟩, by decide +kernel⟩
/-- A multicast entry whose page nothing maps, released by one team of two. -/
theorem test_premises_TraverseAndPortSteps_unreleased : let j := job false true none
    let t := roundT j
    let s : State := { missing [] with teams := [t] }
    (s.pieceFault t j.acc j.remaining).isSome = true ∧ s.mapServed 0 [] = some s ∧ j.waiting = true ∧ j.mcast ≠ 0 ∧ j.data = none ∧
    (t.round? 7).any (fun x => decide ((s.mcastMembers t x).length < j.mcast)) = true := by decide +kernel
def arriving (t : Team) : State := { pt t with msgs := [{ team := 1, port := 63, msg := msg1, seq := 0 }] }
theorem test_premises_TraverseAndPortSteps_messages : ∀ t ∈ [overT, team, withPort (port 16 15 false), withPort (port 16 16 false)],
    (arriving t).msgs[0]? = some { team := 1, port := 63, msg := msg1, seq := 0 } ∧ (arriving t).arrivable 0 = true ∧ (arriving t).team? 1 = some t := by
  decide +kernel
theorem test_premises_TraverseAndPortSteps_ports : overT.exited = true ∧ team.port? 63 = none ∧ (withPort (port 16 15 false)).port? 63 = some (port 16 15 false) ∧
    (withPort (port 16 16 false)).port? 63 = some (port 16 16 false) ∧ (pt team).arrivable 0 = false := by decide +kernel
def queued (h : List Msg) (b : List Blocked) : Team := withPort { port 16 15 false with held := h, blocked := b }
theorem test_premises_TraverseAndPortSteps_entering : ∀ t ∈ [queued [msg1] [], queued [] [{ gid := 1, lane := 0, msg := msg1 }]],
    (pt t).team? 1 = some t ∧ ∀ p ∈ t.port? 63, p.q.length < p.depth ∧ (p.held = [] ↔ p.blocked ≠ []) := by decide +kernel

/-! ### Sheets, tasks, placement -/

/-- A write of SUBMIT; one that is torn, one to the page's last bytes of SUBMIT, and the wake count. -/
theorem test_premises_SheetAndTaskSteps_submit : let w : HostWrite := { off := 0, whole := true, bytes := List.replicate 128 0#8 }
    s0.queue? 1 = some queue ∧ queue.slot.isSome = true ∧ w.off = 0 ∧ w.bytes.length = 128 ∧ w.whole = true ∧
    fieldAt w.bytes 88 4 ≠ (queue.lastSeq + 1) % 2 ^ 32 ∧
    (∀ x ∈ [{ w with whole := false }, { w with off := 127, bytes := [0#8] }], x.off < 128 ∧ x.bytes ≠ [] ∧
      (x.off ≠ 0 ∨ x.bytes.length ≠ 128 ∨ x.whole = false)) ∧
    ∀ x ∈ [{ w with off := 128 }, { w with off := 144, bytes := List.replicate 8 0#8 }], 128 ≤ x.off := by decide +kernel
def unmapped : Queue := { queue with slot := none }
theorem test_premises_SheetAndTaskSteps_unmapped : ({ s0 with queues := [unmapped] } : State).queue? 1 = some unmapped ∧ unmapped.slot = none ∧
    (∀ x ∈ [unmapped], x.slot ≠ some 4095) ∧ ∀ x ∈ [unmapped], x.slot = none → x.pending = true → x.ceiling ≠ unmapped.ceiling := by decide +kernel
theorem test_premises_SheetAndTaskSteps_pending : ({ unmapped with pending := true } : Queue).pending = true := rfl
def hdr : Header := { width := 16, vcount := 24, scount := 16, team := 1, scratch := 0, flags := 0 }
def task (n : Nat) (st : TaskSt) : Task :=
  { num := n, kernel := 65536#64, hdr, foots := [{ base := 65536, len := 65536, acc := 3 }], args := [], teams := 1, matrix := false, st }
/-- The sheet with its tasks, and nothing placed. -/
def shs (h : Sheet) (w : Nat) : State := { s0 with groups := [], teams := [], sheets := [h], queues := [{ queue with wake := w }], cur := none }
def newSheet (flags req : Nat) : Sheet := { sheet with st := .accepted, flags, wakeReq := req }
theorem test_premises_SheetAndTaskSteps_start : ∀ e ∈ [(newSheet 0 0, 0), (newSheet 2 3, 3), (newSheet 2 3, 2)],
    (shs e.1 e.2).queue? 1 = some { queue with wake := e.2 } ∧ queue.slot.isSome = true ∧ (shs e.1 e.2).accepting = true ∧ (shs e.1 e.2).ckptStop = false ∧
    (shs e.1 e.2).nextSheet 1 = some e.1 := by decide +kernel
theorem test_premises_SheetAndTaskSteps_wakes : (newSheet 0 0).waits = false ∧ (newSheet 2 3).waits = true := by decide +kernel
def withTasks (ts : List Task) : Sheet := { sheet with tasks := ts }
theorem test_premises_SheetAndTaskSteps_dispatch : let h := withTasks [task 0 .waiting]
    let s := shs h 0
    s.sheet? 1 = some h ∧ s.task? 1 0 = some (task 0 .waiting) ∧ s.accepting = true ∧ s.ckptStop = false ∧ s.edgesMet h (task 0 .waiting) = true ∧ (task 0 .waiting).noRename = [] ∧ (task 0 .waiting).renamed = [] ∧ h.st = .running ∧
    ∀ f ∈ (task 0 .waiting).foots, f.acc ≠ 4 := by decide +kernel
/-- A task record that a group has asked for, and that is accepted. -/
theorem test_premises_SheetAndTaskSteps_create : (st taskRec sheet).sheet? (grp []).sheet = some sheet ∧
    ∃ acc, (st taskRec sheet).checkSub (grp []).asn (taskRecord taskRec) false = .ok acc :=
  ⟨by decide +kernel, isOk_iff (by decide +kernel)⟩
theorem test_premises_SheetAndTaskSteps_edge : let h := withTasks [task 0 .ready, task 1 .waiting]
    (shs h 0).sheet? 1 = some h ∧ (shs h 0).task? 1 1 = some (task 1 .waiting) ∧ (shs h 0).edgesMet h (task 1 .waiting) = false := by decide +kernel
def overTask (n : Option (Nat × Nat)) : Task := { task 0 .ready with placed := 1, notify := n }
theorem test_premises_SheetAndTaskSteps_completion : ∀ n ∈ [none, some (1, 63)], let h := withTasks [overTask n]
    (shs h 0).sheet? 1 = some h ∧ (shs h 0).task? 1 0 = some (overTask n) ∧ (shs h 0).taskOver h (overTask n) = true ∧
    ∀ g ∈ (shs h 0).groups, g.waits Wait.isAnswer = false := by decide +kernel
theorem test_premises_SheetAndTaskSteps_notOver : let h := withTasks [task 0 .ready]
    (shs h 0).task? 1 0 = some (task 0 .ready) ∧ (shs h 0).taskOver h (task 0 .ready) = false := by decide +kernel
theorem test_premises_SheetAndTaskSteps_seal : let h := { withTasks [task 0 .ended] with sealJob := some (1#64, 0) }
    (shs h 0).sheet? 1 = some h ∧ h.sealJob.isSome = true ∧ h.st = .running ∧ (shs h 0).tasksOver h = true ∧ (shs h 0).stalled ((shs h 0).sealCluster h) 6 = false := by decide +kernel
/-- The same while the seal class of the cluster, without SPILL, has used its power. -/
theorem test_premises_SheetAndTaskSteps_sealWaits : let h := { withTasks [task 0 .ended] with sealJob := some (1#64, 0) }
    let c : Cluster := { Cluster.init with budgets := resetBudgets.modify 6 fun b => { b with used := [0, 0, 8 * 120000], spill := false } }
    let s : State := { shs h 0 with clusters := [(0, c)] }
    s.sheet? 1 = some h ∧ s.tasksOver h = true ∧ s.stalled (s.sealCluster h) 6 = true := by decide +kernel
theorem test_premises_SheetAndTaskSteps_retire : let h := withTasks [task 0 .ended]
    (shs h 0).sheet? 1 = some h ∧ (shs h 0).firstOfQueue h = true ∧ h.check = false ∧ (shs h 0).retirable h = true ∧ h.st ≠ .done ∧
    (∀ g ∈ (shs h 0).groups, g.sheet ≠ 1) ∧ (shs h 0).queue? h.queue = some { queue with wake := 0 } ∧ h.rerun = none ∧
    (shs h 0).sealOutOk h = true := by decide +kernel
theorem test_premises_SheetAndTaskSteps_records : let h := { withTasks [task 0 .ended] with st := .sealed, sealJob := some (4096#64, 0), seals := [{ num := 15, closed := true }] }
    (shs h 0).sheet? 1 = some h ∧ h.st = .sealed ∧ h.rerun = none ∧ (shs h 0).sealOutOk h = false := by decide +kernel
theorem test_premises_SheetAndTaskSteps_behind : let h := { sheet with id := 2, seq := 1 }
    ({ s0 with sheets := [sheet, h] } : State).sheet? 2 = some h ∧ ({ s0 with sheets := [sheet, h] } : State).firstOfQueue h = false := by decide +kernel
theorem test_premises_SheetAndTaskSteps_unmap : (∀ h ∈ (shs (newSheet 0 0) 0).sheets, h.queue = 1 → h.st = .accepted ∧ h.replays = 0) ∧
    (∃ h ∈ s0.sheets, h.queue = 1 ∧ (h.st ≠ .accepted ∨ h.replays ≠ 0)) ∧
    ∃ h ∈ (shs { newSheet 0 0 with replays := 1 } 0).sheets, h.queue = 1 ∧ (h.st ≠ .accepted ∨ h.replays ≠ 0) := by decide +kernel

/-- The sheet with one dispatched task that has a team to place. -/
def placing : Sheet := withTasks [task 0 .ready]
theorem test_premises_PlacementSteps_team : (shs placing 0).sheet? 1 = some placing ∧ placing.st = .running ∧ placing.check = false ∧ placing.spawnWait = [] ∧
    placing.pending = some (task 0 .ready) ∧ (shs placing 0).task? 1 0 = some (task 0 .ready) ∧ placing.gangPending = false ∧
    (shs placing 0).outranked placing = false ∧ placing.rerun = none ∧ (shs placing 0).ckptStop = false ∧
    ∃ u v, (shs placing 0).unitFor placing (task 0 .ready) = some u ∧ (shs placing 0).placeTeam (launchOf placing (task 0 .ready)) u = some v := by
  refine and10 (by decide +kernel) ⟨[0], ?_⟩
  obtain ⟨v, h⟩ := Option.isSome_iff_exists.mp (show ((shs placing 0).placeTeam (launchOf placing (task 0 .ready)) [0]).isSome = true by decide +kernel)
  exact ⟨v, by decide +kernel, h⟩
theorem test_premises_PlacementSteps_stopped : (shs { placing with check := true } 0).sheet? 1 = some { placing with check := true } ∧
    (shs (newSheet 0 0) 0).sheet? 1 = some (newSheet 0 0) := by decide +kernel
def gangH : Sheet := { placing with gang := true }
theorem test_premises_PlacementSteps_gang : (shs gangH 0).sheet? 1 = some gangH ∧ gangH.pending = some (task 0 .ready) ∧ gangH.st = .running ∧
    gangH.gangPending = true ∧ gangH.check = false ∧ (shs gangH 0).ckptStop = false ∧ (shs gangH 0).outranked gangH = false ∧
    ∃ us v, (shs gangH 0).gangUnits gangH (task 0 .ready) = some us ∧ (shs gangH 0).placeAll 1 us = some v := by
  refine and7 (by decide +kernel) ⟨[[0]], ?_⟩
  obtain ⟨v, h⟩ := Option.isSome_iff_exists.mp (show ((shs gangH 0).placeAll 1 [[0]]).isSome = true by decide +kernel)
  exact ⟨v, by decide +kernel, h⟩
def wideGang : Sheet := { gangH with tasks := [{ task 0 .ready with teams := 225 }] }
theorem test_premises_PlacementSteps_noRoom : (shs wideGang 0).sheet? 1 = some wideGang ∧ wideGang.pending = some { task 0 .ready with teams := 225 } ∧
    (shs wideGang 0).gangUnits wideGang { task 0 .ready with teams := 225 } = none := by decide +kernel
/-- A team that has waited for two ageing times, and one whose levels stand as high. -/
theorem test_premises_PlacementSteps_ageing : ∀ n ∈ [0, 2], let h := { placing with ageing := n, ageTask := 0 }
    let s := { shs h 0 with time := 200 }
    s.sheet? 1 = some h ∧ h.pending = some (task 0 .ready) ∧ h.st = .running ∧ decide (h.levels 0 < min 3 ((s.time - (task 0 .ready).wait) / (100 * h.age))) = decide (n = 0) := by
  decide +kernel
theorem test_premises_PlacementSteps_reservation : let s := { shs wideGang 0 with time := 401 }
    s.gangHead wideGang = true ∧ 400 * wideGang.age < s.time - (task 0 .ready).wait ∧ ∀ e ∈ s.reserved, e.1 ≠ wideGang.id := by decide +kernel
theorem test_premises_PlacementSteps_balancer : ({ s0 with balanceAt := 1 } : State).time < 1 ∧ s0.balanceAt ≤ s0.time := by decide +kernel
theorem test_premises_PlacementSteps_migration : ({ s0 with commands := [moveCommand 1 1 0] } : State).commands[0]? = some (moveCommand 1 1 0) ∧
    ((({ s0 with cores := [(0, { fwd := [(7, 3)] })] } : State).core 0).fwd.find? fun e => e.1 == 7) = some (7, 3) := by decide +kernel

/-! ### Surveyors -/

/-- The group in a call of its lanes 0 to 3: slot 0 at 268,439,552, number n, arguments `as` of every lane. -/
def theCall (n : Nat) : CallRec := { slot := 0, form := 1, active := 0xF#64, dest := 4, pc := 65536#64, callno := n, popped := true, passed := 0xF#64 }
def callMem (as : List Nat) : Mem :=
  (List.range 4).foldl (fun m L => m.store (0x10001080 + 32 * L) (as.flatMap (leBytes 8))) []
def callG (n : Nat) : Group :=
  { grp [] with calls := [theCall n], lanes := List.replicate 4 { pc := 65536#64, wp := 65536#64, wait := .call 0 } ++ List.replicate 12 {} }
def callS (n : Nat) (as : List Nat) (v : Surveyor) : State := { machine (callG n) team with mem := callMem as, survs := [(0, v)], cur := none }
def sv0 : Surveyor := Surveyor.init 0
theorem test_premises_SurveyorQueues_callq : let d : Desc := { slot := 5, type := 1 }
    (({ s0 with survs := [(0, { sv0 with heldq := [d] })] } : State).surv 0).heldq = [d] ∧ (s0.surv 0).callq = [] ∧
    (({ s0 with survs := [(0, { sv0 with callq := [d] })] } : State).surv 0).callq = [d] ∧ d.type ≠ 4 ∧ ({ d with type := 4 } : Desc).type = 4 ∧
    isAgent 0 = true ∧ isAgent 64 = true ∧ isAgent 15 = false := by decide +kernel
theorem test_premises_SurveyorQueues_noCall : s0.callAt (lowField 0x10001000#64 12 40 * 4096) = none := by decide +kernel
theorem test_premises_SurveyorQueues_reply : let s := callS 1 [] { sv0 with replyMask := 0xF#64 }
    s.callAt (lowField 0x10001000#64 12 40 * 4096) = some (callG 1, theCall 1) ∧ s.grp? 1 = some (callG 1) ∧ (theCall 1).form = 1 ∧ (callG 1).st ≠ .saved ∧
    (s.surv 0).replyMask = (theCall 1).active ∧ (theCall 1).active ≠ 0#64 ∧ (theCall 1).answered = 0#64 ∧
    (s.sheet? (callG 1).sheet).map (·.capture) = some false ∧ (∀ L, L < 64 → 16 ≤ L → (theCall 1).active.getLsbD L = false) ∧
    (∀ L, L < 16 → (theCall 1).active.getLsbD L = true → ((callG 1).lane L).wait = .call 0 ∧ ((callG 1).lane L).exited = false) ∧
    (callG 1).shaped = true := by decide +kernel
def ready (n : Nat) : State :=
  { s0 with survs := [(0, { sv0 with txDst := 256, sent := [(1, { data := 9#64, port := 3, kind := 7 })] }),
                      (1, { Surveyor.init 1 with mbox := List.replicate 16 (List.replicate n { data := 0#64, kind := 7 }) })] }
theorem test_premises_SurveyorQueues_sends : (ready 15).txBusy 0 = false ∧ ((ready 15).surv 0).txDst / 256 % 64 < 56 ∧ (ready 16).txBusy 0 = true ∧ s0.txBusy 64 = false ∧
    56 ≤ (({ s0 with survs := [(0, { sv0 with txDst := 56 * 256 })] } : State).surv 0).txDst / 256 % 64 := by
  decide +kernel
theorem test_premises_SurveyorQueues_delivery : (ready 15).mboxNext 0 = some (0, 1, { data := 9#64, port := 3, kind := 7 }) ∧
    ((ready 16).surv 0).mbox.getD 3 [] = [] ∧ ((ready 1).surv 1).mbox.getD 3 [] = [{ data := 0#64, kind := 7 }] := by decide +kernel
theorem test_premises_SurveyorQueues_took : let m : Msg := { data := 0x10001000#64, port := 3, kind := 7 }
    s0.callAt (m.data.toNat / 4096 * 4096) = none ∧ ((callS 1 [] sv0).callAt (m.data.toNat / 4096 * 4096)).isSome = true ∧ msg1.kind ≠ 7 := by decide +kernel
/-- A call on descriptor 7 · 2^24, which shard 7 owns: read, and then sent. -/
def passS (x : Bool) : State :=
  { callS 0x21 [7 * 2 ^ 24] sv0 with groups := [{ callG 0x21 with calls := [{ theCall 0x21 with sent := if x then 1#64 else 0#64 }] }] }
theorem test_premises_SurveyorQueues_pass : ∀ x : Bool, ((passS x).callAt 0x10001000).any (fun e => e.2.popped && (passS x).performs e.2 0x10001000 0 &&
      !e.2.served.getLsbD 0 && (e.2.sent.getLsbD 0 == x) && shardOfCluster (clusterOf e.1.core) == 0 &&
      (passS x).callOwner e.1.asn 0 e.2.callno ((passS x).mem.callArgs 0x10001000 0) == 7) = true ∧
    (passS x).survOfShard 0 = some 0 ∧ ((passS x).surv 0).passes = [] := by decide +kernel
/-- A pass whose call is gone; whose call is served, or not. -/
theorem test_premises_SurveyorQueues_passed : let p : Pass := { word := 0x10001000#64, callno := 0x21, home := 0, seq := 0 }
    let v := { sv0 with passes := [p] }
    (v.passes.find? fun p => p.word == BitVec.ofNat 64 (0x10001000 + 0)) = some p ∧ ({ s0 with survs := [(0, v)] } : State).callAt 0x10001000 = none ∧
    ((callS 0x21 [] v).callAt 0x10001000).any (fun e => e.2.seq == p.seq && !e.2.served.getLsbD 0) = true ∧
    ((callS 0x21 [] v).callAt 0x10001000).any (fun e => e.2.seq != { p with seq := 1 }.seq) = true := by decide +kernel

theorem test_premises_SurveyorUnits_copy : let v := { sv0 with ccDst := 0x10001000#64, ccSrc := 4096#64 }
    let s := callS 1 [] v
    let w : DWord := BitVec.ofNat 64 (512 + 15 * 2 ^ 20)
    (s.surv 0).ccJob = none ∧ s.callAt (lowField v.ccDst 12 40 * 4096) = some (callG 1, theCall 1) ∧ s.team? 1 = some team ∧ team.exited = false ∧
    lowField w 0 20 = 512 ∧ lowField v.ccSrc 0 52 % 16 = 0 ∧ paMapped s.pool (lowField v.ccSrc 0 52) = true ∧ 512 * lowField w 20 12 + 512 ≤ team.s ∧
    team.anyAbsent [15] = false ∧ team.failed = [] ∧ lowField 511#64 0 20 % 512 ≠ 0 ∧ isAgent 0 = true := by decide +kernel
theorem test_premises_SurveyorUnits_done : ∀ out ∈ [true, false], let j : CopyJob := { team := 1, rid := 5, pa := 4096, off := 0, len := 512, out, slot := 0x10001000 }
    let s := callS 1 [] { sv0 with ccJob := some j }
    (s.surv 0).ccJob = some j ∧ s.team? 1 = some team ∧ team.bad = [] ∧ s.bad = [] ∧ s.stalled (s.clusterAt 0) 4 = false := by decide +kernel
def nvmeS (st : Nat) : State :=
  { s0 with nvme := [(0, { outstanding := [(st, 2, 65536, 0, 0)] })], survs := [(0, { sv0 with mbox := List.replicate 16 (List.replicate st { data := 0#64, kind := 8 }) })] }
theorem test_premises_SurveyorUnits_nvme : ∀ n ∈ [0, 15, 16],
    ((getK (nvmeS n).nvme NvmePair.init 0).outstanding.find? fun c => c.1 == n) = some (n, 2, 65536, 0, 0) ∧ (nvmeS n).survOfShard (0 % 56) = some 0 ∧
    (((nvmeS n).surv 0).mbox.getD 15 []).length = n ∧ ((nvmeS n).surv 0).heldCount < Config.heldEntries ∧ (nvmeS n).stalled ((nvmeS n).clusterAt 0) 4 = false := by decide +kernel
/-- Reads and writes of one block of either size, those that fail, flushes and deallocations. -/
theorem test_premises_SurveyorUnits_nvmeEnds : ∀ e ∈ [(2, 0, 512), (2, 0, 4096), (1, 0, 512), (2, 1, 0), (0, 0, 0), (9, 0, 0)],
    nvmeEnds e.1 0 e.2.1 e.2.2 = true := by decide
/-- The held lists have no room either. -/
theorem test_premises_SurveyorUnits_nvmeHeld : let v : Surveyor := { sv0 with mheld := List.replicate 15 [] ++ [List.replicate 4096 { data := 0#64, kind := 8 }] }
    Config.heldEntries ≤ v.heldCount := by decide +kernel
theorem test_premises_SurveyorUnits_eth : (1023 : Nat) < 1024 ∧ (List.replicate 9216 0#8).length ≤ 9216 ∧ s0.survOfShard (1023 % 56) = some 17 ∧ s0.stalled (s0.clusterAt 17) 4 = false := by
  refine ⟨by decide, le_of_eq List.length_replicate, by decide +kernel⟩
/-- The I/O class has used its power and may not take what others leave. -/
def noIo : Cluster := { Cluster.init with budgets := resetBudgets.modify 4 fun b => { b with used := [0, 0, 7500], spill := false } }
theorem test_premises_SurveyorUnits_stalled : let s : State := { s0 with clusters := [(0, noIo)] }
    s.stalled (s.clusterAt 0) 4 = true ∧ s.survOfShard (0 % 56) = some 0 := by decide +kernel

/-! ### Kernel calls -/

/-- What `Serving` asks of call number n of the group, served for lane 0. -/
def callOf (n : Nat) (s : State) : Call := { g := callG n, c := theCall n, pa := 0x10001000, lane := 0, args := s.mem.callArgs 0x10001000 0 }
def canServe (n : Nat) (s : State) (m : Bool) : Bool :=
  decide (s.callAt 0x10001000 = some (callG n, theCall n)) && (s.ledLanes 0x10001000 0 m (theCall n)).getLsbD 0 && s.reached (callOf n s) && s.inTurn (callOf n s) &&
  ((s.sheet? 1).bind (·.rerun)).isNone
theorem serving_of {n : Nat} {s : State} {m : Bool} (h : canServe n s m = true) :
    Serving s 0x10001000 0 n (callOf n s) (s.ledLanes 0x10001000 0 m (theCall n)) m := by
  simp only [canServe, Bool.and_eq_true, decide_eq_true_eq, Option.isNone_iff_eq_none] at h
  obtain ⟨⟨⟨⟨found, led⟩, reached⟩, turn⟩, live⟩ := h
  exact { found, at_ := ⟨rfl, rfl, rfl⟩, number := rfl, due := by simp [callOf, theCall], lanes := ⟨rfl, led⟩, reached, turn, live }
/-- The call numbers, each with whether equal lanes merge and its arguments. -/
def calls : List (Nat × Bool × List Nat) :=
  [(1, true, []), (2, false, [5]), (0x10, false, [65536, 65536]), (0x11, true, [2 ^ 28]), (0x20, true, [65536, 3]), (0x20, true, [65536, 4]),
   (0x21, true, [3]), (0x22, true, [3, 65536, 512, 0]), (0x22, true, [3, 2 ^ 63, 512, 0]), (0x22, true, [3, 2 ^ 63, 511, 0]), (0x22, true, [4]),
   (0x23, true, [3, 65536, 4, 0]), (0x24, true, [3]), (0x30, false, [0, 65536, 4]), (0x31, false, [0, 65536, 4]), (0x40, false, [3]),
   (0x41, false, [1, 0]), (0x41, false, [1, 2 ^ 41]), (0x42, false, [1, 9, 1]), (0x42, false, [1, 9, 0]), (0x42, false, [1, 9, 2]),
   (0x50, false, [1, 65536, 64, 0]), (0x51, true, [3 * 2 ^ 48]), (0x60, false, [65536, 4, 65536]), (0x70, false, [2 ^ 48, 769 * 2 ^ 30]),
   (0x71, false, [1, 0, 65536]), (0x71, false, [1, 0, 0]), (0x72, false, [0]), (0x72, false, [1]), (0x8000, false, []), (3, false, []), (0x7FFF, false, [])]
/-- The tables of address space 0 beside a call's arguments; a queue, a file that is open, an administrative address space. -/
def kernS (n : Nat) (as : List Nat) : State :=
  { callS n as sv0 with
    mem := tables (callMem as), roots := [(0, 0x20000)], utcValid := true, files := [{ inode := 56, path := [], len := 600 }]
    fds := [{ fd := 3, asn := 0, sheet := 1, inode := 56, write := true }], sockets := [{ num := 0, rx := [[1#8, 2#8]] }]
    allocs := [{ asn := 0, sheet := 1, va := 2 ^ 28, len := 65536 }], owner := { adminAsns := [0] }
    sheets := [{ sheet with windows := [{ entry := 3, isImport := true, module := 1, base := 4, len := 64 }] }] }
theorem test_premises_KernelCalls_serving : ∀ e ∈ calls, ∃ x led, Serving (kernS e.1 e.2.2) 0x10001000 0 e.1 x led e.2.1 := by
  have h : ∀ e ∈ calls, canServe e.1 (kernS e.1 e.2.2) e.2.1 = true := by decide +kernel
  exact fun e he => ⟨_, _, serving_of (h e he)⟩
theorem test_premises_KernelCallsOnData_admin : (callOf 2 s0).admin s0 = false ∧ (callOf 2 (kernS 2 [5])).admin (kernS 2 [5]) = true ∧ s0.utcValid = false ∧
    (kernS 1 []).utcValid = true := by decide +kernel
/-- 256 MiB at 2^28, which shards of die 1 serve, in that die's memory. -/
def big : MapReq := { va := 2 ^ 28, pa := 2 ^ 38, level := 2, perm := 3, nodes := [] }
theorem test_premises_KernelCallsOnData_alloc : let s := kernS 0x10 [65536, 65536]
    let x := callOf 0x10 s
    alignOk (x.num 1) = true ∧ x.num 0 ≠ 0 ∧ 2 ^ 28 % x.num 1 = 0 ∧ 2 ^ 28 + x.num 0 ≤ 2 ^ 57 ∧ (∀ p ∈ pagesOf (2 ^ 28) (x.num 0), (s.walk 0 p).isNone = true) ∧
    ((s.mapServed 0 [big]).bind fun u => u.asnSegs 0 (2 ^ 28) (x.num 0)).isSome = true ∧ (s.mapServed 0 [{ big with level := 3 }]).isNone = true := by
  decide +kernel
theorem test_premises_KernelCallsOnData_free : let s := kernS 0x11 [2 ^ 28]
    (s.allocs.find? fun b => b.asn == 0 && b.va == (callOf 0x11 s).num 0) = some { asn := 0, sheet := 1, va := 2 ^ 28, len := 65536 } := by decide +kernel
def isPath (r : Except DWord (List Byte)) : Bool :=
  match r with
  | .ok p => p.isEmpty
  | .error _ => false
theorem isPath_iff {r : Except DWord (List Byte)} (h : isPath r = true) : r = .ok [] := by
  cases r with
  | ok p => cases p <;> simp_all [isPath]
  | error d => simp [isPath] at h
theorem test_premises_KernelCallsOnData_open : let s := kernS 0x20 [65536, 3]
    let x := callOf 0x20 s
    x.num 1 < 4 ∧ s.pathAt 0 (x.num 0) = .ok [] ∧ (s.files.find? fun f => f.path == []) = some { inode := 56, path := [], len := 600 } ∧
    (s0.files.find? fun f => f.path == []) = none ∧ (x.arg 1).getLsbD 1 = true ∧ (callOf 0x20 (kernS 0x20 [65536, 1])).arg 1 = 1#64 ∧
    4 ≤ (callOf 0x20 (kernS 0x20 [65536, 4])).num 1 :=
  ⟨by decide +kernel, isPath_iff (by decide +kernel), by decide +kernel⟩
theorem test_premises_KernelCallsOnData_read : let f : Fd := { fd := 3, asn := 0, sheet := 1, inode := 56, write := true }
    let s := kernS 0x22 [3, 65536, 512, 0]
    let x := callOf 0x22 s
    s.fdOf x = some f ∧ s.fileOf f = some { inode := 56, path := [], len := 600 } ∧ (x.arg 1).msb = false ∧
    (s.callStore x (x.num 1) (Mem.bulk [] (x.num 3) (min (x.num 2) (600 - x.num 3)))).isSome = true ∧
    (kernS 0x22 [4]).fdOf (callOf 0x22 (kernS 0x22 [4])) = none := by decide +kernel
/-- Every page that the calls on files, sockets and objects touch is mapped. -/
theorem test_premises_KernelCallsOnData_pages : let s := kernS 0x22 [3, 65536, 512, 0]
    (∀ e ∈ ((s.pathNeeds 0 65536) ++ [(65536, 512), (65536, 4), (65536, 32)]), s.absentPages 0 e.1 e.2 = []) ∧ s.absentPages 0 (2 ^ 28) 4 ≠ [] := by decide +kernel
theorem test_premises_KernelCallsOnData_scratch : ∀ e ∈ [(512, true), (511, false)], let x := callOf 0x22 (kernS 0x22 [3, 2 ^ 63, e.1, 0])
    (x.arg 1).msb = true ∧ scratchOk (x.arg 1) (x.num 2) = e.2 ∧ s0.bufFree 65536 (x.num 2) = true ∧
    ({ s0 with buffers := [(65600, 64)] } : State).bufFree 65536 (x.num 2) = false := by decide +kernel
theorem test_premises_KernelCallsOnData_write : let s := kernS 0x23 [3, 65536, 4, 0]
    let x := callOf 0x23 s
    (x.arg 1).msb = false ∧ ((s.sheet? 1).map (·.immio)) = some false ∧ (s.asnLoad 0 (x.num 1) (x.num 2)).isSome = true ∧
    (({ s with sheets := [immio] } : State).sheet? 1).map (·.immio) = some true ∧
    canServe 0x23 { s with sheets := [immio] } true = true := by decide +kernel
/-- A scratchpad buffer whose outbound copy to 4,096 has run, and the same call before it has. -/
theorem test_premises_KernelCallsOnData_copied : let s := kernS 0x23 [3, 2 ^ 63, 512, 0]
    let x := callOf 0x23 s
    x.copyRun 4096 512 = false ∧ ({ x with c := { x.c with copied := [(0, 4096, 512)] } } : Call).copyRun 4096 512 = true ∧ scratchOk (x.arg 1) 512 = true ∧
    (s.fdOf x).any (·.write) = true ∧ canServe 0x23 s true = true := by decide +kernel
theorem test_premises_KernelCallsOnData_sockets : let s := kernS 0x31 [0, 65536, 4]
    let x := callOf 0x31 s
    (s.sockRx (x.num 0)).take (min 4 (x.num 2)) = [1#8, 2#8] ∧ (s.callStore x (x.num 1) [1#8, 2#8]).isSome = true ∧
    x.num 0 < 1024 ∧ (s.asnLoad 0 (x.num 1) (min 4 (x.num 2))).isSome = true ∧ canServe 0x30 { kernS 0x30 [0, 65536, 4] with sheets := [immio] } false = true := by
  decide +kernel
theorem test_premises_KernelCallsOnSystem_queues : let s := kernS 0x41 [1, 2 ^ 41]
    let x := callOf 0x41 s
    s.queueNumOk 4096 = true ∧ s.subPageOk 0 (2 ^ 30) = true ∧ x.proc s = some 1 ∧ x.queue s (x.num 0) = some queue ∧ x.num 1 ≠ 0 ∧ x.num 1 % 8 = 0 ∧
    (callOf 0x42 (kernS 0x42 [7])).queue (kernS 0x42 [7]) ((callOf 0x42 (kernS 0x42 [7])).num 0) = none ∧ canServe 0x42 (kernS 0x42 [7]) false = true := by
  decide +kernel
/-- The same tables, whose one leaf stands at a host address. -/
def hostS : State := { kernS 0x41 [1, 8] with mem := Mem.store (tables (callMem [1, 8])) 0x31000 (leBytes 8 (8 * 2 ^ 48 + 15)) }
theorem test_premises_KernelCallsOnSystem_doorbell : ∃ a, hostS.asnPa 0 ((callOf 0x41 hostS).num 1) true = some a ∧ paHost a = true ∧
    canServe 0x41 hostS false = true := by
  obtain ⟨a, h⟩ := Option.isSome_iff_exists.mp (show ((hostS.asnPa 0 ((callOf 0x41 hostS).num 1) true).filter paHost).isSome = true by decide +kernel)
  exact ⟨a, (Option.filter_eq_some_iff.mp h).1, by simpa using (Option.filter_eq_some_iff.mp h).2, by decide +kernel⟩
theorem test_premises_KernelCallsOnSystem_windows : let s := kernS 0x50 [1, 65536, 64, 0]
    let x := callOf 0x50 s
    (∀ h ∈ s.sheets, ∀ w ∈ h.windows, w.entry ≠ 65535) ∧ (∀ h ∈ s.sheets, h.windows.length < 256) ∧ x.num 0 = 1 ∧ lowField (x.arg 3) 0 48 = 0 ∧
    lowField (x.arg 3) 48 16 < 64 ∧ (s.asnSegs 0 (x.num 1) (x.num 2)).isSome = true ∧ x.num 1 + x.num 2 ≤ 2 ^ 57 ∧
    ((s.sheets.flatMap (·.windows)).find? fun w => w.entry == (callOf 0x51 (kernS 0x51 [3 * 2 ^ 48])).num 0 / 2 ^ 48).isSome = true := by decide +kernel
theorem test_premises_KernelCallsOnSystem_load : let s := kernS 0x60 [65536, 4, 65536]
    let x := callOf 0x60 s
    (s.asnLoad 0 (x.num 0) (x.num 1)) = some [0#8, 0#8, 0#8, 0#8] ∧
    ((s.load 0 [0#8, 0#8, 0#8, 0#8] []).2.callStore x (x.num 2) (s.load 0 [0#8, 0#8, 0#8, 0#8] []).1.bytes).isSome = true := by decide +kernel
/-- An object whose page is absent; a host process that is no administrative one, and not the queue's. -/
theorem test_premises_KernelCallsOnSystem_absent : let s := kernS 0x60 [2 ^ 28, 4, 65536]
    canServe 0x60 s false = true ∧
    ((s.absentPages 0 (2 ^ 28) 4 ++ s.absentPages 0 65536 32).filter fun p => !(callOf 0x60 s).c.replied.contains p) ≠ [] ∧
    7 ∉ s.owner.adminAsns ∧ ∀ q ∈ s.queues, q.num = 1 → q.proc ≠ 7 := by decide +kernel
theorem test_premises_KernelCallsOnSystem_registrations : let x := callOf 0x70 (kernS 0x70 [2 ^ 48, 769 * 2 ^ 30])
    x.admin (kernS 0x70 []) = true ∧ x.admin s0 = false ∧ paPool (x.num 0) = true ∧ x.num 0 < 2 ^ 52 ∧ x.num 0 % 2 ^ 30 = 0 ∧ 769 * 2 ^ 30 ≤ x.num 1 ∧
    (3 : Nat) ∉ tableCalls ∧ (0x8000 : Nat) ∉ tableCalls := by decide +kernel
/-- An earlier call of the group that its shard has not served. -/
def twoCalls : State :=
  let c : CallRec := { theCall 0x21 with slot := 1, form := 2, seq := 1 }
  { kernS 1 [] with groups := [{ callG 1 with calls := [{ theCall 1 with seq := 2 }, { c with callno := 1 }] }] }
theorem test_premises_KernelCallsOnSystem_turn : (twoCalls.callAt 0x10001000).any (fun e =>
    !twoCalls.inTurn { g := e.1, c := e.2, pa := 0x10001000, lane := 0, args := twoCalls.mem.callArgs 0x10001000 0 }) = true := by decide +kernel

/-! ### Group control, rollback, wear, trust -/

def rs0 : State := { s0 with cur := none }
/-- A group with one vector register that holds 0, so that its frame holds little. -/
def tiny : Group := { grp [] with vcount := 1, scount := 0, matrix := false, vregs := [List.replicate 16 0#32], sregs := [], preds := List.replicate 15 0#64 }
def tinyS : State := { rs0 with groups := [tiny] }
def frameW : DWord := 0x10000000#64
/-- The group held after a break; saved by a preemption; held when every context is in use. -/
def heldG : Group := { tiny with st := .saved, frameHeld := true, save := { cause := .break, fstate := 3, subset := 0xFFFF#64, fpc := 65536#64 } }
def savedG : Group := { tiny with st := .saved, save := { cause := .preempt, fstate := 2 } }
/-- A saved group, and the head of its frame. -/
def frameS (g : Group) : State :=
  { rs0 with groups := [g], mem := headed g }
def heldS : State := frameS heldG
def savedS : State := frameS savedG
def fullS : State := { heldS with groups := heldG :: (List.range 96).map fun n => { tiny with id := 100 + n, team := 2, sheet := 2, ctx := n, frame := 0x20000000 } }
theorem test_premises_GroupControl_resident : (rs0.surv 0).gctlStat ≠ 1 ∧ rs0.named 0 0x20000000#64 = none ∧ rs0.named 0 frameW = some (grp []) ∧ rs0.named 0 0#64 = some (grp []) ∧ (lowField 0#64 12 40 != 0) = false ∧
    gctlNames 1 true (grp []) = false ∧ gctlNames 4 false (grp []) = false ∧ rs0.ckptStop = false ∧
    (grp []).st ≠ .saved ∧ (grp []).st ≠ .dropped := by decide +kernel
theorem test_premises_GroupControl_dropped : ({ rs0 with groups := [(grp []).drop] } : State).named 0 0#64 = some (grp []).drop ∧
    (grp []).drop.st = .dropped ∧ ∀ L, L < 16 → ((grp []).lane L).exited = false := by decide +kernel
theorem test_premises_GroupControl_held : heldS.named 0 frameW = some heldG ∧ (lowField frameW 12 40 != 0) = true ∧ heldS.ckptStop = false ∧ heldG.st = .saved ∧ heldG.inspectable = true ∧
    heldG.frameIntact heldS.mem = true ∧ heldG.frameHeld = true ∧ heldS.sheet? heldG.sheet = some sheet ∧
    (∀ act ∈ [4, 5, 6], (heldS.restoreGroup heldG (Group.onRestore act)).isSome = true) := by decide +kernel
theorem test_premises_GroupControl_full : fullS.named 0 frameW = some heldG ∧ heldG.inspectable = true ∧ heldG.frameIntact fullS.mem = true ∧
    ∀ act ∈ [4, 5, 6], (fullS.restoreGroup heldG (Group.onRestore act)).isNone = true := by decide +kernel
theorem test_premises_GroupControl_broken : let s : State := { heldS with mem := heldS.mem.store 0x10000000 [0#8] }
    s.named 0 frameW = some heldG ∧ heldG.frameIntact s.mem = false := by decide +kernel
theorem test_premises_GroupControl_saved : savedS.named 0 frameW = some savedG ∧ savedG.st = .saved ∧ savedG.frameHeld = false ∧ savedG.save.cause = .preempt ∧
    savedG.faults = [] ∧ savedG.frameIntact savedS.mem = true ∧ (savedS.restoreGroup savedG (Group.onRestore 3)).isSome = true ∧
    savedS.justFaulted savedG = false := by decide +kernel
/-- A RESUME that pages, or a reply, hold. -/
theorem test_premises_GroupControl_waits : let g := { savedG with faults := [theFault 0] }
    let h := { tiny with st := .saved, save := { cause := .evict, fstate := 1, waitc := 5 } }
    (frameS g).named 0 frameW = some g ∧ g.faults ≠ [] ∧ (frameS h).named 0 frameW = some h ∧ h.awaitsReply = true ∧ savedG.awaitsReply = false ∧
    (rs0.surv 0).gctlStat ≠ 1 ∧ isAgent 0 = true := by decide +kernel
theorem test_premises_GroupControl_pending : (({ rs0 with survs := [(0, { sv0 with gctlStat := 1 })] } : State).surv 0).gctlStat = 1 := by decide +kernel

def failed (immio : Bool) : Sheet := { sheet with check := true, immio, snaps := [(65536, [7#8])] }
theorem test_premises_RollbackAndCheckpoint_rollback : ∀ b ∈ [true, false], let s : State := { rs0 with sheets := [failed b] }
    s.sheet? 1 = some (failed b) ∧ (failed b).check = true ∧ (failed b).st ≠ .done ∧ (∀ a ∈ s.allocs, a.sheet ≠ 1) ∧ (failed b).noReplay = false ∧
    (failed b).replays < 3 := by decide +kernel
def regS (stop : Bool) (t : Team) : State :=
  { rs0 with ckptReg := some (2 ^ 48, 769 * 2 ^ 30), ckptStop := stop, groups := [], teams := [t], owner := { rootPorts := [0] } }
theorem test_premises_RollbackAndCheckpoint_checkpoint : rs0.ckptReg = none ∧ rs0.owner.rootPorts = [] ∧ (∀ b ∈ [true, false], (regS b team).owner.rootPorts ≠ [] ∧
    (regS b team).ckptStalled = false) ∧ (regS true team).ckptReg = some (2 ^ 48, 769 * 2 ^ 30) ∧ (regS false team).ckptStop = false ∧
    (regS true team).ckptStop = true ∧ (regS true team).quiet = true ∧ (regS true team).groups = [] ∧
    (regS true { team with rounds := [{ id := 7, stage := none, jobs := [] }] }).quiet = false := by decide +kernel
def ckpt : Ckpt :=
  { base := 2 ^ 48, groups := [], teams := [team], sheets := [sheet], queues := [queue], roots := [], bins := [], msgs := [], reserved := []
    poolFree := [], poolNext := 0, freeing := [], allocs := [], fds := [], snapUsed := 0, faultDescs := [] }
theorem test_premises_RollbackAndCheckpoint_restore : rs0.ckpt = none ∧ ({ rs0 with ckpt := some ckpt } : State).ckpt = some ckpt ∧ ckpt.groups = [] := by
  decide +kernel
theorem test_premises_RollbackAndCheckpoint_rerun : let q : Queue := { queue with capRec := [.page 65536 [7#8]] }
    let s : State := { shs (newSheet 0 0) 0 with queues := [q] }
    s.queue? 1 = some q ∧ s.sheet? 1 = some (newSheet 0 0) ∧ (newSheet 0 0).queue = q.num ∧ (newSheet 0 0).st = .accepted ∧ q.capRec ≠ [] := by decide +kernel

theorem test_premises_WearAndBudgets_report : s0.time < s0.wearAt ∧ ({ s0 with time := 1000000 } : State).wearAt ≤ 1000000 ∧ (s0.core 0).charges = [] ∧ (s0.core 0).checks = [] ∧ (999 : Nat) < 1000 ∧ (69 : Nat) < 70 := by decide +kernel
/-- A group of the cluster within a chain, and none. -/
theorem test_premises_WearAndBudgets_breaks : ({ s0 with groups := [{ grp [] with chain := some (0xFFFF#64, 65536#64) }] } : State).atBreaks 0 = false ∧ s0.atBreaks 0 = true := by decide +kernel
theorem test_premises_WearAndBudgets_lanemap : let hs : List Half := [{ lost := true }, {}, {}, {}]
    (s0.core 0).nextHalves = none ∧ (({ goneS with groups := [], cores := [(0, { nextHalves := some hs })] } : State).core 0).nextHalves = some hs := by
  decide +kernel
theorem test_premises_WearAndBudgets_retire : (({ s0 with groups := [], cores := [(0, { wst := .drained })] } : State).core 0).wst = .drained ∧
    (s0.core 0).wst ≠ .drained ∧ (s0.core 0).bins = [] ∧ ∃ b : Bin, (({ s0 with cores := [(0, { bins := [b] })] } : State).core 0).bins ≠ [] :=
  ⟨by decide +kernel, by decide +kernel, by decide +kernel, { sheet := 1, task := 0, entry := 65728#64, hdr := childHdr, args := [], start := 0, order := 0 }, by decide +kernel⟩
theorem test_premises_WearAndBudgets_scrub : ({ s0 with bad := [65536 / 4] } : State).badRead 65536 65536 = true ∧
    (∀ e ∈ List.replicate 64 ((5, 0) : Nat × Nat), e.1 = 5 ∧ (0 : Nat) < e.2 + day) ∧ (List.replicate 64 ((5, 0) : Nat × Nat)).length = 64 := by
  decide +kernel
theorem test_premises_WearAndBudgets_moves : s0.mappers 65536 = [] ∧ ({ base := 65536, dst := 131072, bits := 16, ticket := 1, leaves := [] } : PageMove).leaves = [] := by
  decide +kernel
theorem test_premises_WearAndBudgets_period : let s : State := { s0 with cores := [(0, { cycle := 8192#64 })] }
    (s.cluster 0).period < s.periodOf 0 ∧ s0.periodOf 0 ≤ (s0.cluster 0).period := by decide +kernel

theorem test_premises_TrustAndProtection_requests : s0.trust.recovery = false ∧ (List.replicate 32 0#8).length = 32 ∧ s0.sheets ≠ [] ∧ State.reset.sheets = [] ∧
    0 < State.reset.trust.epoch ∧ State.reset.trust.epoch < 64 ∧ ∀ e ∈ State.reset.trust.slots, e.1 ≠ 15 := by decide +kernel
theorem test_premises_TrustAndProtection_power : s0.coolant = false ∧ ({ s0 with undervolt := true } : State).undervolt = true ∧ s0.undervolt = false := by
  decide +kernel
theorem test_premises_TrustAndProtection_images : s0.trust.recovery = false ∧
    ({ s0 with trust := { s0.trust with recovery := true } } : State).trust.recovery = true ∧ 7 ∉ s0.owner.rootPorts ∧
    7 ∈ ({ s0 with owner := { rootPorts := [7] } } : State).owner.rootPorts := by decide +kernel

theorem test_premises_TrustAndProtection_registers : blockAt 0x10FFF8 = some 0 ∧ blockAt 0x1F0000 = none ∧ (62 : Nat) % 16 ≠ 15 ∧ (63 : Nat) % 16 = 15 ∧
    isAgent 0 = true ∧ isAgent 15 = false ∧ s0.trust.epoch ≠ 0 ∧ ({ s0 with trust := { s0.trust with epoch := 0 } } : State).trust.epoch = 0 ∧
    paMapped s0.pool 4096 = true ∧ paMapped s0.pool (192 * 2 ^ 30 - 1) = true ∧ paMapped s0.pool (192 * 2 ^ 30) = false := by decide +kernel

/-! ### Lines, steps, checks -/

/-- The group before the line `bs` at 65,536; its core issues next. -/
def lineS (bs : List Byte) : State := { rs0 with mem := Mem.store [] 65536 bs, agenda := [.issue 0 false] }
/-- The line of fillers, and the same with the lowest reserved bit of its line word, and the parity of that. -/
def fillers : List Byte := mkLine [] 31 0
def badLine : List Byte :=
  let b := fillers.take 60 ++ leBytes 2 (31 + 512)
  b ++ leBytes 2 (linePar (leNat b))
def issued (bs : List Byte) : Option (State × Issue) := State.beginIssue { lineS bs with agenda := [] } 0 false
theorem test_premises_ReservedBitsOfTheLineWord : ∃ u c g, issued badLine = some (u, c) ∧ u.grp? c.gid = some g ∧
    u.fetchLine g (lineBase c.pc) = .bytes badLine 65536 ∧ badLine.length = 64 ∧ u.badRead 65536 64 = false ∧ (g.lane (lowest c.mask)).due = none ∧
    lineParOk badLine = true ∧ (leNat badLine).testBit (480 + 9) = true ∧ (lineS badLine).undervolt = false := by
  obtain ⟨⟨u, c⟩, h⟩ := Option.isSome_iff_exists.mp (show (issued badLine).isSome = true by decide +kernel)
  have e : (u, c) = (issued badLine).get (by decide +kernel) := by simp [h]
  obtain ⟨rfl, rfl⟩ := Prod.mk.inj e
  exact ⟨_, _, _, h, Option.some_get (by decide +kernel : (_ : Option Group).isSome = true) |>.symm, by decide +kernel⟩
/-- The subset that core 0 picks in a state, its fetch of the line `bs`, and what its slot decodes to. -/
def fetches (s : State) (stale : Bool) (bs : List Byte) (i : Instr) : Prop :=
  ∃ u c g, State.beginIssue s 0 stale = some (u, c) ∧ u.grp? c.gid = some g ∧ u.fetchLine g (lineBase c.pc) = .bytes bs 65536 ∧
    u.badRead 65536 64 = false ∧ (g.lane (lowest c.mask)).due = none ∧ lineParOk bs = true ∧ lineReservedOk bs = true ∧
    (g.entryDue = true → g.mayEnter bs (slotOf c.pc) = true) ∧ decode (lineSlot bs (slotOf c.pc)) = .ok i
def isWordOf (i : Instr) (r : Except Reject Instr) : Bool :=
  match r with
  | .ok j => j == i
  | .error _ => false
theorem isWordOf_iff {i : Instr} {r : Except Reject Instr} (h : isWordOf i r = true) : r = .ok i := by
  cases r with
  | ok j => simp only [isWordOf, beq_iff_eq] at h; rw [h]
  | error e => simp [isWordOf] at h
def fetchOk (s : State) (stale : Bool) (bs : List Byte) (i : Instr) : Bool :=
  match State.beginIssue s 0 stale with
  | none => false
  | some (u, c) => match u.grp? c.gid with
    | none => false
    | some g => decide (u.fetchLine g (lineBase c.pc) = .bytes bs 65536) && !u.badRead 65536 64 && (g.lane (lowest c.mask)).due.isNone && !g.entryDue && lineParOk bs &&
      lineReservedOk bs && isWordOf i (decode (lineSlot bs (slotOf c.pc)))
theorem fetches_of {s : State} {stale : Bool} {bs : List Byte} {i : Instr} (h : fetchOk s stale bs i = true) : fetches s stale bs i := by
  unfold fetchOk at h
  split at h
  · cases h
  · rename_i u c e
    split at h
    · cases h
    · rename_i g hg
      simp only [Bool.and_eq_true, decide_eq_true_eq, Bool.not_eq_true', Option.isNone_iff_eq_none] at h
      obtain ⟨⟨⟨⟨⟨⟨line, good⟩, due⟩, entry⟩, parity⟩, reserved⟩, word⟩ := h
      refine ⟨u, c, g, e, hg, line, ?_⟩
      exact and5 ⟨good, due, parity, reserved, fun x => absurd x (by simp [entry])⟩ (isWordOf_iff word)
def movI : Instr := .mov { pf := { pfx with ga := 31#5 }, mod := 0#6, d := z, a := z, b := z, c := z, e := z, imm8 := 0#8 }
theorem test_premises_StepRunsTheDecodedInstruction_issue : fetches { lineS fillers with agenda := [] } false fillers movI ∧ (lineS fillers).undervolt = false :=
  ⟨fetches_of (by decide +kernel), by decide +kernel⟩
/-- Nothing is due, and core 0 issues. -/
def idleS : State :=
  { lineS fillers with
    agenda := [], balanceAt := 10000, sheets := [withTasks [overTask none]], clusters := [(0, Cluster.init)]
    cores := [(0, { tlb := [page] }), (1, {}), (2, {}), (3, {})] }
theorem test_premises_StepRunsTheDecodedInstruction_idle : let s := idleS
    s.booted = true ∧ s.undervolt = false ∧ (s.dueEvent).isNone = true ∧ s.nextCore = some 0 ∧ fetches { s with rr := 1, free := s.free + 1 } (Config.roStale s.free) fillers movI := by
  refine and4 (by decide +kernel) (?_)
  cases Config.roStale _ <;> exact fetches_of (by decide +kernel)
theorem test_premises_StepRunsTheDecodedInstruction_boot : State.reset.undervolt = false ∧ State.reset.booted = false ∧ State.reset.agenda = [] := by decide +kernel
theorem test_premises_StepRunsTheDecodedInstruction_event : let s : State := { rs0 with agenda := [.ev (.utcNtpSet 0)] }
    s.undervolt = false ∧ s.agenda = .ev (.utcNtpSet 0) :: [] ∧ Instr.isWord (.utcNtpSet 0) = false := by decide +kernel

theorem test_premises_ChecksBeforeAnInstruction_noIssuer : Instr.isWord movI = true ∧ rs0.cur = none := by decide +kernel
/-- A latch that was captured and is lost, as an operand. -/
def latchI : Instr := .fadd (f5 v1 (.b 1#2) v2 z z)
def latchS : State := machine { grp [] with latches := [{}, { st := .lost, reg := 1, kind := .vec }, {}, {}] } team
def stopOf (i : Instr) (s : State) (c : Cause) : Bool :=
  match s.issuing i with
  | some q => q.stops == some c && q.act != 0#64
  | none => false
theorem test_premises_ChecksBeforeAnInstruction_stops : latchI.wf = true ∧ Instr.isWord latchI = true ∧ stopOf latchI latchS .latch = true ∧
    stopOf (.fadd (f5 (.v 24#8) v2 v2 z z)) s0 .illegal = true ∧
    stopOf (.fadd (f5 v1 v2 v2 z z)) (machine { grp [] with badV := [(2, 3)] } team) .check = true ∧
    stopOf (.fadd (f5 v1 v2 v2 z z)) (machine { grp [] with batches := [{ written := [2] }] } team) .matrixState = true := by decide +kernel
/-- A BRI that a bad word stops: to a good destination, and to one that is not aligned. -/
theorem test_premises_ChecksBeforeAnInstruction_target : let i : Instr := .bri (fb z v2)
    let bad (s : State) : State := { s with groups := s.groups.map fun g => { g with badV := [(2, 3)] } }
    let off (s : State) : State := { s with groups := s.groups.map fun g => { g with vregs := (List.range 24).map fun _ => List.replicate 16 65573#32 } }
    stopOf i (bad pointing) .check = true ∧ ((bad pointing).issuing i).all (fun q => ((bad pointing).targetFirst i q).isNone) = true ∧
    stopOf i (bad (off pointing)) .check = true ∧ ((bad (off pointing)).issuing i).all (fun q => ((bad (off pointing)).targetFirst i q).isSome) = true := by decide +kernel
theorem test_premises_ChecksBeforeAnInstruction_disagree : let i : Instr := .iadd (f5 v1 v2 v3 z z)
    let s : State := { s0 with cores := [(0, { tlb := [page], injectRuns := [[5#64, 3#64, 1#64]] })] }
    i.wf = true ∧ Instr.isWord i = true ∧ (match s.issuing i with
      | some q => q.stops.isNone && q.act != 0#64 && s.workWait i q == none && (s.disagreement q == some [5#64, 3#64, 1#64])
      | none => false) = true := by decide +kernel
/-- The matrix class has used its power and may not take what others leave. -/
def noPower : Cluster := { Cluster.init with budgets := resetBudgets.modify 1 fun b => { b with used := [0, 0, 45000], spill := false } }
theorem test_premises_ChecksBeforeAnInstruction_budget : let i : Instr := .tzero { pf := pfx, mod := 0#6, cd := 0#4, ta := 0#4, tb := 0#4, sa := z, sb := z, bsel := 0#8, xf := 0#10 }
    let s : State := { s0 with clusters := [(0, noPower)] }
    i.wf = true ∧ Instr.isWord i = true ∧ (match s.issuing i with
      | some q => q.stops.isNone && q.act != 0#64 && q.g.shaped && !q.g.stepping && (s.workWait i q == some (.budget 1 2))
      | none => false) = true := by decide +kernel
def emptyOk (i : Instr) (s : State) : Bool :=
  match s.issuing i with
  | some q => q.sg.fits q.g && q.act == 0#64 && q.g.shaped && !q.g.stepping
  | none => false
theorem test_premises_EmptyExecution : let o := f5 v1 v2 v3 z z
    let i : Instr := .iadd { o with pf := { pfx with ga := 31#5, stall := 3#4 } }
    i.wf = true ∧ Instr.isWord i = true ∧ actsEmpty i = false ∧ emptyOk i s0 = true := by decide +kernel
/-- An RCV of a subset in which no lane executes, with its label elsewhere than at the next slot. -/
theorem test_premises_EmptyExecution_rcv : let o := { fb p1 z 3#32 0#3 with pf := { pfx with ga := 31#5 } }
    (Instr.rcv o).wf = true ∧ emptyOk (.rcv o) s0 = true ∧ ((s0.issuing (.rcv o)).all fun q => decide (q.g.joins.length < 16) &&
      (lineBase q.pc + (o.loff.signExtend 64 <<< 6) + BitVec.ofNat 64 (12 * o.slot.toNat) != nextPc q.pc) && q.sub.getLsbD 0 && !(q.g.lane 0).exited) = true := by
  decide +kernel
theorem test_premises_EmptyExecution_latches : emptyOk movI s0 = true ∧ ((s0.issuing movI).all fun q => q.prior.isNone && !breaksAfter movI q.sg q.pf) = true := by
  decide +kernel
theorem test_premises_FillerWord : emptyOk movI s0 = true := by decide +kernel
theorem test_premises_LineParity : fillers.length = 64 := by decide +kernel
theorem test_premises_SavesOnFaults : rs0.grp? (grp []).id = some (grp []) ∧ (rs0.core 0).mowner ≠ some 1 ∧ (∀ d ∈ [true], (grp []).lanes.all (fun l =>
    l.wait == .none) = d) ∧ (rs0.surv (rs0.survOf 0)).callq.length < 128 ∧ (rs0.surv (rs0.survOf 0)).heldq = [] := by decide +kernel
def answers (o : Out) : Bool :=
  match o with
  | .next _ => true
  | _ => false
theorem answers_iff {o : Out} (h : answers o = true) : ∃ t, o = .next t := by
  cases o with
  | next t => exact ⟨t, rfl⟩
  | fault f => cases h
  | refused r => cases h
theorem test_premises_EveryStepKeepsTheMemoryForm : Memory.wf (lineS fillers).mem = true ∧ ∃ t, step (lineS fillers) = .next t :=
  ⟨by decide +kernel, answers_iff (by decide +kernel)⟩
theorem test_premises_WhatNeverGoesBack : ∃ t, step { rs0 with agenda := [.ev .powerOnReset] } = .next t := answers_iff (by decide +kernel)
theorem test_premises_WordsAndInstructionsAgree : movI.wf = true ∧ Instr.isWord movI = true ∧ decode (encode movI) = .ok movI :=
  ⟨by decide +kernel, by decide +kernel, isWordOf_iff (by decide +kernel)⟩

/-! ### Words: each constructor's, written out from the opcode map of R59 and the fields of R30, R31 and R35 -/

/-- Every word of the list decodes to its instruction. -/
def decodesAll (ws : List (BitVec 96 × Instr)) : Bool := ws.all fun e => isWordOf e.2 (decode e.1)
theorem decodes_of {ws : List (BitVec 96 × Instr)} (h : decodesAll ws = true) : ∀ e ∈ ws, decode e.1 = .ok e.2 :=
  fun e he => isWordOf_iff (List.all_eq_true.mp h e he)
def words_control : List (BitVec 96 × Instr) :=
  [(0x00017BC00281000000000098, .bra (fb p1 z 2#32 3#3 1#6)), (0x00407BC00281410000000000, .bri (fb p1 s4)),
   (0x00807BC00000003FFFFFFFE0, .call (fb z z 0xFFFFFFFF#32 4#3)), (0x00C07BC00281008000000000, .calli (fb p1 v2)),
   (0x01007BC00000000000000000, .ret (fb z z)), (0x01407BC00281000000000098, .rcv (fb p1 z 2#32 3#3)),
   (0x01807BC00000000000000000, .exit (fy z z z)), (0x01C07BC00000000000000000, .waypt (fy z z z)),
   (0x02007BC00000000000003000, .tbar (fy z z z 3#16)), (0x02407BC00000000000000050, .spawn (fb z z 1#32 2#3)),
   (0x02807BC00102000000000000, .binfl (fy s2 z z)), (0x02C07BC00000000000000000, .yield (fy z z z)),
   (0x03007BC00000000000001900, .nap (fri z z 100#32)), (0x03407BC00281000000000000, .elect (f5 p1 z z z z))]
theorem test_decode_control : ∀ e ∈ words_control, decode e.1 = .ok e.2 := decodes_of (by decide +kernel)
def words_integer : List (BitVec 96 × Instr) :=
  [(0x10007BC00001008030000000, .iadd (f5 v1 v2 v3 z z)), (0x10447BC00001008030000000, .isub (f5 v1 v2 v3 z z 0b100#6)),
   (0x10827BC0000200804A068F00, .iaddc (f5 v2 v2 (.v 4#8) p1 (.p 15#4) 0b010#6)), (0x10C57BC00001008030000000, .imul (f5 v1 v2 v3 z z 0b101#6)),
   (0x11027BC00102411060000000, .imulh (f5 s2 s4 s6 z z 0b010#6)), (0x11437BC00002008040180000, .imad (f5 v2 v2 (.v 4#8) (.v 6#8) z 0b011#6)),
   (0x11817BC00002004010080000, .imadw (f5 v2 v1 v1 v2 z 1#6)), (0x11C07BC00001008000000000, .idiv (f5 v1 v2 z z z)),
   (0x12017BC00001008000000000, .irem (f5 v1 v2 z z z 1#6)), (0x12407BC0000100B1F0000000, .ishl (f5 v1 v2 (.imm 31#8) z z)),
   (0x12807BC0000100B200000000, .ishr (f5 v1 v2 (.imm 32#8) z z)), (0x12C17BC0000100B200000000, .isra (f5 v1 v2 (.imm 32#8) z z 1#6)),
   (0x13087BC0000100B210000000, .irot (f5 v1 v2 (.imm 33#8) z z 8#6)), (0x13407BC00001008030040096, .logic (f5 v1 v2 v3 v1 z 0#6 0x96#8)),
   (0x13817BC0000100B20C000000, .bfx (f5 v1 v2 (.imm 32#8) (.imm 0#8) z 1#6)),
   (0x13C07BC0000100803C7F0100, .bfi (f5 v1 v2 v3 (.imm 31#8) (.imm 1#8))), (0x14007BC00001008000000000, .popc (f5 v1 v2 z z z)),
   (0x14407BC00001000000000000, .clz (f5 v1 z z z z)), (0x14807BC00001000000000000, .ctz (f5 v1 z z z z)),
   (0x14C07BC00001008000000000, .brev (f5 v1 v2 z z z)), (0x15017BC00001008030000000, .imin (f5 v1 v2 v3 z z 1#6)),
   (0x15407BC00001008030000000, .imax (f5 v1 v2 v3 z z)), (0x15857BC00001008000000000, .iabs (f5 v1 v2 z z z 0b101#6)),
   (0x15C07BC00281004020000000, .icmp (f5 p1 v1 v2 z z)), (0x16057BC000010080300C0000, .dot4 (f5 v1 v2 v3 v3 z 0b101#6)),
   (0x16407BC000010080300C0000, .dot8 (f5 v1 v2 v3 v3 z)), (0x18017BC00002010000000000, .mov (f5 v2 (.v 4#8) z z z 1#6)),
   (0x18407BC00001000000000140, .movi (fri v1 z 5#32)), (0x18807BC00001600000000000, .movs (f5 v1 (.st .lanenum) z z z)),
   (0x18C07BC0000100803A040000, .sel (f5 v1 v2 v3 p1 z)), (0x19007BC0028FA0682A0C00E8, .plog (f5 (.p 15#4) p1 p2 p3 z 0#6 0xE8#8)),
   (0x19407BC00281A08000000000, .pmov (f5 p1 p2 z z z))]
theorem test_decode_integer : ∀ e ∈ words_integer, decode e.1 = .ok e.2 := decodes_of (by decide +kernel)
def words_float : List (BitVec 96 × Instr) :=
  [(0x40007BC00001008030000000, .fadd (f5 v1 v2 v3 z z)), (0x40437BC00001008030000000, .fsub (f5 v1 v2 v3 z z 3#6)),
   (0x40807BC00001008030000000, .fmul (f5 v1 v2 v3 z z)), (0x40C07BC00001008030040000, .fma (f5 v1 v2 v3 v1 z)),
   (0x41007BC00001008030000000, .fmin (f5 v1 v2 v3 z z)), (0x41417BC00002008040000000, .fmax (f5 v2 v2 (.v 4#8) z z 1#6)),
   (0x41987BC00281008030000000, .fcmp (f5 p1 v2 v3 z z 0x18#6)), (0x41C07BC00001008000000000, .fclass (f5 v1 v2 z z z)),
   (0x42007BC00001000000000000, .frcp (f5 v1 z z z z)), (0x42407BC00001008000000000, .frsq (f5 v1 v2 z z z)),
   (0x42807BC00001008000000000, .fsqrt (f5 v1 v2 z z z)), (0x42C07BC00001008000000000, .fdiv (f5 v1 v2 z z z)),
   (0x43007BC00001008000000000, .fexp2 (f5 v1 v2 z z z)), (0x43407BC00001000000000000, .flog2 (f5 v1 z z z z)),
   (0x43807BC00001008000000000, .fsin (f5 v1 v2 z z z)), (0x43C07BC00001008000000000, .fcos (f5 v1 v2 z z z)),
   (0x44007BC00001008030000000, .hadd2 (f5 v1 v2 v3 z z)), (0x44447BC00001008030000000, .hmul2 (f5 v1 v2 v3 z z 0b100#6)),
   (0x44807BC00001008030040000, .hfma2 (f5 v1 v2 v3 v1 z)), (0x44C07BC00002010060000000, .dadd (f5 v2 (.v 4#8) (.v 6#8) z z)),
   (0x45007BC00002010060000000, .dmul (f5 v2 (.v 4#8) (.v 6#8) z z)), (0x45407BC00002010060080000, .dfma (f5 v2 (.v 4#8) (.v 6#8) v2 z))]
theorem test_decode_float : ∀ e ∈ words_float, decode e.1 = .ok e.2 := decodes_of (by decide +kernel)
def words_conversion : List (BitVec 96 × Instr) :=
  [(0x60027BC00001008000000040, .cvt (f5 v1 v2 z z z 2#6 0b01000000#8)), (0x60407BC00001008030000000, .pack (f5 v1 v2 v3 z z)),
   (0x60807BC00001008000000001, .unpack (f5 v1 v2 z z z 0#6 1#8)), (0x70007BC00001008030000006, .shfl (f5 v1 v2 v3 z z 0#6 6#8)),
   (0x70427BC00002008000000000, .lred (f5 v2 v2 z z z 0x2#6)), (0x70827BC00002008000000000, .lscan (f5 v2 v2 z z z 0x2#6)),
   (0x70C07BC00281A08000000000, .vote (f5 p1 p2 z z z)), (0x71007BC00002A04000000000, .ballot (f5 v2 p1 z z z)),
   (0x71407BC0000100B100000000, .bcast (f5 v1 v2 (.imm 16#8) z z))]
theorem test_decode_conversion : ∀ e ∈ words_conversion, decode e.1 = .ok e.2 := decodes_of (by decide +kernel)
def words_memory : List (BitVec 96 × Instr) :=
  [(0x80227BC0000440B000000402, .ld (fm (.v 4#8) s2 (.imm 0#8) 0x40#24 2#4 0b100010#6)),
   (0x80407BC0000440803FFFFFC2, .st (fm (.v 4#8) s2 v3 0xFFFFFC#24 2#4)), (0x80807BC00004408030000004, .ldro (fm (.v 4#8) s2 v3 0#24 4#4)),
   (0x80C87BC00000000000000000, .rosync (fy z z z 0#16 0b001000#6)), (0x81087BC00001408040000402, .atom (fm v1 s2 (.v 4#8) 0x40#24 2#4 0b001000#6)),
   (0x81667BC00030028000000004, .cas (fm (.v 48#8) (.v 10#8) z 0#24 4#4 0b100110#6)),
   (0x81AC7BC00000000000000000, .fence (fy z z z 0#16 0b101100#6)), (0x81C07BC00000408010000000, .pref (fm z s2 v1 0#24 0#4)),
   (0x82007BC00001408020000002, .put (fm v1 s2 v2 0#24 2#4)), (0x82407BC00104409060000400, .puts (fm s4 s2 s6 0x40#24 0#4)),
   (0x82807BC00102410000000000, .winwait (fy s2 s4 z)), (0x82C07BC00102410000000000, .winrd (fy s2 s4 z)),
   (0x83007BC00004408030000403, .xqry (fm (.v 4#8) s2 v3 0x40#24 3#4))]
theorem test_decode_memory : ∀ e ∈ words_memory, decode e.1 = .ok e.2 := decodes_of (by decide +kernel)
def words_scratchpad : List (BitVec 96 × Instr) :=
  [(0xA0007BC0000100B000001FC2, .sld (fm v1 v2 (.imm 0#8) 0x1FC#24 2#4)), (0xA0407BC0000100B000001FC2, .sst (fm v1 v2 (.imm 0#8) 0x1FC#24 2#4)),
   (0xA0937BC0000140F000001FC2, .satom (fm v1 (.s 3#7) (.imm 0#8) 0x1FC#24 2#4 0x13#6)), (0xA0C07BC00102000000005000, .cstart (fy s2 z z 5#16)),
   (0xA1007BC00000000000003000, .stage (fy z z z 3#16)), (0xA1407BC00000409040000000, .cwait (fy z s2 s4)),
   (0xA1817BC00106408000003000, .ctest (fy s6 s2 z 3#16 1#6)), (0xA1C07BC00104409060000000, .cpy (fm s4 s2 s6 0#24 0#4))]
theorem test_decode_scratchpad : ∀ e ∈ words_scratchpad, decode e.1 = .ok e.2 := decodes_of (by decide +kernel)
def words_ports : List (BitVec 96 × Instr) :=
  [(0xB0007BC00000C140200C0000, .send (f5 z (.imm 5#8) v2 v3 z)), (0xB0407BC000004180200C0000, .sendx (f5 z s6 v2 v3 z)),
   (0xB0807BC00102C0C000000000, .recv (f5 s2 (.imm 3#8) z z z)), (0xB0C07BC00102C0C000000000, .rpeek (f5 s2 (.imm 3#8) z z z)),
   (0xB1007BC00102410000000000, .patarm (fy s2 s4 z)), (0xB1407BC00000000000002000, .patdis (fy z z z 2#16)),
   (0xB1807BC00102C0C000000000, .pstat (f5 s2 (.imm 3#8) z z z))]
theorem test_decode_ports : ∀ e ∈ words_ports, decode e.1 = .ok e.2 := decodes_of (by decide +kernel)
def words_matrix : List (BitVec 96 × Instr) :=
  [(0xC0007BC00000408000000000, .tld (fm z s2 z 0#24 0#4)), (0xC0407BC00000408000000000, .tst (fm z s2 z 0#24 0#4)),
   (0xC0807BC00000000000000000, .tzero (fx 0#4 0#4 0#4 z z 0#8 0#10)), (0xC0C07BC003C0000000000300, .czero (fx 15#4 0#4 0#4 z z 0#8 3#10)),
   (0xC1007BC00048C0000000A500, .mma (fx 1#4 2#4 3#4 z z 0#8 165#10)),
   (0xC1407BC00048C04020040000, .mmake4m3 (fx 1#4 2#4 3#4 (.v 4#8) (.v 8#8) 1#8 0#10)),
   (0xC1807BC00048C04020000000, .mmake5m2 (fx 1#4 2#4 3#4 (.v 4#8) (.v 8#8) 0#8 0#10)),
   (0xC1C07BC00048C04020000000, .mmake3m2 (fx 1#4 2#4 3#4 (.v 4#8) (.v 8#8) 0#8 0#10)),
   (0xC2007BC00048C04020000000, .mmake2m3 (fx 1#4 2#4 3#4 (.v 4#8) (.v 8#8) 0#8 0#10)),
   (0xC2407BC00048C04020000000, .mmake2m1 (fx 1#4 2#4 3#4 (.v 4#8) (.v 8#8) 0#8 0#10)),
   (0xC2807BC00048C04020000900, .mmacb (fx 1#4 2#4 3#4 (.v 4#8) (.v 8#8) 0#8 9#10)), (0xC2C07BC00000408000000000, .cbload (fm z s2 z 0#24 0#4)),
   (0xC3007BC000041020100C0500, .qnt (fx 0#4 1#4 0#4 s2 (.v 4#8) 3#8 5#10)),
   (0xC3407BC000041020100C0500, .dqnt (fx 0#4 1#4 0#4 s2 (.v 4#8) 3#8 5#10)),
   (0xC3807BC00040004000008100, .crd (fx 1#4 0#4 0#4 (.v 4#8) z 0#8 129#10)),
   (0xC3C07BC00040004000F88100, .cwr (fx 1#4 0#4 0#4 (.v 4#8) z 62#8 129#10)), (0xC4007BC00000000000000000, .mopen (fy z z z)),
   (0xC4407BC00000000000000000, .mclose (fy z z z)), (0xC4807BC00000000000000000, .mwait (fy z z z))]
theorem test_decode_matrix : ∀ e ∈ words_matrix, decode e.1 = .ok e.2 := decodes_of (by decide +kernel)
def words_tasksAndServices : List (BitVec 96 × Instr) :=
  [(0xE0007BC00102418000000000, .task (fy s2 s6 z)), (0xE0407BC00102411060000000, .sheet (fy s2 s4 s6)),
   (0xE0807BC00102C04000000000, .qnote (fy s2 (.imm 1#8) z)), (0xF0047BC00008010000022000, .sys (fy (.v 8#8) (.v 4#8) z 0x22#16 4#6)),
   (0xF0447BC00008001020001000, .sysa (fy (.v 8#8) z s2 1#16 4#6)), (0xF0847BC00102418000001000, .sysw (fy s2 s6 z 1#16 4#6)),
   (0xF0C07BC00000000000012000, .trap (fy z z z 0x12#16)), (0xF1007BC0000000000FFFF000, .bkpt (fy z z z 0xFFFF#16)),
   (0xF1407BC0000000000003F000, .fchk (fy z z z 0x3F#16)), (0xF1807BC00102000000000000, .wearrd (f5 s2 z z z z)),
   (0xF1C17BC00102C04000000000, .budrd (f5 s2 (.imm 1#8) z z z 1#6)), (0xF2007BC0010241000000F000, .seal (fy s2 s4 z 15#16)),
   (0xF2407BC0000000000000F000, .sealx (fy z z z 15#16))]
theorem test_decode_tasksAndServices : ∀ e ∈ words_tasksAndServices, decode e.1 = .ok e.2 := decodes_of (by decide +kernel)
/-- The worked encodings of the spec that take no part in a statement. -/
theorem test_decode_worked : ∀ e ∈ ([(0xC2807BC0004A004014000500, .mmacb (fx 1#4 2#4 8#4 (.v 4#8) (.v 5#8) 0#8 5#10)),
    (0x81667BC0000C028000000004, .cas (fm (.v 12#8) (.v 10#8) z 0#24 4#4 0b100110#6)),
    (0x44807BC0000400B0200C0000, .hfma2 (f5 (.v 4#8) v2 (.imm 2#8) v3 z)),
    (0xB0400BC000004190C4380000, .sendx { f5 z s6 (.s 12#7) (.s 14#7) z with pf := { pfx with ga := 1#5 } })] : List (BitVec 96 × Instr)),
    decode e.1 = .ok e.2 :=
  decodes_of (by decide +kernel)
/-- No word of the list decodes: a faulting opcode, a reserved status number, must-be-zero bits of a latch and of a predicate, a
reserved bit of format Y, of format X, a SLOT above 4. -/
theorem test_decode_refused : ([0x03807BC00000000000000000, 0xFC007BC00000000000000000, 0x18807BC00001630000000000, 0x18007BC00001810000000000,
    0x40007BC00001A40000000000, 0xF1007BC00000000000000001, 0xC0807BC00000000000000001, 0x00007BC00000000000000028] : List (BitVec 96)).all
    (fun w => !(decode w).isOk) = true := by decide +kernel

/-! ### Ill-formed terms: at least one for each check -/

def w' (p : Pfx) (o : F5) : F5 := { o with pf := p }
/-- R30, R46, R53, R54: CH where it is reserved; NWB and CAP where they are. -/
def illPrefix : List Instr :=
  [.iadd (w' { pfx with ch := 1#4 } (f5 v1 v2 v3 z z)), .icmp (w' { pfx with nwb := true } (f5 p1 v1 v2 z z)), .icmp (w' { pfx with cap := 1#2 } (f5 p1 v1 v2 z z)),
   .bra { fb p1 z with pf := { pfx with ch := 4#4 } }, .ld { fm (.v 4#8) s2 z 0#24 4#4 with pf := { pfx with cap := 1#2 } },
   .fence { fy z z z 0#16 0b001000#6 with pf := { pfx with ch := 1#4 } }, .recv (w' { pfx with nwb := true } (f5 s2 (.imm 3#8) z z z))]
/-- R32, R34, R107 to R121: control. -/
def illControl : List Instr :=
  [.bra (fb z z 0#32 5#3), .bra (fb z v1), .bra (fb z z 0#32 0#3 2#6), .bra (fb v1 z), .bri (fb z v2 1#32), .bri (fb z v2 0#32 1#3), .bri (fb z v1), .bri (fb z p1),
   .ret (fb p1 z), .ret (fb z z 1#32), .ret (fb z z 0#32 0#3 1#6), .spawn (fb z z 0#32 5#3), .spawn (fb p1 z), .spawn (fb z v2), .exit (fy v1 z z), .exit (fy z z z 1#16),
   .waypt (fy z z z 0#16 1#6), .tbar (fy z z z 4#16), .tbar (fy z z v1), .binfl (fy v1 z z), .binfl (fy s2 z z 0#16 1#6), .binfl (fy s2 z z 1#16), .yield (fy z z v1),
   .nap (fri z z 1#32 2#6), .nap (fri z s2 1#32), .nap (fri v1 z 1#32), .nap { fri z z 1#32 with ext := 1#6 }, .elect (f5 v1 z z z z), .elect (f5 p1 z z z z 2#6),
   .elect (f5 p1 v1 z z z), .elect (f5 p1 z z z z 0#6 1#8)]
/-- R38, R39, R41, R138 to R152: integers, moves, predicates. -/
def illInteger : List Instr :=
  [.iadd (f5 v1 v2 v2 z z 2#6), .iadd (f5 p1 v2 v3 z z), .iadd (f5 (.b 1#2) v2 v3 z z), .iadd (f5 (.imm 1#8) v2 v3 z z), .iadd (f5 (.st .fflags) v2 v3 z z),
   .iadd (f5 v1 p1 v3 z z), .iadd (f5 v1 (.st .cycle) v3 z z), .iadd (f5 s2 v2 s4 z z), .iadd (f5 v1 v2 v3 v1 z), .iadd (f5 v1 v2 v3 z z 0b001000#6),
   .iadd (f5 v1 v2 v3 z z 0#6 1#8), .iaddc (f5 v1 v2 v3 p1 p2 1#6), .iaddc (f5 s2 s4 s6 p1 p2), .iaddc (f5 v1 v2 v3 v1 p2), .imadw (f5 v2 v1 v1 v2 z 2#6), .imadw (f5 v1 v1 v1 v2 z),
   .isra (f5 v1 v2 v3 z z), .ishl (f5 v1 v2 v3 z z 0b000100#6), .irot (f5 v1 v2 v3 z z 0b010000#6), .logic (f5 v1 v2 v3 v1 z 1#6), .bfi (f5 v1 v2 v3 v1 v1 1#6),
   .popc (f5 v1 v2 v1 z z), .brev (f5 v1 v2 z z z 1#6), .iabs (f5 v1 v2 z z z), .icmp (f5 v1 v1 v2 z z), .icmp (f5 p1 v1 v2 z z 0b110000#6), .icmp (f5 p1 v1 v2 z z 4#6),
   .dot4 (f5 v1 v2 v3 v1 v1), .mov (f5 v1 v2 z z z 2#6), .mov (f5 v1 v2 z z z 1#6), .movi (fri v1 z 1#32 4#6), .movi (fri v1 v1 1#32), .movi (fri v1 z 1#32 1#6),
   .movs (f5 v1 v2 z z z), .movs (f5 (.st .cycle) v1 z z z), .movs (f5 v1 (.st .cycle) z z z 1#6), .movs (f5 s2 (.st .lanenum) z z z), .sel (f5 s2 v2 v3 p1 z),
   .sel (f5 v1 v2 v3 v1 z), .plog (f5 p1 p2 p3 v1 z), .plog (f5 p1 p2 p3 p1 z 1#6), .pmov (f5 p1 v1 z z z), .pmov (f5 p1 z z z z 1#6), .pmov (f5 v1 v1 z z z 2#6),
   .pmov (f5 p1 v1 z z z 4#6)]
/-- R154 to R173: floating point, conversion, lanes. -/
def illFloat : List Instr :=
  [.fadd (f5 v1 v2 v3 z z 4#6), .fadd (f5 v1 v2 v3 v1 z), .dadd (f5 v1 v2 v2 z z), .fmin (f5 v1 v2 v3 z z 2#6), .fcmp (f5 p1 v2 v3 z z 2#6), .fcmp (f5 v1 v2 v3 z z),
   .fclass (f5 v1 v2 z z z 2#6), .hadd2 (f5 v1 v2 v3 z z 8#6), .cvt (f5 v1 v2 z z z 14#6), .cvt (f5 v1 v2 z z z 0#6 14#8), .cvt (f5 v1 v2 z z z 2#6 0x50#8),
   .cvt (f5 v1 v2 z z z 10#6 0x40#8), .cvt (f5 v1 v2 z z z 11#6 0x1A#8), .cvt (f5 v1 (.imm 1#8) z z z 0#6 5#8), .cvt (f5 v1 v2 v1 z z), .pack (f5 v1 v2 v3 z z 3#6),
   .pack (f5 v1 v2 v3 v1 z), .unpack (f5 v1 v2 z z z 0#6 2#8), .unpack (f5 v1 v2 z z z 8#6), .shfl (f5 v1 v2 v3 z z 0#6 7#8), .shfl (f5 v1 v2 v3 v1 z),
   .shfl (f5 v1 s2 v3 z z), .shfl (f5 v1 v2 v3 z z 16#6), .lred (f5 v1 v2 z z z 12#6), .lred (f5 v1 v2 z z z 1#6 4#8), .lscan (f5 s2 v2 z z z), .lscan (f5 v1 v2 z z z 0#6 1#8),
   .vote (f5 p1 p2 v1 z z), .vote (f5 p1 p2 (.imm 0x80#8) z z 3#6), .vote (f5 p1 p2 z z z 8#6), .ballot (f5 v1 p1 z z z), .ballot (f5 v2 v1 z z z), .bcast (f5 v1 s2 (.imm 0#8) z z),
   .bcast (f5 v1 v2 v3 z z)]
/-- R33, R265 to R273, R304 to R316: memory and scratchpad. -/
def illMemory : List Instr :=
  [.ld (fm v1 s2 z 0#24 5#4), .ld (fm v1 s2 z 0#24 2#4 0b110000#6), .ld (fm v1 s2 z 0#24 2#4 0b001100#6), .ld (fm v1 s2 z 0#24 2#4 1#6), .ld (fm v1 s2 z 0#24 2#4 2#6),
   .ld (fm v1 s2 z 0#24 1#4 0b001000#6), .ld (fm v2 s2 z 0#24 4#4), .ld (fm v1 v1 z 0#24 2#4), .st (fm v1 s2 z 0#24 2#4 0b001010#6), .st (fm s2 s2 z 0#24 4#4), .st (fm v1 s2 z 0#24 2#4 1#6),
   .ldro (fm v1 s2 z 0#24 2#4 2#6), .ldro (fm s2 s2 z 0#24 2#4), .rosync (fy z z z), .rosync (fy z z z 0#16 0b001010#6), .atom (fm v1 s2 (.v 10#8) 0#24 2#4 0b001000#6),
   .atom (fm v1 s2 z 0#24 2#4), .atom (fm v1 s2 z 0#24 1#4 0b001000#6), .atom (fm v2 s2 (.v 9#8) 0#24 3#4 0b001000#6), .cas (fm v2 s2 v1 0#24 3#4 0b001000#6),
   .cas (fm v2 s2 z 0#24 2#4 0b001000#6), .fence (fy z z z), .fence (fy z z z 1#16 0b001000#6), .pref (fm v1 s2 z 0#24 0#4), .pref (fm z s2 z 0#24 1#4), .put (fm v1 v2 z 0#24 2#4),
   .put (fm v1 s2 z 0#24 2#4 1#6), .puts (fm v1 s2 s4 0#24 0#4), .puts (fm s4 s2 s6 0#24 1#4), .winwait (fy s2 (.imm 0x80#8) z), .winwait (fy s2 s4 z 2#16), .winrd (fy s2 s4 z 3#16),
   .winrd (fy s2 s4 z 0#16 1#6), .xqry (fm v2 s2 z 0#24 2#4), .xqry (fm v1 s2 z 0#24 3#4), .sld (fm v1 v2 z 0#24 2#4 1#6), .sld (fm v1 v2 z 0#24 5#4), .sst (fm s2 v2 z 0#24 2#4),
   .sst (fm v1 v2 z 0#24 2#4 1#6), .satom (fm v1 v2 z 0#24 2#4 10#6), .satom (fm v2 v2 z 0#24 3#4 9#6), .satom (fm v1 v2 z 0#24 1#4), .satom (fm v1 v2 z 0#24 2#4 32#6),
   .cstart (fy s2 z z 64#16), .cstart (fy v1 z z), .cstart (fy z s2 z), .stage (fy z z z 16#16), .stage (fy s2 z z), .cwait (fy z s2 s4 1#16), .cwait (fy s2 s2 s4), .cwait (fy z s2 s4 0#16 1#6),
   .ctest (fy p1 s2 s4), .cpy (fm v1 s2 s4 0#24 0#4), .cpy (fm s6 s2 s4 0#24 1#4), .cpy (fm s6 s2 s4 0#24 0#4 2#6)]
/-- R220 to R236, R380 to R383: ports and the matrix engine. -/
def illUnits : List Instr :=
  [.send (f5 z v1 v2 v3 z), .send (f5 v1 (.imm 5#8) v2 v3 z), .sendx (f5 z (.imm 5#8) v2 v3 z), .sendx (f5 z v1 v2 v3 z), .recv (f5 (.s 3#7) (.imm 3#8) z z z), .recv (f5 s2 (.imm 3#8) z z z 1#6),
   .recv (f5 v2 (.imm 3#8) z z z), .rpeek (f5 s2 (.imm 3#8) z z z 1#6), .patarm (fy s2 v1 z), .patarm (fy s2 s4 s6), .patarm (fy s2 s4 z 1#16), .patdis (fy z z z 64#16), .pstat (f5 p1 (.imm 3#8) z z z),
   .pstat (f5 s2 (.imm 3#8) z z z 2#6), .tld (fm (.v 16#8) s2 z 0#24 0#4), .tld (fm z s2 z 8#24 0#4), .tld (fm z s2 z 0#24 0#4 7#6), .tld (fm z s2 s4 0#24 0#4 16#6), .tld (fm z s2 z 0#24 0#4 32#6),
   .tst (fm z s2 s4 0#24 0#4 0b010011#6), .tld (fm z v2 z 0#24 0#4), .cbload (fm v1 s2 z 0#24 0#4), .cbload (fm z s2 z 0#24 1#4), .tzero (fx 1#4 0#4 0#4 z z 0#8 0#10), .tzero (fx 0#4 0#4 0#4 z z 0#8 1#10),
   .czero (fx 0#4 1#4 0#4 z z 0#8 0#10), .czero (fx 0#4 0#4 0#4 z z 0#8 4#10), .mma (fx 0#4 0#4 0#4 z z 0#8 1#10), .mma (fx 0#4 0#4 0#4 v1 z 0#8 0#10), .mma (fx 0#4 0#4 0#4 z z 0#8 330#10 1#6),
   .mma (fx 0#4 0#4 0#4 z z 0#8 0#10 4#6), .mmake4m3 (fx 0#4 0#4 0#4 s2 (.v 8#8) 0#8 0#10), .mmake2m1 (fx 0#4 0#4 0#4 (.v 4#8) (.v 8#8) 0#8 1#10), .mmacb (fx 0#4 0#4 0#4 (.v 4#8) (.v 8#8) 0#8 4#10),
   .mmacb (fx 0#4 0#4 0#4 (.v 4#8) (.v 8#8) 0#8 10#10), .qnt (fx 0#4 1#4 0#4 v2 (.v 4#8) 0#8 5#10), .qnt (fx 0#4 1#4 0#4 s2 (.v 4#8) 0#8 4#10), .qnt (fx 0#4 1#4 0#4 s2 (.v 4#8) 0#8 85#10),
   .dqnt (fx 0#4 1#4 0#4 s2 (.v 4#8) 0#8 69#10), .qnt (fx 0#4 1#4 0#4 s2 (.v 4#8) 0#8 517#10), .crd (fx 0#4 0#4 0#4 v1 z 0#8 0#10), .crd (fx 0#4 0#4 0#4 v2 z 32#8 0#10),
   .cwr (fx 0#4 0#4 0#4 v1 z 63#8 129#10), .crd (fx 0#4 0#4 0#4 v2 z 0#8 256#10), .mopen (fy z z z 1#16), .mclose (fy z z z 0#16 1#6), .mwait (fy z z z 4#16), .mwait (fy z z z 1#16 1#6)]
/-- R358, R404, R417, R443, R456: tasks, services, status, sealing. -/
def illServices : List Instr :=
  [.task (fy v2 s6 z), .task (fy s2 s6 s4), .task (fy s2 s6 z 1#16), .sheet (fy s2 s4 v1), .qnote (fy s2 (.imm 0#8) z), .qnote (fy s2 (.imm 0x80#8) z), .sys (fy z s2 z), .sys (fy z v1 z),
   .sys (fy v1 v2 z 0#16 1#6), .sys (fy v2 v2 z), .sys (fy z v2 z 0#16 5#6), .sysa (fy z z v1), .sysa (fy z v2 s2), .sysw (fy v2 s2 z 0#16 1#6), .sysw (fy z v2 z), .trap (fy p1 z z), .trap (fy v1 z z),
   .trap (fy z v1 z), .bkpt (fy v1 z z), .fchk (fy z z z 64#16), .wearrd (f5 v1 z z z z), .wearrd (f5 s2 z z z z 2#6), .budrd (f5 s2 (.imm 7#8) z z z), .budrd (f5 s2 (.imm 0#8) z z z 3#6),
   .seal (fy s2 s4 z 16#16), .seal (fy v1 s4 z), .sealx (fy z z z 16#16), .sealx (fy s2 z z)]
def noneFormed (is : List Instr) : Bool := is.all fun i => !i.wf
theorem test_wf_prefix : noneFormed illPrefix = true := by decide +kernel
theorem test_wf_control : noneFormed illControl = true := by decide +kernel
theorem test_wf_integer : noneFormed illInteger = true := by decide +kernel
theorem test_wf_float : noneFormed illFloat = true := by decide +kernel
theorem test_wf_memory : noneFormed illMemory = true := by decide +kernel
theorem test_wf_units : noneFormed illUnits = true := by decide +kernel
theorem test_wf_services : noneFormed illServices = true := by decide +kernel

/-! ### Results: the spec's worked examples, one step each -/

/-- The group with what its vector registers hold by number. -/
def having (vs : List (Nat × List Nat)) (g : Group := grp []) : State :=
  machine { g with vregs := (List.range 24).map fun r => (List.range 16).map fun L => BitVec.ofNat 32 ((getK vs [] r).getD L ((getK vs [0] r).getD 0 0)) } team
/-- The group after the instruction; the group before where it does not complete. -/
def after (i : Instr) (s : State) : Group :=
  match exec i s with
  | .next t => (t.grp? 1).getD (grp [])
  | .fault _ => grp []
  | .refused _ => grp []
/-- After R139. -/
theorem test_iabs_wraps : let g := after (.iabs (f5 v2 v3 z z z 1#6)) (having [(3, [0x80000000])])
    g.v 2 0 = 0x80000000#32 ∧ (g.lane 0).fflags = 0#6 := by decide +kernel
theorem test_iabs_saturates : let g := after (.iabs (f5 v2 v3 z z z 5#6)) (having [(3, [0x80000000])])
    g.v 2 0 = 0x7FFFFFFF#32 ∧ (g.lane 0).fflags = 0b100000#6 := by decide +kernel
/-- After R147. -/
theorem test_dot4_sum : let g := after (.dot4 (f5 v1 v2 v3 (.v 4#8) z 7#6)) (having [(2, [0x7F7F7F7F]), (3, [0x80807F7F]), (4, [0x7FFFFF00])])
    g.v 1 0 = 0x7FFFFE02#32 ∧ (g.lane 0).fflags = 0#6 := by decide +kernel
/-- After R144. -/
theorem test_logic_parity : (after (.logic (f5 (.v 7#8) v1 v2 v3 z 0#6 0x96#8)) (having [(1, [0xF0F0F0F0]), (2, [0xCCCCCCCC]), (3, [0xAAAAAAAA])])).v 7 0 =
    0x96969696#32 := by decide +kernel
/-- R142. -/
theorem test_idiv_zero : let g := after (.idiv (f5 v1 v2 v3 z z)) (having [(2, [7]), (3, [0])])
    g.v 1 0 = 0xFFFFFFFF#32 ∧ (g.lane 0).fflags = 0b001000#6 := by decide +kernel
/-- After R159. -/
theorem test_hadd2_subnormal : let g := after (.hadd2 (f5 v1 v2 v3 z z)) (having [(2, [0x3C000001]), (3, [0x00000400])])
    g.v 1 0 = 0x3C000400#32 ∧ (g.lane 0).fflags = 0#6 := by decide +kernel
/-- After R167: in a group of 16 the relative offset 1 is 8. -/
theorem test_shfl_shift : let g := after (.shfl (f5 (.v 5#8) (.v 4#8) (.imm 1#8) (.v 9#8) z 0b0110#6 6#8)) (having [(4, List.range 16), (9, [77])])
    g.v 5 3 = 11#32 ∧ g.v 5 9 = 77#32 := by decide +kernel
/-- After R170. -/
def scanS : State :=
  having [(6, [100]), (7, [5, 1, 9, 2, 4, 3, 8, 6])] { grp [] with
    preds := (List.replicate 15 0#64).set 2 0b100100#64
    lanes := List.replicate 8 { pc := 65536#64, wp := 65536#64 } ++ List.replicate 8 { exited := true }
    id := 1 }
def scanI (m : BitVec 6) : Instr := .lscan { f5 (.v 6#8) (.v 7#8) z z z m with pf := { pfx with ga := 0b10010#5 } }
theorem test_lscan_inclusive : let s := { scanS with cur := some { core := 0, gid := 1, mask := 0xFF#64, pc := 65536#64 } }
    (List.range 8).map (fun L => ((after (scanI 0#6) s).v 6 L).toNat) = [5, 6, 100, 8, 12, 100, 20, 26] := by decide +kernel
theorem test_lscan_exclusive : let s := { scanS with cur := some { core := 0, gid := 1, mask := 0xFF#64, pc := 65536#64 } }
    (List.range 8).map (fun L => ((after (scanI 16#6) s).v 6 L).toNat) = [0, 5, 100, 6, 8, 100, 12, 20] := by decide +kernel
theorem test_lred_tree : let g := after (.lred (f5 (.s 5#7) (.v 4#8) z z z 1#6)) (having [(4, 0x4B800000 :: List.replicate 15 0x3F800000)])
    g.s 5 = 0x4B800007#64 ∧ (g.lane 15).fflags = 0b000001#6 := by decide +kernel
theorem test_lscan_serial : (after (.lscan (f5 (.v 6#8) (.v 4#8) z z z 1#6)) (having [(4, 0x4B800000 :: List.replicate 15 0x3F800000)])).v 6 15 =
    0x4B800000#32 := by decide +kernel
/-- After R171. -/
def voteS : State := having [] { grp [] with preds := (List.replicate 15 0#64).set 3 0x3FF#64 }
theorem test_vote_quorum : ((after (.vote (f5 p2 p3 (.imm 10#8) z z 3#6)) voteS).p 2 0, (after (.vote (f5 p2 p3 (.imm 12#8) z z 3#6)) voteS).p 2 0) =
    (true, false) := by decide +kernel
theorem test_vote_count : ((after (.vote (f5 (.s 5#7) p3 z z z 8#6)) voteS).s 5, (after (.vote (f5 (.s 5#7) p3 z z z 12#6)) voteS).s 5) =
    (10#64, 6#64) := by decide +kernel
/-- After R189. -/
theorem test_cvt_stochastic : let s := having [(3, [0x3F804000])] { grp [] with lanes := List.replicate 16 { pc := 65536#64, wp := 65536#64, sr := 1#32 } }
    let g := after (.cvt (f5 (.v 3#8) v3 z z z 4#6 0x40#8)) s
    g.v 3 0 = 0x3F81#32 ∧ (g.lane 0).sr = 0x00042021#32 := by decide +kernel
/-- After R24. -/
theorem test_line_word : leNat ((mkLine [] 1 0).drop 60) = 0xE3C10001 := by decide +kernel
/-- After R319: the leaf of the walk, and R333's word for it. -/
def walked : State :=
  let e (m : Mem) (a x : Nat) : Mem := m.store a (leBytes 8 x)
  { having [(2, [0x12340000]), (3, [3])] with roots := [(0, 0x20000)], mem := e (e (e (e (e [] 0x20000 0x30001) 0x30000 0x40001) 0x40188 0x50001) 0x50088 0x60001) 0x600A0 0x000000400012000F }
theorem test_xqry_word : (after (.xqry (fm (.v 4#8) v2 z 0#24 3#4)) walked).v64 4 0 = 0x107#64 := by decide +kernel
/-- After R116: the lanes that move are held by the join of the sixteen. -/
theorem test_rcv_holds : let s := { having [] { grp [] with preds := (List.replicate 15 0#64).set 1 0x3F#64 } with mem := code }
    let g := after (.rcv (fb p1 z 3#32 3#3)) s
    (g.lane 5).held = true ∧ (g.lane 5).pc = 65764#64 ∧ (g.lane 6).held = false ∧ (g.lane 6).pc = 65548#64 := by decide +kernel
/-- After R417. -/
theorem test_trap_saves : let g := after (.trap (fy z z z 0x12#16)) (having [])
    (g.st, g.save.cause, g.save.tcode, g.save.fpc) = (.saved, .trap, 0x12, 65536#64) := by decide +kernel
/-- After R215: 48 products of 0.25 and 0.25 are added to 2^24 exactly and rounded once. -/
theorem test_matrix_step : let q := List.replicate 48 (FVal.fin false 1 (-2))
    let r := accElem fp32 .rne 0x4B800000 [q] [q]
    r.bits = 0x4B800002 ∧ r.fl = 0b000001#6 := by decide +kernel

/-! ### Registers of Surveyors (R384 to R387, R402, R446) -/

theorem test_csr_constants :
    (State.reset.csrRead 3 0xF12, State.reset.csrRead 3 0x180, csrIllegal 0x5C3, csrIllegal 0xDC1) =
      (some 0x4B4C0009#64, some 0#64, true, false) := by decide
theorem test_svid_reset : State.reset.csrRead 17 0xDC1 = some (BitVec.ofNat 64 (1 * 2 ^ 14 + 1 * 2 ^ 10 + 1 * 2 ^ 8 + 15)) := by decide
theorem test_survRoute_reset :
    let s := State.reset.modSurv 0 fun v => { v with svxlat := 0x8000000000000007#64 }
    (s.survRoute 0 0x10000 true false, s.survRoute 0 0x10000 true true, s.survRoute 0 0x10000 false true) =
      (SurvRoute.trap 13 0x10000, SurvRoute.trap 15 0x10000, SurvRoute.pa 0x10000) := by decide
theorem test_budshare_reset :
    (State.reset.hubRead 0x30008, State.reset.hubRead (0x30000 + 40), State.reset.hubRead 0x30038) =
      (0x1606060#64, 0x80808#64, 120000#64) := by decide

end Sys2Proof.Tests
end

/-!
The statements about instruction words: the parity of a fetch line (R24), the reserved bits of its line word (R26), and the filler
word (R52).
-/
namespace Sys2Proof.Proofs
open Sys2Proof Sys2Proof.Machine Sys2Proof.Laws

/-! ### Numbers from bytes -/

/-- The bytes of a number are its digits to the base 256. -/
theorem leNat_eq_ofDigits (bs : List Byte) : leNat bs = Nat.ofDigits 256 (bs.map BitVec.toNat) := by
  induction bs with
  | nil => rfl
  | cons b bs ih => simp only [leNat, List.map_cons, Nat.ofDigits_cons, ih]
theorem bytes_are_digits (bs : List Byte) : ∀ d ∈ bs.map BitVec.toNat, d < 256 := by
  simp only [List.mem_map, forall_exists_index, and_imp, forall_apply_eq_imp_iff₂]
  exact fun b _ => b.isLt
theorem pow_256 (n : Nat) : 256 ^ n = 2 ^ (8 * n) := by rw [Nat.pow_mul]
theorem leNat_take (n : Nat) (bs : List Byte) : leNat (bs.take n) = leNat bs % 2 ^ (8 * n) := by
  rw [leNat_eq_ofDigits, leNat_eq_ofDigits, List.map_take, ← pow_256,
    Nat.ofDigits_mod_pow_eq_ofDigits_take n (by decide) _ (bytes_are_digits bs)]
theorem leNat_drop (n : Nat) (bs : List Byte) : leNat (bs.drop n) = leNat bs / 2 ^ (8 * n) := by
  rw [leNat_eq_ofDigits, leNat_eq_ofDigits, List.map_drop, ← pow_256,
    Nat.ofDigits_div_pow_eq_ofDigits_drop n (by decide) _ (bytes_are_digits bs)]
theorem leNat_lt (bs : List Byte) : leNat bs < 2 ^ (8 * bs.length) := by
  rw [leNat_eq_ofDigits, ← pow_256, ← List.length_map (f := BitVec.toNat)]
  exact Nat.ofDigits_lt_base_pow_length (by decide) (bytes_are_digits bs)
theorem testBit_leNat_take (n : Nat) (bs : List Byte) (k : Nat) :
    (leNat (bs.take n)).testBit k = (decide (k < 8 * n) && (leNat bs).testBit k) := by
  rw [leNat_take, Nat.testBit_mod_two_pow]
theorem testBit_leNat_drop (n : Nat) (bs : List Byte) (k : Nat) :
    (leNat (bs.drop n)).testBit k = (leNat bs).testBit (8 * n + k) := by
  rw [leNat_drop, Nat.testBit_div_two_pow, Nat.add_comm]

/-! ### The parity of a line (R24) -/

/-- The exclusive OR of the bits of x below 16 n whose numbers are congruent to j modulo 16. -/
def columnXor (n x j : Nat) : Bool := ((List.range n).map fun k => x.testBit (16 * k + j)).foldl (· ^^ ·) false

theorem columnXor_succ (n x j : Nat) : columnXor (n + 1) x j = (x.testBit j ^^ columnXor n (x / 65536) j) := by
  have shift (k : Nat) : x.testBit (16 * (k + 1) + j) = (x / 65536).testBit (16 * k + j) := by
    rw [show (65536 : Nat) = 2 ^ 16 from rfl, Nat.testBit_div_two_pow]
    congr 1
    omega
  simp only [columnXor, List.range_succ_eq_map, List.map_cons, List.map_map, Function.comp_def, shift, List.foldl_cons, Nat.succ_eq_add_one,
    Nat.mul_zero, Nat.zero_add]
  rw [Bool.xor_comm false, List.foldl_assoc]
theorem columnXor_congr {n x y j : Nat} (h : ∀ k, k < n → x.testBit (16 * k + j) = y.testBit (16 * k + j)) :
    columnXor n x j = columnXor n y j := by
  unfold columnXor
  rw [List.map_congr_left fun k hk => h k (List.mem_range.mp hk)]

/-- The fold of sixteen bits at a time takes each of its bits from the column of its own number. -/
theorem testBit_foldPar (n x j : Nat) (hj : j < 16) : (foldPar n x).testBit j = columnXor n x j := by
  induction n generalizing x with
  | zero => simp [foldPar, columnXor]
  | succ n ih =>
    have low : (x % 65536).testBit j = x.testBit j := by
      simpa only [hj, decide_true, Bool.true_and] using Nat.testBit_mod_two_pow x 16 j
    rw [foldPar, Nat.testBit_xor, ih, columnXor_succ, low]
theorem foldPar_lt (n x : Nat) : foldPar n x < 2 ^ 16 := by
  induction n generalizing x with
  | zero => simp [foldPar]
  | succ n ih => exact Nat.xor_lt_two_pow (Nat.mod_lt _ (by decide)) (ih _)
theorem linePar_lt (x : Nat) : linePar x < 2 ^ 16 := foldPar_lt 31 x
/-- Numbers of n bits are equal when their n bits are. -/
theorem eq_iff_testBit_of_lt {n x y : Nat} (hx : x < 2 ^ n) (hy : y < 2 ^ n) : x = y ↔ ∀ j, j < n → x.testBit j = y.testBit j := by
  refine ⟨fun h _ _ => by rw [h], fun h => Nat.eq_of_testBit_eq fun j => ?_⟩
  by_cases hj : j < n
  · exact h j hj
  · have above : 2 ^ n ≤ 2 ^ j := Nat.pow_le_pow_right (by decide) (Nat.le_of_not_lt hj)
    rw [Nat.testBit_lt_two_pow (hx.trans_le above), Nat.testBit_lt_two_pow (hy.trans_le above)]

/-- The parity of the first 62 bytes, bit by bit over the bits of the whole line. -/
theorem testBit_linePar (bs : List Byte) (j : Nat) (hj : j < 16) :
    (linePar (leNat (bs.take 62))).testBit j = columnXor 31 (leNat bs) j := by
  rw [linePar, testBit_foldPar _ _ _ hj]
  refine columnXor_congr fun k hk => ?_
  rw [testBit_leNat_take, decide_eq_true (by omega), Bool.true_and]

/-- Settles O51: the two bytes of PAR are compared with the folded 62 bytes before them, and each bit of the fold is the exclusive OR of
its column. -/
theorem lineParity : Obligations.LineParity := by
  intro bs len
  have par : leNat (bs.drop 62) < 2 ^ 16 := by
    simpa only [List.length_drop, len] using leNat_lt (bs.drop 62)
  rw [lineParOk, beq_iff_eq, eq_iff_testBit_of_lt (linePar_lt _) par]
  refine forall₂_congr fun j hj => ?_
  rw [testBit_linePar bs j hj, testBit_leNat_drop, eq_comm]
  rfl

/-! ### The reserved bits of the line word (R26) -/

theorem lineReservedOk_false (bs : List Byte) (j : Nat) (low : 9 ≤ j) (high : j < 16) (set : (leNat bs).testBit (480 + j) = true) :
    lineReservedOk bs = false := by
  have bit : (leNat ((bs.drop 60).take 2)).testBit j = true := by
    rw [testBit_leNat_take, testBit_leNat_drop, decide_eq_true (by omega), Bool.true_and]
    exact set
  have big : 2 ^ 9 ≤ leNat ((bs.drop 60).take 2) := (Nat.pow_le_pow_right (by decide) low).trans (Nat.ge_two_pow_of_testBit bit)
  exact decide_eq_false (by omega)

/-- A fetch from a translated line of good words and right parity, where no exception is due, faults on a reserved bit. -/
theorem fetch_reserved {s : State} {g : Group} {pc : DWord} {bs : List Byte} {pa : Nat} (line : s.fetchLine g (lineBase pc) = .bytes bs pa)
    (good : s.badRead pa 64 = false) (parity : lineParOk bs = true) (reserved : lineReservedOk bs = false) :
    s.fetch g pc none = .fault .illegal := by
  simp [State.fetch, line, good, parity, reserved]

/-- A step whose agenda holds an issue. -/
theorem step_issue {s : State} {core : Nat} {stale : Bool} {rest : List Item} (on : s.undervolt = false)
    (item : s.agenda = .issue core stale :: rest) : step s = ({ s with agenda := rest }.issue core stale).finish := by
  simp [step, item, State.runItem, on]
/-- An issue whose fetch faults takes the exception at the slot, in the subset, and no instruction acts. -/
theorem issue_fault {s u : State} {core : Nat} {stale : Bool} {c : Issue} {g : Group} {f : Cause}
    (begins : s.beginIssue core stale = some (u, c)) (grp : u.grp? c.gid = some g)
    (fault : u.fetch g c.pc (g.lane (lowest c.mask)).due = .fault f) :
    s.issue core stale = .next { u.takeException ((g.stash c.mask c.prior).modLanes c.mask fun _ l => { l with due := none }) f c.pc c.mask c.mask
      0#64 0 with cur := none } := by
  simp only [State.issue, begins, grp, fault, State.fetchFails]

/-- Settles O52: the fetch checks the reserved bits after the parity, before it decodes the slot. -/
theorem reservedBitsOfTheLineWord : Obligations.ReservedBitsOfTheLineWord := by
  intro s u c g bs pa core stale rest on item begins grp line _ good due parity ⟨j, low, high, set⟩
  have fault : u.fetch g c.pc (g.lane (lowest c.mask)).due = .fault .illegal := by
    rw [due]
    exact fetch_reserved line good parity (lineReservedOk_false bs j low high set)
  rw [step_issue on item, issue_fault begins grp fault]
  rfl

/-! ### The filler word (R52) -/

/-- The instruction of the filler word. -/
def fillerInstr : Instr :=
  .mov { pf := { ga := 31#5, gb := 15#5, ch := 0#4, stall := 0#4, y := false, nwb := false, cap := 0#2 }, mod := 0#6, d := .v 0#8, a := .v 0#8
         b := .v 0#8, c := .v 0#8, e := .v 0#8, imm8 := 0#8 }

theorem filler_decodes : decode 0x1800FBC00000000000000000#96 = .ok fillerInstr := rfl
/-- What the MOV of the filler word would write in a lane that executes it: v0 to v0. -/
def fillerMeaning : Q → State → Res := laneOp (.v 0#8) 1 false fun g L => { v := g.rd (.v 0#8) 1 L }
theorem exec_filler (s : State) : exec fillerInstr s = runI fillerInstr fillerMeaning s := rfl

/-- R39, R40: a guard that negates p15 holds in no lane. -/
theorem guard_not_p15 (g : Group) (L : Nat) : g.guard 31#5 L = false := rfl
theorem maskOf_false (w : Nat) : maskOf w (fun _ => false) = 0#64 := by
  simp [maskOf, Mask.ofLanes]
theorem active_not_p15 (g : Group) (p : Pfx) (sub : Mask) (h : p.ga = 31#5) : g.active p sub = 0#64 := by
  simp only [Group.active, h, guard_not_p15, Bool.and_false, Bool.false_and, maskOf_false]

/-- An issue that no lane executes is stopped by the check of the form alone. -/
theorem stops_of_empty (q : Q) (fits : q.sg.fits q.g = true) (empty : q.act = 0#64) : q.stops = none := by
  simp [Q.stops, fits, empty]
/-- R42: an issue that no lane executes goes on from the state and the group as they stand. -/
theorem empty_goes (i : Instr) (body : Q → State → Res) (s : State) (q : Q) (issues : s.issuing i = some q) (fits : q.sg.fits q.g = true)
    (empty : q.act = 0#64) (plain : actsEmpty i = false) (shaped : q.g.shaped = true) (unstepped : q.g.stepping = false) :
    ∃ t g, runI i body s = .next t ∧ Continues q s t q.g g := by
  have grp := issuing_grp i s q issues
  rw [runI_empty i body s q issues (stops_of_empty q fits empty) empty plain]
  obtain ⟨ck, settled⟩ := settle_ok i q 0 s q.g grp unstepped
  obtain ⟨vregs, sregs, preds, kept⟩ := kept_fields
    ((kept_went q ck ((s.core q.core).growth q.g ck) _).trans (kept_issuedBy i q ck (q.g.moveTo q.sub (nextPc q.pc))))
  obtain ⟨outside, others, cores, clusters⟩ := wentState_frame q ck (performedGrp i q ck) s (performedGrp_id i q ck)
  refine ⟨_, _, settled, grp, ?_, vregs, sregs, preds, ?_, kept, outside, others, cores, clusters⟩
  · rw [wentState_grp q ck _ s (performedGrp_id i q ck), if_pos rfl, grp]; rfl
  · exact fun L hL => lane_performed i q ck _ q.g L (by rw [shaped_lanes _ shaped]; exact hL)

/-- Settles O56: the guard of the filler word negates p15, so that no lane executes it and R42 gives what it does. -/
theorem fillerWord : Obligations.FillerWord := by
  unfold Obligations.FillerWord
  refine ⟨filler_decodes, by decide, by decide, fun s q issues => ?_⟩
  have empty : q.act = 0#64 := by
    obtain ⟨-, guards⟩ := issuing_sig fillerInstr s q issues
    rw [issuing_act fillerInstr s q issues]
    exact active_not_p15 q.g q.pf q.sub (by rw [← Option.some.inj guards])
  refine ⟨empty, fun fits shaped unstepped => ?_⟩
  obtain ⟨t, g, runs, goes⟩ := empty_goes fillerInstr fillerMeaning s q issues fits empty rfl shaped unstepped
  exact ⟨t, g, (exec_filler s).trans runs, goes.after, goes.vregs, goes.sregs, goes.preds,
    advances_of q g q.g _ _ goes.lanes fun _ _ => rfl, goes.kept, goes.rest⟩

end Sys2Proof.Proofs

/-!
The statement about quotients and remainders (R142): what IDIV and IREM compute in a lane, and the two instructions.
-/
namespace Sys2Proof.Proofs
open Sys2Proof Sys2Proof.Machine Sys2Proof.Laws

/-! ### Operands as bits and as integers (R139) -/

theorem ofInt_nInt (o : F5) (x : Opnd) (g : Group) (L : Nat) : BitVec.ofInt (ivN o) (nInt o x g L) = nBits o x g L := by
  unfold nInt
  split
  · exact BitVec.ofInt_toInt
  · rw [BitVec.ofInt_natCast, BitVec.ofNat_toNat, BitVec.setWidth_eq]
theorem nInt_eq_zero (o : F5) (x : Opnd) (g : Group) (L : Nat) : nInt o x g L = 0 ↔ nBits o x g L = 0#_ := by
  constructor
  · intro zero
    rw [← ofInt_nInt, zero]
    rfl
  · intro zero
    simp [nInt, zero]
theorem intBits_nInt (o : F5) (x : Opnd) (g : Group) (L : Nat) : intBits (nInt o x g L) (ivN o) = (nBits o x g L).setWidth 64 := by
  rw [intBits_eq _ _ (ivN_cases o), ofInt_nInt]
theorem intBits_neg_one (o : F5) : intBits (-1) (ivN o) = (BitVec.allOnes (ivN o)).setWidth 64 := by
  rw [intBits_eq _ _ (ivN_cases o)]
  exact congrArg _ (BitVec.ofInt_neg.trans BitVec.neg_one_eq_allOnes)

/-! ### Quotients and remainders (R142) -/

/-- IDIV in a lane: all ones with DZ alone, or the truncated quotient under R139. -/
theorem idivRes_eq (o : F5) (g : Group) (L : Nat) :
    idivRes o (ia o o.a g L) (ia o o.b g L) =
      { v := if nBits o o.b g L = 0#_ then (BitVec.allOnes (ivN o)).setWidth 64
          else nResult o (ivN o) ((nInt o o.a g L).tdiv (nInt o o.b g L))
        fl := if nBits o o.b g L = 0#_ then 0b001000#6 else nFlags o (ivN o) ((nInt o o.a g L).tdiv (nInt o o.b g L)) } := by
  simp only [idivRes, nInt_eq, beq_iff_eq, nInt_eq_zero, intBits_neg_one]
  split
  · rfl
  · obtain ⟨value, flags⟩ := intRes_eq o ((nInt o o.a g L).tdiv (nInt o o.b g L)) (ivN o) (ivN_cases o)
    rw [← value, ← flags]
/-- IREM in a lane: a with DZ alone, or a less b times the truncated quotient, without a flag. -/
theorem iremRes_eq (o : F5) (g : Group) (L : Nat) :
    iremRes o (ia o o.a g L) (ia o o.b g L) =
      { v := if nBits o o.b g L = 0#_ then (nBits o o.a g L).setWidth 64
          else (BitVec.ofInt (ivN o) (nInt o o.a g L - nInt o o.b g L * (nInt o o.a g L).tdiv (nInt o o.b g L))).setWidth 64
        fl := if nBits o o.b g L = 0#_ then 0b001000#6 else 0#6 } := by
  simp only [iremRes, nInt_eq, beq_iff_eq, nInt_eq_zero, intBits_nInt]
  split
  · rfl
  · rw [intBits_eq _ _ (ivN_cases o), Int.tmod_def]
    rfl

/-- An N-wide lane operation of two operands gives the value and the flags of its lane function. -/
theorem laneOp_gives_of_sigInt2 (i : Instr) (o : F5) (sat : Bool) {f : Group → Nat → LaneRes} {val : Group → Nat → DWord}
    {fl : Group → Nat → Flags} (lane : ∀ g L, f g L = { v := val g L, fl := fl g L }) (sig : sigOf i = some (sigInt2 o sat))
    (runs : ∀ s, exec i s = runI i (laneOp o.d (ivW o) (ivSigned o) f) s) :
    Gives i o.d (ivW o) (ivSigned o) (fun _ q L => val q.g L) (fun q L => fl q.g L) := by
  refine laneOp_gives i o.d (ivW o) (ivSigned o) f _ _ runs (ivW_cases o) (fun s q performs => ?_) (fun s q _ L _ => ?_) (fun s q _ L _ => ?_)
  · exact dest_fits i s q performs _ sig (dstVS o.d (ivW o)) (by simp [sigInt2, sigInt]) rfl
  · simp only [lane, implies_true, and_self]
  · simp only [lane]

/-- Settles O2: IDIV and IREM are N-wide lane operations, and their lane functions are the rows of R142. -/
theorem integerDivision : Obligations.IntegerDivision := by
  intro o
  have idiv := laneOp_gives_of_sigInt2 (.idiv o) o true (idivRes_eq o) rfl fun _ => rfl
  have irem := laneOp_gives_of_sigInt2 (.irem o) o false (iremRes_eq o) rfl fun _ => rfl
  exact ⟨idiv, irem⟩

end Sys2Proof.Proofs

/-!
The statement about decode and encode (R30, R31, R59).
-/
namespace Sys2Proof.Proofs
open Sys2Proof Sys2Proof.Machine Sys2Proof.Laws

/-! ### Words and instructions (R30, R31, R59) -/

/-- An opcode of format F5 reads its own words back. -/
theorem ofOpc_f5_enc {opc : BitVec 10} {C : F5 → Instr} (o : F5)
    (row : ∀ w, decOpc w = opc → ofOpc w = .ok ((F5.dec w).map C)) : ofOpc (o.enc opc) = .ok (some (C o)) := by
  rw [row _ (f5_opc opc o), f5_dec_enc]
  rfl
/-- An opcode of format FRI reads its own words back. -/
theorem ofOpc_fri_enc {opc : BitVec 10} {C : FRI → Instr} (o : FRI)
    (row : ∀ w, decOpc w = opc → ofOpc w = .ok ((FRI.dec w).map C)) : ofOpc (o.enc opc) = .ok (some (C o)) := by
  rw [row _ (fri_opc opc o), fri_dec_enc]
  rfl
/-- An opcode of format FM reads its own words back. -/
theorem ofOpc_fm_enc {opc : BitVec 10} {C : FM → Instr} (o : FM)
    (row : ∀ w, decOpc w = opc → ofOpc w = .ok ((FM.dec w).map C)) : ofOpc (o.enc opc) = .ok (some (C o)) := by
  rw [row _ (fm_opc opc o), fm_dec_enc]
  rfl
/-- An opcode of format FB reads its own words back. -/
theorem ofOpc_fb_enc {opc : BitVec 10} {C : FB → Instr} (o : FB)
    (row : ∀ w, decOpc w = opc → ofOpc w = .ok ((FB.dec w).map C)) : ofOpc (o.enc opc) = .ok (some (C o)) := by
  rw [row _ (fb_opc opc o), fb_dec_enc]
  rfl
/-- An opcode of format FX reads its own words back. -/
theorem ofOpc_fx_enc {opc : BitVec 10} {C : FX → Instr} (o : FX)
    (row : ∀ w, decOpc w = opc → ofOpc w = .ok ((FX.dec w).map C)) : ofOpc (o.enc opc) = .ok (some (C o)) := by
  rw [row _ (fx_opc opc o), fx_dec_enc]
  rfl
/-- An opcode of format FY reads its own words back. -/
theorem ofOpc_fy_enc {opc : BitVec 10} {C : FY → Instr} (o : FY)
    (row : ∀ w, decOpc w = opc → ofOpc w = .ok ((FY.dec w).map C)) : ofOpc (o.enc opc) = .ok (some (C o)) := by
  rw [row _ (fy_opc opc o), fy_dec_enc]
  rfl

/-- The opcode map and the encoder agree on every instruction word (R59). -/
theorem ofOpc_encode (i : Instr) (word : Instr.isWord i = true) : ofOpc (encode i) = .ok (some i) := by
  cases i
  case elect o | iadd o | isub o | iaddc o | imul o | imulh o | imad o | imadw o | idiv o | irem o | ishl o | ishr o | isra o | irot o |
      logic o | bfx o | bfi o | popc o | clz o | ctz o | brev o | imin o | imax o | iabs o | icmp o | dot4 o | dot8 o | mov o | movs o |
      sel o | plog o | pmov o | fadd o | fsub o | fmul o | fma o | fmin o | fmax o | fcmp o | fclass o | frcp o | frsq o | fsqrt o |
      fdiv o | fexp2 o | flog2 o | fsin o | fcos o | hadd2 o | hmul2 o | hfma2 o | dadd o | dmul o | dfma o | cvt o | pack o | unpack o |
      shfl o | lred o | lscan o | vote o | ballot o | bcast o | send o | sendx o | recv o | rpeek o | pstat o | wearrd o | budrd o =>
    refine ofOpc_f5_enc o fun w opc => ?_
    unfold ofOpc
    rw [opc]
    rfl
  case nap o | movi o =>
    refine ofOpc_fri_enc o fun w opc => ?_
    unfold ofOpc
    rw [opc]
    rfl
  case ld o | st o | ldro o | atom o | cas o | pref o | put o | puts o | xqry o | sld o | sst o | satom o | cpy o | tld o | tst o |
      cbload o =>
    refine ofOpc_fm_enc o fun w opc => ?_
    unfold ofOpc
    rw [opc]
    rfl
  case bra o | bri o | call o | calli o | ret o | rcv o | spawn o =>
    refine ofOpc_fb_enc o fun w opc => ?_
    unfold ofOpc
    rw [opc]
    rfl
  case tzero o | czero o | mma o | mmake4m3 o | mmake5m2 o | mmake3m2 o | mmake2m3 o | mmake2m1 o | mmacb o | qnt o | dqnt o | crd o |
      cwr o =>
    refine ofOpc_fx_enc o fun w opc => ?_
    unfold ofOpc
    rw [opc]
    rfl
  -- the last of these, `_`, is SEAL's goal, the first that is left: its name is a word of Lean's
  case exit o | waypt o | tbar o | binfl o | yield o | rosync o | fence o | winwait o | winrd o | cstart o | stage o | cwait o |
      ctest o | patarm o | patdis o | mopen o | mclose o | mwait o | task o | sheet o | qnote o | sys o | sysa o | sysw o | trap o |
      bkpt o | fchk o | sealx o | _ o =>
    refine ofOpc_fy_enc o fun w opc => ?_
    unfold ofOpc
    rw [opc]
    rfl
  all_goals cases word

/-- What decodes is the word of what it decodes to, and well formed (R56). -/
theorem decode_ok {w : BitVec 96} {i : Instr} (reads : decode w = .ok i) : encode i = w ∧ i.wf = true ∧ ofOpc w = .ok (some i) := by
  unfold decode at reads
  split at reads
  · cases reads
  · cases reads
  next j row =>
    split at reads
    · cases reads
    next same =>
      split at reads
      next formed =>
        cases reads
        exact ⟨by simpa using same, formed, row⟩
      · cases reads
theorem decode_encode (i : Instr) (formed : i.wf = true) (word : Instr.isWord i = true) : decode (encode i) = .ok i := by
  simp [decode, ofOpc_encode i word, formed]
/-- The steps that are no instruction words have no encoding (R59). -/
theorem encode_of_not_word (i : Instr) : Instr.isWord i = false → encode i = 0#96 := by
  cases i
  all_goals
    intro event
    cases event
  all_goals rfl
/-- What the opcode map names is an instruction word: the zero word, which stands for the steps that are none, is a BRA. -/
theorem isWord_of_decode {w : BitVec 96} {i : Instr} (reads : decode w = .ok i) : Instr.isWord i = true := by
  by_contra event
  obtain ⟨same, -, row⟩ := decode_ok reads
  rw [Bool.not_eq_true] at event
  have zero : ofOpc 0#96 = .ok (some i) := by rw [← encode_of_not_word i event, same, row]
  cases zero
  cases event

/-- Settles O50: decoding reads the fields of each format back, and answers only with what encodes to the word. -/
theorem wordsAndInstructionsAgree : Obligations.WordsAndInstructionsAgree := by
  refine ⟨decode_encode, fun w i reads => ?_⟩
  obtain ⟨same, formed, -⟩ := decode_ok reads
  exact ⟨same, formed, isWord_of_decode reads⟩

end Sys2Proof.Proofs

/-!
The statements about integer and bitwise instructions, comparisons, choices and moves (R139 to R152).
-/
namespace Sys2Proof.Proofs
open Sys2Proof Sys2Proof.Machine Sys2Proof.Laws

/-! ### Operands and destinations of a word that is performed -/

theorem toNat_nBits (o : F5) (x : Opnd) (g : Group) (L : Nat) : (nBits o x g L).toNat = (g.rd x (ivW o) L).toNat := by
  rw [nBits, BitVec.toNat_ofNat, Nat.mod_eq_of_lt (rd_lt g o x L)]
theorem nInt_unsigned {o : F5} (x : Opnd) (g : Group) (L : Nat) (unsigned : ivSigned o = false) : nInt o x g L = (nBits o x g L).toNat := by
  simp [nInt, unsigned]
theorem nInt_signed {o : F5} (x : Opnd) (g : Group) (L : Nat) (signed : ivSigned o = true) : nInt o x g L = (nBits o x g L).toInt := by
  simp [nInt, signed]
theorem zero_lt_ivN (o : F5) : 0 < ivN o := by
  rcases ivN_cases o with n | n <;> rw [n] <;> decide
/-- What the type's condition of a performed integer word says. -/
theorem ty_ok_of_performs {i : Instr} {s : State} {q : Q} (performs : Performs i s q) {o : F5} {ty : TyOk} {sat opx imm : Bool} {uses : List Use}
    {zero : List Opnd} (sig : sigOf i = some (sigInt o ty sat uses zero opx imm)) : ty.ok o = true ∧ (sat = false → ivSat o = false) := by
  obtain ⟨ok, -, -⟩ := formed_sig i s q performs _ sig
  simp only [sigInt, Bool.and_eq_true, Bool.or_eq_true, Bool.not_eq_true'] at ok
  obtain ⟨⟨⟨⟨type, saturates⟩, -⟩, -⟩, -⟩ := ok
  exact ⟨type, fun plain => saturates.resolve_left (by simp [plain])⟩
theorem unsigned_of_ty {o : F5} (h : TyOk.unsignedOnly.ok o = true) : ivSigned o = false := by
  simpa [TyOk.ok] using h
theorem signed_of_ty {o : F5} (h : TyOk.signedOnly.ok o = true) : ivSigned o = true := h

/-- An operand that must be a predicate is one. -/
theorem predicate_of_use {i : Instr} {s : State} {q : Q} (performs : Performs i s q) {sg : Sig} (sig : sigOf i = some sg) (x : Opnd)
    (kinds : { o := x, ks := [.p] : Use } ∈ sg.uses ∨ { o := x, ks := [.p], dst := true : Use } ∈ sg.uses) : ∃ n, x = .p n := by
  obtain ⟨-, uses, -⟩ := formed_sig i s q performs sg sig
  have kind : [Kind.p].contains (opndKind x) = true := by
    rcases kinds with use | use
    · have := uses _ use; simp only [Use.ok, Bool.and_eq_true] at this; exact this.1
    · have := uses _ use; simp only [Use.ok, Bool.and_eq_true] at this; exact this.1
  cases x with
  | p n => exact ⟨n, rfl⟩
  | _ => cases kind
theorem rd_pred (g : Group) (x : Opnd) (w L : Nat) (n : BitVec 4) (p : x = .p n) : (g.rd x w L == 1#64) = predTrue x g L := by
  subst p
  simp only [Group.rd, predTrue]
  cases g.p n.toNat L <;> rfl

/-! ### Sums, products and carries (R139 to R141) -/

theorem iaddcSum_eq {o : F5} {g : Group} {L : Nat} (unsigned : ivSigned o = false) {n : BitVec 4} (p : o.c = .p n) :
    iaddcSum o g L = ((nBits o o.a g L).toNat + (nBits o o.b g L).toNat + (predTrue o.c g L).toNat : Nat) := by
  simp only [iaddcSum, nInt_eq, nInt_unsigned _ _ _ unsigned, rd_pred g o.c 1 L n p]
  cases predTrue o.c g L <;> simp

/-! ### What a meaning that changes its group alone gives -/

/-- The group that an instruction leaves has the registers of the group that its meaning answers with, moved on. -/
theorem group_gives {i : Instr} {body : Q → State → Res} {s : State} {q : Q} {G : Group} {fl : Nat → Flags} {sr : Nat → Word}
    (performs : Performs i s q) (runs : exec i s = runI i body s) (answers : body q s = .grp s G) (id : G.id = q.g.id)
    (stepping : G.stepping = q.g.stepping) (length : G.lanes.length = q.g.lanes.length)
    (lanes : ∀ L, L < q.g.width → G.lane L = { q.g.lane L with fflags := fl L, sr := sr L }) (kept : Kept q G) :
    ∃ t g, exec i s = .next t ∧ t.grp? q.g.id = some g ∧ g.vregs = G.vregs ∧ g.sregs = G.sregs ∧ g.preds = G.preds ∧
      Advances q g fl sr ∧ Kept q g ∧ OnlyGroup s t q := by
  obtain ⟨t, g, runs', grp, vregs, sregs, preds, moved, same, only⟩ := performs_grp i body s q G performs answers id
    (stepping.trans performs.unstepped) (length.trans (shaped_lanes _ performs.shaped))
  exact ⟨t, g, runs.trans runs', grp, vregs, sregs, preds, advances_of q g G fl sr moved lanes, kept_trans same kept, only⟩
/-- Destinations look at registers alone. -/
theorem dest_of_regs {d : Opnd} {w : Nat} {signed : Bool} {q : Q} {g G : Group} {val : Nat → DWord} (vregs : g.vregs = G.vregs)
    (sregs : g.sregs = G.sregs) (dest : Dest d w signed q G val) : Dest d w signed q g val := by
  have v (r L : Nat) : g.v r L = G.v r L := by unfold Group.v; rw [vregs]
  have sc (r : Nat) : g.s r = G.s r := by unfold Group.s; rw [sregs]
  cases d <;> simpa only [Dest, v, sc, vregs, sregs] using dest
theorem p_of_preds {g G : Group} (preds : g.preds = G.preds) (r L : Nat) : g.p r L = G.p r L := by
  unfold Group.p; rw [preds]
/-- A predicate written in the lanes that execute. -/
theorem p_putBool {q : Q} {g : Group} (n : BitVec 4) (vals : List Bool) (shaped : q.g.shaped = true) (preds : g.preds = q.g.preds)
    (width : g.width = q.g.width) {r L : Nat} (lane : L < q.g.width) : (g.putBool q.pf (.p n) q.act vals).p r L =
      if q.act.getLsbD L = true ∧ r = n.toNat ∧ r < 15 then vals.getD L false else q.g.p r L := by
  have few := shaped_width _ shaped
  unfold Group.putBool
  rw [p_setP g _ _ _ r L (by rw [preds]; exact shaped_preds _ shaped) (by omega), getLsbD_maskOf _ (by omega), p_of_preds preds]
  simp [width, lane]

/-- A 64-bit operand as an integer. -/
theorem int64_eq (x : Opnd) (signed : Bool) (g : Group) (L : Nat) :
    rdI g x 2 signed L = if signed then (g.rd x 2 L).toInt else ((g.rd x 2 L).toNat : Int) := by
  rw [rdI, readInt_bits _ _ _ (by decide), BitVec.ofNat_toNat, BitVec.setWidth_eq]

/-! ### IADDC (R141) -/

theorem setGrp_modGrp (s : State) (G : Group) (k : Nat) (f : Group → Group) (id : G.id = k) (same : (f G).id = k) :
    (s.setGrp G).modGrp k f = s.setGrp (f G) := by
  subst id
  unfold State.modGrp State.setGrp
  simp only [List.map_map, same]
  congr 2
  refine funext fun h => ?_
  by_cases at_ : h.id = G.id <;> simp [at_]
theorem intRes_plain {x : Int} {n : Nat} {signed : Bool} : intRes x n signed false = { v := intBits x n } := rfl
theorem intBits_natCast (x n : Nat) : intBits (x : Int) n = BitVec.ofNat 64 (x % 2 ^ n) := by
  unfold intBits wrapNat
  congr 1

theorem orFlags_none (g : Group) (m : Mask) : g.orFlags m (fun _ => 0#6) = g := by
  have same : g.lanes.mapIdx (fun L l => if m.getLsbD L then { l with fflags := l.fflags ||| 0#6 } else l) = g.lanes := by
    apply List.ext_getElem <;> simp
  simp only [Group.orFlags, Group.modLanes, same]

/-- The sum that IADDC takes in a lane: both operands and the carry in. -/
def carrySum (o : F5) (g : Group) (L : Nat) : Nat := (nBits o o.a g L).toNat + (nBits o o.b g L).toNat + (predTrue o.c g L).toNat
/-- The group with the sums in their destination. -/
def withSums (o : F5) (q : Q) : Group :=
  q.g.put q.pf o.d (ivW o) false q.act ((List.range q.g.width).map fun L => BitVec.ofNat 64 (carrySum o q.g L % 2 ^ ivN o))
/-- The group after IADDC: the sums in their destination, the carries out in predicate E. -/
def iaddcGroup (o : F5) (q : Q) : Group :=
  (withSums o q).putBool q.pf o.e q.act ((List.range q.g.width).map fun L => decide (2 ^ ivN o ≤ carrySum o q.g L))

theorem iaddcGroup_kept (o : F5) (q : Q) : (iaddcGroup o q).id = q.g.id ∧ (iaddcGroup o q).stepping = q.g.stepping ∧
    (iaddcGroup o q).lanes = q.g.lanes ∧ Kept q (iaddcGroup o q) := by
  obtain ⟨id, stepping, lanes, -, -, batches, calls, st, save, frame⟩ :=
    put_kept q.g q.pf o.d (ivW o) false q.act ((List.range q.g.width).map fun L => BitVec.ofNat 64 (carrySum o q.g L % 2 ^ ivN o))
  obtain ⟨id', stepping', lanes', -, -, batches', calls', st', save', frame'⟩ :=
    putBool_kept (withSums o q) q.pf o.e q.act ((List.range q.g.width).map fun L => decide (2 ^ ivN o ≤ carrySum o q.g L))
  exact ⟨id'.trans id, stepping'.trans stepping, lanes'.trans lanes, batches'.trans batches, calls'.trans calls, st'.trans st,
    save'.trans save, frame'.trans frame⟩

/-- The lane results of IADDC, whose type is unsigned and does not saturate. -/
theorem iaddcRes_eq {o : F5} (unsigned : ivSigned o = false) (plain : ivSat o = false) {n : BitVec 4} (p : o.c = .p n) (g : Group) (L : Nat) :
    intRes (iaddcSum o g L) (ivN o) (ivSigned o) (ivSat o) = { v := BitVec.ofNat 64 (carrySum o g L % 2 ^ ivN o) } := by
  rw [plain, intRes_plain, iaddcSum_eq unsigned p, intBits_natCast]
  rfl
theorem carry_iff {o : F5} (unsigned : ivSigned o = false) {n : BitVec 4} (p : o.c = .p n) (g : Group) (L : Nat) :
    decide ((2 : Int) ^ ivN o ≤ iaddcSum o g L) = decide (2 ^ ivN o ≤ carrySum o g L) := by
  rw [iaddcSum_eq unsigned p]
  exact decide_eq_decide.mpr (by exact_mod_cast Iff.rfl)
theorem flagsFor_none {α : Type} (b : Bool) (m : Mask) (ls : List α) (v : α → DWord) :
    flagsFor b m (ls.map fun x => { v := v x }) = fun _ => 0#6 := by
  funext L
  simp only [flagsFor, List.getD_eq_getElem?_getD, List.getElem?_map]
  cases ls[if b = true then lowest m else L]? <;> rfl

theorem withSums_kept (o : F5) (q : Q) :
    (withSums o q).id = q.g.id ∧ (withSums o q).preds = q.g.preds ∧ (withSums o q).width = q.g.width :=
  ⟨put_id .., put_preds .., put_width ..⟩
theorem iaddcGroup_regs {o : F5} (q : Q) {n : BitVec 4} (p : o.e = .p n) :
    (iaddcGroup o q).vregs = (withSums o q).vregs ∧ (iaddcGroup o q).sregs = (withSums o q).sregs := by
  refine ⟨putBool_vregs .., ?_⟩
  rw [iaddcGroup, p]
  rfl
theorem p_eq_iff (n : BitVec 4) (r : Nat) (low : r < 15) : r = n.toNat ↔ Opnd.p n = Opnd.p (BitVec.ofNat 4 r) := by
  rw [Opnd.p.injEq, BitVec.toNat_eq, BitVec.toNat_ofNat, Nat.mod_eq_of_lt (by omega), eq_comm]

theorem iaddc_gives (o : F5) (s : State) (q : Q) (performs : Performs (.iaddc o) s q) :
    ∃ t g, exec (.iaddc o) s = .next t ∧ t.grp? q.g.id = some g ∧
      Dest o.d (ivW o) false q g (fun L => BitVec.ofNat 64 (carrySum o q.g L % 2 ^ ivN o)) ∧
      (∀ r L, L < q.g.width → g.p r L =
        if q.act.getLsbD L = true ∧ o.e = .p (BitVec.ofNat 4 r) ∧ r < 15 then decide (2 ^ ivN o ≤ carrySum o q.g L) else q.g.p r L) ∧
      Advances q g (fun L => (q.g.lane L).fflags) (fun L => (q.g.lane L).sr) ∧ Kept q g ∧ OnlyGroup s t q := by
  have sig : sigOf (.iaddc o) = some (sigIaddc o) := rfl
  obtain ⟨type, unsat⟩ := ty_ok_of_performs performs sig
  have unsigned := unsigned_of_ty type
  obtain ⟨m, carryIn⟩ := predicate_of_use performs sig o.c (.inl (by simp [sigIaddc, sigInt, srcP]))
  obtain ⟨n, carryOut⟩ := predicate_of_use performs sig o.e (.inr (by simp [sigIaddc, sigInt, dstP]))
  obtain ⟨id, stepping, lanes, kept⟩ := iaddcGroup_kept o q
  obtain ⟨sumId, sumPreds, sumWidth⟩ := withSums_kept o q
  have fits := dest_fits _ s q performs _ sig (dstVS o.d (ivW o)) (by simp [sigIaddc, sigInt]) rfl
  have performed : execIaddc o s = runI (.iaddc o) _ s := rfl
  have answers : intOp o (iaddcSum o) q s = .ok (s.setGrp (withSums o q)) := by
    simp only [intOp, laneOp, Res.grp, iaddcRes_eq unsigned (unsat rfl) carryIn, flagsFor_none, orFlags_none, List.map_map, Function.comp_def]
    rw [unsigned]
    rfl
  obtain ⟨t, g, runs, grp, vregs, sregs, preds, advances, kept, only⟩ := group_gives (G := iaddcGroup o q) performs performed (by
    simp only [answers, carry_iff unsigned carryIn]
    rw [setGrp_modGrp _ _ _ _ sumId ((putBool_id _ _ _ _ _).trans sumId), sumWidth]
    rfl) id stepping (congrArg _ lanes) (fun L _ => by unfold Group.lane; rw [lanes]) kept
  refine ⟨t, g, runs, grp, ?_, fun r L lane => ?_, advances, kept, only⟩
  · have dest := dest_put (withSums o q) q o.d (ivW o) false _ performs.shaped rfl (ivW_cases o) fits (by simp)
    obtain ⟨vregs', sregs'⟩ := iaddcGroup_regs q carryOut
    refine Dest_congr _ _ _ _ _ _ _ (fun L lane => ?_) (lowest_width _ s q performs) (dest_of_regs (vregs.trans vregs') (sregs.trans sregs') dest)
    rw [range_getD _ _ _ _ lane]
    exact ⟨rfl, fun _ => rfl⟩
  · rw [p_of_preds preds, iaddcGroup, carryOut, p_putBool n _ performs.shaped sumPreds sumWidth lane, range_getD _ _ _ _ lane]
    by_cases low : r < 15
    · simp only [p_eq_iff n r low]
    · simp only [low, and_false]

/-- Settles O1: the instructions of R139 give their exact integers, IMULH the upper half of one, IMADW 64 bits; IADDC its sums and carries. -/
theorem integerArithmetic : Obligations.IntegerArithmetic := by
  have two {i : Instr} {o : F5} {sat : Bool} (f : Int → Int → Int) (sig : sigOf i = some (sigInt2 o sat))
      (runs : ∀ s, exec i s = runI i (intOp o fun g L => f (ia o o.a g L) (ia o o.b g L)) s) :
      GivesInt i o fun g L => f (nInt o o.a g L) (nInt o o.b g L) :=
    intOp_gives i o _ _ _ sig (by simp [sigInt2, sigInt]) runs fun s q _ L _ => by simp only [nInt_eq]
  refine ⟨fun o => ⟨two (· + ·) rfl fun _ => rfl, two (· - ·) rfl fun _ => rfl, two (· * ·) rfl fun _ => rfl, ?_, ?_, ?_⟩, iaddc_gives⟩
  case refine_1 =>
    exact intOp_gives (.imad o) o _ _ (sigImad o) rfl (by simp [sigImad, sigInt]) (fun _ => rfl) fun s q _ L _ => by simp only [nInt_eq]
  case refine_2 =>
    refine intOp_bits (.imulh o) o _ _ (sigInt2 o false) rfl (by simp [sigInt2, sigInt]) (fun _ => rfl) (fun s q performs => ?_)
      fun s q _ L _ => by simp only [nInt_eq]
    exact (ty_ok_of_performs performs rfl).2 rfl
  case refine_3 =>
    intro x
    refine laneOp_gives (.imadw o) o.d 2 (ivSigned o) _ _ _ (fun _ => rfl) (.inr rfl) (fun s q performs => ?_) (fun s q _ L _ => ?_) (fun s q _ L _ => ?_)
    · exact dest_fits _ s q performs (sigImadw o) rfl (dstVS o.d 2) (by simp [sigImadw, sigInt]) rfl
    all_goals simp only [int32_eq, int64_eq]
    · simp only [(intRes_eq o _ 64 (.inr rfl)).1]
      exact ⟨rfl, fun _ => rfl⟩
    · exact (intRes_eq o _ 64 (.inr rfl)).2

end Sys2Proof.Proofs

/-!
Shifts, rotates, counts, fields and reversed bits as functions of bit vectors (R143 to R145).
-/
namespace Sys2Proof.Proofs
open Sys2Proof Sys2Proof.Machine Sys2Proof.Laws

/-! ### Shifts (R143) -/

theorem ofInt_shlInt {n : Nat} (x : BitVec n) (c : Nat) : BitVec.ofInt n (shlInt n x.toNat c) = x <<< c := by
  apply BitVec.eq_of_toNat_eq
  unfold shlInt
  split
  · rw [BitVec.toNat_shiftLeft, Nat.shiftLeft_eq, BitVec.toNat_ofInt]
    exact_mod_cast rfl
  · next far => rw [BitVec.shiftLeft_eq_zero (by omega)]; simp
theorem ofInt_shrInt {n : Nat} (x : BitVec n) (c : Nat) : BitVec.ofInt n (shrInt n x.toNat c) = x >>> c := by
  have value : BitVec.ofInt n (shrInt n x.toNat c) = BitVec.ofNat n (x.toNat / 2 ^ min c n) := by
    rw [← BitVec.ofInt_natCast]
    exact congrArg _ (by simp [shrInt])
  rw [value]
  apply BitVec.eq_of_toNat_eq
  rw [BitVec.toNat_ushiftRight, Nat.shiftRight_eq_div_pow, BitVec.toNat_ofNat, Nat.mod_eq_of_lt ((Nat.div_le_self ..).trans_lt x.isLt)]
  rcases Nat.le_total c n with near | far
  · rw [min_eq_left near]
  · rw [min_eq_right far, Nat.div_eq_of_lt x.isLt, Nat.div_eq_of_lt (x.isLt.trans_le (Nat.pow_le_pow_right (by decide) far))]
/-- A value of n bits after a shift by n - 1 or more is its sign. -/
theorem ediv_two_pow_of_far {x : Int} {m c : Nat} (low : -2 ^ m ≤ x) (high : x < 2 ^ m) (far : m ≤ c) : x / 2 ^ c = if x < 0 then -1 else 0 := by
  have grows : (2 : Int) ^ m ≤ 2 ^ c := pow_le_pow_right₀ (by decide) far
  split
  · next neg => exact Int.ediv_eq_neg_one_of_neg_of_le neg (by omega)
  · next nonneg => exact Int.ediv_eq_zero_of_lt (by omega) (by omega)
theorem ofInt_sraInt {n : Nat} (x : BitVec n) (c : Nat) : BitVec.ofInt n (sraInt n x.toInt c) = x.sshiftRight c := by
  rw [BitVec.sshiftRight_eq, Int.shiftRight_eq_div_pow, sraInt]
  congr 1
  push_cast
  rcases Nat.le_total c (n - 1) with near | far
  · rw [min_eq_left near]
  · rw [min_eq_right far, ediv_two_pow_of_far (BitVec.le_toInt x) BitVec.toInt_lt le_rfl, ediv_two_pow_of_far (BitVec.le_toInt x) BitVec.toInt_lt far]

/-! ### Rotates (R143) -/

/-- A left rotate as a sum: the bits that move up and the bits that come round. -/
theorem rotl_eq_add {n : Nat} (x r : Nat) (small : x < 2 ^ n) (inside : r ≤ n) : x <<< r % 2 ^ n ||| x >>> (n - r) = x * 2 ^ r % 2 ^ n + x / 2 ^ (n - r) := by
  have below : x / 2 ^ (n - r) < 2 ^ r := by
    rw [Nat.div_lt_iff_lt_mul (by positivity), ← Nat.pow_add, Nat.add_sub_cancel' inside]
    exact small
  have above : x * 2 ^ r % 2 ^ n = (x % 2 ^ (n - r)) <<< r := by
    rw [Nat.shiftLeft_eq, ← Nat.mul_mod_mul_right, ← Nat.pow_add, Nat.sub_add_cancel inside]
  rw [Nat.shiftLeft_eq, Nat.shiftRight_eq_div_pow, above, Nat.shiftLeft_add_eq_or_of_lt below]
/-- How far a rotate turns to the left. -/
theorem rotInt_eq {n : Nat} (pos : 0 < n) (right : Bool) (x : BitVec n) (c : Nat) :
    rotInt n right x.toNat c = ((if right then x.rotateRight c else x.rotateLeft c).toNat : Int) := by
  have turn := Nat.mod_lt c pos
  unfold rotInt
  cases right with
  | false =>
    simp only [Bool.false_eq_true, if_false, BitVec.toNat_rotateLeft, Int.toNat_natCast]
    rw [rotl_eq_add _ _ x.isLt turn.le]
  | true =>
    simp only [if_true, BitVec.toNat_rotateRight, Int.toNat_natCast]
    rw [Nat.or_comm]
    rcases Nat.eq_zero_or_pos (c % n) with none | some
    · simp [none, Nat.shiftLeft_eq, Nat.mod_eq_of_lt x.isLt, Nat.div_eq_of_lt x.isLt]
    · have back : n - (n - c % n) = c % n := by omega
      have whole := rotl_eq_add x.toNat (n - c % n) x.isLt (by omega)
      rw [back] at whole
      rw [Nat.mod_eq_of_lt (a := n - c % n) (by omega), back, whole]
theorem ofInt_rotInt {n : Nat} (pos : 0 < n) (right : Bool) (x : BitVec n) (c : Nat) :
    BitVec.ofInt n (rotInt n right x.toNat c) = if right then x.rotateRight c else x.rotateLeft c := by
  rw [rotInt_eq pos, BitVec.ofInt_natCast, BitVec.ofNat_toNat, BitVec.setWidth_eq]

/-! ### Counts and reversed bits (R140) -/

theorem popc_eq_countP (n x : Nat) : popc n x = (List.range n).countP fun i => x.testBit i := by
  induction n generalizing x with
  | zero => rfl
  | succ n ih =>
    rw [popc, ih, List.range_succ_eq_map, List.countP_cons, List.countP_map]
    simp only [Function.comp_def, Nat.succ_eq_add_one, Nat.testBit_succ, Nat.testBit_zero]
    rcases Nat.mod_two_eq_zero_or_one x with even | odd <;> simp [*, Nat.add_comm]
theorem brev_lt (n x : Nat) : brev n x < 2 ^ n := by
  induction n generalizing x with
  | zero => simp [brev]
  | succ n ih =>
    have := ih (x / 2)
    have bit : x % 2 < 2 := Nat.mod_lt _ (by decide)
    rw [brev, Nat.pow_succ]
    nlinarith
theorem testBit_brev (n x i : Nat) (inside : i < n) : (brev n x).testBit i = x.testBit (n - 1 - i) := by
  induction n generalizing x with
  | zero => omega
  | succ n ih =>
    rw [brev, Nat.mul_comm, Nat.testBit_two_pow_mul_add _ (brev_lt n _)]
    split
    · next low =>
      rw [ih _ low, Nat.testBit_div_two]
      congr 1
      omega
    · next high =>
      rw [show i = n by omega]
      simp
theorem brev_eq_reverse {n : Nat} (x : BitVec n) : brev n x.toNat = x.reverse.toNat := by
  refine Nat.eq_of_testBit_eq fun i => ?_
  by_cases inside : i < n
  · rw [testBit_brev n _ i inside, ← BitVec.getLsbD, ← BitVec.getLsbD, BitVec.getLsbD_reverse, BitVec.getMsbD]
    simp [inside]
  · have above : 2 ^ n ≤ 2 ^ i := Nat.pow_le_pow_right (by decide) (by omega)
    rw [Nat.testBit_lt_two_pow ((brev_lt n _).trans_le above), Nat.testBit_lt_two_pow (x.reverse.isLt.trans_le above)]
/-- The count of trailing zeros is the place of the lowest one, or the width. -/
theorem ctz_spec (n x : Nat) : ctz n x ≤ n ∧ (∀ i, i < ctz n x → x.testBit i = false) ∧ (ctz n x < n → x.testBit (ctz n x) = true) := by
  induction n generalizing x with
  | zero => simp [ctz]
  | succ n ih =>
    obtain ⟨le, zeros, one⟩ := ih (x / 2)
    unfold ctz
    split
    · next odd => exact ⟨by omega, by simp, fun _ => by simpa [Nat.testBit_zero] using odd⟩
    · next even =>
      refine ⟨by omega, fun i below => ?_, fun inside => ?_⟩
      · cases i with
        | zero => simpa [Nat.testBit_zero] using even
        | succ i => rw [Nat.testBit_succ]; exact zeros i (by omega)
      · rw [Nat.add_comm, Nat.testBit_succ]
        exact one (by omega)
theorem reverse_zero (n : Nat) : (0#n).reverse = 0#n :=
  BitVec.eq_of_getLsbD_eq fun i _ => by simp [BitVec.getLsbD_reverse]
theorem ctz_eq {n : Nat} (x : BitVec n) : ctz n x.toNat = x.ctz.toNat := by
  obtain ⟨le, zeros, one⟩ := ctz_spec n x.toNat
  have width : (n : BitVec n).toNat = n := by
    rw [BitVec.natCast_eq_ofNat, BitVec.toNat_ofNat, Nat.mod_eq_of_lt Nat.lt_two_pow_self]
  by_cases zero : x = 0#n
  · subst zero
    rw [BitVec.ctz_eq_reverse_clz, BitVec.clz_eq_iff_eq_zero.mpr (reverse_zero n), width]
    by_contra short
    have := one (by omega)
    simp at this
  · have first := BitVec.getLsbD_true_ctz_of_ne_zero zero
    have inside : x.ctz.toNat < n := by
      have := BitVec.ctz_lt_iff_ne_zero.mpr zero
      rw [BitVec.lt_def, width] at this
      exact this
    rcases Nat.lt_trichotomy (ctz n x.toNat) x.ctz.toNat with below | same | above
    · have := BitVec.getLsbD_false_of_lt_ctz below
      rw [BitVec.getLsbD, one (by omega)] at this
      cases this
    · exact same
    · rw [BitVec.getLsbD, zeros _ above] at first
      cases first
theorem clz_eq {n : Nat} (x : BitVec n) : clz n x.toNat = x.clz.toNat := by
  rw [clz, brev_eq_reverse, ctz_eq, BitVec.clz_eq_reverse_ctz]

/-! ### Fields (R144, R145) -/

/-- Each bit of LOGIC's result is the bit of the table that its source bits select. -/
theorem getLsbD_logic64 (t : BitVec 8) (a b c : DWord) (i : Nat) (inside : i < 64) :
    (logic64 t a b c).getLsbD i = t.getLsbD (4 * (a.getLsbD i).toNat + 2 * (b.getLsbD i).toNat + (c.getLsbD i).toNat) := by
  have pick (k : Bool) (x : DWord) : (if k = true then x else 0#64).getLsbD i = (k && x.getLsbD i) := by cases k <;> simp
  simp only [logic64, BitVec.getLsbD_or, pick, BitVec.getLsbD_and, BitVec.getLsbD_not, inside, decide_true, Bool.true_and]
  cases a.getLsbD i <;> cases b.getLsbD i <;> cases c.getLsbD i <;> simp
theorem truth_eq (t : BitVec 8) (a b c : Bool) : truth t a b c = t.getLsbD (4 * a.toNat + 2 * b.toNat + c.toNat) := by
  cases a <;> cases b <;> cases c <;> rfl

/-- The mask of a field of BFI. -/
theorem testBit_fieldMask (n p len i : Nat) :
    ((2 ^ len - 1) * 2 ^ p % 2 ^ n).testBit i = (decide (i < n) && (decide (p ≤ i) && decide (i < p + len))) := by
  rw [Nat.testBit_mod_two_pow, Nat.mul_comm, Nat.testBit_two_pow_mul, Nat.testBit_two_pow_sub_one]
  by_cases start : p ≤ i
  · simp only [start, decide_true, Bool.true_and]
    congr 1
    exact decide_eq_decide.mpr (by omega)
  · simp [start]
/-- Parts of a number under a mask and of another under its complement add up without a carry. -/
theorem testBit_masked_add {n x y m : Nat} (fits : m < 2 ^ n) (i : Nat) (inside : i < n) :
    ((x &&& (2 ^ n - 1 - m)) + (y &&& m)).testBit i = if m.testBit i then y.testBit i else x.testBit i := by
  have flip (k : Nat) : (2 ^ n - 1 - m).testBit k = (decide (k < n) && !m.testBit k) := by
    rw [Nat.sub_sub, Nat.add_comm 1, Nat.testBit_two_pow_sub_succ fits]
  have disjoint : BitVec.ofNat (n + 1) (x &&& (2 ^ n - 1 - m)) &&& BitVec.ofNat (n + 1) (y &&& m) = 0#(n + 1) := by
    refine BitVec.eq_of_getLsbD_eq fun k _ => ?_
    simp only [BitVec.getLsbD_and, BitVec.getLsbD_ofNat, Nat.testBit_and, flip]
    cases m.testBit k <;> simp
  have sum := congrArg (fun z => z.getLsbD i) (BitVec.add_eq_or_of_and_eq_zero _ _ disjoint)
  simp only [← BitVec.ofNat_add, BitVec.getLsbD_ofNat, BitVec.getLsbD_or, Nat.testBit_and, flip, inside, Nat.lt_succ_of_lt inside, decide_true,
    Bool.true_and] at sum
  rw [sum]
  cases m.testBit i <;> simp
/-- BFI bit by bit. -/
theorem testBit_bfiNat (n a b p len i : Nat) (inside : i < n) :
    (bfiNat n a b p len).testBit i = if p ≤ i ∧ i < p + len then a.testBit (i - p) else b.testBit i := by
  unfold bfiNat
  dsimp only
  split
  · next none =>
    rw [Bool.or_eq_true, decide_eq_true_iff, beq_iff_eq] at none
    rw [if_neg (by omega)]
  · rw [testBit_masked_add (Nat.mod_lt _ (by positivity)) i inside, testBit_fieldMask, Nat.mul_comm a, Nat.testBit_two_pow_mul]
    simp only [inside, decide_true, Bool.true_and, Bool.and_eq_true, decide_eq_true_eq]
    by_cases start : p ≤ i
    · simp only [start, true_and, decide_true, Bool.true_and]
      exact if_congr (by omega) rfl rfl
    · simp [start]
/-- A bit of BFX's value from the position on: past the value's end it is the sign of a signed type. -/
def bfxBit {n : Nat} (signed : Bool) (a : BitVec n) (p j : Nat) : Bool := if p + j < n then a.getLsbD (p + j) else signed && a.msb
/-- The value of BFX with its sign in 256 bits and more above it. -/
theorem testBit_extended {n : Nat} (a : BitVec n) (sign : Bool) (k : Nat) (near : k < 2 * n + 256) :
    (if sign then a.toNat + (2 ^ (2 * n + 256) - 2 ^ n) else a.toNat).testBit k = if k < n then a.getLsbD k else sign := by
  have split_ : 2 ^ (2 * n + 256) - 2 ^ n = 2 ^ n * (2 ^ (n + 256) - 1) := by
    rw [Nat.mul_sub_one, ← Nat.pow_add, show 2 * n + 256 = n + (n + 256) by omega]
  cases sign with
  | false =>
    rw [if_neg (by decide), ← BitVec.getLsbD]
    split
    · rfl
    · exact BitVec.getLsbD_of_ge _ _ (by omega)
  | true =>
    rw [if_pos rfl, split_, Nat.add_comm, Nat.testBit_two_pow_mul_add _ a.isLt, Nat.testBit_two_pow_sub_one, decide_eq_true (by omega)]
    rfl
theorem getLsbD_bfxInt {n : Nat} (signed : Bool) (a : BitVec n) (p len i : Nat) (inside : i < n) (near : p < 256) :
    (BitVec.ofInt n (bfxInt n signed a.toNat p len)).getLsbD i =
      if i < min n len then bfxBit signed a p i else signed && decide (0 < min n len) && bfxBit signed a p (min n len - 1) := by
  unfold bfxInt
  dsimp only
  split
  · next none =>
    rw [beq_iff_eq, min_comm] at none
    simp [none]
  · next some =>
    rw [beq_iff_eq, min_comm] at some
    rw [min_comm len n, readInt_bits _ _ _ (by omega)]
    have sign : (signed && a.toNat.testBit (n - 1)) = (signed && a.msb) := by rw [BitVec.msb_eq_getLsbD_last, BitVec.getLsbD]
    rw [sign]
    generalize wide : (if (signed && a.msb) = true then a.toNat + (2 ^ (2 * n + 256) - 2 ^ n) else a.toNat) = x
    have bit (j : Nat) (field : j < min n len) : (BitVec.ofNat (min n len) (x / 2 ^ p)).getLsbD j = bfxBit signed a p j := by
      rw [BitVec.getLsbD_ofNat, decide_eq_true field, Bool.true_and, Nat.testBit_div_two_pow, ← wide, Nat.add_comm j,
        testBit_extended a (signed && a.msb) (p + j) (by omega)]
      rfl
    cases signed with
    | false =>
      rw [if_neg (by decide), BitVec.ofInt_natCast, BitVec.ofNat_toNat, BitVec.getLsbD_setWidth, decide_eq_true inside, Bool.true_and]
      split
      · next field => exact bit i field
      · exact BitVec.getLsbD_of_ge _ _ (by omega)
    | true =>
      rw [if_pos rfl, ← BitVec.signExtend, BitVec.getLsbD_signExtend, decide_eq_true inside, Bool.true_and]
      split
      · next field => exact bit i field
      · rw [BitVec.msb_eq_getLsbD_last, bit _ (by omega), decide_eq_true (by omega)]
        rfl

end Sys2Proof.Proofs

/-!
The statements about shifts, counts and dot products, bitwise instructions, comparisons, choices and moves (R139 to R152).
-/
namespace Sys2Proof.Proofs
open Sys2Proof Sys2Proof.Machine Sys2Proof.Laws

/-- A type that the description fixes and SAT reserved, as the conditions of integer words state them. -/
theorem unsat_of_ok {i : Instr} {s : State} {q : Q} (performs : Performs i s q) {o : F5} {sg : Sig} (sig : sigOf i = some sg)
    (ok : sg.ok = true → ivSat o = false) : ivSat o = false :=
  ok (formed_sig i s q performs sg sig).1
/-- An instruction of N bits whose exact result is taken modulo 2 to the N. -/
theorem bits_of_intOp {i : Instr} {o : F5} {f : Group → Nat → Int} {x : Group → Nat → BitVec (ivN o)} {sg : Sig} (sig : sigOf i = some sg)
    (dest : dstVS o.d (ivW o) ∈ sg.uses) (runs : ∀ s, exec i s = runI i (intOp o f) s) {ty : TyOk}
    (ok : sg.ok = true → ty.ok o = true ∧ ivSat o = false) (bits : ty.ok o = true → ∀ g L, BitVec.ofInt (ivN o) (f g L) = x g L) :
    GivesBits i o x :=
  intOp_bits i o f x sg sig dest runs (fun s q performs => (ok (formed_sig i s q performs sg sig).1).2)
    fun s q performs L _ => bits (ok (formed_sig i s q performs sg sig).1).1 q.g L
theorem shift_ok {o : F5} {ty : TyOk} {rot : Bool} (ok : (sigShift o ty rot).ok = true) : ty.ok o = true ∧ ivSat o = false := by
  simp only [sigShift, sigInt, Bool.and_eq_true, Bool.not_eq_true'] at ok
  obtain ⟨⟨⟨⟨type, unsat⟩, -⟩, -⟩, -⟩ := ok
  exact ⟨type, unsat⟩
theorem int_ok {o : F5} {ty : TyOk} {opx imm : Bool} {uses : List Use} {zero : List Opnd} (ok : (sigInt o ty false uses zero opx imm).ok = true) :
    ty.ok o = true ∧ ivSat o = false := by
  simp only [sigInt, Bool.and_eq_true, Bool.false_or, Bool.not_eq_true'] at ok
  obtain ⟨⟨⟨⟨type, unsat⟩, -⟩, -⟩, -⟩ := ok
  exact ⟨type, unsat⟩

/-! ### Shifts, counts, extremes (R140, R143) -/

theorem ia_unsigned {o : F5} (type : TyOk.unsignedOnly.ok o = true) (x : Opnd) (g : Group) (L : Nat) : ia o x g L = (nBits o x g L).toNat := by
  rw [nInt_eq, nInt_unsigned _ _ _ (unsigned_of_ty type)]
theorem ia_signed {o : F5} (type : TyOk.signedOnly.ok o = true) (x : Opnd) (g : Group) (L : Nat) : ia o x g L = (nBits o x g L).toInt := by
  rw [nInt_eq, nInt_signed _ _ _ (signed_of_ty type)]

theorem shifts_give (o : F5) :
    GivesBits (.ishl o) o (fun g L => nBits o o.a g L <<< (bits32 o.b g L).toNat) ∧
    GivesBits (.ishr o) o (fun g L => nBits o o.a g L >>> (bits32 o.b g L).toNat) ∧
    GivesBits (.isra o) o (fun g L => (nBits o o.a g L).sshiftRight (bits32 o.b g L).toNat) ∧
    GivesBits (.irot o) o (fun g L => if ivOpx o = 1 then (nBits o o.a g L).rotateRight (bits32 o.b g L).toNat
      else (nBits o o.a g L).rotateLeft (bits32 o.b g L).toNat) := by
  refine ⟨?_, ?_, ?_, ?_⟩
  · refine bits_of_intOp (sg := sigShift o .unsignedOnly false) rfl (by simp [sigShift, sigInt]) (fun _ => rfl) shift_ok fun type g L => ?_
    rw [ia_unsigned type, ofInt_shlInt]
    rfl
  · refine bits_of_intOp (sg := sigShift o .unsignedOnly false) rfl (by simp [sigShift, sigInt]) (fun _ => rfl) shift_ok fun type g L => ?_
    rw [ia_unsigned type, ofInt_shrInt]
    rfl
  · refine bits_of_intOp (sg := sigShift o .signedOnly false) rfl (by simp [sigShift, sigInt]) (fun _ => rfl) shift_ok fun type g L => ?_
    rw [ia_signed type, ofInt_sraInt]
    rfl
  · refine bits_of_intOp (sg := sigShift o .unsignedOnly true) rfl (by simp [sigShift, sigInt]) (fun _ => rfl) shift_ok fun type g L => ?_
    rw [ia_unsigned type, ofInt_rotInt (zero_lt_ivN o)]
    simp only [beq_iff_eq]
    rfl

/-- POPC, CLZ and CTZ give one count in 32 bits. -/
theorem count_gives {i : Instr} {o : F5} {f : Nat → Nat → Nat} {val : Q → Nat → DWord} (sig : sigOf i = some (sigCount o))
    (runs : ∀ s, exec i s = runI i (countOp o f) s) (count : ∀ q L, BitVec.ofNat 64 (f (ivN o) (nBits o o.a q.g L).toNat) = val q L) :
    Gives i o.d 1 false (fun _ q L => val q L) noFlags := by
  refine laneOp_gives i o.d 1 false (fun g L => { v := BitVec.ofNat 64 (f (ivN o) (g.rd o.a (ivW o) L).toNat) }) _ _ runs (.inl rfl) (fun s q performs => ?_) (fun s q _ L _ => ?_) (fun s q _ L _ => rfl)
  · exact dest_fits i s q performs _ sig (dstVS o.d) (by simp [sigCount, sigInt]) rfl
  · rw [← count, toNat_nBits]
    exact ⟨rfl, fun wide => absurd wide (by decide)⟩
theorem setWidth_of_toNat {n : Nat} (x : BitVec n) : BitVec.ofNat 64 x.toNat = x.setWidth 64 := BitVec.ofNat_toNat ..

theorem iabs_eq (x : Int) : ((x.natAbs : Nat) : Int) = if x < 0 then -x else x := by
  split <;> omega

theorem counts_give (o : F5) :
    Gives (.popc o) o.d 1 false (fun _ q L => BitVec.ofNat 64 ((List.range (ivN o)).countP fun i => (nBits o o.a q.g L).getLsbD i)) noFlags ∧
    Gives (.clz o) o.d 1 false (fun _ q L => (nBits o o.a q.g L).clz.setWidth 64) noFlags ∧
    Gives (.ctz o) o.d 1 false (fun _ q L => (nBits o o.a q.g L).ctz.setWidth 64) noFlags ∧
    GivesInt (.imin o) o (fun g L => min (nInt o o.a g L) (nInt o o.b g L)) ∧
    GivesInt (.imax o) o (fun g L => max (nInt o o.a g L) (nInt o o.b g L)) ∧
    GivesInt (.iabs o) o (fun g L => if nInt o o.a g L < 0 then -(nInt o o.a g L) else nInt o o.a g L) := by
  refine ⟨?_, ?_, ?_, ?_, ?_, ?_⟩
  · exact count_gives (i := .popc o) (f := popc) rfl (fun _ => rfl) fun q L => by rw [popc_eq_countP]; rfl
  · exact count_gives (i := .clz o) (f := clz) rfl (fun _ => rfl) fun q L => by rw [clz_eq, setWidth_of_toNat]
  · exact count_gives (i := .ctz o) (f := ctz) rfl (fun _ => rfl) fun q L => by rw [ctz_eq, setWidth_of_toNat]
  · exact intOp_gives (.imin o) o _ _ (sigInt2 o false) rfl (by simp [sigInt2, sigInt]) (fun _ => rfl) fun s q _ L _ => by simp only [nInt_eq]
  · exact intOp_gives (.imax o) o _ _ (sigInt2 o false) rfl (by simp [sigInt2, sigInt]) (fun _ => rfl) fun s q _ L _ => by simp only [nInt_eq]
  · exact intOp_gives (.iabs o) o _ _ (sigIabs o) rfl (by simp [sigIabs, sigInt]) (fun _ => rfl) fun s q _ L _ => by simp only [nInt_eq, iabs_eq]

/-! ### Dot products (R147) -/

/-- An element of a packed operand as an integer. -/
def packed (w : Nat) (signed : Bool) (x : Word) (k : Nat) : Int :=
  if signed then (x.extractLsb' (w * k) w).toInt else ((x.extractLsb' (w * k) w).toNat : Int)
theorem toNat_bits32 (x : Opnd) (g : Group) (L : Nat) : (bits32 x g L).toNat = (g.rd x 1 L).toNat := by
  have small := rd1_lt g x L
  simp only [bits32, lo32, BitVec.extractLsb'_toNat, Nat.shiftRight_zero]
  exact Nat.mod_eq_of_lt small
theorem readInt_packed (w : Nat) (pos : 0 < w) (signed : Bool) (x : Word) (k : Nat) : readInt (x.toNat / 2 ^ (w * k)) w signed = packed w signed x k := by
  rw [readInt_bits _ _ _ pos, packed, BitVec.extractLsb', Nat.shiftRight_eq_div_pow]
theorem dotSum_eq (n w : Nat) (pos : 0 < w) (sa sb : Bool) (a b : Word) :
    dotSum n w sa sb a.toNat b.toNat = ((List.range n).map fun k => packed w sa a k * packed w sb b k).sum := by
  simp only [dotSum, readInt_packed w pos, List.sum_eq_foldl, List.foldl_map]
/-- R139 for any type: the value and the flag of an exact integer of n bits. -/
theorem intRes_of_type (x : Int) (n : Nat) (width : n = 32 ∨ n = 64) (signed sat : Bool) :
    intRes x n signed sat = { v := (BitVec.ofInt n (if sat then clampTo n signed x else x)).setWidth 64
                              fl := if sat = true ∧ clampTo n signed x ≠ x then 0b100000#6 else 0#6 } := by
  cases sat <;> simp [intRes, intBits_eq _ n width, satInt_eq, flSV, flNone]

/-- The exact sum of a dot product of n elements of w bits. -/
def dotExact (o : F5) (w n : Nat) (g : Group) (L : Nat) : Int :=
  int32 o.c (mbit o.mod 0 || mbit o.mod 1) g L + ((List.range n).map fun k =>
    packed w (mbit o.mod 0) (bits32 o.a g L) k * packed w (mbit o.mod 1) (bits32 o.b g L) k).sum
theorem dot_gives {i : Instr} {o : F5} {n w : Nat} (pos : 0 < w) (sig : sigOf i = some (sigDot o)) (runs : ∀ s, exec i s = runI i (dotOp o n w) s) :
    let sg := mbit o.mod 0 || mbit o.mod 1
    Gives i o.d 1 sg
      (fun _ q L => (BitVec.ofInt 32 (if ivSat o then clampTo 32 sg (dotExact o w n q.g L) else dotExact o w n q.g L)).setWidth 64)
      (fun q L => if ivSat o = true ∧ clampTo 32 sg (dotExact o w n q.g L) ≠ dotExact o w n q.g L then 0b100000#6 else 0#6) := by
  intro sg
  have lane (g : Group) (L : Nat) : rdI g o.c 1 sg L + dotSum n w (mbit o.mod 0) (mbit o.mod 1) (g.rd o.a 1 L).toNat (g.rd o.b 1 L).toNat =
      dotExact o w n g L := by
    rw [int32_eq, ← toNat_bits32, ← toNat_bits32, dotSum_eq n w pos]
    rfl
  refine laneOp_gives i o.d 1 sg (fun g L => intRes (rdI g o.c 1 sg L +
    dotSum n w (mbit o.mod 0) (mbit o.mod 1) (g.rd o.a 1 L).toNat (g.rd o.b 1 L).toNat) 32 sg (ivSat o)) _ _ runs (.inl rfl)
    (fun s q performs => ?_) (fun s q _ L _ => ?_) (fun s q _ L _ => ?_)
  · exact dest_fits i s q performs _ sig (dstVS o.d) (by simp [sigDot, sigInt]) rfl
  · rw [lane, intRes_of_type _ 32 (.inl rfl)]
    exact ⟨rfl, fun wide => absurd wide (by decide)⟩
  · rw [lane, intRes_of_type _ 32 (.inl rfl)]

/-- Settles O3: shifts and rotates of bit vectors, counts, extremes, and dot products of packed elements. -/
theorem shiftsCountsAndDotProducts : Obligations.ShiftsCountsAndDotProducts :=
  ⟨shifts_give, counts_give, fun o => ⟨dot_gives (i := .dot4 o) (by decide) rfl fun _ => rfl, dot_gives (i := .dot8 o) (by decide) rfl fun _ => rfl⟩⟩

/-! ### Bitwise instructions (R144, R145) -/

theorem getLsbD_nBits (o : F5) (x : Opnd) (g : Group) (L i : Nat) (inside : i < ivN o) : (nBits o x g L).getLsbD i = (g.rd x (ivW o) L).getLsbD i := by
  rw [nBits, BitVec.getLsbD_ofNat, decide_eq_true inside, Bool.true_and, BitVec.getLsbD]
/-- Bits of a value of 32 or 64 bits, as a result of that width takes them. -/
theorem ofInt_of_bits {n : Nat} {y : Nat} {x : BitVec n} (bits : ∀ i, i < n → y.testBit i = x.getLsbD i) : BitVec.ofInt n (y : Int) = x := by
  rw [BitVec.ofInt_natCast]
  refine BitVec.eq_of_getLsbD_eq fun i inside => ?_
  rw [BitVec.getLsbD_ofNat, decide_eq_true inside, Bool.true_and, bits i inside]

/-- The table's bits for the operands of a lane. -/
def logicBits (o : F5) (g : Group) (L : Nat) : BitVec (ivN o) := BitVec.ofFnLE fun i =>
  o.imm8.getLsbD (4 * ((nBits o o.a g L).getLsbD i).toNat + 2 * ((nBits o o.b g L).getLsbD i).toNat + ((nBits o o.c g L).getLsbD i).toNat)
theorem logic_value (o : F5) (g : Group) (L : Nat) :
    (if ivW o == 2 then logic64 o.imm8 (g.rd o.a (ivW o) L) (g.rd o.b (ivW o) L) (g.rd o.c (ivW o) L)
      else (lo32 (logic64 o.imm8 (g.rd o.a (ivW o) L) (g.rd o.b (ivW o) L) (g.rd o.c (ivW o) L))).setWidth 64) = (logicBits o g L).setWidth 64 := by
  have bit (i : Nat) (inside : i < ivN o) :
      (logic64 o.imm8 (g.rd o.a (ivW o) L) (g.rd o.b (ivW o) L) (g.rd o.c (ivW o) L)).getLsbD i = (logicBits o g L).getLsbD i := by
    have fits : i < 64 := by rcases ivN_cases o with n | n <;> omega
    rw [getLsbD_logic64 _ _ _ _ i fits, logicBits, BitVec.getLsbD_ofFnLE, dif_pos inside]
    simp only [getLsbD_nBits _ _ _ _ i inside]
  refine BitVec.eq_of_getLsbD_eq fun i inside => ?_
  rw [BitVec.getLsbD_setWidth, decide_eq_true inside, Bool.true_and]
  rcases ivW_cases o with w | w
  · have n : ivN o = 32 := by rw [ivN, w]
    rw [if_neg (by simp [w]), BitVec.getLsbD_setWidth, decide_eq_true inside, Bool.true_and, lo32, BitVec.getLsbD_extractLsb', Nat.zero_add]
    by_cases low : i < 32
    · rw [decide_eq_true low, Bool.true_and, bit i (by omega)]
    · rw [decide_eq_false low, Bool.false_and, BitVec.getLsbD_of_ge _ _ (by omega)]
  · rw [if_pos (by simp [w]), bit i (by rw [ivN, w]; exact inside)]
theorem logic_gives (o : F5) : GivesBits (.logic o) o (logicBits o) := by
  intro s q performs
  obtain ⟨type, -⟩ := ty_ok_of_performs performs (rfl : sigOf (.logic o) = some (sigLogic o))
  have gives : Gives (.logic o) o.d (ivW o) false (fun _ q L => (logicBits o q.g L).setWidth 64) noFlags := by
    refine laneOp_gives (.logic o) o.d (ivW o) false _ _ _ (fun _ => rfl) (ivW_cases o) (fun s q performs => ?_) (fun s q _ L _ => ?_) fun s q _ L _ => rfl
    · exact dest_fits _ s q performs (sigLogic o) rfl (dstVS o.d (ivW o)) (by simp [sigLogic, sigInt]) rfl
    · simp only [logic_value, implies_true, and_self]
  rw [unsigned_of_ty type]
  exact gives s q performs
theorem bfi_gives (o : F5) : GivesBits (.bfi o) o (fun g L =>
    let p := (bits32 o.c g L).toNat % 256
    let n := (bits32 o.e g L).toNat % 256
    BitVec.ofFnLE fun i => if p ≤ i ∧ i < p + n then (nBits o o.a g L).getLsbD (i - p) else (nBits o o.b g L).getLsbD i) := by
  refine bits_of_intOp (sg := sigBfi o) rfl (by simp [sigBfi, sigInt]) (fun _ => rfl) int_ok fun _ g L => ?_
  refine ofInt_of_bits fun i inside => ?_
  rw [testBit_bfiNat _ _ _ _ _ i inside, BitVec.getLsbD_ofFnLE, dif_pos inside, ← toNat_nBits, ← toNat_nBits]
  rfl
theorem bfx_gives (o : F5) : GivesBits (.bfx o) o (fun g L =>
    let p := (bits32 o.b g L).toNat % 256
    let n := min (ivN o) ((bits32 o.c g L).toNat % 256)
    let bit := fun j => if p + j < ivN o then (nBits o o.a g L).getLsbD (p + j) else ivSigned o && (nBits o o.a g L).msb
    BitVec.ofFnLE fun i => if i < n then bit i else ivSigned o && decide (0 < n) && bit (n - 1)) := by
  refine bits_of_intOp (sg := sigBfx o) rfl (by simp [sigBfx, sigInt]) (fun _ => rfl) int_ok fun _ g L => ?_
  refine BitVec.eq_of_getLsbD_eq fun i inside => ?_
  rw [← toNat_nBits, getLsbD_bfxInt _ _ _ _ i inside (Nat.mod_lt _ (by decide)), BitVec.getLsbD_ofFnLE, dif_pos inside]
  rfl
theorem brev_gives (o : F5) : GivesBits (.brev o) o (fun g L => (nBits o o.a g L).reverse) := by
  refine bits_of_intOp (sg := sigBrev o) rfl (by simp [sigBrev, sigInt]) (fun _ => rfl) int_ok fun _ g L => ?_
  rw [← toNat_nBits, brev_eq_reverse, BitVec.ofInt_natCast, BitVec.ofNat_toNat, BitVec.setWidth_eq]

/-- Settles O4: each instruction's number, read bit by bit. -/
theorem bitwiseInstructions : Obligations.BitwiseInstructions :=
  fun o => ⟨logic_gives o, bfi_gives o, bfx_gives o, brev_gives o⟩

/-! ### Comparisons, choices, truth tables (R146, R150, R151) -/

theorem rd_eq_one {i : Instr} {s : State} {q : Q} (performs : Performs i s q) {sg : Sig} (sig : sigOf i = some sg) (x : Opnd) (use : srcP x ∈ sg.uses)
    (L : Nat) : (q.g.rd x 1 L == 1#64) = predTrue x q.g L := by
  obtain ⟨n, p⟩ := predicate_of_use performs sig x (.inl use)
  exact rd_pred q.g x 1 L n p
theorem icmp_gives (o : F5) : GivesBool (.icmp o) o.d (fun q L =>
    let a := nInt o o.a q.g L
    let b := nInt o o.b q.g L
    match ivOpx o with
    | 0 => decide (a = b)
    | 1 => decide (a ≠ b)
    | 2 => decide (a < b)
    | 3 => decide (a ≤ b)
    | 4 => decide (a > b)
    | _ => decide (a ≥ b)) noFlags := by
  refine testOp_gives (.icmp o) o.d (fun g L => icmpRes (ivOpx o) (ia o o.a g L) (ia o o.b g L)) _ (fun _ => rfl) (fun s q performs => ?_)
    fun s q _ L _ => ?_
  · exact dest_fits _ s q performs (sigIcmp o) rfl (dstPS o.d) (by simp [sigIcmp, sigInt]) rfl
  · simp only [nInt_eq]
    generalize nInt o o.a q.g L = a, nInt o o.b q.g L = b
    rcases ivOpx o with _ | _ | _ | _ | _ | cond
    case succ.zero => exact (decide_not (p := a = b)).symm
    all_goals rfl
theorem plog_gives (o : F5) : GivesBool (.plog o) o.d (fun q L =>
    o.imm8.getLsbD (4 * (predTrue o.a q.g L).toNat + 2 * (predTrue o.b q.g L).toNat + (predTrue o.c q.g L).toNat)) noFlags := by
  refine testOp_gives (.plog o) o.d (fun g L => truth o.imm8 (g.rd o.a 1 L == 1#64) (g.rd o.b 1 L == 1#64) (g.rd o.c 1 L == 1#64)) _ (fun _ => rfl)
    (fun s q performs => ?_) fun s q performs L _ => ?_
  · exact dest_fits _ s q performs (sigPlog o) rfl (dstP o.d) (by simp [sigPlog]) rfl
  · have sig : sigOf (.plog o) = some (sigPlog o) := rfl
    rw [rd_eq_one performs sig o.a (by simp [sigPlog]), rd_eq_one performs sig o.b (by simp [sigPlog]), rd_eq_one performs sig o.c (by simp [sigPlog]),
      truth_eq]
theorem w64_cases (m : BitVec 6) (i : Nat) : w64 m i = 1 ∨ w64 m i = 2 := by unfold w64; split <;> omega
theorem sel_gives (o : F5) : Gives (.sel o) o.d (w64 o.mod 0) false (fun _ q L =>
    if predTrue o.c q.g L then q.g.rd o.a (w64 o.mod 0) L else q.g.rd o.b (w64 o.mod 0) L) noFlags := by
  refine laneOp_gives (.sel o) o.d (w64 o.mod 0) false _ _ _ (fun _ => rfl) (w64_cases ..) (fun s q performs => ?_) (fun s q performs L _ => ?_)
    fun s q _ L _ => rfl
  · exact dest_fits _ s q performs (sigSel o) rfl (dstV o.d (w64 o.mod 0)) (by simp [sigSel]) rfl
  · rw [rd_eq_one performs (rfl : sigOf (.sel o) = some (sigSel o)) o.c (by simp [sigSel])]
    exact ⟨rfl, fun _ => rfl⟩

/-- Settles O5: a condition, a bit of a table, and one of two operands, in each lane. -/
theorem comparisonsAndChoices : Obligations.ComparisonsAndChoices :=
  fun o => ⟨icmp_gives o, plog_gives o, sel_gives o⟩

end Sys2Proof.Proofs

/-!
The statement about moves between registers, predicates and status registers (R131, R132, R148, R149, R152).
-/
namespace Sys2Proof.Proofs
open Sys2Proof Sys2Proof.Machine Sys2Proof.Laws

/-! ### MOV and MOVI -/

theorem mov_gives (o : F5) : Gives (.mov o) o.d (w64 o.mod 0) false (fun _ q L => q.g.rd o.a (w64 o.mod 0) L) noFlags := by
  refine laneOp_gives (.mov o) o.d (w64 o.mod 0) false _ _ _ (fun _ => rfl) (w64_cases ..) (fun s q performs => ?_) (fun s q _ L _ => ⟨rfl, fun _ => rfl⟩)
    fun s q _ L _ => rfl
  exact dest_fits _ s q performs (sigMov o) rfl (dstVS o.d (w64 o.mod 0)) (by simp [sigMov]) rfl
theorem moviVal_eq (m : BitVec 6) (imm : Word) (old : DWord) : moviVal m.toNat imm old =
    if m = 0#6 then imm.setWidth 64 else if m = 1#6 then imm.signExtend 64 else if m = 2#6 then hi32 old ++ imm else imm ++ lo32 old := by
  have number (k : Nat) (small : k < 64) : m.toNat = k ↔ m = BitVec.ofNat 6 k := by
    rw [BitVec.toNat_eq, BitVec.toNat_ofNat, Nat.mod_eq_of_lt small]
  simp only [← number 0 (by decide), ← number 1 (by decide), ← number 2 (by decide)]
  rcases m.toNat with _ | _ | _ | k <;> rfl
theorem movi_gives (o : FRI) : Gives (.movi o) o.d (if o.mod = 0#6 then 1 else 2) false (fun _ q L =>
    if o.mod = 0#6 then o.imm.setWidth 64
    else if o.mod = 1#6 then o.imm.signExtend 64
    else if o.mod = 2#6 then hi32 (q.g.rd o.d 2 L) ++ o.imm
    else o.imm ++ lo32 (q.g.rd o.d 2 L)) noFlags := by
  have width : (if o.mod = 0#6 then 1 else 2) = if (o.mod == 0#6) = true then 1 else 2 := by simp only [beq_iff_eq]
  rw [width]
  refine laneOp_gives (.movi o) o.d _ false (fun g L => { v := moviVal o.mod.toNat o.imm (g.rd o.d 2 L) }) _ _ (fun _ => rfl) (by split <;> simp)
    (fun s q performs => ?_) (fun s q _ L _ => ?_) fun s q _ L _ => rfl
  · exact dest_fits _ s q performs (sigMovi o) rfl (dstVS o.d (if o.mod == 0#6 then 1 else 2)) (by simp [sigMovi]) rfl
  · rw [moviVal_eq]
    exact ⟨rfl, fun _ => rfl⟩

/-! ### PMOV (R152) -/

theorem pmov_mod {o : F5} {s : State} {q : Q} (performs : Performs (.pmov o) s q) : o.mod.toNat < 4 := by
  obtain ⟨ok, -, -⟩ := formed_sig _ s q performs (sigPmov o) rfl
  simp only [sigPmov, Bool.and_eq_true] at ok
  obtain ⟨⟨⟨⟨zero, -⟩, -⟩, -⟩, -⟩ := ok
  have := congrArg BitVec.toNat (eq_of_beq zero)
  simp only [BitVec.toNat_ushiftRight, Nat.shiftRight_eq_div_pow, BitVec.toNat_ofNat, Nat.zero_mod] at this
  omega
/-- The sixteen predicates of a lane as a number. -/
theorem testBit_foldBits (f : Nat → Bool) (n : Nat) : let x := (List.range n).foldl (fun a k => a + if f k then 2 ^ k else 0) 0
    x < 2 ^ n ∧ ∀ i, x.testBit i = (decide (i < n) && f i) := by
  induction n with
  | zero => simp
  | succ n ih =>
    obtain ⟨small, bits⟩ := ih
    simp only [List.range_succ, List.foldl_append, List.foldl_cons, List.foldl_nil]
    generalize (List.range n).foldl (fun a k => a + if f k then 2 ^ k else 0) 0 = x at small bits
    have whole : x + (if f n then 2 ^ n else 0) = 2 ^ n * (f n).toNat + x := by cases f n <;> simp [Nat.add_comm]
    rw [whole]
    refine ⟨?_, fun i => ?_⟩
    · rw [Nat.pow_succ]
      cases f n <;> simp <;> omega
    · rw [Nat.testBit_two_pow_mul_add _ small]
      split
      · next low => rw [bits i, decide_eq_true low, decide_eq_true (by omega)]
      · next high =>
        by_cases at_ : i = n
        · subst at_
          cases f i <;> simp
        · rw [decide_eq_false (by omega), Nat.testBit_lt_two_pow, Bool.false_and]
          exact (Bool.toNat_le _).trans_lt (Nat.one_lt_two_pow (by omega))
theorem predWord_eq (g : Group) (L : Nat) : predWord g L = BitVec.ofFnLE fun i => decide (i.val < 16) && g.p i.val L := by
  refine BitVec.eq_of_getLsbD_eq fun i inside => ?_
  rw [predWord, BitVec.getLsbD_ofNat, decide_eq_true inside, Bool.true_and, (testBit_foldBits (fun n => g.p n L) 16).2 i, BitVec.getLsbD_ofFnLE,
    dif_pos inside]

theorem pmov_predicate (o : F5) (mod : o.mod.toNat % 4 = 0) : GivesBool (.pmov o) o.d (fun q L => predTrue o.a q.g L) noFlags := by
  intro s q performs
  have mod : o.mod.toNat = 0 := by have := pmov_mod performs; omega
  have uses : (sigPmov o).uses = [dstP o.d, srcP o.a] := by simp only [sigPmov, mod]
  suffices gives : GivesBool (.pmov o) o.d (fun q L => predTrue o.a q.g L) noFlags from gives s q performs
  refine testOp_gives (.pmov o) o.d (fun g L => g.rd o.a 1 L == 1#64) _ (fun s => ?_) (fun s q performs => ?_) (fun s q performs L _ => ?_)
  · show execPmov o s = _
    unfold execPmov
    rw [mod]
    rfl
  · exact dest_fits _ s q performs (sigPmov o) rfl (dstP o.d) (by simp [uses]) rfl
  · exact rd_eq_one performs rfl o.a (by simp [uses]) L
theorem pmov_word (o : F5) (mod : o.mod.toNat % 4 = 1) : Gives (.pmov o) o.d 1 false (fun _ q L =>
    BitVec.ofFnLE fun i => decide (i.val < 16) && q.g.p i.val L) noFlags := by
  intro s q performs
  have mod : o.mod.toNat = 1 := by have := pmov_mod performs; omega
  have uses : (sigPmov o).uses = [dstV o.d] := by simp only [sigPmov, mod]
  suffices gives : Gives (.pmov o) o.d 1 false (fun _ q L => BitVec.ofFnLE fun i => decide (i.val < 16) && q.g.p i.val L) noFlags from
    gives s q performs
  refine laneOp_gives (.pmov o) o.d 1 false (fun g L => { v := predWord g L }) _ _ (fun s => ?_) (.inl rfl) (fun s q performs => ?_)
    (fun s q performs L _ => ?_) (fun s q performs L _ => rfl)
  · show execPmov o s = _
    unfold execPmov
    rw [mod]
    rfl
  · exact dest_fits _ s q performs (sigPmov o) rfl (dstV o.d) (by simp [uses]) rfl
  · rw [predWord_eq]
    exact ⟨rfl, fun _ => rfl⟩
theorem pmov_nonzero (o : F5) (mod : o.mod.toNat % 4 = 3) : GivesBool (.pmov o) o.d (fun q L => bits32 o.a q.g L != 0#32) noFlags := by
  intro s q performs
  have mod : o.mod.toNat = 3 := by have := pmov_mod performs; omega
  have uses : (sigPmov o).uses = [dstP o.d, src o.a] := by simp only [sigPmov, mod]
  suffices gives : GivesBool (.pmov o) o.d (fun q L => bits32 o.a q.g L != 0#32) noFlags from gives s q performs
  refine testOp_gives (.pmov o) o.d (fun g L => lo32 (g.rd o.a 1 L) != 0#32) _ (fun s => ?_) (fun s q performs => ?_) (fun s q _ L _ => rfl)
  · show execPmov o s = _
    unfold execPmov
    rw [mod]
    rfl
  · exact dest_fits _ s q performs (sigPmov o) rfl (dstP o.d) (by simp [uses]) rfl

/-- The group after the first n predicates are written from a word of each lane. -/
def withPreds (q : Q) (word : Nat → DWord) (n : Nat) : Group :=
  (List.range n).foldl (fun g k => g.setP k q.act (maskOf g.width fun L => (word L).getLsbD k)) q.g
theorem withPreds_succ (q : Q) (word : Nat → DWord) (n : Nat) : withPreds q word (n + 1) =
    (withPreds q word n).setP n q.act (maskOf (withPreds q word n).width fun L => (word L).getLsbD n) := by
  simp only [withPreds, List.range_succ, List.foldl_append, List.foldl_cons, List.foldl_nil]
theorem withPreds_frame (q : Q) (word : Nat → DWord) (n : Nat) :
    ∃ preds, withPreds q word n = { q.g with preds } ∧ preds.length = q.g.preds.length := by
  induction n with
  | zero => exact ⟨q.g.preds, rfl, rfl⟩
  | succ n ih =>
    obtain ⟨preds, same, length⟩ := ih
    rw [withPreds_succ, same]
    exact ⟨_, rfl, (List.length_modify ..).trans length⟩
theorem p_withPreds (q : Q) (word : Nat → DWord) (shaped : q.g.shaped = true) (n : Nat) {r L : Nat} (lane : L < q.g.width) :
    (withPreds q word n).p r L = if q.act.getLsbD L = true ∧ r < n ∧ r < 15 then (word L).getLsbD r else q.g.p r L := by
  induction n with
  | zero => simp [withPreds]
  | succ n ih =>
    obtain ⟨preds, same, length⟩ := withPreds_frame q word n
    have few := shaped_width _ shaped
    have width : (withPreds q word n).width = q.g.width := by rw [same]
    rw [withPreds_succ, p_setP _ _ _ _ _ _ (by rw [same, ← shaped_preds _ shaped]; exact length) (by omega), ih, getLsbD_maskOf _ (by omega), width,
      decide_eq_true lane, Bool.true_and]
    by_cases at_ : r = n
    · subst at_
      simp
    · simp only [at_, false_and, and_false, if_false, show r < n + 1 ↔ r < n by omega]
theorem pmov_all (o : F5) (mod : o.mod.toNat % 4 = 2) (s : State) (q : Q) (performs : Performs (.pmov o) s q) :
    ∃ t g, exec (.pmov o) s = .next t ∧ t.grp? q.g.id = some g ∧ g.vregs = q.g.vregs ∧ g.sregs = q.g.sregs ∧
      (∀ r L, L < q.g.width → g.p r L = if q.act.getLsbD L = true ∧ r < 15 then (bits32 o.a q.g L).getLsbD r else q.g.p r L) ∧
      Advances q g (fun L => (q.g.lane L).fflags) (fun L => (q.g.lane L).sr) ∧ Kept q g ∧ OnlyGroup s t q := by
  have mod : o.mod.toNat = 2 := by have := pmov_mod performs; omega
  obtain ⟨written, same, -⟩ := withPreds_frame q (q.g.rd o.a 1) 15
  have runs : exec (.pmov o) s = runI (.pmov o) (fun q s => .grp s (withPreds q (q.g.rd o.a 1) 15)) s := by
    show execPmov o s = _
    unfold execPmov
    rw [mod]
    rfl
  obtain ⟨t, g, next, grp, vregs, sregs, preds, advances, kept, only⟩ := group_gives (G := { q.g with preds := written }) performs runs
    (congrArg (Res.grp s) same) rfl rfl rfl (fun _ _ => rfl) ⟨rfl, rfl, rfl, rfl, rfl⟩
  refine ⟨t, g, next, grp, vregs, sregs, fun r L lane => ?_, advances, kept, only⟩
  rw [p_of_preds preds, ← same, p_withPreds q _ performs.shaped 15 lane]
  by_cases low : r < 15
  · have word : (q.g.rd o.a 1 L).getLsbD r = (bits32 o.a q.g L).getLsbD r := by
      rw [bits32, lo32, BitVec.getLsbD_extractLsb', decide_eq_true (by omega), Bool.true_and, Nat.zero_add]
    rw [word]
    simp only [low, and_true]
  · rw [if_neg fun on => low on.2.1, if_neg fun on => low on.2]

/-! ### MOVS (R131, R132) -/

/-- A word that writes the lane flags. -/
theorem movs_flags {o : F5} {r : StReg} (d : o.d = .st r) {s : State} {q : Q} (performs : Performs (.movs o) s q) :
    r = .fflags ∧ o.mod = 0#6 := by
  obtain ⟨ok, -, -⟩ := formed_sig _ s q performs (sigMovs o) rfl
  simp only [sigMovs, d, Bool.and_eq_true, beq_iff_eq] at ok
  obtain ⟨⟨⟨flags, zero⟩, -⟩, -⟩ := ok
  exact ⟨flags, zero⟩
/-- A word that reads a status register. -/
theorem movs_reads {o : F5} (d : ∀ r, o.d ≠ .st r) {s : State} {q : Q} (performs : Performs (.movs o) s q) :
    (∃ r, o.a = .st r) ∧ ((∃ n, o.d = .v n) ∨ ∃ n, o.d = .s n) ∧ DestFits o.d 1 q.g := by
  have sig : (sigMovs o).uses = [dstVS o.d, { o := o.a, ks := [.st] }] := by
    cases kind : o.d with
    | st r => exact absurd kind (d r)
    | _ => simp only [sigMovs, kind]
  obtain ⟨-, uses, -⟩ := formed_sig _ s q performs (sigMovs o) rfl
  have dest := uses (dstVS o.d) (by simp [sig])
  have source := uses { o := o.a, ks := [.st] } (by simp [sig])
  simp only [Use.ok, Bool.and_eq_true] at dest source
  refine ⟨?_, ?_, dest_fits _ s q performs (sigMovs o) rfl (dstVS o.d) (by simp [sig]) rfl⟩
  · cases kind : o.a with
    | st r => exact ⟨r, rfl⟩
    | _ => rw [kind] at source; cases source.1
  · cases kind : o.d with
    | v n => exact .inl ⟨n, rfl⟩
    | s n => exact .inr ⟨n, rfl⟩
    | _ => rw [kind] at dest; cases dest.1

/-- The lane flags emptied in some lanes, or not. -/
def clearFlags (clears : Bool) (m : Mask) (g : Group) : Group :=
  if clears then g.modLanes m fun _ l => { l with fflags := 0#6 } else g
theorem clearFlags_frame (clears : Bool) (m : Mask) (g : Group) : ∃ lanes, clearFlags clears m g = { g with lanes } ∧
    lanes.length = g.lanes.length ∧ ∀ L, L < g.lanes.length → (clearFlags clears m g).lane L =
      { g.lane L with fflags := if m.getLsbD L = true ∧ clears = true then 0#6 else (g.lane L).fflags } := by
  cases clears with
  | false => exact ⟨_, rfl, rfl, fun L _ => by simp [clearFlags]⟩
  | true =>
    refine ⟨_, rfl, by simp, fun L inside => ?_⟩
    simp only [clearFlags, if_true, and_true, lane_modLanes _ _ _ _ inside]
    split
    · rfl
    · rfl

theorem movs_gives (o : F5) (s : State) (q : Q) (performs : Performs (.movs o) s q) :
    ∃ t g, exec (.movs o) s = .next t ∧ t.grp? q.g.id = some g ∧
      Dest o.d (match o.d with | .s _ => 2 | _ => 1) false q g (match o.a with | .st r => stVal s q r | _ => fun _ => 0#64) ∧
      g.preds = q.g.preds ∧
      Advances q g (fun L =>
        if q.act.getLsbD L = true ∧ o.d = .st .fflags then (bits32 o.a q.g L).setWidth 6
        else if q.act.getLsbD L = true ∧ mbit o.mod 0 = true then 0#6
        else (q.g.lane L).fflags) (fun L => (q.g.lane L).sr) ∧ Kept q g ∧ OnlyGroup s t q := by
  have lanes := shaped_lanes _ performs.shaped
  by_cases d : ∃ r, o.d = .st r
  · obtain ⟨r, d⟩ := d
    obtain ⟨rfl, zero⟩ := movs_flags d performs
    have runs : exec (.movs o) s = runI (.movs o) (fun q s =>
        .grp s (q.g.modLanes q.act fun L l => { l with fflags := (q.g.rd o.a 1 L).extractLsb' 0 6 })) s := by
      show execMovs o s = _
      unfold execMovs
      rw [d]
    have flags (L : Nat) (lane : L < q.g.width) :
        (q.g.modLanes q.act fun L l => { l with fflags := (q.g.rd o.a 1 L).extractLsb' 0 6 }).lane L =
          { q.g.lane L with
            fflags := if q.act.getLsbD L = true ∧ o.d = .st .fflags then (bits32 o.a q.g L).setWidth 6
              else if q.act.getLsbD L = true ∧ mbit o.mod 0 = true then 0#6 else (q.g.lane L).fflags
            sr := (q.g.lane L).sr } := by
      have word : (q.g.rd o.a 1 L).extractLsb' 0 6 = (bits32 o.a q.g L).setWidth 6 := by
        rw [bits32, lo32]
        ext i inside
        simp [show i < 32 by omega]
      rw [lane_modLanes _ _ _ _ (by omega)]
      simp only [d, and_true, word, zero, show mbit 0#6 0 = false from rfl, Bool.false_eq_true, and_false, if_false]
      split
      · rfl
      · rfl
    obtain ⟨t, g, next, grp, vregs, sregs, preds, advances, kept, only⟩ := group_gives performs runs rfl rfl rfl
      (by simp [Group.modLanes]) flags ⟨rfl, rfl, rfl, rfl, rfl⟩
    refine ⟨t, g, next, grp, ?_, preds, advances, kept, only⟩
    rw [d]
    exact ⟨vregs, sregs⟩
  · obtain ⟨⟨r, a⟩, dest, fits⟩ := movs_reads (not_exists.mp d) performs
    obtain ⟨w, wide, width, fits⟩ : ∃ w, (w = 1 ∨ w = 2) ∧ (match o.d with | .s _ => 2 | _ => 1) = w ∧ DestFits o.d w q.g := by
      obtain ⟨n, v⟩ | ⟨n, sc⟩ := dest
      · exact ⟨1, .inl rfl, by rw [v], fits⟩
      · exact ⟨2, .inr rfl, by rw [sc], by rw [sc] at fits ⊢; exact fits⟩
    have kind : (if opndKind o.d == .s then 2 else 1) = w := by
      rw [← width]
      obtain ⟨n, v⟩ | ⟨n, sc⟩ := dest
      · rw [v]; rfl
      · rw [sc]; rfl
    have none (L : Nat) : ¬ (q.act.getLsbD L = true ∧ o.d = .st .fflags) := fun on => d ⟨_, on.2⟩
    have runs : exec (.movs o) s = runI (.movs o) (fun q s => .grp s (clearFlags (mbit o.mod 0) q.act
        (q.g.put q.pf o.d (if opndKind o.d == .s then 2 else 1) false q.act ((List.range q.g.width).map (stVal s q r))))) s := by
      show execMovs o s = _
      unfold execMovs
      rw [a]
      obtain ⟨n, v⟩ | ⟨n, sc⟩ := dest
      · rw [v]; rfl
      · rw [sc]; rfl
    rw [kind] at runs
    obtain ⟨id, stepping, same, preds', -, batches, calls, st, save, frame⟩ := put_kept q.g q.pf o.d w false q.act
      ((List.range q.g.width).map (stVal s q r))
    obtain ⟨cleared, fields, length, lane'⟩ := clearFlags_frame (mbit o.mod 0) q.act
      (q.g.put q.pf o.d w false q.act ((List.range q.g.width).map (stVal s q r)))
    have flags (L : Nat) (lane : L < q.g.width) : (clearFlags (mbit o.mod 0) q.act (q.g.put q.pf o.d w false q.act
        ((List.range q.g.width).map (stVal s q r)))).lane L = { q.g.lane L with
          fflags := if q.act.getLsbD L = true ∧ o.d = .st .fflags then (bits32 o.a q.g L).setWidth 6
            else if q.act.getLsbD L = true ∧ mbit o.mod 0 = true then 0#6 else (q.g.lane L).fflags
          sr := (q.g.lane L).sr } := by
      rw [lane' L (by rw [same]; omega), Group.lane, same]
      simp only [none L, if_false]
      rfl
    obtain ⟨t, g, next, grp, vregs, sregs, preds, advances, kept, only⟩ := group_gives performs runs rfl
      (by rw [fields]; exact id) (by rw [fields]; exact stepping) (by rw [fields, length, same]) flags
      (by rw [fields]; exact ⟨batches, calls, st, save, frame⟩)
    have dest := dest_put _ q o.d w false ((List.range q.g.width).map (stVal s q r)) performs.shaped rfl wide fits (by simp)
    refine ⟨t, g, next, grp, ?_, preds.trans (by rw [fields]; exact preds'), advances, kept, only⟩
    rw [width, a]
    refine Dest_congr _ _ _ _ _ _ _ (fun L lane => ?_) (lowest_width _ _ _ performs) (dest_of_regs (vregs.trans (by rw [fields]))
      (sregs.trans (by rw [fields])) dest)
    have value : ((List.range q.g.width).map (stVal s q r)).getD L 0#64 = stVal s q r L := by simp [lane]
    rw [value]
    exact ⟨rfl, fun _ => rfl⟩

/-- Settles O6: each form of the moves, the predicates of a lane as a word, and the lane flags. -/
theorem moves : Obligations.Moves :=
  ⟨⟨mov_gives, movi_gives, pmov_predicate, pmov_word, pmov_nonzero, pmov_all⟩, movs_gives⟩

end Sys2Proof.Proofs


/-!
What no step takes back: the form of memory, the seal counter, the ownership epoch and the records of retirement (R430, R452, R460).
`Keeps a t` says that t may follow a; each operation of the model that answers a state keeps it.
-/
namespace Sys2Proof.Proofs
open Sys2Proof Sys2Proof.Machine Sys2Proof.Laws

/-- The four things, of a memory, the two counts and the records. -/
structure Lasting (a : State) (mem : Mem) (sealNext epoch : Nat) (otp : List WearBlock) : Prop where
  form : Memory.wf a.mem = true → Memory.wf mem = true
  sealNext : a.trust.sealNext ≤ sealNext
  epoch : a.trust.epoch ≤ epoch
  retired : ∀ b ∈ a.otpRetired, b ∈ otp
/-- The state t may follow a. -/
structure Keeps (a t : State) : Prop where
  lasting : Lasting a t.mem t.trust.sealNext t.trust.epoch t.otpRetired

variable {a s : State}

theorem Keeps.refl (a : State) : Keeps a a := ⟨id, le_rfl, le_rfl, fun _ => id⟩
theorem Lasting.store {mem : Mem} {n e : Nat} {otp : List WearBlock} (h : Lasting a mem n e otp) {at_ : Nat} {bytes : List Byte} :
    Lasting a (mem.store at_ bytes) n e otp :=
  { h with form := fun start => store_wf _ _ _ (h.form start) }
theorem Lasting.filter {mem : Mem} {n e : Nat} {otp : List WearBlock} (h : Lasting a mem n e otp) {p : Host.Cell → Bool} :
    Lasting a (mem.filter p) n e otp :=
  { h with form := fun start => wf_filter _ _ (h.form start) }

theorem Lasting.retire {mem : Mem} {n e : Nat} {otp : List WearBlock} (h : Lasting a mem n e otp) {b : WearBlock} :
    Lasting a mem n e (otp ++ [b]) :=
  { h with retired := fun b on => List.mem_append_left _ (h.retired b on) }
theorem Lasting.withRecords {mem mem' : Mem} {n n' e e' : Nat} {otp otp' : List WearBlock} (h : Lasting a mem n e otp)
    (h' : Lasting a mem' n' e' otp') : Lasting a mem n e otp' := { h with retired := h'.retired }
theorem Lasting.withMemory {mem mem' : Mem} {n n' e e' : Nat} {otp otp' : List WearBlock} (h : Lasting a mem n e otp)
    (h' : Lasting a mem' n' e' otp') : Lasting a mem' n e otp := { h with form := h'.form }
theorem Lasting.sealed {mem : Mem} {n e : Nat} {otp : List WearBlock} (h : Lasting a mem n e otp) {k : Nat} : Lasting a mem (n + k) e otp :=
  { h with sealNext := Nat.le_add_right_of_le h.sealNext }
theorem Lasting.newOwner {mem : Mem} {n e : Nat} {otp : List WearBlock} (h : Lasting a mem n e otp) {k : Nat} : Lasting a mem n (e + k) otp :=
  { h with epoch := Nat.le_add_right_of_le h.epoch }
theorem Lasting.fold {α : Type} {mem : Mem} {n e : Nat} {otp : List WearBlock} (h : Lasting a mem n e otp) {f : Mem → α → Mem} {l : List α}
    (step : ∀ m x, Lasting a m n e otp → Lasting a (f m x) n e otp) : Lasting a (l.foldl f mem) n e otp := by
  induction l generalizing mem with
  | nil => exact h
  | cons x l ih => exact ih (step mem x h)

/-- A meaning's answer, whose state has P. -/
def OnRes (P : State → Prop) : Res → Prop
  | .ok s | .moved s | .trap _ _ _ _ s | .pages _ s _ | .wait _ s => P s
/-- A step's answer, whose next state has P. -/
def OnOut (P : State → Prop) : Out → Prop
  | .next s => P s
  | .fault _ => True
  | .refused _ => True
/-- A retirement's answer, whose state has P. -/
def OnRetire (P : State → Prop) : Retire → Prop
  | .done s | .wait s => P s
  | .fail _ _ => True
/-- A group command's answer, whose state has P. -/
def OnGctl (P : State → Prop) : Gctl → Prop
  | .done s => P s
  | .refused => True
  | .later => True
/-- What is there has P. -/
def OnSome {α : Type} (P : α → Prop) (o : Option α) : Prop := ∀ x, o = some x → P x
/-- What is answered has P. -/
def OnOk {ε α : Type} (P : α → Prop) : Except ε α → Prop
  | .ok x => P x
  | .error _ => True

theorem OnSome.none {α : Type} {P : α → Prop} : OnSome P none := nofun
theorem OnSome.some {α : Type} {P : α → Prop} {x : α} (h : P x) : OnSome P (some x) := fun _ e => Option.some.inj e ▸ h
theorem OnSome.ite {α : Type} {P : α → Prop} {c : Prop} [Decidable c] {x y : Option α} (hx : OnSome P x) (hy : OnSome P y) :
    OnSome P (if c then x else y) := by
  split
  · exact hx
  · exact hy
theorem OnSome.bind {α β : Type} {P : β → Prop} {o : Option α} {f : α → Option β} (h : ∀ x, o = Option.some x → OnSome P (f x)) :
    OnSome P (o.bind f) := by
  cases o with
  | none => exact nofun
  | some x => exact h x rfl
theorem OnSome.map {α β : Type} {P : β → Prop} {o : Option α} {f : α → β} (h : ∀ x, o = Option.some x → P (f x)) : OnSome P (o.map f) := by
  cases o with
  | none => exact nofun
  | some x => exact .some (h x rfl)
theorem OnSome.getD {α : Type} {P : α → Prop} {o : Option α} {d : α} (h : OnSome P o) (hd : P d) : P (o.getD d) := by
  cases o with
  | none => exact hd
  | some x => exact h x rfl
/-- A property of states that each step of a fold keeps. -/
theorem foldl_keeps {α β : Type} {P : β → Prop} {f : β → α → β} {l : List α} {b : β} (h : P b) (step : ∀ b x, P b → P (f b x)) :
    P (l.foldl f b) := by
  induction l generalizing b with
  | nil => exact h
  | cons x l ih => exact ih (step b x h)
theorem Keeps.snd {β : Type} {p : β × State} {x : β} {t : State} (found : p = (x, t)) (h : Keeps a p.2) : Keeps a t := by
  subst found
  exact h
theorem Keeps.next {o : Out} {t : State} (found : o = .next t) (h : OnOut (Keeps a) o) : Keeps a t := by
  subst found
  exact h
theorem Keeps.ok {ε : Type} {o : Except ε State} {t : State} (found : o = .ok t) (h : OnOk (Keeps a) o) : Keeps a t := by
  subst found
  exact h
theorem Keeps.done {o : Gctl} {t : State} (found : o = .done t) (h : OnGctl (Keeps a) o) : Keeps a t := by
  subst found
  exact h
theorem Keeps.retireDone {o : Retire} {t : State} (found : o = .done t) (h : OnRetire (Keeps a) o) : Keeps a t := by
  subst found
  exact h
theorem Keeps.retireWait {o : Retire} {t : State} (found : o = .wait t) (h : OnRetire (Keeps a) o) : Keeps a t := by
  subst found
  exact h
theorem Keeps.got {o : Option State} {t : State} (found : o = some t) (h : OnSome (Keeps a) o) : Keeps a t := h t found
theorem Keeps.gotSnd {β : Type} {o : Option (β × State)} {x : β} {t : State} (found : o = some (x, t))
    (h : OnSome (fun p => Keeps a p.2) o) : Keeps a t := h _ found

/-! ### Memory operations of the page table and of checkpoints -/

theorem Lasting.putLeaf {P : List (Nat × Nat)} {mem : Mem} {n e : Nat} {otp : List WearBlock} (h : Lasting a mem n e otp) {at_ lv : Nat}
    {leaf : DWord} : OnSome (fun m => Lasting a m n e otp) (Machine.putLeaf P mem at_ lv leaf) := by
  unfold Machine.putLeaf
  extract_lets old wider
  exact .ite (.some h.store) .none
theorem Lasting.mapFrom {P : List (Nat × Nat)} {va target : Nat} {leaf : DWord} {lv node : Nat} {ns : List Nat} {mem : Mem} {n e : Nat}
    {otp : List WearBlock} (h : Lasting a mem n e otp) :
    OnSome (fun m => Lasting a m n e otp) (Machine.mapFrom P va target leaf lv node ns mem) := by
  induction lv generalizing node ns mem with
  | zero =>
    unfold Machine.mapFrom
    exact .ite h.putLeaf .none
  | succ lv ih =>
    unfold Machine.mapFrom
    refine .ite h.putLeaf (.ite (ih h) (.ite .none ?_))
    cases ns with
    | nil => exact .none
    | cons k ns => exact .ite (ih h.store.store) .none

theorem hbmLinear_lt {pa pb : Nat} (hbm : isHbm pa = true) (hbm' : isHbm pb = true) (below : pa < pb) : hbmLinear pa < hbmLinear pb := by
  simp only [isHbm, Bool.and_eq_true, decide_eq_true_eq] at hbm hbm'
  unfold hbmLinear
  omega
theorem hbmLinear_bound {pa : Nat} (hbm : isHbm pa = true) : hbmLinear pa < ckptBytes := by
  simp only [isHbm, Bool.and_eq_true, decide_eq_true_eq] at hbm
  unfold hbmLinear ckptBytes
  omega
theorem hbmAddr_lt {x y : Nat} (below : x < y) : hbmAddr x < hbmAddr y := by
  unfold hbmAddr
  omega
theorem hbmAddr_bound {x : Nat} (inside : x < ckptBytes) : hbmAddr x < 2 ^ 40 := by
  unfold ckptBytes at inside
  unfold hbmAddr
  omega

/-- A checkpoint keeps the order of the addresses of HBM in the pool (R424). -/
theorem wf_toPool (m : Mem) (base : Nat) (form : Memory.wf m = true) : Memory.wf (m.toPool base) = true := by
  unfold Mem.toPool
  refine wf_append _ _ (wf_append _ _ (wf_filter _ _ form) (wf_map _ (fun x => base + hbmLinear x) (wf_filter _ _ form) ?_) ?_)
    (wf_filter _ _ form) ?_
  · intro c on d on' below
    exact Nat.add_lt_add_left (hbmLinear_lt (List.mem_filter.mp on).2 (List.mem_filter.mp on').2 below) _
  · intro c on d on'
    obtain ⟨x, inside, rfl⟩ := List.mem_map.mp on'
    have low := of_decide_eq_true (List.mem_filter.mp on).2
    exact Nat.lt_of_lt_of_le low (Nat.le_add_right ..)
  · intro c on d on'
    have high := of_decide_eq_true (List.mem_filter.mp on').2
    rcases List.mem_append.mp on with on | on
    · have low := of_decide_eq_true (List.mem_filter.mp on).2
      omega
    · obtain ⟨x, inside, rfl⟩ := List.mem_map.mp on
      have bound := hbmLinear_bound (List.mem_filter.mp inside).2
      exact Nat.lt_of_lt_of_le (Nat.add_lt_add_left bound _) high
/-- A restore keeps the order of the pool's addresses in HBM (R426). -/
theorem wf_fromPool (m : Mem) (base : Nat) (form : Memory.wf m = true) : Memory.wf (m.fromPool base) = true := by
  unfold Mem.fromPool
  have area (c : Host.Cell) (on : c ∈ m.filter fun c => base ≤ c.1 && c.1 < base + ckptBytes) : base ≤ c.1 ∧ c.1 < base + ckptBytes := by
    simpa using (List.mem_filter.mp on).2
  refine wf_append _ _ (wf_map _ (fun x => hbmAddr (x - base)) (wf_filter _ _ form) ?_) (wf_filter _ _ form) ?_
  · intro c on d on' below
    have := area c on
    have := area d on'
    exact hbmAddr_lt (by omega)
  · intro c on d on'
    obtain ⟨x, inside, rfl⟩ := List.mem_map.mp on
    have := area x inside
    have high := of_decide_eq_true (List.mem_filter.mp on').2
    exact Nat.lt_of_lt_of_le (hbmAddr_bound (by omega)) high
theorem Lasting.toPool {mem : Mem} {n e : Nat} {otp : List WearBlock} (h : Lasting a mem n e otp) {base : Nat} :
    Lasting a (mem.toPool base) n e otp := { h with form := fun start => wf_toPool _ _ (h.form start) }
theorem Lasting.fromPool {mem : Mem} {n e : Nat} {otp : List WearBlock} (h : Lasting a mem n e otp) {base : Nat} :
    Lasting a (mem.fromPool base) n e otp := { h with form := fun start => wf_fromPool _ _ (h.form start) }
theorem Lasting.retireOnce {mem : Mem} {n e : Nat} {otp : List WearBlock} (h : Lasting a mem n e otp) {b : WearBlock} :
    Lasting a mem n e (if otp.contains b then otp else otp ++ [b]) := by
  split
  · exact h
  · exact h.retire
/-- Starting the images changes no count of the trust block (R450). -/
theorem bootFrom_counts (t : Trust) (k n : Nat) : (t.bootFrom k n).sealNext = t.sealNext ∧ (t.bootFrom k n).epoch = t.epoch := by
  induction k generalizing t n with
  | zero => exact ⟨rfl, rfl⟩
  | succ k ih =>
    unfold Trust.bootFrom
    split
    · exact ⟨rfl, rfl⟩
    · exact ih _ _
theorem Lasting.boot {mem : Mem} {t : Trust} {otp : List WearBlock} (h : Lasting a mem t.sealNext t.epoch otp) :
    Lasting a mem t.boot.sealNext t.boot.epoch otp := by
  obtain ⟨sealNext, epoch⟩ := bootFrom_counts { t with log := [logZero], recovery := false } 3 1
  rw [Trust.boot, sealNext, epoch]
  exact h

theorem ite_keeps {c : Prop} [Decidable c] {t u : State} (ht : Keeps a t) (hu : Keeps a u) : Keeps a (if c then t else u) := by
  split
  · exact ht
  · exact hu
theorem Keeps.retired {t u : State} {b : WearBlock} (ht : Keeps a t) (hu : Keeps a u) : Keeps a { t with otpRetired := u.otpRetired ++ [b] } :=
  ⟨ht.lasting.withRecords hu.lasting.retire⟩
theorem Keeps.sealed {t : State} {n free : Nat} (h : Keeps a t) :
    Keeps a { t with trust := { t.trust with sealNext := t.trust.sealNext + n }, free := free } := ⟨h.lasting.sealed⟩

end Sys2Proof.Proofs


/-!
Each operation of the model keeps the form of memory, the two counts and the records of retirement: one lemma per operation, in the order
of the model. Hence the statements about every step.
-/
namespace Sys2Proof.Proofs
open Sys2Proof Sys2Proof.Machine Sys2Proof.Laws
variable {a s : State}

/-! ### Machine/Ops -/

theorem Keeps.setGrp {g : Machine.Group} (h : Keeps a s) : Keeps a (s.setGrp g) := by
  unfold State.setGrp
  exact ⟨h.lasting⟩
theorem Keeps.modGrp {id : ℕ} {f : Machine.Group → Machine.Group} (h : Keeps a s) : Keeps a (s.modGrp id f) := by
  unfold State.modGrp
  exact ⟨h.lasting⟩
theorem Keeps.modGrps {f : Machine.Group → Machine.Group} (h : Keeps a s) : Keeps a (s.modGrps f) := by
  unfold State.modGrps
  exact ⟨h.lasting⟩
theorem Keeps.modTeam {id : ℕ} {f : Team → Team} (h : Keeps a s) : Keeps a (s.modTeam id f) := by
  unfold State.modTeam
  exact ⟨h.lasting⟩
theorem Keeps.modSheet {id : ℕ} {f : Sheet → Sheet} (h : Keeps a s) : Keeps a (s.modSheet id f) := by
  unfold State.modSheet
  exact ⟨h.lasting⟩
theorem Keeps.modQueue {n : ℕ} {f : Queue → Queue} (h : Keeps a s) : Keeps a (s.modQueue n f) := by
  unfold State.modQueue
  exact ⟨h.lasting⟩
theorem Keeps.modCore {c : ℕ} {f : Core → Core} (h : Keeps a s) : Keeps a (s.modCore c f) := by
  unfold State.modCore
  exact ⟨h.lasting⟩
theorem Keeps.modCluster {c : ℕ} {f : Cluster → Cluster} (h : Keeps a s) : Keeps a (s.modCluster c f) := by
  unfold State.modCluster
  exact ⟨h.lasting⟩
theorem Keeps.modSurv {k : ℕ} {f : Surveyor → Surveyor} (h : Keeps a s) : Keeps a (s.modSurv k f) := by
  unfold State.modSurv
  exact ⟨h.lasting⟩
theorem Keeps.modDie {d : ℕ} {f : Die → Die} (h : Keeps a s) : Keeps a (s.modDie d f) := by
  unfold State.modDie
  exact ⟨h.lasting⟩
theorem Keeps.modHart {k : ℕ} {f : Hart → Hart} (h : Keeps a s) : Keeps a (s.modHart k f) := by
  unfold State.modHart
  exact ⟨h.lasting⟩
theorem Keeps.modTask {sheet num : ℕ} {f : Machine.Task → Machine.Task} (h : Keeps a s) : Keeps a (s.modTask sheet num f) := by
  unfold State.modTask
  exact h.modSheet
theorem Keeps.takeFresh (h : Keeps a s) : Keeps a (s.takeFresh).2 := by
  unfold State.takeFresh
  dsimp only
  exact ⟨h.lasting⟩
theorem Keeps.mend {pa n : ℕ} (h : Keeps a s) : Keeps a (s.mend pa n) := by
  unfold State.mend
  split
  · exact h
  · exact ⟨h.lasting⟩
theorem Keeps.putFrame {g : Machine.Group} (h : Keeps a s) : Keeps a (s.putFrame g) := by
  unfold State.putFrame Group.writeFrame
  refine foldl_keeps ?_ fun t n kt => kt.mend
  exact Keeps.mend (Keeps.mend ⟨h.lasting.store.store⟩)
theorem Keeps.parkRegs {g : Machine.Group} (h : Keeps a s) : Keeps a (s.parkRegs g) := by
  unfold State.parkRegs
  exact Keeps.mend ⟨h.lasting.store⟩
theorem Keeps.callqPush {k : ℕ} {d : Desc} (h : Keeps a s) : Keeps a (s.callqPush k d) := by
  unfold State.callqPush
  exact h.modSurv
theorem Keeps.imageOut {team core : ℕ} (h : Keeps a s) : Keeps a (s.imageOut team core) := by
  unfold State.imageOut
  extract_lets gs heir
  split
  · clear_value heir
    split
    · exact h.setGrp.modCore
    · exact h
  · exact h
theorem Keeps.saveGroup {g : Machine.Group} {cause : Cause} {fstate : ℕ} {fpc : DWord} {sub flanes : Mask} {faddr : DWord} {tcode : ℕ}
    (h : Keeps a s) : Keeps a (s.saveGroup g cause fstate fpc sub flanes faddr tcode) := by
  unfold State.saveGroup
  extract_lets w y h1 s1
  have ks1 : Keeps a s1 := h.modCore
  exact ks1.putFrame.imageOut
theorem Keeps.takeException {g : Machine.Group} {cause : Cause} {fpc : DWord} {sub flanes : Mask} {faddr : DWord} {tcode : ℕ}
    (h : Keeps a s) : Keeps a (s.takeException g cause fpc sub flanes faddr tcode) := by
  unfold State.takeException
  extract_lets s1
  have ks1 : Keeps a s1 := h.saveGroup.callqPush
  split
  · exact ks1.modSheet
  · exact ks1
theorem Keeps.refreshRo {a'2 n : ℕ} (h : Keeps a s) : Keeps a (s.refreshRo a'2 n) := by
  unfold State.refreshRo
  exact ⟨h.lasting⟩
theorem Keeps.putGrp {g h'3 : Machine.Group} (h : Keeps a s) : Keeps a (s.putGrp g h'3) := by
  unfold State.putGrp
  split
  · exact h.setGrp.parkRegs
  · exact h.setGrp
theorem Keeps.updGroup {id : ℕ} {f : Machine.Group → Machine.Group} (h : Keeps a s) : Keeps a (s.updGroup id f) := by
  unfold State.updGroup
  split
  · exact h
  · split
    · extract_lets k h1 fs y
      exact h.putFrame
    · exact h.putGrp

/-! ### Machine/Translate -/

theorem Keeps.tlbFill {core asn va : ℕ} (h : Keeps a s) : Keeps a (s.tlbFill core asn va) := by
  unfold State.tlbFill
  split
  · exact h
  · extract_lets e add s1
    have ks1 : Keeps a s1 := h.modCore
    exact ks1.modDie

/-! ### Machine/Cache -/

theorem Keeps.flushL1 {core : ℕ} {device : Bool} (h : Keeps a s) : Keeps a (s.flushL1 core device) := by
  unfold State.flushL1
  extract_lets c far gid s1
  have ks1 : Keeps a s1 := Keeps.modCore ⟨h.lasting⟩
  split
  · exact ks1
  · exact ks1.modDie
theorem Keeps.clearMarks {core : ℕ} (h : Keeps a s) : Keeps a (s.clearMarks core) := by
  unfold State.clearMarks
  exact ⟨h.lasting⟩
theorem Keeps.promoteMark {e : ℕ × ℕ} (h : Keeps a s) : Keeps a (s.promoteMark e) := by
  unfold State.promoteMark
  exact h.flushL1.modDie
theorem Keeps.promote {core : ℕ} {lines : List ℕ} (h : Keeps a s) : Keeps a (s.promote core lines) := by
  unfold State.promote
  refine foldl_keeps ?_ ?_
  · exact h
  · intro t x kt
    split
    · exact kt.promoteMark
    · exact kt
theorem Keeps.lineLeaves {l : ℕ} (h : Keeps a s) : Keeps a (s.lineLeaves l) := by
  unfold State.lineLeaves
  split
  · exact h.promoteMark
  · exact h
theorem Keeps.fetchLineOf {core : ℕ} {u : LineUse} {wrote : Word} {l : ℕ} (h : Keeps a s) : Keeps a (s.fetchLineOf core u wrote l) := by
  unfold State.fetchLineOf
  split
  · exact h
  · extract_lets h1 full s1 s2
    have ks1 : Keeps a s1 := by
      unfold s1
      split
      · exact h.lineLeaves
      · exact h
    have ks2 : Keeps a s2 := ks1.modDie
    split
    · exact ks2
    · exact ks2.modDie
theorem Keeps.useCaches {core : ℕ} {u : LineUse} {as wr : List (ℕ × ℕ)} (h : Keeps a s) : Keeps a (s.useCaches core u as wr) := by
  unfold State.useCaches
  extract_lets c m out kept miss written s1
  have ks1 : Keeps a s1 := Keeps.modCore ⟨h.lasting⟩
  refine foldl_keeps ?_ ?_
  · exact ks1
  · intro t x kt
    exact kt.fetchLineOf
theorem Keeps.takeLines {core gid : ℕ} {sub : Mask} {wr : Bool} {lines : List ℕ} (h : Keeps a s) : OnSome (Keeps a)
    (s.takeLines core gid sub wr lines) := by
  unfold State.takeLines
  extract_lets ls
  split
  · exact .some h.modCore
  · exact .none
theorem Keeps.leaveQueue {core gid : ℕ} {sub : Mask} (h : Keeps a s) : Keeps a (s.leaveQueue core gid sub) := by
  unfold State.leaveQueue
  exact h.modCore
theorem Keeps.filterLines {lines : List ℕ} {force : Bool} (h : Keeps a s) : Keeps a (s.filterLines lines force) := by
  unfold State.filterLines
  refine foldl_keeps ?_ ?_
  · exact h
  · intro t x kt
    extract_lets d
    split
    · exact kt.modDie
    · split
      · exact kt.modDie
      · split
        · refine Keeps.modDie ?_
          refine OnSome.getD ?_ ?_
          · refine .map fun x1 found => ?_
            exact kt.lineLeaves
          · exact kt
        · exact kt
theorem Keeps.filterRange {pa n : ℕ} (h : Keeps a s) : Keeps a (s.filterRange pa n) := by
  unfold State.filterRange
  split
  · exact h.filterLines
  · exact h
theorem Keeps.walkReads {asn va : ℕ} (h : Keeps a s) : Keeps a (s.walkReads asn va) := by
  unfold State.walkReads
  split
  · exact h
  · refine foldl_keeps ?_ ?_
    · exact h
    · intro t x kt
      exact kt.lineLeaves
theorem Keeps.touch {g : Machine.Group} {va : ℕ} {a'4 : Machine.Acc} (h : Keeps a s) : Keeps a (s.touch g va a'4) := by
  unfold State.touch
  split
  · exact h
  · refine Keeps.tlbFill ?_
    split
    · exact h.walkReads
    · exact h
theorem Keeps.acquireAt {core sc : ℕ} {paired : Bool} (h : Keeps a s) : Keeps a (s.acquireAt core sc paired) := by
  unfold State.acquireAt
  extract_lets s1
  have ks1 : Keeps a s1 := by
    unfold s1
    split
    · exact h.modCore
    · exact h
  split
  · exact ks1.modDie
  · exact ks1
theorem Keeps.releaseAt {core sc : ℕ} {paired : Bool} (h : Keeps a s) : Keeps a (s.releaseAt core sc paired) := by
  unfold State.releaseAt
  extract_lets s1
  have ks1 : Keeps a s1 := by
    unfold s1
    split
    · exact h.flushL1
    · exact h
  split
  · exact ks1.clearMarks
  · exact ks1
theorem Keeps.markLines {core : ℕ} {lines : List ℕ} (h : Keeps a s) : Keeps a (s.markLines core lines) := by
  unfold State.markLines
  refine foldl_keeps ?_ ?_
  · exact h
  · intro t x kt
    exact kt.modDie
theorem Keeps.acquirePart {g : Machine.Group} {sc ord : ℕ} {lines : List ℕ} (h : Keeps a s) : Keeps a (s.acquirePart g sc ord lines) := by
  unfold State.acquirePart
  split
  · exact h.promote.acquireAt
  · extract_lets s1 hit
    have ks1 : Keeps a s1 := by
      unfold s1
      split
      · exact h.acquireAt
      · exact h
    split
    · exact ks1
    · exact ks1.modGrp
theorem Keeps.releasePart {g : Machine.Group} {sc ord : ℕ} {lines : List ℕ} (h : Keeps a s) : Keeps a (s.releasePart g sc ord lines) := by
  unfold State.releasePart
  extract_lets s1
  have ks1 : Keeps a s1 := by
    unfold s1
    split
    · exact h.releaseAt
    · exact h
  split
  · exact ks1.markLines
  · exact ks1
theorem Keeps.fenceOf {g : Machine.Group} {sc ord : ℕ} (h : Keeps a s) : Keeps a (s.fenceOf g sc ord) := by
  unfold State.fenceOf
  extract_lets s1
  have ks1 : Keeps a s1 := by
    unfold s1
    split
    · exact h.releaseAt.modGrp
    · exact h
  split
  · refine Keeps.modGrp ?_
    refine Keeps.acquireAt ?_
    split
    · exact ks1.promote
    · exact ks1
  · exact ks1
theorem Keeps.restoreGroup {g : Machine.Group} {f : optParam (Machine.Group → Machine.Group) id} (h : Keeps a s) : OnSome (Keeps a)
    (s.restoreGroup g f) := by
  unfold State.restoreGroup
  split
  · exact .none
  · extract_lets s1 y h1
    have ks1 : Keeps a s1 := by
      unfold s1
      split
      · exact h.acquireAt
      · exact h
    split
    · exact .some ks1.setGrp.parkRegs
    · split
      · exact .none
      · extract_lets s11
        have ks11 : Keeps a s11 := ks1.setGrp.parkRegs.modGrp
        exact .some ks11.modCore

/-! ### Machine/Issue -/

theorem Keeps.snapPage {sheet page : ℕ} (h : Keeps a s) : Keeps a (s.snapPage sheet page) := by
  unfold State.snapPage
  split
  · exact h
  · split
    · split
      · extract_lets y
        have ky : Keeps a y := h.modSheet
        exact ⟨ky.lasting⟩
      · exact h.modSheet
    · exact h
theorem Keeps.sheetStore {sheet pa : ℕ} {bs : List Byte} (h : Keeps a s) : Keeps a (s.sheetStore sheet pa bs) := by
  unfold State.sheetStore
  extract_lets s1
  have ks1 : Keeps a s1 := by
    unfold s1
    refine foldl_keeps ?_ ?_
    · exact h
    · intro t x kt
      exact kt.snapPage
  exact Keeps.filterRange (Keeps.mend ⟨ks1.lasting.store⟩)
theorem Keeps.trapAll {q : Q} {c : Cause} (h : Keeps a s) : OnRes (Keeps a) (trapAll q c s) := by
  unfold Machine.trapAll
  exact h
theorem Keeps.chargeUnits {cluster cls : ℕ} {res units : ℕ} (h : Keeps a s) : Keeps a (s.chargeUnits cluster cls res units) := by
  unfold State.chargeUnits
  exact h.modCluster
theorem Keeps.chargeTraffic {cluster cls : ℕ} {bytes hbm : ℕ} (h : Keeps a s) : Keeps a (s.chargeTraffic cluster cls bytes hbm) := by
  unfold State.chargeTraffic
  exact h.chargeUnits.chargeUnits
theorem Keeps.chargeLines {cluster cls : ℕ} {lines : List ℕ} (h : Keeps a s) : Keeps a (s.chargeLines cluster cls lines) := by
  unfold State.chargeLines
  extract_lets ls
  split
  · exact h
  · exact h.chargeTraffic
theorem Keeps.chargePieces {cluster cls : ℕ} {ps : List (ℕ × ℕ)} (h : Keeps a s) : Keeps a (s.chargePieces cluster cls ps) := by
  unfold State.chargePieces
  extract_lets sum
  split
  · exact h
  · exact h.chargeTraffic
theorem Keeps.chargeMove {cluster cls : ℕ} {ps : List (ℕ × ℕ)} (h : Keeps a s) : Keeps a (s.chargeMove cluster cls ps) := by
  unfold State.chargeMove
  exact h.chargePieces.chargeUnits
theorem Keeps.chargeEngine {core team : ℕ} {sheet cls : ℕ} {ps : List (ℕ × ℕ)} (h : Keeps a s) : Keeps a
    (s.chargeEngine core team sheet cls ps) := by
  unfold State.chargeEngine
  exact h.chargeMove.modCore
theorem Keeps.tick {core ck : ℕ} (h : Keeps a s) : Keeps a (s.tick core ck) := by
  unfold State.tick
  extract_lets nap s1
  have ks1 : Keeps a s1 := h.modCore
  exact ks1.modGrps
theorem Keeps.spend {q : Q} {gid ck : ℕ} (h : Keeps a s) : Keeps a (s.spend q gid ck) := by
  unfold State.spend
  extract_lets k s1
  have ks1 : Keeps a s1 := h.tick.modCore
  exact ks1.modGrp.modCore.chargeUnits
theorem Keeps.spendRuns {q : Q} {ck : ℕ} (h : Keeps a s) : Keeps a (s.spendRuns q ck) := by
  unfold State.spendRuns
  split
  · exact h
  · exact h.spend
theorem Keeps.stepDone {gid : ℕ} {q : Q} (h : Keeps a s) : Keeps a (s.stepDone gid q) := by
  unfold State.stepDone
  split
  · exact h
  · split
    · extract_lets sub pc
      exact h.saveGroup.callqPush
    · exact h
theorem Keeps.enqueueWait {g : Machine.Group} {sub : Mask} {w : Wait} (h : Keeps a s) : Keeps a (s.enqueueWait g sub w) := by
  unfold State.enqueueWait
  split
  · split
    · exact h.leaveQueue
    · exact h.modCore
  · exact h.leaveQueue.modDie
  · exact h.leaveQueue
theorem Keeps.pageFault {g : Machine.Group} {kind : ℕ} {pc : DWord} {sub : Mask} {vas : List (ℕ × DWord)} (h : Keeps a s) : Keeps a
    (s.pageFault g kind pc sub vas) := by
  unfold State.pageFault
  exact h.saveGroup.modGrp
theorem Keeps.settleRes {i : Instr} {q : Q} {extra : Nat} {r : Res} (h : OnRes (Keeps a) r) : OnOut (Keeps a)
    (Machine.settleRes i q extra r) := by
  unfold Machine.settleRes
  cases r with
  | ok t =>
    have kt : Keeps a t := h
    exact ⟨kt.modGrp.leaveQueue.spend.stepDone.lasting⟩
  | moved t =>
    have kt : Keeps a t := h
    exact ⟨kt.modGrp.leaveQueue.spend.stepDone.lasting⟩
  | trap c lanes addr code t =>
    have kt : Keeps a t := h
    dsimp only
    split
    · exact ⟨kt.spendRuns.lasting⟩
    · exact ⟨kt.spendRuns.takeException.lasting⟩
  | pages vas t kind =>
    have kt : Keeps a t := h
    dsimp only
    split
    · exact ⟨kt.lasting⟩
    · exact ⟨(kt.pageFault (kind := kind.getD (faultKind i))).lasting⟩
  | wait w t =>
    have kt : Keeps a t := h
    exact ⟨kt.modGrp.spend.enqueueWait.stepDone.lasting⟩
theorem Keeps.disagree {core : ℕ} {g : Machine.Group} {runs : List Mask} (h : Keeps a s) : Keeps a (s.disagree core g runs) := by
  unfold State.disagree
  exact h.modCore
theorem Keeps.noteCheck {core : ℕ} (h : Keeps a s) : Keeps a (s.noteCheck core) := by
  unfold State.noteCheck
  exact h.modCore
theorem Keeps.withLines {q : Q} {u : LineUse} {as : List (ℕ × ℕ)} {k : State → Res} (h : Keeps a s) (hk : ∀ t, Keeps a t → OnRes
    (Keeps a) (k t)) : OnRes (Keeps a) (withLines q s u as k) := by
  unfold Machine.withLines
  split
  · exact h
  · extract_lets need
    split
    next t found =>
      exact h
    next t t1 found =>
      have kt1 : Keeps a t1 := .got found h.takeLines
      exact hk _ kt1.chargeLines
theorem Keeps.freshen {gid : ℕ} {as : List (ℕ × ℕ)} (h : Keeps a s) : Keeps a (s.freshen gid as) := by
  unfold State.freshen
  extract_lets one
  exact h.modGrp
theorem Keeps.loadPieces {q : Q} {as : List (ℕ × ℕ)} (h : Keeps a s) : Keeps a (s.loadPieces q as) := by
  unfold State.loadPieces
  exact h.useCaches.filterLines.freshen
theorem Keeps.Res.grp {g : Machine.Group} (h : Keeps a s) : OnRes (Keeps a) (Res.grp s g) := by
  unfold Machine.Res.grp
  exact h.setGrp

/-! ### Machine/Access -/

theorem Keeps.soonAll {is : List Instr} (h : Keeps a s) : Keeps a (s.soonAll is) := by
  unfold State.soonAll
  exact ⟨h.lasting⟩
theorem Keeps.soon {i : Instr} (h : Keeps a s) : Keeps a (s.soon i) := by
  unfold State.soon
  exact ⟨h.lasting⟩
theorem Keeps.settleConds {conds : List (ℕ × Option Cond)} {k : Unit → Res} (h : Keeps a s) (hk : ∀ y1, OnRes (Keeps a) (k y1)) :
    OnRes (Keeps a) (settleConds conds s k) := by
  unfold Machine.settleConds
  split
  · exact hk _
  · exact h
  · exact h
  · exact h
theorem Keeps.settleU {q : Q} {cond : Option Cond} {k : Unit → Res} (h : Keeps a s) (hk : ∀ y1, OnRes (Keeps a) (k y1)) : OnRes
    (Keeps a) (settleU q cond s k) := by
  unfold Machine.settleU
  split
  · exact hk _
  · exact h
  · exact h
  · exact h
theorem Keeps.touchRange {g : Machine.Group} {va n : ℕ} {acc : Machine.Acc} (h : Keeps a s) : Keeps a (s.touchRange g va n acc) := by
  unfold State.touchRange
  refine foldl_keeps ?_ ?_
  · exact h
  · intro t x kt
    exact kt.touch
theorem Keeps.nameFailed {team : ℕ} {cs : List ℕ} (h : Keeps a s) : Keeps a (s.nameFailed team cs) := by
  unfold State.nameFailed
  exact h.modTeam

/-! ### Machine/Fetch -/

theorem Keeps.checkDests {q : Q} {ls : List Nat} {dest : Nat → Option DWord} {stack : Nat → Option Cause} {r : Res} (h : Keeps a s)
    (found : s.checkDests q ls dest stack = .error r) : OnRes (Keeps a) r := by
  simp only [State.checkDests] at found
  split at found
  · cases found
    exact h
  · cases found
    exact h
  · cases found
    exact h
  · cases found
theorem Keeps.beginIssue {core : Nat} {stale : Bool} (h : Keeps a s) : OnSome (fun p => Keeps a p.1) (s.beginIssue core stale) := by
  unfold State.beginIssue
  split
  · exact .none
  · split
    · exact .none
    · extract_lets pc c h1
      split
      · exact .some (Keeps.mk h.lasting)
      · exact .some (Keeps.mk h.lasting)
theorem Keeps.fetchFails {c : Issue} {r : FetchRes} (h : Keeps a s) : Keeps a (s.fetchFails c r) := by
  unfold State.fetchFails
  split
  · exact ⟨h.lasting⟩
  · split
    · extract_lets y
      have ky : Keeps a y := h.takeException
      exact ⟨ky.lasting⟩
    · extract_lets y
      have ky : Keeps a y := h.pageFault
      exact ⟨ky.lasting⟩
    · extract_lets y
      have ky : Keeps a y := h.setGrp.enqueueWait
      exact ⟨ky.lasting⟩
    · exact ⟨h.lasting⟩

/-! ### Machine/Run -/

theorem Keeps.targetFirst {i : Instr} {q : Q} (h : Keeps a s) : OnSome (OnRes (Keeps a)) (s.targetFirst i q) := by
  unfold State.targetFirst
  cases destsOf i q with
  | none => exact .none
  | some d =>
    refine .ite .none ?_
    split
    · next found => exact .some (h.checkDests found)
    · exact .none
theorem Keeps.runI {i : Instr} {body : Q → State → Res} (h : Keeps a s) (hbody : ∀ q t, Keeps a t → OnRes (Keeps a) (body q t)) :
    OnOut (Keeps a) (Machine.runI i body s) := by
  unfold Machine.runI
  split
  · trivial
  · next q _ =>
    split
    · refine settleRes ?_
      split
      · exact h.trapAll
      · exact h.targetFirst.getD h.trapAll
    · split
      · exact settleRes h
      · split
        · exact settleRes (hbody q s h)
        · split
          · exact settleRes h
          · extract_lets s1
            have ks1 : Keeps a s1 := h.disagree
            split
            · exact settleRes ks1.noteCheck
            · exact settleRes (hbody q s1 ks1)
          · exact settleRes (hbody q s h)

/-! ### Machine/Int -/

theorem Keeps.laneOp {d : Opnd} {w : ℕ} {signed : Bool} {f : Machine.Group → ℕ → LaneRes} {q : Q} (h : Keeps a s) : OnRes (Keeps a)
    (laneOp d w signed f q s) := by
  unfold Machine.laneOp
  extract_lets rs
  exact Keeps.Res.grp h
theorem Keeps.intOp {o : F5} {f : Machine.Group → ℕ → ℤ} {q : Q} (h : Keeps a s) : OnRes (Keeps a) (intOp o f q s) := by
  unfold Machine.intOp
  exact h.laneOp
theorem Keeps.execIadd {o : F5} (h : Keeps a s) : OnOut (Keeps a) (execIadd o s) := by
  unfold Machine.execIadd
  refine Keeps.runI h fun x t kt => ?_
  exact kt.intOp
theorem Keeps.execIsub {o : F5} (h : Keeps a s) : OnOut (Keeps a) (execIsub o s) := by
  unfold Machine.execIsub
  refine Keeps.runI h fun x t kt => ?_
  exact kt.intOp
theorem Keeps.execIaddc {o : F5} (h : Keeps a s) : OnOut (Keeps a) (Machine.execIaddc o s) := by
  unfold Machine.execIaddc
  refine h.runI fun q t kt => ?_
  have summed := kt.intOp (o := o) (f := iaddcSum o) (q := q)
  split
  · next u found =>
    rw [found] at summed
    exact Keeps.modGrp summed
  · exact summed
theorem Keeps.execImul {o : F5} (h : Keeps a s) : OnOut (Keeps a) (execImul o s) := by
  unfold Machine.execImul
  refine Keeps.runI h fun x t kt => ?_
  exact kt.intOp
theorem Keeps.execImulh {o : F5} (h : Keeps a s) : OnOut (Keeps a) (execImulh o s) := by
  unfold Machine.execImulh
  refine Keeps.runI h fun x t kt => ?_
  exact kt.intOp
theorem Keeps.execImad {o : F5} (h : Keeps a s) : OnOut (Keeps a) (execImad o s) := by
  unfold Machine.execImad
  refine Keeps.runI h fun x t kt => ?_
  exact kt.intOp
theorem Keeps.execImadw {o : F5} (h : Keeps a s) : OnOut (Keeps a) (execImadw o s) := by
  unfold Machine.execImadw
  refine Keeps.runI h fun x t kt => ?_
  exact kt.laneOp
theorem Keeps.execIdiv {o : F5} (h : Keeps a s) : OnOut (Keeps a) (execIdiv o s) := by
  unfold Machine.execIdiv
  refine Keeps.runI h fun x t kt => ?_
  exact kt.laneOp
theorem Keeps.execIrem {o : F5} (h : Keeps a s) : OnOut (Keeps a) (execIrem o s) := by
  unfold Machine.execIrem
  refine Keeps.runI h fun x t kt => ?_
  exact kt.laneOp
theorem Keeps.execIshl {o : F5} (h : Keeps a s) : OnOut (Keeps a) (execIshl o s) := by
  unfold Machine.execIshl
  refine Keeps.runI h fun x t kt => ?_
  exact kt.intOp
theorem Keeps.execIshr {o : F5} (h : Keeps a s) : OnOut (Keeps a) (execIshr o s) := by
  unfold Machine.execIshr
  refine Keeps.runI h fun x t kt => ?_
  exact kt.intOp
theorem Keeps.execIsra {o : F5} (h : Keeps a s) : OnOut (Keeps a) (execIsra o s) := by
  unfold Machine.execIsra
  refine Keeps.runI h fun x t kt => ?_
  exact kt.intOp
theorem Keeps.execIrot {o : F5} (h : Keeps a s) : OnOut (Keeps a) (execIrot o s) := by
  unfold Machine.execIrot
  refine Keeps.runI h fun x t kt => ?_
  exact kt.intOp
theorem Keeps.execLogic {o : F5} (h : Keeps a s) : OnOut (Keeps a) (execLogic o s) := by
  unfold Machine.execLogic
  refine Keeps.runI h fun x t kt => ?_
  exact kt.laneOp
theorem Keeps.execBfx {o : F5} (h : Keeps a s) : OnOut (Keeps a) (execBfx o s) := by
  unfold Machine.execBfx
  refine Keeps.runI h fun x t kt => ?_
  exact kt.intOp
theorem Keeps.execBfi {o : F5} (h : Keeps a s) : OnOut (Keeps a) (execBfi o s) := by
  unfold Machine.execBfi
  refine Keeps.runI h fun x t kt => ?_
  exact kt.intOp
theorem Keeps.countOp {o : F5} {f : ℕ → ℕ → ℕ} {q : Q} (h : Keeps a s) : OnRes (Keeps a) (countOp o f q s) := by
  unfold Machine.countOp
  exact h.laneOp
theorem Keeps.execPopc {o : F5} (h : Keeps a s) : OnOut (Keeps a) (execPopc o s) := by
  unfold Machine.execPopc
  refine Keeps.runI h fun x t kt => ?_
  exact kt.countOp
theorem Keeps.execClz {o : F5} (h : Keeps a s) : OnOut (Keeps a) (execClz o s) := by
  unfold Machine.execClz
  refine Keeps.runI h fun x t kt => ?_
  exact kt.countOp
theorem Keeps.execCtz {o : F5} (h : Keeps a s) : OnOut (Keeps a) (execCtz o s) := by
  unfold Machine.execCtz
  refine Keeps.runI h fun x t kt => ?_
  exact kt.countOp
theorem Keeps.execBrev {o : F5} (h : Keeps a s) : OnOut (Keeps a) (execBrev o s) := by
  unfold Machine.execBrev
  refine Keeps.runI h fun x t kt => ?_
  exact kt.intOp
theorem Keeps.execImin {o : F5} (h : Keeps a s) : OnOut (Keeps a) (execImin o s) := by
  unfold Machine.execImin
  refine Keeps.runI h fun x t kt => ?_
  exact kt.intOp
theorem Keeps.execImax {o : F5} (h : Keeps a s) : OnOut (Keeps a) (execImax o s) := by
  unfold Machine.execImax
  refine Keeps.runI h fun x t kt => ?_
  exact kt.intOp
theorem Keeps.execIabs {o : F5} (h : Keeps a s) : OnOut (Keeps a) (execIabs o s) := by
  unfold Machine.execIabs
  refine Keeps.runI h fun x t kt => ?_
  exact kt.intOp
theorem Keeps.testOp {d : Opnd} {f : Machine.Group → ℕ → Bool} {q : Q} (h : Keeps a s) : OnRes (Keeps a) (testOp d f q s) := by
  unfold Machine.testOp
  exact Keeps.Res.grp h
theorem Keeps.execIcmp {o : F5} (h : Keeps a s) : OnOut (Keeps a) (execIcmp o s) := by
  unfold Machine.execIcmp
  refine Keeps.runI h fun x t kt => ?_
  exact kt.testOp
theorem Keeps.dotOp {o : F5} {n w : ℕ} {q : Q} (h : Keeps a s) : OnRes (Keeps a) (dotOp o n w q s) := by
  unfold Machine.dotOp
  extract_lets sa sb
  exact h.laneOp
theorem Keeps.execDot4 {o : F5} (h : Keeps a s) : OnOut (Keeps a) (execDot4 o s) := by
  unfold Machine.execDot4
  refine Keeps.runI h fun x t kt => ?_
  exact kt.dotOp
theorem Keeps.execDot8 {o : F5} (h : Keeps a s) : OnOut (Keeps a) (execDot8 o s) := by
  unfold Machine.execDot8
  refine Keeps.runI h fun x t kt => ?_
  exact kt.dotOp
theorem Keeps.execMov {o : F5} (h : Keeps a s) : OnOut (Keeps a) (execMov o s) := by
  unfold Machine.execMov
  refine Keeps.runI h fun x t kt => ?_
  exact kt.laneOp
theorem Keeps.execMovi {o : FRI} (h : Keeps a s) : OnOut (Keeps a) (execMovi o s) := by
  unfold Machine.execMovi
  refine Keeps.runI h fun x t kt => ?_
  exact kt.laneOp
theorem Keeps.execMovs {o : F5} (h : Keeps a s) : OnOut (Keeps a) (execMovs o s) := by
  unfold Machine.execMovs
  refine Keeps.runI h fun x t kt => ?_
  split
  · exact Keeps.Res.grp kt
  · extract_lets w g1
    exact Keeps.Res.grp kt
  · exact kt.trapAll
theorem Keeps.execSel {o : F5} (h : Keeps a s) : OnOut (Keeps a) (execSel o s) := by
  unfold Machine.execSel
  refine Keeps.runI h fun x t kt => ?_
  exact kt.laneOp
theorem Keeps.execPlog {o : F5} (h : Keeps a s) : OnOut (Keeps a) (execPlog o s) := by
  unfold Machine.execPlog
  refine Keeps.runI h fun x t kt => ?_
  exact kt.testOp
theorem Keeps.execPmov {o : F5} (h : Keeps a s) : OnOut (Keeps a) (execPmov o s) := by
  unfold Machine.execPmov
  refine Keeps.runI h fun x t kt => ?_
  split
  · exact kt.testOp
  · exact kt.laneOp
  · exact Keeps.Res.grp kt
  · exact kt.testOp

/-! ### Machine/Float -/

theorem Keeps.fOp {fm : Fmt} {w : ℕ} {o : F5} {f : (Opnd → FVal) → Exact} {q : Q} (h : Keeps a s) : OnRes (Keeps a) (fOp fm w o f q s) := by
  unfold Machine.fOp
  exact h.laneOp
theorem Keeps.execFadd {o : F5} (h : Keeps a s) : OnOut (Keeps a) (execFadd o s) := by
  unfold Machine.execFadd
  refine Keeps.runI h fun x t kt => ?_
  exact kt.fOp
theorem Keeps.execFsub {o : F5} (h : Keeps a s) : OnOut (Keeps a) (execFsub o s) := by
  unfold Machine.execFsub
  refine Keeps.runI h fun x t kt => ?_
  exact kt.fOp
theorem Keeps.execFmul {o : F5} (h : Keeps a s) : OnOut (Keeps a) (execFmul o s) := by
  unfold Machine.execFmul
  refine Keeps.runI h fun x t kt => ?_
  exact kt.fOp
theorem Keeps.execFma {o : F5} (h : Keeps a s) : OnOut (Keeps a) (execFma o s) := by
  unfold Machine.execFma
  refine Keeps.runI h fun x t kt => ?_
  exact kt.fOp
theorem Keeps.execFrcp {o : F5} (h : Keeps a s) : OnOut (Keeps a) (execFrcp o s) := by
  unfold Machine.execFrcp
  refine Keeps.runI h fun x t kt => ?_
  exact kt.fOp
theorem Keeps.execFrsq {o : F5} (h : Keeps a s) : OnOut (Keeps a) (execFrsq o s) := by
  unfold Machine.execFrsq
  refine Keeps.runI h fun x t kt => ?_
  exact kt.fOp
theorem Keeps.execFsqrt {o : F5} (h : Keeps a s) : OnOut (Keeps a) (execFsqrt o s) := by
  unfold Machine.execFsqrt
  refine Keeps.runI h fun x t kt => ?_
  exact kt.fOp
theorem Keeps.execFdiv {o : F5} (h : Keeps a s) : OnOut (Keeps a) (execFdiv o s) := by
  unfold Machine.execFdiv
  refine Keeps.runI h fun x t kt => ?_
  exact kt.fOp
theorem Keeps.execFexp2 {o : F5} (h : Keeps a s) : OnOut (Keeps a) (execFexp2 o s) := by
  unfold Machine.execFexp2
  refine Keeps.runI h fun x t kt => ?_
  exact kt.fOp
theorem Keeps.execFlog2 {o : F5} (h : Keeps a s) : OnOut (Keeps a) (execFlog2 o s) := by
  unfold Machine.execFlog2
  refine Keeps.runI h fun x t kt => ?_
  exact kt.fOp
theorem Keeps.execFsin {o : F5} (h : Keeps a s) : OnOut (Keeps a) (execFsin o s) := by
  unfold Machine.execFsin
  refine Keeps.runI h fun x t kt => ?_
  exact kt.fOp
theorem Keeps.execFcos {o : F5} (h : Keeps a s) : OnOut (Keeps a) (execFcos o s) := by
  unfold Machine.execFcos
  refine Keeps.runI h fun x t kt => ?_
  exact kt.fOp
theorem Keeps.execDadd {o : F5} (h : Keeps a s) : OnOut (Keeps a) (execDadd o s) := by
  unfold Machine.execDadd
  refine Keeps.runI h fun x t kt => ?_
  exact kt.fOp
theorem Keeps.execDmul {o : F5} (h : Keeps a s) : OnOut (Keeps a) (execDmul o s) := by
  unfold Machine.execDmul
  refine Keeps.runI h fun x t kt => ?_
  exact kt.fOp
theorem Keeps.execDfma {o : F5} (h : Keeps a s) : OnOut (Keeps a) (execDfma o s) := by
  unfold Machine.execDfma
  refine Keeps.runI h fun x t kt => ?_
  exact kt.fOp
theorem Keeps.minMaxOp {o : F5} {mx : Bool} {q : Q} (h : Keeps a s) : OnRes (Keeps a) (minMaxOp o mx q s) := by
  unfold Machine.minMaxOp
  extract_lets w
  exact h.laneOp
theorem Keeps.execFmin {o : F5} (h : Keeps a s) : OnOut (Keeps a) (execFmin o s) := by
  unfold Machine.execFmin
  refine Keeps.runI h fun x t kt => ?_
  exact kt.minMaxOp
theorem Keeps.execFmax {o : F5} (h : Keeps a s) : OnOut (Keeps a) (execFmax o s) := by
  unfold Machine.execFmax
  refine Keeps.runI h fun x t kt => ?_
  exact kt.minMaxOp
theorem Keeps.execFcmp {o : F5} (h : Keeps a s) : OnOut (Keeps a) (execFcmp o s) := by
  unfold Machine.execFcmp
  refine Keeps.runI h fun x t kt => ?_
  extract_lets rs fls
  exact Keeps.Res.grp kt
theorem Keeps.execFclass {o : F5} (h : Keeps a s) : OnOut (Keeps a) (execFclass o s) := by
  unfold Machine.execFclass
  refine Keeps.runI h fun x t kt => ?_
  exact kt.laneOp
theorem Keeps.hOp {o : F5} {f : (Opnd → FVal) → Exact} {q : Q} (h : Keeps a s) : OnRes (Keeps a) (hOp o f q s) := by
  unfold Machine.hOp
  extract_lets fm
  exact h.laneOp
theorem Keeps.execHadd2 {o : F5} (h : Keeps a s) : OnOut (Keeps a) (execHadd2 o s) := by
  unfold Machine.execHadd2
  refine Keeps.runI h fun x t kt => ?_
  exact kt.hOp
theorem Keeps.execHmul2 {o : F5} (h : Keeps a s) : OnOut (Keeps a) (execHmul2 o s) := by
  unfold Machine.execHmul2
  refine Keeps.runI h fun x t kt => ?_
  exact kt.hOp
theorem Keeps.execHfma2 {o : F5} (h : Keeps a s) : OnOut (Keeps a) (execHfma2 o s) := by
  unfold Machine.execHfma2
  refine Keeps.runI h fun x t kt => ?_
  exact kt.hOp
theorem Keeps.execCvt {o : F5} (h : Keeps a s) : OnOut (Keeps a) (execCvt o s) := by
  unfold Machine.execCvt
  refine Keeps.runI h fun x t kt => ?_
  extract_lets sr draw signed q1
  exact kt.laneOp
theorem Keeps.execPack {o : F5} (h : Keeps a s) : OnOut (Keeps a) (execPack o s) := by
  unfold Machine.execPack
  refine Keeps.runI h fun x t kt => ?_
  exact kt.laneOp
theorem Keeps.execUnpack {o : F5} (h : Keeps a s) : OnOut (Keeps a) (execUnpack o s) := by
  unfold Machine.execUnpack
  refine Keeps.runI h fun x t kt => ?_
  exact kt.laneOp

/-! ### Machine/Cross -/

theorem Keeps.execShfl {o : F5} (h : Keeps a s) : OnOut (Keeps a) (execShfl o s) := by
  unfold Machine.execShfl
  refine Keeps.runI h fun x t kt => ?_
  extract_lets mode w W seg
  exact kt.laneOp
theorem Keeps.execLred {o : F5} (h : Keeps a s) : OnOut (Keeps a) (execLred o s) := by
  unfold Machine.execLred
  refine Keeps.runI h fun x t kt => ?_
  extract_lets leaves xs t1 r signed
  exact Keeps.Res.grp kt
theorem Keeps.execLscan {o : F5} (h : Keeps a s) : OnOut (Keeps a) (execLscan o s) := by
  unfold Machine.execLscan
  refine Keeps.runI h fun x t kt => ?_
  extract_lets rs
  exact kt.laneOp
theorem Keeps.execVote {o : F5} (h : Keeps a s) : OnOut (Keeps a) (execVote o s) := by
  unfold Machine.execVote
  refine Keeps.runI h fun x t kt => ?_
  extract_lets ls n t1
  split
  · exact Keeps.Res.grp kt
  · exact Keeps.Res.grp kt
theorem Keeps.execBallot {o : F5} (h : Keeps a s) : OnOut (Keeps a) (execBallot o s) := by
  unfold Machine.execBallot
  refine Keeps.runI h fun x t kt => ?_
  extract_lets m
  exact Keeps.Res.grp kt
theorem Keeps.execBcast {o : F5} (h : Keeps a s) : OnOut (Keeps a) (execBcast o s) := by
  unfold Machine.execBcast
  refine Keeps.runI h fun x t kt => ?_
  extract_lets k
  exact Keeps.Res.grp kt

/-! ### Machine/Memory -/

theorem Keeps.withAddrs {q : Q} {addr : ℕ → ℤ} {n : ℕ} {acc : Machine.Acc} {k : List (ℕ × ℕ) → Res} (h : Keeps a s) (hk : ∀ y1, OnRes
    (Keeps a) (k y1)) : OnRes (Keeps a) (withAddrs q s addr n acc k) := by
  unfold Machine.withAddrs
  extract_lets as
  refine Keeps.settleConds h fun x => ?_
  exact hk _
theorem Keeps.touchLanes {q : Q} {addr : ℕ → ℤ} {acc : Machine.Acc} (h : Keeps a s) : Keeps a (touchLanes q addr acc s) := by
  unfold Machine.touchLanes
  refine foldl_keeps ?_ ?_
  · exact h
  · intro t x kt
    exact kt.touch
theorem Keeps.loadOp {o : FM} {ord : ℕ} {src : Q → State → Mem} {fresh : Q → Bool} {q : Q} (h : Keeps a s) : OnRes (Keeps a)
    (loadOp o ord src fresh q s) := by
  unfold Machine.loadOp
  extract_lets n m
  refine Keeps.withAddrs h fun x => ?_
  extract_lets bad as xs
  split
  · exact h
  · refine Keeps.withLines h fun t kt => ?_
    extract_lets t1 t2 t3
    have kt1 : Keeps a t1 := kt.touchLanes.useCaches.acquirePart
    have kt2 : Keeps a t2 := kt1.filterLines
    have kt3 : Keeps a t3 := by
      unfold t3
      split
      · exact kt2.freshen
      · exact kt2
    exact kt3.setGrp
theorem Keeps.execLd {o : FM} (h : Keeps a s) : OnOut (Keeps a) (execLd o s) := by
  unfold Machine.execLd
  refine Keeps.runI h fun x t kt => ?_
  exact kt.loadOp
theorem Keeps.execLdro {o : FM} (h : Keeps a s) : OnOut (Keeps a) (execLdro o s) := by
  unfold Machine.execLdro
  refine Keeps.runI h fun x t kt => ?_
  exact kt.loadOp
theorem Keeps.execSt {o : FM} (h : Keeps a s) : OnOut (Keeps a) (execSt o s) := by
  unfold Machine.execSt
  refine Keeps.runI h fun x t kt => ?_
  extract_lets n u ws
  refine Keeps.withAddrs kt fun x1 => ?_
  extract_lets bad as
  split
  · exact kt
  · refine Keeps.withLines kt fun t1 kt1 => ?_
    extract_lets t11 t2
    have kt11 : Keeps a t11 := kt1.touchLanes.releasePart.useCaches
    have kt2 : Keeps a t2 := kt11.filterLines
    change Keeps a _
    refine Keeps.soonAll ?_
    refine foldl_keeps ?_ ?_
    · exact kt2
    · intro t3 x2 kt3
      exact kt3.sheetStore
theorem Keeps.atomLanes {n : Nat} {f : Nat → Nat → Option Nat} {sheet : Nat} {es : List (Nat × Nat)} (h : Keeps a s) :
    Keeps a (Machine.atomLanes n f sheet es s).2 := by
  induction es generalizing s with
  | nil => exact h
  | cons e es ih =>
    obtain ⟨L, pa⟩ := e
    rw [Machine.atomLanes]
    refine ih (s := match f L (s.mem.loadNat pa n) with | some x => s.sheetStore sheet pa (leBytes n x) | none => s) ?_
    split
    · exact h.sheetStore
    · exact h
theorem Keeps.atomicOp {o : FM} {n : ℕ} {f : Q → ℕ → ℕ → Option ℕ} {w : ℕ} {q : Q} (h : Keeps a s) : OnRes (Keeps a)
    (atomicOp o n f w q s) := by
  unfold Machine.atomicOp
  extract_lets at_ pas bad as u
  refine Keeps.settleConds h fun x => ?_
  split
  · exact h
  · refine Keeps.withLines h fun t kt => ?_
    split
    next t1 x1 t2 found =>
      have kt2 : Keeps a t2 := .snd found kt.atomLanes
      extract_lets wrote t11 t21 t3
      have kt11 : Keeps a t11 := kt.touchLanes.acquirePart
      have kt21 : Keeps a t21 := by
        unfold t21
        split
        · exact kt11
        · exact kt11.releasePart
      have kt3 : Keeps a t3 := kt21.useCaches.filterLines
      split
      next t4 x2 t1 found1 =>
        have kt1 : Keeps a t1 := .snd found1 kt3.atomLanes
        extract_lets t5
        have kt5 : Keeps a t5 := kt1.freshen
        split
        · exact kt5.setGrp
        · exact kt5
theorem Keeps.execAtom {o : FM} (h : Keeps a s) : OnOut (Keeps a) (execAtom o s) := by
  unfold Machine.execAtom
  extract_lets n
  refine Keeps.runI h fun x t kt => ?_
  exact kt.atomicOp
theorem Keeps.execCas {o : FM} (h : Keeps a s) : OnOut (Keeps a) (execCas o s) := by
  unfold Machine.execCas
  refine Keeps.runI h fun x t kt => ?_
  exact kt.atomicOp
theorem Keeps.execRosync {o : FY} (h : Keeps a s) : OnOut (Keeps a) (execRosync o s) := by
  unfold Machine.execRosync
  refine Keeps.runI h fun x t kt => ?_
  exact kt.fenceOf.modGrp
theorem Keeps.execFence {o : FY} (h : Keeps a s) : OnOut (Keeps a) (execFence o s) := by
  unfold Machine.execFence
  refine Keeps.runI h fun x t kt => ?_
  exact kt.fenceOf
theorem Keeps.prefetch {q : Q} {l2 : Bool} {l : ℕ} (h : Keeps a s) : Keeps a (s.prefetch q l2 l) := by
  unfold State.prefetch
  extract_lets as
  split
  · exact h
  · split
    next t found =>
      exact h
    next t t1 found =>
      have kt1 : Keeps a t1 := .got found h.takeLines
      refine Keeps.chargeLines ?_
      refine Keeps.filterLines ?_
      split
      · exact kt1.fetchLineOf
      · exact kt1.useCaches
theorem Keeps.execPref {o : FM} (h : Keeps a s) : OnOut (Keeps a) (execPref o s) := by
  unfold Machine.execPref
  refine Keeps.runI h fun x t kt => ?_
  extract_lets as lines
  change Keeps a _
  refine foldl_keeps ?_ ?_
  · exact kt
  · intro t1 x1 kt1
    exact kt1.prefetch
theorem Keeps.modFab {port : ℕ} {f : FabPort → FabPort} (h : Keeps a s) : Keeps a (s.modFab port f) := by
  unfold State.modFab
  exact ⟨h.lasting⟩
theorem Keeps.issuePuts {sheet gid : ℕ} {w : Window} {ps : List (ℤ × List Byte)} (h : Keeps a s) : Keeps a
    (s.issuePuts sheet gid w ps) := by
  unfold State.issuePuts
  extract_lets n s1 new s2
  have ks1 : Keeps a s1 := h.modSheet
  have ks2 : Keeps a s2 := ⟨ks1.lasting⟩
  split
  · exact ks2
  · split
    · exact ks1.modSheet
    · refine foldl_keeps ?_ ?_
      · exact ks2
      · intro t x kt
        exact kt.modFab
theorem Keeps.execPut {o : FM} (h : Keeps a s) : OnOut (Keeps a) (execPut o s) := by
  unfold Machine.execPut
  refine Keeps.runI h fun x t kt => ?_
  extract_lets ref n w off ls
  refine Keeps.settleConds kt fun x1 => ?_
  clear_value w
  split
  · exact kt.trapAll
  · exact kt.issuePuts.chargeTraffic
theorem Keeps.execPuts {o : FM} (h : Keeps a s) : OnOut (Keeps a) (execPuts o s) := by
  unfold Machine.execPuts
  refine Keeps.runI h fun x t kt => ?_
  extract_lets n p ref off w
  split
  · exact kt.trapAll
  · split
    · exact kt.trapAll
    · split
      · exact kt
      · refine Keeps.settleU kt fun x1 => ?_
        split
        · exact kt.nameFailed
        · exact kt.trapAll
        · split
          · exact kt
          · split
            · exact kt.trapAll
            · exact kt.issuePuts.chargeTraffic
theorem Keeps.execWinwait {o : FY} (h : Keeps a s) : OnOut (Keeps a) (execWinwait o s) := by
  unfold Machine.execWinwait
  refine Keeps.runI h fun x t kt => ?_
  extract_lets ref t1
  split
  · exact kt.trapAll
  · split
    · exact kt.fenceOf
    · exact kt
theorem Keeps.execWinrd {o : FY} (h : Keeps a s) : OnOut (Keeps a) (execWinrd o s) := by
  unfold Machine.execWinrd
  refine Keeps.runI h fun x t kt => ?_
  split
  · extract_lets t1
    have kt1 : Keeps a t1 := by
      unfold t1
      split
      · exact kt.fenceOf
      · exact kt
    exact kt1.modGrp
  · exact kt.trapAll
theorem Keeps.execXqry {o : FM} (h : Keeps a s) : OnOut (Keeps a) (execXqry o s) := by
  unfold Machine.execXqry
  refine Keeps.runI h fun x t kt => ?_
  extract_lets rs inside t1
  have kt1 : Keeps a t1 := by
    unfold t1
    refine foldl_keeps ?_ ?_
    · exact kt
    · intro t2 x1 kt1
      exact kt1.touch
  split
  · exact kt
  · exact kt1.setGrp
  · exact kt.trapAll

/-! ### Machine/Scratch -/

theorem Keeps.withScratch {q : Q} {addr : ℕ → ℤ} {n : ℕ} {k : Team → List (ℕ × ℕ) → Res} (h : Keeps a s) (hk : ∀ y1 y2, OnRes
    (Keeps a) (k y1 y2)) : OnRes (Keeps a) (withScratch q s addr n k) := by
  unfold Machine.withScratch
  split
  · exact h.trapAll
  · extract_lets as absent s1
    have ks1 : Keeps a s1 := by
      unfold s1
      split
      · exact h
      · exact h.nameFailed
    split
    · exact h
    · refine Keeps.settleConds ks1 fun x => ?_
      exact hk _ _
theorem Keeps.execSld {o : FM} (h : Keeps a s) : OnOut (Keeps a) (execSld o s) := by
  unfold Machine.execSld
  refine Keeps.runI h fun x t kt => ?_
  extract_lets n
  refine Keeps.withScratch kt fun x1 x2 => ?_
  extract_lets bad from_ s1
  have ks1 : Keeps a s1 := by
    unfold s1
    split
    · exact kt
    · exact kt.modTeam
  split
  · exact kt
  · exact Keeps.Res.grp ks1
theorem Keeps.execSst {o : FM} (h : Keeps a s) : OnOut (Keeps a) (execSst o s) := by
  unfold Machine.execSst
  refine Keeps.runI h fun x t kt => ?_
  extract_lets n
  refine Keeps.withScratch kt fun x1 x2 => ?_
  extract_lets bad
  split
  · exact kt
  · exact kt.modTeam
theorem Keeps.execSatom {o : FM} (h : Keeps a s) : OnOut (Keeps a) (execSatom o s) := by
  unfold Machine.execSatom
  refine Keeps.runI h fun x t kt => ?_
  extract_lets cas n w f
  refine Keeps.withScratch kt fun x1 x2 => ?_
  extract_lets bad
  split
  · exact kt
  · split
    · extract_lets s1
      have ks1 : Keeps a s1 := kt.modTeam
      split
      · exact ks1.setGrp
      · exact ks1
theorem Keeps.execCstart {o : FY} (h : Keeps a s) : OnOut (Keeps a) (execCstart o s) := by
  unfold Machine.execCstart
  refine Keeps.runI h fun x t kt => ?_
  split
  · extract_lets key idx
    split
    · exact kt.trapAll
    · split
      · exact kt.trapAll
      · split
        · refine Keeps.settleU kt fun x1 => ?_
          exact kt
        · exact kt.trapAll
        · exact kt.trapAll
        · split
          · exact kt.trapAll
          · extract_lets u
            have ku : Keeps a u := by
              unfold u
              refine foldl_keeps ?_ ?_
              · exact kt
              · intro t1 x1 kt1
                exact kt1.filterRange
            exact ku.modTeam
  · exact kt.trapAll
theorem Keeps.execStage {o : FY} (h : Keeps a s) : OnOut (Keeps a) (execStage o s) := by
  unfold Machine.execStage
  refine Keeps.runI h fun x t kt => ?_
  split
  · exact kt.trapAll
  · extract_lets st
    split
    · exact kt.trapAll
    · extract_lets es r jobs cs
      split
      · exact kt.trapAll
      · split
        · exact kt
        · split
          · exact kt
          · split
            · exact kt
            · split
              · exact kt.nameFailed
              · split
                · exact kt.trapAll
                · split
                  next t1 x1 t2 found =>
                    have kt2 : Keeps a t2 := .snd found kt.releaseAt.takeFresh
                    exact kt2.modTeam
theorem Keeps.cwChecks {o : FY} {q : Q} {k : Team → Res} (h : Keeps a s) (hk : ∀ y1, OnRes (Keeps a) (k y1)) : OnRes (Keeps a)
    (cwChecks o q s k) := by
  unfold Machine.cwChecks
  split
  · exact h.trapAll
  · extract_lets b
    split
    · exact h
    · split
      · exact h.nameFailed
      · exact hk _
theorem Keeps.acquireChunks {q : Q} {cs : List ℕ} (h : Keeps a s) : Keeps a (s.acquireChunks q cs) := by
  unfold State.acquireChunks
  split
  · exact h
  · exact h.acquireAt.modTeam
theorem Keeps.execCwait {o : FY} (h : Keeps a s) : OnOut (Keeps a) (execCwait o s) := by
  unfold Machine.execCwait
  refine Keeps.runI h fun x t kt => ?_
  refine Keeps.cwChecks kt fun x1 => ?_
  split
  · exact kt
  · exact kt.acquireChunks
theorem Keeps.execCtest {o : FY} (h : Keeps a s) : OnOut (Keeps a) (execCtest o s) := by
  unfold Machine.execCtest
  refine Keeps.runI h fun x t kt => ?_
  refine Keeps.cwChecks kt fun x1 => ?_
  split
  · exact Keeps.Res.grp kt.acquireChunks
  · exact kt.trapAll
theorem Keeps.execCpy {o : FM} (h : Keeps a s) : OnOut (Keeps a) (execCpy o s) := by
  unfold Machine.execCpy
  refine Keeps.runI h fun x t kt => ?_
  extract_lets out n off a1 cs
  split
  · exact kt.trapAll
  · split
    · exact kt
    · split
      · exact kt
      · refine Keeps.settleU kt fun x1 => ?_
        split
        · exact kt
        · split
          · exact kt.nameFailed
          · split
            · exact kt.trapAll
            · split
              next t1 x2 t2 found =>
                have kt2 : Keeps a t2 := .snd found kt.releaseAt.takeFresh
                exact kt2.modTeam

/-! ### Machine/Tasks -/

theorem Keeps.submitRecord {qn : ℕ} {r : List Byte} {submitter : Option ℕ} (h : Keeps a s) : Keeps a (s.submitRecord qn r submitter).2 := by
  unfold State.submitRecord
  split
  · dsimp only
    exact h
  · extract_lets seq b
    split
    · dsimp only
      exact h
    · split
      · dsimp only
        exact h
      · split
        next t x t1 found =>
          have kt1 : Keeps a t1 := .snd found h.takeFresh
          extract_lets h1 y
          have ky : Keeps a y := kt1.modQueue
          dsimp only
          exact ⟨ky.lasting⟩
theorem Keeps.answerQueue {qn code seq : ℕ} (h : Keeps a s) : Keeps a (s.answerQueue qn code seq) := by
  unfold State.answerQueue
  exact h.modQueue
theorem Keeps.addWake {qn n : ℕ} (h : Keeps a s) : Keeps a (s.addWake qn n) := by
  unfold State.addWake
  exact h.modQueue
theorem Keeps.withRecord {q : Q} {a'3 : DWord} {n : ℕ} {k : List Byte → State → Res} (h : Keeps a s) (hk : ∀ y1 t, Keeps a t → OnRes
    (Keeps a) (k y1 t)) : OnRes (Keeps a) (withRecord q s a'3 n k) := by
  unfold Machine.withRecord
  refine Keeps.settleU h fun x => ?_
  extract_lets as
  split
  · exact h.trapAll
  · refine Keeps.withLines h fun t kt => ?_
    exact hk _ _ kt.touch.loadPieces
theorem Keeps.recordAligned {q : Q} {a'2 : DWord} {n : ℕ} {k : Unit → Res} (h : Keeps a s) (hk : ∀ y1, OnRes (Keeps a) (k y1)) : OnRes
    (Keeps a) (recordAligned q a'2 n s k) := by
  unfold Machine.recordAligned
  split
  · exact h
  · exact hk _
theorem Keeps.Q.deviceRelease {q : Q} (h : Keeps a s) : Keeps a (Q.deviceRelease q s) := by
  unfold Machine.Q.deviceRelease
  exact h.releaseAt
theorem Keeps.answerTask {g : Machine.Group} {r : List Byte} (h : Keeps a s) : OnSome (fun p => Keeps a p.2) (s.answerTask g r) := by
  unfold State.answerTask
  split
  · refine .some ?_
    dsimp only
    exact h
  · extract_lets b num nt
    split
    · exact .none
    · refine .some ?_
      dsimp only
      exact h
    · refine .some ?_
      dsimp only
      exact h.modSheet
theorem Keeps.execTask {o : FY} (h : Keeps a s) : OnOut (Keeps a) (execTask o s) := by
  unfold Machine.execTask
  refine Keeps.runI h fun x t kt => ?_
  extract_lets a1
  refine Keeps.recordAligned kt fun x1 => ?_
  refine Keeps.withRecord kt fun x2 t1 kt1 => ?_
  extract_lets s1
  have ks1 : Keeps a s1 := Keeps.Q.deviceRelease kt1
  split
  next t2 x3 t1 found =>
    have kt11 : Keeps a t1 := .gotSnd found ks1.answerTask
    exact kt11.setGrp
  next t2 found =>
    exact ks1
theorem Keeps.execSheet {o : FY} (h : Keeps a s) : OnOut (Keeps a) (execSheet o s) := by
  unfold Machine.execSheet
  refine Keeps.runI h fun x t kt => ?_
  extract_lets a1 qn
  refine Keeps.recordAligned kt fun x1 => ?_
  refine Keeps.withRecord kt fun x2 t1 kt1 => ?_
  split
  · extract_lets s1 seq
    have ks1 : Keeps a s1 := Keeps.Q.deviceRelease kt1
    split
    next t2 x3 t1 found =>
      have kt11 : Keeps a t1 := .snd found ks1.submitRecord
      extract_lets s2 s3
      have ks2 : Keeps a s2 := kt11.answerQueue.modQueue
      have ks3 : Keeps a s3 := by
        unfold s3
        split
        · exact ks2.modSheet
        · exact ks2
      exact ks3.setGrp
  · exact kt.trapAll
theorem Keeps.execQnote {o : FY} (h : Keeps a s) : OnOut (Keeps a) (execQnote o s) := by
  unfold Machine.execQnote
  refine Keeps.runI h fun x t kt => ?_
  extract_lets qn n
  split
  · change Keeps a _
    split
    · exact kt.addWake
    · extract_lets y
      have ky : Keeps a y := kt.modSheet
      exact ⟨ky.lasting⟩
  · exact kt.trapAll

/-! ### Machine/Batch -/

theorem Keeps.runOp {g : Machine.Group} {t : Team} {k : ℕ} {op : MOp} (h : Keeps a s) : Keeps a (s.runOp g t k op) := by
  unfold State.runOp
  extract_lets c e bad made y m upd s1 s2 runs
  have ks1 : Keeps a s1 := h.setGrp
  have ks2 : Keeps a s2 := by
    unfold s2
    split
    · exact ks1.noteCheck
    · exact ks1
  exact ks2.modCore
theorem Keeps.engineRun {gid a'2 : ℕ} (h : Keeps a s) : Keeps a (State.engineRun gid a'2 s) := by
  induction a'2 generalizing s with
  | zero =>
    rw [State.engineRun]
    exact h
  | succ n ih =>
    rw [State.engineRun]
    split
    · exact h
    · split
      · split
        · exact h
        · split
          · extract_lets b'
            exact ih h.setGrp
          · split
            · exact h
            · extract_lets g1
              exact ih h.setGrp.runOp
      · exact h
theorem Keeps.engine {gid : ℕ} (h : Keeps a s) : Keeps a (s.engine gid) := by
  unfold State.engine
  split
  · exact h
  · exact h.engineRun
theorem Keeps.commitBatch {g : Machine.Group} {b : Batch} {rest : List Batch} {fl : Mask} (h : Keeps a s) : Keeps a
    (s.commitBatch g b rest fl) := by
  unfold State.commitBatch
  extract_lets ps y g1 g2 s1 s2 as
  have ks1 : Keeps a s1 := h.putGrp.modCore
  have ks2 : Keeps a s2 := ks1.modTeam
  refine Keeps.useCaches ?_
  refine foldl_keeps ?_ ?_
  · exact ks2
  · intro t x kt
    exact kt.sheetStore
theorem Keeps.retireTo {gid n : Nat} {fl : Mask} {k : Nat} (h : Keeps a s) : OnRetire (Keeps a) (State.retireTo gid n fl k s) := by
  induction k generalizing s with
  | zero => exact h
  | succ k ih =>
    rw [State.retireTo]
    split
    · exact h
    · split
      · split
        · exact h
        · split
          · trivial
          · split
            · exact h
            · exact ih h.commitBatch
      · exact h
theorem Keeps.retire {gid n : ℕ} {fl : Mask} (h : Keeps a s) : OnRetire (Keeps a) (s.retire gid n fl) := by
  unfold State.retire
  exact h.retireTo
theorem Keeps.cancelBatches {gid : ℕ} (h : Keeps a s) : Keeps a (s.cancelBatches gid) := by
  unfold State.cancelBatches
  exact h.modGrp

/-! ### Machine/Paging -/

theorem Keeps.mapPage {asn : Nat} {q : MapReq} (h : Keeps a s) : OnSome (Keeps a) (s.mapPage asn q) := by
  unfold State.mapPage
  extract_lets e
  split
  · exact .none
  · split
    · exact .map fun m found => ⟨h.lasting.mapFrom m found⟩
    · split
      · split
        · exact .none
        · exact .map fun m found => ⟨h.lasting.store.mapFrom m found⟩
      · exact .none
theorem Keeps.mapAll {asn : Nat} {qs : List MapReq} (h : Keeps a s) : OnSome (Keeps a) (s.mapAll asn qs) := by
  induction qs generalizing s with
  | nil => exact .some h
  | cons q qs ih => exact .bind fun t found => ih (h.mapPage t found)
theorem Keeps.armMapped {asn : ℕ} {qs : List MapReq} (h : Keeps a s) : Keeps a (s.armMapped asn qs) := by
  unfold State.armMapped
  extract_lets more
  exact ⟨h.lasting⟩
theorem Keeps.mapServed {asn : Nat} {qs : List MapReq} (h : Keeps a s) : OnSome (Keeps a) (s.mapServed asn qs) :=
  .ite .none (.map fun t found => foldl_keeps (Keeps.armMapped (h.mapAll t found)) fun _ _ ku => ku.refreshRo)
theorem Keeps.unmapPage {asn va : ℕ} (h : Keeps a s) : Keeps a (s.unmapPage asn va) := by
  unfold State.unmapPage
  split
  · exact h
  · split
    · exact ⟨h.lasting.store⟩
    · exact h
theorem Keeps.invalidate {asn : ℕ} {all : Bool} {vpn : ℕ} (h : Keeps a s) : Keeps a (s.invalidate asn all vpn) := by
  unfold State.invalidate
  exact ⟨h.lasting⟩

/-! ### Machine/Admit -/

theorem Keeps.admitGroup {l : Launch} {team idx core : ℕ} (h : Keeps a s) : Keeps a (s.admitGroup l team idx core) := by
  unfold State.admitGroup
  split
  next t x t1 found =>
    have kt1 : Keeps a t1 := .snd found h.takeFresh
    extract_lets g fits g_1 g_2 s1
    have ks1 : Keeps a s1 := by
      unfold s1
      split
      · exact kt1
      · exact kt1.parkRegs
    exact Keeps.modTeam ⟨ks1.lasting⟩
theorem Keeps.admitTeam {l : Launch} {cores : List ℕ} (h : Keeps a s) : OnSome (Keeps a) (s.admitTeam l cores) := by
  unfold State.admitTeam
  split
  · exact .none
  · split
    next t x t1 found =>
      have kt1 : Keeps a t1 := .snd found h.takeFresh
      extract_lets t2 s2 s3
      have ks2 : Keeps a s2 := ⟨kt1.lasting⟩
      have ks3 : Keeps a s3 := by
        unfold s3
        refine foldl_keeps ?_ ?_
        · exact ks2
        · intro t3 x1 kt
          exact kt.admitGroup
      refine .some ?_
      split
      · refine foldl_keeps ?_ ?_
        · exact ks3
        · intro t3 x1 kt
          exact kt.modCore
      · exact ks3
theorem Keeps.capture {sheet : ℕ} {e : CapEntry} (h : Keeps a s) : Keeps a (s.capture sheet e) := by
  unfold State.capture
  split
  · exact h
  · split
    · exact h
    · exact h.modQueue
theorem Keeps.recordPlaces {sheet teamid team : ℕ} (h : Keeps a s) : Keeps a (s.recordPlaces sheet teamid team) := by
  unfold State.recordPlaces
  refine foldl_keeps ?_ ?_
  · exact h
  · intro t x kt
    exact kt.capture
theorem Keeps.launchChild {core : ℕ} {b : Bin} (h : Keeps a s) : Keeps a (s.launchChild core b) := by
  unfold State.launchChild
  split
  · exact h
  · extract_lets s1 want
    have ks1 : Keeps a s1 := h.modSheet
    split
    next t t1 found =>
      have kt1 : Keeps a t1 := by
        refine .got found ?_
        split
        · exact .none
        · exact ks1.admitTeam
      exact kt1.recordPlaces
    next t found =>
      exact h.modSheet
theorem Keeps.launchBin {core : ℕ} {b : Bin} (h : Keeps a s) : Keeps a (s.launchBin core b) := by
  unfold State.launchBin
  exact h.modCore.launchChild
theorem Keeps.deposit {core sheet task : ℕ} {entry : DWord} {hdr : Header} {arg : List Word} (h : Keeps a s) : Keeps a
    (s.deposit core sheet task entry hdr arg) := by
  unfold State.deposit
  extract_lets key s0 s1 s2
  have ks0 : Keeps a s0 := by
    unfold s0
    split
    · exact h
    · split
      · exact h.launchBin
      · exact h
  have ks1 : Keeps a s1 := by
    unfold s1
    split
    · exact h
    · exact ks0.modCore
  have ks2 : Keeps a s2 := ks1.modCore
  split
  · split
    · exact ks2.launchBin
    · exact ks2
  · exact ks2

/-! ### Machine/Ports -/

theorem Keeps.refuse {gid : ℕ} {p : Wait → Bool} (h : Keeps a s) : Keeps a (s.refuse gid p) := by
  unfold State.refuse
  split
  · exact h
  · split
    · exact h.updGroup
    · exact h
theorem Keeps.refusePats {team : ℕ} (h : Keeps a s) : Keeps a (s.refusePats team) := by
  unfold State.refusePats
  split
  · exact h
  · refine foldl_keeps ?_ ?_
    · exact h
    · intro t x kt
      exact kt.refuse
theorem Keeps.takesOn {core : ℕ} {paired : Bool} {ms : List Msg} (h : Keeps a s) : Keeps a (s.takesOn core paired ms) := by
  unfold State.takesOn
  extract_lets sc
  split
  · exact h
  · exact h.acquireAt
theorem Keeps.takes_ {gid : ℕ} {ms : List Msg} (h : Keeps a s) : Keeps a (s.takes_ gid ms) := by
  unfold State.takes_
  split
  · exact h.takesOn
  · exact h
theorem Keeps.fire {t : Team} {p : Pattern} {en : List ℕ} (h : Keeps a s) : Keeps a (s.fire t p en) := by
  unfold State.fire
  extract_lets ms t1 pats s1
  have ks1 : Keeps a s1 := h.modTeam
  split
  · exact ks1.takesOn.deposit
  · exact ks1.takes_.updGroup.refusePats
theorem Keeps.joinUnit {core a'2 : ℕ} (h : Keeps a s) : Keeps a (State.joinUnit core a'2 s) := by
  induction a'2 generalizing s with
  | zero =>
    rw [State.joinUnit]
    exact h
  | succ n ih =>
    rw [State.joinUnit]
    split
    · exact ih h.fire
    · extract_lets m t1 s1
      have ks1 : Keeps a s1 := h.modTeam
      exact ih ks1.takes_.updGroup
    · exact ⟨h.lasting⟩
theorem Keeps.joinCore {core : ℕ} (h : Keeps a s) : Keeps a (s.joinCore core) := by
  unfold State.joinCore
  exact h.joinUnit
theorem Keeps.join {team : ℕ} (h : Keeps a s) : Keeps a (s.join team) := by
  unfold State.join
  split
  · exact h
  · refine foldl_keeps ?_ ?_
    · exact h
    · intro t x kt
      exact kt.joinCore
theorem Keeps.enter {team n : ℕ} {m : Msg} (h : Keeps a s) : Keeps a (s.enter team n m) := by
  unfold State.enter
  exact h.modTeam.join
theorem Keeps.sendEntered {gid lane : ℕ} (h : Keeps a s) : Keeps a (s.sendEntered gid lane) := by
  unfold State.sendEntered
  extract_lets left
  exact h.updGroup
theorem Keeps.closePort {team n : ℕ} (h : Keeps a s) : Keeps a (s.closePort team n) := by
  unfold State.closePort
  split
  · exact h
  · split
    · exact h
    · extract_lets t1 s1 s2
      have ks1 : Keeps a s1 := h.modTeam
      have ks2 : Keeps a s2 := by
        unfold s2
        refine foldl_keeps ?_ ?_
        · exact ks1
        · intro t x kt
          exact kt.sendEntered
      refine Keeps.refusePats ?_
      refine foldl_keeps ?_ ?_
      · exact ks2
      · intro t x kt
        exact kt.refuse
theorem Keeps.closeTeamPorts {team : ℕ} (h : Keeps a s) : Keeps a (s.closeTeamPorts team) := by
  unfold State.closeTeamPorts
  split
  · exact h
  · refine Keeps.modTeam ?_
    refine foldl_keeps ?_ ?_
    · exact h
    · intro t x kt
      exact kt.closePort
theorem Keeps.post {team port kind : ℕ} {data : DWord} {aux info : ℕ} (h : Keeps a s) : Keeps a (s.post team port kind data aux info) := by
  unfold State.post
  exact ⟨h.lasting⟩
theorem Keeps.deliver {gid from_ : ℕ} {e : ℕ × ℕ × Msg} (h : Keeps a s) : Keeps a (deliver gid from_ s e) := by
  unfold Machine.deliver
  split
  · split
    · exact h
    · split
      · exact h.modTeam
      · split
        · exact h.modTeam
        · exact h.enter
theorem Keeps.sendOp {x : Bool} {o : F5} {q : Q} (h : Keeps a s) : OnRes (Keeps a) (sendOp x o q s) := by
  unfold Machine.sendOp
  extract_lets ls ds dests cond y s0
  have ky : Keeps a y := h.releaseAt
  have ks0 : Keeps a s0 := ⟨ky.lasting⟩
  refine Keeps.settleConds h fun x1 => ?_
  split
  · extract_lets s1 left
    have ks1 : Keeps a s1 := by
      unfold s1
      refine foldl_keeps ?_ ?_
      · exact ks0
      · intro t x2 kt
        exact kt.deliver
    split
    · exact ks1
    · exact ks1
theorem Keeps.execSend {o : F5} (h : Keeps a s) : OnOut (Keeps a) (execSend o s) := by
  unfold Machine.execSend
  refine Keeps.runI h fun x t kt => ?_
  exact kt.sendOp
theorem Keeps.execSendx {o : F5} (h : Keeps a s) : OnOut (Keeps a) (execSendx o s) := by
  unfold Machine.execSendx
  refine Keeps.runI h fun x t kt => ?_
  exact kt.sendOp
theorem Keeps.execRecv {o : F5} (h : Keeps a s) : OnOut (Keeps a) (execRecv o s) := by
  unfold Machine.execRecv
  refine Keeps.runI h fun x t kt => ?_
  split
  · split
    · split
      · extract_lets w s1
        have ks1 : Keeps a s1 := kt.modGrp.join
        split
        · split
          · exact ks1
          · exact ks1
        · exact ks1
      · exact kt.trapAll
    · extract_lets n w s0 s1
      have ks0 : Keeps a s0 := Keeps.modTeam ⟨kt.lasting⟩
      have ks1 : Keeps a s1 := ks0.modGrp.join
      split
      · split
        · split
          · exact ks1
          · exact ks1
        · exact ks1
      · exact kt.trapAll
  · exact kt.trapAll
theorem Keeps.execRpeek {o : F5} (h : Keeps a s) : OnOut (Keeps a) (execRpeek o s) := by
  unfold Machine.execRpeek
  refine Keeps.runI h fun x t kt => ?_
  split
  · extract_lets n
    split
    · split
      · extract_lets g1
        exact Keeps.Res.grp kt
    · exact kt.trapAll
  · exact kt.trapAll
theorem Keeps.execPstat {o : F5} (h : Keeps a s) : OnOut (Keeps a) (execPstat o s) := by
  unfold Machine.execPstat
  refine Keeps.runI h fun x t kt => ?_
  extract_lets n pat
  split
  · split
    · split
      · exact Keeps.Res.grp kt
      · exact kt.trapAll
    · split
      · exact Keeps.Res.grp kt
      · exact kt.trapAll
  · exact kt.trapAll
theorem Keeps.arm {q : Q} {port : Bool} {r : List Byte} {hdr : Option Header} (h : Keeps a s) : Keeps a (arm s q port r hdr) := by
  unfold Machine.arm
  split
  · exact h.modTeam
  · extract_lets fl
    exact h.modTeam.join
theorem Keeps.execPatarm {o : FY} (h : Keeps a s) : OnOut (Keeps a) (execPatarm o s) := by
  unfold Machine.execPatarm
  refine Keeps.runI h fun x t kt => ?_
  extract_lets a1 ss
  refine Keeps.settleU kt fun x1 => ?_
  split
  · exact kt.trapAll
  · refine Keeps.withLines kt fun t1 kt1 => ?_
    split
    · extract_lets r s0
      have ks0 : Keeps a s0 := kt1.touch.loadPieces
      split
      · exact kt
      · exact kt
      · extract_lets s1
        have ks1 : Keeps a s1 := ks0.modGrp
        change Keeps a _
        split
        · exact ks1.arm
        · exact ks1
    · exact kt.trapAll
theorem Keeps.execPatdis {o : FY} (h : Keeps a s) : OnOut (Keeps a) (execPatdis o s) := by
  unfold Machine.execPatdis
  refine Keeps.runI h fun x t kt => ?_
  extract_lets n
  split
  · exact kt.closePort
  · exact kt.modTeam.refusePats

/-! ### Machine/Control -/

theorem Keeps.spillStacks {g : Machine.Group} {go : Mask} (h : Keeps a s) : Keeps a (s.spillStacks g go) := by
  unfold State.spillStacks
  refine foldl_keeps ?_ ?_
  · exact h
  · intro t x kt
    extract_lets k
    exact Keeps.mend ⟨kt.lasting.store⟩
theorem Keeps.xferOp {k : XferKind} {push join : Bool} {o : FB} {q : Q} (h : Keeps a s) : OnRes (Keeps a)
    (Machine.xferOp k push join o q s) := by
  unfold Machine.xferOp
  extract_lets go
  split
  · next found => exact h.checkDests found
  · split
    · exact h.trapAll
    · refine Keeps.setGrp ?_
      split
      · exact h.spillStacks
      · exact h
theorem Keeps.execBra {o : FB} (h : Keeps a s) : OnOut (Keeps a) (execBra o s) := by
  unfold Machine.execBra
  refine Keeps.runI h fun x t kt => ?_
  exact kt.xferOp
theorem Keeps.execBri {o : FB} (h : Keeps a s) : OnOut (Keeps a) (execBri o s) := by
  unfold Machine.execBri
  refine Keeps.runI h fun x t kt => ?_
  exact kt.xferOp
theorem Keeps.execCall {o : FB} (h : Keeps a s) : OnOut (Keeps a) (execCall o s) := by
  unfold Machine.execCall
  refine Keeps.runI h fun x t kt => ?_
  exact kt.xferOp
theorem Keeps.execCalli {o : FB} (h : Keeps a s) : OnOut (Keeps a) (execCalli o s) := by
  unfold Machine.execCalli
  refine Keeps.runI h fun x t kt => ?_
  exact kt.xferOp
theorem Keeps.execRet {o : FB} (h : Keeps a s) : OnOut (Keeps a) (execRet o s) := by
  unfold Machine.execRet
  refine Keeps.runI h fun x t kt => ?_
  exact kt.xferOp
theorem Keeps.execRcv {o : FB} (h : Keeps a s) : OnOut (Keeps a) (execRcv o s) := by
  unfold Machine.execRcv
  refine Keeps.runI h fun x t kt => ?_
  exact kt.xferOp
theorem Keeps.exitLanes {q : Q} (h : Keeps a s) : Keeps a (exitLanes q s) := by
  unfold Machine.exitLanes
  extract_lets s1 s2 s3
  have ks1 : Keeps a s1 := h.modGrp
  have ks2 : Keeps a s2 := ks1.modTeam
  have ks3 : Keeps a s3 := ks2.closeTeamPorts.modTeam
  split
  · split
    · split
      · split
        · exact ks3.modSheet
        · exact ks3
      · exact ks3
    · exact ks2
  · exact ks1
theorem Keeps.execExit {o : FY} (h : Keeps a s) : OnOut (Keeps a) (execExit o s) := by
  unfold Machine.execExit
  refine Keeps.runI h fun x t kt => ?_
  split
  · exact kt.exitLanes
  · split
    · exact kt.trapAll
    · split
      · exact kt.cancelBatches
      next x1 t1 found =>
        have kt1 : Keeps a t1 := .retireWait found kt.retire
        exact kt1
      next x1 t1 found =>
        have kt1 : Keeps a t1 := .retireDone found kt.retire
        extract_lets cs
        split
        · exact kt1.nameFailed
        · exact kt1.exitLanes
theorem Keeps.execWaypt {o : FY} (h : Keeps a s) : OnOut (Keeps a) (execWaypt o s) := by
  unfold Machine.execWaypt
  refine Keeps.runI h fun x t kt => ?_
  exact Keeps.Res.grp kt
theorem Keeps.execTbar {o : FY} (h : Keeps a s) : OnOut (Keeps a) (execTbar o s) := by
  unfold Machine.execTbar
  refine Keeps.runI h fun x t kt => ?_
  exact kt.releaseAt
theorem Keeps.execYield {o : FY} (h : Keeps a s) : OnOut (Keeps a) (execYield o s) := by
  unfold Machine.execYield
  refine Keeps.runI h fun x t kt => ?_
  exact Keeps.Res.grp kt
theorem Keeps.execNap {o : FRI} (h : Keeps a s) : OnOut (Keeps a) (execNap o s) := by
  unfold Machine.execNap
  refine Keeps.runI h fun x t kt => ?_
  split
  · exact Keeps.Res.grp kt
  · exact kt
theorem Keeps.execElect {o : F5} (h : Keeps a s) : OnOut (Keeps a) (execElect o s) := by
  unfold Machine.execElect
  refine Keeps.runI h fun x t kt => ?_
  extract_lets e
  split
  · exact Keeps.Res.grp kt
  · exact Keeps.Res.grp kt
theorem Keeps.execSpawn {o : FB} (h : Keeps a s) : OnOut (Keeps a) (Machine.execSpawn o s) := by
  unfold Machine.execSpawn
  refine h.runI fun q t kt => ?_
  extract_lets entry
  split
  · next found => exact kt.checkDests found
  · split
    · exact kt.trapAll
    · exact kt
    · exact kt
    · extract_lets
      split
      · exact kt
      · exact foldl_keeps kt fun _ _ ku => ku.deposit
theorem Keeps.execBinfl {o : FY} (h : Keeps a s) : OnOut (Keeps a) (execBinfl o s) := by
  unfold Machine.execBinfl
  refine Keeps.runI h fun x t kt => ?_
  extract_lets mine
  change Keeps a _
  refine foldl_keeps ?_ ?_
  · exact kt
  · intro t1 x1 kt1
    exact kt1.launchBin

/-! ### Machine/Sched -/

theorem Keeps.execPickerPassedOverLimit {core gid : ℕ} (h : Keeps a s) : OnOut (Keeps a) (execPickerPassedOverLimit core gid s) := by
  unfold Machine.execPickerPassedOverLimit
  split
  · exact h
  · split
    · exact h
    · split
      · exact ⟨h.lasting⟩
      · exact h
theorem Keeps.execBinTimerExpiry {core bin : ℕ} (h : Keeps a s) : OnOut (Keeps a) (execBinTimerExpiry core bin s) := by
  unfold Machine.execBinTimerExpiry
  split
  · exact h
  · change Keeps a _
    split
    · exact h.launchBin
    · exact h
theorem Keeps.execNapExpiry {gid : ℕ} (h : Keeps a s) : OnOut (Keeps a) (execNapExpiry gid s) := by
  unfold Machine.execNapExpiry
  split
  · exact h
  · change Keeps a _
    split
    · exact h.updGroup
    · exact h
theorem Keeps.execBarrierRelease {team k : ℕ} (h : Keeps a s) : OnOut (Keeps a) (execBarrierRelease team k s) := by
  unfold Machine.execBarrierRelease
  split
  · change Keeps a _
    refine foldl_keeps ?_ ?_
    · exact h
    · intro t x kt
      exact kt.acquireAt.updGroup
  · exact h
theorem Keeps.park {g : Machine.Group} (h : Keeps a s) : Keeps a (s.park g) := by
  unfold State.park
  extract_lets c y
  exact h.parkRegs.setGrp.modCore
theorem Keeps.makeRoom {g : Machine.Group} {a'2 : ℕ} (h : Keeps a s) : Keeps a (State.makeRoom g a'2 s) := by
  induction a'2 generalizing s with
  | zero =>
    rw [State.makeRoom]
    exact h
  | succ n ih =>
    rw [State.makeRoom]
    split
    · exact h
    · split
      · exact ih h.park
      · exact h
theorem Keeps.unparkable {core : ℕ} (h : Keeps a s) : OnSome (fun p => Keeps a p.2) (s.unparkable core) := by
  unfold State.unparkable
  split
  · exact .none
  · extract_lets t
    have kt : Keeps a t := h.makeRoom
    split
    · refine .some ?_
      dsimp only
      exact kt
    · exact .none
theorem Keeps.execGroupUnpark {core : ℕ} (h : Keeps a s) : OnOut (Keeps a) (execGroupUnpark core s) := by
  unfold Machine.execGroupUnpark
  split
  next t found =>
    exact h
  next t x t1 found =>
    have kt1 : Keeps a t1 := .gotSnd found h.unparkable
    exact kt1.setGrp
theorem Keeps.execParkStarvationTimeout {core : ℕ} (h : Keeps a s) : OnOut (Keeps a) (execParkStarvationTimeout core s) := by
  unfold Machine.execParkStarvationTimeout
  split
  · split
    · exact h.park
    · exact h
  · exact h
theorem Keeps.noteSeq (h : Keeps a s) : Keeps a (s.noteSeq) := by
  unfold State.noteSeq
  split
  · refine foldl_keeps ?_ ?_
    · exact h
    · intro t x kt
      split
      · exact kt
      · split
        · exact kt.setGrp
        · extract_lets y
          have ky : Keeps a y := kt.setGrp
          exact ⟨ky.lasting⟩
  · exact h
theorem Keeps.execGroupContextFree {gid : ℕ} (h : Keeps a s) : OnOut (Keeps a) (execGroupContextFree gid s) := by
  unfold Machine.execGroupContextFree
  split
  · exact h
  · split
    · extract_lets s1 s2
      have ks1 : Keeps a s1 := h.modCore
      have ks2 : Keeps a s2 := ⟨ks1.lasting⟩
      split
      · exact ks2.modCore
      · exact ks2.imageOut
    · exact h
theorem Keeps.execTeamScratchReturn {team : ℕ} (h : Keeps a s) : OnOut (Keeps a) (execTeamScratchReturn team s) := by
  unfold Machine.execTeamScratchReturn
  split
  · exact h
  · split
    · exact h.modTeam
    · exact h
theorem Keeps.execSpawnLimitResume {sheet : ℕ} (h : Keeps a s) : OnOut (Keeps a) (execSpawnLimitResume sheet s) := by
  unfold Machine.execSpawnLimitResume
  split
  · exact h
  · split
    · extract_lets s1 s2
      have ks1 : Keeps a s1 := h.modSheet
      have ks2 : Keeps a s2 := by
        unfold s2
        refine foldl_keeps ?_ ?_
        · exact ks1
        · intro t x kt
          exact kt.updGroup
      change Keeps a _
      refine foldl_keeps ?_ ?_
      · exact ks2
      · intro t x kt
        exact kt.join
    · exact h

/-! ### Machine/Traverse -/

theorem Keeps.notifyRound {t : Team} {r : Round} (h : Keeps a s) : Keeps a (s.notifyRound t r) := by
  unfold State.notifyRound
  split
  · exact h
  · extract_lets fail info
    refine foldl_keeps ?_ ?_
    · exact h
    · intro t1 x kt
      split
      · exact kt.post
      · exact kt
theorem Keeps.completeRounds {team a'2 : ℕ} (h : Keeps a s) : Keeps a (State.completeRounds team a'2 s) := by
  induction a'2 generalizing s with
  | zero =>
    rw [State.completeRounds]
    exact h
  | succ n ih =>
    rw [State.completeRounds]
    split
    · exact h
    · split
      · exact h
      · extract_lets up s1
        have ks1 : Keeps a s1 := h.modTeam
        exact ih ks1.notifyRound
theorem Keeps.finishRounds {team : ℕ} (h : Keeps a s) : Keeps a (s.finishRounds team) := by
  unfold State.finishRounds
  split
  · exact h
  · exact h.completeRounds
theorem Keeps.jobCheck {t : Team} (h : Keeps a s) : Keeps a (s.jobCheck t) := by
  unfold State.jobCheck
  exact h.modSheet
theorem Keeps.engineMoves {t : Team} {ss : List (ℕ × ℕ)} (h : Keeps a s) : Keeps a (s.engineMoves t ss) := by
  unfold State.engineMoves
  refine Keeps.chargeEngine ?_
  refine foldl_keeps ?_ ?_
  · exact h
  · intro t1 x kt
    exact kt.filterRange
theorem Keeps.readChunks {team : ℕ} (h : Keeps a s) : Keeps a (s.readChunks team) := by
  unfold State.readChunks
  split
  · exact h
  · exact h.modGrps
theorem Keeps.execChunkLand {team rid chunk : ℕ} (h : Keeps a s) : OnOut (Keeps a) (execChunkLand team rid chunk s) := by
  unfold Machine.execChunkLand
  split
  · exact h
  · split
    · exact h
    · extract_lets ps s0 s1 base
      have ks0 : Keeps a s0 := h.engineMoves
      have ks1 : Keeps a s1 := ks0.modTeam
      split
      · split
        · exact h
        · split
          · exact h.jobCheck
          · exact ks1.readChunks.finishRounds
      · extract_lets s11
        have ks11 : Keeps a s11 := h.modTeam
        exact ks11.readChunks.finishRounds
theorem Keeps.execWritebackChunkDrain {team rid chunk : ℕ} (h : Keeps a s) : OnOut (Keeps a)
    (execWritebackChunkDrain team rid chunk s) := by
  unfold Machine.execWritebackChunkDrain
  split
  · exact h
  · split
    · exact h
    · extract_lets ps s1 s2
      have ks1 : Keeps a s1 := by
        unfold s1
        refine foldl_keeps ?_ ?_
        · exact h.engineMoves
        · intro t x kt
          refine foldl_keeps ?_ ?_
          · exact kt
          · intro t1 x1 kt1
            exact kt1.sheetStore
      have ks2 : Keeps a s2 := ks1.modTeam
      split
      · exact h
      · split
        · exact h.jobCheck
        · exact ks2.readChunks.finishRounds
theorem Keeps.execMulticastRoundStart {team rid : ℕ} (h : Keeps a s) : OnOut (Keeps a) (execMulticastRoundStart team rid s) := by
  unfold Machine.execMulticastRoundStart
  split
  · exact h
  · split
    · exact h
    · split
      · exact h
      · extract_lets ms ps bs s1
        have ks1 : Keeps a s1 := h.engineMoves
        split
        · exact h
        · split
          · exact h.jobCheck
          · change Keeps a _
            refine foldl_keeps ?_ ?_
            · exact ks1
            · intro t x kt
              exact kt.modTeam
theorem Keeps.execEnginePageFault {team rid job : ℕ} {maps : List MapReq} (h : Keeps a s) : OnOut (Keeps a)
    (execEnginePageFault team rid job maps s) := by
  unfold Machine.execEnginePageFault
  split
  · exact h
  · split
    · extract_lets sealing
      change Keeps a _
      split
      · refine OnSome.getD ?_ ?_
        · exact h.mapServed
        · exact h
      · exact h
    · split
      · exact h
      · split
        next t found =>
          exact h
        next t t1 found =>
          have kt1 : Keeps a t1 := .got found h.mapServed
          split
          · exact kt1
          · exact kt1
          · extract_lets ms
            split
            · exact kt1
            · change Keeps a _
              refine foldl_keeps ?_ ?_
              · exact kt1
              · intro t2 x kt
                exact kt.modTeam.finishRounds
theorem Keeps.againIf {gid : ℕ} {p : Team → Wait → Bool} (h : Keeps a s) : Keeps a (s.againIf gid p) := by
  unfold State.againIf
  split
  · exact h
  · split
    · exact h
    · split
      · exact h.updGroup
      · exact h
theorem Keeps.execChunkWaitResume {gid : ℕ} (h : Keeps a s) : OnOut (Keeps a) (execChunkWaitResume gid s) := by
  unfold Machine.execChunkWaitResume
  exact h.againIf
theorem Keeps.execStageRoundLimitResume {gid : ℕ} (h : Keeps a s) : OnOut (Keeps a) (execStageRoundLimitResume gid s) := by
  unfold Machine.execStageRoundLimitResume
  exact h.againIf
theorem Keeps.mwaitAgain {gid : ℕ} (h : Keeps a s) : Keeps a (s.mwaitAgain gid) := by
  unfold State.mwaitAgain
  split
  · exact h
  · split
    · exact h.updGroup
    · split
      · exact h
      · refine foldl_keeps ?_ ?_
        · exact h
        · intro t x kt
          split
          next x1 t1 found =>
            have kt1 : Keeps a t1 := .retireWait found kt.retire
            exact kt1
          next x1 c =>
            exact kt
theorem Keeps.execBatchComplete {gid : ℕ} (h : Keeps a s) : OnOut (Keeps a) (execBatchComplete gid s) := by
  unfold Machine.execBatchComplete
  exact h.mwaitAgain
theorem Keeps.execEngineChunkReady {gid : ℕ} (h : Keeps a s) : OnOut (Keeps a) (execEngineChunkReady gid s) := by
  unfold Machine.execEngineChunkReady
  split
  · exact h
  · split
    · exact h
    · exact h.engine.mwaitAgain.imageOut
theorem Keeps.execHoldershipGrant {core : ℕ} (h : Keeps a s) : OnOut (Keeps a) (execHoldershipGrant core s) := by
  unfold Machine.execHoldershipGrant
  split
  · exact h
  · exact h.updGroup

/-! ### Machine/MemSteps -/

theorem Keeps.execRequestEntryGrant {core : ℕ} (h : Keeps a s) : OnOut (Keeps a) (execRequestEntryGrant core s) := by
  unfold Machine.execRequestEntryGrant
  split
  · exact h
  · exact h.updGroup
theorem Keeps.execMemoryResponseReturn {core n : ℕ} (h : Keeps a s) : OnOut (Keeps a) (execMemoryResponseReturn core n s) := by
  unfold Machine.execMemoryResponseReturn
  extract_lets t
  have kt : Keeps a t := h.modCore
  exact ⟨kt.lasting⟩
theorem Keeps.execMarkedLineEvict {line : ℕ} (h : Keeps a s) : OnOut (Keeps a) (execMarkedLineEvict line s) := by
  unfold Machine.execMarkedLineEvict
  exact h.lineLeaves.modDie
theorem Keeps.execCxlBackInvalidate {line : ℕ} (h : Keeps a s) : OnOut (Keeps a) (execCxlBackInvalidate line s) := by
  unfold Machine.execCxlBackInvalidate
  split
  · exact h.lineLeaves.modDie
  · exact h
theorem Keeps.execWalkGrant {die : ℕ} (h : Keeps a s) : OnOut (Keeps a) (execWalkGrant die s) := by
  unfold Machine.execWalkGrant
  split
  · exact h.modDie
  · exact h
theorem Keeps.execWalkComplete {die n : ℕ} (h : Keeps a s) : OnOut (Keeps a) (execWalkComplete die n s) := by
  unfold Machine.execWalkComplete
  split
  · exact h
  · split
    · exact h
    · extract_lets s1
      have ks1 : Keeps a s1 := h.modDie
      exact ks1.updGroup
theorem Keeps.execXgenTicket {agent : ℕ} (h : Keeps a s) : OnOut (Keeps a) (execXgenTicket agent s) := by
  unfold Machine.execXgenTicket
  change Keeps a _
  split
  · exact h
  · exact ⟨h.lasting⟩
theorem Keeps.execXgenInval {agent : ℕ} {w : DWord} (h : Keeps a s) : OnOut (Keeps a) (execXgenInval agent w s) := by
  unfold Machine.execXgenInval
  change Keeps a _
  split
  · exact h
  · exact ⟨h.lasting⟩
theorem Keeps.ticketDone {g : ℕ} (h : Keeps a s) : Keeps a (s.ticketDone g) := by
  unfold State.ticketDone
  split
  · exact h
  · exact ⟨h.lasting⟩
theorem Keeps.execXgenDone {agent : ℕ} {g : DWord} (h : Keeps a s) : OnOut (Keeps a) (execXgenDone agent g s) := by
  unfold Machine.execXgenDone
  change Keeps a _
  split
  · exact h.ticketDone
  · exact h
theorem Keeps.execGenerationAdvance {die : ℕ} (h : Keeps a s) : OnOut (Keeps a) (execGenerationAdvance die s) := by
  unfold Machine.execGenerationAdvance
  extract_lets g mine gone drop s1 s2 low
  have ks1 : Keeps a s1 := ⟨h.lasting⟩
  have ks2 : Keeps a s2 := ks1.modDie
  split
  · exact ⟨ks2.lasting⟩
  · exact h
theorem Keeps.reframe {g : Machine.Group} {f : Machine.Group → Machine.Group} (h : Keeps a s) : Keeps a (s.reframe g f) := by
  unfold State.reframe
  exact h.putFrame
theorem Keeps.faultServed {gid : ℕ} (h : Keeps a s) : Keeps a (s.faultServed gid) := by
  unfold State.faultServed
  split
  · exact h
  · split
    · exact h
    · split
      · extract_lets bad m a1 s1
        have ks1 : Keeps a s1 := h.reframe
        exact ks1.callqPush
      · extract_lets ok s1
        have ks1 : Keeps a s1 := h.reframe
        split
        · exact ks1
        · split
          · refine OnSome.getD ?_ ?_
            · exact ks1.restoreGroup
            · exact ks1
          · exact ks1
theorem Keeps.execPageFaultReply {gid shard gen : ℕ} {maps : List MapReq} (h : Keeps a s) : OnOut (Keeps a)
    (execPageFaultReply gid shard gen maps s) := by
  unfold Machine.execPageFaultReply
  split
  · exact h
  · split
    · extract_lets mine
      change Keeps a _
      split
      · exact h
      · split
        next t found =>
          exact h
        next t t1 found =>
          have kt1 : Keeps a t1 := .got found h.mapServed
          exact kt1.modGrp
    · split
      · exact h
      · split
        next t found =>
          exact h
        next t t1 found =>
          have kt1 : Keeps a t1 := .got found h.mapServed
          extract_lets lost fin
          exact kt1.modGrp.faultServed
theorem Keeps.windowStep {w : Window} {old new code : ℕ} (h : Keeps a s) : Keeps a (s.windowStep w old new code) := by
  unfold State.windowStep
  split
  · exact h
  · split
    · exact h
    · refine foldl_keeps ?_ ?_
      · exact h
      · intro t x kt
        exact kt.post
theorem Keeps.setWindow {sheet : ℕ} {w : Window} (h : Keeps a s) : Keeps a (s.setWindow sheet w) := by
  unfold State.setWindow
  exact h.modSheet
theorem Keeps.arrivePut {n : ℕ} {p : Put} (h : Keeps a s) : Keeps a (s.arrivePut n p) := by
  unfold State.arrivePut
  extract_lets lost
  have klost : Keeps a lost := Keeps.modSheet ⟨h.lasting⟩
  split
  · exact klost
  · extract_lets a1 w1
    split
    · exact klost
    · split
      · exact h
      · split
        · exact h.modSheet
        · extract_lets s1 s2 s3
          have ks1 : Keeps a s1 := by
            unfold s1
            refine foldl_keeps ?_ ?_
            · exact h
            · intro t x kt
              exact kt.sheetStore
          have ks2 : Keeps a s2 := ks1.setWindow.modSheet
          have ks3 : Keeps a s3 := ks2.windowStep
          split
          · exact ⟨ks3.lasting⟩
          · exact Keeps.modFab ⟨ks3.lasting⟩
theorem Keeps.execPutArrival {n : ℕ} (h : Keeps a s) : OnOut (Keeps a) (execPutArrival n s) := by
  unfold Machine.execPutArrival
  split
  · exact h
  · split
    · exact h
    · split
      · exact h.arrivePut
      · exact ⟨h.lasting⟩
theorem Keeps.execPutAckReceipt {n : ℕ} (h : Keeps a s) : OnOut (Keeps a) (execPutAckReceipt n s) := by
  unfold Machine.execPutAckReceipt
  split
  · exact h
  · split
    · exact h
    · extract_lets s1
      have ks1 : Keeps a s1 := ⟨h.lasting⟩
      split
      · exact ks1
      · extract_lets w1
        exact ks1.setWindow.windowStep
theorem Keeps.execWinwaitSatisfied {gid : ℕ} (h : Keeps a s) : OnOut (Keeps a) (execWinwaitSatisfied gid s) := by
  unfold Machine.execWinwaitSatisfied
  split
  · exact h
  · split
    · exact h
    · split
      · exact h.fenceOf.updGroup
      · exact h

/-! ### Machine/Fabric -/

theorem Keeps.putFlit {port : ℕ} {bs : List Byte} (h : Keeps a s) : Keeps a (s.putFlit port bs) := by
  unfold State.putFlit
  extract_lets tag key pay f rest y
  have ky : Keeps a y := h.modFab
  split
  · split
    · extract_lets p
      exact ⟨ky.lasting⟩
    · exact h.modFab
theorem Keeps.ackFlit {bs : List Byte} (h : Keeps a s) : Keeps a (s.ackFlit bs) := by
  unfold State.ackFlit
  extract_lets key mark
  exact ⟨h.lasting⟩
theorem Keeps.linkDown {port : ℕ} (h : Keeps a s) : Keeps a (s.linkDown port) := by
  unfold State.linkDown
  extract_lets held s1 s2
  have ks1 : Keeps a s1 := h.modFab
  have ks2 : Keeps a s2 := ⟨ks1.lasting⟩
  refine foldl_keeps ?_ ?_
  · exact ks2
  · intro t x kt
    exact kt.modSheet
theorem Keeps.retryLink {port : ℕ} (h : Keeps a s) : Keeps a (s.retryLink port) := by
  unfold State.retryLink
  split
  · exact h.linkDown
  · exact h.modFab
theorem Keeps.execFlitReceive {port : ℕ} {flit : List Byte} (h : Keeps a s) : OnOut (Keeps a) (execFlitReceive port flit s) := by
  unfold Machine.execFlitReceive
  extract_lets f type s1 s2
  have ks1 : Keeps a s1 := h.modFab
  have ks2 : Keeps a s2 := ks1.modFab
  split
  · exact h
  · split
    · exact h.modFab
    · split
      · exact ks1
      · change Keeps a _
        clear_value type
        split
        · exact ks2.putFlit
        · exact ks2.ackFlit
        · exact ks2.retryLink
        · exact ks2
theorem Keeps.execFlitRetryRequest {port ackseq : ℕ} (h : Keeps a s) : OnOut (Keeps a) (execFlitRetryRequest port ackseq s) := by
  unfold Machine.execFlitRetryRequest
  change Keeps a _
  split
  · exact h
  · exact h.modFab.retryLink
theorem Keeps.execFabricLaneSpare {port : ℕ} (h : Keeps a s) : OnOut (Keeps a) (execFabricLaneSpare port s) := by
  unfold Machine.execFabricLaneSpare
  exact h.modFab
theorem Keeps.execFabricLinkDown {port : ℕ} (h : Keeps a s) : OnOut (Keeps a) (execFabricLinkDown port s) := by
  unfold Machine.execFabricLinkDown
  extract_lets f
  change Keeps a _
  split
  · exact h
  · exact h.linkDown

/-! ### Machine/Matrix -/

theorem Keeps.chunkCond {q : Q} {op : MOp} {k : Unit → Res} (h : Keeps a s) (hk : ∀ y1, OnRes (Keeps a) (k y1)) : OnRes (Keeps a)
    (chunkCond q s op k) := by
  unfold Machine.chunkCond
  extract_lets cs
  split
  · exact h.nameFailed
  · exact hk _
theorem Keeps.enqueue {q : Q} {op : MOp} {g : Machine.Group} (h : Keeps a s) : OnRes (Keeps a) (enqueue q op g s) := by
  unfold Machine.enqueue
  extract_lets g1 s1
  have ks1 : Keeps a s1 := h.setGrp.engine
  change Keeps a _
  split
  · exact ks1.modGrp
  · exact ks1
theorem Keeps.batchOp {i : Instr} {tagged : Q → State → Bool} {regs : List ℕ} {q : Q} (h : Keeps a s) : OnRes (Keeps a)
    (batchOp i tagged regs q s) := by
  unfold Machine.batchOp
  split
  · exact h.trapAll
  · exact h.enqueue
theorem Keeps.tileLines {q : Q} {acc : Machine.Acc} {op : MOp} {k : MOp → State → Res} (h : Keeps a s) (hk : ∀ y1 t, Keeps a t → OnRes
    (Keeps a) (k y1 t)) : OnRes (Keeps a) (tileLines q acc op s k) := by
  unfold Machine.tileLines
  extract_lets as
  refine Keeps.withLines h fun t kt => ?_
  split
  · exact hk _ _ kt.loadPieces
  · exact hk _ _ kt
theorem Keeps.tileOp {i : Instr} {o : FM} {acc : Machine.Acc} {q : Q} (h : Keeps a s) : OnRes (Keeps a) (tileOp i o acc q s) := by
  unfold Machine.tileOp
  extract_lets base rs off op0 op size
  split
  · exact h.trapAll
  · split
    · exact h
    · refine Keeps.settleU h fun x => ?_
      split
      · exact h
      · refine Keeps.chunkCond h fun x1 => ?_
        refine Keeps.tileLines h fun x2 t kt => ?_
        extract_lets t1
        have kt1 : Keeps a t1 := by
          unfold t1
          refine foldl_keeps ?_ ?_
          · exact kt
          · intro t2 x3 kt1
            exact kt1.touchRange
        exact kt1.enqueue
theorem Keeps.execTld {o : FM} (h : Keeps a s) : OnOut (Keeps a) (execTld o s) := by
  unfold Machine.execTld
  refine Keeps.runI h fun x t kt => ?_
  exact kt.tileOp
theorem Keeps.execTst {o : FM} (h : Keeps a s) : OnOut (Keeps a) (execTst o s) := by
  unfold Machine.execTst
  refine Keeps.runI h fun x t kt => ?_
  exact kt.tileOp
theorem Keeps.execCbload {o : FM} (h : Keeps a s) : OnOut (Keeps a) (execCbload o s) := by
  unfold Machine.execCbload
  refine Keeps.runI h fun x t kt => ?_
  extract_lets a1 op
  split
  · exact kt.trapAll
  · split
    · exact kt
    · refine Keeps.settleU kt fun x1 => ?_
      refine Keeps.tileLines kt fun x2 t1 kt1 => ?_
      extract_lets t2
      have kt2 : Keeps a t2 := kt1.touchRange
      exact kt2.enqueue
theorem Keeps.execTzero {o : FX} (h : Keeps a s) : OnOut (Keeps a) (execTzero o s) := by
  unfold Machine.execTzero
  refine Keeps.runI h fun x t kt => ?_
  exact kt.batchOp
theorem Keeps.execCzero {o : FX} (h : Keeps a s) : OnOut (Keeps a) (execCzero o s) := by
  unfold Machine.execCzero
  refine Keeps.runI h fun x t kt => ?_
  exact kt.batchOp
theorem Keeps.execMma {o : FX} (h : Keeps a s) : OnOut (Keeps a) (execMma o s) := by
  unfold Machine.execMma
  refine Keeps.runI h fun x t kt => ?_
  exact kt.batchOp
theorem Keeps.mmakOp {i : Instr} {o : FX} {blocks : ℕ} {a'4 : Q} (h : Keeps a s) : OnRes (Keeps a) (mmakOp i o blocks a'4 s) := by
  unfold Machine.mmakOp
  exact h.batchOp
theorem Keeps.execMmake4m3 {o : FX} (h : Keeps a s) : OnOut (Keeps a) (execMmake4m3 o s) := by
  unfold Machine.execMmake4m3
  refine Keeps.runI h fun x t kt => ?_
  exact kt.mmakOp
theorem Keeps.execMmake5m2 {o : FX} (h : Keeps a s) : OnOut (Keeps a) (execMmake5m2 o s) := by
  unfold Machine.execMmake5m2
  refine Keeps.runI h fun x t kt => ?_
  exact kt.mmakOp
theorem Keeps.execMmake3m2 {o : FX} (h : Keeps a s) : OnOut (Keeps a) (execMmake3m2 o s) := by
  unfold Machine.execMmake3m2
  refine Keeps.runI h fun x t kt => ?_
  exact kt.mmakOp
theorem Keeps.execMmake2m3 {o : FX} (h : Keeps a s) : OnOut (Keeps a) (execMmake2m3 o s) := by
  unfold Machine.execMmake2m3
  refine Keeps.runI h fun x t kt => ?_
  exact kt.mmakOp
theorem Keeps.execMmake2m1 {o : FX} (h : Keeps a s) : OnOut (Keeps a) (execMmake2m1 o s) := by
  unfold Machine.execMmake2m1
  refine Keeps.runI h fun x t kt => ?_
  exact kt.mmakOp
theorem Keeps.execMmacb {o : FX} (h : Keeps a s) : OnOut (Keeps a) (execMmacb o s) := by
  unfold Machine.execMmacb
  refine Keeps.runI h fun x t kt => ?_
  exact kt.mmakOp
theorem Keeps.quantOp {i : Instr} {o : FX} {rd : Bool} {q : Q} (h : Keeps a s) : OnRes (Keeps a) (quantOp i o rd q s) := by
  unfold Machine.quantOp
  extract_lets x size gens op y g
  split
  · exact h.trapAll
  · split
    · exact h
    · refine Keeps.chunkCond h fun x1 => ?_
      exact h.enqueue
theorem Keeps.execQnt {o : FX} (h : Keeps a s) : OnOut (Keeps a) (execQnt o s) := by
  unfold Machine.execQnt
  refine Keeps.runI h fun x t kt => ?_
  exact kt.quantOp
theorem Keeps.execDqnt {o : FX} (h : Keeps a s) : OnOut (Keeps a) (execDqnt o s) := by
  unfold Machine.execDqnt
  refine Keeps.runI h fun x t kt => ?_
  exact kt.quantOp
theorem Keeps.execCrd {o : FX} (h : Keeps a s) : OnOut (Keeps a) (execCrd o s) := by
  unfold Machine.execCrd
  refine Keeps.runI h fun x t kt => ?_
  exact kt.batchOp
theorem Keeps.execCwr {o : FX} (h : Keeps a s) : OnOut (Keeps a) (execCwr o s) := by
  unfold Machine.execCwr
  refine Keeps.runI h fun x t kt => ?_
  exact kt.batchOp
theorem Keeps.execMopen {o : FY} (h : Keeps a s) : OnOut (Keeps a) (execMopen o s) := by
  unfold Machine.execMopen
  refine Keeps.runI h fun x t kt => ?_
  split
  · exact kt.trapAll
  · extract_lets others ahead
    split
    · exact kt.modCore
    · exact kt.modGrp.modCore
theorem Keeps.execMclose {o : FY} (h : Keeps a s) : OnOut (Keeps a) (execMclose o s) := by
  unfold Machine.execMclose
  refine Keeps.runI h fun x t kt => ?_
  split
  · exact kt.trapAll
  · exact Keeps.Res.grp kt
theorem Keeps.execMwait {o : FY} (h : Keeps a s) : OnOut (Keeps a) (execMwait o s) := by
  unfold Machine.execMwait
  refine Keeps.runI h fun x t kt => ?_
  extract_lets wp
  split
  · exact kt.trapAll
  · split
    · exact kt.cancelBatches
    next x1 t1 found =>
      have kt1 : Keeps a t1 := .retireWait found kt.retire
      change Keeps a _
      split
      · exact kt
      · exact kt1
    next x1 t1 found =>
      have kt1 : Keeps a t1 := .retireDone found kt.retire
      change Keeps a _
      split
      · exact kt1.modGrp
      · exact kt1

/-! ### Machine/Service -/

theorem Keeps.issueCall {g : Machine.Group} {c : CallRec} {form : ℕ} {args : ℕ → List DWord} (h : Keeps a s) : Keeps a
    (s.issueCall g c form args) := by
  unfold State.issueCall
  extract_lets c1 y s1 s1_1 s2
  have ky : Keeps a y := h.releaseAt
  have ks1 : Keeps a s1 := ⟨ky.lasting⟩
  have ks1_1 : Keeps a s1_1 := ks1.setGrp
  have ks2 : Keeps a s2 := Keeps.mend ⟨ks1_1.lasting.store⟩
  exact ks2.callqPush
theorem Keeps.callRetire {q : Q} {k : State → Machine.Group → Res} (h : Keeps a s) (hk : ∀ t y2, Keeps a t → OnRes (Keeps a) (k t y2)) :
    OnRes (Keeps a) (callRetire q s k) := by
  unfold Machine.callRetire
  extract_lets s0
  have ks0 : Keeps a s0 := by
    unfold s0
    split
    · exact h.setGrp
    · exact h
  split
  · exact ks0.cancelBatches
  next x t found =>
    have kt : Keeps a t := .retireWait found ks0.retire
    exact kt
  next x t found =>
    have kt : Keeps a t := .retireDone found ks0.retire
    split
    · exact hk _ _ kt
    · exact kt
theorem Keeps.execSys {o : FY} (h : Keeps a s) : OnOut (Keeps a) (execSys o s) := by
  unfold Machine.execSys
  refine Keeps.runI h fun x t kt => ?_
  refine Keeps.callRetire kt fun t1 x1 kt1 => ?_
  split
  · exact kt1
  · extract_lets each c t11
    have kt11 : Keeps a t11 := kt1.issueCall
    exact kt11
theorem Keeps.execSysa {o : FY} (h : Keeps a s) : OnOut (Keeps a) (execSysa o s) := by
  unfold Machine.execSysa
  refine Keeps.runI h fun x t kt => ?_
  extract_lets port isOpen
  split
  · exact kt.trapAll
  · refine Keeps.callRetire kt fun t1 x1 kt1 => ?_
    split
    · exact kt1
    · extract_lets c
      exact kt1.issueCall
theorem Keeps.execSysw {o : FY} (h : Keeps a s) : OnOut (Keeps a) (execSysw o s) := by
  unfold Machine.execSysw
  refine Keeps.runI h fun x t kt => ?_
  refine Keeps.callRetire kt fun t1 x1 kt1 => ?_
  split
  · exact kt1
  · extract_lets c
    exact kt1.issueCall
theorem Keeps.execTrap {o : FY} (h : Keeps a s) : OnOut (Keeps a) (execTrap o s) := by
  unfold Machine.execTrap
  refine Keeps.runI h fun x t kt => ?_
  extract_lets targ
  exact kt.setGrp
theorem Keeps.execBkpt {o : FY} (h : Keeps a s) : OnOut (Keeps a) (execBkpt o s) := by
  unfold Machine.execBkpt
  refine Keeps.runI h fun x t kt => ?_
  exact kt.setGrp
theorem Keeps.execFchk {o : FY} (h : Keeps a s) : OnOut (Keeps a) (execFchk o s) := by
  unfold Machine.execFchk
  refine Keeps.runI h fun x t kt => ?_
  extract_lets m hit
  split
  · exact kt
  · exact kt
theorem Keeps.execWearrd {o : F5} (h : Keeps a s) : OnOut (Keeps a) (execWearrd o s) := by
  unfold Machine.execWearrd
  refine Keeps.runI h fun x t kt => ?_
  extract_lets n
  exact Keeps.Res.grp kt
theorem Keeps.execBudrd {o : F5} (h : Keeps a s) : OnOut (Keeps a) (execBudrd o s) := by
  unfold Machine.execBudrd
  refine Keeps.runI h fun x t kt => ?_
  extract_lets w
  exact Keeps.Res.grp kt
theorem Keeps.modSeal {sheet n : ℕ} {f : SealFrame → SealFrame} (h : Keeps a s) : Keeps a (s.modSeal sheet n f) := by
  unfold State.modSeal
  exact h.modSheet
theorem Keeps.execSeal {o : FY} (h : Keeps a s) : OnOut (Keeps a) (execSeal o s) := by
  unfold Machine.execSeal
  refine Keeps.runI h fun x t kt => ?_
  split
  · exact kt.trapAll
  · extract_lets a1 n
    split
    · split
      · exact kt
      · split
        · exact kt
        · split
          · exact kt
          · exact kt.modSeal
    · exact kt.trapAll
theorem Keeps.execSealx {o : FY} (h : Keeps a s) : OnOut (Keeps a) (execSealx o s) := by
  unfold Machine.execSealx
  refine Keeps.runI h fun x t kt => ?_
  split
  · split
    · exact kt.modSeal
    · exact kt.trapAll
  · exact kt.trapAll

/-! ### Machine/PortSteps -/

theorem Keeps.writeHeld {core : ℕ} (h : Keeps a s) : Keeps a (s.writeHeld core) := by
  unfold State.writeHeld
  extract_lets ms bs
  exact Keeps.mend ⟨h.lasting.store⟩
theorem Keeps.execPortMessageArrival {n : ℕ} (h : Keeps a s) : OnOut (Keeps a) (execPortMessageArrival n s) := by
  unfold Machine.execPortMessageArrival
  split
  · exact h
  · split
    · exact h
    · extract_lets s1 y
      have ks1 : Keeps a s1 := ⟨h.lasting⟩
      split
      · exact ks1
      · split
        · exact ks1
        · split
          · exact ks1.modTeam
          · split
            · exact ks1.enter
            · exact ks1.modTeam.writeHeld
theorem Keeps.execHeldMessageEnter {team port : ℕ} (h : Keeps a s) : OnOut (Keeps a) (execHeldMessageEnter team port s) := by
  unfold Machine.execHeldMessageEnter
  split
  · exact h
  · split
    · exact h
    · exact h.modTeam.writeHeld.enter
theorem Keeps.execBlockedSendEnter {team port : ℕ} (h : Keeps a s) : OnOut (Keeps a) (execBlockedSendEnter team port s) := by
  unfold Machine.execBlockedSendEnter
  split
  · exact h
  · split
    · exact h.modTeam.enter.sendEntered
    · exact h

/-! ### Machine/Seal -/

theorem Keeps.execSealJobStart {sheet : ℕ} (h : Keeps a s) : OnOut (Keeps a) (execSealJobStart sheet s) := by
  unfold Machine.execSealJobStart
  split
  · exact h
  · split
    · exact h.chargeMove.modSheet
    · exact h
theorem Keeps.commitSeal {h' : Sheet} {out : DWord} {slot : Nat} {f : SealFrame} (h : Keeps a s) : Keeps a
    (State.commitSeal h' out slot s f) := by
  unfold State.commitSeal
  split
  extract_lets ok r s1
  have ks1 : Keeps a s1 := by
    unfold s1
    split
    · exact foldl_keeps h fun u e ku => ku.sheetStore
    · exact h
  split
  · exact ks1.sealed
  · exact ks1
theorem Keeps.commitSeals {h'2 : Sheet} (h : Keeps a s) : Keeps a (s.commitSeals h'2) := by
  unfold State.commitSeals
  split
  · refine foldl_keeps ?_ ?_
    · exact h
    · intro t x kt
      exact kt.commitSeal
  · exact h

/-! ### Machine/Sheets -/

theorem Keeps.answerStore {qn off : ℕ} {whole : Bool} {data : List Byte} (h : Keeps a s) : Keeps a (s.answerStore qn off whole data) := by
  unfold State.answerStore
  split
  · split
    · exact h.answerQueue
    · split
      next t x t1 found =>
        have kt1 : Keeps a t1 := .snd found h.submitRecord
        exact kt1.answerQueue
  · split
    · exact h.addWake
    · exact h
theorem Keeps.execHostSubmit {queue : ℕ} {data : HostWrite} (h : Keeps a s) : OnOut (Keeps a) (execHostSubmit queue data s) := by
  unfold Machine.execHostSubmit
  split
  · exact h
  · split
    · exact h.answerStore
    · split
      · exact h
      · exact h.modQueue
theorem Keeps.execWake {queue : ℕ} {w : DWord} (h : Keeps a s) : OnOut (Keeps a) (execWake queue w s) := by
  unfold Machine.execWake
  exact h.addWake
theorem Keeps.execSheetStart {queue : ℕ} (h : Keeps a s) : OnOut (Keeps a) (execSheetStart queue s) := by
  unfold Machine.execSheetStart
  split
  · exact h
  · extract_lets s1 cap slot s2 pages
    have ks1 : Keeps a s1 := by
      unfold s1
      split
      · exact h.modQueue
      · exact h
    have ks2 : Keeps a s2 := ks1.modSheet
    change Keeps a _
    split
    · refine foldl_keeps ?_ ?_
      · exact ks2
      · intro t x kt
        exact kt.capture
    · exact ks2
theorem Keeps.takePage (h : Keeps a s) : Keeps a (s.takePage).2 := by
  unfold State.takePage
  split
  next t x t1 found =>
    have kt1 : Keeps a t1 := by
      refine .snd found ?_
      split
      · dsimp only
        exact ⟨h.lasting⟩
      · dsimp only
        exact ⟨h.lasting⟩
    dsimp only
    exact Keeps.refreshRo (Keeps.mend ⟨kt1.lasting.store⟩)
theorem Keeps.renamePages {a'2 : List ℕ} (h : Keeps a s) : Keeps a (s.renamePages a'2).2 := by
  induction a'2 generalizing s with
  | nil =>
    rw [State.renamePages]
    dsimp only
    exact h
  | cons y ys ih =>
    rw [State.renamePages]
    split
    next t x t1 found =>
      have kt1 : Keeps a t1 := .snd found h.takePage
      split
      next t2 x1 t1 found1 =>
        have kt11 : Keeps a t1 := .snd found1 (ih kt1)
        dsimp only
        exact kt11
theorem Keeps.execTaskDispatch {sheet task : ℕ} (h : Keeps a s) : OnOut (Keeps a) (execTaskDispatch sheet task s) := by
  unfold Machine.execTaskDispatch
  split
  · split
    · exact h
    · extract_lets t vas
      split
      · exact h.modTask
      · split
        next t1 x t2 found =>
          have kt2 : Keeps a t2 := .snd found h.renamePages
          extract_lets t11 arm s2 es t21
          have ks2 : Keeps a s2 := kt2.modSheet
          exact ks2.modTask
  · exact h
theorem Keeps.answerWaiting {gid : ℕ} {w : Wait × Mask} (h : Keeps a s) : Keeps a (s.answerWaiting gid w) := by
  unfold State.answerWaiting
  split
  · split
    next t found =>
      exact h
    next t x t1 found =>
      have kt1 : Keeps a t1 := .gotSnd found h.answerTask
      exact kt1.updGroup
  · exact h
theorem Keeps.recheckTasks (h : Keeps a s) : Keeps a (s.recheckTasks) := by
  unfold State.recheckTasks
  refine foldl_keeps ?_ ?_
  · exact h
  · intro t x kt
    refine foldl_keeps ?_ ?_
    · exact kt
    · intro t1 x1 kt1
      exact kt1.answerWaiting
theorem Keeps.execTaskCompletion {sheet task : ℕ} (h : Keeps a s) : OnOut (Keeps a) (execTaskCompletion sheet task s) := by
  unfold Machine.execTaskCompletion
  split
  · split
    · exact h
    · extract_lets s1 s2
      have ks1 : Keeps a s1 := h.modTask
      have ks2 : Keeps a s2 := by
        unfold s2
        split
        · exact ks1.post
        · exact ks1
      exact ks2.recheckTasks
  · exact h
theorem Keeps.fileWrite {inode off : ℕ} {bs : List Byte} (h : Keeps a s) : Keeps a (s.fileWrite inode off bs) := by
  unfold State.fileWrite
  extract_lets w
  exact ⟨h.lasting⟩
theorem Keeps.sockOut {sock : ℕ} {bs : List Byte} (h : Keeps a s) : Keeps a (s.sockOut sock bs) := by
  unfold State.sockOut
  extract_lets w
  exact ⟨h.lasting⟩
theorem Keeps.perform {a'2 : Deferred} (h : Keeps a s) : Keeps a (s.perform a'2) := by
  unfold State.perform
  split
  · exact h.addWake
  · exact h.fileWrite
  · exact h.sockOut
theorem Keeps.remapPage {asn : ℕ} {r : ℕ × ℕ} (h : Keeps a s) : Keeps a (State.remapPage asn s r) := by
  unfold State.remapPage
  split
  · exact h
  · split
    · extract_lets old new
      exact ⟨h.lasting.store⟩
    · exact h
theorem Keeps.remapSheet {h'2 : Sheet} (h : Keeps a s) : Keeps a (s.remapSheet h'2) := by
  unfold State.remapSheet
  extract_lets new s1 dead
  have ks1 : Keeps a s1 := by
    unfold s1
    refine foldl_keeps ?_ ?_
    · exact h
    · intro t x kt
      exact kt.remapPage
  split
  · exact h
  · exact Keeps.ticketDone ⟨ks1.lasting⟩
theorem Keeps.postCompletion {h'2 : Sheet} {code : ℕ} (h : Keeps a s) : Keeps a (s.postCompletion h'2 code) := by
  unfold State.postCompletion
  extract_lets w s1 s2
  have ks1 : Keeps a s1 := h.modQueue
  have ks2 : Keeps a s2 := by
    unfold s2
    split
    · exact ⟨ks1.lasting.store⟩
    · exact ks1
  split
  · split
    · exact ks2.post
    · exact ks2
  · exact ks2
theorem Keeps.dropSheet {h'2 : Sheet} (h : Keeps a s) : Keeps a (s.dropSheet h'2) := by
  unfold State.dropSheet
  exact Keeps.recheckTasks ⟨h.lasting⟩
theorem Keeps.execSheetRetire {sheet : ℕ} (h : Keeps a s) : OnOut (Keeps a) (execSheetRetire sheet s) := by
  unfold Machine.execSheetRetire
  split
  · exact h
  · split
    · exact h
    · split
      · exact h.postCompletion.dropSheet
      · split
        · exact h
        · extract_lets s0 s1
          have ks0 : Keeps a s0 := by
            unfold s0
            refine foldl_keeps ?_ ?_
            · exact h
            · intro t x kt
              exact kt.releaseAt
          have ks1 : Keeps a s1 := by
            unfold s1
            split
            · exact ks0
            · refine foldl_keeps ?_ ?_
              · exact ks0.commitSeals
              · intro t x kt
                exact kt.perform
          exact ks1.remapSheet.postCompletion.dropSheet
theorem Keeps.execQueueUnmap {queue : ℕ} (h : Keeps a s) : OnOut (Keeps a) (execQueueUnmap queue s) := by
  unfold Machine.execQueueUnmap
  split
  · exact h
  · exact h.modQueue
theorem Keeps.execQueueRemap {queue slot : ℕ} (h : Keeps a s) : OnOut (Keeps a) (execQueueRemap queue slot s) := by
  unfold Machine.execQueueRemap
  split
  · exact h
  · extract_lets ahead s1
    have ks1 : Keeps a s1 := h.modQueue
    split
    · exact h
    · change Keeps a _
      refine foldl_keeps ?_ ?_
      · exact ks1
      · intro t x kt
        exact kt.answerStore

/-! ### Machine/Place -/

theorem Keeps.checkEntries {team : ℕ} (h : Keeps a s) : Keeps a (s.checkEntries team) := by
  unfold State.checkEntries
  refine foldl_keeps ?_ ?_
  · exact h
  · intro t x kt
    extract_lets pc
    split
    · exact kt.takeException
    · exact kt.setGrp
    · exact kt.setGrp
    · exact kt.setGrp
    · exact kt
theorem Keeps.placeTeam {l : Launch} {cs : List Nat} (h : Keeps a s) : OnSome (Keeps a) (s.placeTeam l cs) :=
  .map fun t found => (h.admitTeam t found).checkEntries.recordPlaces
theorem Keeps.placeChild {h'2 : Sheet} {b : Bin} {rest : List Bin} (h : Keeps a s) : OnSome (Keeps a) (s.placeChild h'2 b rest) := by
  unfold State.placeChild
  refine .bind fun x found => ?_
  exact h.modSheet.placeTeam
theorem Keeps.execTeamPlacement {sheet task : ℕ} (h : Keeps a s) : OnOut (Keeps a) (execTeamPlacement sheet task s) := by
  unfold Machine.execTeamPlacement
  split
  · exact h
  · split
    · exact h
    · split
      next t t1 found =>
        have kt1 : Keeps a t1 := by
          refine .got found ?_
          refine .bind fun x found1 => ?_
          exact h.placeChild
        exact kt1
      next t found =>
        split
        · exact h
        · split
          · exact h
          · split
            · exact h
            · split
              next t1 found1 =>
                exact h
              next t1 t2 found1 =>
                have kt2 : Keeps a t2 := .got found1 h.placeTeam
                extract_lets done s2
                have ks2 : Keeps a s2 := kt2.modTask
                change Keeps a _
                split
                · exact ks2.modSheet
                · exact ks2
theorem Keeps.execAgeingStep {sheet task : ℕ} (h : Keeps a s) : OnOut (Keeps a) (execAgeingStep sheet task s) := by
  unfold Machine.execAgeingStep
  split
  · exact h
  · split
    · exact h
    · split
      · exact h.modSheet
      · exact h
theorem Keeps.placeAll {sheet : ℕ} {a'3 : List (List ℕ)} (h : Keeps a s) : OnSome (Keeps a) (s.placeAll sheet a'3) := by
  induction a'3 generalizing s with
  | nil =>
    rw [State.placeAll]
    exact .some h
  | cons y ys ih =>
    rw [State.placeAll]
    split
    · exact .none
    · split
      · exact .none
      · split
        next t found =>
          exact .none
        next t t1 found =>
          have kt1 : Keeps a t1 := .got found h.placeTeam
          exact ih kt1.modTask
theorem Keeps.execGangPlacement {sheet : ℕ} (h : Keeps a s) : OnOut (Keeps a) (execGangPlacement sheet s) := by
  unfold Machine.execGangPlacement
  split
  · exact h
  · split
    · exact h
    · split
      · exact h
      · split
        · exact h
        · split
          next t found =>
            exact h
          next t t1 found =>
            have kt1 : Keeps a t1 := .got found h.placeAll
            change Keeps a _
            extract_lets y
            have ky : Keeps a y := kt1.modSheet
            exact ⟨ky.lasting⟩
theorem Keeps.execGangReservation {sheet : ℕ} (h : Keeps a s) : OnOut (Keeps a) (execGangReservation sheet s) := by
  unfold Machine.execGangReservation
  split
  · exact h
  · split
    · exact h
    · split
      · exact ⟨h.lasting⟩
      · exact h
theorem Keeps.execBalancerTick (h : Keeps a s) : OnOut (Keeps a) (execBalancerTick s) := by
  unfold Machine.execBalancerTick
  split
  · exact h
  · extract_lets cmds
    exact ⟨h.lasting⟩
theorem Keeps.moveTeam {t : Team} {src dst : ℕ} (h : Keeps a s) : Keeps a (s.moveTeam t src dst) := by
  unfold State.moveTeam
  extract_lets mine owner ms s1
  have ks1 : Keeps a s1 := by
    unfold s1
    refine foldl_keeps ?_ ?_
    · exact h
    · intro t1 x kt
      split
      · exact kt.setGrp
      · extract_lets c y h1
        split
        · exact kt.parkRegs.setGrp
        · exact kt.parkRegs.setGrp
  split
  · extract_lets drop s2 s3 s4
    have ks2 : Keeps a s2 := ks1.modCore
    have ks3 : Keeps a s3 := ks2.modCore
    have ks4 : Keeps a s4 := ks3.modGrps
    exact Keeps.modTeam ⟨ks4.lasting⟩
theorem Keeps.moveTeams {src dst : Nat} {all : Bool} {n : Nat} {ts : List Team} (h : Keeps a s) : Keeps a
    (State.moveTeams src dst all n ts s) := by
  induction ts generalizing s n with
  | nil =>
    rw [State.moveTeams]
    exact h
  | cons t ts ih =>
    unfold State.moveTeams
    extract_lets k
    split
    · exact ih (foldl_keeps h fun _ _ ku => ku.moveTeam)
    · split
      · exact ih h
      · exact h
theorem Keeps.execMigration {n : ℕ} (h : Keeps a s) : OnOut (Keeps a) (execMigration n s) := by
  unfold Machine.execMigration
  split
  · exact h
  · extract_lets src dst count s1 drained ts
    have ks1 : Keeps a s1 := ⟨h.lasting⟩
    exact ks1.moveTeams
theorem Keeps.execForwardingEntryRemove {core team : ℕ} (h : Keeps a s) : OnOut (Keeps a) (execForwardingEntryRemove core team s) := by
  unfold Machine.execForwardingEntryRemove
  split
  · exact h
  · split
    · exact h.modCore
    · exact h

/-! ### Machine/Surveyor -/

theorem Keeps.svErr {sv bit : ℕ} (h : Keeps a s) : Keeps a (s.svErr sv bit) := by
  unfold State.svErr
  exact h.modSurv
theorem Keeps.svCharge {sv cls : ℕ} {ps : List (ℕ × ℕ)} (h : Keeps a s) : Keeps a (s.svCharge sv cls ps) := by
  unfold State.svCharge
  split
  · exact h
  · exact h.chargeMove
theorem Keeps.execCallqAppend {sv : ℕ} (h : Keeps a s) : OnOut (Keeps a) (execCallqAppend sv s) := by
  unfold Machine.execCallqAppend
  split
  · exact h
  · extract_lets v
    split
    · exact h
    · split
      · exact h.modSurv
      · exact h
theorem Keeps.modCall {gid slot : ℕ} {f : CallRec → CallRec} (h : Keeps a s) : Keeps a (s.modCall gid slot f) := by
  unfold State.modCall
  exact h.modGrp
theorem Keeps.modCallAt {pa : ℕ} {f : CallRec → CallRec} (h : Keeps a s) : Keeps a (s.modCallAt pa f) := by
  unfold State.modCallAt
  split
  · exact h.modCall
  · exact h
theorem Keeps.execCallqPop {sv : ℕ} (h : Keeps a s) : OnOut (Keeps a) (execCallqPop sv s) := by
  unfold Machine.execCallqPop
  split
  · exact h
  · split
    · exact h.modSurv
    · extract_lets s1 s2
      have ks1 : Keeps a s1 := h.modSurv
      have ks2 : Keeps a s2 := by
        unfold s2
        split
        · exact ks1
        · exact ks1.modCallAt
      split
      · exact ⟨ks2.lasting⟩
      · exact ks2
theorem Keeps.captureReply {g : Machine.Group} {c : CallRec} {pa : ℕ} {lanes : Mask} {vals : List DWord} (h : Keeps a s) : Keeps a
    (s.captureReply g c pa lanes vals) := by
  unfold State.captureReply
  extract_lets ls
  exact h.capture
theorem Keeps.answerCall {g : Machine.Group} {c : CallRec} {lanes : Mask} (h : Keeps a s) : Keeps a (s.answerCall g c lanes) := by
  unfold State.answerCall
  extract_lets pa vals c1 s0 s1 put s2 ready s2_1
  have ks0 : Keeps a s0 := h.modCore
  have ks1 : Keeps a s1 := Keeps.captureReply (Keeps.mend ⟨h.lasting.store⟩)
  have ks2 : Keeps a s2 := ks1.modGrp
  have ks2_1 : Keeps a s2_1 := by
    unfold s2_1
    split
    · exact ks1.acquireAt
    · exact ks1
  split
  · refine foldl_keeps ?_ ?_
    · exact ks2
    · intro t x kt
      exact kt.post
  · split
    · exact ks1.modGrp.reframe
    · exact ks2_1.updGroup
theorem Keeps.execReplyPost {sv : ℕ} {w : DWord} (h : Keeps a s) : OnOut (Keeps a) (execReplyPost sv w s) := by
  unfold Machine.execReplyPost
  split
  · exact h
  · extract_lets m
    split
    · exact h.svErr
    · extract_lets s1 s2 new
      have ks1 : Keeps a s1 := by
        unfold s1
        split
        · exact h.svErr
        · exact h
      have ks2 : Keeps a s2 := by
        unfold s2
        split
        · exact ks1.svErr
        · exact ks1
      change Keeps a _
      split
      · exact ks2
      · exact ks2.answerCall
theorem Keeps.mboxSend {sv shard port : ℕ} {data : DWord} {aux : ℕ} (h : Keeps a s) : Keeps a (s.mboxSend sv shard port data aux) := by
  unfold State.mboxSend
  exact h.modSurv
theorem Keeps.execMboxTxAux {sv : ℕ} {w : DWord} (h : Keeps a s) : OnOut (Keeps a) (execMboxTxAux sv w s) := by
  unfold Machine.execMboxTxAux
  split
  · exact h
  · extract_lets v dst
    split
    · exact h.svErr
    · exact h.mboxSend
theorem Keeps.mboxPut {sv : ℕ} {m : Msg} (h : Keeps a s) : Keeps a (s.mboxPut sv m) := by
  unfold State.mboxPut
  exact h.modSurv
theorem Keeps.mboxPost {sv : ℕ} {m : Msg} (h : Keeps a s) : Keeps a (s.mboxPost sv m) := by
  unfold State.mboxPost
  split
  · exact h.mboxPut
  · exact h.modSurv
theorem Keeps.execMboxDelivery {sv : ℕ} (h : Keeps a s) : OnOut (Keeps a) (execMboxDelivery sv s) := by
  unfold Machine.execMboxDelivery
  split
  · exact h
  · split
    · exact h
    · exact h.modSurv.mboxPut
theorem Keeps.tookPass {sv : ℕ} {m : Msg} (h : Keeps a s) : Keeps a (s.tookPass sv m) := by
  unfold State.tookPass
  extract_lets slot lane seq
  split
  · exact h.modCallAt.modSurv
  · split
    · exact ⟨h.lasting⟩
    · exact h
theorem Keeps.execMboxRxPop {sv port : ℕ} (h : Keeps a s) : OnOut (Keeps a) (execMboxRxPop sv port s) := by
  unfold Machine.execMboxRxPop
  split
  · exact h
  · split
    · exact h.modSurv
    · extract_lets h1
      exact h.modSurv.tookPass
theorem Keeps.execCallPass {sv slot lane : ℕ} (h : Keeps a s) : OnOut (Keeps a) (execCallPass sv slot lane s) := by
  unfold Machine.execCallPass
  extract_lets word
  split
  · exact h
  · split
    · split
      · exact h.modSurv.mboxSend
      · exact h
    · split
      · exact h
      · extract_lets home own
        split
        · exact h.modCall.mboxSend
        · exact h
theorem Keeps.copyBusy {slot off : Nat} (h : Keeps a s) : Keeps a (s.copyBusy slot off) := by
  unfold State.copyBusy
  split
  · exact h
  · split
    · exact Keeps.modCallAt ⟨h.lasting.fold fun _ _ kept => kept.store⟩
    · exact h
theorem Keeps.startCopy {sv : ℕ} {out : Bool} {w : DWord} (h : Keeps a s) : Keeps a (s.startCopy sv out w) := by
  unfold State.startCopy
  extract_lets v pa slot off len refuse cs rid r
  have krefuse : Keeps a refuse := h.modSurv.copyBusy
  split
  · exact h.svErr
  · split
    · exact krefuse
    · split
      · exact krefuse
      · extract_lets s1
        have ks1 : Keeps a s1 := Keeps.modTeam ⟨h.lasting⟩
        exact ks1.modSurv
theorem Keeps.execCallCopyIn {sv : ℕ} {w : DWord} (h : Keeps a s) : OnOut (Keeps a) (execCallCopyIn sv w s) := by
  unfold Machine.execCallCopyIn
  split
  · exact h
  · exact h.startCopy
theorem Keeps.execCallCopyOut {sv : ℕ} {w : DWord} (h : Keeps a s) : OnOut (Keeps a) (execCallCopyOut sv w s) := by
  unfold Machine.execCallCopyOut
  split
  · exact h
  · exact h.startCopy
theorem Keeps.shardStore {pa : ℕ} {bs : List Byte} (h : Keeps a s) : Keeps a (s.shardStore pa bs) := by
  unfold State.shardStore
  exact Keeps.filterRange (Keeps.mend ⟨h.lasting.store⟩)
theorem Keeps.execCallCopyDone {sv : ℕ} (h : Keeps a s) : OnOut (Keeps a) (execCallCopyDone sv s) := by
  unfold Machine.execCallCopyDone
  split
  · exact h
  · split
    · exact h
    · split
      · exact h.modSurv
      · split
        · split
          · exact h.jobCheck
          · extract_lets cs bs s1 s2 s2_1 s3 s4
            have ks1 : Keeps a s1 := h.shardStore
            have ks2 : Keeps a s2 := ks1.modTeam
            have ks2_1 : Keeps a s2_1 := ks2.filterRange.modCallAt
            have ks3 : Keeps a s3 := by
              unfold s3
              split
              · exact ks2_1.capture
              · exact ks2_1
            have ks4 : Keeps a s4 := ks3.readChunks.chargeEngine
            exact ks4.modSurv
        · split
          · exact h.jobCheck
          · extract_lets cs bs s1 s2 s2_1 s3 s4
            have ks1 : Keeps a s1 := h.modTeam
            have ks2 : Keeps a s2 := ks1.modTeam
            have ks2_1 : Keeps a s2_1 := ks2.filterRange.modCallAt
            have ks3 : Keeps a s3 := by
              unfold s3
              split
              · exact ks2_1.capture
              · exact ks2_1
            have ks4 : Keeps a s4 := ks3.readChunks.chargeEngine
            exact ks4.modSurv
theorem Keeps.execCcopyStat {sv : ℕ} (h : Keeps a s) : OnOut (Keeps a) (execCcopyStat sv s) := by
  unfold Machine.execCcopyStat
  extract_lets v u
  have ku : Keeps a u := by
    unfold u
    split
    · exact ⟨h.lasting⟩
    · exact h
  split
  · exact h
  · exact ku.modSurv
theorem Keeps.execSverr {sv : ℕ} {w : DWord} (h : Keeps a s) : OnOut (Keeps a) (execSverr sv w s) := by
  unfold Machine.execSverr
  split
  · exact h
  · exact h.modSurv
theorem Keeps.execNvmeDoorbell {sv pair : ℕ} {w : DWord} (h : Keeps a s) : OnOut (Keeps a) (execNvmeDoorbell sv pair w s) := by
  unfold Machine.execNvmeDoorbell
  split
  · exact h
  · extract_lets p t
    exact ⟨h.lasting⟩
theorem Keeps.execNvmeCompletion {pair cid status : ℕ} {data : List Byte} (h : Keeps a s) : OnOut (Keeps a)
    (execNvmeCompletion pair cid status data s) := by
  unfold Machine.execNvmeCompletion
  extract_lets p phase
  split
  · split
    · exact h
    · extract_lets ps p1 s1 s2
      have ks1 : Keeps a s1 := ⟨h.lasting⟩
      have ks2 : Keeps a s2 := by
        unfold s2
        split
        · exact ks1
        · split
          · refine Keeps.svCharge ?_
            refine foldl_keeps ?_ ?_
            · exact ks1
            · intro t x kt
              exact kt.shardStore
          · split
            · exact Keeps.svCharge ⟨h.lasting⟩
            · exact ks1
      exact Keeps.mboxPost ⟨ks2.lasting⟩
  · exact h
theorem Keeps.execEthRx {queue : ℕ} {frame : List Byte} (h : Keeps a s) : OnOut (Keeps a) (execEthRx queue frame s) := by
  unfold Machine.execEthRx
  split
  · exact h
  · extract_lets s1
    have ks1 : Keeps a s1 := by
      unfold s1
      split
      · split
        · exact h
        · exact h.chargeTraffic
      · exact h
    split
    · exact ⟨ks1.lasting⟩
    · exact ⟨ks1.lasting⟩
theorem Keeps.setUtc {ns : DWord} (h : Keeps a s) : Keeps a (s.setUtc ns) := by
  unfold State.setUtc
  exact ⟨h.lasting⟩
theorem Keeps.execUtcNtpSet {ns : ℕ} (h : Keeps a s) : OnOut (Keeps a) (execUtcNtpSet ns s) := by
  unfold Machine.execUtcNtpSet
  exact h.setUtc

/-! ### Machine/Hart -/

theorem Keeps.csrWrite {sv csr : ℕ} {w : DWord} (h : Keeps a s) : Keeps a (s.csrWrite sv csr w) := by
  unfold State.csrWrite
  split
  · exact h.modSurv
  · exact h.modSurv
  · exact h.modSurv
  · exact h
theorem Keeps.hartCsrWrite {k n : Nat} {w : DWord} (h : Keeps a s) : Keeps a (s.hartCsrWrite k n w) := by
  unfold State.hartCsrWrite
  extract_lets x mix
  have kept (r : Nat) (m : DWord) : Keeps a (mix r m) := h.modHart
  refine ite_keeps (kept _ _) (ite_keeps (kept _ _) (ite_keeps (kept _ _) (ite_keeps h.modHart ?_)))
  refine ite_keeps (kept _ _) (ite_keeps (kept _ _) (ite_keeps (kept _ _) (ite_keeps (kept _ _) ?_)))
  refine ite_keeps (kept _ _) (ite_keeps (kept _ _) (ite_keeps (kept _ _) ?_))
  exact ite_keeps h.modHart (ite_keeps h.modHart (ite_keeps h.csrWrite h))
theorem Keeps.hartInterrupt {k : ℕ} (h : Keeps a s) : Keeps a (s.hartInterrupt k) := by
  unfold State.hartInterrupt
  split
  · exact h.modHart
  · split
    · exact h.modHart
    · exact h
theorem Keeps.execSvTimerExpiry {sv : ℕ} (h : Keeps a s) : OnOut (Keeps a) (execSvTimerExpiry sv s) := by
  unfold Machine.execSvTimerExpiry
  change Keeps a _
  split
  · exact h.hartInterrupt
  · exact h
theorem Keeps.survFill {sv va : ℕ} {smode : Bool} (h : Keeps a s) : Keeps a (s.survFill sv va smode) := by
  unfold State.survFill
  extract_lets v asn s1
  have ks1 : Keeps a s1 := by
    unfold s1
    split
    · exact h.walkReads
    · exact h
  split
  · exact h
  · split
    · exact h
    · extract_lets e add
      exact ks1.modCore.modDie

/-! ### Machine/Loader -/

theorem Keeps.load {asn : ℕ} {bs : List Byte} {maps : List MapReq} (h : Keeps a s) : Keeps a (s.load asn bs maps).2 := by
  unfold State.load
  extract_lets base ss lay need reqs clear put s1 s2
  have ks1 : Keeps a s1 := by
    unfold s1
    refine foldl_keeps ?_ ?_
    · exact h
    · intro t x kt
      exact kt.shardStore
  have ks2 : Keeps a s2 := by
    unfold s2
    refine foldl_keeps ?_ ?_
    · exact ks1
    · intro t x kt
      unfold put
      extract_lets d at_
      refine foldl_keeps ?_ ?_
      · exact kt
      · intro t1 x1 kt1
        split
        · extract_lets lo
          exact kt1.shardStore
        · exact kt1
  split
  · dsimp only
    exact h
  · split
    · dsimp only
      exact h
    next c =>
      split
      · dsimp only
        exact h
      · split
        next t t1 found =>
          have kt1 : Keeps a t1 := .got found ks2.mapServed
          dsimp only
          exact Keeps.ticketDone ⟨kt1.lasting⟩
        next t found =>
          dsimp only
          exact h

/-! ### Machine/Calls -/

theorem Keeps.openStatus (h : Keeps a s) : Keeps a (s.openStatus).2 := by
  unfold State.openStatus
  dsimp only
  exact ⟨h.lasting⟩
theorem Keeps.CapEntry.redo {g : Machine.Group} {a'3 : CapEntry} (h : Keeps a s) : Keeps a (CapEntry.redo g s a'3) := by
  unfold Machine.CapEntry.redo
  split
  · exact h.sheetStore
  · exact h.modTeam
  · exact h
theorem Keeps.replayLane {x : Call} {q L : ℕ} (h : Keeps a s) : Keeps a (State.replayLane x q s L) := by
  unfold State.replayLane
  split
  · exact h
  · extract_lets args off v s1 s2
    have ks1 : Keeps a s1 := h.modSheet
    have ks2 : Keeps a s2 := by
      unfold s2
      split
      · refine foldl_keeps ?_ ?_
        · exact ks1
        · intro t x1 kt
          exact Keeps.CapEntry.redo kt
      · exact ks1
    exact ks2.shardStore
theorem Keeps.serve {pa lane callno : Nat} {merge : Bool} {k : Call → State → DWord × State}
    {need : Call → State → Option (List (Nat × Nat))} (h : Keeps a s) (hk : ∀ x t, Keeps a t → Keeps a (k x t).2) :
    OnOut (Keeps a) (s.serve pa lane callno merge k need) := by
  unfold State.serve
  split
  · exact h
  · extract_lets x led done q t
    split
    · exact h
    · split
      · split
        · exact h
        · have kt : Keeps a t := foldl_keeps h fun _ _ ku => ku.replayLane
          exact kt.modCall.modGrp.modGrp
      · split
        · exact h
        · extract_lets away
          split
          · exact h.modCall
          · exact (foldl_keeps (hk _ _ h) fun _ _ ku => ku.shardStore).modGrp
theorem Keeps.partCheck {sheet pa n : ℕ} (h : Keeps a s) : Keeps a (s.partCheck sheet pa n) := by
  unfold State.partCheck
  split
  · exact h.modSheet
  · exact h
theorem Keeps.callStore {x : Call} {va : ℕ} {bs : List Byte} (h : Keeps a s) : OnSome (Keeps a) (s.callStore x va bs) := by
  unfold State.callStore
  refine .map fun x1 found => ?_
  refine foldl_keeps ?_ ?_
  · exact h
  · intro t x2 kt
    exact kt.partCheck.sheetStore.capture
theorem Keeps.sourcePa {x : Call} {buf n : ℕ} (h : Keeps a s) : Keeps a (s.sourcePa x buf n) := by
  unfold State.sourcePa
  exact ⟨h.lasting.store⟩
theorem Keeps.effect {x : Call} {d : Deferred} (h : Keeps a s) : Keeps a (s.effect x d) := by
  unfold State.effect
  split
  · split
    · exact h.perform
    · exact h.modSheet
  · exact h
theorem Keeps.execSysTime {slot lane : ℕ} (h : Keeps a s) : OnOut (Keeps a) (execSysTime slot lane s) := by
  unfold Machine.execSysTime
  refine Keeps.serve h fun x t kt => ?_
  split
  · extract_lets t1
    dsimp only
    exact kt.modGrp
  · dsimp only
    exact kt
theorem Keeps.timeset {admin : Bool} {ns : DWord} (h : Keeps a s) : Keeps a (s.timeset admin ns).2 := by
  unfold State.timeset
  split
  · dsimp only
    exact h.setUtc
  · dsimp only
    exact h
theorem Keeps.execSysTimeset {slot lane : ℕ} (h : Keeps a s) : OnOut (Keeps a) (execSysTimeset slot lane s) := by
  unfold Machine.execSysTimeset
  refine Keeps.serve h fun x t kt => ?_
  exact kt.timeset
theorem Keeps.execSysAlloc {slot lane va : ℕ} {maps : List MapReq} (h : Keeps a s) : OnOut (Keeps a)
    (execSysAlloc slot lane va maps s) := by
  unfold Machine.execSysAlloc
  refine Keeps.serve h fun x t kt => ?_
  extract_lets n free
  split
  · exact kt.openStatus
  · split
    · dsimp only
      exact kt
    · split
      next t1 found =>
        dsimp only
        exact kt
      next t1 t2 found =>
        have kt2 : Keeps a t2 := .got found kt.mapServed
        split
        · dsimp only
          exact ⟨kt2.lasting⟩
        · dsimp only
          exact kt
theorem Keeps.freeBlock {b : Alloc} (h : Keeps a s) : Keeps a (s.freeBlock b) := by
  unfold State.freeBlock
  extract_lets ps s1 inv
  have ks1 : Keeps a s1 := by
    unfold s1
    refine foldl_keeps ?_ ?_
    · exact h
    · intro t x kt
      exact kt.unmapPage
  exact Keeps.ticketDone ⟨ks1.lasting⟩
theorem Keeps.execSysFree {slot lane : ℕ} (h : Keeps a s) : OnOut (Keeps a) (execSysFree slot lane s) := by
  unfold Machine.execSysFree
  refine Keeps.serve h fun x t kt => ?_
  split
  · dsimp only
    exact kt.freeBlock
  · exact kt.openStatus
theorem Keeps.openFd {x : Call} {inode : ℕ} {write : Bool} (h : Keeps a s) : Keeps a (s.openFd x inode write).2 := by
  unfold State.openFd
  extract_lets sh used fd
  dsimp only
  exact ⟨h.lasting⟩
theorem Keeps.execSysOpen {slot lane inode : ℕ} (h : Keeps a s) : OnOut (Keeps a) (execSysOpen slot lane inode s) := by
  unfold Machine.execSysOpen
  refine Keeps.serve h fun x t kt => ?_
  split
  · dsimp only
    exact kt
  · split
    · dsimp only
      exact kt
    · split
      · exact kt.openFd
      · split
        · extract_lets n t1
          have kt1 : Keeps a t1 := ⟨kt.lasting⟩
          exact kt1.openFd
        · dsimp only
          exact kt
theorem Keeps.execSysClose {slot lane : ℕ} (h : Keeps a s) : OnOut (Keeps a) (execSysClose slot lane s) := by
  unfold Machine.execSysClose
  refine Keeps.serve h fun x t kt => ?_
  split
  · dsimp only
    exact ⟨kt.lasting⟩
  · dsimp only
    exact kt
theorem Keeps.execSysRead {slot lane buf : ℕ} (h : Keeps a s) : OnOut (Keeps a) (execSysRead slot lane buf s) := by
  unfold Machine.execSysRead
  extract_lets need
  refine Keeps.serve h fun x t kt => ?_
  split
  · dsimp only
    exact kt
  · extract_lets n bs
    split
    · split
      · dsimp only
        exact kt.shardStore.sourcePa
      · dsimp only
        exact kt
    · split
      next t1 t2 found =>
        have kt2 : Keeps a t2 := .got found kt.callStore
        dsimp only
        exact kt2
      next t1 found =>
        dsimp only
        exact kt
theorem Keeps.execSysWrite {slot lane buf : ℕ} (h : Keeps a s) : OnOut (Keeps a) (execSysWrite slot lane buf s) := by
  unfold Machine.execSysWrite
  extract_lets need
  refine Keeps.serve h fun x t kt => ?_
  split
  · dsimp only
    exact kt
  · split
    · dsimp only
      exact kt
    · split
      · dsimp only
        exact kt
      · split
        · dsimp only
          exact kt.effect
        · dsimp only
          exact kt
theorem Keeps.execSysFsize {slot lane : ℕ} (h : Keeps a s) : OnOut (Keeps a) (execSysFsize slot lane s) := by
  unfold Machine.execSysFsize
  refine Keeps.serve h fun x t kt => ?_
  split
  · dsimp only
    exact kt
  · dsimp only
    exact kt
theorem Keeps.execSysSocksend {slot lane : ℕ} {count buf : ℕ} (h : Keeps a s) : OnOut (Keeps a)
    (execSysSocksend slot lane count buf s) := by
  unfold Machine.execSysSocksend
  extract_lets need
  refine Keeps.serve h fun x t kt => ?_
  extract_lets n
  split
  · exact kt.openStatus
  · split
    · dsimp only
      exact kt
    · split
      · dsimp only
        exact kt.effect
      · dsimp only
        exact kt
theorem Keeps.sockDrop {n k : ℕ} (h : Keeps a s) : Keeps a (s.sockDrop n k) := by
  unfold State.sockDrop
  extract_lets cut
  exact ⟨h.lasting⟩
theorem Keeps.execSysSockrecv {slot lane : ℕ} {count buf : ℕ} (h : Keeps a s) : OnOut (Keeps a)
    (execSysSockrecv slot lane count buf s) := by
  unfold Machine.execSysSockrecv
  extract_lets need
  refine Keeps.serve h fun x t kt => ?_
  extract_lets bs
  split
  · exact kt.openStatus
  · split
    · split
      · dsimp only
        exact kt.shardStore.sourcePa.sockDrop
      · dsimp only
        exact kt
    · split
      next t1 t2 found =>
        have kt2 : Keeps a t2 := .got found kt.callStore
        dsimp only
        exact kt2.sockDrop
      next t1 found =>
        dsimp only
        exact kt
theorem Keeps.execSysQcreate {slot lane : ℕ} {qnum page : ℕ} (h : Keeps a s) : OnOut (Keeps a) (execSysQcreate slot lane qnum page s) := by
  unfold Machine.execSysQcreate
  split
  · exact h
  · refine Keeps.serve h fun x t kt => ?_
    split
    · split
      · exact kt.openStatus
      · extract_lets q
        dsimp only
        exact ⟨kt.lasting⟩
    · dsimp only
      exact kt
theorem Keeps.qintr {q : Option Queue} {asn : ℕ} {addr : DWord} (h : Keeps a s) : Keeps a (s.qintr q asn addr).2 := by
  unfold State.qintr
  split
  · dsimp only
    exact h
  · split
    · dsimp only
      exact h.modQueue
    · split
      · split
        · dsimp only
          exact h.modQueue
        · dsimp only
          exact h
      · dsimp only
        exact h
theorem Keeps.execSysQintr {slot lane : ℕ} (h : Keeps a s) : OnOut (Keeps a) (execSysQintr slot lane s) := by
  unfold Machine.execSysQintr
  refine Keeps.serve h fun x t kt => ?_
  exact kt.qintr
theorem Keeps.qgrant {q : Option Queue} {asn mode : ℕ} (h : Keeps a s) : Keeps a (s.qgrant q asn mode).2 := by
  unfold State.qgrant
  split
  · dsimp only
    exact h
  · extract_lets rest
    split
    · dsimp only
      exact h.modQueue
    · split
      · dsimp only
        exact h.modQueue
      · dsimp only
        exact h
theorem Keeps.execSysQgrant {slot lane : ℕ} (h : Keeps a s) : OnOut (Keeps a) (execSysQgrant slot lane s) := by
  unfold Machine.execSysQgrant
  refine Keeps.serve h fun x t kt => ?_
  exact kt.qgrant
theorem Keeps.execSysWinreg {slot lane entry : ℕ} (h : Keeps a s) : OnOut (Keeps a) (execSysWinreg slot lane entry s) := by
  unfold Machine.execSysWinreg
  split
  · exact h
  · refine Keeps.serve h fun x t kt => ?_
    extract_lets port step note put
    split
    · dsimp only
      exact kt
    · split
      · dsimp only
        exact kt
      · split
        · split
          · dsimp only
            exact kt
          · unfold put
            dsimp only
            exact kt.modSheet
        · split
          · dsimp only
            exact kt
          · unfold put
            dsimp only
            exact kt.modSheet
theorem Keeps.execSysWinfree {slot lane : ℕ} (h : Keeps a s) : OnOut (Keeps a) (execSysWinfree slot lane s) := by
  unfold Machine.execSysWinfree
  refine Keeps.serve h fun x t kt => ?_
  extract_lets e
  split
  · dsimp only
    exact kt.modSheet
  · exact kt.openStatus
theorem Keeps.execSysLoad {slot lane : ℕ} {maps : List MapReq} (h : Keeps a s) : OnOut (Keeps a) (execSysLoad slot lane maps s) := by
  unfold Machine.execSysLoad
  refine Keeps.serve h fun x t kt => ?_
  split
  · dsimp only
    exact kt
  · split
    next t1 x1 t2 found =>
      have kt2 : Keeps a t2 := .snd found kt.load
      split
      next t3 t1 found1 =>
        have kt1 : Keeps a t1 := .got found1 kt2.callStore
        dsimp only
        exact kt1
      next t3 found1 =>
        dsimp only
        exact kt
theorem Keeps.ckptreg {admin : Bool} {base len : ℕ} (h : Keeps a s) : Keeps a (s.ckptreg admin base len).2 := by
  unfold State.ckptreg
  split
  · dsimp only
    exact h
  · split
    · dsimp only
      exact h
    · split
      · dsimp only
        exact h
      · dsimp only
        exact ⟨h.lasting⟩
theorem Keeps.execSysCkptreg {slot lane : ℕ} (h : Keeps a s) : OnOut (Keeps a) (execSysCkptreg slot lane s) := by
  unfold Machine.execSysCkptreg
  refine Keeps.serve h fun x t kt => ?_
  exact kt.ckptreg
theorem Keeps.captreg {q : Option Queue} {base len : ℕ} (h : Keeps a s) : Keeps a (s.captreg q base len).2 := by
  unfold State.captreg
  split
  · dsimp only
    exact h
  · split
    · dsimp only
      exact h
    · extract_lets area
      dsimp only
      exact h.modQueue
theorem Keeps.execSysCaptreg {slot lane : ℕ} (h : Keeps a s) : OnOut (Keeps a) (execSysCaptreg slot lane s) := by
  unfold Machine.execSysCaptreg
  refine Keeps.serve h fun x t kt => ?_
  exact kt.captreg
theorem Keeps.execSysFhold {slot lane : ℕ} (h : Keeps a s) : OnOut (Keeps a) (execSysFhold slot lane s) := by
  unfold Machine.execSysFhold
  refine Keeps.serve h fun x t kt => ?_
  split
  · dsimp only
    exact kt
  · extract_lets rest
    split
    · dsimp only
      exact ⟨kt.lasting⟩
    · split
      · dsimp only
        exact ⟨kt.lasting⟩
      · dsimp only
        exact kt
theorem Keeps.hostServe {asn callno : ℕ} {a'4 : List DWord} {maps : List MapReq} (h : Keeps a s) : Keeps a
    (s.hostServe asn callno a'4 maps).2 := by
  unfold State.hostServe
  extract_lets n admin q
  split
  · exact h.timeset
  · exact h.qintr
  · exact h.qgrant
  · split
    · dsimp only
      exact h
    · split
      next t x t1 found =>
        have kt1 : Keeps a t1 := .snd found h.load
        split
        · dsimp only
          refine foldl_keeps ?_ ?_
          · exact kt1
          · intro t2 x1 kt
            exact kt.shardStore
        · dsimp only
          exact h
  · exact h.ckptreg
  · exact h.captreg
  · dsimp only
    exact h
theorem Keeps.hostCall {asn callno : ℕ} {a'4 : List DWord} {maps : List MapReq} (h : Keeps a s) : Keeps a
    (s.hostCall asn callno a'4 maps) := by
  unfold State.hostCall
  split
  next t x t1 found =>
    have kt1 : Keeps a t1 := .snd found h.hostServe
    exact ⟨kt1.lasting⟩
theorem Keeps.execSysOwnerHandlerCall {slot lane : ℕ} {result : DWord} (h : Keeps a s) : OnOut (Keeps a)
    (execSysOwnerHandlerCall slot lane result s) := by
  unfold Machine.execSysOwnerHandlerCall
  split
  · exact h
  · split
    · exact h
    · refine Keeps.serve h fun x t kt => ?_
      dsimp only
      exact kt

/-! ### Machine/Groups -/

theorem Keeps.forget {gid : ℕ} (h : Keeps a s) : Keeps a (s.forget gid) := by
  unfold State.forget
  exact ⟨h.lasting⟩
theorem Keeps.dropGroup {g : Machine.Group} (h : Keeps a s) : Keeps a (s.dropGroup g) := by
  unfold State.dropGroup
  extract_lets s1
  have ks1 : Keeps a s1 := h.forget.setGrp.parkRegs
  split
  · exact ks1.modCore
  · exact ks1
theorem Keeps.stopGroup {g : Machine.Group} {c : Cause} (h : Keeps a s) : Keeps a (s.stopGroup g c) := by
  unfold State.stopGroup
  extract_lets m fs s1
  have ks1 : Keeps a s1 := h.saveGroup
  split
  · exact ks1.callqPush
  · exact ks1
theorem Keeps.command {sv act : Nat} {w : DWord} {k : Machine.Group → Gctl} (h : Keeps a s) (hk : ∀ g, OnGctl (Keeps a) (k g)) :
    OnOut (Keeps a) (s.command sv act w k) := by
  unfold State.command
  extract_lets set
  split
  · exact h
  · split
    · exact h.svErr
    · split
      · exact h.modSurv
      · split
        · exact h.modSurv
        · next found =>
          refine Keeps.modSurv (.done found ?_)
          split
          · exact hk _
          · trivial
        · exact h.modSurv.modSurv
theorem Keeps.execPreempt {sv : ℕ} {w : DWord} (h : Keeps a s) : OnOut (Keeps a) (execPreempt sv w s) := by
  unfold Machine.execPreempt
  refine Keeps.command h fun x => ?_
  split
  · exact h
  · split
    · trivial
    · split
      · exact h.dropGroup
      · exact h.stopGroup
theorem Keeps.execEvict {sv : ℕ} {w : DWord} (h : Keeps a s) : OnOut (Keeps a) (execEvict sv w s) := by
  unfold Machine.execEvict
  refine Keeps.command h fun x => ?_
  split
  · exact h.stopGroup
  · split
    · exact h.reframe
    · split
      · exact h
      · trivial
theorem Keeps.execHalt {sv : ℕ} {w : DWord} (h : Keeps a s) : OnOut (Keeps a) (execHalt sv w s) := by
  unfold Machine.execHalt
  refine Keeps.command h fun x => ?_
  split
  · exact h
  · split
    · trivial
    · exact h.stopGroup
theorem Keeps.endWaits {gid : ℕ} {m : Mask} (h : Keeps a s) : Keeps a (s.endWaits gid m) := by
  unfold State.endWaits
  exact ⟨h.lasting⟩
theorem Keeps.restoreBy {act : ℕ} {g : Machine.Group} (h : Keeps a s) : OnGctl (Keeps a) (s.restoreBy act g) := by
  unfold State.restoreBy
  split
  · trivial
  · split
    · trivial
    · split
      next t t1 found =>
        have kt1 : Keeps a t1 := .got found h.restoreGroup
        change Keeps a _
        split
        · exact kt1.endWaits
        · exact kt1
      next t found =>
        trivial
theorem Keeps.execResume {sv : ℕ} {w : DWord} (h : Keeps a s) : OnOut (Keeps a) (execResume sv w s) := by
  unfold Machine.execResume
  refine Keeps.command h fun x => ?_
  split
  · trivial
  · split
    · exact h.setGrp
    · split
      · trivial
      · split
        · exact h.restoreBy
        · exact h.setGrp
theorem Keeps.execRetry {sv : ℕ} {w : DWord} (h : Keeps a s) : OnOut (Keeps a) (execRetry sv w s) := by
  unfold Machine.execRetry
  refine Keeps.command h fun x => ?_
  split
  · exact h.restoreBy
  · trivial
theorem Keeps.execNext {sv : ℕ} {w : DWord} (h : Keeps a s) : OnOut (Keeps a) (execNext sv w s) := by
  unfold Machine.execNext
  refine Keeps.command h fun x => ?_
  split
  · exact h.restoreBy
  · trivial
theorem Keeps.execStep {sv : ℕ} {w : DWord} (h : Keeps a s) : OnOut (Keeps a) (execStep sv w s) := by
  unfold Machine.execStep
  refine Keeps.command h fun x => ?_
  split
  · exact h.restoreBy
  · trivial
theorem Keeps.execGctlStat {sv : ℕ} (h : Keeps a s) : OnOut (Keeps a) (execGctlStat sv s) := by
  unfold Machine.execGctlStat
  change Keeps a _
  split
  · exact h
  · exact h.modSurv
theorem Keeps.finishGctl {e : Nat × Surveyor} (h : Keeps a s) : Keeps a (s.finishGctl e) := by
  unfold State.finishGctl
  split
  · exact h
  · extract_lets set
    split
    · exact h.modSurv
    · next g _ =>
      split
      · next t found =>
        refine Keeps.modSurv (.done found ?_)
        split
        · exact h.setGrp
        · split
          · trivial
          · split
            · exact h.setGrp
            · exact h.restoreBy
      · exact h.modSurv
      · exact h
theorem Keeps.finishServed {g : Machine.Group} (h : Keeps a s) : Keeps a (s.finishServed g) := by
  unfold State.finishServed
  split
  · refine OnSome.getD ?_ ?_
    · exact h.restoreGroup
    · exact h
  · exact h
theorem Keeps.finishRestores (h : Keeps a s) : Keeps a (s.finishRestores) := by
  unfold State.finishRestores
  refine foldl_keeps ?_ ?_
  · refine foldl_keeps ?_ ?_
    · exact h
    · intro t x kt
      exact kt.finishGctl
  · intro t x kt
    exact kt.finishServed
theorem Keeps.stopSheet {h'2 : Sheet} (h : Keeps a s) : Keeps a (s.stopSheet h'2) := by
  unfold State.stopSheet
  extract_lets gids tids core surv
  exact ⟨h.lasting⟩
theorem Keeps.restoreSnaps {h'2 : Sheet} (h : Keeps a s) : Keeps a (s.restoreSnaps h'2) := by
  unfold State.restoreSnaps
  extract_lets cores s1 s2
  have ks1 : Keeps a s1 := by
    unfold s1
    refine foldl_keeps ?_ ?_
    · exact h
    · intro t x kt
      exact kt.shardStore
  have ks2 : Keeps a s2 := by
    unfold s2
    refine foldl_keeps ?_ ?_
    · exact ks1
    · intro t x kt
      exact kt.clearMarks
  exact ⟨ks2.lasting⟩
theorem Keeps.closeAll {h'2 : Sheet} (h : Keeps a s) : Keeps a (s.closeAll h'2) := by
  unfold State.closeAll
  extract_lets s1
  have ks1 : Keeps a s1 := by
    unfold s1
    refine foldl_keeps ?_ ?_
    · exact h
    · intro t x kt
      exact kt.freeBlock
  exact ⟨ks1.lasting⟩
theorem Keeps.rollback {h'2 : Sheet} (h : Keeps a s) : Keeps a (s.rollback h'2) := by
  unfold State.rollback
  exact h.restoreSnaps.stopSheet.closeAll
theorem Keeps.execSheetRollback {sheet : ℕ} (h : Keeps a s) : OnOut (Keeps a) (execSheetRollback sheet s) := by
  unfold Machine.execSheetRollback
  split
  · exact h
  · split
    · exact h
    · exact h.rollback.modSheet.recheckTasks
theorem Keeps.execKill {sv : ℕ} {w : DWord} (h : Keeps a s) : OnOut (Keeps a) (execKill sv w s) := by
  unfold Machine.execKill
  refine Keeps.command h fun x => ?_
  split
  · trivial
  · split
    · exact h.rollback.modSheet.recheckTasks
    · trivial
theorem Keeps.evictAll (h : Keeps a s) : Keeps a (s.evictAll) := by
  unfold State.evictAll
  refine foldl_keeps ?_ ?_
  · exact h
  · intro t x kt
    exact kt.stopGroup.modGrp
theorem Keeps.resumeAll (h : Keeps a s) : Keeps a (s.resumeAll) := by
  unfold State.resumeAll
  refine foldl_keeps ?_ ?_
  · exact h
  · intro t x kt
    refine OnSome.getD ?_ ?_
    · exact kt.restoreGroup
    · exact kt
theorem Keeps.chargeFrames (h : Keeps a s) : Keeps a (s.chargeFrames) := by
  unfold State.chargeFrames
  refine foldl_keeps ?_ ?_
  · exact h
  · intro t x kt
    exact kt.chargeMove
theorem Keeps.chargeCopy (h : Keeps a s) : Keeps a (s.chargeCopy) := by
  unfold State.chargeCopy
  refine foldl_keeps ?_ ?_
  · exact h
  · intro t x kt
    exact kt.chargeMove
theorem Keeps.execCheckpoint (h : Keeps a s) : OnOut (Keeps a) (Machine.execCheckpoint s) := by
  unfold Machine.execCheckpoint
  split
  · exact h
  · split
    · exact h
    · split
      · exact ⟨h.chargeFrames.evictAll.lasting⟩
      · split
        · exact h
        · extract_lets s1 t c
          have ks1 : Keeps a s1 := h.chargeCopy
          have kt : Keeps a t := foldl_keeps ks1 fun _ _ ku => ku.flushL1
          exact Keeps.resumeAll ⟨kt.lasting.toPool⟩
theorem Keeps.execCheckpointRestore (h : Keeps a s) : OnOut (Keeps a) (Machine.execCheckpointRestore s) := by
  unfold Machine.execCheckpointRestore
  split
  · exact h
  · extract_lets core surv team sheet s1 t
    have ks1 : Keeps a s1 := foldl_keeps (foldl_keeps h fun _ _ ku => ku.modCore) fun _ _ ku => ku.modSurv
    have kt : Keeps a t := ⟨ks1.lasting.withMemory h.lasting.fromPool⟩
    exact kt.resumeAll
theorem Keeps.execCaptureRerun {queue sheet : ℕ} (h : Keeps a s) : OnOut (Keeps a) (execCaptureRerun queue sheet s) := by
  unfold Machine.execCaptureRerun
  split
  · split
    · exact h
    · extract_lets s1
      have ks1 : Keeps a s1 := by
        unfold s1
        refine foldl_keeps ?_ ?_
        · exact h
        · intro t x kt
          exact kt.shardStore
      exact ks1.modSheet
  · exact h

/-! ### Machine/Wear -/

theorem Keeps.failLane {l : LaneId} (h : Keeps a s) : Keeps a (s.failLane l) := by
  unfold State.failLane
  exact h.modCore
theorem Keeps.divideWear {core wu : ℕ} (h : Keeps a s) : Keeps a (s.divideWear core wu) := by
  unfold State.divideWear
  extract_lets c total all share given s1
  have ks1 : Keeps a s1 := by
    unfold s1
    refine foldl_keeps ?_ ?_
    · exact h
    · intro t x kt
      exact kt.modTeam.modSheet
  exact ks1.modCore
theorem Keeps.chargeWork {core team ck : ℕ} (h : Keeps a s) : Keeps a (s.chargeWork core team ck) := by
  unfold State.chargeWork
  split
  · exact h.modCore
  · exact h
theorem Keeps.wearRow {e : WearEntry} (h : Keeps a s) : Keeps a (s.wearRow e) := by
  unfold State.wearRow
  split
  · extract_lets s1
    have ks1 : Keeps a s1 := h.modCore
    exact ks1.divideWear
  · exact h.modCore
  · exact h.modSurv
theorem Keeps.drainCommands {core : ℕ} (h : Keeps a s) : Keeps a (s.drainCommands core) := by
  unfold State.drainCommands
  extract_lets cmds
  exact ⟨h.lasting⟩
theorem Keeps.moveCore {core : ℕ} (h : Keeps a s) : Keeps a (s.moveCore core) := by
  unfold State.moveCore
  extract_lets c w s1
  have ks1 : Keeps a s1 := h.modCore
  split
  · exact ks1.releaseAt.drainCommands
  · split
    · exact ks1.drainCommands
    · exact ks1
theorem Keeps.ranked (h : Keeps a s) : Keeps a (s.ranked) := by
  unfold State.ranked
  extract_lets on key
  refine foldl_keeps ?_ ?_
  · exact h
  · intro t x kt
    extract_lets r
    exact kt.modCore
theorem Keeps.drainCluster {cl : ℕ} (h : Keeps a s) : Keeps a (s.drainCluster cl) := by
  unfold State.drainCluster
  refine foldl_keeps ?_ ?_
  · exact h
  · intro t x kt
    split
    · exact kt
    · exact kt.modCore.releaseAt.drainCommands
theorem Keeps.handOver {cl : Nat} (h : Keeps a s) : Keeps a (s.handOver cl) := by
  unfold State.handOver
  split
  · exact h.modCluster
  · extract_lets d old v named pass k swap s1 mine others best s2
    have kept (t : State) (dst : Nat) (spare : Bool) (kt : Keeps a t) : Keeps a (pass t dst spare) :=
      have moved : Keeps a ((t.modSurv old Surveyor.quit).modSurv dst (·.takeOver v spare)) := kt.modSurv.modSurv
      ⟨moved.lasting.withRecords (kt.lasting.retireOnce (b := .surv old))⟩
    split
    · have ks1 : Keeps a s1 := Keeps.modDie (foldl_keeps (kept s k true h) fun u i ku => ku.modCore.modCore)
      exact ks1.modCluster.modCluster
    · have ks2 : Keeps a s2 := by
        clear_value best
        unfold s2
        split
        · exact kept s _ false h
        · exact h
      exact ks2.modCluster.modCluster
theorem Keeps.retireCore {core : Nat} (h : Keeps a s) : Keeps a (s.retireCore core) := by
  unfold State.retireCore
  extract_lets cl drained s1 s2
  have kd : Keeps a drained := h.releaseAt.modCore
  have ks1 : Keeps a s1 := kd.retired h
  have ks2 : Keeps a s2 := ks1.drainCluster
  split
  · exact ks2.handOver
  · exact ks2
theorem Keeps.execCoreRetire {core : ℕ} (h : Keeps a s) : OnOut (Keeps a) (execCoreRetire core s) := by
  unfold Machine.execCoreRetire
  split
  · exact h.retireCore
  · exact h
theorem Keeps.moveSurv {k : Nat} (h : Keeps a s) : Keeps a (s.moveSurv k) := by
  unfold State.moveSurv
  extract_lets v w s1
  have ks1 : Keeps a s1 := h.modHart.modSurv
  split
  · have drained : Keeps a (s1.drainCluster (s.clusterAt k)) := ks1.drainCluster
    exact drained.retired ks1
  · exact ks1
theorem Keeps.execWearReport {entries : List WearEntry} {failed : List LaneId} (h : Keeps a s) : OnOut (Keeps a)
    (execWearReport entries failed s) := by
  unfold Machine.execWearReport
  split
  · exact h
  · extract_lets s1 s2 cores survs s3 s4 y
    have ks1 : Keeps a s1 := by
      unfold s1
      refine foldl_keeps ?_ ?_
      · exact h
      · intro t x kt
        exact kt.wearRow
    have ks2 : Keeps a s2 := by
      unfold s2
      refine foldl_keeps ?_ ?_
      · exact ks1
      · intro t x kt
        exact kt.failLane
    have ks3 : Keeps a s3 := ⟨ks2.lasting⟩
    have ks4 : Keeps a s4 := by
      unfold s4
      refine foldl_keeps ?_ ?_
      · refine foldl_keeps ?_ ?_
        · exact ks3
        · intro t x kt
          exact kt.moveCore
      · intro t x kt
        exact kt.moveSurv
    have ky : Keeps a y := ks4.ranked
    exact ⟨ky.lasting⟩
theorem Keeps.execClusterClockStep {cluster : ℕ} (h : Keeps a s) : OnOut (Keeps a) (execClusterClockStep cluster s) := by
  unfold Machine.execClusterClockStep
  split
  · exact h
  · extract_lets s1
    have ks1 : Keeps a s1 := by
      unfold s1
      refine foldl_keeps ?_ ?_
      · exact h
      · intro t x kt
        exact kt.modCore
    exact ks1.modCluster
theorem Keeps.execLanemapRewrite {core : ℕ} (h : Keeps a s) : OnOut (Keeps a) (execLanemapRewrite core s) := by
  unfold Machine.execLanemapRewrite
  split
  · exact h
  · extract_lets gs s1 s2 back
    have ks1 : Keeps a s1 := by
      unfold s1
      refine foldl_keeps ?_ ?_
      · exact h
      · intro t x kt
        split
        · exact kt.dropGroup
        · exact kt.stopGroup
    have ks2 : Keeps a s2 := ks1.modCore
    change Keeps a _
    refine foldl_keeps ?_ ?_
    · exact ks2
    · intro t x kt
      unfold back
      split
      · exact kt
      · split
        · exact kt.setGrp
        · refine OnSome.getD ?_ ?_
          · exact kt.restoreGroup
          · exact kt
theorem Keeps.movePage {page new : Nat} (h : Keeps a s) : Keeps a (s.movePage page new) := by
  unfold State.movePage
  exact Keeps.ticketDone ⟨h.lasting.fold fun _ _ kept => kept.store⟩
theorem Keeps.landMove {m : PageMove} (h : Keeps a s) : Keeps a (s.landMove m) := by
  unfold State.landMove
  extract_lets n lines poison relink copy take t
  refine Keeps.ticketDone ⟨h.lasting.store.fold fun k e kept => ?_⟩
  unfold relink
  split
  · exact kept.store
  · exact kept
theorem Keeps.finishMoves (h : Keeps a s) : Keeps a (s.finishMoves) := by
  unfold State.finishMoves
  refine foldl_keeps ?_ ?_
  · exact h
  · intro t x kt
    split
    · exact kt.landMove
    · exact kt
theorem Keeps.execHbmScrub {page newPage channel : ℕ} (h : Keeps a s) : OnOut (Keeps a) (execHbmScrub page newPage channel s) := by
  unfold Machine.execHbmScrub
  extract_lets p es
  split
  · exact h.movePage
  · split
    · exact Keeps.movePage ⟨h.lasting⟩
    · exact ⟨h.lasting⟩
theorem Keeps.memMoves {page new : ℕ} (h : Keeps a s) : Keeps a (s.memMoves page new) := by
  unfold State.memMoves
  extract_lets p
  split
  · exact h.movePage
  · exact h
theorem Keeps.execBudgetPeriod {cluster : ℕ} (h : Keeps a s) : OnOut (Keeps a) (execBudgetPeriod cluster s) := by
  unfold Machine.execBudgetPeriod
  split
  · exact h
  · extract_lets turn s1
    have ks1 : Keeps a s1 := h.modCluster
    change Keeps a _
    refine foldl_keeps ?_ ?_
    · exact ks1
    · intro t x kt
      exact kt.updGroup
theorem Keeps.execBudgetSpillGrant {gid : ℕ} (h : Keeps a s) : OnOut (Keeps a) (execBudgetSpillGrant gid s) := by
  unfold Machine.execBudgetSpillGrant
  split
  · exact h
  · split
    · exact h.updGroup
    · exact h

/-! ### Machine/Trust -/

theorem Keeps.otp {b : WearBlock} {w : WearState} (h : Keeps a s) : Keeps a (s.otp b w) := by
  unfold State.otp
  split
  · exact ⟨h.lasting.retire⟩
  · exact h
theorem Keeps.bootCore {c : ℕ} (h : Keeps a s) : Keeps a (s.bootCore c) := by
  unfold State.bootCore
  extract_lets b x di li w
  exact h.modCore.otp
theorem Keeps.bootSurv {k : ℕ} (h : Keeps a s) : Keeps a (s.bootSurv k) := by
  unfold State.bootSurv
  extract_lets v di w
  exact h.modHart.modSurv.otp
theorem Keeps.bootRetire {cl : ℕ} (h : Keeps a s) : Keeps a (s.bootRetire cl) := by
  unfold State.bootRetire
  extract_lets dead
  split
  · exact h
  · refine Keeps.handOver ?_
    refine foldl_keeps ?_ ?_
    · exact h
    · intro t x kt
      exact kt.modCore.otp
theorem Keeps.bootQueue {host : Bool} {q : QueueReq} (h : Keeps a s) : Keeps a (s.bootQueue host q) := by
  unfold State.bootQueue
  split
  · exact h
  · exact ⟨h.lasting⟩
theorem Keeps.cleared (h : Keeps a s) : Keeps a s.cleared := ⟨h.lasting.filter⟩
theorem Keeps.boot (h : Keeps a s) : Keeps a s.boot := by
  unfold State.boot
  extract_lets t s1 cls c v r m w q
  have ks1 : Keeps a s1 := ⟨h.lasting.boot⟩
  have kc : Keeps a c := foldl_keeps ks1 fun _ _ ku => ku.bootCore
  have kv : Keeps a v := foldl_keeps kc fun _ _ ku => ku.bootSurv
  have kr : Keeps a r := Keeps.ranked (foldl_keeps kv fun _ _ ku => ku.bootRetire)
  have km : Keeps a m := foldl_keeps ⟨kr.lasting⟩ fun _ _ ku => ku.modCore
  have kw : Keeps a w := foldl_keeps km fun _ _ ku => ku.modCluster
  split
  · exact ⟨ks1.lasting⟩
  · split
    · exact ⟨kw.lasting⟩
    · have kq : Keeps a q := foldl_keeps ⟨kw.lasting⟩ fun _ _ ku => ku.bootQueue
      exact ⟨kq.lasting⟩
theorem Keeps.bootSubmit (h : Keeps a s) : Keeps a (s.bootSubmit) := by
  unfold State.bootSubmit
  split
  · exact h
  · split
    · exact ⟨h.lasting⟩
    · split
      · exact h
      · exact h
      · exact Keeps.answerStore ⟨h.lasting⟩
theorem Keeps.kernelMap {asn : ℕ} {maps : List MapReq} {va : ℕ} {data : List Byte} (h : Keeps a s) : Keeps a
    (s.kernelMap asn maps va data) := by
  unfold State.kernelMap
  split
  · exact h
  · split
    next t found =>
      exact h
    next t t1 found =>
      have kt1 : Keeps a t1 := .got found h.mapServed
      split
      · refine foldl_keeps ?_ ?_
        · exact kt1
        · intro t2 x kt
          exact kt.shardStore
      · exact kt1
theorem Keeps.barRead {queue off len : ℕ} (h : Keeps a s) : Keeps a (s.barRead queue off len) := by
  unfold State.barRead
  split
  · split
    · exact ⟨h.lasting⟩
    · exact h
  · exact h
theorem Keeps.powerLoss (h : Keeps a s) : Keeps a s.powerLoss := ⟨(h.cleared.lasting.withRecords h.lasting).sealed⟩
theorem Keeps.execPowerOnReset (h : Keeps a s) : OnOut (Keeps a) (execPowerOnReset s) := by
  unfold Machine.execPowerOnReset
  change Keeps a _
  extract_lets y
  have ky : Keeps a y := h.powerLoss.boot
  exact ⟨ky.lasting⟩
theorem Keeps.execQuoteRequest {nonce : List Byte} (h : Keeps a s) : OnOut (Keeps a) (execQuoteRequest nonce s) := by
  unfold Machine.execQuoteRequest
  split
  · exact h
  · extract_lets m y
    exact ⟨h.lasting⟩
theorem Keeps.newOwner {t : State} {slots : List (Nat × Nat × Nat)} {n alg key : Nat} (h : Keeps a t) :
    Keeps a { t with trust := { t.trust with slots := slots, epoch := t.trust.epoch + n, ownerAlg := alg, ownerKey := key } } :=
  ⟨h.lasting.newOwner⟩

theorem Keeps.execOwnershipTransfer {alg key : Nat} {sig : List Byte} (h : Keeps a s) :
    OnOut (Keeps a) (Machine.execOwnershipTransfer alg key sig s) := by
  unfold Machine.execOwnershipTransfer
  split
  · exact h
  · split
    · exact ⟨h.lasting⟩
    · extract_lets t ok c
      split
      · exact ⟨h.lasting⟩
      · have kc : Keeps a c := Keeps.cleared ⟨h.lasting⟩
        exact kc.newOwner.boot
theorem Keeps.execSealKeyCreate {slot alg : ℕ} {sig : List Byte} (h : Keeps a s) : OnOut (Keeps a) (execSealKeyCreate slot alg sig s) := by
  unfold Machine.execSealKeyCreate
  extract_lets t
  split
  · exact h
  · exact ⟨h.lasting⟩
theorem Keeps.execSealKeyDestroy {slot : ℕ} {sig : List Byte} (h : Keeps a s) : OnOut (Keeps a) (execSealKeyDestroy slot sig s) := by
  unfold Machine.execSealKeyDestroy
  split
  · exact h
  · exact ⟨h.lasting⟩
theorem Keeps.execThermalTrip {celsius : ℕ} (h : Keeps a s) : OnOut (Keeps a) (execThermalTrip celsius s) := by
  unfold Machine.execThermalTrip
  change Keeps a _
  split
  · exact ⟨h.lasting⟩
  · exact h
theorem Keeps.execThermalResume {celsius : ℕ} (h : Keeps a s) : OnOut (Keeps a) (execThermalResume celsius s) := by
  unfold Machine.execThermalResume
  change Keeps a _
  split
  · exact ⟨h.lasting⟩
  · exact h
theorem Keeps.execCoolantOvertemp {celsius : ℕ} (h : Keeps a s) : OnOut (Keeps a) (execCoolantOvertemp celsius s) := by
  unfold Machine.execCoolantOvertemp
  exact ⟨h.lasting⟩
theorem Keeps.execUndervoltage {on : ℕ} (h : Keeps a s) : OnOut (Keeps a) (execUndervoltage on s) := by
  unfold Machine.execUndervoltage
  change Keeps a _
  split
  · extract_lets y
    have ky : Keeps a y := h.powerLoss
    exact ⟨ky.lasting⟩
  · split
    · extract_lets y
      have ky : Keeps a y := h.powerLoss.boot
      exact ⟨ky.lasting⟩
    · exact h
theorem Keeps.survWrite {sv off : ℕ} {w : DWord} (h : Keeps a s) : Keeps a (s.survWrite sv off w) := by
  unfold State.survWrite
  split
  · exact h.modSurv
  · exact h.soon
  · exact h.modSurv
  · exact h.modSurv
  · exact h.soon
  · exact h.modSurv
  · exact h.modSurv
  · exact h.soon
  · exact h.soon
  · exact h.soon
  · exact h
theorem Keeps.budgetWrite {k reg : ℕ} {w : DWord} (h : Keeps a s) : Keeps a (s.budgetWrite k reg w) := by
  unfold State.budgetWrite
  split
  · exact h
  · exact h.modCluster
theorem Keeps.badAccess {off : ℕ} (h : Keeps a s) : Keeps a (s.badAccess off) := by
  unfold State.badAccess
  split
  · exact h.svErr
  · exact h
theorem Keeps.hubWrite {agent off : ℕ} {w : DWord} (h : Keeps a s) : Keeps a (s.hubWrite agent off w) := by
  unfold State.hubWrite
  split
  · exact h.soon
  · split
    · exact h.soon
    · split
      · exact ⟨h.lasting⟩
      · split
        · exact ⟨h.lasting⟩
        · split
          · split
            · exact h.budgetWrite
            · exact h
          · split
            · exact h.soon
            · split
              · exact h.survWrite
              · exact h
theorem Keeps.compassWrite {agent off : ℕ} {w : DWord} (h : Keeps a s) : Keeps a (s.compassWrite agent off w) := by
  unfold State.compassWrite
  split
  · exact h.survWrite
  · exact h
theorem Keeps.busWrite {agent pa : ℕ} {bs : List Byte} (h : Keeps a s) : OnSome (Keeps a) (s.busWrite agent pa bs) := by
  unfold State.busWrite
  split
  · extract_lets off
    refine .some ?_
    split
    · exact h.hubWrite
    · exact h.badAccess
  · split
    · exact .some h.shardStore
    · exact .none
theorem Keeps.execRegisterWrite {agent addr : ℕ} {w : DWord} (h : Keeps a s) : OnOut (Keeps a) (execRegisterWrite agent addr w s) := by
  unfold Machine.execRegisterWrite
  split
  · exact h
  · split
    · change Keeps a _
      split
      · exact h.csrWrite
      · exact h.compassWrite
    · split
      next t t1 found =>
        have kt1 : Keeps a t1 := .got found h.busWrite
        exact kt1
      next t found =>
        exact h.modHart
theorem Keeps.execUncorrectableError {place : BadPlace} (h : Keeps a s) : OnOut (Keeps a) (execUncorrectableError place s) := by
  unfold Machine.execUncorrectableError
  change Keeps a _
  split
  · exact ⟨h.lasting⟩
  · exact h.modGrp
  · exact h.modGrp
  · exact h.modCore
  · exact h.modCore
  · exact h.modCore
  · exact h.modTeam
theorem Keeps.execHostCxlMemAccess {port pa : ℕ} {len write : ℕ} {data : List Byte} (h : Keeps a s) : OnOut (Keeps a)
    (execHostCxlMemAccess port pa len write data s) := by
  unfold Machine.execHostCxlMemAccess
  split
  · exact h
  · change Keeps a _
    split
    · exact ⟨h.lasting⟩
    · exact h.shardStore
theorem Keeps.execRecoveryImageWrite {stage copy : ℕ} {image : Image} (h : Keeps a s) : OnOut (Keeps a)
    (execRecoveryImageWrite stage copy image s) := by
  unfold Machine.execRecoveryImageWrite
  extract_lets t
  split
  · exact h
  · split
    · exact ⟨h.lasting⟩
    · exact ⟨h.lasting⟩
theorem Keeps.execHostAppears {port : ℕ} {queues : List QueueReq} (h : Keeps a s) : OnOut (Keeps a) (execHostAppears port queues s) := by
  unfold Machine.execHostAppears
  split
  · exact h
  · change Keeps a _
    refine foldl_keeps ?_ ?_
    · exact h
    · intro t x kt
      exact kt.bootQueue

/-! ### Machine/Dispatch -/

theorem Keeps.exec {i : Instr} (h : Keeps a s) : OnOut (Keeps a) (exec i s) := by
  unfold Machine.exec
  split
  · exact h.execBra
  · exact h.execBri
  · exact h.execCall
  · exact h.execCalli
  · exact h.execRet
  · exact h.execRcv
  · exact h.execExit
  · exact h.execWaypt
  · exact h.execTbar
  · exact h.execSpawn
  · exact h.execBinfl
  · exact h.execYield
  · exact h.execNap
  · exact h.execElect
  · exact h.execIadd
  · exact h.execIsub
  · exact h.execIaddc
  · exact h.execImul
  · exact h.execImulh
  · exact h.execImad
  · exact h.execImadw
  · exact h.execIdiv
  · exact h.execIrem
  · exact h.execIshl
  · exact h.execIshr
  · exact h.execIsra
  · exact h.execIrot
  · exact h.execLogic
  · exact h.execBfx
  · exact h.execBfi
  · exact h.execPopc
  · exact h.execClz
  · exact h.execCtz
  · exact h.execBrev
  · exact h.execImin
  · exact h.execImax
  · exact h.execIabs
  · exact h.execIcmp
  · exact h.execDot4
  · exact h.execDot8
  · exact h.execMov
  · exact h.execMovi
  · exact h.execMovs
  · exact h.execSel
  · exact h.execPlog
  · exact h.execPmov
  · exact h.execFadd
  · exact h.execFsub
  · exact h.execFmul
  · exact h.execFma
  · exact h.execFmin
  · exact h.execFmax
  · exact h.execFcmp
  · exact h.execFclass
  · exact h.execFrcp
  · exact h.execFrsq
  · exact h.execFsqrt
  · exact h.execFdiv
  · exact h.execFexp2
  · exact h.execFlog2
  · exact h.execFsin
  · exact h.execFcos
  · exact h.execHadd2
  · exact h.execHmul2
  · exact h.execHfma2
  · exact h.execDadd
  · exact h.execDmul
  · exact h.execDfma
  · exact h.execCvt
  · exact h.execPack
  · exact h.execUnpack
  · exact h.execShfl
  · exact h.execLred
  · exact h.execLscan
  · exact h.execVote
  · exact h.execBallot
  · exact h.execBcast
  · exact h.execLd
  · exact h.execSt
  · exact h.execLdro
  · exact h.execRosync
  · exact h.execAtom
  · exact h.execCas
  · exact h.execFence
  · exact h.execPref
  · exact h.execPut
  · exact h.execPuts
  · exact h.execWinwait
  · exact h.execWinrd
  · exact h.execXqry
  · exact h.execSld
  · exact h.execSst
  · exact h.execSatom
  · exact h.execCstart
  · exact h.execStage
  · exact h.execCwait
  · exact h.execCtest
  · exact h.execCpy
  · exact h.execSend
  · exact h.execSendx
  · exact h.execRecv
  · exact h.execRpeek
  · exact h.execPatarm
  · exact h.execPatdis
  · exact h.execPstat
  · exact h.execTld
  · exact h.execTst
  · exact h.execTzero
  · exact h.execCzero
  · exact h.execMma
  · exact h.execMmake4m3
  · exact h.execMmake5m2
  · exact h.execMmake3m2
  · exact h.execMmake2m3
  · exact h.execMmake2m1
  · exact h.execMmacb
  · exact h.execCbload
  · exact h.execQnt
  · exact h.execDqnt
  · exact h.execCrd
  · exact h.execCwr
  · exact h.execMopen
  · exact h.execMclose
  · exact h.execMwait
  · exact h.execTask
  · exact h.execSheet
  · exact h.execQnote
  · exact h.execSys
  · exact h.execSysa
  · exact h.execSysw
  · exact h.execTrap
  · exact h.execBkpt
  · exact h.execFchk
  · exact h.execWearrd
  · exact h.execBudrd
  · exact h.execSeal
  · exact h.execSealx
  · exact h.execPickerPassedOverLimit
  · exact h.execBinTimerExpiry
  · exact h.execNapExpiry
  · exact h.execBarrierRelease
  · exact h.execGroupUnpark
  · exact h.execParkStarvationTimeout
  · exact h.execGroupContextFree
  · exact h.execTeamScratchReturn
  · exact h.execHoldershipGrant
  · exact h.execBatchComplete
  · exact h.execEngineChunkReady
  · exact h.execChunkWaitResume
  · exact h.execStageRoundLimitResume
  · exact h.execMulticastRoundStart
  · exact h.execChunkLand
  · exact h.execWritebackChunkDrain
  · exact h.execEnginePageFault
  · exact h.execPortMessageArrival
  · exact h.execHeldMessageEnter
  · exact h.execBlockedSendEnter
  · exact h.execSpawnLimitResume
  · exact h.execRequestEntryGrant
  · exact h.execMemoryResponseReturn
  · exact h.execMarkedLineEvict
  · exact h.execCxlBackInvalidate
  · exact h.execWalkComplete
  · exact h.execWalkGrant
  · exact h.execPageFaultReply
  · exact h.execGenerationAdvance
  · exact h.execXgenTicket
  · exact h.execXgenInval
  · exact h.execXgenDone
  · exact h.execPutArrival
  · exact h.execPutAckReceipt
  · exact h.execWinwaitSatisfied
  · exact h.execFlitReceive
  · exact h.execFlitRetryRequest
  · exact h.execFabricLaneSpare
  · exact h.execFabricLinkDown
  · exact h.execHostSubmit
  · exact h.execWake
  · exact h.execSheetStart
  · exact h.execTaskDispatch
  · exact h.execTeamPlacement
  · exact h.execGangPlacement
  · exact h.execAgeingStep
  · exact h.execGangReservation
  · exact h.execBalancerTick
  · exact h.execMigration
  · exact h.execForwardingEntryRemove
  · exact h.execSheetRetire
  · exact h.execTaskCompletion
  · exact h.execQueueUnmap
  · exact h.execQueueRemap
  · exact h.execSealJobStart
  · exact h.execCallqAppend
  · exact h.execCallqPop
  · exact h.execReplyPost
  · exact h.execMboxTxAux
  · exact h.execMboxDelivery
  · exact h.execMboxRxPop
  · exact h.execCallCopyIn
  · exact h.execCallCopyOut
  · exact h.execCallCopyDone
  · exact h.execCcopyStat
  · exact h.execSverr
  · exact h.execSvTimerExpiry
  · exact h.execNvmeDoorbell
  · exact h.execNvmeCompletion
  · exact h.execEthRx
  · exact h.execUtcNtpSet
  · exact h.execSysTime
  · exact h.execSysTimeset
  · exact h.execSysAlloc
  · exact h.execSysFree
  · exact h.execSysOpen
  · exact h.execSysClose
  · exact h.execSysRead
  · exact h.execSysWrite
  · exact h.execSysFsize
  · exact h.execSysSocksend
  · exact h.execSysSockrecv
  · exact h.execSysQcreate
  · exact h.execSysQintr
  · exact h.execSysQgrant
  · exact h.execSysWinreg
  · exact h.execSysWinfree
  · exact h.execSysLoad
  · exact h.execSysCkptreg
  · exact h.execSysCaptreg
  · exact h.execSysFhold
  · exact h.execSysOwnerHandlerCall
  · exact h.execCallPass
  · exact h.execPreempt
  · exact h.execEvict
  · exact h.execResume
  · exact h.execRetry
  · exact h.execNext
  · exact h.execStep
  · exact h.execKill
  · exact h.execHalt
  · exact h.execGctlStat
  · exact h.execSheetRollback
  · exact h.execCheckpoint
  · exact h.execCheckpointRestore
  · exact h.execCaptureRerun
  · exact h.execWearReport
  · exact h.execClusterClockStep
  · exact h.execLanemapRewrite
  · exact h.execCoreRetire
  · exact h.execHbmScrub
  · exact h.execBudgetPeriod
  · exact h.execBudgetSpillGrant
  · exact h.execPowerOnReset
  · exact h.execQuoteRequest
  · exact h.execOwnershipTransfer
  · exact h.execSealKeyCreate
  · exact h.execSealKeyDestroy
  · exact h.execThermalTrip
  · exact h.execThermalResume
  · exact h.execCoolantOvertemp
  · exact h.execUndervoltage
  · exact h.execRegisterWrite
  · exact h.execUncorrectableError
  · exact h.execHostCxlMemAccess
  · exact h.execRecoveryImageWrite
  · exact h.execHostAppears

/-! ### Machine/Riscv -/

theorem Keeps.Out.orElse {o : Out} (h : Keeps a s) (ho : OnOut (Keeps a) o) : Keeps a (Machine.Out.orElse s o) := by
  unfold Machine.Out.orElse
  split
  · exact ho
  · exact h
theorem Keeps.hubReadBy {agent off n : ℕ} (h : Keeps a s) : Keeps a (s.hubReadBy agent off n).2 := by
  unfold State.hubReadBy
  split
  · dsimp only
    exact h.badAccess
  · split
    · dsimp only
      exact h
    · extract_lets w r
      split
      · dsimp only
        refine Keeps.Out.orElse h ?_
        exact h.execXgenTicket
      · split
        · dsimp only
          exact h
        · split
          · dsimp only
            refine Keeps.Out.orElse h ?_
            exact h.execCallqPop
          · split
            · dsimp only
              refine Keeps.Out.orElse h ?_
              exact h.execCcopyStat
            · split
              · dsimp only
                refine Keeps.Out.orElse h ?_
                exact h.execGctlStat
              · split
                · dsimp only
                  refine Keeps.Out.orElse h ?_
                  exact h.execMboxRxPop
                · dsimp only
                  exact h
theorem Keeps.busRead {agent pa n : ℕ} (h : Keeps a s) : OnSome (fun p => Keeps a p.2) (s.busRead agent pa n) := by
  unfold State.busRead
  split
  · exact .some h.hubReadBy
  · split
    · refine .some ?_
      dsimp only
      exact h
    · exact .none
theorem Keeps.dataTrap {k cause va : ℕ} (h : Keeps a s) : Keeps a (s.dataTrap k cause va) := by
  unfold State.dataTrap
  exact h.modHart
theorem Keeps.hartEnd {k rd : ℕ} {v npc : DWord} (h : Keeps a s) : Keeps a (s.hartEnd k rd v npc) := by
  unfold State.hartEnd
  exact h.modHart
theorem Keeps.hartLoad {k va n : Nat} (h : Keeps a s) : OnOk (fun p => Keeps a p.2) (s.hartLoad k va n) := by
  unfold State.hartLoad
  split
  · trivial
  · extract_lets p t u
    have kt : Keeps a t := by
      unfold t
      split
      · exact h.survFill
      · exact h
    have ku : Keeps a u := kt.svCharge
    split
    · split
      · next r found => exact ku.busRead r found
      · trivial
    · split
      · exact ku
      · trivial
theorem Keeps.hartStore {k va : ℕ} {bs : List Byte} (h : Keeps a s) : OnOk (Keeps a) (s.hartStore k va bs) := by
  unfold State.hartStore
  split
  · trivial
  · extract_lets p t
    have kt : Keeps a t := by
      unfold t
      refine Keeps.svCharge ?_
      split
      · exact h.survFill
      · exact h
    split
    · split
      next t1 t2 found =>
        have kt2 : Keeps a t2 := .got found kt.busWrite
        exact kt2
      next t1 found =>
        trivial
    · split
      · change Keeps a _
        refine foldl_keeps ?_ ?_
        · exact kt
        · intro t1 x kt1
          exact kt1.shardStore
      · trivial
theorem Keeps.hartAmo {k w : ℕ} {npc : DWord} (h : Keeps a s) : OnSome (Keeps a) (s.hartAmo k w npc) := by
  unfold State.hartAmo
  extract_lets h1 n a1 b f5 rd ext lr t
  have kt : Keeps a t := by
    unfold t
    split
    · exact h.survFill
    · exact h
  split
  · exact .none
  · split
    · exact .some h.modHart
    · split
      · exact .some h.dataTrap
      · extract_lets p old t1 ok u
        have kt1 : Keeps a t1 := kt.svCharge
        have ku : Keeps a u := by
          unfold u
          split
          · exact kt1.shardStore
          · exact kt1
        split
        · exact .some kt.badAccess.modHart.hartEnd
        · split
          · exact .some h.dataTrap
          · split
            · exact .some kt1.modHart.hartEnd
            · split
              · exact .some ku.modHart.hartEnd
              · refine .map fun x found => ?_
                exact kt1.shardStore.hartEnd
theorem Keeps.hartCsrOp {k w : ℕ} {npc : DWord} (h : Keeps a s) : OnSome (Keeps a) (s.hartCsrOp k w npc) := by
  unfold State.hartCsrOp
  extract_lets h1 f3 n r src writes tvm
  split
  · exact .none
  · refine .map fun x found => ?_
    extract_lets new
    refine Keeps.hartEnd ?_
    split
    · exact h.hartCsrWrite
    · exact h
theorem Keeps.hartSystem {k w : ℕ} {npc : DWord} (h : Keeps a s) : OnSome (Keeps a) (s.hartSystem k w npc) := by
  unfold State.hartSystem
  extract_lets h1 st
  split
  · exact h.hartCsrOp
  · split
    · exact .some h.modHart
    · exact .some h.modHart
    · split
      · exact .some h.modHart
      · exact .none
    · split
      · exact .some h.modHart
      · exact .none
    · split
      · exact .some h.modHart.hartEnd
      · exact .none
    · split
      · exact .some h.hartEnd
      · exact .none
theorem Keeps.hartRun {k w len : Nat} (h : Keeps a s) : OnSome (Keeps a) (s.hartRun k w len) := by
  unfold State.hartRun
  extract_lets hart npc rd f3 x b imm res
  have kept (v : Option DWord) : OnSome (Keeps a) (res v) := .map fun _ _ => h.hartEnd
  split
  · exact kept _
  · exact kept _
  · exact .some h.hartEnd
  · exact .ite (.some h.hartEnd) .none
  · exact .map fun _ _ => h.hartEnd
  · refine .ite .none ?_
    split
    · exact .some h.dataTrap
    · next found =>
      have loaded := h.hartLoad (k := k) (va := (x + sxN 12 imm).toNat) (n := 2 ^ (f3 % 4))
      rw [found] at loaded
      exact .some (Keeps.hartEnd loaded)
  · refine .ite .none ?_
    split
    · exact .some h.dataTrap
    · next found => exact .some (Keeps.hartEnd (.ok found h.hartStore))
  · exact kept _
  · exact kept _
  · exact kept _
  · exact kept _
  · exact .ite (.some h.hartEnd) .none
  · exact h.hartAmo
  · exact h.hartSystem
  · exact .none
theorem Keeps.hartStep {k : ℕ} (h : Keeps a s) : Keeps a (s.hartStep k) := by
  unfold State.hartStep
  split
  · exact h
  · split
    · exact h.hartInterrupt
    · extract_lets h1 pc mapped c w s1 s_1
      have ks1 : Keeps a s1 := h.svCharge
      have ks_1 : Keeps a s_1 := h.svCharge
      split
      · exact h.modHart
      · split
        · split
          · exact h.modHart
          · refine OnSome.getD ?_ ?_
            · exact ks1.hartRun
            · exact ks1.modHart
        · refine OnSome.getD ?_ ?_
          · refine .bind fun x found => ?_
            exact ks_1.hartRun
          · exact ks_1.modHart

/-! ### Machine/Agenda -/

theorem Keeps.passCore {d core : ℕ} (h : Keeps a s) : Keeps a (State.passCore d s core) := by
  unfold State.passCore
  extract_lets n k
  exact h.tick.modCore
theorem Keeps.passTime {d : ℕ} (h : Keeps a s) : Keeps a (s.passTime d) := by
  unfold State.passTime
  extract_lets s1 y
  have ks1 : Keeps a s1 := ⟨h.lasting⟩
  have ky : Keeps a y := by
    unfold y
    refine foldl_keeps ?_ ?_
    · exact ks1
    · intro t x kt
      exact kt.passCore
  split
  · exact ks1
  · exact ⟨ky.lasting⟩
theorem Keeps.issue {core : Nat} {stale : Bool} (h : Keeps a s) : OnOut (Keeps a) (s.issue core stale) := by
  unfold State.issue
  split
  · exact h
  · next t c found =>
    have kt : Keeps a t := h.beginIssue _ found
    split
    · exact h
    · split
      · exact kt.touch.exec
      · exact kt.fetchFails
theorem Keeps.event {i : Instr} (h : Keeps a s) : OnOut (Keeps a) (s.event i) := by
  unfold State.event
  split
  · exact h
  · exact h.exec
theorem Keeps.runItem {x : Item} (h : Keeps a s) : OnOut (Keeps a) (s.runItem x) := by
  unfold State.runItem
  split
  · exact h
  · split
    · exact h.issue
    · exact h.event
    · exact h.passTime
    · exact h.modCore
    · exact h.hartStep
    · change Keeps a _
      split
      · exact h.hostCall
      · exact h
    · exact h.modCore
    · exact h.chargeUnits
    · exact h.chargeWork
    · exact h.memMoves
    · exact ⟨h.lasting⟩
    · exact h.barRead
    · exact h.kernelMap
theorem Keeps.moreEvents (h : Keeps a s) : ∀ o ∈ s.moreEvents, OnOut (Keeps a) o := by
  intro o on
  simp only [State.moreEvents, List.mem_append, List.mem_map, List.mem_singleton] at on
  rcases on with ((((⟨c, -, rfl⟩ | ⟨c, -, rfl⟩) | ⟨g, -, rfl⟩) | ⟨e, -, rfl⟩) | ⟨e, -, rfl⟩) | rfl
  · exact h.execBudgetPeriod
  · exact h.execClusterClockStep
  · exact h.execBudgetSpillGrant
  · exact h.execLanemapRewrite
  · exact h.execCoreRetire
  · exact h.bootSubmit
theorem Keeps.changed {o : Out} (h : OnOut (Keeps a) o) : OnSome (Keeps a) (s.changed o) := by
  cases o with
  | next t => exact .ite .none (.some h)
  | fault => exact .none
  | refused => exact .none
theorem Keeps.dueEvent (h : Keeps a s) : OnSome (Keeps a) s.dueEvent := by
  unfold State.dueEvent
  split
  · next t found =>
    obtain ⟨i, -, due⟩ := List.exists_of_findSome?_eq_some found
    exact .some (Keeps.changed h.exec t due)
  · intro t found
    obtain ⟨o, on, due⟩ := List.exists_of_findSome?_eq_some found
    exact Keeps.changed (h.moreEvents o on) t due
theorem Keeps.idle (h : Keeps a s) : OnOut (Keeps a) (s.idle) := by
  unfold State.idle
  split
  · exact h
  · split
    · exact h.boot
    · split
      next t t1 found =>
        have kt1 : Keeps a t1 := .got found h.dueEvent
        exact kt1
      next t found =>
        split
        · exact Keeps.issue ⟨h.lasting⟩
        · exact h.passTime
theorem Keeps.finish (h : Keeps a s) : Keeps a (s.finish) := by
  unfold State.finish
  exact h.finishMoves.finishRestores.noteSeq
theorem Keeps.Out.finish {o : Out} (h : OnOut (Keeps a) o) : OnOut (Keeps a) o.finish := by
  unfold Machine.Out.finish
  split
  · exact Keeps.finish h
  · trivial
  · trivial

/-! ### Machine/Step -/

theorem Keeps.step (h : Keeps a s) : OnOut (Keeps a) (Machine.step s) := by
  unfold Machine.step
  split
  · exact Keeps.Out.finish h.idle
  · exact Keeps.Out.finish (Keeps.runItem ⟨h.lasting⟩)
/-- A step's next state may follow the state before it. -/
theorem keeps_of_step {s t : State} (next : step s = .next t) : Keeps s t := .next next (Keeps.step (.refl s))

/-- Settles O59: every operation of the model keeps the form of memory, so every step does. -/
theorem everyStepKeepsTheMemoryForm : Obligations.EveryStepKeepsTheMemoryForm :=
  fun _ _ form next => (keeps_of_step next).lasting.form form
/-- Settles O60: no operation lowers the two counts or removes a record of retirement. -/
theorem whatNeverGoesBack : Obligations.WhatNeverGoesBack := fun _ _ next =>
  have lasting := (keeps_of_step next).lasting
  ⟨lasting.sealNext, lasting.epoch, lasting.retired⟩
/-- Settles O58: the reset state lists no byte. -/
theorem memoryFormAtReset : Obligations.MemoryFormAtReset := by
  unfold Obligations.MemoryFormAtReset
  exact wf_nil

end Sys2Proof.Proofs


/-!
The statements about floating-point arithmetic, minima and maxima, comparisons and classes (R153 to R159).
-/
namespace Sys2Proof.Proofs
open Sys2Proof Sys2Proof.Machine Sys2Proof.Laws

/-! ### Arithmetic (R153, R154, R158, R159) -/

/-- An instruction with the operands of R153 that runs `fOp`. -/
theorem fOp_gives {i : Instr} {o : F5} {f : Fmt} {w n : Nat} {u : UnitKind} {x : (Opnd → FVal) → Exact} (wide : w = 1 ∨ w = 2)
    (sig : sigOf i = some (sigF o n u w)) (runs : ∀ s, exec i s = runI i (fOp f w o x) s) : GivesFloat i o f w x :=
  laneOp_gives i o.d w false (fun g L => fRound f (rmF5 o) (x fun a => rdF f w g a L)) _ _ runs wide
    (fun s q performs => dest_fits i s q performs _ sig (dstVS o.d w) (by simp [sigF]) rfl)
    (fun _ _ _ _ _ => ⟨rfl, fun _ => rfl⟩) (fun _ _ _ _ _ => rfl)
/-- An instruction with the operands of R159 that runs `hOp`. -/
theorem hOp_gives {i : Instr} {o : F5} {n : Nat} {x : (Opnd → FVal) → Exact} (sig : sigOf i = some (sigH o n))
    (runs : ∀ s, exec i s = runI i (hOp o x) s) : GivesHalves i o x := by
  unfold GivesHalves
  extract_lets f r
  refine laneOp_gives i o.d 1 false (fun g L => { v := (fRound f (rmF5 o) (x fun a => rdH f 0 g a L)).v |||
    ((fRound f (rmF5 o) (x fun a => rdH f 1 g a L)).v <<< 16), fl := (fRound f (rmF5 o) (x fun a => rdH f 0 g a L)).fl |||
    (fRound f (rmF5 o) (x fun a => rdH f 1 g a L)).fl }) _ _ runs (.inl rfl)
    (fun s q performs => dest_fits i s q performs _ sig (dstVS o.d 1) (by simp [sigH, sigF]) rfl) (fun _ q _ L _ => ?_)
    (fun _ _ _ _ _ => rfl)
  rw [BitVec.or_comm]
  exact ⟨rfl, fun _ => rfl⟩

/-- Settles O7: each word is a lane operation that rounds its exact result once. -/
theorem floatArithmetic : Obligations.FloatArithmetic := by
  have one : (1 : Nat) = 1 ∨ (1 : Nat) = 2 := .inl rfl
  have two : (2 : Nat) = 1 ∨ (2 : Nat) = 2 := .inr rfl
  refine ⟨fun o => ⟨?_, ?_, ?_, ?_, ?_, ?_, ?_, ?_, ?_, ?_, ?_, ?_⟩, fun o => ⟨?_, ?_, ?_, ?_, ?_, ?_⟩⟩
  · exact fOp_gives one rfl fun _ => rfl
  · exact fOp_gives one rfl fun _ => rfl
  · exact fOp_gives one rfl fun _ => rfl
  · exact fOp_gives one rfl fun _ => rfl
  · exact fOp_gives one rfl fun _ => rfl
  · exact fOp_gives one rfl fun _ => rfl
  · exact fOp_gives one rfl fun _ => rfl
  · exact fOp_gives one rfl fun _ => rfl
  · exact fOp_gives one rfl fun _ => rfl
  · exact fOp_gives one rfl fun _ => rfl
  · exact fOp_gives one rfl fun _ => rfl
  · exact fOp_gives one rfl fun _ => rfl
  · exact fOp_gives two rfl fun _ => rfl
  · exact fOp_gives two rfl fun _ => rfl
  · exact fOp_gives two rfl fun _ => rfl
  · exact hOp_gives rfl fun _ => rfl
  · exact hOp_gives rfl fun _ => rfl
  · exact hOp_gives rfl fun _ => rfl

/-! ### Minima, maxima, comparisons, classes (R155 to R157) -/

theorem snanFl_pair (x y : FVal) : snanFl [x, y] = if x.isSnan || y.isSnan then 0b010000#6 else 0#6 := by
  simp only [snanFl, List.any_cons, List.any_nil, Bool.or_false]
  rfl
/-- The flags of a minimum or a maximum. -/
theorem minMaxRes_fl (f : Fmt) (mx : Bool) (x y : FVal) :
    (minMaxRes f mx x y).fl = if x.isSnan || y.isSnan then 0b010000#6 else 0#6 := by
  rw [← snanFl_pair]
  unfold minMaxRes
  extract_lets fl
  split
  · rfl
  · rfl
/-- Of two numbers the one that is chosen; of a number and a NaN the number (R155). -/
theorem minMaxRes_v (f : Fmt) (mx : Bool) (x y : FVal) : (minMaxRes f mx x y).v =
    BitVec.ofNat 64 (if x.isNan && y.isNan then f.canon else (fpRoundV f (if x.isNan then y else if y.isNan ||
      ((fLt x y || (!fLt y x && (x.neg? || !y.neg?))) != mx) then x else y) .rne).bits) := by
  unfold minMaxRes
  cases nx : x.isNan <;> cases ny : y.isNan
  · simp only [fMinLeft, fEq, nx, ny, Bool.and_self, Bool.false_eq_true, if_false, Bool.not_false, Bool.true_and, Bool.false_or]
    cases fLt x y <;> cases fLt y x <;> rfl
  · rfl
  · rfl
  · rfl

/-- A minimum or a maximum puts the chosen operand in its destination. -/
theorem minMax_gives {i : Instr} {o : F5} {mx : Bool} {val : Q → Nat → DWord} {fl : Q → Nat → Flags} (sig : sigOf i = some (sigFmin o))
    (runs : ∀ s, exec i s = runI i (minMaxOp o mx) s)
    (value : ∀ q L, (minMaxRes (selF o) mx (rdF (selF o) (w64 o.mod 0) q.g o.a L) (rdF (selF o) (w64 o.mod 0) q.g o.b L)).v = val q L)
    (flags : ∀ q L, (minMaxRes (selF o) mx (rdF (selF o) (w64 o.mod 0) q.g o.a L) (rdF (selF o) (w64 o.mod 0) q.g o.b L)).fl = fl q L) :
    Gives i o.d (w64 o.mod 0) false (fun _ q L => val q L) fl :=
  laneOp_gives i o.d (w64 o.mod 0) false
    (fun g L => minMaxRes (selF o) mx (rdF (selF o) (w64 o.mod 0) g o.a L) (rdF (selF o) (w64 o.mod 0) g o.b L)) _ _ runs (w64_cases _ _)
    (fun s q performs => dest_fits i s q performs _ sig (dstVS o.d (w64 o.mod 0)) (by simp [sigFmin, sigF]) rfl)
    (fun _ q _ L _ => by rw [value]; exact ⟨rfl, fun _ => rfl⟩) (fun _ q _ L _ => flags q L)

theorem fLt_of_nan {x y : FVal} (unordered : (x.isNan || y.isNan) = true) : fLt x y = false ∧ fLt y x = false := by
  cases x with
  | nan => cases y <;> exact ⟨rfl, rfl⟩
  | inf => cases y with
    | nan => exact ⟨rfl, rfl⟩
    | _ => cases unordered
  | fin => cases y with
    | nan => exact ⟨rfl, rfl⟩
    | _ => cases unordered
theorem fLt_asymm {x y : FVal} (less : fLt x y = true) : fLt y x = false := by
  cases x with
  | nan => cases less
  | inf a => cases y with
    | nan => cases less
    | inf b =>
      simp only [fLt, Bool.and_eq_true, Bool.not_eq_true'] at less
      simp [fLt, less]
    | fin => simpa [fLt] using less
  | fin n m e => cases y with
    | nan => cases less
    | inf b =>
      simp only [fLt, Bool.not_eq_true'] at less
      exact less
    | fin n' m' e' =>
      simp only [fLt, decide_eq_true_eq, decide_eq_false_iff_not] at less ⊢
      rw [min_comm e' e]
      omega
theorem fEq_eq (x y : FVal) : fEq x y = (!(x.isNan || y.isNan) && !fLt x y && !fLt y x) := by rw [fEq, Bool.not_or]
theorem fLe_eq (x y : FVal) : (fLt x y || fEq x y) = (!(x.isNan || y.isNan) && !fLt y x) := by
  rw [fEq_eq]
  cases unordered : x.isNan || y.isNan with
  | true => simp [fLt_of_nan unordered]
  | false => cases less : fLt x y with
    | true => simp [fLt_asymm less]
    | false => rfl
/-- The truth value of each condition (R156). -/
theorem fCmp_value (c : Nat) (x y : FVal) : (fCmp c x y).1 = match c with
    | 0 => !(x.isNan || y.isNan) && !fLt x y && !fLt y x
    | 1 => (x.isNan || y.isNan) || fLt x y || fLt y x
    | 2 => fLt x y
    | 3 => !(x.isNan || y.isNan) && !fLt y x
    | 4 => fLt y x
    | 5 => !(x.isNan || y.isNan) && !fLt x y
    | 6 => x.isNan || y.isNan
    | _ => !(x.isNan || y.isNan) := by
  match c with
  | 0 => exact fEq_eq x y
  | 1 => simp only [fCmp, fEq_eq, Bool.not_and, Bool.not_not]
  | 2 => rfl
  | 3 => exact fLe_eq x y
  | 4 => rfl
  | 5 =>
    have swapped : fEq x y = fEq y x := by simp only [fEq_eq, Bool.or_comm, Bool.and_right_comm]
    rw [Bool.or_comm x.isNan]
    show (fLt y x || fEq x y) = _
    rw [swapped]
    exact fLe_eq y x
  | 6 => rfl
  | c + 7 => rfl
/-- A signalling NaN raises NV, and for the ordering conditions any NaN does (R156). -/
theorem fCmp_flags (c : Nat) (x y : FVal) : (fCmp c x y).2 =
    if (2 ≤ c ∧ c ≤ 5 ∧ (x.isNan || y.isNan) = true) then 0b010000#6 else if x.isSnan || y.isSnan then 0b010000#6 else 0#6 := by
  have quiet (ordered : ¬ (x.isNan || y.isNan) = true) : ¬ (x.isSnan || y.isSnan) = true := by
    cases x <;> cases y <;> simp_all [FVal.isNan, FVal.isSnan]
  have any : (if x.isNan || y.isNan then flNV else flNone) = if (x.isNan || y.isNan) = true then 0b010000#6
      else if x.isSnan || y.isSnan then 0b010000#6 else 0#6 := by
    by_cases unordered : (x.isNan || y.isNan) = true
    · rw [if_pos unordered, if_pos unordered]
      rfl
    · rw [if_neg unordered, if_neg unordered, if_neg (quiet unordered)]
      rfl
  match c with
  | 0 => exact snanFl_pair x y
  | 1 => exact snanFl_pair x y
  | 2 => simpa [fCmp] using any
  | 3 => simpa [fCmp] using any
  | 4 => simpa [fCmp] using any
  | 5 => simpa [fCmp] using any
  | 6 => exact snanFl_pair x y
  | c + 7 =>
    rw [if_neg (by omega)]
    exact snanFl_pair x y

theorem fcmp_gives (o : F5) : GivesBool (.fcmp o) o.d (fun q L => (fcmpAt o q.g L).1) (fun q L => (fcmpAt o q.g L).2) := by
  intro s q performs
  have inside := lowest_width _ _ _ performs
  obtain ⟨t, g, runs, grp, dest, advances, kept, only⟩ := putBool_gives (.fcmp o) (fun q s =>
      .grp s ((q.g.putBool q.pf o.d q.act (((List.range q.g.width).map (fcmpAt o q.g)).map (·.1))).orFlags q.act
        (flagsFor (q.sg.uniform q.g) q.act (((List.range q.g.width).map (fcmpAt o q.g)).map fun r => { v := 0#64, fl := r.2 }))))
    s q performs o.d _ _ rfl (dest_fits _ s q performs (sigFcmp o) rfl (dstPS o.d) (by simp [sigFcmp]) rfl) (by simp)
  refine ⟨t, g, runs, grp, DestBool_congr _ _ _ _ _ (fun L lane => ?_) inside dest, fun L lane => ?_, kept, only⟩
  · simp [lane]
  · have flag : flagsFor (q.sg.uniform q.g) q.act (((List.range q.g.width).map (fcmpAt o q.g)).map fun r => { v := 0#64, fl := r.2 }) L =
        (fcmpAt o q.g (q.laneOf L)).2 := by
      unfold flagsFor Q.laneOf
      split
      · simp [inside]
      · simp [lane]
    have := advances L lane
    dsimp only at this
    rw [flag] at this
    exact this
theorem fclass_gives (o : F5) : Gives (.fclass o) o.d 1 false
    (fun _ q L => BitVec.ofNat 64 (fClass (selF o) (rdFBits (selF o) (w64 o.mod 0) q.g o.a L))) noFlags :=
  laneOp_gives (.fclass o) o.d 1 false (fun g L => { v := BitVec.ofNat 64 (fClass (selF o) (rdFBits (selF o) (w64 o.mod 0) g o.a L)) }) _ _
    (fun _ => rfl) (.inl rfl) (fun s q performs => dest_fits _ s q performs (sigFclass o) rfl (dstVS o.d) (by simp [sigFclass]) rfl)
    (fun _ _ _ _ _ => ⟨rfl, fun _ => rfl⟩) (fun _ _ _ _ _ => rfl)
/-- The bit of each class (R157). -/
theorem fClass_bit (f : Fmt) (x : Nat) : BitVec.ofNat 64 (fClass f x) = match f.decode x with
    | .nan true => 0x100#64
    | .nan false => 0x200#64
    | .inf true => 0x1#64
    | .inf false => 0x80#64
    | .fin n m _ => match m == 0, f.isSub x, n with
      | true, _, true => 0x8#64
      | true, _, false => 0x10#64
      | false, true, true => 0x4#64
      | false, true, false => 0x20#64
      | false, false, true => 0x2#64
      | false, false, false => 0x40#64 := by
  unfold fClass
  cases f.decode x with
  | nan sig => cases sig <;> rfl
  | inf neg => cases neg <;> rfl
  | fin neg m e =>
    dsimp only
    cases m == 0 <;> cases f.isSub x <;> cases neg <;> rfl

/-- Settles O8: minima and maxima by the order of R155, conditions by R156, and the class bit of R157. -/
theorem floatMinMaxCompareClassify : Obligations.FloatMinMaxCompareClassify := by
  intro o f w a b less code nv
  refine ⟨?_, ?_, ?_, ?_⟩
  · refine minMax_gives (i := .fmin o) (mx := false) rfl (fun _ => rfl) (fun q L => ?_) (fun q L => minMaxRes_fl _ _ _ _)
    rw [minMaxRes_v, Bool.bne_false]
  · refine minMax_gives (i := .fmax o) (mx := true) rfl (fun _ => rfl) (fun q L => ?_) (fun q L => minMaxRes_fl _ _ _ _)
    rw [minMaxRes_v, Bool.bne_true]
  · exact (congrArg₂ (GivesBool (.fcmp o) o.d) (funext₂ fun q L => fCmp_value (ivOpx o) (a q L) (b q L))
      (funext₂ fun q L => fCmp_flags (ivOpx o) (a q L) (b q L))).mp (fcmp_gives o)
  · exact (congrArg (Gives (.fclass o) o.d 1 false · noFlags)
      (funext fun _ => funext₂ fun q L => fClass_bit (selF o) (rdFBits (selF o) (w64 o.mod 0) q.g o.a L))).mp (fclass_gives o)

end Sys2Proof.Proofs


/-!
The statements about conversion, packing and unpacking (R161 to R165).
-/
namespace Sys2Proof.Proofs
open Sys2Proof Sys2Proof.Machine Sys2Proof.Laws

/-! ### CVT (R161 to R163) -/

/-- A write of a register and a change of lanes do not meet. -/
theorem put_modLanes (g : Group) (pf : Pfx) (d : Opnd) (w : Nat) (signed : Bool) (m k : Mask) (f : Nat → Lane → Lane) (vals : List DWord) :
    (g.modLanes k f).put pf d w signed m vals = (g.put pf d w signed m vals).modLanes k f := by
  cases d with
  | v n =>
    unfold Group.put Group.writeV
    dsimp only
    cases pf.nwb with
    | true => rfl
    | false => cases w == 2 with
      | true => rfl
      | false => rfl
  | s n =>
    unfold Group.put Group.writeS
    dsimp only
    cases pf.nwb with
    | true => rfl
    | false => rfl
  | _ => rfl
/-- The group whose lanes that execute have drawn, under stochastic rounding (R163). -/
def drawn (draws : Bool) (m : Mask) (g : Group) : Group :=
  if draws then g.modLanes m fun L l => { l with sr := srDraw (g.lane L).sr } else g
theorem put_drawn (draws : Bool) (m k : Mask) (g : Group) (pf : Pfx) (d : Opnd) (w : Nat) (signed : Bool) (vals : List DWord) :
    ∃ lanes, (drawn draws k g).put pf d w signed m vals = { g.put pf d w signed m vals with lanes } ∧ lanes.length = g.lanes.length ∧
      ∀ L, L < g.lanes.length → lanes.getD L {} =
        { g.lane L with sr := if k.getLsbD L = true ∧ draws = true then srDraw (g.lane L).sr else (g.lane L).sr } := by
  cases draws with
  | false => exact ⟨g.lanes, by rw [drawn, if_neg Bool.false_ne_true, ← put_lanes], rfl, fun L _ => by simp [Group.lane]⟩
  | true =>
    refine ⟨(g.modLanes k fun L l => { l with sr := srDraw (g.lane L).sr }).lanes, ?_, by simp, fun L inside => ?_⟩
    · rw [drawn, if_pos rfl, put_modLanes, Group.modLanes, put_lanes]
      rfl
    · have := lane_modLanes g k (fun L l => { l with sr := srDraw (g.lane L).sr }) L inside
      rw [Group.lane] at this
      rw [this]
      simp only [and_true]
      split
      · rfl
      · rfl

theorem cvt_gives (o : F5) (s : State) (q : Q) (performs : Performs (.cvt o) s q) :
    let draw := fun L => srDraw (q.g.lane L).sr
    let r := fun L => cvtRes (cvtSf o) (cvtDf o) (cvtRm o) (cvtSat o) (cvtSrc o q.g L) (draw L).toNat
    ∃ t g, exec (.cvt o) s = .next t ∧ t.grp? q.g.id = some g ∧
      Dest o.d (if cvtWide (cvtDf o) then 2 else 1) (!cvtFloat (cvtDf o) && (cvtInt (cvtDf o)).2) q g (fun L => (r L).v) ∧
      g.preds = q.g.preds ∧
      Advances q g (fun L => if q.act.getLsbD L then (q.g.lane L).fflags ||| (r (q.laneOf L)).fl else (q.g.lane L).fflags)
        (fun L => if q.act.getLsbD L = true ∧ cvtRm o = 4 then draw L else (q.g.lane L).sr) ∧ Kept q g ∧ OnlyGroup s t q := by
  intro draw r
  have inside := lowest_width _ _ _ performs
  have shaped := shaped_lanes _ performs.shaped
  obtain ⟨w, wide, width⟩ : ∃ w, (w = 1 ∨ w = 2) ∧ (if cvtWide (cvtDf o) then 2 else 1) = w := ⟨_, by split <;> simp, rfl⟩
  have fits : DestFits o.d w q.g := dest_fits _ s q performs (sigCvt o) rfl (dstVS o.d w) (by simp [sigCvt, width]) rfl
  obtain ⟨signed, sign⟩ : ∃ signed, (!cvtFloat (cvtDf o) && (cvtInt (cvtDf o)).2) = signed := ⟨_, rfl⟩
  obtain ⟨lanes, put, length, lane⟩ := put_drawn (cvtRm o == 4) q.act q.act q.g q.pf o.d w signed ((List.range q.g.width).map fun L => (r L).v)
  obtain ⟨id, stepping, -, preds', -, batches, calls, st, save, frame⟩ := put_kept q.g q.pf o.d w signed q.act
    ((List.range q.g.width).map fun L => (r L).v)
  have runs : exec (.cvt o) s = runI (.cvt o) (fun q s =>
      let rs := (List.range q.g.width).map fun L =>
        cvtRes (cvtSf o) (cvtDf o) (cvtRm o) (cvtSat o) (cvtSrc o q.g L) (srDraw (q.g.lane L).sr).toNat
      .grp s (((drawn (cvtRm o == 4) q.act q.g).put q.pf o.d (if cvtWide (cvtDf o) then 2 else 1)
        (!cvtFloat (cvtDf o) && (cvtInt (cvtDf o)).2) q.act (rs.map (·.v))).orFlags q.act (flagsFor (q.sg.uniform q.g) q.act rs))) s := by
    show execCvt o s = _
    unfold execCvt drawn
    congr 1
    funext q s
    cases cvtRm o == 4 with
    | true => rfl
    | false => rfl
  have values : ((List.range q.g.width).map fun L => cvtRes (cvtSf o) (cvtDf o) (cvtRm o) (cvtSat o) (cvtSrc o q.g L)
      (srDraw (q.g.lane L).sr).toNat) = (List.range q.g.width).map r := rfl
  have flags (L : Nat) (lane : L < q.g.width) : flagsFor (q.sg.uniform q.g) q.act ((List.range q.g.width).map r) L = (r (q.laneOf L)).fl := by
    unfold flagsFor Q.laneOf
    split
    · rw [range_getD _ _ _ _ inside]
    · rw [range_getD _ _ _ _ lane]
  obtain ⟨t, g, runs', grp, vregs, sregs, preds, advances, kept, only⟩ := group_gives
    (G := ({ q.g.put q.pf o.d w signed q.act ((List.range q.g.width).map fun L => (r L).v) with lanes }).orFlags q.act
      (flagsFor (q.sg.uniform q.g) q.act ((List.range q.g.width).map r)))
    (fl := fun L => if q.act.getLsbD L then (q.g.lane L).fflags ||| (r (q.laneOf L)).fl else (q.g.lane L).fflags)
    (sr := fun L => if q.act.getLsbD L = true ∧ cvtRm o = 4 then draw L else (q.g.lane L).sr)
    performs runs (by dsimp only; rw [values, width, sign, ← put, List.map_map]; rfl) id stepping
    (by simp [Group.orFlags, length]) (fun L lane' => by
      have outside : L < lanes.length := by omega
      rw [lane_orFlags _ _ _ _ outside, Group.lane, lane L (by omega)]
      simp only [beq_iff_eq, flags L lane', draw])
    ⟨batches, calls, st, save, frame⟩
  refine ⟨t, g, runs', grp, ?_, preds.trans preds', advances, kept, only⟩
  have stored := dest_put (q.g.put q.pf o.d w signed q.act ((List.range q.g.width).map fun L => (r L).v)) q o.d w signed _ performs.shaped rfl
    wide fits (by simp)
  rw [width, sign]
  refine dest_of_regs (vregs.trans rfl) (sregs.trans rfl) (Dest_congr _ _ _ _ _ _ _ (fun L lane' => ?_) inside stored)
  rw [range_getD _ _ _ _ lane']
  exact ⟨rfl, fun _ => rfl⟩

/-! ### PACK and UNPACK (R164, R165) -/

/-- A field appended above another adds its value above theirs. -/
theorem toNat_fields (n m : Nat) (x : BitVec n) (y : BitVec m) : (x ++ y).toNat = x.toNat * 2 ^ m + y.toNat := by
  rw [BitVec.toNat_append, ← Nat.shiftLeft_add_eq_or_of_lt y.isLt, Nat.shiftLeft_eq]
theorem toNat_low (x : Word) (n : Nat) : (x.extractLsb' 0 n).toNat = x.toNat % 2 ^ n := by simp
theorem pack_gives (o : F5) : Gives (.pack o) o.d 1 false (fun _ q L =>
    let x := fun (a : Opnd) => bits32 a q.g L
    if o.mod = 0#6 then ((x o.b).extractLsb' 0 16 ++ (x o.a).extractLsb' 0 16).setWidth 64
    else if o.mod = 1#6 then
      ((x o.e).extractLsb' 0 8 ++ (x o.c).extractLsb' 0 8 ++ (x o.b).extractLsb' 0 8 ++ (x o.a).extractLsb' 0 8).setWidth 64
    else ((x o.e).extractLsb' 0 6 ++ (x o.c).extractLsb' 0 6 ++ (x o.b).extractLsb' 0 6 ++ (x o.a).extractLsb' 0 6).setWidth 64) noFlags := by
  refine laneOp_gives _ _ _ _ (fun g L =>
      { v := BitVec.ofNat 64 (packVal o.mod.toNat fun k => (g.rd ([o.a, o.b, o.c, o.e].getD k o.a) 1 L).toNat) }) _ _ (fun s => rfl) (.inl rfl)
    (fun s q performs => dest_fits _ s q performs (sigPack o) rfl (dstVS o.d) (by simp [sigPack]) rfl) (fun s q performs L lane => ?_)
    (fun s q performs L lane => rfl)
  have ok := (formed_sig _ s q performs (sigPack o) rfl).1
  have range : o.mod.toNat < 3 := by
    have : (decide (o.mod.toNat < 3) && o.imm8 == 0#8 && (o.mod != 0#6 || zeroFields [o.c, o.e])) = true := ok
    simp only [Bool.and_eq_true, decide_eq_true_eq] at this
    exact this.1.1
  have below (m : Nat) (f : Nat → Nat) (x : DWord) (eq : packVal m f = x.toNat) :
      lo32 (BitVec.ofNat 64 (packVal m f)) = lo32 x ∧ ((1 : Nat) = 2 → BitVec.ofNat 64 (packVal m f) = x) := by
    rw [eq, BitVec.ofNat_toNat, BitVec.setWidth_eq]
    exact ⟨rfl, fun _ => rfl⟩
  apply below
  simp only [← toNat_bits32]
  obtain mod | mod | mod : o.mod = 0#6 ∨ o.mod = 1#6 ∨ o.mod = 2#6 := by bv_omega
  · rw [if_pos mod, mod, BitVec.toNat_setWidth, toNat_fields, toNat_low, toNat_low]
    show _ % 65536 + 65536 * (_ % 65536) = _
    simp only [List.getD_cons_zero, List.getD_cons_succ]
    omega
  · rw [if_neg (by simp [mod]), if_pos mod, mod, BitVec.toNat_setWidth, toNat_fields, toNat_fields, toNat_fields, toNat_low, toNat_low, toNat_low, toNat_low]
    show _ % 256 + 2 ^ 8 * (_ % 256) + 2 ^ 16 * (_ % 256) + 2 ^ 24 * (_ % 256) = _
    simp only [List.getD_cons_zero, List.getD_cons_succ]
    omega
  · rw [if_neg (by simp [mod]), if_neg (by simp [mod]), mod, BitVec.toNat_setWidth, toNat_fields, toNat_fields, toNat_fields, toNat_low, toNat_low, toNat_low, toNat_low]
    show _ % 64 + 2 ^ 6 * (_ % 64) + 2 ^ 12 * (_ % 64) + 2 ^ 18 * (_ % 64) = _
    simp only [List.getD_cons_zero, List.getD_cons_succ]
    omega

/-- A field read as an integer of its type, in 32 bits: extended as the type is signed (R165). -/
theorem intBits_readInt (w k : Nat) (pos : 0 < w) (signed : Bool) (x : Word) :
    intBits (readInt (x.toNat / 2 ^ k) w signed) 32 =
      if signed then ((x.extractLsb' k w).signExtend 32).setWidth 64 else ((x.extractLsb' k w).setWidth 32).setWidth 64 := by
  rw [readInt_bits _ _ _ pos, intBits_eq _ _ (.inl rfl), ← Nat.shiftRight_eq_div_pow]
  change (BitVec.ofInt 32 (if signed then (x.extractLsb' k w).toInt else ((x.extractLsb' k w).toNat : Int))).setWidth 64 = _
  cases signed with
  | true => rfl
  | false =>
    simp only [Bool.false_eq_true, if_false, BitVec.ofInt_natCast, BitVec.ofNat_toNat]
theorem unpack_mod {o : F5} {s : State} {q : Q} (performs : Performs (.unpack o) s q) : o.mod.toNat < 8 := by
  obtain ⟨ok, -, -⟩ := formed_sig _ s q performs (sigUnpack o) rfl
  simp only [sigUnpack, Bool.and_eq_true] at ok
  obtain ⟨⟨zero, -⟩, -⟩ := ok
  have := congrArg BitVec.toNat (eq_of_beq zero)
  simp only [BitVec.toNat_ushiftRight, Nat.shiftRight_eq_div_pow, BitVec.toNat_ofNat, Nat.zero_mod] at this
  omega
theorem unpack_gives (o : F5) : Gives (.unpack o) o.d 1 (mbit o.mod 2) (fun _ q L =>
    let w := match o.mod.toNat % 4 with
      | 0 => 16
      | 1 => 8
      | 2 => 6
      | _ => 4
    let x := (bits32 o.a q.g L).extractLsb' (w * o.imm8.toNat) w
    if mbit o.mod 2 then (x.signExtend 32).setWidth 64 else (x.setWidth 32).setWidth 64) noFlags := by
  refine laneOp_gives _ _ _ _ (fun g L => unpackVal o.mod.toNat o.imm8.toNat (g.rd o.a 1 L).toNat) _ _ (fun s => rfl) (.inl rfl)
    (fun s q performs => dest_fits _ s q performs (sigUnpack o) rfl (dstVS o.d) (by simp [sigUnpack]) rfl) (fun s q performs L lane => ?_)
    (fun s q performs L lane => rfl)
  have mod := unpack_mod performs
  have signed : decide (4 ≤ o.mod.toNat) = mbit o.mod 2 := by
    rw [mbit, BitVec.getLsbD, Nat.testBit_eq_decide_div_mod_eq, decide_eq_decide]
    omega
  have width : [16, 8, 6, 4].getD (o.mod.toNat % 4) 16 = (match o.mod.toNat % 4 with
      | 0 => 16
      | 1 => 8
      | 2 => 6
      | _ => 4) ∧ 0 < [16, 8, 6, 4].getD (o.mod.toNat % 4) 16 := by
    have : o.mod.toNat % 4 < 4 := Nat.mod_lt _ (by decide)
    generalize o.mod.toNat % 4 = kind at this ⊢
    interval_cases kind
    all_goals exact ⟨rfl, by decide⟩
  rw [unpackVal, signed, ← toNat_bits32]
  dsimp only
  rw [intBits_readInt _ _ width.2, width.1]
  exact ⟨rfl, fun _ => rfl⟩

/-- Settles O9: a conversion is a lane operation on the group whose executing lanes have drawn; the fields of PACK and UNPACK stand where
R164 and R165 put them. -/
theorem convertAndPack : Obligations.ConvertAndPack := ⟨cvt_gives, pack_gives, unpack_gives⟩

end Sys2Proof.Proofs


/-!
The statement about lane-crossing instructions and reductions (R121, R166 to R173).
-/
namespace Sys2Proof.Proofs
open Sys2Proof Sys2Proof.Machine Sys2Proof.Laws

/-! ### SHFL, BCAST, BALLOT, VOTE and ELECT -/

theorem replicate_getD {α : Type} (n : Nat) (x d : α) {L : Nat} (lane : L < n) : (List.replicate n x).getD L d = x := by
  rw [List.getD_eq_getElem?_getD, List.getElem?_replicate, if_pos lane]
  rfl
/-- One value for every lane. -/
theorem spread_gives {i : Instr} {body : Q → State → Res} {s : State} {q : Q} {d : Opnd} {w : Nat} {signed : Bool} {x : DWord}
    (fl : Flags) (performs : Performs i s q) (runs : exec i s = runI i body s)
    (answers : body q s = .grp s ((q.g.put q.pf d w signed q.act (List.replicate q.g.width x)).orFlags q.act fun _ => fl)) (wide : w = 1 ∨ w = 2)
    (fits : DestFits d w q.g) : GivesAt i s q d w signed (fun _ => x) (fun _ => fl) := by
  obtain ⟨t, g, runs', grp, dest, preds, advances, kept, only⟩ := put_gives i body s q performs d w signed _ _ answers wide fits (by simp)
  refine ⟨t, g, runs.trans runs', grp, Dest_congr _ _ _ _ _ _ _ (fun L lane => ?_) (lowest_width _ _ _ performs) dest, preds, advances, kept, only⟩
  rw [replicate_getD _ _ _ lane]
  exact ⟨rfl, fun _ => rfl⟩
/-- One truth value for every lane. -/
theorem spreadBool_gives {i : Instr} {body : Q → State → Res} {s : State} {q : Q} {d : Opnd} {x : Bool} (performs : Performs i s q)
    (runs : exec i s = runI i body s) (answers : body q s = .grp s (q.g.putBool q.pf d q.act (List.replicate q.g.width x)))
    (fits : DestFits d 1 q.g) : GivesBoolAt i s q d (fun _ => x) (fun _ => 0#6) := by
  obtain ⟨t, g, runs', grp, dest, advances, kept, only⟩ := putBool_gives i body s q performs d _ (fun _ => 0#6)
    (by rw [answers, orFlags_none]) fits (by simp)
  refine ⟨t, g, runs.trans runs', grp, DestBool_congr _ _ _ _ _ (fun L lane => ?_) (lowest_width _ _ _ performs) dest, advances, kept, only⟩
  rw [replicate_getD _ _ _ lane]

theorem shfl_gives (o : F5) : Gives (.shfl o) o.d (w64 o.mod 3) false (fun _ q L =>
    let seg := min q.g.width (2 ^ o.imm8.toNat)
    let raw := if o.mod.toNat % 4 = 2 then (bits32 o.b q.g L).toInt else ((bits32 o.b q.g L).toNat : Int)
    let off := if mbit o.mod 2 then relOff q.g.width raw else raw
    match shflFrom (o.mod.toNat % 4) seg L off with
    | some M => q.g.rd o.a (w64 o.mod 3) M
    | none => q.g.rd o.c (w64 o.mod 3) L) noFlags := by
  refine laneOp_gives _ _ _ _ (fun g L =>
      let raw := readInt (g.rd o.b 1 L).toNat 32 (o.mod.toNat % 4 == 2)
      let off := if mbit o.mod 2 then relOff g.width raw else raw
      { v := match shflFrom (o.mod.toNat % 4) (min g.width (2 ^ o.imm8.toNat)) L off with
          | some M => g.rd o.a (w64 o.mod 3) M
          | none => g.rd o.c (w64 o.mod 3) L }) _ _ (fun s => rfl) (w64_cases _ _)
    (fun s q performs => dest_fits _ s q performs (sigShfl o) rfl (dstV o.d (w64 o.mod 3)) (by simp [sigShfl]) rfl)
    (fun s q performs L lane => ?_) (fun s q performs L lane => rfl)
  have raw : readInt (q.g.rd o.b 1 L).toNat 32 (o.mod.toNat % 4 == 2) =
      if o.mod.toNat % 4 = 2 then (bits32 o.b q.g L).toInt else ((bits32 o.b q.g L).toNat : Int) := by
    rw [readInt_bits _ _ _ (by decide), ← toNat_bits32]
    simp only [BitVec.ofNat_toNat, BitVec.setWidth_eq, beq_iff_eq]
  dsimp only
  rw [raw]
  exact ⟨rfl, fun _ => rfl⟩

theorem bcast_gives (o : F5) : Gives (.bcast o) o.d (w64 o.mod 0) false (fun _ q _ =>
    q.g.rd o.a (w64 o.mod 0) ((q.g.rdS o.b).toNat % q.g.width)) noFlags := fun s q performs =>
  spread_gives 0#6 performs (by show execBcast o s = _; unfold execBcast; rfl) (by rw [orFlags_none]) (w64_cases _ _)
    (dest_fits _ s q performs (sigBcast o) rfl (dstVS o.d (w64 o.mod 0)) (by simp [sigBcast]) rfl)

theorem ballot_gives (o : F5) : Gives (.ballot o) o.d 2 false (fun _ q _ =>
    BitVec.ofFnLE fun L => q.act.getLsbD L && (predTrue o.a q.g L != mbit o.mod 0)) noFlags := by
  intro s q performs
  have read (L : Nat) : (q.g.rd o.a 1 L == 1#64) = predTrue o.a q.g L :=
    rd_eq_one performs (sg := sigBallot o) rfl o.a (by simp [sigBallot]) L
  have mask : maskOf q.g.width (fun L => q.act.getLsbD L && (q.g.rd o.a 1 L == 1#64) != mbit o.mod 0) =
      BitVec.ofFnLE fun L => q.act.getLsbD L && (predTrue o.a q.g L != mbit o.mod 0) := by
    apply BitVec.eq_of_getLsbD_eq
    intro L inside
    rw [getLsbD_maskOf _ (shaped_width _ performs.shaped), BitVec.getLsbD_ofFnLE, read]
    cases act : q.act.getLsbD L with
    | true => simp [act_width _ _ _ performs L act, inside, act]
    | false => simp [act]
  show GivesAt _ s q o.d 2 false (fun _ => BitVec.ofFnLE fun L => q.act.getLsbD L && (predTrue o.a q.g L != mbit o.mod 0)) _
  rw [← mask]
  exact spread_gives 0#6 performs (by show execBallot o s = _; unfold execBallot; rfl) (by rw [orFlags_none]) (.inr rfl)
    (dest_fits _ s q performs (sigBallot o) rfl (dstVS o.d 2) (by simp [sigBallot]) rfl)

theorem vote_gives (o : F5) :
    let n := fun (q : Q) => (List.range q.g.width).countP fun L => q.act.getLsbD L && (predTrue o.a q.g L != mbit o.mod 2)
    let a := fun (q : Q) => (List.range q.g.width).countP fun L => q.act.getLsbD L
    (mbit o.mod 3 = true → Gives (.vote o) o.d 2 false (fun _ q _ => BitVec.ofNat 64 (n q)) noFlags) ∧
    (mbit o.mod 3 = false → GivesBool (.vote o) o.d (fun q _ => match o.mod.toNat % 4 with
      | 0 => decide (0 < n q)
      | 1 => decide (n q = a q)
      | 2 => decide (n q = 0 ∨ n q = a q)
      | _ => decide ((q.g.rdS o.b).toNat ≤ n q)) noFlags) := by
  intro n a
  have count {s : State} {q : Q} (performs : Performs (.vote o) s q) :
      ((lanesOf q.g.width q.act).filter fun L => (q.g.rd o.a 1 L == 1#64) != mbit o.mod 2).length = n q := by
    rw [lanesOf, List.filter_filter, ← List.countP_eq_length_filter]
    congr 1
    funext L
    rw [rd_eq_one performs (sg := sigVote o) rfl o.a (by simp [sigVote]), Bool.and_comm]
  refine ⟨fun counts s q performs => ?_, fun tests s q performs => ?_⟩
  · refine spread_gives 0#6 performs (by show execVote o s = _; unfold execVote; rfl)
      (by rw [orFlags_none]; dsimp only; rw [if_pos counts, count performs]) (.inr rfl) ?_
    have fits := dest_fits _ s q performs (sigVote o) rfl (dstPS o.d) (by simp [sigVote]) rfl
    have ok := (formed_sig _ s q performs (sigVote o) rfl).1
    simp only [sigVote, Bool.and_eq_true, counts, Bool.not_true, Bool.false_or, beq_iff_eq] at ok
    obtain ⟨-, -, scalar⟩ := ok
    cases kind : o.d with
    | s r =>
      rw [kind] at fits
      exact fits
    | _ => simp [kind, opndKind] at scalar
  · refine spreadBool_gives performs (by show execVote o s = _; unfold execVote; rfl) ?_ (dest_fits _ s q performs (sigVote o) rfl (dstPS o.d) (by simp [sigVote]) rfl)
    dsimp only
    rw [if_neg (by simp [tests]), count performs]
    have all : (lanesOf q.g.width q.act).length = a q := (List.countP_eq_length_filter ..).symm
    rw [all, voteTest]
    congr 3
    have kind : o.mod.toNat % 4 < 4 := Nat.mod_lt _ (by decide)
    generalize o.mod.toNat % 4 = m at kind ⊢
    obtain rfl | rfl | rfl | rfl : m = 0 ∨ m = 1 ∨ m = 2 ∨ m = 3 := by omega
    · rfl
    · rw [voteRes, Bool.eq_iff_iff, beq_iff_eq]
      exact decide_eq_true_iff.symm
    · rw [voteRes, Bool.eq_iff_iff, Bool.or_eq_true, beq_iff_eq, beq_iff_eq]
      exact decide_eq_true_iff.symm
    · rfl

theorem lowest_min (m : Mask) (L : Nat) (mem : m.getLsbD L = true) : lowest m ≤ L := by
  by_contra below
  unfold lowest at below
  cases found : (List.range 64).find? fun L => m.getLsbD L with
  | none =>
    have := List.find?_eq_none.mp found L (by simpa using BitVec.lt_of_getLsbD mem)
    exact this mem
  | some e =>
    rw [found] at below
    obtain ⟨-, -, least⟩ := List.find?_range_eq_some.mp found
    simpa [mem] using least L (by simpa using below)
theorem highest_max (m : Mask) (L : Nat) (mem : m.getLsbD L = true) : L ≤ highest m := by
  by_contra above
  unfold highest at above
  have inside := BitVec.lt_of_getLsbD mem
  cases found : (List.range 64).reverse.find? fun L => m.getLsbD L with
  | none =>
    have := List.find?_eq_none.mp found L (by simpa using inside)
    exact this mem
  | some e =>
    rw [found] at above
    obtain ⟨-, i, within, rfl, least⟩ := List.find?_eq_some_iff_getElem.mp found
    simp only [List.getElem_reverse, List.getElem_range, List.length_range, Option.getD_some, List.length_reverse] at above within
    have := least (63 - L) (by omega)
    rw [List.getElem_reverse, List.getElem_range, List.length_range, show 64 - 1 - (63 - L) = L by omega, mem] at this
    exact absurd this (by decide)

/-- ORing no flag into lanes changes none. -/
theorem advances_unflagged {q : Q} {g : Group} {sr : Nat → Word}
    (advances : Advances q g (fun L => if q.act.getLsbD L then (q.g.lane L).fflags ||| 0#6 else (q.g.lane L).fflags) sr) :
    Advances q g (fun L => (q.g.lane L).fflags) sr := by
  simpa only [BitVec.or_zero, ite_self] using advances
theorem elect_gives (o : F5) (s : State) (q : Q) (performs : Performs (.elect o) s q) :
    let chosen := fun e => q.act.getLsbD e = true ∧ ∀ L, q.act.getLsbD L = true → if mbit o.mod 0 then L ≤ e else e ≤ L
    ∃ t g e, exec (.elect o) s = .next t ∧ t.grp? q.g.id = some g ∧ chosen e ∧
      (match o.d with
       | .p n => g.vregs = q.g.vregs ∧ g.sregs = q.g.sregs ∧
         ∀ r L, L < q.g.width → g.p r L = if q.sub.getLsbD L = true ∧ r = n.toNat ∧ r < 15 then decide (L = e) else q.g.p r L
       | d => Dest d 2 false q g (fun _ => BitVec.ofNat 64 e) ∧ g.preds = q.g.preds) ∧
      Advances q g (fun L => (q.g.lane L).fflags) (fun L => (q.g.lane L).sr) ∧ Kept q g ∧ OnlyGroup s t q := by
  intro chosen
  obtain ⟨e, lane, choice⟩ : ∃ e, (if mbit o.mod 0 then highest q.act else lowest q.act) = e ∧ chosen e := by
    refine ⟨_, rfl, ?_⟩
    cases mode : mbit o.mod 0 with
    | true => exact ⟨highest_mem _ performs.executes, fun L act => by simpa [mode] using highest_max _ _ act⟩
    | false => exact ⟨lowest_mem _ performs.executes, fun L act => by simpa [mode] using lowest_min _ _ act⟩
  have small : e < 64 := BitVec.lt_of_getLsbD choice.1
  have fits := dest_fits _ s q performs (sigElect o) rfl (dstPS o.d) (by simp [sigElect]) rfl
  cases kind : o.d with
  | p n =>
    obtain ⟨t, g, runs', grp, vregs, sregs, preds, advances, kept, only⟩ := group_gives (G := q.g.setP n.toNat q.sub (1#64 <<< e))
      (fl := fun L => (q.g.lane L).fflags) (sr := fun L => (q.g.lane L).sr)
      performs (by show execElect o s = _; unfold execElect; rfl) (by dsimp only; rw [kind, lane]) rfl rfl rfl (fun L _ => rfl) ⟨rfl, rfl, rfl, rfl, rfl⟩
    refine ⟨t, g, e, runs', grp, choice, ⟨vregs, sregs, fun r L inside => ?_⟩, advances, kept, only⟩
    have few := shaped_width _ performs.shaped
    rw [p_of_preds preds, p_setP _ _ _ _ _ _ (shaped_preds _ performs.shaped) (by omega)]
    rw [BitVec.getLsbD_shiftLeft, BitVec.getLsbD_one]
    have at_ : (decide (L < 64) && !decide (L < e) && decide (0 < 64) && decide (L - e = 0)) = decide (L = e) := by
      rw [Bool.eq_iff_iff]
      simp only [Bool.and_eq_true, decide_eq_true_eq, Bool.not_eq_true', decide_eq_false_iff_not]
      omega
    rw [← at_]
    simp only [Bool.and_assoc]
  | s n =>
    obtain ⟨t, g, runs', grp, dest, preds, advances, kept, only⟩ := spread_gives (d := .s n) (signed := false) 0#6 performs
      (by show execElect o s = _; unfold execElect; rfl) (by dsimp only; rw [orFlags_none, kind, lane]) (.inr rfl) (by simpa [DestFits, kind, dstPS] using fits)
    exact ⟨t, g, e, runs', grp, choice, ⟨dest, preds⟩, advances_unflagged advances, kept, only⟩
  | _ =>
    have ok := (formed_sig _ s q performs (sigElect o) rfl).2.1 (dstPS o.d) (by simp [sigElect])
    simp [Use.ok, dstPS, kind, opndKind] at ok

/-! ### LRED (R168, R169) -/

/-- A destination looks at the lanes that execute alone. -/
theorem dest_congr_act {d : Opnd} {w : Nat} {signed : Bool} {q : Q} {g : Group} {f f' : Nat → DWord} (executes : q.act ≠ 0#64)
    (values : ∀ L, L < q.g.width ∨ L = lowest q.act → q.act.getLsbD L = true → lo32 (f L) = lo32 (f' L) ∧ (w = 2 → f L = f' L))
    (dest : Dest d w signed q g f) : Dest d w signed q g f' := by
  cases d with
  | v n =>
    refine ⟨fun r L inside => ?_, dest.2⟩
    rw [dest.1 r L inside]
    by_cases act : q.act.getLsbD L = true
    · obtain ⟨lo, whole⟩ := values L (.inl inside) act
      by_cases two : w = 2
      · rw [whole two]
      · simp only [lo, two, false_and, and_false, if_false]
    · simp [act]
  | s n =>
    refine ⟨dest.1, fun r => ?_⟩
    obtain ⟨lo, whole⟩ := values _ (.inr rfl) (lowest_mem _ executes)
    rw [dest.2 r]
    by_cases two : w = 2
    · rw [whole two]
    · rw [if_neg two, if_neg two, ext32, ext32, lo]
  | _ => exact dest
theorem givesAt_congr {i : Instr} {s : State} {q : Q} {d : Opnd} {w : Nat} {signed : Bool} {f f' : Nat → DWord} {fl fl' : Nat → Flags}
    (executes : q.act ≠ 0#64) (gives : GivesAt i s q d w signed f fl)
    (values : ∀ L, q.act.getLsbD L = true → lo32 (f L) = lo32 (f' L) ∧ (w = 2 → f L = f' L))
    (flags : ∀ L, q.act.getLsbD L = true → fl L = fl' L) : GivesAt i s q d w signed f' fl' := by
  obtain ⟨t, g, runs, grp, dest, preds, advances, kept, only⟩ := gives
  refine ⟨t, g, runs, grp, dest_congr_act executes (fun L _ => values L) dest, preds, fun L lane => ?_, kept, only⟩
  have own : q.act.getLsbD L = true → fl (q.laneOf L) = fl' (q.laneOf L) := fun act => by
    unfold Q.laneOf
    split
    · exact flags _ (lowest_mem _ executes)
    · exact flags _ act
  obtain ⟨pc, wait, flag, rest⟩ := advances L lane
  refine ⟨pc, wait, flag.trans ?_, rest⟩
  dsimp only
  split
  next act => rw [own act]
  next => rfl

/-- The operand that a lane brings to a reduction, or the identity. -/
def redLeafAt (o : F5) (q : Q) (L : Nat) : LaneRes := if q.act.getLsbD L then redLeaf o q.g L else { v := redId (redOp o) }
def redTreeOf (o : F5) (q : Q) : LaneRes := redTree (redOp o) (redRm o) 6 ((List.range q.g.width).map fun L => (redLeafAt o q L).v)
theorem redW_cases (o : F5) : redW o = 1 ∨ redW o = 2 := by unfold redW; split <;> simp
theorem lred_gives (o : F5) (s : State) (q : Q) (performs : Performs (.lred o) s q) :
    GivesAt (.lred o) s q o.d (redW o) (redOp o == 2 || redOp o == 5) (fun _ => (redTreeOf o q).v)
      (fun _ => (List.range q.g.width).foldl (fun f L => f ||| (redLeafAt o q L).fl) (redTreeOf o q).fl) := by
  refine spread_gives _ performs (by show execLred o s = _; unfold execLred; rfl) ?_ (redW_cases o)
    (dest_fits _ s q performs (sigLred o) rfl (dstVS o.d (redW o)) (by simp [sigLred]) rfl)
  simp only [List.map_map, List.foldl_map]
  rfl

/-- Halving adds the halves: the tree of an operation that is associative, commutative and has an identity is its fold. -/
theorem foldl_zipWith {f : Word → Word → Word} [Std.Associative f] [Std.Commutative f] {e : Word} (identity : ∀ x, f e x = x)
    (xs ys : List Word) (same : xs.length = ys.length) : (List.zipWith f xs ys).foldl f e = f (xs.foldl f e) (ys.foldl f e) := by
  have starts (zs : List Word) (z : Word) : zs.foldl f z = f z (zs.foldl f e) := by
    rw [← List.foldl_assoc (op := f), Std.Commutative.comm (op := f) z e, identity]
  induction xs generalizing ys with
  | nil =>
    cases ys with
    | nil => exact (identity e).symm
    | cons y ys => simp at same
  | cons x xs ih =>
    cases ys with
    | nil => simp at same
    | cons y ys =>
      have := ih ys (by simpa using same)
      simp only [List.zipWith_cons_cons, List.foldl_cons, identity]
      rw [starts _ (f x y), starts xs x, starts ys y, this]
      ac_rfl
theorem redTree_fold {f : Word → Word → Word} [Std.Associative f] [Std.Commutative f] {e : Word} (identity : ∀ x, f e x = x) {op : Nat} {rm : Rm}
    (step : ∀ a b, lo32 (redStep op rm a b).v = f (lo32 a) (lo32 b)) (k j : Nat) (within : j ≤ k) (xs : List DWord) (length : xs.length = 2 ^ j) :
    lo32 (redTree op rm k xs).v = (xs.map lo32).foldl f e := by
  have single (xs : List DWord) (one : xs.length = 1) : lo32 (xs.headD 0#64) = (xs.map lo32).foldl f e := by
    obtain ⟨x, rfl⟩ := List.length_eq_one_iff.mp one
    exact (identity _).symm
  induction k generalizing xs j with
  | zero =>
    obtain rfl : j = 0 := by omega
    exact single xs length
  | succ k ih =>
    cases j with
    | zero =>
      rw [redTree, length]
      exact single xs length
    | succ j =>
      have half : xs.length / 2 = 2 ^ j := by rw [length, Nat.pow_succ]; omega
      have pos : 0 < 2 ^ j := Nat.two_pow_pos j
      have total : xs.length = 2 ^ j + 2 ^ j := by rw [length, Nat.pow_succ]; omega
      rw [redTree, half]
      dsimp only
      rw [if_neg (by simp), ih j (by omega) _ (by simp; omega)]
      have pairs : List.map lo32 (List.map (·.v) (List.map (fun x => match x with | (a, b) => redStep op rm a b)
          ((xs.take (2 ^ j)).zip (xs.drop (2 ^ j))))) = List.zipWith f ((xs.take (2 ^ j)).map lo32) ((xs.drop (2 ^ j)).map lo32) := by
        rw [List.map_map, List.map_map, List.zipWith_map, List.zip, List.map_zipWith]
        simp only [Function.comp_def, step]
      rw [pairs, foldl_zipWith identity _ _ (by simp; omega)]
      conv_rhs => rw [← List.take_append_drop (2 ^ j) xs, List.map_append, List.foldl_append]
      rw [← List.foldl_assoc (op := f), Std.Commutative.comm (op := f) _ e, identity]
theorem redTree_flags {op : Nat} {rm : Rm} (step : ∀ a b, (redStep op rm a b).fl = 0#6) (k : Nat) (xs : List DWord) :
    (redTree op rm k xs).fl = 0#6 := by
  induction k generalizing xs with
  | zero => rfl
  | succ k ih =>
    rw [redTree]
    dsimp only
    split
    · rfl
    · have quiet (l : List (DWord × DWord)) (x : Flags) (none : x = 0#6) :
          (l.map fun x => match x with | (a, b) => redStep op rm a b).foldl (fun f r => f ||| r.fl) x = 0#6 := by
        induction l generalizing x with
        | nil => exact none
        | cons p l rest => exact rest _ (by dsimp only; rw [none, step]; rfl)
      exact quiet _ _ (ih _)

/-- Lanes that bring the identity count for nothing. -/
theorem foldl_leaves {f : Word → Word → Word} {e : Word} (right : ∀ x, f x e = x) (p : Nat → Bool) (x : Nat → Word) (ls : List Nat) (a : Word) :
    (ls.map fun L => if p L then x L else e).foldl f a = ((ls.filter p).map x).foldl f a := by
  induction ls generalizing a with
  | nil => rfl
  | cons L ls ih =>
    cases act : p L with
    | true => simp [act, ih]
    | false => simp [act, ih, right]
theorem width_pow {g : Group} (shaped : g.shaped = true) : ∃ j, j ≤ 6 ∧ g.width = 2 ^ j := by
  have width : g.width = 16 ∨ g.width = 32 ∨ g.width = 64 := by
    simp only [Group.shaped, Bool.and_eq_true] at shaped
    simpa using shaped.1.1.1.1.1.1
  obtain h | h | h := width
  · exact ⟨4, by decide, h⟩
  · exact ⟨5, by decide, h⟩
  · exact ⟨6, by decide, h⟩
theorem lo32_setWidth (x : Word) : lo32 (x.setWidth 64) = x := by
  apply BitVec.eq_of_toNat_eq
  simp only [lo32, BitVec.extractLsb'_toNat, BitVec.toNat_setWidth, Nat.shiftRight_zero]
  omega
/-- R168: of an operation whose tree is a fold, LRED gives the fold over the lanes that execute. -/
theorem lred_fold {o : F5} {f : Word → Word → Word} [Std.Associative f] [Std.Commutative f] (identity : ∀ x, f 0#32 x = x)
    (zero : redId (redOp o) = 0#64) (step : ∀ a b, lo32 (redStep (redOp o) (redRm o) a b).v = f (lo32 a) (lo32 b))
    (quiet : ∀ a b, (redStep (redOp o) (redRm o) a b).fl = 0#6) (leaf : ∀ g L, redLeaf o g L = { v := g.rd o.a 1 L }) (narrow : redW o = 1)
    (unsigned : (redOp o == 2 || redOp o == 5) = false) (s : State) (q : Q) (performs : Performs (.lred o) s q) :
    GivesAt (.lred o) s q o.d 1 false (fun _ => (((lanesOf q.g.width q.act).map fun L => bits32 o.a q.g L).foldl f 0#32).setWidth 64)
      (fun _ => 0#6) := by
  have gives := lred_gives o s q performs
  rw [narrow, unsigned] at gives
  obtain ⟨j, within, width⟩ := width_pow performs.shaped
  refine givesAt_congr performs.executes gives (fun L act => ⟨?_, nofun⟩) (fun L act => ?_)
  · rw [redTreeOf, redTree_fold identity step 6 j within _ (by simp [width]), List.map_map]
    have leaves : ∀ L, (lo32 ∘ fun L => (redLeafAt o q L).v) L = if q.act.getLsbD L then bits32 o.a q.g L else 0#32 := by
      intro L
      simp only [Function.comp, redLeafAt, leaf, zero]
      split
      · rfl
      · rfl
    rw [funext leaves, foldl_leaves (fun x => by rw [Std.Commutative.comm (op := f), identity])]
    rw [lanesOf, lo32_setWidth]
  · have silent : ∀ L, (redLeafAt o q L).fl = 0#6 := by
      intro L
      simp only [redLeafAt, leaf]
      split
      · rfl
      · rfl
    simp [silent, redTreeOf, redTree_flags quiet]
theorem lo32_intBits (x : Int) : lo32 (intBits x 32) = BitVec.ofInt 32 x := by
  rw [intBits_eq _ _ (.inl rfl), lo32_setWidth]
theorem redStep_sum {op : Nat} (sum : op = 0) (rm : Rm) (a b : DWord) :
    lo32 (redStep op rm a b).v = lo32 a + lo32 b ∧ (redStep op rm a b).fl = 0#6 := by
  subst sum
  refine ⟨?_, rfl⟩
  show lo32 (intBits ((lo32 a).toNat + (lo32 b).toNat : Int) 32) = _
  rw [lo32_intBits, ← Nat.cast_add, BitVec.ofInt_natCast, BitVec.ofNat_add, BitVec.ofNat_toNat, BitVec.ofNat_toNat, BitVec.setWidth_eq, BitVec.setWidth_eq]
theorem redStep_xor {op : Nat} (xor : op = 10) (rm : Rm) (a b : DWord) :
    lo32 (redStep op rm a b).v = lo32 a ^^^ lo32 b ∧ (redStep op rm a b).fl = 0#6 := by
  subst xor
  refine ⟨?_, rfl⟩
  exact lo32_setWidth (lo32 a ^^^ lo32 b)
theorem redLeaf_plain {o : F5} (plain : redOp o = 0 ∨ redOp o = 10) (g : Group) (L : Nat) :
    redLeaf o g L = { v := g.rd o.a 1 L } ∧ redSrc o g L = g.rd o.a 1 L ∧ redW o = 1 := by
  obtain op | op := plain
  · simp [redLeaf, redSrc, redNan, redW, op]
  · simp [redLeaf, redSrc, redNan, redW, op]

/-! ### LSCAN (R170) -/

/-- What an executing lane of a 32-bit sum finds: the start and the lanes before it, and itself where the scan is inclusive. -/
theorem scan_sum {rm : Rm} (excl : Bool) (src : Nat → DWord) (act : Mask) {L : Nat} (executes : act.getLsbD L = true) (ls : List Nat)
    (rising : ls.Pairwise (· < ·)) (mem : L ∈ ls) (acc : DWord) :
    let r := getK (scanFrom 0 rm excl src act ls acc) { v := 0#64 } L
    lo32 r.v = lo32 acc + (((ls.filter fun M => act.getLsbD M).filter fun M => decide (M < L) || (M == L && !excl)).map fun M => lo32 (src M)).sum ∧
      r.fl = 0#6 := by
  induction ls generalizing acc with
  | nil => simp at mem
  | cons M ls ih =>
    obtain ⟨later, rising'⟩ := List.pairwise_cons.mp rising
    dsimp only at ih ⊢
    have behind (N : Nat) (mem : N ∈ ls) : M < N := later N mem
    by_cases runs : act.getLsbD M = true
    · have head : scanFrom 0 rm excl src act (M :: ls) acc =
          (M, ⟨if excl then acc else (redStep 0 rm acc (src M)).v, (redStep 0 rm acc (src M)).fl⟩) :: scanFrom 0 rm excl src act ls (redStep 0 rm acc (src M)).v := if_pos runs
      obtain ⟨step, quiet⟩ := redStep_sum rfl rm acc (src M)
      rw [head, List.filter_cons, if_pos runs, List.filter_cons]
      obtain rfl | mem := List.mem_cons.mp mem
      · have none : ((ls.filter fun M => act.getLsbD M).filter fun M => decide (M < L) || (M == L && !excl)) = [] := by
          rw [List.filter_eq_nil_iff]
          intro N inside
          have := behind N (List.mem_of_mem_filter inside)
          simp only [Bool.or_eq_true, decide_eq_true_eq, Bool.and_eq_true, beq_iff_eq]
          omega
        rw [none]
        cases excl with
        | true => simp [getK, quiet]
        | false => simp [getK, quiet, step]
      · have before := behind L mem
        have skip (rs : List (Nat × LaneRes)) (r : LaneRes) : getK ((M, r) :: rs) { v := 0#64 } L = getK rs { v := 0#64 } L := by
          rw [getK, List.find?_cons_of_neg (by simpa using before.ne)]
          rfl
        obtain ⟨value, flag⟩ := ih rising' mem (redStep 0 rm acc (src M)).v
        rw [skip, if_pos (by simp [before])]
        refine ⟨?_, flag⟩
        rw [value, step, List.map_cons, List.sum_cons, BitVec.add_assoc]
    · have skip : scanFrom 0 rm excl src act (M :: ls) acc = scanFrom 0 rm excl src act ls acc := if_neg runs
      obtain rfl | mem := List.mem_cons.mp mem
      · exact absurd executes runs
      · rw [skip, List.filter_cons, if_neg runs]
        exact ih rising' mem acc

/-- A lane operation whose lanes compute with the issue at hand. -/
theorem laneOpAt_gives {i : Instr} {body : Q → State → Res} {s : State} {q : Q} {d : Opnd} {w : Nat} {signed : Bool} (f : Group → Nat → LaneRes)
    (performs : Performs i s q) (runs : exec i s = runI i body s) (answers : body q s = laneOp d w signed f q s) (wide : w = 1 ∨ w = 2)
    (fits : DestFits d w q.g) : GivesAt i s q d w signed (fun L => (f q.g L).v) (fun L => (f q.g L).fl) := by
  have inside := lowest_width _ _ _ performs
  obtain ⟨t, g, runs', grp, dest, preds, advances, kept, only⟩ := put_gives i body s q performs d w signed _ _ answers wide fits (by simp)
  refine ⟨t, g, runs.trans runs', grp, Dest_congr _ _ _ _ _ _ _ (fun L lane => ?_) inside dest, preds, fun L lane => ?_, kept, only⟩
  · rw [List.map_map, range_getD _ _ _ _ lane]
    exact ⟨rfl, fun _ => rfl⟩
  · have flag : flagsFor (q.sg.uniform q.g) q.act ((List.range q.g.width).map (f q.g)) L = (f q.g (q.laneOf L)).fl := by
      unfold flagsFor Q.laneOf
      split
      · rw [range_getD _ _ _ _ inside]
      · rw [range_getD _ _ _ _ lane]
    have := advances L lane
    dsimp only at this
    rw [flag] at this
    exact this
theorem lscan_gives (o : F5) (s : State) (q : Q) (performs : Performs (.lscan o) s q) :
    let at_ := fun L => getK (scanFrom (redOp o) (redRm o) (mbit o.mod 4) (redSrc o q.g) q.act (List.range q.g.width) (redId (redOp o)))
      { v := 0#64 } L
    GivesAt (.lscan o) s q o.d (redW o) false (fun L => (at_ L).v) (fun L => (at_ L).fl) := by
  intro at_
  exact laneOpAt_gives (fun _ => at_) performs (by show execLscan o s = _; unfold execLscan; rfl) (by rfl) (redW_cases o)
    (dest_fits _ s q performs (sigLscan o) rfl (dstV o.d (redW o)) (by simp [sigLscan]) rfl)

/-- Settles O10: the values of other lanes are read from the group before the write; a reduction's tree is a fold wherever its operation is
associative and commutative with an identity, and a scan of sums goes by induction over the lanes. -/
theorem laneCrossingAndReductions : Obligations.LaneCrossingAndReductions := by
  refine ⟨fun o => ⟨shfl_gives o, bcast_gives o, ballot_gives o, vote_gives o, elect_gives o⟩,
    fun o => ⟨lred_gives o, fun s q performs sum => ?_, fun s q performs xor => ?_, lscan_gives o, fun s q performs sum => ?_⟩⟩
  · have gives := lred_fold (o := o) (f := (· + ·)) (fun x => by simp) (by rw [sum]; rfl) (fun a b => (redStep_sum sum _ a b).1)
      (fun a b => (redStep_sum sum _ a b).2) (fun g L => (redLeaf_plain (.inl sum) g L).1) (by simp [redW, sum]) (by rw [sum]; rfl) s q performs
    have fold : ((lanesOf q.g.width q.act).map fun L => bits32 o.a q.g L).sum =
        ((lanesOf q.g.width q.act).map fun L => bits32 o.a q.g L).foldl (· + ·) 0#32 := List.sum_eq_foldl
    rw [fold]
    exact gives
  · exact lred_fold (f := (· ^^^ ·)) (fun x => by simp) (by rw [xor]; rfl) (fun a b => (redStep_xor xor _ a b).1)
      (fun a b => (redStep_xor xor _ a b).2) (fun g L => (redLeaf_plain (.inr xor) g L).1) (by simp [redW, xor]) (by rw [xor]; rfl) s q performs
  · have gives := lscan_gives o s q performs
    dsimp only at gives
    rw [sum, show redW o = 1 by simp [redW, sum]] at gives
    refine givesAt_congr performs.executes gives (fun L act => ?_) (fun L act => ?_)
    all_goals
      obtain ⟨value, flag⟩ := scan_sum (rm := redRm o) (mbit o.mod 4) (redSrc o q.g) q.act act (List.range q.g.width) List.pairwise_lt_range
        (by simpa using act_width _ _ _ performs L act) (redId 0)
    · refine ⟨?_, nofun⟩
      rw [value, lo32_setWidth, show lo32 (redId 0) = 0#32 from rfl, BitVec.zero_add]
      simp only [(redLeaf_plain (.inl sum) _ _).2.1]
      rfl
    · exact flag

end Sys2Proof.Proofs


/-!
The statement about transfers of control (R32, R103 to R105).
-/
namespace Sys2Proof.Proofs
open Sys2Proof Sys2Proof.Machine Sys2Proof.Laws

/-! ### The lanes that a transfer takes (R104) -/

/-- The lanes that a transfer takes, as a mask. -/
def takenMask (k : XferKind) (o : FB) (q : Q) : Mask :=
  if k == .ret then q.act else maskOf q.g.width fun L => q.act.getLsbD L && condHolds o q.g L
/-- Where a lane stands after a transfer whose destinations are all there. -/
def landLane (k : XferKind) (push : Bool) (o : FB) (q : Q) (L : Nat) (l : Lane) : Lane :=
  if (takenMask k o q).getLsbD L then
    { l with pc := (xferDest k o q L).getD 0#64, wait := .none, due := none
             stack := if push then nextPc q.pc :: l.stack else if k == .ret then l.stack.drop 1 else l.stack }
  else { l with pc := nextPc q.pc, wait := .none }
/-- The group after a transfer. -/
def landGroup (k : XferKind) (push join : Bool) (o : FB) (q : Q) : Group :=
  (if join then { q.g with joins := q.g.joins ++ [{ j := directDest o q.pc, m := q.sub }] } else q.g).modLanes q.sub (landLane k push o q)

/-- What the check of one lane's destination and call stack answers (R104). -/
def destOf (s : State) (k : XferKind) (push : Bool) (o : FB) (q : Q) (L : Nat) : DestRes :=
  match (match xferDest k o q L with
    | some d => s.checkDest q.g d
    | none => .ok : DestRes), stackCheck k push q L with
  | .ok, some c => .fault c
  | .marked, some c => .fault c
  | x, _ => x
theorem checkDests_eq (s : State) (k : XferKind) (push : Bool) (o : FB) (q : Q) (ls : List Nat) :
    s.checkDests q ls (xferDest k o q) (stackCheck k push q) =
      (let rs := ls.map fun L => (L, destOf s k push o q L)
       match rs.find? fun e => match e.2 with
         | .ok => false
         | .marked => false
         | _ => true with
       | some (_, .fault c) => .error (.trap c (Mask.ofLanes ((rs.filter fun e => e.2 == .fault c).map (·.1))) 0#64 0 s)
       | some (_, .later) => .error (.wait .walk s)
       | some (_, _) => .error (.pages ((rs.filter fun e => e.2 == .miss).map fun e => (e.1, lineBase ((xferDest k o q e.1).getD 0#64))) s (some 3))
       | none => .ok (Mask.ofLanes ((rs.filter fun e => e.2 == .marked).map (·.1)))) := rfl
theorem checkDests_ok {s : State} {k : XferKind} {push : Bool} {o : FB} {q : Q} {ls : List Nat} (lands : ∀ L ∈ ls, destOf s k push o q L = .ok) :
    s.checkDests q ls (xferDest k o q) (stackCheck k push q) = .ok 0#64 := by
  have all : ls.map (fun L => (L, destOf s k push o q L)) = ls.map fun L => (L, DestRes.ok) :=
    List.map_congr_left fun L mem => by rw [lands L mem]
  rw [checkDests_eq, all]
  have passes : (ls.map fun L => (L, DestRes.ok)).find? (fun e => match e.2 with
      | .ok => false
      | .marked => false
      | _ => true) = none := by simp
  have unmarked : (ls.map fun L => (L, DestRes.ok)).filter (fun e => e.2 == .marked) = [] := by
    simp only [List.filter_eq_nil_iff, List.mem_map]
    rintro e ⟨L, -, rfl⟩
    exact Bool.false_ne_true
  dsimp only
  rw [passes]
  simp only [unmarked]
  rfl
/-- Where the call stacks alone fault, the exception takes exactly the lanes whose stack does. -/
theorem checkDests_fault {s : State} {k : XferKind} {push : Bool} {o : FB} {q : Q} {ls : List Nat} {c : Cause} {p : Nat → Bool}
    (lands : ∀ L ∈ ls, destOf s k push o q L = if p L then .fault c else .ok) (some_ : ∃ L ∈ ls, p L = true) :
    s.checkDests q ls (xferDest k o q) (stackCheck k push q) = .error (.trap c (Mask.ofLanes (ls.filter p)) 0#64 0 s) := by
  have all : ls.map (fun L => (L, destOf s k push o q L)) = ls.map fun L => (L, if p L then DestRes.fault c else .ok) :=
    List.map_congr_left fun L mem => by rw [lands L mem]
  rw [checkDests_eq, all]
  obtain ⟨L, mem, faults⟩ := some_
  obtain ⟨e, first⟩ : ∃ e, (ls.map fun L => (L, if p L then DestRes.fault c else .ok)).find? (fun e => match e.2 with
      | .ok => false
      | .marked => false
      | _ => true) = some e := by
    rw [← Option.isSome_iff_exists, List.find?_isSome]
    exact ⟨(L, .fault c), List.mem_map.mpr ⟨L, mem, by rw [if_pos faults]⟩, rfl⟩
  have fault : e.2 = .fault c := by
    obtain ⟨M, -, rfl⟩ := List.mem_map.mp (List.mem_of_find?_eq_some first)
    have stops := List.find?_some first
    cases full : p M with
    | true => simp
    | false => simp [full] at stops
  have those : ((ls.map fun L => (L, if p L then DestRes.fault c else .ok)).filter (fun e => e.2 == .fault c)).map (·.1) = ls.filter p := by
    rw [List.filter_map, List.map_map]
    have same : ((fun e : Nat × DestRes => e.2 == .fault c) ∘ fun L => (L, if p L then DestRes.fault c else .ok)) = p := by
      funext M
      cases full : p M with
      | true => simp [full]
      | false => simp [full]
    rw [same]
    exact List.map_id _
  obtain ⟨M, r⟩ := e
  obtain rfl : r = .fault c := fault
  dsimp only
  rw [first]
  simp only [those]

/-! ### A transfer that completes -/

theorem xferOp_moves {s : State} {k : XferKind} {push join : Bool} {o : FB} {q : Q}
    (lands : ∀ L ∈ lanesOf q.g.width (takenMask k o q), destOf s k push o q L = .ok) (room : join = true → q.g.joins.length < 16) :
    xferOp k push join o q s =
      .moved ((if push then s.spillStacks q.g (takenMask k o q) else s).setGrp (landGroup k push join o q)) := by
  have checks : s.checkDests q (lanesOf q.g.width (if k == .ret then q.act else maskOf q.g.width fun L => q.act.getLsbD L && condHolds o q.g L))
      (xferDest k o q) (stackCheck k push q) = .ok 0#64 := checkDests_ok lands
  have fits : (join && decide (16 ≤ q.g.joins.length) && q.act != 0#64) = false := by
    cases join with
    | false => rfl
    | true => simp [room rfl]
  have enters : (join && decide (q.g.joins.length < 16)) = join := by
    cases join with
    | false => rfl
    | true => simp [room rfl]
  unfold xferOp landGroup landLane
  dsimp only
  rw [checks]
  dsimp only
  rw [if_neg (by rw [fits]; exact Bool.false_ne_true), enters]
  simp only [BitVec.getLsbD_zero, Bool.false_eq_true, if_false]
  rfl

/-- A meaning that has placed its lanes and left `u` with the group `G`: the state and the group that the issue's end makes of them. -/
theorem moved_gives {i : Instr} {body : Q → State → Res} {s u : State} {q : Q} {G : Group} (performs : Performs i s q)
    (runs : exec i s = runI i body s) (answers : body q s = .moved (u.setGrp G)) (id : G.id = q.g.id) (groups : u.groups = s.groups)
    (stepping : G.stepping = q.g.stepping) :
    ∃ ck n, exec i s = .next (wentState q ck (placedGrp i q ck) (u.setGrp G)) ∧
      (wentState q ck (placedGrp i q ck) (u.setGrp G)).grp? q.g.id = some (wentGroup q ck n (placedGrp i q ck G)) ∧
      OnlyGroup u (wentState q ck (placedGrp i q ck) (u.setGrp G)) q := by
  have present : u.grp? q.g.id = some q.g := by
    rw [← issuing_grp i s q performs.issues]
    unfold State.grp?
    rw [groups]
  have now : (u.setGrp G).grp? q.g.id = some G := by rw [grp_setGrp, ← id, if_pos rfl, id, present]; rfl
  obtain ⟨ck, settles⟩ := settle_moved i q 0 (u.setGrp G) G now (stepping.trans performs.unstepped)
  have frame := wentState_frame q ck (placedGrp i q ck) (u.setGrp G) (placedGrp_id i q ck)
  refine ⟨ck, ((u.setGrp G).core q.core).growth q.g ck, by rw [runs, runI_performs i body s q performs, answers, settles], ?_,
    outside_trans (t := u.setGrp G) rfl frame.outside, ?_, frame.cores, frame.clusters⟩
  · rw [wentState_grp q ck _ _ (placedGrp_id i q ck), if_pos rfl, now]
    rfl
  · exact wentState_others q ck _ u _ (placedGrp_id i q ck) fun k other => others_setGrp u G k (by rw [id]; exact other)

theorem landGroup_length (k : XferKind) (push join : Bool) (o : FB) (q : Q) : (landGroup k push join o q).lanes.length = q.g.lanes.length := by
  cases join with
  | true => simp [landGroup]
  | false => simp [landGroup]
theorem lane_landGroup (k : XferKind) (push join : Bool) (o : FB) (q : Q) {L : Nat} (inside : L < q.g.lanes.length) :
    (landGroup k push join o q).lane L = if q.sub.getLsbD L then landLane k push o q L (q.g.lane L) else q.g.lane L := by
  cases join with
  | true => exact lane_modLanes { q.g with joins := q.g.joins ++ [{ j := directDest o q.pc, m := q.sub }] } _ _ _ inside
  | false => exact lane_modLanes q.g _ _ _ inside
theorem landGroup_kept (k : XferKind) (push join : Bool) (o : FB) (q : Q) : keptOf (landGroup k push join o q) = keptOf q.g := by
  cases join with
  | true => rfl
  | false => rfl
/-- Where a transfer places its lanes they stay, and the rest of the group with them. -/
theorem transfers_of {i : Instr} {s u : State} {k : XferKind} {push join : Bool} {o : FB} {q : Q} {takes : Nat → Bool}
    {dest : Nat → DWord} {stack : Nat → List DWord} (performs : Performs i s q) (runs : exec i s = runI i (xferOp k push join o) s)
    (lands : ∀ L ∈ lanesOf q.g.width (takenMask k o q), destOf s k push o q L = .ok) (room : join = true → q.g.joins.length < 16)
    (spilled : (if push then s.spillStacks q.g (takenMask k o q) else s) = u) (groups : u.groups = s.groups)
    (taken : ∀ L, L < q.g.width → (takenMask k o q).getLsbD L = takes L)
    (dests : ∀ L, L < q.g.width → takes L = true → (xferDest k o q L).getD 0#64 = dest L)
    (tops : ∀ L, (if push then nextPc q.pc :: (q.g.lane L).stack else if k == .ret then (q.g.lane L).stack.drop 1 else (q.g.lane L).stack) = stack L) :
    ∃ ck n t, Transfers i u s q takes dest stack t (wentGroup q ck n (placedGrp i q ck (landGroup k push join o q))) := by
  obtain ⟨ck, n, went, grp, only⟩ := moved_gives performs runs (by rw [xferOp_moves lands room, spilled]) (by cases join <;> rfl) groups
    (by cases join <;> rfl)
  have same : keptOf (wentGroup q ck n (placedGrp i q ck (landGroup k push join o q))) = keptOf q.g :=
    (kept_went q ck n _).trans ((kept_issuedBy i q ck (landGroup k push join o q).settle).trans (landGroup_kept k push join o q))
  obtain ⟨vregs, sregs, preds, kept⟩ := kept_fields same
  refine ⟨ck, n, _, went, grp, vregs, sregs, preds, kept, fun L inside => ?_, only⟩
  have within : L < q.g.lanes.length := by rw [shaped_lanes _ performs.shaped]; exact inside
  have long : L < (landGroup k push join o q).lanes.length := by rw [landGroup_length]; exact within
  obtain ⟨held, settles⟩ := lane_settle (landGroup k push join o q) L long
  have done := lane_done i q ck n (landGroup k push join o q).settle L (by rw [settle_length]; exact long)
  rw [settles, lane_landGroup _ _ _ _ _ within] at done
  obtain ⟨view, -, wait⟩ := done
  simp only [Lane.view, Prod.mk.injEq] at view
  obtain ⟨pc, wp, stack', exited, sr, flags, targ⟩ := view
  have row := taken L inside
  by_cases sub : q.sub.getLsbD L = true
  · rw [if_pos sub, landLane, row] at pc wp stack' exited sr flags targ wait
    cases moves : takes L with
    | true =>
      simp only [moves, if_true] at pc wp stack' exited sr flags targ wait
      simp only [sub, Bool.and_self, if_true]
      exact ⟨pc.trans (dests L inside moves), fun _ => wait trivial, stack'.trans (tops L), flags, sr, wp, exited, targ⟩
    | false =>
      rw [if_neg (by simp [moves])] at pc wp stack' exited sr flags targ wait
      simp only [sub, Bool.and_false, Bool.false_eq_true, if_false, if_true]
      exact ⟨pc, fun _ => wait rfl, stack', flags, sr, wp, exited, targ⟩
  · rw [if_neg sub] at pc wp stack' exited sr flags targ
    simp only [sub, Bool.false_and, Bool.false_eq_true, if_false, false_implies, true_and]
    exact ⟨pc, stack', flags, sr, wp, exited, targ⟩

/-! ### The call stacks in the frame area (R104) -/

/-- One lane's fourth entry put in the group's call-stack area. -/
def spillLane (g : Group) (t : State) (L : Nat) : State :=
  let k := (g.lane L).stack
  { t with mem := t.mem.store (g.stackAddr L + 8 * (k.length - 4)) (leBytes 8 (k.getD 3 0#64).toNat) }.mend (g.stackAddr L + 8 * (k.length - 4)) 8
theorem mend_parts (s : State) (pa n : Nat) : { s.mend pa n with bad := s.bad } = s ∧ ∀ w ∈ (s.mend pa n).bad, w ∈ s.bad := by
  unfold State.mend
  split
  · exact ⟨rfl, fun _ => id⟩
  · exact ⟨rfl, fun _ mem => (List.mem_filter.mp mem).1⟩
theorem spillLane_parts (g : Group) (t : State) (L : Nat) :
    { spillLane g t L with mem := t.mem, bad := t.bad } = t ∧ (∀ w ∈ (spillLane g t L).bad, w ∈ t.bad) ∧
    ∀ a, (let p := g.stackAddr L + 8 * ((g.lane L).stack.length - 4); a < p ∨ p + 8 ≤ a) → (spillLane g t L).mem.read a = t.mem.read a := by
  let k := (g.lane L).stack
  let p := g.stackAddr L + 8 * (k.length - 4)
  let x : State := { t with mem := t.mem.store p (leBytes 8 (k.getD 3 0#64).toNat) }
  have mended := mend_parts x p 8
  change { x.mend p 8 with mem := t.mem, bad := t.bad } = t ∧ (∀ w ∈ (x.mend p 8).bad, w ∈ t.bad) ∧
    ∀ a, (a < p ∨ p + 8 ≤ a) → (x.mend p 8).mem.read a = t.mem.read a
  have mem : (x.mend p 8).mem = x.mem := by
    have := congrArg State.mem mended.1
    exact this
  refine ⟨?_, mended.2, fun a outside => ?_⟩
  · have rest : { ({ x.mend p 8 with bad := x.bad } : State) with mem := t.mem } = t := by rw [mended.1]
    exact rest
  · rw [mem]
    exact read_store_outside _ _ _ _ (by simpa [leBytes] using outside)
theorem spills_of (g : Group) (ls : List Nat) (s : State) :
    { ls.foldl (spillLane g) s with mem := s.mem, bad := s.bad } = s ∧ (∀ w ∈ (ls.foldl (spillLane g) s).bad, w ∈ s.bad) ∧
    ∀ a, (∀ L ∈ ls, let p := g.stackAddr L + 8 * ((g.lane L).stack.length - 4); a < p ∨ p + 8 ≤ a) →
      (ls.foldl (spillLane g) s).mem.read a = s.mem.read a := by
  induction ls generalizing s with
  | nil => exact ⟨rfl, fun _ => id, fun _ _ => rfl⟩
  | cons L ls ih =>
    obtain ⟨rest, good, bytes⟩ := spillLane_parts g s L
    obtain ⟨rest', good', bytes'⟩ := ih (spillLane g s L)
    refine ⟨?_, fun w mem => good w (good' w mem), fun a outside => ?_⟩
    · rw [List.foldl_cons]
      rw [← rest'] at rest
      exact rest
    · rw [List.foldl_cons, bytes' a fun M mem => outside M (List.mem_cons_of_mem _ mem), bytes a (outside L List.mem_cons_self)]
theorem spillStacks_spills (s : State) (q : Q) (go : Mask) (takes : Nat → Bool) (taken : ∀ L, L < q.g.width → go.getLsbD L = takes L) :
    Spills s (s.spillStacks q.g go) q takes := by
  obtain ⟨rest, good, bytes⟩ := spills_of q.g ((lanesOf q.g.width go).filter fun L => decide (4 ≤ (q.g.lane L).stack.length)) s
  refine ⟨rest, good, fun a outside => bytes a fun L mem => ?_⟩
  obtain ⟨those, deep⟩ := List.mem_filter.mp mem
  obtain ⟨inside, goes⟩ := (mem_lanesOf _ _ _).mp those
  exact outside L inside ((taken L inside).symm.trans goes) (by simpa using deep)
theorem spillStacks_groups (s : State) (g : Group) (go : Mask) : (s.spillStacks g go).groups = s.groups := by
  obtain ⟨rest, -, -⟩ := spills_of g ((lanesOf g.width go).filter fun L => decide (4 ≤ (g.lane L).stack.length)) s
  have := congrArg State.groups rest
  exact this

/-! ### Which lanes are taken -/

/-- A transfer's condition is a predicate, or is left out (R103). -/
theorem condHolds_eq {i : Instr} {s : State} {q : Q} {o : FB} {reg : Bool} (performs : Performs i s q) (sig : sigOf i = some (sigXfer o reg)) (L : Nat) :
    (q.act.getLsbD L && condHolds o q.g L) = takesLane o q L := by
  unfold takesLane condHolds
  by_cases plain : o.cond = .v 0#8
  · simp [plain]
  · obtain ⟨n, p⟩ := predicate_of_use performs sig o.cond (.inl (by simp [sigXfer, plain, srcP]))
    have other : (Opnd.p n == .v 0#8) = false := rfl
    simp only [p, predTrue, other, Bool.false_or]
theorem takenMask_of_sig {i : Instr} {s : State} {q : Q} {o : FB} {reg : Bool} {k : XferKind} (jumps : (k == .ret) = false) (performs : Performs i s q)
    (sig : sigOf i = some (sigXfer o reg)) {L : Nat} (inside : L < q.g.width) : (takenMask k o q).getLsbD L = takesLane o q L := by
  rw [takenMask, jumps, if_neg Bool.false_ne_true, getLsbD_maskOf _ (shaped_width _ performs.shaped), condHolds_eq performs sig]
  simp [inside]
theorem takenMask_ret (o : FB) (q : Q) : takenMask .ret o q = q.act := rfl
/-- The lanes that the transfer takes, in the list that it checks. -/
theorem mem_taken {q : Q} {k : XferKind} {o : FB} {takes : Nat → Bool} (taken : ∀ L, L < q.g.width → (takenMask k o q).getLsbD L = takes L) {L : Nat}
    (mem : L ∈ lanesOf q.g.width (takenMask k o q)) : L < q.g.width ∧ takes L = true := by
  obtain ⟨inside, goes⟩ := (mem_lanesOf _ _ _).mp mem
  exact ⟨inside, (taken L inside).symm.trans goes⟩

theorem destOf_check {s : State} {k : XferKind} {push : Bool} {o : FB} {q : Q} {L : Nat} (lands : ∀ d, xferDest k o q L = some d → s.checkDest q.g d = .ok) :
    destOf s k push o q L = match stackCheck k push q L with
      | some c => .fault c
      | none => .ok := by
  have check : (match xferDest k o q L with
      | some d => s.checkDest q.g d
      | none => .ok : DestRes) = .ok := by
    cases dest : xferDest k o q L with
    | none => rfl
    | some d => exact lands d dest
  unfold destOf
  rw [check]
  cases stackCheck k push q L with
  | none => rfl
  | some c => rfl
theorem stackCheck_room {q : Q} {k : XferKind} {push : Bool} {L : Nat} (jumps : (k == .ret) = false) (room : push = true → (q.g.lane L).stack.length < 64) :
    stackCheck k push q L = none := by
  unfold stackCheck
  rw [jumps, if_neg (by simpa using room), Bool.false_and, if_neg Bool.false_ne_true]

/-! ### The transfers -/

/-- A branch or a call, to a slot near or far. -/
theorem jump_transfers {i : Instr} {s : State} {k : XferKind} {push join reg : Bool} {o : FB} {q : Q} {dest : Nat → DWord} (jumps : (k == .ret) = false)
    (performs : Performs i s q) (sig : sigOf i = some (sigXfer o reg)) (runs : exec i s = runI i (xferOp k push join o) s)
    (dests : ∀ L, xferDest k o q L = some (dest L))
    (lands : ∀ L, L < q.g.width → takesLane o q L = true → s.checkDest q.g (dest L) = .ok)
    (room : push = true → ∀ L, takesLane o q L = true → (q.g.lane L).stack.length < 64) (joins : join = true → q.g.joins.length < 16) :
    ∃ u ck n t, (push = true → Spills s u q (takesLane o q)) ∧ (push = false → u = s) ∧
      Transfers i u s q (takesLane o q) dest (fun L => if push then nextPc q.pc :: (q.g.lane L).stack else (q.g.lane L).stack) t
        (wentGroup q ck n (placedGrp i q ck (landGroup k push join o q))) := by
  have taken := fun L (inside : L < q.g.width) => takenMask_of_sig jumps performs sig inside
  have clear : ∀ L ∈ lanesOf q.g.width (takenMask k o q), destOf s k push o q L = .ok := fun L mem => by
    obtain ⟨inside, goes⟩ := mem_taken taken mem
    rw [destOf_check fun d at_ => ?_, stackCheck_room jumps fun pushes => room pushes L goes]
    rw [dests L] at at_
    cases at_
    exact lands L inside goes
  obtain ⟨u, left⟩ : ∃ u, (if push then s.spillStacks q.g (takenMask k o q) else s) = u := ⟨_, rfl⟩
  have groups : u.groups = s.groups := by
    rw [← left]
    split
    · exact spillStacks_groups _ _ _
    · rfl
  obtain ⟨ck, n, t, transfers⟩ := transfers_of (dest := dest) (stack := fun L => if push then nextPc q.pc :: (q.g.lane L).stack else (q.g.lane L).stack)
    performs runs clear joins left groups taken (fun L _ _ => by rw [dests L]; rfl)
    (fun L => by rw [jumps, if_neg Bool.false_ne_true])
  refine ⟨u, ck, n, t, fun pushes => ?_, fun stays => ?_, transfers⟩
  · rw [← left, if_pos pushes]
    exact spillStacks_spills s q _ _ taken
  · rw [← left, if_neg (by simp [stays])]

theorem ret_transfers {s : State} {o : FB} {q : Q} (performs : Performs (.ret o) s q)
    (lands : ∀ L, L < q.g.width → q.act.getLsbD L = true → s.checkDest q.g ((q.g.lane L).stack.headD 0#64) = .ok)
    (deep : ∀ L, q.act.getLsbD L = true → (q.g.lane L).stack ≠ []) :
    ∃ t g, Transfers (.ret o) s s q (fun L => q.act.getLsbD L) (fun L => (q.g.lane L).stack.headD 0#64) (fun L => ((q.g.lane L).stack).drop 1) t g := by
  have top (L : Nat) (d : DWord) (at_ : xferDest .ret o q L = some d) : d = (q.g.lane L).stack.headD 0#64 := by
    rw [List.headD_eq_head?_getD, show (q.g.lane L).stack.head? = some d from at_]
    rfl
  have clear : ∀ L ∈ lanesOf q.g.width (takenMask .ret o q), destOf s .ret false o q L = .ok := fun L mem => by
    obtain ⟨inside, goes⟩ := (mem_lanesOf _ _ _).mp mem
    rw [destOf_check fun d at_ => by rw [top L d at_]; exact lands L inside goes]
    have full : (q.g.lane L).stack.isEmpty = false := by
      rw [List.isEmpty_eq_false_iff]
      exact deep L goes
    simp [stackCheck, full]
  obtain ⟨ck, n, t, transfers⟩ := transfers_of (push := false) (join := false) (dest := fun L => (q.g.lane L).stack.headD 0#64)
    (stack := fun L => ((q.g.lane L).stack).drop 1) performs rfl clear nofun rfl rfl (fun L _ => rfl)
    (fun L _ _ => (List.headD_eq_head?_getD).symm) (fun L => rfl)
  exact ⟨t, _, transfers⟩

/-- R104: calls onto full stacks fault in those lanes before any lane moves. -/
theorem call_full {s : State} {o : FB} {q : Q} (performs : Performs (.call o) s q)
    (lands : ∀ L, takesLane o q L = true → s.checkDest q.g (directDest o q.pc) = .ok)
    (few : ∀ L, L < q.g.width → (q.g.lane L).stack.length ≤ 64)
    (some_ : ∃ L, L < q.g.width ∧ (takesLane o q L && decide ((q.g.lane L).stack.length = 64)) = true) :
    Traps (.call o) s q .illegal (maskOf q.g.width fun L => takesLane o q L && decide ((q.g.lane L).stack.length = 64)) 0#64 0 s := by
  have taken := fun L (inside : L < q.g.width) => takenMask_of_sig (k := .direct) rfl performs rfl inside
  have faults : s.checkDests q (lanesOf q.g.width (takenMask .direct o q)) (xferDest .direct o q) (stackCheck .direct true q) = _ :=
    checkDests_fault (c := .illegal) (p := fun L => decide ((q.g.lane L).stack.length = 64)) (fun L mem => by
      obtain ⟨inside, goes⟩ := mem_taken taken mem
      have := few L inside
      rw [destOf_check fun d at_ => by cases at_; exact lands L goes, stackCheck]
      by_cases full : (q.g.lane L).stack.length = 64
      · simp [full]
      · rw [if_neg (by simp; omega), if_neg (by simp), if_neg (by simp [full])]) (by
      obtain ⟨L, inside, full⟩ := some_
      obtain ⟨goes, full⟩ := Bool.and_eq_true_iff.mp full
      exact ⟨L, (mem_lanesOf _ _ _).mpr ⟨inside, (taken L inside).trans goes⟩, full⟩)
  have lanes : (lanesOf q.g.width (takenMask .direct o q)).filter (fun L => decide ((q.g.lane L).stack.length = 64)) =
      (List.range q.g.width).filter fun L => takesLane o q L && decide ((q.g.lane L).stack.length = 64) := by
    rw [lanesOf, List.filter_filter]
    refine List.filter_congr fun L mem => ?_
    rw [taken L (List.mem_range.mp mem), Bool.and_comm]
  rw [lanes] at faults
  exact trap_of _ (xferOp .direct true false o) s s q q.g _ _ _ _ performs rfl (by
    unfold xferOp
    dsimp only
    rw [show s.checkDests q (lanesOf q.g.width (if XferKind.direct == .ret then q.act else maskOf q.g.width fun L => q.act.getLsbD L && condHolds o q.g L))
      (xferDest .direct o q) (stackCheck .direct true q) = _ from faults]
    rfl) (issuing_grp _ _ _ performs.issues)

/-- R104: returns from empty stacks fault in those lanes before any lane moves. -/
theorem ret_empty {s : State} {o : FB} {q : Q} (performs : Performs (.ret o) s q)
    (lands : ∀ L, L < q.g.width → q.act.getLsbD L = true → (q.act.getLsbD L && (q.g.lane L).stack.isEmpty) = false →
      s.checkDest q.g ((q.g.lane L).stack.headD 0#64) = .ok)
    (some_ : ∃ L, L < q.g.width ∧ (q.act.getLsbD L && (q.g.lane L).stack.isEmpty) = true) :
    Traps (.ret o) s q .target (maskOf q.g.width fun L => q.act.getLsbD L && (q.g.lane L).stack.isEmpty) 0#64 0 s := by
  have faults : s.checkDests q (lanesOf q.g.width q.act) (xferDest .ret o q) (stackCheck .ret false q) = _ :=
    checkDests_fault (c := .target) (p := fun L => (q.g.lane L).stack.isEmpty) (fun L mem => by
      obtain ⟨inside, goes⟩ := (mem_lanesOf _ _ _).mp mem
      have top (d : DWord) (at_ : xferDest .ret o q L = some d) : s.checkDest q.g d = .ok := by
        have head : (q.g.lane L).stack.head? = some d := at_
        have := lands L inside goes (by
          cases kind : (q.g.lane L).stack with
          | nil => simp [kind] at head
          | cons x xs => simp)
        rwa [List.headD_eq_head?_getD, head] at this
      rw [destOf_check top, stackCheck]
      cases empty : (q.g.lane L).stack.isEmpty with
      | true => simp
      | false => simp) (by
      obtain ⟨L, inside, empty⟩ := some_
      obtain ⟨goes, empty⟩ := Bool.and_eq_true_iff.mp empty
      exact ⟨L, (mem_lanesOf _ _ _).mpr ⟨inside, goes⟩, empty⟩)
  have lanes : (lanesOf q.g.width q.act).filter (fun L => (q.g.lane L).stack.isEmpty) =
      (List.range q.g.width).filter fun L => q.act.getLsbD L && (q.g.lane L).stack.isEmpty := by
    rw [lanesOf, List.filter_filter]
    exact List.filter_congr fun L _ => Bool.and_comm ..
  rw [lanes] at faults
  exact trap_of _ (xferOp .ret false false o) s s q q.g _ _ _ _ performs rfl (by
    unfold xferOp
    dsimp only
    rw [show s.checkDests q (lanesOf q.g.width (if XferKind.ret == .ret then q.act else maskOf q.g.width fun L => q.act.getLsbD L && condHolds o q.g L))
      (xferDest .ret o q) (stackCheck .ret false q) = _ from faults]
    rfl) (issuing_grp _ _ _ performs.issues)

/-- Settles O11: a transfer checks every lane's destination and call stack, and where all pass it places the lanes of its subset at once. -/
theorem transfersOfControl : Obligations.TransfersOfControl := by
  refine ⟨fun o s q => ?_, fun o s q => ?_⟩
  · intro near far top go same pushed lands room
    have nears : ∀ L, xferDest .direct o q L = some near := fun L => rfl
    have fars : ∀ L, xferDest .indirect o q L = some (far L) := fun L => rfl
    refine ⟨fun performs lands => ?_, fun performs lands => ?_, fun performs lands room => ?_, fun performs lands room => ?_, ret_transfers⟩
    · obtain ⟨u, ck, n, t, -, stays, transfers⟩ := jump_transfers (push := false) (join := false) rfl performs rfl rfl nears lands nofun nofun
      obtain rfl := stays rfl
      exact ⟨t, _, transfers⟩
    · obtain ⟨u, ck, n, t, -, stays, transfers⟩ := jump_transfers (push := false) (join := false) rfl performs rfl rfl fars lands nofun nofun
      obtain rfl := stays rfl
      exact ⟨t, _, transfers⟩
    · obtain ⟨u, ck, n, t, spills, -, transfers⟩ := jump_transfers (push := true) (join := false) rfl performs rfl rfl nears lands (fun _ => room) nofun
      exact ⟨u, t, _, spills rfl, transfers⟩
    · obtain ⟨u, ck, n, t, spills, -, transfers⟩ := jump_transfers (push := true) (join := false) rfl performs rfl rfl fars lands (fun _ => room) nofun
      exact ⟨u, t, _, spills rfl, transfers⟩
  · exact ⟨call_full, ret_empty⟩

end Sys2Proof.Proofs


/-!
The statement about joins, waypoints, barriers and pauses (R106 to R110, R115, R119, R120).
-/
namespace Sys2Proof.Proofs
open Sys2Proof Sys2Proof.Machine Sys2Proof.Laws

/-! ### RCV: the join entry and the lanes held at it (R106) -/

theorem joins_unkeep (G : Group) (q : Q) : (G.unkeep q).joins = G.joins := by
  unfold Group.unkeep
  split
  · rfl
  · rfl
theorem joins_issued (G : Group) (i : Instr) (q : Q) (ck : Nat) (b : Bool) : (G.issued i q ck b).joins = G.joins := by
  unfold Group.issued
  dsimp only
  split <;> (split <;> (split <;> rfl))
theorem joins_went (q : Q) (ck n : Nat) (G : Group) : (wentGroup q ck n G).joins = G.joins := by
  unfold wentGroup tickGroup
  dsimp only
  split
  · rfl
  · rfl
theorem joins_placed (i : Instr) (q : Q) (ck n : Nat) (G : Group) : (wentGroup q ck n (placedGrp i q ck G)).joins = G.dropJoins.joins := by
  rw [joins_went, placedGrp, issuedBy, joins_issued, joins_unkeep]
  rfl
theorem held_tickLane (ck : Nat) (l : Lane) : (tickLane ck l).held = l.held := by
  unfold tickLane
  split
  · rfl
  · rfl
theorem held_placed (i : Instr) (q : Q) (ck n : Nat) (G : Group) {L : Nat} (inside : L < G.lanes.length) :
    ((wentGroup q ck n (placedGrp i q ck G)).lane L).held = (!(G.lane L).exited && (G.dropJoins.holder L).isSome) := by
  have settled : (G.settle.lane L).held = (!(G.lane L).exited && (G.dropJoins.holder L).isSome) := by
    unfold Group.settle Group.lane
    simp [List.getD_eq_getElem?_getD, inside, Group.dropJoins]
  obtain ⟨c, st, marks⟩ := lane_issuedBy i q ck G.settle L (by simpa using inside)
  obtain ⟨k, ticks⟩ := lane_went q ck n (placedGrp i q ck G) L (by simpa [placedGrp] using inside)
  rw [ticks, placedGrp, marks]
  cases k with
  | true =>
    rw [if_pos rfl, held_tickLane]
    exact settled
  | false => exact settled
/-- A join stays while a lane of its mask that has not exited stands elsewhere, and holds the lanes of its mask that stand there. -/
theorem dropJoins_keeps {G : Group} {e : Join} (mem : e ∈ G.joins) {L : Nat} (inside : L < G.width) (lane : e.m.getLsbD L = true)
    (lives : (G.lane L).exited = false) (away : (G.lane L).pc ≠ e.j) : e ∈ G.dropJoins.joins := by
  unfold Group.dropJoins
  refine List.mem_filter.mpr ⟨mem, ?_⟩
  rw [Bool.not_eq_true', List.all_eq_false]
  exact ⟨L, List.mem_range.mpr inside, by simp [lane, lives, away]⟩
theorem holder_isSome {G : Group} {e : Join} (mem : e ∈ G.joins) {L : Nat} (lane : e.m.getLsbD L = true) (there : (G.lane L).pc = e.j) :
    (G.holder L).isSome = true := by
  unfold Group.holder
  rw [List.find?_isSome]
  exact ⟨e, List.mem_reverse.mpr mem, by simp [lane, there]⟩

theorem rcv_joins (o : FB) (s : State) (q : Q) :
    let near := lineBase q.pc + (o.loff.signExtend 64 <<< 6) + BitVec.ofNat 64 (12 * o.slot.toNat)
    Performs (.rcv o) s q → (∀ L, takesLane o q L = true → s.checkDest q.g near = .ok) → q.g.joins.length < 16 →
    ∃ t g, Transfers (.rcv o) s s q (takesLane o q) (fun _ => near) (fun L => (q.g.lane L).stack) t g ∧
      ((∃ L, L < q.g.width ∧ q.sub.getLsbD L = true ∧ takesLane o q L = false ∧ (q.g.lane L).exited = false) → near ≠ nextPc q.pc →
        { j := near, m := q.sub } ∈ g.joins ∧
        ∀ L, L < q.g.width → q.sub.getLsbD L = true → takesLane o q L = true → (q.g.lane L).exited = false → (g.lane L).held = true) := by
  intro near performs lands room
  obtain ⟨u, ck, n, t, -, stays, transfers⟩ := jump_transfers (push := false) (join := true) (dest := fun _ => near) rfl performs rfl rfl
    (fun L => rfl) (fun L _ goes => lands L goes) nofun (fun _ => room)
  obtain rfl := stays rfl
  refine ⟨t, _, transfers, fun ⟨M, within, sub, rests, lives⟩ apart => ?_⟩
  have lane (L : Nat) (inside : L < q.g.width) := lane_landGroup .direct false true o q
    (L := L) (by rw [shaped_lanes _ performs.shaped]; exact inside)
  have taken (L : Nat) (inside : L < q.g.width) := takenMask_of_sig (k := .direct) rfl performs rfl inside
  have entry : ({ j := near, m := q.sub } : Join) ∈ (landGroup .direct false true o q).dropJoins.joins := by
    refine dropJoins_keeps (L := M) (List.mem_append_right _ List.mem_cons_self) within sub ?_ ?_
    · rw [lane M within, if_pos sub, landLane, taken M within, rests]
      exact lives
    · rw [lane M within, if_pos sub, landLane, taken M within, rests]
      exact apart.symm
  refine ⟨by rw [joins_placed]; exact entry, fun L inside sub goes lives => ?_⟩
  rw [held_placed _ _ _ _ _ (by rw [landGroup_length, shaped_lanes _ performs.shaped]; exact inside)]
  have there : ((landGroup .direct false true o q).lane L).pc = near ∧ ((landGroup .direct false true o q).lane L).exited = false := by
    rw [lane L inside, if_pos sub, landLane, taken L inside, goes]
    exact ⟨rfl, lives⟩
  rw [there.2, holder_isSome entry sub there.1]
  rfl

/-! ### WAYPT, TBAR, YIELD and NAP -/

theorem waypt_goes (o : FY) (s : State) (q : Q) (performs : Performs (.waypt o) s q) : GoesAs (.waypt o) s q
    { q.g with lanes := q.g.lanes.mapIdx fun L l =>
        if q.sub.getLsbD L then { l with wp := q.pc, srRec := l.sr, commit := false } else if l.exited then { l with srRec := l.sr } else l } :=
  goesAs_of _ (fun q s => .grp s (q.g.takeWaypoint q.sub q.pc)) s q _ performs rfl rfl rfl rfl (by simp)

/-- R281: at team scope a release of a team on one core is nothing, and else writes back the core's L1. -/
theorem releaseAt_team (s : State) (core : Nat) (paired : Bool) : s.releaseAt core 2 paired = if paired then s.flushL1 core false else s := by
  cases paired with
  | true => rfl
  | false => rfl
/-- A core whose L1 has been written back: clean lines, and a request entry for each line that leaves while entries are free. -/
def flushedCore (s : State) (c : Core) : Core :=
  let gid := match s.cur with
    | some i => i.gid
    | none => 0
  { c with l1 := writeBack c.l1, badL1 := c.badL1.filter fun w => !(badDirty c.badL1 c.l1).contains w
           reqs := c.reqs ++ (c.dirtyLines.take (Config.lineRequests - c.reqs.length)).map fun line => ({ gid := gid, line } : LineReq) }
theorem flushL1_traffic (s : State) (core : Nat) (device : Bool) :
    { s.flushL1 core device with cores := s.cores, dies := s.dies, bad := s.bad } = s ∧
    ∀ c, { (s.flushL1 core device).core c with l1 := (s.core c).l1, badL1 := (s.core c).badL1, reqs := (s.core c).reqs } = s.core c := by
  have outside : { s.flushL1 core device with cores := s.cores, dies := s.dies, bad := s.bad } = s ∧
      ∀ c, (s.flushL1 core device).core c = (s.modCore core (flushedCore s)).core c := by
    unfold State.flushL1
    dsimp only
    split
    · exact ⟨rfl, fun _ => rfl⟩
    · exact ⟨rfl, fun _ => rfl⟩
  refine ⟨outside.1, fun c => ?_⟩
  rw [outside.2 c, core_modCore]
  split
  next same =>
    subst same
    rfl
  next => rfl
theorem teamTraffic_release (s : State) (q : Q) : TeamTraffic s (s.releaseAt q.core 2 (s.pairedOf q.g)) q := by
  rw [releaseAt_team]
  refine ⟨fun single => by rw [single]; rfl, ?_⟩
  split
  · exact flushL1_traffic s q.core false
  · exact ⟨rfl, fun _ => rfl⟩
theorem tbar_waits (o : FY) (s : State) (q : Q) (performs : Performs (.tbar o) s q) :
    ∃ u, Waits (.tbar o) s q (.bar o.code.toNat) u ∧ TeamTraffic s u q := by
  have quiet := quiet_releaseAt s q.core 2 (s.pairedOf q.g)
  refine ⟨s.releaseAt q.core 2 (s.pairedOf q.g), waits_of _ (fun q s => .wait (.bar o.code.toNat) (s.releaseAt q.core 2 (s.pairedOf q.g))) s _ q _ q.g
    performs rfl rfl ((quiet_grp quiet _).trans (issuing_grp _ _ _ performs.issues)) performs.unstepped (shaped_lanes _ performs.shaped),
    teamTraffic_release s q⟩

/-- R91, R119: an issue that goes on puts its group last in the core's rotation. -/
theorem rot_wentState (q : Q) (ck : Nat) (f : Group → Group) (s : State) :
    ((wentState q ck f s).core q.core).rot = (s.core q.core).rot.filter (· != q.g.id) ++ [q.g.id] := by
  have same : (wentState q ck f s).core q.core = (((s.modGrp q.g.id f).leaveQueue q.core q.g.id q.sub).spend q q.g.id ck).core q.core := rfl
  rw [same, core_spend, if_pos rfl, core_leaveQueue, if_pos rfl]
  rfl
theorem pauses {i : Instr} {body : Q → State → Res} {s : State} {q : Q} (performs : Performs i s q) (runs : exec i s = runI i body s)
    (answers : body q s = .grp s q.g) : ∃ t g, exec i s = .next t ∧ Continues q s t q.g g ∧
      (t.core q.core).rot = (s.core q.core).rot.filter (· != q.g.id) ++ [q.g.id] := by
  have present := issuing_grp i s q performs.issues
  obtain ⟨t, g, runs', grp, vregs, sregs, preds, lanes, kept, only⟩ := performs_grp i body s q q.g performs answers rfl performs.unstepped
    (shaped_lanes _ performs.shaped)
  have now : (s.setGrp q.g).grp? q.g.id = some q.g := by rw [grp_setGrp, if_pos rfl, present]; rfl
  obtain ⟨ck, settles⟩ := settle_ok i q 0 (s.setGrp q.g) q.g now performs.unstepped
  have same : runI i body s = .next (wentState q ck (performedGrp i q ck) (s.setGrp q.g)) := by
    rw [runI_performs i body s q performs, answers, Res.grp, settles]
  rw [same] at runs'
  cases runs'
  exact ⟨_, g, runs.trans same, ⟨present, grp, vregs, sregs, preds, lanes, kept, only⟩, rot_wentState q ck _ _⟩

theorem nap_pauses (o : FRI) (s : State) (q : Q) (performs : Performs (.nap o) s q) :
    let ck := min 4294967295 (o.imm.toNat + if mbit o.mod 0 then (q.g.rdS o.a).toNat else 0)
    (ck = 0 → ∃ t g, exec (.nap o) s = .next t ∧ Continues q s t q.g g ∧
      (t.core q.core).rot = (s.core q.core).rot.filter (· != q.g.id) ++ [q.g.id]) ∧
    (0 < ck → Waits (.nap o) s q (.nap ck) s) := by
  intro ck
  have runs : exec (.nap o) s = runI (.nap o) (fun q s => if napLen o q.g == 0 then .grp s q.g else .wait (.nap (napLen o q.g)) s) s := rfl
  have length : napLen o q.g = ck := rfl
  refine ⟨fun none => pauses performs runs (by rw [length, none]; rfl), fun some_ => ?_⟩
  exact waits_of _ _ s s q _ q.g performs runs (by rw [length, if_neg (by simp; omega)])
    (issuing_grp _ _ _ performs.issues) performs.unstepped (shaped_lanes _ performs.shaped)

/-- Settles O12: RCV is a transfer whose group has the join entry before its lanes settle; the others leave registers and memory as they are. -/
theorem joinsWaypointsAndPauses : Obligations.JoinsWaypointsAndPauses :=
  ⟨rcv_joins, waypt_goes, tbar_waits, fun _ _ _ performs => pauses (body := fun q s => .grp s q.g) performs rfl rfl, nap_pauses⟩

end Sys2Proof.Proofs


/-!
A small machine for counterexamples, and the refutation of the statement about exits and spawn bins (R107): one page of code and data, one
resident group of 16 lanes, and its team.
-/
namespace Sys2Proof.Proofs
open Sys2Proof Sys2Proof.Machine Sys2Proof.Laws

/-! ### A small machine -/

/-- Always performed, without stall, yield, capture or write hold-back. -/
def plainPfx : Pfx := { ga := 15#5, gb := 15#5, ch := 0#4, stall := 0#4, y := false, nwb := false, cap := 0#2 }
/-- The zero register, which stands in a field that is not used. -/
def noOpnd : Opnd := .v 0#8
/-- 16 lanes at the first slot of the page. -/
def smallGroup : Group :=
  { id := 1, sheet := 1, team := 1, width := 16, vcount := 24, scount := 16
    vregs := List.replicate 24 (List.replicate 16 0#32), sregs := List.replicate 16 0#64, preds := List.replicate 15 0#64
    lanes := List.replicate 16 { pc := 65536#64, wp := 65536#64 }, frame := 0x10000000 }
def smallTeam : Team := { id := 1, sheet := 1, task := 0, teamid := 0, size := 1, cores := [0], s := 8192, groups := [1] }
/-- 64 KiB from 65,536 on, readable, writable and executable, at the same physical address. -/
def smallPage : TlbEntry := { asn := 0, va := 65536, bits := 16, leaf := BitVec.ofNat 64 (65536 + 31) }
def smallSheet : Sheet :=
  { id := 1, sheetid := 1#64, queue := 1, seq := 0, record := [], asn := 0, prio := 0, age := 1, spawnLim := 16, flags := 0, wakeReq := 0, cport := 0
    submitter := none, scheds := [], sealJob := none, rpool := 0, rfree := 0, immio := false, capt := false, gang := false, st := .running
    tasks := [], nextTeam := 1 }
def smallQueue : Queue := { num := 1, slot := some 0, asn := 0, proc := 1, ceiling := 0, quota := 224 }
/-- The part with the groups and teams given, whose first group issues at the page's first slot. -/
def smallState (groups : List Group) (teams : List Team) : State :=
  { State.reset with
    booted := true, accepting := true, closing := false, groups, teams, sheets := [smallSheet], queues := [smallQueue], fresh := 10
    cores := [(0, { tlb := [smallPage] })], cur := some { core := 0, gid := 1, mask := 0xFFFF#64, pc := 65536#64 } }

/-- `Performs` as a check, with the issue that it is of. -/
def performsCheck (i : Instr) (s : State) (P : Q → Bool) : Bool :=
  match s.issuing i with
  | some q => i.wf && q.stops.isNone && q.act != 0#64 && s.workWait i q == none && (s.disagreement q).isNone && !q.g.stepping && q.g.shaped && P q
  | none => false
theorem performs_of_check {i : Instr} {s : State} {P : Q → Bool} (check : performsCheck i s P = true) : ∃ q, Performs i s q ∧ P q = true := by
  unfold performsCheck at check
  split at check
  next q issues =>
    simp only [Bool.and_eq_true, bne_iff_ne, ne_eq, Option.isNone_iff_eq_none, Bool.not_eq_true', beq_iff_eq] at check
    obtain ⟨⟨⟨⟨⟨⟨⟨formed, passes⟩, executes⟩, supplied⟩, agrees⟩, unstepped⟩, shaped⟩, holds⟩ := check
    exact ⟨q, { formed, issues, passes, executes, supplied, agrees, unstepped, shaped }, holds⟩
  next => exact absurd check Bool.false_ne_true

/-! ### Exits -/

/-- A saved group of width 0 whose one lane, outside its width, waits at port 3: it has no live lane, and yet a lane that waits. -/
def strayGroup : Group := { smallGroup with id := 2, width := 0, lanes := [{ pc := 65536#64, wp := 65536#64, wait := .recv 3 0 0 }], st := .saved, frame := 0x20000000 }
/-- The small team with port 3 open. -/
def portTeam : Team := { smallTeam with ports := [{ num := 3, depth := 4, fault := false, xteam := false, core := 0 }] }
def strayState : State := smallState [smallGroup, strayGroup] [portTeam]
def exitAll : FY := { pf := plainPfx, mod := 0#6, ya := noOpnd, yb := noOpnd, yc := noOpnd, code := 0#16 }

/-- Refutes O13: with the last live lane of a team its ports close, and a lane that waits at one of them is refused even where it stands
outside its group's width; of a saved group that rewrites the frame in memory, which the clause of EXIT says stays. -/
theorem not_exitsAndSpawnBins : ¬ Obligations.ExitsAndSpawnBins := by
  rintro ⟨⟨-, exits⟩, -⟩
  obtain ⟨q, performs, facts⟩ := performs_of_check (i := .exit exitAll) (s := strayState)
    (P := fun q => ((List.range q.g.width).all fun L => (q.g.lane L).exited || q.act.getLsbD L) && q.g.batches.isEmpty && q.g.team == 1) (by decide +kernel)
  simp only [Bool.and_eq_true, List.all_eq_true, List.mem_range, Bool.or_eq_true, List.isEmpty_iff, beq_iff_eq] at facts
  obtain ⟨⟨all, none⟩, team⟩ := facts
  obtain ⟨t, g, tn, run, -, -, -, -, -, mem, -⟩ := exits exitAll strayState q portTeam performs
    (fun L inside lives => (all L inside).resolve_left (by simp [lives])) none (by rw [team]; rfl) rfl (by decide)
  have written : (match exec (.exit exitAll) strayState with
      | .next t => t.mem.read 0x20000000
      | _ => 0#8) = 35#8 := by decide +kernel
  rw [run] at written
  dsimp only at written
  rw [mem] at written
  exact absurd written (by decide +kernel)

end Sys2Proof.Proofs


/-!
The statement about loads (R305, R307), and what an access to memory does to the machine beside its group: traffic.
-/
namespace Sys2Proof.Proofs
open Sys2Proof Sys2Proof.Machine Sys2Proof.Laws

/-! ### Traffic around one group -/

/-- Traffic, and the group of the issue made G: memory, sheets and other groups are as they were. -/
structure Touched (s u : State) (q : Q) (G : Group) : Prop where
  rest : { u with groups := s.groups, cores := s.cores, clusters := s.clusters, dies := s.dies, bad := s.bad } = s
  cores : ∀ c, { u.core c with tlb := (s.core c).tlb, reqs := (s.core c).reqs, reqQ := (s.core c).reqQ, l1 := (s.core c).l1
                               badL1 := (s.core c).badL1 } = s.core c
  terms : ∀ c, (u.cluster c).terms = (s.cluster c).terms
  others : ∀ id, id ≠ q.g.id → u.grp? id = s.grp? id
  grp : u.grp? q.g.id = some G

section
variable {s u v : State} {q : Q} {G : Group}

theorem Touched.refl {i : Instr} (issues : s.issuing i = some q) : Touched s s q q.g :=
  ⟨rfl, fun _ => rfl, fun _ => rfl, fun _ _ => rfl, issuing_grp i s q issues⟩
theorem Touched.quiet (h : Touched s u q G) (traffic : Quiet u v) : Touched s v q G := by
  obtain ⟨rest, cores, terms⟩ := traffic
  refine ⟨?_, fun c => ?_, fun c => (terms c).trans (h.terms c), fun id other => (quiet_grp ⟨rest, cores, terms⟩ id).trans (h.others id other),
    (quiet_grp ⟨rest, cores, terms⟩ _).trans h.grp⟩
  · have := h.rest
    rw [← rest] at this
    exact this
  · have := h.cores c
    rw [← cores c] at this
    exact this
theorem Touched.modGrp (h : Touched s u q G) (f : Group → Group) (id : ∀ g, (f g).id = g.id) : Touched s (u.modGrp q.g.id f) q (f G) := by
  refine ⟨h.rest, h.cores, h.terms, fun k other => ?_, ?_⟩
  · rw [grp_modGrp u q.g.id k f id, if_neg other]
    exact h.others k other
  · rw [grp_modGrp u q.g.id q.g.id f id, if_pos rfl, h.grp]
    rfl
theorem Touched.setGrp (h : Touched s u q G) {H : Group} (id : H.id = q.g.id) : Touched s (u.setGrp H) q H := by
  refine ⟨h.rest, h.cores, h.terms, fun k other => ?_, ?_⟩
  · rw [others_setGrp u H k (by rw [id]; exact other)]
    exact h.others k other
  · rw [grp_setGrp, if_pos id.symm, h.grp]
    rfl
theorem Touched.onlyTraffic (h : Touched s u q G) : OnlyTraffic s u := by
  refine ⟨?_, h.cores, h.terms⟩
  have : { ({ u with groups := s.groups, cores := s.cores, clusters := s.clusters, dies := s.dies, bad := s.bad } : State) with
      cur := s.cur, mem := s.mem, sheets := s.sheets, snapUsed := s.snapUsed } = s := by rw [h.rest]
  exact this
theorem Touched.mem (h : Touched s u q G) : u.mem = s.mem := by
  have := congrArg State.mem h.rest
  exact this
theorem Touched.sheets (h : Touched s u q G) : u.sheets = s.sheets := by
  have := congrArg State.sheets h.rest
  exact this
theorem Touched.sameOthers (h : Touched s u q G) : SameOthers s u q := fun id other => by rw [h.others id other]
end

/-- An access that may take its lines goes on after traffic alone (R282, R445, R447). -/
theorem withLines_touched {i : Instr} {s : State} {q : Q} {u : LineUse} {as : List (Nat × Nat)} (issues : s.issuing i = some q)
    (free : RequestsFree s q u as) : ∃ t, Touched s t q q.g ∧ ∀ k, withLines q s u as k = k t := by
  obtain ⟨t, takes, -⟩ := withLines_ok q s u as (fun _ => .ok s) free
  refine ⟨t.chargeLines (clusterOf q.core) q.workClass ((s.core q.core).entriesFor u as), ?_, fun k => ?_⟩
  · exact ((Touched.refl issues).quiet (quiet_takeLines _ _ _ _ _ _ _ takes)).quiet (quiet_chargeLines _ _ _ _)
  · obtain ⟨t', takes', goes⟩ := withLines_ok q s u as k free
    rw [takes] at takes'
    cases takes'
    exact goes
theorem Touched.acquirePart {s u : State} {q : Q} {G : Group} (h : Touched s u q G) (sc ord : Nat) (lines : List Nat) :
    ∃ ls, Touched s (u.acquirePart q.g sc ord lines) q { G with seen := G.seen ++ ls } := by
  obtain ⟨v, quiet, same | ⟨ls, marks⟩⟩ := acquirePart_cases u q.g sc ord lines
  · exact ⟨[], by rw [same, List.append_nil]; exact h.quiet quiet⟩
  · exact ⟨ls, by rw [marks]; exact (h.quiet quiet).modGrp (fun g => { g with seen := g.seen ++ ls }) fun _ => rfl⟩
theorem badLanes_none {s : State} {q : Q} (good : NoBadWord s q) (pas : List (Nat × Nat)) (n : Nat) (wr : Bool) : badLanes s q.core pas n wr = 0#64 := by
  obtain ⟨memory, l1⟩ := good
  simp [badLanes, memory, l1]
theorem sizeBytes_pos (z : BitVec 4) : 0 < sizeBytes z := Nat.two_pow_pos _
/-- No lane that passes its checks stands in a submission page. -/
theorem pageLanes_none {s : State} {q : Q} {addr : Nat → Int} {n : Nat} {acc : Acc} {phys : Nat → Nat} (reaches : Reaches s q addr n acc phys) :
    s.pageLanes q addr = [] := by
  unfold State.pageLanes laneAddrs
  rw [List.filterMap_eq_nil_iff]
  rintro e mem
  obtain ⟨L, inside, rfl⟩ := List.mem_map.mp mem
  rw [(reaches L ((mem_lanesOf _ _ _).mp inside).2).1]
  rfl
/-- What is listed for a lane that executes. -/
theorem getK_lanes {α : Type} (w : Nat) (m : Mask) (f : Nat → α) (d : α) {L : Nat} (inside : L < w) (executes : m.getLsbD L = true) :
    getK ((lanesOf w m).map fun L => (L, f L)) d L = f L := by
  unfold getK
  cases found : ((lanesOf w m).map fun L => (L, f L)).find? (fun e => e.1 == L) with
  | none =>
    have := List.find?_eq_none.mp found (L, f L) (List.mem_map.mpr ⟨L, (mem_lanesOf _ _ _).mpr ⟨inside, executes⟩, rfl⟩)
    simp at this
  | some e =>
    obtain ⟨M, -, rfl⟩ := List.mem_map.mp (List.mem_of_find?_eq_some found)
    have : M = L := by simpa using List.find?_some found
    rw [this]

/-! ### A group whose registers alone change -/

theorem v_of_vregs {g h : Group} (vregs : g.vregs = h.vregs) (r L : Nat) : g.v r L = h.v r L := by
  unfold Group.v
  rw [vregs]
/-- A vector result written to a group with the issue's registers. -/
theorem dest_writeV {q : Q} {G : Group} {n : BitVec 8} {w : Nat} {signed : Bool} {vals : List DWord} (shaped : q.g.shaped = true)
    (vregs : G.vregs = q.g.vregs) (sregs : G.sregs = q.g.sregs) (width : G.width = q.g.width) (wide : w = 1 ∨ w = 2) (fits : n.toNat + w ≤ q.g.vcount)
    (length : vals.length = q.g.width) : Dest (.v n) w signed q (G.writeV q.pf n.toNat w q.act vals) (fun L => vals.getD L 0#64) := by
  refine ⟨fun r L inside => ?_, by rw [writeV_sregs, sregs]⟩
  rw [v_writeV G q.pf n.toNat w q.act vals r L wide (by rw [vregs, (shaped_vregs _ shaped).1]; exact fits) (by rw [width]; exact inside)
    (by rw [width]; exact length), v_of_vregs vregs]
theorem v_writeQ (g : Group) (n : Nat) (m : Mask) (vals : List (List Word)) (r L : Nat) (fits : n + 4 ≤ g.vregs.length) (lane : L < g.width)
    (length : vals.length = g.width) : (g.writeQ n m vals).v r L =
      if m.getLsbD L = true ∧ n ≤ r ∧ r < n + 4 then (vals.getD L []).getD (r - n) 0#32 else g.v r L := by
  have four : g.writeQ n m vals = ((((g.killV n 4).setV (n + 0) m (vals.map fun q => q.getD 0 0#32)).setV (n + 1) m (vals.map fun q => q.getD 1 0#32)).setV
      (n + 2) m (vals.map fun q => q.getD 2 0#32)).setV (n + 3) m (vals.map fun q => q.getD 3 0#32) := rfl
  have get (i : Nat) : (vals.map fun q => q.getD i 0#32).getD L 0#32 = (vals.getD L []).getD i 0#32 := by
    simp [List.getD_eq_getElem?_getD, length, lane]
  rw [four, v_setV _ _ _ _ _ _ (by simp; omega) (by simpa using lane), v_setV _ _ _ _ _ _ (by simp; omega) (by simpa using lane),
    v_setV _ _ _ _ _ _ (by simp; omega) (by simpa using lane), v_setV _ _ _ _ _ _ (by simp; omega) (by simpa using lane), killV_v,
    get 0, get 1, get 2, get 3]
  by_cases executes : m.getLsbD L = true
  · by_cases at3 : r = n + 3
    · simp [executes, at3]
    · by_cases at2 : r = n + 2
      · simp [executes, at2]
      · by_cases at1 : r = n + 1
        · simp [executes, at1]
        · by_cases at0 : r = n
          · simp [executes, at0]
          · rw [if_neg (by simp [at3]), if_neg (by simp [at2]), if_neg (by simp [at1]), if_neg (by simp [at0]), if_neg (by omega)]
  · simp [executes]

/-! ### LD and LDRO (R305, R307) -/

theorem lo32_signExtend {w : Nat} (b : BitVec w) : lo32 (b.signExtend 64) = b.signExtend 32 := by
  apply BitVec.eq_of_getLsbD_eq
  intro i inside
  have within : i < 64 := by omega
  simp only [lo32, BitVec.getLsbD_extractLsb', BitVec.getLsbD_signExtend, Nat.zero_add, inside, within, decide_true, Bool.true_and]
/-- A loaded number as DATA receives it: of 8 and 16 bits in the low word. -/
theorem loadVal_memVal {n : Nat} {sx : Bool} (small : sx = true → n = 1 ∨ n = 2) (x : Nat) :
    lo32 (loadVal n sx x) = lo32 (memVal sx n x) ∧ (2 < n → loadVal n sx x = memVal sx n x) := by
  cases sx with
  | false => simp [loadVal, memVal]
  | true =>
    have signed (w : Nat) (pos : 0 < w) : lo32 (intBits (readInt x w true) 32) = lo32 ((BitVec.ofNat w x).signExtend 64) := by
      rw [lo32_intBits, readInt_bits _ _ _ pos, lo32_signExtend]
      rfl
    obtain rfl | rfl := small rfl
    · exact ⟨signed 8 (by decide), by omega⟩
    · exact ⟨signed 16 (by decide), by omega⟩

/-- H is G but for registers and latches. -/
def RegsOnly (G H : Group) : Prop :=
  { H with vregs := G.vregs, sregs := G.sregs, latches := G.latches, badV := G.badV, badS := G.badS } = G
theorem RegsOnly.trans {G H K : Group} (x : RegsOnly G H) (y : RegsOnly H K) : RegsOnly G K := by
  unfold RegsOnly at *
  rw [← y] at x
  exact x
theorem RegsOnly.setV (G : Group) (n : Nat) (m : Mask) (vals : List Word) : RegsOnly G (G.setV n m vals) := rfl
theorem RegsOnly.killV (G : Group) (n k : Nat) : RegsOnly G (G.killV n k) := rfl
theorem RegsOnly.capture (G : Group) (cap : BitVec 2) (l : Latch) : RegsOnly G (G.capture cap l) := rfl
theorem RegsOnly.writeV (G : Group) (pf : Pfx) (n w : Nat) (m : Mask) (vals : List DWord) : RegsOnly G (G.writeV pf n w m vals) := by
  unfold Group.writeV
  dsimp only
  refine RegsOnly.trans ?_ (RegsOnly.capture _ _ _)
  split
  · rfl
  · split
    · exact ((RegsOnly.setV G _ _ _).trans (RegsOnly.killV _ _ _)).trans (RegsOnly.setV _ _ _ _)
    · exact (RegsOnly.setV G _ _ _).trans (RegsOnly.killV _ _ _)
theorem RegsOnly.writeQ (G : Group) (n : Nat) (m : Mask) (vals : List (List Word)) : RegsOnly G (G.writeQ n m vals) := by
  have folds (ls : List Nat) (H : Group) (h : RegsOnly G H) :
      RegsOnly G (ls.foldl (fun h i => h.setV (n + i) m (vals.map fun q => q.getD i 0#32)) H) := by
    induction ls generalizing H with
    | nil => exact h
    | cons i ls ih => exact ih _ (h.trans (RegsOnly.setV _ _ _ _))
  exact folds _ _ (RegsOnly.killV _ _ _)
theorem RegsOnly.putLoad (G : Group) (pf : Pfx) (o : FM) (m : Mask) (xs : List (Nat × Nat)) : RegsOnly G (G.putLoad pf o m xs) := by
  unfold Group.putLoad
  dsimp only
  split
  · split
    · exact RegsOnly.writeQ _ _ _ _
    · exact RegsOnly.writeV _ _ _ _ _ _
  · rfl
/-- What stays beside the registers. -/
theorem RegsOnly.fields {G H : Group} (h : RegsOnly G H) : H.id = G.id ∧ H.stepping = G.stepping ∧ H.width = G.width ∧
    H.lanes = G.lanes ∧ H.preds = G.preds ∧ H.batches = G.batches ∧ H.calls = G.calls ∧ H.st = G.st ∧ H.save = G.save ∧ H.frame = G.frame := by
  have field {α : Type} (f : Group → α) := congrArg f h
  exact ⟨field (·.id), field (·.stepping), field (·.width), field (·.lanes), field (·.preds), field (·.batches), field (·.calls), field (·.st),
    field (·.save), field (·.frame)⟩
theorem RegsOnly.sameLanes {q : Q} {G H : Group} (h : RegsOnly G H) (same : SameLanes q G) : SameLanes q H := by
  obtain ⟨-, -, -, lanes, preds, batches, calls, st, save, frame⟩ := h.fields
  obtain ⟨lanes', preds', batches', calls', st', save', frame'⟩ := same
  exact ⟨lanes.trans lanes', preds.trans preds', batches.trans batches', calls.trans calls', st.trans st', save.trans save', frame.trans frame'⟩

theorem writeQ_sregs (g : Group) (n : Nat) (m : Mask) (vals : List (List Word)) : (g.writeQ n m vals).sregs = g.sregs := by
  simp [Group.writeQ, List.range_succ]
theorem sizeBytes_small {z : BitVec 4} (small : z.toNat ≤ 1) : sizeBytes z = 1 ∨ sizeBytes z = 2 := by
  obtain size | size : z.toNat = 0 ∨ z.toNat = 1 := by omega
  · exact .inl (congrArg (2 ^ ·) size)
  · exact .inr (congrArg (2 ^ ·) size)
theorem sizeBytes_pair {z : BitVec 4} (pair : sizeW z = 2) : 2 < sizeBytes z := by
  have size : z.toNat = 3 := by
    unfold sizeW at pair
    split at pair
    · exact absurd pair (by decide)
    · split at pair
      next three => exact eq_of_beq three
      next => exact absurd pair (by decide)
  rw [sizeBytes, size]
  decide
/-- DATA of a load, from the numbers that the lanes read. -/
theorem loaded_putLoad {q : Q} {G : Group} {o : FM} {d : BitVec 8} {xs : List (Nat × Nat)} {x : Nat → Nat} (data : o.data = .v d) (shaped : q.g.shaped = true)
    (regs : G.vregs = q.g.vregs ∧ G.sregs = q.g.sregs ∧ G.width = q.g.width) (fits : d.toNat + sizeW o.size ≤ q.g.vcount)
    (extends_ : mbit o.mod 0 = true → o.size.toNat ≤ 1) (size : o.size.toNat ≤ 4) (executes : q.act ≠ 0#64)
    (within : lowest q.act < q.g.width)
    (reads : ∀ L, L < q.g.width → q.act.getLsbD L = true → getK xs 0 L = x L) :
    Loaded o q (G.putLoad q.pf o q.act xs) x := by
  obtain ⟨vregs, sregs, width⟩ := regs
  have count := (shaped_vregs _ shaped).1
  unfold Loaded Group.putLoad
  dsimp only
  rw [data]
  dsimp only
  by_cases quad : o.size = 4#4
  · rw [if_pos quad, if_pos (by simp [quad])]
    have wide : sizeW o.size = 4 := by rw [quad]; rfl
    refine ⟨?_, fun e same r L lane => ?_⟩
    · rw [← sregs]
      exact writeQ_sregs _ _ _ _
    · cases same
      rw [v_writeQ _ _ _ _ _ _ (by rw [vregs, count]; omega) (by rw [width]; exact lane) (by simp), v_of_vregs vregs]
      by_cases act : q.act.getLsbD L = true
      · by_cases those : d.toNat ≤ r ∧ r < d.toNat + 4
        · rw [if_pos ⟨act, those⟩, if_pos ⟨act, those⟩, width, range_getD _ _ _ _ lane, range_getD _ _ _ _ (by omega), reads L lane act]
        · rw [if_neg (fun h => those h.2), if_neg (fun h => those h.2)]
      · rw [if_neg (fun h => act h.1), if_neg (fun h => act h.1)]
  · have narrow : o.size.toNat ≤ 3 := by
      have : o.size.toNat ≠ 4 := fun h => quad (BitVec.eq_of_toNat_eq h)
      omega
    have wide : sizeW o.size = 1 ∨ sizeW o.size = 2 := by
      unfold sizeW
      split
      · exact .inl rfl
      · rw [if_pos (by simp; omega)]
        exact .inr rfl
    rw [if_neg quad, if_neg (by simpa using quad)]
    have stored := dest_writeV (signed := false) (vals := (List.range G.width).map fun L => loadVal (sizeBytes o.size) (mbit o.mod 0) (getK xs 0 L))
      shaped vregs sregs width wide fits (by simp [width])
    refine dest_congr_act executes (fun L lane act => ?_) stored
    have inside : L < q.g.width := lane.elim id fun low => low ▸ within
    obtain ⟨lo, whole⟩ := loadVal_memVal (n := sizeBytes o.size) (sx := mbit o.mod 0) (fun signed => sizeBytes_small (extends_ signed)) (x L)
    rw [width, range_getD _ _ _ _ inside, reads L inside act]
    exact ⟨lo, fun two => whole (sizeBytes_pair two)⟩

/-- R305, R307: a load that reaches memory whose words are good. -/
theorem load_gives {i : Instr} {o : FM} {ord : Nat} {src : Q → State → Mem} {fresh : Q → Bool} {s : State} {q : Q} {phys : Nat → Nat}
    (performs : Performs i s q) (runs : exec i s = runI i (loadOp o ord src fresh) s) {d : BitVec 8} (data : o.data = .v d)
    (fits : d.toNat + sizeW o.size ≤ q.g.vcount) (extends_ : mbit o.mod 0 = true → o.size.toNat ≤ 1) (size : o.size.toNat ≤ 4)
    (wf : Memory.wf (src q s) = true) (good : NoBadWord s q) (reaches : Reaches s q (memAddr o q.g) (sizeBytes o.size) .rd phys)
    (free : RequestsFree s q .load (accessesOf q phys (sizeBytes o.size))) :
    ∃ u t G g, exec i s = .next t ∧ Continues q u t G g ∧ Loaded o q G (fun L => (src q s).loadNat (phys L) (sizeBytes o.size)) ∧
      SameLanes q G ∧ u.mem = s.mem ∧ u.sheets = s.sheets ∧ SameOthers s u q ∧ OnlyTraffic s u := by
  let as := accessesOf q phys (sizeBytes o.size)
  let xs := ((lanesOf q.g.width q.act).map fun L => (L, phys L)).map fun e => (e.1, leNat ((src q s).bulk e.2 (sizeBytes o.size)))
  obtain ⟨t, touched, lines⟩ := withLines_touched performs.issues free
  let t1 := ((touchLanes q (memAddr o q.g) .rd t).useCaches q.core .load as []).acquirePart q.g (fmScope o) ord (linesOf as)
  let t3 := if fresh q then (t1.filterLines (linesOf as) false).freshen q.g.id as else t1.filterLines (linesOf as) false
  obtain ⟨seen, acquired⟩ := ((touched.quiet (quiet_touchLanes q (memAddr o q.g) .rd t)).quiet (quiet_useCaches _ q.core .load as [])).acquirePart
    (fmScope o) ord (linesOf as)
  obtain ⟨ro, refreshed⟩ : ∃ ro, Touched s t3 q { q.g with seen := q.g.seen ++ seen, roMem := ro } := by
    have filtered := acquired.quiet (quiet_filterLines t1 (linesOf as) false)
    cases up : fresh q with
    | true =>
      simp only [t3, up, if_true]
      exact ⟨_, filtered.modGrp _ fun _ => rfl⟩
    | false =>
      simp only [t3, up]
      exact ⟨q.g.roMem, filtered⟩
  let G : Group := { q.g with seen := q.g.seen ++ seen, roMem := ro }
  have stored : Touched s (t3.setGrp (G.putLoad q.pf o q.act xs)) q (G.putLoad q.pf o q.act xs) :=
    refreshed.setGrp (RegsOnly.putLoad G q.pf o q.act xs).fields.1
  have answers : loadOp o ord src fresh q s = .ok (t3.setGrp (G.putLoad q.pf o q.act xs)) := by
    unfold loadOp
    dsimp only
    rw [withAddrs_ok q s _ _ _ _ phys (sizeBytes_pos _) reaches, badLanes_none good, if_neg (by decide), pageLanes_none reaches, List.map_map]
    refine (lines _).trans ?_
    change Res.ok (t3.setGrp (((t3.grp? q.g.id).getD q.g).putLoad q.pf o q.act (xs ++ [])) ) = _
    rw [refreshed.grp, List.append_nil]
    rfl
  have read (L : Nat) (inside : L < q.g.width) (act : q.act.getLsbD L = true) : getK xs 0 L = (src q s).loadNat (phys L) (sizeBytes o.size) := by
    have list : xs = (lanesOf q.g.width q.act).map fun L => (L, leNat ((src q s).bulk (phys L) (sizeBytes o.size))) := List.map_map
    rw [list, getK_lanes _ _ _ _ inside act, bulk_eq_load _ _ _ wf]
    rfl
  have regs := RegsOnly.putLoad G q.pf o q.act xs
  obtain ⟨v, h, g, next, continues⟩ := goes_of i _ s _ q _ performs runs answers stored.grp (regs.fields.2.1.trans performs.unstepped)
    ((congrArg List.length regs.fields.2.2.2.1).trans (shaped_lanes _ performs.shaped))
  obtain rfl : G.putLoad q.pf o q.act xs = h := by
    have := continues.before
    rw [stored.grp] at this
    exact Option.some.inj this
  refine ⟨_, v, _, g, next, continues, ?_, regs.sameLanes ⟨rfl, rfl, rfl, rfl, rfl, rfl, rfl⟩, stored.mem, stored.sheets, stored.sameOthers,
    stored.onlyTraffic⟩
  exact loaded_putLoad data performs.shaped ⟨rfl, rfl, rfl⟩ fits extends_ size performs.executes (lowest_width _ _ _ performs) read

/-- DATA of a load is a vector register, a pair or a quad of the group's. -/
theorem data_vector {i : Instr} {s : State} {q : Q} {o : FM} {w : Nat} {sg : Sig} (performs : Performs i s q) (sig : sigOf i = some sg)
    (use : dstV o.data w ∈ sg.uses) : ∃ d, o.data = .v d ∧ d.toNat + w ≤ q.g.vcount := by
  have ok := (formed_sig _ s q performs sg sig).2.1 _ use
  have fits := dest_fits _ s q performs sg sig (dstV o.data w) use rfl
  simp only [Use.ok, Bool.and_eq_true] at ok
  cases kind : o.data with
  | v d => exact ⟨d, rfl, by rw [show (dstV o.data w).o = o.data from rfl, kind] at fits; exact fits⟩
  | _ => rw [show (dstV o.data w).o = o.data from rfl, kind] at ok; cases ok.1
theorem ld_gives (o : FM) (s : State) (q : Q) (phys : Nat → Nat) (performs : Performs (.ld o) s q) (wf : Memory.wf s.mem = true) (good : NoBadWord s q)
    (reaches : Reaches s q (memAddr o q.g) (sizeBytes o.size) .rd phys) (free : RequestsFree s q .load (accessesOf q phys (sizeBytes o.size))) :
    ∃ u t G g, exec (.ld o) s = .next t ∧ Continues q u t G g ∧ Loaded o q G (fun L => s.mem.loadNat (phys L) (sizeBytes o.size)) ∧
      SameLanes q G ∧ u.mem = s.mem ∧ u.sheets = s.sheets ∧ SameOthers s u q ∧ OnlyTraffic s u := by
  obtain ⟨d, data, fits⟩ := data_vector (o := o) (w := sizeW o.size) performs (sg := sigLd o) rfl (by simp [sigLd])
  have ok := (formed_sig _ s q performs (sigLd o) rfl).1
  simp only [sigLd, Bool.and_eq_true, Bool.or_eq_true, Bool.not_eq_true', decide_eq_true_eq] at ok
  obtain ⟨⟨⟨⟨size, -⟩, -⟩, extends_⟩, -⟩ := ok
  exact load_gives (src := fun _ s => s.mem) (fresh := fun _ => true) performs rfl data fits
    (fun signed => extends_.resolve_left (by simp [signed])) size wf good reaches free

/-- Settles O14: a load is traffic and one write of DATA; LDRO takes its numbers from memory or from the group's read-only view. -/
theorem loads : Obligations.Loads := by
  refine ⟨ld_gives, fun o s q phys performs _ wf good reaches free => ?_⟩
  obtain ⟨d, data, fits⟩ := data_vector (o := o) (w := sizeW o.size) performs (sg := sigLdro o) rfl (by simp [sigLdro])
  have ok := (formed_sig _ s q performs (sigLdro o) rfl).1
  simp only [sigLdro, Bool.and_eq_true, Bool.or_eq_true, Bool.not_eq_true', decide_eq_true_eq] at ok
  obtain ⟨⟨size, -⟩, extends_⟩ := ok
  exact load_gives (src := fun q s => if q.stale then q.g.roMem.getD s.mem else s.mem) (fresh := fun q => !q.stale) performs rfl data fits
    (fun signed => extends_.resolve_left (by simp [signed])) size wf good reaches free

end Sys2Proof.Proofs


/-!
The statement about stores (R306), and what a store on behalf of a sheet does to the machine.
-/
namespace Sys2Proof.Proofs
open Sys2Proof Sys2Proof.Machine Sys2Proof.Laws

/-! ### Traffic and writes that leave every group as it is -/

/-- Traffic, memory and the records of sheets; every group is as it was. -/
structure Written (s u : State) : Prop where
  traffic : OnlyTraffic s u
  grp : ∀ id, u.grp? id = s.grp? id

section
variable {s u v : State} {q : Q} {G : Group}

theorem Written.refl (s : State) : Written s s := ⟨⟨rfl, fun _ => rfl, fun _ => rfl⟩, fun _ => rfl⟩
theorem Written.trans (h : Written s u) (k : Written u v) : Written s v := by
  obtain ⟨⟨rest, cores, terms⟩, grp⟩ := h
  obtain ⟨⟨rest', cores', terms'⟩, grp'⟩ := k
  refine ⟨⟨?_, fun c => ?_, fun c => (terms' c).trans (terms c)⟩, fun id => (grp' id).trans (grp id)⟩
  · rw [← rest'] at rest
    exact rest
  · have := cores c
    rw [← cores' c] at this
    exact this
theorem Quiet.written (h : Quiet s u) : Written s u := by
  refine ⟨⟨?_, h.2.1, h.2.2⟩, fun id => quiet_grp h id⟩
  have := h.1
  have rest : { ({ u with cores := s.cores, clusters := s.clusters, dies := s.dies, bad := s.bad } : State) with
      groups := s.groups, cur := s.cur, mem := s.mem, sheets := s.sheets, snapUsed := s.snapUsed } = s := by rw [this]
  exact rest
theorem Touched.onlyTraffic_of_written (h : Touched s u q G) (k : Written u v) : OnlyTraffic s v := by
  obtain ⟨rest, cores, terms⟩ := h.onlyTraffic
  obtain ⟨rest', cores', terms'⟩ := k.traffic
  refine ⟨?_, fun c => ?_, fun c => (terms' c).trans (terms c)⟩
  · rw [← rest'] at rest
    exact rest
  · have := cores c
    rw [← cores' c] at this
    exact this
end

theorem written_snapPage (s : State) (sheet page : Nat) : Written s (s.snapPage sheet page) ∧ (s.snapPage sheet page).mem = s.mem := by
  unfold State.snapPage
  split
  · exact ⟨.refl s, rfl⟩
  · split
    · split
      · exact ⟨⟨⟨rfl, fun _ => rfl, fun _ => rfl⟩, fun _ => rfl⟩, rfl⟩
      · exact ⟨⟨⟨rfl, fun _ => rfl, fun _ => rfl⟩, fun _ => rfl⟩, rfl⟩
    · exact ⟨.refl s, rfl⟩
theorem written_mend (s : State) (pa n : Nat) : Written s (s.mend pa n) ∧ (s.mend pa n).mem = s.mem := by
  unfold State.mend
  split
  · exact ⟨.refl s, rfl⟩
  · exact ⟨⟨⟨rfl, fun _ => rfl, fun _ => rfl⟩, fun _ => rfl⟩, rfl⟩
/-- R418, R491: a store of a sheet is one store to memory beside traffic. -/
theorem written_sheetStore (s : State) (sheet pa : Nat) (bs : List Byte) :
    Written s (s.sheetStore sheet pa bs) ∧ (s.sheetStore sheet pa bs).mem = s.mem.store pa bs := by
  have snaps (ps : List Nat) (t : State) : Written t (ps.foldl (fun t p => t.snapPage sheet p) t) ∧
      (ps.foldl (fun t p => t.snapPage sheet p) t).mem = t.mem := by
    induction ps generalizing t with
    | nil => exact ⟨.refl t, rfl⟩
    | cons p ps ih =>
      obtain ⟨written, mem⟩ := ih (t.snapPage sheet p)
      exact ⟨(written_snapPage t sheet p).1.trans written, mem.trans (written_snapPage t sheet p).2⟩
  obtain ⟨written, mem⟩ := snaps (pagesOf pa bs.length) s
  unfold State.sheetStore
  dsimp only
  generalize (pagesOf pa bs.length).foldl (fun t p => t.snapPage sheet p) s = t at written mem
  obtain ⟨mended, memory⟩ := written_mend { t with mem := t.mem.store pa bs } pa bs.length
  have quiet := quiet_filterRange (({ t with mem := t.mem.store pa bs } : State).mend pa bs.length) pa bs.length
  have stored : Written t { t with mem := t.mem.store pa bs } := ⟨⟨rfl, fun _ => rfl, fun _ => rfl⟩, fun _ => rfl⟩
  refine ⟨((written.trans stored).trans mended).trans (Quiet.written quiet), ?_⟩
  rw [quiet_mem quiet, memory, ← mem]

/-! ### ST (R306) -/

@[simp] theorem length_leBytes (n x : Nat) : (leBytes n x).length = n := by
  induction n generalizing x with
  | zero => rfl
  | succ n ih => simp [leBytes, ih]
@[simp] theorem length_storeBytes (o : FM) (g : Group) (L : Nat) : (storeBytes o g L).length = sizeBytes o.size := by
  unfold storeBytes
  dsimp only
  split
  · split
    next four => rw [eq_of_beq four]; simp [List.range_succ, sizeBytes]
    next => exact length_leBytes _ _
  · exact length_leBytes _ _
/-- Stores one after another: of the bytes that several cover, the last one's stands. -/
theorem read_stores (phys : Nat → Nat) (n : Nat) (bytes : Nat → List Byte) (length : ∀ L, (bytes L).length = n) (m : Mem) (ls : List Nat) (a : Nat) :
    (ls.foldl (fun m L => m.store (phys L) (bytes L)) m).read a =
      match ls.reverse.find? fun L => decide (phys L ≤ a) && decide (a < phys L + n) with
      | some L => (bytes L).getD (a - phys L) 0#8
      | none => m.read a := by
  induction ls using List.reverseRecOn with
  | nil => rfl
  | append_singleton ls L ih =>
    rw [List.foldl_append, List.reverse_append, List.reverse_singleton, List.singleton_append, List.find?_cons]
    simp only [List.foldl_cons, List.foldl_nil]
    cases covers : decide (phys L ≤ a) && decide (a < phys L + n) with
    | true =>
      obtain ⟨low, high⟩ : phys L ≤ a ∧ a < phys L + n := by simpa using covers
      have inside : a - phys L < (bytes L).length := by rw [length]; omega
      have at_ := read_store_inside (ls.foldl (fun m L => m.store (phys L) (bytes L)) m) (phys L) (bytes L) (a - phys L) inside
      rw [show phys L + (a - phys L) = a by omega] at at_
      simp [at_, List.getD_eq_getElem?_getD, inside]
    | false =>
      have outside : phys L ≤ a → phys L + n ≤ a := by simpa using covers
      rw [read_store_outside _ _ _ _ (by rw [length]; omega), ih]
theorem written_stores (sheet : Nat) (bytes : Nat → List Byte) (es : List (Nat × Nat)) (s : State) :
    Written s (es.foldl (fun u e => u.sheetStore sheet e.2 (bytes e.1)) s) ∧
    (es.foldl (fun u e => u.sheetStore sheet e.2 (bytes e.1)) s).mem = es.foldl (fun m e => m.store e.2 (bytes e.1)) s.mem := by
  induction es generalizing s with
  | nil => exact ⟨.refl s, rfl⟩
  | cons e es ih =>
    obtain ⟨written, mem⟩ := written_sheetStore s sheet e.2 (bytes e.1)
    obtain ⟨rest, memory⟩ := ih (s.sheetStore sheet e.2 (bytes e.1))
    refine ⟨written.trans rest, ?_⟩
    rw [List.foldl_cons, memory, mem]
    rfl
/-- Settles O15: traffic, then the lanes' stores in lane order. -/
theorem stores : Obligations.Stores := by
  intro o s q phys performs good reaches free
  let as := accessesOf q phys (sizeBytes o.size)
  let pas := (lanesOf q.g.width q.act).map fun L => (L, phys L)
  let use := storeUse q.g (fmScope o) (fmOrd o)
  obtain ⟨t, touched, lines⟩ := withLines_touched performs.issues free
  let t1 := ((touchLanes q (memAddr o q.g) .wr t).releasePart q.g (fmScope o) (fmOrd o) (linesOf as)).useCaches q.core use as as
  let t2 := t1.filterLines (linesOf as) false
  let u := pas.foldl (fun u e => u.sheetStore q.g.sheet e.2 (storeBytes o q.g e.1)) t2
  have before : Touched s t2 q q.g :=
    (((touched.quiet (quiet_touchLanes q (memAddr o q.g) .wr t)).quiet (quiet_releasePart _ q.g (fmScope o) (fmOrd o) (linesOf as))).quiet
      (quiet_useCaches _ q.core use as as)).quiet (quiet_filterLines t1 (linesOf as) false)
  obtain ⟨written, memory⟩ := written_stores q.g.sheet (storeBytes o q.g) pas t2
  have grp : u.grp? q.g.id = some q.g := (written.grp _).trans before.grp
  have runs : exec (.st o) s = _ := show execSt o s = _ by unfold execSt; rfl
  obtain ⟨v, h, g, next, continues⟩ := goes_of (u := u) _ _ s q _ performs runs (by
    dsimp only
    rw [withAddrs_ok q s _ _ _ _ phys (sizeBytes_pos _) reaches, badLanes_none good, if_neg (by decide), pageLanes_none reaches, List.map_map]
    exact lines _) grp performs.unstepped (shaped_lanes _ performs.shaped)
  obtain rfl : q.g = h := by
    have := continues.before
    rw [grp] at this
    exact Option.some.inj this
  refine ⟨u, v, _, g, next, continues, fun a => ?_, rfl, fun id other => ?_, before.onlyTraffic_of_written written⟩
  · rw [memory, before.mem, List.foldl_map]
    exact read_stores phys _ _ (length_storeBytes o q.g) _ _ _
  · rw [written.grp, before.others id other]

end Sys2Proof.Proofs


/-!
The statement about atomics (R292, R309, R310), and how conditions of lanes settle.
-/
namespace Sys2Proof.Proofs
open Sys2Proof Sys2Proof.Machine Sys2Proof.Laws

/-! ### Conditions of lanes -/

/-- Where the conditions of some lanes are faults of one cause and those of the others are met, the fault is taken in those lanes, with the
address of the lowest. -/
theorem settleConds_faults {w : Nat} {m : Mask} {cond : Nat → Option Cond} {p : Nat → Bool} {c : Cause} {a : Nat → DWord} (s : State)
    (k : Unit → Res) (small : w ≤ 64) (conds : ∀ L, L < w → m.getLsbD L = true → cond L = if p L then some (.fault c (a L)) else none)
    (some_ : ∃ L, L < w ∧ m.getLsbD L = true ∧ p L = true) :
    let mask := maskOf w fun L => m.getLsbD L && p L
    settleConds ((lanesOf w m).map fun L => (L, cond L)) s k = .trap c mask (a (lowest mask)) 0 s := by
  intro mask
  have bits (L : Nat) : mask.getLsbD L = (decide (L < w) && (m.getLsbD L && p L)) := getLsbD_maskOf w small _ L
  obtain ⟨E, inside, executes, fails⟩ := some_
  have chosen : mask.getLsbD (lowest mask) = true := lowest_mem mask fun empty => by
    have := bits E
    simp [empty, inside, executes, fails] at this
  have first (ls : List Nat) (within : ∀ L ∈ ls, L < w) : (ls.filter fun L => m.getLsbD L).findSome? cond =
      (ls.find? fun L => m.getLsbD L && p L).map fun L => Cond.fault c (a L) := by
    induction ls with
    | nil => rfl
    | cons L ls ih =>
      have rest := ih fun M mem => within M (List.mem_cons_of_mem _ mem)
      rw [List.filter_cons, List.find?_cons]
      cases act : m.getLsbD L with
      | false => simpa using rest
      | true =>
        have here := conds L (within L List.mem_cons_self) act
        cases bad : p L with
        | false => simpa [List.findSome?_cons, here, bad] using rest
        | true => simp [here, bad]
  have low : (List.range w).find? (fun L => m.getLsbD L && p L) = some (lowest mask) := by
    rw [bits, Bool.and_eq_true, decide_eq_true_eq] at chosen
    refine List.find?_range_eq_some.mpr ⟨chosen.2, List.mem_range.mpr chosen.1, fun M below => ?_⟩
    rw [Bool.not_eq_true']
    by_contra holds
    have := lowest_min mask M (by rw [bits, Bool.and_eq_true, decide_eq_true_eq]; exact ⟨by omega, by simpa using holds⟩)
    omega
  have lanes : (((lanesOf w m).map fun L => (L, cond L)).filter fun e => match e.2 with
      | some d => d.isFault c
      | none => false).map (·.1) = (List.range w).filter fun L => m.getLsbD L && p L := by
    rw [List.filter_map, List.map_map, lanesOf, List.filter_filter]
    refine (List.map_id _).trans (List.filter_congr fun L mem => ?_)
    cases act : m.getLsbD L with
    | false => simp
    | true =>
      have here := conds L (List.mem_range.mp mem) act
      cases bad : p L <;> simp [here, bad, Cond.isFault]
  unfold settleConds
  rw [List.findSome?_map, show (Prod.snd ∘ fun L => (L, cond L)) = cond from rfl, lanesOf, first _ fun L => List.mem_range.mp, low]
  dsimp only [Option.map_some]
  exact congrArg (fun ls => Res.trap c (Mask.ofLanes ls) (a (lowest mask)) 0 s) lanes

/-! ### A group changed beside traffic and writes -/

/-- Traffic and writes of the sheet, and the group of the issue made G. -/
structure Altered (s u : State) (q : Q) (G : Group) : Prop where
  traffic : OnlyTraffic s u
  others : ∀ id, id ≠ q.g.id → u.grp? id = s.grp? id
  grp : u.grp? q.g.id = some G

section
variable {s u v : State} {q : Q} {G : Group}

theorem Touched.altered (h : Touched s u q G) (k : Written u v) : Altered s v q G :=
  ⟨h.onlyTraffic_of_written k, fun id other => (k.grp id).trans (h.others id other), (k.grp _).trans h.grp⟩
theorem Altered.modGrp (h : Altered s u q G) (f : Group → Group) (id : ∀ g, (f g).id = g.id) : Altered s (u.modGrp q.g.id f) q (f G) := by
  refine ⟨h.traffic, fun k other => ?_, ?_⟩
  · rw [grp_modGrp u q.g.id k f id, if_neg other]
    exact h.others k other
  · rw [grp_modGrp u q.g.id q.g.id f id, if_pos rfl, h.grp]
    rfl
theorem Altered.setGrp (h : Altered s u q G) {H : Group} (id : H.id = q.g.id) : Altered s (u.setGrp H) q H := by
  refine ⟨h.traffic, fun k other => ?_, ?_⟩
  · rw [others_setGrp u H k (by rw [id]; exact other)]
    exact h.others k other
  · rw [grp_setGrp, if_pos id.symm, h.grp]
    rfl
theorem Altered.sameOthers (h : Altered s u q G) : SameOthers s u q := fun id other => by rw [h.others id other]
end

/-! ### Lanes one after another (R309, R310) -/

/-- Memory after the lanes below L of m have acted in turn. -/
def actedMem (n : Nat) (new : Nat → Nat → Option Nat) (phys : Nat → Nat) (m : Mask) (mem : Mem) : Nat → Mem
  | 0 => mem
  | L + 1 =>
    if m.getLsbD L then match new L ((actedMem n new phys m mem L).loadNat (phys L) n) with
      | some x => (actedMem n new phys m mem L).store (phys L) (leBytes n x)
      | none => actedMem n new phys m mem L
    else actedMem n new phys m mem L
theorem atomLanes_append (n : Nat) (f : Nat → Nat → Option Nat) (sheet : Nat) (es es' : List (Nat × Nat)) (s : State) :
    atomLanes n f sheet (es ++ es') s =
      ((atomLanes n f sheet es s).1 ++ (atomLanes n f sheet es' (atomLanes n f sheet es s).2).1,
        (atomLanes n f sheet es' (atomLanes n f sheet es s).2).2) := by
  induction es generalizing s with
  | nil => rfl
  | cons e es ih =>
    obtain ⟨L, pa⟩ := e
    simp only [List.cons_append, atomLanes, ih]
theorem lanesOf_succ (w : Nat) (m : Mask) : lanesOf (w + 1) m = lanesOf w m ++ if m.getLsbD w then [w] else [] := by
  unfold lanesOf
  rw [List.range_succ, List.filter_append, List.filter_singleton, cond_eq_ite]
/-- The state after the lanes have acted, and what each read. -/
theorem atomLanes_lanes (n : Nat) (f : Nat → Nat → Option Nat) (sheet : Nat) (phys : Nat → Nat) (m : Mask) (s : State) (w : Nat) :
    let ran := atomLanes n f sheet ((lanesOf w m).map fun L => (L, phys L)) s
    ran.1 = (lanesOf w m).map (fun L => (L, (actedMem n f phys m s.mem L).loadNat (phys L) n)) ∧
    Written s ran.2 ∧ ran.2.mem = actedMem n f phys m s.mem w := by
  induction w with
  | zero => exact ⟨rfl, .refl s, rfl⟩
  | succ w ih =>
    obtain ⟨reads, written, mem⟩ := ih
    rw [lanesOf_succ]
    cases act : m.getLsbD w with
    | false =>
      simp only [Bool.false_eq_true, if_false, List.append_nil, actedMem, act]
      exact ⟨reads, written, mem⟩
    | true =>
      simp only [if_true, List.map_append, List.map_cons, List.map_nil, atomLanes_append, atomLanes, actedMem, act, reads, mem, true_and]
      cases new : f w ((actedMem n f phys m s.mem w).loadNat (phys w) n) with
      | none => exact ⟨written, mem⟩
      | some x =>
        obtain ⟨stored, memory⟩ := written_sheetStore (atomLanes n f sheet ((lanesOf w m).map fun L => (L, phys L)) s).2 sheet (phys w) (leBytes n x)
        exact ⟨written.trans stored, by rw [memory, mem]⟩

/-! ### ATOM and CAS -/

theorem atomCond_free {s : State} {q : Q} {addr : Nat → Int} {n : Nat} {phys : Nat → Nat} (pos : 0 < n) (reaches : Reaches s q addr n .rw phys)
    {L : Nat} (executes : q.act.getLsbD L = true) :
    s.atomCond q.g (addr L) n = if paHost (phys L) then some (.fault .access (addrOf (addr L))) else none := by
  obtain ⟨-, range, route⟩ := reaches L executes
  unfold State.atomCond
  rw [range, segs_head _ _ _ _ _ _ pos route]
/-- R309, R310: an atomic whose lanes all reach memory that is not over PCIe. -/
theorem atomic_gives {i : Instr} {o : FM} {n w : Nat} {f : Q → Nat → Nat → Option Nat} {s : State} {q : Q} {phys : Nat → Nat} {d : BitVec 8}
    (performs : Performs i s q) (runs : exec i s = runI i (atomicOp o n f w) s) (pos : 0 < n) (data : o.data = .v d)
    (fits : d.toNat + w ≤ q.g.vcount) (wide : w = 1 ∨ w = 2) (good : NoBadWord s q) (reaches : Reaches s q (atomAddr o q.g) n .rw phys)
    (memory : ∀ L, q.act.getLsbD L = true → paHost (phys L) = false)
    (free : RequestsFree s q (s.atomUse q.g (fmScope o) (fmOrd o)) (accessesOf q phys n)) :
    ∃ u t G g, exec i s = .next t ∧ Continues q u t G g ∧ SameLanes q G ∧ SameOthers s u q ∧ OnlyTraffic s u ∧
      u.mem = actedMem n (f q) phys q.act s.mem q.g.width ∧
      Dest o.data w false q G (fun L => BitVec.ofNat 64 ((actedMem n (f q) phys q.act s.mem L).loadNat (phys L) n)) := by
  let as := accessesOf q phys n
  let pas := (lanesOf q.g.width q.act).map fun L => (L, phys L)
  let use := s.atomUse q.g (fmScope o) (fmOrd o)
  obtain ⟨t, touched, lines⟩ := withLines_touched performs.issues free
  let xs := (atomLanes n (f q) q.g.sheet pas t).1
  let wrote := (pas.filter fun e => (f q e.1 (getK xs 0 e.1)).isSome).map fun e => (e.2, n)
  let t1 := (touchLanes q (atomAddr o q.g) .rw t).acquirePart q.g (fmScope o) (fmOrd o) (linesOf as)
  let t2 := if wrote.isEmpty then t1 else t1.releasePart q.g (fmScope o) (fmOrd o) (linesOf wrote)
  let t3 := (t2.useCaches q.core use as wrote).filterLines (linesOf as) true
  obtain ⟨seen, acquired⟩ := (touched.quiet (quiet_touchLanes q (atomAddr o q.g) .rw t)).acquirePart (fmScope o) (fmOrd o) (linesOf as)
  have released : Touched s t2 q { q.g with seen := q.g.seen ++ seen } := by
    simp only [t2]
    split
    · exact acquired
    · exact acquired.quiet (quiet_releasePart _ _ _ _ _)
  have before : Touched s t3 q { q.g with seen := q.g.seen ++ seen } :=
    (released.quiet (quiet_useCaches _ q.core use as wrote)).quiet (quiet_filterLines _ (linesOf as) true)
  obtain ⟨reads, -, -⟩ := atomLanes_lanes n (f q) q.g.sheet phys q.act t q.g.width
  obtain ⟨-, written, mem⟩ := atomLanes_lanes n (f q) q.g.sheet phys q.act t3 q.g.width
  rw [touched.mem] at reads
  rw [before.mem] at mem
  let t4 := (atomLanes n (f q) q.g.sheet pas t3).2
  obtain ⟨ro, refreshed⟩ : ∃ ro, Altered s (t4.freshen q.g.id as) q { q.g with seen := q.g.seen ++ seen, roMem := ro } :=
    ⟨_, (before.altered written).modGrp _ fun _ => rfl⟩
  let G : Group := { q.g with seen := q.g.seen ++ seen, roMem := ro }
  let vals := (List.range q.g.width).map fun L => BitVec.ofNat 64 (getK xs 0 L)
  have regs := RegsOnly.writeV G q.pf d.toNat w q.act vals
  have stored := refreshed.setGrp (H := G.writeV q.pf d.toNat w q.act vals) regs.fields.1
  obtain ⟨v, h, g, next, continues⟩ := goes_of (u := (t4.freshen q.g.id as).setGrp (G.writeV q.pf d.toNat w q.act vals)) i _ s q _ performs runs (by
    unfold atomicOp
    dsimp only
    rw [settleConds_none _ _ _ (by
      rintro e mem
      obtain ⟨e', mem', rfl⟩ := List.mem_map.mp mem
      obtain ⟨L, lane, rfl⟩ := List.mem_map.mp mem'
      have executes := ((mem_lanesOf _ _ _).mp lane).2
      rw [atomCond_free pos reaches executes, memory L executes]
      rfl)]
    rw [badLanes_none good, if_neg (by decide)]
    have addresses : (laneAddrs q (atomAddr o q.g)).map (fun e => (e.1, ((s.segs q.g e.2.toNat n .rw).headD (0, 0)).1)) = pas := by
      rw [laneAddrs, List.map_map]
      refine List.map_congr_left fun L lane => ?_
      exact congrArg (Prod.mk L) (segs_head _ _ _ _ _ _ pos (reaches L ((mem_lanesOf _ _ _).mp lane).2).2.2)
    rw [addresses]
    have list : pas.map (fun e => (e.2, n)) = as := List.map_map
    rw [list]
    refine (lines _).trans ?_
    rw [data]
    change Res.ok ((t4.freshen q.g.id as).setGrp ((((t4.freshen q.g.id as).grp? q.g.id).getD q.g).writeV q.pf d.toNat w q.act vals)) = _
    rw [refreshed.grp]
    rfl) stored.grp (regs.fields.2.1.trans performs.unstepped) ((congrArg List.length regs.fields.2.2.2.1).trans (shaped_lanes _ performs.shaped))
  obtain rfl : G.writeV q.pf d.toNat w q.act vals = h := by
    have := continues.before
    rw [stored.grp] at this
    exact Option.some.inj this
  refine ⟨_, v, _, g, next, continues, regs.sameLanes ⟨rfl, rfl, rfl, rfl, rfl, rfl, rfl⟩, stored.sameOthers, stored.traffic, mem, ?_⟩
  rw [data]
  refine dest_congr_act performs.executes (fun L lane act => ?_)
    (dest_writeV (G := G) (signed := false) performs.shaped rfl rfl rfl wide fits (vals := vals) (by simp [vals]))
  have inside : L < q.g.width := lane.elim id fun low => low ▸ lowest_width _ _ _ performs
  have read : getK xs 0 L = (actedMem n (f q) phys q.act s.mem L).loadNat (phys L) n := by
    simp only [xs, pas, reads]
    exact getK_lanes _ _ (fun L => (actedMem n (f q) phys q.act s.mem L).loadNat (phys L) n) _ inside act
  simp only [vals]
  rw [range_getD _ _ _ _ inside, read]
  exact ⟨rfl, fun _ => rfl⟩

theorem loadNat_lt (mem : Mem) (a n : Nat) : mem.loadNat a n < 2 ^ (8 * n) := by
  have := leNat_lt (mem.load a n)
  rwa [show (mem.load a n).length = n by simp [Mem.load]] at this
/-- R309: the table of operations, on words of n bits. -/
theorem rmw_words {n old : Nat} (pos : 0 < n) (op d : Nat) (small : old < 2 ^ n) :
    rmw op n old (d % 2 ^ n) =
      let a := BitVec.ofNat n old
      let b := BitVec.ofNat n d
      match op with
      | 0 => (a + b).toNat
      | 1 => (if a.toInt ≤ b.toInt then a else b).toNat
      | 2 => (if a.toNat ≤ b.toNat then a else b).toNat
      | 3 => (if b.toInt ≤ a.toInt then a else b).toNat
      | 4 => (if b.toNat ≤ a.toNat then a else b).toNat
      | 5 => (a &&& b).toNat
      | 6 => (a ||| b).toNat
      | 7 => (a ^^^ b).toNat
      | 8 => b.toNat
      | _ => (fpRoundV fp32 (fAddV (fp32.decode old) (fp32.decode b.toNat) .rne).v .rne).bits := by
  have kept : (BitVec.ofNat n old).toNat = old := by rw [BitVec.toNat_ofNat, Nat.mod_eq_of_lt small]
  have cut : (BitVec.ofNat n d).toNat = d % 2 ^ n := BitVec.toNat_ofNat ..
  have signed (x : Nat) : readInt x n true = (BitVec.ofNat n x).toInt := readInt_bits n x true pos
  have word : BitVec.ofNat n (d % 2 ^ n) = BitVec.ofNat n d := BitVec.eq_of_toNat_eq (by simp)
  match op with
  | 0 => simp only [rmw, BitVec.toNat_add, kept, cut]
  | 1 | 3 => simp only [rmw, signed, word, apply_ite BitVec.toNat, kept, cut]
  | 2 => simp only [rmw, apply_ite BitVec.toNat, kept, cut, Nat.min_def]
  | 4 =>
    simp only [rmw, apply_ite BitVec.toNat, kept, cut, Nat.max_def]
    split <;> split <;> omega
  | 5 | 6 | 7 => simp only [rmw, BitVec.toNat_and, BitVec.toNat_or, BitVec.toNat_xor, kept, cut]
  | 8 | _ + 9 => simp only [rmw, cut]

/-- The conclusion of `atomic_gives` with the new values as a function that agrees with the model's on what lanes can read. -/
theorem atomic_lanes {i : Instr} {o : FM} {n w : Nat} {f : Q → Nat → Nat → Option Nat} {new : Nat → Nat → Option Nat} {s : State} {q : Q} {phys : Nat → Nat}
    {d : BitVec 8} (performs : Performs i s q) (runs : exec i s = runI i (atomicOp o n f w) s) (pos : 0 < n) (data : o.data = .v d)
    (fits : d.toNat + w ≤ q.g.vcount) (wide : w = 1 ∨ w = 2) (agree : ∀ L old, old < 2 ^ (8 * n) → f q L old = new L old)
    (good : NoBadWord s q) (reaches : Reaches s q (atomAddr o q.g) n .rw phys) (memory : ∀ L, q.act.getLsbD L = true → paHost (phys L) = false)
    (free : RequestsFree s q (s.atomUse q.g (fmScope o) (fmOrd o)) (accessesOf q phys n)) :
    ∃ u t G g, exec i s = .next t ∧ Continues q u t G g ∧ SameLanes q G ∧ SameOthers s u q ∧ OnlyTraffic s u ∧
      ∃ m : Nat → Mem, m 0 = s.mem ∧ m q.g.width = u.mem ∧
        (∀ L, L < q.g.width → m (L + 1) = if q.act.getLsbD L then
            match new L ((m L).loadNat (phys L) n) with
            | some x => (m L).store (phys L) (leBytes n x)
            | none => m L
          else m L) ∧
        Dest o.data w false q G (fun L => BitVec.ofNat 64 ((m L).loadNat (phys L) n)) := by
  obtain ⟨u, t, G, g, next, continues, lanes, others, traffic, mem, dest⟩ :=
    atomic_gives performs runs pos data fits wide good reaches memory free
  refine ⟨u, t, G, g, next, continues, lanes, others, traffic, actedMem n (f q) phys q.act s.mem, rfl, mem.symm, fun L _ => ?_, dest⟩
  rw [actedMem, agree L _ (loadNat_lt _ _ _)]
theorem atom_size {o : FM} {s : State} {q : Q} (performs : Performs (.atom o) s q) : o.size = 2#4 ∨ o.size = 3#4 := by
  have ok := (formed_sig _ s q performs (sigAtom o) rfl).1
  simp only [sigAtom, Bool.and_eq_true, Bool.or_eq_true, beq_iff_eq] at ok
  obtain ⟨⟨⟨⟨size | ⟨size, -⟩, -⟩, -⟩, -⟩, -⟩ := ok
  · exact .inl size
  · exact .inr size
theorem cas_size {o : FM} {s : State} {q : Q} (performs : Performs (.cas o) s q) : o.size = 3#4 ∨ o.size = 4#4 := by
  have ok := (formed_sig _ s q performs (sigCas o) rfl).1
  simp only [sigCas, Bool.and_eq_true, Bool.or_eq_true, beq_iff_eq] at ok
  obtain ⟨⟨⟨⟨size, -⟩, -⟩, -⟩, -⟩ := ok
  exact size
/-- R292: lanes whose memory lies over PCIe. -/
theorem atomic_host {i : Instr} {o : FM} {n w : Nat} {f : Q → Nat → Nat → Option Nat} {s : State} {q : Q} {phys : Nat → Nat}
    (performs : Performs i s q) (runs : exec i s = runI i (atomicOp o n f w) s) (pos : 0 < n) (reaches : Reaches s q (atomAddr o q.g) n .rw phys)
    (some_ : ∃ L, q.act.getLsbD L = true ∧ paHost (phys L) = true) :
    let host := maskOf q.g.width fun L => q.act.getLsbD L && paHost (phys L)
    Traps i s q .access host (addrOf (atomAddr o q.g (lowest host))) 0 s := by
  obtain ⟨E, executes, pcie⟩ := some_
  refine trap_of i _ s s q q.g _ _ _ _ performs runs ?_ (issuing_grp i s q performs.issues)
  unfold atomicOp
  dsimp only
  rw [laneAddrs, List.map_map]
  exact settleConds_faults (cond := fun L => s.atomCond q.g (atomAddr o q.g L) n) (a := fun L => addrOf (atomAddr o q.g L)) s _
    (shaped_width _ performs.shaped) (fun L _ act => atomCond_free pos reaches act) ⟨E, act_width i s q performs E executes, executes, pcie⟩

/-- What CAS writes where a lane reads `old` (R310): DATA holds the value to compare and, above it, the new one. -/
def casNew (o : FM) (g : Group) (L old : Nat) : Option Nat :=
  match o.data with
  | .v d =>
    let c := if sizeBytes o.size = 8 then (g.v d.toNat L).toNat else (g.v64 d.toNat L).toNat
    let x := if sizeBytes o.size = 8 then (g.v (d.toNat + 1) L).toNat else (g.v64 (d.toNat + 2) L).toNat
    if old = c then some x else none
  | _ => none

/-- Settles O16: the lanes act one after another; lanes over PCIe trap before any acts. -/
theorem atomics : Obligations.Atomics := by
  refine ⟨fun o s q phys => ⟨fun performs _ good reaches memory free => ?_, fun performs _ good reaches memory free => ?_⟩,
    fun o s q phys some_ => ⟨fun performs reaches => ?_, fun performs reaches => ?_⟩⟩
  · obtain ⟨d, data, fits⟩ := data_vector (o := o) (w := sizeW o.size) performs (sg := sigAtom o) rfl (by simp [sigAtom])
    have wide : sizeW o.size = 1 ∨ sizeW o.size = 2 := (atom_size performs).imp (fun size => by rw [size]; rfl) fun size => by rw [size]; rfl
    exact atomic_lanes performs rfl (sizeBytes_pos _) data fits wide
      (fun L old small => congrArg some (rmw_words (Nat.mul_pos (by decide) (sizeBytes_pos _)) _ _ small)) good reaches memory free
  · obtain ⟨d, data, fits⟩ := data_vector (o := o) (w := sizeW o.size / 2) performs (sg := sigCas o) rfl (by simp [sigCas])
    have wide : sizeW o.size / 2 = 1 ∨ sizeW o.size / 2 = 2 := (cas_size performs).imp (fun size => by rw [size]; rfl) fun size => by rw [size]; rfl
    have pos : 0 < sizeBytes o.size / 2 := (cas_size performs).elim (fun size => by rw [size]; decide) fun size => by rw [size]; decide
    refine atomic_lanes (new := casNew o q.g) performs rfl pos data fits wide (fun L old _ => ?_) good reaches memory free
    unfold casPair casNew
    rw [data]
    obtain size | size := cas_size performs
    · simp [size, sizeBytes]
    · simp [size, sizeBytes]
  · exact atomic_host performs rfl (sizeBytes_pos _) reaches some_
  · have pos : 0 < sizeBytes o.size / 2 := (cas_size performs).elim (fun size => by rw [size]; decide) fun size => by rw [size]; decide
    exact atomic_host performs rfl pos reaches some_

end Sys2Proof.Proofs


/-!
The statement about fences, prefetch and queries (R294, R308, R311, R312, R333, R334).
-/
namespace Sys2Proof.Proofs
open Sys2Proof Sys2Proof.Machine Sys2Proof.Laws

/-! ### Fences (R308, R311) -/

/-- A fence is traffic beside the group's records of what it has seen and released. -/
theorem Touched.fenceOf {s u : State} {q : Q} (h : Touched s u q q.g) (sc ord : Nat) :
    ∃ seen rel, Touched s (u.fenceOf q.g sc ord) q { q.g with seen, relFence := rel } ∧ (isRel ord = false → rel = q.g.relFence) ∧
      (isAcq ord = true → 3 ≤ sc → seen = []) := by
  obtain ⟨rel, released, kept⟩ : ∃ rel, Touched s (if isRel ord then (u.releaseAt q.g.core sc (u.pairedOf q.g)).modGrp q.g.id fun g =>
      { g with relFence := if 4 ≤ sc then false else g.relFence || sc ≤ 2 } else u) q { q.g with relFence := rel } ∧
      (isRel ord = false → rel = q.g.relFence) := by
    cases releases : isRel ord with
    | false => exact ⟨q.g.relFence, h, fun _ => rfl⟩
    | true => exact ⟨_, (h.quiet (quiet_releaseAt _ _ _ _)).modGrp _ fun _ => rfl, fun not => absurd not (by decide)⟩
  unfold State.fenceOf
  dsimp only
  generalize (if isRel ord then (u.releaseAt q.g.core sc (u.pairedOf q.g)).modGrp q.g.id fun g =>
    { g with relFence := if 4 ≤ sc then false else g.relFence || sc ≤ 2 } else u) = v at released
  cases acquires : isAcq ord with
  | false => exact ⟨q.g.seen, rel, released, kept, fun not => absurd not (by decide)⟩
  | true =>
    have promoted : Touched s (if 3 ≤ sc then v.promote q.g.core q.g.seen else v) q { q.g with relFence := rel } := by
      split
      · exact released.quiet (quiet_promote _ _ _)
      · exact released
    exact ⟨_, rel, (promoted.quiet (quiet_acquireAt _ _ _ _)).modGrp _ fun _ => rfl, kept, fun _ far => if_pos far⟩

/-- No mark in any die names the core. -/
def Unmarked (s : State) (core : Nat) : Prop := ∀ d ∈ s.dies, ∀ e ∈ d.2.marks, e.2 ≠ core
theorem mem_setK {α : Type} {m : List (Nat × α)} {k : Nat} {x : α} {e : Nat × α} (mem : e ∈ setK m k x) : e = (k, x) ∨ e ∈ m := by
  unfold setK at mem
  split at mem
  · obtain ⟨f, inside, rfl⟩ := List.mem_map.mp mem
    split
    · exact .inl rfl
    · exact .inr inside
  · obtain inside | here := List.mem_append.mp mem
    · exact .inr inside
    · exact .inl (List.mem_singleton.mp here)
theorem die_mem (s : State) (k : Nat) : s.die k = Die.init ∨ (∃ d ∈ s.dies, d.2 = s.die k) := by
  unfold State.die getK
  cases found : s.dies.find? fun e => e.1 == k with
  | none => exact .inl rfl
  | some e => exact .inr ⟨e, List.mem_of_find?_eq_some found, rfl⟩
theorem Unmarked.modDie {s : State} {core : Nat} (h : Unmarked s core) (k : Nat) {f : Die → Die} (fewer : ∀ d, ∀ e ∈ (f d).marks, e ∈ d.marks) :
    Unmarked (s.modDie k f) core := by
  rintro d mem e mark
  obtain rfl | mem := mem_setK mem
  · have mark := fewer _ e mark
    obtain new | ⟨d, inside, same⟩ := die_mem s k
    · rw [new] at mark
      cases mark
    · exact h d inside e (same ▸ mark)
  · exact h d mem e mark
theorem Unmarked.flushL1 {s : State} {core : Nat} (h : Unmarked s core) (k : Nat) (device : Bool) : Unmarked (s.flushL1 k device) core := by
  unfold State.flushL1
  dsimp only
  split
  · exact h
  · refine Unmarked.modDie ?_ _ fun _ _ mark => mark
    exact h
theorem Unmarked.promote {s : State} {core : Nat} (h : Unmarked s core) (k : Nat) (lines : List Nat) : Unmarked (s.promote k lines) core := by
  unfold State.promote
  induction lines generalizing s with
  | nil => exact h
  | cons l lines ih =>
    refine ih ?_
    dsimp only
    split
    · exact (h.flushL1 _ _).modDie _ fun _ _ mark => List.mem_of_mem_filter mark
    · exact h
theorem Unmarked.acquireAt {s : State} {core : Nat} (h : Unmarked s core) (k sc : Nat) (paired : Bool) : Unmarked (s.acquireAt k sc paired) core := by
  have cores : Unmarked (if 3 ≤ sc || (sc == 2 && paired) then
      s.modCore k fun c => { c with l1 := dropClean c.l1, badL1 := badHeld c.badL1 (dropClean c.l1) } else s) core := by
    split
    · exact h
    · exact h
  unfold State.acquireAt
  dsimp only
  split
  · exact cores.modDie _ fun _ _ mark => mark
  · exact cores
theorem unmarked_clearMarks (s : State) (core : Nat) : Unmarked (s.clearMarks core) core := by
  rintro d mem e mark
  obtain ⟨⟨k, d'⟩, -, rfl⟩ := List.mem_map.mp mem
  simpa using (List.mem_filter.mp mark).2
/-- R294: a fence that releases at device or system scope leaves its core no mark. -/
theorem unmarked_fenceOf (s : State) (g : Group) {sc ord : Nat} (releases : isRel ord = true) (wide : 4 ≤ sc) : Unmarked (s.fenceOf g sc ord) g.core := by
  have released : Unmarked (s.releaseAt g.core sc (s.pairedOf g)) g.core := by
    unfold State.releaseAt
    dsimp only
    rw [if_pos wide]
    exact unmarked_clearMarks _ _
  unfold State.fenceOf
  dsimp only
  rw [if_pos releases, if_pos (show 3 ≤ sc by omega)]
  split
  · exact Unmarked.acquireAt (Unmarked.promote (s := State.modGrp _ _ _) released _ _) _ _ _
  · exact released

/-! ### Prefetch (R312) -/

/-- Traffic in which one group alone asks for lines at a core. -/
def Asks (core gid : Nat) (s u : State) : Prop :=
  Quiet s u ∧ ((∃ i, s.cur = some i ∧ i.gid = gid) → ∃ ls : List Nat, (u.core core).reqs = (s.core core).reqs ++ ls.map fun line => ({ gid, line } : LineReq))

section
variable {core gid : Nat} {s u v : State}

theorem Asks.refl (s : State) : Asks core gid s s := ⟨quiet_refl s, fun _ => ⟨[], (List.append_nil _).symm⟩⟩
theorem Asks.trans (h : Asks core gid s u) (k : Asks core gid u v) : Asks core gid s v := by
  refine ⟨quiet_trans h.1 k.1, fun issue => ?_⟩
  obtain ⟨ls, asked⟩ := h.2 issue
  have same : u.cur = s.cur := by have := congrArg State.cur h.1.1; exact this
  obtain ⟨ls', asked'⟩ := k.2 (same ▸ issue)
  exact ⟨ls ++ ls', by rw [asked', asked, List.map_append, List.append_assoc]⟩
theorem Asks.foldl {α : Type} {f : State → α → State} (each : ∀ s a, Asks core gid s (f s a)) (as : List α) (s : State) :
    Asks core gid s (as.foldl f s) := by
  induction as generalizing s with
  | nil => exact .refl s
  | cons a as ih => exact (each s a).trans (ih _)
/-- Traffic that asks for no line. -/
theorem Asks.of_reqs (quiet : Quiet s u) (reqs : ∀ c, (u.core c).reqs = (s.core c).reqs) : Asks core gid s u :=
  ⟨quiet, fun _ => ⟨[], by rw [reqs, List.map_nil, List.append_nil]⟩⟩
theorem Asks.modDie (s : State) (k : Nat) (f : Die → Die) : Asks core gid s (s.modDie k f) := .of_reqs (quiet_modDie s k f) fun _ => rfl
/-- A change of one core that appends to its requests. -/
theorem Asks.modCore {k : Nat} {f : Core → Core} (ws : List Nat)
    (quiet : ∀ c, { f c with tlb := c.tlb, reqs := c.reqs, reqQ := c.reqQ, l1 := c.l1, badL1 := c.badL1 } = c) (lines : Core → List Nat)
    (asks : (∃ i, s.cur = some i ∧ i.gid = gid) → ∀ c, (f c).reqs = c.reqs ++ (lines c).map fun line => ({ gid, line } : LineReq)) :
    Asks core gid s (State.modCore { s with bad := ws } k f) := by
  refine ⟨quiet_trans (quiet_bads s ws) (quiet_modCore _ _ _ quiet), fun issue => ?_⟩
  rw [core_modCore]
  split
  next here =>
    subst here
    exact ⟨_, asks issue _⟩
  next => exact ⟨[], (List.append_nil _).symm⟩
theorem Asks.flushL1 (s : State) (k : Nat) (device : Bool) : Asks core gid s (s.flushL1 k device) := by
  unfold State.flushL1
  dsimp only
  split
  · refine .modCore _ (fun _ => rfl) (fun c => c.dirtyLines.take (Config.lineRequests - c.reqs.length)) fun ⟨i, cur, same⟩ c => ?_
    rw [cur, ← same]
  · refine Asks.trans ?_ (.modDie _ _ _)
    refine .modCore _ (fun _ => rfl) (fun c => c.dirtyLines.take (Config.lineRequests - c.reqs.length)) fun ⟨i, cur, same⟩ c => ?_
    rw [cur, ← same]
theorem Asks.lineLeaves (s : State) (l : Nat) : Asks core gid s (s.lineLeaves l) := by
  unfold State.lineLeaves
  split
  · exact (Asks.flushL1 s _ _).trans (.modDie _ _ _)
  · exact .refl s
theorem Asks.fetchLineOf (s : State) (k : Nat) (u : LineUse) (wrote : Word) (l : Nat) : Asks core gid s (s.fetchLineOf k u wrote l) := by
  unfold State.fetchLineOf
  split
  · exact .refl s
  · dsimp only
    have leaves : ∀ full : Bool, ∀ head : Option Nat, Asks core gid s (match full, head with
        | true, some old => s.lineLeaves old
        | _, _ => s) := by
      intro full head
      split
      · exact .lineLeaves s _
      · exact .refl s
    split
    · exact (leaves _ _).trans (.modDie _ _ _)
    · exact ((leaves _ _).trans (.modDie _ _ _)).trans (.modDie _ _ _)
theorem Asks.useCaches (s : State) (k : Nat) (u : LineUse) (as wr : List (Nat × Nat)) : Asks core gid s (s.useCaches k u as wr) := by
  unfold State.useCaches
  dsimp only
  refine Asks.trans ?_ (.foldl (fun t l => .fetchLineOf t k u _ l) _ _)
  exact .modCore _ (fun _ => rfl) (fun _ => []) fun _ c => (List.append_nil _).symm
theorem Asks.filterLines (s : State) (lines : List Nat) (force : Bool) : Asks core gid s (s.filterLines lines force) := by
  unfold State.filterLines
  refine .foldl (fun t l => ?_) _ _
  dsimp only
  split
  · exact .modDie _ _ _
  · split
    · exact .modDie _ _ _
    · split
      · refine Asks.trans ?_ (.modDie _ _ _)
        cases (t.die (paHome (l * 128))).filter.head? with
        | none => exact .refl t
        | some x => exact .lineLeaves t x
      · exact .refl t
theorem Asks.takeLines {sub : Mask} {lines : List Nat} (takes : s.takeLines core gid sub false lines = some u) : Asks core gid s u := by
  refine ⟨quiet_takeLines _ _ _ _ _ _ _ takes, fun _ => ⟨lines.eraseDups, ?_⟩⟩
  unfold State.takeLines at takes
  dsimp only at takes
  split at takes
  · cases takes
    rw [core_modCore, if_pos rfl]
  · cases takes
theorem Asks.prefetch (s : State) (q : Q) (l2 : Bool) (l : Nat) : Asks q.core q.g.id s (s.prefetch q l2 l) := by
  unfold State.prefetch
  dsimp only
  split
  · exact .refl s
  · split
    · exact .refl s
    next t takes =>
      refine (((Asks.takeLines takes).trans ?_).trans (.filterLines _ _ _)).trans (.of_reqs (quiet_chargeLines _ _ _ _) fun c => ?_)
      · split
        · exact .fetchLineOf _ _ _ _ _
        · exact .useCaches _ _ _ _ _
      · unfold State.chargeLines
        dsimp only
        split
        · rfl
        · rfl
end
theorem issuing_cur {i : Instr} {s : State} {q : Q} (issues : s.issuing i = some q) : ∃ c, s.cur = some c ∧ c.gid = q.g.id := by
  obtain ⟨c, cur, grp, -, -⟩ := issuing_eq issues
  exact ⟨c, cur, (grp_id s c.gid q.g grp).symm⟩
theorem pref_goes (o : FM) (s : State) (q : Q) (performs : Performs (.pref o) s q) :
    ∃ u, Goes (.pref o) s q u ∧ u.grp? q.g.id = some q.g ∧ u.mem = s.mem ∧ SameOthers s u q ∧
      OnlyTraffic s u ∧ ∃ ls : List Nat, (u.core q.core).reqs = (s.core q.core).reqs ++ ls.map (fun line => { gid := q.g.id, line }) ∧
        ∀ l ∈ ls, ∃ L, q.act.getLsbD L = true ∧ s.rangeCond q.g (memAddr o q.g L) 1 1 .rd = none := by
  let reached := (laneAddrs q (memAddr o q.g)).filter fun e => (s.rangeCond q.g e.2 1 1 .rd).isNone
  let lines := (reached.map fun e => lineOf ((s.segs q.g e.2.toNat 1 .rd).headD (0, 0)).1).eraseDups
  have asks : Asks q.core q.g.id s (lines.foldl (fun t l => t.prefetch q (mbit o.mod 0) l) s) := .foldl (fun t l => .prefetch t q _ l) _ _
  have touched := (Touched.refl performs.issues).quiet asks.1
  have runs : exec (.pref o) s = _ := show execPref o s = _ by unfold execPref; rfl
  refine ⟨_, goes_same _ _ s _ q performs runs (by rfl) (quiet_grp asks.1 _), touched.grp, touched.mem, touched.sameOthers, touched.onlyTraffic, ?_⟩
  cases none_ : lines with
  | nil => exact ⟨[], by simp, by simp⟩
  | cons l ls =>
    obtain ⟨ls, asked⟩ := asks.2 (issuing_cur performs.issues)
    refine ⟨ls, none_ ▸ asked, fun _ _ => ?_⟩
    obtain ⟨e, mem, -⟩ := List.mem_map.mp (List.mem_eraseDups.mp (none_ ▸ List.mem_cons_self : l ∈ lines))
    obtain ⟨lane, reaches⟩ := List.mem_filter.mp mem
    obtain ⟨L, inside, rfl⟩ := List.mem_map.mp lane
    exact ⟨L, ((mem_lanesOf _ _ _).mp inside).2, Option.isNone_iff_eq_none.mp reaches⟩

/-! ### ROSYNC and FENCE -/

theorem rosync_goes (o : FY) (s : State) (q : Q) (performs : Performs (.rosync o) s q) :
    ∃ u seen, Goes (.rosync o) s q u ∧ u.grp? q.g.id = some { q.g with roMem := some s.mem, seen } ∧ (3 ≤ fyScope o → seen = []) ∧ u.mem = s.mem ∧
      SameOthers s u q ∧ OnlyTraffic s u := by
  obtain ⟨seen, rel, fenced, kept, promoted⟩ := (Touched.refl performs.issues).fenceOf (fyScope o) 1
  obtain rfl := kept rfl
  have after := fenced.modGrp (fun g => { g with roMem := some s.mem }) fun _ => rfl
  have runs : exec (.rosync o) s = _ := show execRosync o s = _ by unfold execRosync; rfl
  exact ⟨_, seen, goes_of _ _ s _ q _ performs runs (by rfl) after.grp performs.unstepped (shaped_lanes _ performs.shaped), after.grp, promoted rfl,
    after.mem, after.sameOthers, after.onlyTraffic⟩
theorem fence_goes (o : FY) (s : State) (q : Q) (performs : Performs (.fence o) s q) :
    ∃ u seen rel, Goes (.fence o) s q u ∧ u.grp? q.g.id = some { q.g with seen, relFence := rel } ∧ u.mem = s.mem ∧ SameOthers s u q ∧ OnlyTraffic s u ∧
      (4 ≤ o.mod.toNat / 8 → o.mod.toNat / 2 % 4 ≠ 1 → ∀ d ∈ u.dies, ∀ e ∈ d.2.marks, e.2 ≠ q.g.core) := by
  let ord := if o.mod.toNat / 2 % 4 == 0 then 3 else o.mod.toNat / 2 % 4
  obtain ⟨seen, rel, after, -, -⟩ := (Touched.refl performs.issues).fenceOf (fyScope o) ord
  have runs : exec (.fence o) s = _ := show execFence o s = _ by unfold execFence; rfl
  refine ⟨_, seen, rel, goes_of _ _ s _ q _ performs runs (by rfl) after.grp performs.unstepped (shaped_lanes _ performs.shaped), after.grp, after.mem,
    after.sameOthers, after.onlyTraffic, fun wide order => unmarked_fenceOf s q.g ?_ wide⟩
  have below : o.mod.toNat / 2 % 4 < 4 := Nat.mod_lt _ (by decide)
  simp only [ord, isRel, beq_iff_eq, Bool.or_eq_true]
  split <;> omega

/-! ### XQRY (R333, R334) -/

theorem xqry_gives (o : FM) (s : State) (q : Q) (word : Nat → DWord) (performs : Performs (.xqry o) s q)
    (words : ∀ L, q.act.getLsbD L = true → s.xqry q.g (memAddr o q.g L) = some (word L)) :
    ∃ u t G g, exec (.xqry o) s = .next t ∧ Continues q u t G g ∧ Dest o.data 2 false q G word ∧ SameLanes q G ∧ u.mem = s.mem ∧
      u.sheets = s.sheets ∧ SameOthers s u q ∧ OnlyTraffic s u := by
  obtain ⟨d, data, fits⟩ := data_vector (o := o) (w := 2) performs (sg := sigXqry o) rfl (by simp [sigXqry])
  let rs := (lanesOf q.g.width q.act).map fun L => (L, s.xqry q.g (memAddr o q.g L))
  let inside := (laneAddrs q (memAddr o q.g)).filter fun e => 0 ≤ e.2 && e.2 < (2 ^ 57 : Int)
  let t := inside.foldl (fun t e => t.touch q.g e.2.toNat .rd) s
  let vals := (List.range q.g.width).map fun L => (getK rs none L).getD 0#64
  have regs := RegsOnly.writeV q.g q.pf d.toNat 2 q.act vals
  have quiet : Quiet s t := quiet_foldl _ (fun t e => quiet_touch t q.g _ _) _ _
  have stored := ((Touched.refl performs.issues).quiet quiet).setGrp (H := q.g.writeV q.pf d.toNat 2 q.act vals) regs.fields.1
  have found : rs.find? (fun e => e.2.isNone) = none := by
    rw [List.find?_eq_none]
    rintro e mem
    obtain ⟨L, lane, rfl⟩ := List.mem_map.mp mem
    rw [words L ((mem_lanesOf _ _ _).mp lane).2]
    exact Bool.false_ne_true
  have runs : exec (.xqry o) s = _ := show execXqry o s = _ by unfold execXqry; rfl
  obtain ⟨v, h, g, next, continues⟩ := goes_of (u := t.setGrp (q.g.writeV q.pf d.toNat 2 q.act vals)) _ _ s q _ performs runs (by
    dsimp only
    rw [found, data]) stored.grp (regs.fields.2.1.trans performs.unstepped)
    ((congrArg List.length regs.fields.2.2.2.1).trans (shaped_lanes _ performs.shaped))
  obtain rfl : q.g.writeV q.pf d.toNat 2 q.act vals = h := by
    have := continues.before
    rw [stored.grp] at this
    exact Option.some.inj this
  refine ⟨_, v, _, g, next, continues, ?_, regs.sameLanes ⟨rfl, rfl, rfl, rfl, rfl, rfl, rfl⟩, stored.mem, stored.sheets, stored.sameOthers,
    stored.onlyTraffic⟩
  rw [data]
  refine dest_congr_act performs.executes (fun L lane act => ?_)
    (dest_writeV (G := q.g) (signed := false) performs.shaped rfl rfl rfl (.inr rfl) fits (vals := vals) (by simp [vals]))
  have within : L < q.g.width := lane.elim id fun low => low ▸ lowest_width _ _ _ performs
  have read : vals.getD L 0#64 = word L := by
    simp only [vals, rs]
    rw [range_getD _ _ _ _ within, getK_lanes _ _ _ _ within act, words L act]
    rfl
  rw [read]
  exact ⟨rfl, fun _ => rfl⟩
theorem xqry_outside (s : State) (g : Group) (a : Int) (outside : a < 0 ∨ 2 ^ 57 ≤ a) : s.xqry g a = some 0#64 := by
  unfold State.xqry
  rw [if_pos (by simpa using outside)]
/-- A result word without an extent, from its fields (R334). -/
def leafWord (rd w x rn pool host : Bool) (psize home : Nat) : DWord :=
  let bit (b : Bool) (n : Nat) : Nat := if b then 2 ^ n else 0
  BitVec.ofNat 64 (1 + bit rd 1 + bit w 2 + bit x 3 + bit rn 4 + bit false 5 + psize * 64 + home * 256 + bit pool 10 + bit host 11 + 0)
theorem leafWord_fields : ∀ (rd w x rn pool host : Bool) (psize home : Fin 4), let word := leafWord rd w x rn pool host psize home
    word.getLsbD 0 = true ∧ word.getLsbD 1 = rd ∧ word.getLsbD 2 = w ∧ word.getLsbD 3 = x ∧ word.getLsbD 4 = rn ∧ word.getLsbD 5 = false ∧
      word.extractLsb' 6 2 = BitVec.ofNat 2 psize ∧ word.extractLsb' 8 2 = BitVec.ofNat 2 home ∧ word.getLsbD 10 = pool ∧ word.getLsbD 11 = host := by
  decide +kernel
theorem paHome_lt (pa : Nat) : paHome pa < 4 := by
  unfold paHome
  split
  · exact Nat.xor_lt_two_pow (n := 2) (by omega) (by omega)
  · omega
/-- The fields of the word of a leaf (R334). -/
theorem xqryWord_fields (pa psize : Nat) (small : psize < 4) (rn x w rd : Bool) :
    let word := xqryWord pa psize none rn x w rd
    word.getLsbD 0 = true ∧ word.getLsbD 1 = rd ∧ word.getLsbD 2 = w ∧ word.getLsbD 3 = x ∧ word.getLsbD 4 = rn ∧ word.getLsbD 5 = false ∧
      word.extractLsb' 6 2 = BitVec.ofNat 2 psize ∧ word.extractLsb' 8 2 = (if paHost pa then 0#2 else BitVec.ofNat 2 (paHome pa)) ∧
      word.getLsbD 10 = paPool pa ∧ word.getLsbD 11 = paHost pa := by
  have home : (if paHost pa then 0 else paHome pa) < 4 := by
    split
    · decide
    · exact paHome_lt pa
  have fields := leafWord_fields rd w x rn (paPool pa) (paHost pa) ⟨psize, small⟩ ⟨_, home⟩
  rw [show (if paHost pa then 0#2 else BitVec.ofNat 2 (paHome pa)) = BitVec.ofNat 2 (if paHost pa then 0 else paHome pa) by split <;> rfl]
  have same : xqryWord pa psize none rn x w rd = leafWord rd w x rn (paPool pa) (paHost pa) psize (if paHost pa then 0 else paHome pa) := by
    unfold xqryWord leafWord
    rw [Option.getD_none, Nat.zero_mul, Option.isSome_none, ite_mul, Nat.zero_mul]
  rw [same]
  exact fields
theorem psizeOf_code (bits : Nat) : psizeOf bits < 4 ∧ BitVec.ofNat 2 (psizeOf bits) = if bits = 16 then 0#2 else if bits = 21 then 1#2 else 2#2 := by
  unfold psizeOf
  by_cases b16 : bits = 16
  · simp [b16]
  · by_cases b21 : bits = 21
    · simp [b21]
    · simp [b16, b21]
theorem xqry_unextended (s : State) (g : Group) (va : Nat) (low : va < 2 ^ 57) (uncovered : ∀ e ∈ s.extents g, e.covers va = false)
    (free : s.walksBusy (dieOf g.core) = false) :
    s.xqry g va = match s.leafFor g.core g.asn va with
      | some (leaf, bits) => some (xqryWord (entAddr leaf / 2 ^ bits * 2 ^ bits + va % 2 ^ bits) (psizeOf bits) none (leafRN leaf) (leafX leaf)
          (leafW leaf) (leafRD leaf))
      | none => if (s.die (dieOf g.core)).cur < s.requestGen g then none else some 0#64 := by
  have none_ : (s.extents g).find? (fun e => e.covers va) = none := List.find?_eq_none.mpr fun e mem => by simp [uncovered e mem]
  unfold State.xqry
  rw [if_neg (by simp; omega)]
  simp only [Int.toNat_natCast, none_, free, Bool.and_false, Bool.false_eq_true, if_false]
  cases s.leafFor g.core g.asn va with
  | none => rfl
  | some leaf => rfl

/-- Settles O17: each of the four is traffic beside its own effect. -/
theorem fencesPrefetchAndQueries : Obligations.FencesPrefetchAndQueries := by
  refine ⟨⟨rosync_goes, fence_goes, pref_goes⟩, xqry_gives, xqry_outside, fun s g va low uncovered free => ⟨fun unmapped current => ?_, fun leaf bits maps => ?_⟩⟩
  · rw [xqry_unextended s g va low uncovered free, unmapped]
    exact if_neg (by omega)
  · obtain ⟨small, code⟩ := psizeOf_code bits
    refine ⟨_, by rw [xqry_unextended s g va low uncovered free, maps], ?_⟩
    rw [← code]
    exact xqryWord_fields _ _ small _ _ _ _

end Sys2Proof.Proofs


/-!
The statement about puts and windows (R299 to R302, R313 to R316).
-/
namespace Sys2Proof.Proofs
open Sys2Proof Sys2Proof.Machine Sys2Proof.Laws

/-! ### Sheets -/

theorem sheet_modSheet (s : State) (k id : Nat) (f : Sheet → Sheet) (same : ∀ h, (f h).id = h.id) :
    (s.modSheet k f).sheet? id = (s.sheet? id).map fun h => if id = k then f h else h := by
  unfold State.modSheet State.sheet?
  dsimp only
  rw [List.find?_map]
  have key : ((fun t : Sheet => t.id == id) ∘ fun t => if t.id == k then f t else t) = fun t => t.id == id := by
    funext t
    dsimp only [Function.comp]
    split
    · rw [same]
    · rfl
  rw [key]
  cases found : s.sheets.find? fun t => t.id == id with
  | none => rfl
  | some h =>
    have here : h.id = id := by simpa using List.find?_some found
    simp [here]
theorem sheet_congr {s u : State} (sheets : u.sheets = s.sheets) (id : Nat) : u.sheet? id = s.sheet? id := by
  unfold State.sheet?
  rw [sheets]

/-! ### Issued puts (R300, R302) -/

/-- The puts of a list of offsets with bytes through an entry. -/
def putsOf (s : State) (sheet gid : Nat) (w : Window) (ps : List (Int × List Byte)) : List Put :=
  ps.mapIdx fun i e =>
    { origin := s.moduleNo, sheet, gid, entry := w.entry, num := (w.putNum + i) % 2 ^ 31, module := w.module
      wref := BitVec.ofNat 64 (w.base * 2 ^ 48 + e.1.toNat), data := e.2 }
/-- An entry after puts of `n` bytes in all. -/
def issuedWindow (w : Window) (n count : Nat) : Window := { w with iss := w.iss + BitVec.ofNat 64 n, putNum := (w.putNum + count) % 2 ^ 31 }
/-- A sheet whose entry `k` has issued puts. -/
def issuedSheet (k n count : Nat) (h : Sheet) : Sheet :=
  { h with noReplay := true, windows := h.windows.map fun x => if x.entry == k then issuedWindow x n count else x }

theorem sends_fab (ps : List Put) (s : State) (f : Put → FabPort → FabPort) :
    { ps.foldl (fun u p => u.modFab (portOf p.module) (f p)) s with fab := s.fab } = s := by
  induction ps generalizing s with
  | nil => rfl
  | cons p ps ih =>
    have rest := ih (s.modFab (portOf p.module) (f p))
    have : { ({ ps.foldl (fun u p => u.modFab (portOf p.module) (f p)) (s.modFab (portOf p.module) (f p)) with
        fab := (s.modFab (portOf p.module) (f p)).fab } : State) with fab := s.fab } = s := by rw [rest]; rfl
    exact this
theorem issuePuts_sent {s : State} {w : Window} (sheet gid : Nat) (ps : List (Int × List Byte))
    (up : w.module = s.moduleNo ∨ (getK s.fab FabPort.init (portOf w.module)).down = false) :
    let n := (ps.map fun e => e.2.length).foldl (· + ·) 0
    let u := s.issuePuts sheet gid w ps
    { u with puts := s.puts, sheets := s.sheets, fab := s.fab } = s ∧ u.puts = s.puts ++ putsOf s sheet gid w ps ∧
      u.sheets = (s.modSheet sheet (issuedSheet w.entry n ps.length)).sheets := by
  intro n u
  let issued : State := { s.modSheet sheet (issuedSheet w.entry n ps.length) with puts := s.puts ++ putsOf s sheet gid w ps }
  have sent : { u with fab := s.fab } = issued := by
    by_cases own : w.module = s.moduleNo
    · have here : u = issued := by
        simp only [u, State.issuePuts]
        rw [if_pos (by simpa using own)]
        rfl
      rw [here]
      rfl
    · have sends : u = (putsOf s sheet gid w ps).foldl (fun u p => u.modFab (portOf p.module) fun f => FabPort.sendPut p p.data.length p.data 0 f) issued := by
        simp only [u, State.issuePuts]
        rw [if_neg (by simpa using own), if_neg (by simpa using up.resolve_left own)]
        rfl
      rw [sends]
      exact sends_fab _ issued _
  refine ⟨?_, ?_, ?_⟩
  · have : { ({ u with fab := s.fab } : State) with puts := s.puts, sheets := s.sheets } = s := by rw [sent]; rfl
    exact this
  · have := congrArg State.puts sent
    exact this
  · have := congrArg State.sheets sent
    exact this
theorem issuePuts_down {s : State} {w : Window} (sheet gid : Nat) (ps : List (Int × List Byte)) (far : w.module ≠ s.moduleNo)
    (down : (getK s.fab FabPort.init (portOf w.module)).down = true) :
    let n := (ps.map fun e => e.2.length).foldl (· + ·) 0
    s.issuePuts sheet gid w ps = (s.modSheet sheet (issuedSheet w.entry n ps.length)).modSheet sheet fun h => { h with check := true } := by
  simp only [State.issuePuts]
  rw [if_neg (by simpa using far), if_pos down]
  rfl
theorem windowOf_issued {s u : State} {q : Q} {ref : DWord} {w : Window} {n count : Nat}
    (sheets : u.sheets = (s.modSheet q.g.sheet (issuedSheet w.entry n count)).sheets) (entry : windowOf s q ref = some w) :
    windowOf u q ref = some (issuedWindow w n count) := by
  unfold windowOf at *
  rw [sheet_congr sheets, sheet_modSheet s _ _ (issuedSheet w.entry n count) fun _ => rfl]
  cases found : s.sheet? q.g.sheet with
  | none =>
    rw [found] at entry
    cases entry
  | some h =>
    rw [found] at entry
    have entry : h.windows.find? (fun x => x.entry == ref.toNat / 2 ^ 48) = some w := entry
    simp only [Option.map_some, Option.bind_some, if_true, issuedSheet, List.find?_map]
    have key : ((fun x : Window => x.entry == ref.toNat / 2 ^ 48) ∘ fun x => if x.entry == w.entry then issuedWindow x n count else x) =
        fun x => x.entry == ref.toNat / 2 ^ 48 := by
      funext x
      dsimp only [Function.comp]
      split
      · rfl
      · rfl
    rw [key, entry]
    simp
theorem sumLengths (ps : List (Int × List Byte)) (n : Nat) (each : ∀ e ∈ ps, e.2.length = n) :
    (ps.map fun e => e.2.length).foldl (· + ·) 0 = n * ps.length := by
  rw [← List.sum_eq_foldl, List.map_congr_left each, List.map_const', List.sum_replicate, smul_eq_mul, Nat.mul_comm]

/-! ### Charges -/

theorem charged_traffic (s : State) (q : Q) (cls bytes hbm : Nat) :
    { s.chargeTraffic (clusterOf q.core) cls bytes hbm with clusters := s.clusters } = s ∧
      SameClusters s (s.chargeTraffic (clusterOf q.core) cls bytes hbm) q := by
  refine ⟨rfl, fun k other => ?_, ?_⟩
  · exact ((terms_chargeUnits _ _ _ _ _ k).2 other).trans ((terms_chargeUnits _ _ _ _ _ k).2 other)
  · exact (terms_chargeUnits _ _ _ _ _ _).1.trans (terms_chargeUnits _ _ _ _ _ _).1

/-! ### The bytes that lanes share (R313) -/

/-- Of a value taken from each element in turn that has one, the last stands. -/
theorem foldl_last {β : Type} (p : Nat → Prop) [DecidablePred p] (v : Nat → β) (ls : List Nat) (c : β) :
    (∀ K ∈ ls, ¬ p K) → ls.foldl (fun c K => if p K then v K else c) c = c := by
  intro none_
  induction ls generalizing c with
  | nil => rfl
  | cons K ls ih => rw [List.foldl_cons, if_neg (none_ K List.mem_cons_self), ih _ fun L mem => none_ L (List.mem_cons_of_mem _ mem)]
theorem foldl_highest {β : Type} (p : Nat → Prop) [DecidablePred p] (v : Nat → β) (ls : List Nat) (rising : ls.Pairwise (· < ·)) (c : β) (M : Nat)
    (mem : M ∈ ls) (holds : p M) (highest : ∀ K ∈ ls, p K → K ≤ M) : ls.foldl (fun c K => if p K then v K else c) c = v M := by
  induction ls generalizing c with
  | nil => cases mem
  | cons L ls ih =>
    obtain ⟨above, rising⟩ := List.pairwise_cons.mp rising
    rw [List.foldl_cons]
    obtain rfl | mem := List.mem_cons.mp mem
    · rw [if_pos holds]
      exact foldl_last p v ls _ fun K inside on => by
        have := highest K (List.mem_cons_of_mem _ inside) on
        have := above K inside
        omega
    · exact ih rising _ mem fun K inside => highest K (List.mem_cons_of_mem _ inside)

theorem mergePuts_length (ps : List (Int × List Byte)) : (mergePuts ps).length = ps.length := List.length_mapIdx
theorem lanesOf_rising (w : Nat) (m : Mask) : (lanesOf w m).Pairwise (· < ·) := (List.pairwise_lt_range).filter _
/-- A byte of a merged put is that of the highest lane that covers it. -/
theorem mergePuts_lane {w : Nat} {m : Mask} {off : Nat → Int} {bytes : Nat → List Byte} {n : Nat} (length : ∀ L, (bytes L).length = n)
    (i : Nat) (inside : i < (lanesOf w m).length) :
    let merged := (mergePuts ((lanesOf w m).map fun L => (off L, bytes L)))[i]'(by rw [mergePuts_length, List.length_map]; exact inside)
    let L := (lanesOf w m).getD i 0
    merged.1 = off L ∧ merged.2.length = n ∧
      ∀ j M, j < n → M ∈ lanesOf w m → off M ≤ off L + j → off L + j < off M + n →
        (∀ K ∈ lanesOf w m, off K ≤ off L + j → off L + j < off K + n → K ≤ M) →
        merged.2.getD j 0#8 = (bytes M).getD (off L + j - off M).toNat 0#8 := by
  have here : (lanesOf w m).getD i 0 = (lanesOf w m)[i] := by simp [List.getD_eq_getElem?_getD, inside]
  have rising := lanesOf_rising w m
  simp only [mergePuts, List.getElem_mapIdx, List.getElem_map, List.length_mapIdx, length, here, true_and]
  intro j M low mem above below highest
  generalize hL : (lanesOf w m)[i] = L at *
  have split : lanesOf w m = (lanesOf w m).take i ++ L :: (lanesOf w m).drop (i + 1) := by
    rw [← hL, ← List.drop_eq_getElem_cons inside, List.take_append_drop]
  have first : L ≤ M := highest L (hL ▸ List.getElem_mem inside) (by omega) (by omega)
  obtain ⟨-, later, before⟩ := List.pairwise_append.mp (split ▸ rising)
  obtain ⟨after, later⟩ := List.pairwise_cons.mp later
  have fold (c : Byte) : (((lanesOf w m).map fun L => (off L, bytes L)).drop (i + 1)).foldl (fun c f =>
      if f.1 ≤ off L + j && off L + j < f.1 + f.2.length then f.2.getD (off L + j - f.1).toNat c else c) c =
      ((lanesOf w m).drop (i + 1)).foldl (fun c K => if off K ≤ off L + j ∧ off L + j < off K + n then (bytes K).getD (off L + j - off K).toNat 0#8 else c) c := by
    rw [← List.map_drop, List.foldl_map]
    refine congrArg (fun f => List.foldl f c _) (funext fun c => funext fun K => ?_)
    simp only [length, Bool.and_eq_true, decide_eq_true_eq]
    split
    · rw [List.getD_eq_getElem _ _ (by rw [length]; omega), List.getD_eq_getElem _ _ (by rw [length]; omega)]
    · rfl
  have byte : ((bytes L).mapIdx fun j b => (((lanesOf w m).map fun L => (off L, bytes L)).drop (i + 1)).foldl (fun c f =>
      if f.1 ≤ off L + j && off L + j < f.1 + f.2.length then f.2.getD (off L + j - f.1).toNat c else c) b).getD j 0#8 =
      ((lanesOf w m).drop (i + 1)).foldl (fun c K => if off K ≤ off L + j ∧ off L + j < off K + n then (bytes K).getD (off L + j - off K).toNat 0#8 else c)
        ((bytes L).getD j 0#8) := by
    rw [List.getD_eq_getElem _ _ (by rw [List.length_mapIdx, length]; exact low), List.getElem_mapIdx, fold, List.getD_eq_getElem _ _ (by rw [length]; exact low)]
  refine byte.trans ?_
  obtain same | beyond := Nat.eq_or_lt_of_le first
  · subst same
    rw [foldl_last, show (off L + j - off L).toNat = j by omega]
    intro K mem' covers
    have := after K mem'
    have := highest K (split ▸ by simp [mem']) covers.1 covers.2
    omega
  · refine foldl_highest _ (fun K => (bytes K).getD (off L + j - off K).toNat 0#8) _ later _ M ?_ ⟨above, below⟩ fun K mem' covers => ?_
    · rw [split] at mem
      obtain early | here | late := (List.mem_append.mp mem).imp id List.mem_cons.mp
      · have := before M early L List.mem_cons_self
        omega
      · omega
      · exact late
    · exact highest K (split ▸ by simp [mem']) covers.1 covers.2

/-! ### PUT and PUTS -/

@[simp] theorem length_fillFrom (n : Nat) (m : Mem) (a : Nat) : (fillFrom n m a).length = n := by
  induction n generalizing m a with
  | zero => rfl
  | succ n ih =>
    cases m with
    | nil => simp [fillFrom, ih]
    | cons c m =>
      rw [fillFrom]
      split <;> simp [ih]
@[simp] theorem length_bulk (m : Mem) (a n : Nat) : (m.bulk a n).length = n := length_fillFrom _ _ _

theorem putCond_met {w : Window} {off : Int} {n al : Nat} (import_ : w.isImport = true) (low : 0 ≤ off) (high : off + n ≤ w.len) (aligned : off % al = 0) :
    putCond (some w) off n al = none := by
  unfold putCond
  simp [Option.filter, import_, aligned, not_lt.mpr low, not_lt.mpr high]
/-- What a put leaves where its port is down: its sheet is marked. -/
theorem downed_sheet {s : State} {w : Window} {sheet gid : Nat} {ps : List (Int × List Byte)} (far : w.module ≠ s.moduleNo)
    (down : (getK s.fab FabPort.init (portOf w.module)).down = true) (h : Sheet) (found : s.sheet? sheet = some h) :
    ∃ k, (s.issuePuts sheet gid w ps).sheet? sheet = some k ∧ k.check = true ∧ k.noReplay = true := by
  rw [issuePuts_down sheet gid ps far down, sheet_modSheet _ _ _ (fun h : Sheet => { h with check := true }) fun _ => rfl,
    sheet_modSheet s _ _ (issuedSheet w.entry _ _) fun _ => rfl, found]
  exact ⟨_, by rw [Option.map_some, Option.map_some, if_pos rfl, if_pos rfl], rfl, rfl⟩

/-- Puts issued and charged: at a port that is down. -/
theorem puts_downed {i : Instr} {body : Q → State → Res} {s : State} {q : Q} {w : Window} {ps : List (Int × List Byte)} {cls bytes : Nat}
    (performs : Performs i s q) (runs : exec i s = runI i body s)
    (answers : body q s = .ok ((s.issuePuts q.g.sheet q.g.id w ps).chargeTraffic (clusterOf q.core) cls bytes 0)) (far : w.module ≠ s.moduleNo)
    (down : (getK s.fab FabPort.init (portOf w.module)).down = true) :
    ∃ u, Goes i s q u ∧ u.grp? q.g.id = some q.g ∧ { u with sheets := s.sheets, clusters := s.clusters } = s ∧ SameClusters s u q ∧
      ∀ h, s.sheet? q.g.sheet = some h → ∃ k, u.sheet? q.g.sheet = some k ∧ k.check = true ∧ k.noReplay = true := by
  have state := issuePuts_down q.g.sheet q.g.id ps far down
  have rest : { s.issuePuts q.g.sheet q.g.id w ps with sheets := s.sheets } = s := by rw [state]; rfl
  generalize issued : s.issuePuts q.g.sheet q.g.id w ps = u at rest answers
  have grp (id : Nat) : u.grp? id = s.grp? id := by
    have groups : u.groups = s.groups := by have := congrArg State.groups rest; exact this
    unfold State.grp?
    rw [groups]
  have clusters : u.clusters = s.clusters := by have := congrArg State.clusters rest; exact this
  obtain ⟨-, charged⟩ := charged_traffic u q cls bytes 0
  refine ⟨_, goes_same _ _ s _ q performs runs answers (grp _), (grp _).trans (issuing_grp i s q performs.issues), ?_, ?_, fun h found => ?_⟩
  · have : { ({ u with sheets := s.sheets } : State) with clusters := s.clusters } = s := by rw [rest]
    exact this
  · unfold SameClusters State.cluster at charged ⊢
    rw [clusters] at charged
    exact charged
  · rw [sheet_congr (u := u.chargeTraffic (clusterOf q.core) cls bytes 0) (s := u) rfl, ← issued]
    exact downed_sheet far down h found
/-- Puts issued and charged: at this module, or at a port that is not down. -/
theorem puts_sent {i : Instr} {body : Q → State → Res} {s : State} {q : Q} {w : Window} {ps : List (Int × List Byte)} {cls bytes : Nat} {ref : DWord}
    (performs : Performs i s q) (runs : exec i s = runI i body s)
    (answers : body q s = .ok ((s.issuePuts q.g.sheet q.g.id w ps).chargeTraffic (clusterOf q.core) cls bytes 0))
    (up : w.module = s.moduleNo ∨ (getK s.fab FabPort.init (portOf w.module)).down = false) (entry : windowOf s q ref = some w)
    (total : (ps.map fun e => e.2.length).foldl (· + ·) 0 = bytes) :
    ∃ u, Goes i s q u ∧ u.grp? q.g.id = some q.g ∧ { u with puts := s.puts, sheets := s.sheets, fab := s.fab, clusters := s.clusters } = s ∧
      SameClusters s u q ∧ u.puts = s.puts ++ putsOf s q.g.sheet q.g.id w ps ∧
      windowOf u q ref = some { w with iss := w.iss + BitVec.ofNat 64 bytes, putNum := (w.putNum + ps.length) % 2 ^ 31 } := by
  obtain ⟨rest, puts, sheets⟩ := issuePuts_sent q.g.sheet q.g.id ps up
  rw [total] at sheets
  generalize s.issuePuts q.g.sheet q.g.id w ps = u at rest puts sheets answers
  have grp (id : Nat) : u.grp? id = s.grp? id := by
    have groups : u.groups = s.groups := by have := congrArg State.groups rest; exact this
    unfold State.grp?
    rw [groups]
  have clusters : u.clusters = s.clusters := by have := congrArg State.clusters rest; exact this
  obtain ⟨-, charged⟩ := charged_traffic u q cls bytes 0
  refine ⟨_, goes_same _ _ s _ q performs runs answers (grp _), (grp _).trans (issuing_grp i s q performs.issues), ?_, ?_, puts,
    windowOf_issued (u := u.chargeTraffic (clusterOf q.core) cls bytes 0) sheets entry⟩
  · have : { ({ u with puts := s.puts, sheets := s.sheets, fab := s.fab } : State) with clusters := s.clusters } = s := by rw [rest]
    exact this
  · unfold SameClusters State.cluster at charged ⊢
    rw [clusters] at charged
    exact charged

/-- What PUT answers where every lane's range lies in an import. -/
theorem put_answers {o : FM} {s : State} {q : Q} {w : Window} (entry : windowOf s q (q.g.rdS o.base) = some w) (import_ : w.isImport = true)
    (off : Nat → Int) (address : off = fun L => (((q.g.rdS o.base).toNat % 2 ^ 48 : Nat) : Int) + q.g.term o.index false L + off24 o.off)
    (inside : ∀ L, q.act.getLsbD L = true → 0 ≤ off L ∧ off L + sizeBytes o.size ≤ w.len ∧ off L % sizeBytes o.size = 0) :
    ∃ body, exec (.put o) s = runI (.put o) body s ∧ body q s = .ok ((s.issuePuts q.g.sheet q.g.id w
      (mergePuts ((lanesOf q.g.width q.act).map fun L => (off L, storeBytes o q.g L)))).chargeTraffic (clusterOf q.core) 0
        (sizeBytes o.size * (lanesOf q.g.width q.act).length) 0) := by
  subst address
  refine ⟨_, show execPut o s = _ by unfold execPut; rfl, ?_⟩
  dsimp only
  rw [entry, settleConds_none]
  rintro e mem
  obtain ⟨L, lane, rfl⟩ := List.mem_map.mp mem
  obtain ⟨low, high, aligned⟩ := inside L ((mem_lanesOf _ _ _).mp lane).2
  exact putCond_met import_ low high aligned
theorem put_lanes {o : FM} {s : State} {q : Q} {w : Window} (performs : Performs (.put o) s q) (entry : windowOf s q (q.g.rdS o.base) = some w)
    (import_ : w.isImport = true) (off : Nat → Int)
    (address : off = fun L => (((q.g.rdS o.base).toNat % 2 ^ 48 : Nat) : Int) + q.g.term o.index false L + off24 o.off)
    (inside : ∀ L, q.act.getLsbD L = true → 0 ≤ off L ∧ off L + sizeBytes o.size ≤ w.len ∧ off L % sizeBytes o.size = 0)
    (up : w.module = s.moduleNo ∨ (getK s.fab FabPort.init (portOf w.module)).down = false) :
    let n := sizeBytes o.size
    let lanes := lanesOf q.g.width q.act
    ∃ u new, Goes (.put o) s q u ∧ u.grp? q.g.id = some q.g ∧ { u with puts := s.puts, sheets := s.sheets, fab := s.fab, clusters := s.clusters } = s ∧
      SameClusters s u q ∧ u.puts = s.puts ++ new ∧ new.length = lanes.length ∧
      (∀ i (h : i < new.length), new[i].module = w.module ∧ new[i].sheet = q.g.sheet ∧ new[i].entry = w.entry ∧ new[i].arrived = false ∧
        new[i].data.length = n ∧ new[i].wref = BitVec.ofNat 64 (w.base * 2 ^ 48 + (off (lanes.getD i 0)).toNat) ∧
        ∀ j M, j < n → M ∈ lanes → off M ≤ off (lanes.getD i 0) + j → off (lanes.getD i 0) + j < off M + n →
          (∀ K ∈ lanes, off K ≤ off (lanes.getD i 0) + j → off (lanes.getD i 0) + j < off K + n → K ≤ M) →
          new[i].data.getD j 0#8 = (storeBytes o q.g M).getD (off (lanes.getD i 0) + j - off M).toNat 0#8) ∧
      windowOf u q (q.g.rdS o.base) = some { w with iss := w.iss + BitVec.ofNat 64 (n * lanes.length), putNum := (w.putNum + lanes.length) % 2 ^ 31 } := by
  intro n lanes
  let ps := mergePuts (lanes.map fun L => (off L, storeBytes o q.g L))
  have count : ps.length = lanes.length := (mergePuts_length _).trans (List.length_map _)
  have lane (i : Nat) (h : i < lanes.length) := mergePuts_lane (off := off) (length_storeBytes o q.g) i h
  have sizes (e : Int × List Byte) (mem : e ∈ ps) : e.2.length = n := by
    obtain ⟨i, h, rfl⟩ := List.getElem_of_mem mem
    exact (lane i (count ▸ h)).2.1
  obtain ⟨body, runs, answers⟩ := put_answers entry import_ off address inside
  obtain ⟨u, goes, grp, rest, clusters, puts, window⟩ := puts_sent performs runs answers up entry ((sumLengths ps n sizes).trans (by rw [count]))
  rw [show (mergePuts _).length = lanes.length from count] at window
  have length : (putsOf s q.g.sheet q.g.id w ps).length = lanes.length := (List.length_mapIdx).trans count
  refine ⟨u, _, goes, grp, rest, clusters, puts, length, fun i h => ?_, window⟩
  obtain ⟨offset, size, bytes⟩ := lane i (length ▸ h)
  simp only [putsOf, List.getElem_mapIdx]
  exact ⟨trivial, trivial, trivial, trivial, size, congrArg (fun x : Int => BitVec.ofNat 64 (w.base * 2 ^ 48 + x.toNat)) offset, bytes⟩

theorem failedIn_none {t : Team} (failed : t.failed = []) (cs : List Nat) : t.failedIn cs = none := by simp [Team.failedIn, failed]
theorem badIn_none {t : Team} (bad : t.bad = []) (o n : Nat) : t.badIn o n = false := by simp [Team.badIn, bad]
theorem anyAbsent_iff (t : Team) (cs : List Nat) : t.anyAbsent cs = true ↔ ∃ c ∈ cs, c ∈ t.absent := by
  unfold Team.anyAbsent
  simp only [Bool.and_eq_true, Bool.not_eq_true', List.isEmpty_eq_false_iff, List.any_eq_true, List.contains_iff_mem, and_iff_right_iff_imp]
  rintro ⟨c, -, mem⟩
  exact List.ne_nil_of_mem mem
/-- What PUTS answers where its ranges are in order. -/
theorem puts_answers {o : FM} {s : State} {q : Q} {w : Window} {tm : Team} (entry : windowOf s q (q.g.rdS o.base) = some w) (import_ : w.isImport = true)
    (team : s.team? q.g.team = some tm) {n p : Nat} {off : Int} (hn : n = (q.g.rdS o.data).toNat) (hp : p = (q.g.rdS o.index).toNat)
    (address : off = (((q.g.rdS o.base).toNat % 2 ^ 48 : Nat) : Int) + off24 o.off) (least : 16 ≤ n) (most : n ≤ 65536) (size : n % 16 = 0)
    (place : p % 16 = 0) (fits : p + n ≤ tm.s) (low : 0 ≤ off) (high : off + n ≤ w.len) (aligned : off % 16 = 0) (failed : tm.failed = [])
    (bad : tm.bad = []) :
    ∃ body, exec (.puts o) s = runI (.puts o) body s ∧ body q s =
      if tm.anyAbsent (chunksOf p n) then .wait (.chunks 0 0 (chunksOf p n)) s
      else .ok ((s.issuePuts q.g.sheet q.g.id w [(off, tm.scratch.bulk p n)]).chargeTraffic (clusterOf q.core) 2 n 0) := by
  subst hn hp address
  refine ⟨_, show execPuts o s = _ by unfold execPuts; rfl, ?_⟩
  dsimp only
  rw [team]
  dsimp only
  rw [if_neg (by simp; omega), if_neg (by simp; omega), entry, putCond_met import_ low high aligned, failedIn_none failed, badIn_none bad]
  rfl
theorem puts_instruction (o : FM) (s : State) (q : Q) (w : Window) (tm : Team) :
    let ref := q.g.rdS o.base
    let n := (q.g.rdS o.data).toNat
    let p := (q.g.rdS o.index).toNat
    let off : Int := ((ref.toNat % 2 ^ 48 : Nat) : Int) + off24 o.off
    Performs (.puts o) s q → windowOf s q ref = some w → w.isImport = true → s.team? q.g.team = some tm →
    16 ≤ n → n ≤ 65536 → n % 16 = 0 → p % 16 = 0 → p + n ≤ tm.s → 0 ≤ off → off + n ≤ w.len → off % 16 = 0 →
    tm.failed = [] → tm.bad = [] →
    ((∀ c ∈ chunksOf p n, c ∉ tm.absent) → w.module = s.moduleNo ∨ (getK s.fab FabPort.init (portOf w.module)).down = false →
      ∃ u x, Goes (.puts o) s q u ∧ u.grp? q.g.id = some q.g ∧ { u with puts := s.puts, sheets := s.sheets, fab := s.fab, clusters := s.clusters } = s ∧
        SameClusters s u q ∧ u.puts = s.puts ++ [x] ∧ x.module = w.module ∧ x.data = tm.scratch.bulk p n ∧
        x.wref = BitVec.ofNat 64 (w.base * 2 ^ 48 + off.toNat) ∧
        windowOf u q ref = some { w with iss := w.iss + BitVec.ofNat 64 n, putNum := (w.putNum + 1) % 2 ^ 31 }) ∧
    ((∀ c ∈ chunksOf p n, c ∉ tm.absent) → w.module ≠ s.moduleNo → (getK s.fab FabPort.init (portOf w.module)).down = true →
      ∃ u, Goes (.puts o) s q u ∧ u.grp? q.g.id = some q.g ∧ { u with sheets := s.sheets, clusters := s.clusters } = s ∧ SameClusters s u q ∧
        ∀ h, s.sheet? q.g.sheet = some h → ∃ k, u.sheet? q.g.sheet = some k ∧ k.check = true ∧ k.noReplay = true) ∧
    ((∃ c ∈ chunksOf p n, c ∈ tm.absent) → Waits (.puts o) s q (.chunks 0 0 (chunksOf p n)) s) := by
  intro ref n p off performs entry import_ team least most size place fits low high aligned failed bad
  obtain ⟨body, runs, answers⟩ := puts_answers entry import_ team rfl rfl rfl least most size place fits low high aligned failed bad
  have present (all : ∀ c ∈ chunksOf p n, c ∉ tm.absent) : body q s =
      .ok ((s.issuePuts q.g.sheet q.g.id w [(off, tm.scratch.bulk p n)]).chargeTraffic (clusterOf q.core) 2 n 0) :=
    answers.trans (if_neg fun any => by
      obtain ⟨c, mem, absent⟩ := (anyAbsent_iff _ _).mp any
      exact all c mem absent)
  refine ⟨fun all up => ?_, fun all => puts_downed performs runs (present all), fun some_ => ?_⟩
  · obtain ⟨u, goes, grp, rest, clusters, puts, window⟩ := puts_sent performs runs (present all) up entry (by simp [n])
    exact ⟨u, _, goes, grp, rest, clusters, puts, rfl, rfl, rfl, window⟩
  · exact waits_of _ _ s s q _ q.g performs runs (answers.trans (if_pos ((anyAbsent_iff _ _).mpr some_))) (issuing_grp _ s q performs.issues)
      performs.unstepped (shaped_lanes _ performs.shaped)

/-! ### WINWAIT and WINRD -/

theorem winwait_instruction (o : FY) (s : State) (q : Q) :
    let ref := q.g.rdS o.ya
    let goal := q.g.rdS o.yb
    let count := fun w : Window => if o.code = 0#16 then (if w.isImport then some w.ack else none) else if w.isImport then none else some w.arr
    Performs (.winwait o) s q →
    (∀ w c, windowOf s q ref = some w → count w = some c →
      (goal.toNat ≤ c.toNat → ∃ u, Goes (.winwait o) s q u ∧ u.grp? q.g.id = some { q.g with seen := [] } ∧ u.mem = s.mem ∧
        SameOthers s u q ∧ OnlyTraffic s u) ∧
      (c.toNat < goal.toNat → Waits (.winwait o) s q (.win (ref.toNat / 2 ^ 48) (o.code == 1#16) goal) s)) ∧
    ((∀ w, windowOf s q ref = some w → count w = none) → Traps (.winwait o) s q .access q.sub 0#64 0 s) := by
  intro ref goal count performs
  have counter (w : Window) : w.counter (o.code.toNat + 1) = count w := by
    simp only [count]
    by_cases zero : o.code = 0#16
    · rw [if_pos zero, zero]
      rfl
    · have : o.code.toNat ≠ 0 := fun h => zero (BitVec.eq_of_toNat_eq h)
      rw [if_neg zero]
      obtain ⟨k, code⟩ : ∃ k, o.code.toNat = k + 1 := ⟨o.code.toNat - 1, by omega⟩
      rw [code]
      rfl
  have runs : exec (.winwait o) s = _ := show execWinwait o s = _ by unfold execWinwait; rfl
  refine ⟨fun w c entry counts => ⟨fun reached => ?_, fun short => ?_⟩, fun uncounted => ?_⟩
  · obtain ⟨seen, rel, fenced, kept, promoted⟩ := (Touched.refl performs.issues).fenceOf 5 1
    obtain rfl := kept rfl
    obtain rfl := promoted rfl (by decide)
    refine ⟨_, goes_of _ _ s _ q _ performs runs ?_ fenced.grp performs.unstepped (shaped_lanes _ performs.shaped), fenced.grp, fenced.mem, fenced.sameOthers,
      fenced.onlyTraffic⟩
    dsimp only
    rw [show windowOf s q (q.g.rdS o.ya) = some w from entry, Option.bind_some, counter, counts]
    exact if_pos reached
  · refine waits_of _ _ s s q _ q.g performs runs ?_ (issuing_grp _ s q performs.issues) performs.unstepped (shaped_lanes _ performs.shaped)
    dsimp only
    rw [show windowOf s q (q.g.rdS o.ya) = some w from entry, Option.bind_some, counter, counts]
    exact if_neg (Nat.not_le.mpr short)
  · refine trap_of _ _ s s q q.g _ _ _ _ performs runs ?_ (issuing_grp _ s q performs.issues)
    dsimp only
    have none_ : (windowOf s q (q.g.rdS o.ya)).bind (fun w => w.counter (o.code.toNat + 1)) = none := by
      rw [Option.bind_eq_none_iff]
      exact fun w entry => (counter w).trans (uncounted w entry)
    rw [none_]
    rfl
theorem RegsOnly.writeS (G : Group) (pf : Pfx) (n : Nat) (x : DWord) : RegsOnly G (G.writeS pf n x) := by
  unfold Group.writeS
  dsimp only
  split <;> rfl
/-- A scalar result written to a group with the issue's registers. -/
theorem dest_writeS {q : Q} {G : Group} {n : BitVec 7} {signed : Bool} {x : DWord} (shaped : q.g.shaped = true) (fits : DestFits (.s n) 2 q.g)
    (vregs : G.vregs = q.g.vregs) (sregs : G.sregs = q.g.sregs) (within : lowest q.act < q.g.width) :
    Dest (.s n) 2 signed q (G.writeS q.pf n.toNat x) (fun _ => x) := by
  have here := dest_put _ q (.s n) 2 signed (List.replicate q.g.width x) shaped rfl (.inr rfl) fits (by simp)
  have value : (List.replicate q.g.width x).getD (lowest q.act) 0#64 = x := replicate_getD _ _ _ within
  have put : q.g.put q.pf (.s n) 2 signed q.act (List.replicate q.g.width x) = q.g.writeS q.pf n.toNat x := by
    rw [← value]
    simp only [Group.put, value]
    rfl
  rw [put] at here
  have own : Dest (.s n) 2 signed q (q.g.writeS q.pf n.toNat x) (fun _ => x) :=
    Dest_congr _ _ _ _ _ _ _ (fun L lane => by rw [replicate_getD _ _ _ lane]; exact ⟨rfl, fun _ => rfl⟩) within here
  refine dest_of_regs ?_ ?_ own
  · unfold Group.writeS
    dsimp only
    split <;> exact vregs
  · unfold Group.writeS
    dsimp only
    split
    · exact sregs
    · exact congrArg (fun r : List DWord => r.set n.toNat x) sregs
/-- A meaning that writes registers of its group and nothing else. -/
theorem gives_of_regs {i : Instr} {body : Q → State → Res} {s : State} {q : Q} {f : Group → Group} {d : Opnd} {w : Nat} {signed : Bool} {val : Nat → DWord}
    (performs : Performs i s q) (runs : exec i s = runI i body s) (answers : body q s = .ok (s.modGrp q.g.id f)) (keeps : ∀ g, (f g).id = g.id)
    (regs : RegsOnly q.g (f q.g)) (dest : Dest d w signed q (f q.g) val) : GivesAt i s q d w signed val (fun _ => 0#6) := by
  have after := (Touched.refl performs.issues).modGrp f keeps
  obtain ⟨-, stepping, -, lanes, preds, batches, calls, st, save, frame⟩ := regs.fields
  obtain ⟨t, g, runs', continues⟩ := performs_ok i body s _ q _ performs answers after.grp (stepping.trans performs.unstepped)
    ((congrArg List.length lanes).trans (shaped_lanes _ performs.shaped))
  obtain ⟨outside, others, cores, clusters⟩ := continues.rest
  have same (L : Nat) : (f q.g).lane L = q.g.lane L := by unfold Group.lane; rw [lanes]
  have advances := advances_of q g (f q.g) (fun L => (q.g.lane L).fflags) (fun L => (q.g.lane L).sr) continues.lanes fun L _ => by rw [same]
  refine ⟨t, g, runs.trans runs', continues.after, dest_of_regs continues.vregs continues.sregs dest, continues.preds.trans preds, ?_,
    kept_trans continues.kept ⟨batches, calls, st, save, frame⟩, outside_trans (t := s.modGrp q.g.id f) rfl outside, fun id other => ?_, cores, clusters⟩
  · simpa only [BitVec.or_zero, ite_self] using advances
  · rw [others id other, after.others id other]
/-- WINRD writes a scalar pair, and its code is below 3. -/
theorem winrd_formed {o : FY} {s : State} {q : Q} (performs : Performs (.winrd o) s q) :
    o.code.toNat < 3 ∧ ∃ d, o.ya = .s d ∧ DestFits (.s d) 2 q.g := by
  obtain ⟨ok, uses, -⟩ := formed_sig _ s q performs (sigWinrd o) rfl
  simp only [sigWinrd, Bool.and_eq_true, decide_eq_true_eq] at ok
  obtain ⟨⟨-, code⟩, -⟩ := ok
  have use := uses (dstS o.ya) (by simp [sigWinrd])
  have fits := dest_fits _ s q performs (sigWinrd o) rfl (dstS o.ya) (by simp [sigWinrd]) rfl
  simp only [Use.ok, Bool.and_eq_true] at use
  refine ⟨code, ?_⟩
  cases kind : o.ya with
  | s d => exact ⟨d, rfl, by rw [show (dstS o.ya).o = o.ya from rfl, kind] at fits; exact fits⟩
  | _ => rw [show (dstS o.ya).o = o.ya from rfl, kind] at use; cases use.1
theorem winrd_instruction (o : FY) (s : State) (q : Q) :
    let count := fun w : Window => if o.code = 2#16 then (if w.isImport then none else some w.arr)
      else if w.isImport then some (if o.code = 0#16 then w.iss else w.ack) else none
    Performs (.winrd o) s q →
    (∀ w c, windowOf s q (q.g.rdS o.yb) = some w → count w = some c →
      (mbit o.mod 0 = false → GivesAt (.winrd o) s q o.ya 2 false (fun _ => c) (fun _ => 0#6)) ∧
      (mbit o.mod 0 = true → ∃ u t G g, exec (.winrd o) s = .next t ∧ Continues q u t G g ∧ Dest o.ya 2 false q G (fun _ => c) ∧
        SameLanes q G ∧ u.mem = s.mem ∧ SameOthers s u q ∧ OnlyTraffic s u)) ∧
    ((∀ w, windowOf s q (q.g.rdS o.yb) = some w → count w = none) → Traps (.winrd o) s q .access q.sub 0#64 0 s) := by
  intro count performs
  obtain ⟨code, d, dest, fits⟩ := winrd_formed performs
  have counter (w : Window) : w.counter o.code.toNat = count w := by
    simp only [count]
    obtain zero | one | two : o.code = 0#16 ∨ o.code = 1#16 ∨ o.code = 2#16 := by
      have (k : Nat) (small : k < 2 ^ 16) (same : o.code.toNat = k) : o.code = BitVec.ofNat 16 k :=
        BitVec.eq_of_toNat_eq (by rw [same, BitVec.toNat_ofNat, Nat.mod_eq_of_lt small])
      obtain code | code | code : o.code.toNat = 0 ∨ o.code.toNat = 1 ∨ o.code.toNat = 2 := by omega
      · exact .inl (this 0 (by decide) code)
      · exact .inr (.inl (this 1 (by decide) code))
      · exact .inr (.inr (this 2 (by decide) code))
    · rw [zero]
      rfl
    · rw [one]
      rfl
    · rw [two]
      rfl
  have within := lowest_width _ _ _ performs
  have runs : exec (.winrd o) s = _ := show execWinrd o s = _ by unfold execWinrd; rfl
  refine ⟨fun w c entry counts => ⟨fun plain => ?_, fun acquires => ?_⟩, fun uncounted => ?_⟩
  · rw [dest]
    refine gives_of_regs (f := fun g => g.writeS q.pf d.toNat c) performs runs ?_ (fun g => (RegsOnly.writeS g _ _ _).fields.1)
      (RegsOnly.writeS _ _ _ _) (dest_writeS performs.shaped fits rfl rfl within)
    dsimp only
    rw [entry, Option.bind_some, counter, counts, dest, plain]
    rfl
  · obtain ⟨seen, rel, fenced, -, -⟩ := (Touched.refl performs.issues).fenceOf 5 1
    have after := fenced.modGrp (fun g => g.writeS q.pf d.toNat c) fun g => (RegsOnly.writeS g _ _ _).fields.1
    have regs := RegsOnly.writeS { q.g with seen, relFence := rel } q.pf d.toNat c
    obtain ⟨v, h, g, next, continues⟩ := goes_of (u := (s.fenceOf q.g 5 1).modGrp q.g.id fun g => g.writeS q.pf d.toNat c) _ _ s q _ performs runs (by
      dsimp only
      rw [entry, Option.bind_some, counter, counts, dest, acquires]
      rfl) after.grp (regs.fields.2.1.trans performs.unstepped)
      ((congrArg List.length regs.fields.2.2.2.1).trans (shaped_lanes _ performs.shaped))
    obtain rfl := Option.some.inj (after.grp.symm.trans continues.before)
    rw [dest]
    exact ⟨_, v, _, g, next, continues, dest_writeS performs.shaped fits rfl rfl within, regs.sameLanes ⟨rfl, rfl, rfl, rfl, rfl, rfl, rfl⟩, after.mem,
      after.sameOthers, after.onlyTraffic⟩
  · refine trap_of _ _ s s q q.g _ _ _ _ performs runs ?_ (issuing_grp _ s q performs.issues)
    dsimp only
    have none_ : (windowOf s q (q.g.rdS o.yb)).bind (fun w => w.counter o.code.toNat) = none := by
      rw [Option.bind_eq_none_iff]
      exact fun w entry => (counter w).trans (uncounted w entry)
    rw [none_]
    rfl

/-- Settles O18: puts are issued in lane order or mark their sheet, and the counters of a window decide its waits. -/
theorem putsAndWindows : Obligations.PutsAndWindows := by
  refine ⟨fun o s q w => ?_, puts_instruction, winwait_instruction, winrd_instruction⟩
  intro ref n lanes off performs entry import_ inside
  refine ⟨fun far down => ?_, fun up => put_lanes performs entry import_ off rfl inside up⟩
  obtain ⟨body, runs, answers⟩ := put_answers entry import_ off rfl inside
  exact puts_downed performs runs answers far down

end Sys2Proof.Proofs


/-!
The statement about scratchpad accesses (R243, R265 to R268).
-/
namespace Sys2Proof.Proofs
open Sys2Proof Sys2Proof.Machine Sys2Proof.Laws

/-! ### Teams -/

theorem team_id {s : State} {k : Nat} {t : Team} (found : s.team? k = some t) : t.id = k := find_key Team.id k s.teams t found
/-- A team replaced by one of its number. -/
theorem team_set (s : State) (k id : Nat) (u : Team) (same : u.id = k) :
    (s.modTeam k fun _ => u).team? id = if id = k then (s.team? id).map fun _ => u else s.team? id := by
  have keyed := find_map_key (α := Team) (·.id) (fun h => if h.id == k then u else h)
    (fun x => by by_cases h : x.id = k <;> simp [h, same]) id s.teams
  have mapped : (s.modTeam k fun _ => u).team? id = (s.team? id).map fun h => if h.id == k then u else h := keyed
  rw [mapped]
  cases found : s.team? id with
  | none => simp
  | some t =>
    have := team_id found
    by_cases here : id = k <;> simp [this, here]

/-! ### The lowest lane decides -/

/-- The fault of the lowest lane that executes is taken, in every lane that meets that cause. -/
theorem settleConds_lowest {w : Nat} {m : Mask} {cond : Nat → Option Cond} {c : Cause} {a : DWord} {D : Nat} (s : State) (k : Unit → Res)
    (inside : D < w) (executes : m.getLsbD D = true) (fails : cond D = some (.fault c a)) (least : ∀ M, m.getLsbD M = true → D ≤ M) :
    settleConds ((lanesOf w m).map fun L => (L, cond L)) s k =
      .trap c (maskOf w fun L => m.getLsbD L && ((cond L).map (Cond.isFault c)).getD false) a 0 s := by
  have first : (lanesOf w m).findSome? cond = some (.fault c a) := by
    have lanes : lanesOf w m = (lanesOf w m).filter fun L => decide (D ≤ L) := by
      rw [List.filter_eq_self.mpr]
      intro L mem
      exact decide_eq_true (least L ((mem_lanesOf _ _ _).mp mem).2)
    have head : (List.range w).find? (fun L => m.getLsbD L) = some D := by
      refine List.find?_range_eq_some.mpr ⟨executes, List.mem_range.mpr inside, fun M below => ?_⟩
      rw [Bool.not_eq_true', Bool.eq_false_iff]
      intro on
      have := least M on
      omega
    obtain ⟨l, ls, eq⟩ : ∃ l ls, lanesOf w m = l :: ls := List.exists_cons_of_ne_nil (List.ne_nil_of_mem ((mem_lanesOf w m D).mpr ⟨inside, executes⟩))
    have here : l = D := by
      have : (lanesOf w m).head? = some D := by rw [lanesOf, List.head?_filter, head]
      rw [eq] at this
      simpa using this
    rw [eq, here, List.findSome?_cons, fails]
  have lanes : (((lanesOf w m).map fun L => (L, cond L)).filter fun e => match e.2 with
      | some d => d.isFault c
      | none => false).map (·.1) = (List.range w).filter fun L => m.getLsbD L && ((cond L).map (Cond.isFault c)).getD false := by
    rw [List.filter_map, List.map_map, lanesOf, List.filter_filter]
    refine (List.map_id _).trans (List.filter_congr fun L _ => ?_)
    cases found : cond L <;> simp [found, Bool.and_comm]
  unfold settleConds
  rw [List.findSome?_map, show (Prod.snd ∘ fun L => (L, cond L)) = cond from rfl, first]
  exact congrArg (fun ls => Res.trap c (Mask.ofLanes ls) a 0 s) lanes

/-! ### Conditions of an access (R243, R265) -/

theorem scrCond_met {t : Team} {a : Int} {n : Nat} (failed : t.failed = []) (low : 0 ≤ a) (high : a + n ≤ t.s) (aligned : a % n = 0) : scrCond t a n = none := by
  unfold scrCond
  simp [not_lt.mpr low, not_lt.mpr high, aligned, failedIn_none failed]
theorem scrCond_outside {t : Team} {a : Int} {n : Nat} (failed : t.failed = []) :
    (a < 0 ∨ (t.s : Int) < a + n → scrCond t a n = some (.fault .scratch (addrOf a))) ∧
    (¬ (a < 0 ∨ (t.s : Int) < a + n) → ((scrCond t a n).map (Cond.isFault .scratch)).getD false = false) := by
  unfold scrCond
  refine ⟨fun out => by simp [out], fun inside => ?_⟩
  rw [if_neg (by simpa using inside), failedIn_none failed]
  split
  · rfl
  · rfl
/-- The accesses of an instruction all of whose lanes are inside with their chunks present. -/
theorem withScratch_ok {q : Q} {s : State} {t : Team} {addr : Nat → Int} {n : Nat} (k : Team → List (Nat × Nat) → Res) (team : s.team? q.g.team = some t)
    (failed : t.failed = []) (met : ∀ L, q.act.getLsbD L = true → scrCond t (addr L) n = none)
    (present : ∀ L, q.act.getLsbD L = true → ∀ c ∈ chunksOf (addr L).toNat n, c ∉ t.absent) :
    withScratch q s addr n k = k t ((lanesOf q.g.width q.act).map fun L => (L, (addr L).toNat)) := by
  have lanes (e : Nat × Int) (mem : e ∈ laneAddrs q addr) : scrCond t e.2 n = none ∧ t.anyAbsent (chunksOf e.2.toNat n) = false := by
    obtain ⟨L, lane, rfl⟩ := List.mem_map.mp mem
    have executes := ((mem_lanesOf _ _ _).mp lane).2
    refine ⟨met L executes, ?_⟩
    rw [Bool.eq_false_iff, Ne, anyAbsent_iff]
    rintro ⟨c, mem, absent⟩
    exact present L executes c mem absent
  unfold withScratch
  rw [team]
  dsimp only
  have none_ : (laneAddrs q addr).find? (fun e => (scrCond t e.2 n).isSome || ((scrCond t e.2 n).isNone && t.anyAbsent (chunksOf e.2.toNat n))) = none :=
    List.find?_eq_none.mpr fun e mem => by
      obtain ⟨free, here⟩ := lanes e mem
      simp [free, here]
  rw [none_, if_neg (by simp), failed, if_pos List.isEmpty_nil, settleConds_none _ _ _ (by
    intro e mem
    obtain ⟨e', mem', rfl⟩ := List.mem_map.mp mem
    exact (lanes e' mem').1), laneAddrs, List.map_map]
  rfl
/-- Inside the scratchpad with a chunk absent, the subset waits for the chunks of its accesses. -/
theorem withScratch_waits {q : Q} {s : State} {t : Team} {addr : Nat → Int} {n : Nat} (k : Team → List (Nat × Nat) → Res) (team : s.team? q.g.team = some t)
    (inside : ∀ L, q.act.getLsbD L = true → L < q.g.width) (met : ∀ L, q.act.getLsbD L = true → scrCond t (addr L) n = none)
    (missing : ¬ ∀ L, q.act.getLsbD L = true → ∀ c ∈ chunksOf (addr L).toNat n, c ∉ t.absent) :
    ∃ cs : List Nat, withScratch q s addr n k = .wait (.chunks 0 0 cs) s ∧
      ∀ c, c ∈ cs ↔ ∃ L, q.act.getLsbD L = true ∧ c ∈ chunksOf (addr L).toNat n := by
  have lanes (e : Nat × Int) (mem : e ∈ laneAddrs q addr) : ∃ L, q.act.getLsbD L = true ∧ e = (L, addr L) := by
    obtain ⟨L, lane, rfl⟩ := List.mem_map.mp mem
    exact ⟨L, ((mem_lanesOf _ _ _).mp lane).2, rfl⟩
  have lane (L : Nat) (executes : q.act.getLsbD L = true) : (L, addr L) ∈ laneAddrs q addr :=
    List.mem_map.mpr ⟨L, (mem_lanesOf _ _ _).mpr ⟨inside L executes, executes⟩, rfl⟩
  have free (e : Nat × Int) (mem : e ∈ laneAddrs q addr) : scrCond t e.2 n = none := by
    obtain ⟨L, executes, rfl⟩ := lanes e mem
    exact met L executes
  push Not at missing
  obtain ⟨L, executes, c, mem, absent⟩ := missing
  have some_ : ((laneAddrs q addr).find? fun e => (scrCond t e.2 n).isSome || ((scrCond t e.2 n).isNone && t.anyAbsent (chunksOf e.2.toNat n))).map
      (fun e => (scrCond t e.2 n).isNone && t.anyAbsent (chunksOf e.2.toNat n)) = some true := by
    cases found : (laneAddrs q addr).find? fun e => (scrCond t e.2 n).isSome || ((scrCond t e.2 n).isNone && t.anyAbsent (chunksOf e.2.toNat n)) with
    | none =>
      have := List.find?_eq_none.mp found _ (lane L executes)
      have there : t.anyAbsent (chunksOf (addr L).toNat n) = true := (anyAbsent_iff _ _).mpr ⟨c, mem, absent⟩
      simp [met L executes, there] at this
    | some e =>
      have here := List.find?_some found
      simpa [free e (List.mem_of_find?_eq_some found)] using here
  refine ⟨((((laneAddrs q addr).filter fun e => (scrCond t e.2 n).isNone).flatMap fun e => chunksOf e.2.toNat n).eraseDups), ?_, fun c => ?_⟩
  · unfold withScratch
    rw [team]
    dsimp only
    rw [some_]
    rfl
  · rw [List.mem_eraseDups, List.mem_flatMap]
    constructor
    · rintro ⟨e, mem, named⟩
      obtain ⟨L, executes, rfl⟩ := lanes e (List.mem_of_mem_filter mem)
      exact ⟨L, executes, named⟩
    · rintro ⟨L, executes, named⟩
      exact ⟨_, List.mem_filter.mpr ⟨lane L executes, by simp [met L executes]⟩, named⟩
/-- Where the lowest lane that executes is outside, E_SCRATCH is raised in every lane that is. -/
theorem withScratch_outside {q : Q} {s : State} {t : Team} {addr : Nat → Int} {n D : Nat} (k : Team → List (Nat × Nat) → Res)
    (team : s.team? q.g.team = some t) (failed : t.failed = []) (inside : D < q.g.width) (executes : q.act.getLsbD D = true)
    (least : ∀ M, q.act.getLsbD M = true → D ≤ M) (outside : addr D < 0 ∨ (t.s : Int) < addr D + n) :
    withScratch q s addr n k = .trap .scratch (maskOf q.g.width fun L => q.act.getLsbD L && (decide (addr L < 0) || decide ((t.s : Int) < addr L + n)))
      (addrOf (addr D)) 0 s := by
  have fails := (scrCond_outside (n := n) failed).1 outside
  have mask : (maskOf q.g.width fun L => q.act.getLsbD L && ((scrCond t (addr L) n).map (Cond.isFault .scratch)).getD false) =
      maskOf q.g.width fun L => q.act.getLsbD L && (decide (addr L < 0) || decide ((t.s : Int) < addr L + n)) := by
    refine congrArg (maskOf q.g.width) (funext fun L => congrArg (q.act.getLsbD L && ·) ?_)
    by_cases out : addr L < 0 ∨ (t.s : Int) < addr L + n
    · rw [(scrCond_outside failed).1 out]
      simpa [Cond.isFault] using out
    · rw [(scrCond_outside failed).2 out]
      simpa using out
  have settled := settleConds_lowest (cond := fun L => scrCond t (addr L) n) s (fun _ => k t ((laneAddrs q addr).map fun e => (e.1, e.2.toNat))) inside executes fails least
  have decided : ((laneAddrs q addr).find? fun e => (scrCond t e.2 n).isSome || ((scrCond t e.2 n).isNone && t.anyAbsent (chunksOf e.2.toNat n))).map
      (fun e => (scrCond t e.2 n).isNone && t.anyAbsent (chunksOf e.2.toNat n)) ≠ some true := by
    have head : (laneAddrs q addr).find? (fun e => (scrCond t e.2 n).isSome || ((scrCond t e.2 n).isNone && t.anyAbsent (chunksOf e.2.toNat n))) =
        some (D, addr D) := by
      obtain ⟨l, ls, eq⟩ : ∃ l ls, lanesOf q.g.width q.act = l :: ls :=
        List.exists_cons_of_ne_nil (List.ne_nil_of_mem ((mem_lanesOf _ _ D).mpr ⟨inside, executes⟩))
      have rising := lanesOf_rising q.g.width q.act
      have mem := (mem_lanesOf q.g.width q.act D).mpr ⟨inside, executes⟩
      have first := least l ((mem_lanesOf _ _ _).mp (eq ▸ List.mem_cons_self)).2
      rw [eq] at rising mem
      have here : l = D := by
        obtain same | later := List.mem_cons.mp mem
        · exact same.symm
        · have := (List.pairwise_cons.mp rising).1 D later
          omega
      rw [laneAddrs, eq, here, List.map_cons, List.find?_cons]
      simp [fails]
    rw [head]
    simp [fails]
  unfold withScratch
  rw [team]
  dsimp only
  rw [if_neg (by simpa using decided), failed, if_pos List.isEmpty_nil, laneAddrs, List.map_map, ← mask, ← settled, laneAddrs]
  rfl

/-! ### Stores to a scratchpad -/

/-- A team but for the bytes of its scratchpad. -/
def ScratchOnly (t u : Team) : Prop := { u with scratch := t.scratch, older := t.older } = t
theorem ScratchOnly.trans {t u v : Team} (h : ScratchOnly t u) (k : ScratchOnly u v) : ScratchOnly t v := by
  unfold ScratchOnly at *
  rw [← k] at h
  exact h
theorem scratchStore_only {t : Team} (bad : t.bad = []) (a : Nat) (bs : List Byte) :
    ScratchOnly t (t.scratchStore a bs) ∧ (t.scratchStore a bs).bad = [] ∧ (t.scratchStore a bs).scratch = t.scratch.store a bs := by
  unfold ScratchOnly Team.scratchStore
  rw [bad]
  refine ⟨?_, rfl, rfl⟩
  rw [if_pos List.isEmpty_nil, ← bad]
theorem scratchStores_only (bytes : Nat → List Byte) (es : List (Nat × Nat)) {t : Team} (bad : t.bad = []) :
    let u := es.foldl (fun u e => u.scratchStore e.2 (bytes e.1)) t
    ScratchOnly t u ∧ u.scratch = es.foldl (fun m e => m.store e.2 (bytes e.1)) t.scratch := by
  induction es generalizing t with
  | nil => exact ⟨rfl, rfl⟩
  | cons e es ih =>
    obtain ⟨only, bad', scratch⟩ := scratchStore_only bad e.2 (bytes e.1)
    obtain ⟨rest, stores⟩ := ih bad'
    exact ⟨only.trans rest, by rw [List.foldl_cons, stores, scratch]; rfl⟩
theorem satomLanes_append (n : Nat) (f : Nat → Nat → Option Nat) (es es' : List (Nat × Nat)) (t : Team) :
    satomLanes n f (es ++ es') t =
      ((satomLanes n f es t).1 ++ (satomLanes n f es' (satomLanes n f es t).2).1, (satomLanes n f es' (satomLanes n f es t).2).2) := by
  induction es generalizing t with
  | nil => rfl
  | cons e es ih =>
    obtain ⟨L, a⟩ := e
    simp only [List.cons_append, satomLanes, ih]
theorem satomLanes_lanes (n : Nat) (f : Nat → Nat → Option Nat) (at_ : Nat → Nat) (m : Mask) {t : Team} (bad : t.bad = []) (w : Nat) :
    let ran := satomLanes n f ((lanesOf w m).map fun L => (L, at_ L)) t
    ran.1 = (lanesOf w m).map (fun L => (L, (actedMem n f at_ m t.scratch L).loadNat (at_ L) n)) ∧
      ScratchOnly t ran.2 ∧ ran.2.bad = [] ∧ ran.2.scratch = actedMem n f at_ m t.scratch w := by
  induction w with
  | zero => exact ⟨rfl, rfl, bad, rfl⟩
  | succ w ih =>
    obtain ⟨reads, only, bad, scratch⟩ := ih
    rw [lanesOf_succ]
    cases act : m.getLsbD w with
    | false =>
      simp only [Bool.false_eq_true, if_false, List.append_nil, actedMem, act]
      exact ⟨reads, only, bad, scratch⟩
    | true =>
      simp only [if_true, List.map_append, List.map_cons, List.map_nil, satomLanes_append, satomLanes, actedMem, act, reads, scratch, true_and]
      cases new : f w ((actedMem n f at_ m t.scratch w).loadNat (at_ w) n) with
      | none => exact ⟨only, bad, scratch⟩
      | some x =>
        obtain ⟨stored, bad', bytes⟩ := scratchStore_only bad (at_ w) (leBytes n x)
        exact ⟨only.trans stored, bad', by rw [bytes, scratch]⟩

/-! ### SLD and SST -/

theorem noBadLanes (es : List (Nat × Nat)) {bad : Nat × Nat → Bool} (none_ : ∀ e, bad e = false) : Mask.ofLanes ((es.filter bad).map (·.1)) = 0#64 := by
  rw [List.filter_eq_nil_iff.mpr fun e _ => by simp [none_ e]]
  rfl
theorem badPart_none {t : Team} (bad : t.bad = []) (o n : Nat) : t.badPart o n = false := by simp [Team.badPart, bad]
section
variable {s : State} {q : Q} {t : Team}

/-- Groups other than the issue's, after a change of it and of teams. -/
theorem others_setGrp_teams {u : State} {H : Group} (rest : { u with teams := s.teams } = s) (id : H.id = q.g.id) : SameOthers s (u.setGrp H) q := by
  intro k other
  have groups : u.groups = s.groups := by have := congrArg State.groups rest; exact this
  rw [others_setGrp u H k (by rw [id]; exact other)]
  unfold State.grp?
  rw [groups]
theorem grp_setGrp_teams {u : State} {H : Group} {i : Instr} (issues : s.issuing i = some q) (rest : { u with teams := s.teams } = s) (id : H.id = q.g.id) :
    (u.setGrp H).grp? q.g.id = some H := by
  have groups : u.groups = s.groups := by have := congrArg State.groups rest; exact this
  have grp : u.grp? q.g.id = s.grp? q.g.id := by unfold State.grp?; rw [groups]
  rw [grp_setGrp, if_pos id.symm, grp, issuing_grp i s q issues]
  rfl
theorem sld_gives {o : FM} (performs : Performs (.sld o) s q) (team : s.team? q.g.team = some t) (failed : t.failed = []) (bad : t.bad = [])
    (met : ∀ L, q.act.getLsbD L = true → scrCond t (scrAddr o q.g L) (sizeBytes o.size) = none)
    (present : ∀ L, q.act.getLsbD L = true → ∀ c ∈ chunksOf (scrAddr o q.g L).toNat (sizeBytes o.size), c ∉ t.absent)
    (wf : Memory.wf t.scratch = true) (wfOlder : Memory.wf t.older = true) :
    let at_ := fun L => (scrAddr o q.g L).toNat
    let old := fun L => q.stale && t.landed.contains (at_ L / 512)
    ∃ u tn G, Goes (.sld o) s q u ∧ u.grp? q.g.id = some G ∧ SameLanes q G ∧
      Loaded o q G (fun L => (if old L then t.older else t.scratch).loadNat (at_ L) (sizeBytes o.size)) ∧
      { u with groups := s.groups, teams := s.teams } = s ∧ SameOthers s u q ∧ (∀ id, id ≠ q.g.team → u.team? id = s.team? id) ∧
      u.team? q.g.team = some tn ∧ { tn with landed := t.landed } = t ∧
      (q.stale = false → ∀ L, q.act.getLsbD L = true → at_ L / 512 ∉ tn.landed) := by
  intro at_ old
  obtain ⟨d, data, fits⟩ := data_vector (o := o) (w := sizeW o.size) performs (sg := sigSld o) rfl (by simp [sigSld])
  have ok := (formed_sig _ s q performs (sigSld o) rfl).1
  simp only [sigSld, Bool.and_eq_true, Bool.or_eq_true, Bool.not_eq_true', decide_eq_true_eq] at ok
  obtain ⟨⟨size, -⟩, extends_⟩ := ok
  let os := (lanesOf q.g.width q.act).map fun L => (L, at_ L)
  let from_ (a : Nat) : Mem := if q.stale && t.landed.contains (a / 512) then t.older else t.scratch
  let xs := os.map fun e => (e.1, leNat ((from_ e.2).bulk e.2 (sizeBytes o.size)))
  let s1 := if t.landed.isEmpty || q.stale then s else s.modTeam t.id (·.seeChunks (os.map fun e => e.2 / 512))
  have rest : { s1 with teams := s.teams } = s := by
    simp only [s1]
    split <;> rfl
  have regs := RegsOnly.putLoad q.g q.pf o q.act xs
  have grp := grp_setGrp_teams performs.issues rest regs.fields.1
  have runs : exec (.sld o) s = _ := show execSld o s = _ by unfold execSld; rfl
  have goes := goes_of _ _ s (s1.setGrp (q.g.putLoad q.pf o q.act xs)) q _ performs runs (by
    dsimp only
    rw [withScratch_ok _ team failed met present, noBadLanes _ fun e => badIn_none bad e.2 _, if_neg (by decide)]
    rfl) grp (regs.fields.2.1.trans performs.unstepped) ((congrArg List.length regs.fields.2.2.2.1).trans (shaped_lanes _ performs.shaped))
  have seen : ∃ tn, s1.team? q.g.team = some tn ∧ { tn with landed := t.landed } = t ∧
      (q.stale = false → ∀ L, q.act.getLsbD L = true → at_ L / 512 ∉ tn.landed) ∧ ∀ id, id ≠ q.g.team → s1.team? id = s.team? id := by
    simp only [s1]
    by_cases still : (t.landed.isEmpty || q.stale) = true
    · rw [if_pos still]
      refine ⟨t, team, rfl, fun fresh L _ => ?_, fun _ _ => rfl⟩
      have : t.landed = [] := by simpa [fresh] using still
      simp [this]
    · rw [if_neg still]
      have teams (id : Nat) := team_modTeam s t.id id (·.seeChunks (os.map fun e => e.2 / 512)) fun _ => rfl
      refine ⟨t.seeChunks (os.map fun e => e.2 / 512), ?_, rfl, fun _ L act => ?_, fun id other => ?_⟩
      · rw [teams, team_id team, if_pos rfl, team]
        rfl
      · have mem : (L, at_ L) ∈ os := List.mem_map.mpr ⟨L, (mem_lanesOf _ _ _).mpr ⟨act_width _ s q performs L act, act⟩, rfl⟩
        have : at_ L / 512 ∈ os.map fun e => e.2 / 512 := List.mem_map.mpr ⟨_, mem, rfl⟩
        simp [Team.seeChunks, this]
      · rw [teams, team_id team, if_neg other]
  obtain ⟨tn, here, landed, fresh, elsewhere⟩ := seen
  refine ⟨_, tn, _, goes, grp, regs.sameLanes ⟨rfl, rfl, rfl, rfl, rfl, rfl, rfl⟩, ?_, ?_, others_setGrp_teams rest regs.fields.1, elsewhere, here, landed, fresh⟩
  · refine loaded_putLoad data performs.shaped ⟨rfl, rfl, rfl⟩ fits (fun signed => extends_.resolve_left (by simp [signed])) size performs.executes
      (lowest_width _ _ _ performs) fun L inside act => ?_
    have list : xs = (lanesOf q.g.width q.act).map fun L => (L, leNat ((from_ (at_ L)).bulk (at_ L) (sizeBytes o.size))) := List.map_map
    rw [list, getK_lanes _ _ _ _ inside act, bulk_eq_load _ _ _ (by simp only [from_]; split <;> assumption)]
    rfl
  · have : { ({ s1 with teams := s.teams } : State) with groups := s.groups } = s := by rw [rest]
    exact this
theorem sst_goes {o : FM} (performs : Performs (.sst o) s q) (team : s.team? q.g.team = some t) (failed : t.failed = []) (bad : t.bad = [])
    (met : ∀ L, q.act.getLsbD L = true → scrCond t (scrAddr o q.g L) (sizeBytes o.size) = none)
    (present : ∀ L, q.act.getLsbD L = true → ∀ c ∈ chunksOf (scrAddr o q.g L).toNat (sizeBytes o.size), c ∉ t.absent) :
    ∃ u tn, Goes (.sst o) s q u ∧ { u with teams := s.teams } = s ∧ (∀ id, id ≠ q.g.team → u.team? id = s.team? id) ∧
      u.team? q.g.team = some tn ∧ { tn with scratch := t.scratch, older := t.older } = t ∧
      ∀ a, tn.scratch.read a = storedByte q (fun L => (scrAddr o q.g L).toNat) (sizeBytes o.size) (storeBytes o q.g) t.scratch a := by
  let os := (lanesOf q.g.width q.act).map fun L => (L, (scrAddr o q.g L).toNat)
  let put : Team → Team := fun t => os.foldl (fun u e => u.scratchStore e.2 (storeBytes o q.g e.1)) t
  have keeps (t : Team) : (put t).id = t.id := by
    simp only [put]
    generalize os = es
    induction es generalizing t with
    | nil => rfl
    | cons e es ih => exact ih _
  have runs : exec (.sst o) s = _ := show execSst o s = _ by unfold execSst; rfl
  obtain ⟨only, scratch⟩ := scratchStores_only (storeBytes o q.g) os bad
  refine ⟨s.modTeam t.id put, put t, goes_same _ _ s _ q performs runs ?_ rfl, rfl, fun id other => ?_, ?_, only, fun a => ?_⟩
  · dsimp only
    rw [withScratch_ok _ team failed met present, noBadLanes _ fun e => badPart_none bad e.2 _, if_neg (by decide)]
  · rw [team_modTeam _ _ _ _ keeps, team_id team, if_neg other]
  · rw [team_modTeam _ _ _ _ keeps, team_id team, if_pos rfl, team]
    rfl
  · rw [show (put t).scratch = _ from scratch, List.foldl_map]
    exact read_stores _ _ _ (length_storeBytes o q.g) _ _ _

/-! ### SATOM (R268) -/

/-- The new value of a lane of SATOM from the old one. -/
def satomNew (o : FM) (g : Group) (n w L old : Nat) : Option Nat :=
  if satomOp o == 9 then (if old = (casPair o g L).1 then some (casPair o g L).2 else none)
  else some (rmw (satomOp o) (8 * n) old ((g.rd o.data w L).toNat % 2 ^ (8 * n)))
theorem satom_gives {o : FM} {n w : Nat} (performs : Performs (.satom o) s q) (team : s.team? q.g.team = some t) (failed : t.failed = []) (bad : t.bad = [])
    (hn : n = if satomOp o == 9 then sizeBytes o.size / 2 else sizeBytes o.size) (hw : w = if satomOp o == 9 then sizeW o.size / 2 else sizeW o.size)
    (met : ∀ L, q.act.getLsbD L = true → scrCond t (scrAddr o q.g L) n = none)
    (present : ∀ L, q.act.getLsbD L = true → ∀ c ∈ chunksOf (scrAddr o q.g L).toNat n, c ∉ t.absent) :
    let at_ := fun L => (scrAddr o q.g L).toNat
    let m := actedMem n (satomNew o q.g n w) at_ q.act t.scratch
    ∃ u tn G, Goes (.satom o) s q u ∧ u.grp? q.g.id = some G ∧ SameLanes q G ∧ { u with teams := s.teams, groups := s.groups } = s ∧
      SameOthers s u q ∧ (∀ id, id ≠ q.g.team → u.team? id = s.team? id) ∧ u.team? q.g.team = some tn ∧
      { tn with scratch := t.scratch, older := t.older } = t ∧ m q.g.width = tn.scratch ∧
      if mbit o.mod 4 then Dest o.data w false q G (fun L => BitVec.ofNat 64 ((m L).loadNat (at_ L) n)) else G = q.g := by
  intro at_ m
  let os := (lanesOf q.g.width q.act).map fun L => (L, at_ L)
  obtain ⟨reads, only, -, scratch⟩ := satomLanes_lanes n (satomNew o q.g n w) at_ q.act bad q.g.width
  let ran := satomLanes n (satomNew o q.g n w) os t
  let s1 := s.modTeam t.id fun _ => ran.2
  have same : ran.2.id = t.id := by have := congrArg Team.id only; exact this
  have here : s1.team? q.g.team = some ran.2 := by
    rw [team_set s t.id _ _ same, team_id team, if_pos rfl, team]
    rfl
  have elsewhere (k : Nat) (other : k ≠ q.g.team) : s1.team? k = s.team? k := by
    rw [team_set s t.id _ _ same, team_id team, if_neg other]
  have scratchAnswers (k : Team → List (Nat × Nat) → Res) : withScratch q s (scrAddr o q.g) n k = k t os := withScratch_ok k team failed met present
  have runs : exec (.satom o) s = _ := show execSatom o s = _ by unfold execSatom; rfl
  let vals := (List.range q.g.width).map fun L => BitVec.ofNat 64 (getK ran.1 0 L)
  have new : (fun L old : Nat => if satomOp o == 9 then (let (c, x) := casPair o q.g L; if old == c then some x else none)
      else some (rmw (satomOp o) (8 * n) old ((q.g.rd o.data w L).toNat % 2 ^ (8 * n)))) = satomNew o q.g n w := by
    funext L old
    unfold satomNew
    split
    · simp only [beq_iff_eq]
    · rfl
  cases loads : mbit o.mod 4 with
  | false =>
    refine ⟨s1, ran.2, q.g, goes_same _ _ s _ q performs runs ?_ rfl, issuing_grp _ s q performs.issues, ⟨rfl, rfl, rfl, rfl, rfl, rfl, rfl⟩, rfl,
      fun _ _ => rfl, elsewhere, here, only, scratch.symm, by rw [if_neg (by decide)]⟩
    dsimp only
    rw [← hn, ← hw, scratchAnswers, noBadLanes _ fun e => badIn_none bad e.2 _, if_neg (by decide), new, loads]
  | true =>
    obtain ⟨d, data, fits⟩ := data_vector (o := o) (w := w) performs (sg := sigSatom o) rfl (by rw [hw]; simp [sigSatom, loads])
    have ok := (formed_sig _ s q performs (sigSatom o) rfl).1
    have wide : w = 1 ∨ w = 2 := by
      simp only [sigSatom, Bool.and_eq_true] at ok
      obtain ⟨-, sizes⟩ := ok
      rw [hw]
      split
      next cas =>
        rw [if_pos cas] at sizes
        simp only [Bool.and_eq_true, Bool.or_eq_true, beq_iff_eq] at sizes
        exact sizes.2.imp (fun size => by rw [size]; rfl) fun size => by rw [size]; rfl
      next op =>
        rw [if_neg op] at sizes
        simp only [Bool.or_eq_true, beq_iff_eq] at sizes
        exact sizes.imp (fun size => by rw [size]; rfl) fun size => by rw [size]; rfl
    have regs := RegsOnly.writeV q.g q.pf d.toNat w q.act vals
    have grp := grp_setGrp_teams (u := s1) performs.issues rfl regs.fields.1
    refine ⟨s1.setGrp (q.g.writeV q.pf d.toNat w q.act vals), ran.2, _, goes_of _ _ s _ q _ performs runs ?_ grp (regs.fields.2.1.trans performs.unstepped)
      ((congrArg List.length regs.fields.2.2.2.1).trans (shaped_lanes _ performs.shaped)), grp, regs.sameLanes ⟨rfl, rfl, rfl, rfl, rfl, rfl, rfl⟩, rfl,
      others_setGrp_teams (u := s1) rfl regs.fields.1, elsewhere, here, only, scratch.symm, ?_⟩
    · dsimp only
      rw [← hn, ← hw, scratchAnswers, noBadLanes _ fun e => badIn_none bad e.2 _, if_neg (by decide), new, loads, data]
    · rw [if_pos rfl, data]
      refine dest_congr_act performs.executes (fun L lane act => ?_)
        (dest_writeV (G := q.g) (signed := false) performs.shaped rfl rfl rfl wide fits (vals := vals) (by simp [vals]))
      have inside : L < q.g.width := lane.elim id fun low => low ▸ lowest_width _ _ _ performs
      have read : getK ran.1 0 L = (m L).loadNat (at_ L) n := by
        simp only [ran, os, reads]
        exact getK_lanes _ _ (fun L => (m L).loadNat (at_ L) n) _ inside act
      simp only [vals]
      rw [range_getD _ _ _ _ inside, read]
      exact ⟨rfl, fun _ => rfl⟩
end

/-- Settles O19: the lanes' conditions decide, then every lane's access acts on the team's scratchpad. -/
theorem scratchpadAccesses : Obligations.ScratchpadAccesses := by
  refine ⟨fun o s q tm => ?_, fun o s q tm => ?_, fun o s q tm => ?_⟩
  · intro n at_ inside present team failed bad inside_
    have met (L : Nat) (act : q.act.getLsbD L = true) : scrCond tm (scrAddr o q.g L) (sizeBytes o.size) = none := by
      obtain ⟨low, high, aligned⟩ := inside_ L act
      exact scrCond_met failed low high aligned
    refine ⟨fun performs wf wfOlder all => sld_gives performs team failed bad met all wf wfOlder, fun performs all => sst_goes performs team failed bad met all,
      fun missing => ⟨fun performs => ?_, fun performs => ?_⟩⟩
    · obtain ⟨cs, waits, named⟩ : ∃ cs : List Nat, _ := withScratch_waits _ team (act_width _ s q performs) met missing
      have runs : exec (.sld o) s = _ := show execSld o s = _ by unfold execSld; rfl
      exact ⟨cs, waits_of _ _ s s q _ q.g performs runs waits (issuing_grp _ s q performs.issues) performs.unstepped (shaped_lanes _ performs.shaped), named⟩
    · obtain ⟨cs, waits, named⟩ : ∃ cs : List Nat, _ := withScratch_waits _ team (act_width _ s q performs) met missing
      have runs : exec (.sst o) s = _ := show execSst o s = _ by unfold execSst; rfl
      exact ⟨cs, waits_of _ _ s s q _ q.g performs runs waits (issuing_grp _ s q performs.issues) performs.unstepped (shaped_lanes _ performs.shaped), named⟩
  · intro n out team failed some_ low
    obtain ⟨E, inside, outside, all⟩ := some_
    let D := lowest q.act
    have executes : q.act.getLsbD E = true := by
      simp only [out, Bool.and_eq_true] at outside
      exact outside.1
    have first : q.act.getLsbD D = true := lowest_mem _ fun empty => by simp [empty] at executes
    have least (M : Nat) (on : q.act.getLsbD M = true) : D ≤ M := lowest_min _ M on
    have outD : out D = true := by
      obtain same | below := Nat.eq_or_lt_of_le (least E executes)
      · exact same ▸ outside
      · exact all D below first
    have away : scrAddr o q.g D < 0 ∨ (tm.s : Int) < scrAddr o q.g D + n := by simpa [out, first] using outD
    have answers {i : Instr} (performs : Performs i s q) (k : Team → List (Nat × Nat) → Res) :
        withScratch q s (scrAddr o q.g) n k = .trap .scratch (maskOf q.g.width out) (addrOf (scrAddr o q.g low)) 0 s := by
      have bits (L : Nat) := getLsbD_maskOf q.g.width (shaped_width _ performs.shaped) out L
      have here : (maskOf q.g.width out).getLsbD D = true := by
        rw [bits, outD, decide_eq_true (Nat.lt_of_le_of_lt (least E executes) inside)]
        rfl
      have chosen := lowest_mem (maskOf q.g.width out) fun empty => by simp [empty] at here
      have same : low = D := by
        refine Nat.le_antisymm (lowest_min _ D here) (least _ ?_)
        rw [bits] at chosen
        simp only [out, Bool.and_eq_true] at chosen
        exact chosen.2.1
      rw [same]
      exact withScratch_outside k team failed (Nat.lt_of_le_of_lt (least E executes) inside) first least away
    refine ⟨fun performs => ?_, fun performs => ?_⟩
    · have runs : exec (.sld o) s = _ := show execSld o s = _ by unfold execSld; rfl
      exact trap_of _ _ s s q q.g _ _ _ _ performs runs (answers performs _) (issuing_grp _ s q performs.issues)
    · have runs : exec (.sst o) s = _ := show execSst o s = _ by unfold execSst; rfl
      exact trap_of _ _ s s q q.g _ _ _ _ performs runs (answers performs _) (issuing_grp _ s q performs.issues)
  · intro cas n w at_ new performs team failed bad wf inside
    obtain ⟨u, tn, G, goes, grp, lanes, rest, others, elsewhere, here, only, scratch, dest⟩ := satom_gives (n := n) (w := w) performs team failed bad rfl rfl
      (fun L act => by
        obtain ⟨low, high, aligned, -⟩ := inside L act
        exact scrCond_met failed low high aligned) (fun L act => (inside L act).2.2.2)
    exact ⟨u, tn, G, goes, grp, lanes, rest, others, elsewhere, here, only, _, rfl, scratch, fun L _ => rfl, dest⟩

end Sys2Proof.Proofs


/-!
The statements about copy schedules and the presence of chunks (R248, R257, R258, R270 to R273).
-/
namespace Sys2Proof.Proofs
open Sys2Proof Sys2Proof.Machine Sys2Proof.Laws

/-! ### CSTART (R270) -/

/-- Changes of dies alone. -/
def DiesOnly (s u : State) : Prop := { u with dies := s.dies } = s
theorem DiesOnly.trans {s u v : State} (h : DiesOnly s u) (k : DiesOnly u v) : DiesOnly s v := by
  unfold DiesOnly at *
  rw [← k] at h
  exact h
theorem filterRange_dies (s : State) (pa n : Nat) : DiesOnly s (s.filterRange pa n) := by
  have lines (ls : List Nat) : ∀ s : State, DiesOnly s (s.filterLines ls false) := by
    unfold State.filterLines
    generalize ls.filter (fun l => paPool (l * 128)) = pool
    induction pool with
    | nil => exact fun s => rfl
    | cons l pool ih =>
      intro s
      refine DiesOnly.trans ?_ (ih _)
      dsimp only
      split
      · rfl
      · split
        · rfl
        · rfl
  unfold State.filterRange
  split
  · exact lines _ s
  · rfl
theorem filterRanges_dies (es : List (Nat × Nat)) (s : State) : DiesOnly s (es.foldl (fun u e => u.filterRange e.1 e.2) s) := by
  induction es generalizing s with
  | nil => rfl
  | cons e es ih => exact (filterRange_dies s e.1 e.2).trans (ih _)
theorem anyBusy_iff (t : Team) : t.anyBusy = true ↔ ∃ r ∈ t.rounds, r.stage ≠ none := by
  simp [Team.anyBusy, Option.isSome_iff_ne_none]
theorem cstart_instruction (o : FY) (s : State) (q : Q) (tm : Team) (sh : Sheet) :
    let key := if o.ya = .v 0#8 then 0#64 else q.g.rdS o.ya
    Performs (.cstart o) s q → s.team? q.g.team = some tm → s.sheet? q.g.sheet = some sh →
    (∀ a es, sh.scheds[o.code.toNat]? = some a → (∀ r ∈ tm.rounds, r.stage = none) → readSched s q.g tm.s 64 a.toNat = .entries es →
      mcastOk s tm es key = true →
      let sc : Sched := { idx := o.code.toNat, key, entries := es, rel := List.replicate 16 0, done := List.replicate 16 0, fail := false }
      ∃ u : State, { u with dies := s.dies } = s ∧
        Goes (.cstart o) s q (u.modTeam q.g.team fun t => { t with sched := some sc, lastSched := o.code.toNat })) ∧
    (sh.scheds[o.code.toNat]? = none → Traps (.cstart o) s q .stage q.sub 0#64 0 s) ∧
    ((∃ r ∈ tm.rounds, r.stage ≠ none) → Traps (.cstart o) s q .stage q.sub 0#64 0 s) := by
  intro key performs team sheet
  have runs : exec (.cstart o) s = _ := show execCstart o s = _ by unfold execCstart; rfl
  have present := issuing_grp _ s q performs.issues
  refine ⟨fun a es sched idle reads mcast => ?_, fun unknown => ?_, fun busy => ?_⟩
  · intro sc
    let u := ((List.range es.length).flatMap fun i => s.segs q.g (a.toNat + 64 * i) 64 .rd).foldl (fun u e => u.filterRange e.1 e.2) s
    have dies : DiesOnly s u := filterRanges_dies _ s
    have groups : u.groups = s.groups := by have := congrArg State.groups dies; exact this
    have still : tm.anyBusy = false := by
      rw [Bool.eq_false_iff, Ne, anyBusy_iff]
      rintro ⟨r, mem, busy⟩
      exact busy (idle r mem)
    refine ⟨u, dies, goes_same _ _ s _ q performs runs ?_ (by unfold State.grp?; exact congrArg (List.find? _) groups)⟩
    dsimp only
    rw [team, sheet]
    dsimp only
    rw [sched]
    dsimp only
    rw [if_neg (by simp [still]), reads]
    dsimp only
    rw [if_neg (by rw [show mcastOk s tm es _ = true from mcast]; decide), team_id team]
  · refine trap_of _ _ s s q q.g _ _ _ _ performs runs ?_ present
    dsimp only
    rw [team, sheet]
    dsimp only
    rw [unknown]
    rfl
  · refine trap_of _ _ s s q q.g _ _ _ _ performs runs ?_ present
    dsimp only
    rw [team, sheet]
    dsimp only
    cases sh.scheds[o.code.toNat]? with
    | none => rfl
    | some a => exact if_pos ((anyBusy_iff tm).mpr busy)

/-! ### STAGE (R271) -/

theorem teamTraffic_groups {s u : State} {q : Q} (h : TeamTraffic s u q) : u.groups = s.groups := by
  have := congrArg State.groups h.2.1
  exact this
theorem teamTraffic_grp {s u : State} {q : Q} (h : TeamTraffic s u q) (id : Nat) : u.grp? id = s.grp? id := by
  unfold State.grp?
  rw [teamTraffic_groups h]
theorem teamTraffic_fresh {s u : State} {q : Q} (h : TeamTraffic s u q) : u.fresh = s.fresh := by
  have := congrArg State.fresh h.2.1
  exact this
theorem teamTraffic_teams {s u : State} {q : Q} (h : TeamTraffic s u q) : u.teams = s.teams := by
  have := congrArg State.teams h.2.1
  exact this
theorem stage_instruction (o : FY) (s : State) (q : Q) (tm : Team) (sc : Sched) :
    let st := o.code.toNat
    let es := sc.entries.filter fun e => e.stage == st
    let r := sc.rel.getD st 0
    let jobs := es.map (·.job r)
    let cs := jobs.flatMap (·.chunks)
    Performs (.stage o) s q → s.team? q.g.team = some tm → tm.sched = some sc → es ≠ [] →
    (4 ≤ (tm.rounds.filter fun x => x.stage == some st).length → Waits (.stage o) s q (.stage st) s) ∧
    ((tm.rounds.filter fun x => x.stage == some st).length < 4 →
      (∀ j ∈ jobs, ∀ w ∈ j.rows, w.1.toNat < 2 ^ 57 ∧ s.inFoot q.g j.out w.1 w.2.2 = true) → tm.failed = [] →
      (∀ c ∈ cs, c ∉ tm.absent) → sharedChunk (jobs.map (·.chunks)) = false →
      ∃ u, TeamTraffic s u q ∧ Goes (.stage o) s q (State.modTeam { u with fresh := s.fresh + 1 } q.g.team fun t => { t with
        absent := t.absent ++ cs, rounds := t.rounds ++ [{ id := s.fresh, stage := some st, r, jobs }]
        sched := some { sc with rel := sc.rel.set st (r + 1) } })) := by
  intro st es r jobs cs performs team sched entries
  have runs : exec (.stage o) s = _ := show execStage o s = _ by unfold execStage; rfl
  have some_ : (sc.entries.filter fun e => e.stage == o.code.toNat).isEmpty = false := List.isEmpty_eq_false_iff.mpr entries
  refine ⟨fun full => ?_, fun room rows failed present distinct => ?_⟩
  · refine waits_of _ _ s s q _ q.g performs runs ?_ (issuing_grp _ s q performs.issues) performs.unstepped (shaped_lanes _ performs.shaped)
    dsimp only
    rw [team]
    dsimp only
    rw [sched]
    dsimp only
    rw [some_, if_neg (by decide)]
    exact if_pos full
  · have traffic := teamTraffic_release s q
    refine ⟨_, traffic, goes_same _ _ s _ q performs runs ?_ (teamTraffic_grp traffic _)⟩
    have high : jobs.findSome? (fun j => j.rows.find? fun w => decide (2 ^ 57 ≤ w.1.toNat)) = none :=
      List.findSome?_eq_none_iff.mpr fun j mem => List.find?_eq_none.mpr fun w row => by
        have := (rows j mem w row).1
        simpa using this
    have foot : jobs.findSome? (fun j => j.rows.find? fun w => !s.inFoot q.g j.out w.1 w.2.2) = none :=
      List.findSome?_eq_none_iff.mpr fun j mem => List.find?_eq_none.mpr fun w row => by
        rw [(rows j mem w row).2]
        decide
    have free : tm.anyAbsent cs = false := by
      rw [Bool.eq_false_iff, Ne, anyAbsent_iff]
      rintro ⟨c, mem, absent⟩
      exact present c mem absent
    simp only [cs, jobs, es, r, st] at high foot free distinct
    dsimp only
    rw [team]
    dsimp only
    rw [sched]
    dsimp only
    rw [some_, if_neg (by decide), if_neg (show ¬ 4 ≤ tm.busyStage o.code.toNat from Nat.not_le.mpr room), high]
    dsimp only
    rw [foot]
    dsimp only
    rw [failedIn_none failed]
    dsimp only
    rw [free, distinct, if_neg (by decide), team_id team]
    simp only [State.takeFresh, teamTraffic_fresh traffic]
    rfl

/-- Settles O20: CSTART and STAGE. -/
theorem scheduleStartsAndStages : Obligations.ScheduleStartsAndStages := ⟨cstart_instruction, stage_instruction⟩

/-! ### CWAIT and CTEST (R272) -/

/-- What an instruction does that finds chunks present: an acquire at team scope, and those chunks have been seen. -/
def Sees (s u : State) (q : Q) (tm : Team) (cs : List Nat) : Prop :=
  ∃ v tn, TeamTraffic s v q ∧ { u with groups := s.groups, teams := s.teams } = { v with groups := s.groups } ∧
    (∀ id, id ≠ q.g.team → u.team? id = s.team? id) ∧ u.team? q.g.team = some tn ∧ { tn with landed := tm.landed } = tm ∧ ∀ c ∈ cs, c ∉ tn.landed
theorem teamTraffic_acquire (s : State) (q : Q) : TeamTraffic s (s.acquireAt q.core 2 (s.pairedOf q.g)) q := by
  cases paired : s.pairedOf q.g with
  | false => exact ⟨fun _ => rfl, rfl, fun _ => rfl⟩
  | true =>
    refine ⟨fun single => (by rw [paired] at single; cases single), rfl, fun c => ?_⟩
    change { (s.modCore q.core fun c => { c with l1 := dropClean c.l1, badL1 := badHeld c.badL1 (dropClean c.l1) }).core c with
      l1 := (s.core c).l1, badL1 := (s.core c).badL1, reqs := (s.core c).reqs } = s.core c
    rw [core_modCore]
    split
    next same =>
      subst same
      rfl
    next => rfl
theorem acquireChunks_groups (s : State) (q : Q) (cs : List Nat) : (s.acquireChunks q cs).groups = s.groups := by
  unfold State.acquireChunks
  split
  · rfl
  · exact (teamTraffic_groups (teamTraffic_acquire s q) : (s.acquireAt q.core 2 (s.pairedOf q.g)).groups = s.groups)
theorem sees_acquireChunks {s : State} {q : Q} {tm : Team} (team : s.team? q.g.team = some tm) (cs : List Nat) : Sees s (s.acquireChunks q cs) q tm cs := by
  unfold State.acquireChunks
  split
  next none_ =>
    refine ⟨s, tm, ⟨fun _ => rfl, rfl, fun _ => rfl⟩, rfl, fun _ _ => rfl, team, rfl, fun c mem => ?_⟩
    rw [List.isEmpty_iff.mp none_] at mem
    cases mem
  next =>
    have traffic := teamTraffic_acquire s q
    let see : Team → Team := fun t => if t.landed.isEmpty then t else t.seeChunks cs
    have keeps (t : Team) : (see t).id = t.id := by
      simp only [see]
      split <;> rfl
    have same (id : Nat) : (s.acquireAt q.core 2 (s.pairedOf q.g)).team? id = s.team? id := by
      unfold State.team?
      rw [teamTraffic_teams traffic]
    have teams (id : Nat) := team_modTeam (s.acquireAt q.core 2 (s.pairedOf q.g)) q.g.team id see keeps
    refine ⟨_, see tm, traffic, ?_, fun id other => ?_, ?_, ?_, fun c mem => ?_⟩
    · have back := teamTraffic_teams traffic
      generalize s.acquireAt q.core 2 (s.pairedOf q.g) = v at back
      rw [← back]
      rfl
    · rw [teams, if_neg other, same]
    · rw [teams, if_pos rfl, same, team]
      rfl
    · simp only [see]
      split <;> rfl
    · simp only [see]
      split
      next none_ => simp [List.isEmpty_iff.mp none_]
      next => simp [Team.seeChunks, mem]
theorem Sees.setGrp {s u : State} {q : Q} {tm : Team} {cs : List Nat} (h : Sees s u q tm cs) (G : Group) : Sees s (u.setGrp G) q tm cs := h
/-- The base and the mask of the named chunks are in order. -/
theorem cwChecks_ok {o : FY} {s : State} {q : Q} {tm : Team} (k : Team → Res) (team : s.team? q.g.team = some tm) (failed : tm.failed = [])
    (aligned : cwBase o q.g % 512 = 0) (inside : ∀ i, (cwMask o q.g).getLsbD i = true → cwBase o q.g + 512 * i < tm.s) :
    cwChecks o q s k = k tm := by
  have within : (cwChunks o q.g).any (fun c => decide (tm.s ≤ 512 * c)) = false := by
    rw [List.any_eq_false]
    intro c mem
    obtain ⟨i, named, rfl⟩ := List.mem_map.mp mem
    have := inside i ((mem_lanesOf _ _ _).mp named).2
    simp only [decide_eq_true_eq]
    omega
  unfold cwChecks
  rw [team]
  dsimp only
  rw [aligned, within, failedIn_none failed]
  rfl
theorem mem_cwChunks (o : FY) (g : Group) (c : Nat) : c ∈ cwChunks o g ↔ ∃ i, (cwMask o g).getLsbD i = true ∧ cwBase o g / 512 + i = c := by
  unfold cwChunks
  rw [List.mem_map]
  constructor
  · rintro ⟨i, mem, rfl⟩
    exact ⟨i, ((mem_lanesOf _ _ _).mp mem).2, rfl⟩
  · rintro ⟨i, named, rfl⟩
    exact ⟨i, (mem_lanesOf _ _ _).mpr ⟨BitVec.lt_of_getLsbD named, named⟩, rfl⟩
theorem ctest_formed {o : FY} {s : State} {q : Q} (performs : Performs (.ctest o) s q) : ∃ d, o.ya = .s d ∧ DestFits (.s d) 2 q.g := by
  have use := (formed_sig _ s q performs (sigCwait o true) rfl).2.1 (dstS o.ya) (by simp [sigCwait])
  have fits := dest_fits _ s q performs (sigCwait o true) rfl (dstS o.ya) (by simp [sigCwait]) rfl
  simp only [Use.ok, Bool.and_eq_true] at use
  cases kind : o.ya with
  | s d => exact ⟨d, rfl, by rw [show (dstS o.ya).o = o.ya from rfl, kind] at fits; exact fits⟩
  | _ => rw [show (dstS o.ya).o = o.ya from rfl, kind] at use; cases use.1
section
variable {o : FY} {s : State} {q : Q} {tm : Team} (team : s.team? q.g.team = some tm) (failed : tm.failed = []) (aligned : cwBase o q.g % 512 = 0)
  (inside : ∀ i, (cwMask o q.g).getLsbD i = true → cwBase o q.g + 512 * i < tm.s)
include team failed aligned inside

theorem cwait_goes (performs : Performs (.cwait o) s q) (present : ∀ c ∈ cwChunks o q.g, c ∉ tm.absent) :
    ∃ u, Goes (.cwait o) s q u ∧ u.grp? q.g.id = some q.g ∧ SameOthers s u q ∧ Sees s u q tm (cwChunks o q.g) := by
  have runs : exec (.cwait o) s = _ := show execCwait o s = _ by unfold execCwait; rfl
  have grp (id : Nat) : (s.acquireChunks q (cwChunks o q.g)).grp? id = s.grp? id := by
    unfold State.grp?
    rw [acquireChunks_groups]
  have free : tm.anyAbsent (cwChunks o q.g) = false := by
    rw [Bool.eq_false_iff, Ne, anyAbsent_iff]
    rintro ⟨c, mem, absent⟩
    exact present c mem absent
  refine ⟨_, goes_same _ _ s _ q performs runs ?_ (grp _), (grp _).trans (issuing_grp _ s q performs.issues), fun id _ => by rw [grp],
    sees_acquireChunks team _⟩
  rw [cwChecks_ok _ team failed aligned inside, free]
  rfl
theorem cwait_waits (performs : Performs (.cwait o) s q) (missing : ∃ c ∈ cwChunks o q.g, c ∈ tm.absent) :
    Waits (.cwait o) s q (.chunks (cwBase o q.g) (cwMask o q.g).toNat (cwChunks o q.g)) s := by
  have runs : exec (.cwait o) s = _ := show execCwait o s = _ by unfold execCwait; rfl
  refine waits_of _ _ s s q _ q.g performs runs ?_ (issuing_grp _ s q performs.issues) performs.unstepped (shaped_lanes _ performs.shaped)
  rw [cwChecks_ok _ team failed aligned inside, if_pos ((anyAbsent_iff _ _).mpr missing)]
theorem ctest_gives (performs : Performs (.ctest o) s q) :
    ∃ u t G g, exec (.ctest o) s = .next t ∧ Continues q u t G g ∧ Dest o.ya 2 false q G
      (fun _ => BitVec.ofFnLE fun i => (cwMask o q.g).getLsbD i && decide (cwBase o q.g / 512 + i.val ∉ tm.absent)) ∧ SameLanes q G ∧ SameOthers s u q ∧
      Sees s u q tm ((cwChunks o q.g).filter fun c => !tm.absent.contains c) := by
  obtain ⟨d, dest, fits⟩ := ctest_formed performs
  let word : DWord := maskOf 64 fun i => (cwMask o q.g).getLsbD i && !tm.absent.contains (cwBase o q.g / 512 + i)
  have value : word = BitVec.ofFnLE fun i => (cwMask o q.g).getLsbD i && decide (cwBase o q.g / 512 + i.val ∉ tm.absent) := by
    apply BitVec.eq_of_getLsbD_eq
    intro i within
    rw [getLsbD_maskOf 64 (Nat.le_refl _), BitVec.getLsbD_ofFnLE, decide_eq_true within, Bool.true_and]
    simp [within]
  let u := s.acquireChunks q ((cwChunks o q.g).filter fun c => !tm.absent.contains c)
  have groups : u.groups = s.groups := acquireChunks_groups s q _
  have regs := RegsOnly.writeS q.g q.pf d.toNat word
  have grp : (u.setGrp (q.g.writeS q.pf d.toNat word)).grp? q.g.id = some (q.g.writeS q.pf d.toNat word) := by
    have before : u.grp? q.g.id = s.grp? q.g.id := by unfold State.grp?; rw [groups]
    rw [grp_setGrp, if_pos regs.fields.1.symm, before, issuing_grp _ s q performs.issues]
    rfl
  have runs : exec (.ctest o) s = _ := show execCtest o s = _ by unfold execCtest; rfl
  obtain ⟨v, h, g, next, continues⟩ := goes_of (u := u.setGrp (q.g.writeS q.pf d.toNat word)) _ _ s q _ performs runs (by
    rw [cwChecks_ok _ team failed aligned inside, dest]
    rfl) grp (regs.fields.2.1.trans performs.unstepped) ((congrArg List.length regs.fields.2.2.2.1).trans (shaped_lanes _ performs.shaped))
  obtain rfl := Option.some.inj (grp.symm.trans continues.before)
  refine ⟨_, v, _, g, next, continues, ?_, regs.sameLanes ⟨rfl, rfl, rfl, rfl, rfl, rfl, rfl⟩, fun id other => ?_, (sees_acquireChunks team _).setGrp _⟩
  · rw [dest, ← value]
    exact dest_writeS performs.shaped fits rfl rfl (lowest_width _ _ _ performs)
  · rw [others_setGrp u _ id (by rw [regs.fields.1]; exact other)]
    unfold State.grp?
    rw [groups]
end

/-! ### CPY (R273) -/

theorem cpy_goes (o : FM) (s : State) (q : Q) (tm : Team) :
    let out := mbit o.mod 0
    let n := (q.g.rdS o.data).toNat
    let off := (q.g.rdS o.index).toNat
    let a : Int := (q.g.rdS o.base).toNat + off24 o.off
    Performs (.cpy o) s q → s.team? q.g.team = some tm → tm.failed = [] → 0 < n → n % 512 = 0 → off % 512 = 0 → off + n ≤ tm.s →
    a % 16 = 0 → s.rangeCond q.g a n 1 (if out then .wr else .rd) = none → s.inFoot q.g out (addrOf a) n = true →
    (∀ c ∈ chunksOf off n, c ∉ tm.absent) →
    ∃ u, TeamTraffic s u q ∧ Goes (.cpy o) s q (State.modTeam { u with fresh := s.fresh + 1 } q.g.team fun t => { t with
      absent := t.absent ++ chunksOf off n
      rounds := t.rounds ++ [{ id := s.fresh, stage := none, jobs := [{
        out, rows := [(addrOf a, off, n)], chunks := chunksOf off n, left := chunksOf off n }] }] }) := by
  intro out n off a performs team failed pos size place fits aligned range foot present
  have runs : exec (.cpy o) s = _ := show execCpy o s = _ by unfold execCpy; rfl
  have traffic := teamTraffic_release s q
  have free : tm.anyAbsent (chunksOf off n) = false := by
    rw [Bool.eq_false_iff, Ne, anyAbsent_iff]
    rintro ⟨c, mem, absent⟩
    exact present c mem absent
  refine ⟨_, traffic, goes_same _ _ s _ q performs runs ?_ (teamTraffic_grp traffic _)⟩
  dsimp only
  rw [team]
  dsimp only
  rw [if_neg (by simp; omega), if_neg (by simpa using aligned), show s.rangeCond _ _ _ _ _ = none from range]
  simp only [settleU]
  rw [show s.inFoot _ _ _ _ = true from foot, failedIn_none failed, show tm.anyAbsent _ = false from free, team_id team]
  simp only [State.takeFresh, teamTraffic_fresh traffic]
  rfl

/-- Settles O21: the chunks that are named decide, and those found present are seen. -/
theorem chunkWaitsAndCopies : Obligations.ChunkWaitsAndCopies := by
  refine ⟨fun o s q tm => ?_, cpy_goes⟩
  intro b m team failed aligned inside sees
  have seen {u : State} {cs : List Nat} (h : Sees s u q tm cs) (all : ∀ i, m.getLsbD i = true → b / 512 + i ∉ tm.absent → b / 512 + i ∈ cs) : sees u := by
    obtain ⟨v, tn, traffic, rest, others, team, landed, fresh⟩ := h
    exact ⟨v, tn, traffic, rest, others, team, landed, fun i named here => fresh _ (all i named here)⟩
  refine ⟨fun performs present => ?_, fun performs missing => ?_, fun performs => ?_⟩
  · obtain ⟨u, goes, grp, others, h⟩ := cwait_goes team failed aligned inside performs fun c mem => by
      obtain ⟨i, named, rfl⟩ := (mem_cwChunks _ _ _).mp mem
      exact present i named
    exact ⟨u, goes, grp, others, seen h fun i named _ => (mem_cwChunks _ _ _).mpr ⟨i, named, rfl⟩⟩
  · obtain ⟨i, named, absent⟩ := missing
    exact cwait_waits team failed aligned inside performs ⟨_, (mem_cwChunks _ _ _).mpr ⟨i, named, rfl⟩, absent⟩
  · obtain ⟨u, t, G, g, next, continues, dest, lanes, others, h⟩ := ctest_gives team failed aligned inside performs
    exact ⟨u, t, G, g, next, continues, dest, lanes, others, seen h fun i named here =>
      List.mem_filter.mpr ⟨(mem_cwChunks _ _ _).mpr ⟨i, named, rfl⟩, by simpa using here⟩⟩

end Sys2Proof.Proofs


/-!
The statements about the worked encodings and the reset state.
-/
namespace Sys2Proof.Proofs
open Sys2Proof Sys2Proof.Machine Sys2Proof.Laws

/-- Settles O49: the words are decoded one by one. -/
theorem workedEncodings : Obligations.WorkedEncodings := by
  unfold Obligations.WorkedEncodings
  decide +kernel

/-- A Surveyor's registers at reset; which of its cluster and shard numbers it has makes no difference. -/
theorem surveyor_reset (k : Nat) : ∃ lcl shard, State.reset.surv k = { lcl, shard } := by
  have empty : State.reset.surv k = Surveyor.init k := rfl
  rw [empty, Surveyor.init]
  split
  · exact ⟨_, _, rfl⟩
  · exact ⟨_, _, rfl⟩
theorem core_reset (c : Nat) : (State.reset.core c).cycle = 0#64 := rfl
theorem cluster_reset (cl : Nat) : State.reset.cluster cl = Cluster.init := rfl
/-- Settles O48: each part of the reset state is given by its default. -/
theorem resetState : Obligations.ResetState := by
  refine ⟨rfl, rfl, rfl, rfl, fun d => ⟨rfl, rfl⟩, fun k => ?_, rfl, rfl, core_reset, fun cl => ?_⟩
  · obtain ⟨lcl, shard, surveyor⟩ := surveyor_reset k
    rw [surveyor]
    exact ⟨rfl, rfl, rfl, rfl, rfl, rfl, rfl, rfl, rfl, rfl, rfl, rfl⟩
  · rw [cluster_reset]
    decide

end Sys2Proof.Proofs


/-!
The statements about the choice of an instruction by a step (R21 to R28, R90, R91) and the checks before an instruction (R40 to R58).
-/
namespace Sys2Proof.Proofs
open Sys2Proof Sys2Proof.Machine Sys2Proof.Laws

/-! ### Steps (R25, R56 to R58) -/

/-- Each instruction word is run for the subset that issues; the events are none. -/
theorem word_runs (i : Instr) (word : Instr.isWord i = true) : ∃ body, ∀ s, exec i s = runI i body s := by
  cases i <;> (try exact absurd word Bool.false_ne_true) <;> exact ⟨_, fun _ => rfl⟩

theorem fetch_instr {s : State} {g : Group} {pc : DWord} {bs : List Byte} {pa : Nat} {i : Instr} (line : s.fetchLine g (lineBase pc) = .bytes bs pa)
    (good : s.badRead pa 64 = false) (enters : g.entryDue = true → g.mayEnter bs (slotOf pc) = true) (parity : lineParOk bs = true)
    (reserved : lineReservedOk bs = true) (word : decode (lineSlot bs (slotOf pc)) = .ok i) : s.fetch g pc none = .instr i := by
  have entry : (g.entryDue && !g.mayEnter bs (slotOf pc)) = false := by
    cases due : g.entryDue with
    | false => rfl
    | true => simp [enters due]
  unfold State.fetch
  simp [line, good, parity, reserved, word, entry]
theorem issue_executes {s u : State} {c : Issue} {g : Group} {bs : List Byte} {pa core : Nat} {stale : Bool} {i : Instr}
    (picks : s.beginIssue core stale = some (u, c)) (grp : u.grp? c.gid = some g) (line : u.fetchLine g (lineBase c.pc) = .bytes bs pa)
    (good : u.badRead pa 64 = false) (due : (g.lane (lowest c.mask)).due = none) (enters : g.entryDue = true → g.mayEnter bs (slotOf c.pc) = true)
    (parity : lineParOk bs = true) (reserved : lineReservedOk bs = true) (word : decode (lineSlot bs (slotOf c.pc)) = .ok i) :
    s.issue core stale = exec i (u.touch g (lineBase c.pc).toNat .x) := by
  unfold State.issue
  rw [picks]
  dsimp only
  rw [grp]
  dsimp only
  rw [due, fetch_instr line good enters parity reserved word]
theorem beginIssue_current {s u : State} {core : Nat} {stale : Bool} {c : Issue} (picks : s.beginIssue core stale = some (u, c)) :
    u.cur = some c ∧ c.core = core ∧ c.stale = stale ∧ s.pick core = some (c.gid, c.mask) ∧
      ∀ g, s.grp? c.gid = some g → c.pc = (g.lane (lowest c.mask)).pc := by
  unfold State.beginIssue at picks
  split at picks
  · cases picks
  next gid m picked =>
    split at picks
    · cases picks
    next g found =>
      dsimp only at picks
      split at picks
      · cases picks
        exact ⟨rfl, rfl, rfl, picked, fun h same => by rw [found] at same; cases same; rfl⟩
      · cases picks
        exact ⟨rfl, rfl, rfl, picked, fun h same => by rw [found] at same; cases same; rfl⟩

/-- Settles O53: a step runs the item or the default schedule's choice, and an issue executes what it fetches. -/
theorem stepRunsTheDecodedInstruction : Obligations.StepRunsTheDecodedInstruction := by
  refine ⟨?_, ?_, ?_, ?_, fun s core stale u c picks => beginIssue_current picks⟩
  · intro s u c g bs pa core stale rest i supply agenda picks grp line good due enters parity reserved word
    unfold step
    rw [agenda]
    refine congrArg Out.finish ?_
    unfold State.runItem
    refine (if_neg (by simp [supply])).trans ?_
    exact issue_executes picks grp line good due enters parity reserved word
  · intro s u c g bs pa core i supply booted agenda still next picks grp line good due enters parity reserved word
    unfold step
    rw [agenda]
    refine congrArg Out.finish ?_
    unfold State.idle
    rw [if_neg (by simp [supply]), if_neg (by simp [booted]), still]
    dsimp only
    rw [next]
    exact issue_executes picks grp line good due enters parity reserved word
  · intro s supply unbooted agenda
    unfold step
    rw [agenda]
    have boots : s.idle = .next s.boot := by
      unfold State.idle
      rw [if_neg (by simp [supply]), if_pos (by simp [unbooted])]
    exact congrArg Out.finish boots
  · intro s i rest supply agenda event
    unfold step
    rw [agenda]
    refine congrArg Out.finish ?_
    unfold State.runItem
    exact (if_neg (by simp [supply])).trans (if_neg (by simp [event]))

/-! ### The checks before an instruction (R58) -/

theorem traps_of_settle {i : Instr} {s u : State} {q : Q} {c : Cause} {lanes : Mask} {addr : DWord} {code e : Nat} {G : Group}
    (runs : exec i s = settleRes i q e (.trap c lanes addr code u)) (grp : (u.spendRuns q (issueCk i (u.core q.core).twoPass * e)).grp? q.g.id = some G) :
    Traps i s q c lanes addr code (u.spendRuns q (issueCk i (u.core q.core).twoPass * e)) := by
  refine ⟨G, grp, ?_⟩
  rw [runs]
  unfold settleRes
  dsimp only
  rw [grp]
theorem spendRuns_none (s : State) (q : Q) : s.spendRuns q 0 = s := rfl
/-- An exception taken from the state of the issue as it stands. -/
theorem traps_here {i : Instr} {s : State} {q : Q} {c : Cause} {lanes : Mask} {addr : DWord} {code : Nat} (issues : s.issuing i = some q)
    (runs : exec i s = settleRes i q 0 (.trap c lanes addr code s)) : Traps i s q c lanes addr code s := by
  have := traps_of_settle (G := q.g) runs (by rw [Nat.mul_zero, spendRuns_none]; exact issuing_grp i s q issues)
  rwa [Nat.mul_zero, spendRuns_none] at this
/-- What a wait leaves, whatever the instruction did before it. -/
theorem waitState_waitsAt (i : Instr) (q : Q) (ck : Nat) (w : Wait) {u : State} {G : Group} (grp : u.grp? q.g.id = some G)
    (lanes : G.lanes.length = q.g.width) :
    WaitsAt q w u (waitState i q ck w u) G (wentGroup q ck ((u.core q.core).growth q.g ck) (waitGrp i q ck w G)) := by
  obtain ⟨vregs, sregs, preds, kept⟩ := kept_fields (kept_waitGrp i q ck ((u.core q.core).growth q.g ck) w G)
  have spent := outside_trans (outside_modGrp u q.g.id (waitGrp i q ck w)) (outside_spend _ q q.g.id ck)
  have sameClusters := clusters_spend (u.modGrp q.g.id (waitGrp i q ck w)) q q.g.id ck
  refine ⟨grp, ?_, vregs, sregs, preds, ?_, kept, ?_, ?_, ?_⟩
  · rw [waitState_grp, if_pos rfl, grp]; rfl
  · exact fun L hL => lane_waitGrp i q ck _ w G L (by omega)
  · intro id other
    rw [waitState_grp, if_neg other]
    cases u.grp? id with
    | none => rfl
    | some g => simp [tickGroup_view]
  · unfold waitState
    generalize (u.modGrp q.g.id (waitGrp i q ck w)).spend q q.g.id ck = x at spent ⊢
    unfold SameOutside at spent
    obtain ⟨cores, dies, line⟩ := enqueue_parts x q.g q.sub w
    rw [line]
    have sameDies := congrArg State.dies spent
    dsimp only at sameDies
    rw [← sameDies]
    exact spent
  · unfold waitState
    generalize (u.modGrp q.g.id (waitGrp i q ck w)).spend q q.g.id ck = x at sameClusters ⊢
    obtain ⟨cores, dies, line⟩ := enqueue_parts x q.g q.sub w
    rw [line]
    exact sameClusters
/-- A wait from the state of the issue as it stands. -/
theorem waits_here {i : Instr} {s : State} {q : Q} {w : Wait} (issues : s.issuing i = some q) (shaped : q.g.shaped = true) (unstepped : q.g.stepping = false)
    (runs : exec i s = settleRes i q 0 (.wait w s)) : Waits i s q w s := by
  have grp := issuing_grp i s q issues
  obtain ⟨ck, settles⟩ := settle_wait i q 0 w s q.g grp unstepped
  exact ⟨_, q.g, _, runs.trans settles, waitState_waitsAt i q ck w grp (shaped_lanes _ shaped)⟩

theorem disagree_twoPass (s : State) (core c : Nat) (g : Group) (runs : List Mask) :
    ((s.disagree core g runs).core c).twoPass = (s.core c).twoPass := by
  unfold State.disagree
  rw [core_modCore]
  split
  next same => subst same; rfl
  · rfl
theorem noteCheck_twoPass (s : State) (core c : Nat) : ((s.noteCheck core).core c).twoPass = (s.core c).twoPass := by
  unfold State.noteCheck
  rw [core_modCore]
  split
  next same => subst same; rfl
  · rfl
theorem grp_spendRuns {s : State} {q : Q} {ck : Nat} {G : Group} (grp : s.grp? q.g.id = some G) : ∃ H, (s.spendRuns q ck).grp? q.g.id = some H := by
  unfold State.spendRuns
  split
  · exact ⟨G, grp⟩
  · exact ⟨_, by rw [grp_spend, if_pos rfl, grp]; rfl⟩
/-- A third run that disagrees (R136). -/
theorem runI_disagrees (i : Instr) (body : Q → State → Res) {s : State} {q : Q} {runs : List Mask} (issues : s.issuing i = some q) (passes : q.stops = none)
    (executes : q.act ≠ 0#64) (supplied : s.workWait i q = none) (disagrees : s.disagreement q = some runs) (third : 3 ≤ runs.length) :
    runI i body s = settleRes i q 2 (.trap .check q.act 0#64 0 ((s.disagree q.core q.g runs).noteCheck q.core)) := by
  unfold runI
  simp [issues, passes, executes, supplied, disagrees, third]
/-- An instruction whose class has used its allowance (R447). -/
theorem runI_waits (i : Instr) (body : Q → State → Res) {s : State} {q : Q} {w : Wait} (issues : s.issuing i = some q) (passes : q.stops = none)
    (executes : q.act ≠ 0#64) (used : s.workWait i q = some w) : runI i body s = settleRes i q 0 (.wait w s) := by
  unfold runI
  simp [issues, passes, executes, used]

/-- Settles O54: the checks before an instruction in their order, by the branches of `runI`. -/
theorem checksBeforeAnInstruction : Obligations.ChecksBeforeAnInstruction := by
  refine ⟨?_, ?_, ?_, ?_, ?_⟩
  · intro i s word idle
    obtain ⟨body, runs⟩ := word_runs i word
    rw [runs]
    unfold runI State.issuing
    rw [idle]
  · intro i s q c _ word issues stops
    obtain ⟨body, runs⟩ := word_runs i word
    refine ⟨fun first => ?_, fun lanes a code legal target => ?_⟩
    · exact traps_here issues ((runs s).trans (runI_stops i body s q c issues stops first))
    · exact traps_here issues ((runs s).trans (runI_target i body s q c _ issues stops legal target))
  · intro q
    unfold Q.stops
    refine ⟨fun unfit => by simp [unfit], fun fits executes => ⟨fun lost => ?_, fun held hit => ?_, fun held free bad => ?_⟩⟩
    · simp [fits, executes, lost]
    · rw [held]; simp [fits, executes, hit]
    · rw [held]; simp [fits, executes, free, bad]
  · intro i s q runs _ word issues passes executes supplied disagrees third
    obtain ⟨body, answers⟩ := word_runs i word
    have settles := (answers s).trans (runI_disagrees i body issues passes executes supplied disagrees third)
    obtain ⟨H, grp⟩ := grp_spendRuns (ck := issueCk i (s.core q.core).twoPass * 2)
      (show ((s.disagree q.core q.g runs).noteCheck q.core).grp? q.g.id = some q.g from issuing_grp i s q issues)
    have traps := traps_of_settle (G := H) settles
    rw [noteCheck_twoPass, disagree_twoPass] at traps
    exact traps grp
  · intro i s q w _ word issues passes executes shaped unstepped used
    obtain ⟨body, runs⟩ := word_runs i word
    exact waits_here issues shaped unstepped ((runs s).trans (runI_waits i body issues passes executes used))

end Sys2Proof.Proofs


/-!
The statement about the instruction that executes in no lane (R42), and RCV's join entry (R104, R106).
-/
namespace Sys2Proof.Proofs
open Sys2Proof Sys2Proof.Machine Sys2Proof.Laws

/-! ### The issue's end where no lane executes -/

theorem hintPenalty_empty (i : Instr) {q : Q} (shaped : q.g.shaped = true) (empty : q.act = 0#64) : hintPenalty i q = 0 := by
  have none (o : FB) : (maskOf q.g.width fun L => q.act.getLsbD L && condHolds o q.g L) = 0#64 := by
    rw [empty]
    apply BitVec.eq_of_getLsbD_eq
    intro L _
    rw [getLsbD_maskOf _ (shaped_width _ shaped)]
    simp
  unfold hintPenalty
  split <;> simp [none]
theorem foldl_max_le {α : Type} {l : List α} {f : α → Nat} {a b : Nat} (start : a ≤ b) (all : ∀ x ∈ l, f x ≤ b) :
    l.foldl (fun m x => max m (f x)) a ≤ b := by
  induction l generalizing a with
  | nil => exact start
  | cons x l ih => exact ih (max_le start (all x (.head l))) fun y mem => all y (.tail x mem)
theorem start_le_foldl_max (l : List Nat) (a : Nat) : a ≤ l.foldl max a := by
  induction l generalizing a with
  | nil => exact le_refl a
  | cons y l ih => exact (le_max_left a y).trans (ih _)
theorem le_foldl_max {l : List Nat} {x : Nat} (mem : x ∈ l) (a : Nat) : x ≤ l.foldl max a := by
  induction l generalizing a with
  | nil => cases mem
  | cons y l ih =>
    cases mem with
    | head => exact (le_max_right a x).trans (start_le_foldl_max l _)
    | tail _ mem => exact ih mem _
/-- The quarter that is furthest on moves by no more than the issue takes. -/
theorem growth_le (c : Core) (g : Group) (ck : Nat) : c.growth g ck ≤ ck := by
  have block : c.aheadOf g ≤ c.ahead := by
    refine foldl_max_le (Nat.zero_le _) fun n _ => ?_
    rw [List.getD_eq_getElem?_getD]
    cases entry : c.lead[n]? with
    | none => exact Nat.zero_le _
    | some x => exact le_foldl_max (List.mem_of_getElem? entry) 0
  have after : (c.leadAfter g ck).foldl max 0 ≤ c.ahead + ck := by
    refine foldl_max_le (f := id) (Nat.zero_le _) fun x mem => ?_
    obtain ⟨n, inside, rfl⟩ := List.mem_mapIdx.mp mem
    have entry : c.lead[n] ≤ c.ahead := le_foldl_max (List.getElem_mem inside) 0
    dsimp only [id]
    split <;> omega
  unfold Core.growth
  omega

theorem yieldTo_went (q : Q) (ck n : Nat) (G : Group) : (wentGroup q ck n G).yieldTo = G.yieldTo := by
  unfold wentGroup tickGroup
  split <;> rfl
theorem latches_went (q : Q) (ck n : Nat) (G : Group) : (wentGroup q ck n G).latches = G.latches := by
  unfold wentGroup tickGroup
  split <;> rfl
/-- The Y field of the issue (R47). -/
theorem yieldTo_performed (i : Instr) (q : Q) (ck n : Nat) (G : Group) :
    (wentGroup q ck n (performedGrp i q ck G)).yieldTo = if q.pf.y then some q.sub else none := yieldTo_went q ck n _
theorem latches_issued (G : Group) (i : Instr) (q : Q) (ck : Nat) : (G.issued i q ck false).latches = G.latches := by
  unfold Group.issued
  dsimp only
  rw [if_neg Bool.false_ne_true]
  split <;> split <;> rfl
theorem stall_modLanes (H : Group) (m : Mask) (n : Nat) {L : Nat} (inside : L < H.lanes.length) (sub : m.getLsbD L = true) :
    ((H.modLanes m fun _ l => { l with stall := n }).lane L).stall = n := by
  have lane := lane_modLanes H m (fun _ l => { l with stall := n }) L inside
  exact congrArg Lane.stall (lane.trans (if_pos sub))
theorem stall_issued {G : Group} (i : Instr) {q : Q} (ck : Nat) (b : Bool) (holds : q.pf.stall.toNat + hintPenalty i q ≠ 0) {L : Nat}
    (inside : L < G.lanes.length) (sub : q.sub.getLsbD L = true) :
    ((G.issued i q ck b).lane L).stall = ck + (q.pf.stall.toNat + hintPenalty i q) := by
  unfold Group.issued
  generalize q.pf.stall.toNat + hintPenalty i q = hold at holds ⊢
  generalize isCommit q.sg.unit i = commits
  generalize marks : (if commits = true then G.modLanes q.sub fun _ l => { l with commit := true } else G) = H
  have marked : L < H.lanes.length := by
    rw [← marks]
    cases commits
    · exact inside
    · exact (modLanes_length _ _ _).symm ▸ inside
  have test : (hold == 0) = false := beq_false_of_ne holds
  dsimp only
  rw [test]
  refine Eq.trans ?_ (stall_modLanes H q.sub (ck + hold) marked sub)
  cases b <;> rfl
/-- An issue that ends no latch and begins none. -/
theorem latches_performed {i : Instr} {q : Q} (ck n : Nat) (G : Group) (first : q.prior = none) (unbroken : breaksAfter i q.sg q.pf = false) :
    (wentGroup q ck n (performedGrp i q ck G)).latches = G.latches := by
  rw [latches_went]
  unfold performedGrp issuedBy Group.unkeep
  rw [first, unbroken]
  exact latches_issued (G.moveTo q.sub (nextPc q.pc)) i q ck
/-- The STALL field (R48): the lanes of the subset wait that many ck from the instruction's end. -/
theorem stall_performed {i : Instr} {q : Q} {ck n : Nat} {G : Group} (noHint : hintPenalty i q = 0) (holds : 0 < q.pf.stall.toNat) (growth : n ≤ ck)
    {L : Nat} (inside : L < G.lanes.length) (sub : q.sub.getLsbD L = true) :
    q.pf.stall.toNat ≤ ((wentGroup q ck n (performedGrp i q ck G)).lane L).stall ∧
      ((wentGroup q ck n (performedGrp i q ck G)).lane L).stall ≤ ck + q.pf.stall.toNat := by
  have held : ((performedGrp i q ck G).lane L).stall = ck + q.pf.stall.toNat := by
    have := stall_issued (G := (G.moveTo q.sub (nextPc q.pc)).unkeep q) i ck (breaksAfter i q.sg q.pf || q.prior.isSome) (by omega)
      (by rw [unkeep_lanes, moveTo_length]; exact inside) sub
    rwa [noHint] at this
  obtain ⟨k, ticked⟩ := lane_went q ck n (performedGrp i q ck G) L (by
    unfold performedGrp
    rw [issuedBy_length, moveTo_length]
    exact inside)
  rw [ticked]
  cases k with
  | false => simp only [Bool.false_eq_true, if_false, id]; omega
  | true =>
    have late : (tickLane n ((performedGrp i q ck G).lane L)).stall = ((performedGrp i q ck G).lane L).stall - n := by
      unfold tickLane
      split <;> rfl
    rw [if_pos rfl, late]
    omega

/-- The state that an instruction leaves that goes on, with the ck that it takes. -/
theorem settle_ok_at (i : Instr) (q : Q) (e : Nat) {s : State} {G : Group} (grp : s.grp? q.g.id = some G) (unstepped : G.stepping = false) :
    settleRes i q e (.ok s) =
      .next (wentState q (issueCk i (s.core q.core).twoPass * (1 + e)) (performedGrp i q (issueCk i (s.core q.core).twoPass * (1 + e))) s) :=
  congrArg Host.Outcome.next (step_went q _ _ s (performedGrp_id i q _) G grp (by
    simp [Group.moveTo, Group.settle, Group.dropJoins, Group.modLanes, unstepped]))
/-- The state that an issue leaves that executes in no lane. -/
theorem empty_goes_at (i : Instr) (body : Q → State → Res) {s : State} {q : Q} (issues : s.issuing i = some q) (fits : q.sg.fits q.g = true)
    (empty : q.act = 0#64) (plain : actsEmpty i = false) (shaped : q.g.shaped = true) (unstepped : q.g.stepping = false) :
    let ck := issueCk i (s.core q.core).twoPass
    ∃ t, runI i body s = .next t ∧ Continues q s t q.g (wentGroup q ck ((s.core q.core).growth q.g ck) (performedGrp i q ck q.g)) := by
  intro ck
  obtain ⟨t, g, answers, continues⟩ := empty_goes i body s q issues fits empty plain shaped unstepped
  have grp := issuing_grp i s q issues
  have settled : settleRes i q 0 (.ok s) = .next (wentState q ck (performedGrp i q ck) s) := by
    have at0 := settle_ok_at i q 0 grp unstepped
    rwa [Nat.add_zero, Nat.mul_one] at at0
  have now : t = wentState q ck (performedGrp i q ck) s := by
    rw [runI_empty i body s q issues (stops_of_empty q fits empty) empty plain, settled] at answers
    exact (Host.Outcome.next.inj answers).symm
  have after : t.grp? q.g.id = some (wentGroup q ck ((s.core q.core).growth q.g ck) (performedGrp i q ck q.g)) := by
    rw [now, wentState_grp q ck _ s (performedGrp_id i q ck), if_pos rfl, grp]
    rfl
  obtain rfl := Option.some.inj (continues.after.symm.trans after)
  exact ⟨t, answers, continues⟩

/-! ### RCV in no lane -/

/-- The group after an RCV that executes in no lane: its subset at the next slot, with the entry where there is room. -/
def passedRcv (o : FB) (q : Q) : Group := landGroup .direct false (decide (q.g.joins.length < 16)) o q
theorem takenMask_empty {o : FB} {q : Q} (shaped : q.g.shaped = true) (empty : q.act = 0#64) : takenMask .direct o q = 0#64 := by
  unfold takenMask
  rw [if_neg (by decide), empty]
  apply BitVec.eq_of_getLsbD_eq
  intro L _
  rw [getLsbD_maskOf _ (shaped_width _ shaped)]
  simp
theorem lanesOf_zero (w : Nat) : lanesOf w 0#64 = [] := by
  unfold lanesOf
  simp
theorem rcv_passes {o : FB} {s : State} {q : Q} (shaped : q.g.shaped = true) (empty : q.act = 0#64) :
    xferOp .direct false true o q s = .moved (s.setGrp (passedRcv o q)) := by
  have none := takenMask_empty (o := o) shaped empty
  have lands : s.checkDests q (lanesOf q.g.width (takenMask .direct o q)) (xferDest .direct o q) (stackCheck .direct false q) = .ok 0#64 :=
    checkDests_ok (by rw [none, lanesOf_zero]; nofun)
  have enters : (true && decide (16 ≤ q.g.joins.length) && q.act != 0#64) = false := by simp [empty]
  unfold xferOp
  dsimp only
  rw [show (if XferKind.direct == .ret then q.act else maskOf q.g.width fun L => q.act.getLsbD L && condHolds o q.g L) =
    takenMask .direct o q from rfl, lands]
  dsimp only
  rw [if_neg (by rw [enters]; exact Bool.false_ne_true)]
  unfold passedRcv landGroup landLane
  simp only [BitVec.getLsbD_zero, Bool.false_eq_true, if_false, Bool.true_and]
theorem rcv_empty (o : FB) (s : State) (q : Q) (issues : s.issuing (.rcv o) = some q) (fits : q.sg.fits q.g = true) (empty : q.act = 0#64) :
    exec (.rcv o) s = settleRes (.rcv o) q 0 (xferOp .direct false true o q s) := by
  have passes := stops_of_empty q fits empty
  show runI (.rcv o) (xferOp .direct false true o) s = _
  unfold runI
  simp [issues, passes, empty, actsEmpty]
/-- A lane after an RCV that executes in no lane. -/
theorem lane_passedRcv {o : FB} {q : Q} (shaped : q.g.shaped = true) (empty : q.act = 0#64) {L : Nat} (inside : L < q.g.width) :
    (passedRcv o q).lane L = if q.sub.getLsbD L then { q.g.lane L with pc := nextPc q.pc, wait := .none } else q.g.lane L := by
  unfold passedRcv
  rw [lane_landGroup _ _ _ _ _ (by rw [shaped_lanes _ shaped]; exact inside)]
  unfold landLane
  rw [takenMask_empty shaped empty]
  simp

theorem rcv_goes (o : FB) (s : State) (q : Q) (issues : s.issuing (.rcv o) = some q) (fits : q.sg.fits q.g = true) (empty : q.act = 0#64)
    (shaped : q.g.shaped = true) (unstepped : q.g.stepping = false) :
    ∃ t ck n, exec (.rcv o) s = .next t ∧ t.grp? q.g.id = some (wentGroup q ck n (placedGrp (.rcv o) q ck (passedRcv o q))) ∧ OnlyGroup s t q := by
  have id : (passedRcv o q).id = q.g.id := by unfold passedRcv landGroup; split <;> rfl
  have stepping : (passedRcv o q).stepping = q.g.stepping := by unfold passedRcv landGroup; split <;> rfl
  have now : (s.setGrp (passedRcv o q)).grp? q.g.id = some (passedRcv o q) := by
    rw [grp_setGrp, ← id, if_pos rfl, id, issuing_grp _ s q issues]
    rfl
  obtain ⟨ck, settles⟩ := settle_moved (.rcv o) q 0 _ _ now (stepping.trans unstepped)
  have frame := wentState_frame q ck (placedGrp (.rcv o) q ck) (s.setGrp (passedRcv o q)) (placedGrp_id _ q ck)
  refine ⟨_, ck, ((s.setGrp (passedRcv o q)).core q.core).growth q.g ck, by rw [rcv_empty o s q issues fits empty, rcv_passes shaped empty, settles], ?_,
    outside_trans (t := s.setGrp (passedRcv o q)) rfl frame.outside, ?_, frame.cores, frame.clusters⟩
  · rw [wentState_grp q ck _ _ (placedGrp_id _ q ck), if_pos rfl, now]
    rfl
  · exact wentState_others q ck _ s _ (placedGrp_id _ q ck) fun k other => others_setGrp s _ k (by rw [id]; exact other)

/-- Settles O55: an issue in no lane only goes on; of RCV the join entry stays for the lanes that live. -/
theorem emptyExecution : Obligations.EmptyExecution := by
  refine ⟨?_, ?_⟩
  · intro o s q _ issues fits empty shaped unstepped near
    obtain ⟨t, ck, n, answers, after, only⟩ := rcv_goes o s q issues fits empty shaped unstepped
    have length : (passedRcv o q).lanes.length = q.g.width := by
      unfold passedRcv
      rw [landGroup_length, shaped_lanes _ shaped]
    have same : keptOf (wentGroup q ck n (placedGrp (.rcv o) q ck (passedRcv o q))) = keptOf q.g :=
      (kept_went q ck n _).trans ((kept_issuedBy (.rcv o) q ck (passedRcv o q).settle).trans (landGroup_kept .direct false _ o q))
    obtain ⟨vregs, sregs, preds, kept⟩ := kept_fields same
    refine ⟨t, _, answers, after, vregs, sregs, preds, fun L inside => ?_, kept, only, fun room apart ⟨L, inside, sub, lives⟩ => ?_⟩
    · obtain ⟨held, settles⟩ := lane_settle (passedRcv o q) L (by rw [length]; exact inside)
      obtain ⟨view, srRec, wait⟩ := lane_done (.rcv o) q ck n (passedRcv o q).settle L (by rw [settle_length, length]; exact inside)
      rw [settles, lane_passedRcv shaped empty inside] at view srRec wait
      simp only [Lane.view, Prod.mk.injEq] at view
      obtain ⟨pc, wp, stack, exited, sr, flags, targ⟩ := view
      cases sub : q.sub.getLsbD L with
      | true =>
        rw [sub, if_pos rfl] at pc wp stack exited sr flags targ srRec wait
        exact ⟨pc, fun _ => wait rfl, flags, sr, srRec, wp, stack, exited, targ⟩
      | false =>
        rw [sub, if_neg Bool.false_ne_true] at pc wp stack exited sr flags targ srRec
        exact ⟨pc, nofun, flags, sr, srRec, wp, stack, exited, targ⟩
    · rw [joins_placed]
      have entered : passedRcv o q = landGroup .direct false true o q := by unfold passedRcv; rw [decide_eq_true room]
      have lane := lane_passedRcv (o := o) shaped empty inside
      rw [sub, if_pos rfl] at lane
      refine dropJoins_keeps (L := L) ?_ ?_ sub ?_ ?_
      · rw [entered]; exact List.mem_append_right _ List.mem_cons_self
      · rw [entered]; exact inside
      · rw [lane]; exact lives
      · rw [lane]; exact apart.symm
  · intro i s q _ word plain issues fits empty shaped unstepped
    obtain ⟨body, runs⟩ := word_runs i word
    obtain ⟨t, answers, continues⟩ := empty_goes_at i body issues fits empty plain shaped unstepped
    have noHint := hintPenalty_empty i shaped empty
    refine ⟨t, _, (runs s).trans answers, continues.after, continues.vregs, continues.sregs, continues.preds, fun first unbroken => ?_,
      advances_of q _ q.g _ _ continues.lanes fun L _ => rfl, continues.kept, continues.rest,
      yieldTo_performed i q _ _ _, fun holds L inside sub => ?_⟩
    · exact latches_performed _ _ _ first unbroken
    · exact stall_performed noHint holds (growth_le _ _ _) (by rw [shaped_lanes _ shaped]; exact inside) sub

end Sys2Proof.Proofs


/-!
The statements about traps, flag checks and counters (R417, R442, R443) and about the frames of the Cartouche engine (R455, R456).
-/
namespace Sys2Proof.Proofs
open Sys2Proof Sys2Proof.Machine Sys2Proof.Laws

/-! ### TRAP, BKPT and FCHK -/

/-- A group that the meaning of an instruction has put in the place of its own. -/
theorem placed_grp {i : Instr} {s : State} {q : Q} (performs : Performs i s q) {G : Group} (id : G.id = q.g.id) :
    (s.setGrp G).grp? q.g.id = some G := by
  rw [grp_setGrp, ← id, if_pos rfl, id, issuing_grp i s q performs.issues]
  rfl
theorem trap_traps (o : FY) (s : State) (q : Q) (performs : Performs (.trap o) s q) :
    Traps (.trap o) s q .trap q.act 0#64 o.code.toNat (s.setGrp ((q.g.modLanes q.sub fun _ l =>
      { l with commit := true }).modLanes q.act fun L l => { l with targ := if o.ya = .v 0#8 then 0#64 else q.g.rd o.ya 2 L })) := by
  refine trap_of _ _ s _ q _ _ _ _ _ performs (show execTrap o s = _ by unfold execTrap; rfl) ?_ (placed_grp performs rfl)
  have arg (L : Nat) : (match o.ya with
      | .v n => if n == 0#8 then 0#64 else q.g.v64 n.toNat L
      | _ => q.g.rd o.ya 2 L) = if o.ya = .v 0#8 then 0#64 else q.g.rd o.ya 2 L := by
    cases o.ya with
    | v n => by_cases zero : n = 0#8 <;> simp [zero, Group.rd]
    | _ => rw [if_neg nofun]
  simp only [← arg]
  rfl
theorem bkpt_traps (o : FY) (s : State) (q : Q) (performs : Performs (.bkpt o) s q) :
    Traps (.bkpt o) s q .break q.act 0#64 o.code.toNat (s.setGrp (q.g.modLanes q.sub fun _ l => { l with commit := true })) :=
  trap_of _ _ s _ q _ _ _ _ _ performs (show execBkpt o s = _ by unfold execBkpt; rfl) rfl (placed_grp performs rfl)
theorem fchk_checks (o : FY) (s : State) (q : Q) (performs : Performs (.fchk o) s q) :
    let m : Flags := o.code.setWidth 6
    let hit := maskOf q.g.width fun L => q.act.getLsbD L && (q.g.lane L).fflags &&& m != 0#6
    ((∀ L, L < q.g.width → q.act.getLsbD L = true → (q.g.lane L).fflags &&& m = 0#6) → Goes (.fchk o) s q s) ∧
    ((∃ L, L < q.g.width ∧ q.act.getLsbD L = true ∧ (q.g.lane L).fflags &&& m ≠ 0#6) → Traps (.fchk o) s q .trap hit 0#64 (65536 + m.toNat) s) := by
  intro m hit
  have runs : exec (.fchk o) s = runI (.fchk o) (fun q s => if (maskOf q.g.width fun L => q.act.getLsbD L && (q.g.lane L).fflags &&& m != 0#6) == 0#64
      then .ok s else .trap .trap (maskOf q.g.width fun L => q.act.getLsbD L && (q.g.lane L).fflags &&& m != 0#6) 0#64 (65536 + m.toNat) s) s := by
    show execFchk o s = _
    unfold execFchk
    rw [show o.code.extractLsb' 0 6 = m from BitVec.eq_of_toNat_eq (by simp [m])]
  have bit (L : Nat) : hit.getLsbD L = (decide (L < q.g.width) && (q.act.getLsbD L && (q.g.lane L).fflags &&& m != 0#6)) :=
    getLsbD_maskOf _ (shaped_width _ performs.shaped) _ L
  refine ⟨fun clear => ?_, fun ⟨L, inside, lane, meets⟩ => ?_⟩
  · have none : hit = 0#64 := by
      apply BitVec.eq_of_getLsbD_eq
      intro L _
      rw [bit, BitVec.getLsbD_zero]
      by_cases inside : L < q.g.width
      · by_cases lane : q.act.getLsbD L = true
        · simp [clear L inside lane]
        · simp [lane]
      · simp [inside]
    exact goes_same _ _ s s q performs runs (if_pos (by simpa using none)) rfl
  · have some : hit ≠ 0#64 := by
      intro none
      have := bit L
      rw [none, BitVec.getLsbD_zero] at this
      simp [inside, lane, meets] at this
    exact trap_of _ _ s s q q.g _ _ _ _ performs runs (if_neg (by simpa using some)) (issuing_grp _ s q performs.issues)

/-! ### WEARRD and BUDRD -/

theorem wearrd_gives (o : F5) (s : State) (q : Q) (h : Sheet) (tm : Team) (performs : Performs (.wearrd o) s q)
    (sheet : s.sheet? q.g.sheet = some h) (team : s.team? q.g.team = some tm) :
    GivesAt (.wearrd o) s q o.d 2 false (fun _ => BitVec.ofNat 64 (if mbit o.mod 0 then tm.wear else h.wear)) (fun _ => 0#6) := by
  have fits : DestFits o.d 2 q.g := dest_fits _ s q performs (sigWearrd o) rfl (dstS o.d) (by simp [sigWearrd]) rfl
  refine spread_gives 0#6 performs (show execWearrd o s = _ by unfold execWearrd; rfl) ?_ (.inr rfl) fits
  dsimp only
  rw [orFlags_none, sheet, team]
  rfl
theorem budgetWord_none (res : Nat) : budgetWord none res = 0#64 := rfl
/-- BUDRD's word is its fields one above the other (R443). -/
theorem budgetWord_some (b : Budget) (res : Nat) (used : b.used.getD res 0 < 2 ^ 32) (exh : b.exh.getD res 0 < 2 ^ 16) (share : b.share res < 256) :
    budgetWord (some b) res =
      BitVec.ofNat 16 (b.exh.getD res 0) ++ BitVec.ofNat 8 (b.share res) ++ 0#8 ++ BitVec.ofNat 32 (b.used.getD res 0) := by
  have word : budgetWord (some b) res =
      BitVec.ofNat 64 (b.used.getD res 0 % 2 ^ 32 + b.share res % 256 * 2 ^ 40 + b.exh.getD res 0 % 65536 * 2 ^ 48) := by
    rcases res with _ | _ | res <;> rfl
  rw [word]
  apply BitVec.eq_of_toNat_eq
  simp only [toNat_fields, BitVec.toNat_ofNat]
  omega
theorem budrd_gives (o : F5) (s : State) (q : Q) (performs : Performs (.budrd o) s q) :
    GivesAt (.budrd o) s q o.d 2 false (fun _ => budgetWord ((s.cluster (clusterOf q.core)).budgets[(q.g.rdS o.a).toNat]?) o.mod.toNat)
      (fun _ => 0#6) := by
  have fits : DestFits o.d 2 q.g := dest_fits _ s q performs (sigBudrd o) rfl (dstS o.d) (by simp [sigBudrd]) rfl
  refine spread_gives 0#6 performs (show execBudrd o s = _ by unfold execBudrd; rfl) ?_ (.inr rfl) fits
  rw [orFlags_none]

/-- Settles O28: traps and flag checks, and the counts of WEARRD and BUDRD. -/
theorem trapsChecksAndCounters : Obligations.TrapsChecksAndCounters := by
  refine ⟨fun o s q => ⟨trap_traps o s q, bkpt_traps o s q, fchk_checks o s q⟩, fun o s q => ⟨wearrd_gives o s q, fun performs => ?_⟩⟩
  have gives := budrd_gives o s q performs
  refine ⟨fun none => ?_, fun b entry used exh share => ?_⟩
  · rwa [List.getElem?_eq_none none] at gives
  · rwa [entry, budgetWord_some b _ used exh share] at gives

/-! ### SEAL and SEALX -/

theorem modSeal_eq (s : State) (sheet n : Nat) (f : SealFrame → SealFrame) : s.modSeal sheet n f =
    s.modSheet sheet fun h => { h with seals := h.seals.map fun x => if x.num = n then f x else x } := by
  simp [State.modSeal]
/-- What SEAL answers of a frame of its sheet's seal job: its checks in their order. -/
def sealAnswer (s : State) (q : Q) (h : Sheet) (f : SealFrame) (a n : DWord) : Res :=
  if n.toNat == 0 || 2 ^ 40 ≤ n.toNat then .trap .access q.sub a 0 s
  else if !((s.taskFoots q.g).any fun r => r.base ≤ a.toNat && a.toNat + n.toNat ≤ r.base + r.len) then .trap .footprint q.sub a 0 s
  else if f.closed || 64 ≤ f.regions.length then .trap .access q.sub a 0 s
  else .ok (s.modSeal h.id f.num fun x => { x with regions := x.regions ++ [(a, n)] })
theorem seal_answers (o : FY) {s : State} {q : Q} {h : Sheet} {job : DWord × Nat} {f : SealFrame} (sheet : s.sheet? q.g.sheet = some h)
    (job : h.sealJob = some job) (frame : h.seals.find? (fun x => x.num == o.code.toNat) = some f) :
    ∃ body, exec (.seal o) s = runI (.seal o) body s ∧ body q s = sealAnswer s q h f (q.g.rdS o.ya) (q.g.rdS o.yb) := by
  refine ⟨_, show execSeal o s = _ by unfold execSeal; rfl, ?_⟩
  dsimp only
  rw [sheet]
  dsimp only
  rw [job, frame]
  rfl
theorem sealx_answers (o : FY) {s : State} {q : Q} {h : Sheet} {job : DWord × Nat} {f : SealFrame} (sheet : s.sheet? q.g.sheet = some h)
    (job : h.sealJob = some job) (frame : h.seals.find? (fun x => x.num == o.code.toNat) = some f) :
    ∃ body, exec (.sealx o) s = runI (.sealx o) body s ∧
      body q s = if f.isOpen then .ok (s.modSeal q.g.sheet f.num fun x => { x with closed := true }) else trapAll q .access s := by
  refine ⟨_, show execSealx o s = _ by unfold execSealx; rfl, ?_⟩
  rw [sheet, Option.bind_some, frame, job]
  rfl

/-- Settles O29: the checks of SEAL and SEALX in their order. -/
theorem sealFrames : Obligations.SealFrames := by
  intro o s q h job f a n sheet seals frame set inside
  have own : h.id = q.g.sheet := by simpa using List.find?_some sheet
  have num : f.num = o.code.toNat := by simpa using List.find?_some frame
  have region : (s.taskFoots q.g).any (fun r => decide (r.base ≤ a.toNat) && decide (a.toNat + n.toNat ≤ r.base + r.len)) = true ↔ inside := by
    simp [inside]
  refine ⟨fun performs => ?_, fun performs => ?_⟩
  · have grp := issuing_grp _ s q performs.issues
    obtain ⟨body, runs, answers⟩ := seal_answers o sheet seals frame
    have sized (some : 0 < n.toNat) (short : n.toNat < 2 ^ 40) : ¬ (n.toNat == 0 || decide (2 ^ 40 ≤ n.toNat)) = true := by
      simp only [Bool.or_eq_true, beq_iff_eq, decide_eq_true_eq]
      omega
    refine ⟨fun some short within opened room => ?_, fun length => ?_, fun some short without => ?_, fun some short within shut => ?_⟩
    · refine goes_same _ _ s _ q performs runs (answers.trans ?_) rfl
      unfold sealAnswer
      rw [if_neg (sized some short), if_neg (by rw [region.mpr within]; decide), if_neg (by simpa [opened] using room), own, num, modSeal_eq]
    · refine trap_of _ _ s _ q _ _ _ _ _ performs runs (answers.trans (if_pos ?_)) grp
      simpa using length
    · refine trap_of _ _ s _ q _ _ _ _ _ performs runs (answers.trans ?_) grp
      unfold sealAnswer
      rw [if_neg (sized some short), if_pos (by rw [Bool.eq_false_iff.mpr (mt region.mp without)]; rfl)]
    · refine trap_of _ _ s _ q _ _ _ _ _ performs runs (answers.trans ?_) grp
      unfold sealAnswer
      rw [if_neg (sized some short), if_neg (by rw [region.mpr within]; decide), if_pos (by simpa using shut)]
  · obtain ⟨body, runs, answers⟩ := sealx_answers o sheet seals frame
    refine ⟨fun opened regions => ?_, fun shut => ?_⟩
    · refine goes_same _ _ s _ q performs runs (answers.trans ?_) rfl
      rw [if_pos (by simpa [SealFrame.isOpen, opened] using regions), num, modSeal_eq]
    · refine trap_of _ _ s _ q _ _ _ _ _ performs runs (answers.trans (if_neg ?_)) (issuing_grp _ s q performs.issues)
      rcases shut with closed | none
      · simp [SealFrame.isOpen, closed]
      · simp [SealFrame.isOpen, none]

end Sys2Proof.Proofs


/-!
The refutations of the statements about sends, receives, and ports and patterns (R366, R374, R381, R382). The model keeps teams in a list and
changes every entry that bears a number; the statements speak of the first entry alone, and of every state, also one whose list holds a
second entry with that number. What the second entry's ports and receives do overwrites the first entry.
-/
namespace Sys2Proof.Proofs
open Sys2Proof Sys2Proof.Machine Sys2Proof.Laws

/-- Port 3 of 16 messages, with those given in it. -/
def port3 (q : List Msg) : Port := { num := 3, depth := 16, fault := false, xteam := false, core := 0, q }
/-- The team that the statements speak of: its port 3 is open and empty. -/
def firstTeam : Team := { smallTeam with ports := [port3 []] }

/-- The small machine at an issue of lane 0 alone. -/
def oneLane (groups : List Group) (teams : List Team) : State :=
  { smallState groups teams with cur := some { core := 0, gid := 1, mask := 1#64, pc := 65536#64 } }

/-- What an instruction answers of a team that its meaning has left so. -/
theorem goes_team {i : Instr} {s u : State} {q : Q} (goes : Goes i s q u) : ∃ t, exec i s = .next t ∧ ∀ id, t.team? id = u.team? id := by
  obtain ⟨t, G, g, answers, continues⟩ := goes
  have teams := congrArg State.teams continues.rest.outside
  dsimp only at teams
  refine ⟨t, answers, fun id => ?_⟩
  unfold State.team?
  rw [teams]

/-- The join unit of core 0 has nothing to choose, as a check. -/
theorem joinsIdle_of_check {s : State} (check : (s.consumers 0 == [] && s.teams.all fun t => t.refresh == t) = true) : JoinsIdle s smallTeam.cores := by
  simp only [Bool.and_eq_true, beq_iff_eq, List.all_eq_true] at check
  intro c mem
  obtain rfl : c = 0 := by simpa [smallTeam] using mem
  exact ⟨check.1, fun t mem _ => check.2 t mem⟩

/-! ### Sends -/

/-- The second entry: a RECV of another group waits at its port 3. -/
def receivingTeam : Team := { firstTeam with recvs := [{ gid := 9, mask := 1#64, port := 3, seq := 0 }] }
def sendState : State := oneLane [smallGroup] [firstTeam, receivingTeam]
def sendTo3 : F5 := { pf := plainPfx, mod := 0#6, d := noOpnd, a := .imm 3#8, b := .v 2#8, c := noOpnd, e := noOpnd, imm8 := 0#8 }
/-- How many messages port 3 of the small team holds. -/
def heldAt3 (s : State) : Nat := ((s.team? 1).bind fun t => (t.port? 3).map fun p => p.q.length).getD 0
theorem sent_none : (match exec (.send sendTo3) sendState with
    | .next t => heldAt3 t
    | _ => 1) = 0 := by decide +kernel

/-- Refutes O30: a lane sends to an empty port, and the port stays empty, where a second entry of the team's number has a RECV at it. -/
theorem not_sends : ¬ Obligations.Sends := by
  intro claim
  obtain ⟨q, performs, facts⟩ := performs_of_check (i := .send sendTo3) (s := sendState)
    (P := fun q => q.g.team == 1 && (q.g.rdS sendTo3.a).toNat == 3 && (lanesOf q.g.width q.act).length == 1 && q.g.id == 1) (by decide +kernel)
  simp only [Bool.and_eq_true, beq_iff_eq] at facts
  obtain ⟨⟨⟨team, number⟩, single⟩, id⟩ := facts
  obtain ⟨sends, -, -⟩ := claim sendTo3 sendState q firstTeam 3 rfl <| fun t mem p port b blocked => by
    have unblocked : (sendState.teams.all fun t => t.ports.all fun p => p.blocked.isEmpty) = true := by decide +kernel
    simp only [List.all_eq_true, List.isEmpty_iff] at unblocked
    rw [unblocked t mem p port] at blocked
    exact absurd blocked List.not_mem_nil
  obtain ⟨-, -, -, -, delivers, -⟩ := sends performs team.symm number (by decide)
  obtain ⟨enter, -, -⟩ := delivers (port3 []) rfl (.inr team.symm) rfl rfl rfl rfl (joinsIdle_of_check (by decide +kernel))
  obtain ⟨u, tn, order, perm, goes, -, -, now, -, -, -, port⟩ := enter (by rw [single]; decide)
  obtain ⟨t, answers, teams⟩ := goes_team goes
  have held := sent_none
  rw [answers] at held
  dsimp only at held
  have sent : heldAt3 t = order.length := by
    unfold heldAt3
    rw [teams 1, show u.team? 1 = some tn from now]
    simp [port, port3]
  rw [perm.length_eq, single] at sent
  exact absurd (sent.symm.trans held) (by decide)

/-! ### Receives -/

/-- The second entry: a message waits in its port 3. -/
def holdingTeam : Team := { smallTeam with ports := [port3 [{ data := 7#64, kind := 1 }]] }
def recvState : State := oneLane [smallGroup] [firstTeam, holdingTeam]
def recvFrom3 : F5 := { pf := plainPfx, mod := 0#6, d := .s 4#7, a := .imm 3#8, b := noOpnd, c := noOpnd, e := noOpnd, imm8 := 0#8 }
theorem received_goes : (match exec (.recv recvFrom3) recvState with
    | .next t => (t.grp? 1).map fun g => (g.lane 0).wait
    | _ => none) = some .none := by decide +kernel

/-- Refutes O31: a RECV at an empty port goes on, where a second entry of the team's number holds a message in its port. -/
theorem not_receives : ¬ Obligations.Receives := by
  intro claim
  obtain ⟨q, performs, facts⟩ := performs_of_check (i := .recv recvFrom3) (s := recvState)
    (P := fun q => q.g.team == 1 && (q.g.rdS recvFrom3.a).toNat == 3 && (q.g.lane (lowest q.sub)).pc == q.pc && q.sub == 1#64 && q.g.width == 16 &&
      q.g.id == 1) (by decide +kernel)
  simp only [Bool.and_eq_true, beq_iff_eq] at facts
  obtain ⟨⟨⟨⟨⟨team, number⟩, there⟩, sub⟩, width⟩, id⟩ := facts
  obtain ⟨receive, -, -⟩ := claim recvFrom3 recvState q firstTeam 4#7 rfl (by rw [team]; rfl)
  obtain ⟨-, empty, -⟩ := receive performs rfl
  obtain ⟨u, tn, ⟨t, G, g, answers, waits⟩, -⟩ := empty (port3 []) (by rw [number]; decide) (by rw [number]; rfl) rfl rfl rfl (joinsIdle_of_check (by decide +kernel)) there
    (by rw [sub]; decide) (fun L lane => by
      rw [sub] at lane
      rw [width]
      have first : L = 0 := by simpa using lane
      omega)
  have wait := received_goes
  rw [answers] at wait
  dsimp only at wait
  rw [← id, waits.after] at wait
  obtain ⟨-, -, waiting⟩ := waits.lanes 0 (by rw [width]; decide)
  have none : (g.lane 0).wait = .none := by simpa using wait
  rw [none] at waiting
  rcases waiting (by rw [sub]; decide) with at3 | ⟨n, k, nap, -⟩
  · exact absurd at3 nofun
  · exact absurd nap nofun

/-! ### Ports and patterns -/

/-- Lane 0 issues, and the others wait for a wake pattern. -/
def waitingGroup : Group :=
  { smallGroup with
    sregs := 65664#64 :: List.replicate 15 0#64
    lanes := { pc := 65536#64, wp := 65536#64 } :: List.replicate 15 { pc := 65536#64, wp := 65536#64, wait := .recvPat 4 0 } }
/-- The record at 65,664 is that of a wake pattern 0 of port 3. -/
def armState : State :=
  { oneLane [waitingGroup] [firstTeam, holdingTeam] with
    mem := State.reset.mem.store 65664 [0#8, 0#8, 0#8, 0#8, 0#8, 0#8, 0#8, 0#8, 0#8, 1#8, 3#8, 0#8, 0#8, 0#8, 4#8, 0#8] }
def armPattern : FY := { pf := plainPfx, mod := 0#6, ya := .s 0#7, yb := .s 2#7, yc := noOpnd, code := 0#16 }
/-- How often the patterns of the small team have fired. -/
def firedOf (s : State) : List Nat := ((s.team? 1).map fun t => t.pats.map (·.matchCount)).getD []
theorem armed_fires : (match exec (.patarm armPattern) armState with
    | .next t => firedOf t
    | _ => []) = [1] := by decide +kernel

/-- Refutes O32: the pattern that PATARM arms has fired, where a second entry of the team's number holds a message in the port. -/
theorem not_portsAndPatterns : ¬ Obligations.PortsAndPatterns := by
  rintro ⟨claim, -⟩
  obtain ⟨q, performs, facts⟩ := performs_of_check (i := .patarm armPattern) (s := armState)
    (P := fun q => q.g.team == 1 && (q.g.rdS armPattern.ya).toNat == 65664 && (armState.rangeCond q.g 65664 16 16 .rd).isNone &&
      (armState.withheld q (if (armState.segs q.g 65664 16 .rd).isEmpty then [] else [0, 1]) q.workClass).isNone &&
      (armState.takeLines q.core q.g.id q.sub (LineUse.load != .load) ((armState.core q.core).entriesFor .load (armState.segs q.g 65664 16 .rd))).isSome &&
      !(fieldAt (armState.mem.segLoad (armState.segs q.g 65664 16 .rd)) 13 1).testBit 2 && q.core == 0)
    (by decide +kernel)
  simp only [Bool.and_eq_true, beq_iff_eq, Option.isNone_iff_eq_none, Bool.not_eq_true'] at facts
  obtain ⟨⟨⟨⟨⟨⟨team, address⟩, mapped⟩, supplied⟩, entries⟩, wake⟩, core⟩ := facts
  obtain ⟨u, G, code, tn, goes, -, -, -, -, now, -, refused, -, armed⟩ := claim armPattern armState q firstTeam performs (by rw [team]; rfl)
    (by rw [address]; exact mapped) ⟨rfl, by rw [core]; rfl⟩ (by rw [address]; exact ⟨supplied, entries⟩) (joinsIdle_of_check (by decide +kernel)) (fun _ => ⟨by decide, by
      rw [address, wake]; nofun⟩)
  obtain ⟨t, answers, teams⟩ := goes_team goes
  have fired := armed_fires
  rw [answers] at fired
  dsimp only at fired
  have counted : firedOf t = tn.pats.map (·.matchCount) := by
    unfold firedOf
    rw [teams 1, ← team, now]
    rfl
  by_cases zero : code = 0
  · obtain ⟨hdr, -, same, -⟩ := armed rfl zero
    rw [counted, same] at fired
    exact absurd fired (by simp [firstTeam, smallTeam])
  · rw [counted, refused zero] at fired
    exact absurd fired (by decide)

end Sys2Proof.Proofs


/-!
The statements about the ends of waits (R85, R110, R120, R198, R208, R236, R243, R249, R282, R315, R330, R447, R492) and about the steps of a
core's scheduler (R86, R87, R91, R100, R107, R282, R322): each step's condition holds, and the step is its rule's.
-/
namespace Sys2Proof.Proofs
open Sys2Proof Sys2Proof.Machine Sys2Proof.Laws

/-! ### Released lanes, and lanes that issue again -/

theorem waits_iff (g : Group) (p : Wait → Bool) : g.waits p = true ↔ g.HasWait p := by
  unfold Group.waits Group.HasWait
  simp
/-- A lane as a release leaves it, but for whether a join holds it. -/
def releasedLane (p : Wait → Bool) (l : Lane) : Lane := if !l.exited && p l.wait then { l with pc := nextPc l.pc, wait := .none } else l
theorem release_released (p : Wait → Bool) (g : Group) : Released p g (g.release p) := by
  refine ⟨fun L inside => ?_, rfl, rfl, rfl, rfl, rfl, rfl, rfl⟩
  obtain ⟨held, settled⟩ := lane_settle { g with lanes := g.lanes.map (releasedLane p) } L (by simpa using inside)
  have moved : ({ g with lanes := g.lanes.map (releasedLane p) } : Group).lane L = releasedLane p (g.lane L) := lane_map _ _ L inside
  rw [show (g.release p).lane L = _ from settled, moved]
  unfold releasedLane
  split <;> exact ⟨rfl, rfl⟩
theorem again_issuesAgain (p : Wait → Bool) (g : Group) : IssuesAgain p g (g.again p) := by
  refine ⟨fun L inside => ?_, rfl⟩
  have moved : (g.again p).lane L = if p (g.lane L).wait then { g.lane L with wait := .none } else g.lane L := lane_map _ _ L inside
  rw [moved]
  split <;> rfl
theorem updGroup_unsaved {s : State} {g : Group} (f : Group → Group) (grp : s.grp? g.id = some g) (there : g.st ≠ .saved) :
    s.updGroup g.id f = if (f g).st ≠ .resident ∧ g.vregs ≠ (f g).vregs then (s.setGrp (f g)).parkRegs (f g) else s.setGrp (f g) := by
  unfold State.updGroup
  rw [grp]
  dsimp only
  rw [if_neg (by simpa using there)]
  unfold State.putGrp
  simp

/-! ### The waits of a group -/

theorem nap_expires (s : State) (g : Group) (grp : s.grp? g.id = some g) (waits : g.HasWait Wait.napOver) :
    exec (.napExpiry g.id) s = .next (s.updGroup g.id fun h => h.release Wait.napOver) := by
  show execNapExpiry g.id s = _
  unfold execNapExpiry
  rw [grp]
  dsimp only
  rw [if_pos ((waits_iff _ _).mpr waits)]
theorem atBar_iff (k : Nat) (w : Wait) : w.atBar k = true ↔ w = .bar k := by
  cases w <;> simp [Wait.atBar]
theorem arrived_iff (g : Group) (k : Nat) : g.arrived k = true ↔ ∀ l ∈ g.lanes, l.exited = true ∨ l.wait = .bar k := by
  simp [Group.arrived, atBar_iff]
theorem barrier_releases (s : State) (team k : Nat) (arrived : ∀ g ∈ s.teamGroups team, ∀ l ∈ (s.view g).lanes, l.exited = true ∨ l.wait = .bar k)
    (waits : ∃ g ∈ s.teamGroups team, (s.view g).HasWait (Wait.atBar k)) :
    exec (.barrierRelease team k) s = .next ((s.teamGroups team).foldl (fun t g =>
      (t.acquireAt g.core 2 (t.pairedOf g)).updGroup g.id fun h => h.release (Wait.atBar k)) s) := by
  have full : s.barrierFull team k = true := by
    unfold State.barrierFull
    simp only [List.all_map, List.any_map, Bool.and_eq_true, List.all_eq_true, List.any_eq_true, Function.comp, arrived_iff, waits_iff]
    exact ⟨arrived, waits⟩
  show execBarrierRelease team k s = _
  unfold execBarrierRelease
  rw [if_pos full]
theorem barrier_waits (s : State) (team k : Nat) (missing : ∃ g ∈ s.teamGroups team, ∃ l ∈ (s.view g).lanes, l.exited = false ∧ l.wait ≠ .bar k) :
    exec (.barrierRelease team k) s = .next s := by
  obtain ⟨g, mem, l, lane, lives, away⟩ := missing
  have part : ¬ s.barrierFull team k = true := by
    unfold State.barrierFull
    simp only [List.all_map, Bool.and_eq_true, List.all_eq_true, Function.comp, arrived_iff]
    rintro ⟨all, -⟩
    rcases all g mem l lane with exited | atBar
    · rw [lives] at exited
      cases exited
    · exact away atBar
  show execBarrierRelease team k s = _
  unfold execBarrierRelease
  rw [if_neg part]
theorem winwait_ends (s : State) (g : Group) (h : Sheet) (grp : s.grp? g.id = some g) (sheet : s.sheet? g.sheet = some h) (waits : g.HasWait (Wait.winDone h)) :
    exec (.winwaitSatisfied g.id) s = .next ((s.fenceOf g 5 1).updGroup g.id fun x => x.release (Wait.winDone h)) := by
  show execWinwaitSatisfied g.id s = _
  unfold execWinwaitSatisfied
  rw [grp]
  dsimp only
  rw [sheet]
  dsimp only
  rw [if_pos ((waits_iff _ _).mpr waits)]
theorem mend_teams (s : State) (pa n : Nat) : (s.mend pa n).teams = s.teams := by
  unfold State.mend
  split <;> rfl
theorem mends_teams (ns : List Nat) (at_ : Nat → Nat) (n : Nat) (s : State) : (ns.foldl (fun t k => t.mend (at_ k) n) s).teams = s.teams := by
  induction ns generalizing s with
  | nil => rfl
  | cons k ns ih => exact (ih _).trans (mend_teams s _ _)
theorem updGroup_teams (s : State) (id : Nat) (f : Group → Group) : (s.updGroup id f).teams = s.teams := by
  unfold State.updGroup
  split
  · rfl
  · split
    · exact (mends_teams _ _ _ _).trans ((mend_teams _ _ _).trans (mend_teams _ _ _))
    · unfold State.putGrp
      split
      · exact mend_teams _ _ _
      · rfl
theorem updGroups_teams (gs : List Group) (f : Group → Group) (s : State) : (gs.foldl (fun t g => t.updGroup g.id f) s).teams = s.teams := by
  induction gs generalizing s with
  | nil => rfl
  | cons g gs ih => exact (ih _).trans (updGroup_teams s _ _)
theorem spawns_resume (s : State) (h : Sheet) (sheet : s.sheet? h.id = some h) (freed : h.spawnFreed = true) :
    let t := (s.groups.filter fun g => g.sheet == h.id && g.waits Wait.atSpawn).foldl
      (fun t g => t.updGroup g.id fun x => x.again Wait.atSpawn) (s.modSheet h.id fun x => { x with spawnFreed := false })
    exec (.spawnLimitResume h.id) s = .next ((t.teams.filter fun x => x.sheet == h.id && !x.exited).foldl (fun u x => u.join x.id) t) := by
  intro t
  show execSpawnLimitResume h.id s = _
  unfold execSpawnLimitResume
  rw [sheet]
  dsimp only
  rw [if_pos freed, show t.teams = s.teams from updGroups_teams _ _ _]
theorem holdership_granted (s : State) (core t : Nat) (g : Group) (rest : List Nat) (owner : (s.core core).mowner = some t)
    (line : (s.core core).mopenQ = g.id :: rest) (free : ∀ x ∈ s.groups, x.core = core → x.team = t → x.batches = []) (grp : s.grp? g.id = some g)
    (waits : g.HasWait Wait.atMopen) : exec (.holdershipGrant core) s = .next (s.updGroup g.id fun x => x.again Wait.atMopen) := by
  have unheld : s.holder core t = none := by
    unfold State.holder
    rw [Option.map_eq_none_iff, List.find?_eq_none]
    intro x mem holds
    simp only [Bool.and_eq_true, beq_iff_eq, Bool.not_eq_true'] at holds
    rw [free x mem holds.1.1 holds.1.2] at holds
    simp at holds
  have next : s.nextHolder core = some g.id := by
    unfold State.nextHolder
    rw [owner, line]
    dsimp only
    rw [unheld, grp]
    simp [(waits_iff _ _).mpr waits]
  show execHoldershipGrant core s = _
  unfold execHoldershipGrant
  rw [next]
theorem mwait_again (s : State) (g : Group) (grp : s.grp? g.id = some g) (ready : s.mwaitReady g = true) :
    exec (.batchComplete g.id) s = .next (s.updGroup g.id fun x => x.again (Wait.mwaitDone s g.id)) := by
  show Host.Outcome.next (s.mwaitAgain g.id) = _
  unfold State.mwaitAgain
  rw [grp]
  dsimp only
  rw [if_pos ready]
theorem mwait_retires (s : State) (g : Group) (n : Nat) (fl : Mask) (t : State) (grp : s.grp? g.id = some g) (unready : s.mwaitReady g = false)
    (there : g.st ≠ .saved) (asks : g.mwaits = [(n, fl)]) (retires : s.retire g.id n fl = .wait t) : exec (.batchComplete g.id) s = .next t := by
  show Host.Outcome.next (s.mwaitAgain g.id) = _
  unfold State.mwaitAgain
  rw [grp]
  dsimp only
  rw [if_neg (by rw [unready]; decide), if_neg (by simpa using there), asks]
  dsimp only [List.foldl]
  rw [retires]
theorem engine_goesOn (s : State) (g : Group) (grp : s.grp? g.id = some g) (free : s.engineBlocked g = false) :
    exec (.engineChunkReady g.id) s = .next (((s.engine g.id).mwaitAgain g.id).imageOut g.team g.core) := by
  show execEngineChunkReady g.id s = _
  unfold execEngineChunkReady
  rw [grp]
  dsimp only
  rw [if_neg (by rw [free]; decide)]
theorem againIf_waits {s : State} {g : Group} {t : Team} {p : Team → Wait → Bool} (grp : s.grp? g.id = some g) (team : s.team? g.team = some t)
    (waits : g.HasWait (p t)) : s.againIf g.id p = s.updGroup g.id fun x => x.again (p t) := by
  unfold State.againIf
  rw [grp]
  dsimp only
  rw [team]
  dsimp only
  rw [if_pos ((waits_iff _ _).mpr waits)]
theorem request_granted (s : State) (core : Nat) (g : Group) (m : Mask) (rest : List (Nat × Mask)) (n : Nat) (line : (s.core core).reqQ = (g.id, m) :: rest)
    (grp : s.grp? g.id = some g) (wants : g.wantsLines m = some n) (room : (s.core core).reqs.length + n ≤ 1024) :
    exec (.requestEntryGrant core) s = .next (s.updGroup g.id fun x =>
      { x with lanes := x.lanes.mapIdx fun L l => if m.getLsbD L && l.wait.isRequest then { l with wait := .none } else l }) := by
  have ready : s.requestReady core = some (g.id, m) := by
    unfold State.requestReady
    rw [line]
    dsimp only
    rw [grp, Option.bind_some, wants]
    dsimp only
    rw [if_pos (show _ ≤ Config.lineRequests from room)]
  show execRequestEntryGrant core s = _
  unfold execRequestEntryGrant
  rw [ready]
theorem walk_completes (s : State) (die n : Nat) (w : Walk) (entry : (s.die die).walks[n]? = some w) (granted : w.granted = true)
    (due : w.rgen ≤ (s.die die).cur ∨ w.at_ < (s.die die).cur) : exec (.walkComplete die n) s =
      .next ((s.modDie die fun d => { d with walks := d.walks.eraseIdx n }).updGroup w.gid fun x => x.again Wait.isWalk) := by
  show execWalkComplete die n s = _
  unfold execWalkComplete
  rw [entry]
  dsimp only
  rw [if_neg]
  simp only [granted, Bool.not_true, Bool.false_or, Bool.and_eq_true, decide_eq_true_eq]
  omega
theorem budget_spills (s : State) (g : Group) (cls res : Nat) (b : Budget) (grp : s.grp? g.id = some g) (waits : g.budgetWait = some (cls, res))
    (budget : (s.cluster (clusterOf g.core)).budgets[cls]? = some b) (spill : b.spill = true)
    (others : ∀ h ∈ s.groups, clusterOf h.core = clusterOf g.core → ∀ c, h.budgetWait = some (c, res) → c = cls ∨ s.spent (clusterOf g.core) c res = true)
    (engines : cls = 2 ∨ s.spent (clusterOf g.core) 2 res = true ∨ ∀ t ∈ s.teams, clusterOf (t.cores.headD 0) = clusterOf g.core → t.rounds = [])
    (copies : cls = 4 ∨ s.spent (clusterOf g.core) 4 res = true ∨ ∀ e ∈ s.survs, s.clusterAt e.1 = clusterOf g.core → e.2.ccJob = none) :
    exec (.budgetSpillGrant g.id) s = .next (s.updGroup g.id fun x => { x.again (Wait.inBudget cls res) with spill := true }) := by
  have noOther : (s.groups.any fun h => clusterOf h.core == clusterOf g.core && (match h.budgetWait with
      | some (c, r) => c != cls && r == res && !s.spent (clusterOf g.core) c res
      | none => false)) = false := by
    rw [List.any_eq_false]
    intro h mem asks
    simp only [Bool.and_eq_true, beq_iff_eq] at asks
    obtain ⟨near, asks⟩ := asks
    split at asks
    next c r wait =>
      simp only [Bool.and_eq_true, bne_iff_ne, ne_eq, beq_iff_eq, Bool.not_eq_true'] at asks
      obtain ⟨⟨other, rfl⟩, unspent⟩ := asks
      rcases others h mem near c wait with same | spent
      · exact other same
      · rw [spent] at unspent; cases unspent
    next => cases asks
  have noEngine : (cls != 2 && !s.spent (clusterOf g.core) 2 res && s.teams.any fun t => clusterOf (t.cores.headD 0) == clusterOf g.core && !t.rounds.isEmpty) = false := by
    rcases engines with same | spent | idle
    · simp [same]
    · simp [spent]
    · simpa using fun _ _ t mem near => idle t mem near
  have noCopy : (cls != 4 && !s.spent (clusterOf g.core) 4 res && s.survs.any fun e => s.clusterAt e.1 == clusterOf g.core && e.2.ccJob.isSome) = false := by
    rcases copies with same | spent | idle
    · simp [same]
    · simp [spent]
    · simp only [Bool.and_eq_false_iff, List.any_eq_false]
      exact .inr fun e mem asks => by
        simp only [Bool.and_eq_true, beq_iff_eq] at asks
        rw [idle e mem asks.1] at asks
        cases asks.2
  have free : s.spillFree (clusterOf g.core) cls res = true := by
    unfold State.spillFree
    rw [budget]
    simp only [Bool.and_eq_true, Bool.not_eq_true']
    exact ⟨⟨⟨spill, noOther⟩, by simpa using noEngine⟩, by simpa using noCopy⟩
  show execBudgetSpillGrant g.id s = _
  unfold execBudgetSpillGrant
  rw [grp, Option.bind_some, waits]
  dsimp only [Option.map]
  rw [if_pos free]

/-- Settles O33: the condition of each wait's end holds, and the end is the one stated. -/
theorem endsOfWaits : Obligations.EndsOfWaits :=
  ⟨fun p g => ⟨release_released p g, again_issuesAgain p g⟩, fun _ _ f grp there => updGroup_unsaved f grp there, nap_expires, barrier_releases, barrier_waits,
    winwait_ends, spawns_resume, holdership_granted, mwait_again, mwait_retires, engine_goesOn,
    fun _ _ _ grp team waits => congrArg Host.Outcome.next (againIf_waits (p := Wait.chunksDone) grp team waits),
    fun _ _ _ grp team waits => congrArg Host.Outcome.next (againIf_waits (p := Wait.stageFree) grp team waits),
    request_granted, walk_completes, budget_spills⟩

/-! ### The picker, the bins and parking -/

theorem passedOver_issues (s : State) (core id : Nat) (m : Mask) (g : Group) (picks : s.pick core = some (id, m)) (grp : s.grp? id = some g)
    (skipped : 64 ≤ (g.lane (lowest m)).skipped) : exec (.pickerPassedOverLimit core id) s = .next { s with agenda := .issue core false :: s.agenda } := by
  show execPickerPassedOverLimit core id s = _
  unfold execPickerPassedOverLimit
  rw [picks]
  dsimp only
  rw [grp]
  dsimp only
  rw [if_pos (by simp [skipped])]
theorem bin_expires (s : State) (core : Nat) (b : Bin) (bin : ((s.core core).bins.find? fun x => x.order == b.order) = some b) :
    exec (.binTimerExpiry core b.order) s = .next (if b.start + 4096 ≤ (s.core core).cycle.toNat then s.launchBin core b else s) := by
  show execBinTimerExpiry core b.order s = _
  unfold execBinTimerExpiry State.binDue
  rw [bin]
  exact congrArg Host.Outcome.next (by simp only [decide_eq_true_eq]; rfl)
theorem group_unparks (s : State) (core : Nat) (g : Group) (first : firstSeq ((s.groupsOn core).filter fun x => x.st == .parked && x.eligible) = some g)
    (room : (s.makeRoom g (s.groupsOn core).length).unitsUsed g.core + unitsOf g.width g.vcount ≤ 256) :
    exec (.groupUnpark core) s = .next ((s.makeRoom g (s.groupsOn core).length).setGrp { g with st := .resident, issueSince := 0, seq := 0 }) := by
  have unparks : s.unparkable core = some (g, s.makeRoom g (s.groupsOn core).length) := by
    unfold State.unparkable
    rw [show firstSeq ((s.groupsOn core).filter (·.wants)) = some g from first]
    dsimp only
    rw [if_pos (show State.unitsFor _ g = true from decide_eq_true room)]
  show execGroupUnpark core s = _
  unfold execGroupUnpark
  rw [unparks]
/-- A group whose registers have been put into the park area. -/
def parkedGroup (s : State) (g : Group) : Group := { g.loseLatches with st := .parked, chain := none, parkedAt := (s.core g.core).cycle.toNat, seq := 0 }
theorem parkedGroup_latches (s : State) (g : Group) : ∀ l ∈ (parkedGroup s g).latches, l.st ≠ .live := by
  intro l mem
  obtain ⟨x, -, rfl⟩ := List.mem_map.mp mem
  split
  · nofun
  next other => simpa using other
theorem starved_parks (s : State) (core : Nat) (p g : Group) (mem : p ∈ s.groups) (on : p.core = core) (parked : p.st = .parked) (eligible : p.eligible = true)
    (late : max p.parkedAt (s.core core).lastFree + 65536 ≤ (s.core core).cycle.toNat) (longest : s.longestIssuing core = some g)
    (grp : s.grp? g.id = some g) :
    ∃ t h, exec (.parkStarvationTimeout core) s = .next t ∧ t.grp? g.id = some h ∧ h.st = .parked ∧ h.lanes = g.lanes ∧ h.vregs = g.vregs ∧
      h.sregs = g.sregs ∧ h.preds = g.preds ∧ ∀ l ∈ h.latches, l.st ≠ .live := by
  have starved : s.starved core = true := by
    unfold State.starved
    simp only [List.any_eq_true, Bool.and_eq_true, decide_eq_true_eq]
    exact ⟨p, List.mem_filter.mpr ⟨mem, by simpa using on⟩, by simp [Group.wants, parked, eligible], late⟩
  have parks : exec (.parkStarvationTimeout core) s = .next (s.park g) := by
    show execParkStarvationTimeout core s = _
    unfold execParkStarvationTimeout
    rw [if_pos starved, longest]
  have groups : (s.parkRegs g).groups = s.groups := by
    unfold State.parkRegs State.mend
    split <;> rfl
  have same : (s.parkRegs g).grp? g.id = some g := by
    rw [← grp]
    unfold State.grp?
    rw [groups]
  have parkedNow : (s.park g).grp? g.id = some (parkedGroup s g) :=
    (grp_setGrp (s.parkRegs g) (parkedGroup s g) g.id).trans (by rw [same]; exact if_pos rfl)
  exact ⟨_, _, parks, parkedNow, rfl, rfl, rfl, rfl, rfl, parkedGroup_latches s g⟩

/-! ### The ends of groups and teams -/

theorem context_held (s : State) (g : Group) (p : Put) (grp : s.grp? g.id = some g) (mem : p ∈ s.puts) (origin : p.origin = s.moduleNo) (owner : p.gid = g.id)
    (flies : p.arrived = false) : exec (.groupContextFree g.id) s = .next s := by
  show execGroupContextFree g.id s = _
  unfold execGroupContextFree
  rw [grp]
  have waits : (s.puts.any fun p => p.origin == s.moduleNo && p.gid == g.id && !p.arrived) = true :=
    List.any_eq_true.mpr ⟨p, mem, by simp [origin, owner, flies]⟩
  dsimp only
  rw [waits]
  simp
/-- Taking a matrix image out of a core changes groups and the core's matrix state alone. -/
theorem imageOut_keeps (s : State) (team core : Nat) :
    ((s.imageOut team core).mem = s.mem ∧ (s.imageOut team core).teams = s.teams ∧ (s.imageOut team core).sheets = s.sheets) ∧
      (((s.imageOut team core).core core).rot = (s.core core).rot ∧ ((s.imageOut team core).core core).reqs = (s.core core).reqs) ∧
      ∀ id, s.grp? id = none → (s.imageOut team core).grp? id = none := by
  unfold State.imageOut
  dsimp only
  split
  · split
    next h _ =>
      refine ⟨⟨rfl, rfl, rfl⟩, ?_, fun id absent => ?_⟩
      · rw [core_modCore, if_pos rfl]
        exact ⟨rfl, rfl⟩
      · show (s.setGrp { h with image := some (s.core core).mstate }).grp? id = none
        rw [grp_setGrp, absent]
        simp
    · exact ⟨⟨rfl, rfl, rfl⟩, ⟨rfl, rfl⟩, fun _ => id⟩
  · exact ⟨⟨rfl, rfl, rfl⟩, ⟨rfl, rfl⟩, fun _ => id⟩
/-- The machine without a group that has ended. -/
def freedState (s : State) (g : Group) : State :=
  let t := s.modCore g.core fun c => { c with rot := c.rot.filter (· != g.id), lastFree := c.cycle.toNat, reqs := c.reqs.filter fun r => r.gid != g.id }
  { t with groups := t.groups.filter fun h => h.id != g.id }
theorem freedState_core (s : State) (g : Group) : (freedState s g).core g.core =
    { s.core g.core with rot := (s.core g.core).rot.filter (· != g.id), lastFree := (s.core g.core).cycle.toNat
                         reqs := (s.core g.core).reqs.filter fun r => r.gid != g.id } :=
  (core_modCore s g.core g.core fun c => { c with rot := c.rot.filter (· != g.id), lastFree := c.cycle.toNat, reqs := c.reqs.filter fun r => r.gid != g.id }).trans
    (if_pos rfl)
theorem freedState_grp (s : State) (g : Group) : (freedState s g).grp? g.id = none := by
  unfold State.grp?
  rw [List.find?_eq_none]
  intro h mem
  have := (List.mem_filter.mp mem).2
  simpa using this
theorem alive_ended {g : Group} (ended : ∀ L, L < g.width → (g.lane L).exited = true) : g.alive = 0#64 := by
  have none : (List.range g.width).filter (fun L => !(g.lane L).exited) = [] := by
    rw [List.filter_eq_nil_iff]
    exact fun L mem => by simp [ended L (List.mem_range.mp mem)]
  unfold Group.alive maskOf
  rw [none]
  rfl
theorem context_freed (s : State) (g : Group) (grp : s.grp? g.id = some g) (there : g.st ≠ .saved) (ended : ∀ L, L < g.width → (g.lane L).exited = true)
    (landed : ∀ p ∈ s.puts, p.origin = s.moduleNo → p.gid = g.id → p.arrived = true) :
    ∃ t, exec (.groupContextFree g.id) s = .next t ∧ t.grp? g.id = none ∧ t.mem = s.mem ∧ t.teams = s.teams ∧ t.sheets = s.sheets ∧
      g.id ∉ (t.core g.core).rot ∧ (∀ r ∈ (t.core g.core).reqs, r.gid ≠ g.id) ∧
      ((s.core g.core).mowner = some g.team → (∀ h ∈ s.groups, h.team = g.team → h.core = g.core → h.id = g.id) →
        (t.core g.core).mowner = none) := by
  have free : (g.alive == 0#64 && g.st != .saved && !s.puts.any fun p => p.origin == s.moduleNo && p.gid == g.id && !p.arrived) = true := by
    simp only [Bool.and_eq_true, beq_iff_eq, bne_iff_ne, ne_eq, Bool.not_eq_true', List.any_eq_false, not_and, Bool.not_eq_false]
    exact ⟨⟨alive_ended ended, there⟩, fun p mem => by simpa using landed p mem⟩
  have runs : exec (.groupContextFree g.id) s =
      if (((freedState s g).core g.core).mowner == some g.team && !((freedState s g).groups.any fun h => h.team == g.team && h.core == g.core)) then
        .next ((freedState s g).modCore g.core fun c => { c with mowner := none, mstate := {}, mopenQ := [] })
      else .next ((freedState s g).imageOut g.team g.core) := by
    show execGroupContextFree g.id s = _
    unfold execGroupContextFree
    rw [grp]
    exact if_pos free
  have core := freedState_core s g
  have rot : g.id ∉ ((freedState s g).core g.core).rot := by
    rw [core]
    simp
  have reqs : ∀ r ∈ ((freedState s g).core g.core).reqs, r.gid ≠ g.id := by
    rw [core]
    intro r mem
    simpa using (List.mem_filter.mp mem).2
  have gone := freedState_grp s g
  split at runs
  · refine ⟨_, runs, gone, rfl, rfl, rfl, ?_⟩
    rw [core_modCore, if_pos rfl]
    exact ⟨rot, reqs, fun _ _ => rfl⟩
  next held =>
    obtain ⟨⟨mem, teams, sheets⟩, ⟨sameRot, sameReqs⟩, groups⟩ := imageOut_keeps (freedState s g) g.team g.core
    refine ⟨_, runs, groups g.id gone, mem, teams, sheets, by rw [sameRot]; exact rot, by rw [sameReqs]; exact reqs, fun owner alone => ?_⟩
    refine absurd ?_ held
    rw [core]
    simp only [Bool.and_eq_true, beq_iff_eq, Bool.not_eq_true', List.any_eq_false, not_and]
    refine ⟨owner, fun h mem team core => ?_⟩
    obtain ⟨there, other⟩ := List.mem_filter.mp mem
    simp [alone h there team core] at other
theorem scratch_returned (s : State) (t : Team) (team : s.team? t.id = some t) (exited : t.exited = true) (held : t.frees = false) (idle : t.rounds = [])
    (alone : ∀ g ∈ s.groups, g.team ≠ t.id) : exec (.teamScratchReturn t.id) s = .next (s.modTeam t.id fun x =>
      { x with frees := true, scratch := [], older := [], landed := [], bad := [], sched := none }) := by
  have none : (s.teamGroups t.id).isEmpty = true := by
    unfold State.teamGroups
    rw [List.isEmpty_iff, List.filter_eq_nil_iff]
    exact fun g mem => by simpa using alone g mem
  show execTeamScratchReturn t.id s = _
  unfold execTeamScratchReturn
  rw [team]
  dsimp only
  rw [if_pos (by simp [Team.returnable, exited, held, idle, none])]

/-! ### Request entries and walks -/

theorem response_returns (s : State) (core n : Nat) :
    let t := s.modCore core fun c => { c with reqs := c.reqs.eraseIdx n }
    let owes := fun (g : Group) => ∃ r ∈ (t.core core).reqs, r.gid = g.id ∧ r.wr = true ∧ lineCached r.line = false
    exec (.memoryResponseReturn core n) s =
      .next { t with groups := s.groups.map fun g => if g.core = core ∧ ¬ owes g then g.again (· == .request 0) else g } := by
  intro t owes
  have owing (g : Group) : (t.core core).owes g.id = true ↔ owes g := by
    simp [Core.owes, owes, and_assoc]
  have each (g : Group) : (if g.core == core && !(t.core core).owes g.id then g.again (· == .request 0) else g) =
      if g.core = core ∧ ¬ owes g then g.again (· == .request 0) else g := by
    simp [← owing]
  refine congrArg Host.Outcome.next ?_
  exact congrArg (fun gs => ({ t with groups := gs } : State)) (List.map_congr_left fun g _ => each g)
theorem walk_granted (s : State) (die : Nat) (waits : ∃ w ∈ (s.die die).walks, w.granted = false) (room : ((s.die die).walks.filter (·.granted)).length < 64) :
    exec (.walkGrant die) s = .next (s.modDie die fun d => { d with walks := grantFirst d.walks }) := by
  obtain ⟨w, mem, waiting⟩ := waits
  have grantable : s.walkGrantable die = true := by
    unfold State.walkGrantable
    simp only [Bool.and_eq_true, List.any_eq_true, decide_eq_true_eq]
    exact ⟨⟨w, mem, by simp [waiting]⟩, room⟩
  show execWalkGrant die s = _
  unfold execWalkGrant
  rw [if_pos grantable]
theorem grantFirst_append (ws : List Walk) (w : Walk) (rest : List Walk) (granted : ∀ x ∈ ws, x.granted = true) (waits : w.granted = false) :
    grantFirst (ws ++ w :: rest) = ws ++ { w with granted := true } :: rest := by
  induction ws with
  | nil => simp [grantFirst, waits]
  | cons x ws ih => simp [grantFirst, granted x (.head _), ih fun y mem => granted y (.tail _ mem)]

/-- Settles O34: the condition of each step of a core holds, and the step is the one stated. -/
theorem coreSteps : Obligations.CoreSteps :=
  ⟨passedOver_issues, bin_expires, group_unparks, starved_parks, context_held, context_freed, scratch_returned, response_returns, walk_granted,
    grantFirst_append⟩

end Sys2Proof.Proofs


/-!
The refutation of the statement about marks, tickets, generations and replies to page faults (R327), and the statement about windows and the
fabric (R300 to R303, R461 to R463).
-/
namespace Sys2Proof.Proofs
open Sys2Proof Sys2Proof.Machine Sys2Proof.Laws

/-! ### Replies to page faults -/

/-- The page of an address beyond the space, for lane 64, which no group has. -/
def strayFault : FaultRec := { shard := 0, lanes := 0#64, vas := [BitVec.ofNat 64 (2 ^ 57)], who := [64] }
/-- The small group, saved while it waits for that page. -/
def waitingForPage : Group := { smallGroup with st := .saved, faults := [strayFault], save := { smallGroup.save with cause := .pageWait } }
def pageState : State := smallState [waitingForPage] [smallTeam]
theorem nothing_served : ∃ s1, pageState.mapServed 0 [] = some s1 := ⟨_, rfl⟩

/-- Refutes O35: a fault record that names lane 64 fails for that lane; the mask of the lanes that failed is then empty, and no lane's
address is the one that the frame records. -/
theorem not_memorySteps : ¬ Obligations.MemorySteps := by
  rintro ⟨-, -, -, -, -, -, -, -, replies⟩
  obtain ⟨s1, served⟩ := nothing_served
  obtain ⟨-, fails⟩ := replies pageState waitingForPage 0 0 [] strayFault s1 rfl rfl rfl rfl rfl rfl rfl (fun _ _ => rfl) rfl served
  have lost : ((strayFault.who.zip strayFault.vas).filter fun e => decide (2 ^ 57 ≤ e.2.toNat) || (s1.walk waitingForPage.asn e.2.toNat).isNone) =
      [(64, BitVec.ofNat 64 (2 ^ 57))] := by
    show [(64, BitVec.ofNat 64 (2 ^ 57))].filter _ = _
    simp
  dsimp only at fails
  rw [lost] at fails
  obtain ⟨t, h, -, -, -, -, -, -, -, lanes, address⟩ := fails (by simp)
  have absent : [(64, BitVec.ofNat 64 (2 ^ 57))].find? (fun e : Nat × DWord => e.1 == lowest (Mask.ofLanes ([(64, BitVec.ofNat 64 (2 ^ 57))].map (·.1)))) = none := by
    decide
  rw [lanes, absent] at address
  cases address

/-! ### Windows (R300) -/

/-- Each sheet has the windows that it had. -/
def WindowsKept (s u : State) : Prop := u.sheets.map (fun h => (h.id, h.windows)) = s.sheets.map fun h => (h.id, h.windows)
theorem WindowsKept.refl (s : State) : WindowsKept s s := rfl
theorem WindowsKept.trans {s u v : State} (h : WindowsKept s u) (k : WindowsKept u v) : WindowsKept s v := Eq.trans k h
theorem WindowsKept.of_sheets {s u : State} (same : u.sheets = s.sheets) : WindowsKept s u := by
  unfold WindowsKept
  rw [same]
theorem WindowsKept.modSheet (s : State) (id : Nat) {f : Sheet → Sheet} (keeps : ∀ h, (f h).id = h.id ∧ (f h).windows = h.windows) :
    WindowsKept s (s.modSheet id f) := by
  unfold WindowsKept State.modSheet
  rw [List.map_map]
  refine List.map_congr_left fun h _ => ?_
  dsimp only [Function.comp]
  split
  · rw [(keeps h).1, (keeps h).2]
  · rfl
theorem WindowsKept.sheet {s u : State} (kept : WindowsKept s u) {id : Nat} {h : Sheet} (sheet : s.sheet? id = some h) :
    ∃ x, u.sheet? id = some x ∧ x.windows = h.windows := by
  have paired (t : State) : (t.sheets.map fun h => (h.id, h.windows)).find? (fun e => e.1 == id) = (t.sheet? id).map fun h => (h.id, h.windows) := by
    rw [List.find?_map]
    rfl
  have found := paired s
  rw [sheet, ← kept, paired u] at found
  obtain ⟨x, there, same⟩ := Option.map_eq_some_iff.mp found
  exact ⟨x, there, congrArg Prod.snd same⟩
theorem WindowsKept.snapPage (s : State) (sheet page : Nat) : WindowsKept s (s.snapPage sheet page) := by
  unfold State.snapPage
  split
  · exact .refl s
  · split
    · split
      · exact .modSheet s sheet fun _ => ⟨rfl, rfl⟩
      · exact .modSheet s sheet fun _ => ⟨rfl, rfl⟩
    · exact .refl s
theorem WindowsKept.sheetStore (s : State) (sheet pa : Nat) (bs : List Byte) : WindowsKept s (s.sheetStore sheet pa bs) := by
  have snaps (ps : List Nat) (t : State) : WindowsKept t (ps.foldl (fun t p => t.snapPage sheet p) t) := by
    induction ps generalizing t with
    | nil => exact .refl t
    | cons p ps ih => exact (WindowsKept.snapPage t sheet p).trans (ih _)
  refine (snaps (pagesOf pa bs.length) s).trans (.of_sheets ?_)
  unfold State.sheetStore
  dsimp only
  generalize (pagesOf pa bs.length).foldl (fun t p => t.snapPage sheet p) s = t
  have filtered := congrArg State.sheets (quiet_filterRange (({ t with mem := t.mem.store pa bs } : State).mend pa bs.length) pa bs.length).1
  refine Eq.trans filtered ?_
  unfold State.mend
  split <;> rfl
theorem WindowsKept.sheetStores (sheet : Nat) (es : List (Nat × List Byte)) (s : State) :
    WindowsKept s (es.foldl (fun u e => u.sheetStore sheet e.1 e.2) s) := by
  induction es generalizing s with
  | nil => exact .refl s
  | cons e es ih => exact (WindowsKept.sheetStore s sheet e.1 e.2).trans (ih _)
/-- The messages of a window's counter change no more than the list of messages. -/
theorem windowStep_keeps (s : State) (w : Window) (old new code : Nat) :
    (s.windowStep w old new code).mem = s.mem ∧ (s.windowStep w old new code).sheets = s.sheets ∧ (s.windowStep w old new code).puts = s.puts := by
  have posts (ks : List Nat) (u : State) (team port : Nat) :
      let t := ks.foldl (fun u _ => u.post team port 6 (BitVec.ofNat 64 new) w.entry code) u
      t.mem = u.mem ∧ t.sheets = u.sheets ∧ t.puts = u.puts := by
    induction ks generalizing u with
    | nil => exact ⟨rfl, rfl, rfl⟩
    | cons k ks ih => exact ih (u.post team port 6 (BitVec.ofNat 64 new) w.entry code)
  unfold State.windowStep
  split
  · exact ⟨rfl, rfl, rfl⟩
  · split
    · exact ⟨rfl, rfl, rfl⟩
    · exact posts _ s _ _
/-- A window that is set is the one found under its entry. -/
theorem setWindow_find {ws : List Window} {w v : Window} (found : ws.find? (fun y => y.entry == w.entry && y.isImport == w.isImport) = some w)
    (entry : v.entry = w.entry) (kind : v.isImport = w.isImport) :
    (ws.map fun x => if x.entry == v.entry then v else x).find? (fun y => y.entry == w.entry && y.isImport == w.isImport) = some v := by
  induction ws with
  | nil => cases found
  | cons x ws ih =>
    by_cases same : x.entry = v.entry
    · simp [same, entry, kind]
    · have other : (x.entry == w.entry && x.isImport == w.isImport) = false := by simp [← entry, same]
      rw [List.find?_cons_of_neg (by rw [other]; decide)] at found
      rw [List.map_cons, List.find?_cons_of_neg (by simp [same, ← entry]), ih found]
/-- The sheet of a window that is set, and what it holds under the window's entry. -/
theorem sheet_setWindow {s u : State} {id : Nat} {h : Sheet} {w v : Window} (kept : WindowsKept s u) (sheet : s.sheet? id = some h)
    (found : h.windows.find? (fun y => y.entry == w.entry && y.isImport == w.isImport) = some w) (entry : v.entry = w.entry) (kind : v.isImport = w.isImport) :
    ∃ x, (u.setWindow id v).sheet? id = some x ∧ x.windows.find? (fun y => y.entry == w.entry && y.isImport == w.isImport) = some v := by
  obtain ⟨x, there, same⟩ := kept.sheet sheet
  refine ⟨{ x with windows := x.windows.map fun y => if y.entry == v.entry then v else y }, ?_, ?_⟩
  · unfold State.setWindow
    rw [sheet_modSheet u id id (fun h => { h with windows := h.windows.map fun x => if x.entry == v.entry then v else x }) fun _ => rfl, there, Option.map_some,
      if_pos rfl]
  · dsimp only
    rw [same]
    exact setWindow_find found entry kind
theorem badWrite_none {s : State} (good : s.bad = []) (pa n : Nat) : s.badWrite pa n = false := by
  unfold State.badWrite
  rw [good]
  rfl
theorem exportOf_some {s : State} {entry : Nat} {h : Sheet} {w : Window} (found : s.exportOf entry = some (h, w)) :
    h.windows.find? (fun y => y.entry == entry && !y.isImport) = some w := by
  unfold State.exportOf at found
  obtain ⟨x, -, there⟩ := List.exists_of_findSome?_eq_some found
  obtain ⟨v, window, same⟩ := Option.map_eq_some_iff.mp there
  cases same
  exact window
theorem put_arrives (s : State) (n : Nat) (p : Put) (h : Sheet) (w : Window) (ss : List (Nat × Nat)) (put : s.puts[n]? = some p) (flies : p.arrived = false)
    (here : p.module = s.moduleNo) (export_ : s.exportOf (p.wref.toNat / 2 ^ 48) = some (h, w)) (sheet : s.sheet? h.id = some h)
    (inside : p.wref.toNat % 2 ^ 48 + p.data.length ≤ w.len)
    (mapped : s.asnSegs h.asn (w.base + p.wref.toNat % 2 ^ 48) p.data.length = some ss) (good : s.bad = []) :
    ∃ t x, exec (.putArrival n) s = .next t ∧ t.mem = ((splitSegs ss p.data).foldl (fun u e => u.sheetStore h.id e.1 e.2) s).mem ∧
      t.sheet? h.id = some x ∧ x.noReplay = true ∧
      (x.windows.find? fun y => y.entry == w.entry && !y.isImport) = some { w with arr := w.arr + BitVec.ofNat 64 p.data.length } := by
  have window := exportOf_some export_
  have facts := List.find?_some window
  simp only [Bool.and_eq_true, beq_iff_eq, Bool.not_eq_true'] at facts
  obtain ⟨entry, kind⟩ := facts
  have kindTest : (fun y : Window => y.entry == p.wref.toNat / 2 ^ 48 && !y.isImport) = fun y => y.entry == w.entry && y.isImport == w.isImport := by
    rw [entry, kind]
    funext y
    cases y.isImport <;> rfl
  rw [kindTest] at window
  let stored := (splitSegs ss p.data).foldl (fun u e => u.sheetStore h.id e.1 e.2) s
  let after : Window := { w with arr := w.arr + BitVec.ofNat 64 p.data.length }
  let stepped := ((stored.setWindow h.id after).modSheet h.id fun h => { h with noReplay := true }).windowStep after w.arr.toNat after.arr.toNat 0
  have runs : exec (.putArrival n) s = .next (if p.origin == s.moduleNo then { stepped with puts := stepped.puts.modify n fun p => { p with arrived := true } }
      else { stepped with puts := stepped.puts.eraseIdx n }.modFab (portOf p.origin) fun f => f.send 2 1 [] p.wref.toNat (putTag p true)) := by
    show execPutArrival n s = _
    unfold execPutArrival
    rw [put]
    dsimp only
    rw [if_neg (by rw [flies]; decide), if_pos (by simpa using here)]
    unfold State.arrivePut
    rw [export_]
    dsimp only
    rw [if_neg (by omega), mapped]
    dsimp only
    have whole : (ss.any fun e => s.badWrite e.1 e.2) = false := by
      rw [List.any_eq_false]
      exact fun e _ => by rw [badWrite_none good]; decide
    rw [whole]
    rfl
  obtain ⟨x, there, found⟩ := sheet_setWindow (v := after) (WindowsKept.sheetStores h.id (splitSegs ss p.data) s) sheet window rfl rfl
  obtain ⟨mem, sheets, -⟩ := windowStep_keeps ((stored.setWindow h.id after).modSheet h.id fun h => { h with noReplay := true }) after w.arr.toNat after.arr.toNat 0
  have now : stepped.sheet? h.id = some { x with noReplay := true } := by
    rw [sheet_congr sheets, sheet_modSheet _ _ _ (fun h : Sheet => { h with noReplay := true }) fun _ => rfl, there, Option.map_some, if_pos rfl]
  refine ⟨_, { x with noReplay := true }, runs, ?_, ?_, rfl, ?_⟩
  · split <;> exact mem
  · split <;> exact now
  · rw [show (fun y : Window => y.entry == w.entry && !y.isImport) = fun y => y.entry == w.entry && y.isImport == w.isImport from by rw [← kindTest, entry]]
    exact found

theorem put_acknowledged (s : State) (n : Nat) (p : Put) (h : Sheet) (w : Window) (put : s.puts[n]? = some p) (landed : p.arrived = true)
    (ours : p.origin = s.moduleNo) (sheet : s.sheet? p.sheet = some h) (window : (h.windows.find? fun x => x.entry == p.entry && x.isImport) = some w) :
    ∃ t x, exec (.putAckReceipt n) s = .next t ∧ t.puts = s.puts.eraseIdx n ∧ t.mem = s.mem ∧ t.sheet? p.sheet = some x ∧
      (x.windows.find? fun y => y.entry == p.entry && y.isImport) = some { w with ack := w.ack + BitVec.ofNat 64 p.data.length } := by
  have facts := List.find?_some window
  simp only [Bool.and_eq_true, beq_iff_eq] at facts
  obtain ⟨entry, kind⟩ := facts
  have kindTest : (fun y : Window => y.entry == p.entry && y.isImport) = fun y => y.entry == w.entry && y.isImport == w.isImport := by
    rw [entry, kind]
    funext y
    cases y.isImport <;> rfl
  have own : h.windows.find? (fun y => y.entry == w.entry && y.isImport == w.isImport) = some w := by
    rw [← kindTest]
    exact window
  let after : Window := { w with ack := w.ack + BitVec.ofNat 64 p.data.length }
  let taken : State := { s with puts := s.puts.eraseIdx n }
  obtain ⟨x, there, found⟩ := sheet_setWindow (u := taken) (v := after) (.of_sheets rfl) sheet own rfl rfl
  obtain ⟨mem, sheets, puts⟩ := windowStep_keeps (taken.setWindow p.sheet after) after w.ack.toNat after.ack.toNat 1
  refine ⟨_, x, ?_, puts, mem, (sheet_congr sheets _).trans there, by rw [kindTest]; exact found⟩
  have import_ : ((s.sheet? p.sheet).bind fun h => h.windows.find? fun w => w.entry == p.entry && w.isImport) = some w := by
    rw [sheet, Option.bind_some, window]
  show execPutAckReceipt n s = _
  unfold execPutAckReceipt
  rw [put]
  dsimp only
  rw [if_neg (by simp [landed, ours]), show (({ s with puts := s.puts.eraseIdx n } : State).sheet? p.sheet) = s.sheet? p.sheet from rfl, import_]

/-! ### Flits and links (R302, R463) -/

theorem modFab_port (s : State) (port : Nat) (f : FabPort → FabPort) :
    getK (s.modFab port f).fab FabPort.init port = f (getK s.fab FabPort.init port) := getK_setK_same _ _ _ _
theorem acked_rxSeq (f : FabPort) (ack : Nat) : (f.acked ack).rxSeq = f.rxSeq := by
  unfold FabPort.acked
  split <;> rfl
theorem sheets_checked (ps : List Put) (s : State) :
    (∀ p ∈ ps, ∀ h, (ps.foldl (fun u p => u.modSheet p.sheet fun h => { h with check := true }) s).sheet? p.sheet = some h → h.check = true) ∧
      (∀ id, (∀ h, s.sheet? id = some h → h.check = true) →
        ∀ h, (ps.foldl (fun u p => u.modSheet p.sheet fun h => { h with check := true }) s).sheet? id = some h → h.check = true) ∧
      (ps.foldl (fun u p => u.modSheet p.sheet fun h => { h with check := true }) s).puts = s.puts ∧
      (ps.foldl (fun u p => u.modSheet p.sheet fun h => { h with check := true }) s).fab = s.fab ∧
      (ps.foldl (fun u p => u.modSheet p.sheet fun h => { h with check := true }) s).mem = s.mem := by
  induction ps generalizing s with
  | nil => exact ⟨nofun, fun _ checked => checked, rfl, rfl, rfl⟩
  | cons p ps ih =>
    obtain ⟨all, keeps, puts, fab, mem⟩ := ih (s.modSheet p.sheet fun h => { h with check := true })
    have one (id : Nat) (due : id = p.sheet ∨ ∀ h, s.sheet? id = some h → h.check = true) :
        ∀ h, (s.modSheet p.sheet fun h => { h with check := true }).sheet? id = some h → h.check = true := by
      intro h found
      rw [sheet_modSheet s p.sheet id (fun h => { h with check := true }) fun _ => rfl] at found
      obtain ⟨x, there, rfl⟩ := Option.map_eq_some_iff.mp found
      split
      · rfl
      next other => exact (due.resolve_left other) x there
    refine ⟨fun r mem => ?_, fun id checked => keeps id (one id (.inr checked)), puts, fab, mem⟩
    cases mem with
    | head => exact keeps p.sheet (one p.sheet (.inl rfl))
    | tail _ mem => exact all r mem
/-- The puts that a link holds, and the state without them and without the link. -/
def heldPuts (s : State) (port : Nat) : List Put := s.puts.filter fun p => !p.arrived && p.origin == s.moduleNo && p.module != s.moduleNo && portOf p.module == port
def droppedPuts (s : State) (port : Nat) : State :=
  let t := s.modFab port fun f => { f with down := true, unacked := [], wire := [], parts := [] }
  { t with puts := t.puts.filter fun p => !(heldPuts s port).contains p }
/-- A link that is taken down: the port, and the sheets whose puts it held. -/
theorem linkDown_parts (s : State) (port : Nat) :
    getK (s.linkDown port).fab FabPort.init port = { getK s.fab FabPort.init port with down := true, unacked := [], wire := [], parts := [] } ∧
      (s.linkDown port).mem = s.mem ∧
      ∀ p ∈ s.puts, p.arrived = false → p.origin = s.moduleNo → p.module ≠ s.moduleNo → portOf p.module = port →
        p ∉ (s.linkDown port).puts ∧ ∀ h, (s.linkDown port).sheet? p.sheet = some h → h.check = true := by
  obtain ⟨checks, -, puts, fab, mem⟩ := sheets_checked (heldPuts s port) (droppedPuts s port)
  refine ⟨?_, mem, fun p there flies ours away at_ => ?_⟩
  · refine Eq.trans (congrArg (fun x => getK x FabPort.init port) fab) ?_
    exact modFab_port s port fun f => { f with down := true, unacked := [], wire := [], parts := [] }
  · have held : p ∈ heldPuts s port := List.mem_filter.mpr ⟨there, by simp [flies, ours, at_, away]⟩
    refine ⟨fun left => ?_, checks p held⟩
    have kept : p ∈ (droppedPuts s port).puts := puts ▸ left
    simpa [held] using (List.mem_filter.mp kept).2
theorem flit_fails (s : State) (port : Nat) (flit : List Byte) (whole : flit.length = 256) (inside : port < 16)
    (up : (getK s.fab FabPort.init port).down = false) (bad : crc64 (flit.take 248) ≠ fieldAt flit 248 8) :
    exec (.flitReceive port flit) s = .next (s.modFab port fun f => f.send 5 2 [] 0 0) := by
  show execFlitReceive port flit s = _
  unfold execFlitReceive
  dsimp only
  rw [if_neg (by simp [whole, inside, up]), if_pos (by simpa using bad)]
theorem flit_stale (s : State) (port : Nat) (flit : List Byte) (whole : flit.length = 256) (inside : port < 16)
    (up : (getK s.fab FabPort.init port).down = false) (good : crc64 (flit.take 248) = fieldAt flit 248 8)
    (stale : fieldAt flit 2 2 ≠ (getK s.fab FabPort.init port).rxSeq ∨ 2 < fieldAt flit 1 1) :
    exec (.flitReceive port flit) s = .next (s.modFab port fun f => f.acked (fieldAt flit 4 2)) := by
  show execFlitReceive port flit s = _
  unfold execFlitReceive
  dsimp only
  rw [if_neg (by simp [whole, inside, up]), if_neg (by simpa using good), if_pos]
  rcases stale with seq | channel
  · simp [seq]
  · simp [channel]
/-- The state in which a flit in sequence has been taken. -/
def takenFlit (s : State) (port : Nat) (flit : List Byte) : State :=
  (s.modFab port fun f => f.acked (fieldAt flit 4 2)).modFab port fun f => { f with rxSeq := (f.rxSeq + 1) % 65536 }
theorem takenFlit_port (s : State) (port : Nat) (flit : List Byte) : getK (takenFlit s port flit).fab FabPort.init port =
    { (getK s.fab FabPort.init port).acked (fieldAt flit 4 2) with rxSeq := ((getK s.fab FabPort.init port).rxSeq + 1) % 65536 } := by
  unfold takenFlit
  rw [modFab_port, modFab_port, acked_rxSeq]
theorem flit_taken (s : State) (port : Nat) (flit : List Byte) (whole : flit.length = 256) (inside : port < 16)
    (up : (getK s.fab FabPort.init port).down = false) (good : crc64 (flit.take 248) = fieldAt flit 248 8)
    (seq : fieldAt flit 2 2 = (getK s.fab FabPort.init port).rxSeq) (len : fieldAt flit 6 2 ≤ 224) (type : fieldAt flit 0 1 ≤ 5) (vc : fieldAt flit 1 1 ≤ 2) :
    exec (.flitReceive port flit) s = .next (match fieldAt flit 0 1 with
        | 1 => (takenFlit s port flit).putFlit port flit
        | 2 => (takenFlit s port flit).ackFlit flit
        | 5 => (takenFlit s port flit).retryLink port
        | _ => takenFlit s port flit) := by
  show execFlitReceive port flit s = _
  unfold execFlitReceive
  dsimp only
  rw [if_neg (by simp [whole, inside, up]), if_neg (by simpa using good), if_neg]
  · rfl
  · simp [seq, len, type, vc]
theorem modFab_rxSeq (s : State) (port : Nat) (f : FabPort → FabPort) (keeps : ∀ x, (f x).rxSeq = x.rxSeq) :
    (getK (s.modFab port f).fab FabPort.init port).rxSeq = (getK s.fab FabPort.init port).rxSeq := by
  rw [modFab_port, keeps]
/-- What a put's flit changes: the port's parts, and with LAST one put more. -/
theorem putFlit_parts (s : State) (port : Nat) (bs : List Byte) :
    (getK (s.putFlit port bs).fab FabPort.init port).rxSeq = (getK s.fab FabPort.init port).rxSeq ∧ (s.putFlit port bs).mem = s.mem ∧
      (fieldAt bs 240 8 < 2 ^ 63 → (s.putFlit port bs).puts = s.puts) ∧
      (2 ^ 63 ≤ fieldAt bs 240 8 → (s.putFlit port bs).puts.length = s.puts.length + 1) := by
  unfold State.putFlit
  dsimp only
  split
  next last =>
    refine ⟨modFab_rxSeq s port (fun f => { f with parts := (getK s.fab FabPort.init port).parts.filter fun e => e.1 != flitTagKey (fieldAt bs 240 8) })
      fun _ => rfl, rfl, fun part => absurd last (by omega), fun _ => ?_⟩
    exact List.length_append
  next part =>
    refine ⟨?_, rfl, fun _ => rfl, fun last => absurd last part⟩
    rw [modFab_port]
theorem retryLink_parts (s : State) (port : Nat) :
    (getK (s.retryLink port).fab FabPort.init port).rxSeq = (getK s.fab FabPort.init port).rxSeq ∧ (s.retryLink port).mem = s.mem ∧
      ((getK s.fab FabPort.init port).retries < 64 → getK (s.retryLink port).fab FabPort.init port = (getK s.fab FabPort.init port).resend ∧
        { s.retryLink port with fab := s.fab } = s) ∧
      (64 ≤ (getK s.fab FabPort.init port).retries → (getK (s.retryLink port).fab FabPort.init port).down = true) := by
  unfold State.retryLink
  split
  next many =>
    obtain ⟨fab, mem, -⟩ := linkDown_parts s port
    exact ⟨by rw [fab], mem, fun few => absurd many (by omega), fun _ => by rw [fab]⟩
  next few =>
    exact ⟨modFab_rxSeq s port _ fun _ => rfl, rfl, fun _ => ⟨modFab_port s port _, rfl⟩, fun many => absurd many few⟩

/-- Settles O36: puts and their acknowledgements at this module, flits in and out of sequence, links that go down, and a host's accesses. -/
theorem windowsAndFabric : Obligations.WindowsAndFabric := by
  refine ⟨?_, put_arrives, put_acknowledged, ?_, ?_, ?_, ?_, ?_, ?_⟩
  · intro s n p put flies away
    show execPutArrival n s = _
    unfold execPutArrival
    rw [put]
    dsimp only
    rw [if_neg (by rw [flies]; decide), if_neg (by simpa using away)]
  · intro s port flit f whole inside up
    refine ⟨flit_fails s port flit whole inside up, flit_stale s port flit whole inside up, fun good seq len type vc => ?_⟩
    have runs := flit_taken s port flit whole inside up good seq len type vc
    have port_ := takenFlit_port s port flit
    by_cases put : fieldAt flit 0 1 = 1
    · rw [put] at runs ⊢
      replace runs : exec (.flitReceive port flit) s = .next ((takenFlit s port flit).putFlit port flit) := runs
      obtain ⟨rx, mem, part, last⟩ := putFlit_parts (takenFlit s port flit) port flit
      exact ⟨_, runs, by rw [rx, port_], mem, nofun, fun _ => part, fun _ => last⟩
    · by_cases retry : fieldAt flit 0 1 = 5
      · rw [retry] at runs ⊢
        replace runs : exec (.flitReceive port flit) s = .next ((takenFlit s port flit).retryLink port) := runs
        obtain ⟨rx, mem, again, -⟩ := retryLink_parts (takenFlit s port flit) port
        refine ⟨_, runs, by rw [rx, port_], mem, fun _ few => ?_, nofun, nofun⟩
        rw [(again (by rw [port_]; exact few)).1, port_]
        rfl
      · refine ⟨_, runs, ?_, ?_, fun is => absurd is retry, fun is => absurd is put, fun is => absurd is put⟩
        · split
          next is => exact absurd is put
          · exact congrArg FabPort.rxSeq port_
          next is => exact absurd is retry
          · exact congrArg FabPort.rxSeq port_
        · split
          next is => exact absurd is put
          · rfl
          next is => exact absurd is retry
          · rfl
  · intro s port ack a up inside
    have runs : exec (.flitRetryRequest port ack) s = .next ((s.modFab port fun f => f.acked ack).retryLink port) := by
      show execFlitRetryRequest port ack s = _
      unfold execFlitRetryRequest
      rw [if_neg (by simp [inside, up])]
    obtain ⟨-, -, again, falls⟩ := retryLink_parts (s.modFab port fun f => f.acked ack) port
    rw [modFab_port] at again falls
    refine ⟨fun few => ⟨_, runs, ?_, (again few).1⟩, fun many => ⟨_, runs, falls many⟩⟩
    exact congrArg (fun x : State => { x with fab := s.fab }) (again few).2
  · intro s port f up
    have spares : (if f.down then f else { f with spare := true }) = { f with spare := true } := if_neg (by rw [up]; decide)
    exact congrArg (fun x => Host.Outcome.next { s with fab := setK s.fab port x }) spares
  · intro s port f up failing
    have runs : exec (.fabricLinkDown port) s = .next (s.linkDown port) := by
      show execFabricLinkDown port s = _
      unfold execFabricLinkDown
      dsimp only
      rw [if_neg]
      rcases failing with spare | many
      · simp [show (getK s.fab FabPort.init port).down = false from up, show (getK s.fab FabPort.init port).spare = true from spare]
      · simp [show (getK s.fab FabPort.init port).down = false from up, show 64 ≤ (getK s.fab FabPort.init port).retries from many]
    obtain ⟨fab, -, held⟩ := linkDown_parts s port
    exact ⟨_, runs, by rw [fab], held⟩
  · intro s port f one few
    show execFabricLinkDown port s = _
    unfold execFabricLinkDown
    dsimp only
    rw [if_pos (by simp [show (getK s.fab FabPort.init port).spare = false from one, show (getK s.fab FabPort.init port).retries < 64 from few])]
  · intro s port pa len data running inside other first last
    have passes : (s.trust.recovery || decide (8 ≤ port) || s.owner.rootPorts.contains port || !isHbm pa || !isHbm (pa + len - 1)) = false := by
      simp [running, inside, other, first, last]
    have runs (w : Nat) : exec (.hostCxlMemAccess port pa len w data) s =
        .next (if w == 0 then { s with hostRead := s.mem.bulk pa len } else s.shardStore pa (data.take len)) := by
      show execHostCxlMemAccess port pa len w data s = _
      unfold execHostCxlMemAccess
      rw [if_neg (by rw [passes]; decide)]
    exact ⟨runs 0, runs 1⟩

end Sys2Proof.Proofs


/-!
The statement about saved groups (R327, R405 to R409), with the fields of byte lists that frames and call slots are laid out in.
-/
namespace Sys2Proof.Proofs
open Sys2Proof Sys2Proof.Machine Sys2Proof.Laws

/-! ### Fields of byte lists -/

theorem leNat_leBytes (n x : Nat) : leNat (leBytes n x) = x % 2 ^ (8 * n) := by
  induction n generalizing x with
  | zero => simp [leBytes, leNat, Nat.mod_one]
  | succ n ih =>
    rw [leBytes, leNat, ih, show 2 ^ (8 * (n + 1)) = 256 * 2 ^ (8 * n) by ring, Nat.mod_mul, BitVec.toNat_ofNat]
@[simp] theorem length_padTo (n : Nat) (bs : List Byte) : (padTo n bs).length = n := by
  simp only [padTo, List.length_append, List.length_take, List.length_replicate]
  omega
theorem fieldAt_here (n x : Nat) (rest : List Byte) : fieldAt (leBytes n x ++ rest) 0 n = x % 2 ^ (8 * n) := by
  rw [fieldAt, List.drop_zero, List.take_left' (length_leBytes n x), leNat_leBytes]
theorem fieldAt_past {front : List Byte} {off : Nat} (le : front.length ≤ off) (rest : List Byte) (n : Nat) :
    fieldAt (front ++ rest) off n = fieldAt rest (off - front.length) n := by
  rw [fieldAt, fieldAt, List.drop_append, List.drop_eq_nil_of_le le, List.nil_append]
theorem fieldAt_field {k off : Nat} (le : k ≤ off) (x : Nat) (rest : List Byte) (n : Nat) :
    fieldAt (leBytes k x ++ rest) off n = fieldAt rest (off - k) n := by
  rw [fieldAt_past (by rwa [length_leBytes]), length_leBytes]
theorem fieldAt_front {front : List Byte} {off n : Nat} (le : off + n ≤ front.length) (rest : List Byte) :
    fieldAt (front ++ rest) off n = fieldAt front off n := by
  rw [fieldAt, fieldAt, List.drop_append_of_le_length (by omega), List.take_append_of_le_length (by rw [List.length_drop]; omega)]
theorem loadNat_store_inside (m : Mem) (a : Nat) (bs : List Byte) {off n : Nat} (le : off + n ≤ bs.length) :
    (m.store a bs).loadNat (a + off) n = fieldAt bs off n := by
  rw [Mem.loadNat, fieldAt]
  congr 1
  apply List.ext_getElem
  · rw [Mem.load, List.length_map, List.length_range, List.length_take, List.length_drop]; omega
  · intro i h1 h2
    have lt : i < n := by simpa [Mem.load] using h1
    simp only [Mem.load, List.getElem_map, List.getElem_range, List.getElem_take, List.getElem_drop]
    rw [Nat.add_assoc, read_store_inside m a bs (off + i) (by omega)]
theorem loadNat_store_outside (m : Mem) (a : Nat) (bs : List Byte) {x n : Nat} (apart : x + n ≤ a ∨ a + bs.length ≤ x) :
    (m.store a bs).loadNat x n = m.loadNat x n := by
  rw [Mem.loadNat, Mem.loadNat, Mem.load, Mem.load]
  congr 1
  refine List.map_congr_left fun i mem => read_store_outside m a bs _ ?_
  have := List.mem_range.mp mem
  omega

/-! ### The frame that a save writes (R408, R409) -/

theorem length_frameHeader (g : Group) : g.frameHeader.length = 0x1000 := by
  unfold Group.frameHeader
  have few : (List.replicate 28 0#8).length = 28 := List.length_replicate
  have many : (List.replicate 640 0#8).length = 640 := List.length_replicate
  generalize List.replicate 28 0#8 = zeros at few ⊢
  generalize List.replicate 640 0#8 = ends at many ⊢
  simp only [List.length_append, length_leBytes, length_padTo, few, many]
theorem length_frameBody (g : Group) : g.frameBody.length = 0x1B000 := by
  unfold Group.frameBody
  have many : (List.replicate 0x2000 0#8).length = 0x2000 := List.length_replicate
  generalize List.replicate 0x2000 0#8 = ends at many ⊢
  simp only [List.length_append, length_padTo, many]
theorem frame_field (g : Group) (m : Mem) {off n : Nat} (le : off + n ≤ 0x1000) :
    (g.writeFrame m).loadNat (g.frame + off) n = fieldAt g.frameHeader off n := by
  rw [Group.writeFrame, loadNat_store_outside _ _ _ (Or.inl (by omega)), loadNat_store_inside _ _ _ (by rw [length_frameHeader]; exact le)]
/-- The fields of the header that the statement names (R409). -/
theorem header_fields (g : Group) :
    fieldAt g.frameHeader 0 2 = g.save.cause.code % 2 ^ 16 ∧ fieldAt g.frameHeader 2 1 = g.save.fstate % 2 ^ 8 ∧
    fieldAt g.frameHeader 3 1 = g.width % 2 ^ 8 ∧ fieldAt g.frameHeader 8 8 = g.sheetid.toNat % 2 ^ 64 ∧
    fieldAt g.frameHeader 16 8 = g.save.fpc.toNat % 2 ^ 64 ∧ fieldAt g.frameHeader 24 8 = g.save.faddr.toNat % 2 ^ 64 ∧
    fieldAt g.frameHeader 32 8 = g.save.flanes.toNat % 2 ^ 64 ∧ fieldAt g.frameHeader 40 8 = g.save.subset.toNat % 2 ^ 64 ∧
    fieldAt g.frameHeader 48 8 = g.save.tcode % 2 ^ 64 := by
  unfold Group.frameHeader
  generalize List.replicate 28 0#8 = zeros
  generalize List.replicate 640 0#8 = ends
  simp (disch := decide) only [ List.append_assoc, fieldAt_here, fieldAt_field, Nat.reduceSub, Nat.sub_self, and_self]
theorem read_writeFrame (g : Group) (m : Mem) (a : Nat)
    (out : a < g.frame ∨ g.frame + 131072 ≤ a ∨ (g.frame + 4096 ≤ a ∧ a < g.frame + 20480)) : (g.writeFrame m).read a = m.read a := by
  rw [Group.writeFrame, read_store_outside, read_store_outside]
  · rw [length_frameHeader]; omega
  · rw [length_frameBody]; omega

/-! ### What a save leaves (R201, R406) -/

theorem putFrame_eq (s : State) (g : Group) : ∃ bad, s.putFrame g = { s.setGrp g with mem := g.writeFrame s.mem, bad } := by
  have mends (ns : List Nat) (t : State) : ∃ bad, ns.foldl (fun t n => t.mend (g.slotAddr n) 4096) t = { t with bad } := by
    induction ns generalizing t with
    | nil => exact ⟨t.bad, rfl⟩
    | cons n ns ih =>
      obtain ⟨bad, eq⟩ := ih (t.mend (g.slotAddr n) 4096)
      exact ⟨bad, eq.trans (congrArg (fun x : State => { x with bad }) (mend_parts t _ _).1)⟩
  obtain ⟨bad, eq⟩ := mends g.idleSlots (({ s.setGrp g with mem := g.writeFrame s.mem }.mend g.frame 0x1000).mend (g.frame + 0x5000) 0x19000)
  refine ⟨bad, eq.trans ?_⟩
  have outer := congrArg (fun x : State => { x with bad }) (mend_parts (({ s.setGrp g with mem := g.writeFrame s.mem } : State).mend g.frame 0x1000)
    (g.frame + 0x5000) 0x19000).1
  have inner := congrArg (fun x : State => { x with bad }) (mend_parts { s.setGrp g with mem := g.writeFrame s.mem } g.frame 0x1000).1
  exact outer.trans inner
/-- The group as a save leaves it (R406, R411). -/
def savedGroup (s : State) (g : Group) (cause : Cause) (fstate : Nat) (fpc : DWord) (sub flanes : Mask) (faddr : DWord) (tcode : Nat) : Group :=
  { g.unqueued with
    st := .saved, frameHeld := fstate == 3, stepping := g.stepping && fstate != 3
    save := { cause, fstate, fpc := (g.waitOf sub).savedPc fpc, faddr, flanes, subset := sub, tcode
              waitc := (g.waitOf sub).code.1, waitx := (g.waitOf sub).code.2, ctxw := g.core + 1024 * g.ctx, cyc := (s.core g.core).cycle } }
/-- The core after a save: its context is free, and the group has left the queue for request entries. -/
def leftCore (s : State) (g : Group) : State :=
  s.modCore g.core fun c =>
    { c with lastFree := if g.st == .resident then c.cycle.toNat else c.lastFree, reqQ := c.reqQ.filter fun e => e.1 != g.id }
theorem saveGroup_eq (s : State) (g : Group) (cause : Cause) (fstate : Nat) (fpc : DWord) (sub flanes : Mask) (faddr : DWord) (tcode : Nat) :
    let h := savedGroup s g cause fstate fpc sub flanes faddr tcode
    ∃ bad, s.saveGroup g cause fstate fpc sub flanes faddr tcode =
      State.imageOut { (leftCore s g).setGrp h with mem := h.writeFrame s.mem, bad } g.team g.core := by
  obtain ⟨bad, eq⟩ := putFrame_eq (leftCore s g) (savedGroup s g cause fstate fpc sub flanes faddr tcode)
  exact ⟨bad, congrArg (fun t : State => t.imageOut g.team g.core) eq⟩
theorem imageOut_other {s : State} {team core : Nat} (other : (s.core core).mowner ≠ some team) : s.imageOut team core = s := by
  unfold State.imageOut
  have no : ((s.core core).mowner == some team) = false := beq_false_of_ne other
  dsimp only
  rw [no]
  rfl
theorem leftCore_mowner (s : State) (g : Group) : ((leftCore s g).core g.core).mowner = (s.core g.core).mowner := by
  unfold leftCore
  rw [core_modCore, if_pos rfl]
theorem grp_set_here {s t : State} {g h : Group} (found : s.grp? g.id = some g) (id : h.id = g.id) (groups : t.groups = (s.setGrp h).groups) :
    t.grp? g.id = some h := by
  have set := grp_setGrp s h g.id
  rw [if_pos id.symm, found] at set
  rw [State.grp?, groups]
  exact set
theorem lowest_group_mem (gs : List Group) (b : Option Group) {x : Group} (eq : gs.foldl (fun b g => match b with
    | none => some g
    | some y => if g.idx < y.idx then some g else b) b = some x) : x ∈ gs ∨ b = some x := by
  induction gs generalizing b with
  | nil => exact .inr eq
  | cons g gs ih =>
    rcases ih _ eq with mem | is
    · exact .inl (List.mem_cons_of_mem _ mem)
    · cases b with
      | none => exact .inl (Option.some.inj is ▸ List.mem_cons_self)
      | some y =>
        by_cases lt : g.idx < y.idx
        · exact .inl (Option.some.inj ((if_pos lt).symm.trans is) ▸ List.mem_cons_self)
        · exact .inr ((if_neg lt).symm.trans is)
/-- A save may give a group the matrix state; nothing else of any group changes then. -/
theorem imageOut_grp {s : State} {h : Group} (team core : Nat) (found : s.grp? h.id = some h) (only : ∀ x ∈ s.groups, x.id = h.id → x = h) :
    ∃ image, (s.imageOut team core).grp? h.id = some { h with image } := by
  unfold State.imageOut
  dsimp only
  split
  · split
    next x heir =>
      have mem : x ∈ s.groups := by
        refine List.mem_of_mem_filter (p := fun g => g.team == team && g.core == core && (g.st == .saved || g.alive != 0#64)) ?_
        split at heir
        next y first => exact Option.some.inj heir ▸ List.mem_of_find?_eq_some first
        · exact (lowest_group_mem _ none heir).resolve_right (by intro h; cases h)
      by_cases same : x.id = h.id
      · have is := only x mem same
        subst is
        exact ⟨some (s.core core).mstate, grp_set_here (h := { x with image := some (s.core core).mstate }) (t := (s.setGrp { x with image := some (s.core core).mstate }).modCore core fun c => { c with mowner := none, mstate := {} })
          found rfl rfl⟩
      · refine ⟨h.image, ?_⟩
        show (s.setGrp { x with image := some (s.core core).mstate }).grp? h.id = some h
        rw [grp_setGrp]
        exact (if_neg (Ne.symm same)).trans found
    · exact ⟨h.image, found⟩
  · exact ⟨h.image, found⟩


/-- An exception's save, where the group's team does not own the core's matrix state. -/
theorem takeException_eq (s : State) (g : Group) (c : Cause) (pc : DWord) (sub lanes : Mask) (addr : DWord) (code : Nat)
    (other : (s.core g.core).mowner ≠ some g.team) :
    let h := savedGroup s g c 3 pc sub lanes addr code
    let d : Desc := { slot := g.frame, type := 4 }
    ∃ bad, let u := ({ (leftCore s g).setGrp h with mem := h.writeFrame s.mem, bad } : State).callqPush (s.survOf g.core) d
      s.takeException g c pc sub lanes addr code = if c == .check then u.modSheet g.sheet fun h => { h with check := true } else u := by
  obtain ⟨bad, eq⟩ := saveGroup_eq s g c 3 pc sub lanes addr code
  have out := imageOut_other (s := { (leftCore s g).setGrp (savedGroup s g c 3 pc sub lanes addr code) with
    mem := (savedGroup s g c 3 pc sub lanes addr code).writeFrame s.mem, bad }) (team := g.team) (core := g.core)
    (by have := leftCore_mowner s g; exact this.symm ▸ other)
  refine ⟨bad, ?_⟩
  unfold State.takeException
  rw [eq, out]
theorem callqPush_room (s : State) (k : Nat) (d : Desc) (room : (s.surv k).callq.length < 128) (free : (s.surv k).heldq = []) :
    ((s.callqPush k d).surv k).callq = (s.surv k).callq ++ [d] := by
  unfold State.callqPush
  rw [surv_modSurv, if_pos rfl, free]
  have room : ((s.surv k).callq.length < Config.callq && ([] : List Desc).isEmpty) = true := by
    rw [List.isEmpty_nil, Bool.and_true]; exact decide_eq_true room
  exact congrArg Surveyor.callq (if_pos room)
theorem shard_of_faultRecs {kind gen : Nat} {vas : List (Nat × DWord)} {r : FaultRec} (mem : r ∈ faultRecs kind gen vas) :
    r.kind = kind ∧ r.gen = gen ∧ ∀ a ∈ r.vas, shardOf a.toNat = r.shard := by
  obtain ⟨sh, -, rfl⟩ := List.mem_map.mp mem
  refine ⟨rfl, rfl, fun a named => ?_⟩
  obtain ⟨e, mine, rfl⟩ := List.mem_map.mp named
  exact beq_iff_eq.mp (List.mem_filter.mp mine).2
theorem faultRecs_cover {kind gen : Nat} {vas : List (Nat × DWord)} {e : Nat × DWord} (mem : e ∈ vas) :
    ∃ r ∈ faultRecs kind gen vas, r.shard = shardOf e.2.toNat ∧ e.2 ∈ r.vas ∧ r.done = false := by
  refine ⟨_, List.mem_map.mpr ⟨shardOf e.2.toNat, ?_, rfl⟩, rfl, ?_, rfl⟩
  · exact List.mem_eraseDups.mpr (List.mem_map.mpr ⟨e, mem, rfl⟩)
  · exact List.mem_map.mpr ⟨e, List.mem_filter.mpr ⟨mem, beq_self_eq_true _⟩, rfl⟩

/-- Settles O57: an exception's frame holds the fields of the save's header, field by field, and a page fault posts its records (R405 to R409). -/
theorem savesOnFaults : Obligations.SavesOnFaults := by
  unfold Obligations.SavesOnFaults
  refine ⟨fun s g c pc sub lanes addr code found other => ?_, fun s g kind pc sub vas found => ?_⟩
  · obtain ⟨bad, eq⟩ := takeException_eq s g c pc sub lanes addr code other
    let h := savedGroup s g c 3 pc sub lanes addr code
    let v : State := { (leftCore s g).setGrp h with mem := h.writeFrame s.mem, bad }
    let u := v.callqPush (s.survOf g.core) { slot := g.frame, type := 4 }
    replace eq : s.takeException g c pc sub lanes addr code = if c == .check then u.modSheet g.sheet fun h => { h with check := true } else u := eq
    have groups : (s.takeException g c pc sub lanes addr code).groups = (s.setGrp h).groups := by rw [eq]; split <;> rfl
    have memory : (s.takeException g c pc sub lanes addr code).mem = h.writeFrame s.mem := by rw [eq]; split <;> rfl
    have teams : (s.takeException g c pc sub lanes addr code).teams = s.teams := by rw [eq]; split <;> rfl
    have callqs (k : Nat) : (s.takeException g c pc sub lanes addr code).surv k = u.surv k := by rw [eq]; split <;> rfl
    obtain ⟨cause, state, width, sheet, fpc, faddr, flanes, subset, tcode⟩ := header_fields h
    have field {off n : Nat} (le : off + n ≤ 0x1000) : (h.writeFrame s.mem).loadNat (g.frame + off) n = fieldAt h.frameHeader off n :=
      frame_field h s.mem le
    have small (x : DWord) : x.toNat % 2 ^ 64 = x.toNat := Nat.mod_eq_of_lt x.isLt
    dsimp only
    rw [memory]
    refine ⟨⟨h, grp_set_here found rfl groups, rfl, rfl, rfl, rfl, rfl, rfl⟩, ?_, ?_, ?_, ?_, ?_, ?_, ?_, ?_, fun asks => ?_, fun a out => ?_,
      fun room free => ?_, fun is h found => ?_, fun is => ?_, teams⟩
    · refine (field (off := 0) (by decide)).trans (cause.trans ?_)
      show c.code % 2 ^ 16 = c.code
      cases c <;> rfl
    · exact (field (by decide)).trans state
    · exact (field (by decide)).trans width
    · exact (field (by decide)).trans (sheet.trans (small _))
    · exact (field (by decide)).trans (faddr.trans (small _))
    · exact (field (by decide)).trans (flanes.trans (small _))
    · exact (field (by decide)).trans (subset.trans (small _))
    · exact (field (by decide)).trans tcode
    · refine (field (by decide)).trans (fpc.trans ((small _).trans (congrArg BitVec.toNat ?_)))
      show (g.waitOf sub).savedPc pc = pc
      unfold Wait.savedPc
      split
      next is => exact absurd is (asks _ _ _ _)
      · rfl
    · exact read_writeFrame h s.mem a out
    · rw [callqs]
      exact callqPush_room v _ _ room free
    · rw [eq, is] at found
      have marked := sheet_modSheet u g.sheet g.sheet (fun h => { h with check := true }) fun _ => rfl
      have found : (u.sheet? g.sheet).map (fun h => if g.sheet = g.sheet then { h with check := true } else h) = some h := marked.symm.trans found
      obtain ⟨x, -, rfl⟩ := Option.map_eq_some_iff.mp found
      rw [if_pos rfl]
    · rw [eq, beq_false_of_ne is]
      rfl
  · obtain ⟨bad, eq⟩ := saveGroup_eq s g .pageWait 1 pc sub (Mask.ofLanes (vas.map (·.1))) 0#64 0
    let h := savedGroup s g .pageWait 1 pc sub (Mask.ofLanes (vas.map (·.1))) 0#64 0
    let v : State := { (leftCore s g).setGrp h with mem := h.writeFrame s.mem, bad }
    replace eq : s.saveGroup g .pageWait 1 pc sub (Mask.ofLanes (vas.map (·.1))) 0#64 0 = v.imageOut g.team g.core := eq
    have placed : v.grp? h.id = some h := grp_set_here (s := s) (g := g) (h := h) found rfl rfl
    obtain ⟨image, kept⟩ := imageOut_grp g.team g.core placed fun x mem same => by
      obtain ⟨y, -, rfl⟩ := List.mem_map.mp mem
      split at same
      · exact if_pos ‹_›
      next no => exact absurd (beq_iff_eq.mpr same) no
    have survs : (v.imageOut g.team g.core).survs = s.survs := by
      unfold State.imageOut
      dsimp only
      split
      · split <;> rfl
      · rfl
    dsimp only
    unfold State.pageFault
    rw [eq]
    refine ⟨{ h with image, faults := faultRecs kind (s.requestGen g) vas }, ?_, rfl, rfl, rfl, rfl, rfl, rfl, survs, fun e mem => faultRecs_cover mem,
      rfl, fun r mem => shard_of_faultRecs mem⟩
    have set := grp_modGrp (v.imageOut g.team g.core) g.id g.id (fun h => { h with faults := faultRecs kind (s.requestGen g) vas }) fun _ => rfl
    rw [if_pos rfl, show (v.imageOut g.team g.core).grp? g.id = _ from kept] at set
    exact set

end Sys2Proof.Proofs


/-!
The statement about group control (R95 to R97, R412, R414 to R416).
-/
namespace Sys2Proof.Proofs
open Sys2Proof Sys2Proof.Machine Sys2Proof.Laws

/-! ### How a command ends (R414) -/

/-- The Surveyor's GCTL_STAT after a command. -/
def gctlEnds (t : State) (k n : Nat) : State := t.modSurv k fun v => { v with gctlStat := n }
section
variable {s : State} {k act : Nat} {w : DWord} {f : Group → Gctl} {g : Group}

theorem command_none (agent : isAgent k = true) (idle : (s.surv k).gctlStat ≠ 1) (unnamed : s.named k w = none) :
    s.command k act w f = .next (gctlEnds s k 3) := by
  unfold State.command
  rw [agent, beq_false_of_ne idle, unnamed]
  rfl
theorem command_busy (agent : isAgent k = true) (busy : (s.surv k).gctlStat = 1) : s.command k act w f = .next (s.svErr k 3) := by
  unfold State.command
  rw [agent, beq_iff_eq.mpr busy]
  rfl
variable (agent : isAgent k = true) (idle : (s.surv k).gctlStat ≠ 1) (named : s.named k w = some g)
include agent idle named

theorem command_misnamed (misnamed : gctlNames act (lowField w 12 40 != 0) g = false) : s.command k act w f = .next (gctlEnds s k 3) := by
  unfold State.command
  rw [agent, beq_false_of_ne idle, named]
  dsimp only
  rw [misnamed]
  rfl
theorem command_refused (refused : f g = .refused) : s.command k act w f = .next (gctlEnds s k 3) := by
  cases names : gctlNames act (lowField w 12 40 != 0) g with
  | false => exact command_misnamed agent idle named names
  | true =>
    unfold State.command
    rw [agent, beq_false_of_ne idle, named]
    dsimp only
    rw [names, refused]
    rfl
theorem command_done {t : State} (names : gctlNames act (lowField w 12 40 != 0) g = true) (runs : f g = .done t) :
    s.command k act w f = .next (gctlEnds t k 2) := by
  unfold State.command
  rw [agent, beq_false_of_ne idle, named]
  dsimp only
  rw [names, runs]
  rfl
theorem command_later (names : gctlNames act (lowField w 12 40 != 0) g = true) (later : f g = .later) :
    s.command k act w f = .next ((gctlEnds s k 1).modSurv k fun v => { v with gctlJob := some (act, g.id) }) := by
  unfold State.command
  rw [agent, beq_false_of_ne idle, named]
  dsimp only
  rw [names, later]
  rfl
end

/-! ### Restores (R412, R415) -/

theorem restoreBy_done {s t : State} {act : Nat} {g : Group} (intact : g.frameIntact s.mem = true) (open_ : s.ckptStop = false)
    (restored : s.restoreGroup g (Group.onRestore act) = some t) :
    s.restoreBy act g = .done (if act = 5 then t.endWaits g.id (g.readFrame s.mem).nextTakes else t) := by
  unfold State.restoreBy
  rw [intact, open_, restored]
  by_cases is : act = 5
  · subst is; rfl
  · rw [if_neg is]
    exact congrArg Gctl.done (if_neg fun h => is (beq_iff_eq.mp h))
theorem restoreBy_later {s : State} {act : Nat} {g : Group} (intact : g.frameIntact s.mem = true)
    (no : s.ckptStop = true ∨ s.restoreGroup g (Group.onRestore act) = none) : s.restoreBy act g = .later := by
  unfold State.restoreBy
  rw [intact]
  cases stop : s.ckptStop with
  | true => rfl
  | false =>
    rw [no.resolve_left (by rw [stop]; exact Bool.false_ne_true)]
    rfl
theorem restoreBy_changed {s : State} {act : Nat} {g : Group} (changed : g.frameIntact s.mem = false) : s.restoreBy act g = .refused := by
  unfold State.restoreBy
  rw [changed]
  rfl
/-- RETRY, NEXT and STEP run one restore, each with its action's number. -/
theorem restores {act k : Nat} {w : DWord} {i : Instr} (mem : (act, i) ∈ [(4, Instr.retry k w), (5, .next k w), (6, .step k w)]) :
    (∀ s, exec i s = s.command k act w fun g => if g.inspectable then s.restoreBy act g else .refused) ∧ ∀ g, gctlNames act true g = true := by
  simp only [List.mem_cons, Prod.mk.injEq, List.not_mem_nil, or_false] at mem
  rcases mem with ⟨rfl, rfl⟩ | ⟨rfl, rfl⟩ | ⟨rfl, rfl⟩ <;> exact ⟨fun _ => rfl, fun _ => rfl⟩
theorem restores_of_mem {k : Nat} {w : DWord} {i : Instr} (mem : i ∈ [Instr.retry k w, .next k w, .step k w]) :
    ∃ act, (act, i) ∈ [(4, Instr.retry k w), (5, .next k w), (6, .step k w)] := by
  simp only [List.mem_cons, List.not_mem_nil, or_false] at mem
  rcases mem with rfl | rfl | rfl
  · exact ⟨4, by simp⟩
  · exact ⟨5, by simp⟩
  · exact ⟨6, by simp⟩

/-! ### Drops (R97) -/

theorem lane_drop (g : Group) {L : Nat} (inside : L < g.lanes.length) :
    g.drop.lane L = if (g.lane L).exited then { g.lane L with sr := (g.lane L).srRec } else
      { g.lane L with pc := (g.lane L).wp, sr := (g.lane L).srRec, held := false, commit := false, due := none, wait := .none, skipped := 0 } :=
  lane_map g _ L inside

/-- Every command is `State.command` of its number. -/
theorem commands {act k : Nat} {w : DWord} {i : Instr}
    (mem : (act, i) ∈ [(1, Instr.preempt k w), (2, .evict k w), (3, .resume k w), (4, .retry k w), (5, .next k w), (6, .step k w), (7, .kill k w),
      (8, .halt k w)]) (s : State) : ∃ f, exec i s = s.command k act w f := by
  simp only [List.mem_cons, Prod.mk.injEq, List.not_mem_nil, or_false] at mem
  rcases mem with ⟨rfl, rfl⟩ | ⟨rfl, rfl⟩ | ⟨rfl, rfl⟩ | ⟨rfl, rfl⟩ | ⟨rfl, rfl⟩ | ⟨rfl, rfl⟩ | ⟨rfl, rfl⟩ | ⟨rfl, rfl⟩ <;> exact ⟨_, rfl⟩
theorem commands_of_mem {k : Nat} {w : DWord} {i : Instr} (mem : i ∈ [Instr.preempt k w, .evict k w, .resume k w, .retry k w, .next k w,
    .step k w, .kill k w, .halt k w]) (s : State) : ∃ act f, exec i s = s.command k act w f := by
  simp only [List.mem_cons, List.not_mem_nil, or_false] at mem
  rcases mem with rfl | rfl | rfl | rfl | rfl | rfl | rfl | rfl <;> exact ⟨_, _, rfl⟩

/-- Settles O44: each command's branch for the state of the group that it names (R414 to R416), and the fields of a drop (R97). -/
theorem groupControl : Obligations.GroupControl := by
  unfold Obligations.GroupControl
  refine ⟨fun s k w agent idle => ⟨fun unnamed i mem => ?_, fun g named => ⟨fun act i mem misnamed => ?_, fun live undropped byContext => ?_,
    fun saved => ?_, fun dropped => ?_, fun live byContext => ⟨?_, ?_⟩, fun saved old => ?_, fun dropped byContext open_ => ?_,
    fun act i t mem held intact byFrame open_ restored => ?_, fun act i mem held intact byFrame no => ?_, fun i mem no => ?_,
    fun t saved unheld cause served answered intact byFrame open_ restored => ?_, fun saved unheld cause awaits byFrame open_ => ?_,
    fun h saved held byFrame sheet => ?_, fun no => ?_⟩⟩, fun s k w agent busy i mem => ?_, fun s k agent => ?_,
    fun g L inside exited => ?_, fun g L inside live => ?_⟩
  · obtain ⟨act, f, runs⟩ := commands_of_mem mem s
    exact runs.trans (command_none agent idle unnamed)
  · obtain ⟨f, runs⟩ := commands mem s
    exact runs.trans (command_misnamed agent idle named misnamed)
  · refine command_done (f := _) agent idle named (by rw [byContext]; rfl) ?_
    rw [beq_false_of_ne live, beq_false_of_ne undropped]
    cases g.droppable <;> rfl
  · refine command_done (f := _) agent idle named (by show (_ || (g.st == .saved)) = true; rw [saved]; exact Bool.or_true _) ?_
    rw [saved]
    rfl
  · refine command_refused (f := _) agent idle named ?_
    rw [dropped]
    rfl
  · refine command_done (f := _) agent idle named (by rw [byContext]; rfl) ?_
    rw [show (g.st != .saved) = true from bne_iff_ne.mpr live]
    rfl
  · refine command_done (f := _) agent idle named (by rw [byContext]; rfl) ?_
    have old : s.justFaulted g = false := by
      unfold State.justFaulted
      rw [beq_false_of_ne live]
      rfl
    rw [old, beq_false_of_ne live]
    rfl
  · refine command_refused (f := _) agent idle named ?_
    rw [old, saved]
    rfl
  · refine command_done (f := _) agent idle named (by rw [byContext]; show (false == (g.st == .saved)) = true; rw [dropped]; rfl) ?_
    rw [open_, dropped]
    rfl
  · obtain ⟨runs, names⟩ := restores mem
    refine (runs s).trans (command_done (f := _) agent idle named (by rw [byFrame]; exact names g) ?_)
    rw [held]
    exact restoreBy_done intact open_ restored
  · obtain ⟨runs, names⟩ := restores mem
    refine (runs s).trans (command_later (f := _) agent idle named (by rw [byFrame]; exact names g) ?_)
    rw [held]
    exact restoreBy_later intact no
  · obtain ⟨act, mem⟩ := restores_of_mem mem
    refine ((restores mem).1 s).trans (command_refused (f := _) agent idle named ?_)
    rcases no with free | changed
    · rw [free]; rfl
    · rw [restoreBy_changed changed]; split <;> rfl
  · refine command_done (f := _) agent idle named (by rw [byFrame]; show (true == (g.st == .saved)) = true; rw [saved]; rfl) ?_
    have cause : (g.save.cause == .preempt || g.save.cause == .evict) = true := by rcases cause with h | h <;> rw [h] <;> rfl
    rw [open_, saved, unheld, cause, served, answered]
    exact restoreBy_done intact open_ restored
  · refine command_done (f := _) agent idle named (by rw [byFrame]; show (true == (g.st == .saved)) = true; rw [saved]; rfl) ?_
    have cause : (g.save.cause == .preempt || g.save.cause == .evict) = true := by rcases cause with h | h <;> rw [h] <;> rfl
    have waits : (g.faults.isEmpty && !g.awaitsReply) = false := by
      rcases awaits with h | h
      · cases is : g.faults with
        | nil => exact absurd is h
        | cons => rfl
      · rw [h]; exact Bool.and_false _
    rw [open_, saved, unheld, cause, waits]
    rfl
  · refine command_done (f := _) agent idle named (by rw [byFrame]; rfl) ?_
    rw [saved, held, sheet]
    rfl
  · refine command_refused (f := _) agent idle named ?_
    have free : (g.st != .saved || !g.frameHeld) = true := by
      rcases no with h | h
      · rw [bne_iff_ne.mpr h]; rfl
      · rw [h]; exact Bool.or_true _
    rw [free]
    rfl
  · obtain ⟨act, f, runs⟩ := commands_of_mem mem s
    exact runs.trans (command_busy agent busy)
  · show execGctlStat k s = _
    unfold execGctlStat
    rw [agent]
    rfl
  · rw [lane_drop g inside, if_pos exited]
  · rw [lane_drop g inside, if_neg (by rw [live]; exact Bool.false_ne_true)]
    exact ⟨rfl, rfl, rfl, rfl, rfl, rfl, rfl, rfl, rfl, rfl⟩

end Sys2Proof.Proofs


/-!
The statement about a Surveyor's descriptors, replies and mailboxes (R387 to R398, R486, R495).
-/
namespace Sys2Proof.Proofs
open Sys2Proof Sys2Proof.Machine Sys2Proof.Laws

/-! ### A SYS call that is answered whole (R396) -/

/-- The register pair of an answer. -/
def answerRegs (g : Group) (c : CallRec) (lanes : Mask) (vals : List DWord) : Group :=
  ((g.setV c.dest lanes (vals.map lo32)).setV (c.dest + 1) lanes (vals.map hi32)).killV c.dest 2
/-- R404: a call that waits for a slot takes the one that is free. -/
def takeSlot (slot : Nat) (l : Lane) : Lane :=
  match l.wait with
  | .slot lo hi => if true && lo ≤ slot && slot ≤ hi then { l with wait := .none } else l
  | _ => l
theorem answer_whole {g : Group} {c : CallRec} {lanes : Mask} {vals : List DWord} (form : c.form = 1) (whole : c.answered = c.active)
    (some_ : g.inCall c.slot ≠ 0#64) :
    g.answer c lanes vals = { (answerRegs g c lanes vals).moveTo (g.inCall c.slot) (nextPc c.pc) with
      calls := ((answerRegs g c lanes vals).moveTo (g.inCall c.slot) (nextPc c.pc)).calls.filter fun x => x.slot != c.slot
      lanes := ((answerRegs g c lanes vals).moveTo (g.inCall c.slot) (nextPc c.pc)).lanes.map (takeSlot c.slot) } := by
  unfold Group.answer
  rw [form, beq_iff_eq.mpr whole]
  dsimp only
  have goes : ((1 == 2) || (g.inCall c.slot == 0#64)) = false := by rw [beq_false_of_ne some_]; rfl
  simp only [if_true, goes, Bool.false_eq_true, if_false]
  unfold answerRegs
  rfl
theorem v_setV_all (g : Group) (shape : g.shaped = true) (n : Nat) (m : Mask) (vals : List Word) {L : Nat} (inside : L < g.width) (on : m.getLsbD L = true) :
    (g.setV n m vals).v n L = if n < g.vcount then vals.getD L 0#32 else g.v n L := by
  have length := (shaped_vregs g shape).1
  by_cases lt : n < g.vcount
  · rw [if_pos lt, v_setV g n m vals n L (by rw [length]; exact lt) inside, if_pos ⟨rfl, on⟩]
  · rw [if_neg lt]
    unfold Group.v Group.setV
    dsimp only
    rw [List.modify_eq_self (by rw [length]; omega)]
theorem v_setV_other (g : Group) (n : Nat) (m : Mask) (vals : List Word) {r : Nat} (other : r ≠ n) (L : Nat) : (g.setV n m vals).v r L = g.v r L := by
  unfold Group.v Group.setV
  simp only [List.getD_eq_getElem?_getD, List.getElem?_modify, if_neg other.symm]
  simp

theorem answer_calls {g : Group} {c : CallRec} {lanes : Mask} {vals : List DWord} (form : c.form = 1) (whole : c.answered = c.active)
    (some_ : g.inCall c.slot ≠ 0#64) : (g.answer c lanes vals).calls = g.calls.filter fun x => x.slot != c.slot := by
  rw [answer_whole form whole some_]
  show ((answerRegs g c lanes vals).moveTo (g.inCall c.slot) (nextPc c.pc)).calls.filter _ = _
  rw [moveTo_calls]
  unfold answerRegs
  rw [killV_calls, setV_calls, setV_calls]
theorem answer_id {g : Group} {c : CallRec} {lanes : Mask} {vals : List DWord} (form : c.form = 1) (whole : c.answered = c.active)
    (some_ : g.inCall c.slot ≠ 0#64) : (g.answer c lanes vals).id = g.id := by
  rw [answer_whole form whole some_]
  show ((answerRegs g c lanes vals).moveTo (g.inCall c.slot) (nextPc c.pc)).id = _
  rw [moveTo_id]
  unfold answerRegs
  rw [killV_id, setV_id, setV_id]
theorem answer_v {g : Group} {c : CallRec} {lanes : Mask} {vals : List DWord} (form : c.form = 1) (whole : c.answered = c.active)
    (some_ : g.inCall c.slot ≠ 0#64) (shape : g.shaped = true) {L : Nat} (inside : L < g.width) (on : lanes.getLsbD L = true) :
    ((g.answer c lanes vals).v c.dest L = if c.dest < g.vcount then lo32 (vals.getD L 0#64) else g.v c.dest L) ∧
    ((g.answer c lanes vals).v (c.dest + 1) L = if c.dest + 1 < g.vcount then hi32 (vals.getD L 0#64) else g.v (c.dest + 1) L) := by
  have regs (r : Nat) : (g.answer c lanes vals).v r L = ((g.setV c.dest lanes (vals.map lo32)).setV (c.dest + 1) lanes (vals.map hi32)).v r L := by
    rw [answer_whole form whole some_]
    show ((answerRegs g c lanes vals).moveTo (g.inCall c.slot) (nextPc c.pc)).v r L = _
    unfold Group.v
    rw [moveTo_vregs]
    unfold answerRegs
    rw [killV_vregs]
  have length : (g.setV c.dest lanes (vals.map lo32)).vregs.length = g.vcount := (List.length_modify _ _ _).trans (shaped_vregs g shape).1
  refine ⟨?_, ?_⟩
  · rw [regs, v_setV_other _ _ _ _ (by omega), v_setV_all g shape _ _ _ inside on, show (0#32 : Word) = lo32 0#64 from rfl, List.getD_map]
  · rw [regs]
    by_cases lt : c.dest + 1 < g.vcount
    · rw [if_pos lt, v_setV (g.setV c.dest lanes (vals.map lo32)) _ _ _ _ _ (by rw [length]; exact lt) inside, if_pos ⟨rfl, on⟩, show (0#32 : Word) = hi32 0#64 from rfl, List.getD_map]
    · rw [if_neg lt]
      refine Eq.trans ?_ (v_setV_other g c.dest lanes (vals.map lo32) (r := c.dest + 1) (by omega) L)
      unfold Group.v Group.setV
      dsimp only
      rw [List.modify_eq_self (by rw [List.length_modify, (shaped_vregs g shape).1]; omega)]
theorem answer_lane {g : Group} {c : CallRec} {lanes : Mask} {vals : List DWord} (form : c.form = 1) (whole : c.answered = c.active)
    (shape : g.shaped = true) {L : Nat} (inside : L < g.width) (waits : (g.lane L).wait = .call c.slot) (live : (g.lane L).exited = false) :
    ((g.answer c lanes vals).lane L).pc = nextPc c.pc ∧ ((g.answer c lanes vals).lane L).wait = .none ∧ g.inCall c.slot ≠ 0#64 := by
  have goes : (g.inCall c.slot).getLsbD L = true := by
    unfold Group.inCall
    rw [getLsbD_maskOf _ (shaped_width g shape), waits, live]
    simp [inside]
  have some_ : g.inCall c.slot ≠ 0#64 := by
    intro no
    rw [no] at goes
    simp at goes
  have lanes_ : (answerRegs g c lanes vals).lanes = g.lanes := by
    unfold answerRegs
    rw [killV_lanes, setV_lanes, setV_lanes]
  have length : (answerRegs g c lanes vals).lanes.length = g.width := by rw [lanes_, shaped_lanes g shape]
  have lane : (g.answer c lanes vals).lane L = takeSlot c.slot (((answerRegs g c lanes vals).moveTo (g.inCall c.slot) (nextPc c.pc)).lane L) := by
    rw [answer_whole form whole some_]
    refine lane_map { (answerRegs g c lanes vals).moveTo (g.inCall c.slot) (nextPc c.pc) with calls := _ } (takeSlot c.slot) L ?_
    show L < ((answerRegs g c lanes vals).moveTo (g.inCall c.slot) (nextPc c.pc)).lanes.length
    unfold Group.moveTo
    rw [settle_length, modLanes_length, length]
    exact inside
  obtain ⟨b, moved⟩ := lane_moveTo (answerRegs g c lanes vals) (g.inCall c.slot) (nextPc c.pc) L (by rw [length]; exact inside)
  rw [lane, moved, if_pos goes]
  exact ⟨rfl, rfl, some_⟩

/-! ### The machine around an answer -/

theorem capture_off {s : State} {n : Nat} (e : CapEntry) (off : (s.sheet? n).map (·.capture) = some false) : s.capture n e = s := by
  obtain ⟨h, found, plain⟩ := Option.map_eq_some_iff.mp off
  unfold State.capture
  rw [found]
  dsimp only
  rw [plain]
  rfl
theorem acquireAt_groups (s : State) (core sc : Nat) (paired : Bool) : (s.acquireAt core sc paired).groups = s.groups := by
  unfold State.acquireAt
  dsimp only
  split <;> split <;> rfl
theorem mend_groups (s : State) (pa n : Nat) : (s.mend pa n).groups = s.groups := by
  unfold State.mend
  split <;> rfl
theorem mend_sheets (s : State) (pa n : Nat) : (s.mend pa n).sheets = s.sheets := by
  unfold State.mend
  split <;> rfl
theorem grp_congr {s t : State} (same : t.groups = s.groups) (id : Nat) : t.grp? id = s.grp? id := by
  rw [State.grp?, same, State.grp?]
theorem updGroup_grp {s : State} {g : Group} (f : Group → Group) (grp : s.grp? g.id = some g) (there : g.st ≠ .saved) (same : (f g).id = g.id) :
    (s.updGroup g.id f).grp? g.id = some (f g) := by
  have set : (s.setGrp (f g)).grp? g.id = some (f g) := grp_set_here grp same rfl
  rw [updGroup_unsaved f grp there]
  split
  · exact (grp_congr (mend_groups _ _ _) _).trans set
  · exact set
/-- An answer to a group that is not saved, where nothing is captured. -/
theorem answerCall_grp {s : State} {g : Group} {c : CallRec} {lanes : Mask} (grp : s.grp? g.id = some g) (form : c.form = 1) (there : g.st ≠ .saved)
    (plain : (s.sheet? g.sheet).map (·.capture) = some false)
    (same : (g.answer { c with answered := c.answered ||| lanes } lanes (s.mem.results (g.slotAddr c.slot))).id = g.id) :
    (s.answerCall g c lanes).grp? g.id = some (g.answer { c with answered := c.answered ||| lanes } lanes (s.mem.results (g.slotAddr c.slot))) := by
  let f : Group → Group := fun h => h.answer { c with answered := c.answered ||| lanes } lanes (s.mem.results (g.slotAddr c.slot))
  have step (u : State) (grp : u.grp? g.id = some g) : (u.updGroup g.id f).grp? g.id = some (f g) := updGroup_grp f grp there same
  unfold State.answerCall
  dsimp only
  rw [if_neg (show ¬((c.form == 2) = true) by rw [form]; decide), if_neg (show ¬((g.st == .saved) = true) from fun saved => there (beq_iff_eq.mp saved))]
  refine step _ ?_
  refine Eq.trans (grp_congr ?_ _) grp
  generalize at_ : State.mend _ _ _ = u
  have sheets : u.sheets = s.sheets := at_ ▸ mend_sheets _ _ _
  have groups : u.groups = s.groups := at_ ▸ mend_groups _ _ _
  have quiet (l : Mask) (pa : Nat) (vals : List DWord) : u.captureReply g c pa l vals = u :=
    capture_off _ (by rw [State.sheet?, sheets]; exact plain)
  rw [quiet]
  split
  · exact (acquireAt_groups _ _ _ _).trans groups
  · exact groups

/-! ### Calls that another shard owns (R389, R486) -/

theorem callPass_noted {s : State} {k slot lane : Nat} {p : Pass} (agent : isAgent k = true)
    (noted : ((s.surv k).passes.find? fun p => p.word == BitVec.ofNat 64 (slot + lane)) = some p) :
    exec (.callPass k slot lane) s = .next (if s.passDone p slot lane then
      (s.modSurv k fun v => { v with passes := v.passes.erase p }).mboxSend k p.home 3 (BitVec.ofNat 64 (slot + lane)) p.callno else s) := by
  show execCallPass k slot lane s = _
  unfold execCallPass
  dsimp only
  rw [agent, noted]
  exact (apply_ite Host.Outcome.next _ _ _).symm
theorem callPass_own {s : State} {k slot lane : Nat} {g : Group} {c : CallRec} (agent : isAgent k = true)
    (new : ∀ p ∈ (s.surv k).passes, p.word ≠ BitVec.ofNat 64 (slot + lane)) (found : s.callAt slot = some (g, c)) :
    let home := shardOfCluster (clusterOf g.core)
    let own := s.callOwner g.asn home c.callno (s.mem.callArgs slot lane)
    exec (.callPass k slot lane) s = .next
      (if s.runs k home && own != home && c.popped && s.performs c slot lane && !c.served.getLsbD lane && !c.sent.getLsbD lane then
        (s.modCall g.id c.slot fun c => { c with sent := c.sent ||| (1#64 <<< lane) }).mboxSend k own 2 (BitVec.ofNat 64 (slot + lane)) c.callno
      else s) := by
  have none_ : ((s.surv k).passes.find? fun p => p.word == BitVec.ofNat 64 (slot + lane)) = none :=
    List.find?_eq_none.mpr fun p mem is => new p mem (beq_iff_eq.mp is)
  show execCallPass k slot lane s = _
  unfold execCallPass
  dsimp only
  rw [agent, none_, found]
  exact (apply_ite Host.Outcome.next _ _ _).symm
theorem mboxTxAux_sends {s : State} {k : Nat} (w : DWord) (agent : isAgent k = true) (free : s.txBusy k = false)
    (names : k < 64 → (s.surv k).txDst / 256 % 64 < 56) :
    exec (.mboxTxAux k w) s = .next (s.mboxSend k ((s.surv k).txDst / 256 % 64) ((s.surv k).txDst % 16) (s.surv k).txData (lowField w 0 32)) := by
  show execMboxTxAux k w s = _
  unfold execMboxTxAux
  rw [agent]
  dsimp only
  rw [free]
  refine (if_neg (show ¬((!true) = true) by decide)).trans (if_neg fun bad => ?_)
  obtain ⟨core, far⟩ := Bool.and_eq_true_iff.mp ((Bool.false_or _).symm.trans bad)
  exact absurd (names (of_decide_eq_true core)) (Nat.not_lt.mpr (of_decide_eq_true far))
/-- What a write of REPLY_POST does to a call that is there (R393). -/
theorem replied_eq (s : State) (k : Nat) (m : Mask) (g : Group) (c : CallRec) :
    (let s1 := if m &&& ~~~c.active != 0#64 then s.svErr k 0 else s
     let s2 := if m &&& c.answered != 0#64 then s1.svErr k 1 else s1
     let new := m &&& c.active &&& ~~~c.answered
     if new == 0#64 then s2 else s2.answerCall g c new) =
    let s1 := if m &&& ~~~c.active = 0#64 then s else s.svErr k 0
    let s2 := if m &&& c.answered = 0#64 then s1 else s1.svErr k 1
    if m &&& c.active &&& ~~~c.answered = 0#64 then s2 else s2.answerCall g c (m &&& c.active &&& ~~~c.answered) := by
  have swap (a : Mask) (x y : State) : (if a != 0#64 then y else x) = if a = 0#64 then x else y := by
    by_cases h : a = 0#64
    · rw [if_pos h, h]; rfl
    · rw [if_neg h]; exact if_pos (bne_iff_ne.mpr h)
  have keep (a : Mask) (x y : State) : (if a == 0#64 then x else y) = if a = 0#64 then x else y := by
    by_cases h : a = 0#64
    · rw [if_pos h, h]; rfl
    · rw [if_neg h]; exact if_neg fun is => h (beq_iff_eq.mp is)
  dsimp only
  rw [swap, swap, keep]
/-- The first of the mailboxes of those sent that may enter has room there. -/
theorem mboxNext_room {s : State} {k j d : Nat} {m : Msg} (next : s.mboxNext k = some (j, d, m)) : ((s.surv d).mbox.getD m.port []).length < 16 := by
  unfold State.mboxNext at next
  obtain ⟨⟨e, n⟩, -, is⟩ := List.exists_of_findSome?_eq_some next
  dsimp only at is
  split at is
  · split at is
    next room =>
      cases is
      exact of_decide_eq_true (Bool.and_eq_true_iff.mp room).2
    · cases is
  · cases is

/-- Settles O40: each register's access by its definition, and the SYS call that is answered whole by the group's `answer` (R387 to R398). -/
theorem surveyorQueues : Obligations.SurveyorQueues := by
  unfold Obligations.SurveyorQueues
  refine ⟨fun s k d ds agent held => ?_, fun s k agent empty => ?_, fun s k d ds agent queue => ?_, fun s k w agent gone => ?_,
    fun s k w g c agent found => ?_, fun s k w g c agent found grp form there whole active fresh plain outside waits shape => ?_,
    fun s k w agent free core shard => ?_, fun s k w agent free compass => ?_, fun s k w agent bad => ?_, fun s k j d m agent next => ?_,
    fun s k p agent empty => ?_, fun s k p m ms agent queue => ?_, fun s k m => ?_, fun s asn home a => ⟨fun p f path file => ?_, rfl, rfl⟩,
    fun s k slot lane agent => ⟨fun g c found new home own popped performs served => ?_, fun p noted => ⟨fun done => ?_, fun g c found seq served => ?_⟩⟩⟩
  · show execCallqAppend k s = _
    unfold execCallqAppend
    rw [agent]
    dsimp only
    rw [held]
    by_cases room : (s.surv k).callq.length < 128
    · rw [if_pos room]; exact if_pos room
    · rw [if_neg room]; exact if_neg room
  · show execCallqPop k s = _
    unfold execCallqPop
    rw [agent, empty]
    rfl
  · let s1 := s.modSurv k fun v => { v with callq := ds, lastRead := d.word }
    let s2 := if d.type == 4 then s1 else s1.modCallAt d.slot fun c => { c with popped := true }
    let kill : Instr := .kill k (BitVec.ofNat 64 (7 * 2 ^ 60 + d.slot))
    have runs : exec (.callqPop k) s =
        .next (if s.kernelKills d then { s2 with agenda := .ev kill :: s2.agenda } else s2) := by
      show execCallqPop k s = _
      unfold execCallqPop
      rw [agent, queue]
      exact (apply_ite Host.Outcome.next _ _ _).symm
    have calls (u : State) (f : CallRec → CallRec) : (u.modCallAt d.slot f).survs = u.survs ∧ (u.modCallAt d.slot f).agenda = u.agenda := by
      unfold State.modCallAt
      split <;> exact ⟨rfl, rfl⟩
    have kept : s2.survs = s1.survs ∧ s2.agenda = s.agenda := by
      rw [show s2 = if d.type == 4 then s1 else s1.modCallAt d.slot fun c => { c with popped := true } from rfl]
      split
      · exact ⟨rfl, rfl⟩
      · exact calls s1 _
    refine ⟨_, runs, ?_, fun fault => ?_, fun call => ?_, ?_⟩
    · refine Eq.trans ?_ kept.1
      split <;> rfl
    · have s2_ : s2 = s1 := if_pos (beq_iff_eq.mpr fault)
      rw [s2_]
      split <;> rfl
    · have s2_ : s2 = s1.modCallAt d.slot fun c => { c with popped := true } := if_neg fun is => call (beq_iff_eq.mp is)
      have same : (s1.modCallAt d.slot fun c => { c with popped := true }).groups = (s.modCallAt d.slot fun c => { c with popped := true }).groups := by
        unfold State.modCallAt
        rw [show s1.callAt d.slot = s.callAt d.slot from rfl]
        cases s.callAt d.slot <;> rfl
      rw [s2_]
      refine Eq.trans ?_ same
      split <;> rfl
    · by_cases kills : s.kernelKills d = true
      · rw [if_pos kills, if_pos kills]
        exact congrArg (Item.ev kill :: ·) kept.2
      · rw [if_neg kills, if_neg kills]
        exact kept.2
  · show execReplyPost k w s = _
    unfold execReplyPost
    rw [agent, gone]
    rfl
  · show execReplyPost k w s = _
    unfold execReplyPost
    rw [agent]
    dsimp only
    rw [found]
    exact congrArg Host.Outcome.next (replied_eq s k _ g c)
  · have room : exec (.replyPost k w) s = .next (s.answerCall g c c.active) := by
      show execReplyPost k w s = _
      unfold execReplyPost
      rw [agent]
      dsimp only
      rw [found]
      refine congrArg Host.Outcome.next ((replied_eq s k _ g c).trans ?_)
      dsimp only
      have new : c.active &&& c.active &&& ~~~(0#64 : Mask) = c.active := by rw [BitVec.and_self]; exact BitVec.and_allOnes
      rw [whole, fresh, new, if_neg active, if_pos (show c.active &&& 0#64 = 0#64 from BitVec.and_zero),
        if_pos (show c.active &&& ~~~c.active = 0#64 from BitVec.and_not_self _)]
    let c1 : CallRec := { c with answered := c.answered ||| c.active }
    have all : c1.answered = c1.active := by
      show c.answered ||| c.active = c.active
      rw [fresh]; exact BitVec.zero_or
    have goes {L : Nat} (on : c.active.getLsbD L = true) : L < g.width := by
      by_contra over_
      rw [outside L (by omega)] at on
      cases on
    have lane {L : Nat} (on : c.active.getLsbD L = true) := answer_lane (c := c1) (lanes := c.active) (vals := s.mem.results (g.slotAddr c.slot)) form all shape
      (goes on) (waits L (goes on) on).1 (waits L (goes on) on).2
    have some_ : g.inCall c1.slot ≠ 0#64 := by
      obtain ⟨L, on⟩ : ∃ L, c.active.getLsbD L = true := by
        by_contra no
        refine active (BitVec.eq_of_getLsbD_eq fun L _ => ?_)
        rw [BitVec.getLsbD_zero]
        exact Bool.eq_false_iff.mpr fun on => no ⟨L, on⟩
      exact (lane on).2.2
    have same := answer_id (lanes := c.active) (vals := s.mem.results (g.slotAddr c.slot)) (c := c1) form all some_
    refine ⟨_, _, room, answerCall_grp grp form there plain same, fun L inside on => ?_, fun x mem is => ?_⟩
    · obtain ⟨low, high⟩ := answer_v (c := c1) (vals := s.mem.results (g.slotAddr c.slot)) form all some_ shape inside on
      exact ⟨low, high, (lane on).1, (lane on).2.1⟩
    · rw [answer_calls (c := c1) form all some_] at mem
      exact (bne_iff_ne.mp (List.mem_filter.mp mem).2) is
  · rw [mboxTxAux_sends w agent free fun _ => shard]
    unfold State.mboxSend
    simp only [if_pos core]
  · rw [mboxTxAux_sends w agent free fun core => absurd core (by omega)]
    unfold State.mboxSend
    simp only [if_neg (show ¬k < 64 by omega)]
  · show execMboxTxAux k w s = _
    unfold execMboxTxAux
    rw [agent]
    refine (if_neg (show ¬((!true) = true) by decide)).trans (if_pos ?_)
    rcases bad with busy | ⟨core, far⟩
    · rw [busy]; rfl
    · rw [decide_eq_true core, decide_eq_true far]; exact Bool.or_true _
  · refine ⟨?_, ?_⟩
    · rw [surv_modSurv]
      split
      next is => exact is ▸ mboxNext_room next
      · exact mboxNext_room next
    show execMboxDelivery k s = _
    unfold execMboxDelivery
    rw [agent, next]
    rfl
  · show execMboxRxPop k p s = _
    unfold execMboxRxPop
    rw [agent, empty]
    rfl
  · show execMboxRxPop k p s = _
    unfold execMboxRxPop
    rw [agent, queue]
    rfl
  · refine ⟨fun other => ?_, fun kind port => ?_, fun kind port gone => ?_⟩
    · unfold State.tookPass
      dsimp only
      rw [if_neg fun is => ?_, if_neg fun is => ?_]
      · simp only [Bool.and_eq_true, beq_iff_eq, Option.isNone_iff_eq_none] at is
        exact other ⟨is.1.2, .inr ⟨is.1.1, is.2⟩⟩
      · simp only [Bool.and_eq_true, beq_iff_eq] at is
        exact other ⟨is.2, .inl is.1⟩
    · unfold State.tookPass
      dsimp only
      rw [if_pos (by rw [kind, port]; rfl)]
      cases s.callAt (m.data.toNat / 4096 * 4096) <;> rfl
    · unfold State.tookPass
      dsimp only
      rw [if_neg (by rw [port]; exact Bool.false_ne_true), if_pos (by rw [port, kind, gone]; rfl)]
      congr 1
      refine List.filter_congr fun e _ => ?_
      simp only [bne, decide_not]
      rfl
  · unfold State.callOwner
    dsimp only
    rw [path]
    exact congrArg (fun o : Option File => (o.map (·.inode % 56)).getD home) file
  · have goes : (s.runs k (shardOfCluster (clusterOf g.core)) &&
        s.callOwner g.asn (shardOfCluster (clusterOf g.core)) c.callno (s.mem.callArgs slot lane) != shardOfCluster (clusterOf g.core) && c.popped &&
        s.performs c slot lane && !c.served.getLsbD lane) = true := by
      unfold State.runs
      rw [home, bne_iff_ne.mpr own, popped, performs, served]
      simp
    rw [callPass_own agent new found]
    refine ⟨fun unsent => ?_, fun sent => ?_⟩
    · rw [if_pos (by rw [goes, unsent]; rfl)]
    · rw [if_neg (by rw [goes, sent]; exact Bool.false_ne_true)]
  · rw [callPass_noted agent noted, if_pos ?_]
    unfold State.passDone
    rcases done with gone | ⟨g, c, found, over_⟩
    · rw [gone]
    · rw [found]
      rcases over_ with seq | served
      · exact Bool.or_eq_true_iff.mpr (.inl (bne_iff_ne.mpr seq))
      · exact Bool.or_eq_true_iff.mpr (.inr served)
  · rw [callPass_noted agent noted, if_neg ?_]
    unfold State.passDone
    rw [found]
    dsimp only
    rw [seq, served]
    simp

end Sys2Proof.Proofs


/-!
The statement about tasks, sheets and notes (R343, R358, R360, R361), which a memory outside its canonical form refutes: a TASK reads its record
line by line, and a list of cells out of order answers a read of the whole range otherwise than the reads of its lines.
-/
namespace Sys2Proof.Proofs
open Sys2Proof Sys2Proof.Machine Sys2Proof.Laws

/-- A group whose s0 is the virtual address of a task record. -/
def recordGroup : Group := { smallGroup with sregs := 65600#64 :: List.replicate 15 0#64 }
/-- The record's page is an extent of the group's task, at a physical address that is no multiple of a line's length. -/
def recordTask : Task :=
  { num := 0, kernel := 0#64, hdr := { width := 16, vcount := 24, scount := 16, team := 1, scratch := 0, flags := 0 }, foots := [], args := []
    teams := 1, matrix := false, extents := [{ va := 65536, pa := 131108, len := 65536, rd := true, wr := true }] }
/-- Memory with its first two cells in the wrong order: a read of all 64 bytes of the record stops at the second of them and misses the last
two, which a read of the record's second line finds. -/
def recordState : State :=
  { oneLane [recordGroup] [smallTeam] with
    mem := [(131177, 1#8), (131174, 1#8), (131220, 1#8), (131222, 1#8)], sheets := [{ smallSheet with tasks := [recordTask] }] }
def taskAtS0 : FY := { pf := plainPfx, mod := 0#6, ya := .s 0#7, yb := .s 2#7, yc := noOpnd, code := 0#16 }
/-- The instruction finds one team and one footprint in the record, whose footprints no page maps: code 5. -/
theorem task_answers_fault : (match exec (.task taskAtS0) recordState with
    | .next t => (t.grp? 1).map fun g => g.s 2
    | _ => none) = some (BitVec.ofNat 64 (2 ^ 63 + 5)) := by decide +kernel

theorem checkSub_format {s : State} {asn : Nat} {b : Submission} (full : Bool) (bad : b.formatOk = false) : s.checkSub asn b full = .error 4 := by
  unfold State.checkSub
  dsimp only
  rw [bad]
  rfl
/-- Refutes O26: read as one range the record has no team, code 4; the TASK reads it by lines and answers 5. -/
theorem not_tasksSheetsAndNotes : ¬ Obligations.TasksSheetsAndNotes := by
  rintro ⟨claim, -⟩
  obtain ⟨q, performs, facts⟩ := performs_of_check (i := .task taskAtS0) (s := recordState)
    (P := fun q => q.g.sheet == 1 && (q.g.rdS taskAtS0.ya).toNat == 65600 && (recordState.rangeCond q.g 65600 64 64 .rd).isNone &&
      (recordState.withheld q (if (linePieces (recordState.segs q.g 65600 64 .rd)).isEmpty then [] else [0, 1]) q.workClass).isNone &&
      (recordState.takeLines q.core q.g.id q.sub (LineUse.load != .load) ((recordState.core q.core).entriesFor .load (linePieces (recordState.segs q.g 65600 64 .rd)))).isSome &&
      !(taskRecord (recordState.mem.segLoad (recordState.segs q.g 65600 64 .rd))).formatOk && q.core == 0 && q.g.id == 1 && !q.pf.nwb)
    (by decide +kernel)
  simp only [Bool.and_eq_true, beq_iff_eq, Option.isNone_iff_eq_none, Bool.not_eq_true'] at facts
  obtain ⟨⟨⟨⟨⟨⟨⟨⟨sheet, address⟩, mapped⟩, supplied⟩, entries⟩, format⟩, core⟩, id⟩, writes⟩ := facts
  obtain ⟨s1, ro, -, -, -, -, present, -, refused, -⟩ := claim taskAtS0 recordState q { smallSheet with tasks := [recordTask] } performs (by rw [sheet]; rfl)
    (by rw [address]) (by rw [address]; exact mapped) ⟨rfl, by rw [core]; rfl⟩ (by rw [address]; exact ⟨supplied, entries⟩)
  obtain ⟨G, ⟨t, G', g, answers, continues⟩, same, -, dest⟩ := refused 4 (by rw [address]; exact checkSub_format false format) (by decide)
  have placed : (s1.setGrp G).grp? q.g.id = some G := by
    rw [grp_setGrp, if_pos same.symm, present]
    rfl
  have now : G' = G := Option.some.inj (continues.before.symm.trans placed)
  have value := task_answers_fault
  rw [answers] at value
  dsimp only at value
  rw [← id, continues.after] at value
  have scalar : g.s 2 = BitVec.ofNat 64 (2 ^ 63 + 4) := by
    have kept : g.s 2 = G.s 2 := by unfold Group.s; rw [continues.sregs, now]
    rw [kept, dest.2 2, if_pos ⟨writes, rfl⟩]
    rfl
  exact absurd (scalar.symm.trans (Option.some.inj value)) (by decide)

end Sys2Proof.Proofs


/-!
The statement about service calls (R392, R393, R404): the bytes of a call slot, field by field, and the three instructions.
-/
namespace Sys2Proof.Proofs
open Sys2Proof Sys2Proof.Machine Sys2Proof.Laws

/-! ### The bytes of a call slot (R392, R394) -/

theorem fieldAt_flatMap {k : Nat} {f : Nat → List Byte} (each : ∀ L, (f L).length = k) (rest : List Byte) {n L off m : Nat} (lt : L < n)
    (le : off + m ≤ k) : fieldAt ((List.range n).flatMap f ++ rest) (k * L + off) m = fieldAt (f L) off m := by
  induction L generalizing f n with
  | zero =>
    obtain ⟨n, rfl⟩ : ∃ p, n = p + 1 := ⟨n - 1, by omega⟩
    rw [List.range_succ_eq_map, List.flatMap_cons, List.append_assoc, Nat.mul_zero, Nat.zero_add, fieldAt_front (by rw [each]; exact le)]
  | succ L ih =>
    obtain ⟨n, rfl⟩ : ∃ p, n = p + 1 := ⟨n - 1, by omega⟩
    rw [List.range_succ_eq_map, List.flatMap_cons, List.append_assoc, fieldAt_past (by rw [each, Nat.mul_succ]; omega), each, List.flatMap_map,
      show k * (L + 1) + off - k = k * L + off by rw [Nat.mul_succ]; omega]
    exact ih (f := fun i => f (i + 1)) (fun i => each (i + 1)) (by omega)
theorem length_flatMap_range {k : Nat} {f : Nat → List Byte} (each : ∀ L, (f L).length = k) (n : Nat) : ((List.range n).flatMap f).length = k * n := by
  rw [List.length_flatMap, List.map_congr_left fun L _ => each L, List.map_const', List.sum_replicate, List.length_range, smul_eq_mul, Nat.mul_comm]
/-- The lane with whose arguments a lane's call is made, 255 outside the call. -/
def slotLeader (active : Mask) (args : Nat → List DWord) (L : Nat) : Nat :=
  if active.getLsbD L then ((lanesOf 64 active).find? fun M => args M == args L).getD L else 255
/-- The arguments of a lane, padded to 32 bytes. -/
def slotArgs (active : Mask) (args : Nat → List DWord) (L : Nat) : List Byte :=
  padTo 32 (if active.getLsbD L then (args L).flatMap (fun x => leBytes 8 x.toNat) else [])
/-- The 64 bytes before the leaders. -/
def slotHead (c : CallRec) (form : Nat) (g : Group) : List Byte :=
  leBytes 2 c.callno ++ leBytes 1 form ++ leBytes 1 c.port ++ leBytes 4 c.cseq ++ leBytes 8 c.active.toNat ++ leBytes 8 0 ++
  leBytes 8 c.pc.toNat ++ leBytes 8 g.sheetid.toNat ++ leBytes 4 (g.core + 1024 * g.ctx) ++ List.replicate 20 0#8
theorem slotBytes_eq (c : CallRec) (form : Nat) (g : Group) (args : Nat → List DWord) :
    slotBytes c form g args = slotHead c form g ++ ((List.range 64).flatMap fun L => leBytes 1 (slotLeader c.active args L)) ++
      (List.range 64).flatMap (slotArgs c.active args) := rfl
theorem length_slotHead (c : CallRec) (form : Nat) (g : Group) : (slotHead c form g).length = 64 := by
  unfold slotHead
  have zeros : (List.replicate 20 0#8).length = 20 := List.length_replicate
  generalize List.replicate 20 0#8 = z at zeros ⊢
  simp only [List.length_append, length_leBytes, zeros]
theorem length_slotBytes (c : CallRec) (form : Nat) (g : Group) (args : Nat → List DWord) : (slotBytes c form g args).length = 2176 := by
  rw [slotBytes_eq, List.length_append, List.length_append, length_slotHead, length_flatMap_range (k := 1) fun _ => length_leBytes _ _,
    length_flatMap_range (k := 32) (f := slotArgs c.active args) fun _ => length_padTo _ _]
theorem slot_head (c : CallRec) (form : Nat) (g : Group) (args : Nat → List DWord) {off n : Nat} (le : off + n ≤ 64) :
    fieldAt (slotBytes c form g args) off n = fieldAt (slotHead c form g) off n := by
  rw [slotBytes_eq, List.append_assoc, fieldAt_front (by rw [length_slotHead]; exact le)]
theorem slot_leader (c : CallRec) (form : Nat) (g : Group) (args : Nat → List DWord) {L : Nat} (lt : L < 64) :
    fieldAt (slotBytes c form g args) (64 + L) 1 = slotLeader c.active args L % 256 := by
  rw [slotBytes_eq, List.append_assoc, fieldAt_past (by rw [length_slotHead]; omega), length_slotHead,
    show 64 + L - 64 = 1 * L + 0 by omega, fieldAt_flatMap (fun _ => length_leBytes _ _) _ lt (by decide)]
  have := fieldAt_here 1 (slotLeader c.active args L) []
  rwa [List.append_nil] at this
theorem slot_arg (c : CallRec) (form : Nat) (g : Group) (n : Nat) (arg : Nat → Nat → DWord) {L i : Nat} (lt : L < 64) (on : c.active.getLsbD L = true)
    (few : n ≤ 4) (inside : i < n) :
    fieldAt (slotBytes c form g fun L => (List.range n).map fun i => arg i L) (128 + 32 * L + 8 * i) 8 = (arg i L).toNat := by
  rw [slotBytes_eq, fieldAt_past (by rw [List.length_append, length_slotHead, length_flatMap_range (k := 1) fun _ => length_leBytes _ _]; omega),
    List.length_append, length_slotHead, length_flatMap_range (k := 1) fun _ => length_leBytes _ _,
    show 128 + 32 * L + 8 * i - (64 + 1 * 64) = 32 * L + 8 * i by omega, ← List.append_nil ((List.range 64).flatMap _),
    fieldAt_flatMap (f := slotArgs c.active _) (fun _ => length_padTo _ _) _ lt (by omega)]
  unfold slotArgs padTo
  rw [if_pos on, List.flatMap_map]
  have length := length_flatMap_range (f := fun i => leBytes 8 (arg i L).toNat) (fun _ => length_leBytes _ _) n
  rw [List.take_of_length_le (by rw [length]; omega)]
  refine (fieldAt_flatMap (fun _ => length_leBytes _ _) _ inside (off := 0) (by decide)).trans ?_
  have := fieldAt_here 8 (arg i L).toNat []
  rw [List.append_nil] at this
  exact this.trans (Nat.mod_eq_of_lt (arg i L).isLt)
theorem head_fields (c : CallRec) (form : Nat) (g : Group) :
    fieldAt (slotHead c form g) 0 2 = c.callno % 2 ^ 16 ∧ fieldAt (slotHead c form g) 2 1 = form % 2 ^ 8 ∧
    fieldAt (slotHead c form g) 3 1 = c.port % 2 ^ 8 ∧ fieldAt (slotHead c form g) 4 4 = c.cseq % 2 ^ 32 ∧
    fieldAt (slotHead c form g) 8 8 = c.active.toNat % 2 ^ 64 ∧ fieldAt (slotHead c form g) 16 8 = 0 % 2 ^ 64 ∧
    fieldAt (slotHead c form g) 24 8 = c.pc.toNat % 2 ^ 64 ∧ fieldAt (slotHead c form g) 32 8 = g.sheetid.toNat % 2 ^ 64 ∧
    fieldAt (slotHead c form g) 40 4 = (g.core + 1024 * g.ctx) % 2 ^ 32 := by
  unfold slotHead
  generalize List.replicate 20 0#8 = zeros
  simp (disch := decide) only [List.append_assoc, fieldAt_here, fieldAt_field, Nat.reduceSub, Nat.sub_self, and_self]

theorem head_zeros (c : CallRec) (form : Nat) (g : Group) {k : Nat} (lt : k < 20) : fieldAt (slotHead c form g) (44 + k) 1 = 0 := by
  unfold slotHead
  rw [fieldAt_past (by simp only [List.length_append, length_leBytes]; omega)]
  simp only [List.length_append, length_leBytes]
  rw [show 44 + k - (2 + 1 + 1 + 4 + 8 + 8 + 8 + 8 + 4) = k by omega, fieldAt, List.drop_replicate, List.take_replicate,
    show min 1 (20 - k) = 1 by omega]
  rfl
theorem find_first {p : Nat → Bool} {ls : List Nat} (rising : ls.Pairwise (· < ·)) {M : Nat} (found : ls.find? p = some M) :
    M ∈ ls ∧ p M = true ∧ ∀ K, K < M → K ∈ ls → p K = false := by
  obtain ⟨holds, front, back, rfl, before⟩ := List.find?_eq_some_iff_append.mp found
  refine ⟨by simp, holds, fun K lt mem => ?_⟩
  rcases List.mem_append.mp mem with early | late
  · simpa using before K early
  · have last := (List.pairwise_append.mp rising).2.1
    rcases List.mem_cons.mp late with rfl | after
    · exact absurd lt (Nat.lt_irrefl _)
    · exact absurd (List.rel_of_pairwise_cons last after) (by omega)
theorem mem_lanesOf {w : Nat} {m : Mask} {L : Nat} : L ∈ lanesOf w m ↔ L < w ∧ m.getLsbD L = true := by
  rw [lanesOf, List.mem_filter, List.mem_range]
/-- A lane's leader is the lowest lane of the call with its arguments (R394). -/
theorem slotLeader_lowest {active : Mask} {n : Nat} {arg : Nat → Nat → DWord} {L : Nat} (lt : L < 64) (on : active.getLsbD L = true) :
    ∃ M, slotLeader active (fun L => (List.range n).map fun i => arg i L) L = M ∧ M < 64 ∧ active.getLsbD M = true ∧
      (∀ i, i < n → arg i M = arg i L) ∧ ∀ K, K < M → active.getLsbD K = true → ∃ i, i < n ∧ arg i K ≠ arg i L := by
  have same (K : Nat) : ((List.range n).map (fun i => arg i K) == (List.range n).map fun i => arg i L) = true ↔ ∀ i, i < n → arg i K = arg i L := by
    rw [beq_iff_eq, List.map_inj_left]
    simp only [List.mem_range]
  unfold slotLeader
  rw [if_pos on]
  cases found : (lanesOf 64 active).find? fun M => (List.range n).map (fun i => arg i M) == (List.range n).map fun i => arg i L with
  | none => exact absurd ((same L).mpr fun _ _ => rfl) (List.find?_eq_none.mp found L (mem_lanesOf.mpr ⟨lt, on⟩))
  | some M =>
    obtain ⟨mem, holds, first⟩ := find_first (lanesOf_rising _ _) found
    obtain ⟨small, active_⟩ := mem_lanesOf.mp mem
    refine ⟨M, rfl, small, active_, (same M).mp holds, fun K lower onK => ?_⟩
    by_contra all
    push Not at all
    exact absurd ((same K).mpr all) (by rw [first K lower (mem_lanesOf.mpr ⟨by omega, onK⟩)]; exact Bool.false_ne_true)
theorem loadNat_one (m : Mem) (a : Nat) : m.loadNat a 1 = (m.read a).toNat := by
  show (m.read (a + 0)).toNat + 256 * 0 = _
  rfl
theorem callSlot_store (old : Mem) (A : Nat) (q : Q) (o : FY) (c : CallRec) (form : Nat) (arg : Nat → Nat → DWord) (few : narg o ≤ 4)
    (number : c.callno = o.code.toNat) (at_ : c.pc = q.pc) (forms : form < 256) (ports : c.port < 256) (seqs : c.cseq < 2 ^ 32) :
    CallSlot (old.store A (slotBytes c form q.g fun L => (List.range (narg o)).map fun i => arg i L)) old A q o c.active form c.port c.cseq arg := by
  let args : Nat → List DWord := fun L => (List.range (narg o)).map fun i => arg i L
  have length : (slotBytes c form q.g args).length = 2176 := length_slotBytes c form q.g args
  have load {off n : Nat} (le : off + n ≤ 2176) : (old.store A (slotBytes c form q.g args)).loadNat (A + off) n = fieldAt (slotBytes c form q.g args) off n :=
    loadNat_store_inside old A _ (by rw [length]; exact le)
  have head {off n : Nat} (le : off + n ≤ 64) : (old.store A (slotBytes c form q.g args)).loadNat (A + off) n = fieldAt (slotHead c form q.g) off n :=
    (load (by omega)).trans (slot_head c form q.g args le)
  have leads {L : Nat} (lt : L < 64) : (old.store A (slotBytes c form q.g args)).loadNat (A + 64 + L) 1 = slotLeader c.active args L % 256 := by
    rw [Nat.add_assoc]
    exact (load (by omega)).trans (slot_leader c form q.g args lt)
  obtain ⟨callno, formed, port, cseq, active, answered, pc, sheet, ctx⟩ := head_fields c form q.g
  have small (x : DWord) : x.toNat % 2 ^ 64 = x.toNat := Nat.mod_eq_of_lt x.isLt
  refine ⟨?_, ?_, ?_, ?_, ?_, ?_, ?_, ?_, ?_, fun k lt => ?_, fun L lt on => ⟨?_, fun i inside => ?_⟩, fun L lt off => ?_, fun a out => ?_⟩
  · refine (head (off := 0) (by decide)).trans (callno.trans ?_)
    rw [number]
    exact Nat.mod_eq_of_lt o.code.isLt
  · exact (head (by decide)).trans (formed.trans (Nat.mod_eq_of_lt forms))
  · exact (head (by decide)).trans (port.trans (Nat.mod_eq_of_lt ports))
  · exact (head (by decide)).trans (cseq.trans (Nat.mod_eq_of_lt seqs))
  · exact (head (by decide)).trans (active.trans (small _))
  · exact (head (by decide)).trans answered
  · exact (head (by decide)).trans (pc.trans ((small _).trans (congrArg BitVec.toNat at_)))
  · exact (head (by decide)).trans (sheet.trans (small _))
  · exact (head (by decide)).trans ctx
  · refine BitVec.eq_of_toNat_eq ?_
    rw [← loadNat_one, Nat.add_assoc]
    exact (head (by omega)).trans (head_zeros c form q.g lt)
  · obtain ⟨M, is, small, on', same, first⟩ := slotLeader_lowest (n := narg o) (arg := arg) lt on
    refine ⟨M, ?_, on', same, first⟩
    rw [leads lt, is]
    omega
  · rw [Nat.add_assoc, Nat.add_assoc, ← Nat.add_assoc 128]
    exact (load (by omega)).trans (slot_arg c form q.g (narg o) arg lt on few inside)
  · rw [leads lt, slotLeader, if_neg (by rw [off]; exact Bool.false_ne_true)]
  · exact read_store_outside _ _ _ _ (by rw [length]; exact out)

/-! ### A call that is issued (R393) -/

theorem callqPush_survs {s u : State} (same : u.survs = s.survs) (k : Nat) (d : Desc) : (u.callqPush k d).survs = (s.callqPush k d).survs := by
  unfold State.callqPush State.modSurv State.surv
  rw [same]
theorem callqPush_queues (s : State) (k : Nat) (d : Desc) :
    let v := s.surv k
    let w := (s.callqPush k d).surv k
    if v.callq.length < Config.callq ∧ v.heldq = [] then w.callq = v.callq ++ [d] ∧ w.heldq = v.heldq
    else w.callq = v.callq ∧ w.heldq = v.heldq ++ [d] := by
  have surv : (s.callqPush k d).surv k = if (s.surv k).callq.length < Config.callq && (s.surv k).heldq.isEmpty then
      { s.surv k with callq := (s.surv k).callq ++ [d] } else { s.surv k with heldq := (s.surv k).heldq ++ [d] } := by
    unfold State.callqPush
    rw [surv_modSurv, if_pos rfl]
  dsimp only
  rw [surv]
  by_cases room : (s.surv k).callq.length < Config.callq ∧ (s.surv k).heldq = []
  · rw [if_pos room, if_pos (by rw [decide_eq_true room.1, room.2]; rfl)]
    exact ⟨rfl, rfl⟩
  · rw [if_neg room, if_neg fun both => room ?_]
    · exact ⟨rfl, rfl⟩
    · obtain ⟨short, none_⟩ := Bool.and_eq_true_iff.mp both
      exact ⟨of_decide_eq_true short, List.isEmpty_iff.mp none_⟩
theorem mend_rest (s : State) (pa n : Nat) : (s.mend pa n).mem = s.mem ∧ (s.mend pa n).survs = s.survs := by
  unfold State.mend
  split <;> exact ⟨rfl, rfl⟩
/-- The group with a call in progress. -/
def callingGroup (s : State) (g : Group) (c : CallRec) : Group :=
  { g with calls := g.calls ++ [{ c with seq := s.fresh }], cseq := if c.form == 2 then c.cseq else g.cseq }
theorem issueCall_parts (s : State) (g : Group) (c : CallRec) (form : Nat) (args : Nat → List DWord) :
    let u := s.issueCall g c form args
    u.groups = (s.setGrp (callingGroup s g c)).groups ∧ u.teams = s.teams ∧ u.sheets = s.sheets ∧
    u.mem = s.mem.store (g.slotAddr c.slot) (slotBytes { c with seq := s.fresh } form g args) ∧
    u.survs = (s.callqPush (s.survOf g.core) { slot := g.slotAddr c.slot, type := c.form }).survs := by
  have quiet := (quiet_releaseAt s g.core 4 (s.pairedOf g)).1
  unfold State.issueCall
  generalize s.releaseAt g.core 4 (s.pairedOf g) = v at quiet ⊢
  have groups := congrArg State.groups quiet
  have teams := congrArg State.teams quiet
  have sheets := congrArg State.sheets quiet
  have mem := congrArg State.mem quiet
  have survs := congrArg State.survs quiet
  have lcl := congrArg State.lcl quiet
  dsimp only at groups teams sheets mem survs lcl ⊢
  generalize base : State.setGrp _ _ = w
  have wgroups : w.groups = (s.setGrp (callingGroup s g c)).groups := by
    rw [← base]
    unfold State.setGrp
    dsimp only
    rw [groups]
    rfl
  have wteams : w.teams = s.teams := base ▸ teams
  have wsheets : w.sheets = s.sheets := base ▸ sheets
  have wmem : w.mem = s.mem := base ▸ mem
  have wsurvs : w.survs = s.survs := base ▸ survs
  generalize mended : State.mend _ _ _ = x
  have xgroups : x.groups = w.groups := mended ▸ mend_groups _ _ _
  have xteams : x.teams = w.teams := mended ▸ mend_teams _ _ _
  have xsheets : x.sheets = w.sheets := mended ▸ mend_sheets _ _ _
  obtain ⟨xmem, xsurvs⟩ := mended ▸ mend_rest { w with mem := w.mem.store (g.slotAddr c.slot) (slotBytes { c with seq := s.fresh } form g args) }
    (g.slotAddr c.slot) 2176
  refine ⟨xgroups.trans wgroups, xteams.trans wteams, xsheets.trans wsheets, xmem.trans (congrArg (fun m : Mem => m.store _ _) wmem), ?_⟩
  have cluster : v.survOf g.core = s.survOf g.core := by
    unfold State.survOf State.physOf
    rw [lcl]
  exact (congrArg (fun k => (x.callqPush k _).survs) cluster).trans (callqPush_survs (xsurvs.trans wsurvs) _ _)

/-- A call's effect on the machine, as the statement says it. -/
theorem issueCall_says {s : State} {q : Q} {o : FY} {c : CallRec} {form : Nat} {arg : Nat → Nat → DWord} (present : s.grp? q.g.id = some q.g)
    (few : narg o ≤ 4) (number : c.callno = o.code.toNat) (at_ : c.pc = q.pc) (forms : form < 256) (ports : c.port < 256) (seqs : c.cseq < 2 ^ 32) :
    let u := s.issueCall q.g c form fun L => (List.range (narg o)).map fun i => arg i L
    let v := s.surv (s.survOf q.g.core)
    let w := u.surv (s.survOf q.g.core)
    let d : Desc := { slot := q.g.slotAddr c.slot, type := c.form }
    SameOthers s u q ∧ u.teams = s.teams ∧ u.sheets = s.sheets ∧
    (if v.callq.length < Config.callq ∧ v.heldq = [] then w.callq = v.callq ++ [d] ∧ w.heldq = v.heldq
      else w.callq = v.callq ∧ w.heldq = v.heldq ++ [d]) ∧
    u.grp? q.g.id = some (callingGroup s q.g c) ∧ CallSlot u.mem s.mem (q.g.slotAddr c.slot) q o c.active form c.port c.cseq arg := by
  obtain ⟨groups, teams, sheets, mem, survs⟩ := issueCall_parts s q.g c form fun L => (List.range (narg o)).map fun i => arg i L
  dsimp only
  refine ⟨fun id other => ?_, teams, sheets, ?_, ?_, ?_⟩
  · rw [grp_congr groups, others_setGrp s (callingGroup s q.g c) id other]
  · have queues := callqPush_queues s (s.survOf q.g.core) { slot := q.g.slotAddr c.slot, type := c.form }
    unfold State.surv at queues ⊢
    rw [survs]
    exact queues
  · exact grp_set_here present rfl groups
  · rw [mem]
    exact callSlot_store s.mem (q.g.slotAddr c.slot) q o { c with seq := s.fresh } form arg few number at_ forms ports seqs

/-! ### The instructions -/

/-- Of a group without batches nothing retires before the call (R212). -/
theorem callRetire_none {q : Q} {s : State} (present : s.grp? q.g.id = some q.g) (unbatched : q.g.batches = []) (k : State → Group → Res) :
    callRetire q s k = k s q.g := by
  have none_ : q.g.openBatch = none := by unfold Group.openBatch; rw [unbatched]; rfl
  have done : s.retire q.g.id 0 q.act = .done s := by
    unfold State.retire State.retireTo
    rw [present]
    dsimp only
    rw [unbatched]
    cases s.team? q.g.team <;> rfl
  unfold callRetire
  rw [none_]
  dsimp only [Option.isSome_none]
  rw [show (if false = true then s.setGrp (callRetire.closeB q.g) else s) = s from if_neg Bool.false_ne_true, done]
  dsimp only
  rw [present]
theorem slotBusy_iff (g : Group) (n : Nat) : g.slotBusy n = true ↔ ∃ c ∈ g.calls, c.slot = n := by
  unfold Group.slotBusy
  simp only [List.any_eq_true, beq_iff_eq]
/-- Argument i of a lane, as its operands hold it. -/
def callArg (o : FY) (g : Group) (i L : Nat) : DWord :=
  match o.ya with
  | .v n => g.v64 (n.toNat + 2 * i) L
  | .s n => g.s (n.toNat + i)
  | _ => 0#64
theorem callArgs_eq (o : FY) (g : Group) : callArgs o g = fun L => (List.range (narg o)).map fun i => callArg o g i L := rfl

theorem slotAddr_eq (g : Group) (n : Nat) : g.slotAddr n = g.frame + 4096 * (n + 1) := by unfold Group.slotAddr; omega
theorem formed_ok {i : Instr} {s : State} {q : Q} (performs : Performs i s q) {sg : Sig} (sig : sigOf i = some sg) : sg.ok = true :=
  (formed_sig i s q performs sg sig).1
/-- The call that SYS makes, and the one that SYSW makes (R392). -/
def sysCall (o : FY) (q : Q) : CallRec :=
  { slot := 0, form := 1, each := mbit o.mod 3, active := q.act, dest := destNum o.yb, pc := q.pc, callno := o.code.toNat }
def syswCall (o : FY) (q : Q) : CallRec :=
  { slot := 0, form := 3, active := 1#64, dest := destNum o.yb, pc := q.pc, callno := o.code.toNat }
/-- SYSA's, in slot n. -/
def sysaCall (o : FY) (q : Q) (n : Nat) : CallRec :=
  { slot := n, form := 2, active := q.act, port := (q.g.rdS o.yc).toNat, pc := q.pc, callno := o.code.toNat, cseq := (q.g.cseq + 1) % 2 ^ 32 }
section
variable {o : FY} {s : State} {q : Q} (present : s.grp? q.g.id = some q.g) (unbatched : q.g.batches = [])
include present unbatched
theorem sys_answers : ∃ body, exec (.sys o) s = runI (.sys o) body s ∧ body q s =
    if q.g.slotBusy 0 then .wait (.slot 0 0) s
    else .wait (.call 0) (s.issueCall q.g (sysCall o q) (narg o + (if mbit o.mod 3 then 8 else 0) + 16) (callArgs o q.g)) := by
  refine ⟨_, show execSys o s = _ by unfold execSys; rfl, ?_⟩
  exact callRetire_none present unbatched _
theorem sysw_answers : ∃ body, exec (.sysw o) s = runI (.sysw o) body s ∧ body q s =
    if q.g.slotBusy 0 then .wait (.slot 0 0) s else .wait (.call 0) (s.issueCall q.g (syswCall o q) (narg o + 48) (callArgs o q.g)) := by
  refine ⟨_, show execSysw o s = _ by unfold execSysw; rfl, ?_⟩
  exact callRetire_none present unbatched _
theorem sysa_answers : ∃ body, exec (.sysa o) s = runI (.sysa o) body s ∧
    ((¬((q.g.rdS o.yc).toNat < 64 ∧ ∃ tm, s.team? q.g.team = some tm ∧ (tm.port? (q.g.rdS o.yc).toNat).isSome = true) → body q s = trapAll q .access s) ∧
     ((q.g.rdS o.yc).toNat < 64 ∧ (∃ tm, s.team? q.g.team = some tm ∧ (tm.port? (q.g.rdS o.yc).toNat).isSome = true) →
       (([1, 2, 3].find? fun n => !q.g.slotBusy n) = none → body q s = .wait (.slot 1 3) s) ∧
       ∀ n, ([1, 2, 3].find? fun n => !q.g.slotBusy n) = some n → body q s = .ok (s.issueCall q.g (sysaCall o q n) (narg o + 32) (callArgs o q.g)))) := by
  have opens {tm : Team} {n : Nat} (low : n < 64) (port : (tm.port? n).isSome = true) : ¬((!(decide (n < 64) && (tm.port? n).isSome)) = true) := by
    rw [decide_eq_true low, port]
    decide
  refine ⟨_, show execSysa o s = _ by unfold execSysa; rfl, fun closed => ?_, fun ⟨low, tm, team, port⟩ => ⟨fun full => ?_, fun n free => ?_⟩⟩
  · dsimp only
    refine if_pos ?_
    cases team : s.team? q.g.team with
    | none => rfl
    | some tm =>
      rw [Bool.not_eq_true', Bool.and_eq_false_iff]
      by_cases low : (q.g.rdS o.yc).toNat < 64
      · exact .inr (Bool.eq_false_iff.mpr fun port => closed ⟨low, tm, team, port⟩)
      · exact .inl (decide_eq_false low)
  · refine (if_neg ?_).trans ((callRetire_none present unbatched _).trans ?_)
    · rw [team]
      exact opens low port
    · dsimp only
      rw [full]
  · refine (if_neg ?_).trans ((callRetire_none present unbatched _).trans ?_)
    · rw [team]
      exact opens low port
    · dsimp only
      rw [free]
      rfl
end
theorem narg_le {i : Instr} {s : State} {q : Q} (performs : Performs i s q) (o : FY) (is : i = .sys o ∨ i = .sysw o ∨ i = .sysa o) : narg o ≤ 4 := by
  rcases is with rfl | rfl | rfl <;> have ok := formed_ok performs rfl
  · unfold sigSys at ok
    simp only [Bool.and_eq_true, decide_eq_true_eq] at ok
    exact ok.1.1.2
  · unfold sigSysw at ok
    simp only [Bool.and_eq_true, decide_eq_true_eq] at ok
    exact ok.1.1.2
  · unfold sigSysa at ok
    simp only [Bool.and_eq_true, decide_eq_true_eq] at ok
    exact ok.1.1.2

/-- Settles O27: the slot's bytes field by field, and the three instructions' waits (R392, R393, R404). -/
theorem serviceCalls : Obligations.ServiceCalls := by
  unfold Obligations.ServiceCalls
  intro o s q unbatched
  have busies {n : Nat} (free : ¬∃ c ∈ q.g.calls, c.slot = n) : q.g.slotBusy n = false := Bool.eq_false_iff.mpr fun busy => free ((slotBusy_iff _ _).mp busy)
  have busyOf {n : Nat} (busy : ∃ c ∈ q.g.calls, c.slot = n) : q.g.slotBusy n = true := (slotBusy_iff _ _).mpr busy
  refine ⟨fun performs free => ?_, fun performs free => ?_, fun busy => ⟨fun performs => ?_, fun performs => ?_⟩, fun performs => ⟨fun closed => ?_, fun opened b1 b2 b3 => ?_, fun n opened low high free below => ?_⟩⟩
  · have present := issuing_grp _ s q performs.issues
    obtain ⟨body, runs, answers⟩ := sys_answers (o := o) present unbatched
    rw [busies free] at answers
    obtain ⟨others, teams, sheets, queued, after, bytes⟩ := issueCall_says (o := o) (c := sysCall o q) (form := narg o + (if mbit o.mod 3 then 8 else 0) + 16)
      (arg := callArg o q.g) present (narg_le performs o (.inl rfl)) rfl rfl (by have := narg_le performs o (.inl rfl); split <;> omega) (show 0 < 256 by decide)
      (show 0 < 2 ^ 32 by decide)
    exact ⟨_, waits_of _ body s _ q _ _ performs runs answers after performs.unstepped (shaped_lanes _ performs.shaped), others, teams, sheets, queued, after, bytes⟩
  · have present := issuing_grp _ s q performs.issues
    obtain ⟨body, runs, answers⟩ := sysw_answers (o := o) present unbatched
    rw [busies free] at answers
    obtain ⟨others, teams, sheets, queued, after, bytes⟩ := issueCall_says (o := o) (c := syswCall o q) (form := narg o + 48)
      (arg := callArg o q.g) present (narg_le performs o (.inr (.inl rfl))) rfl rfl (by have := narg_le performs o (.inr (.inl rfl)); omega)
      (show 0 < 256 by decide) (show 0 < 2 ^ 32 by decide)
    exact ⟨_, waits_of _ body s _ q _ _ performs runs answers after performs.unstepped (shaped_lanes _ performs.shaped), others, teams, sheets, queued, after, bytes⟩
  · have present := issuing_grp _ s q performs.issues
    obtain ⟨body, runs, answers⟩ := sys_answers (o := o) present unbatched
    rw [busyOf busy] at answers
    exact waits_of _ body s s q _ q.g performs runs answers present performs.unstepped (shaped_lanes _ performs.shaped)
  · have present := issuing_grp _ s q performs.issues
    obtain ⟨body, runs, answers⟩ := sysw_answers (o := o) present unbatched
    rw [busyOf busy] at answers
    exact waits_of _ body s s q _ q.g performs runs answers present performs.unstepped (shaped_lanes _ performs.shaped)
  · have present := issuing_grp _ s q performs.issues
    obtain ⟨body, runs, shut, -⟩ := sysa_answers (o := o) present unbatched
    exact trap_of _ body s s q q.g _ _ _ _ performs runs (shut closed) present
  · have present := issuing_grp _ s q performs.issues
    obtain ⟨body, runs, -, answers⟩ := sysa_answers (o := o) present unbatched
    have full : ([1, 2, 3].find? fun n => !q.g.slotBusy n) = none := by
      simp only [List.find?_cons, busyOf b1, busyOf b2, busyOf b3, Bool.not_true, List.find?_nil]
    exact waits_of _ body s s q _ q.g performs runs ((answers opened).1 full) present performs.unstepped (shaped_lanes _ performs.shaped)
  · have present := issuing_grp _ s q performs.issues
    obtain ⟨body, runs, -, answers⟩ := sysa_answers (o := o) present unbatched
    have first : ([1, 2, 3].find? fun n => !q.g.slotBusy n) = some n := by
      simp only [List.find?_cons]
      interval_cases n
      · rw [busies free]; rfl
      · rw [busyOf (below 1 (by decide) (by decide)), busies free]; rfl
      · rw [busyOf (below 1 (by decide) (by decide)), busyOf (below 2 (by decide) (by decide)), busies free]; rfl
    obtain ⟨others, teams, sheets, queued, after, bytes⟩ := issueCall_says (o := o) (c := sysaCall o q n) (form := narg o + 32)
      (arg := callArg o q.g) present (narg_le performs o (.inr (.inr rfl))) rfl rfl (by have := narg_le performs o (.inr (.inr rfl)); omega)
      (show (q.g.rdS o.yc).toNat < 256 by have := opened.1; omega) (Nat.mod_lt _ (by decide))
    rw [slotAddr_eq] at queued bytes
    exact ⟨_, goes_of _ body s _ q _ performs runs ((answers opened).2 n first) after performs.unstepped (shaped_lanes _ performs.shaped), others, teams, sheets,
      queued, after, bytes⟩

end Sys2Proof.Proofs


/-!
The engine with nothing to wait for (R206, R207): an instruction that enters the open batch is executed at once.
-/
namespace Sys2Proof.Proofs
open Sys2Proof Sys2Proof.Machine Sys2Proof.Laws

/-! ### One entry and its execution -/

/-- The batch with an instruction that waits. -/
def enteredBatch (b : Batch) (op : MOp) : Batch :=
  { b with count := b.count + 1, todo := [op], written := b.written ++ op.writes, pages := b.pages ++ op.pages }
/-- The batch when the engine has executed it. -/
def executedBatch (b : Batch) (op : MOp) (e : Eff) : Batch :=
  { b with
    count := b.count + 1, todo := [], written := b.written ++ op.writes, pages := b.pages ++ op.pages
    pend := { m := some e.m, vregs := b.pend.vregs ++ e.vregs, mem := b.pend.mem ++ e.mem, scratch := b.pend.scratch ++ e.scratch
              fl := b.pend.fl ||| e.fl } }
/-- The group whose one batch is the one given. -/
def batchGroup (g : Group) (b : Batch) : Group := { g with batches := [b] }
theorem readScr_idle (g : Group) (t : Team) (b : Batch) (idle : b.todo = []) : (batchGroup g b).readScr t = batchGroup g b := by
  unfold Group.readScr
  refine if_pos ?_
  show ([b].all fun b => b.todo.isEmpty) = true
  rw [List.all_cons, idle]
  rfl
theorem failedIn_idle {t : Team} (failed : t.failed = []) (cs : List Nat) : t.failedIn cs = none := failedIn_none failed cs
theorem anyAbsent_idle {t : Team} (absent : t.absent = []) (cs : List Nat) : t.anyAbsent cs = false := by
  unfold Team.anyAbsent
  rw [absent]
  rfl
/-- What the engine reads of the group and its core. -/
theorem engState_batch (g : Group) (b : Batch) (c : Core) : (batchGroup g b).engState c = b.pend.m.getD c.mstate := by
  unfold Group.engState batchGroup
  dsimp only
  cases m : b.pend.m <;> simp [m]
theorem engMem_batch (g : Group) (b : Batch) (m : Mem) : (batchGroup g b).engMem m = b.pend.mem.foldl (fun m e => m.store e.1 e.2) m := by
  unfold Group.engMem batchGroup
  dsimp only
  rw [List.flatMap_singleton]
theorem engScratch_batch (g : Group) (b : Batch) (m : Mem) : (batchGroup g b).engScratch m = b.pend.scratch.foldl (fun m e => m.store e.1 e.2) m := by
  unfold Group.engScratch batchGroup
  dsimp only
  rw [List.flatMap_singleton]
/-- The group as the engine executes the instruction: the batch has it, and nothing waits. -/
def runningGroup (g : Group) (b : Batch) (op : MOp) : Group := batchGroup g { enteredBatch b op with todo := [] }
/-- The effect of an instruction on what the engine sees with an idle batch. -/
def idleEff (op : MOp) (g : Group) (b : Batch) (M : MState) (tm : Team) : Eff :=
  op.eff (runningGroup g b op) M (b.pend.mem.foldl (fun m e => m.store e.1 e.2) op.snap) (b.pend.scratch.foldl (fun m e => m.store e.1 e.2) (op.seen tm.scratch))

theorem marks_clean {m : MState} (badT : m.badT = []) (badA : m.badA = []) (xs ys : List (Nat × Nat)) :
    { m with badT := wordsLeft m.badT xs, badA := wordsLeft m.badA ys } = m := by
  obtain ⟨tiles, accs, book, t, a, tags⟩ := m
  dsimp only at badT badA
  subst badT badA
  rfl
theorem runOp_idle {s : State} {g : Group} {b : Batch} {op : MOp} {tm : Team}
    (sound : engCheck (b.pend.m.getD (s.core g.core).mstate) (s.core g.core) tm op = false)
    (clean : (idleEff op g b (b.pend.m.getD (s.core g.core).mstate) tm).m.badT = [] ∧ (idleEff op g b (b.pend.m.getD (s.core g.core).mstate) tm).m.badA = [])
    (residue : (s.core g.core).residueRuns = 0) :
    s.runOp (runningGroup g b op) tm 0 op =
      (s.setGrp (batchGroup g (executedBatch b op (idleEff op g b (b.pend.m.getD (s.core g.core).mstate) tm)))).modCore g.core fun c =>
        { c.charge g.team g.sheet ((if op.accumulates.isSome then 1 else 1) * op.occupancy) with residueRuns := if op.accumulates.isSome then 0 else c.residueRuns } := by
  have core : (runningGroup g b op).core = g.core := rfl
  have state : (runningGroup g b op).engState (s.core g.core) = b.pend.m.getD (s.core g.core).mstate := engState_batch g _ _
  have mem : (runningGroup g b op).engMem op.snap = b.pend.mem.foldl (fun m e => m.store e.1 e.2) op.snap := engMem_batch g _ _
  have scr : (runningGroup g b op).engScratch (op.seen tm.scratch) = b.pend.scratch.foldl (fun m e => m.store e.1 e.2) (op.seen tm.scratch) :=
    engScratch_batch g _ _
  have eff : op.eff (runningGroup g b op) (b.pend.m.getD (s.core g.core).mstate) (b.pend.mem.foldl (fun m e => m.store e.1 e.2) op.snap)
    (b.pend.scratch.foldl (fun m e => m.store e.1 e.2) (op.seen tm.scratch)) = idleEff op g b (b.pend.m.getD (s.core g.core).mstate) tm := rfl
  unfold State.runOp
  dsimp only
  rw [core, state, mem, scr, sound, eff]
  generalize idleEff op g b (b.pend.m.getD (s.core g.core).mstate) tm = e at clean ⊢
  rw [marks_clean clean.1 clean.2, residue]
  have three : (op.accumulates.isSome && decide (3 ≤ 0)) = false := Bool.and_false _
  rw [three]
  cases op.accumulates.isSome <;> rfl

/-- The engine runs the one instruction that waits. -/
theorem engine_one {s : State} {g : Group} {b : Batch} {op : MOp} {tm : Team} (there : s.grp? g.id = some (batchGroup g (enteredBatch b op)))
    (team : s.team? g.team = some tm) (failed : tm.failed = []) (absent : tm.absent = []) :
    s.engine g.id = (s.setGrp (runningGroup g b op)).runOp (runningGroup g b op) tm 0 op := by
  have len : (batchGroup g (enteredBatch b op)).todoLen = 1 := rfl
  unfold State.engine
  rw [there]
  dsimp only
  rw [len]
  unfold State.engineRun
  rw [there]
  dsimp only
  have first : (batchGroup g (enteredBatch b op)).batches.zipIdx.find? (fun x => !x.1.todo.isEmpty) = some (enteredBatch b op, 0) := rfl
  have found : s.team? (batchGroup g (enteredBatch b op)).team = some tm := team
  rw [first, found]
  dsimp only
  rw [show (enteredBatch b op).todo = [op] from rfl]
  dsimp only
  rw [failedIn_idle failed, anyAbsent_idle absent]
  rfl
/-- Only groups and cores differ. -/
def GroupsCores (t u : State) : Prop := { u with groups := t.groups, cores := t.cores } = t
theorem GroupsCores.trans {t u v : State} (h : GroupsCores t u) (k : GroupsCores u v) : GroupsCores t v := by
  unfold GroupsCores at *
  rw [← k] at h
  exact h
theorem groupsCores_setGrp (t : State) (G : Group) : GroupsCores t (t.setGrp G) := rfl
theorem groupsCores_modGrp (t : State) (id : Nat) (f : Group → Group) : GroupsCores t (t.modGrp id f) := rfl
theorem groupsCores_modCore (t : State) (k : Nat) (f : Core → Core) : GroupsCores t (t.modCore k f) := rfl
/-- What an instruction that enters leaves of the machine: its group, and what the core has been charged. -/
structure Entered (t u : State) (id : Nat) (G : Group) : Prop where
  grp : u.grp? id = some G
  others : ∀ k, k ≠ id → u.grp? k = t.grp? k
  rest : GroupsCores t u
  cores : ∀ c, { u.core c with charges := (t.core c).charges } = t.core c
theorem grp_setGrp_there {t : State} {k : Nat} {g H : Group} (there : t.grp? k = some g) (id : H.id = k) : (t.setGrp H).grp? k = some H := by
  rw [grp_setGrp, if_pos id.symm, there]
  rfl
theorem enqueue_idle {q : Q} {t : State} {g g0 : Group} {b : Batch} {op : MOp} {tm : Team} (gid : g.id = q.g.id) (there : t.grp? q.g.id = some g0)
    (team : t.team? g.team = some tm) (failed : tm.failed = []) (absent : tm.absent = []) (batches : g.batches = [b]) (open_ : b.closed = false)
    (idle : b.todo = []) (sound : engCheck (b.pend.m.getD (t.core g.core).mstate) (t.core g.core) tm op = false)
    (clean : (idleEff op g b (b.pend.m.getD (t.core g.core).mstate) tm).m.badT = [] ∧ (idleEff op g b (b.pend.m.getD (t.core g.core).mstate) tm).m.badA = [])
    (residue : (t.core g.core).residueRuns = 0) :
    ∃ u, enqueue q op g t = .ok u ∧
      Entered t u q.g.id (batchGroup g (executedBatch b op (idleEff op g b (b.pend.m.getD (t.core g.core).mstate) tm))) := by
  have entered : (g.batches.map fun b => if b.closed then b else
      { b with count := b.count + 1, todo := b.todo ++ [op], written := b.written ++ op.writes, pages := b.pages ++ op.pages }) = [enteredBatch b op] := by
    rw [batches, List.map_singleton, if_neg (by rw [open_]; exact Bool.false_ne_true)]
    unfold enteredBatch
    rw [idle]
    rfl
  let g1 := batchGroup g (enteredBatch b op)
  let G := batchGroup g (executedBatch b op (idleEff op g b (b.pend.m.getD (t.core g.core).mstate) tm))
  have id1 : g1.id = q.g.id := gid
  have placed : (t.setGrp g1).grp? q.g.id = some g1 := grp_setGrp_there there id1
  have placed' : (t.setGrp g1).grp? g.id = some g1 := gid.symm ▸ placed
  have engine := engine_one (s := t.setGrp g1) (op := op) placed' team failed absent
  rw [runOp_idle (s := (t.setGrp g1).setGrp (runningGroup g b op)) sound clean residue, gid] at engine
  let u0 := ((t.setGrp g1).setGrp (runningGroup g b op)).setGrp G
  let u := u0.modCore g.core fun c =>
    { c.charge g.team g.sheet ((if op.accumulates.isSome then 1 else 1) * op.occupancy) with
      residueRuns := if op.accumulates.isSome then 0 else c.residueRuns }
  replace engine : (t.setGrp g1).engine q.g.id = u := engine
  have id2 : (runningGroup g b op).id = q.g.id := gid
  have id3 : G.id = q.g.id := gid
  have now : u.grp? q.g.id = some G := grp_setGrp_there (grp_setGrp_there placed id2) id3
  have rest : GroupsCores t u :=
    (((groupsCores_setGrp t g1).trans (groupsCores_setGrp _ (runningGroup g b op))).trans (groupsCores_setGrp _ G)).trans (groupsCores_modCore u0 _ _)
  have cores (c : Nat) : { u.core c with charges := (t.core c).charges } = t.core c := by
    have core : u.core c = if c = g.core then { (t.core g.core).charge g.team g.sheet ((if op.accumulates.isSome then 1 else 1) * op.occupancy) with
        residueRuns := if op.accumulates.isSome then 0 else (t.core g.core).residueRuns } else t.core c := core_modCore u0 g.core c _
    rw [core]
    split
    next is =>
      subst is
      rw [residue]
      generalize t.core g.core = k at residue ⊢
      exact congrArg (fun n => ({ k with residueRuns := n } : Core)) ((ite_self 0).trans residue.symm)
    · rfl
  have base : Entered t u q.g.id G := by
    refine ⟨now, fun k other => ?_, rest, cores⟩
    show u0.grp? k = t.grp? k
    exact (others_setGrp _ G k (id3 ▸ other)).trans ((others_setGrp _ (runningGroup g b op) k (id2 ▸ other)).trans (others_setGrp t g1 k (id1 ▸ other)))
  unfold enqueue
  dsimp only
  rw [show (t.setGrp { g with batches := _ }).engine q.g.id = u from (congrArg (fun bs => (t.setGrp { g with batches := bs }).engine q.g.id) entered).trans engine]
  rw [team]
  have same (x : Group) : (x.readScr tm).id = x.id := by unfold Group.readScr; split <;> rfl
  refine ⟨u.modGrp q.g.id (·.readScr tm), rfl, ?_, fun k other => ?_, rest.trans (groupsCores_modGrp u _ _), cores⟩
  · rw [grp_modGrp u _ _ _ same, if_pos rfl, now]
    exact congrArg some (readScr_idle g tm _ rfl)
  · rw [grp_modGrp u _ _ _ same, if_neg other]
    exact base.others k other

/-! ### The instruction as the statements say it -/

theorem engCheck_clean {m : MState} {c : Core} {t : Team} {op : MOp} (tiles : m.badT = []) (accs : m.badA = []) (residue : c.residueRuns = 0)
    (scratch : t.bad = []) (good : op.bad = false) : engCheck m c t op = false := by
  have words (o n : Nat) : t.badIn o n = false := badIn_none scratch o n
  unfold engCheck wordsHit
  rw [tiles, accs, residue, good]
  simp [words]
/-- An instruction that reaches the engine with nothing to wait for is executed as it enters. -/
theorem executes_of {i : Instr} {body : Q → State → Res} {s t : State} {q : Q} {b : Batch} {tm : Team} {op : MOp} {H : Group} {lanes : List Lane}
    {ro : Option Mem} (idle : EngineIdle s q b tm) (performs : Performs i s q) (runs : exec i s = runI i body s) (touched : Touched s t q H)
    (answers : body q s = enqueue q op { q.g with lanes, roMem := ro } t) (length : lanes.length = q.g.lanes.length) (good : op.bad = false)
    (clean : (idleEff op { q.g with lanes, roMem := ro } b (seenM s q b) tm).m.badT = [] ∧
      (idleEff op { q.g with lanes, roMem := ro } b (seenM s q b) tm).m.badA = []) :
    Executes i s q b op.writes (idleEff op { q.g with lanes, roMem := ro } b (seenM s q b) tm) lanes := by
  obtain ⟨-, batches, open_, -, done, core, team, ⟨failed, absent⟩, scratch, -, tiles, accs, residue⟩ := idle
  have coreOf := touched.cores q.g.core
  have mstate : (t.core q.g.core).mstate = (s.core q.core).mstate := by
    have := congrArg Core.mstate coreOf
    rw [← core]; exact this
  have residues : (t.core q.g.core).residueRuns = 0 := by
    have := congrArg Core.residueRuns coreOf
    rw [← residue, ← core]; exact this
  have seen : b.pend.m.getD (t.core q.g.core).mstate = seenM s q b := by rw [mstate]; rfl
  have teams : t.team? q.g.team = some tm := by
    have := congrArg State.teams touched.rest
    dsimp only at this
    rw [State.team?, this]; exact team
  obtain ⟨u, enters, entered⟩ := enqueue_idle (q := q) (t := t) (g := { q.g with lanes, roMem := ro }) (op := op) rfl touched.grp teams failed absent batches
    open_ done (by rw [show ({ q.g with lanes, roMem := ro } : Group).core = q.g.core from rfl, seen]; exact engCheck_clean tiles accs residues scratch good)
    (by rw [show ({ q.g with lanes, roMem := ro } : Group).core = q.g.core from rfl, seen]; exact clean) residues
  rw [show ({ q.g with lanes, roMem := ro } : Group).core = q.g.core from rfl, seen] at entered
  obtain ⟨v, g, next, continues⟩ := performs_ok i body s u q _ performs (answers.trans enters) entered.grp performs.unstepped
    (length.trans (shaped_lanes _ performs.shaped))
  refine ⟨u, v, _, g, b.pages ++ op.pages, ro, runs.trans next, continues, fun id other => ?_, fun p mem => List.mem_append_left _ mem, ?_, ?_, fun c => ?_, fun c => ?_⟩
  · rw [entered.others id other]
    exact congrArg (Option.map Group.view) (touched.others id other)
  · unfold batchGroup executedBatch
    rw [← done]
  · have rest := entered.rest
    unfold GroupsCores at rest
    have := touched.rest
    rw [← rest] at this
    exact this
  · have charges := congrArg Core.charges (touched.cores c)
    have := touched.cores c
    rw [← entered.cores c, show (t.core c).charges = (s.core c).charges from charges] at this
    exact this
  · have clusters := congrArg State.clusters entered.rest
    dsimp only at clusters
    rw [State.cluster, clusters]
    exact touched.terms c

end Sys2Proof.Proofs


/-!
The statement about accumulators and quantisation (R205, R226, R230 to R233) and the entry of multiplications (R227 to R229).
-/
namespace Sys2Proof.Proofs
open Sys2Proof Sys2Proof.Machine Sys2Proof.Laws

section
variable {i : Instr} {s : State} {q : Q} {b : Batch} {tm : Team}

theorem mayBatch_idle (idle : EngineIdle s q b tm) : mayBatch q = true := by
  have first : q.g.openBatch = some b := by
    unfold Group.openBatch
    rw [idle.batches, List.find?_cons, idle.open_]
    rfl
  unfold mayBatch
  rw [idle.mtx, first]
  exact decide_eq_true idle.room
theorem issueTags_idle (idle : EngineIdle s q b tm) : q.g.issueTags (s.core q.core) = (seenM s q b).tags := by
  unfold Group.issueTags Group.engState
  rw [idle.batches, List.flatMap_singleton, idle.done]
  show ((([b].filterMap fun b => b.pend.m).getLast?).getD (s.core q.core).mstate).tags = _
  unfold seenM
  cases m : b.pend.m <;> simp [m]
theorem tagIs_idle (idle : EngineIdle s q b tm) (c : BitVec 4) (tag : Nat) : tagIs q s c tag = ((seenM s q b).tags.getD c.toNat none == some tag) := by
  unfold tagIs
  rw [issueTags_idle idle]
/-- What the engine reads of captured registers does not depend on what the batch still waits for. -/
theorem engV_running (idle : EngineIdle s q b tm) (op op' : MOp) (r L : Nat) : (runningGroup q.g b op).engV op' r L = q.g.engV op' r L := by
  unfold Group.engV
  rw [idle.batches]
  rfl
theorem batchOp_executes {tagged : Q → State → Bool} {regs : List Nat} (idle : EngineIdle s q b tm) (performs : Performs i s q)
    (runs : exec i s = runI i (batchOp i tagged regs) s) (tag : tagged q s = true)
    (clean : (idleEff { i, regs := capture q.g regs } q.g b (seenM s q b) tm).m.badT = [] ∧
      (idleEff { i, regs := capture q.g regs } q.g b (seenM s q b) tm).m.badA = []) :
    Executes i s q b (MOp.writes { i, regs := capture q.g regs }) (idleEff { i, regs := capture q.g regs } q.g b (seenM s q b) tm) q.g.lanes := by
  refine executes_of (lanes := q.g.lanes) (ro := q.g.roMem) idle performs runs (.refl performs.issues) ?_ rfl rfl clean
  unfold batchOp
  rw [mayBatch_idle idle, tag]
  rfl
theorem batchOp_traps {tagged : Q → State → Bool} {regs : List Nat} (performs : Performs i s q) (runs : exec i s = runI i (batchOp i tagged regs) s)
    (tag : tagged q s = false) : Traps i s q .matrixState q.sub 0#64 0 s := by
  refine trap_of i _ s s q q.g _ _ _ _ performs runs ?_ (issuing_grp i s q performs.issues)
  unfold batchOp
  rw [tag]
  exact if_pos (Bool.or_true _)
end
theorem effCwr_regs {g h : Group} {op : MOp} (same : ∀ r L, g.engV op r L = h.engV op r L) (o : FX) (m : MState) : effCwr o g op m = effCwr o h op m := by
  unfold effCwr
  simp only [same]
theorem effMmak_regs {g h : Group} {op : MOp} (same : ∀ r L, g.engV op r L = h.engV op r L) (code : Nat) (o : FX) (m : MState) :
    effMmak code o g op m = effMmak code o h op m := by
  unfold effMmak Group.scaleByte
  simp only [same]
theorem effMmacb_regs {g h : Group} {op : MOp} (same : ∀ r L, g.engV op r L = h.engV op r L) (o : FX) (m : MState) :
    effMmacb o g op m = effMmacb o h op m := by
  unfold effMmacb Group.scaleByte
  simp only [same]
theorem effDqnt_regs {g h : Group} {op : MOp} (same : ∀ r L, g.engV op r L = h.engV op r L) (o : FX) (m : MState) (scr : Mem) :
    effDqnt o g op m scr = effDqnt o h op m scr := by
  unfold effDqnt Group.scaleByte
  simp only [same]

/-- The statement of an effect from `batchOp_executes`. -/
theorem batchOp_effect {i : Instr} {s : State} {q : Q} {b : Batch} {tm : Team} {tagged : Q → State → Bool} {regs : List Nat} {e : Eff}
    (idle : EngineIdle s q b tm) (performs : Performs i s q) (runs : exec i s = runI i (batchOp i tagged regs) s) (tag : tagged q s = true)
    (eff : idleEff { i, regs := capture q.g regs } q.g b (seenM s q b) tm = e) (badT : e.m.badT = (seenM s q b).badT) (badA : e.m.badA = (seenM s q b).badA) :
    Executes i s q b (MOp.writes { i, regs := capture q.g regs }) e q.g.lanes := by
  subst eff
  obtain ⟨-, -, tiles, accs, -⟩ := idle.good
  exact batchOp_executes idle performs runs tag ⟨badT.trans tiles, badA.trans accs⟩

/-! ### Accumulators (R226, R233) -/

section
variable {s : State} {q : Q} {b : Batch} {tm : Team} (idle : EngineIdle s q b tm) (o : FX)
include idle
theorem czero_executes (performs : Performs (.czero o) s q) :
    Executes (.czero o) s q b [] { m := (seenM s q b).clearAcc o.cd.toNat (xfLo o 2) } q.g.lanes :=
  batchOp_effect idle performs rfl rfl rfl rfl rfl
theorem cwr_executes (performs : Performs (.cwr o) s q) :
    let regs := (List.range (crCols o)).flatMap fun t => if crTag o == 0 then [crReg o t, crReg o t + 1] else [crReg o t]
    Executes (.cwr o) s q b [] (effCwr o q.g { i := .cwr o, regs := capture q.g regs } (seenM s q b)) q.g.lanes := by
  refine batchOp_effect idle performs rfl rfl (effCwr_regs (engV_running idle _ _) o _) ?_ ?_
  · unfold effCwr
    dsimp only
    split <;> rfl
  · unfold effCwr
    dsimp only
    split <;> rfl
theorem crd_executes (performs : Performs (.crd o) s q) (tag : (seenM s q b).tags.getD o.cd.toNat none = some (crTag o)) :
    Executes (.crd o) s q b ((List.range (crCols o)).flatMap fun t => if crTag o == 0 then [crReg o t, crReg o t + 1] else [crReg o t])
      (effCrd o (seenM s q b)) q.g.lanes :=
  batchOp_effect idle performs rfl (by rw [tagIs_idle idle, tag]; exact beq_self_eq_true _) rfl rfl rfl
theorem crd_traps (performs : Performs (.crd o) s q) (tag : (seenM s q b).tags.getD o.cd.toNat none ≠ some (crTag o)) :
    Traps (.crd o) s q .matrixState q.sub 0#64 0 s :=
  batchOp_traps performs rfl (by rw [tagIs_idle idle]; exact beq_false_of_ne tag)
end

/-! ### Quantisation (R230 to R232) -/

section
variable {i : Instr} {s : State} {q : Q} {b : Batch} {tm : Team} (idle : EngineIdle s q b tm)
include idle
theorem chunkCond_idle (op : MOp) (k : Unit → Res) : chunkCond q s op k = k () := by
  unfold chunkCond
  rw [idle.team]
  dsimp only [Option.bind_some]
  rw [failedIn_none idle.chunks.1]
theorem quantOp_traps {o : FX} {rd : Bool} (performs : Performs i s q) (runs : exec i s = runI i (quantOp i o rd) s)
    (bad : (qDesc (q.g.rdS o.sa)).ok tm.s = false) :
    Traps i s q .scratch q.sub (BitVec.ofNat 64 ((q.g.rdS o.sa).toNat % 2 ^ 20)) 0 s := by
  refine trap_of i _ s s q q.g _ _ _ _ performs runs ?_ (issuing_grp i s q performs.issues)
  unfold quantOp
  rw [mayBatch_idle idle, idle.team]
  exact if_pos (by
    show (!(qDesc (q.g.rdS o.sa)).ok tm.s) = true
    rw [bad]; rfl)
theorem quantOp_enters {o : FX} {rd : Bool} (good : (qDesc (q.g.rdS o.sa)).ok tm.s = true) :
    quantOp i o rd q s = enqueue q { i, base := q.g.rdS o.sa, gens := (List.range 64).map fun L => (q.g.lane L).sr
                                     regs := if rd then [] else capture q.g (runRegs o.sb o.bsel.toNat o.bsel.toNat) }
      { q.g with lanes := if rd && qRm o == 4 then q.g.lanes.map fun l => { l with sr := (srDraws 48 l.sr).2 } else q.g.lanes, roMem := q.g.roMem } s := by
  unfold quantOp
  rw [mayBatch_idle idle, idle.team]
  refine (if_neg (by decide)).trans ((if_neg ?_).trans ((chunkCond_idle idle _ _).trans ?_))
  · show ¬((!(qDesc (q.g.rdS o.sa)).ok tm.s) = true)
    rw [good]; decide
  · cases h : (rd && qRm o == 4) <;> rfl
end
/-- The register that a QNT's scales go to, and a DQNT's come from. -/
def scaleReg (o : FX) : List Nat :=
  match o.sb with
  | .v r => [r.toNat + o.bsel.toNat / 4]
  | _ => []
theorem runRegs_one (o : FX) : runRegs o.sb o.bsel.toNat o.bsel.toNat = scaleReg o := by
  unfold runRegs scaleReg
  cases o.sb <;> dsimp only
  rw [Nat.add_sub_cancel_left]
  rfl

/-- Settles O23: each entry's effect is what the engine computes of what it sees (R226, R230 to R233). -/
theorem accumulatorsAndQuantisation : Obligations.AccumulatorsAndQuantisation := by
  unfold Obligations.AccumulatorsAndQuantisation
  refine ⟨fun s q b tm idle o => ⟨czero_executes idle o, cwr_executes idle o, crd_executes idle o, crd_traps idle o⟩,
    fun s q b tm idle o => ⟨fun good => ⟨fun performs => ?_, fun performs => ?_⟩, fun bad => ⟨fun performs => quantOp_traps idle performs rfl bad,
      fun performs => quantOp_traps idle performs rfl bad⟩⟩⟩
  · obtain ⟨-, -, tiles, accs, -⟩ := idle.good
    let lanes := if qRm o = 4 then q.g.lanes.map fun l => { l with sr := (srDraws 48 l.sr).2 } else q.g.lanes
    have drawn : (if true && qRm o == 4 then q.g.lanes.map fun l => { l with sr := (srDraws 48 l.sr).2 } else q.g.lanes) = lanes := by
      by_cases is : qRm o = 4
      · rw [Bool.true_and, beq_iff_eq.mpr is]
        exact (if_pos is).symm
      · rw [Bool.true_and, beq_false_of_ne is]
        exact (if_neg is).symm
    have enters := quantOp_enters (i := .qnt o) idle (rd := true) good
    rw [drawn] at enters
    exact executes_of idle performs rfl (.refl performs.issues) enters (by show lanes.length = _; simp only [lanes]; split <;> simp) rfl ⟨tiles, accs⟩
  · obtain ⟨-, -, tiles, accs, -⟩ := idle.good
    have enters := quantOp_enters (i := .dqnt o) idle (rd := false) good
    let op : MOp := { i := .dqnt o, base := q.g.rdS o.sa, gens := (List.range 64).map fun L => (q.g.lane L).sr, regs := capture q.g (scaleReg o) }
    have enters : quantOp (.dqnt o) o false q s = enqueue q op { q.g with lanes := q.g.lanes, roMem := q.g.roMem } s := by
      rw [runRegs_one] at enters
      exact enters
    have executes := executes_of idle performs rfl (.refl performs.issues) enters rfl rfl ⟨tiles, accs⟩
    have eff : idleEff op q.g b (seenM s q b) tm = effDqnt o q.g op (seenM s q b) (seenScratch tm b) := effDqnt_regs (engV_running idle _ _) o _ _
    rw [show idleEff op { q.g with lanes := q.g.lanes, roMem := q.g.roMem } b (seenM s q b) tm = _ from eff] at executes
    exact executes

end Sys2Proof.Proofs


/-!
The statement about matrix multiplications (R205, R216, R227 to R229): their entry, and the exact sum of an 8-bit integer MMA.
-/
namespace Sys2Proof.Proofs
open Sys2Proof Sys2Proof.Machine Sys2Proof.Laws

/-! ### Lists of fields -/

theorem fieldAt_flatten {α : Type} {k : Nat} {f : α → List Byte} {xs : List α} (each : ∀ x ∈ xs, (f x).length = k) (rest : List Byte) {L off m : Nat} {x : α}
    (at_ : xs[L]? = some x) (le : off + m ≤ k) : fieldAt (xs.flatMap f ++ rest) (k * L + off) m = fieldAt (f x) off m := by
  induction xs generalizing L with
  | nil => cases at_
  | cons y ys ih =>
    have first : (f y).length = k := each y List.mem_cons_self
    rw [List.flatMap_cons, List.append_assoc]
    cases L with
    | zero =>
      cases at_
      rw [Nat.mul_zero, Nat.zero_add, fieldAt_front (by rw [first]; exact le)]
    | succ L =>
      rw [fieldAt_past (by rw [first, Nat.mul_succ]; omega), first, show k * (L + 1) + off - k = k * L + off by rw [Nat.mul_succ]; omega]
      exact ih (fun x mem => each x (List.mem_cons_of_mem _ mem)) at_
theorem length_flatten {α : Type} {k : Nat} {f : α → List Byte} {xs : List α} (each : ∀ x ∈ xs, (f x).length = k) : (xs.flatMap f).length = k * xs.length := by
  rw [List.length_flatMap, List.map_congr_left each, List.map_const', List.sum_replicate, smul_eq_mul, Nat.mul_comm]
theorem numsOf_get (n k : Nat) (bs : List Byte) {j : Nat} (lt : j < k) : (numsOf n k bs)[j]? = some (fieldAt bs (n * j) n) := by
  induction k generalizing bs j with
  | zero => omega
  | succ k ih =>
    rw [numsOf]
    cases j with
    | zero => rw [List.getElem?_cons_zero, Nat.mul_zero, fieldAt, List.drop_zero]
    | succ j =>
      rw [List.getElem?_cons_succ, ih _ (by omega), fieldAt, fieldAt, List.drop_drop, Nat.mul_succ, Nat.add_comm]
theorem length_numsOf (n k : Nat) (bs : List Byte) : (numsOf n k bs).length = k := by
  induction k generalizing bs with
  | zero => rfl
  | succ k ih => rw [numsOf, List.length_cons, ih]
theorem fieldAt_bulk {m : Mem} (wf : Memory.wf m = true) (base : Nat) {N a n : Nat} (le : a + n ≤ N) : fieldAt (m.bulk base N) a n = m.loadNat (base + a) n := by
  rw [bulk_eq_load m base N wf, fieldAt, Mem.loadNat]
  congr 1
  refine List.ext_getElem (by simp only [Mem.load, List.length_take, List.length_drop, List.length_map, List.length_range]; omega) fun i h1 h2 => ?_
  simp only [Mem.load, List.getElem_take, List.getElem_drop, List.getElem_map, List.getElem_range, Nat.add_assoc]
theorem fieldAt_drop (bs : List Byte) (a b n : Nat) : fieldAt (bs.drop a) b n = fieldAt bs (a + b) n := by
  rw [fieldAt, fieldAt, List.drop_drop]
theorem loadNat_byte (m : Mem) (a n : Nat) {k : Nat} (lt : k < n) : m.loadNat a n / 2 ^ (8 * k) % 2 ^ 8 = (m.read (a + k)).toNat := by
  rw [Mem.loadNat, ← leNat_drop, show (2 : Nat) ^ 8 = 2 ^ (8 * 1) from rfl, ← leNat_take]
  have one : ((m.load a n).drop k).take 1 = [m.read (a + k)] := by
    refine List.ext_getElem (by simp only [Mem.load, List.length_take, List.length_drop, List.length_map, List.length_range, List.length_singleton]; omega) fun i h1 h2 => ?_
    have zero : i = 0 := by simpa using h2
    subst zero
    simp only [Mem.load, List.getElem_take, List.getElem_drop, List.getElem_map, List.getElem_range, List.getElem_singleton, Nat.add_zero]
  rw [one]
  rfl

/-! ### An 8-bit integer MMA (R216, R227) -/

theorem mClass_int8 {fa fb : Nat} (a : fa = 10 ∨ fa = 11) (b : fb = 10 ∨ fb = 11) : mClass fa fb = some .i8 := by
  rcases a with rfl | rfl <;> rcases b with rfl | rfl <;> rfl
theorem fmtView_int8 {f : Nat} (is : f = 10 ∨ f = 11) : viewOf (fmtView f) = { w := 8, rows := 64, elems := 192, rb := 192 } := by
  rcases is with rfl | rfl <;> rfl
/-- Element k of row r of a tile of 8-bit integers. -/
def int8Elem (M : MState) (t code r k : Nat) : Int :=
  let x := M.tiles.read (t * 12288 + 192 * r + k)
  if code = 10 then x.toInt else (x.toNat : Int)
theorem readInt_int8 {code : Nat} (is : code = 10 ∨ code = 11) (x : Byte) :
    readInt x.toNat 8 (code % 2 == 0) = if code = 10 then x.toInt else (x.toNat : Int) := by
  rw [readInt_bits 8 _ _ (by decide), BitVec.ofNat_toNat, BitVec.setWidth_eq]
  rcases is with rfl | rfl <;> rfl
/-- The rows of a tile of integers. -/
def intRows (M : MState) (t code : Nat) : List (List Int) :=
  (M.tileRows t (viewOf (fmtView code))).map fun x => (unpackElems (viewOf (fmtView code)).w (viewOf (fmtView code)).elems x).map fun e =>
    readInt e (viewOf (fmtView code)).w (code % 2 == 0)
theorem int8_row {M : MState} (wf : Memory.wf M.tiles = true) (t : Nat) {code r : Nat} (is : code = 10 ∨ code = 11) (lt : r < 64) :
    (intRows M t code)[r]? = some ((List.range 192).map (int8Elem M t code r)) := by
  unfold intRows MState.tileRows unpackElems
  rw [fmtView_int8 is]
  dsimp only
  rw [List.getElem?_map, List.getElem?_map, List.getElem?_range lt, Option.map_some, Option.map_some, List.map_map]
  refine congrArg some (List.map_congr_left fun k mem => ?_)
  have k_lt := List.mem_range.mp mem
  have row := fieldAt_bulk wf (t * tileBytes) (N := tileBytes) (a := 192 * r) (n := 192) (by unfold tileBytes; omega)
  rw [fieldAt] at row
  dsimp only [Function.comp]
  rw [row, loadNat_byte _ _ _ k_lt, readInt_int8 is]
  rfl

theorem length_tileRows (M : MState) (t : Nat) (v : View) : (M.tileRows t v).length = v.rows := by
  unfold MState.tileRows
  rw [List.length_map, List.length_range]
/-- The elements of an integer accumulator. -/
theorem acc_elem {M : MState} (wf : Memory.wf M.accs = true) (c : Nat) {i j : Nat} (hi : i < 64) (hj : j < 64) :
    ∃ row, (M.accRows c 3)[i]? = some row ∧ row[j]? = some (M.accs.loadNat (c * 16384 + 4 * (64 * i + j)) 4) := by
  refine ⟨numsOf 4 64 ((M.accs.bulk (c * accBytes) (64 * 64 * 4)).drop (i * 64 * 4)), ?_, ?_⟩
  · unfold MState.accRows
    rw [List.getElem?_map]
    exact congrArg (Option.map _) (List.getElem?_range hi)
  · rw [numsOf_get 4 64 _ hj, fieldAt_drop, fieldAt_bulk wf _ (by omega)]
    unfold accBytes
    rw [show c * 16384 + (i * 64 * 4 + 4 * j) = c * 16384 + 4 * (64 * i + j) by omega]
theorem accRows_lengths (M : MState) (c : Nat) : (M.accRows c 3).length = 64 ∧ ∀ r ∈ M.accRows c 3, r.length = 64 := by
  refine ⟨List.length_map _ |>.trans List.length_range, fun r mem => ?_⟩
  obtain ⟨i, -, rfl⟩ := List.mem_map.mp mem
  exact length_numsOf _ _ _
/-- One element of an integer accumulation, saturated once. -/
def int8Sum (x : Nat) (ra cb : List Int) : Int := clampTo 32 true (readInt x 32 true + (List.zipWith (· * ·) ra cb).foldl (· + ·) 0)
theorem intAcc_elem {a b : List (List Int)} {acc : List (List Nat)} {i j : Nat} {ra cb : List Int} {rc : List Nat} {x : Nat} (ha : a[i]? = some ra)
    (hb : b[j]? = some cb) (hc : acc[i]? = some rc) (hx : rc[j]? = some x) :
    ∃ row, ((intAcc a b acc).map fun r => r.map (·.bits))[i]? = some row ∧ row[j]? = some (wrapNat (int8Sum x ra cb) 32) := by
  unfold intAcc
  refine ⟨_, by rw [List.getElem?_map, List.getElem?_zipWith, ha, hc]; rfl, ?_⟩
  rw [List.getElem?_map, List.getElem?_zipWith, hb, hx]
  dsimp only [Option.map_some]
  rw [satInt_eq]
  rfl
theorem intAcc_lengths {a b : List (List Int)} {acc : List (List Nat)} {n : Nat} (hb : b.length = n) (hc : ∀ r ∈ acc, r.length = n) :
    ∀ r ∈ (intAcc a b acc).map fun r => r.map (·.bits), r.length = n := by
  intro r mem
  obtain ⟨row, of, rfl⟩ := List.mem_map.mp mem
  unfold intAcc at of
  obtain ⟨i, at_⟩ := List.mem_iff_getElem?.mp of
  rw [List.getElem?_zipWith] at at_
  cases ha : a[i]? with
  | none => rw [ha] at at_; cases at_
  | some ra =>
    cases hr : acc[i]? with
    | none => rw [ha, hr] at at_; cases at_
    | some rc =>
      rw [ha, hr] at at_
      cases at_
      rw [List.length_map, List.length_zipWith, hb, hc rc (List.mem_of_getElem? hr), Nat.min_self]
/-- What an accumulator holds after its rows have been written. -/
theorem setAccRows_elem {M : MState} {c i j : Nat} {rows : List (List Nat)} {row : List Nat} {x : Nat} (lengths : ∀ r ∈ rows, r.length = 64)
    (hi : rows[i]? = some row) (hj : row[j]? = some x) (lt : j < 64) :
    (M.setAccRows c 3 rows).accs.loadNat (c * 16384 + 4 * (64 * i + j)) 4 = x % 2 ^ 32 := by
  have outer : ∀ r ∈ rows, (r.flatMap (leBytes 4)).length = 256 := fun r mem => by
    rw [length_flatten (k := 4) fun x _ => length_leBytes 4 x, lengths r mem]
  have inside : i < rows.length := (List.getElem?_eq_some_iff.mp hi).1
  unfold MState.setAccRows tagBytes accBytes
  rw [loadNat_store_inside _ _ _ (by
    show 4 * (64 * i + j) + 4 ≤ (rows.flatMap fun r => r.flatMap (leBytes 4)).length
    rw [length_flatten outer]; omega)]
  show fieldAt (rows.flatMap fun r => r.flatMap (leBytes 4)) _ 4 = _
  rw [show 4 * (64 * i + j) = 256 * i + 4 * j by omega, ← List.append_nil (rows.flatMap _), fieldAt_flatten outer [] hi (by omega),
    ← List.append_nil (row.flatMap _), ← Nat.add_zero (4 * j), fieldAt_flatten (fun x _ => length_leBytes 4 x) [] hj (by decide)]
  have := fieldAt_here 4 x []
  rwa [List.append_nil] at this
theorem clampTo_range (x : Int) : -2 ^ 31 ≤ clampTo 32 true x ∧ clampTo 32 true x < 2 ^ 31 := by
  unfold clampTo
  rw [if_pos rfl]
  norm_num
theorem toInt_wrapNat {y : Int} (low : -2 ^ 31 ≤ y) (high : y < 2 ^ 31) : (BitVec.ofNat 32 (wrapNat y 32 % 2 ^ 32)).toInt = y := by
  unfold wrapNat
  rw [BitVec.toInt_eq_toNat_cond, BitVec.toNat_ofNat, Nat.mod_mod]
  split <;> omega
/-- What an integer product's row adds. -/
theorem dot_map (f g : Nat → Int) (ks : List Nat) :
    (List.zipWith (· * ·) (ks.map f) (ks.map g)).foldl (· + ·) 0 = (ks.map fun k => f k * g k).sum := by
  rw [List.zipWith_map, List.zipWith_self, List.sum_eq_foldl]
theorem readInt_word (x : Nat) : readInt x 32 true = (BitVec.ofNat 32 x).toInt := by
  rw [readInt_bits 32 _ _ (by decide)]
  rfl
theorem effMma_int8 {o : FX} {M : MState} (a : xfLo o 5 = 10 ∨ xfLo o 5 = 11) (b : o.xf.toNat / 32 = 10 ∨ o.xf.toNat / 32 = 11) :
    (effMma o M).m = M.setAccRows o.cd.toNat 3
      ((intAcc (intRows M o.ta.toNat (xfLo o 5)) (intRows M o.tb.toNat (o.xf.toNat / 32)) (M.accRows o.cd.toNat 3)).map fun r => r.map (·.bits)) := by
  unfold effMma
  dsimp only
  rw [mClass_int8 a b]
  rfl
/-- R216, R227: each element of the accumulator takes the exact sum of its 192 products, saturated once. -/
theorem int8_mma {o : FX} {M : MState} {i j : Nat} (a : xfLo o 5 = 10 ∨ xfLo o 5 = 11) (b : o.xf.toNat / 32 = 10 ∨ o.xf.toNat / 32 = 11)
    (tiles : Memory.wf M.tiles = true) (accs : Memory.wf M.accs = true) (hi : i < 64) (hj : j < 64) :
    (BitVec.ofNat 32 ((effMma o M).m.accs.loadNat (o.cd.toNat * 16384 + 4 * (64 * i + j)) 4)).toInt =
      clampTo 32 true ((BitVec.ofNat 32 (M.accs.loadNat (o.cd.toNat * 16384 + 4 * (64 * i + j)) 4)).toInt +
        ((List.range 192).map fun k => int8Elem M o.ta.toNat (xfLo o 5) i k * int8Elem M o.tb.toNat (o.xf.toNat / 32) j k).sum) := by
  obtain ⟨rc, rows, elem⟩ := acc_elem accs o.cd.toNat hi hj
  obtain ⟨-, widths⟩ := accRows_lengths M o.cd.toNat
  have rowA := int8_row tiles o.ta.toNat a hi
  have rowB := int8_row tiles o.tb.toNat b hj
  obtain ⟨row, at_, x⟩ := intAcc_elem rowA rowB rows elem
  have lengths := intAcc_lengths (a := intRows M o.ta.toNat (xfLo o 5)) (b := intRows M o.tb.toNat (o.xf.toNat / 32)) (n := 64)
    (by rw [intRows, List.length_map, length_tileRows, fmtView_int8 b]) widths
  rw [effMma_int8 a b]
  refine (congrArg (fun x : Nat => (BitVec.ofNat 32 x).toInt) (setAccRows_elem lengths at_ x hj)).trans ?_
  obtain ⟨low, high⟩ := clampTo_range (readInt (M.accs.loadNat (o.cd.toNat * 16384 + 4 * (64 * i + j)) 4) 32 true +
    (List.zipWith (· * ·) ((List.range 192).map (int8Elem M o.ta.toNat (xfLo o 5) i))
      ((List.range 192).map (int8Elem M o.tb.toNat (o.xf.toNat / 32) j))).foldl (· + ·) 0)
  rw [int8Sum, toInt_wrapNat low high, dot_map, readInt_word]

/-! ### Their entry -/

theorem effMma_tags (o : FX) (M : MState) : (effMma o M).m.badT = M.badT ∧ (effMma o M).m.badA = M.badA := by
  unfold effMma
  dsimp only
  split
  · exact ⟨rfl, rfl⟩
  · split <;> exact ⟨rfl, rfl⟩
section
variable {s : State} {q : Q} {b : Batch} {tm : Team} (idle : EngineIdle s q b tm) (o : FX)
include idle
theorem mma_executes (performs : Performs (.mma o) s q)
    (tag : ∃ cl, mClass (xfLo o 5) (o.xf.toNat / 32) = some cl ∧ (seenM s q b).tags.getD o.cd.toNat none = some cl.tag) :
    Executes (.mma o) s q b [] (effMma o (seenM s q b)) q.g.lanes := by
  obtain ⟨cl, cls, tag⟩ := tag
  obtain ⟨badT, badA⟩ := effMma_tags o (seenM s q b)
  refine batchOp_effect idle performs rfl ?_ rfl badT badA
  rw [cls]
  exact (tagIs_idle idle _ _).trans (beq_iff_eq.mpr tag)
theorem mma_traps (performs : Performs (.mma o) s q)
    (tag : ∀ cl, mClass (xfLo o 5) (o.xf.toNat / 32) = some cl → (seenM s q b).tags.getD o.cd.toNat none ≠ some cl.tag) :
    Traps (.mma o) s q .matrixState q.sub 0#64 0 s := by
  refine batchOp_traps performs rfl ?_
  cases cls : mClass (xfLo o 5) (o.xf.toNat / 32) with
  | none => rfl
  | some cl => exact (tagIs_idle idle _ _).trans (beq_eq_false_iff_ne.mpr (tag cl cls))
/-- MMAK and MMACB enter with the scales that they capture. -/
theorem scaled_executes {i : Instr} {n : Nat} {e : Eff} (performs : Performs i s q) (runs : exec i s = runI i (mmakOp i o n) s)
    (tag : (seenM s q b).tags.getD o.cd.toNat none = some 2) (eff : idleEff { i, regs := capture q.g (scaleRegs o n) } q.g b (seenM s q b) tm = e)
    (badT : e.m.badT = (seenM s q b).badT) (badA : e.m.badA = (seenM s q b).badA)
    (writes : MOp.writes { i, regs := capture q.g (scaleRegs o n) } = []) : Executes i s q b [] e q.g.lanes :=
  writes ▸ batchOp_effect idle performs runs ((tagIs_idle idle _ _).trans (beq_iff_eq.mpr tag)) eff badT badA
theorem scaled_traps {i : Instr} {n : Nat} (performs : Performs i s q) (runs : exec i s = runI i (mmakOp i o n) s)
    (tag : (seenM s q b).tags.getD o.cd.toNat none ≠ some 2) : Traps i s q .matrixState q.sub 0#64 0 s :=
  batchOp_traps performs runs ((tagIs_idle idle _ _).trans (beq_eq_false_iff_ne.mpr tag))
end

/-- Settles O24: what the engine computes of its own copies (R205, R228, R229), and the exact sums of an 8-bit integer MMA (R216, R227). -/
theorem matrixMultiplications : Obligations.MatrixMultiplications := by
  unfold Obligations.MatrixMultiplications
  refine ⟨fun s q b tm idle o => ⟨mma_executes idle o, mma_traps idle o, fun tag i mem performs => ?_, fun tag => ⟨fun performs => ?_, fun performs => ?_,
    fun performs => ?_, fun performs => ?_, fun performs => ?_, fun performs => ?_⟩⟩, fun o M i j a b tiles accs hi hj => int8_mma a b tiles accs hi hj⟩
  · simp only [List.mem_cons, List.not_mem_nil, or_false] at mem
    rcases mem with rfl | rfl | rfl | rfl | rfl | rfl <;> exact scaled_traps idle o performs rfl tag
  · exact scaled_executes idle o performs rfl tag (effMmak_regs (engV_running idle _ _) 5 o _) rfl rfl rfl
  · exact scaled_executes idle o performs rfl tag (effMmak_regs (engV_running idle _ _) 6 o _) rfl rfl rfl
  · exact scaled_executes idle o performs rfl tag (effMmak_regs (engV_running idle _ _) 7 o _) rfl rfl rfl
  · exact scaled_executes idle o performs rfl tag (effMmak_regs (engV_running idle _ _) 8 o _) rfl rfl rfl
  · exact scaled_executes idle o performs rfl tag (effMmak_regs (engV_running idle _ _) 9 o _) rfl rfl rfl
  · exact scaled_executes idle o performs rfl tag (effMmacb_regs (engV_running idle _ _) o _) rfl rfl rfl

end Sys2Proof.Proofs


/-!
The statement about batch control (R198, R206, R208, R234 to R236): what retirement writes, and the three instructions.
-/
namespace Sys2Proof.Proofs
open Sys2Proof Sys2Proof.Machine Sys2Proof.Laws

/-! ### What retirement writes (R208) -/

/-- A group but for its vector registers, what is bad of them, and its latches. -/
def VectorsOnly (g h : Group) : Prop := { h with vregs := g.vregs, badV := g.badV, latches := g.latches } = g
theorem VectorsOnly.trans {g h k : Group} (a : VectorsOnly g h) (b : VectorsOnly h k) : VectorsOnly g k := by
  unfold VectorsOnly at *
  rw [← b] at a
  exact a
/-- One pending register. -/
def commitOne (h : Group) (e : Nat × List (Option (Word × Word))) : Group :=
  (h.setV e.1 (maskOf h.width fun L => (e.2.getD L none).isSome) ((List.range h.width).map fun L => overlay [e] e.1 L (h.v e.1 L))).killV e.1 1
theorem commitV_cons (g : Group) (e : Nat × List (Option (Word × Word))) (ps : List (Nat × List (Option (Word × Word)))) :
    g.commitV (e :: ps) = (commitOne g e).commitV ps := rfl
theorem commitOne_only (g : Group) (e : Nat × List (Option (Word × Word))) : VectorsOnly g (commitOne g e) := rfl
theorem commitOne_length (g : Group) (e : Nat × List (Option (Word × Word))) : (commitOne g e).vregs.length = g.vregs.length := List.length_modify ..
theorem overlay_one (e : Nat × List (Option (Word × Word))) (r L : Nat) (x : Word) (off : r ≠ e.1 ∨ e.2.getD L none = none) : overlay [e] r L x = x := by
  unfold overlay
  rw [List.foldl_cons, List.foldl_nil]
  rcases off with other | none_
  · exact if_neg (by rw [beq_iff_eq]; exact other.symm)
  · rw [none_]
    exact ite_self x
theorem commitOne_v {g : Group} (e : Nat × List (Option (Word × Word))) {r L : Nat} (width : g.width ≤ 64) (lt : r < g.vregs.length) (inside : L < g.width) :
    (commitOne g e).v r L = overlay [e] r L (g.v r L) := by
  show (g.setV e.1 _ _).v r L = _
  by_cases here : r = e.1
  · subst here
    rw [v_setV g _ _ _ _ _ lt inside, getLsbD_maskOf _ width]
    cases held : e.2.getD L none with
    | none => rw [overlay_one e _ L _ (.inr held)]; exact if_neg (by simp)
    | some x =>
      rw [if_pos ⟨rfl, by simp [inside]⟩, List.getD_eq_getElem?_getD, List.getElem?_map, List.getElem?_range inside]
      rfl
  · rw [v_setV_other g _ _ _ here, overlay_one e _ L _ (.inl here)]
theorem commitV_only (ps : List (Nat × List (Option (Word × Word)))) (g : Group) : VectorsOnly g (g.commitV ps) := by
  induction ps generalizing g with
  | nil => rfl
  | cons e ps ih => exact (commitOne_only g e).trans (ih (commitOne g e))
theorem commitV_v (ps : List (Nat × List (Option (Word × Word)))) {g : Group} {r L : Nat} (width : g.width ≤ 64) (lt : r < g.vregs.length)
    (inside : L < g.width) : (g.commitV ps).v r L = overlay ps r L (g.v r L) := by
  induction ps generalizing g with
  | nil => rfl
  | cons e ps ih =>
    rw [commitV_cons, ih (g := commitOne g e) width (by rw [commitOne_length]; exact lt) inside, commitOne_v e width lt inside]
    rfl
/-- What the batch holds for the scratchpad. -/
theorem scratchCommit_only (es : List (Nat × List Byte)) {t : Team} (bad : t.bad = []) :
    let u := es.foldl (fun u e => u.scratchStore e.1 e.2) t
    ScratchOnly t u ∧ u.scratch = es.foldl (fun m e => m.store e.1 e.2) t.scratch := by
  induction es generalizing t with
  | nil => exact ⟨rfl, rfl⟩
  | cons e es ih =>
    obtain ⟨only, bad', scratch⟩ := scratchStore_only bad e.1 e.2
    obtain ⟨rest, stores⟩ := ih bad'
    exact ⟨only.trans rest, by rw [List.foldl_cons, stores, scratch]; rfl⟩
theorem scratchCommit_id (es : List (Nat × List Byte)) (t : Team) : (es.foldl (fun u e => u.scratchStore e.1 e.2) t).id = t.id := by
  induction es generalizing t with
  | nil => rfl
  | cons e es ih => exact ih (t.scratchStore e.1 e.2)
/-- What the batch holds for memory. -/
theorem written_commit (sheet : Nat) (es : List (Nat × List Byte)) (s : State) :
    Written s (es.foldl (fun u e => u.sheetStore sheet e.1 e.2) s) ∧
    (es.foldl (fun u e => u.sheetStore sheet e.1 e.2) s).mem = es.foldl (fun m e => m.store e.1 e.2) s.mem := by
  induction es generalizing s with
  | nil => exact ⟨.refl s, rfl⟩
  | cons e es ih =>
    obtain ⟨written, mem⟩ := written_sheetStore s sheet e.1 e.2
    obtain ⟨rest, memory⟩ := ih (s.sheetStore sheet e.1 e.2)
    exact ⟨written.trans rest, by rw [List.foldl_cons, memory, mem]; rfl⟩
/-- The group as its batch retires. -/
def retiredGroup (g : Group) (b : Batch) (fl : Mask) : Group := { g.commitV b.pend.vregs with batches := [] }.orFlags fl fun _ => b.pend.fl
theorem retiredGroup_fields (g : Group) (b : Batch) (fl : Mask) :
    let h := retiredGroup g b fl
    h.id = g.id ∧ h.width = g.width ∧ h.batches = [] ∧ h.sregs = g.sregs ∧ h.preds = g.preds ∧ h.stepping = g.stepping ∧ h.st = g.st ∧
      h.lanes.length = g.lanes.length := by
  have only := commitV_only b.pend.vregs g
  have field {α : Type} (f : Group → α) (rest : ∀ x y z, f { g.commitV b.pend.vregs with vregs := x, badV := y, latches := z } = f (g.commitV b.pend.vregs)) :
      f (g.commitV b.pend.vregs) = f g := (rest ..).symm.trans (congrArg f only)
  refine ⟨field (·.id) fun _ _ _ => rfl, field (·.width) fun _ _ _ => rfl, rfl, field (·.sregs) fun _ _ _ => rfl, field (·.preds) fun _ _ _ => rfl,
    field (·.stepping) fun _ _ _ => rfl, field (·.st) fun _ _ _ => rfl, ?_⟩
  unfold retiredGroup Group.orFlags Group.modLanes
  rw [List.length_mapIdx]
  exact field (·.lanes.length) fun _ _ _ => rfl
theorem retiredGroup_v (g : Group) (b : Batch) (fl : Mask) {r L : Nat} (width : g.width ≤ 64) (lt : r < g.vregs.length) (inside : L < g.width) :
    (retiredGroup g b fl).v r L = overlay b.pend.vregs r L (g.v r L) := commitV_v b.pend.vregs width lt inside
theorem retiredGroup_flags (g : Group) (b : Batch) (fl : Mask) {L : Nat} (inside : L < g.lanes.length) :
    ((retiredGroup g b fl).lane L).fflags = if fl.getLsbD L then (g.lane L).fflags ||| b.pend.fl else (g.lane L).fflags := by
  have only := commitV_only b.pend.vregs g
  have lanes : (g.commitV b.pend.vregs).lanes = g.lanes := (congrArg Group.lanes only : _)
  unfold retiredGroup Group.orFlags
  rw [lane_modLanes _ _ _ L (by show L < (g.commitV b.pend.vregs).lanes.length; rw [lanes]; exact inside)]
  have lane : ({ g.commitV b.pend.vregs with batches := [] } : Group).lane L = g.lane L := by
    unfold Group.lane
    exact congrArg (fun ls : List Lane => ls.getD L { }) lanes
  rw [lane]
  split <;> rfl
/-- The state after the only batch of a resident group has retired. -/
theorem commitBatch_parts {s : State} {g : Group} {t : Team} {b : Batch} (fl : Mask) (found : s.grp? g.id = some g) (team : s.team? g.team = some t)
    (bad : t.bad = []) (resident : g.st = .resident) :
    let u := s.commitBatch g b [] fl
    u.grp? g.id = some (retiredGroup g b fl) ∧ u.mem = b.pend.mem.foldl (fun m e => m.store e.1 e.2) s.mem ∧
      (∃ t', u.team? g.team = some t' ∧ t'.scratch = b.pend.scratch.foldl (fun m e => m.store e.1 e.2) t.scratch) ∧
      (u.core g.core).mstate = b.pend.m.getD (s.core g.core).mstate := by
  obtain ⟨id, -, -, -, -, -, st, -⟩ := retiredGroup_fields g b fl
  obtain ⟨only, scratch⟩ := scratchCommit_only b.pend.scratch bad
  have put : s.putGrp g (retiredGroup g b fl) = s.setGrp (retiredGroup g b fl) := by
    unfold State.putGrp
    rw [st, resident]
    rfl
  let t' : Team := b.pend.scratch.foldl (fun u e => u.scratchStore e.1 e.2) t
  let s1 := (s.setGrp (retiredGroup g b fl)).modCore g.core fun c => { c with mstate := b.pend.m.getD c.mstate }
  let s2 := s1.modTeam g.team fun t => b.pend.scratch.foldl (fun u e => u.scratchStore e.1 e.2) t
  have group : s2.grp? g.id = some (retiredGroup g b fl) := grp_set_here (s := s) (g := g) found id rfl
  have newTeam : s2.team? g.team = some t' := by
    have teams := team_modTeam s1 g.team g.team _ (scratchCommit_id b.pend.scratch)
    rw [if_pos rfl, show s1.team? g.team = some t from team] at teams
    exact teams
  obtain ⟨written, memory⟩ := written_commit g.sheet b.pend.mem s2
  let s3 := b.pend.mem.foldl (fun u e => u.sheetStore g.sheet e.1 e.2) s2
  let as := linePieces (b.pend.mem.map fun e => (e.1, e.2.length))
  have quiet : Quiet s3 (s3.useCaches g.core .store as as) := quiet_useCaches s3 g.core .store as as
  have is : s.commitBatch g b [] fl = s3.useCaches g.core .store as as := by
    show ((b.pend.mem.foldl (fun u e => u.sheetStore g.sheet e.1 e.2)
      (((s.putGrp g (retiredGroup g b fl)).modCore g.core fun c => { c with mstate := b.pend.m.getD c.mstate }).modTeam g.team fun t =>
        b.pend.scratch.foldl (fun u e => u.scratchStore e.1 e.2) t)).useCaches g.core .store as as) = _
    rw [put]
  rw [is]
  have all := written.trans (Quiet.written quiet)
  obtain ⟨rest, cores, -⟩ := all.traffic
  refine ⟨(all.grp g.id).trans group, ?_, ⟨t', ?_, scratch⟩, ?_⟩
  · exact ((congrArg State.mem quiet.1 : _)).trans memory
  · rw [← newTeam]
    exact congrArg (fun ts : List Team => ts.find? (·.id == g.team)) (congrArg State.teams rest : _)
  · refine ((congrArg Core.mstate (cores g.core) : _)).trans ?_
    show (s1.core g.core).mstate = _
    rw [core_modCore, if_pos rfl]
    rfl

/-! ### MWAIT (R208, R211, R235) -/

theorem retireTo_empty {s : State} {gid : Nat} {g : Group} (found : s.grp? gid = some g) (empty : g.batches = []) (n : Nat) (fl : Mask) (k : Nat) :
    s.retireTo gid n fl k = .done s := by
  cases k with
  | zero => rfl
  | succ k =>
    unfold State.retireTo
    rw [found]
    dsimp only
    rw [empty]
    cases s.team? g.team <;> rfl
/-- What a group's only batch comes to. -/
theorem retire_one {s : State} {g : Group} {b : Batch} {tm : Team} (found : s.grp? g.id = some g) (batches : g.batches = [b]) (closed : b.closed = true)
    (team : s.team? g.team = some tm) (fl : Mask) :
    s.retire g.id 0 fl = match b.failure s g tm with
      | some (c, a) => .fail c a
      | none => if !b.todo.isEmpty || tm.anyAbsent (b.pend.scratch.flatMap fun e => chunksOf e.1 e.2.length) then .wait s
          else (s.commitBatch g b [] fl).retireTo g.id 0 fl 4 := by
  have only : g.closed = [b] := by
    unfold Group.closed
    rw [batches, List.filter_cons_of_pos closed]
    rfl
  show s.retireTo g.id 0 fl (4 + 1) = _
  rw [State.retireTo, found]
  dsimp only
  rw [team, batches, only]
  dsimp only
  refine (if_neg (show ¬([b] : List Batch).length ≤ 0 from Nat.not_succ_le_zero 0)).trans ?_
  show (match (([b] : List Batch).take 1).findSome? fun x => x.failure s g tm with
    | some (c, a) => Retire.fail c a
    | none => _) = _
  rw [List.take_one, List.head?_cons, Option.toList_some, List.findSome?_singleton]
theorem emptied {s : State} {g : Group} (found : s.grp? g.id = some g) :
    (s.modGrp g.id fun g => { g with batches := [] }).grp? g.id = some { g with batches := [] } := by
  have here := grp_modGrp s g.id g.id (fun g => { g with batches := [] }) fun _ => rfl
  rw [if_pos rfl, found] at here
  exact here

section
variable {s : State} {q : Q} {o : FY} {b : Batch} {tm : Team} (performs : Performs (.mwait o) s q) (plain : o.mod = 0#6) (all : o.code = 0#16)
  (matrix : q.g.matrix = true) (batches : q.g.batches = [b]) (closed : b.closed = true) (team : s.team? q.g.team = some tm)
include performs plain all matrix batches closed team
theorem mwait_fails {c : Cause} {a : DWord} (failed : b.fail = some (c, a)) :
    Traps (.mwait o) s q c q.sub a 0 (s.modGrp q.g.id fun g => { g with batches := [] }) := by
  have found := issuing_grp _ s q performs.issues
  have retires := retire_one found batches closed team q.act
  rw [show b.failure s q.g tm = some (c, a) by unfold Batch.failure; rw [failed]] at retires
  have runs : exec (.mwait o) s = _ := show execMwait o s = _ by unfold execMwait; rfl
  refine trap_of _ _ s _ q { q.g with batches := [] } _ _ _ _ performs runs ?_ (emptied found)
  dsimp only
  rw [matrix, plain, all]
  refine (if_neg (show ¬(false = true) from Bool.false_ne_true)).trans ?_
  rw [show (0#16).toNat = 0 from rfl, retires]
  rfl
theorem mwait_waits (todo : b.todo ≠ []) (fine : b.failure s q.g tm = none) : Waits (.mwait o) s q (.mwait 0 q.act false) s := by
  have found := issuing_grp _ s q performs.issues
  have retires := retire_one found batches closed team q.act
  rw [fine, show b.todo.isEmpty = false from List.isEmpty_eq_false_iff.mpr todo] at retires
  have runs : exec (.mwait o) s = _ := show execMwait o s = _ by unfold execMwait; rfl
  refine waits_of _ _ s s q _ q.g performs runs ?_ found performs.unstepped (shaped_lanes _ performs.shaped)
  dsimp only
  rw [matrix, plain, all]
  refine (if_neg (show ¬(false = true) from Bool.false_ne_true)).trans ?_
  rw [show (0#16).toNat = 0 from rfl, retires]
  rfl
theorem mwait_done (todo : b.todo = []) (fine : b.failure s q.g tm = none) (present : tm.absent = []) (bad : tm.bad = []) (resident : q.g.st = .resident) :
    Goes (.mwait o) s q (s.commitBatch q.g b [] q.act) := by
  have found := issuing_grp _ s q performs.issues
  have retires := retire_one found batches closed team q.act
  obtain ⟨group, -, -, -⟩ := commitBatch_parts (b := b) q.act found team bad resident
  obtain ⟨-, -, empty, -, -, stepping, -, lanes⟩ := retiredGroup_fields q.g b q.act
  rw [fine, todo, anyAbsent_idle present, retireTo_empty group empty] at retires
  have runs : exec (.mwait o) s = _ := show execMwait o s = _ by unfold execMwait; rfl
  refine goes_of _ _ s _ q _ performs runs ?_ group (stepping.trans performs.unstepped) (lanes.trans (shaped_lanes _ performs.shaped))
  dsimp only
  rw [matrix, plain, all]
  refine (if_neg (show ¬(false = true) from Bool.false_ne_true)).trans ?_
  rw [show (0#16).toNat = 0 from rfl, retires]
  rfl
end
/-- Nothing in the machine makes a batch without a mark fail. -/
theorem failure_none {s : State} {g : Group} {tm : Team} {b : Batch} (unmarked : b.fail = none) (failed : tm.failed = []) (bad : s.bad = [])
    (l1 : (s.core g.core).badL1 = []) (regs : g.badV = []) (chunks : tm.bad = []) : b.failure s g tm = none := by
  unfold Batch.failure
  rw [unmarked]
  dsimp only
  rw [failedIn_none failed]
  dsimp only
  refine if_neg ?_
  unfold Group.badByte State.l1BadAny Team.badPart
  rw [bad, l1, regs, chunks]
  simp
/-- With no more closed batches than the wait allows, nothing retires. -/
theorem retire_few {s : State} {g : Group} (found : s.grp? g.id = some g) {n : Nat} (few : (g.batches.filter (·.closed)).length ≤ n) (fl : Mask) :
    s.retire g.id n fl = .done s := by
  show s.retireTo g.id n fl (4 + 1) = _
  rw [State.retireTo, found]
  dsimp only
  split
  · exact if_pos few
  · rfl
theorem openBatch_none {g : Group} (closed : ∀ b ∈ g.batches, b.closed = true) : g.openBatch = none :=
  List.find?_eq_none.mpr fun b mem => by rw [closed b mem]; decide
theorem mwait_goesOn {s : State} {q : Q} {o : FY} (performs : Performs (.mwait o) s q) (matrix : q.g.matrix = true)
    (few : (q.g.batches.filter (·.closed)).length ≤ o.code.toNat) (closed : mbit o.mod 0 = true → ∀ b ∈ q.g.batches, b.closed = true) :
    ∃ u, Goes (.mwait o) s q u ∧ (mbit o.mod 0 = false → u = s) ∧ (mbit o.mod 0 = true → u.grp? q.g.id = some (q.g.takeWaypoint q.sub q.pc)) := by
  have found := issuing_grp _ s q performs.issues
  have retires := retire_few found few q.act
  cases drop : mbit o.mod 0 with
  | false =>
    have runs : exec (.mwait o) s = _ := show execMwait o s = _ by unfold execMwait; rfl
    refine ⟨s, goes_same _ _ s s q performs runs ?_ rfl, fun _ => rfl, (fun h => by cases h)⟩
    dsimp only
    rw [matrix, drop, retires]
    rfl
  | true =>
    have here : (s.modGrp q.g.id fun g => g.takeWaypoint q.sub q.pc).grp? q.g.id = some (q.g.takeWaypoint q.sub q.pc) := by
      have here := grp_modGrp s q.g.id q.g.id (fun g => g.takeWaypoint q.sub q.pc) fun _ => rfl
      rw [if_pos rfl, found] at here
      exact here
    have runs : exec (.mwait o) s = _ := show execMwait o s = _ by unfold execMwait; rfl
    refine ⟨_, goes_of _ _ s _ q _ performs runs ?_ here performs.unstepped ?_, (fun h => by cases h), fun _ => here⟩
    · dsimp only
      rw [matrix, drop, openBatch_none (closed drop), retires]
      rfl
    · exact (List.length_mapIdx).trans (shaped_lanes _ performs.shaped)

/-! ### MOPEN and MCLOSE (R198, R206, R234) -/

section
variable {s : State} {q : Q} {o : FY} (performs : Performs (.mopen o) s q) (matrix : q.g.matrix = true) (closed : ∀ b ∈ q.g.batches, b.closed = true)
  (room : q.g.batches.length < 4)
include performs matrix closed room
theorem mopen_opens (holds : ∀ g ∈ s.groups, g.core = q.core → g.team = q.g.team → g.batches ≠ [] → g.id = q.g.id)
    (first : (s.core q.core).mopenQ = [] ∨ (s.core q.core).mopenQ.head? = some q.g.id ∨ q.g.batches ≠ []) :
    Goes (.mopen o) s q ((s.modGrp q.g.id Group.open_).modCore q.core fun c => { c with mopenQ := c.mopenQ.filter (· != q.g.id) }) := by
  have found := issuing_grp _ s q performs.issues
  have here : (s.modGrp q.g.id Group.open_).grp? q.g.id = some q.g.open_ := by
    have here := grp_modGrp s q.g.id q.g.id Group.open_ fun _ => rfl
    rw [if_pos rfl, found] at here
    exact here
  have runs : exec (.mopen o) s = _ := show execMopen o s = _ by unfold execMopen; rfl
  refine goes_of _ _ s _ q q.g.open_ performs runs ?_ here performs.unstepped (shaped_lanes _ performs.shaped)
  dsimp only
  rw [matrix, openBatch_none closed]
  refine (if_neg ?_).trans (if_neg ?_)
  · simpa using room
  · intro blocked
    rw [Bool.or_eq_true, Bool.and_eq_true, List.isEmpty_iff] at blocked
    rcases blocked with others | ⟨ahead, none_⟩
    · split at others
      case h_1 h held =>
        obtain ⟨g, is, rfl⟩ := Option.map_eq_some_iff.mp held
        have meets := List.find?_some is
        simp only [Bool.and_eq_true, beq_iff_eq, Bool.not_eq_true', List.isEmpty_eq_false_iff] at meets
        obtain ⟨⟨core, team⟩, some_⟩ := meets
        exact bne_iff_ne.mp others (holds g (List.mem_of_find?_eq_some is) core team some_)
      case h_2 => cases others
    · cases line : (s.core q.core).mopenQ with
      | nil => rw [line] at ahead; cases ahead
      | cons h rest =>
        rw [line] at ahead first
        rcases first with empty | head | some_
        · cases empty
        · cases head
          simp at ahead
        · exact some_ none_
theorem mopen_waits (held : ∃ g, s.groups.find? (fun g => g.core == q.core && g.team == q.g.team && !g.batches.isEmpty) = some g ∧ g.id ≠ q.g.id) :
    Waits (.mopen o) s q .mopen
      (s.modCore q.core fun c => { c with mopenQ := if c.mopenQ.contains q.g.id then c.mopenQ else c.mopenQ ++ [q.g.id] }) := by
  obtain ⟨g, is, other⟩ := held
  have runs : exec (.mopen o) s = _ := show execMopen o s = _ by unfold execMopen; rfl
  refine waits_of _ _ s _ q _ q.g performs runs ?_ (issuing_grp _ s q performs.issues) performs.unstepped (shaped_lanes _ performs.shaped)
  dsimp only
  rw [matrix, openBatch_none closed, show s.holder q.core q.g.team = some g.id from congrArg (Option.map Group.id) is]
  refine (if_neg ?_).trans (if_pos ?_)
  · simpa using room
  · show (g.id != q.g.id || _) = true
    rw [bne_iff_ne.mpr other]
    rfl
end
theorem mclose_closes {s : State} {q : Q} {o : FY} (performs : Performs (.mclose o) s q) (matrix : q.g.matrix = true)
    (opened : ∃ b ∈ q.g.batches, b.closed = false) :
    GoesAs (.mclose o) s q { q.g with batches := q.g.batches.map fun b => { b with closed := true } } := by
  have runs : exec (.mclose o) s = _ := show execMclose o s = _ by unfold execMclose; rfl
  refine goesAs_of _ _ s q (closeBatch q.g) performs runs ?_ rfl rfl rfl
  obtain ⟨b, mem, is⟩ := opened
  have some_ : q.g.openBatch ≠ none := fun none_ => List.find?_eq_none.mp none_ b mem (by rw [is]; rfl)
  obtain ⟨x, eq⟩ := Option.ne_none_iff_exists'.mp some_
  rw [matrix, eq]
  rfl

/-- Settles O25: holdership by the group found (R198, R206), and the wait for all by what retirement comes to (R208, R211, R234 to R236). -/
theorem batchControl : Obligations.BatchControl := by
  unfold Obligations.BatchControl
  refine ⟨fun o s q matrix => ⟨?_, ?_, ?_⟩, fun o s q b tm performs plain all matrix batches closed team bad l1 regs chunks resident => ⟨?_, ?_, ?_⟩⟩
  · intro performs closed room
    refine ⟨fun holds first => ⟨_, mopen_opens performs matrix closed room holds first, ?_, ?_, rfl, fun c other => ?_, ?_, ?_⟩,
      fun held => ⟨_, mopen_waits performs matrix closed room held, rfl, ?_⟩⟩
    · have here := grp_modGrp s q.g.id q.g.id Group.open_ fun _ => rfl
      rw [if_pos rfl, issuing_grp _ s q performs.issues] at here
      exact here
    · intro id other
      have there := grp_modGrp s q.g.id id Group.open_ fun _ => rfl
      rw [if_neg other] at there
      exact congrArg (Option.map Group.view) there
    · rw [core_modCore, if_neg other]
      rfl
    · rw [core_modCore, if_pos rfl]
      rfl
    · rw [core_modCore, if_pos rfl]
      rfl
    · rw [core_modCore, if_pos rfl]
  · exact fun performs opened => mclose_closes performs matrix opened
  · exact fun performs few closed => mwait_goesOn performs matrix few closed
  · intro todo unmarked failed present _
    have fine := failure_none unmarked failed bad l1 regs chunks
    obtain ⟨t, G, g, runs, goes⟩ := mwait_done performs plain all matrix batches closed team todo fine present chunks resident
    obtain ⟨group, mem, ⟨tn, team', scratch⟩, mstate⟩ := commitBatch_parts (b := b) q.act (issuing_grp _ s q performs.issues) team chunks resident
    have is : G = retiredGroup q.g b q.act := Option.some.inj (goes.before.symm.trans group)
    subst is
    obtain ⟨-, -, empty, sregs, preds, -⟩ := retiredGroup_fields q.g b q.act
    have shape := performs.shaped
    exact ⟨_, t, _, g, tn, runs, goes, empty, sregs, preds,
      fun r L lt inside => retiredGroup_v q.g b q.act (shaped_width _ shape) (by rw [(shaped_vregs _ shape).1]; exact lt) inside,
      fun L inside => retiredGroup_flags q.g b q.act (by rw [shaped_lanes _ shape]; exact inside), mem, team', scratch, mstate⟩
  · exact fun c a failed => mwait_fails performs plain all matrix batches closed team failed
  · exact fun todo unmarked failed => mwait_waits performs plain all matrix batches closed team todo (failure_none unmarked failed bad l1 regs chunks)

end Sys2Proof.Proofs


/-!
The statement about tile instructions (R202, R207, R210, R222 to R226): their entry, and what a plain TLD and TST move.
-/
namespace Sys2Proof.Proofs
open Sys2Proof Sys2Proof.Machine Sys2Proof.Laws

/-! ### What an engine's load sees (R210) -/

/-- Two memories agree on every byte of the ranges. -/
def AgreeOn (m m' : Mem) (es : List (Nat × Nat)) : Prop := ∀ e ∈ es, ∀ x, e.1 ≤ x → x < e.1 + e.2 → m.read x = m'.read x
theorem AgreeOn.store {m m' : Mem} {es : List (Nat × Nat)} (h : AgreeOn m m' es) (a : Nat) (bs : List Byte) :
    AgreeOn (m.store a bs) (m'.store a bs) es := by
  intro e mem x low high
  by_cases inside : a ≤ x ∧ x < a + bs.length
  · obtain ⟨i, rfl⟩ := Nat.exists_eq_add_of_le inside.1
    rw [read_store_inside m a bs i (by omega), read_store_inside m' a bs i (by omega)]
  · rw [read_store_outside m a bs x (by omega), read_store_outside m' a bs x (by omega)]
    exact h e mem x low high
theorem AgreeOn.stores {m m' : Mem} {es : List (Nat × Nat)} (h : AgreeOn m m' es) (ws : List (Nat × List Byte)) :
    AgreeOn (ws.foldl (fun m e => m.store e.1 e.2) m) (ws.foldl (fun m e => m.store e.1 e.2) m') es := by
  induction ws generalizing m m' with
  | nil => exact h
  | cons w ws ih => exact ih (h.store w.1 w.2)
theorem stores_wf {m : Mem} (wf : Memory.wf m = true) (ws : List (Nat × List Byte)) : Memory.wf (ws.foldl (fun m e => m.store e.1 e.2) m) = true := by
  induction ws generalizing m with
  | nil => exact wf
  | cons w ws ih => exact ih (store_wf _ _ _ wf)
theorem AgreeOn.segLoad {m m' : Mem} {es ss : List (Nat × Nat)} (h : AgreeOn m m' es) (wf : Memory.wf m = true) (wf' : Memory.wf m' = true)
    (within : ∀ e ∈ ss, e ∈ es) : m.segLoad ss = m'.segLoad ss := by
  unfold Mem.segLoad
  refine List.flatMap_congr fun e mem => ?_
  rw [bulk_eq_load _ _ _ wf, bulk_eq_load _ _ _ wf']
  refine List.map_congr_left fun i lt => h e (within e mem) _ (by omega) ?_
  have := List.mem_range.mp lt
  omega
/-- A copy of ranges holds what the memory holds there. -/
def copied (m : Mem) (es : List (Nat × Nat)) (c : Mem) : Mem := es.foldl (fun c e => c.store e.1 (m.bulk e.1 e.2)) c
theorem copied_wf {m c : Mem} (es : List (Nat × Nat)) (wf : Memory.wf c = true) : Memory.wf (copied m es c) = true := by
  induction es generalizing c with
  | nil => exact wf
  | cons e es ih => exact ih (store_wf _ _ _ wf)
theorem copied_read {m : Mem} (wf : Memory.wf m = true) (es : List (Nat × Nat)) (c : Mem) (x : Nat) :
    (copied m es c).read x = m.read x ∨ (∀ e ∈ es, x < e.1 ∨ e.1 + e.2 ≤ x) ∧ (copied m es c).read x = c.read x := by
  induction es generalizing c with
  | nil => exact .inr ⟨(fun _ mem => by cases mem), rfl⟩
  | cons e es ih =>
    rcases ih (c.store e.1 (m.bulk e.1 e.2)) with same | ⟨out, kept⟩
    · exact .inl same
    · by_cases inside : e.1 ≤ x ∧ x < e.1 + e.2
      · obtain ⟨i, rfl⟩ := Nat.exists_eq_add_of_le inside.1
        refine .inl (kept.trans ((read_store_inside c e.1 _ i (by rw [length_bulk]; omega)).trans ?_))
        simp only [bulk_eq_load m e.1 e.2 wf, Mem.load, List.getElem_map, List.getElem_range]
      · have out' : x < e.1 ∨ e.1 + e.2 ≤ x := by omega
        refine .inr ⟨fun d mem => ?_, kept.trans (read_store_outside c e.1 _ x (by rw [length_bulk]; exact out'))⟩
        rcases List.mem_cons.mp mem with rfl | mem
        · exact out'
        · exact out d mem
theorem copied_agrees {m : Mem} (wf : Memory.wf m = true) (es : List (Nat × Nat)) (c : Mem) : AgreeOn (copied m es c) m es := by
  intro e mem x low high
  rcases copied_read wf es c x with same | ⟨out, -⟩
  · exact same
  · rcases out e mem with lt | le <;> omega
/-- What the batch's own stores leave of a copy is what they leave of memory. -/
theorem seen_segLoad {s : State} {b : Batch} (wf : Memory.wf s.mem = true) {es ss : List (Nat × Nat)} (within : ∀ e ∈ ss, e ∈ es) :
    (b.pend.mem.foldl (fun m e => m.store e.1 e.2) (copied s.mem es [])).segLoad ss = (seenMem s b).segLoad ss :=
  ((copied_agrees wf es []).stores b.pend.mem).segLoad (stores_wf (copied_wf es rfl) _) (stores_wf wf _) within

/-! ### Their entry -/

theorem quiet_touchRange (s : State) (g : Group) (va n : Nat) (acc : Acc) : Quiet s (s.touchRange g va n acc) :=
  quiet_foldl _ (fun t _ => quiet_touch t g _ acc) _ _
theorem rowsCond_none {s : State} {g : Group} {rs : List (Int × Nat)} {acc : Acc} (none_ : ∀ e ∈ rs, s.rangeCond g e.1 e.2 1 acc = none) :
    rowsCond s g rs acc = none := by
  unfold rowsCond
  rw [List.filterMap_eq_nil_iff.mpr none_]
theorem segBad_none {s : State} (good : s.bad = []) (ss : List (Nat × Nat)) : s.segBad ss = false := by
  unfold State.segBad
  rw [good]
  rfl

section
variable {s : State} {q : Q} {b : Batch} {tm : Team}
theorem freshen_touched {u : State} {G : Group} (h : Touched s u q G) (as : List (Nat × Nat)) :
    ∃ ro, Touched s (u.freshen q.g.id as) q { G with roMem := ro } := by
  unfold State.freshen
  exact ⟨_, h.modGrp _ fun _ => rfl⟩
/-- The lines of an engine's load. -/
theorem readLines_touched {i : Instr} (issues : s.issuing i = some q) (good : NoBadWord s q) {op : MOp}
    (free : RequestsFree s q .load (linePieces op.rows.flatten)) :
    ∃ t ro, Touched s t q { q.g with roMem := ro } ∧ ∀ k, tileLines q .rd op s k = k op t := by
  obtain ⟨t, touched, goes⟩ := withLines_touched issues free
  obtain ⟨ro, loaded⟩ := freshen_touched ((touched.quiet (quiet_useCaches t q.core .load (linePieces op.rows.flatten) [])).quiet
    (quiet_filterLines _ (linesOf (linePieces op.rows.flatten)) false)) (linePieces op.rows.flatten)
  refine ⟨_, ro, loaded, fun k => ?_⟩
  unfold tileLines
  dsimp only
  refine (goes _).trans ?_
  have l1 : s.l1BadAny q.core (linePieces op.rows.flatten) false = false := by
    unfold State.l1BadAny
    rw [good.2]
    rfl
  show k { op with bad := op.bad || s.l1BadAny q.core (linePieces op.rows.flatten) false } _ = _
  rw [l1, Bool.or_false]
  rfl
theorem writeLines_touched {i : Instr} (issues : s.issuing i = some q) {op : MOp} (free : RequestsFree s q .store (linePieces op.rows.flatten)) :
    ∃ t, Touched s t q q.g ∧ ∀ k, tileLines q .wr op s k = k op t := by
  obtain ⟨t, touched, goes⟩ := withLines_touched issues free
  exact ⟨t, touched, fun k => goes _⟩
variable (idle : EngineIdle s q b tm)
include idle
theorem tzero_executes (o : FX) (performs : Performs (.tzero o) s q) :
    Executes (.tzero o) s q b [] { m := { seenM s q b with tiles := (seenM s q b).tiles.store (o.ta.toNat * 12288) (List.replicate 12288 0#8) } } q.g.lanes :=
  batchOp_effect idle performs rfl rfl rfl rfl rfl
theorem cbload_executes (o : FM) {a : Int} (at_ : wrap64 ((q.g.rdS o.base).toNat + off24 o.off) = a) (performs : Performs (.cbload o) s q)
    (wf : Memory.wf s.mem = true) (aligned : a % 64 = 0) (met : s.rangeCond q.g a 1024 1 .rd = none)
    (free : RequestsFree s q .load (linePieces (s.segs q.g a.toNat 1024 .rd))) :
    Executes (.cbload o) s q b []
      { m := { seenM s q b with book := (seenM s q b).book.store 0 ((seenMem s b).segLoad (s.segs q.g a.toNat 1024 .rd)) } } q.g.lanes := by
  obtain ⟨scratch, good, tiles, accs, -⟩ := idle.good
  generalize within : s.segs q.g a.toNat 1024 .rd = ss at free ⊢
  let op : MOp := { i := .cbload o, rows := [ss], snap := copied s.mem ss [] }
  have flat : op.rows.flatten = ss := List.append_nil ss
  have reads : ({ i := .cbload o, rows := [ss] } : MOp).readMem s = op := by
    unfold MOp.readMem
    have sound : ([ss] : List (List (Nat × Nat))).any s.segBad = false := by
      rw [List.any_cons, segBad_none good.1]; rfl
    dsimp only
    rw [sound, show ([ss] : List (List (Nat × Nat))).flatten = ss from List.append_nil ss]
    rfl
  obtain ⟨t, ro, touched, lines⟩ := readLines_touched performs.issues good (op := op) (by rw [flat]; exact free)
  have touched' := touched.quiet (quiet_touchRange t q.g a.toNat 1024 .rd)
  have runs : exec (.cbload o) s = _ := show execCbload o s = _ by unfold execCbload; rfl
  have executes := executes_of (op := op) (lanes := q.g.lanes) (ro := ro) idle performs runs touched' ?_ rfl rfl ⟨tiles, accs⟩
  · have eff : idleEff op { q.g with lanes := q.g.lanes, roMem := ro } b (seenM s q b) tm =
        { m := { seenM s q b with book := (seenM s q b).book.store 0 ((seenMem s b).segLoad ss) } } := by
      have read : op.rows.flatMap (b.pend.mem.foldl (fun m e => m.store e.1 e.2) (copied s.mem ss [])).segLoad = (seenMem s b).segLoad ss := by
        rw [List.flatMap_singleton, seen_segLoad wf fun _ mem => mem]
      exact congrArg (fun bs => ({ m := { seenM s q b with book := (seenM s q b).book.store 0 bs } } : Eff)) read
    exact eff ▸ executes
  · dsimp only
    rw [at_, mayBatch_idle idle, if_neg (show ¬((!true) = true) by decide), aligned, if_neg (show ¬(((0 : Int) != 0) = true) by decide)]
    rw [rowsCond_none (s := s) (g := q.g) (rs := [(a, 1024)]) (acc := .rd) (fun e mem => by rw [List.mem_singleton.mp mem]; exact met)]
    unfold settleU
    dsimp only
    rw [within, reads, lines, touched'.grp]
    rfl
theorem tileSizes_met {o : FM} (met : mbit o.mod 4 = true →
    (q.g.rdS o.index).toNat % 2 ^ 20 % 4 = 0 ∧ (q.g.rdS o.index).toNat % 2 ^ 20 + 4 * (viewOf (mView o)).elems ≤ tm.s) :
    ¬((mbit o.mod 4 && ((q.g.rdS o.index).toNat % 2 ^ 20 % 4 != 0 ||
      decide (((s.team? q.g.team).map (·.s)).getD 0 < (q.g.rdS o.index).toNat % 2 ^ 20 + 4 * (viewOf (mView o)).elems))) = true) := by
  rw [idle.team]
  cases smooth : mbit o.mod 4 with
  | false => simp
  | true =>
    obtain ⟨aligned, le⟩ := met smooth
    simp only [Option.map_some, Option.getD_some, aligned]
    simpa using le
theorem tld_executes (o : FM) {rows : List (List (Nat × Nat))}
    (pieces : (tileRanges o (q.g.rdS o.base)).map (fun e => s.segs q.g e.1.toNat e.2 .rd) = rows) (performs : Performs (.tld o) s q)
    (aligned : (q.g.rdS o.base).toNat % 16 = 0) (wf : Memory.wf s.mem = true)
    (met : ∀ e ∈ tileRanges o (q.g.rdS o.base), s.rangeCond q.g e.1 e.2 1 .rd = none)
    (sizes : mbit o.mod 4 = true → (q.g.rdS o.index).toNat % 2 ^ 20 % 4 = 0 ∧ (q.g.rdS o.index).toNat % 2 ^ 20 + 4 * (viewOf (mView o)).elems ≤ tm.s)
    (free : RequestsFree s q .load (linePieces rows.flatten)) :
    Executes (.tld o) s q b []
      (effTld o { i := .tld o, base := q.g.rdS o.base, aux := BitVec.ofNat 64 ((q.g.rdS o.index).toNat % 2 ^ 20), rows } (seenM s q b) (seenMem s b)
        (seenScratch tm b)) q.g.lanes := by
  obtain ⟨scratch, good, tiles, accs, -⟩ := idle.good
  let op0 : MOp := { i := .tld o, base := q.g.rdS o.base, aux := BitVec.ofNat 64 ((q.g.rdS o.index).toNat % 2 ^ 20), rows }
  let op : MOp := { op0 with snap := copied s.mem rows.flatten [] }
  have reads : op0.readMem s = op := by
    unfold MOp.readMem
    have sound : rows.any s.segBad = false := List.any_eq_false.mpr fun ss _ => by rw [segBad_none good.1]; decide
    dsimp only [op0]
    rw [sound]
    rfl
  obtain ⟨t, ro, touched, lines⟩ := readLines_touched performs.issues good (op := op) free
  have touched' := touched.quiet (quiet_foldl (fun t e => t.touchRange q.g e.1.toNat e.2 .rd) (fun t e => quiet_touchRange t q.g e.1.toNat e.2 .rd)
    (tileRanges o (q.g.rdS o.base)) t)
  have eff : idleEff op { q.g with lanes := q.g.lanes, roMem := ro } b (seenM s q b) tm =
      effTld o op0 (seenM s q b) (seenMem s b) (seenScratch tm b) := by
    have read : rows.map (fun ss => leNat ((b.pend.mem.foldl (fun m e => m.store e.1 e.2) (copied s.mem rows.flatten [])).segLoad ss)) =
        rows.map fun ss => leNat ((seenMem s b).segLoad ss) :=
      List.map_congr_left fun ss mem => by rw [seen_segLoad wf fun e of => List.mem_flatten.mpr ⟨ss, mem, of⟩]
    show effTld o op (seenM s q b) (b.pend.mem.foldl (fun m e => m.store e.1 e.2) (copied s.mem rows.flatten [])) (seenScratch tm b) = _
    unfold effTld
    dsimp only [op, op0]
    rw [read]
  have marks (mem scr : Mem) (op : MOp) : (effTld o op (seenM s q b) mem scr).m.badT = [] ∧ (effTld o op (seenM s q b) mem scr).m.badA = [] := by
    unfold effTld
    dsimp only
    split <;> exact ⟨tiles, accs⟩
  have runs : exec (.tld o) s = _ := show execTld o s = _ by unfold execTld; rfl
  have executes := executes_of (op := op) (lanes := q.g.lanes) (ro := ro) idle performs runs touched' ?_ rfl rfl (by rw [eff]; exact marks _ _ _)
  · exact eff ▸ executes
  · unfold tileOp
    dsimp only
    rw [mayBatch_idle idle, if_neg (show ¬((!true) = true) by decide), aligned, if_neg (show ¬(((0 : Nat) != 0) = true) by decide), rowsCond_none met]
    unfold settleU
    dsimp only
    rw [if_neg (tileSizes_met idle sizes), pieces, if_pos (show (Acc.rd == Acc.rd) = true from rfl), reads, chunkCond_idle idle, lines, touched'.grp]
    rfl
theorem tst_executes (o : FM) {rows : List (List (Nat × Nat))}
    (pieces : (tileRanges o (q.g.rdS o.base)).map (fun e => s.segs q.g e.1.toNat e.2 .wr) = rows) (performs : Performs (.tst o) s q)
    (aligned : (q.g.rdS o.base).toNat % 16 = 0) (met : ∀ e ∈ tileRanges o (q.g.rdS o.base), s.rangeCond q.g e.1 e.2 1 .wr = none)
    (free : RequestsFree s q .store (linePieces rows.flatten)) :
    Executes (.tst o) s q b []
      (effTst o { i := .tst o, base := q.g.rdS o.base, aux := BitVec.ofNat 64 ((q.g.rdS o.index).toNat % 2 ^ 20), rows } (seenM s q b)) q.g.lanes := by
  obtain ⟨scratch, good, tiles, accs, -⟩ := idle.good
  let op0 : MOp := { i := .tst o, base := q.g.rdS o.base, aux := BitVec.ofNat 64 ((q.g.rdS o.index).toNat % 2 ^ 20), rows }
  let op : MOp := { op0 with pages := ((tileRanges o (q.g.rdS o.base)).flatMap fun e => s.storePages q.g e.1.toNat e.2).eraseDups }
  obtain ⟨t, touched, lines⟩ := writeLines_touched performs.issues (op := op) free
  have touched' := touched.quiet (quiet_foldl (fun t e => t.touchRange q.g e.1.toNat e.2 .wr) (fun t e => quiet_touchRange t q.g e.1.toNat e.2 .wr)
    (tileRanges o (q.g.rdS o.base)) t)
  have plain : mbit o.mod 4 = false := by
    obtain ⟨ok, -, -⟩ := formed_sig _ s q performs _ (show sigOf (.tst o) = some (sigTld o false) from rfl)
    unfold sigTld at ok
    dsimp only at ok
    cases smooth : mbit o.mod 4 with
    | false => rfl
    | true => rw [smooth] at ok; simp at ok
  have runs : exec (.tst o) s = _ := show execTst o s = _ by unfold execTst; rfl
  refine executes_of (op := op) (lanes := q.g.lanes) (ro := q.g.roMem) idle performs runs touched' ?_ rfl rfl ⟨tiles, accs⟩
  unfold tileOp
  dsimp only
  rw [mayBatch_idle idle, if_neg (show ¬((!true) = true) by decide), aligned, if_neg (show ¬(((0 : Nat) != 0) = true) by decide), rowsCond_none met]
  unfold settleU
  dsimp only
  rw [plain, Bool.false_and, if_neg Bool.false_ne_true, pieces, if_neg (show ¬((Acc.wr == Acc.rd) = true) by decide), chunkCond_idle idle, lines, touched'.grp]
  rfl
end

/-! ### What a plain TLD and TST move (R202, R222, R223) -/

theorem leBytes_leNat (bs : List Byte) : leBytes bs.length (leNat bs) = bs := by
  induction bs with
  | nil => rfl
  | cons x bs ih =>
    have low := x.isLt
    rw [List.length_cons, leBytes, leNat]
    congr 1
    · apply BitVec.eq_of_toNat_eq
      rw [BitVec.toNat_ofNat]
      omega
    · rw [show (x.toNat + 256 * leNat bs) / 256 = leNat bs by omega, ih]
theorem view_sizes (n : Nat) : (viewOf n).rb ≤ (viewOf n).step ∧ (viewOf n).step * (viewOf n).rows = 12288 := by
  unfold viewOf
  split <;> decide
/-- The bytes that a tile takes from its rows. -/
def rowBytes (bs : List Byte) (v : View) (e : Nat × Nat) : List Byte :=
  leBytes v.rb e.1 ++ ((bs.drop (v.step * e.2 + v.rb)).take (v.step - v.rb)).map fun _ => 0#8
theorem setTileRows_tiles (M : MState) (t : Nat) (v : View) (rows : List Nat) :
    (M.setTileRows t v true rows).tiles = M.tiles.store (t * 12288) (rows.zipIdx.flatMap (rowBytes (M.tiles.bulk (t * 12288) 12288) v)) := rfl
section
variable {M : MState} {t : Nat} {n : Nat} {rows : List Nat} (count : rows.length = (viewOf n).rows)
include count
theorem rowBytes_length : ∀ e ∈ rows.zipIdx, (rowBytes (M.tiles.bulk (t * 12288) 12288) (viewOf n) e).length = (viewOf n).step := by
  rintro ⟨x, i⟩ mem
  obtain ⟨le, size⟩ := view_sizes n
  have lt : i < (viewOf n).rows := by
    have := List.snd_lt_of_mem_zipIdx mem
    omega
  have fits : (viewOf n).step * (i + 1) ≤ 12288 := size ▸ Nat.mul_le_mul_left _ lt
  rw [Nat.mul_succ] at fits
  unfold rowBytes
  rw [List.length_append, length_leBytes, List.length_map, List.length_take, List.length_drop, length_bulk]
  dsimp only
  have : (viewOf n).step * i + (viewOf n).step ≤ 12288 := fits
  omega
theorem setTileRows_read {r j x : Nat} (at_ : rows[r]? = some x) (lt : j < (viewOf n).rb) :
    ((M.setTileRows t (viewOf n) true rows).tiles.read (t * 12288 + (viewOf n).step * r + j)).toNat = fieldAt (leBytes (viewOf n).rb x) j 1 := by
  obtain ⟨le, size⟩ := view_sizes n
  have each := rowBytes_length (M := M) (t := t) count
  have place : rows.zipIdx[r]? = some (x, r) := by rw [List.getElem?_zipIdx, at_]; simp
  have inside : r < rows.length := (List.getElem?_eq_some_iff.mp at_).1
  have fits : (viewOf n).step * (r + 1) ≤ (viewOf n).step * rows.length := Nat.mul_le_mul_left _ inside
  rw [Nat.mul_succ] at fits
  rw [← loadNat_one, setTileRows_tiles, Nat.add_assoc, loadNat_store_inside _ _ _ (by rw [length_flatten each, List.length_zipIdx]; omega),
    ← List.append_nil (List.flatMap _ _), fieldAt_flatten each [] place (by omega)]
  exact fieldAt_front (front := leBytes (viewOf n).rb x) (by rw [length_leBytes]; omega) _
theorem setTileRows_outside {a : Nat} (out : a < t * 12288 ∨ (t + 1) * 12288 ≤ a) :
    (M.setTileRows t (viewOf n) true rows).tiles.read a = M.tiles.read a := by
  rw [setTileRows_tiles]
  refine read_store_outside _ _ _ _ ?_
  rw [length_flatten (rowBytes_length (M := M) (t := t) count), List.length_zipIdx, count, (view_sizes n).2]
  omega
end
/-- A row of a tile, as bytes. -/
theorem tileRow_bytes {M : MState} (wf : Memory.wf M.tiles = true) (t n : Nat) {r : Nat} (lt : r < (viewOf n).rows) :
    ((M.tiles.bulk (t * 12288) 12288).drop ((viewOf n).step * r)).take (viewOf n).rb =
      (List.range (viewOf n).rb).map fun j => M.tiles.read (t * 12288 + (viewOf n).step * r + j) := by
  obtain ⟨le, size⟩ := view_sizes n
  have fits : (viewOf n).step * (r + 1) ≤ 12288 := size ▸ Nat.mul_le_mul_left _ lt
  rw [Nat.mul_succ] at fits
  rw [bulk_eq_load _ _ _ wf]
  refine List.ext_getElem (by simp only [Mem.load, List.length_take, List.length_drop, List.length_map, List.length_range]; omega) fun i h1 h2 => ?_
  simp only [Mem.load, List.getElem_take, List.getElem_drop, List.getElem_map, List.getElem_range, Nat.add_assoc]
theorem plain_tile {o : FM} {op : MOp} {M : MState} {mem scr : Mem} {pa : Nat → Nat} (straight : mbit o.mod 3 = false) (smooth : mbit o.mod 4 = false)
    (wf : Memory.wf mem = true) (tiles : Memory.wf M.tiles = true)
    (rows : op.rows = (List.range (viewOf (mView o)).rows).map fun r => [(pa r, (viewOf (mView o)).rb)]) :
    (∀ r j, r < (viewOf (mView o)).rows → j < (viewOf (mView o)).rb →
      (effTld o op M mem scr).m.tiles.read (tileField o.data * 12288 + (viewOf (mView o)).step * r + j) = mem.read (pa r + j)) ∧
    (∀ a, (a < tileField o.data * 12288 ∨ (tileField o.data + 1) * 12288 ≤ a) → (effTld o op M mem scr).m.tiles.read a = M.tiles.read a) ∧
    (effTst o op M).mem = (List.range (viewOf (mView o)).rows).map fun r =>
      (pa r, (List.range (viewOf (mView o)).rb).map fun j => M.tiles.read (tileField o.data * 12288 + (viewOf (mView o)).step * r + j)) := by
  have loads : (effTld o op M mem scr).m = M.setTileRows (tileField o.data) (viewOf (mView o)) true
      ((List.range (viewOf (mView o)).rows).map fun r => leNat (mem.bulk (pa r) (viewOf (mView o)).rb)) := by
    unfold effTld
    dsimp only
    rw [straight, smooth, rows, if_neg Bool.false_ne_true, if_neg Bool.false_ne_true, List.map_map]
    refine congrArg (M.setTileRows _ _ true) (List.map_congr_left fun r _ => ?_)
    exact congrArg leNat (List.append_nil _)
  have count : ((List.range (viewOf (mView o)).rows).map fun r => leNat (mem.bulk (pa r) (viewOf (mView o)).rb)).length = (viewOf (mView o)).rows := by
    rw [List.length_map, List.length_range]
  refine ⟨fun r j r_lt j_lt => ?_, fun a out => ?_, ?_⟩
  · apply BitVec.eq_of_toNat_eq
    have bytes := leBytes_leNat (mem.bulk (pa r) (viewOf (mView o)).rb)
    rw [length_bulk] at bytes
    rw [loads, setTileRows_read count (x := leNat (mem.bulk (pa r) (viewOf (mView o)).rb)) (by rw [List.getElem?_map, List.getElem?_range r_lt]; rfl) j_lt,
      bytes, fieldAt_bulk wf _ (by omega), loadNat_one]
  · rw [loads, setTileRows_outside count out]
  · unfold effTst MState.tileRows tileBytes
    dsimp only
    rw [straight, if_neg Bool.false_ne_true, rows, List.zip_map', List.flatMap_map]
    refine (List.flatMap_congr fun r mem => ?_).trans List.map_eq_flatMap.symm
    have bytes := tileRow_bytes tiles (tileField o.data) (mView o) (List.mem_range.mp mem)
    have length : (((M.tiles.bulk (tileField o.data * 12288) 12288).drop ((viewOf (mView o)).step * r)).take (viewOf (mView o)).rb).length =
        (viewOf (mView o)).rb := by
      rw [bytes, List.length_map, List.length_range]
    have whole := leBytes_leNat (((M.tiles.bulk (tileField o.data * 12288) 12288).drop ((viewOf (mView o)).step * r)).take (viewOf (mView o)).rb)
    rw [length] at whole
    show [(pa r, (leBytes (viewOf (mView o)).rb _).take (viewOf (mView o)).rb)] = _
    rw [whole, List.take_of_length_le length.le, bytes]

/-- Settles O22: what enters is executed on what the engine sees (R207, R210, R226); a plain TLD and TST row by row (R222, R223). -/
theorem tileInstructions : Obligations.TileInstructions := by
  unfold Obligations.TileInstructions
  refine ⟨fun s q b tm idle => ⟨fun o => tzero_executes idle o, fun o aligned => ⟨fun performs wf met sizes free => ?_, fun performs met free => ?_⟩,
    fun o performs wf aligned met free => ?_⟩, fun o op M mem scr pa straight smooth _ wf tiles rows => plain_tile straight smooth wf tiles rows⟩
  · exact tld_executes idle o rfl performs aligned wf met sizes free
  · exact tst_executes idle o rfl performs aligned met free
  · exact cbload_executes idle o rfl performs wf aligned met free

end Sys2Proof.Proofs


/-!
The statement about chunks that land and drain, multicast rounds, engine faults (R251 to R253, R256), and messages that enter ports (R366 to
R369).
-/
namespace Sys2Proof.Proofs
open Sys2Proof Sys2Proof.Machine Sys2Proof.Laws

/-! ### Moved bytes and completed rounds -/

theorem team_congr {s u : State} (teams : u.teams = s.teams) (id : Nat) : u.team? id = s.team? id := by
  rw [State.team?, teams]
  rfl

/-- Only what cores and classes are charged with changes. -/
def ChargesOnly (s u : State) : Prop := { u with cores := s.cores, clusters := s.clusters } = s
theorem ChargesOnly.trans {s u v : State} (h : ChargesOnly s u) (k : ChargesOnly u v) : ChargesOnly s v := by
  unfold ChargesOnly at *
  rw [← k] at h
  exact h
theorem chargeUnits_only (s : State) (cluster cls res n : Nat) : ChargesOnly s (s.chargeUnits cluster cls res n) := rfl
theorem chargePieces_only (s : State) (cluster cls : Nat) (ps : List (Nat × Nat)) : ChargesOnly s (s.chargePieces cluster cls ps) := by
  unfold State.chargePieces
  dsimp only
  split
  · rfl
  · exact (chargeUnits_only s _ _ _ _).trans (chargeUnits_only _ _ _ _ _)
theorem chargeEngine_only (s : State) (core team sheet cls : Nat) (ps : List (Nat × Nat)) : ChargesOnly s (s.chargeEngine core team sheet cls ps) := by
  have moved : ChargesOnly s (s.chargeMove (clusterOf core) cls ps) := (chargePieces_only s _ _ ps).trans (chargeUnits_only _ _ _ _ _)
  exact moved.trans (u := s.chargeMove (clusterOf core) cls ps) rfl
theorem engineMoves_only (s : State) (t : Team) (ss : List (Nat × Nat)) :
    { s.engineMoves t ss with dies := s.dies, cores := s.cores, clusters := s.clusters } = s := by
  have moved := filterRanges_dies ss s
  unfold DiesOnly at moved
  unfold State.engineMoves
  generalize ss.foldl (fun u e => u.filterRange e.1 e.2) s = u at moved ⊢
  have charged := chargeEngine_only u (t.cores.headD 0) t.id t.sheet 2 ss
  unfold ChargesOnly at charged
  rw [← charged] at moved
  exact (congrArg (fun x : State => { x with cores := s.cores, clusters := s.clusters }) moved : _)
/-- What the ends of rounds may change: messages, and of teams their rounds and schedules; a schedule that has failed stays so. -/
structure RoundsEnd (s u : State) (team : Nat) : Prop where
  rest : { u with msgs := s.msgs, fresh := s.fresh, teams := s.teams } = s
  team : ∀ t, s.team? team = some t → ∃ t', u.team? team = some t' ∧ { t' with rounds := t.rounds, sched := t.sched } = t ∧
    ((∀ d, t.sched = some d → d.fail = true) → ∀ d, t'.sched = some d → d.fail = true)
theorem RoundsEnd.refl (s : State) (team : Nat) : RoundsEnd s s team := ⟨rfl, fun t found => ⟨t, found, rfl, id⟩⟩
theorem RoundsEnd.trans {s u v : State} {team : Nat} (h : RoundsEnd s u team) (k : RoundsEnd u v team) : RoundsEnd s v team := by
  refine ⟨?_, fun t found => ?_⟩
  · have same := h.rest
    rw [← k.rest] at same
    exact same
  · obtain ⟨t', found', same, failed⟩ := h.team t found
    obtain ⟨t'', found'', same', failed'⟩ := k.team t' found'
    refine ⟨t'', found'', ?_, fun all => failed' (failed all)⟩
    rw [← same'] at same
    exact same
/-- Only messages are added. -/
def PostsOnly (s u : State) : Prop := { u with msgs := s.msgs, fresh := s.fresh } = s
theorem PostsOnly.trans {s u v : State} (h : PostsOnly s u) (k : PostsOnly u v) : PostsOnly s v := by
  unfold PostsOnly at *
  rw [← k] at h
  exact h
theorem notifyRound_posts (s : State) (t : Team) (r : Round) : PostsOnly s (s.notifyRound t r) := by
  have posts (js : List Job) (info : Nat) (u : State) :
      PostsOnly u (js.foldl (fun u j => match j.notify with
        | some p => u.post t.id p 3 (BitVec.ofNat 64 r.r) 0 info
        | none => u) u) := by
    induction js generalizing u with
    | nil => rfl
    | cons j js ih =>
      refine PostsOnly.trans ?_ (ih _)
      dsimp only
      split <;> rfl
  unfold State.notifyRound
  split
  · rfl
  · exact posts _ _ s
theorem completeRounds_end (team : Nat) (n : Nat) (s : State) : RoundsEnd s (s.completeRounds team n) team := by
  induction n generalizing s with
  | zero => exact .refl s team
  | succ n ih =>
    unfold State.completeRounds
    split
    · exact .refl s team
    next t found =>
      split
      · exact .refl s team
      next r _ =>
        refine RoundsEnd.trans ?_ (ih _)
        let F (t : Team) : Team := { t with
          rounds := t.rounds.filter (fun x => x.id != r.id)
          sched := t.sched.map fun c : Sched => match r.stage with
            | some st => { c with done := c.done.modify st (· + 1) }
            | none => c }
        have posts := notifyRound_posts (s.modTeam team F) t r
        refine ⟨?_, fun t0 found0 => ⟨F t0, ?_, rfl, fun all d is => ?_⟩⟩
        · exact (congrArg (fun x : State => { x with teams := s.teams }) posts : _)
        · have teams := team_modTeam s team team F fun _ => rfl
          rw [if_pos rfl, found0] at teams
          have same : ((s.modTeam team F).notifyRound t r).teams = (s.modTeam team F).teams := (congrArg State.teams posts : _)
          exact (team_congr same team).trans teams
        · obtain ⟨c, held, rfl⟩ := Option.map_eq_some_iff.mp is
          have failed := all c held
          split <;> exact failed
theorem finishRounds_end (s : State) (team : Nat) : RoundsEnd s (s.finishRounds team) team := by
  unfold State.finishRounds
  split
  · exact .refl s team
  · exact completeRounds_end team _ s

/-! ### Chunks that land and drain (R251 to R253, R210) -/

theorem MOp.readScr_congr (op : MOp) {t t' : Team} (absent : t'.absent = t.absent) (scratch : t'.scratch = t.scratch) : op.readScr t' = op.readScr t := by
  unfold MOp.readScr
  rw [absent, scratch]
theorem readScr_congr (g : Group) {t t' : Team} (absent : t'.absent = t.absent) (scratch : t'.scratch = t.scratch) : g.readScr t' = g.readScr t := by
  unfold Group.readScr
  simp only [MOp.readScr_congr _ absent scratch]
/-- What the team's groups and rounds make of a chunk that has become present. -/
theorem chunk_ends {s : State} {id : Nat} {t : Team} (found : s.team? id = some t) :
    ∃ t', ((s.readChunks id).finishRounds id).team? id = some t' ∧ t'.absent = t.absent ∧ t'.scratch = t.scratch ∧
      ((s.readChunks id).finishRounds id).mem = s.mem ∧
      ((s.readChunks id).finishRounds id).groups = s.groups.map fun g => if g.team == id then g.readScr t' else g := by
  have reads : s.readChunks id = s.modGrps fun g => if g.team == id then g.readScr t else g := by
    unfold State.readChunks
    rw [found]
  rw [reads]
  obtain ⟨rest, team⟩ := finishRounds_end (s.modGrps fun g => if g.team == id then g.readScr t else g) id
  obtain ⟨t', found', same, -⟩ := team t found
  have absent : t'.absent = t.absent := (congrArg Team.absent same : _)
  have scratch : t'.scratch = t.scratch := (congrArg Team.scratch same : _)
  refine ⟨t', found', absent, scratch, (congrArg State.mem rest : _), ((congrArg State.groups rest : _) : _ = (s.modGrps _).groups).trans ?_⟩
  refine List.map_congr_left fun g _ => ?_
  rw [readScr_congr g absent scratch]
theorem scratchCommit_absent (es : List (Nat × List Byte)) (t : Team) : (es.foldl (fun u e => u.scratchStore e.1 e.2) t).absent = t.absent := by
  induction es generalizing t with
  | nil => rfl
  | cons e es ih => exact ih (t.scratchStore e.1 e.2)
theorem scratchCommit_scratch (es : List (Nat × List Byte)) (t : Team) :
    (es.foldl (fun u e => u.scratchStore e.1 e.2) t).scratch = es.foldl (fun m e => m.store e.1 e.2) t.scratch := by
  induction es generalizing t with
  | nil => rfl
  | cons e es ih => exact ih (t.scratchStore e.1 e.2)
/-- The team as the bytes of a chunk land. -/
def landed (c rid k : Nat) (ps : Team → List (Nat × List Byte)) (t : Team) : Team :=
  ({ t.landChunk c (ps t) with absent := (t.landChunk c (ps t)).absent.filter (· != c) } : Team).modRound rid fun r =>
    r.modJob k fun j => { j with left := j.left.filter (· != c) }
theorem landed_parts (c rid k : Nat) (ps : Team → List (Nat × List Byte)) (t : Team) :
    (landed c rid k ps t).id = t.id ∧ (landed c rid k ps t).absent = t.absent.filter (· != c) ∧
      (landed c rid k ps t).scratch = ((ps t).foldl (fun u e => u.scratchStore e.1 e.2) t).scratch := by
  refine ⟨scratchCommit_id (ps t) { t with landed := [] }, ?_, ?_⟩
  · exact congrArg (List.filter (· != c)) (scratchCommit_absent (ps t) { t with landed := [] })
  · exact (scratchCommit_scratch (ps t) { t with landed := [] }).trans (scratchCommit_scratch (ps t) t).symm
theorem landed_ends {s : State} {t : Team} (found : s.team? t.id = some t) (c rid k : Nat) (ps : Team → List (Nat × List Byte)) :
    let u := ((s.modTeam t.id (landed c rid k ps)).readChunks t.id).finishRounds t.id
    ∃ t', u.team? t.id = some t' ∧ t'.absent = t.absent.filter (· != c) ∧ t'.scratch = ((ps t).foldl (fun u e => u.scratchStore e.1 e.2) t).scratch ∧
      u.mem = s.mem ∧ u.groups = s.groups.map fun g => if g.team == t.id then g.readScr t' else g := by
  have here := team_modTeam s t.id t.id (landed c rid k ps) fun x => (landed_parts c rid k ps x).1
  rw [if_pos rfl, found] at here
  obtain ⟨t', there, absent, scratch, mem, groups⟩ := chunk_ends here
  obtain ⟨-, absent', scratch'⟩ := landed_parts c rid k ps t
  exact ⟨t', there, absent.trans absent', scratch.trans scratch', mem, groups⟩
theorem chunk_lands (s : State) (t : Team) (rid c : Nat) (j : Job) (k : Nat) (found : s.team? t.id = some t)
    (job : (t.round? rid).bind (·.jobOf false c) = some (j, k)) (fetch : j.data = none) (moving : s.traverseStalled t = false)
    (met : s.pieceFault t .rd (j.pieces c) = none) (good : s.bad = []) :
    ∃ u t', exec (.chunkLand t.id rid c) s = .next u ∧ u.team? t.id = some t' ∧ t'.absent = t.absent.filter (· != c) ∧
      t'.scratch = ((j.pieces c).foldl (fun v e => v.scratchStore e.2.1 (s.pieceLoad t e)) t).scratch ∧ u.mem = s.mem ∧
      u.groups = s.groups.map fun g => if g.team == t.id then g.readScr t' else g := by
  let ss := (j.pieces c).flatMap fun e => s.segs (s.engineView t) e.1.toNat e.2.2 .rd
  have moves := engineMoves_only s t ss
  have teams : (s.engineMoves t ss).team? t.id = some t :=
    (team_congr (congrArg State.teams moves : _) t.id).trans found
  obtain ⟨t', there, absent, scratch, mem, groups⟩ := landed_ends teams c rid k fun x => (j.pieces c).map fun e => (e.2.1, s.pieceLoad x e)
  rw [List.foldl_map] at scratch
  refine ⟨_, t', ?_, there, absent, scratch, mem.trans (congrArg State.mem moves : _), groups.trans ?_⟩
  · show execChunkLand t.id rid c s = _
    unfold execChunkLand
    rw [found]
    dsimp only
    rw [job]
    dsimp only
    rw [fetch]
    dsimp only
    have clean : ((j.pieces c).any fun e => s.segBad (s.segs (s.engineView t) e.1.toNat e.2.2 .rd)) = false :=
      List.any_eq_false.mpr fun e _ => by rw [segBad_none good]; decide
    rw [moving, met, clean]
    exact (if_neg (show ¬((false || (none : Option (Route × Nat)).isSome) = true) by decide)).trans (if_neg Bool.false_ne_true)
  · exact congrArg (List.map _) (congrArg State.groups moves : _)
theorem multicast_lands (s : State) (t : Team) (rid c : Nat) (j : Job) (k : Nat) (bs : List Byte) (found : s.team? t.id = some t)
    (job : (t.round? rid).bind (·.jobOf false c) = some (j, k)) (read : j.data = some bs) :
    ∃ u t', exec (.chunkLand t.id rid c) s = .next u ∧ u.team? t.id = some t' ∧ t'.absent = t.absent.filter (· != c) ∧
      t'.scratch = (t.scratchStore (512 * c)
        ((bs.drop (512 * c - (j.rows.map fun e => e.2.1).foldl min (512 * c))).take 512)).scratch ∧ u.mem = s.mem := by
  obtain ⟨t', there, absent, scratch, mem, -⟩ := landed_ends found c rid k fun _ =>
    [(512 * c, (bs.drop (512 * c - (j.rows.map fun e => e.2.1).foldl min (512 * c))).take 512)]
  refine ⟨_, t', ?_, there, absent, scratch, mem⟩
  show execChunkLand t.id rid c s = _
  unfold execChunkLand
  rw [found]
  dsimp only
  rw [job]
  dsimp only
  rw [read]
  rfl

/-! ### Write-backs (R252, R418) -/

theorem snapPage_groups (s : State) (sheet page : Nat) : (s.snapPage sheet page).groups = s.groups := by
  unfold State.snapPage
  split
  · rfl
  · split
    · split <;> rfl
    · rfl
theorem snapPages_groups (ps : List Nat) (s : State) (sheet : Nat) : (ps.foldl (fun t p => t.snapPage sheet p) s).groups = s.groups := by
  induction ps generalizing s with
  | nil => rfl
  | cons p ps ih => exact (ih _).trans (snapPage_groups s sheet p)
theorem sheetStore_groups (s : State) (sheet pa : Nat) (bs : List Byte) : (s.sheetStore sheet pa bs).groups = s.groups := by
  unfold State.sheetStore
  dsimp only
  exact ((congrArg State.groups (quiet_filterRange _ pa bs.length).1 : _)).trans ((mend_groups _ pa bs.length).trans (snapPages_groups _ s sheet))
theorem commit_groups (sheet : Nat) (es : List (Nat × List Byte)) (s : State) :
    (es.foldl (fun u e => u.sheetStore sheet e.1 e.2) s).groups = s.groups := by
  induction es generalizing s with
  | nil => rfl
  | cons e es ih => exact (ih _).trans (sheetStore_groups s sheet e.1 e.2)
/-- What write-backs of pieces do beside memory, and to it. -/
theorem drain_parts {α : Type} (sheet : Nat) (ws : α → List (Nat × List Byte)) (ps : List α) (s : State) :
    let u := ps.foldl (fun u e => (ws e).foldl (fun u w => u.sheetStore sheet w.1 w.2) u) s
    u.groups = s.groups ∧ u.teams = s.teams ∧ u.mem = ps.foldl (fun m e => (ws e).foldl (fun m w => m.store w.1 w.2) m) s.mem := by
  induction ps generalizing s with
  | nil => exact ⟨rfl, rfl, rfl⟩
  | cons p ps ih =>
    obtain ⟨groups, teams, mem⟩ := ih ((ws p).foldl (fun u w => u.sheetStore sheet w.1 w.2) s)
    obtain ⟨written, stored⟩ := written_commit sheet (ws p) s
    exact ⟨groups.trans (commit_groups sheet (ws p) s), teams.trans (congrArg State.teams written.traffic.1 : _), by rw [List.foldl_cons, mem, stored]; rfl⟩
theorem chunk_drains (s : State) (t : Team) (rid c : Nat) (j : Job) (k : Nat) (found : s.team? t.id = some t)
    (job : (t.round? rid).bind (·.jobOf true c) = some (j, k)) (moving : s.traverseStalled t = false)
    (met : s.pieceFault t .wr (j.pieces c) = none) (good : t.bad = []) :
    ∃ u t', exec (.writebackChunkDrain t.id rid c) s = .next u ∧ u.team? t.id = some t' ∧ t'.absent = t.absent.filter (· != c) ∧
      t'.scratch = t.scratch ∧ (u.groups = s.groups.map fun g => if g.team == t.id then g.readScr t' else g) ∧
      u.mem = ((j.pieces c).foldl (fun u e =>
        (splitSegs (s.segs (s.engineView t) e.1.toNat e.2.2 .wr) (t.scratch.bulk e.2.1 e.2.2)).foldl (fun u w => u.sheetStore t.sheet w.1 w.2) u) s).mem := by
  let ss := (j.pieces c).flatMap fun e => s.segs (s.engineView t) e.1.toNat e.2.2 .wr
  let ws (e : DWord × Nat × Nat) := splitSegs (s.segs (s.engineView t) e.1.toNat e.2.2 .wr) (t.scratch.bulk e.2.1 e.2.2)
  let F (t : Team) : Team := ({ t with absent := t.absent.filter (· != c) } : Team).modRound rid fun r => r.modJob k fun j => { j with left := j.left.filter (· != c) }
  have moves := engineMoves_only s t ss
  obtain ⟨groups, teams, mem⟩ := drain_parts t.sheet ws (j.pieces c) (s.engineMoves t ss)
  obtain ⟨-, -, mem0⟩ := drain_parts t.sheet ws (j.pieces c) s
  let s1 := (j.pieces c).foldl (fun u e => (ws e).foldl (fun u w => u.sheetStore t.sheet w.1 w.2) u) (s.engineMoves t ss)
  have here := team_modTeam s1 t.id t.id F fun _ => rfl
  have found' : s1.team? t.id = some t := (team_congr (teams.trans (congrArg State.teams moves : _)) t.id).trans found
  rw [if_pos rfl, found'] at here
  obtain ⟨t', there, absent, scratch, mem', groups'⟩ := chunk_ends here
  refine ⟨_, t', ?_, there, absent, scratch, groups'.trans ?_, (mem'.trans mem).trans ?_⟩
  · show execWritebackChunkDrain t.id rid c s = _
    unfold execWritebackChunkDrain
    rw [found]
    dsimp only
    rw [job]
    dsimp only
    have clean : ((j.pieces c).any fun e => t.badIn e.2.1 e.2.2) = false := List.any_eq_false.mpr fun e _ => by rw [badIn_none good]; decide
    rw [moving, met, clean]
    exact (if_neg (show ¬((false || (none : Option (Route × Nat)).isSome) = true) by decide)).trans (if_neg Bool.false_ne_true)
  · exact congrArg (List.map _) (groups.trans (congrArg State.groups moves : _))
  · rw [mem0, show (s.engineMoves t ss).mem = s.mem from (congrArg State.mem moves : _)]

/-! ### Multicast and faults of engines (R253, R256, R263) -/

theorem multicast_starts (s : State) (t : Team) (rid : Nat) (r : Round) (j : Job) (k : Nat) (found : s.team? t.id = some t) (round : t.round? rid = some r)
    (waiting : r.waitingJob = some (j, k)) (moving : s.traverseStalled t = false) (all : j.mcast ≤ (s.mcastMembers t r).length)
    (met : s.pieceFault t .rd j.rows = none) (good : s.bad = []) :
    exec (.multicastRoundStart t.id rid) s = .next ((s.mcastMembers t r).foldl (fun u m => u.modTeam m.1 fun v => v.modRound m.2 fun x =>
      x.modJob k fun y => { y with waiting := false, data := some (j.rows.flatMap (s.pieceLoad t)) })
        (s.engineMoves t (j.rows.flatMap fun e => s.segs (s.engineView t) e.1.toNat e.2.2 .rd))) := by
  show execMulticastRoundStart t.id rid s = _
  unfold execMulticastRoundStart
  rw [found]
  dsimp only
  rw [round]
  dsimp only
  rw [waiting]
  dsimp only
  have clean : (j.rows.any fun e => s.segBad (s.segs (s.engineView t) e.1.toNat e.2.2 .rd)) = false :=
    List.any_eq_false.mpr fun e _ => by rw [segBad_none good]; decide
  rw [moving, met, clean, decide_eq_false (not_lt.mpr all)]
  exact (if_neg (show ¬((false || false || (none : Option (Route × Nat)).isSome) = true) by decide)).trans (if_neg Bool.false_ne_true)
theorem multicast_holds (s : State) (t : Team) (rid : Nat) (r : Round) (j : Job) (k : Nat) (found : s.team? t.id = some t) (round : t.round? rid = some r)
    (waiting : r.waitingJob = some (j, k)) (few : (s.mcastMembers t r).length < j.mcast) : exec (.multicastRoundStart t.id rid) s = .next s := by
  show execMulticastRoundStart t.id rid s = _
  unfold execMulticastRoundStart
  rw [found]
  dsimp only
  rw [round]
  dsimp only
  rw [waiting]
  dsimp only
  rw [decide_eq_true few]
  exact if_pos rfl
theorem drain_stalls (s : State) (t : Team) (rid c : Nat) (found : s.team? t.id = some t) (stalled : s.traverseStalled t = true)
    (job : ((t.round? rid).bind (·.jobOf true c)).isSome = true) : exec (.writebackChunkDrain t.id rid c) s = .next s := by
  obtain ⟨⟨j, k⟩, is⟩ := Option.isSome_iff_exists.mp job
  show execWritebackChunkDrain t.id rid c s = _
  unfold execWritebackChunkDrain
  rw [found]
  dsimp only
  rw [is]
  dsimp only
  rw [stalled]
  exact if_pos rfl
theorem mapPage_teams {asn : Nat} {q : MapReq} {s u : State} (maps : s.mapPage asn q = some u) : u.teams = s.teams := by
  unfold State.mapPage at maps
  dsimp only at maps
  split at maps
  · cases maps
  · split at maps
    · obtain ⟨m, -, rfl⟩ := Option.map_eq_some_iff.mp maps
      rfl
    · split at maps
      · split at maps
        · cases maps
        · obtain ⟨m, -, rfl⟩ := Option.map_eq_some_iff.mp maps
          rfl
      · cases maps
theorem mapAll_teams {asn : Nat} (qs : List MapReq) {s u : State} (maps : s.mapAll asn qs = some u) : u.teams = s.teams := by
  induction qs generalizing s with
  | nil => cases maps; rfl
  | cons q qs ih =>
    obtain ⟨t, page, rest⟩ := Option.bind_eq_some_iff.mp maps
    exact (ih rest).trans (mapPage_teams page)
theorem mapServed_teams {s u : State} {asn : Nat} {qs : List MapReq} (maps : s.mapServed asn qs = some u) : u.teams = s.teams := by
  have refreshed (qs : List MapReq) (t : State) : (qs.foldl (fun u q => u.refreshRo q.pa (2 ^ levelBits q.level)) t).teams = t.teams := by
    induction qs generalizing t with
    | nil => rfl
    | cons q qs ih => exact ih (t.refreshRo q.pa (2 ^ levelBits q.level))
  unfold State.mapServed at maps
  split at maps
  · cases maps
  · obtain ⟨t, all, rfl⟩ := Option.map_eq_some_iff.mp maps
    exact (refreshed qs (t.armMapped asn qs)).trans (mapAll_teams (u := t) qs all)
/-- A job that fails leaves its chunks failed and absent (R256). -/
theorem failJob_parts {t : Team} {rid job : Nat} {j : Job} (c : Cause) (a : DWord) (found : (t.round? rid).bind (·.jobs[job]?) = some j)
    (once : j.waiting = false) :
    let u := t.failJob rid job c a
    u.absent = t.absent ∧ u.named = t.named.filter (fun c => !j.left.contains c) ∧ u.failed = t.failed ++ j.left.map (fun k => (k, c, a)) ∧
      ∀ r, t.round? rid = some r → r.stage.isSome = true → ∀ d, u.sched = some d → d.fail = true := by
  obtain ⟨r, round, is⟩ := Option.bind_eq_some_iff.mp found
  unfold Team.failJob
  rw [round, Option.bind_some, is, Option.map_some]
  dsimp only
  rw [once]
  refine ⟨rfl, rfl, rfl, fun r' same staged d held => ?_⟩
  cases same
  obtain ⟨c, -, rfl⟩ := Option.map_eq_some_iff.mp held
  exact (congrArg (c.fail || ·) staged).trans (Bool.or_true _)
theorem failJob_id (t : Team) (rid job : Nat) (c : Cause) (a : DWord) : (t.failJob rid job c a).id = t.id := by
  unfold Team.failJob
  split <;> rfl
section
variable {s s1 : State} {t : Team} {rid k : Nat} {j : Job} {maps : List MapReq} (found : s.team? t.id = some t)
  (job : (t.round? rid).bind (·.jobs[k]?) = some j) (fetch : j.data = none) (missed : (s.pieceFault t j.acc j.remaining).isSome = true)
  (served : s.mapServed (s.engineView t).asn maps = some s1)
include found job fetch missed served
theorem engineFault_mapped (met : s1.pieceFault t j.acc j.remaining = none) : exec (.enginePageFault t.id rid k maps) s = .next s1 := by
  obtain ⟨f, is⟩ := Option.isSome_iff_exists.mp missed
  show execEnginePageFault t.id rid k maps s = _
  unfold execEnginePageFault
  rw [found]
  dsimp only
  rw [job]
  dsimp only
  rw [fetch, is, served]
  dsimp only
  rw [met]
  rfl
theorem engineFault_holds {r : Route} {a : Nat} {x : Round} (meets : s1.pieceFault t j.acc j.remaining = some (r, a)) (round : t.round? rid = some x)
    (waits : j.waiting = true) (multicast : j.mcast ≠ 0) (few : (s1.mcastMembers t x).length < j.mcast) :
    exec (.enginePageFault t.id rid k maps) s = .next s1 := by
  obtain ⟨f, is⟩ := Option.isSome_iff_exists.mp missed
  show execEnginePageFault t.id rid k maps s = _
  unfold execEnginePageFault
  rw [found]
  dsimp only
  rw [job]
  dsimp only
  rw [fetch, is, served]
  dsimp only
  rw [meets, round]
  have members : (if (j.mcast == 0) = true then [(t.id, rid)] else (some x).elim [] (s1.mcastMembers t)) = s1.mcastMembers t x :=
    if_neg (by rw [beq_iff_eq]; exact multicast)
  rw [members, waits, decide_eq_true few]
  cases r <;> rfl
theorem engineFault_fails {r : Route} {a : Nat} (meets : s1.pieceFault t j.acc j.remaining = some (r, a)) (fatal : r ≠ .later) (single : j.mcast = 0)
    (once : j.waiting = false) :
    ∃ u t', exec (.enginePageFault t.id rid k maps) s = .next u ∧ u.team? t.id = some t' ∧ u.mem = s1.mem ∧
      t'.absent = t.absent ∧ t'.named = t.named.filter (fun c => !j.left.contains c) ∧
      (∀ r', t.round? rid = some r' → r'.stage.isSome = true → ∀ d, t'.sched = some d → d.fail = true) ∧
      t'.failed = t.failed ++ j.left.map fun c => (c, r.cause, BitVec.ofNat 64 a) := by
  obtain ⟨f, is⟩ := Option.isSome_iff_exists.mp missed
  have found1 : s1.team? t.id = some t := (team_congr (mapServed_teams served) t.id).trans found
  have here := team_modTeam s1 t.id t.id (Team.failJob · rid k r.cause (BitVec.ofNat 64 a)) fun x => failJob_id x rid k _ _
  rw [if_pos rfl, found1] at here
  obtain ⟨rest, team⟩ := finishRounds_end (s1.modTeam t.id (Team.failJob · rid k r.cause (BitVec.ofNat 64 a))) t.id
  obtain ⟨t', there, same, keeps⟩ := team _ here
  obtain ⟨absent, named, failed, marks⟩ := failJob_parts r.cause (BitVec.ofNat 64 a) job once
  refine ⟨_, t', ?_, there, (congrArg State.mem rest : _), (congrArg Team.absent same : _ = _).trans absent, (congrArg Team.named same : _ = _).trans named,
    fun r' round staged => keeps (marks r' round staged), (congrArg Team.failed same : _ = _).trans failed⟩
  show execEnginePageFault t.id rid k maps s = _
  unfold execEnginePageFault
  rw [found]
  dsimp only
  rw [job]
  dsimp only
  rw [fetch, is, served]
  dsimp only
  rw [meets, single, once]
  cases r
  case later => exact absurd rfl fatal
  all_goals rfl
end

/-! ### Messages that enter ports (R366 to R369) -/

section
variable {s : State} {n : Nat} {m : InMsg} {t : Team} (at_ : s.msgs[n]? = some m) (may : s.arrivable n = true) (found : s.team? m.team = some t)
include at_ may found
theorem message_gone (ended : t.exited = true) : exec (.portMessageArrival n) s = .next { s with msgs := s.msgs.eraseIdx n } := by
  show execPortMessageArrival n s = _
  unfold execPortMessageArrival
  rw [at_, may]
  dsimp only
  rw [if_neg (show ¬((!true) = true) by decide), show ({ s with msgs := s.msgs.eraseIdx n } : State).team? m.team = some t from found]
  dsimp only
  rw [ended]
  rfl
theorem message_lost (live : t.exited = false) (closed : t.port? m.port = none) :
    exec (.portMessageArrival n) s = .next (({ s with msgs := s.msgs.eraseIdx n } : State).modTeam m.team fun t => t.lose m.port 1) := by
  show execPortMessageArrival n s = _
  unfold execPortMessageArrival
  rw [at_, may]
  dsimp only
  rw [if_neg (show ¬((!true) = true) by decide), show ({ s with msgs := s.msgs.eraseIdx n } : State).team? m.team = some t from found]
  dsimp only
  rw [live, closed]
  rfl
theorem message_enters {p : Port} (live : t.exited = false) (port : t.port? m.port = some p) (room : p.q.length < p.depth) (first : p.held = []) :
    exec (.portMessageArrival n) s = .next (({ s with msgs := s.msgs.eraseIdx n } : State).enter m.team m.port m.msg) := by
  show execPortMessageArrival n s = _
  unfold execPortMessageArrival
  rw [at_, may]
  dsimp only
  rw [if_neg (show ¬((!true) = true) by decide), show ({ s with msgs := s.msgs.eraseIdx n } : State).team? m.team = some t from found]
  dsimp only
  rw [live, port]
  dsimp only
  rw [decide_eq_true room, first]
  rfl
theorem message_held {p : Port} (live : t.exited = false) (port : t.port? m.port = some p) (full : p.depth ≤ p.q.length ∨ p.held ≠ []) :
    exec (.portMessageArrival n) s = .next
      ((({ s with msgs := s.msgs.eraseIdx n } : State).modTeam m.team fun t => t.modPort m.port fun p => { p with held := p.held ++ [{ m.msg with port := m.port }] }).writeHeld
        p.core) := by
  show execPortMessageArrival n s = _
  unfold execPortMessageArrival
  rw [at_, may]
  dsimp only
  rw [if_neg (show ¬((!true) = true) by decide), show ({ s with msgs := s.msgs.eraseIdx n } : State).team? m.team = some t from found]
  dsimp only
  rw [live, port]
  refine (if_neg Bool.false_ne_true).trans (if_neg ?_)
  rw [Bool.and_eq_true, decide_eq_true_eq, List.isEmpty_iff]
  rintro ⟨room, first⟩
  rcases full with le | some_
  · omega
  · exact some_ first
end
section
variable {s : State} {t : Team} {n : Nat} {p : Port} (found : s.team? t.id = some t) (port : t.port? n = some p) (room : p.q.length < p.depth)
include found port room
theorem roomAt_some : s.roomAt t.id n = some p := by
  unfold State.roomAt
  rw [found, Option.bind_some, port, Option.filter_some, if_pos (decide_eq_true room)]
theorem held_enters {m : Msg} {rest : List Msg} (held : p.held = m :: rest) :
    exec (.heldMessageEnter t.id n) s =
      .next (((s.modTeam t.id fun t => t.modPort n fun p => { p with held := rest }).writeHeld p.core).enter t.id n m) ∧
    exec (.blockedSendEnter t.id n) s = .next s := by
  refine ⟨?_, ?_⟩
  · show execHeldMessageEnter t.id n s = _
    unfold execHeldMessageEnter
    rw [roomAt_some found port room]
    dsimp only
    rw [held]
  · show execBlockedSendEnter t.id n s = _
    unfold execBlockedSendEnter
    rw [roomAt_some found port room]
    dsimp only
    rw [held]
theorem blocked_enters {b : Blocked} {rest : List Blocked} (held : p.held = []) (blocked : p.blocked = b :: rest) :
    exec (.blockedSendEnter t.id n) s =
      .next (((s.modTeam t.id fun t => t.modPort n fun p => { p with blocked := rest }).enter t.id n b.msg).sendEntered b.gid b.lane) := by
  show execBlockedSendEnter t.id n s = _
  unfold execBlockedSendEnter
  rw [roomAt_some found port room]
  dsimp only
  rw [held, blocked]
end
theorem unarrivable_stays (s : State) (n : Nat) (early : s.arrivable n = false) : exec (.portMessageArrival n) s = .next s := by
  show execPortMessageArrival n s = _
  unfold execPortMessageArrival
  split
  · rfl
  · rw [early]
    rfl

/-- Settles O37: each step by its own lemma (R251 to R253, R256, R263, R366 to R369). -/
theorem traverseAndPortSteps : Obligations.TraverseAndPortSteps := by
  unfold Obligations.TraverseAndPortSteps
  refine ⟨chunk_lands, multicast_lands, chunk_drains, multicast_starts, engineMoves_only, multicast_holds, drain_stalls,
    fun s t rid k j s1 maps found job fetch missed served => ⟨fun met => engineFault_mapped found job fetch missed served met,
      fun r a meets fatal single once => engineFault_fails found job fetch missed served meets fatal single once,
      fun r a x meets round waits multicast few => engineFault_holds found job fetch missed served meets round waits multicast few⟩,
    fun s n m t at_ may found => ⟨message_gone at_ may found, message_lost at_ may found, fun p live port => ⟨message_enters at_ may found live port,
      message_held at_ may found live port⟩⟩,
    unarrivable_stays, fun s t n p m rest found port room held => held_enters found port room held,
    fun s t n p b rest found port room held blocked => blocked_enters found port room held blocked, fun _ _ _ _ => rfl⟩

end Sys2Proof.Proofs


/-!
The statement about sheets and tasks (R339, R348), which two sheets of one number refute: the sheet that starts is then not the one that the
number names.
-/
namespace Sys2Proof.Proofs
open Sys2Proof Sys2Proof.Machine Sys2Proof.Laws

/-- A sheet of another queue, which bears the number of the one that is to start. -/
def namesakeSheet : Sheet := { smallSheet with queue := 2, sheetid := 5#64 }
def nextUpSheet : Sheet := { smallSheet with st := .accepted, sheetid := 7#64 }
def namesakeState : State := { smallState [] [] with sheets := [namesakeSheet, nextUpSheet] }
theorem namesake_starts : (match exec (.sheetStart 1) namesakeState with
    | .next t => (t.sheet? 1).map (·.sheetid)
    | _ => none) = some 5#64 := by decide +kernel

/-- Refutes O38: after the start of the sheet with bits [51:0] of its number 7, the sheet that the model finds under its identifier is the
other one, with bits 5. -/
theorem not_sheetAndTaskSteps : ¬ Obligations.SheetAndTaskSteps := by
  rintro ⟨-, -, -, -, -, -, starts, -⟩
  obtain ⟨waits, -⟩ := starts namesakeState 1 smallQueue nextUpSheet 0 rfl rfl rfl rfl rfl
  obtain ⟨t, x, answers, named, -, -, -, first, -⟩ := waits rfl
  have number := namesake_starts
  rw [answers] at number
  dsimp only at number
  rw [show t.sheet? 1 = some x from named, Option.map_some, first rfl] at number
  exact absurd (Option.some.inj number) (by decide)

end Sys2Proof.Proofs


/-!
The statement about placement (R353), which two sheets of one number refute: the level that the head team's wait has been given is counted for
each of them from its own.
-/
namespace Sys2Proof.Proofs
open Sys2Proof Sys2Proof.Machine Sys2Proof.Laws

/-- A task that waits for the placement of its one team. -/
def waitingTask : Task :=
  { num := 0, kernel := 0#64, hdr := { width := 16, vcount := 24, scount := 16, team := 1, scratch := 0, flags := 0 }, foots := [], args := []
    teams := 1, matrix := false, st := .ready }
def ageingSheet : Sheet := { smallSheet with tasks := [waitingTask] }
/-- Its namesake, whose head team has been given two levels before. -/
def agedSheet : Sheet := { ageingSheet with ageing := 2, ageTask := 0 }
def ageingState : State := { smallState [] [] with sheets := [ageingSheet, agedSheet], time := 1000 }
theorem ageing_counts : (match exec (.ageingStep 1 0) ageingState with
    | .next t => t.sheets.map (·.ageing)
    | _ => []) = [1, 3] := by decide +kernel

/-- Refutes O39: where two sheets bear one number, the second's level rises from its own, not to the first's. -/
theorem not_placementSteps : ¬ Obligations.PlacementSteps := by
  rintro ⟨-, -, ages, -⟩
  have claim := ages ageingState ageingSheet waitingTask rfl rfl rfl
  rw [if_pos (show ageingSheet.levels waitingTask.num < min 3 ((ageingState.time - waitingTask.wait) / (100 * ageingSheet.age)) by decide)] at claim
  have levels := ageing_counts
  rw [show exec (.ageingStep 1 0) ageingState = _ from claim] at levels
  exact absurd levels (by decide)

end Sys2Proof.Proofs


/-!
The statement about a Surveyor's copies, timer and devices (R386, R387, R391, R395, R402, R464, R465, R487).
-/
namespace Sys2Proof.Proofs
open Sys2Proof Sys2Proof.Machine Sys2Proof.Laws

/-! ### Stores of shards and devices, and what a Surveyor is charged with -/

/-- Only memory, its uncorrectable words and snoop filters change. -/
def StoresOnly (s u : State) : Prop := { u with mem := s.mem, bad := s.bad, dies := s.dies } = s
theorem StoresOnly.trans {s u v : State} (h : StoresOnly s u) (k : StoresOnly u v) : StoresOnly s v := by
  unfold StoresOnly at *
  rw [← k] at h
  exact h
theorem DiesOnly.storesOnly {s u : State} (h : DiesOnly s u) : StoresOnly s u ∧ u.mem = s.mem := by
  unfold DiesOnly at h
  have rest := congrArg (fun x : State => ({ x with mem := s.mem, bad := s.bad } : State)) h
  have mem := congrArg State.mem h
  exact ⟨rest, mem⟩
theorem StoresOnly.nvme {s u : State} (h : StoresOnly s u) : u.nvme = s.nvme := (congrArg State.nvme h : _)
theorem StoresOnly.survs {s u : State} (h : StoresOnly s u) : u.survs = s.survs := (congrArg State.survs h : _)
theorem ChargesOnly.nvme {s u : State} (h : ChargesOnly s u) : u.nvme = s.nvme := (congrArg State.nvme h : _)
theorem ChargesOnly.survs {s u : State} (h : ChargesOnly s u) : u.survs = s.survs := (congrArg State.survs h : _)
theorem ChargesOnly.mem {s u : State} (h : ChargesOnly s u) : u.mem = s.mem := (congrArg State.mem h : _)
theorem mend_storesOnly (s : State) (pa n : Nat) : StoresOnly s (s.mend pa n) := by
  unfold State.mend
  split <;> rfl
theorem shardStore_parts (s : State) (pa : Nat) (bs : List Byte) : StoresOnly s (s.shardStore pa bs) ∧ (s.shardStore pa bs).mem = s.mem.store pa bs := by
  have stored : StoresOnly s { s with mem := s.mem.store pa bs } := rfl
  obtain ⟨filtered, mem⟩ := (filterRange_dies (({ s with mem := s.mem.store pa bs } : State).mend pa bs.length) pa bs.length).storesOnly
  exact ⟨(stored.trans (mend_storesOnly _ pa bs.length)).trans filtered, mem.trans (written_mend _ pa bs.length).2⟩
theorem shardStores_parts (es : List (Nat × List Byte)) (s : State) :
    StoresOnly s (es.foldl (fun u e => u.shardStore e.1 e.2) s) ∧
      (es.foldl (fun u e => u.shardStore e.1 e.2) s).mem = es.foldl (fun m e => m.store e.1 e.2) s.mem := by
  induction es generalizing s with
  | nil => exact ⟨rfl, rfl⟩
  | cons e es ih =>
    obtain ⟨first, mem⟩ := shardStore_parts s e.1 e.2
    obtain ⟨rest, memory⟩ := ih (s.shardStore e.1 e.2)
    exact ⟨first.trans rest, by rw [List.foldl_cons, memory, mem]; rfl⟩
theorem svCharge_only (s : State) (sv cls : Nat) (ps : List (Nat × Nat)) : ChargesOnly s (s.svCharge sv cls ps) := by
  unfold State.svCharge State.chargeMove
  split
  · rfl
  · exact (chargePieces_only s _ _ ps).trans (chargeUnits_only _ _ _ _ _)

/-! ### Call copies (R387, R395) -/

theorem surv_congr {s u : State} (survs : u.survs = s.survs) (k : Nat) : u.surv k = s.surv k := by
  unfold State.surv
  rw [survs]
theorem copyBusy_teams (s : State) (slot off : Nat) : (s.copyBusy slot off).teams = s.teams ∧ (s.copyBusy slot off).survs = s.survs := by
  unfold State.copyBusy
  split
  · exact ⟨rfl, rfl⟩
  · split
    · unfold State.modCallAt
      dsimp only
      split <;> exact ⟨rfl, rfl⟩
    · exact ⟨rfl, rfl⟩
section
variable {s : State} {k : Nat} {w : DWord} {g : Group} {c : CallRec} {t : Team} (out : Bool) (free : (s.surv k).ccJob = none)
  (call : s.callAt (lowField (s.surv k).ccDst 12 40 * 4096) = some (g, c)) (team : s.team? g.team = some t)
include free call team
theorem startCopy_starts (live : t.exited = false) (chunks : lowField w 0 20 % 512 = 0) (short : lowField w 0 20 ≤ 65536)
    (aligned : lowField (s.surv k).ccSrc 0 52 % 16 = 0) (mapped : paMapped s.pool (lowField (s.surv k).ccSrc 0 52) = true)
    (inside : 512 * lowField w 20 12 + lowField w 0 20 ≤ t.s)
    (present : t.anyAbsent ((List.range (lowField w 0 20 / 512)).map fun i => 512 * lowField w 20 12 / 512 + i) = false) (failed : t.failed = []) :
    ∃ t', (s.startCopy k out w).team? g.team = some t' ∧
      t'.absent = t.absent ++ ((List.range (lowField w 0 20 / 512)).map fun i => 512 * lowField w 20 12 / 512 + i) ∧ t'.scratch = t.scratch ∧
      (s.startCopy k out w).mem = s.mem ∧ ((s.startCopy k out w).surv k).ccStat = 1 ∧
      ((s.startCopy k out w).surv k).ccJob = some { team := t.id, rid := s.fresh, pa := lowField (s.surv k).ccSrc 0 52, off := 512 * lowField w 20 12
                                                    len := lowField w 0 20, out, slot := lowField (s.surv k).ccDst 12 40 * 4096 } := by
  let cs := (List.range (lowField w 0 20 / 512)).map fun i => 512 * lowField w 20 12 / 512 + i
  let F (t : Team) : Team := { t with absent := t.absent ++ cs, rounds := t.rounds ++ [{ id := s.fresh, stage := none, jobs := [{ out, rows := [], chunks := cs, left := cs }] }] }
  let job : CopyJob := { team := t.id, rid := s.fresh, pa := lowField (s.surv k).ccSrc 0 52, off := 512 * lowField w 20 12
                         len := lowField w 0 20, out, slot := lowField (s.surv k).ccDst 12 40 * 4096 }
  have starts : s.startCopy k out w = (({ s with fresh := s.fresh + 1 } : State).modTeam t.id F).modSurv k fun v => { v with ccStat := 1, ccJob := some job } := by
    unfold State.startCopy
    dsimp only
    rw [free, call, Option.bind_some, team]
    dsimp only
    refine (if_neg (by decide)).trans (if_neg ?_)
    rw [live, chunks, aligned, mapped, present, failed, decide_eq_false (not_lt.mpr short), decide_eq_false (not_lt.mpr inside)]
    simp
  rw [starts]
  have here := team_modTeam ({ s with fresh := s.fresh + 1 } : State) t.id g.team F fun _ => rfl
  rw [if_pos (find_key Team.id g.team s.teams t team).symm, show ({ s with fresh := s.fresh + 1 } : State).team? g.team = some t from team] at here
  refine ⟨F t, here, rfl, rfl, rfl, ?_, ?_⟩ <;> rw [surv_modSurv, if_pos rfl]
theorem startCopy_refuses (wrong : lowField w 0 20 % 512 ≠ 0 ∨ 65536 < lowField w 0 20 ∨ t.s < 512 * lowField w 20 12 + lowField w 0 20) :
    ((s.startCopy k out w).surv k).ccStat = 3 ∧ ((s.startCopy k out w).surv k).ccJob = none ∧ (s.startCopy k out w).teams = s.teams := by
  have refused : s.startCopy k out w = (s.modSurv k fun v => { v with ccStat := 3 }).copyBusy (lowField (s.surv k).ccDst 12 40 * 4096) (512 * lowField w 20 12) := by
    unfold State.startCopy
    dsimp only
    rw [free, call, Option.bind_some, team]
    dsimp only
    refine (if_neg (by decide)).trans (if_pos ?_)
    simp only [Bool.or_eq_true, bne_iff_ne, decide_eq_true_eq]
    tauto
  obtain ⟨teams, survs⟩ := copyBusy_teams (s.modSurv k fun v => { v with ccStat := 3 }) (lowField (s.surv k).ccDst 12 40 * 4096) (512 * lowField w 20 12)
  rw [refused, surv_congr survs, surv_modSurv, if_pos rfl]
  exact ⟨rfl, free, teams⟩
end
theorem startCopy_busy {s : State} {k : Nat} {w : DWord} {j : CopyJob} (agent : isAgent k = true) (job : (s.surv k).ccJob = some j) (out : Bool) :
    exec (if out then .callCopyOut k w else .callCopyIn k w) s = .next (s.svErr k 3) := by
  have refused : s.startCopy k out w = s.svErr k 3 := by
    unfold State.startCopy
    dsimp only
    rw [job]
    rfl
  cases out <;> exact (if_neg (by rw [agent]; decide)).trans (congrArg Host.Outcome.next refused)
theorem callAt_congr {s u : State} (groups : u.groups = s.groups) (pa : Nat) : u.callAt pa = s.callAt pa := by
  unfold State.callAt
  rw [groups]
/-- Groups and queues, beside traffic, are all that the records of a copy's end change. -/
def RecordsOnly (s u : State) : Prop := { u with groups := s.groups, queues := s.queues, dies := s.dies, cores := s.cores, clusters := s.clusters } = s
theorem RecordsOnly.trans {s u v : State} (h : RecordsOnly s u) (k : RecordsOnly u v) : RecordsOnly s v := by
  unfold RecordsOnly at *
  rw [← k] at h
  exact h
theorem modCallAt_records (s : State) (pa : Nat) (f : CallRec → CallRec) : RecordsOnly s (s.modCallAt pa f) := by
  unfold State.modCallAt
  split <;> rfl
theorem capture_records (s : State) (n : Nat) (e : CapEntry) : RecordsOnly s (s.capture n e) := by
  unfold State.capture
  split
  · rfl
  · split <;> rfl
theorem readChunks_records (s : State) (id : Nat) : RecordsOnly s (s.readChunks id) := by
  unfold State.readChunks
  split <;> rfl
theorem ChargesOnly.records {s u : State} (h : ChargesOnly s u) : RecordsOnly s u := by
  unfold ChargesOnly at h
  have rest := congrArg (fun x : State => ({ x with groups := s.groups, queues := s.queues, dies := s.dies } : State)) h
  exact rest
theorem DiesOnly.records {s u : State} (h : DiesOnly s u) : RecordsOnly s u := by
  unfold DiesOnly at h
  have rest := congrArg (fun x : State => ({ x with groups := s.groups, queues := s.queues, cores := s.cores, clusters := s.clusters } : State)) h
  exact rest
/-- The chunks of a copy. -/
def copyChunks (j : CopyJob) : List Nat := (List.range (j.len / 512)).map fun i => j.off / 512 + i
/-- The team as its copy ends. -/
def copiedTeam (j : CopyJob) (t : Team) : Team :=
  { t with absent := t.absent.filter (fun c => !(copyChunks j).contains c), rounds := t.rounds.filter fun r => r.id != j.rid }
/-- The state as the bytes of a copy have moved. -/
def copiedState (s : State) (j : CopyJob) (t : Team) : State :=
  (if j.out then s.shardStore j.pa (t.scratch.bulk j.off j.len) else s.modTeam t.id fun t => t.scratchStore j.off (s.mem.bulk j.pa j.len)).modTeam t.id (copiedTeam j)
theorem copiedState_parts {s : State} {j : CopyJob} {t : Team} (team : s.team? j.team = some t) :
    ∃ t', (copiedState s j t).team? j.team = some t' ∧ t'.absent = t.absent.filter (fun c => !(copyChunks j).contains c) ∧
      (copiedState s j t).survs = s.survs ∧
      (j.out = true → (copiedState s j t).mem = s.mem.store j.pa (t.scratch.bulk j.off j.len) ∧ t'.scratch = t.scratch) ∧
      (j.out = false → (copiedState s j t).mem = s.mem ∧ t'.scratch = (t.scratchStore j.off (s.mem.bulk j.pa j.len)).scratch) := by
  have id : j.team = t.id := (find_key Team.id j.team s.teams t team).symm
  unfold copiedState
  cases out : j.out with
  | true =>
    obtain ⟨only, mem⟩ := shardStore_parts s j.pa (t.scratch.bulk j.off j.len)
    have teams : (s.shardStore j.pa (t.scratch.bulk j.off j.len)).team? j.team = some t := (team_congr (congrArg State.teams only : _) j.team).trans team
    have here := team_modTeam (s.shardStore j.pa (t.scratch.bulk j.off j.len)) t.id j.team (copiedTeam j) fun _ => rfl
    rw [if_pos id, teams] at here
    exact ⟨copiedTeam j t, here, rfl, (congrArg State.survs only : _), fun _ => ⟨mem, rfl⟩, (fun h => by cases h)⟩
  | false =>
    let S (x : Team) : Team := x.scratchStore j.off (s.mem.bulk j.pa j.len)
    have stored := team_modTeam s t.id j.team S fun _ => rfl
    rw [if_pos id, team] at stored
    have here := team_modTeam (s.modTeam t.id S) t.id j.team (copiedTeam j) fun _ => rfl
    rw [if_pos id, stored] at here
    exact ⟨copiedTeam j (S t), here, rfl, rfl, (fun h => by cases h), fun _ => ⟨rfl, rfl⟩⟩
theorem copy_ends {s : State} {k : Nat} {j : CopyJob} {t : Team} (agent : isAgent k = true) (job : (s.surv k).ccJob = some j)
    (team : s.team? j.team = some t) (chunks : t.bad = []) (words : s.bad = []) (moving : s.stalled (s.clusterAt k) 4 = false) :
    ∃ u, RecordsOnly (copiedState s j t) u ∧ exec (.callCopyDone k) s = .next (u.modSurv k fun v => { v with ccStat := 2, ccJob := none }) := by
  let s2 := copiedState s j t
  let u1 := s2.filterRange j.pa j.len
  let u2 := u1.modCallAt j.slot fun c => if j.out then { c with copied := c.copied ++ [(j.off, j.pa, j.len)] } else c
  let u3 := match (s.callAt j.slot), j.out with
          | some (g, c), false => u2.capture g.sheet (.scratch g.teamid g.idx c.seq j.off (s.mem.bulk j.pa j.len))
          | _, _ => u2
  have third : RecordsOnly u2 u3 := by
    simp only [u3]
    split
    · exact capture_records _ _ _
    · rfl
  refine ⟨(u3.readChunks t.id).chargeEngine (t.cores.headD 0) t.id t.sheet 4 [(j.pa, j.len)],
    ((((filterRange_dies s2 j.pa j.len).records.trans (modCallAt_records u1 j.slot _)).trans third).trans (readChunks_records u3 t.id)).trans
      (chargeEngine_only _ _ _ _ _ _).records, ?_⟩
  show execCallCopyDone k s = _
  unfold execCallCopyDone
  rw [agent, show s.svStalled k 4 = false from moving, job]
  dsimp only
  rw [team]
  dsimp only
  have sound : (if j.out = true then t.badIn j.off j.len else s.badRead j.pa j.len) = false := by
    split
    · exact badIn_none chunks _ _
    · unfold State.badRead
      rw [words]
      rfl
  rw [sound]
  rfl
theorem copy_done (s : State) (k : Nat) (j : CopyJob) (t : Team) (agent : isAgent k = true) (job : (s.surv k).ccJob = some j)
    (team : s.team? j.team = some t) (chunks : t.bad = []) (words : s.bad = []) (moving : s.stalled (s.clusterAt k) 4 = false) :
    ∃ u t', exec (.callCopyDone k) s = .next u ∧ u.team? j.team = some t' ∧ (u.surv k).ccStat = 2 ∧ (u.surv k).ccJob = none ∧
      t'.absent = t.absent.filter (fun c => !((List.range (j.len / 512)).map fun i => j.off / 512 + i).contains c) ∧
      (j.out = true → u.mem = s.mem.store j.pa (t.scratch.bulk j.off j.len) ∧ t'.scratch = t.scratch) ∧
      (j.out = false → u.mem = s.mem ∧ t'.scratch = (t.scratchStore j.off (s.mem.bulk j.pa j.len)).scratch) := by
  obtain ⟨u, only, runs⟩ := copy_ends agent job team chunks words moving
  obtain ⟨t', there, absent, -, outward, inward⟩ := copiedState_parts team
  have teams : u.teams = (copiedState s j t).teams := (congrArg State.teams only : _)
  have mem : u.mem = (copiedState s j t).mem := (congrArg State.mem only : _)
  refine ⟨_, t', runs, (team_congr teams j.team).trans there, ?_, ?_, absent, fun out => ?_, fun out => ?_⟩
  · rw [surv_modSurv, if_pos rfl]
  · rw [surv_modSurv, if_pos rfl]
  · exact ⟨mem.trans (outward out).1, (outward out).2⟩
  · exact ⟨mem.trans (inward out).1, (inward out).2⟩

/-! ### Registers, the timer and interrupts (R386, R387, R486) -/

theorem ccopyStat_reads (s : State) (k : Nat) (agent : isAgent k = true) :
    exec (.ccopyStat k) s = .next ({ s with buffers := if 2 ≤ (s.surv k).ccStat then s.buffers.filter fun e => e.1 ≠ lowField (s.surv k).ccSrc 0 52 else s.buffers }.modSurv k fun v =>
      { v with lastRead := BitVec.ofNat 64 v.ccStat, ccStat := if 2 ≤ v.ccStat then 0 else v.ccStat }) := by
  show execCcopyStat k s = _
  unfold execCcopyStat
  dsimp only
  rw [agent]
  refine (if_neg (by decide)).trans ?_
  split
  · congr 2
    simp only [State.mk.injEq, true_and, and_true]
    exact List.filter_congr fun e _ => by rw [Bool.eq_iff_iff]; simp
  · rfl
/-- SVPEND's bits are those of its six conditions. -/
theorem svpend_bits (a b c d e f : Bool) :
    let b1 (k : Nat) (x : Bool) : Nat := if x then 2 ^ k else 0
    (BitVec.ofNat 64 (b1 0 a + b1 1 b + b1 2 c + b1 3 d + b1 4 e + b1 5 f)).getLsbD 2 = c ∧
    (BitVec.ofNat 64 (b1 0 a + b1 1 b + b1 2 c + b1 3 d + b1 4 e + b1 5 f)).getLsbD 3 = d := by
  revert a b c d e f
  decide
theorem svpend_eth (s : State) (k : Nat) : (s.svpend k).getLsbD 2 = s.ethDue k := (svpend_bits _ _ _ _ _ _).1
theorem svpend_timer (s : State) (k : Nat) : (s.svpend k).getLsbD 3 = s.timerDue k := (svpend_bits _ _ _ _ _ _).2
theorem timer_expires (s : State) (k : Nat) (agent : isAgent k = true) :
    exec (.svTimerExpiry k) s = .next (if (s.surv k).svtimecmp.toNat ≤ s.time % 2 ^ 64 then s.hartInterrupt k else s) := by
  show execSvTimerExpiry k s = _
  unfold execSvTimerExpiry State.timerDue
  rw [agent, Bool.true_and]
  simp only [decide_eq_true_eq]
theorem hartInterrupt_hart (s : State) (k : Nat) : s.hartInterrupt k = s ∨ ∃ h, s.hartInterrupt k = s.modHart k fun _ => h := by
  unfold State.hartInterrupt
  split
  · exact .inr ⟨_, rfl⟩
  · split
    · exact .inr ⟨_, rfl⟩
    · exact .inl rfl

/-! ### NVMe (R391, R464, R487, R368) -/

theorem doorbell_takes (s : State) (k pair : Nat) (w : DWord) (inside : pair < 1024) (agent : isAgent k = true) :
    exec (.nvmeDoorbell k pair w) s = .next (if s.survOfShard (pair % 56) = some k then
      { s with nvme := setK s.nvme pair { getK s.nvme NvmePair.init pair with
        tail := lowField w 0 16, outstanding := (getK s.nvme NvmePair.init pair).outstanding ++ s.nvmeCmds pair (getK s.nvme NvmePair.init pair).tail (lowField w 0 16) } } else s) := by
  show execNvmeDoorbell k pair w s = _
  unfold execNvmeDoorbell State.runs
  rw [agent, decide_eq_false (not_le.mpr inside)]
  by_cases owner : s.survOfShard (pair % 56) = some k
  · rw [if_pos owner, owner]
    exact if_neg (by simp)
  · rw [if_neg owner]
    exact if_pos (by simp [owner])
/-- What a completion leaves before its message: the pair's commands, and the data that moved. -/
def completed (s : State) (pair d status : Nat) (c : Nat × Nat × Nat × Nat × Nat) (data : List Byte) : State :=
  let p := getK s.nvme NvmePair.init pair
  let ps := s.prpSegs c.2.2.1 c.2.2.2.1 data.length
  let p1 := { p with outstanding := p.outstanding.erase c }
  let s1 := { s with nvme := setK s.nvme pair p1 }
  if status != 0 then s1
  else if c.2.1 == 2 then ((splitSegs ps data).foldl (fun u e => u.shardStore e.1 e.2) s1).svCharge d 4 ps
  else if c.2.1 == 1 then { s with nvme := setK s.nvme pair { p1 with written := p1.written ++ [s.mem.segLoad ps] } }.svCharge d 4 ps
  else s1
theorem completed_parts (s : State) (pair d status : Nat) (c : Nat × Nat × Nat × Nat × Nat) (data : List Byte) :
    let p := getK s.nvme NvmePair.init pair
    let u := completed s pair d status c data
    u.survs = s.survs ∧ (getK u.nvme NvmePair.init pair).outstanding = p.outstanding.erase c ∧
      (c.2.1 ≠ 2 ∨ status ≠ 0 → u.mem = s.mem) ∧
      (c.2.1 = 2 → status = 0 → u.mem = (splitSegs (s.prpSegs c.2.2.1 c.2.2.2.1 data.length) data).foldl (fun m e => m.store e.1 e.2) s.mem) ∧
      (c.2.1 = 1 → status = 0 → (getK u.nvme NvmePair.init pair).written = p.written ++ [s.mem.segLoad (s.prpSegs c.2.2.1 c.2.2.2.1 data.length)]) := by
  unfold completed
  dsimp only
  by_cases good : status = 0
  · rw [if_neg (by simpa using good)]
    by_cases read : c.2.1 = 2
    · rw [if_pos (beq_iff_eq.mpr read)]
      let s1 : State := { s with nvme := setK s.nvme pair { getK s.nvme NvmePair.init pair with outstanding := (getK s.nvme NvmePair.init pair).outstanding.erase c } }
      obtain ⟨only, mem⟩ := shardStores_parts (splitSegs (s.prpSegs c.2.2.1 c.2.2.2.1 data.length) data) s1
      have charged := svCharge_only ((splitSegs (s.prpSegs c.2.2.1 c.2.2.2.1 data.length) data).foldl (fun u e => u.shardStore e.1 e.2) s1) d 4
        (s.prpSegs c.2.2.1 c.2.2.2.1 data.length)
      refine ⟨charged.survs.trans only.survs, ?_, fun h => ?_, fun _ _ => charged.mem.trans mem, fun h => by omega⟩
      · rw [charged.nvme.trans only.nvme, getK_setK_same]
      · exact absurd h (by simp [read, good])
    · rw [if_neg (by simpa using read)]
      by_cases write : c.2.1 = 1
      · rw [if_pos (beq_iff_eq.mpr write)]
        have charged := svCharge_only ({ s with nvme := setK s.nvme pair { getK s.nvme NvmePair.init pair with
          outstanding := (getK s.nvme NvmePair.init pair).outstanding.erase c
          written := (getK s.nvme NvmePair.init pair).written ++ [s.mem.segLoad (s.prpSegs c.2.2.1 c.2.2.2.1 data.length)] } } : State) d 4
          (s.prpSegs c.2.2.1 c.2.2.2.1 data.length)
        refine ⟨charged.survs, ?_, fun _ => charged.mem, fun h => absurd h read, fun _ _ => ?_⟩
        · rw [charged.nvme, getK_setK_same]
        · rw [charged.nvme, getK_setK_same]
      · rw [if_neg (by simpa using write)]
        exact ⟨rfl, by rw [getK_setK_same], fun _ => rfl, fun h => absurd h read, fun h => absurd h write⟩
  · rw [if_pos (by simpa using good)]
    exact ⟨rfl, by rw [getK_setK_same], fun _ => rfl, fun _ h => absurd h good, fun _ h => absurd h good⟩
/-- The message of a completion. -/
def completionMsg (s : State) (pair cid status : Nat) : Msg :=
  { data := 0#64, aux := cid % 65536 + (if Config.nvmePhase s.free then 1 else 0) * 65536 + status % 32768 * 131072, info := pair, port := 15, kind := 8 }
section
variable {s : State} {pair cid status d : Nat} {data : List Byte} {c : Nat × Nat × Nat × Nat × Nat} (inside : pair < 1024)
  (found : (getK s.nvme NvmePair.init pair).outstanding.find? (fun c => c.1 == cid) = some c) (owner : s.survOfShard (pair % 56) = some d)
  (moving : s.stalled (s.clusterAt d) 4 = false) (ends : nvmeEnds c.2.1 c.2.2.2.2 status data.length = true)
include inside found owner moving ends
theorem completion_posts (room : ((s.surv d).mbox.getD 15 []).length < 16 ∨ (s.surv d).heldCount < Config.heldEntries) :
    exec (.nvmeCompletion pair cid status data) s =
      .next ({ completed s pair d status c data with free := (completed s pair d status c data).free + 1 }.mboxPost d
        (completionMsg s pair cid status)) := by
  show execNvmeCompletion pair cid status data s = _
  unfold execNvmeCompletion
  dsimp only
  rw [found, owner]
  dsimp only
  refine if_neg ?_
  rw [show decide (1024 ≤ pair) = false from decide_eq_false (not_le.mpr inside), ends, show s.svStalled d 4 = false from moving]
  rcases room with lt | lt
  · rw [show decide (Config.mboxDepth ≤ ((s.surv d).mbox.getD 15 []).length) = false from decide_eq_false (not_le.mpr lt)]
    simp
  · rw [show decide (Config.heldEntries ≤ (s.surv d).heldCount) = false from decide_eq_false (not_le.mpr lt), Bool.and_false]
    simp
theorem completion_enters (room : ((s.surv d).mbox.getD 15 []).length < 16) :
    let p := getK s.nvme NvmePair.init pair
    ∃ t m, exec (.nvmeCompletion pair cid status data) s = .next t ∧ (t.surv d).mbox = (s.surv d).mbox.modify 15 (· ++ [m]) ∧
        m.kind = 8 ∧ m.info = pair ∧ (getK t.nvme NvmePair.init pair).outstanding = p.outstanding.erase c ∧
        (c.2.1 ≠ 2 ∨ status ≠ 0 → t.mem = s.mem) ∧
        (c.2.1 = 2 → status = 0 →
          t.mem = (splitSegs (s.prpSegs c.2.2.1 c.2.2.2.1 data.length) data).foldl (fun m e => m.store e.1 e.2) s.mem) ∧
        (c.2.1 = 1 → status = 0 → (getK t.nvme NvmePair.init pair).written =
          p.written ++ [s.mem.segLoad (s.prpSegs c.2.2.1 c.2.2.2.1 data.length)]) := by
  obtain ⟨survs, outstanding, mem, read, written⟩ := completed_parts s pair d status c data
  let u : State := { completed s pair d status c data with free := (completed s pair d status c data).free + 1 }
  have surv : u.surv d = s.surv d := surv_congr survs d
  have posts : u.mboxPost d (completionMsg s pair cid status) =
      u.mboxPut d (completionMsg s pair cid status) := by
    unfold State.mboxPost
    refine if_pos ?_
    rw [surv]
    exact room
  refine ⟨_, completionMsg s pair cid status, (completion_posts inside found owner moving ends (.inl room)).trans
    (congrArg Host.Outcome.next posts), ?_, rfl, rfl, outstanding, mem, read, written⟩
  unfold State.mboxPut
  rw [surv_modSurv, if_pos rfl, surv]
  rfl
theorem completion_held (full : 16 ≤ ((s.surv d).mbox.getD 15 []).length) (held : (s.surv d).heldCount < Config.heldEntries) :
    ∃ t m, exec (.nvmeCompletion pair cid status data) s = .next t ∧ (t.surv d).mbox = (s.surv d).mbox ∧
        (t.surv d).mheld = (s.surv d).mheld.modify 15 (· ++ [m]) ∧ m.kind = 8 ∧ m.info = pair ∧
        (getK t.nvme NvmePair.init pair).outstanding = (getK s.nvme NvmePair.init pair).outstanding.erase c := by
  obtain ⟨survs, outstanding, -⟩ := completed_parts s pair d status c data
  let u : State := { completed s pair d status c data with free := (completed s pair d status c data).free + 1 }
  have surv : u.surv d = s.surv d := surv_congr survs d
  let m := completionMsg s pair cid status
  have posts : u.mboxPost d m = u.modSurv d fun v => { v with mheld := v.mheld.modify 15 (· ++ [m]) } := by
    unfold State.mboxPost
    refine if_neg ?_
    rw [surv]
    exact not_lt.mpr full
  refine ⟨_, m, (completion_posts inside found owner moving ends (.inr held)).trans (congrArg Host.Outcome.next posts), ?_, ?_, rfl, rfl, outstanding⟩
  · rw [surv_modSurv, if_pos rfl, surv]
  · rw [surv_modSurv, if_pos rfl, surv]
end

theorem completion_waits {s : State} {pair cid status d : Nat} {data : List Byte} {c : Nat × Nat × Nat × Nat × Nat}
    (found : (getK s.nvme NvmePair.init pair).outstanding.find? (fun c => c.1 == cid) = some c) (owner : s.survOfShard (pair % 56) = some d)
    (full : 16 ≤ ((s.surv d).mbox.getD 15 []).length) (held : Config.heldEntries ≤ (s.surv d).heldCount) :
    exec (.nvmeCompletion pair cid status data) s = .next s := by
  show execNvmeCompletion pair cid status data s = _
  unfold execNvmeCompletion
  dsimp only
  rw [found, owner]
  dsimp only
  refine if_pos ?_
  rw [show decide (Config.mboxDepth ≤ ((s.surv d).mbox.getD 15 []).length) = true from decide_eq_true full, show decide (Config.heldEntries ≤ (s.surv d).heldCount) = true from decide_eq_true held]
  simp

/-! ### Ethernet and the clock (R391, R402, R447, R465) -/

/-- The state once a frame has been charged. -/
def framed (s : State) (n : Nat) (frame : List Byte) : State :=
  match s.survOfShard (n % 56) with
    | some d => if 64 ≤ d then s else s.chargeTraffic (s.clusterAt d) 4 frame.length 0
    | none => s
theorem framed_only (s : State) (n : Nat) (frame : List Byte) : ChargesOnly s (framed s n frame) := by
  unfold framed
  split
  · split
    · rfl
    · exact (chargeUnits_only s _ _ _ _).trans (chargeUnits_only _ _ _ _ _)
  · rfl
/-- The sockets with a frame at a queue. -/
def withFrame (ks : List Socket) (n : Nat) (frame : List Byte) : List Socket :=
  if ks.any fun k => k.num == n then ks.map fun k => if k.num == n then { k with rx := k.rx ++ [frame] } else k else ks ++ [{ num := n, rx := [frame] }]
theorem withFrame_has (ks : List Socket) (n : Nat) (frame : List Byte) :
    ∃ x ∈ withFrame ks n frame, x.num = n ∧ ((∃ y ∈ ks, y.num = n ∧ x.rx = y.rx ++ [frame]) ∨ ((∀ y ∈ ks, y.num ≠ n) ∧ x.rx = [frame])) := by
  unfold withFrame
  split
  next some_ =>
    obtain ⟨y, mem, is⟩ := List.any_eq_true.mp some_
    have num : y.num = n := beq_iff_eq.mp is
    exact ⟨{ y with rx := y.rx ++ [frame] }, List.mem_map.mpr ⟨y, mem, if_pos is⟩, num, .inl ⟨y, mem, num, rfl⟩⟩
  next none_ =>
    refine ⟨{ num := n, rx := [frame] }, List.mem_append_right _ List.mem_cons_self, rfl, .inr ⟨fun y mem is => none_ ?_, rfl⟩⟩
    exact List.any_eq_true.mpr ⟨y, mem, beq_iff_eq.mpr is⟩
theorem frame_queues (s : State) (n : Nat) (frame : List Byte) (inside : n < 1024) (short : frame.length ≤ 9216)
    (moving : ∀ d, s.survOfShard (n % 56) = some d → s.stalled (s.clusterAt d) 4 = false) :
    exec (.ethRx n frame) s = .next { framed s n frame with sockets := withFrame s.sockets n frame } := by
  have same : (framed s n frame).sockets = s.sockets := (congrArg State.sockets (framed_only s n frame) : _)
  have free : ((s.survOfShard (n % 56)).any (s.svStalled · 4)) = false := by
    cases shard : s.survOfShard (n % 56) with
    | none => rfl
    | some d => exact moving d shard
  show execEthRx n frame s = _
  unfold execEthRx
  rw [free, decide_eq_false (not_le.mpr inside), decide_eq_false (not_lt.mpr short)]
  refine (if_neg (by decide)).trans ?_
  show (if ((framed s n frame).sockets.any fun k => k.num == n) = true then
      Host.Outcome.next { framed s n frame with sockets := (framed s n frame).sockets.map fun k : Socket => if k.num == n then { k with rx := k.rx ++ [frame] } else k }
    else Host.Outcome.next { framed s n frame with sockets := (framed s n frame).sockets ++ [{ num := n, rx := [frame] }] }) = _
  rw [same]
  unfold withFrame
  split <;> rfl
theorem frame_arrives (s : State) (n : Nat) (frame : List Byte) (inside : n < 1024) (short : frame.length ≤ 9216)
    (moving : ∀ d, s.survOfShard (n % 56) = some d → s.stalled (s.clusterAt d) 4 = false) :
    ∃ t, exec (.ethRx n frame) s = .next t ∧ (∃ x ∈ t.sockets, x.num = n ∧
        ((∃ y ∈ s.sockets, y.num = n ∧ x.rx = y.rx ++ [frame]) ∨ ((∀ y ∈ s.sockets, y.num ≠ n) ∧ x.rx = [frame]))) ∧
      ∀ d, s.survOfShard (n % 56) = some d → (t.svpend d).getLsbD 2 = true := by
  obtain ⟨x, mem, num, rx⟩ := withFrame_has s.sockets n frame
  refine ⟨_, frame_queues s n frame inside short moving, ⟨x, mem, num, rx⟩, fun d shard => ?_⟩
  have lcl : (framed s n frame).lcl = s.lcl := (congrArg State.lcl (framed_only s n frame) : _)
  rw [svpend_eth]
  refine List.any_eq_true.mpr ⟨x, mem, ?_⟩
  have runs : ({ framed s n frame with sockets := withFrame s.sockets n frame } : State).survOfShard (n % 56) = s.survOfShard (n % 56) := by
    unfold State.survOfShard State.physOf
    rw [show ({ framed s n frame with sockets := withFrame s.sockets n frame } : State).lcl = s.lcl from lcl]
  unfold State.runs
  rw [num, runs, shard, beq_self_eq_true, Bool.true_and]
  rcases rx with ⟨y, -, -, is⟩ | ⟨-, is⟩ <;> rw [is] <;> simp
theorem stalled_waits (s : State) (k : Nat) (stalled : s.stalled (s.clusterAt k) 4 = true) : exec (.callCopyDone k) s = .next s ∧
    (∀ pair cid st data, s.survOfShard (pair % 56) = some k → exec (.nvmeCompletion pair cid st data) s = .next s) ∧
    ∀ n frame, s.survOfShard (n % 56) = some k → exec (.ethRx n frame) s = .next s := by
  have stops : s.svStalled k 4 = true := stalled
  refine ⟨?_, fun pair cid st data owner => ?_, fun n frame owner => ?_⟩
  · show execCallCopyDone k s = _
    unfold execCallCopyDone
    exact if_pos (by rw [stops, Bool.or_true])
  · show execNvmeCompletion pair cid st data s = _
    unfold execNvmeCompletion
    dsimp only
    rw [owner]
    split
    next c d found same =>
      cases same
      exact if_pos (by rw [stops]; simp)
    next => rfl
  · show execEthRx n frame s = _
    unfold execEthRx
    exact if_pos (by rw [owner, Option.any_some, stops, Bool.or_true])

/-- Settles O41: each register and device by its own lemma (R386, R387, R391, R395, R402, R447, R464, R465, R486, R487). -/
theorem surveyorUnits : Obligations.SurveyorUnits := by
  unfold Obligations.SurveyorUnits
  refine ⟨fun s k out w g c t agent free call team => ⟨fun live chunks short aligned mapped inside present failed => ?_, fun wrong => ?_⟩,
    fun s k w j agent job => ?_, copy_done, ccopyStat_reads, fun s k w agent => ?_, svpend_timer, timer_expires, hartInterrupt_hart, fun s k pair w inside agent =>
      doorbell_takes s k pair w inside agent, fun s pair cid status data c d inside found owner moving ends =>
      ⟨completion_enters inside found owner moving ends, completion_held inside found owner moving ends, completion_waits found owner⟩,
    frame_arrives, stalled_waits, svpend_eth, fun _ _ => rfl⟩
  · obtain ⟨t', there, absent, scratch, mem, stat, started⟩ :=
      startCopy_starts out free call team live chunks short aligned mapped inside present failed
    refine ⟨_, t', ?_, there, absent, scratch, mem, stat, started⟩
    cases out <;> exact if_neg (by rw [agent]; decide)
  · obtain ⟨stat, started, teams⟩ := startCopy_refuses out free call team wrong
    refine ⟨_, ?_, stat, started, teams⟩
    cases out <;> exact if_neg (by rw [agent]; decide)
  · exact ⟨startCopy_busy agent job false, startCopy_busy agent job true⟩
  · exact if_neg (by rw [agent]; decide)

end Sys2Proof.Proofs

/-! The calls that the survey kernel serves: one lemma of what serving a call does, from which each call's answer follows. -/
namespace Sys2Proof.Proofs
open Sys2Proof Sys2Proof.Machine Sys2Proof.Laws

/-- What a store keeps besides memory, check bits and dies. -/
theorem StoresOnly.groups {s u : State} (h : StoresOnly s u) : u.groups = s.groups := (congrArg State.groups h : _)
/-- Stores of one value at the RESULT words of lanes. -/
theorem results_parts (pa : Nat) (v : DWord) (ls : List Nat) (u : State) :
    StoresOnly u (ls.foldl (fun (u : State) L => u.shardStore (pa + 2176 + 8 * L) (leBytes 8 v.toNat)) u) ∧
      (ls.foldl (fun (u : State) L => u.shardStore (pa + 2176 + 8 * L) (leBytes 8 v.toNat)) u).mem =
        ls.foldl (fun m L => m.store (pa + 2176 + 8 * L) (leBytes 8 v.toNat)) u.mem := by
  have stores := shardStores_parts (ls.map fun L => (pa + 2176 + 8 * L, leBytes 8 v.toNat)) u
  simpa only [List.foldl_map] using stores
/-- A store keeps no word bad that was good. -/
theorem shardStore_bad (s : State) (pa : Nat) (bs : List Byte) : ∀ w ∈ (s.shardStore pa bs).bad, w ∈ s.bad := by
  have kept : (s.shardStore pa bs).bad = (({ s with mem := s.mem.store pa bs } : State).mend pa bs.length).bad :=
    (congrArg State.bad (filterRange_dies (({ s with mem := s.mem.store pa bs } : State).mend pa bs.length) pa bs.length) : _)
  intro w hw
  rw [kept] at hw
  unfold State.mend at hw
  split at hw
  · exact hw
  · exact (List.mem_filter.mp hw).1
theorem results_bad (pa : Nat) (v : DWord) (ls : List Nat) (u : State) :
    ∀ w ∈ (ls.foldl (fun (u : State) L => u.shardStore (pa + 2176 + 8 * L) (leBytes 8 v.toNat)) u).bad, w ∈ u.bad := by
  induction ls generalizing u with
  | nil => exact fun w hw => hw
  | cons L ls ih => exact fun w hw => shardStore_bad u _ _ w (ih _ w hw)

/-! ### Serving a call (R394, R395, R428) -/

/-- The mark of the lanes that a call answers. -/
def servedBy (x : Call) (led : Mask) (g : Group) : Group :=
  { g with calls := g.calls.map fun y => if y.slot == x.c.slot then { y with served := y.served ||| led } else y }

section
variable {s : State} {slot lane n : Nat} {merge : Bool} {x : Call} {led : Mask} {k : Call → State → DWord × State}
  {need : Call → State → Option (List (Nat × Nat))}

/-- The call of the statement is the call that the shard finds. -/
theorem serving_call (h : Serving s slot lane n x led merge) :
    x = { g := x.g, c := x.c, pa := slot, lane, args := s.mem.callArgs slot lane } := by
  obtain ⟨pa, at_, args⟩ := h.at_
  rw [← args, ← pa, ← at_]

/-- What a shard does once nothing holds a call up. -/
theorem serve_eq (h : Serving s slot lane n x led merge) : s.serve slot lane n merge k need =
    match need x s with
    | none => .next s
    | some rs =>
      let away := (rs.flatMap fun e => s.absentPages x.g.asn e.1 e.2).filter fun p => !x.c.replied.contains p
      if !away.isEmpty then .next (s.modCall x.g.id x.c.slot fun c => { c with asked := (c.asked ++ away).eraseDups })
      else .next (((lanesOf 64 led).foldl (fun (u : State) L => u.shardStore (slot + 2176 + 8 * L) (leBytes 8 (k x s).1.toNat)) (k x s).2).modGrp
        x.g.id (servedBy x led)) := by
  obtain ⟨due, unserved, unanswered⟩ := h.due
  obtain ⟨lanes, here⟩ := h.lanes
  have open_ : (x.c.callno != n || !x.c.active.getLsbD lane || x.c.served.getLsbD lane || x.c.answered.getLsbD lane ||
      !(s.ledLanes slot lane merge x.c).getLsbD lane || !s.reached { g := x.g, c := x.c, pa := slot, lane, args := s.mem.callArgs slot lane } ||
      !s.inTurn { g := x.g, c := x.c, pa := slot, lane, args := s.mem.callArgs slot lane }) = false := by
    rw [← serving_call h, h.number, due, unserved, unanswered, ← lanes, here, h.reached, h.turn]
    simp
  unfold State.serve
  rw [h.found]
  dsimp only
  rw [if_neg (by rw [open_]; decide), if_neg (by rw [h.live]; decide), ← serving_call h, ← lanes]
  cases need x s with
  | none => rfl
  | some rs => rfl

/-- A call that needs a copy first waits. -/
theorem serve_waits (h : Serving s slot lane n x led merge) (needs : need x s = none) : s.serve slot lane n merge k need = .next s := by
  rw [serve_eq h, needs]

/-- A shard that needs absent pages asks the memory shards for them. -/
theorem serve_asks (h : Serving s slot lane n x led merge) {rs : List (Nat × Nat)} (needs : need x s = some rs)
    (away : ((rs.flatMap fun e => s.absentPages x.g.asn e.1 e.2).filter fun p => !x.c.replied.contains p) ≠ []) :
    s.serve slot lane n merge k need = .next (s.modCall x.g.id x.c.slot fun c => { c with asked :=
      (c.asked ++ (rs.flatMap fun e => s.absentPages x.g.asn e.1 e.2).filter fun p => !x.c.replied.contains p).eraseDups }) := by
  rw [serve_eq h, needs]
  dsimp only
  exact if_pos (by simpa using away)

/-- A call whose pages are there is answered with what its row gives. -/
theorem serves_of {i : Instr} {v : DWord} {u : State} {rs : List (Nat × Nat)} (h : Serving s slot lane n x led merge)
    (run : exec i s = s.serve slot lane n merge k need) (needs : need x s = some rs) (pages : s.HasPages x rs) (gives : k x s = (v, u)) :
    Serves i s x led v u := by
  have here : ((rs.flatMap fun e => s.absentPages x.g.asn e.1 e.2).filter fun p => !x.c.replied.contains p) = [] := by
    rw [List.filter_eq_nil_iff]
    intro p hp
    obtain ⟨e, he, hp⟩ := List.mem_flatMap.mp hp
    simpa using pages e he p hp
  obtain ⟨pa, -, -⟩ := h.at_
  obtain ⟨only, mem⟩ := results_parts slot v (lanesOf 64 led) u
  refine ⟨((lanesOf 64 led).foldl (fun (u : State) L => u.shardStore (slot + 2176 + 8 * L) (leBytes 8 v.toNat)) u).modGrp x.g.id (servedBy x led),
    ?_, ?_, ?_, ?_, ?_⟩
  · rw [run, serve_eq h, needs]
    dsimp only
    rw [here, gives]
    rfl
  · rw [pa]
    exact mem
  · exact congrArg (fun t : State => ({ t with groups := u.groups } : State)) only
  · exact results_bad slot v (lanesOf 64 led) u
  · exact congrArg (List.map _) only.groups
/-- The same of a call that touches none of the caller's memory. -/
theorem serves_plain {i : Instr} {v : DWord} {u : State} (h : Serving s slot lane n x led merge)
    (run : exec i s = s.serve slot lane n merge k) (gives : k x s = (v, u)) : Serves i s x led v u :=
  serves_of h run rfl (fun _ he => nomatch he) gives
end
/-! ### Calls on data (R389, R400 to R403, R494) -/

/-- Ranges of which nothing is asked are there. -/
theorem hasPages_nil (s : State) (x : Call) : s.HasPages x [] := fun _ he => nomatch he

section
variable {s : State} {slot lane : Nat} {x : Call} {led : Mask}

theorem serves_sysTime (h : Serving s slot lane 0x01 x led true) :
    (s.utcValid = false → Serves (.sysTime slot lane) s x led (svStatus 11) s) ∧
    (s.utcValid = true →
      let t := max (s.utcBase + BitVec.ofNat 64 (10 * s.time)).toNat x.g.lastTime
      Serves (.sysTime slot lane) s x led (BitVec.ofNat 64 t) (s.modGrp x.g.id fun g => { g with lastTime := t })) := by
  have run : exec (.sysTime slot lane) s = execSysTime slot lane s := rfl
  exact ⟨fun off => serves_plain h run (if_neg (by rw [off]; decide)), fun on => serves_plain h run (if_pos on)⟩

theorem serves_sysTimeset (h : Serving s slot lane 0x02 x led false) :
    (x.admin s = false → Serves (.sysTimeset slot lane) s x led (svStatus 1) s) ∧
    (x.admin s = true → Serves (.sysTimeset slot lane) s x led 0#64
      { s with utcBase := x.arg 0 - BitVec.ofNat 64 (10 * s.time), utcValid := true }) := by
  have run : exec (.sysTimeset slot lane) s = execSysTimeset slot lane s := rfl
  exact ⟨fun no => serves_plain h run (if_neg (by rw [no]; decide)), fun yes => serves_plain h run (if_pos yes)⟩

theorem serves_sysAlloc {va : Nat} {maps : List MapReq} (h : Serving s slot lane 0x10 x led false) (aligned : alignOk (x.num 1) = true)
    (some_ : x.num 0 ≠ 0) :
    (∀ u, va % x.num 1 = 0 → va + x.num 0 ≤ 2 ^ 57 → (∀ p ∈ pagesOf va (x.num 0), s.walk x.g.asn p = none) →
      s.mapServed x.g.asn maps = some u → (u.asnSegs x.g.asn va (x.num 0)).isSome = true →
      Serves (.sysAlloc slot lane va maps) s x led (BitVec.ofNat 64 va)
        { u with allocs := u.allocs ++ [{ asn := x.g.asn, sheet := x.g.sheet, va, len := x.num 0 }] }) ∧
    (s.mapServed x.g.asn maps = none → Serves (.sysAlloc slot lane va maps) s x led (svStatus 12) s) := by
  have run : exec (.sysAlloc slot lane va maps) s = execSysAlloc slot lane va maps s := rfl
  have sized : (!alignOk (x.num 1) || x.num 0 == 0) = false := by simp [aligned, some_]
  refine ⟨fun u place room free mapped there => serves_plain h run ?_, fun full => serves_plain h run ?_⟩ <;>
    refine (if_neg (by rw [sized]; decide)).trans ?_
  · have fits : (va % x.num 1 != 0 || decide (2 ^ 57 < va + x.num 0) || !((pagesOf va (x.num 0)).all fun p => (s.walk x.g.asn p).isNone)) = false := by
      simpa [place] using And.intro room free
    refine (if_neg (by rw [fits]; decide)).trans ?_
    rw [mapped]
    exact if_pos there
  · rw [full]
    exact ite_self _

theorem serves_sysFree {b : Alloc} (h : Serving s slot lane 0x11 x led true)
    (block : (s.allocs.find? fun b => b.asn == x.g.asn && b.va == x.num 0) = some b) :
    Serves (.sysFree slot lane) s x led 0#64 (s.freeBlock b) :=
  serves_plain h (show exec (.sysFree slot lane) s = execSysFree slot lane s from rfl) (by rw [block])

theorem serves_sysOpen {inode : Nat} {p : List Byte} (h : Serving s slot lane 0x20 x led true) (flags : x.num 1 < 4)
    (pages : s.HasPages x (s.pathNeeds x.g.asn (x.num 0))) (path : s.pathAt x.g.asn (x.num 0) = .ok p) :
    (∀ f, (s.files.find? fun f => f.path == p) = some f →
      Serves (.sysOpen slot lane inode) s x led (s.openFd x f.inode ((x.arg 1).getLsbD 0)).1 (s.openFd x f.inode ((x.arg 1).getLsbD 0)).2) ∧
    ((s.files.find? fun f => f.path == p) = none → (x.arg 1).getLsbD 1 = false → Serves (.sysOpen slot lane inode) s x led (svStatus 2) s) ∧
    ((s.files.find? fun f => f.path == p) = none → (x.arg 1).getLsbD 1 = true →
      let n := lowestFree (s.files.map (·.inode)) inode
      let t := { s with files := s.files ++ [{ inode := n, path := p }] }
      Serves (.sysOpen slot lane inode) s x led (State.openFd t x n ((x.arg 1).getLsbD 0)).1 (State.openFd t x n ((x.arg 1).getLsbD 0)).2) := by
  have run : exec (.sysOpen slot lane inode) s = execSysOpen slot lane inode s := rfl
  have plain : ¬ 4 ≤ x.num 1 := by omega
  have needs : some (if 4 ≤ x.num 1 then [] else s.pathNeeds x.g.asn (x.num 0)) = some (s.pathNeeds x.g.asn (x.num 0)) := congrArg some (if_neg plain)
  refine ⟨fun f file => serves_of h run needs pages ?_, fun none_ off => serves_of h run needs pages ?_,
    fun none_ on => serves_of h run needs pages ?_⟩ <;> refine (if_neg plain).trans ?_
  · simp only [path, file]
  · simp only [path, none_]
    exact if_neg (by rw [off]; decide)
  · simp only [path, none_]
    exact if_pos on

theorem serves_sysOpen_flags {inode : Nat} (h : Serving s slot lane 0x20 x led true) (flags : 4 ≤ x.num 1) :
    Serves (.sysOpen slot lane inode) s x led (svStatus 22) s :=
  serves_of h (show exec (.sysOpen slot lane inode) s = execSysOpen slot lane inode s from rfl) (congrArg some (if_pos flags)) (hasPages_nil s x)
    (if_pos flags)

theorem serves_sysClose (h : Serving s slot lane 0x21 x led true) :
    (∀ f, s.fdOf x = some f → Serves (.sysClose slot lane) s x led 0#64 { s with fds := s.fds.erase f }) ∧
    (s.fdOf x = none → Serves (.sysClose slot lane) s x led (svStatus 9) s) := by
  have run : exec (.sysClose slot lane) s = execSysClose slot lane s := rfl
  exact ⟨fun f open_ => serves_plain h run (by rw [open_]), fun none_ => serves_plain h run (by rw [none_]; rfl)⟩

theorem serves_sysRead {buf : Nat} {f : Fd} {fl : File} {u : State} (h : Serving s slot lane 0x22 x led true) (open_ : s.fdOf x = some f)
    (file : s.fileOf f = some fl) (plain : (x.arg 1).msb = false)
    (pages : s.HasPages x [(x.num 1, min (x.num 2) (fl.len - x.num 3))])
    (stored : s.callStore x (x.num 1) (fl.data.bulk (x.num 3) (min (x.num 2) (fl.len - x.num 3))) = some u) :
    Serves (.sysRead slot lane buf) s x led (BitVec.ofNat 64 (min (x.num 2) (fl.len - x.num 3))) u := by
  have named : (s.fdOf x).bind s.fileOf = some fl := by rw [open_]; exact file
  refine serves_of h (show exec (.sysRead slot lane buf) s = _ from show execSysRead slot lane buf s = _ by unfold execSysRead; dsimp only) ?_ pages ?_
  · simp only [named]
    exact if_pos (by unfold inScratch; rw [plain]; rfl)
  · simp only [named]
    refine (if_neg (by unfold inScratch; rw [plain]; decide)).trans ?_
    rw [stored]

theorem serves_sysRead_scratch {buf : Nat} {f : Fd} {fl : File} (h : Serving s slot lane 0x22 x led true) (open_ : s.fdOf x = some f)
    (file : s.fileOf f = some fl) (scratch : (x.arg 1).msb = true) :
    let n := min (x.num 2) (fl.len - x.num 3)
    (scratchOk (x.arg 1) (x.num 2) = true → s.bufFree buf (x.num 2) = true → Serves (.sysRead slot lane buf) s x led (BitVec.ofNat 64 n)
      ((s.shardStore buf (padTo (x.num 2) (fl.data.bulk (x.num 3) n))).sourcePa x buf (x.num 2))) ∧
    (scratchOk (x.arg 1) (x.num 2) = true → s.bufFree buf (x.num 2) = false → exec (.sysRead slot lane buf) s = .next s) ∧
    (scratchOk (x.arg 1) (x.num 2) = false → Serves (.sysRead slot lane buf) s x led (svStatus 22) s) := by
  have named : (s.fdOf x).bind s.fileOf = some fl := by rw [open_]; exact file
  have run : exec (.sysRead slot lane buf) s = _ := show execSysRead slot lane buf s = _ by unfold execSysRead; dsimp only
  have inside : ¬ (!inScratch (x.arg 1)) = true := by unfold inScratch; rw [scratch]; decide
  refine ⟨fun ok free => serves_of h run ?_ (hasPages_nil s x) ?_, fun ok held => ?_, fun bad => serves_of h run ?_ (hasPages_nil s x) ?_⟩
  · simp only [named]
    exact (if_neg inside).trans (if_pos (by rw [free, Bool.or_true]))
  · simp only [named]
    exact (if_pos scratch).trans (if_pos ok)
  · refine run.trans (serve_waits h ?_)
    simp only [named]
    exact (if_neg inside).trans (if_neg (by rw [ok, held]; decide))
  · simp only [named]
    exact (if_neg inside).trans (if_pos (by rw [bad]; rfl))
  · simp only [named]
    exact (if_pos scratch).trans (if_neg (by rw [bad]; decide))

theorem serves_sysRead_closed {buf : Nat} (h : Serving s slot lane 0x22 x led true) (none_ : s.fdOf x = none) :
    Serves (.sysRead slot lane buf) s x led (svStatus 9) s := by
  have named : (s.fdOf x).bind s.fileOf = none := by rw [none_]; rfl
  refine serves_of h (show exec (.sysRead slot lane buf) s = _ from show execSysRead slot lane buf s = _ by unfold execSysRead; dsimp only) (rs := []) ?_ (hasPages_nil s x) ?_
  · simp only [named]
  · simp only [named]
    rfl

theorem effect_now {s : State} {x : Call} {g : Sheet} (d : Deferred) (sheet : s.sheet? x.g.sheet = some g) (now : g.immio = true) :
    s.effect x d = s.perform d := by
  unfold State.effect
  rw [sheet]
  exact if_pos now
theorem effect_later {s : State} {x : Call} {g : Sheet} (d : Deferred) (sheet : s.sheet? x.g.sheet = some g) (later : g.immio = false) :
    s.effect x d = s.modSheet g.id fun h => { h with deferred := h.deferred ++ [(x.c.seq, x.lane, d)] } := by
  unfold State.effect
  rw [sheet]
  exact if_neg (by rw [later]; decide)
/-- What a call that sends from the caller's memory needs. -/
theorem sendNeeds_memory {x : Call} (buf n : Nat) {ok : Bool} (plain : (x.arg 1).msb = false) (fine : ok = true) :
    x.sendNeeds buf n ok = some [(x.num 1, n)] := by
  unfold Call.sendNeeds inScratch
  rw [plain, fine]
  rfl
theorem sendNeeds_scratch {x : Call} (buf n : Nat) {ok : Bool} (scratch : (x.arg 1).msb = true) (fine : ok = true) :
    x.sendNeeds buf n ok = if x.copyRun buf n then some [] else none := by
  unfold Call.sendNeeds inScratch
  rw [scratch, fine]
  rfl
/-- The bytes that a call sends from the caller's memory, and from scratchpad. -/
theorem sent_memory {s : State} {x : Call} (buf n : Nat) (plain : (x.arg 1).msb = false) : s.sent x buf n = s.asnLoad x.g.asn (x.num 1) n :=
  if_neg (by unfold inScratch; rw [plain]; decide)
theorem sent_scratch {s : State} {x : Call} (buf n : Nat) (scratch : (x.arg 1).msb = true) : s.sent x buf n = some (s.mem.bulk buf n) :=
  if_pos scratch

theorem serves_sysWrite {buf : Nat} {f : Fd} {g : Sheet} {bs : List Byte} (h : Serving s slot lane 0x23 x led true) (open_ : s.fdOf x = some f)
    (plain : (x.arg 1).msb = false) (sheet : s.sheet? x.g.sheet = some g) :
    (f.write = false → Serves (.sysWrite slot lane buf) s x led (svStatus 9) s) ∧
    (f.write = true → s.HasPages x [(x.num 1, x.num 2)] → s.asnLoad x.g.asn (x.num 1) (x.num 2) = some bs →
      (g.immio = true → Serves (.sysWrite slot lane buf) s x led (x.arg 2) (s.fileWrite f.inode (x.num 3) bs)) ∧
      (g.immio = false → Serves (.sysWrite slot lane buf) s x led (x.arg 2)
        (s.modSheet g.id fun h => { h with deferred := h.deferred ++ [(x.c.seq, x.lane, .write f.inode (x.num 3) bs)] }))) := by
  have run : exec (.sysWrite slot lane buf) s = _ := show execSysWrite slot lane buf s = _ by unfold execSysWrite; dsimp only
  have outside : inScratch (x.arg 1) = false := plain
  refine ⟨fun no => serves_of h run (rs := []) ?_ (hasPages_nil s x) ?_, fun yes pages bytes => ?_⟩
  · simp only [open_, Option.any_some, no]
    rfl
  · simp only [open_]
    exact if_pos (by rw [no]; rfl)
  · have needs : x.sendNeeds buf (x.num 2) (((s.fdOf x).any (·.write)) && (!inScratch (x.arg 1) || scratchOk (x.arg 1) (x.num 2))) =
        some [(x.num 1, x.num 2)] := sendNeeds_memory buf _ plain (by rw [open_, outside]; simpa using yes)
    have writes : (match s.fdOf x with
        | none => (svBadf, s)
        | some f => if !f.write then (svBadf, s) else if inScratch (x.arg 1) && !scratchOk (x.arg 1) (x.num 2) then (svInval, s)
          else match s.sent x buf (x.num 2) with
            | some bs => (x.arg 2, s.effect x (.write f.inode (x.num 3) bs))
            | none => (svFault, s)) = (x.arg 2, s.effect x (.write f.inode (x.num 3) bs)) := by
      simp only [open_, sent_memory buf _ plain, bytes, outside, yes]
      rfl
    exact ⟨fun now => serves_of h run needs pages (writes.trans (congrArg (Prod.mk _) (effect_now _ sheet now))),
      fun later => serves_of h run needs pages (writes.trans (congrArg (Prod.mk _) (effect_later _ sheet later)))⟩

theorem serves_sysWrite_scratch {buf : Nat} {f : Fd} {g : Sheet} (h : Serving s slot lane 0x23 x led true) (open_ : s.fdOf x = some f)
    (write : f.write = true) (scratch : (x.arg 1).msb = true) (ok : scratchOk (x.arg 1) (x.num 2) = true) (sheet : s.sheet? x.g.sheet = some g) :
    (x.copyRun buf (x.num 2) = false → exec (.sysWrite slot lane buf) s = .next s) ∧
    (x.copyRun buf (x.num 2) = true → g.immio = true →
      Serves (.sysWrite slot lane buf) s x led (x.arg 2) (s.fileWrite f.inode (x.num 3) (s.mem.bulk buf (x.num 2)))) := by
  have run : exec (.sysWrite slot lane buf) s = _ := show execSysWrite slot lane buf s = _ by unfold execSysWrite; dsimp only
  have needs : x.sendNeeds buf (x.num 2) (((s.fdOf x).any (·.write)) && (!inScratch (x.arg 1) || scratchOk (x.arg 1) (x.num 2))) =
      if x.copyRun buf (x.num 2) then some [] else none := sendNeeds_scratch buf _ scratch (by rw [open_, ok]; simpa using write)
  refine ⟨fun waits => run.trans (serve_waits h (needs.trans (if_neg (by rw [waits]; decide)))),
    fun copied now => serves_of h run (needs.trans (if_pos copied)) (hasPages_nil s x) ?_⟩
  simp only [open_, sent_scratch buf _ scratch, ok, write, effect_now _ sheet now]
  rw [Bool.not_true, Bool.and_false]
  rfl

theorem serves_sysFsize {f : Fd} {fl : File} (h : Serving s slot lane 0x24 x led true) (open_ : s.fdOf x = some f) (file : s.fileOf f = some fl) :
    Serves (.sysFsize slot lane) s x led (BitVec.ofNat 64 fl.len) s := by
  have named : (s.fdOf x).bind s.fileOf = some fl := by rw [open_]; exact file
  exact serves_plain h (show exec (.sysFsize slot lane) s = execSysFsize slot lane s from rfl) (by rw [named])

theorem serves_sysSocksend {count buf : Nat} {g : Sheet} {bs : List Byte} (h : Serving s slot lane 0x30 x led false) (sock : x.num 0 < 1024)
    (plain : (x.arg 1).msb = false) (sheet : s.sheet? x.g.sheet = some g) (now : g.immio = true)
    (pages : s.HasPages x [(x.num 1, min count (x.num 2))]) (bytes : s.asnLoad x.g.asn (x.num 1) (min count (x.num 2)) = some bs) :
    Serves (.sysSocksend slot lane count buf) s x led (BitVec.ofNat 64 (min count (x.num 2))) (s.sockOut (x.num 0) bs) := by
  have outside : inScratch (x.arg 1) = false := plain
  have needs : (decide (x.num 0 < 1024) && (!inScratch (x.arg 1) || scratchOffOk (x.arg 1))) = true := by
    rw [outside]
    simpa using sock
  refine serves_of h (show exec (.sysSocksend slot lane count buf) s = _ from show execSysSocksend slot lane count buf s = _ by unfold execSysSocksend; dsimp only)
    (sendNeeds_memory buf _ plain needs) pages ?_
  refine (if_neg (by omega)).trans ((if_neg (by rw [outside]; exact Bool.false_ne_true)).trans ?_)
  rw [sent_memory buf _ plain, bytes]
  exact congrArg (Prod.mk _) (effect_now _ sheet now)

theorem serves_sysSockrecv {count buf : Nat} {u : State} (h : Serving s slot lane 0x31 x led false) (plain : (x.arg 1).msb = false) :
    let bs := (s.sockRx (x.num 0)).take (min count (x.num 2))
    bs ≠ [] → s.HasPages x [(x.num 1, min (s.sockRx (x.num 0)).length (min count (x.num 2)))] → s.callStore x (x.num 1) bs = some u →
    Serves (.sysSockrecv slot lane count buf) s x led (BitVec.ofNat 64 bs.length) (u.sockDrop (x.num 0) bs.length) := by
  intro bs some_ pages stored
  have outside : inScratch (x.arg 1) = false := plain
  have inside : (!inScratch (x.arg 1)) = true := by rw [outside]; rfl
  have nonempty : ¬ bs.isEmpty = true := fun e => some_ (List.isEmpty_iff.mp e)
  refine serves_of h (show exec (.sysSockrecv slot lane count buf) s = _ from show execSysSockrecv slot lane count buf s = _ by unfold execSysSockrecv; dsimp only)
    (if_pos inside) pages ?_
  refine (if_neg nonempty).trans ((if_neg (by rw [outside]; decide)).trans ?_)
  rw [stored]
end

/-- Settles O42: nothing holds such a call up, and the shard then gives what the call's row says. -/
theorem kernelCallsOnData : Obligations.KernelCallsOnData := by
  unfold Obligations.KernelCallsOnData
  exact ⟨fun _ _ _ _ _ h => serves_sysTime h, fun _ _ _ _ _ h => serves_sysTimeset h, fun _ _ _ _ _ _ _ h => serves_sysAlloc h,
    fun _ _ _ _ _ _ h => serves_sysFree h, fun _ _ _ _ _ _ _ h => serves_sysOpen h, fun _ _ _ _ _ _ h => serves_sysOpen_flags h,
    fun _ _ _ _ _ h => serves_sysClose h, fun _ _ _ _ _ _ _ _ _ h => serves_sysRead h, fun _ _ _ _ _ _ _ _ h => serves_sysRead_scratch h,
    fun _ _ _ _ _ _ h => serves_sysRead_closed h, fun _ _ _ _ _ _ _ _ _ h => serves_sysWrite h,
    fun _ _ _ _ _ _ _ _ h => serves_sysWrite_scratch h, fun _ _ _ _ _ _ _ h => serves_sysFsize h,
    fun _ _ _ _ _ _ _ _ _ h => serves_sysSocksend h, fun _ _ _ _ _ _ _ _ h => serves_sysSockrecv h⟩
end Sys2Proof.Proofs

/-!
The statement about the calls on queues, windows, objects and registrations (R76, R299, R303, R340, R400, R403, R495).
-/
namespace Sys2Proof.Proofs
open Sys2Proof Sys2Proof.Machine Sys2Proof.Laws

section
variable {s : State} {slot lane : Nat} {x : Call} {led : Mask}

/-! ### Queues (R340, R403) -/

theorem serves_sysQcreate {n page p : Nat} (h : Serving s slot lane 0x40 x led false) (number : s.queueNumOk n = true)
    (free : s.subPageOk x.g.asn page = true) (proc : x.proc s = some p) (small : x.num 0 < 4) :
    Serves (.sysQcreate slot lane n page) s x led (Config.qcreateWord n page)
      { s with queues := s.queues ++ [{ num := n, page := some page, asn := x.g.asn, proc := p, ceiling := x.num 0
                                        quota := (((s.sheet? x.g.sheet).bind fun h => s.queue? h.queue).map (·.quota)).getD 224 }] } := by
  have fits : (!s.queueNumOk n || !(s.callAt slot).any (fun e => s.subPageOk e.1.asn page)) = false := by
    rw [number, h.found, Option.any_some, free]
    rfl
  refine serves_plain h (show execSysQcreate slot lane n page s = _ from if_neg (by rw [fits]; decide)) ?_
  rw [proc]
  exact if_neg (by omega)

/-- A registration of a completion address, once its queue is found. -/
theorem qintr_none (s : State) (q : Queue) (asn : Nat) {addr : DWord} (zero : addr.toNat = 0) :
    s.qintr (some q) asn addr = (0#64, s.modQueue q.num fun q => { q with qintr := none }) :=
  if_pos (by rw [zero]; rfl)
theorem qintr_some (s : State) (q : Queue) {asn a : Nat} {addr : DWord} (used : addr.toNat ≠ 0) (aligned : addr.toNat % 8 = 0)
    (mapped : s.asnPa asn addr.toNat true = some a) (host : paHost a = true) :
    s.qintr (some q) asn addr = (0#64, s.modQueue q.num fun q => { q with qintr := some a }) := by
  unfold State.qintr
  refine (if_neg (by simpa using used)).trans ?_
  rw [mapped]
  exact if_pos (by rw [host, aligned]; rfl)

theorem serves_sysQintr {q : Option Queue} {v : DWord} {u : State} (h : Serving s slot lane 0x41 x led false) (queue : x.queue s (x.num 0) = q)
    (gives : s.qintr q x.g.asn (x.arg 1) = (v, u)) : Serves (.sysQintr slot lane) s x led v u :=
  serves_plain h (show exec (.sysQintr slot lane) s = execSysQintr slot lane s from rfl) (by rw [queue]; exact gives)
theorem serves_sysQgrant {q : Option Queue} {v : DWord} {u : State} (h : Serving s slot lane 0x42 x led false) (queue : x.queue s (x.num 0) = q)
    (gives : s.qgrant q (x.num 1) (x.num 2) = (v, u)) : Serves (.sysQgrant slot lane) s x led v u :=
  serves_plain h (show exec (.sysQgrant slot lane) s = execSysQgrant slot lane s from rfl) (by rw [queue]; exact gives)
theorem serves_sysCaptreg {q : Option Queue} {v : DWord} {u : State} (h : Serving s slot lane 0x71 x led false) (queue : x.queue s (x.num 0) = q)
    (gives : s.captreg q (x.num 1) (x.num 2) = (v, u)) : Serves (.sysCaptreg slot lane) s x led v u :=
  serves_plain h (show exec (.sysCaptreg slot lane) s = execSysCaptreg slot lane s from rfl) (by rw [queue]; exact gives)

/-- The three answers to a grant on a queue of the process. -/
theorem serves_grants {q : Queue} (h : Serving s slot lane 0x42 x led false) (queue : x.queue s (x.num 0) = some q) :
    let rest := q.grants.filter (· != x.num 1)
    (x.num 2 = 1 → Serves (.sysQgrant slot lane) s x led 0#64 (s.modQueue q.num fun q => { q with grants := rest ++ [x.num 1] })) ∧
    (x.num 2 = 0 → Serves (.sysQgrant slot lane) s x led 0#64 (s.modQueue q.num fun q => { q with grants := rest })) ∧
    (2 ≤ x.num 2 → Serves (.sysQgrant slot lane) s x led (svStatus 22) s) := by
  refine ⟨fun one => serves_sysQgrant h queue ?_, fun zero => serves_sysQgrant h queue ?_, fun more => serves_sysQgrant h queue ?_⟩
  · exact if_pos (by rw [one]; rfl)
  · exact (if_neg (by rw [zero]; decide)).trans (if_pos (by rw [zero]; rfl))
  · exact (if_neg (by rw [beq_iff_eq]; omega)).trans (if_neg (by rw [beq_iff_eq]; omega))

/-- A call whose queue is another process's. -/
theorem serves_foreign (queue : x.queue s (x.num 0) = none) :
    (Serving s slot lane 0x41 x led false → Serves (.sysQintr slot lane) s x led (svStatus 1) s) ∧
    (Serving s slot lane 0x42 x led false → Serves (.sysQgrant slot lane) s x led (svStatus 1) s) ∧
    (Serving s slot lane 0x71 x led false → Serves (.sysCaptreg slot lane) s x led (svStatus 1) s) :=
  ⟨fun h => serves_sysQintr h queue rfl, fun h => serves_sysQgrant h queue rfl, fun h => serves_sysCaptreg h queue rfl⟩

theorem serves_capture {q : Queue} (h : Serving s slot lane 0x71 x led false) (queue : x.queue s (x.num 0) = some q)
    (base : x.num 1 % 65536 = 0) (len : x.num 2 % 65536 = 0) :
    Serves (.sysCaptreg slot lane) s x led 0#64 (s.modQueue q.num fun q =>
      { q with capArea := if x.num 2 = 0 then none else some (x.num 1, x.num 2), capRec := [], capFull := false }) := by
  refine serves_sysCaptreg h queue ((if_neg (by rw [base, len]; decide)).trans ?_)
  simp only [beq_iff_eq]

/-! ### Windows (R299, R303) -/

theorem serves_sysWinreg {e : Nat} {g : Sheet} (h : Serving s slot lane 0x50 x led false) (entry : e < 65536)
    (fresh : ∀ h ∈ s.sheets, ∀ w ∈ h.windows, w.entry ≠ e) (sheet : s.sheet? x.g.sheet = some g) (room : g.windows.length < 256)
    (kind : x.num 0 = 1) (quiet : lowField (x.arg 3) 0 48 = 0) (port : lowField (x.arg 3) 48 16 < 64)
    (mapped : (s.asnSegs x.g.asn (x.num 1) (x.num 2)).isSome = true) (inside : x.num 1 + x.num 2 ≤ 2 ^ 57) :
    Serves (.sysWinreg slot lane e) s x led (BitVec.ofNat 64 (e * 2 ^ 48)) (s.modSheet x.g.sheet fun h =>
      { h with windows := h.windows ++ [{ entry := e, isImport := false, base := x.num 1, len := x.num 2, notify := none }] }) := by
  have free : (decide (65536 ≤ e) || s.sheets.any fun h => h.windows.any fun w => w.entry == e) = false := by
    simpa using And.intro entry fresh
  refine serves_plain h (show execSysWinreg slot lane e s = _ from if_neg (by rw [free]; decide)) ?_
  have kinds : (decide (2 ≤ x.num 0) || decide (64 ≤ lowField (x.arg 3) 48 16)) = false := by simp [kind, port]
  have segs : ((s.asnSegs x.g.asn (x.num 1) (x.num 2)).isNone || decide (2 ^ 57 < x.num 1 + x.num 2)) = false := by
    rw [Option.isNone_eq_false_iff.mpr mapped, decide_eq_false (by omega)]
    rfl
  refine (if_neg (by rw [kinds]; decide)).trans ((if_neg ?_).trans ((if_neg (by rw [kind]; decide)).trans ((if_neg (by rw [segs]; decide)).trans ?_)))
  · rw [sheet]
    exact Nat.not_le.mpr room
  · rw [quiet]
    rfl

theorem serves_sysWinfree {g : Sheet} {w : Window} (h : Serving s slot lane 0x51 x led true) (sheet : s.sheet? x.g.sheet = some g)
    (found : (g.windows.find? fun w => w.entry == x.num 0 / 2 ^ 48) = some w) :
    Serves (.sysWinfree slot lane) s x led 0#64 (s.modSheet x.g.sheet fun h =>
      { h with windows := h.windows.filter fun w => w.entry != x.num 0 / 2 ^ 48 }) := by
  have window : ((s.sheet? x.g.sheet).bind fun h => h.windows.find? fun w => w.entry == x.num 0 / 2 ^ 48) = some w := by
    rw [sheet]
    exact found
  exact serves_plain h (show exec (.sysWinfree slot lane) s = execSysWinfree slot lane s from rfl) (by simp only [window])

/-! ### Objects (R76, R77, R395) -/

theorem serves_sysLoad {maps : List MapReq} {bs : List Byte} {u : State} (h : Serving s slot lane 0x60 x led false)
    (pages : s.HasPages x [(x.num 0, x.num 1), (x.num 2, 32)]) (bytes : s.asnLoad x.g.asn (x.num 0) (x.num 1) = some bs)
    (stored : (s.load x.g.asn bs maps).2.callStore x (x.num 2) (s.load x.g.asn bs maps).1.bytes = some u) :
    Serves (.sysLoad slot lane maps) s x led (BitVec.ofNat 64 (s.load x.g.asn bs maps).1.code) u := by
  refine serves_of h (show exec (.sysLoad slot lane maps) s = execSysLoad slot lane maps s from rfl) rfl pages ?_
  simp only [bytes, stored]

theorem sysLoad_asks {maps : List MapReq} (h : Serving s slot lane 0x60 x led false) :
    let away := (s.absentPages x.g.asn (x.num 0) (x.num 1) ++ s.absentPages x.g.asn (x.num 2) 32).filter fun p => !x.c.replied.contains p
    away ≠ [] → exec (.sysLoad slot lane maps) s =
      .next (s.modCall x.g.id x.c.slot fun c => { c with asked := (c.asked ++ away).eraseDups }) := by
  have ranges : ([(x.num 0, x.num 1), (x.num 2, 32)].flatMap fun e => s.absentPages x.g.asn e.1 e.2) =
      s.absentPages x.g.asn (x.num 0) (x.num 1) ++ s.absentPages x.g.asn (x.num 2) 32 := by
    simp only [List.flatMap_cons, List.flatMap_nil, List.append_nil]
  rw [← ranges]
  intro away some_
  show execSysLoad slot lane maps s = _
  exact serve_asks h rfl some_

/-! ### Registrations (R403, R495) -/

theorem serves_sysCkptreg (h : Serving s slot lane 0x70 x led false) :
    (x.admin s = false → Serves (.sysCkptreg slot lane) s x led (svStatus 1) s) ∧
    (x.admin s = true → paPool (x.num 0) = true → x.num 0 < 2 ^ 52 → x.num 0 % 2 ^ 30 = 0 → 769 * 2 ^ 30 ≤ x.num 1 →
      Serves (.sysCkptreg slot lane) s x led 0#64 { s with ckptReg := some (x.num 0, x.num 1) }) := by
  have run : exec (.sysCkptreg slot lane) s = execSysCkptreg slot lane s := rfl
  refine ⟨fun no => serves_plain h run (if_pos (by rw [no]; rfl)), fun yes pool low aligned long => serves_plain h run ?_⟩
  have placed : (!paPool (x.num 0) || decide (2 ^ 52 ≤ x.num 0) || x.num 0 % 2 ^ 30 != 0) = false := by
    rw [pool, decide_eq_false (by omega), aligned]
    rfl
  exact (if_neg (by rw [yes]; decide)).trans ((if_neg (by rw [placed]; decide)).trans (if_neg (by omega)))

theorem serves_sysFhold {p : Nat} (h : Serving s slot lane 0x72 x led false) (proc : x.proc s = some p) :
    (x.num 0 = 1 → Serves (.sysFhold slot lane) s x led 0#64 { s with fhold := s.fhold.filter (· != p) ++ [p] }) ∧
    (x.num 0 = 0 → Serves (.sysFhold slot lane) s x led 0#64 { s with fhold := s.fhold.filter (· != p) }) := by
  have run : exec (.sysFhold slot lane) s = execSysFhold slot lane s := rfl
  refine ⟨fun one => serves_plain h run ?_, fun zero => serves_plain h run ?_⟩ <;> simp only [proc]
  · exact if_pos (by rw [one]; rfl)
  · exact (if_neg (by rw [zero]; decide)).trans (if_pos (by rw [zero]; rfl))

theorem serves_owner {n : Nat} {r : DWord} (h : Serving s slot lane n x led false) (other : n ∉ tableCalls) :
    Serves (.sysOwnerHandlerCall slot lane r) s x led (if 0x8000 ≤ n then r else svStatus 38) s := by
  have number : x.c.callno = n := h.number
  refine serves_plain h (k := fun _ s => (if 0x8000 ≤ n then r else svNosys, s)) ?_ rfl
  show execSysOwnerHandlerCall slot lane r s = _
  unfold execSysOwnerHandlerCall
  rw [h.found]
  dsimp only
  rw [number]
  exact if_neg (by rw [List.contains_iff_mem]; exact other)

/-! ### Turns, and the calls of host processes -/

/-- A call out of its turn is not served. -/
theorem serve_out_of_turn {g : Group} {c : CallRec} {n : Nat} {merge : Bool} {k : Call → State → DWord × State}
    {need : Call → State → Option (List (Nat × Nat))} (found : s.callAt slot = some (g, c))
    (turn : s.inTurn { g, c, pa := slot, lane, args := s.mem.callArgs slot lane } = false) : s.serve slot lane n merge k need = .next s := by
  unfold State.serve
  rw [found]
  dsimp only
  exact if_pos (by rw [turn, Bool.not_false, Bool.or_true])
end

/-- A host process owns no queue of the number that it names. -/
theorem hostQueue_none {s : State} {asn n : Nat} (foreign : ∀ q ∈ s.queues, q.num = n → q.proc ≠ asn) :
    ((s.queue? n).filter fun q => q.proc == asn) = none := by
  rw [Option.filter_eq_none_iff]
  intro q hq
  have number : q.num = n := find_key Queue.num n s.queues q hq
  simpa using foreign q (List.mem_of_find?_eq_some hq) number

/-- Settles O43: nothing holds such a call up, and the shard then gives what the call's row says. -/
theorem kernelCallsOnSystem : Obligations.KernelCallsOnSystem := by
  unfold Obligations.KernelCallsOnSystem
  refine ⟨fun _ _ _ _ _ _ _ _ h => serves_sysQcreate h, fun _ _ _ _ _ _ h q z => serves_sysQintr h q (qintr_none _ _ _ z),
    fun _ _ _ _ _ _ _ h q u al m p => serves_sysQintr h q (qintr_some _ _ u al m p), fun _ _ _ _ _ _ h => serves_grants h,
    fun _ _ _ _ _ h => serves_foreign h, fun _ _ _ _ _ _ _ h => serves_sysWinreg h, fun _ _ _ _ _ _ _ h => serves_sysWinfree h,
    fun _ _ _ _ _ _ _ _ h => serves_sysLoad h, fun _ _ _ _ _ _ h => sysLoad_asks h, fun _ _ _ _ _ h => serves_sysCkptreg h,
    fun _ _ _ _ _ _ h => serves_capture h, fun _ _ _ _ _ _ h => serves_sysFhold h, fun _ _ _ _ _ _ _ h => serves_owner h,
    fun s asn a maps outsider => ?_, fun s asn a maps foreign n hn => ?_, fun s slot lane g c found turn => ⟨?_, ?_, fun n b => ?_⟩⟩
  · have no : s.owner.adminAsns.contains asn = false := by simpa using outsider
    exact ⟨if_neg (by rw [no]; decide), if_pos (by rw [no]; rfl)⟩
  · have none_ := hostQueue_none foreign
    have mem : n = 0x41 ∨ n = 0x42 ∨ n = 0x71 := by simpa using hn
    obtain rfl | rfl | rfl := mem <;> unfold State.hostServe <;> dsimp only <;> rw [none_] <;> rfl
  · show execSysTime slot lane s = _
    exact serve_out_of_turn found turn
  · show execSysClose slot lane s = _
    exact serve_out_of_turn found turn
  · show execSysSocksend slot lane n b s = _
    unfold execSysSocksend
    exact serve_out_of_turn found turn
end Sys2Proof.Proofs

/-!
The statement about rollback, checkpoints and re-runs (R421 to R428).
-/
namespace Sys2Proof.Proofs
open Sys2Proof Sys2Proof.Machine Sys2Proof.Laws

/-! ### Rollback (R423, R424) -/

/-- Only the pools, memory, its check bits and the dies change. -/
def SnapsOnly (s u : State) : Prop :=
  { u with mem := s.mem, bad := s.bad, dies := s.dies, snapUsed := s.snapUsed, poolFree := s.poolFree } = s
theorem clearMarks_dies (cs : List Nat) (s : State) : DiesOnly s (cs.foldl State.clearMarks s) := by
  induction cs generalizing s with
  | nil => rfl
  | cons c cs ih =>
    have first : DiesOnly s (s.clearMarks c) := rfl
    exact first.trans (ih (s.clearMarks c))
theorem restoreSnaps_parts (s : State) (h : Sheet) :
    SnapsOnly s (s.restoreSnaps h) ∧ (s.restoreSnaps h).mem = h.snaps.foldl (fun m e => m.store e.1 e.2) s.mem := by
  obtain ⟨stored, mem⟩ := shardStores_parts h.snaps s
  obtain ⟨cleared, same⟩ := (clearMarks_dies ((s.teams.filter fun t => t.sheet == h.id).flatMap (·.cores)).eraseDups
    (h.snaps.foldl (fun u e => u.shardStore e.1 e.2) s)).storesOnly
  have only := congrArg (fun x : State => ({ x with snapUsed := s.snapUsed, poolFree := s.poolFree } : State)) (stored.trans cleared)
  exact ⟨only, same.trans mem⟩

/-- What a rollback leaves of a sheet that has allocated nothing: memory as the snapshots say, and nothing that is the sheet's. -/
structure RolledBack (s : State) (h : Sheet) (u : State) : Prop where
  mem : u.mem = h.snaps.foldl (fun m e => m.store e.1 e.2) s.mem
  sheets : u.sheets = s.sheets
  groups : ∀ g ∈ u.groups, g.sheet ≠ h.id
  teams : ∀ t ∈ u.teams, t.sheet ≠ h.id
  fds : ∀ f ∈ u.fds, f.sheet ≠ h.id
/-- What a filter by another sheet keeps. -/
theorem kept_elsewhere {α : Type} {l : List α} {sheet : α → Nat} {n : Nat} : ∀ x ∈ l.filter (fun x => sheet x != n), sheet x ≠ n :=
  fun _ hx => by simpa using (List.mem_filter.mp hx).2
theorem rollback_parts (s : State) (h : Sheet) (none_ : ∀ b ∈ s.allocs, b.sheet ≠ h.id) : RolledBack s h (s.rollback h) := by
  obtain ⟨only, mem⟩ := restoreSnaps_parts s h
  have allocs : (s.restoreSnaps h).allocs = s.allocs := (congrArg State.allocs only : _)
  have empty : (((s.restoreSnaps h).stopSheet h).allocs.filter fun b => b.sheet == h.id) = [] := by
    show ((s.restoreSnaps h).allocs.filter fun b => b.sheet == h.id) = []
    rw [allocs, List.filter_eq_nil_iff]
    intro b hb
    simpa using none_ b hb
  have closed : s.rollback h = { (s.restoreSnaps h).stopSheet h with fds := (s.restoreSnaps h).fds.filter fun f => f.sheet != h.id } := by
    unfold State.rollback State.closeAll
    rw [empty]
    rfl
  rw [closed]
  exact ⟨mem, (congrArg State.sheets only : _), kept_elsewhere, kept_elsewhere, kept_elsewhere⟩

theorem sheetRollback_acts {s : State} {h : Sheet} (found : s.sheet? h.id = some h) (check : h.check = true) (live : h.st ≠ .done) :
    exec (.sheetRollback h.id) s =
      .next ((s.rollback h).modSheet h.id fun x => if h.replayable then x.again else x.ended 1).recheckTasks := by
  show execSheetRollback h.id s = _
  unfold execSheetRollback
  rw [found]
  exact if_neg (by simp [check, live])
theorem sheetRollback_idle {s : State} {h : Sheet} (found : s.sheet? h.id = some h) (idle : h.check = false ∨ h.st = .done) :
    exec (.sheetRollback h.id) s = .next s := by
  show execSheetRollback h.id s = _
  unfold execSheetRollback
  rw [found]
  exact if_pos (by obtain no | done := idle <;> simp [*])

theorem sheetRollback_parts (s : State) (h : Sheet) (found : s.sheet? h.id = some h) (check : h.check = true) (live : h.st ≠ .done)
    (none_ : ∀ b ∈ s.allocs, b.sheet ≠ h.id) :
    ∃ (t : State) (x : Sheet), exec (.sheetRollback h.id) s = .next t.recheckTasks ∧ t.mem = h.snaps.foldl (fun m e => m.store e.1 e.2) s.mem ∧
      t.sheet? h.id = some x ∧ (∀ g ∈ t.groups, g.sheet ≠ h.id) ∧ (∀ u ∈ t.teams, u.sheet ≠ h.id) ∧ (∀ f ∈ t.fds, f.sheet ≠ h.id) ∧
      x.check = false ∧ x.deferred = [] ∧ x.snaps = [] ∧
      ((h.immio = false ∧ h.noReplay = false ∧ h.replays < 3) → x.st = .accepted ∧ x.replays = h.replays + 1 ∧ x.record = h.record) ∧
      ((h.immio = true ∨ h.noReplay = true ∨ 3 ≤ h.replays) → x.st = .done ∧ x.result = 1) := by
  obtain ⟨mem, sheets, groups, teams, fds⟩ := rollback_parts s h none_
  have sheet : ((s.rollback h).modSheet h.id fun x => if h.replayable then x.again else x.ended 1).sheet? h.id =
      some (if h.replayable then h.again else h.ended 1) := by
    rw [sheet_modSheet _ _ _ _ (fun x => by split <;> rfl), sheet_congr sheets, found, Option.map_some, if_pos rfl]
  refine ⟨_, _, sheetRollback_acts found check live, mem, sheet, groups, teams, fds, ?_⟩
  cases replay : h.replayable with
  | true =>
    rw [if_pos rfl]
    have may : h.immio = false ∧ h.noReplay = false ∧ h.replays < 3 := by simpa [Sheet.replayable, and_assoc] using replay
    refine ⟨rfl, rfl, rfl, fun _ => ⟨rfl, rfl, rfl⟩, fun never => ?_⟩
    obtain ⟨imm, re, n⟩ := may
    obtain i | r | m := never
    · cases imm.symm.trans i
    · cases re.symm.trans r
    · omega
  | false =>
    rw [if_neg Bool.false_ne_true]
    refine ⟨rfl, rfl, rfl, fun ⟨imm, re, n⟩ => ?_, fun _ => ⟨rfl, rfl⟩⟩
    have may : h.replayable = true := by simp [Sheet.replayable, imm, re, n]
    cases replay.symm.trans may

/-! ### Checkpoints (R425, R426) -/

/-- Only the cores, the clusters, the dies and check bits change. -/
def FlushOnly (s u : State) : Prop := { u with cores := s.cores, clusters := s.clusters, dies := s.dies, bad := s.bad } = s
theorem FlushOnly.trans {s u v : State} (h : FlushOnly s u) (k : FlushOnly u v) : FlushOnly s v := by
  unfold FlushOnly at *
  rw [← k] at h
  exact h
theorem FlushOnly.groups {s u : State} (h : FlushOnly s u) : u.groups = s.groups := (congrArg State.groups h : _)
theorem ChargesOnly.flushOnly {s u : State} (h : ChargesOnly s u) : FlushOnly s u :=
  (congrArg (fun x : State => ({ x with dies := s.dies, bad := s.bad } : State)) h : _)
theorem flushL1_only (s : State) (core : Nat) (device : Bool) : FlushOnly s (s.flushL1 core device) :=
  (congrArg (fun x : State => ({ x with clusters := s.clusters } : State)) (flushL1_traffic s core device).1 : _)
theorem flushes_only (es : List (Nat × Core)) (s : State) : FlushOnly s (es.foldl (fun u e => u.flushL1 e.1 true) s) := by
  induction es generalizing s with
  | nil => rfl
  | cons e es ih => exact (flushL1_only s e.1 true).trans (ih _)
theorem chargeCopy_only (s : State) : ChargesOnly s s.chargeCopy := by
  have moves (ds : List Nat) : ∀ s : State, ChargesOnly s (ds.foldl (fun u d => u.chargeMove (16 * d) 5 [(d * 2 ^ 38, 192 * 2 ^ 30)]) s) := by
    induction ds with
    | nil => exact fun s => rfl
    | cons d ds ih => exact fun s => ((chargePieces_only s _ _ _).trans (chargeUnits_only _ _ _ _ _)).trans (ih _)
  exact moves [0, 1, 2, 3] s
/-- The state that a checkpoint copies: caches written back, the copy charged. -/
def flushed (s : State) : State := s.chargeCopy.cores.foldl (fun u e => u.flushL1 e.1 true) s.chargeCopy
theorem flushed_only (s : State) : FlushOnly s (flushed s) := (chargeCopy_only s).flushOnly.trans (flushes_only _ _)
/-- The state after the copy, before groups resume. -/
def imaged (s : State) (b : Nat) : State :=
  let t := flushed s
  { t with
    mem := t.mem.toPool b, bad := badToPool t.bad b, ckptStop := false
    ckpt := some
      { base := b, groups := t.groups, teams := t.teams, sheets := t.sheets, queues := t.queues, roots := t.roots
        bins := t.cores.map fun e => (e.1, e.2.bins), msgs := t.msgs, reserved := t.reserved, poolFree := t.poolFree
        poolNext := t.poolNext, freeing := t.freeing, allocs := t.allocs, fds := t.fds, snapUsed := t.snapUsed
        faultDescs := t.survs.map fun e => (e.1, (e.2.callq ++ e.2.heldq).filter fun d => d.type == 4) } }
/-- Nothing resumes where there is no group. -/
theorem resumeAll_none {s : State} (none_ : s.groups = []) : s.resumeAll = s := by
  unfold State.resumeAll
  rw [none_]
  rfl

section
variable {s : State} {b n : Nat}
/-- The region, the root port and class 5 that a checkpoint needs. -/
theorem checkpoint_held (held : s.ckptReg = none ∨ s.owner.rootPorts = [] ∨ s.ckptStalled = true) : exec .checkpoint s = .next s := by
  show execCheckpoint s = _
  unfold execCheckpoint
  cases reg : s.ckptReg with
  | none => rfl
  | some e =>
    obtain no | off | stalls := held
    · cases reg.symm.trans no
    · exact if_pos (by rw [off]; rfl)
    · exact if_pos (by rw [stalls, Bool.or_true])
/-- A checkpoint whose region is registered, by what it still waits for. -/
theorem checkpoint_eq (reg : s.ckptReg = some (b, n)) : exec .checkpoint s =
    if s.owner.rootPorts.isEmpty || s.ckptStalled then .next s
    else if !s.ckptStop then .next { s.chargeFrames.evictAll with ckptStop := true }
    else if !s.quiet then .next s
    else .next (imaged s b).resumeAll := by
  show execCheckpoint s = _
  unfold execCheckpoint
  rw [reg]
  rfl
theorem checkpoint_starts (reg : s.ckptReg = some (b, n)) (port : s.owner.rootPorts ≠ []) (moving : s.ckptStalled = false)
    (first : s.ckptStop = false) : exec .checkpoint s = .next { s.chargeFrames.evictAll with ckptStop := true } := by
  rw [checkpoint_eq reg, if_neg (by simp [port, moving]), if_pos (by rw [first]; rfl)]
theorem checkpoint_waits (reg : s.ckptReg = some (b, n)) (second : s.ckptStop = true) (busy : s.quiet = false) : exec .checkpoint s = .next s := by
  rw [checkpoint_eq reg]
  split
  · rfl
  · rw [if_neg (by rw [second]; decide), if_pos (by rw [busy]; rfl)]
theorem checkpoint_copies (reg : s.ckptReg = some (b, n)) (port : s.owner.rootPorts ≠ []) (moving : s.ckptStalled = false)
    (second : s.ckptStop = true) (still : s.quiet = true) (none_ : s.groups = []) :
    ∃ t c, exec .checkpoint s = .next t ∧ t.mem = s.mem.toPool b ∧ t.ckpt = some c ∧ c.base = b ∧ c.sheets = s.sheets ∧ c.queues = s.queues ∧
      c.roots = s.roots ∧ c.snapUsed = s.snapUsed ∧ c.allocs = s.allocs ∧ c.fds = s.fds ∧ t.ckptStop = false := by
  have only := flushed_only s
  have groups : (imaged s b).groups = [] := only.groups.trans none_
  have mem : (flushed s).mem = s.mem := (congrArg State.mem only : _)
  rw [checkpoint_eq reg, if_neg (by simp [port, moving]), if_neg (by rw [second]; decide), if_neg (by rw [still]; decide), resumeAll_none groups]
  exact ⟨_, _, rfl, congrArg (Mem.toPool · b) mem, rfl, rfl, (congrArg State.sheets only : _), (congrArg State.queues only : _),
    (congrArg State.roots only : _), (congrArg State.snapUsed only : _), (congrArg State.allocs only : _), (congrArg State.fds only : _), rfl⟩

/-- While a checkpoint waits, nothing new starts. -/
theorem checkpoint_stops (a b : Nat) (stop : s.ckptStop = true) : exec (.sheetStart a) s = .next s ∧ exec (.taskDispatch a b) s = .next s ∧
    exec (.teamPlacement a b) s = .next s ∧ exec (.gangPlacement a) s = .next s := by
  refine ⟨?_, ?_, ?_, ?_⟩
  · show execSheetStart a s = _
    have none_ : s.startable a = none := by
      unfold State.startable
      split
      · exact if_neg (by simp [stop])
      · rfl
    unfold execSheetStart
    rw [none_]
  · show execTaskDispatch a b s = _
    unfold execTaskDispatch
    split
    · exact if_pos (by simp [stop])
    · rfl
  · show execTeamPlacement a b s = _
    unfold execTeamPlacement
    split
    · rfl
    · exact if_pos (by simp [stop])
  · show execGangPlacement a s = _
    unfold execGangPlacement
    split
    · rfl
    · split
      · rfl
      · exact if_pos (by simp [stop])
end

/-! ### Restoring (R426, R442) -/

theorem getK_map_snd {α : Type} (m : List (Nat × α)) (d : α) (f : Nat → α → α) (k : Nat) :
    getK (m.map fun e => (e.1, f e.1 e.2)) d k = if m.any (fun e => e.1 == k) then f k (getK m d k) else d := by
  induction m with
  | nil => rfl
  | cons e m ih =>
    unfold getK at ih ⊢
    rw [List.map_cons, List.any_cons, List.find?_cons, List.find?_cons]
    cases same : e.1 == k with
    | true =>
      have key : e.1 = k := by simpa using same
      simp only [Bool.true_or, if_true, key]
    | false => simpa only [List.map_cons, Bool.false_or] using ih
/-- Cores that a list names are recorded as they are. -/
theorem recorded_cores {α : Type} (es : List (Nat × α)) (s : State) :
    { es.foldl (fun (u : State) e => u.modCore e.1 id) s with cores := s.cores } = s ∧
      ∀ k, (es.foldl (fun (u : State) e => u.modCore e.1 id) s).core k = s.core k := by
  induction es generalizing s with
  | nil => exact ⟨rfl, fun _ => rfl⟩
  | cons e es ih =>
    obtain ⟨rest, cores⟩ := ih (s.modCore e.1 id)
    refine ⟨(congrArg (fun x : State => ({ x with cores := s.cores } : State)) rest : _), fun k => (cores k).trans ?_⟩
    rw [core_modCore]
    split
    next same => rw [same]; rfl
    next => rfl
theorem recorded_survs {α : Type} (es : List (Nat × α)) (s : State) :
    { es.foldl (fun (u : State) e => u.modSurv e.1 id) s with survs := s.survs } = s := by
  induction es generalizing s with
  | nil => rfl
  | cons e es ih =>
    have rest := congrArg (fun x : State => ({ x with survs := s.survs } : State)) (ih (s.modSurv e.1 id))
    exact rest

/-- A core after a restore: its bins as they were copied, none of its caches and queues. -/
def restoredCore (c : Ckpt) (k : Nat) (x : Core) : Core :=
  { x with rot := [], mstate := {}, mowner := none, mopenQ := [], tlb := [], reqs := [], reqQ := [], fwd := [], l1 := [], badL1 := []
           bins := getK c.bins [] k }
/-- The state in which the cores and Surveyors of a copy are recorded. -/
def recorded (s : State) (c : Ckpt) : State := c.faultDescs.foldl (fun u e => u.modSurv e.1 id) (c.bins.foldl (fun u e => u.modCore e.1 id) s)
theorem recorded_parts (s : State) (c : Ckpt) :
    { recorded s c with cores := s.cores, survs := s.survs } = s ∧ ∀ k, (recorded s c).core k = s.core k := by
  obtain ⟨rest, cores⟩ := recorded_cores c.bins s
  have survs := recorded_survs c.faultDescs (c.bins.foldl (fun u e => u.modCore e.1 id) s)
  refine ⟨?_, fun k => ?_⟩
  · have both := congrArg (fun x : State => ({ x with cores := s.cores, survs := s.survs } : State)) survs
    exact both.trans (congrArg (fun x : State => ({ x with survs := s.survs } : State)) rest)
  · rw [← cores k]
    have list : (recorded s c).cores = (c.bins.foldl (fun u e => u.modCore e.1 id) s).cores := (congrArg State.cores survs : _)
    have ran : (recorded s c).ran = (c.bins.foldl (fun u e => u.modCore e.1 id) s).ran := (congrArg State.ran survs : _)
    unfold State.core
    rw [list, ran]

theorem checkpointRestore_parts (s : State) (c : Ckpt) (copy : s.ckpt = some c) (none_ : c.groups = []) :
    ∃ t, exec .checkpointRestore s = .next t ∧ t.mem = s.mem.fromPool c.base ∧ t.queues = c.queues ∧
      t.teams = (c.teams.map fun x => { x with wear := max x.wear (((s.team? x.id).map (·.wear)).getD 0) }) ∧
      t.sheets = (c.sheets.map fun x => { x with wear := max x.wear (((s.sheet? x.id).map (·.wear)).getD 0) }) ∧
      t.roots = c.roots ∧ t.groups = [] ∧ t.snapUsed = c.snapUsed ∧ t.bad = badFromPool s.bad c.base ∧ t.allocs = c.allocs ∧ t.fds = c.fds ∧
      t.trust = s.trust ∧ t.otpRetired = s.otpRetired ∧ ∀ k, (t.core k).wearTotal = (s.core k).wearTotal ∧ (t.core k).tlb = [] := by
  obtain ⟨rest, cores⟩ := recorded_parts s c
  have trust : (recorded s c).trust = s.trust := (congrArg State.trust rest : _)
  have otp : (recorded s c).otpRetired = s.otpRetired := (congrArg State.otpRetired rest : _)
  have run : ∃ t : State, exec .checkpointRestore s = .next t.resumeAll ∧ t.mem = s.mem.fromPool c.base ∧ t.queues = c.queues ∧
      t.teams = (c.teams.map fun x => { x with wear := max x.wear (((s.team? x.id).map (·.wear)).getD 0) }) ∧
      t.sheets = (c.sheets.map fun x => { x with wear := max x.wear (((s.sheet? x.id).map (·.wear)).getD 0) }) ∧
      t.roots = c.roots ∧ t.groups = c.groups ∧ t.snapUsed = c.snapUsed ∧ t.bad = badFromPool s.bad c.base ∧ t.allocs = c.allocs ∧
      t.fds = c.fds ∧ t.trust = (recorded s c).trust ∧ t.otpRetired = (recorded s c).otpRetired ∧ t.ran = (recorded s c).ran ∧
      t.cores = (recorded s c).cores.map fun e => (e.1, restoredCore c e.1 e.2) := by
    have step : exec .checkpointRestore s = execCheckpointRestore s := rfl
    unfold execCheckpointRestore at step
    rw [copy] at step
    exact ⟨_, step, rfl, rfl, rfl, rfl, rfl, rfl, rfl, rfl, rfl, rfl, rfl, rfl, rfl, rfl⟩
  obtain ⟨t, step, mem, queues, teams, sheets, roots, groups, snaps, bad, allocs, fds, trusts, retired, ran, list⟩ := run
  rw [resumeAll_none (groups.trans none_)] at step
  refine ⟨t, step, mem, queues, teams, sheets, roots, groups.trans none_, snaps, bad, allocs, fds, trusts.trans trust, retired.trans otp, fun k => ?_⟩
  have core : t.core k = if (recorded s c).cores.any (fun e => e.1 == k) then restoredCore c k (s.core k)
      else { Core.init with cycle := BitVec.ofNat 64 (36 * (recorded s c).ran) } := by
    rw [← cores k]
    unfold State.core
    rw [list, ran]
    exact getK_map_snd _ _ (restoredCore c) k
  rw [core]
  split
  · exact ⟨rfl, rfl⟩
  next unknown =>
    refine ⟨?_, rfl⟩
    have absent : s.core k = { Core.init with cycle := BitVec.ofNat 64 (36 * (recorded s c).ran) } := by
      rw [← cores k]
      unfold State.core getK
      rw [List.find?_eq_none.mpr]
      exact fun e he same => unknown (List.any_eq_true.mpr ⟨e, he, same⟩)
    rw [absent]

/-! ### Re-runs (R428) -/

theorem captureRerun_parts (s : State) (q : Queue) (h : Sheet) (queue : s.queue? q.num = some q) (sheet : s.sheet? h.id = some h)
    (mine : h.queue = q.num) (accepted : h.st = .accepted) (record : q.capRec ≠ []) :
    ∃ t x, exec (.captureRerun q.num h.id) s = .next t ∧ t.mem = (q.capRec.filterMap CapEntry.page?).foldl (fun m e => m.store e.1 e.2) s.mem ∧
      t.sheet? h.id = some x ∧ x.rerun = some (q.capRec.filter fun e => e.page?.isNone) := by
  obtain ⟨only, mem⟩ := shardStores_parts (q.capRec.filterMap CapEntry.page?) s
  have sheets : ((q.capRec.filterMap CapEntry.page?).foldl (fun u e => u.shardStore e.1 e.2) s).sheets = s.sheets := (congrArg State.sheets only : _)
  have run : exec (.captureRerun q.num h.id) s =
      .next (((q.capRec.filterMap CapEntry.page?).foldl (fun u e => u.shardStore e.1 e.2) s).modSheet h.id fun h =>
        { h with rerun := some (q.capRec.filter fun e => e.page?.isNone) }) := by
    show execCaptureRerun q.num h.id s = _
    unfold execCaptureRerun
    rw [queue, sheet]
    exact if_neg (by simp [mine, accepted, record])
  refine ⟨_, { h with rerun := some (q.capRec.filter fun e => e.page?.isNone) }, run, mem, ?_, rfl⟩
  refine (sheet_modSheet _ h.id h.id _ (by intro; rfl)).trans ?_
  rw [sheet_congr sheets, sheet]
  exact congrArg some (if_pos rfl)

/-- Settles O45: each act is its lists of stores, filters and tables. -/
theorem rollbackAndCheckpoint : Obligations.RollbackAndCheckpoint := by
  unfold Obligations.RollbackAndCheckpoint
  exact ⟨sheetRollback_parts, fun _ _ => sheetRollback_idle, fun _ => checkpoint_held, fun _ _ _ => checkpoint_starts,
    fun _ _ _ => checkpoint_waits, fun _ _ _ => checkpoint_copies, fun _ => checkpoint_stops,
    fun s none_ => show execCheckpointRestore s = _ by unfold execCheckpointRestore; rw [none_],
    checkpointRestore_parts, captureRerun_parts⟩
end Sys2Proof.Proofs

/-!
The statement about wear, clock steps, lane repair, retirement, scrubbing and budget periods (R430 to R447, R496).
-/
namespace Sys2Proof.Proofs
open Sys2Proof Sys2Proof.Machine Sys2Proof.Laws

/-! ### A report of one core (R430 to R432, R441) -/

/-- The core k and memory after acts that touch only the core's caches, its queue of lines and its rank. -/
def SameCore (k : Nat) (s u : State) : Prop :=
  { u.core k with l1 := (s.core k).l1, badL1 := (s.core k).badL1, reqs := (s.core k).reqs, rank := (s.core k).rank } = s.core k ∧ u.mem = s.mem
theorem SameCore.refl (k : Nat) (s : State) : SameCore k s s := ⟨rfl, rfl⟩
theorem SameCore.trans {k : Nat} {s u v : State} (h : SameCore k s u) (g : SameCore k u v) : SameCore k s v := by
  obtain ⟨first, mem⟩ := h
  obtain ⟨rest, memory⟩ := g
  rw [← rest] at first
  exact ⟨first, memory.trans mem⟩
theorem flushL1_sameCore (k : Nat) (s : State) (core : Nat) (device : Bool) : SameCore k s (s.flushL1 core device) := by
  obtain ⟨rest, cores⟩ := flushL1_traffic s core device
  exact ⟨(congrArg (fun c : Core => ({ c with rank := (s.core k).rank } : Core)) (cores k) : _), (congrArg State.mem rest : _)⟩
theorem promoted_sameCore (k : Nat) (s : State) (core : Nat) : SameCore k s (s.releaseAt core 4 false) := by
  have flush := flushL1_sameCore k s core true
  exact ⟨flush.1, flush.2⟩
theorem drainCommands_sameCore (k : Nat) (s : State) (core : Nat) : SameCore k s (s.drainCommands core) := ⟨rfl, rfl⟩
theorem rank_sameCore (k c r : Nat) (s : State) : SameCore k s (s.modCore c fun x => { x with rank := r }) := by
  refine ⟨?_, rfl⟩
  rw [core_modCore]
  split
  next same => subst same; rfl
  next => rfl
theorem ranks_sameCore (k : Nat) (r : Nat → Nat) (cs : List Nat) (s : State) :
    SameCore k s (cs.foldl (fun u c => u.modCore c fun x => { x with rank := r c }) s) := by
  induction cs generalizing s with
  | nil => exact .refl k s
  | cons c cs ih => exact (rank_sameCore k c (r c) s).trans (ih _)
theorem ranked_sameCore (k : Nat) (s : State) : SameCore k s s.ranked := ranks_sameCore k _ _ s

/-- A core moves to the state of its indices. -/
theorem moveCore_sameCore (k : Nat) (s : State) : SameCore k
    (s.modCore k fun c => { c with wst := nextWear (s.core k).wst (s.core k).li (s.core k).di ((s.core k).pairLost || s.manyChecks (s.core k)) })
    (s.moveCore k) := by
  unfold State.moveCore
  dsimp only
  split
  · exact (promoted_sameCore k _ k).trans (drainCommands_sameCore k _ k)
  · split
    · exact drainCommands_sameCore k _ k
    · exact .refl k _

/-- A core after its row of a report, with nobody to share its wear among. -/
def wornCore (c : Core) (wu di : Nat) : Core :=
  { c with wearTotal := c.wearTotal + wu, li := lifeIndex (c.wearTotal + wu), di := min 255 di, carry := c.carry + wu, charges := [] }
theorem setK_has {α : Type} (m : List (Nat × α)) (k : Nat) (x : α) : (setK m k x).any (fun e => e.1 == k) = true := by
  unfold setK
  split
  next there =>
    obtain ⟨e, he, same⟩ := List.any_eq_true.mp there
    exact List.any_eq_true.mpr ⟨(k, x), List.mem_map.mpr ⟨e, he, if_pos same⟩, beq_self_eq_true k⟩
  next => simp
theorem divideWear_alone {s : State} {k : Nat} (wu : Nat) (free : (s.core k).charges = []) :
    s.divideWear k wu = s.modCore k fun c => { c with carry := wu + (s.core k).carry, charges := [] } := by
  unfold State.divideWear
  dsimp only
  rw [free]
  rfl
theorem wearRow_core (s : State) (k wu di : Nat) (free : (s.core k).charges = []) :
    (s.wearRow { block := .core k, wu, di }).core k = wornCore (s.core k) wu di ∧ (s.wearRow { block := .core k, wu, di }).mem = s.mem ∧
      (s.wearRow { block := .core k, wu, di }).cores.any (fun e => e.1 == k) = true := by
  have worn : (s.modCore k fun c => { c with wearTotal := c.wearTotal + wu, li := lifeIndex (c.wearTotal + wu), di := min 255 di }).core k =
      { s.core k with wearTotal := (s.core k).wearTotal + wu, li := lifeIndex ((s.core k).wearTotal + wu), di := min 255 di } := by
    rw [core_modCore, if_pos rfl]
  have row : s.wearRow { block := .core k, wu, di } = (s.modCore k fun c => { c with
      wearTotal := c.wearTotal + wu, li := lifeIndex (c.wearTotal + wu), di := min 255 di }).divideWear k wu := rfl
  rw [row, divideWear_alone wu (by rw [worn]; exact free)]
  refine ⟨?_, rfl, setK_has _ _ _⟩
  rw [core_modCore, if_pos rfl, worn, Nat.add_comm wu]
  rfl
/-- No lane of a core is named any more. -/
def unnamed (s : State) : State := { s with cores := s.cores.map fun (k, c) => (k, { c with named := [] }) }
theorem unnamed_core {s : State} {k : Nat} (there : s.cores.any (fun e => e.1 == k) = true) : (unnamed s).core k = { s.core k with named := [] } :=
  (getK_map_snd s.cores _ (fun _ c => { c with named := [] }) k).trans (if_pos there)
/-- A core that moves after a report, and its rank among the others. -/
theorem moved_core {s : State} {k : Nat} (sound : (s.core k).checks = []) : SameCore k
    (s.modCore k fun c => { c with wst := nextWear (s.core k).wst (s.core k).li (s.core k).di (s.core k).pairLost }) (s.moveCore k).ranked := by
  have few : s.manyChecks (s.core k) = false := by
    unfold State.manyChecks
    rw [sound]
    rfl
  have moved := (moveCore_sameCore k s).trans (ranked_sameCore k (s.moveCore k))
  rw [few, Bool.or_false] at moved
  exact moved
theorem wearReport_run {s : State} (k wu di : Nat) (due : s.wearAt ≤ s.time) : exec (.wearReport [{ block := .core k, wu, di }] []) s =
    .next { ((unnamed (s.wearRow { block := .core k, wu, di })).moveCore k).ranked with wearAt := (s.time / 1000000 + 1) * 1000000 } := by
  show execWearReport [{ block := .core k, wu, di }] [] s = _
  unfold execWearReport
  rw [if_neg (by omega)]
  rfl
/-- A core after a report of it alone. -/
theorem wearReport_core (s : State) (k wu di : Nat) (c : Core) (due : s.wearAt ≤ s.time) (core : c = s.core k) (free : (s.core k).charges = [])
    (sound : (s.core k).checks = []) :
    ∃ t, exec (.wearReport [{ block := .core k, wu, di }] []) s = .next t ∧
      (t.core k).wearTotal = c.wearTotal + wu ∧ (t.core k).li = min 1023 ((c.wearTotal + wu) * 1000 / Config.ratedLife) ∧
      (t.core k).di = min 255 di ∧ (t.core k).carry = c.carry + wu ∧ (t.core k).named = [] ∧
      (t.core k).wst = nextWear c.wst (lifeIndex (c.wearTotal + wu)) (min 255 di) c.pairLost ∧ t.mem = s.mem := by
  subst core
  obtain ⟨worn, mem, there⟩ := wearRow_core s k wu di free
  have fresh := unnamed_core there
  rw [worn] at fresh
  obtain ⟨same, memory⟩ := moved_core (s := unnamed (s.wearRow { block := .core k, wu, di })) (k := k) (by rw [fresh]; exact sound)
  rw [core_modCore, if_pos rfl, fresh] at same
  refine ⟨_, wearReport_run k wu di due, ?_⟩
  generalize (unnamed (s.wearRow { block := .core k, wu, di })).moveCore k = moved at same memory ⊢
  exact ⟨(congrArg Core.wearTotal same : _), (congrArg Core.li same : _), (congrArg Core.di same : _), (congrArg Core.carry same : _),
    (congrArg Core.named same : _), (congrArg Core.wst same : _), memory.trans mem⟩
theorem wearReport_early {s : State} (es : List WearEntry) (fs : List LaneId) (early : s.time < s.wearAt) : exec (.wearReport es fs) s = .next s := by
  show execWearReport es fs s = _
  exact if_pos early

/-- At 1,000 or 70 a core drains. -/
theorem nextWear_drains (w : WearState) (li di : Nat) (drain : Bool) (live : w ≠ .retired) (worn : 1000 ≤ li ∨ 70 ≤ di ∨ drain = true) :
    nextWear w li di drain = .drained := by
  unfold nextWear
  rw [if_neg (by simpa using live)]
  exact if_pos (by simpa [or_assoc] using worn)
theorem nextWear_nominal (li di : Nat) (life : li < 1000) (aged : di < 70) :
    nextWear .nominal li di false = (if 900 ≤ li ∨ 40 ≤ di then .step1 else .nominal) := by
  unfold nextWear
  rw [if_neg (by decide), if_neg (by simp [life, aged])]
  simp only [Bool.or_eq_true, decide_eq_true_eq]

/-! ### Clock steps and `%lanemap` (R433, R437 to R439) -/

theorem recorded_list (cs : List Nat) (s : State) : { cs.foldl (fun (u : State) c => u.modCore c id) s with cores := s.cores } = s ∧
    ∀ k, (cs.foldl (fun (u : State) c => u.modCore c id) s).core k = s.core k := by
  have pairs := recorded_cores (cs.map fun c => (c, ())) s
  simpa only [List.foldl_map] using pairs
/-- The step that a cluster wants is the slowest of its four cores'. -/
theorem wantStep_spec (s : State) (cl : Nat) : (∀ c, c / 4 = 0 → (s.core (16 * cl + c)).wst.step ≤ s.wantStep cl) ∧
    (s.wantStep cl = 0 ∨ ∃ c, c / 4 = 0 ∧ s.wantStep cl = (s.core (16 * cl + c)).wst.step) := by
  have four : s.wantStep cl = max (max (max (s.core (16 * cl + 0)).wst.step (s.core (16 * cl + 1)).wst.step) (s.core (16 * cl + 2)).wst.step)
      (s.core (16 * cl + 3)).wst.step := by
    rw [← Nat.zero_max (s.core (16 * cl + 0)).wst.step]
    rfl
  rw [four]
  refine ⟨fun c hc => ?_, .inr ?_⟩
  · have small : c = 0 ∨ c = 1 ∨ c = 2 ∨ c = 3 := by omega
    obtain rfl | rfl | rfl | rfl := small <;> omega
  · rcases max_choice (max (max (s.core (16 * cl + 0)).wst.step (s.core (16 * cl + 1)).wst.step) (s.core (16 * cl + 2)).wst.step)
      (s.core (16 * cl + 3)).wst.step with three | last
    · rcases max_choice (max (s.core (16 * cl + 0)).wst.step (s.core (16 * cl + 1)).wst.step) (s.core (16 * cl + 2)).wst.step with two | third
      · rcases max_choice (s.core (16 * cl + 0)).wst.step (s.core (16 * cl + 1)).wst.step with first | second
        · exact ⟨0, rfl, three.trans (two.trans first)⟩
        · exact ⟨1, rfl, three.trans (two.trans second)⟩
      · exact ⟨2, rfl, three.trans third⟩
    · exact ⟨3, rfl, last⟩
theorem clusterClockStep_parts (s : State) (cl : Nat) (still : s.atBreaks cl = true) :
    ∃ t, exec (.clusterClockStep cl) s = .next t ∧ { t with clusters := s.clusters, cores := s.cores } = s ∧ (∀ c, t.core c = s.core c) ∧
      (∀ c, c / 4 = 0 → (s.core (16 * cl + c)).wst.step ≤ (t.cluster cl).step) ∧
      ((t.cluster cl).step = 0 ∨ ∃ c, c / 4 = 0 ∧ (t.cluster cl).step = (s.core (16 * cl + c)).wst.step) := by
  have run : exec (.clusterClockStep cl) s = execClusterClockStep cl s := rfl
  unfold execClusterClockStep at run
  by_cases done : (s.cluster cl).step = s.wantStep cl
  · rw [if_pos (by simp [done])] at run
    refine ⟨s, run, rfl, fun _ => rfl, ?_⟩
    rw [done]
    exact wantStep_spec s cl
  · rw [if_neg (by simp [done, still])] at run
    obtain ⟨rest, cores⟩ := recorded_list (clusterCores cl) s
    refine ⟨_, run, (congrArg (fun x : State => ({ x with clusters := s.clusters } : State)) rest : _), cores, ?_⟩
    rw [cluster_modCluster, if_pos rfl]
    exact wantStep_spec s cl
theorem clusterClockStep_waits {s : State} {cl : Nat} (moving : s.atBreaks cl = false) : exec (.clusterClockStep cl) s = .next s :=
  if_pos (by rw [moving, Bool.not_false, Bool.or_true])

theorem lanemapRewrite_parts (s : State) (k : Nat) (hs : List Half) (plan : (s.core k).nextHalves = some hs) (empty : ∀ g ∈ s.groups, g.core ≠ k) :
    ∃ t, exec (.lanemapRewrite k) s = .next t ∧ (t.core k).halves = hs ∧ (t.core k).nextHalves = none ∧
      (t.core k).twoPass = ((hs.getD 0 {}).lost || (hs.getD 1 {}).lost || (hs.getD 2 {}).lost || (hs.getD 3 {}).lost) ∧ t.groups = s.groups := by
  have none_ : s.groupsOn k = [] := List.filter_eq_nil_iff.mpr fun g hg => by simpa using empty g hg
  have run : exec (.lanemapRewrite k) s = execLanemapRewrite k s := rfl
  unfold execLanemapRewrite at run
  rw [none_, if_neg (by rw [plan]; exact Bool.false_ne_true)] at run
  have planned : (s.core k).planned = hs := by unfold Core.planned; rw [plan]; rfl
  refine ⟨s.modCore k Core.rewrite, run, ?_⟩
  rw [core_modCore, if_pos rfl, ← planned]
  exact ⟨rfl, rfl, rfl, rfl⟩
theorem lanemapRewrite_idle {s : State} {k : Nat} (none_ : (s.core k).nextHalves = none) : exec (.lanemapRewrite k) s = .next s :=
  if_pos (by rw [none_]; rfl)

/-! ### Retirement (R432) -/

theorem coreRetire_acts {s : State} {k : Nat} (drained : (s.core k).wst = .drained) (saved : ∀ g ∈ s.groups, g.core = k → g.st = .saved)
    (bins : (s.core k).bins = []) : exec (.coreRetire k) s = .next (s.retireCore k) := by
  refine if_pos ?_
  simpa [drained, bins] using saved
theorem coreRetire_waits {s : State} {k : Nat}
    (held : (s.core k).wst ≠ .drained ∨ (∃ g ∈ s.groups, g.core = k ∧ g.st ≠ .saved) ∨ (s.core k).bins ≠ []) :
    exec (.coreRetire k) s = .next s := by
  refine if_neg fun ready => ?_
  simp only [Bool.and_eq_true, beq_iff_eq, Bool.not_eq_true', List.isEmpty_iff] at ready
  obtain ⟨⟨drained, saved⟩, bins⟩ := ready
  obtain other | ⟨g, hg, here, live⟩ | some_ := held
  · exact other drained
  · have busy := List.any_eq_false.mp saved g hg
    simp [here, live] at busy
  · exact some_ bins

/-! ### Scrubbing (R329, R440) -/

theorem hbmScrub_moves {s : State} {page : Nat} (new ch : Nat) (bad : s.badRead (page / 65536 * 65536) 65536 = true) :
    exec (.hbmScrub page new ch) s = .next (s.movePage (page / 65536 * 65536) new) := if_pos bad
theorem ticketDone_keeps (s : State) (g : Nat) : { s.ticketDone g with doneTickets := s.doneTickets } = s := by
  unfold State.ticketDone
  split
  · rfl
  · rfl
theorem badRead_none {s : State} (none_ : s.bad = []) (pa n : Nat) : s.badRead pa n = false := by
  unfold State.badRead
  rw [none_]
  rfl
theorem hbmScrub_corrects {s : State} (page new ch : Nat) (sound : s.bad = []) (first : s.corrected = []) :
    exec (.hbmScrub page new ch) s = .next { s with corrected := [(ch, s.time)] } := by
  show execHbmScrub page new ch s = _
  unfold execHbmScrub
  dsimp only
  rw [if_neg (by rw [badRead_none sound]; decide), first]
  exact if_neg (by simp)
theorem hbmScrub_replaces {s : State} (page new ch : Nat) (sound : s.bad = []) (today : ∀ e ∈ s.corrected, e.1 = ch ∧ s.time < e.2 + day)
    (many : s.corrected.length = 64) : exec (.hbmScrub page new ch) s =
      .next ({ s with corrected := [], channels := s.channels ++ [ch] }.movePage (page / 65536 * 65536) (page / 65536 * 65536)) := by
  have recent : (s.corrected.filter fun e => s.time < e.2 + day) = s.corrected :=
    List.filter_eq_self.mpr fun e he => by simpa using (today e he).2
  have same : ∀ e ∈ s.corrected ++ [(ch, s.time)], e.1 = ch := by
    intro e he
    rcases List.mem_append.mp he with old | now
    · exact (today e old).1
    · rw [List.mem_singleton.mp now]
  have all : ((s.corrected ++ [(ch, s.time)]).filter fun e => e.1 == ch) = s.corrected ++ [(ch, s.time)] :=
    List.filter_eq_self.mpr fun e he => by simpa using same e he
  have rest : ((s.corrected ++ [(ch, s.time)]).filter fun e => e.1 != ch) = [] :=
    List.filter_eq_nil_iff.mpr fun e he => by simpa using same e he
  show execHbmScrub page new ch s = _
  unfold execHbmScrub
  dsimp only
  rw [if_neg (by rw [badRead_none sound]; decide), recent, all, rest]
  exact if_pos (by simp [many])
theorem movePage_parts (s : State) (page new : Nat) :
    (s.movePage page new).mem = (s.mappers page).foldl (fun m e => m.store e.2.1 (leBytes 8 0)) s.mem ∧
    (s.movePage page new).ticket = s.ticket + 1 ∧
    (s.mappers page = [] → (s.movePage page new).moves =
      s.moves ++ [{ base := page / 65536 * 65536, dst := new, bits := 16, ticket := s.ticket, leaves := [] }]) := by
  unfold State.movePage
  dsimp only
  refine ⟨(congrArg State.mem (ticketDone_keeps _ s.ticket) : _), (congrArg State.ticket (ticketDone_keeps _ s.ticket) : _), fun none_ => ?_⟩
  refine (congrArg State.moves (ticketDone_keeps _ s.ticket) : _).trans ?_
  dsimp only
  rw [none_]
  rfl
theorem landMove_mem (s : State) (m : PageMove) (none_ : m.leaves = []) : (s.landMove m).mem = s.mem.move m.base m.dst (2 ^ m.bits) := by
  unfold State.landMove
  dsimp only
  rw [none_]
  exact (congrArg State.mem (ticketDone_keeps _ s.ticket) : _)

/-! ### Budget periods (R446, R447) -/

/-- Settles O46: each act is what its tables and one pass over the cores give. -/
theorem wearAndBudgets : Obligations.WearAndBudgets := by
  unfold Obligations.WearAndBudgets
  refine ⟨fun _ es fs => wearReport_early es fs, wearReport_core, nextWear_drains, nextWear_nominal, fun _ _ => clusterClockStep_waits,
    clusterClockStep_parts, fun _ _ => lanemapRewrite_idle, lanemapRewrite_parts, fun _ _ => coreRetire_acts, fun _ _ => coreRetire_waits,
    fun _ _ new ch => hbmScrub_moves new ch, movePage_parts, landMove_mem, fun _ page new ch => hbmScrub_corrects page new ch,
    fun _ page new ch => hbmScrub_replaces page new ch, fun s cl begun => ?_, fun s cl same => ?_⟩
  · exact if_neg (Nat.not_le.mpr begun)
  · exact if_pos same
end Sys2Proof.Proofs

/-!
The statement about trust, protection, register writes, errors and hosts (R421, R446, R449 to R453, R460, R461, R466, R467, R491).
-/
namespace Sys2Proof.Proofs
open Sys2Proof Sys2Proof.Machine Sys2Proof.Laws

/-! ### What a boot keeps of the root of trust (R449, R450, R452) -/

theorem foldl_trust {α : Type} {f : State → α → State} (each : ∀ u x, (f u x).trust = u.trust) (l : List α) (s : State) :
    (l.foldl f s).trust = s.trust := by
  induction l generalizing s with
  | nil => rfl
  | cons x l ih => exact (ih (f s x)).trans (each s x)
theorem otp_trust (s : State) (b : WearBlock) (w : WearState) : (s.otp b w).trust = s.trust := by
  unfold State.otp
  split
  · rfl
  · rfl
theorem bootCore_trust (s : State) (c : Nat) : (s.bootCore c).trust = s.trust := otp_trust _ _ _
theorem bootSurv_trust (s : State) (k : Nat) : (s.bootSurv k).trust = s.trust := otp_trust _ _ _
theorem handOver_trust (s : State) (cl : Nat) : (s.handOver cl).trust = s.trust := by
  unfold State.handOver
  split
  · rfl
  · extract_lets d old v named pass k swap s1 mine others best s2
    have kept (t : State) (dst : Nat) (spare : Bool) : (pass t dst spare).trust = t.trust := rfl
    have changed (u : State) (i : Nat) : (swap u i).trust = u.trust := rfl
    split
    · have swapped : s1.trust = s.trust := by
        clear_value pass swap
        exact (foldl_trust changed [0, 1, 2, 3] (pass s k true)).trans (kept s k true)
      clear_value s1
      exact swapped
    · have passed : s2.trust = s.trust := by
        clear_value best
        unfold s2
        split
        · exact kept s _ false
        · rfl
      clear_value s2
      exact passed
theorem retireOne_trust (s : State) (c : Nat) :
    ((s.modCore c fun x => { x with wst := .retired }).otp (.core (s.physCore c)) .retired).trust = s.trust := otp_trust _ _ _
theorem bootRetire_trust (s : State) (cl : Nat) : (s.bootRetire cl).trust = s.trust := by
  unfold State.bootRetire
  dsimp only
  split
  · rfl
  · exact (handOver_trust _ cl).trans (foldl_trust retireOne_trust _ s)
theorem ranked_trust (s : State) : s.ranked.trust = s.trust := by
  unfold State.ranked
  exact foldl_trust (by intros; rfl) _ s
theorem bootQueue_trust (s : State) (host : Bool) (q : QueueReq) : (s.bootQueue host q).trust = s.trust := by
  unfold State.bootQueue
  split
  · rfl
  · rfl
theorem boot_trust (s : State) : s.boot.trust = s.trust.boot := by
  unfold State.boot
  extract_lets t s1 cls c v r m w q
  have cores : c.trust = t := foldl_trust bootCore_trust _ s1
  have survs : v.trust = t := (foldl_trust bootSurv_trust _ c).trans cores
  have ready : r.trust = t := (ranked_trust _).trans ((foldl_trust bootRetire_trust _ v).trans survs)
  have mapped : m.trust = t := (foldl_trust (by intros; rfl) _ _).trans ready
  have stepped : w.trust = t := (foldl_trust (by intros; rfl) _ m).trans mapped
  have queues : q.trust = t := (foldl_trust (fun u x => bootQueue_trust u false x) _ _).trans stepped
  split
  · rfl
  · split
    · exact stepped
    · exact queues
/-- A boot extends the log alone. -/
theorem bootFrom_owner (t : Trust) (k n : Nat) : (t.bootFrom k n).ownerAlg = t.ownerAlg ∧ (t.bootFrom k n).ownerKey = t.ownerKey ∧
    (t.bootFrom k n).slots = t.slots := by
  induction k generalizing t n with
  | zero => exact ⟨rfl, rfl, rfl⟩
  | succ k ih =>
    unfold Trust.bootFrom
    split
    · exact ⟨rfl, rfl, rfl⟩
    · exact ih _ _

/-! ### Power loss, quotes, ownership, seal keys (R449, R450, R452, R453, R460) -/

theorem read_filtered (m : Mem) (p : Host.Cell → Bool) (a : Nat) (out : ∀ b, p (a, b) = false) : Mem.read (m.filter p) a = 0#8 := by
  induction m with
  | nil => rfl
  | cons c m ih =>
    rw [List.filter_cons]
    split
    next keeps =>
      have other : (c.1 == a) = false := by
        refine beq_eq_false_iff_ne.mpr fun same => ?_
        have gone := out c.2
        rw [← same] at gone
        cases keeps.symm.trans gone
      exact (if_neg (by rw [other]; decide)).trans ih
    next => exact ih
theorem powerLoss_parts (s : State) : s.powerLoss.groups = [] ∧ s.powerLoss.teams = [] ∧ s.powerLoss.sheets = [] ∧ s.powerLoss.queues = [] ∧
    s.powerLoss.files = s.files ∧ s.powerLoss.trust.sealNext = s.trust.sealNext + Config.sealGap s.free ∧
    s.powerLoss.trust.slots = s.trust.slots ∧ s.powerLoss.trust.epoch = s.trust.epoch ∧ (∀ a, isHbm a = true → s.powerLoss.mem.read a = 0#8) :=
  ⟨rfl, rfl, rfl, rfl, rfl, rfl, rfl, rfl, fun a hbm => read_filtered s.mem _ a fun _ => by rw [hbm]; rfl⟩

theorem quoteRequest_acts (s : State) (nonce : List Byte) (live : s.trust.recovery = false) (size : nonce.length = 32) :
    let m := s.trust.log.flatten ++ nonce ++ leBytes 1 s.trust.epoch
    exec (.quoteRequest nonce) s = .next { s with trust := { s.trust with quote := m ++ Config.deviceSign m s.free }, free := s.free + 1 } :=
  if_neg (by rw [live, size]; decide)

theorem ownershipTransfer_parts (s : State) (alg key : Nat) (sig : List Byte) (live : s.trust.recovery = false) (ended : s.sheets = [])
    (owned : 0 < s.trust.epoch) (left_ : s.trust.epoch < 64) (known : alg = 1 ∨ alg = 2) :
    (Config.sigOk s.trust.ownerAlg s.trust.ownerKey (transferMsg s key) sig = true →
      ∃ t, exec (.ownershipTransfer alg key sig) s = .next t ∧ t.trust.epoch = s.trust.epoch + 1 ∧ t.trust.ownerAlg = alg ∧
        t.trust.ownerKey = key ∧ t.trust.slots = []) ∧
    (Config.sigOk s.trust.ownerAlg s.trust.ownerKey (transferMsg s key) sig = false →
      ∃ t, exec (.ownershipTransfer alg key sig) s = .next t ∧ t.trust = s.trust ∧ t.mem = s.mem) := by
  have owner : (s.trust.epoch == 0) = false := by simpa using Nat.ne_of_gt owned
  have run : exec (.ownershipTransfer alg key sig) s = execOwnershipTransfer alg key sig s := rfl
  unfold execOwnershipTransfer at run
  rw [if_neg (by rw [live]; decide), ended, if_neg (by decide)] at run
  dsimp only at run
  rw [owner] at run
  refine ⟨fun signed => ?_, fun unsigned => ?_⟩
  · have goes : ¬ (!(if false = true then Config.sigOk alg key (transferMsg s key) sig
        else Config.sigOk s.trust.ownerAlg s.trust.ownerKey (transferMsg s key) sig) || decide (64 ≤ s.trust.epoch) || !(alg == 1 || alg == 2)) = true := by
      obtain rfl | rfl := known <;> simp [signed, left_]
    rw [if_neg goes] at run
    refine ⟨_, run, ?_⟩
    rw [boot_trust]
    obtain ⟨-, epoch⟩ := bootFrom_counts { ({ s with free := s.free + 1 } : State).cleared.trust with
      slots := [], epoch := s.trust.epoch + 1, ownerAlg := alg, ownerKey := key, log := [logZero], recovery := false } 3 1
    obtain ⟨algs, keys, slots⟩ := bootFrom_owner { ({ s with free := s.free + 1 } : State).cleared.trust with
      slots := [], epoch := s.trust.epoch + 1, ownerAlg := alg, ownerKey := key, log := [logZero], recovery := false } 3 1
    exact ⟨epoch, algs, keys, slots⟩
  · rw [if_pos (by simp [unsigned])] at run
    exact ⟨_, run, rfl, rfl⟩
theorem ownershipTransfer_closes (s : State) (alg key : Nat) (sig : List Byte) (live : s.trust.recovery = false) (open_ : s.sheets ≠ []) :
    exec (.ownershipTransfer alg key sig) s = .next { s with closing := true } :=
  (if_neg (by rw [live]; decide)).trans (if_pos (by simp [open_]))

theorem sealKeyCreate_acts (s : State) (n alg : Nat) (sig : List Byte) (live : s.trust.recovery = false) (small : n < 16) (known : alg = 1 ∨ alg = 2)
    (empty : ∀ e ∈ s.trust.slots, e.1 ≠ n) (signed : s.trust.ownerSigned (keyCommand 1 n alg) sig = true) :
    exec (.sealKeyCreate n alg sig) s = .next { s with trust := { s.trust with
      slots := s.trust.slots ++ [(n, alg, Config.freshKey s.trust.keyCount)], keyCount := s.trust.keyCount + 1 } } := by
  have free : (s.trust.slots.any fun e => e.1 == n) = false := by simpa using empty
  refine if_neg ?_
  rw [live, free, signed]
  obtain rfl | rfl := known <;> simpa using small
theorem sealKeyCreate_refused (s : State) (n alg : Nat) (sig : List Byte)
    (wrong : 16 ≤ n ∨ s.trust.ownerSigned (keyCommand 1 n alg) sig = false) : exec (.sealKeyCreate n alg sig) s = .next s := by
  refine if_pos ?_
  obtain big | unsigned := wrong
  · simp [big]
  · rw [unsigned, Bool.not_false, Bool.or_true]
theorem sealKeyDestroy_eq (s : State) (n : Nat) (sig : List Byte) (live : s.trust.recovery = false) : exec (.sealKeyDestroy n sig) s =
    .next (if s.trust.ownerSigned (keyCommand 2 n 0) sig = true then
      { s with trust := { s.trust with slots := s.trust.slots.filter fun e => e.1 != n } } else s) := by
  show execSealKeyDestroy n sig s = _
  unfold execSealKeyDestroy
  rw [live]
  cases s.trust.ownerSigned (keyCommand 2 n 0) sig with
  | true => rfl
  | false => rfl
/-- R451: recovery mode takes none of TRUST's commands. -/
theorem recovery_refuses (s : State) (on : s.trust.recovery = true) : (∀ nonce, exec (.quoteRequest nonce) s = .next s) ∧
    (∀ alg key sig, exec (.ownershipTransfer alg key sig) s = .next s) ∧ (∀ n alg sig, exec (.sealKeyCreate n alg sig) s = .next s) ∧
    ∀ n sig, exec (.sealKeyDestroy n sig) s = .next s :=
  ⟨fun _ => if_pos (by rw [on, Bool.or_true]), fun _ _ _ => if_pos on, fun _ _ _ => if_pos (by rw [on]; rfl), fun _ _ => if_pos (by rw [on]; rfl)⟩

/-! ### Protection (R446, R467) -/

theorem thermal_parts (s : State) (c : Nat) : exec (.thermalTrip c) s = .next
      (if 115 ≤ c ∧ s.thermal = false then { s with thermal := true, thermalEvents := s.thermalEvents + 1 } else s) ∧
    exec (.thermalResume c) s = .next (if c < 100 then { s with thermal := false } else s) := by
  refine ⟨congrArg Host.Outcome.next ?_, rfl⟩
  simp only [Bool.and_eq_true, decide_eq_true_eq, Bool.not_eq_true']
theorem undervoltage_parts (s : State) (n : Nat) : (n ≠ 0 → exec (.undervoltage n) s = .next { s.powerLoss with undervolt := true, accepting := false }) ∧
    (n = 0 → s.undervolt = true → exec (.undervoltage n) s = .next { s.powerLoss.boot with undervolt := false }) ∧
    (n = 0 → s.undervolt = false → exec (.undervoltage n) s = .next s) := by
  have run : exec (.undervoltage n) s = execUndervoltage n s := rfl
  unfold execUndervoltage at run
  refine ⟨fun low => ?_, fun fine under => ?_, fun fine ok => ?_⟩
  · rwa [if_pos (by simpa using low)] at run
  · rwa [if_neg (by simp [fine]), if_pos under] at run
  · rwa [if_neg (by simp [fine]), if_neg (by rw [ok]; decide)] at run

/-! ### Writes of registers and of memory (R10, R321, R386, R387, R402) -/

section
variable {s : State} {a : Nat}

theorem registerWrite_stranger (addr : Nat) (w : DWord) (stranger : isAgent a = false) : exec (.registerWrite a addr w) s = .next s :=
  if_pos (by rw [stranger]; rfl)
theorem registerWrite_csr (w : DWord) (agent : isAgent a = true) (surv : a < 64) :
    exec (.registerWrite a 0x5C0 w) s = .next (s.modSurv a fun v => { v with svenable := lowField w 0 6 }) ∧
    exec (.registerWrite a 0x5C2 w) s = .next (s.modSurv a fun v => { v with svtimecmp := w }) := by
  have csr (c : Nat) (low : c < 4096) : exec (.registerWrite a c w) s = .next (s.csrWrite a c w) :=
    (if_neg (by rw [agent]; decide)).trans ((if_pos low).trans (congrArg Host.Outcome.next (if_pos surv)))
  exact ⟨csr 0x5C0 (by decide), csr 0x5C2 (by decide)⟩
/-- The blocks of R387. -/
theorem blockAt_eq (off : Nat) : blockAt off = if 0x100000 ≤ off ∧ off < 0x500000 ∧ (off - 0x100000) / 65536 % 16 ≠ 15 then
    some ((off - 0x100000) / 65536) else none := by
  unfold blockAt onPart
  have same : (decide (0x100000 ≤ off) && decide (off < 0x500000) &&
      (decide ((off - 0x100000) / 65536 < 64) && (off - 0x100000) / 65536 % 16 != 15)) = true ↔
      0x100000 ≤ off ∧ off < 0x500000 ∧ (off - 0x100000) / 65536 % 16 ≠ 15 := by
    simp only [Bool.and_eq_true, decide_eq_true_eq, bne_iff_ne]
    omega
  simp only [same]
/-- A write of an agent in the hub. -/
theorem registerWrite_hub {addr : Nat} (w : DWord) (agent : isAgent a = true) (low : 15 * 2 ^ 48 ≤ addr) (high : addr < 16 * 2 ^ 48) :
    exec (.registerWrite a addr w) s =
      .next (if addr % 8 = 0 then s.hubWrite a (addr - 15 * 2 ^ 48) w else s.badAccess (addr - 15 * 2 ^ 48)) := by
  have inside : (decide (hubBase ≤ addr) && decide (addr < hubBase + 2 ^ 48)) = true := by
    unfold hubBase
    simp only [Bool.and_eq_true, decide_eq_true_eq]
    omega
  have bytes : (leBytes 8 w.toNat).length = 8 := length_leBytes 8 w.toNat
  have value : BitVec.ofNat 64 (leNat (leBytes 8 w.toNat)) = w := by
    rw [leNat_leBytes, Nat.mod_eq_of_lt w.isLt, BitVec.ofNat_toNat, BitVec.setWidth_eq]
  have aligned : ((leBytes 8 w.toNat).length == 8 && (addr - hubBase) % 8 == 0) = decide (addr % 8 = 0) := by
    rw [bytes, beq_self_eq_true, Bool.true_and]
    unfold hubBase
    exact decide_eq_decide.mpr (by omega)
  have bus : s.busWrite a addr (leBytes 8 w.toNat) =
      some (if addr % 8 = 0 then s.hubWrite a (addr - 15 * 2 ^ 48) w else s.badAccess (addr - 15 * 2 ^ 48)) := by
    unfold State.busWrite
    rw [if_pos inside]
    dsimp only
    rw [aligned, value]
    simp only [decide_eq_true_eq]
    rfl
  show execRegisterWrite a addr w s = _
  unfold execRegisterWrite
  rw [if_neg (by rw [agent]; decide), if_neg (by omega), bus]
theorem registerWrite_table (off : Nat) (w : DWord) (agent : isAgent a = true) (inside : off < 2 ^ 48) (aligned : off % 8 = 0) :
    exec (.registerWrite a (15 * 2 ^ 48 + off) w) s = .next (s.hubWrite a off w) := by
  rw [registerWrite_hub w agent (by omega) (by omega), if_pos (by omega), Nat.add_sub_cancel_left]
/-- R402: the time. -/
theorem hubWrite_utc (s : State) (a : Nat) (w : DWord) : s.hubWrite a 0x2100 w = { s with utcBase := w } := by
  unfold State.hubWrite
  rw [if_neg (by decide), if_neg (by decide), if_pos (by decide)]
theorem badAccess_none (s : State) {off : Nat} (block : blockAt off = none) : s.badAccess off = s := by
  unfold State.badAccess
  rw [block]
theorem badAccess_some (s : State) {off k : Nat} (block : blockAt off = some k) : s.badAccess off = s.svErr k 3 := by
  unfold State.badAccess
  rw [block]
/-- A write above the hub's tables meets a Surveyor's block, or nothing. -/
theorem hubWrite_block {off : Nat} (w : DWord) (low : 0x100000 ≤ off) (high : off < 0x500000) :
    s.hubWrite a off w = match blockAt off with
      | some k => s.survWrite k (off % 65536) w
      | none => s := by
  unfold State.hubWrite
  have other (n : Nat) (small : n < 0x100000) : ¬ (off == n) = true := by
    rw [beq_iff_eq]
    omega
  have past (n m : Nat) (small : m ≤ 0x100000 ∨ 0x500000 ≤ n) : ¬ (decide (n ≤ off) && decide (off < m)) = true := by
    simp only [Bool.and_eq_true, decide_eq_true_eq]
    omega
  exact (if_neg (other _ (by decide))).trans ((if_neg (other _ (by decide))).trans ((if_neg (other _ (by decide))).trans
    ((if_neg (other _ (by decide))).trans ((if_neg (past _ _ (.inl (by decide)))).trans (if_neg (past _ _ (.inr (by decide))))))))
theorem registerWrite_block {k r : Nat} (w : DWord) (agent : isAgent a = true) (block : k < 64) (there : k % 16 ≠ 15) (inside : r < 65536)
    (aligned : r % 8 = 0) : exec (.registerWrite a (15 * 2 ^ 48 + 0x100000 + 65536 * k + r) w) s = .next (s.survWrite k r w) := by
  have off : 15 * 2 ^ 48 + 0x100000 + 65536 * k + r - 15 * 2 ^ 48 = 0x100000 + 65536 * k + r := by omega
  have number : (0x100000 + 65536 * k + r - 0x100000) / 65536 = k := by omega
  have place : (0x100000 + 65536 * k + r) % 65536 = r := by omega
  rw [registerWrite_hub w agent (by omega) (by omega), if_pos (by omega), off, hubWrite_block w (by omega) (by omega), blockAt_eq, number,
    if_pos ⟨by omega, by omega, there⟩]
  dsimp only
  rw [place]
theorem registerWrite_noBlock {k r : Nat} (w : DWord) (block : k < 64) (absent : k % 16 = 15) (inside : r < 65536) (aligned : r % 8 = 0) :
    exec (.registerWrite a (15 * 2 ^ 48 + 0x100000 + 65536 * k + r) w) s = .next s := by
  cases agent : isAgent a with
  | false => exact registerWrite_stranger _ w agent
  | true =>
    have off : 15 * 2 ^ 48 + 0x100000 + 65536 * k + r - 15 * 2 ^ 48 = 0x100000 + 65536 * k + r := by omega
    have number : (0x100000 + 65536 * k + r - 0x100000) / 65536 = k := by omega
    rw [registerWrite_hub w agent (by omega) (by omega), if_pos (by omega), off, hubWrite_block w (by omega) (by omega), blockAt_eq, number,
      if_neg (by omega)]
theorem registerWrite_memory {addr : Nat} (w : DWord) (agent : isAgent a = true) (up : 4096 ≤ addr) (out : addr < 15 * 2 ^ 48 ∨ 16 * 2 ^ 48 ≤ addr) :
    (addr + 8 ≤ 2 ^ 52 → paMapped s.pool addr = true → paMapped s.pool (addr + 7) = true →
      exec (.registerWrite a addr w) s = .next (s.shardStore addr (leBytes 8 w.toNat))) ∧
    (paMapped s.pool addr = false →
      exec (.registerWrite a addr w) s = .next (s.modHart a fun h => h.except 7 (BitVec.ofNat 64 addr))) := by
  have outside : ¬ (decide (hubBase ≤ addr) && decide (addr < hubBase + 2 ^ 48)) = true := by
    unfold hubBase
    simp only [Bool.and_eq_true, decide_eq_true_eq]
    omega
  have bus : s.busWrite a addr (leBytes 8 w.toNat) =
      if decide (addr + 8 ≤ 2 ^ 52) && paMapped s.pool addr && paMapped s.pool (addr + 7) then some (s.shardStore addr (leBytes 8 w.toNat)) else none := by
    unfold State.busWrite
    rw [if_neg outside, length_leBytes]
    rfl
  have run : exec (.registerWrite a addr w) s = execRegisterWrite a addr w s := rfl
  unfold execRegisterWrite at run
  rw [if_neg (by rw [agent]; decide), if_neg (by omega), bus] at run
  refine ⟨fun fits first last => ?_, fun unmapped => ?_⟩
  · rw [if_pos (by rw [decide_eq_true fits, first, last]; rfl)] at run
    exact run
  · rw [if_neg (by rw [unmapped]; simp)] at run
    exact run
end

/-! ### Errors, images and hosts (R421, R451, R466, R491) -/

theorem badWord_parts (s : State) (pa : Nat) : ∃ t, exec (.uncorrectableError (.mem pa)) s = .next t ∧ { t with bad := s.bad } = s ∧ pa / 4 ∈ t.bad ∧
    ∀ w ∈ s.bad, w ∈ t.bad := by
  refine ⟨{ s with bad := if s.bad.contains (pa / 4) then s.bad else s.bad ++ [pa / 4] }, rfl, rfl, ?_⟩
  dsimp only
  split
  next known => exact ⟨List.contains_iff_mem.mp known, fun _ hw => hw⟩
  next => exact ⟨by simp, fun w hw => List.mem_append_left _ hw⟩
theorem badTile_parts (s : State) (c x : Nat) : ∃ t, exec (.uncorrectableError (.tile c x)) s = .next t ∧ x ∈ (t.core c).mstate.badT ∧ t.mem = s.mem ∧
    t.groups = s.groups := by
  refine ⟨s.modCore c fun k => { k with mstate := { k.mstate with badT := (k.mstate.badT.filter (· != x)) ++ [x] } }, rfl, ?_, rfl, rfl⟩
  rw [core_modCore, if_pos rfl]
  simp
theorem recoveryImageWrite_refused (s : State) (n c : Nat) (i : Image) (wrong : s.trust.recovery = false ∨ n < 1 ∨ 3 < n) :
    exec (.recoveryImageWrite n c i) s = .next s :=
  if_pos (by obtain off | low | high := wrong <;> simp [*])
theorem recoveryImageWrite_acts (s : State) (n : Nat) (i : Image) (on : s.trust.recovery = true) (low : 1 ≤ n) (high : n ≤ 3) :
    exec (.recoveryImageWrite n 0 i) s = .next { s with trust := { s.trust with primary := s.trust.primary.set n (some i) } } ∧
    exec (.recoveryImageWrite n 1 i) s = .next { s with trust := { s.trust with backup := s.trust.backup.set n (some i) } } := by
  have takes : ¬ (!s.trust.recovery || decide (n < 1) || decide (3 < n)) = true := by
    rw [on]
    simp only [Bool.not_true, Bool.false_or, Bool.or_eq_true, decide_eq_true_eq]
    omega
  exact ⟨(if_neg takes).trans (if_pos rfl), (if_neg takes).trans (if_neg (by decide))⟩
theorem hostAppears_acts (s : State) (port : Nat) (qs : List QueueReq) (known : port < 8) (endpoint : port ∉ s.owner.rootPorts)
    (live : s.trust.recovery = false) (owned : s.trust.epoch ≠ 0) :
    exec (.hostAppears port qs) s = .next (qs.foldl (fun u q => u.bootQueue true q) s) :=
  if_neg (by simp [State.kernelServes, endpoint, live, owned, known])
theorem hostAppears_refused (s : State) (port : Nat) (qs : List QueueReq)
    (wrong : 8 ≤ port ∨ port ∈ s.owner.rootPorts ∨ s.trust.recovery = true ∨ s.trust.epoch = 0) : exec (.hostAppears port qs) s = .next s :=
  if_pos (by obtain far | root | recovery | unowned := wrong <;> simp [State.kernelServes, *])

/-- Settles O47: each act is one branch of its function, and a boot keeps what TRUST holds but for its log. -/
theorem trustAndProtection : Obligations.TrustAndProtection := by
  unfold Obligations.TrustAndProtection
  refine ⟨fun _ => rfl, powerLoss_parts, quoteRequest_acts, fun s nonce wrong => if_pos (by simp [wrong]), ownershipTransfer_closes,
    ownershipTransfer_parts, sealKeyCreate_acts, sealKeyCreate_refused, recovery_refuses, sealKeyDestroy_eq, thermal_parts, fun _ _ => rfl,
    fun _ _ => rfl, undervoltage_parts, fun _ _ w => registerWrite_csr w, fun _ _ addr w => registerWrite_stranger addr w,
    fun s a k w agent block there => ?_, fun s a addr w agent low high odd => ?_, blockAt_eq, fun _ _ _ _ w => registerWrite_noBlock w,
    fun s a w agent => ?_, fun _ _ _ w => registerWrite_memory w, badWord_parts, badTile_parts, recoveryImageWrite_refused,
    recoveryImageWrite_acts, hostAppears_acts, hostAppears_refused⟩
  · have at_ (addr r : Nat) (inside : r < 65536) (aligned : r % 8 = 0) (place : addr = 15 * 2 ^ 48 + 0x100000 + 65536 * k + r) :
        exec (.registerWrite a addr w) s = .next (s.survWrite k r w) := by
      rw [place]
      exact registerWrite_block w agent block there inside aligned
    exact ⟨at_ _ 0x010 (by decide) (by decide) (by omega), at_ _ 0x028 (by decide) (by decide) (by omega),
      at_ _ 0x018 (by decide) (by decide) (by omega), at_ _ 0x168 (by decide) (by decide) (by omega)⟩
  · have odd_ := (registerWrite_hub (s := s) w agent low high).trans (congrArg Host.Outcome.next (if_neg odd))
    cases block : blockAt (addr - 15 * 2 ^ 48) with
    | none => exact odd_.trans (congrArg Host.Outcome.next (badAccess_none s block))
    | some k => exact odd_.trans (congrArg Host.Outcome.next (badAccess_some s block))
  · exact (registerWrite_table 0x2100 w agent (by decide) (by decide)).trans (congrArg Host.Outcome.next (hubWrite_utc s a w))
end Sys2Proof.Proofs
